-- ==== Sys2Proof/Word.lean ====
section
/-! DEFINITION. Words, bytes, register numbers and the plainest operations on them [01 R8, R9; 02 R29]. -/

namespace Sys2Proof

/-- A byte of memory. -/
abbrev Byte := BitVec 8
/-- A 32-bit register, mask or instruction word. -/
abbrev W32 := BitVec 32
/-- A 64-bit pair, address or status word. -/
abbrev W64 := BitVec 64

/-- A general register g0-g63 [01 R8]. -/
abbrev GReg := Fin 64
/-- A uniform register k0-k191 [01 R8]. -/
abbrev KReg := Fin 192
/-- A predicate field: 0-6 name p0-p6, 7 names pt [02 R29]. -/
abbrev PReg := Fin 8
/-- A matrix handle m0-m15 [01 R8]. -/
abbrev MReg := Fin 16
/-- A physical lane [00 R4]. -/
abbrev LaneId := Fin 32

/-- Bit `n` of a lane mask. -/
def hasLane (mask : W32) (l : LaneId) : Bool := mask.getLsbD l.val

/-- The mask that holds the lanes for which `f` is true. -/
def maskOf (f : LaneId → Bool) : W32 :=
  (List.finRange 32).foldl (fun m l => if f l then m ||| BitVec.twoPow 32 l.val else m) 0

/-- The lanes of a mask in ascending order. -/
def lanesOf (mask : W32) : List LaneId := (List.finRange 32).filter (hasLane mask)

/-- The lowest-numbered lane of a mask; lane 0 for an empty mask. -/
def lowLane (mask : W32) : LaneId := (lanesOf mask).headD 0

/-- The number of lanes in a mask. -/
def laneCount (mask : W32) : Nat := (lanesOf mask).length

/-- The mask that holds one lane. -/
def oneLane (l : LaneId) : W32 := BitVec.twoPow 32 l.val

/-- The low and the high half of a 64-bit value; the even register of a pair holds the low half [01 R8]. -/
def lo32 (v : W64) : W32 := v.extractLsb' 0 32
def hi32 (v : W64) : W32 := v.extractLsb' 32 32

/-- The 64-bit value of a pair, from its low and its high register [01 R8]. -/
def pair (lo hi : W32) : W64 := hi ++ lo

/-- The register that follows `r`; only used where an encoding check makes `r` even or a multiple of four [01 R9]. -/
def GReg.plus (r : GReg) (n : Nat) : GReg := Fin.ofNat 64 (r.val + n)
def KReg.plus (r : KReg) (n : Nat) : KReg := Fin.ofNat 192 (r.val + n)

/-- Little-endian bytes of a number, lowest first [06 R114]. -/
def toBytes : Nat → Nat → List Byte
  | 0, _ => []
  | n + 1, v => BitVec.ofNat 8 v :: toBytes n (v / 256)

/-- The number that little-endian bytes stand for [06 R114]. -/
def ofBytes : List Byte → Nat
  | [] => 0
  | b :: bs => b.toNat + 256 * ofBytes bs

/-- `ceil (a / b)` for `b > 0`. -/
def ceilDiv (a b : Nat) : Nat := (a + b - 1) / b

/-- The fixed-length vector with `f` applied to every entry. -/
def mapV {α β : Type} {n : Nat} (v : Vector α n) (f : α → β) : Vector β n := Vector.ofFn fun i => f v[i]

/-- The fixed-length vector with `f` applied to entry `i`. -/
def updV {α : Type} {n : Nat} (v : Vector α n) (i : Fin n) (f : α → α) : Vector α n := v.set i (f v[i])

/-- The elements of a list with those that satisfy `p` replaced by their image. -/
def updWhere {α : Type} (p : α → Bool) (f : α → α) (l : List α) : List α :=
  l.map fun x => if p x then f x else x

end Sys2Proof
end

