-- ==== Sys2Proof/Syntax.lean ====
section
/-! DEFINITION. The instruction words and the events of the machine: one constructor of `Instr` for each row of the
opcode table [02 R29-R36]. Every encodable word but SCP and LIT carries its header, the K, S and G fields of
[02 R21]; register fields are numbers in range, operation codes are constructors. -/

namespace Sys2Proof

/-- The header of a word: K chains it to the next word, S is the settle marker, G the guard [02 R21]. -/
structure Hdr where
  k : Bool
  s : Bool
  g : PReg
  deriving DecidableEq, Repr

/-- The conditions of BR on the uniform flags [06 R96]. -/
inductive Cond where
  | al | eq | ne | lt | ge | ltu | geu | mi | pl | vs | vc | empty | nempty
  deriving DecidableEq, Repr

/-- The relations of ICMP and ICMPI [04 R71]. -/
inductive Cmp where
  | eq | ne | lt | le | gt | ge
  deriving DecidableEq, Repr

/-- How ICMP reads its operands [04 R71]. -/
inductive CmpTy where
  | s | z | s64 | z64
  deriving DecidableEq, Repr

/-- The relations of FCMP [05 R84]. -/
inductive FCmpOp where
  | eq | ne | lt | le | gt | ge | unord | ord
  deriving DecidableEq, Repr

/-- The formats that FCVT converts between [05 R90]. -/
inductive CvtFmt where
  | f32 | bf16 | f16 | e4m3 | e5m2 | e2m1 | s32 | u32
  deriving DecidableEq, Repr

/-- The rounding modes [03 R46]. -/
inductive Rnd where
  | rn | rz | ru | rd
  deriving DecidableEq, Repr

/-- The access sizes of format N; 111 is no size [02 R30]. -/
inductive AccSz where
  | s8 | z8 | s16 | z16 | w32 | w64 | w128
  deriving DecidableEq, Repr

/-- The ten memory scopes [14 R222]. -/
inductive Scope where
  | th | st | co | cl | di | dv | nd | pa | fb | sy
  deriving DecidableEq, Repr

/-- The orders that SCP gives an access [02 R31]. -/
inductive MOrder where
  | rlx | acq | rel | ar
  deriving DecidableEq, Repr

/-- What TLBI invalidates [06 R110]. -/
inductive TlbiKind where
  | pg | root | all
  deriving DecidableEq, Repr

/-- The operations of REDU and SCAN [10 R185]. -/
inductive RedOp where
  | iadd | iminS | imaxS | iminZ | imaxZ | andB | orB | xorB | fadd | fmin | fmax
  deriving DecidableEq, Repr

/-- Element widths of a matrix handle: 4, 8, 16 or 32 bits [02 R30, 07 R119]. -/
inductive EW where
  | w4 | w8 | w16 | w32
  deriving DecidableEq, Repr

/-- The block lengths of MHT [08 R161]. -/
inductive HtBlk where
  | b16 | b32 | b64
  deriving DecidableEq, Repr

/-- The engine contexts of a region's timelines [16 R263]. -/
inductive EngCtx where
  | copy | drain | coll | swap
  deriving DecidableEq, Repr

/-- The control and status registers, by the names of [01 R12]. -/
inductive Csr where
  | fpctl | fpstat | mxstat | tagrdy | traytimer | userscratch
  | laneid | strandid | taskidx | regionid | coreid | quadid | fragmask | clock | devid | batchn | blocksfree
  | traplanes | trapcause | trappc | trapinfo | detmode
  | status | ptbase | rcbbase | syscause | syspc | sysinfo | railsel | caratcap | leasebase | hotbase | mcstat
  deriving DecidableEq, Repr

/-- The operations that atomic words and remote atomics perform [14 R232]. -/
inductive AtOp where
  | add32 | add64 | addF32 | addBf16x2 | minS | maxS | minZ | maxZ | andB | orB | xorB | exch | cas32 | cas64
  deriving DecidableEq, Repr

/-- One row of a CDRAIN.add on its way to its target core [16 R261]. -/
structure DrainRow where
  src   : Nat          -- rank of the issuing device
  op    : Nat          -- the drain operation
  core  : Fin 256      -- target core
  first : Nat          -- first bank of the target run
  count : Nat          -- banks of the target run
  bank  : Nat          -- target bank
  row   : Nat          -- row within that bank, 0-255
  isInt : Bool         -- integer adds
  vals  : List (Option W32) -- the 64 elements; none where one could not be read
  deriving DecidableEq, Repr

/-- What a signet word asks of the tensor's home [19 R296, R303, R304]. -/
inductive VerdictAsk where
  | deref (shard : Nat)
  | fin (entry arg : W64)
  deriving DecidableEq, Repr

/-- The kinds of a collective [16 R265]. -/
inductive CollKind where
  | allreduce | reducescatter | allgather | alltoall
  deriving DecidableEq, Repr

/-- What a contribution to a collective says of it [16 R265]. -/
structure CollHead where
  region : Nat
  num    : Nat
  kind   : CollKind
  e      : Nat
  ty     : Nat
  op     : Nat
  deriving DecidableEq, Repr

/-- What an Eweoth transaction carries to its target [23 R361]: reads by address and length, writes by address and
bytes, in order. -/
inductive TxOp where
  | read (parts : List (Nat × Nat))
  | write (parts : List (Nat × List Byte))
  | atomic (op : AtOp) (addr : Nat) (v expect : W64)
  | drain (row : DrainRow)
  | post (lo check : W64)
  | verdict (lo check : W64) (ask : VerdictAsk)
  | sigTake (addr : Nat)
  | sigPut (addr : Nat) (lo check : W64)
  | coll (head : CollHead) (data : List (Option Byte))
  | hot (addr count : Nat)   -- a count added to a shadow entry, saturating [13 R216]
  deriving DecidableEq, Repr

/-- An Eweoth transaction: source, destination, end-to-end sequence, operation [23 R360]. -/
structure Transaction where
  src : Nat
  dst : Nat
  seq : BitVec 48
  op  : TxOp
  deriving DecidableEq, Repr

/-- What a transaction's target answers [23 R360, R362]. -/
inductive TxReply where
  | done                              -- applied, nothing to return
  | data (bs : List Byte)             -- bytes read, or an atomic's old value
  | verdict (code reason : Nat) (v : W64)  -- a signet verdict: code 0 is success
  | follow (lo check : W64)           -- a cell: the signet that it holds [19 R299]
  | rejected                          -- the target rejects the transaction
  deriving DecidableEq, Repr

/-- A 256-byte flit as its fields [23 R358]. -/
structure Flit where
  seq     : BitVec 24
  kind    : BitVec 4
  ack     : BitVec 24
  payload : List Byte
  crc     : W64
  deriving DecidableEq, Repr

/-- The words and the events of the machine, one constructor for each row of the opcode table. -/
inductive Instr where
  /-- Event. A ready fragment's passed-over count reaches 64 and it becomes eldest-equivalent [R178]. -/
  | passedOverLimit (sid : Nat) (slot : Fin 4)
  /-- Event. A recorded after-the-fact trap is taken at a fragment's group boundary [R393]. -/
  | heldTrapDelivery (sid : Nat) (slot : Fin 4)
  /-- Event. A queued report is written once the fault task's record is no longer in use [R330]. -/
  | faultReportDequeue (rid : Nat)
  /-- Event. A load, atomic or other variable-latency value arrives in its register [R16]. -/
  | memoryResultArrival (sid fid : Nat)
  /-- Event. Scrubbing or orphan write-back meets an uncorrectable error, reported to the root region [R335]. -/
  | scrubUncorrectable (key : Nat)
  /-- Event. An access-queue word's memory or casket accesses apply and its result arrives [R188]. -/
  | matrixAccessCompletion (sid fid : Nat)
  /-- Event. A cell word's cell phase ends and the array accepts the next cell word [R192]. -/
  | cellPhaseEnd (core : Fin 256) (quad : Fin 4)
  /-- Event. A cell word's pass ends; checksums are compared and results arrive or a rerun is ordered [R145]. -/
  | cellWordPassEnd (sid fid : Nat)
  /-- Event. The single rerun of a mismatching multiply takes the cell array [R145]. -/
  | checksumRerunStart (sid fid : Nat)
  /-- Event. One MEXP pass ends and the next pass's cell phase starts [R194]. -/
  | mexpPassEnd (sid fid : Nat)
  /-- Event. An element-path word's busy interval ends and the path accepts another word [R196]. -/
  | elementBusyEnd (core : Fin 256) (quad : Fin 4)
  /-- Event. An element-path word's results and flags arrive [R196]. -/
  | elementPathCompletion (sid fid : Nat)
  /-- Event. Returned blocks are granted to parked MACQ requests in age order [R179]. -/
  | macqParkedGrant (core : Fin 256) (quad : Fin 4)
  /-- Event. Granted handles arrive zeroed, with the success predicate [R196]. -/
  | macqArrival (sid fid : Nat)
  /-- Event. A failed MACQ.try writes its false predicates four cycles after issue [R196]. -/
  | macqTryFailArrival (sid fid : Nat)
  /-- Event. A parked CALLOC is granted a zeroed run of banks [R218]. -/
  | callocGrant (sid : Nat) (slot : Fin 4)
  /-- Event. A CFREE frees its banks after outstanding casket words and drains complete [R218]. -/
  | cfreeCompletion (sid : Nat) (slot : Fin 4)
  /-- Event. Every strand of the task has arrived and accepted casket words are complete; waiters continue [R246]. -/
  | barrierCompletion (tid : Nat)
  /-- Event. A parked AWT's counters reach their targets and it acquires [R247]. -/
  | awtCompletion (sid : Nat) (slot : Fin 4)
  /-- Event. A release in progress adds 1 to the clasp's count [R239]. -/
  | claspReleaseCompletion (clasp rel : Nat)
  /-- Event. A parked CLASP.ACQ acquires once no release is in progress [R239]. -/
  | claspAcqCompletion (sid : Nat) (slot : Fin 4)
  /-- Event. A parked UNBIND removes the binding after releases complete [R238]. -/
  | claspUnbindCompletion (sid : Nat) (slot : Fin 4)
  /-- Event. A triggered watch returns a parked MWAIT with pd true [R243]. -/
  | mwaitWake (sid : Nat) (slot : Fin 4)
  /-- Event. An MWAIT's timeout expires and it returns [R243]. -/
  | mwaitTimeout (sid : Nat) (slot : Fin 4)
  /-- Event. The TLBI sweep of its scope ends and the fragment resumes [R110]. -/
  | tlbiSweepCompletion (sid : Nat) (slot : Fin 4)
  /-- Event. A fence's masked engine operations complete and the fragment resumes [R230]. -/
  | fenceEngineCompletion (sid : Nat) (slot : Fin 4)
  /-- Event. A parked WTANY or WTALL observes its tags and acquires [R258]. -/
  | tagWaitCompletion (sid : Nat) (slot : Fin 4)
  /-- Event. A parked TLWAIT sees its target and acquires [R264]. -/
  | tlwaitCompletion (sid : Nat) (slot : Fin 4)
  /-- Event. A parked LYWAIT's layers are resident; it acquires and takes uses [R317]. -/
  | lywaitCompletion (sid : Nat) (slot : Fin 4)
  /-- Event. A CPY or CPYX finishes writing, sets its tag and advances the timeline [R256]. -/
  | copyCompletion (op : Nat)
  /-- Event. A drain row is written or acknowledged; the drain completes with its last row [R261]. -/
  | drainRowCompletion (op row : Nat)
  /-- Event. A CDRAIN.add row arriving at a target core is added into its run or discarded [R261]. -/
  | drainRowApply (row : DrainRow)
  /-- Event. A collective's destination bytes are visible on a device and it arrives [R267]. -/
  | collCompletion (op : Nat)
  /-- Event. The home device verifies an HNEW, HDEREF or HFIN request and acts on the descriptor [R296]. -/
  | homeVerdict (req : Nat)
  /-- Event. The home applies a drop post to a descriptor's returned weight [R301]. -/
  | dropPostApply (req : Nat)
  /-- Event. A signet word's verdict returns; results arrive or a held trap is recorded [R296]. -/
  | signetVerdictArrival (sid fid : Nat)
  /-- Event. The scheduler places a released task on the lowest core that fits [R284]. -/
  | taskPlacement (tid : Nat)
  /-- Event. A task that fits nowhere waits 1 ms and reserves its core against later tasks [R284]. -/
  | placementWaitLimit (tid : Nat)
  /-- Event. A ready task's strands launch and its state becomes running [R276]. -/
  | taskLaunch (tid : Nat)
  /-- Event. A task whose strands and spawned threads have ended completes its effects and ends [R280]. -/
  | taskEnd (tid : Nat)
  /-- Event. The scheduler links a region as live or refuses it [R279]. -/
  | regionLink (rcb : Nat)
  /-- Event. An ending region with no tasks or children returns its resources and unlinks [R279]. -/
  | regionEndCompletion (rid : Nat)
  /-- Event. The scheduler takes an intake entry naming a task record as TNEW or TNEWN [R288]. -/
  | intakeTaskEntry
  /-- Event. The scheduler takes an intake entry as RGEND [R288]. -/
  | intakeRgendEntry
  /-- Event. The scheduler takes an intake entry as RGNEW [R288]. -/
  | intakeRgnewEntry
  /-- Event. The scheduler skips a zero or reserved intake entry [R288]. -/
  | intakeSkipEntry
  /-- Event. A tray's traytimer expires and it launches a strand [R287]. -/
  | trayTimerExpiry (rid : Nat) (tray : Fin 16)
  /-- Event. The swap engine starts a layer fetch, numbering it on the swap timeline [R312]. -/
  | swapFetchStart (rid layer : Nat)
  /-- Event. An evicting layer becomes absent once earlier LYDONE releases complete [R311]. -/
  | evictionCompletion (rid layer : Nat)
  /-- Event. A fetched layer becomes resident and releases its residency clasp [R311]. -/
  | swapFetchCompletion (rid layer : Nat)
  /-- Event. A failed fetch leaves the layer absent with its fault bit and traps parked LYWAITs [R315]. -/
  | swapFetchFailure (rid layer cause : Nat)
  /-- Event. A fetch's source read gets no answer in 10 ms and fails [R315]. -/
  | swapFetchTimeout (rid layer : Nat)
  /-- Event. The scheduler or firmware pre-empts a task, halting its strands at group boundaries [R338]. -/
  | preemptionRequest (tid : Nat)
  /-- Event. The context-save engine writes a halted task's state to the save area [R339]. -/
  | contextSave (tid : Nat)
  /-- Event. A saved task is restored onto a core that fits [R340]. -/
  | taskRestore (tid : Nat)
  /-- Event. A fragment parked on one wait for 2^34 cycles raises watchdog [R337]. -/
  | watchdogParkExpiry (sid : Nat) (slot : Fin 4)
  /-- Event. A system handler running 2^30 cycles without ERET raises watchdog [R337]. -/
  | watchdogHandlerExpiry (sid : Nat) (slot : Fin 4)
  /-- Event. Every 100 us the package arbiter collects demand and grants each die a budget [R353]. -/
  | arbiterInterval (grants : List Nat)
  /-- Event. A die receives a grant and sets its bubble count [R353]. -/
  | dieGrant (die : Fin 4) (grant : Nat)
  /-- Event. A die without a grant for 100 us falls to its fail-safe floor [R355]. -/
  | grantTimeout (die : Fin 4)
  /-- Event. A core's rail change completes within 20 ns [R349]. -/
  | railChangeCompletion (core : Fin 256)
  /-- Event. The firmware governor sets a core's railsel or caratcap [R349]. -/
  | governorRailWrite (core : Fin 256) (high : Bool) (cap : BitVec 24)
  /-- Event. A sensor at 105 C limits its die to the floor grant [R382]. -/
  | thermalLimit (die : Fin 4)
  /-- Event. A sensor at 115 C removes core power from the package [R382]. -/
  | thermalShutdown (die : Fin 4)
  /-- Event. A link receives a data flit, checking CRC and sequence [R359]. -/
  | flitDataReceive (link : Fin 32) (flit : Flit)
  /-- Event. A link receives a nack and replays from the expected sequence [R359]. -/
  | flitNackReceive (link : Fin 32) (flit : Flit)
  /-- Event. A link receives an idle flit carrying acknowledgements [R358]. -/
  | flitIdleReceive (link : Fin 32) (flit : Flit)
  /-- Event. No ack for 100 us takes the link down for retraining [R359]. -/
  | linkAckTimeout (link : Fin 32)
  /-- Event. A downed link completes retraining [R359]. -/
  | linkRetrainCompletion (link : Fin 32)
  /-- Event. A target applies a remote transaction once or resends its stored response [R360]. -/
  | transactionReceive (tx : Transaction)
  /-- Event. A source receives a transaction's response [R360]. -/
  | transactionResponse (rank seq : Nat) (reply : TxReply)
  /-- Event. No response in 1 ms resends the transaction on another route [R360]. -/
  | transactionResendTimeout (rank seq : Nat)
  /-- Event. No response in 10 ms fails the transaction with its operation's effect [R362]. -/
  | transactionFailure (rank seq : Nat)
  /-- Event. A host port's BAR2 write is applied to device memory [R368]. -/
  | bar2Write (port : Fin 2) (addr : Nat) (data : List Byte) (relaxed : Bool)
  /-- Event. A host port's BAR2 read returns device memory [R368]. -/
  | bar2Read (port : Fin 2) (addr len : Nat)
  /-- Event. A PCIe FetchAdd on BAR2 is performed as an acq-rel atomic [R368]. -/
  | bar2Fetchadd (port : Fin 2) (addr : Nat) (wide : Bool) (v : W64)
  /-- Event. A PCIe Swap on BAR2 is performed as an acq-rel atomic [R368]. -/
  | bar2Swap (port : Fin 2) (addr : Nat) (wide : Bool) (v : W64)
  /-- Event. A PCIe CAS on BAR2 is performed as an acq-rel atomic [R368]. -/
  | bar2Cas (port : Fin 2) (addr : Nat) (wide : Bool) (expect v : W64)
  /-- Event. A keyed RSTCTL write from the semaphore 0 holder resets the device [R371]. -/
  | rstctlReset (port : Fin 2) (v : W32)
  /-- Event. A port requests a control-space semaphore [R370]. -/
  | semRequest (port : Fin 2) (n : Fin 16)
  /-- Event. A port releases a semaphore it owns [R370]. -/
  | semRelease (port : Fin 2) (n : Fin 16)
  /-- Event. Unmasking a vector sends one message for its pending events [R374]. -/
  | msixUnmask (port : Fin 2) (vec : Fin 2048)
  /-- Event. A write to a control-space register with no behaviour of its own [R367]. -/
  | controlRegisterWrite (port : Fin 2) (off : Nat) (data : List Byte)
  /-- Event. A Function Level Reset frees the port's semaphores and pending messages [R371]. -/
  | portFlr (port : Fin 2)
  /-- Event. A PCIe link down frees the port's semaphores and pending messages [R371]. -/
  | portLinkDown (port : Fin 2)
  /-- Event. A device access to a host page gets no completion in 50 ms and raises machine check [R369]. -/
  | hostCompletionTimeout (sid fid : Nat)
  /-- Event. A CXL access gets no response in 10 ms and raises machine check [R375]. -/
  | cxlResponseTimeout (sid fid : Nat)
  /-- Event. A poisoned CXL response raises machine check [R375]. -/
  | cxlPoisonResponse (sid fid : Nat)
  /-- Event. A port requests an attestation report [R379]. -/
  | attctlRequest (port : Fin 2) (v : W32)
  /-- Event. Smiurnen writes the signed report and sets the state ready [R379]. -/
  | attestationCompletion
  /-- Event. Power-on runs the verified bring-up sequence [R376]. -/
  | powerOnReset
  /-- Event. Issuing a word that is no defined instruction, such as a reserved major or minor or a non-zero must-be-zero field, raises illegal encoding (0x01) [R39]. -/
  | illegalEncoding (w : W32) (at_ : Fin 3)
  /-- Event. A CXL port goes down, and its outstanding accesses raise machine check with unit 10, or swap fault cause 1 for swap reads [R375]. -/
  | cxlPortDown (port : Fin 8)
  /-- Does no work; with S=1 it is a settle point [R39]. -/
  | nop (h : Hdr)
  /-- Prefix that gives scope and order to the following LD, ST, atomic, MLD or MST [R31]. -/
  | scp (scope : Scope) (order : MOrder)
  /-- Prefix that supplies a 32-bit literal for the following word [R32]. -/
  | lit (hi : Bool) (g : Fin 8) (body : BitVec 20)
  /-- Branches on the strand's uniform flags by a packet offset [R96]. -/
  | br (h : Hdr) (cc : Cond) (off : BitVec 16)
  /-- Branches when the predicate is false in every acting lane [R97]. -/
  | bnone (h : Hdr) (p : PReg) (off : BitVec 15)
  /-- Branches when the predicate is true in some acting lane [R97]. -/
  | bany (h : Hdr) (p : PReg) (off : BitVec 15)
  /-- Branches when the predicate is true in every acting lane [R97]. -/
  | ball (h : Hdr) (p : PReg) (off : BitVec 15)
  /-- Branches when the predicate is false in some acting lane [R97]. -/
  | bnall (h : Hdr) (p : PReg) (off : BitVec 15)
  /-- Divergent branch that splits the fragment by predicate or defers the not-taken lanes [R167]. -/
  | bdiv (h : Hdr) (p : PReg) (off : BitVec 17)
  /-- Writes the return PC into g62:g63 and transfers by a packet offset [R99]. -/
  | call (h : Hdr) (off : BitVec 20)
  /-- Indirect jump through a register pair, grouping lanes by target and possibly splitting [R168]. -/
  | jmpr (h : Hdr) (a : GReg)
  /-- Transfers to the PC held in a pair, faulting when the lanes' targets differ [R100]. -/
  | ret (h : Hdr) (a : GReg)
  /-- The acting lanes leave the strand, releasing their handles and discarding pending results [R103]. -/
  | exit (h : Hdr)
  /-- Merges the fragment into a fragment waiting at the join point, or waits there [R171]. -/
  | join (h : Hdr)
  /-- Marks the acting lanes as triggered for early successor release [R104]. -/
  | earlygo (h : Hdr)
  /-- Makes the fragment youngest in the selector's age order and skips its next cycle [R105]. -/
  | yield (h : Hdr)
  /-- Returns a handler fragment to its resume point with its entry lanes [R107]. -/
  | tret (h : Hdr)
  /-- Raises breakpoint to the user handler with a 16-bit code [R106]. -/
  | bkpt (h : Hdr) (code : BitVec 16)
  /-- Raises software trap to the user handler with a 16-bit code [R106]. -/
  | trap (h : Hdr) (code : BitVec 16)
  /-- Leaves the system handler, restoring the level from PPRV and transferring to syspc [R108]. -/
  | eret (h : Hdr)
  /-- Ends the issuing strand's task as a task-ending fault with a report from the system CSRs [R109]. -/
  | halt (h : Hdr)
  /-- Invalidates cached translations of a page, a table root or everything over a scope [R110]. -/
  | tlbi (h : Hdr) (a : GReg) (scope : Scope) (kind : TlbiKind)
  /-- Sets railsel and moves the issuing core to the low or high rail [R111]. -/
  | railsel (h : Hdr) (rail : Bool)
  /-- Reads a CSR into a register or pair [R112]. -/
  | csrr (h : Hdr) (d : GReg) (csr : Csr)
  /-- Writes a register into a CSR [R112]. -/
  | csrw (h : Hdr) (d : GReg) (csr : Csr)
  /-- Sets the CSR bits that are set in a register [R112]. -/
  | csrs (h : Hdr) (d : GReg) (csr : Csr)
  /-- Clears the CSR bits that are set in a register [R112]. -/
  | csrc (h : Hdr) (d : GReg) (csr : Csr)
  /-- 32-bit integer add [R62]. -/
  | iadd (h : Hdr) (d : GReg) (a : GReg) (b : GReg)
  /-- 32-bit integer subtract [R62]. -/
  | isub (h : Hdr) (d : GReg) (a : GReg) (b : GReg)
  /-- Signed minimum [R62]. -/
  | imin (h : Hdr) (d : GReg) (a : GReg) (b : GReg)
  /-- Signed maximum [R62]. -/
  | imax (h : Hdr) (d : GReg) (a : GReg) (b : GReg)
  /-- Unsigned minimum [R62]. -/
  | iminZ (h : Hdr) (d : GReg) (a : GReg) (b : GReg)
  /-- Unsigned maximum [R62]. -/
  | imaxZ (h : Hdr) (d : GReg) (a : GReg) (b : GReg)
  /-- Absolute signed difference written as z32 [R62]. -/
  | idiff (h : Hdr) (d : GReg) (a : GReg) (b : GReg)
  /-- Absolute value modulo 2^32 [R62]. -/
  | iabs (h : Hdr) (d : GReg) (a : GReg)
  /-- Bitwise AND [R64]. -/
  | andw (h : Hdr) (d : GReg) (a : GReg) (b : GReg)
  /-- Bitwise OR [R64]. -/
  | orw (h : Hdr) (d : GReg) (a : GReg) (b : GReg)
  /-- Bitwise XOR [R64]. -/
  | xorw (h : Hdr) (d : GReg) (a : GReg) (b : GReg)
  /-- a AND NOT b [R64]. -/
  | andn (h : Hdr) (d : GReg) (a : GReg) (b : GReg)
  /-- Shift left by a register amount [R64]. -/
  | ishl (h : Hdr) (d : GReg) (a : GReg) (b : GReg)
  /-- Logical shift right by a register amount [R64]. -/
  | ishr (h : Hdr) (d : GReg) (a : GReg) (b : GReg)
  /-- Arithmetic shift right by a register amount [R64]. -/
  | isar (h : Hdr) (d : GReg) (a : GReg) (b : GReg)
  /-- Rotate right by a register amount [R64]. -/
  | irot (h : Hdr) (d : GReg) (a : GReg) (b : GReg)
  /-- Low 32 bits of a product [R62]. -/
  | imul (h : Hdr) (d : GReg) (a : GReg) (b : GReg)
  /-- High 32 bits of a signed product [R62]. -/
  | imulhS (h : Hdr) (d : GReg) (a : GReg) (b : GReg)
  /-- High 32 bits of an unsigned product [R62]. -/
  | imulhZ (h : Hdr) (d : GReg) (a : GReg) (b : GReg)
  /-- Multiply and add into d modulo 2^32 [R62]. -/
  | imad (h : Hdr) (d : GReg) (a : GReg) (b : GReg)
  /-- Counts set bits of a register [R67]. -/
  | popc (h : Hdr) (d : GReg) (a : GReg)
  /-- Counts leading zeros of a register [R67]. -/
  | clz (h : Hdr) (d : GReg) (a : GReg)
  /-- Reverses the bits of a register [R67]. -/
  | brev (h : Hdr) (d : GReg) (a : GReg)
  /-- Finds the position of the n-th set bit of a register [R67]. -/
  | fns (h : Hdr) (d : GReg) (a : GReg) (b : GReg)
  /-- Counts set bits of a pair [R67]. -/
  | popc64 (h : Hdr) (d : GReg) (a : GReg)
  /-- Counts leading zeros of a pair [R67]. -/
  | clz64 (h : Hdr) (d : GReg) (a : GReg)
  /-- Reverses the bits of a pair [R67]. -/
  | brev64 (h : Hdr) (d : GReg) (a : GReg)
  /-- Finds the n-th set bit of a pair [R67]. -/
  | fns64 (h : Hdr) (d : GReg) (a : GReg) (b : GReg)
  /-- 64-bit add of pairs [R63]. -/
  | iadd64 (h : Hdr) (d : GReg) (a : GReg) (b : GReg)
  /-- 64-bit subtract of pairs [R63]. -/
  | isub64 (h : Hdr) (d : GReg) (a : GReg) (b : GReg)
  /-- 64-bit shift left of a pair [R63]. -/
  | ishl64 (h : Hdr) (d : GReg) (a : GReg) (b : GReg)
  /-- 64-bit logical shift right of a pair [R63]. -/
  | ishr64 (h : Hdr) (d : GReg) (a : GReg) (b : GReg)
  /-- Extracts a bit field with sign extension [R68]. -/
  | bfxS (h : Hdr) (d : GReg) (a : GReg) (b : GReg)
  /-- Extracts a bit field with zero extension [R68]. -/
  | bfxZ (h : Hdr) (d : GReg) (a : GReg) (b : GReg)
  /-- Inserts a bit field into d [R68]. -/
  | bfi (h : Hdr) (d : GReg) (a : GReg) (b : GReg)
  /-- Permutes bytes from a and d under a control register [R68]. -/
  | prmt (h : Hdr) (d : GReg) (a : GReg) (b : GReg)
  /-- Selects a or b by a predicate p0-p3 [R69]. -/
  | sel (h : Hdr) (d : GReg) (a : GReg) (b : GReg) (n : Fin 4)
  /-- Copies a register [R70]. -/
  | mov (h : Hdr) (d : GReg) (a : GReg)
  /-- Copies a register pair [R70]. -/
  | mov64 (h : Hdr) (d : GReg) (a : GReg)
  /-- Adds a sign-extended immediate [R65]. -/
  | iaddi (h : Hdr) (d : GReg) (a : GReg) (i : BitVec 8)
  /-- ANDs a zero-extended immediate [R65]. -/
  | andi (h : Hdr) (d : GReg) (a : GReg) (i : BitVec 8)
  /-- ORs a zero-extended immediate [R65]. -/
  | ori (h : Hdr) (d : GReg) (a : GReg) (i : BitVec 8)
  /-- XORs a zero-extended immediate [R65]. -/
  | xori (h : Hdr) (d : GReg) (a : GReg) (i : BitVec 8)
  /-- Shift left by an immediate amount [R66]. -/
  | ishli (h : Hdr) (d : GReg) (a : GReg) (n : Fin 32)
  /-- Logical shift right by an immediate amount [R66]. -/
  | ishri (h : Hdr) (d : GReg) (a : GReg) (n : Fin 32)
  /-- Arithmetic shift right by an immediate amount [R66]. -/
  | isari (h : Hdr) (d : GReg) (a : GReg) (n : Fin 32)
  /-- Rotate right by an immediate amount [R66]. -/
  | iroti (h : Hdr) (d : GReg) (a : GReg) (n : Fin 32)
  /-- Compares two integer registers or pairs into a predicate [R71]. -/
  | icmp (h : Hdr) (pd : PReg) (a : GReg) (b : GReg) (c : Cmp) (t : CmpTy)
  /-- Compares an integer with a 6-bit immediate into a predicate [R71]. -/
  | icmpi (h : Hdr) (pd : PReg) (a : GReg) (i : BitVec 6) (c : Cmp) (t : CmpTy)
  /-- Predicate AND [R72]. -/
  | pand (h : Hdr) (pd : PReg) (pa : PReg) (pb : PReg)
  /-- Predicate OR [R72]. -/
  | por (h : Hdr) (pd : PReg) (pa : PReg) (pb : PReg)
  /-- Predicate XOR [R72]. -/
  | pxor (h : Hdr) (pd : PReg) (pa : PReg) (pb : PReg)
  /-- Predicate AND NOT [R72]. -/
  | pandn (h : Hdr) (pd : PReg) (pa : PReg) (pb : PReg)
  /-- Adds a shifted signed index to a 64-bit base pair [R73]. -/
  | lea (h : Hdr) (d : GReg) (a : GReg) (b : GReg) (n : Fin 4)
  /-- Copies a uniform register into every executing lane [R74]. -/
  | movk (h : Hdr) (d : GReg) (k : KReg)
  /-- Adds a uniform register to a lane register [R74]. -/
  | iaddk (h : Hdr) (d : GReg) (a : GReg) (k : KReg)
  /-- Adds a signed lane offset to a uniform 64-bit base [R74]. -/
  | leak (h : Hdr) (d : GReg) (a : GReg) (k : KReg)
  /-- Copies a uniform register [R75]. -/
  | kmov (h : Hdr) (d : KReg) (a : KReg)
  /-- Uniform add setting N Z C V [R75]. -/
  | kadd (h : Hdr) (d : KReg) (a : KReg)
  /-- Uniform subtract setting N Z C V [R75]. -/
  | ksub (h : Hdr) (d : KReg) (a : KReg)
  /-- Uniform multiply setting N Z [R75]. -/
  | kmul (h : Hdr) (d : KReg) (a : KReg)
  /-- Uniform AND [R75]. -/
  | kand (h : Hdr) (d : KReg) (a : KReg)
  /-- Uniform OR [R75]. -/
  | kor (h : Hdr) (d : KReg) (a : KReg)
  /-- Uniform XOR [R75]. -/
  | kxor (h : Hdr) (d : KReg) (a : KReg)
  /-- Uniform shift left [R75]. -/
  | kshl (h : Hdr) (d : KReg) (a : KReg)
  /-- Uniform logical shift right [R75]. -/
  | kshr (h : Hdr) (d : KReg) (a : KReg)
  /-- Uniform arithmetic shift right [R75]. -/
  | ksar (h : Hdr) (d : KReg) (a : KReg)
  /-- Uniform signed minimum [R75]. -/
  | kmin (h : Hdr) (d : KReg) (a : KReg)
  /-- Uniform signed maximum [R75]. -/
  | kmax (h : Hdr) (d : KReg) (a : KReg)
  /-- Uniform compare that writes only the flags [R75]. -/
  | kcmp (h : Hdr) (d : KReg) (a : KReg)
  /-- Uniform population count [R75]. -/
  | kpopc (h : Hdr) (d : KReg) (a : KReg)
  /-- Uniform count of leading zeros [R75]. -/
  | kclz (h : Hdr) (d : KReg) (a : KReg)
  /-- Uniform find of the n-th set bit [R75]. -/
  | kfns (h : Hdr) (d : KReg) (a : KReg)
  /-- Loads a sign-extended immediate into a uniform register [R77]. -/
  | kli (h : Hdr) (d : KReg) (i : BitVec 12)
  /-- Adds an immediate to a uniform register, setting flags [R77]. -/
  | kaddi (h : Hdr) (d : KReg) (i : BitVec 12)
  /-- Uniform 32-bit plain load, variable latency [R78]. -/
  | kld (h : Hdr) (d : KReg) (a : KReg) (o : Fin 16)
  /-- Uniform 32-bit plain store [R78]. -/
  | kst (h : Hdr) (d : KReg) (a : KReg) (o : Fin 16)
  /-- Copies a named lane's register into a uniform register [R79]. -/
  | kget (h : Hdr) (d : KReg) (a : GReg) (lane : Fin 32)
  /-- FP32 add [R81]. -/
  | fadd (h : Hdr) (d : GReg) (a : GReg) (b : GReg)
  /-- FP32 subtract [R81]. -/
  | fsub (h : Hdr) (d : GReg) (a : GReg) (b : GReg)
  /-- FP32 multiply [R81]. -/
  | fmul (h : Hdr) (d : GReg) (a : GReg) (b : GReg)
  /-- FP32 fused multiply-add into d [R81]. -/
  | ffma (h : Hdr) (d : GReg) (a : GReg) (b : GReg)
  /-- FP32 minimum [R82]. -/
  | fmin (h : Hdr) (d : GReg) (a : GReg) (b : GReg)
  /-- FP32 maximum [R82]. -/
  | fmax (h : Hdr) (d : GReg) (a : GReg) (b : GReg)
  /-- FP32 absolute value [R82]. -/
  | fabs (h : Hdr) (d : GReg) (a : GReg)
  /-- FP32 negation [R82]. -/
  | fneg (h : Hdr) (d : GReg) (a : GReg)
  /-- Compares two FP32 values into a predicate, quiet or signalling [R84]. -/
  | fcmp (h : Hdr) (pd : PReg) (a : GReg) (b : GReg) (c : FCmpOp) (sig : Bool)
  /-- Correctly rounded reciprocal [R85]. -/
  | frcp (h : Hdr) (d : GReg) (a : GReg)
  /-- Reciprocal square root [R85]. -/
  | frsq (h : Hdr) (d : GReg) (a : GReg)
  /-- Correctly rounded square root [R85]. -/
  | fsqrt (h : Hdr) (d : GReg) (a : GReg)
  /-- Base-2 exponential [R85]. -/
  | fexp2 (h : Hdr) (d : GReg) (a : GReg)
  /-- Base-2 logarithm [R85]. -/
  | flog2 (h : Hdr) (d : GReg) (a : GReg)
  /-- Sine [R85]. -/
  | fsin (h : Hdr) (d : GReg) (a : GReg)
  /-- Cosine [R85]. -/
  | fcos (h : Hdr) (d : GReg) (a : GReg)
  /-- Hyperbolic tangent [R85]. -/
  | ftanh (h : Hdr) (d : GReg) (a : GReg)
  /-- Rounds to an integral value to nearest even [R88]. -/
  | frndRn (h : Hdr) (d : GReg) (a : GReg)
  /-- Rounds to an integral value toward zero [R88]. -/
  | frndRz (h : Hdr) (d : GReg) (a : GReg)
  /-- Rounds to an integral value toward +infinity [R88]. -/
  | frndRu (h : Hdr) (d : GReg) (a : GReg)
  /-- Rounds to an integral value toward -infinity [R88]. -/
  | frndRd (h : Hdr) (d : GReg) (a : GReg)
  /-- Writes a one-hot class mask of an FP32 value [R89]. -/
  | fclass (h : Hdr) (d : GReg) (a : GReg)
  /-- Converts between float and integer formats under a rounding mode [R90]. -/
  | fcvt (h : Hdr) (d : GReg) (a : GReg) (src : CvtFmt) (dst : CvtFmt) (rnd : Rnd)
  /-- Packs two FP32 values as BF16 [R92]. -/
  | pkbf (h : Hdr) (d : GReg) (a : GReg) (b : GReg)
  /-- Packs two FP32 values as FP16 [R92]. -/
  | pkh (h : Hdr) (d : GReg) (a : GReg) (b : GReg)
  /-- Inserts a packed element into d [R92]. -/
  | pkins (h : Hdr) (d : GReg) (a : GReg) (b : GReg)
  /-- Extracts a packed element [R92]. -/
  | upk (h : Hdr) (d : GReg) (a : GReg) (b : GReg)
  /-- Adds an E4M3 or literal FP32 immediate [R83]. -/
  | faddi (h : Hdr) (d : GReg) (a : GReg) (i : BitVec 8)
  /-- Multiplies by an E4M3 or literal FP32 immediate [R83]. -/
  | fmuli (h : Hdr) (d : GReg) (a : GReg) (i : BitVec 8)
  /-- Four-way s8 dot product accumulated into d [R93]. -/
  | dp4S8 (h : Hdr) (d : GReg) (a : GReg) (b : GReg)
  /-- Four-way z8 dot product accumulated into d [R93]. -/
  | dp4Z8 (h : Hdr) (d : GReg) (a : GReg) (b : GReg)
  /-- Four-way E4M3 window-sum dot product [R93]. -/
  | dp4E4 (h : Hdr) (d : GReg) (a : GReg) (b : GReg)
  /-- Four-way E5M2 window-sum dot product [R93]. -/
  | dp4E5 (h : Hdr) (d : GReg) (a : GReg) (b : GReg)
  /-- Eight-way s4 dot product [R93]. -/
  | dp8S4 (h : Hdr) (d : GReg) (a : GReg) (b : GReg)
  /-- Eight-way E2M1 window-sum dot product [R93]. -/
  | dp8F4 (h : Hdr) (d : GReg) (a : GReg) (b : GReg)
  /-- Two-way BF16 window-sum dot product [R93]. -/
  | dp2Bf (h : Hdr) (d : GReg) (a : GReg) (b : GReg)
  /-- Scales an FP32 value by two E8M0 scales and accumulates into d [R94]. -/
  | scacc (h : Hdr) (d : GReg) (a : GReg) (b : GReg)
  /-- Per-lane load of 1 to 16 bytes, variable latency [R114]. -/
  | ld (h : Hdr) (d : GReg) (a : GReg) (o : BitVec 5) (sz : AccSz)
  /-- Per-lane store of 1 to 16 bytes [R114]. -/
  | st (h : Hdr) (d : GReg) (a : GReg) (o : BitVec 5) (sz : AccSz)
  /-- Asks for a 128-byte line to be brought into L2 [R118]. -/
  | pfetch (h : Hdr) (a : GReg) (o : BitVec 5)
  /-- Full fence at a scope, waiting for masked engine operations [R230]. -/
  | fenceFull (h : Hdr) (scope : Scope) (eng : BitVec 5)
  /-- Acquire fence at a scope [R230]. -/
  | fenceAcq (h : Hdr) (scope : Scope) (eng : BitVec 5)
  /-- Release fence at a scope [R230]. -/
  | fenceRel (h : Hdr) (scope : Scope) (eng : BitVec 5)
  /-- 32-bit atomic add returning the old value [R232]. -/
  | atadd32 (h : Hdr) (d : GReg) (a : GReg) (b : GReg)
  /-- 64-bit atomic add [R232]. -/
  | atadd64 (h : Hdr) (d : GReg) (a : GReg) (b : GReg)
  /-- FP32 atomic add [R232]. -/
  | ataddF32 (h : Hdr) (d : GReg) (a : GReg) (b : GReg)
  /-- Paired BF16 atomic add [R232]. -/
  | ataddBf16x2 (h : Hdr) (d : GReg) (a : GReg) (b : GReg)
  /-- Atomic signed minimum [R232]. -/
  | atmmMinS (h : Hdr) (d : GReg) (a : GReg) (b : GReg)
  /-- Atomic signed maximum [R232]. -/
  | atmmMaxS (h : Hdr) (d : GReg) (a : GReg) (b : GReg)
  /-- Atomic unsigned minimum [R232]. -/
  | atmmMinZ (h : Hdr) (d : GReg) (a : GReg) (b : GReg)
  /-- Atomic unsigned maximum [R232]. -/
  | atmmMaxZ (h : Hdr) (d : GReg) (a : GReg) (b : GReg)
  /-- Atomic AND [R232]. -/
  | atlogAnd (h : Hdr) (d : GReg) (a : GReg) (b : GReg)
  /-- Atomic OR [R232]. -/
  | atlogOr (h : Hdr) (d : GReg) (a : GReg) (b : GReg)
  /-- Atomic XOR [R232]. -/
  | atlogXor (h : Hdr) (d : GReg) (a : GReg) (b : GReg)
  /-- Atomic exchange [R232]. -/
  | atlogExch (h : Hdr) (d : GReg) (a : GReg) (b : GReg)
  /-- 32-bit compare and swap [R232]. -/
  | cas32 (h : Hdr) (d : GReg) (a : GReg) (b : GReg)
  /-- 64-bit compare and swap [R232]. -/
  | cas64 (h : Hdr) (d : GReg) (a : GReg) (b : GReg)
  /-- Acquires a clasp, parking while a release is in progress [R239]. -/
  | claspAcq (h : Hdr) (a : GReg)
  /-- Starts a release that publishes the lane's bound writes [R239]. -/
  | claspRel (h : Hdr) (a : GReg)
  /-- Acquires a clasp only if no release is in progress [R239]. -/
  | claspTry (h : Hdr) (a : GReg) (pd : PReg)
  /-- Binds a physical range to a clasp at a scope [R238]. -/
  | claspBind (h : Hdr) (a : GReg) (b : GReg)
  /-- Removes a clasp binding once its releases complete [R238]. -/
  | claspUnbind (h : Hdr) (a : GReg)
  /-- Arms a watch on a 128-byte line [R242]. -/
  | monitor (h : Hdr) (a : GReg)
  /-- Parks until a watch triggers, a timeout expires or a pre-emption occurs [R243]. -/
  | mwait (h : Hdr) (a : GReg) (pd : PReg)
  /-- Disarms the executing lanes' watches [R242]. -/
  | mcancel (h : Hdr)
  /-- Shuffle from an indexed lane [R184]. -/
  | shflIdx (h : Hdr) (d : GReg) (a : GReg) (b : GReg)
  /-- Shuffle from the lane number XOR x [R184]. -/
  | shflXor (h : Hdr) (d : GReg) (a : GReg) (b : GReg)
  /-- Shuffle from a lower lane [R184]. -/
  | shflUp (h : Hdr) (d : GReg) (a : GReg) (b : GReg)
  /-- Shuffle from a higher lane [R184]. -/
  | shflDown (h : Hdr) (d : GReg) (a : GReg) (b : GReg)
  /-- Reduces a register over the participating lanes into a uniform register [R186]. -/
  | redu (h : Hdr) (kd : KReg) (a : GReg) (op : RedOp)
  /-- Inclusive or exclusive prefix operation over participating lanes [R186]. -/
  | scan (h : Hdr) (d : GReg) (a : GReg) (op : RedOp) (excl : Bool)
  /-- Packs values of predicated lanes to the low ranks [R187]. -/
  | compress (h : Hdr) (d : GReg) (a : GReg) (p : PReg)
  /-- Distributes packed values to predicated lanes [R187]. -/
  | expand (h : Hdr) (d : GReg) (a : GReg) (p : PReg)
  /-- Writes the mask of lanes holding an equal value [R187]. -/
  | matchw (h : Hdr) (d : GReg) (a : GReg)
  /-- Writes the mask of lanes whose predicate is true [R187]. -/
  | ballot (h : Hdr) (d : GReg) (p : PReg)
  /-- Waits at the task-wide barrier [R246]. -/
  | bar (h : Hdr)
  /-- Atomically adds to an arrival counter with release order [R247]. -/
  | arrv (h : Hdr) (a : GReg) (b : GReg) (scope : Scope)
  /-- Parks until arrival counters reach their targets, then acquires [R247]. -/
  | awt (h : Hdr) (a : GReg) (b : GReg) (scope : Scope)
  /-- Adds a thread record to a spawn tray [R286]. -/
  | spawn (h : Hdr) (a : GReg) (b : GReg)
  /-- Takes up a task record [R275]. -/
  | tnew (h : Hdr) (a : GReg)
  /-- Takes up a task record as a batch of n tasks [R275]. -/
  | tnewn (h : Hdr) (a : GReg) (b : GReg)
  /-- Cancels a waiting, released or running task [R278]. -/
  | tcancel (h : Hdr) (a : GReg)
  /-- Decrements a task's dependence counter [R277]. -/
  | depdec (h : Hdr) (a : GReg)
  /-- Adds to a task's dependence counter [R277]. -/
  | depadd (h : Hdr) (a : GReg) (b : GReg)
  /-- Reads a task's state and counter [R277]. -/
  | depget (h : Hdr) (a : GReg) (b : GReg)
  /-- Links a region as a child and parks until it is live or refused [R279]. -/
  | rgnew (h : Hdr) (a : GReg)
  /-- Sets a live region to ending [R279]. -/
  | rgend (h : Hdr) (a : GReg)
  /-- Sets a live region's priority [R279]. -/
  | rgpri (h : Hdr) (a : GReg) (b : GReg)
  /-- Acquires matrix handles for the executing lanes, parking until blocks are free [R126]. -/
  | macq (h : Hdr) (d : MReg) (r : Fin 16) (c : Fin 16) (ew : EW)
  /-- Acquires matrix handles or reports failure in a predicate [R126]. -/
  | macqTry (h : Hdr) (d : MReg) (r : Fin 16) (c : Fin 16) (ew : EW) (pd : PReg)
  /-- Releases a matrix handle [R127]. -/
  | mrel (h : Hdr) (d : MReg)
  /-- Loads a matrix by rows [R130]. -/
  | mldRow (h : Hdr) (d : MReg) (a : GReg) (b : GReg)
  /-- Loads a matrix by columns [R130]. -/
  | mldCol (h : Hdr) (d : MReg) (a : GReg) (b : GReg)
  /-- Loads N-of-128 compressed sparse data [R131]. -/
  | mldSparse (h : Hdr) (d : MReg) (a : GReg)
  /-- Loads one row into every row [R130]. -/
  | mldBcast (h : Hdr) (d : MReg) (a : GReg)
  /-- Stores a matrix by rows [R130]. -/
  | mstRow (h : Hdr) (d : MReg) (a : GReg) (b : GReg) (lw : Bool)
  /-- Stores a matrix by columns [R130]. -/
  | mstCol (h : Hdr) (d : MReg) (a : GReg) (b : GReg) (lw : Bool)
  /-- Stores a matrix in compressed sparse layout [R132]. -/
  | mstSparse (h : Hdr) (d : MReg) (a : GReg) (lw : Bool)
  /-- md := ma x mb + mc as window sums [R144]. -/
  | mmul (h : Hdr) (d : MReg) (a : MReg) (b : MReg) (c : MReg) (la : Bool) (lb : Bool) (fm : Fin 4)
  /-- md := ma x mb transposed + mc [R144]. -/
  | mmult (h : Hdr) (d : MReg) (a : MReg) (b : MReg) (c : MReg) (la : Bool) (lb : Bool) (fm : Fin 4)
  /-- md := ma transposed x mb + mc [R144]. -/
  | mtmul (h : Hdr) (d : MReg) (a : MReg) (b : MReg) (c : MReg) (la : Bool) (lb : Bool) (fm : Fin 4)
  /-- Element-wise add [R148]. -/
  | madd (h : Hdr) (d : MReg) (a : MReg) (b : MReg) (la : Bool) (lb : Bool) (fm : Fin 4)
  /-- Element-wise subtract [R148]. -/
  | msub (h : Hdr) (d : MReg) (a : MReg) (b : MReg) (la : Bool) (lb : Bool) (fm : Fin 4)
  /-- Element-wise multiply [R148]. -/
  | mhad (h : Hdr) (d : MReg) (a : MReg) (b : MReg) (la : Bool) (lb : Bool) (fm : Fin 4)
  /-- Element-wise maximum [R148]. -/
  | mmax (h : Hdr) (d : MReg) (a : MReg) (b : MReg) (la : Bool) (lb : Bool) (fm : Fin 4)
  /-- Transposes a matrix [R136]. -/
  | mtrn (h : Hdr) (d : MReg) (a : MReg) (la : Bool)
  /-- Negates each element [R137]. -/
  | mneg (h : Hdr) (d : MReg) (a : MReg) (la : Bool) (fm : Fin 4)
  /-- Converts each element between formats under a mode [R138]. -/
  | mcvt (h : Hdr) (d : MReg) (a : MReg) (sfm : Fin 4) (rnd : Rnd) (la : Bool) (fm : Fin 4)
  /-- Copies a matrix [R136]. -/
  | mcopy (h : Hdr) (d : MReg) (a : MReg) (la : Bool)
  /-- Moves a matrix's bit sequence into another shape [R136]. -/
  | mreshape (h : Hdr) (d : MReg) (a : MReg) (la : Bool)
  /-- Multiplies each element by an FP32 scale [R149]. -/
  | mscale (h : Hdr) (d : MReg) (a : MReg) (g : GReg) (la : Bool)
  /-- Fills every element from a register [R134]. -/
  | mfill (h : Hdr) (d : MReg) (g : GReg)
  /-- Reads one element into a register [R134]. -/
  | mget (h : Hdr) (a : MReg) (g : GReg) (la : Bool)
  /-- Writes one element from a register [R134]. -/
  | mput (h : Hdr) (d : MReg) (g : GReg)
  /-- Reads a handle's shape, width and block count [R134]. -/
  | mshape (h : Hdr) (a : MReg) (g : GReg) (la : Bool)
  /-- Inverts a matrix by Gauss-Jordan elimination [R155]. -/
  | minv (h : Hdr) (d : MReg) (a : MReg) (la : Bool)
  /-- LU factorisation with partial pivoting and permutation output [R156]. -/
  | mlu (h : Hdr) (d : MReg) (a : MReg) (b : MReg) (la : Bool)
  /-- Lower Cholesky factorisation [R157]. -/
  | mchol (h : Hdr) (d : MReg) (a : MReg) (la : Bool)
  /-- Triangular solve [R158]. -/
  | mtrsv (h : Hdr) (d : MReg) (a : MReg) (b : MReg) (unit : Bool) (up : Bool) (la : Bool) (lb : Bool)
  /-- Matrix exponential by scaled Pade approximation [R160]. -/
  | mexp (h : Hdr) (d : MReg) (a : MReg) (la : Bool)
  /-- Blockwise Walsh-Hadamard transform [R161]. -/
  | mht (h : Hdr) (d : MReg) (a : MReg) (fm : Fin 4) (la : Bool) (blk : HtBlk)
  /-- Quantises an FP32 block under an E8M0 scale [R151]. -/
  | mquant (h : Hdr) (d : MReg) (a : MReg) (g : GReg) (la : Bool)
  /-- Scales a partial result by an E8M0 scale and accumulates [R151]. -/
  | msacc (h : Hdr) (d : MReg) (a : MReg) (g : GReg) (la : Bool)
  /-- Allocates a run of casket banks, parking until one is free [R218]. -/
  | calloc (h : Hdr) (d : GReg) (b : GReg)
  /-- Frees a casket allocation after its casket words complete [R218]. -/
  | cfree (h : Hdr) (a : GReg)
  /-- FP32 add-on-write of a handle into the casket [R220]. -/
  | caccAdd (h : Hdr) (d : MReg) (a : GReg) (b : GReg) (fin : Bool)
  /-- Integer add-on-write into the casket [R220]. -/
  | caccIadd (h : Hdr) (d : MReg) (a : GReg) (b : GReg) (fin : Bool)
  /-- Writes a handle into the casket [R220]. -/
  | caccWrite (h : Hdr) (d : MReg) (a : GReg) (b : GReg) (fin : Bool)
  /-- Reads casket elements into a handle [R220]. -/
  | cld (h : Hdr) (d : MReg) (a : GReg) (b : GReg)
  /-- Reads and clears casket elements [R220]. -/
  | cldClr (h : Hdr) (d : MReg) (a : GReg) (b : GReg)
  /-- Starts a drain of casket banks to memory [R261]. -/
  | cdrainMem (h : Hdr) (k : KReg)
  /-- Starts a drain that adds casket banks into a target core's banks [R261]. -/
  | cdrainAdd (h : Hdr) (k : KReg)
  /-- Starts a tagged 1-D copy with an optional arrival [R253]. -/
  | cpy (h : Hdr) (k : KReg) (tag : Fin 64)
  /-- Starts a tagged 2-D copy [R253]. -/
  | cpy2d (h : Hdr) (k : KReg) (tag : Fin 64)
  /-- Starts an indexed gather [R254]. -/
  | cpyxGather (h : Hdr) (k : KReg) (tag : Fin 64)
  /-- Starts an indexed scatter [R254]. -/
  | cpyxScatter (h : Hdr) (k : KReg) (tag : Fin 64)
  /-- Parks until some tag of the mask is ready [R257]. -/
  | wtany (h : Hdr) (k : KReg)
  /-- Parks until every tag of the mask is ready [R257]. -/
  | wtall (h : Hdr) (k : KReg)
  /-- Writes the lowest ready tag of a mask [R257]. -/
  | tfirst (h : Hdr) (k : KReg) (d : KReg)
  /-- Writes the ready tags of a mask [R257]. -/
  | ttest (h : Hdr) (k : KReg) (d : KReg)
  /-- Parks until an engine context's completed counter reaches a target [R264]. -/
  | tlwait (h : Hdr) (ctx : EngCtx) (k : KReg)
  /-- Reads an engine context's completed counter [R264]. -/
  | tlread (h : Hdr) (ctx : EngCtx) (k : KReg)
  /-- Starts an all-reduce collective [R265]. -/
  | collAllreduce (h : Hdr) (k : KReg)
  /-- Starts a reduce-scatter collective [R265]. -/
  | collReducescatter (h : Hdr) (k : KReg)
  /-- Starts an all-gather collective [R265]. -/
  | collAllgather (h : Hdr) (k : KReg)
  /-- Starts an all-to-all collective [R265]. -/
  | collAlltoall (h : Hdr) (k : KReg)
  /-- Creates a tensor descriptor and returns a signet of full weight [R297]. -/
  | hnew (h : Hdr) (x : GReg) (y : GReg)
  /-- Splits a signet's weight into two signets [R298]. -/
  | hcopy (h : Hdr) (x : GReg) (y : GReg)
  /-- Posts a signet's weight back to its home [R300]. -/
  | hdrop (h : Hdr) (y : GReg)
  /-- Returns a shard's base address from the tensor's creation record [R303]. -/
  | hderef (h : Hdr) (x : GReg) (y : GReg)
  /-- Binds a finaliser to a tensor [R304]. -/
  | hfin (h : Hdr) (x : GReg) (y : GReg)
  /-- Moves a signet from memory into a quad, emptying the slot [R305]. -/
  | hld (h : Hdr) (x : GReg) (y : GReg)
  /-- Moves a signet into an empty memory slot [R305]. -/
  | hst (h : Hdr) (x : GReg) (y : GReg)
  /-- Waits for a parure layer to be resident and takes a use [R317]. -/
  | lywait (h : Hdr) (a : GReg) (b : GReg)
  /-- Returns uses of a layer and advances the cursor [R318]. -/
  | lydone (h : Hdr) (a : GReg) (b : GReg)
  /-- Requests a prefetch of an absent layer [R319]. -/
  | lyhintPf (h : Hdr) (a : GReg) (b : GReg)
  /-- Clears a layer's fault bit and requests a demand fetch [R319]. -/
  | lyhintRetry (h : Hdr) (a : GReg) (b : GReg)
  deriving DecidableEq, Repr

end Sys2Proof
end

