-- ==== Sys2Proof/Config.lean ====
section
/-! DEFINITION. What an implementation, its firmware or its environment fixes, and the free values: opaque constants that
nothing can evaluate. Each names its entry of the assumption log. -/

namespace Sys2Proof.Config

/-- DESIGN CHOICE (log 5), unsafe: the physical address of the root RCB, which firmware chooses [24 R376 step 7]. In
the root region's space firmware maps it at the same address, once it has a table. -/
def rootRcb : Nat := 0x5F00000000

/-- DESIGN CHOICE (log 5), unsafe: the root region's page-table root [24 R376 step 7]. -/
def rootPtbase : Nat := 0x5F00010000

/-- DESIGN CHOICE (log 5), unsafe: the intake ring's address in the root region's space [17 R269]. -/
def intakeBase : Nat := 0x5F00001000

/-- DESIGN CHOICE (log 5), unsafe: the intake ring's entries, a power of two from 16 to 65,536 [17 R269]. -/
def intakeSize : Nat := 16

/-- DESIGN CHOICE (log 5), unsafe: firmware's carat window cap; 0 leaves rule 3 of [09 R177] off [22 R351]. -/
def firmwareCaratcap : BitVec 24 := 0

/-- DESIGN CHOICE (log 5), unsafe: the manifest names no system handler image, so the entry is 0 [24 R376 step 6]. -/
def systemHandler : W64 := 0

/-- The bytes of a field of the root RCB that are not zero, as memory cells. -/
def cellsOf : Nat → List Byte → List (Nat × Byte)
  | _, [] => []
  | a, b :: bs => if b = 0 then cellsOf (a + 1) bs else (a, b) :: cellsOf (a + 1) bs

/-- The root RCB that step 7 writes: budgets of the whole device, modes leased, deterministic off, system faults to the
handler, state live, depth 1, the page-table root and the intake ring [24 R376, 17 R269]. -/
def rootRcbCells : List (Nat × Byte) :=
  cellsOf (rootRcb + 8) (toBytes 4 16384) ++ cellsOf (rootRcb + 12) (toBytes 4 6291456) ++
  cellsOf (rootRcb + 16) (toBytes 4 16384) ++ cellsOf (rootRcb + 20) (toBytes 4 262144) ++
  cellsOf (rootRcb + 28) [1, 0x15, 1, 1] ++ cellsOf (rootRcb + 64) (toBytes 8 rootPtbase) ++
  cellsOf (rootRcb + 144) (toBytes 8 intakeBase) ++ cellsOf (rootRcb + 152) (toBytes 4 intakeSize)

/-- Log 9: the device's rank, 0-4095 [01 R12]. -/
opaque devid : BitVec 12
/-- Log 9: the ranks of the partition's other members, and of its fabric peers [23 R364]. -/
opaque members : List Nat
opaque fabricPeers : List Nat
/-- Log 9: the partition's signet key as a 32-byte string, byte 0 first [19 R292]. -/
opaque signetKey : List Byte
/-- Log 9: attached CXL bytes [13 R206]; at most 6 TiB of them count [00 R3, 23 R375]. -/
opaque cxlCapacity : Nat
def cxlBytes : Nat := min cxlCapacity (6 * 2 ^ 40)
/-- Log 9: the device's parure capacity in bytes [19 R312]. -/
opaque parureCapacity : Nat
/-- Log 9: bytes of the save area [21 R339]; and the physical address of what a key names in it [21 R336]. -/
opaque saveArea : Nat
opaque savePlace : Nat → Nat

/-- Log 8: an open latency in cycles, drawn by the counter `fresh`. -/
opaque freeLatency : Nat → Nat
/-- Log 8: an open choice among the events that may come next, drawn by `fresh`. -/
opaque freeChoice : Nat → Nat
/-- Log 10: a result that an approximated function may give, by function code and operand; it is used where it meets the
bound that the spec states [05 R85, R86]. -/
opaque freeSfu : Nat → W32 → W32
/-- Log 11: a byte that the spec leaves unspecified, drawn by `fresh` and position [19 R311, 23 R362]. -/
opaque freeByte : Nat → Nat → Byte
/-- Log 9: the link that carries a transaction to a rank at its n-th sending, from the routing tables [23 R360]. -/
opaque route : Nat → Nat → Fin 32
/-- Log 22: the flit payloads that a transaction, or the response to it, travels in [23 R358]. -/
opaque flitPayloads : Transaction → Option TxReply → List (List Byte)
/-- Log 9: the CXL port that an expansion address is interleaved to [23 R375]. -/
opaque cxlPort : Nat → Fin 8
/-- Log 9: the bubble count that a die makes of a grant [22 R353]. -/
opaque bubblesOf : Nat → Nat → Nat
/-- Log 9: the routing tables' bytes, which are measured [24 R378]. -/
opaque routingTables : List Byte
/-- Log 8: whether the training of the bonded DRAM succeeds, drawn by `fresh` [24 R376, R381]. -/
opaque dramTrains : Nat → Bool
/-- Log 12: whether a manifest's body, unless it is empty, names a system handler image; and the handler's entry, from that
image's body [24 R376]. -/
opaque namesHandler : List Byte → Bool
opaque handlerEntry : List Byte → W64

/-- Log 12: whether an SLH-DSA-SHAKE-256s signature verifies: key, message, signature [24 R377]; and the signature the
device makes [24 R380]. -/
opaque slhVerify : List Byte → List Byte → List Byte → Bool
opaque slhSign : List Byte → List Byte
/-- Log 12: the fused key digests per image kind, and the device's public key [24 R377, R380]. -/
opaque fusedDigest : Nat → BitVec 256
opaque deviceKey : List Byte

end Sys2Proof.Config
end

