-- ==== Sys2Proof/WellFormed.lean ====
section
/-! DEFINITION. Which instructions are well formed: the encoding checks that relate a field to its use [01 R9; 01 R12;
02 R30, R35; 05 R90; 07 R124; 08 R152; 19 R295]. What a field's own type rules out (a uniform register above 191, a
scope above 9) is refused by the decoder. -/

namespace Sys2Proof

/-- Why an instruction is not well formed. Every one is an illegal encoding (0x01) [02 R39]. -/
inductive IllForm where
  | oddPair        -- a field that names a pair holds an odd number [01 R9]
  | badQuad        -- a field that names a quad is no multiple of four [01 R9]
  | badBase        -- a descriptor base is no multiple of its count [02 R35]
  | storeSize      -- a store with a zero-extending size [02 R30]
  | csrOddPair     -- a 64-bit CSR with an odd register [01 R12]
  | csrReadOnly    -- a write to a read-only CSR [01 R12]
  | sameFormat     -- FCVT from a format to itself [05 R90]
  | lastUseDest    -- a destination that is also a source marked last use [07 R124]
  | luDest         -- MLU's permutation handle names its result or its source [08 R152]
  | overlap        -- overlapping registers of a signet word [19 R295]
  deriving DecidableEq, Repr

/-- A pair field is even [01 R9]. -/
def evenG (r : GReg) : Option IllForm := if r.val % 2 = 0 then none else some .oddPair
def evenK (r : KReg) : Option IllForm := if r.val % 2 = 0 then none else some .oddPair
/-- A quad field is a multiple of four [01 R9]. -/
def quadG (r : GReg) : Option IllForm := if r.val % 4 = 0 then none else some .badQuad
/-- A uniform descriptor base is a multiple of its register count [02 R35]. -/
def baseK (r : KReg) (n : Nat) : Option IllForm := if r.val % n = 0 then none else some .badBase

/-- The destination of a load or the source of a store of 64 or 128 bits is a pair or a quad [02 R30]. -/
def sized (sz : AccSz) (d : GReg) : Option IllForm :=
  match sz with
  | .w64 => evenG d
  | .w128 => quadG d
  | .s8 | .z8 | .s16 | .z16 | .w32 => none

/-- A store encodes an 8-bit or 16-bit width with the signed code [02 R30]. -/
def storeSize (sz : AccSz) : Option IllForm :=
  match sz with
  | .z8 | .z16 => some .storeSize
  | .s8 | .s16 | .w32 | .w64 | .w128 => none

/-- The 64-bit compares read pairs [04 R71]. -/
def pairTy (t : CmpTy) (r : GReg) : Option IllForm :=
  match t with
  | .s64 | .z64 => evenG r
  | .s | .z => none

/-- The 64-bit CSRs [01 R12]. -/
def Csr.wide : Csr → Bool
  | .tagrdy | .clock | .trappc | .trapinfo | .ptbase | .rcbbase | .syspc | .sysinfo | .leasebase | .hotbase => true
  | .fpctl | .fpstat | .mxstat | .traytimer | .userscratch | .laneid | .strandid | .taskidx | .regionid | .coreid
  | .quadid | .fragmask | .devid | .batchn | .blocksfree | .traplanes | .trapcause | .detmode | .status | .syscause
  | .railsel | .caratcap | .mcstat => false

/-- The CSRs that may be written [01 R12]. -/
def Csr.writable : Csr → Bool
  | .fpctl | .fpstat | .mxstat | .tagrdy | .traytimer | .userscratch | .status | .ptbase | .rcbbase | .syscause
  | .syspc | .sysinfo | .railsel | .caratcap | .leasebase | .hotbase | .mcstat => true
  | .laneid | .strandid | .taskidx | .regionid | .coreid | .quadid | .fragmask | .clock | .devid | .batchn
  | .blocksfree | .traplanes | .trapcause | .trappc | .trapinfo | .detmode => false

/-- The CSRs of the range 0x800-0x80A, which only system level may access [01 R11, R12]. -/
def Csr.system : Csr → Bool
  | .status | .ptbase | .rcbbase | .syscause | .syspc | .sysinfo | .railsel | .caratcap | .leasebase | .hotbase
  | .mcstat => true
  | .fpctl | .fpstat | .mxstat | .tagrdy | .traytimer | .userscratch | .laneid | .strandid | .taskidx | .regionid
  | .coreid | .quadid | .fragmask | .clock | .devid | .batchn | .blocksfree | .traplanes | .trapcause | .trappc
  | .trapinfo | .detmode => false

/-- A 64-bit CSR moves to or from an even pair [01 R12]. -/
def csrPair (c : Csr) (d : GReg) : Option IllForm :=
  if c.wide = true ∧ d.val % 2 = 1 then some .csrOddPair else none

/-- A write to a read-only CSR is an illegal encoding at either level [01 R12]. -/
def csrWrite (c : Csr) : Option IllForm := if c.writable then none else some .csrReadOnly

/-- FCVT has two formats [05 R90]. -/
def twoFmts (src dst : CvtFmt) : Option IllForm := if src = dst then some .sameFormat else none

/-- A destination is no source marked last use [07 R124]. -/
def keepsDest (d src : MReg) (last : Bool) : Option IllForm :=
  if last = true ∧ d = src then some .lastUseDest else none

/-- MLU's second destination differs from its result and its source [08 R152]. -/
def luDest (d a b : MReg) : Option IllForm := if b = d ∨ b = a then some .luDest else none

/-- Two register runs of a signet word do not overlap [19 R295]. -/
def apart (x : GReg) (nx : Nat) (y : GReg) (ny : Nat) : Option IllForm :=
  if x.val < y.val + ny ∧ y.val < x.val + nx then some .overlap else none

/-- The first check in a list that an instruction breaks. -/
def firstIll : List (Option IllForm) → Option IllForm
  | [] => none
  | some e :: _ => some e
  | none :: rest => firstIll rest

/-- The encoding checks that each instruction makes; an event has none. -/
def Instr.checks : Instr → List (Option IllForm)
  | .nop _ => []
  | .scp _ _ => []
  | .lit _ _ _ => []
  | .br _ _ _ => []
  | .bnone _ _ _ => []
  | .bany _ _ _ => []
  | .ball _ _ _ => []
  | .bnall _ _ _ => []
  | .bdiv _ _ _ => []
  | .call _ _ => []
  | .jmpr _ a => [evenG a]
  | .ret _ a => [evenG a]
  | .exit _ => []
  | .join _ => []
  | .earlygo _ => []
  | .yield _ => []
  | .tret _ => []
  | .bkpt _ _ => []
  | .trap _ _ => []
  | .eret _ => []
  | .halt _ => []
  | .tlbi _ a _ _ => [evenG a]
  | .railsel _ _ => []
  | .csrr _ d csr => [csrPair csr d]
  | .csrw _ d csr => [csrPair csr d, csrWrite csr]
  | .csrs _ d csr => [csrPair csr d, csrWrite csr]
  | .csrc _ d csr => [csrPair csr d, csrWrite csr]
  | .iadd _ _ _ _ => []
  | .isub _ _ _ _ => []
  | .imin _ _ _ _ => []
  | .imax _ _ _ _ => []
  | .iminZ _ _ _ _ => []
  | .imaxZ _ _ _ _ => []
  | .idiff _ _ _ _ => []
  | .iabs _ _ _ => []
  | .andw _ _ _ _ => []
  | .orw _ _ _ _ => []
  | .xorw _ _ _ _ => []
  | .andn _ _ _ _ => []
  | .ishl _ _ _ _ => []
  | .ishr _ _ _ _ => []
  | .isar _ _ _ _ => []
  | .irot _ _ _ _ => []
  | .imul _ _ _ _ => []
  | .imulhS _ _ _ _ => []
  | .imulhZ _ _ _ _ => []
  | .imad _ _ _ _ => []
  | .popc _ _ _ => []
  | .clz _ _ _ => []
  | .brev _ _ _ => []
  | .fns _ _ _ _ => []
  | .popc64 _ _ a => [evenG a]
  | .clz64 _ _ a => [evenG a]
  | .brev64 _ d a => [evenG d, evenG a]
  | .fns64 _ _ a _ => [evenG a]
  | .iadd64 _ d a b => [evenG d, evenG a, evenG b]
  | .isub64 _ d a b => [evenG d, evenG a, evenG b]
  | .ishl64 _ d a _ => [evenG d, evenG a]
  | .ishr64 _ d a _ => [evenG d, evenG a]
  | .bfxS _ _ _ _ => []
  | .bfxZ _ _ _ _ => []
  | .bfi _ _ _ _ => []
  | .prmt _ _ _ _ => []
  | .sel _ _ _ _ _ => []
  | .mov _ _ _ => []
  | .mov64 _ d a => [evenG d, evenG a]
  | .iaddi _ _ _ _ => []
  | .andi _ _ _ _ => []
  | .ori _ _ _ _ => []
  | .xori _ _ _ _ => []
  | .ishli _ _ _ _ => []
  | .ishri _ _ _ _ => []
  | .isari _ _ _ _ => []
  | .iroti _ _ _ _ => []
  | .icmp _ _ a b _ t => [pairTy t a, pairTy t b]
  | .icmpi _ _ a _ _ t => [pairTy t a]
  | .pand _ _ _ _ => []
  | .por _ _ _ _ => []
  | .pxor _ _ _ _ => []
  | .pandn _ _ _ _ => []
  | .lea _ d a _ _ => [evenG d, evenG a]
  | .movk _ _ _ => []
  | .iaddk _ _ _ _ => []
  | .leak _ d _ k => [evenG d, evenK k]
  | .kmov _ _ _ => []
  | .kadd _ _ _ => []
  | .ksub _ _ _ => []
  | .kmul _ _ _ => []
  | .kand _ _ _ => []
  | .kor _ _ _ => []
  | .kxor _ _ _ => []
  | .kshl _ _ _ => []
  | .kshr _ _ _ => []
  | .ksar _ _ _ => []
  | .kmin _ _ _ => []
  | .kmax _ _ _ => []
  | .kcmp _ _ _ => []
  | .kpopc _ _ _ => []
  | .kclz _ _ _ => []
  | .kfns _ _ _ => []
  | .kli _ _ _ => []
  | .kaddi _ _ _ => []
  | .kld _ _ a _ => [evenK a]
  | .kst _ _ a _ => [evenK a]
  | .kget _ _ _ _ => []
  | .fadd _ _ _ _ => []
  | .fsub _ _ _ _ => []
  | .fmul _ _ _ _ => []
  | .ffma _ _ _ _ => []
  | .fmin _ _ _ _ => []
  | .fmax _ _ _ _ => []
  | .fabs _ _ _ => []
  | .fneg _ _ _ => []
  | .fcmp _ _ _ _ _ _ => []
  | .frcp _ _ _ => []
  | .frsq _ _ _ => []
  | .fsqrt _ _ _ => []
  | .fexp2 _ _ _ => []
  | .flog2 _ _ _ => []
  | .fsin _ _ _ => []
  | .fcos _ _ _ => []
  | .ftanh _ _ _ => []
  | .frndRn _ _ _ => []
  | .frndRz _ _ _ => []
  | .frndRu _ _ _ => []
  | .frndRd _ _ _ => []
  | .fclass _ _ _ => []
  | .fcvt _ _ _ src dst _ => [twoFmts src dst]
  | .pkbf _ _ _ _ => []
  | .pkh _ _ _ _ => []
  | .pkins _ _ _ _ => []
  | .upk _ _ _ _ => []
  | .faddi _ _ _ _ => []
  | .fmuli _ _ _ _ => []
  | .dp4S8 _ _ _ _ => []
  | .dp4Z8 _ _ _ _ => []
  | .dp4E4 _ _ _ _ => []
  | .dp4E5 _ _ _ _ => []
  | .dp8S4 _ _ _ _ => []
  | .dp8F4 _ _ _ _ => []
  | .dp2Bf _ _ _ _ => []
  | .scacc _ _ _ _ => []
  | .ld _ d a _ sz => [evenG a, sized sz d]
  | .st _ d a _ sz => [evenG a, sized sz d, storeSize sz]
  | .pfetch _ a _ => [evenG a]
  | .fenceFull _ _ _ => []
  | .fenceAcq _ _ _ => []
  | .fenceRel _ _ _ => []
  | .atadd32 _ _ a _ => [evenG a]
  | .atadd64 _ d a b => [evenG d, evenG a, evenG b]
  | .ataddF32 _ _ a _ => [evenG a]
  | .ataddBf16x2 _ _ a _ => [evenG a]
  | .atmmMinS _ _ a _ => [evenG a]
  | .atmmMaxS _ _ a _ => [evenG a]
  | .atmmMinZ _ _ a _ => [evenG a]
  | .atmmMaxZ _ _ a _ => [evenG a]
  | .atlogAnd _ _ a _ => [evenG a]
  | .atlogOr _ _ a _ => [evenG a]
  | .atlogXor _ _ a _ => [evenG a]
  | .atlogExch _ _ a _ => [evenG a]
  | .cas32 _ _ a _ => [evenG a]
  | .cas64 _ d a b => [evenG d, evenG a, evenG b]
  | .claspAcq _ a => [evenG a]
  | .claspRel _ a => [evenG a]
  | .claspTry _ a _ => [evenG a]
  | .claspBind _ a b => [evenG a, quadG b]
  | .claspUnbind _ a => [evenG a]
  | .monitor _ a => [evenG a]
  | .mwait _ _ _ => []
  | .mcancel _ => []
  | .shflIdx _ _ _ _ => []
  | .shflXor _ _ _ _ => []
  | .shflUp _ _ _ _ => []
  | .shflDown _ _ _ _ => []
  | .redu _ _ _ _ => []
  | .scan _ _ _ _ _ => []
  | .compress _ _ _ _ => []
  | .expand _ _ _ _ => []
  | .matchw _ _ _ => []
  | .ballot _ _ _ => []
  | .bar _ => []
  | .arrv _ a _ _ => [evenG a]
  | .awt _ a _ _ => [evenG a]
  | .spawn _ a b => [evenG a, evenG b]
  | .tnew _ a => [evenG a]
  | .tnewn _ a _ => [evenG a]
  | .tcancel _ a => [evenG a]
  | .depdec _ a => [evenG a]
  | .depadd _ a _ => [evenG a]
  | .depget _ a _ => [evenG a]
  | .rgnew _ a => [evenG a]
  | .rgend _ a => [evenG a]
  | .rgpri _ a _ => [evenG a]
  | .macq _ _ _ _ _ => []
  | .macqTry _ _ _ _ _ _ => []
  | .mrel _ _ => []
  | .mldRow _ _ a _ => [evenG a]
  | .mldCol _ _ a _ => [evenG a]
  | .mldSparse _ _ a => [evenG a]
  | .mldBcast _ _ a => [evenG a]
  | .mstRow _ _ a _ _ => [evenG a]
  | .mstCol _ _ a _ _ => [evenG a]
  | .mstSparse _ _ a _ => [evenG a]
  | .mmul _ d a b _ la lb _ => [keepsDest d a la, keepsDest d b lb]
  | .mmult _ d a b _ la lb _ => [keepsDest d a la, keepsDest d b lb]
  | .mtmul _ d a b _ la lb _ => [keepsDest d a la, keepsDest d b lb]
  | .madd _ d a b la lb _ => [keepsDest d a la, keepsDest d b lb]
  | .msub _ d a b la lb _ => [keepsDest d a la, keepsDest d b lb]
  | .mhad _ d a b la lb _ => [keepsDest d a la, keepsDest d b lb]
  | .mmax _ d a b la lb _ => [keepsDest d a la, keepsDest d b lb]
  | .mtrn _ d a la => [keepsDest d a la]
  | .mneg _ d a la _ => [keepsDest d a la]
  | .mcvt _ d a _ _ la _ => [keepsDest d a la]
  | .mcopy _ d a la => [keepsDest d a la]
  | .mreshape _ d a la => [keepsDest d a la]
  | .mscale _ d a g la => [evenG g, keepsDest d a la]
  | .mfill _ _ _ => []
  | .mget _ _ _ _ => []
  | .mput _ _ g => [evenG g]
  | .mshape _ _ _ _ => []
  | .minv _ d a la => [keepsDest d a la]
  | .mlu _ d a b la => [keepsDest d a la, luDest d a b]
  | .mchol _ d a la => [keepsDest d a la]
  | .mtrsv _ d a b _ _ la lb => [keepsDest d a la, keepsDest d b lb]
  | .mexp _ d a la => [keepsDest d a la]
  | .mht _ d a _ la _ => [keepsDest d a la]
  | .mquant _ d a _ la => [keepsDest d a la]
  | .msacc _ d a _ la => [keepsDest d a la]
  | .calloc _ _ _ => []
  | .cfree _ _ => []
  | .caccAdd _ _ _ _ _ => []
  | .caccIadd _ _ _ _ _ => []
  | .caccWrite _ _ _ _ _ => []
  | .cld _ _ _ _ => []
  | .cldClr _ _ _ _ => []
  | .cdrainMem _ k => [baseK k 4]
  | .cdrainAdd _ k => [baseK k 4]
  | .cpy _ k _ => [baseK k 8]
  | .cpy2d _ k _ => [baseK k 8]
  | .cpyxGather _ k _ => [baseK k 8]
  | .cpyxScatter _ k _ => [baseK k 8]
  | .wtany _ k => [evenK k]
  | .wtall _ k => [evenK k]
  | .tfirst _ k _ => [evenK k]
  | .ttest _ k d => [evenK k, evenK d]
  | .tlwait _ _ k => [evenK k]
  | .tlread _ _ k => [evenK k]
  | .collAllreduce _ k => [baseK k 8]
  | .collReducescatter _ k => [baseK k 8]
  | .collAllgather _ k => [baseK k 8]
  | .collAlltoall _ k => [baseK k 8]
  | .hnew _ x y => [quadG x, evenG y]
  | .hcopy _ x y => [quadG x, quadG y, apart x 4 y 4]
  | .hdrop _ y => [quadG y]
  | .hderef _ x y => [evenG x, quadG y, apart x 2 y 4]
  | .hfin _ x y => [quadG x, quadG y, apart x 4 y 4]
  | .hld _ x y => [quadG x, evenG y]
  | .hst _ x y => [quadG x, evenG y]
  | .lywait _ _ b => [evenG b]
  | .lydone _ _ b => [evenG b]
  | .lyhintPf _ _ b => [evenG b]
  | .lyhintRetry _ _ b => [evenG b]
  | .passedOverLimit _ _ => []
  | .heldTrapDelivery _ _ => []
  | .faultReportDequeue _ => []
  | .memoryResultArrival _ _ => []
  | .scrubUncorrectable _ => []
  | .matrixAccessCompletion _ _ => []
  | .cellPhaseEnd _ _ => []
  | .cellWordPassEnd _ _ => []
  | .checksumRerunStart _ _ => []
  | .mexpPassEnd _ _ => []
  | .elementBusyEnd _ _ => []
  | .elementPathCompletion _ _ => []
  | .macqParkedGrant _ _ => []
  | .macqArrival _ _ => []
  | .macqTryFailArrival _ _ => []
  | .callocGrant _ _ => []
  | .cfreeCompletion _ _ => []
  | .barrierCompletion _ => []
  | .awtCompletion _ _ => []
  | .claspReleaseCompletion _ _ => []
  | .claspAcqCompletion _ _ => []
  | .claspUnbindCompletion _ _ => []
  | .mwaitWake _ _ => []
  | .mwaitTimeout _ _ => []
  | .tlbiSweepCompletion _ _ => []
  | .fenceEngineCompletion _ _ => []
  | .tagWaitCompletion _ _ => []
  | .tlwaitCompletion _ _ => []
  | .lywaitCompletion _ _ => []
  | .copyCompletion _ => []
  | .drainRowCompletion _ _ => []
  | .drainRowApply _ => []
  | .collCompletion _ => []
  | .homeVerdict _ => []
  | .dropPostApply _ => []
  | .signetVerdictArrival _ _ => []
  | .taskPlacement _ => []
  | .placementWaitLimit _ => []
  | .taskLaunch _ => []
  | .taskEnd _ => []
  | .regionLink _ => []
  | .regionEndCompletion _ => []
  | .intakeTaskEntry => []
  | .intakeRgendEntry => []
  | .intakeRgnewEntry => []
  | .intakeSkipEntry => []
  | .trayTimerExpiry _ _ => []
  | .swapFetchStart _ _ => []
  | .evictionCompletion _ _ => []
  | .swapFetchCompletion _ _ => []
  | .swapFetchFailure _ _ _ => []
  | .swapFetchTimeout _ _ => []
  | .preemptionRequest _ => []
  | .contextSave _ => []
  | .taskRestore _ => []
  | .watchdogParkExpiry _ _ => []
  | .watchdogHandlerExpiry _ _ => []
  | .arbiterInterval _ => []
  | .dieGrant _ _ => []
  | .grantTimeout _ => []
  | .railChangeCompletion _ => []
  | .governorRailWrite _ _ _ => []
  | .thermalLimit _ => []
  | .thermalShutdown _ => []
  | .flitDataReceive _ _ => []
  | .flitNackReceive _ _ => []
  | .flitIdleReceive _ _ => []
  | .linkAckTimeout _ => []
  | .linkRetrainCompletion _ => []
  | .transactionReceive _ => []
  | .transactionResponse _ _ _ => []
  | .transactionResendTimeout _ _ => []
  | .transactionFailure _ _ => []
  | .bar2Write _ _ _ _ => []
  | .bar2Read _ _ _ => []
  | .bar2Fetchadd _ _ _ _ => []
  | .bar2Swap _ _ _ _ => []
  | .bar2Cas _ _ _ _ _ => []
  | .rstctlReset _ _ => []
  | .semRequest _ _ => []
  | .semRelease _ _ => []
  | .msixUnmask _ _ => []
  | .controlRegisterWrite _ _ _ => []
  | .portFlr _ => []
  | .portLinkDown _ => []
  | .hostCompletionTimeout _ _ => []
  | .cxlResponseTimeout _ _ => []
  | .cxlPoisonResponse _ _ => []
  | .attctlRequest _ _ => []
  | .attestationCompletion => []
  | .powerOnReset => []
  | .illegalEncoding _ _ => []
  | .cxlPortDown _ => []

/-- The first encoding check that an instruction breaks, if any. -/
def Instr.illForm (i : Instr) : Option IllForm := firstIll i.checks

/-- An instruction is well formed when it breaks no encoding check. -/
def Instr.wellFormed (i : Instr) : Bool := i.illForm.isNone

end Sys2Proof
end

