-- ==== Sys2Proof/Decode.lean ====
section
/-! DEFINITION. The decoder, total on any bytes, and the encoder [02 R21-R36]. A word is read through its numeric
value: field [lo+n-1 : lo] of w is w / 2^lo mod 2^n. -/

namespace Sys2Proof

/-- Why a word is no instruction; each is an illegal encoding (0x01) [02 R36, R39]. -/
inductive DecodeError where
  | tooShort                     -- fewer than four bytes
  | reservedMajor                -- a major opcode that [02 R36] reserves
  | reservedMinor                -- a reserved minor code, or a non-zero field that must be zero
  | badUniform                   -- a uniform register above 191 [02 R30]
  | badCode                      -- an operand code with no meaning: scope, condition, size, CSR number ...
  | badPrefix                    -- SCP or LIT with the wrong K, S or G [02 R33]
  | illFormed (why : IllForm)    -- a check of WellFormed
  deriving DecidableEq, Repr

/-- Field [lo+n-1 : lo] of a word [02 R21]. -/
def fld (w lo n : Nat) : Nat := w / 2 ^ lo % 2 ^ n

def bitF (w lo : Nat) : Bool := decide (w / 2 ^ lo % 2 = 1)
def gF (w lo : Nat) : GReg := ⟨w / 2 ^ lo % 64, Nat.mod_lt _ (by decide)⟩
def pF (w lo : Nat) : PReg := ⟨w / 2 ^ lo % 8, Nat.mod_lt _ (by decide)⟩
def mF (w lo : Nat) : MReg := ⟨w / 2 ^ lo % 16, Nat.mod_lt _ (by decide)⟩
def finF (w lo n : Nat) : Fin (2 ^ n) := ⟨w / 2 ^ lo % 2 ^ n, Nat.mod_lt _ (Nat.two_pow_pos n)⟩
def bvF (w lo n : Nat) : BitVec n := BitVec.ofNat n (w / 2 ^ lo)
/-- A uniform field holds 0-191 [02 R30]. -/
def kF (w lo : Nat) : Option KReg := if h : w / 2 ^ lo % 256 < 192 then some ⟨w / 2 ^ lo % 256, h⟩ else none
def hdrF (w : Nat) : Hdr := { k := bitF w 31, s := bitF w 30, g := pF w 27 }

/-- Continue with the value of an operand, or refuse the word. -/
def need {α β : Type} (o : Option α) (e : DecodeError) (f : α → Except DecodeError β) : Except DecodeError β :=
  match o with
  | some a => f a
  | none => .error e

/-- The code of each `Cond`, and its inverse. -/
def Cond.code : Cond → Nat
  | .al => 0
  | .eq => 1
  | .ne => 2
  | .lt => 3
  | .ge => 4
  | .ltu => 5
  | .geu => 6
  | .mi => 7
  | .pl => 8
  | .vs => 9
  | .vc => 10
  | .empty => 11
  | .nempty => 12
def Cond.ofCode : Nat → Option Cond
  | 0 => some .al
  | 1 => some .eq
  | 2 => some .ne
  | 3 => some .lt
  | 4 => some .ge
  | 5 => some .ltu
  | 6 => some .geu
  | 7 => some .mi
  | 8 => some .pl
  | 9 => some .vs
  | 10 => some .vc
  | 11 => some .empty
  | 12 => some .nempty
  | _ => none

/-- The code of each `Cmp`, and its inverse. -/
def Cmp.code : Cmp → Nat
  | .eq => 0
  | .ne => 1
  | .lt => 2
  | .le => 3
  | .gt => 4
  | .ge => 5
def Cmp.ofCode : Nat → Option Cmp
  | 0 => some .eq
  | 1 => some .ne
  | 2 => some .lt
  | 3 => some .le
  | 4 => some .gt
  | 5 => some .ge
  | _ => none

/-- The code of each `CmpTy`, and its inverse. -/
def CmpTy.code : CmpTy → Nat
  | .s => 0
  | .z => 1
  | .s64 => 2
  | .z64 => 3
def CmpTy.ofCode : Nat → Option CmpTy
  | 0 => some .s
  | 1 => some .z
  | 2 => some .s64
  | 3 => some .z64
  | _ => none

/-- The code of each `FCmpOp`, and its inverse. -/
def FCmpOp.code : FCmpOp → Nat
  | .eq => 0
  | .ne => 1
  | .lt => 2
  | .le => 3
  | .gt => 4
  | .ge => 5
  | .unord => 6
  | .ord => 7
def FCmpOp.ofCode : Nat → Option FCmpOp
  | 0 => some .eq
  | 1 => some .ne
  | 2 => some .lt
  | 3 => some .le
  | 4 => some .gt
  | 5 => some .ge
  | 6 => some .unord
  | 7 => some .ord
  | _ => none

/-- The code of each `CvtFmt`, and its inverse. -/
def CvtFmt.code : CvtFmt → Nat
  | .f32 => 0
  | .bf16 => 1
  | .f16 => 2
  | .e4m3 => 3
  | .e5m2 => 4
  | .e2m1 => 5
  | .s32 => 6
  | .u32 => 7
def CvtFmt.ofCode : Nat → Option CvtFmt
  | 0 => some .f32
  | 1 => some .bf16
  | 2 => some .f16
  | 3 => some .e4m3
  | 4 => some .e5m2
  | 5 => some .e2m1
  | 6 => some .s32
  | 7 => some .u32
  | _ => none

/-- The code of each `Rnd`, and its inverse. -/
def Rnd.code : Rnd → Nat
  | .rn => 0
  | .rz => 1
  | .ru => 2
  | .rd => 3
def Rnd.ofCode : Nat → Option Rnd
  | 0 => some .rn
  | 1 => some .rz
  | 2 => some .ru
  | 3 => some .rd
  | _ => none

/-- The code of each `AccSz`, and its inverse. -/
def AccSz.code : AccSz → Nat
  | .s8 => 0
  | .z8 => 1
  | .s16 => 2
  | .z16 => 3
  | .w32 => 4
  | .w64 => 5
  | .w128 => 6
def AccSz.ofCode : Nat → Option AccSz
  | 0 => some .s8
  | 1 => some .z8
  | 2 => some .s16
  | 3 => some .z16
  | 4 => some .w32
  | 5 => some .w64
  | 6 => some .w128
  | _ => none

/-- The code of each `Scope`, and its inverse. -/
def Scope.code : Scope → Nat
  | .th => 0
  | .st => 1
  | .co => 2
  | .cl => 3
  | .di => 4
  | .dv => 5
  | .nd => 6
  | .pa => 7
  | .fb => 8
  | .sy => 9
def Scope.ofCode : Nat → Option Scope
  | 0 => some .th
  | 1 => some .st
  | 2 => some .co
  | 3 => some .cl
  | 4 => some .di
  | 5 => some .dv
  | 6 => some .nd
  | 7 => some .pa
  | 8 => some .fb
  | 9 => some .sy
  | _ => none

/-- The code of each `MOrder`, and its inverse. -/
def MOrder.code : MOrder → Nat
  | .rlx => 0
  | .acq => 1
  | .rel => 2
  | .ar => 3
def MOrder.ofCode : Nat → Option MOrder
  | 0 => some .rlx
  | 1 => some .acq
  | 2 => some .rel
  | 3 => some .ar
  | _ => none

/-- The code of each `TlbiKind`, and its inverse. -/
def TlbiKind.code : TlbiKind → Nat
  | .pg => 0
  | .root => 1
  | .all => 2
def TlbiKind.ofCode : Nat → Option TlbiKind
  | 0 => some .pg
  | 1 => some .root
  | 2 => some .all
  | _ => none

/-- The code of each `RedOp`, and its inverse. -/
def RedOp.code : RedOp → Nat
  | .iadd => 0
  | .iminS => 1
  | .imaxS => 2
  | .iminZ => 3
  | .imaxZ => 4
  | .andB => 5
  | .orB => 6
  | .xorB => 7
  | .fadd => 8
  | .fmin => 9
  | .fmax => 10
def RedOp.ofCode : Nat → Option RedOp
  | 0 => some .iadd
  | 1 => some .iminS
  | 2 => some .imaxS
  | 3 => some .iminZ
  | 4 => some .imaxZ
  | 5 => some .andB
  | 6 => some .orB
  | 7 => some .xorB
  | 8 => some .fadd
  | 9 => some .fmin
  | 10 => some .fmax
  | _ => none

/-- The code of each `EW`, and its inverse. -/
def EW.code : EW → Nat
  | .w4 => 0
  | .w8 => 1
  | .w16 => 2
  | .w32 => 3
def EW.ofCode : Nat → Option EW
  | 0 => some .w4
  | 1 => some .w8
  | 2 => some .w16
  | 3 => some .w32
  | _ => none

/-- The code of each `HtBlk`, and its inverse. -/
def HtBlk.code : HtBlk → Nat
  | .b16 => 0
  | .b32 => 1
  | .b64 => 2
def HtBlk.ofCode : Nat → Option HtBlk
  | 0 => some .b16
  | 1 => some .b32
  | 2 => some .b64
  | _ => none

/-- The code of each `EngCtx`, and its inverse. -/
def EngCtx.code : EngCtx → Nat
  | .copy => 0
  | .drain => 1
  | .coll => 2
  | .swap => 3
def EngCtx.ofCode : Nat → Option EngCtx
  | 0 => some .copy
  | 1 => some .drain
  | 2 => some .coll
  | 3 => some .swap
  | _ => none

/-- The code of each `Csr`, and its inverse. -/
def Csr.code : Csr → Nat
  | .fpctl => 0
  | .fpstat => 1
  | .mxstat => 2
  | .tagrdy => 3
  | .traytimer => 4
  | .userscratch => 5
  | .laneid => 256
  | .strandid => 257
  | .taskidx => 258
  | .regionid => 259
  | .coreid => 260
  | .quadid => 261
  | .fragmask => 262
  | .clock => 263
  | .devid => 264
  | .batchn => 265
  | .blocksfree => 266
  | .traplanes => 267
  | .trapcause => 268
  | .trappc => 269
  | .trapinfo => 270
  | .detmode => 271
  | .status => 2048
  | .ptbase => 2049
  | .rcbbase => 2050
  | .syscause => 2051
  | .syspc => 2052
  | .sysinfo => 2053
  | .railsel => 2054
  | .caratcap => 2055
  | .leasebase => 2056
  | .hotbase => 2057
  | .mcstat => 2058
def Csr.ofCode : Nat → Option Csr
  | 0 => some .fpctl
  | 1 => some .fpstat
  | 2 => some .mxstat
  | 3 => some .tagrdy
  | 4 => some .traytimer
  | 5 => some .userscratch
  | 256 => some .laneid
  | 257 => some .strandid
  | 258 => some .taskidx
  | 259 => some .regionid
  | 260 => some .coreid
  | 261 => some .quadid
  | 262 => some .fragmask
  | 263 => some .clock
  | 264 => some .devid
  | 265 => some .batchn
  | 266 => some .blocksfree
  | 267 => some .traplanes
  | 268 => some .trapcause
  | 269 => some .trappc
  | 270 => some .trapinfo
  | 271 => some .detmode
  | 2048 => some .status
  | 2049 => some .ptbase
  | 2050 => some .rcbbase
  | 2051 => some .syscause
  | 2052 => some .syspc
  | 2053 => some .sysinfo
  | 2054 => some .railsel
  | 2055 => some .caratcap
  | 2056 => some .leasebase
  | 2057 => some .hotbase
  | 2058 => some .mcstat
  | _ => none

/-- Major 0x00: NOP [02 R36]. -/
def decMaj00 (h : Hdr) (w : Nat) : Except DecodeError Instr :=
  if fld w 0 20 = 0 then .ok (.nop h) else
  .error .reservedMinor

/-- Major 0x01, SCP: K = 1, S = 0 and G = 0 [02 R31]. -/
def decMaj01 (w : Nat) : Except DecodeError Instr :=
  if fld w 27 5 = 16 then
    if fld w 0 14 = 0 then
      need (Scope.ofCode (fld w 16 4)) .badCode fun scope => need (MOrder.ofCode (fld w 14 2)) .badCode fun order =>
        .ok (.scp scope order)
    else .error .reservedMinor
  else .error .badPrefix

/-- Majors 0x02 and 0x03, LIT: K = 1 and S = 0; G is data [02 R32]. -/
def decMaj02 (w : Nat) : Except DecodeError Instr :=
  if fld w 30 2 = 2 then .ok (.lit (bitF w 20) (finF w 27 3) (bvF w 0 20)) else .error .badPrefix

/-- Major 0x04: BR [02 R36]. -/
def decMaj04 (h : Hdr) (w : Nat) : Except DecodeError Instr :=
  need (Cond.ofCode (fld w 16 4)) .badCode fun cc => .ok (.br h cc (bvF w 0 16))

/-- Major 0x05: BNONE, BANY, BALL, BNALL [02 R36]. -/
def decMaj05 (h : Hdr) (w : Nat) : Except DecodeError Instr :=
  if fld w 15 2 = 0 then .ok (.bnone h (pF w 17) (bvF w 0 15)) else
  if fld w 15 2 = 1 then .ok (.bany h (pF w 17) (bvF w 0 15)) else
  if fld w 15 2 = 2 then .ok (.ball h (pF w 17) (bvF w 0 15)) else
  if fld w 15 2 = 3 then .ok (.bnall h (pF w 17) (bvF w 0 15)) else
  .error .reservedMinor

/-- Major 0x06: BDIV [02 R36]. -/
def decMaj06 (h : Hdr) (w : Nat) : Except DecodeError Instr :=
  .ok (.bdiv h (pF w 17) (bvF w 0 17))

/-- Major 0x07: CALL [02 R36]. -/
def decMaj07 (h : Hdr) (w : Nat) : Except DecodeError Instr :=
  .ok (.call h (bvF w 0 20))

/-- Major 0x08: JMPR [02 R36]. -/
def decMaj08 (h : Hdr) (w : Nat) : Except DecodeError Instr :=
  if fld w 14 6 = 0 ∧ fld w 0 8 = 0 then .ok (.jmpr h (gF w 8)) else
  .error .reservedMinor

/-- Major 0x09: RET, EXIT, JOIN, EARLYGO, YIELD, TRET, BKPT [02 R36]. -/
def decMaj09 (h : Hdr) (w : Nat) : Except DecodeError Instr :=
  if fld w 16 4 = 0 ∧ fld w 0 10 = 0 then .ok (.ret h (gF w 10)) else
  if fld w 0 20 = 65536 then .ok (.exit h) else
  if fld w 0 20 = 131072 then .ok (.join h) else
  if fld w 0 20 = 196608 then .ok (.earlygo h) else
  if fld w 0 20 = 262144 then .ok (.yield h) else
  if fld w 0 20 = 327680 then .ok (.tret h) else
  if fld w 16 4 = 6 then .ok (.bkpt h (bvF w 0 16)) else
  .error .reservedMinor

/-- Major 0x0A: TRAP [02 R36]. -/
def decMaj0A (h : Hdr) (w : Nat) : Except DecodeError Instr :=
  if fld w 16 4 = 0 then .ok (.trap h (bvF w 0 16)) else
  .error .reservedMinor

/-- Major 0x0B: ERET, HALT, TLBI, RAILSEL [02 R36]. -/
def decMaj0B (h : Hdr) (w : Nat) : Except DecodeError Instr :=
  if fld w 0 20 = 0 then .ok (.eret h) else
  if fld w 0 20 = 65536 then .ok (.halt h) else
  if fld w 16 4 = 2 ∧ fld w 0 4 = 0 then
    need (Scope.ofCode (fld w 6 4)) .badCode fun scope => need (TlbiKind.ofCode (fld w 4 2)) .badCode fun kind => .ok (.tlbi h (gF w 10) scope kind)
  else
  if fld w 1 19 = 98304 then .ok (.railsel h (bitF w 0)) else
  .error .reservedMinor

/-- Major 0x0C: CSRR [02 R36]. -/
def decMaj0C (h : Hdr) (w : Nat) : Except DecodeError Instr :=
  if fld w 12 2 = 0 then need (Csr.ofCode (fld w 0 12)) .badCode fun csr => .ok (.csrr h (gF w 14) csr) else
  .error .reservedMinor

/-- Major 0x0D: CSRW [02 R36]. -/
def decMaj0D (h : Hdr) (w : Nat) : Except DecodeError Instr :=
  if fld w 12 2 = 0 then need (Csr.ofCode (fld w 0 12)) .badCode fun csr => .ok (.csrw h (gF w 14) csr) else
  .error .reservedMinor

/-- Major 0x0E: CSRS [02 R36]. -/
def decMaj0E (h : Hdr) (w : Nat) : Except DecodeError Instr :=
  if fld w 12 2 = 0 then need (Csr.ofCode (fld w 0 12)) .badCode fun csr => .ok (.csrs h (gF w 14) csr) else
  .error .reservedMinor

/-- Major 0x0F: CSRC [02 R36]. -/
def decMaj0F (h : Hdr) (w : Nat) : Except DecodeError Instr :=
  if fld w 12 2 = 0 then need (Csr.ofCode (fld w 0 12)) .badCode fun csr => .ok (.csrc h (gF w 14) csr) else
  .error .reservedMinor

/-- Major 0x10: IADD, ISUB, IMIN, IMAX [02 R36]. -/
def decMaj10 (h : Hdr) (w : Nat) : Except DecodeError Instr :=
  if fld w 0 2 = 0 then .ok (.iadd h (gF w 14) (gF w 8) (gF w 2)) else
  if fld w 0 2 = 1 then .ok (.isub h (gF w 14) (gF w 8) (gF w 2)) else
  if fld w 0 2 = 2 then .ok (.imin h (gF w 14) (gF w 8) (gF w 2)) else
  if fld w 0 2 = 3 then .ok (.imax h (gF w 14) (gF w 8) (gF w 2)) else
  .error .reservedMinor

/-- Major 0x11: IMIN_Z, IMAX_Z, IDIFF, IABS [02 R36]. -/
def decMaj11 (h : Hdr) (w : Nat) : Except DecodeError Instr :=
  if fld w 0 2 = 0 then .ok (.iminZ h (gF w 14) (gF w 8) (gF w 2)) else
  if fld w 0 2 = 1 then .ok (.imaxZ h (gF w 14) (gF w 8) (gF w 2)) else
  if fld w 0 2 = 2 then .ok (.idiff h (gF w 14) (gF w 8) (gF w 2)) else
  if fld w 0 8 = 3 then .ok (.iabs h (gF w 14) (gF w 8)) else
  .error .reservedMinor

/-- Major 0x12: AND, OR, XOR, ANDN [02 R36]. -/
def decMaj12 (h : Hdr) (w : Nat) : Except DecodeError Instr :=
  if fld w 0 2 = 0 then .ok (.andw h (gF w 14) (gF w 8) (gF w 2)) else
  if fld w 0 2 = 1 then .ok (.orw h (gF w 14) (gF w 8) (gF w 2)) else
  if fld w 0 2 = 2 then .ok (.xorw h (gF w 14) (gF w 8) (gF w 2)) else
  if fld w 0 2 = 3 then .ok (.andn h (gF w 14) (gF w 8) (gF w 2)) else
  .error .reservedMinor

/-- Major 0x13: ISHL, ISHR, ISAR, IROT [02 R36]. -/
def decMaj13 (h : Hdr) (w : Nat) : Except DecodeError Instr :=
  if fld w 0 2 = 0 then .ok (.ishl h (gF w 14) (gF w 8) (gF w 2)) else
  if fld w 0 2 = 1 then .ok (.ishr h (gF w 14) (gF w 8) (gF w 2)) else
  if fld w 0 2 = 2 then .ok (.isar h (gF w 14) (gF w 8) (gF w 2)) else
  if fld w 0 2 = 3 then .ok (.irot h (gF w 14) (gF w 8) (gF w 2)) else
  .error .reservedMinor

/-- Major 0x14: IMUL, IMULH_S, IMULH_Z, IMAD [02 R36]. -/
def decMaj14 (h : Hdr) (w : Nat) : Except DecodeError Instr :=
  if fld w 0 2 = 0 then .ok (.imul h (gF w 14) (gF w 8) (gF w 2)) else
  if fld w 0 2 = 1 then .ok (.imulhS h (gF w 14) (gF w 8) (gF w 2)) else
  if fld w 0 2 = 2 then .ok (.imulhZ h (gF w 14) (gF w 8) (gF w 2)) else
  if fld w 0 2 = 3 then .ok (.imad h (gF w 14) (gF w 8) (gF w 2)) else
  .error .reservedMinor

/-- Major 0x15: POPC, CLZ, BREV, FNS [02 R36]. -/
def decMaj15 (h : Hdr) (w : Nat) : Except DecodeError Instr :=
  if fld w 0 8 = 0 then .ok (.popc h (gF w 14) (gF w 8)) else
  if fld w 0 8 = 1 then .ok (.clz h (gF w 14) (gF w 8)) else
  if fld w 0 8 = 2 then .ok (.brev h (gF w 14) (gF w 8)) else
  if fld w 0 2 = 3 then .ok (.fns h (gF w 14) (gF w 8) (gF w 2)) else
  .error .reservedMinor

/-- Major 0x16: POPC_64, CLZ_64, BREV_64, FNS_64 [02 R36]. -/
def decMaj16 (h : Hdr) (w : Nat) : Except DecodeError Instr :=
  if fld w 0 8 = 0 then .ok (.popc64 h (gF w 14) (gF w 8)) else
  if fld w 0 8 = 1 then .ok (.clz64 h (gF w 14) (gF w 8)) else
  if fld w 0 8 = 2 then .ok (.brev64 h (gF w 14) (gF w 8)) else
  if fld w 0 2 = 3 then .ok (.fns64 h (gF w 14) (gF w 8) (gF w 2)) else
  .error .reservedMinor

/-- Major 0x17: IADD_64, ISUB_64, ISHL_64, ISHR_64 [02 R36]. -/
def decMaj17 (h : Hdr) (w : Nat) : Except DecodeError Instr :=
  if fld w 0 2 = 0 then .ok (.iadd64 h (gF w 14) (gF w 8) (gF w 2)) else
  if fld w 0 2 = 1 then .ok (.isub64 h (gF w 14) (gF w 8) (gF w 2)) else
  if fld w 0 2 = 2 then .ok (.ishl64 h (gF w 14) (gF w 8) (gF w 2)) else
  if fld w 0 2 = 3 then .ok (.ishr64 h (gF w 14) (gF w 8) (gF w 2)) else
  .error .reservedMinor

/-- Major 0x18: BFX_S, BFX_Z, BFI, PRMT [02 R36]. -/
def decMaj18 (h : Hdr) (w : Nat) : Except DecodeError Instr :=
  if fld w 0 2 = 0 then .ok (.bfxS h (gF w 14) (gF w 8) (gF w 2)) else
  if fld w 0 2 = 1 then .ok (.bfxZ h (gF w 14) (gF w 8) (gF w 2)) else
  if fld w 0 2 = 2 then .ok (.bfi h (gF w 14) (gF w 8) (gF w 2)) else
  if fld w 0 2 = 3 then .ok (.prmt h (gF w 14) (gF w 8) (gF w 2)) else
  .error .reservedMinor

/-- Major 0x19: SEL [02 R36]. -/
def decMaj19 (h : Hdr) (w : Nat) : Except DecodeError Instr :=
  .ok (.sel h (gF w 14) (gF w 8) (gF w 2) (finF w 0 2))

/-- Major 0x1A: MOV, MOV_64 [02 R36]. -/
def decMaj1A (h : Hdr) (w : Nat) : Except DecodeError Instr :=
  if fld w 0 8 = 0 then .ok (.mov h (gF w 14) (gF w 8)) else
  if fld w 0 8 = 1 then .ok (.mov64 h (gF w 14) (gF w 8)) else
  .error .reservedMinor

/-- Major 0x1B: IADDI [02 R36]. -/
def decMaj1B (h : Hdr) (w : Nat) : Except DecodeError Instr :=
  .ok (.iaddi h (gF w 14) (gF w 8) (bvF w 0 8))

/-- Major 0x1C: ANDI [02 R36]. -/
def decMaj1C (h : Hdr) (w : Nat) : Except DecodeError Instr :=
  .ok (.andi h (gF w 14) (gF w 8) (bvF w 0 8))

/-- Major 0x1D: ORI [02 R36]. -/
def decMaj1D (h : Hdr) (w : Nat) : Except DecodeError Instr :=
  .ok (.ori h (gF w 14) (gF w 8) (bvF w 0 8))

/-- Major 0x1E: XORI [02 R36]. -/
def decMaj1E (h : Hdr) (w : Nat) : Except DecodeError Instr :=
  .ok (.xori h (gF w 14) (gF w 8) (bvF w 0 8))

/-- Major 0x1F: ISHLI, ISHRI, ISARI, IROTI [02 R36]. -/
def decMaj1F (h : Hdr) (w : Nat) : Except DecodeError Instr :=
  if fld w 5 3 = 0 then .ok (.ishli h (gF w 14) (gF w 8) (finF w 0 5)) else
  if fld w 5 3 = 2 then .ok (.ishri h (gF w 14) (gF w 8) (finF w 0 5)) else
  if fld w 5 3 = 4 then .ok (.isari h (gF w 14) (gF w 8) (finF w 0 5)) else
  if fld w 5 3 = 6 then .ok (.iroti h (gF w 14) (gF w 8) (finF w 0 5)) else
  .error .reservedMinor

/-- Major 0x20: ICMP [02 R36]. -/
def decMaj20 (h : Hdr) (w : Nat) : Except DecodeError Instr :=
  need (Cmp.ofCode (fld w 2 3)) .badCode fun c => need (CmpTy.ofCode (fld w 0 2)) .badCode fun t => .ok (.icmp h (pF w 17) (gF w 11) (gF w 5) c t)

/-- Major 0x21: ICMPI [02 R36]. -/
def decMaj21 (h : Hdr) (w : Nat) : Except DecodeError Instr :=
  need (Cmp.ofCode (fld w 2 3)) .badCode fun c => need (CmpTy.ofCode (fld w 0 2)) .badCode fun t => .ok (.icmpi h (pF w 17) (gF w 11) (bvF w 5 6) c t)

/-- Major 0x22: PAND, POR, PXOR, PANDN [02 R36]. -/
def decMaj22 (h : Hdr) (w : Nat) : Except DecodeError Instr :=
  if fld w 0 11 = 0 then .ok (.pand h (pF w 17) (pF w 14) (pF w 11)) else
  if fld w 0 11 = 1 then .ok (.por h (pF w 17) (pF w 14) (pF w 11)) else
  if fld w 0 11 = 2 then .ok (.pxor h (pF w 17) (pF w 14) (pF w 11)) else
  if fld w 0 11 = 3 then .ok (.pandn h (pF w 17) (pF w 14) (pF w 11)) else
  .error .reservedMinor

/-- Major 0x23: LEA [02 R36]. -/
def decMaj23 (h : Hdr) (w : Nat) : Except DecodeError Instr :=
  .ok (.lea h (gF w 14) (gF w 8) (gF w 2) (finF w 0 2))

/-- Major 0x24: MOVK [02 R36]. -/
def decMaj24 (h : Hdr) (w : Nat) : Except DecodeError Instr :=
  if fld w 8 6 = 0 then need (kF w 0) .badUniform fun k => .ok (.movk h (gF w 14) k) else
  .error .reservedMinor

/-- Major 0x25: IADDK [02 R36]. -/
def decMaj25 (h : Hdr) (w : Nat) : Except DecodeError Instr :=
  need (kF w 0) .badUniform fun k => .ok (.iaddk h (gF w 14) (gF w 8) k)

/-- Major 0x26: LEAK [02 R36]. -/
def decMaj26 (h : Hdr) (w : Nat) : Except DecodeError Instr :=
  need (kF w 0) .badUniform fun k => .ok (.leak h (gF w 14) (gF w 8) k)

/-- Major 0x27: KMOV, KADD, KSUB, KMUL, KAND, KOR, KXOR, KSHL, KSHR, KSAR, KMIN, KMAX, KCMP, KPOPC, KCLZ, KFNS [02 R36]. -/
def decMaj27 (h : Hdr) (w : Nat) : Except DecodeError Instr :=
  if fld w 0 4 = 0 then need (kF w 12) .badUniform fun d => need (kF w 4) .badUniform fun a => .ok (.kmov h d a) else
  if fld w 0 4 = 1 then need (kF w 12) .badUniform fun d => need (kF w 4) .badUniform fun a => .ok (.kadd h d a) else
  if fld w 0 4 = 2 then need (kF w 12) .badUniform fun d => need (kF w 4) .badUniform fun a => .ok (.ksub h d a) else
  if fld w 0 4 = 3 then need (kF w 12) .badUniform fun d => need (kF w 4) .badUniform fun a => .ok (.kmul h d a) else
  if fld w 0 4 = 4 then need (kF w 12) .badUniform fun d => need (kF w 4) .badUniform fun a => .ok (.kand h d a) else
  if fld w 0 4 = 5 then need (kF w 12) .badUniform fun d => need (kF w 4) .badUniform fun a => .ok (.kor h d a) else
  if fld w 0 4 = 6 then need (kF w 12) .badUniform fun d => need (kF w 4) .badUniform fun a => .ok (.kxor h d a) else
  if fld w 0 4 = 7 then need (kF w 12) .badUniform fun d => need (kF w 4) .badUniform fun a => .ok (.kshl h d a) else
  if fld w 0 4 = 8 then need (kF w 12) .badUniform fun d => need (kF w 4) .badUniform fun a => .ok (.kshr h d a) else
  if fld w 0 4 = 9 then need (kF w 12) .badUniform fun d => need (kF w 4) .badUniform fun a => .ok (.ksar h d a) else
  if fld w 0 4 = 10 then need (kF w 12) .badUniform fun d => need (kF w 4) .badUniform fun a => .ok (.kmin h d a) else
  if fld w 0 4 = 11 then need (kF w 12) .badUniform fun d => need (kF w 4) .badUniform fun a => .ok (.kmax h d a) else
  if fld w 0 4 = 12 then need (kF w 12) .badUniform fun d => need (kF w 4) .badUniform fun a => .ok (.kcmp h d a) else
  if fld w 0 4 = 13 then need (kF w 12) .badUniform fun d => need (kF w 4) .badUniform fun a => .ok (.kpopc h d a) else
  if fld w 0 4 = 14 then need (kF w 12) .badUniform fun d => need (kF w 4) .badUniform fun a => .ok (.kclz h d a) else
  if fld w 0 4 = 15 then need (kF w 12) .badUniform fun d => need (kF w 4) .badUniform fun a => .ok (.kfns h d a) else
  .error .reservedMinor

/-- Major 0x28: KLI [02 R36]. -/
def decMaj28 (h : Hdr) (w : Nat) : Except DecodeError Instr :=
  need (kF w 12) .badUniform fun d => .ok (.kli h d (bvF w 0 12))

/-- Major 0x29: KADDI [02 R36]. -/
def decMaj29 (h : Hdr) (w : Nat) : Except DecodeError Instr :=
  need (kF w 12) .badUniform fun d => .ok (.kaddi h d (bvF w 0 12))

/-- Major 0x2A: KLD [02 R36]. -/
def decMaj2A (h : Hdr) (w : Nat) : Except DecodeError Instr :=
  need (kF w 12) .badUniform fun d => need (kF w 4) .badUniform fun a => .ok (.kld h d a (finF w 0 4))

/-- Major 0x2B: KST [02 R36]. -/
def decMaj2B (h : Hdr) (w : Nat) : Except DecodeError Instr :=
  need (kF w 12) .badUniform fun d => need (kF w 4) .badUniform fun a => .ok (.kst h d a (finF w 0 4))

/-- Major 0x2C: KGET [02 R36]. -/
def decMaj2C (h : Hdr) (w : Nat) : Except DecodeError Instr :=
  if fld w 0 1 = 0 then need (kF w 12) .badUniform fun d => .ok (.kget h d (gF w 6) (finF w 1 5)) else
  .error .reservedMinor

/-- Major 0x30: FADD, FSUB, FMUL, FFMA [02 R36]. -/
def decMaj30 (h : Hdr) (w : Nat) : Except DecodeError Instr :=
  if fld w 0 2 = 0 then .ok (.fadd h (gF w 14) (gF w 8) (gF w 2)) else
  if fld w 0 2 = 1 then .ok (.fsub h (gF w 14) (gF w 8) (gF w 2)) else
  if fld w 0 2 = 2 then .ok (.fmul h (gF w 14) (gF w 8) (gF w 2)) else
  if fld w 0 2 = 3 then .ok (.ffma h (gF w 14) (gF w 8) (gF w 2)) else
  .error .reservedMinor

/-- Major 0x31: FMIN, FMAX, FABS, FNEG [02 R36]. -/
def decMaj31 (h : Hdr) (w : Nat) : Except DecodeError Instr :=
  if fld w 0 2 = 0 then .ok (.fmin h (gF w 14) (gF w 8) (gF w 2)) else
  if fld w 0 2 = 1 then .ok (.fmax h (gF w 14) (gF w 8) (gF w 2)) else
  if fld w 0 8 = 2 then .ok (.fabs h (gF w 14) (gF w 8)) else
  if fld w 0 8 = 3 then .ok (.fneg h (gF w 14) (gF w 8)) else
  .error .reservedMinor

/-- Major 0x32: FCMP [02 R36]. -/
def decMaj32 (h : Hdr) (w : Nat) : Except DecodeError Instr :=
  if fld w 1 1 = 0 then
    need (FCmpOp.ofCode (fld w 2 3)) .badCode fun c => .ok (.fcmp h (pF w 17) (gF w 11) (gF w 5) c (bitF w 0))
  else
  .error .badCode

/-- Major 0x33: FRCP, FRSQ, FSQRT, FEXP2, FLOG2, FSIN, FCOS, FTANH, FRND_RN, FRND_RZ, FRND_RU, FRND_RD, FCLASS [02 R36]. -/
def decMaj33 (h : Hdr) (w : Nat) : Except DecodeError Instr :=
  if fld w 0 8 = 0 then .ok (.frcp h (gF w 14) (gF w 8)) else
  if fld w 0 8 = 4 then .ok (.frsq h (gF w 14) (gF w 8)) else
  if fld w 0 8 = 8 then .ok (.fsqrt h (gF w 14) (gF w 8)) else
  if fld w 0 8 = 12 then .ok (.fexp2 h (gF w 14) (gF w 8)) else
  if fld w 0 8 = 16 then .ok (.flog2 h (gF w 14) (gF w 8)) else
  if fld w 0 8 = 20 then .ok (.fsin h (gF w 14) (gF w 8)) else
  if fld w 0 8 = 24 then .ok (.fcos h (gF w 14) (gF w 8)) else
  if fld w 0 8 = 28 then .ok (.ftanh h (gF w 14) (gF w 8)) else
  if fld w 0 8 = 32 then .ok (.frndRn h (gF w 14) (gF w 8)) else
  if fld w 0 8 = 36 then .ok (.frndRz h (gF w 14) (gF w 8)) else
  if fld w 0 8 = 40 then .ok (.frndRu h (gF w 14) (gF w 8)) else
  if fld w 0 8 = 44 then .ok (.frndRd h (gF w 14) (gF w 8)) else
  if fld w 0 8 = 48 then .ok (.fclass h (gF w 14) (gF w 8)) else
  .error .reservedMinor

/-- Major 0x34: FCVT [02 R36]. -/
def decMaj34 (h : Hdr) (w : Nat) : Except DecodeError Instr :=
  need (CvtFmt.ofCode (fld w 5 3)) .badCode fun src => need (CvtFmt.ofCode (fld w 2 3)) .badCode fun dst => need (Rnd.ofCode (fld w 0 2)) .badCode fun rnd => .ok (.fcvt h (gF w 14) (gF w 8) src dst rnd)

/-- Major 0x35: PKBF, PKH, PKINS, UPK [02 R36]. -/
def decMaj35 (h : Hdr) (w : Nat) : Except DecodeError Instr :=
  if fld w 0 2 = 0 then .ok (.pkbf h (gF w 14) (gF w 8) (gF w 2)) else
  if fld w 0 2 = 1 then .ok (.pkh h (gF w 14) (gF w 8) (gF w 2)) else
  if fld w 0 2 = 2 then .ok (.pkins h (gF w 14) (gF w 8) (gF w 2)) else
  if fld w 0 2 = 3 then .ok (.upk h (gF w 14) (gF w 8) (gF w 2)) else
  .error .reservedMinor

/-- Major 0x36: FADDI [02 R36]. -/
def decMaj36 (h : Hdr) (w : Nat) : Except DecodeError Instr :=
  .ok (.faddi h (gF w 14) (gF w 8) (bvF w 0 8))

/-- Major 0x37: FMULI [02 R36]. -/
def decMaj37 (h : Hdr) (w : Nat) : Except DecodeError Instr :=
  .ok (.fmuli h (gF w 14) (gF w 8) (bvF w 0 8))

/-- Major 0x38: DP4_S8, DP4_Z8, DP4_E4, DP4_E5 [02 R36]. -/
def decMaj38 (h : Hdr) (w : Nat) : Except DecodeError Instr :=
  if fld w 0 2 = 0 then .ok (.dp4S8 h (gF w 14) (gF w 8) (gF w 2)) else
  if fld w 0 2 = 1 then .ok (.dp4Z8 h (gF w 14) (gF w 8) (gF w 2)) else
  if fld w 0 2 = 2 then .ok (.dp4E4 h (gF w 14) (gF w 8) (gF w 2)) else
  if fld w 0 2 = 3 then .ok (.dp4E5 h (gF w 14) (gF w 8) (gF w 2)) else
  .error .reservedMinor

/-- Major 0x39: DP8_S4, DP8_F4, DP2_BF, SCACC [02 R36]. -/
def decMaj39 (h : Hdr) (w : Nat) : Except DecodeError Instr :=
  if fld w 0 2 = 0 then .ok (.dp8S4 h (gF w 14) (gF w 8) (gF w 2)) else
  if fld w 0 2 = 1 then .ok (.dp8F4 h (gF w 14) (gF w 8) (gF w 2)) else
  if fld w 0 2 = 2 then .ok (.dp2Bf h (gF w 14) (gF w 8) (gF w 2)) else
  if fld w 0 2 = 3 then .ok (.scacc h (gF w 14) (gF w 8) (gF w 2)) else
  .error .reservedMinor

/-- Major 0x40: LD [02 R36]. -/
def decMaj40 (h : Hdr) (w : Nat) : Except DecodeError Instr :=
  need (AccSz.ofCode (fld w 0 3)) .badCode fun sz => .ok (.ld h (gF w 14) (gF w 8) (bvF w 3 5) sz)

/-- Major 0x41: ST [02 R36]. -/
def decMaj41 (h : Hdr) (w : Nat) : Except DecodeError Instr :=
  need (AccSz.ofCode (fld w 0 3)) .badCode fun sz => .ok (.st h (gF w 14) (gF w 8) (bvF w 3 5) sz)

/-- Major 0x42: PFETCH [02 R36]. -/
def decMaj42 (h : Hdr) (w : Nat) : Except DecodeError Instr :=
  if fld w 14 6 = 0 ∧ fld w 0 3 = 6 then .ok (.pfetch h (gF w 8) (bvF w 3 5)) else
  .error .reservedMinor

/-- Major 0x43: FENCE_FULL, FENCE_ACQ, FENCE_REL [02 R36]. -/
def decMaj43 (h : Hdr) (w : Nat) : Except DecodeError Instr :=
  if fld w 16 4 = 0 ∧ fld w 0 7 = 0 then
    need (Scope.ofCode (fld w 12 4)) .badCode fun scope => .ok (.fenceFull h scope (bvF w 7 5))
  else
  if fld w 16 4 = 1 ∧ fld w 0 7 = 0 then
    need (Scope.ofCode (fld w 12 4)) .badCode fun scope => .ok (.fenceAcq h scope (bvF w 7 5))
  else
  if fld w 16 4 = 2 ∧ fld w 0 7 = 0 then
    need (Scope.ofCode (fld w 12 4)) .badCode fun scope => .ok (.fenceRel h scope (bvF w 7 5))
  else
  .error .reservedMinor

/-- Major 0x44: ATADD_32, ATADD_64, ATADD_F32, ATADD_BF16X2 [02 R36]. -/
noncomputable def decMaj44 (h : Hdr) (w : Nat) : Except DecodeError Instr :=
  if fld w 0 2 = 0 then .ok (.atadd32 h (gF w 14) (gF w 8) (gF w 2)) else
  if fld w 0 2 = 1 then .ok (.atadd64 h (gF w 14) (gF w 8) (gF w 2)) else
  if fld w 0 2 = 2 then .ok (.ataddF32 h (gF w 14) (gF w 8) (gF w 2)) else
  if fld w 0 2 = 3 then .ok (.ataddBf16x2 h (gF w 14) (gF w 8) (gF w 2)) else
  .error .reservedMinor

/-- Major 0x45: ATMM_MIN_S, ATMM_MAX_S, ATMM_MIN_Z, ATMM_MAX_Z [02 R36]. -/
noncomputable def decMaj45 (h : Hdr) (w : Nat) : Except DecodeError Instr :=
  if fld w 0 2 = 0 then .ok (.atmmMinS h (gF w 14) (gF w 8) (gF w 2)) else
  if fld w 0 2 = 1 then .ok (.atmmMaxS h (gF w 14) (gF w 8) (gF w 2)) else
  if fld w 0 2 = 2 then .ok (.atmmMinZ h (gF w 14) (gF w 8) (gF w 2)) else
  if fld w 0 2 = 3 then .ok (.atmmMaxZ h (gF w 14) (gF w 8) (gF w 2)) else
  .error .reservedMinor

/-- Major 0x46: ATLOG_AND, ATLOG_OR, ATLOG_XOR, ATLOG_EXCH [02 R36]. -/
noncomputable def decMaj46 (h : Hdr) (w : Nat) : Except DecodeError Instr :=
  if fld w 0 2 = 0 then .ok (.atlogAnd h (gF w 14) (gF w 8) (gF w 2)) else
  if fld w 0 2 = 1 then .ok (.atlogOr h (gF w 14) (gF w 8) (gF w 2)) else
  if fld w 0 2 = 2 then .ok (.atlogXor h (gF w 14) (gF w 8) (gF w 2)) else
  if fld w 0 2 = 3 then .ok (.atlogExch h (gF w 14) (gF w 8) (gF w 2)) else
  .error .reservedMinor

/-- Major 0x47: CAS_32, CAS_64 [02 R36]. -/
noncomputable def decMaj47 (h : Hdr) (w : Nat) : Except DecodeError Instr :=
  if fld w 0 2 = 0 then .ok (.cas32 h (gF w 14) (gF w 8) (gF w 2)) else
  if fld w 0 2 = 1 then .ok (.cas64 h (gF w 14) (gF w 8) (gF w 2)) else
  .error .reservedMinor

/-- Major 0x48: CLASP_ACQ, CLASP_REL, CLASP_TRY, CLASP_BIND, CLASP_UNBIND [02 R36]. -/
noncomputable def decMaj48 (h : Hdr) (w : Nat) : Except DecodeError Instr :=
  if fld w 16 4 = 0 ∧ fld w 0 10 = 0 then .ok (.claspAcq h (gF w 10)) else
  if fld w 16 4 = 1 ∧ fld w 0 10 = 0 then .ok (.claspRel h (gF w 10)) else
  if fld w 16 4 = 2 ∧ fld w 4 6 = 0 ∧ fld w 0 1 = 0 then .ok (.claspTry h (gF w 10) (pF w 1)) else
  if fld w 16 4 = 3 ∧ fld w 0 4 = 0 then .ok (.claspBind h (gF w 10) (gF w 4)) else
  if fld w 16 4 = 4 ∧ fld w 0 10 = 0 then .ok (.claspUnbind h (gF w 10)) else
  .error .reservedMinor

/-- Major 0x49: MONITOR, MWAIT, MCANCEL [02 R36]. -/
noncomputable def decMaj49 (h : Hdr) (w : Nat) : Except DecodeError Instr :=
  if fld w 16 4 = 0 ∧ fld w 0 10 = 0 then .ok (.monitor h (gF w 10)) else
  if fld w 16 4 = 1 ∧ fld w 0 7 = 0 then .ok (.mwait h (gF w 10) (pF w 7)) else
  if fld w 0 20 = 131072 then .ok (.mcancel h) else
  .error .reservedMinor

/-- Major 0x50: SHFL_IDX, SHFL_XOR, SHFL_UP, SHFL_DOWN [02 R36]. -/
noncomputable def decMaj50 (h : Hdr) (w : Nat) : Except DecodeError Instr :=
  if fld w 0 2 = 0 then .ok (.shflIdx h (gF w 14) (gF w 8) (gF w 2)) else
  if fld w 0 2 = 1 then .ok (.shflXor h (gF w 14) (gF w 8) (gF w 2)) else
  if fld w 0 2 = 2 then .ok (.shflUp h (gF w 14) (gF w 8) (gF w 2)) else
  if fld w 0 2 = 3 then .ok (.shflDown h (gF w 14) (gF w 8) (gF w 2)) else
  .error .reservedMinor

/-- Major 0x51: REDU [02 R36]. -/
noncomputable def decMaj51 (h : Hdr) (w : Nat) : Except DecodeError Instr :=
  if fld w 0 2 = 0 then
    need (kF w 12) .badUniform fun kd => need (RedOp.ofCode (fld w 2 4)) .badCode fun op => .ok (.redu h kd (gF w 6) op)
  else
  .error .reservedMinor

/-- Major 0x52: SCAN [02 R36]. -/
noncomputable def decMaj52 (h : Hdr) (w : Nat) : Except DecodeError Instr :=
  if fld w 6 2 = 0 ∧ fld w 1 1 = 0 then
    need (RedOp.ofCode (fld w 2 4)) .badCode fun op => .ok (.scan h (gF w 14) (gF w 8) op (bitF w 0))
  else
  .error .reservedMinor

/-- Major 0x53: COMPRESS, EXPAND, MATCH, BALLOT [02 R36]. -/
noncomputable def decMaj53 (h : Hdr) (w : Nat) : Except DecodeError Instr :=
  if fld w 5 3 = 0 ∧ fld w 0 2 = 0 then .ok (.compress h (gF w 14) (gF w 8) (pF w 2)) else
  if fld w 5 3 = 0 ∧ fld w 0 2 = 1 then .ok (.expand h (gF w 14) (gF w 8) (pF w 2)) else
  if fld w 0 8 = 2 then .ok (.matchw h (gF w 14) (gF w 8)) else
  if fld w 5 9 = 0 ∧ fld w 0 2 = 3 then .ok (.ballot h (gF w 14) (pF w 2)) else
  .error .reservedMinor

/-- Major 0x54: BAR, ARRV, AWT [02 R36]. -/
noncomputable def decMaj54 (h : Hdr) (w : Nat) : Except DecodeError Instr :=
  if fld w 0 20 = 0 then .ok (.bar h) else
  if fld w 16 4 = 1 then need (Scope.ofCode (fld w 0 4)) .badCode fun scope => .ok (.arrv h (gF w 10) (gF w 4) scope) else
  if fld w 16 4 = 2 then need (Scope.ofCode (fld w 0 4)) .badCode fun scope => .ok (.awt h (gF w 10) (gF w 4) scope) else
  .error .reservedMinor

/-- Major 0x55: SPAWN [02 R36]. -/
noncomputable def decMaj55 (h : Hdr) (w : Nat) : Except DecodeError Instr :=
  if fld w 16 4 = 0 ∧ fld w 0 4 = 0 then .ok (.spawn h (gF w 10) (gF w 4)) else
  .error .reservedMinor

/-- Major 0x56: TNEW, TNEWN, TCANCEL [02 R36]. -/
noncomputable def decMaj56 (h : Hdr) (w : Nat) : Except DecodeError Instr :=
  if fld w 16 4 = 0 ∧ fld w 0 10 = 0 then .ok (.tnew h (gF w 10)) else
  if fld w 16 4 = 1 ∧ fld w 0 4 = 0 then .ok (.tnewn h (gF w 10) (gF w 4)) else
  if fld w 16 4 = 2 ∧ fld w 0 10 = 0 then .ok (.tcancel h (gF w 10)) else
  .error .reservedMinor

/-- Major 0x57: DEPDEC, DEPADD, DEPGET [02 R36]. -/
noncomputable def decMaj57 (h : Hdr) (w : Nat) : Except DecodeError Instr :=
  if fld w 16 4 = 0 ∧ fld w 0 10 = 0 then .ok (.depdec h (gF w 10)) else
  if fld w 16 4 = 1 ∧ fld w 0 4 = 0 then .ok (.depadd h (gF w 10) (gF w 4)) else
  if fld w 16 4 = 2 ∧ fld w 0 4 = 0 then .ok (.depget h (gF w 10) (gF w 4)) else
  .error .reservedMinor

/-- Major 0x58: RGNEW, RGEND, RGPRI [02 R36]. -/
noncomputable def decMaj58 (h : Hdr) (w : Nat) : Except DecodeError Instr :=
  if fld w 16 4 = 0 ∧ fld w 0 10 = 0 then .ok (.rgnew h (gF w 10)) else
  if fld w 16 4 = 1 ∧ fld w 0 10 = 0 then .ok (.rgend h (gF w 10)) else
  if fld w 16 4 = 2 ∧ fld w 0 4 = 0 then .ok (.rgpri h (gF w 10) (gF w 4)) else
  .error .reservedMinor

/-- Major 0x60: MACQ, MACQ_TRY [02 R36]. -/
noncomputable def decMaj60 (h : Hdr) (w : Nat) : Except DecodeError Instr :=
  if fld w 0 6 = 0 then
    need (EW.ofCode (fld w 6 2)) .badCode fun ew => .ok (.macq h (mF w 16) (finF w 12 4) (finF w 8 4) ew)
  else
  if fld w 5 1 = 1 ∧ fld w 0 2 = 0 then
    need (EW.ofCode (fld w 6 2)) .badCode fun ew => .ok (.macqTry h (mF w 16) (finF w 12 4) (finF w 8 4) ew (pF w 2))
  else
  .error .reservedMinor

/-- Major 0x61: MREL [02 R36]. -/
noncomputable def decMaj61 (h : Hdr) (w : Nat) : Except DecodeError Instr :=
  if fld w 0 16 = 0 then .ok (.mrel h (mF w 16)) else
  .error .reservedMinor

/-- Major 0x62: MLD_ROW, MLD_COL, MLD_SPARSE, MLD_BCAST [02 R36]. -/
noncomputable def decMaj62 (h : Hdr) (w : Nat) : Except DecodeError Instr :=
  if fld w 0 4 = 0 then .ok (.mldRow h (mF w 16) (gF w 10) (gF w 4)) else
  if fld w 0 4 = 1 then .ok (.mldCol h (mF w 16) (gF w 10) (gF w 4)) else
  if fld w 0 10 = 2 then .ok (.mldSparse h (mF w 16) (gF w 10)) else
  if fld w 0 10 = 3 then .ok (.mldBcast h (mF w 16) (gF w 10)) else
  .error .reservedMinor

/-- Major 0x63: MST_ROW, MST_COL, MST_SPARSE [02 R36]. -/
noncomputable def decMaj63 (h : Hdr) (w : Nat) : Except DecodeError Instr :=
  if fld w 0 3 = 0 then .ok (.mstRow h (mF w 16) (gF w 10) (gF w 4) (bitF w 3)) else
  if fld w 0 3 = 1 then .ok (.mstCol h (mF w 16) (gF w 10) (gF w 4) (bitF w 3)) else
  if fld w 4 6 = 0 ∧ fld w 0 3 = 2 then .ok (.mstSparse h (mF w 16) (gF w 10) (bitF w 3)) else
  .error .reservedMinor

/-- Major 0x64: MMUL [02 R36]. -/
noncomputable def decMaj64 (h : Hdr) (w : Nat) : Except DecodeError Instr :=
  .ok (.mmul h (mF w 16) (mF w 12) (mF w 8) (mF w 4) (bitF w 3) (bitF w 2) (finF w 0 2))

/-- Major 0x65: MMULT [02 R36]. -/
noncomputable def decMaj65 (h : Hdr) (w : Nat) : Except DecodeError Instr :=
  .ok (.mmult h (mF w 16) (mF w 12) (mF w 8) (mF w 4) (bitF w 3) (bitF w 2) (finF w 0 2))

/-- Major 0x66: MTMUL [02 R36]. -/
noncomputable def decMaj66 (h : Hdr) (w : Nat) : Except DecodeError Instr :=
  .ok (.mtmul h (mF w 16) (mF w 12) (mF w 8) (mF w 4) (bitF w 3) (bitF w 2) (finF w 0 2))

/-- Major 0x67: MADD, MSUB, MHAD, MMAX [02 R36]. -/
noncomputable def decMaj67 (h : Hdr) (w : Nat) : Except DecodeError Instr :=
  if fld w 4 4 = 0 then .ok (.madd h (mF w 16) (mF w 12) (mF w 8) (bitF w 3) (bitF w 2) (finF w 0 2)) else
  if fld w 4 4 = 1 then .ok (.msub h (mF w 16) (mF w 12) (mF w 8) (bitF w 3) (bitF w 2) (finF w 0 2)) else
  if fld w 4 4 = 2 then .ok (.mhad h (mF w 16) (mF w 12) (mF w 8) (bitF w 3) (bitF w 2) (finF w 0 2)) else
  if fld w 4 4 = 3 then .ok (.mmax h (mF w 16) (mF w 12) (mF w 8) (bitF w 3) (bitF w 2) (finF w 0 2)) else
  .error .reservedMinor

/-- Major 0x68: MTRN, MNEG, MCVT, MCOPY, MRESHAPE [02 R36]. -/
noncomputable def decMaj68 (h : Hdr) (w : Nat) : Except DecodeError Instr :=
  if fld w 4 8 = 0 ∧ fld w 0 3 = 0 then .ok (.mtrn h (mF w 16) (mF w 12) (bitF w 3)) else
  if fld w 4 8 = 1 ∧ fld w 2 1 = 0 then .ok (.mneg h (mF w 16) (mF w 12) (bitF w 3) (finF w 0 2)) else
  if fld w 4 4 = 2 ∧ fld w 2 1 = 0 then
    need (Rnd.ofCode (fld w 8 2)) .badCode fun rnd => .ok (.mcvt h (mF w 16) (mF w 12) (finF w 10 2) rnd (bitF w 3) (finF w 0 2))
  else
  if fld w 4 8 = 3 ∧ fld w 0 3 = 0 then .ok (.mcopy h (mF w 16) (mF w 12) (bitF w 3)) else
  if fld w 4 8 = 4 ∧ fld w 0 3 = 0 then .ok (.mreshape h (mF w 16) (mF w 12) (bitF w 3)) else
  .error .reservedMinor

/-- Major 0x69: MSCALE, MFILL, MGET, MPUT, MSHAPE [02 R36]. -/
noncomputable def decMaj69 (h : Hdr) (w : Nat) : Except DecodeError Instr :=
  if fld w 0 5 = 0 then .ok (.mscale h (mF w 16) (mF w 12) (gF w 6) (bitF w 5)) else
  if fld w 12 4 = 0 ∧ fld w 0 6 = 1 then .ok (.mfill h (mF w 16) (gF w 6)) else
  if fld w 16 4 = 0 ∧ fld w 0 5 = 2 then .ok (.mget h (mF w 12) (gF w 6) (bitF w 5)) else
  if fld w 12 4 = 0 ∧ fld w 0 6 = 3 then .ok (.mput h (mF w 16) (gF w 6)) else
  if fld w 16 4 = 0 ∧ fld w 0 5 = 4 then .ok (.mshape h (mF w 12) (gF w 6) (bitF w 5)) else
  .error .reservedMinor

/-- Major 0x6A: MINV, MLU, MCHOL, MTRSV [02 R36]. -/
noncomputable def decMaj6A (h : Hdr) (w : Nat) : Except DecodeError Instr :=
  if fld w 4 8 = 0 ∧ fld w 0 3 = 0 then .ok (.minv h (mF w 16) (mF w 12) (bitF w 3)) else
  if fld w 4 4 = 0 ∧ fld w 0 3 = 1 then .ok (.mlu h (mF w 16) (mF w 12) (mF w 8) (bitF w 3)) else
  if fld w 4 8 = 0 ∧ fld w 0 3 = 2 then .ok (.mchol h (mF w 16) (mF w 12) (bitF w 3)) else
  if fld w 6 2 = 0 ∧ fld w 0 2 = 3 then
    .ok (.mtrsv h (mF w 16) (mF w 12) (mF w 8) (bitF w 5) (bitF w 4) (bitF w 3) (bitF w 2))
  else
  .error .reservedMinor

/-- Major 0x6B: MEXP [02 R36]. -/
noncomputable def decMaj6B (h : Hdr) (w : Nat) : Except DecodeError Instr :=
  if fld w 4 8 = 0 ∧ fld w 0 3 = 0 then .ok (.mexp h (mF w 16) (mF w 12) (bitF w 3)) else
  .error .reservedMinor

/-- Major 0x6C: MHT [02 R36]. -/
noncomputable def decMaj6C (h : Hdr) (w : Nat) : Except DecodeError Instr :=
  if fld w 10 2 = 0 ∧ fld w 4 4 = 0 ∧ fld w 2 1 = 0 then
    need (HtBlk.ofCode (fld w 0 2)) .badCode fun blk => .ok (.mht h (mF w 16) (mF w 12) (finF w 8 2) (bitF w 3) blk)
  else
  .error .reservedMinor

/-- Major 0x6D: MQUANT, MSACC [02 R36]. -/
noncomputable def decMaj6D (h : Hdr) (w : Nat) : Except DecodeError Instr :=
  if fld w 0 5 = 0 then .ok (.mquant h (mF w 16) (mF w 12) (gF w 6) (bitF w 5)) else
  if fld w 0 5 = 1 then .ok (.msacc h (mF w 16) (mF w 12) (gF w 6) (bitF w 5)) else
  .error .reservedMinor

/-- Major 0x70: CALLOC, CFREE [02 R36]. -/
noncomputable def decMaj70 (h : Hdr) (w : Nat) : Except DecodeError Instr :=
  if fld w 16 4 = 0 ∧ fld w 0 4 = 0 then .ok (.calloc h (gF w 10) (gF w 4)) else
  if fld w 16 4 = 1 ∧ fld w 0 10 = 0 then .ok (.cfree h (gF w 10)) else
  .error .reservedMinor

/-- Major 0x71: CACC_ADD, CACC_IADD, CACC_WRITE [02 R36]. -/
noncomputable def decMaj71 (h : Hdr) (w : Nat) : Except DecodeError Instr :=
  if fld w 0 3 = 0 then .ok (.caccAdd h (mF w 16) (gF w 10) (gF w 4) (bitF w 3)) else
  if fld w 0 3 = 1 then .ok (.caccIadd h (mF w 16) (gF w 10) (gF w 4) (bitF w 3)) else
  if fld w 0 3 = 2 then .ok (.caccWrite h (mF w 16) (gF w 10) (gF w 4) (bitF w 3)) else
  .error .reservedMinor

/-- Major 0x72: CLD, CLD_CLR [02 R36]. -/
noncomputable def decMaj72 (h : Hdr) (w : Nat) : Except DecodeError Instr :=
  if fld w 0 4 = 0 then .ok (.cld h (mF w 16) (gF w 10) (gF w 4)) else
  if fld w 0 4 = 1 then .ok (.cldClr h (mF w 16) (gF w 10) (gF w 4)) else
  .error .reservedMinor

/-- Major 0x73: CDRAIN_MEM, CDRAIN_ADD [02 R36]. -/
noncomputable def decMaj73 (h : Hdr) (w : Nat) : Except DecodeError Instr :=
  if fld w 16 4 = 0 ∧ fld w 0 8 = 0 then need (kF w 8) .badUniform fun k => .ok (.cdrainMem h k) else
  if fld w 16 4 = 1 ∧ fld w 0 8 = 0 then need (kF w 8) .badUniform fun k => .ok (.cdrainAdd h k) else
  .error .reservedMinor

/-- Major 0x78: CPY, CPY_2D [02 R36]. -/
noncomputable def decMaj78 (h : Hdr) (w : Nat) : Except DecodeError Instr :=
  if fld w 16 4 = 0 ∧ fld w 0 2 = 0 then need (kF w 8) .badUniform fun k => .ok (.cpy h k (finF w 2 6)) else
  if fld w 16 4 = 1 ∧ fld w 0 2 = 0 then need (kF w 8) .badUniform fun k => .ok (.cpy2d h k (finF w 2 6)) else
  .error .reservedMinor

/-- Major 0x79: CPYX_GATHER, CPYX_SCATTER [02 R36]. -/
noncomputable def decMaj79 (h : Hdr) (w : Nat) : Except DecodeError Instr :=
  if fld w 16 4 = 0 ∧ fld w 0 2 = 0 then need (kF w 8) .badUniform fun k => .ok (.cpyxGather h k (finF w 2 6)) else
  if fld w 16 4 = 1 ∧ fld w 0 2 = 0 then need (kF w 8) .badUniform fun k => .ok (.cpyxScatter h k (finF w 2 6)) else
  .error .reservedMinor

/-- Major 0x7A: WTANY, WTALL, TFIRST, TTEST [02 R36]. -/
noncomputable def decMaj7A (h : Hdr) (w : Nat) : Except DecodeError Instr :=
  if fld w 16 4 = 0 ∧ fld w 0 8 = 0 then need (kF w 8) .badUniform fun k => .ok (.wtany h k) else
  if fld w 16 4 = 1 ∧ fld w 0 8 = 0 then need (kF w 8) .badUniform fun k => .ok (.wtall h k) else
  if fld w 16 4 = 2 then need (kF w 8) .badUniform fun k => need (kF w 0) .badUniform fun d => .ok (.tfirst h k d) else
  if fld w 16 4 = 3 then need (kF w 8) .badUniform fun k => need (kF w 0) .badUniform fun d => .ok (.ttest h k d) else
  .error .reservedMinor

/-- Major 0x7B: TLWAIT, TLREAD [02 R36]. -/
noncomputable def decMaj7B (h : Hdr) (w : Nat) : Except DecodeError Instr :=
  if fld w 16 4 = 0 ∧ fld w 0 6 = 0 then
    need (EngCtx.ofCode (fld w 14 2)) .badCode fun ctx => need (kF w 6) .badUniform fun k => .ok (.tlwait h ctx k)
  else
  if fld w 16 4 = 1 ∧ fld w 0 6 = 0 then
    need (EngCtx.ofCode (fld w 14 2)) .badCode fun ctx => need (kF w 6) .badUniform fun k => .ok (.tlread h ctx k)
  else
  .error .reservedMinor

/-- Major 0x7C: COLL_ALLREDUCE, COLL_REDUCESCATTER, COLL_ALLGATHER, COLL_ALLTOALL [02 R36]. -/
noncomputable def decMaj7C (h : Hdr) (w : Nat) : Except DecodeError Instr :=
  if fld w 16 4 = 0 ∧ fld w 0 8 = 0 then need (kF w 8) .badUniform fun k => .ok (.collAllreduce h k) else
  if fld w 16 4 = 1 ∧ fld w 0 8 = 0 then need (kF w 8) .badUniform fun k => .ok (.collReducescatter h k) else
  if fld w 16 4 = 2 ∧ fld w 0 8 = 0 then need (kF w 8) .badUniform fun k => .ok (.collAllgather h k) else
  if fld w 16 4 = 3 ∧ fld w 0 8 = 0 then need (kF w 8) .badUniform fun k => .ok (.collAlltoall h k) else
  .error .reservedMinor

/-- Major 0x7D: HNEW, HCOPY, HDROP, HDEREF, HFIN, HLD, HST [02 R36]. -/
noncomputable def decMaj7D (h : Hdr) (w : Nat) : Except DecodeError Instr :=
  if fld w 16 4 = 0 ∧ fld w 0 4 = 0 then .ok (.hnew h (gF w 10) (gF w 4)) else
  if fld w 16 4 = 1 ∧ fld w 0 4 = 0 then .ok (.hcopy h (gF w 10) (gF w 4)) else
  if fld w 10 10 = 128 ∧ fld w 0 4 = 0 then .ok (.hdrop h (gF w 4)) else
  if fld w 16 4 = 3 ∧ fld w 0 4 = 0 then .ok (.hderef h (gF w 10) (gF w 4)) else
  if fld w 16 4 = 4 ∧ fld w 0 4 = 0 then .ok (.hfin h (gF w 10) (gF w 4)) else
  if fld w 16 4 = 5 ∧ fld w 0 4 = 0 then .ok (.hld h (gF w 10) (gF w 4)) else
  if fld w 16 4 = 6 ∧ fld w 0 4 = 0 then .ok (.hst h (gF w 10) (gF w 4)) else
  .error .reservedMinor

/-- Major 0x7E: LYWAIT, LYDONE, LYHINT_PF, LYHINT_RETRY [02 R36]. -/
noncomputable def decMaj7E (h : Hdr) (w : Nat) : Except DecodeError Instr :=
  if fld w 16 4 = 0 ∧ fld w 0 4 = 0 then .ok (.lywait h (gF w 10) (gF w 4)) else
  if fld w 16 4 = 1 ∧ fld w 0 4 = 0 then .ok (.lydone h (gF w 10) (gF w 4)) else
  if fld w 16 4 = 2 ∧ fld w 0 4 = 0 then .ok (.lyhintPf h (gF w 10) (gF w 4)) else
  if fld w 16 4 = 2 ∧ fld w 0 4 = 4 then .ok (.lyhintRetry h (gF w 10) (gF w 4)) else
  .error .reservedMinor

/-- The fields of a word, by its major opcode; a major not listed is reserved [02 R36]. -/
noncomputable def decodeFields (w : Nat) : Except DecodeError Instr :=
  match fld w 20 7 with
  | 0 => decMaj00 (hdrF w) w
  | 1 => decMaj01 w
  | 2 => decMaj02 w
  | 3 => decMaj02 w
  | 4 => decMaj04 (hdrF w) w
  | 5 => decMaj05 (hdrF w) w
  | 6 => decMaj06 (hdrF w) w
  | 7 => decMaj07 (hdrF w) w
  | 8 => decMaj08 (hdrF w) w
  | 9 => decMaj09 (hdrF w) w
  | 10 => decMaj0A (hdrF w) w
  | 11 => decMaj0B (hdrF w) w
  | 12 => decMaj0C (hdrF w) w
  | 13 => decMaj0D (hdrF w) w
  | 14 => decMaj0E (hdrF w) w
  | 15 => decMaj0F (hdrF w) w
  | 16 => decMaj10 (hdrF w) w
  | 17 => decMaj11 (hdrF w) w
  | 18 => decMaj12 (hdrF w) w
  | 19 => decMaj13 (hdrF w) w
  | 20 => decMaj14 (hdrF w) w
  | 21 => decMaj15 (hdrF w) w
  | 22 => decMaj16 (hdrF w) w
  | 23 => decMaj17 (hdrF w) w
  | 24 => decMaj18 (hdrF w) w
  | 25 => decMaj19 (hdrF w) w
  | 26 => decMaj1A (hdrF w) w
  | 27 => decMaj1B (hdrF w) w
  | 28 => decMaj1C (hdrF w) w
  | 29 => decMaj1D (hdrF w) w
  | 30 => decMaj1E (hdrF w) w
  | 31 => decMaj1F (hdrF w) w
  | 32 => decMaj20 (hdrF w) w
  | 33 => decMaj21 (hdrF w) w
  | 34 => decMaj22 (hdrF w) w
  | 35 => decMaj23 (hdrF w) w
  | 36 => decMaj24 (hdrF w) w
  | 37 => decMaj25 (hdrF w) w
  | 38 => decMaj26 (hdrF w) w
  | 39 => decMaj27 (hdrF w) w
  | 40 => decMaj28 (hdrF w) w
  | 41 => decMaj29 (hdrF w) w
  | 42 => decMaj2A (hdrF w) w
  | 43 => decMaj2B (hdrF w) w
  | 44 => decMaj2C (hdrF w) w
  | 48 => decMaj30 (hdrF w) w
  | 49 => decMaj31 (hdrF w) w
  | 50 => decMaj32 (hdrF w) w
  | 51 => decMaj33 (hdrF w) w
  | 52 => decMaj34 (hdrF w) w
  | 53 => decMaj35 (hdrF w) w
  | 54 => decMaj36 (hdrF w) w
  | 55 => decMaj37 (hdrF w) w
  | 56 => decMaj38 (hdrF w) w
  | 57 => decMaj39 (hdrF w) w
  | 64 => decMaj40 (hdrF w) w
  | 65 => decMaj41 (hdrF w) w
  | 66 => decMaj42 (hdrF w) w
  | 67 => decMaj43 (hdrF w) w
  | 68 => decMaj44 (hdrF w) w
  | 69 => decMaj45 (hdrF w) w
  | 70 => decMaj46 (hdrF w) w
  | 71 => decMaj47 (hdrF w) w
  | 72 => decMaj48 (hdrF w) w
  | 73 => decMaj49 (hdrF w) w
  | 80 => decMaj50 (hdrF w) w
  | 81 => decMaj51 (hdrF w) w
  | 82 => decMaj52 (hdrF w) w
  | 83 => decMaj53 (hdrF w) w
  | 84 => decMaj54 (hdrF w) w
  | 85 => decMaj55 (hdrF w) w
  | 86 => decMaj56 (hdrF w) w
  | 87 => decMaj57 (hdrF w) w
  | 88 => decMaj58 (hdrF w) w
  | 96 => decMaj60 (hdrF w) w
  | 97 => decMaj61 (hdrF w) w
  | 98 => decMaj62 (hdrF w) w
  | 99 => decMaj63 (hdrF w) w
  | 100 => decMaj64 (hdrF w) w
  | 101 => decMaj65 (hdrF w) w
  | 102 => decMaj66 (hdrF w) w
  | 103 => decMaj67 (hdrF w) w
  | 104 => decMaj68 (hdrF w) w
  | 105 => decMaj69 (hdrF w) w
  | 106 => decMaj6A (hdrF w) w
  | 107 => decMaj6B (hdrF w) w
  | 108 => decMaj6C (hdrF w) w
  | 109 => decMaj6D (hdrF w) w
  | 112 => decMaj70 (hdrF w) w
  | 113 => decMaj71 (hdrF w) w
  | 114 => decMaj72 (hdrF w) w
  | 115 => decMaj73 (hdrF w) w
  | 120 => decMaj78 (hdrF w) w
  | 121 => decMaj79 (hdrF w) w
  | 122 => decMaj7A (hdrF w) w
  | 123 => decMaj7B (hdrF w) w
  | 124 => decMaj7C (hdrF w) w
  | 125 => decMaj7D (hdrF w) w
  | 126 => decMaj7E (hdrF w) w
  | _ => .error .reservedMajor

/-- The instruction a word stands for: its fields, then the checks of WellFormed. -/
noncomputable def decodeWord (w : W32) : Except DecodeError Instr :=
  match decodeFields w.toNat with
  | .error e => .error e
  | .ok i =>
    match i.illForm with
    | none => .ok i
    | some r => .error (.illFormed r)

/-- The instruction at the head of a byte sequence, and the bytes after it; a word is four bytes, little-endian
[02 R21]. -/
noncomputable def decodeBytes : List Byte → Except DecodeError (Instr × List Byte)
  | b0 :: b1 :: b2 :: b3 :: rest =>
    match decodeWord (BitVec.ofNat 32 (ofBytes [b0, b1, b2, b3])) with
    | .ok i => .ok (i, rest)
    | .error e => .error e
  | _ => .error .tooShort

/-- The instruction that the decoder reads from a row of the opcode table whose bits are `w`: one word, least
significant byte first. -/
noncomputable def decodeTableWord (nbits w : Nat) : Option Instr :=
  if nbits ≤ 32 then
    match decodeBytes (toBytes 4 w) with
    | .ok (i, _) => some i
    | .error _ => none
  else none

/-- The header's share of a word's value [02 R21]. -/
def Hdr.code (h : Hdr) : Nat := h.k.toNat * 2 ^ 31 + h.s.toNat * 2 ^ 30 + h.g.val * 2 ^ 27

/-- A word from its header's share, its fixed bits and its operand fields, each a value and its low bit. -/
def enc0 (hc base : Nat) : Nat := hc + base
def enc1 (hc base a0 l0 : Nat) : Nat := hc + base + a0 * 2 ^ l0
def enc2 (hc base a0 l0 a1 l1 : Nat) : Nat := hc + base + a0 * 2 ^ l0 + a1 * 2 ^ l1
def enc3 (hc base a0 l0 a1 l1 a2 l2 : Nat) : Nat := hc + base + a0 * 2 ^ l0 + a1 * 2 ^ l1 + a2 * 2 ^ l2
def enc4 (hc base a0 l0 a1 l1 a2 l2 a3 l3 : Nat) : Nat := hc + base + a0 * 2 ^ l0 + a1 * 2 ^ l1 + a2 * 2 ^ l2 + a3 * 2 ^ l3
def enc5 (hc base a0 l0 a1 l1 a2 l2 a3 l3 a4 l4 : Nat) : Nat := hc + base + a0 * 2 ^ l0 + a1 * 2 ^ l1 + a2 * 2 ^ l2 + a3 * 2 ^ l3 + a4 * 2 ^ l4
def enc6 (hc base a0 l0 a1 l1 a2 l2 a3 l3 a4 l4 a5 l5 : Nat) : Nat := hc + base + a0 * 2 ^ l0 + a1 * 2 ^ l1 + a2 * 2 ^ l2 + a3 * 2 ^ l3 + a4 * 2 ^ l4 + a5 * 2 ^ l5
def enc7 (hc base a0 l0 a1 l1 a2 l2 a3 l3 a4 l4 a5 l5 a6 l6 : Nat) : Nat := hc + base + a0 * 2 ^ l0 + a1 * 2 ^ l1 + a2 * 2 ^ l2 + a3 * 2 ^ l3 + a4 * 2 ^ l4 + a5 * 2 ^ l5 + a6 * 2 ^ l6

/-- The value of an instruction's word; an event has none [02 R29-R36]. -/
def encodeNat : Instr → Option Nat
  | .nop h => some (enc0 h.code 0x00000000)
  | .scp scope order => some (enc2 0 0x80100000 scope.code 16 order.code 14)
  | .lit hi g body => some (enc3 0 0x80200000 hi.toNat 20 g.val 27 body.toNat 0)
  | .br h cc off => some (enc2 h.code 0x00400000 cc.code 16 off.toNat 0)
  | .bnone h p off => some (enc2 h.code 0x00500000 p.val 17 off.toNat 0)
  | .bany h p off => some (enc2 h.code 0x00508000 p.val 17 off.toNat 0)
  | .ball h p off => some (enc2 h.code 0x00510000 p.val 17 off.toNat 0)
  | .bnall h p off => some (enc2 h.code 0x00518000 p.val 17 off.toNat 0)
  | .bdiv h p off => some (enc2 h.code 0x00600000 p.val 17 off.toNat 0)
  | .call h off => some (enc1 h.code 0x00700000 off.toNat 0)
  | .jmpr h a => some (enc1 h.code 0x00800000 a.val 8)
  | .ret h a => some (enc1 h.code 0x00900000 a.val 10)
  | .exit h => some (enc0 h.code 0x00910000)
  | .join h => some (enc0 h.code 0x00920000)
  | .earlygo h => some (enc0 h.code 0x00930000)
  | .yield h => some (enc0 h.code 0x00940000)
  | .tret h => some (enc0 h.code 0x00950000)
  | .bkpt h code => some (enc1 h.code 0x00960000 code.toNat 0)
  | .trap h code => some (enc1 h.code 0x00A00000 code.toNat 0)
  | .eret h => some (enc0 h.code 0x00B00000)
  | .halt h => some (enc0 h.code 0x00B10000)
  | .tlbi h a scope kind => some (enc3 h.code 0x00B20000 a.val 10 scope.code 6 kind.code 4)
  | .railsel h rail => some (enc1 h.code 0x00B30000 rail.toNat 0)
  | .csrr h d csr => some (enc2 h.code 0x00C00000 d.val 14 csr.code 0)
  | .csrw h d csr => some (enc2 h.code 0x00D00000 d.val 14 csr.code 0)
  | .csrs h d csr => some (enc2 h.code 0x00E00000 d.val 14 csr.code 0)
  | .csrc h d csr => some (enc2 h.code 0x00F00000 d.val 14 csr.code 0)
  | .iadd h d a b => some (enc3 h.code 0x01000000 d.val 14 a.val 8 b.val 2)
  | .isub h d a b => some (enc3 h.code 0x01000001 d.val 14 a.val 8 b.val 2)
  | .imin h d a b => some (enc3 h.code 0x01000002 d.val 14 a.val 8 b.val 2)
  | .imax h d a b => some (enc3 h.code 0x01000003 d.val 14 a.val 8 b.val 2)
  | .iminZ h d a b => some (enc3 h.code 0x01100000 d.val 14 a.val 8 b.val 2)
  | .imaxZ h d a b => some (enc3 h.code 0x01100001 d.val 14 a.val 8 b.val 2)
  | .idiff h d a b => some (enc3 h.code 0x01100002 d.val 14 a.val 8 b.val 2)
  | .iabs h d a => some (enc2 h.code 0x01100003 d.val 14 a.val 8)
  | .andw h d a b => some (enc3 h.code 0x01200000 d.val 14 a.val 8 b.val 2)
  | .orw h d a b => some (enc3 h.code 0x01200001 d.val 14 a.val 8 b.val 2)
  | .xorw h d a b => some (enc3 h.code 0x01200002 d.val 14 a.val 8 b.val 2)
  | .andn h d a b => some (enc3 h.code 0x01200003 d.val 14 a.val 8 b.val 2)
  | .ishl h d a b => some (enc3 h.code 0x01300000 d.val 14 a.val 8 b.val 2)
  | .ishr h d a b => some (enc3 h.code 0x01300001 d.val 14 a.val 8 b.val 2)
  | .isar h d a b => some (enc3 h.code 0x01300002 d.val 14 a.val 8 b.val 2)
  | .irot h d a b => some (enc3 h.code 0x01300003 d.val 14 a.val 8 b.val 2)
  | .imul h d a b => some (enc3 h.code 0x01400000 d.val 14 a.val 8 b.val 2)
  | .imulhS h d a b => some (enc3 h.code 0x01400001 d.val 14 a.val 8 b.val 2)
  | .imulhZ h d a b => some (enc3 h.code 0x01400002 d.val 14 a.val 8 b.val 2)
  | .imad h d a b => some (enc3 h.code 0x01400003 d.val 14 a.val 8 b.val 2)
  | .popc h d a => some (enc2 h.code 0x01500000 d.val 14 a.val 8)
  | .clz h d a => some (enc2 h.code 0x01500001 d.val 14 a.val 8)
  | .brev h d a => some (enc2 h.code 0x01500002 d.val 14 a.val 8)
  | .fns h d a b => some (enc3 h.code 0x01500003 d.val 14 a.val 8 b.val 2)
  | .popc64 h d a => some (enc2 h.code 0x01600000 d.val 14 a.val 8)
  | .clz64 h d a => some (enc2 h.code 0x01600001 d.val 14 a.val 8)
  | .brev64 h d a => some (enc2 h.code 0x01600002 d.val 14 a.val 8)
  | .fns64 h d a b => some (enc3 h.code 0x01600003 d.val 14 a.val 8 b.val 2)
  | .iadd64 h d a b => some (enc3 h.code 0x01700000 d.val 14 a.val 8 b.val 2)
  | .isub64 h d a b => some (enc3 h.code 0x01700001 d.val 14 a.val 8 b.val 2)
  | .ishl64 h d a b => some (enc3 h.code 0x01700002 d.val 14 a.val 8 b.val 2)
  | .ishr64 h d a b => some (enc3 h.code 0x01700003 d.val 14 a.val 8 b.val 2)
  | .bfxS h d a b => some (enc3 h.code 0x01800000 d.val 14 a.val 8 b.val 2)
  | .bfxZ h d a b => some (enc3 h.code 0x01800001 d.val 14 a.val 8 b.val 2)
  | .bfi h d a b => some (enc3 h.code 0x01800002 d.val 14 a.val 8 b.val 2)
  | .prmt h d a b => some (enc3 h.code 0x01800003 d.val 14 a.val 8 b.val 2)
  | .sel h d a b n => some (enc4 h.code 0x01900000 d.val 14 a.val 8 b.val 2 n.val 0)
  | .mov h d a => some (enc2 h.code 0x01A00000 d.val 14 a.val 8)
  | .mov64 h d a => some (enc2 h.code 0x01A00001 d.val 14 a.val 8)
  | .iaddi h d a i => some (enc3 h.code 0x01B00000 d.val 14 a.val 8 i.toNat 0)
  | .andi h d a i => some (enc3 h.code 0x01C00000 d.val 14 a.val 8 i.toNat 0)
  | .ori h d a i => some (enc3 h.code 0x01D00000 d.val 14 a.val 8 i.toNat 0)
  | .xori h d a i => some (enc3 h.code 0x01E00000 d.val 14 a.val 8 i.toNat 0)
  | .ishli h d a n => some (enc3 h.code 0x01F00000 d.val 14 a.val 8 n.val 0)
  | .ishri h d a n => some (enc3 h.code 0x01F00040 d.val 14 a.val 8 n.val 0)
  | .isari h d a n => some (enc3 h.code 0x01F00080 d.val 14 a.val 8 n.val 0)
  | .iroti h d a n => some (enc3 h.code 0x01F000C0 d.val 14 a.val 8 n.val 0)
  | .icmp h pd a b c t => some (enc5 h.code 0x02000000 pd.val 17 a.val 11 b.val 5 c.code 2 t.code 0)
  | .icmpi h pd a i c t => some (enc5 h.code 0x02100000 pd.val 17 a.val 11 i.toNat 5 c.code 2 t.code 0)
  | .pand h pd pa pb => some (enc3 h.code 0x02200000 pd.val 17 pa.val 14 pb.val 11)
  | .por h pd pa pb => some (enc3 h.code 0x02200001 pd.val 17 pa.val 14 pb.val 11)
  | .pxor h pd pa pb => some (enc3 h.code 0x02200002 pd.val 17 pa.val 14 pb.val 11)
  | .pandn h pd pa pb => some (enc3 h.code 0x02200003 pd.val 17 pa.val 14 pb.val 11)
  | .lea h d a b n => some (enc4 h.code 0x02300000 d.val 14 a.val 8 b.val 2 n.val 0)
  | .movk h d k => some (enc2 h.code 0x02400000 d.val 14 k.val 0)
  | .iaddk h d a k => some (enc3 h.code 0x02500000 d.val 14 a.val 8 k.val 0)
  | .leak h d a k => some (enc3 h.code 0x02600000 d.val 14 a.val 8 k.val 0)
  | .kmov h d a => some (enc2 h.code 0x02700000 d.val 12 a.val 4)
  | .kadd h d a => some (enc2 h.code 0x02700001 d.val 12 a.val 4)
  | .ksub h d a => some (enc2 h.code 0x02700002 d.val 12 a.val 4)
  | .kmul h d a => some (enc2 h.code 0x02700003 d.val 12 a.val 4)
  | .kand h d a => some (enc2 h.code 0x02700004 d.val 12 a.val 4)
  | .kor h d a => some (enc2 h.code 0x02700005 d.val 12 a.val 4)
  | .kxor h d a => some (enc2 h.code 0x02700006 d.val 12 a.val 4)
  | .kshl h d a => some (enc2 h.code 0x02700007 d.val 12 a.val 4)
  | .kshr h d a => some (enc2 h.code 0x02700008 d.val 12 a.val 4)
  | .ksar h d a => some (enc2 h.code 0x02700009 d.val 12 a.val 4)
  | .kmin h d a => some (enc2 h.code 0x0270000A d.val 12 a.val 4)
  | .kmax h d a => some (enc2 h.code 0x0270000B d.val 12 a.val 4)
  | .kcmp h d a => some (enc2 h.code 0x0270000C d.val 12 a.val 4)
  | .kpopc h d a => some (enc2 h.code 0x0270000D d.val 12 a.val 4)
  | .kclz h d a => some (enc2 h.code 0x0270000E d.val 12 a.val 4)
  | .kfns h d a => some (enc2 h.code 0x0270000F d.val 12 a.val 4)
  | .kli h d i => some (enc2 h.code 0x02800000 d.val 12 i.toNat 0)
  | .kaddi h d i => some (enc2 h.code 0x02900000 d.val 12 i.toNat 0)
  | .kld h d a o => some (enc3 h.code 0x02A00000 d.val 12 a.val 4 o.val 0)
  | .kst h d a o => some (enc3 h.code 0x02B00000 d.val 12 a.val 4 o.val 0)
  | .kget h d a lane => some (enc3 h.code 0x02C00000 d.val 12 a.val 6 lane.val 1)
  | .fadd h d a b => some (enc3 h.code 0x03000000 d.val 14 a.val 8 b.val 2)
  | .fsub h d a b => some (enc3 h.code 0x03000001 d.val 14 a.val 8 b.val 2)
  | .fmul h d a b => some (enc3 h.code 0x03000002 d.val 14 a.val 8 b.val 2)
  | .ffma h d a b => some (enc3 h.code 0x03000003 d.val 14 a.val 8 b.val 2)
  | .fmin h d a b => some (enc3 h.code 0x03100000 d.val 14 a.val 8 b.val 2)
  | .fmax h d a b => some (enc3 h.code 0x03100001 d.val 14 a.val 8 b.val 2)
  | .fabs h d a => some (enc2 h.code 0x03100002 d.val 14 a.val 8)
  | .fneg h d a => some (enc2 h.code 0x03100003 d.val 14 a.val 8)
  | .fcmp h pd a b c sig => some (enc5 h.code 0x03200000 pd.val 17 a.val 11 b.val 5 c.code 2 sig.toNat 0)
  | .frcp h d a => some (enc2 h.code 0x03300000 d.val 14 a.val 8)
  | .frsq h d a => some (enc2 h.code 0x03300004 d.val 14 a.val 8)
  | .fsqrt h d a => some (enc2 h.code 0x03300008 d.val 14 a.val 8)
  | .fexp2 h d a => some (enc2 h.code 0x0330000C d.val 14 a.val 8)
  | .flog2 h d a => some (enc2 h.code 0x03300010 d.val 14 a.val 8)
  | .fsin h d a => some (enc2 h.code 0x03300014 d.val 14 a.val 8)
  | .fcos h d a => some (enc2 h.code 0x03300018 d.val 14 a.val 8)
  | .ftanh h d a => some (enc2 h.code 0x0330001C d.val 14 a.val 8)
  | .frndRn h d a => some (enc2 h.code 0x03300020 d.val 14 a.val 8)
  | .frndRz h d a => some (enc2 h.code 0x03300024 d.val 14 a.val 8)
  | .frndRu h d a => some (enc2 h.code 0x03300028 d.val 14 a.val 8)
  | .frndRd h d a => some (enc2 h.code 0x0330002C d.val 14 a.val 8)
  | .fclass h d a => some (enc2 h.code 0x03300030 d.val 14 a.val 8)
  | .fcvt h d a src dst rnd => some (enc5 h.code 0x03400000 d.val 14 a.val 8 src.code 5 dst.code 2 rnd.code 0)
  | .pkbf h d a b => some (enc3 h.code 0x03500000 d.val 14 a.val 8 b.val 2)
  | .pkh h d a b => some (enc3 h.code 0x03500001 d.val 14 a.val 8 b.val 2)
  | .pkins h d a b => some (enc3 h.code 0x03500002 d.val 14 a.val 8 b.val 2)
  | .upk h d a b => some (enc3 h.code 0x03500003 d.val 14 a.val 8 b.val 2)
  | .faddi h d a i => some (enc3 h.code 0x03600000 d.val 14 a.val 8 i.toNat 0)
  | .fmuli h d a i => some (enc3 h.code 0x03700000 d.val 14 a.val 8 i.toNat 0)
  | .dp4S8 h d a b => some (enc3 h.code 0x03800000 d.val 14 a.val 8 b.val 2)
  | .dp4Z8 h d a b => some (enc3 h.code 0x03800001 d.val 14 a.val 8 b.val 2)
  | .dp4E4 h d a b => some (enc3 h.code 0x03800002 d.val 14 a.val 8 b.val 2)
  | .dp4E5 h d a b => some (enc3 h.code 0x03800003 d.val 14 a.val 8 b.val 2)
  | .dp8S4 h d a b => some (enc3 h.code 0x03900000 d.val 14 a.val 8 b.val 2)
  | .dp8F4 h d a b => some (enc3 h.code 0x03900001 d.val 14 a.val 8 b.val 2)
  | .dp2Bf h d a b => some (enc3 h.code 0x03900002 d.val 14 a.val 8 b.val 2)
  | .scacc h d a b => some (enc3 h.code 0x03900003 d.val 14 a.val 8 b.val 2)
  | .ld h d a o sz => some (enc4 h.code 0x04000000 d.val 14 a.val 8 o.toNat 3 sz.code 0)
  | .st h d a o sz => some (enc4 h.code 0x04100000 d.val 14 a.val 8 o.toNat 3 sz.code 0)
  | .pfetch h a o => some (enc2 h.code 0x04200006 a.val 8 o.toNat 3)
  | .fenceFull h scope eng => some (enc2 h.code 0x04300000 scope.code 12 eng.toNat 7)
  | .fenceAcq h scope eng => some (enc2 h.code 0x04310000 scope.code 12 eng.toNat 7)
  | .fenceRel h scope eng => some (enc2 h.code 0x04320000 scope.code 12 eng.toNat 7)
  | .atadd32 h d a b => some (enc3 h.code 0x04400000 d.val 14 a.val 8 b.val 2)
  | .atadd64 h d a b => some (enc3 h.code 0x04400001 d.val 14 a.val 8 b.val 2)
  | .ataddF32 h d a b => some (enc3 h.code 0x04400002 d.val 14 a.val 8 b.val 2)
  | .ataddBf16x2 h d a b => some (enc3 h.code 0x04400003 d.val 14 a.val 8 b.val 2)
  | .atmmMinS h d a b => some (enc3 h.code 0x04500000 d.val 14 a.val 8 b.val 2)
  | .atmmMaxS h d a b => some (enc3 h.code 0x04500001 d.val 14 a.val 8 b.val 2)
  | .atmmMinZ h d a b => some (enc3 h.code 0x04500002 d.val 14 a.val 8 b.val 2)
  | .atmmMaxZ h d a b => some (enc3 h.code 0x04500003 d.val 14 a.val 8 b.val 2)
  | .atlogAnd h d a b => some (enc3 h.code 0x04600000 d.val 14 a.val 8 b.val 2)
  | .atlogOr h d a b => some (enc3 h.code 0x04600001 d.val 14 a.val 8 b.val 2)
  | .atlogXor h d a b => some (enc3 h.code 0x04600002 d.val 14 a.val 8 b.val 2)
  | .atlogExch h d a b => some (enc3 h.code 0x04600003 d.val 14 a.val 8 b.val 2)
  | .cas32 h d a b => some (enc3 h.code 0x04700000 d.val 14 a.val 8 b.val 2)
  | .cas64 h d a b => some (enc3 h.code 0x04700001 d.val 14 a.val 8 b.val 2)
  | .claspAcq h a => some (enc1 h.code 0x04800000 a.val 10)
  | .claspRel h a => some (enc1 h.code 0x04810000 a.val 10)
  | .claspTry h a pd => some (enc2 h.code 0x04820000 a.val 10 pd.val 1)
  | .claspBind h a b => some (enc2 h.code 0x04830000 a.val 10 b.val 4)
  | .claspUnbind h a => some (enc1 h.code 0x04840000 a.val 10)
  | .monitor h a => some (enc1 h.code 0x04900000 a.val 10)
  | .mwait h a pd => some (enc2 h.code 0x04910000 a.val 10 pd.val 7)
  | .mcancel h => some (enc0 h.code 0x04920000)
  | .shflIdx h d a b => some (enc3 h.code 0x05000000 d.val 14 a.val 8 b.val 2)
  | .shflXor h d a b => some (enc3 h.code 0x05000001 d.val 14 a.val 8 b.val 2)
  | .shflUp h d a b => some (enc3 h.code 0x05000002 d.val 14 a.val 8 b.val 2)
  | .shflDown h d a b => some (enc3 h.code 0x05000003 d.val 14 a.val 8 b.val 2)
  | .redu h kd a op => some (enc3 h.code 0x05100000 kd.val 12 a.val 6 op.code 2)
  | .scan h d a op excl => some (enc4 h.code 0x05200000 d.val 14 a.val 8 op.code 2 excl.toNat 0)
  | .compress h d a p => some (enc3 h.code 0x05300000 d.val 14 a.val 8 p.val 2)
  | .expand h d a p => some (enc3 h.code 0x05300001 d.val 14 a.val 8 p.val 2)
  | .matchw h d a => some (enc2 h.code 0x05300002 d.val 14 a.val 8)
  | .ballot h d p => some (enc2 h.code 0x05300003 d.val 14 p.val 2)
  | .bar h => some (enc0 h.code 0x05400000)
  | .arrv h a b scope => some (enc3 h.code 0x05410000 a.val 10 b.val 4 scope.code 0)
  | .awt h a b scope => some (enc3 h.code 0x05420000 a.val 10 b.val 4 scope.code 0)
  | .spawn h a b => some (enc2 h.code 0x05500000 a.val 10 b.val 4)
  | .tnew h a => some (enc1 h.code 0x05600000 a.val 10)
  | .tnewn h a b => some (enc2 h.code 0x05610000 a.val 10 b.val 4)
  | .tcancel h a => some (enc1 h.code 0x05620000 a.val 10)
  | .depdec h a => some (enc1 h.code 0x05700000 a.val 10)
  | .depadd h a b => some (enc2 h.code 0x05710000 a.val 10 b.val 4)
  | .depget h a b => some (enc2 h.code 0x05720000 a.val 10 b.val 4)
  | .rgnew h a => some (enc1 h.code 0x05800000 a.val 10)
  | .rgend h a => some (enc1 h.code 0x05810000 a.val 10)
  | .rgpri h a b => some (enc2 h.code 0x05820000 a.val 10 b.val 4)
  | .macq h d r c ew => some (enc4 h.code 0x06000000 d.val 16 r.val 12 c.val 8 ew.code 6)
  | .macqTry h d r c ew pd => some (enc5 h.code 0x06000020 d.val 16 r.val 12 c.val 8 ew.code 6 pd.val 2)
  | .mrel h d => some (enc1 h.code 0x06100000 d.val 16)
  | .mldRow h d a b => some (enc3 h.code 0x06200000 d.val 16 a.val 10 b.val 4)
  | .mldCol h d a b => some (enc3 h.code 0x06200001 d.val 16 a.val 10 b.val 4)
  | .mldSparse h d a => some (enc2 h.code 0x06200002 d.val 16 a.val 10)
  | .mldBcast h d a => some (enc2 h.code 0x06200003 d.val 16 a.val 10)
  | .mstRow h d a b lw => some (enc4 h.code 0x06300000 d.val 16 a.val 10 b.val 4 lw.toNat 3)
  | .mstCol h d a b lw => some (enc4 h.code 0x06300001 d.val 16 a.val 10 b.val 4 lw.toNat 3)
  | .mstSparse h d a lw => some (enc3 h.code 0x06300002 d.val 16 a.val 10 lw.toNat 3)
  | .mmul h d a b c la lb fm => some (enc7 h.code 0x06400000 d.val 16 a.val 12 b.val 8 c.val 4 la.toNat 3 lb.toNat 2 fm.val 0)
  | .mmult h d a b c la lb fm => some (enc7 h.code 0x06500000 d.val 16 a.val 12 b.val 8 c.val 4 la.toNat 3 lb.toNat 2 fm.val 0)
  | .mtmul h d a b c la lb fm => some (enc7 h.code 0x06600000 d.val 16 a.val 12 b.val 8 c.val 4 la.toNat 3 lb.toNat 2 fm.val 0)
  | .madd h d a b la lb fm => some (enc6 h.code 0x06700000 d.val 16 a.val 12 b.val 8 la.toNat 3 lb.toNat 2 fm.val 0)
  | .msub h d a b la lb fm => some (enc6 h.code 0x06700010 d.val 16 a.val 12 b.val 8 la.toNat 3 lb.toNat 2 fm.val 0)
  | .mhad h d a b la lb fm => some (enc6 h.code 0x06700020 d.val 16 a.val 12 b.val 8 la.toNat 3 lb.toNat 2 fm.val 0)
  | .mmax h d a b la lb fm => some (enc6 h.code 0x06700030 d.val 16 a.val 12 b.val 8 la.toNat 3 lb.toNat 2 fm.val 0)
  | .mtrn h d a la => some (enc3 h.code 0x06800000 d.val 16 a.val 12 la.toNat 3)
  | .mneg h d a la fm => some (enc4 h.code 0x06800010 d.val 16 a.val 12 la.toNat 3 fm.val 0)
  | .mcvt h d a sfm rnd la fm => some (enc6 h.code 0x06800020 d.val 16 a.val 12 sfm.val 10 rnd.code 8 la.toNat 3 fm.val 0)
  | .mcopy h d a la => some (enc3 h.code 0x06800030 d.val 16 a.val 12 la.toNat 3)
  | .mreshape h d a la => some (enc3 h.code 0x06800040 d.val 16 a.val 12 la.toNat 3)
  | .mscale h d a g la => some (enc4 h.code 0x06900000 d.val 16 a.val 12 g.val 6 la.toNat 5)
  | .mfill h d g => some (enc2 h.code 0x06900001 d.val 16 g.val 6)
  | .mget h a g la => some (enc3 h.code 0x06900002 a.val 12 g.val 6 la.toNat 5)
  | .mput h d g => some (enc2 h.code 0x06900003 d.val 16 g.val 6)
  | .mshape h a g la => some (enc3 h.code 0x06900004 a.val 12 g.val 6 la.toNat 5)
  | .minv h d a la => some (enc3 h.code 0x06A00000 d.val 16 a.val 12 la.toNat 3)
  | .mlu h d a b la => some (enc4 h.code 0x06A00001 d.val 16 a.val 12 b.val 8 la.toNat 3)
  | .mchol h d a la => some (enc3 h.code 0x06A00002 d.val 16 a.val 12 la.toNat 3)
  | .mtrsv h d a b unit up la lb => some (enc7 h.code 0x06A00003 d.val 16 a.val 12 b.val 8 unit.toNat 5 up.toNat 4 la.toNat 3 lb.toNat 2)
  | .mexp h d a la => some (enc3 h.code 0x06B00000 d.val 16 a.val 12 la.toNat 3)
  | .mht h d a fm la blk => some (enc5 h.code 0x06C00000 d.val 16 a.val 12 fm.val 8 la.toNat 3 blk.code 0)
  | .mquant h d a g la => some (enc4 h.code 0x06D00000 d.val 16 a.val 12 g.val 6 la.toNat 5)
  | .msacc h d a g la => some (enc4 h.code 0x06D00001 d.val 16 a.val 12 g.val 6 la.toNat 5)
  | .calloc h d b => some (enc2 h.code 0x07000000 d.val 10 b.val 4)
  | .cfree h a => some (enc1 h.code 0x07010000 a.val 10)
  | .caccAdd h d a b fin => some (enc4 h.code 0x07100000 d.val 16 a.val 10 b.val 4 fin.toNat 3)
  | .caccIadd h d a b fin => some (enc4 h.code 0x07100001 d.val 16 a.val 10 b.val 4 fin.toNat 3)
  | .caccWrite h d a b fin => some (enc4 h.code 0x07100002 d.val 16 a.val 10 b.val 4 fin.toNat 3)
  | .cld h d a b => some (enc3 h.code 0x07200000 d.val 16 a.val 10 b.val 4)
  | .cldClr h d a b => some (enc3 h.code 0x07200001 d.val 16 a.val 10 b.val 4)
  | .cdrainMem h k => some (enc1 h.code 0x07300000 k.val 8)
  | .cdrainAdd h k => some (enc1 h.code 0x07310000 k.val 8)
  | .cpy h k tag => some (enc2 h.code 0x07800000 k.val 8 tag.val 2)
  | .cpy2d h k tag => some (enc2 h.code 0x07810000 k.val 8 tag.val 2)
  | .cpyxGather h k tag => some (enc2 h.code 0x07900000 k.val 8 tag.val 2)
  | .cpyxScatter h k tag => some (enc2 h.code 0x07910000 k.val 8 tag.val 2)
  | .wtany h k => some (enc1 h.code 0x07A00000 k.val 8)
  | .wtall h k => some (enc1 h.code 0x07A10000 k.val 8)
  | .tfirst h k d => some (enc2 h.code 0x07A20000 k.val 8 d.val 0)
  | .ttest h k d => some (enc2 h.code 0x07A30000 k.val 8 d.val 0)
  | .tlwait h ctx k => some (enc2 h.code 0x07B00000 ctx.code 14 k.val 6)
  | .tlread h ctx k => some (enc2 h.code 0x07B10000 ctx.code 14 k.val 6)
  | .collAllreduce h k => some (enc1 h.code 0x07C00000 k.val 8)
  | .collReducescatter h k => some (enc1 h.code 0x07C10000 k.val 8)
  | .collAllgather h k => some (enc1 h.code 0x07C20000 k.val 8)
  | .collAlltoall h k => some (enc1 h.code 0x07C30000 k.val 8)
  | .hnew h x y => some (enc2 h.code 0x07D00000 x.val 10 y.val 4)
  | .hcopy h x y => some (enc2 h.code 0x07D10000 x.val 10 y.val 4)
  | .hdrop h y => some (enc1 h.code 0x07D20000 y.val 4)
  | .hderef h x y => some (enc2 h.code 0x07D30000 x.val 10 y.val 4)
  | .hfin h x y => some (enc2 h.code 0x07D40000 x.val 10 y.val 4)
  | .hld h x y => some (enc2 h.code 0x07D50000 x.val 10 y.val 4)
  | .hst h x y => some (enc2 h.code 0x07D60000 x.val 10 y.val 4)
  | .lywait h a b => some (enc2 h.code 0x07E00000 a.val 10 b.val 4)
  | .lydone h a b => some (enc2 h.code 0x07E10000 a.val 10 b.val 4)
  | .lyhintPf h a b => some (enc2 h.code 0x07E20000 a.val 10 b.val 4)
  | .lyhintRetry h a b => some (enc2 h.code 0x07E20004 a.val 10 b.val 4)
  | .passedOverLimit _ _ => none
  | .heldTrapDelivery _ _ => none
  | .faultReportDequeue _ => none
  | .memoryResultArrival _ _ => none
  | .scrubUncorrectable _ => none
  | .matrixAccessCompletion _ _ => none
  | .cellPhaseEnd _ _ => none
  | .cellWordPassEnd _ _ => none
  | .checksumRerunStart _ _ => none
  | .mexpPassEnd _ _ => none
  | .elementBusyEnd _ _ => none
  | .elementPathCompletion _ _ => none
  | .macqParkedGrant _ _ => none
  | .macqArrival _ _ => none
  | .macqTryFailArrival _ _ => none
  | .callocGrant _ _ => none
  | .cfreeCompletion _ _ => none
  | .barrierCompletion _ => none
  | .awtCompletion _ _ => none
  | .claspReleaseCompletion _ _ => none
  | .claspAcqCompletion _ _ => none
  | .claspUnbindCompletion _ _ => none
  | .mwaitWake _ _ => none
  | .mwaitTimeout _ _ => none
  | .tlbiSweepCompletion _ _ => none
  | .fenceEngineCompletion _ _ => none
  | .tagWaitCompletion _ _ => none
  | .tlwaitCompletion _ _ => none
  | .lywaitCompletion _ _ => none
  | .copyCompletion _ => none
  | .drainRowCompletion _ _ => none
  | .drainRowApply _ => none
  | .collCompletion _ => none
  | .homeVerdict _ => none
  | .dropPostApply _ => none
  | .signetVerdictArrival _ _ => none
  | .taskPlacement _ => none
  | .placementWaitLimit _ => none
  | .taskLaunch _ => none
  | .taskEnd _ => none
  | .regionLink _ => none
  | .regionEndCompletion _ => none
  | .intakeTaskEntry => none
  | .intakeRgendEntry => none
  | .intakeRgnewEntry => none
  | .intakeSkipEntry => none
  | .trayTimerExpiry _ _ => none
  | .swapFetchStart _ _ => none
  | .evictionCompletion _ _ => none
  | .swapFetchCompletion _ _ => none
  | .swapFetchFailure _ _ _ => none
  | .swapFetchTimeout _ _ => none
  | .preemptionRequest _ => none
  | .contextSave _ => none
  | .taskRestore _ => none
  | .watchdogParkExpiry _ _ => none
  | .watchdogHandlerExpiry _ _ => none
  | .arbiterInterval _ => none
  | .dieGrant _ _ => none
  | .grantTimeout _ => none
  | .railChangeCompletion _ => none
  | .governorRailWrite _ _ _ => none
  | .thermalLimit _ => none
  | .thermalShutdown _ => none
  | .flitDataReceive _ _ => none
  | .flitNackReceive _ _ => none
  | .flitIdleReceive _ _ => none
  | .linkAckTimeout _ => none
  | .linkRetrainCompletion _ => none
  | .transactionReceive _ => none
  | .transactionResponse _ _ _ => none
  | .transactionResendTimeout _ _ => none
  | .transactionFailure _ _ => none
  | .bar2Write _ _ _ _ => none
  | .bar2Read _ _ _ => none
  | .bar2Fetchadd _ _ _ _ => none
  | .bar2Swap _ _ _ _ => none
  | .bar2Cas _ _ _ _ _ => none
  | .rstctlReset _ _ => none
  | .semRequest _ _ => none
  | .semRelease _ _ => none
  | .msixUnmask _ _ => none
  | .controlRegisterWrite _ _ _ => none
  | .portFlr _ => none
  | .portLinkDown _ => none
  | .hostCompletionTimeout _ _ => none
  | .cxlResponseTimeout _ _ => none
  | .cxlPoisonResponse _ _ => none
  | .attctlRequest _ _ => none
  | .attestationCompletion => none
  | .powerOnReset => none
  | .illegalEncoding _ _ => none
  | .cxlPortDown _ => none

/-- The word of an instruction. -/
def encode (i : Instr) : Option W32 := (encodeNat i).map (BitVec.ofNat 32)

end Sys2Proof
end

