-- ==== Sys2Proof/Machine/Kmac.lean ====
section
/-! DEFINITION. Keccak, SHAKE256 and KMAC256, which the spec takes from FIPS 202 and NIST SP 800-185. PRESUMED (log 12): the
functions are those of the standards. -/

namespace Sys2Proof.Machine

/-- A plane: the five 64-bit lanes of one row, lane x from bit 64 x on. -/
abbrev Plane := BitVec 320

/-- A plane seen from one lane further on: its lane x is lane x + n. -/
def Plane.shift (p : Plane) (n : Nat) : Plane := p.rotateRight (64 * n)

def Plane.lane (p : Plane) (x : Nat) : W64 := p.extractLsb' (64 * x) 64

/-- The plane with these lanes, lane 0 first. -/
def planeOf (ls : List W64) : Plane := ls.foldr (fun l p => (p <<< 64) ||| l.zeroExtend 320) 0

/-- Every lane of a plane turned left by one bit. -/
def Plane.turn (p : Plane) : Plane := planeOf ((List.range 5).map fun x => (p.lane x).rotateLeft 1)

/-- Theta: to every plane, the sum of all planes is added as it stands one lane back, and turned one lane on. -/
def thetaStep (ps : List Plane) : List Plane :=
  let sum := ps.foldl (fun p q => p ^^^ q) 0
  let mix := sum.shift 4 ^^^ (sum.shift 1).turn
  ps.map fun p => p ^^^ mix

/-- Pi takes the lane at (x, y) to (y, 2x + 3y). From (1, 0) it passes through every place but (0, 0). -/
def piNext (at_ : Nat × Nat) : Nat × Nat := (at_.2, (2 * at_.1 + 3 * at_.2) % 5)

/-- Rho and pi along that path: the t-th lane on it moves one place on, turned left by (t + 1)(t + 2) / 2. -/
def movedLanes (ps : List Plane) : Nat → Nat → Nat × Nat → List ((Nat × Nat) × W64)
  | 0, _, _ => []
  | n + 1, t, at_ =>
    (piNext at_, ((ps.getD at_.2 0).lane at_.1).rotateLeft ((t + 1) * (t + 2) / 2 % 64)) :: movedLanes ps n (t + 1) (piNext at_)

def rhoPiStep (ps : List Plane) : List Plane :=
  let moved := movedLanes ps 24 0 (1, 0)
  (List.range 5).map fun y => planeOf ((List.range 5).map fun x =>
    ((moved.find? fun m => m.1 == (x, y)).map Prod.snd).getD ((ps.getD 0 0).lane 0))

/-- Chi, on a whole plane at once. -/
def Plane.chi (p : Plane) : Plane := p ^^^ (~~~p.shift 1 &&& p.shift 2)

/-- The register that makes the round constants moves on: x^8 + x^6 + x^5 + x^4 + 1. -/
def lfsrNext (r : Byte) : Byte := (r <<< 1) ^^^ (if r.msb then 0x71 else 0)

/-- One round's constant, of its seven bits at places 2^j - 1, and the register after it. -/
def roundConst (r : Byte) : W64 × Byte :=
  (List.range 7).foldl (fun x j =>
    (if x.2.getLsbD 0 then x.1 ^^^ BitVec.twoPow 64 (2 ^ j - 1) else x.1, lfsrNext x.2)) (0, r)

/-- Iota: the round's constant goes into lane (0, 0). -/
def iotaStep (rc : W64) : List Plane → List Plane
  | [] => []
  | p :: ps => (p ^^^ rc.zeroExtend 320) :: ps

/-- The rounds that are left, from the register's value on. -/
def keccakRounds : Nat → Byte → List Plane → List Plane
  | 0, _, ps => ps
  | n + 1, r, ps =>
    let (rc, r) := roundConst r
    keccakRounds n r (iotaStep rc ((rhoPiStep (thetaStep ps)).map Plane.chi))

/-- Keccak-f[1600]. -/
def keccakF (ps : List Plane) : List Plane := keccakRounds 24 1 ps

/-- The rate of the 256-bit functions, in bytes. -/
def kRate : Nat := 136

/-- The planes that 200 bytes stand for. -/
def planesOf (bs : List Byte) : List Plane :=
  (List.range 5).map fun y => BitVec.ofNat 320 (ofBytes ((bs.drop (40 * y)).take 40))

/-- Blocks of the rate are absorbed; `n` bounds their number. -/
def absorb : Nat → List Plane → List Byte → List Plane
  | 0, ps, _ => ps
  | n + 1, ps, m =>
    if m.isEmpty then ps
    else absorb n (keccakF (List.zipWith (fun p q => p ^^^ q) ps (planesOf (m.take kRate)))) (m.drop kRate)

/-- A message padded to whole blocks, with its domain bits. -/
def kPad (dom : Byte) (m : List Byte) : List Byte :=
  let n := kRate - m.length % kRate
  if n = 1 then m ++ [dom ||| 0x80] else m ++ [dom] ++ List.replicate (n - 2) 0 ++ [0x80]

/-- The first `out` bytes, at most one block, of the sponge over a message. -/
def keccak (dom : Byte) (m : List Byte) (out : Nat) : List Byte :=
  let p := kPad dom m
  ((absorb (p.length / kRate) (List.replicate 5 0) p).flatMap fun l => toBytes 40 l.toNat).take out

def shake256 (m : List Byte) (out : Nat) : List Byte := keccak 0x1F m out

/-- The bytes of a number, highest first, without leading zeros; at least one. -/
def beBytes (n : Nat) : List Byte :=
  if n < 2 ^ 8 then [BitVec.ofNat 8 n]
  else if n < 2 ^ 16 then [BitVec.ofNat 8 (n / 2 ^ 8), BitVec.ofNat 8 n]
  else (toBytes 8 n).reverse

def leftEncode (n : Nat) : List Byte := BitVec.ofNat 8 (beBytes n).length :: beBytes n
def rightEncode (n : Nat) : List Byte := beBytes n ++ [BitVec.ofNat 8 (beBytes n).length]
def encodeString (s : List Byte) : List Byte := leftEncode (8 * s.length) ++ s
def bytePad (x : List Byte) : List Byte :=
  let y := leftEncode kRate ++ x
  y ++ List.replicate ((kRate - y.length % kRate) % kRate) 0

/-- The bytes of a short ASCII string. -/
def asciiBytes (cs : List Nat) : List Byte := cs.map fun c => BitVec.ofNat 8 c

/-- KMAC256 with an output of `out` bytes. -/
def kmac256 (key m : List Byte) (out : Nat) (custom : List Byte) : List Byte :=
  let name := asciiBytes [75, 77, 65, 67]
  keccak 0x04 (bytePad (encodeString name ++ encodeString custom) ++ bytePad (encodeString key) ++ m ++ rightEncode (8 * out)) out

/-! ### Measurement [24 R377, R378] -/

/-- The bytes of an image that are signed and measured. DESIGN CHOICE (log 57): its SVN, then its body. -/
def imageBytes (svn : W32) (body : List Byte) : List Byte := toBytes 4 svn.toNat ++ body

/-- Loading a stage extends its measurement register [24 R378]. -/
def extend (m : BitVec 512) (bs : List Byte) : BitVec 512 :=
  BitVec.ofNat 512 (ofBytes (shake256 (toBytes 64 m.toNat ++ shake256 bs 64) 64))

/-- `n` bytes from an address, of which a list gives those that are not zero. -/
def ownBytes (cells : List (Nat × Byte)) (a n : Nat) : List Byte :=
  (List.range n).map fun i => ((cells.find? fun c => c.1 == a + i).map Prod.snd).getD 0

end Sys2Proof.Machine
end

