-- ==== Sys2Proof/Machine/State.lean ====
section
/-! DEFINITION. The state of the machine as plain data, why a step may stop, and the state after reset. Each field cites
the rule that names it; fields marked MODEL are the model's own. -/

namespace Sys2Proof.Machine

/-! ### Threads -/

/-- A live matrix handle: its shape, its element width, and its elements in row-major order, each pattern
zero-extended to 32 bits [07 R119, R120]. Padding is always zero, so it is not held. -/
structure Handle where
  rows : Nat
  cols : Nat
  w    : EW
  els  : List W32
  deriving DecidableEq, Repr

/-- A lane's watch: the memory key of the first byte of its 128-byte line, and whether a write has triggered it
[14 R242]. -/
structure Watch where
  line : Nat
  hit  : Bool
  deriving DecidableEq, Repr

/-- A held after-the-fact trap of one lane: the word that raised it, by its number, its code and trapinfo
[21 R393]. -/
structure HeldTrap where
  word : Nat
  code : Nat
  info : W64
  deriving DecidableEq, Repr

/-- A cached translation: the region that made it and its page-table root then, the page's base and size, and the leaf
[13 R213]. -/
structure Xlat where
  region : Nat
  root   : W64
  base   : Nat
  size   : Nat
  leaf   : W64
  deriving DecidableEq, Repr

/-- A handle that an abandoned MEXP read and that was released since: it comes back into its register while the group
issues again, in exchange for what stands there then [10 R194]. -/
structure Stow where
  at_ : W64 × Fin 3
  reg : MReg
  h   : Option Handle
  deriving DecidableEq, Repr

/-- One lane of a strand [01 R8, R12; 09 R164]. -/
structure Lane where
  g           : Vector W32 64             -- g0-g63 [01 R8]
  p           : Vector Bool 7             -- p0-p6 [01 R8]
  m           : Vector (Option Handle) 16 -- m0-m15 [01 R8, 07 R119]
  fpctl       : W32                       -- [03 R51]
  fpstat      : W32                       -- [03 R51]
  mxstat      : W32                       -- [08 R153]
  userscratch : W32                       -- [01 R12]
  present     : Bool                      -- lane of the strand [09 R164]
  exited      : Bool                      -- [09 R164]
  early       : Bool                      -- EARLYGO mark [06 R104]
  watch       : Option Watch              -- [14 R242]
  held        : List HeldTrap             -- [21 R393]
  lastPage    : Option Xlat               -- [13 R213]
  monDrop     : Bool                      -- a pre-emption dropped its watch [14 R244]
  stow        : List Stow                 -- [10 R194]
  parent      : Nat                       -- the task a spawned thread is a child of; 0 for none [17 R286]
  deriving DecidableEq, Repr

/-- A lane at strand start: every register zero, every predicate false, every handle empty [01 R10]. -/
def Lane.start : Lane where
  g := Vector.replicate 64 0
  p := Vector.replicate 7 false
  m := Vector.replicate 16 none
  fpctl := 0
  fpstat := 0
  mxstat := 0
  userscratch := 0
  present := false
  exited := false
  early := false
  watch := none
  held := []
  lastPage := none
  monDrop := false
  stow := []
  parent := 0

/-- The uniform condition flags [01 R8]. -/
structure Flags where
  n : Bool
  z : Bool
  c : Bool
  v : Bool
  e : Bool
  deriving DecidableEq, Repr

/-- Flags at strand start [01 R10]. -/
def Flags.start : Flags := { n := false, z := false, c := false, v := false, e := false }

/-! ### Fragments -/

/-- A fault about to be delivered: its code and reason, syscause as [13 R208] lays it out, the lanes it names, the
value for trapinfo or sysinfo, the report's object field, the report's flags [21 R329], whether the fragment resumes at
PC + 12 [06 R107], the unit of a machine check, and the PC a report gives instead of the packet's (HALT, a start) [06 R109]. -/
structure Trap where
  code   : Nat
  reason : Nat
  cause  : W32
  lanes  : W32
  info   : W64
  object : W64
  flags  : Nat
  detail : W64
  next   : Bool
  repPc  : Option W64
  deriving DecidableEq, Repr

/-- Where a fragment goes after a group [02 R27]: past the group, or by the transfer of its control word. -/
inductive Xfer where
  | fall (pc : W64) (pos : Fin 3)                     -- past the group
  | goto (pc : W64)                                   -- the whole fragment
  | div (taken other : W32) (target : W64)            -- BDIV [09 R167]
  | split (groups : List (W32 × W64))                 -- JMPR: lane sets and their targets [09 R168]
  | exit (lanes : W32)                                -- [06 R103]
  | join                                              -- [09 R171]
  | tret                                              -- [06 R107]
  | eret                                              -- [06 R108]
  | yield                                             -- [06 R105]
  deriving DecidableEq, Repr

/-- What a parked fragment waits for; the wait kinds and their watchdog codes are those of [21 R337]. -/
inductive Wait where
  | settle                                             -- 0 [01 R18]
  | bar                                                -- 1 [14 R246]
  | awt (lanes : W32) (targets : List (LaneId × Nat × Nat)) -- 2, lanes with counter keys and targets [14 R247]
  | claspAcq (lanes : W32) (clasps : List (LaneId × Nat)) -- 3, clasp keys [14 R239]
  | tlwait (ctx : EngCtx) (n : W64)                    -- 4 [16 R264]
  | wtany (mask : W64)                                 -- 5 [16 R257]
  | wtall (mask : W64)                                 -- 6 [16 R257]
  | lywait (lanes : List (LaneId × Nat × Nat))         -- 7, lane, region and layer [19 R317]
  | macq (blocks : Nat)                                -- 8 [07 R126]
  | calloc (n : Nat) (l : LaneId)                      -- 9, the banks and the lane that they are charged to [13 R218]
  | engineFull                                         -- 10 [16 R250]
  | spawn                                              -- 12 [17 R286]
  | descriptor                                         -- 13 [19 R297]
  | rgnew (rcb : Nat)                                  -- 14 [17 R279]
  | unbind (clasps : List (LaneId × Nat))              -- 15 [14 R238]
  | cfree (first fid : Nat)                            -- 16, the run and the word's flight [13 R218]
  | masks (id : Nat) (keys : List (LaneId × Nat × Nat)) -- MODEL: a sparse load's masks, asked of peers, by lane, key and length [07 R131]
  | join                                               -- 17 [09 R171]
  | casketTurn (banks : List Nat)                      -- 18, the banks whose turn has not come [22 R346]
  | tretRest                                           -- 19 [09 R174]
  | tlbi (kind : TlbiKind) (scope : Scope) (va root : W64) -- 20 [06 R110]
  | fence (ops : List Nat)                             -- 21, engine operations waited for [14 R230]
  | mwait (lanes : W32) (pd : PReg) (deadline : Nat)   -- no watchdog [14 R243]
  | entry (t : Trap)                                   -- results still pending before a handler entry [01 R19]
  deriving DecidableEq, Repr

/-- A fragment's issue state; a join-waiting fragment is parked on `join` [09 R165]. -/
inductive FragState where
  | ready
  | parked (w : Wait) (since : Nat)
  deriving DecidableEq, Repr

/-- The handler record of a fragment that runs a user handler [09 R165, 21 R324]. -/
structure HandlerRec where
  entry : Nat   -- number of the handler entry, so that fragments of one entry may merge [09 R173]
  mask  : W32   -- entry mask
  full  : W32   -- the fragment's mask at entry [11 R197]
  pc    : W64   -- resume point [06 R107]
  pos   : Fin 3
  acted : W32   -- entry lanes that have acted on a TRET [09 R174]
  deriving DecidableEq, Repr

/-- The system record of a fragment in a system handler [21 R325]. -/
structure SysRec where
  lane   : LaneId
  full   : W32
  pos    : Fin 3
  pcIn   : W64        -- syspc as set at entry
  regs   : List W32   -- g56-g63 of the entry lane
  preds  : List Bool  -- p0-p6 of the entry lane
  since  : Nat        -- cycle of entry [21 R337]
  deriving DecidableEq, Repr

/-- The nest record [21 R327]. -/
structure NestRec where
  syscause : W32
  syspc    : W64
  sysinfo  : W64
  pprv     : Bool
  sys      : SysRec
  deriving DecidableEq, Repr

/-- Where a fragment stood when it turned to a group that must issue again [10 R194]. -/
structure Aside where
  mask : W32
  pc   : W64
  pos  : Fin 3
  st   : FragState
  pend : Option Xfer
  deriving DecidableEq, Repr

/-- Registers as they stood when a group began: what its words read [01 R14]. -/
structure Regs where
  lanes : Vector Lane 32
  k     : Vector W32 192
  flags : Flags
  deriving DecidableEq, Repr

/-- A group that stopped between two of its words, since an earlier access has to come first (MODEL): its packet and its
first word, the word that runs next, its words, and the registers that its words read [14 R224, R226]. -/
structure Half where
  pc     : W64
  gpos   : Fin 3
  pos    : Fin 3
  words  : List W32
  regs   : Regs
  fflags : Vector W32 32
  deriving DecidableEq, Repr

/-- One slot of a strand's fragment table, with the CSRs that the fragment holds [09 R165, 01 R12, R13]. -/
structure Frag where
  mask      : W32
  pc        : W64
  pos       : Fin 3
  st        : FragState
  yield     : Bool              -- yield mark [06 R105]
  skip      : Nat               -- a cycle in which it does not issue; 0 for none [06 R105]
  passed    : Nat               -- passed-over count; from 64 on it is eldest-equivalent [09 R178]
  handler   : Option HandlerRec
  traplanes : W32
  trapcause : W32
  trappc    : W64
  trapinfo  : W64
  prv       : Bool              -- status.PRV: true is system level [01 R13]
  pprv      : Bool              -- status.PPRV
  nest      : Bool              -- status.NEST
  walkAt    : Option Nat        -- the cycle in which a launch walk's system handler started [13 R210, 21 R337]
  syscause  : W32
  syspc     : W64
  sysinfo   : W64
  sysrec    : Option SysRec
  nestrec   : Option NestRec
  grant     : Nat               -- blocks granted to the parked MACQ, plus 1; 0 for none [09 R179]
  grantAt   : Nat               -- the cycle of that grant [10 R196]
  layers    : List (W64 × Fin 3 × W32) -- LYWAIT groups that have not issued yet, and the lanes whose uses are taken [19 R317]
  ahead     : List (Nat × List Byte) -- a sparse load's masks that peers have sent, by key [07 R131, 23 R361]
  bank      : List Nat          -- first banks of the runs granted to the parked CALLOC [13 R218]
  pend      : Option Xfer       -- what a parked fragment does once its wait word has completed [02 R27]
  aside     : Option Aside      -- where it goes back to after a group that issues again [10 R194]
  half      : Option Half       -- MODEL: the group that it has begun and not finished
  code      : List (Nat × List Byte) -- bytes of its packet that peers have sent, by key [23 R361]
  deriving DecidableEq, Repr

/-- A fragment at launch, in user level [09 R164, 01 R11]. -/
def Frag.start (mask : W32) (pc : W64) : Frag where
  mask := mask
  pc := pc
  pos := 0
  st := .ready
  yield := false
  skip := 0
  passed := 0
  handler := none
  traplanes := 0
  trapcause := 0
  trappc := 0
  trapinfo := 0
  prv := false
  pprv := false
  nest := false
  walkAt := none
  syscause := 0
  syspc := 0
  sysinfo := 0
  sysrec := none
  nestrec := none
  grant := 0
  grantAt := 0
  layers := []
  ahead := []
  bank := []
  pend := none
  aside := none
  half := none
  code := []

/-- A deferred-list entry; one made during a handler carries the handler record [09 R165, R174]. -/
structure Deferred where
  pc      : W64
  mask    : W32
  frag    : Frag      -- the CSRs and records that the lanes take with them
  deriving DecidableEq, Repr

/-! ### Results in flight -/

/-- A register, predicate or handle that a result names [01 R16, R17]. -/
inductive Dest where
  | g (l : LaneId) (r : GReg)
  | k (r : KReg)
  | p (l : LaneId) (n : PReg)
  | m (l : LaneId) (h : MReg)
  deriving DecidableEq, Repr

/-- A value on its way into a register, predicate or handle. -/
inductive RegWrite where
  | g (l : LaneId) (r : GReg) (v : W32)
  | k (r : KReg) (v : W32)
  | p (l : LaneId) (n : PReg) (v : Bool)
  | m (l : LaneId) (h : MReg) (v : Option Handle)
  deriving DecidableEq, Repr

/-- What a casket word does to one element [13 R220]. -/
inductive CasOp where
  | addF | addI | write | read | readClr
  deriving DecidableEq, Repr

/-- One element update of a casket word: the lane, its element number, the casket address, the value [13 R220]. -/
structure CasItem where
  lane : LaneId
  n    : Nat
  addr : Nat
  v    : W32
  deriving DecidableEq, Repr

/-- How a matrix access lays its elements out [07 R131]. -/
inductive MatForm where
  | row | col | sparse | bcast
  deriving DecidableEq, Repr

/-- How the bytes that a load has read become register values on arrival: a load's extension [06 R114], an atomic's
32-bit or 64-bit old value [14 R232], a uniform load [04 R78], a matrix load [07 R131], a signet's move [19 R305]. -/
inductive Fill where
  | none
  | ld (d : GReg) (sz : AccSz)
  | old (d : GReg) (wide : Bool)
  | kld (d : KReg)
  | mld (h : MReg) (form : MatForm)
  | hld (x : GReg)
  | hst (x : GReg)
  deriving DecidableEq, Repr

/-- Which event delivers a result in flight. -/
inductive FlightKind where
  | memory                                   -- MEMORY_RESULT_ARRIVAL [01 R16]
  | access                                   -- MATRIX_ACCESS_COMPLETION [10 R188]
  | casket (op : CasOp) (h : MReg) (items : List CasItem) -- a casket word, applied as it completes [13 R220]
  | element                                  -- ELEMENT_PATH_COMPLETION [10 R196]
  | cell (mult rerun : Bool) (dur phase : Nat) -- CELL_WORD_PASS_END [10 R192, 08 R145]
  | mexp (done durs : List Nat)              -- MEXP_PASS_END: the durations of the passes begun, latest first, and of those to come [10 R194]
  | macq                                     -- MACQ_ARRIVAL [10 R196]
  | macqFail                                 -- MACQ_TRY_FAIL_ARRIVAL [10 R196]
  | verdict                                  -- SIGNET_VERDICT_ARRIVAL [19 R296]
  deriving DecidableEq, Repr

/-- A failed verdict of one lane: code, reason and trapinfo value [19 R296]. -/
structure Verdict where
  lane : LaneId
  code : Nat
  info : W64
  deriving DecidableEq, Repr

/-- Blocks of a released handle that words still read: they rejoin the pool when the last of those words completes; the
last-issued reader and the register name them [07 R127]. -/
structure Freed where
  reader : Nat
  lane   : LaneId
  reg    : MReg
  blocks : Nat
  deriving DecidableEq, Repr

/-- A contiguous run of bytes by its memory key. -/
structure Run where
  key : Nat
  len : Nat
  deriving DecidableEq, Repr

/-- A word's result in flight: what is pending, and what its arrival does [01 R16]. -/
structure Flight where
  id     : Nat
  kind   : FlightKind
  due    : Nat                    -- the cycle in which it arrives
  pc     : W64                    -- the packet of its word [08 R154]
  pos    : Fin 3                  -- the word's position
  gpos   : Fin 3                  -- the position of its group's first word
  lanes  : W32                    -- executing lanes
  isM    : Bool                   -- an M-pipe word [03 R54]
  marks  : List Dest              -- pending destinations
  writes : List RegWrite          -- values delivered on arrival
  fill   : Fill                   -- how `bufs` become values
  bufs   : List (LaneId × List Byte) -- bytes read so far, per lane
  fp     : List (LaneId × W32)    -- fpstat bits ORed on arrival [03 R53]
  mx     : List (LaneId × Nat)    -- excepting lanes: 0x08 singular, 0x09 not SPD [08 R154]
  reads  : List (LaneId × MReg)   -- handles that the word reads until it completes [07 R127]
  lasts  : List (LaneId × MReg × Handle) -- of an MEXP: handles that it reads, released since its issue [10 R194]
  frees  : List Freed             -- blocks that wait for its completion [07 R127]
  waits  : Nat                    -- remote replies or verdicts still awaited
  fails  : List Verdict           -- failed verdicts so far [19 R296]
  far    : List (LaneId × Run)    -- bytes that lanes read outside the device [13 R206]
  laid   : List (LaneId × Nat × Byte) -- bytes of peers that a clasp binds, as the lane sees them: offset and byte [14 R241]
  acq    : Bool                   -- an acquire, which later accesses of its lanes follow [14 R224]
  deriving DecidableEq, Repr

/-- A flight with nothing pending and nothing to deliver. -/
def Flight.blank : Flight where
  id := 0
  kind := .memory
  due := 0
  pc := 0
  pos := 0
  gpos := 0
  lanes := 0
  isM := false
  marks := []
  writes := []
  fill := .none
  bufs := []
  fp := []
  mx := []
  reads := []
  lasts := []
  frees := []
  waits := 0
  fails := []
  far := []
  laid := []
  acq := false

/-! ### Strands -/

/-- What a strand runs for [17 R271, R287; 19 R302; 13 R210]. -/
inductive StrandKind where
  | task | spawned | finaliser | launchWalk
  deriving DecidableEq, Repr

/-- A group that a pre-emption abandoned in its MEXP: its lanes issue it again [10 R194]. -/
structure Redo where
  pc    : W64
  pos   : Fin 3
  lanes : W32
  deriving DecidableEq, Repr

/-- A strand: 32 lanes, one uniform file, a fragment table and what is in flight [01 R8, 09 R163-R165]. -/
structure Strand where
  id        : Nat                  -- MODEL: names the strand; 0 is the idle focus
  kind      : StrandKind
  task      : Nat                  -- the job it belongs to; 0 for none
  region    : Nat                  -- regionid: the physical address of the RCB [17 R269]
  core      : Fin 256
  quad      : Fin 4
  slot      : Fin 16
  launched  : Nat                  -- the cycle of launch or restore: its age [09 R163]
  strandid  : W32
  taskidx   : W32
  batchn    : W32
  rcbbase   : W64
  leasebase : W64
  det       : Bool                 -- detmode bit 0 [01 R12]
  lanes     : Vector Lane 32
  k         : Vector W32 192
  flags     : Flags
  tagrdy    : W64                  -- ready bits [16 R255]
  tagout    : W64                  -- outstanding flags [16 R255]
  observed  : W64                  -- observed set [16 R259]
  tlret     : Vector W64 4         -- largest returned TLWAIT targets [16 R264]
  traytimer : W32
  frags     : Vector (Option Frag) 4
  deferred  : List Deferred
  flights   : List Flight
  groups    : Nat                  -- groups issued without faulting [22 R344]
  others    : Nat                  -- groups issued by the other strands of its task [22 R345]
  fin       : List Nat             -- banks on which fin is set [22 R346]
  redo      : List Redo            -- groups that lanes of it have to issue again [10 R194]
  deriving DecidableEq, Repr

/-- A strand with no lane: the focus when no strand issues, and the base of a launch [01 R10]. -/
def Strand.idle : Strand where
  id := 0
  kind := .task
  task := 0
  region := 0
  core := 0
  quad := 0
  slot := 0
  launched := 0
  strandid := 0
  taskidx := 0
  batchn := 0
  rcbbase := 0
  leasebase := 0
  det := false
  lanes := Vector.replicate 32 Lane.start
  k := Vector.replicate 192 0
  flags := Flags.start
  tagrdy := 0
  tagout := 0
  observed := 0
  tlret := Vector.replicate 4 0
  traytimer := 0
  frags := Vector.replicate 4 none
  deferred := []
  flights := []
  groups := 0
  others := 0
  fin := []
  redo := []

/-! ### Quadrants and cores -/

/-- A quadrant: its block pool and its matrix paths [09 R179-R180, 10 R188]. -/
structure Quad where
  free     : Nat             -- blocksfree
  reserve  : Nat             -- blocks left in the emergency reserve
  holder   : Option Nat      -- the strand that holds the reserve
  h0       : Nat             -- its holding before the grant
  cellBusy : Option Nat      -- cycle in which the cell phase ends; none when the array accepts a word
  cellWord : Nat             -- MODEL: the flight that holds the array, 0 for none
  rerunAt  : List Nat        -- reruns that wait to take the array, the first of them first [08 R145]
  elemBusy : Option Nat      -- cycle in which the element path's busy interval ends
  accessN  : Nat             -- access-queue words outstanding, at most 16
  issued   : Option Nat      -- MODEL: the last cycle in which the quadrant issued or was passed
  deriving DecidableEq, Repr

/-- A quadrant after reset [09 R179]. -/
def Quad.start : Quad where
  free := 5632
  reserve := 512
  holder := none
  h0 := 0
  cellBusy := none
  cellWord := 0
  rerunAt := []
  elemBusy := none
  accessN := 0
  issued := none

/-- A TLB entry with its hotness count [13 R213, R216]. -/
structure TlbEntry where
  x     : Xlat
  count : Nat
  deriving DecidableEq, Repr

/-- A run of casket banks: its first bank, its length, the job that owns it, and whether a CFREE of it has issued and
waits [13 R217, R218]. -/
structure BankRun where
  first   : Nat
  n       : Nat
  task    : Nat
  closing : Bool
  deriving DecidableEq, Repr

/-- A scratchpad allocation in KiB units [13 R202]. -/
structure ScratchRun where
  base : Nat
  n    : Nat
  task : Nat
  deriving DecidableEq, Repr

/-- A core [01 R12, 13 R213, R217, 22 R349-R351]. -/
structure Core where
  railsel  : Bool               -- requested rail: true is high [06 R111]
  rail     : Bool               -- the rail it runs on
  railDue  : Option Bool        -- a rail change in flight
  caratcap : BitVec 24
  mchk     : BitVec 16          -- mcstat [31:16] [08 R147]
  rerun    : BitVec 16          -- mcstat [15:0]
  window   : List (Nat × Nat)   -- cycle and charge of the groups of the last 256 cycles [22 R351]
  tlb      : List TlbEntry      -- at most 2,048
  banks    : List BankRun
  scratch  : List ScratchRun
  quads    : Vector Quad 4
  deriving DecidableEq, Repr

/-- A core after reset: low rail, caratcap as firmware sets it [24 R376]. -/
def Core.start : Core where
  railsel := false
  rail := false
  railDue := none
  caratcap := Config.firmwareCaratcap
  mchk := 0
  rerun := 0
  window := []
  tlb := []
  banks := []
  scratch := []
  quads := Vector.replicate 4 Quad.start

/-! ### Clasps and engines -/

/-- A write to bound bytes: writer, first key, bytes, and the clasp-order position that published it [14 R239]. -/
structure BoundWrite where
  party : Nat
  key   : Nat
  bytes : List Byte
  pub   : Option Nat
  deriving DecidableEq, Repr

/-- A release in progress: its number and its party [14 R239]. -/
structure Release where
  id    : Nat
  party : Nat
  deriving DecidableEq, Repr

/-- What a binding publishes through: a clasp of software, or the residency clasp of a layer [14 R236, 19 R311]. -/
inductive ClaspName where
  | soft (key : Nat)
  | layer (region layer : Nat)
  deriving DecidableEq, Repr

/-- A bound clasp: its range, its scope, the writes to the range in modification order, and what each party has
acquired [14 R238-R241]. -/
structure Clasp where
  name  : ClaspName
  runs  : List Run
  scope : Scope
  order : Nat                   -- positions taken in the clasp order [14 R240]
  rels  : List Release
  log   : List BoundWrite       -- oldest first
  views : List (Nat × Nat)      -- party and the position it has acquired up to
  deriving DecidableEq, Repr

/-- A fault report [21 R329]. -/
structure Report where
  code    : Nat
  reason  : Nat
  flags   : Nat
  lanes   : W32
  task    : Nat
  object  : W64
  pc      : W64
  info    : W64
  core    : Nat
  quad    : Nat
  strand  : Nat
  taskidx : Nat
  detail  : W64
  rank    : Nat     -- MODEL: the core, quadrant, slot and lane of the fault, as R328 orders faults of one cycle
  deriving DecidableEq, Repr

/-- Where an engine arrival is made: counter key, increment [16 R268]. -/
structure Arrival where
  key : Nat
  inc : Nat
  deriving DecidableEq, Repr

/-- What an engine operation does, with the physical runs its checks resolved at acceptance [16 R250-R266]. -/
inductive EngKind where
  | copy (pairs : List (List Run × List Run))                      -- rows: source and destination [16 R253]
  | gather (len n rows : Nat) (index table packed : List Run)      -- [16 R254]
  | scatter (len n rows : Nat) (index table packed : List Run)
  | drainMem (first count : Nat) (clr : Bool) (dst : List Run)     -- [16 R261]
  | drainAdd (first count : Nat) (clr isInt : Bool) (tbank : Nat) (tcore : Fin 256) (rank : Nat)
  | coll (kind : CollKind) (e ty op : Nat) (src dst : List Run)    -- [16 R265]
  deriving DecidableEq, Repr

/-- An accepted engine operation [16 R250, R263]. -/
structure EngOp where
  id     : Nat
  ctx    : EngCtx
  num    : Nat                -- its number on the region's timeline
  region : Nat
  core   : Fin 256
  sid    : Nat
  task   : Nat
  tag    : Option (Fin 64)
  kind   : EngKind
  arr    : Option Arrival
  lanes  : W32                -- the lanes that issued it
  rep    : Report             -- what a machine check of it reports [16 R250]
  mem0   : List Host.Cell     -- MODEL: memory at its acceptance; a source byte is read then or later [16 R251]
  got    : List Host.Cell     -- bytes that peers have sent, by key
  idx    : Option (List (Option Nat)) -- the indices of a gather or scatter, once they are read [16 R254]
  holes  : List Run           -- bytes whose read failed [21 R335, 23 R362]
  lost   : Bool               -- a contribution of its collective failed: its destination is open [23 R362]
  waits  : Nat                -- transactions outstanding
  wrote  : Bool               -- its writes have gone out
  late   : List (Nat × List Byte) -- its writes into bound ranges, which count once it has completed [14 R239]
  due    : Nat                -- a drain reads its next row, a collective its source, at this cycle or later
  src    : Nat                -- a drain's source: the key of bank 0 in its core's casket, or in its task's saved context
  sent   : List (Nat × List (Option W32)) -- drain rows read and on their way, with their elements
  rows   : List Nat           -- completion bitmap: rows complete [16 R262]
  halted : Bool               -- suspended by a pre-emption that reclaims its banks [16 R262]
  deriving DecidableEq, Repr

/-- One engine context of a region: issue count, completed counter, operations completed beyond it [16 R263]. -/
structure Timeline where
  issued : Nat
  done   : Nat
  beyond : List Nat
  deriving DecidableEq, Repr

/-- A participant's contribution to the j-th collective of a region: rank, kind, e, type, op, chunk bytes [16 R265]. -/
structure CollPeer where
  region : Nat
  num    : Nat
  rank   : Nat
  kind   : CollKind
  e      : Nat
  ty     : Nat
  op     : Nat
  bytes  : List (Option Byte)   -- none where one could not be read [21 R335]
  deriving DecidableEq, Repr

/-! ### Regions, tasks, the scheduler -/

/-- A lease range: base, length, rights [13 R209]. -/
structure LeaseRange where
  base : Nat
  len  : Nat
  r    : Bool
  w    : Bool
  deriving DecidableEq, Repr

/-- A captured page of a task's lease: the number of its range, the task's own first, its translation and its hotness
count [13 R210, R211, R216]. -/
structure Capture where
  range : Nat
  x     : Xlat
  count : Nat
  deriving DecidableEq, Repr

/-- A thread record of a spawn tray [17 R286]. -/
structure TrayRec where
  arg    : W64
  parent : Nat        -- the task that it counts as a child of
  due    : Nat        -- the cycle from which its spawner's traytimer has passed; 0 without a timer [17 R287]
  deriving DecidableEq, Repr

/-- A spawn tray: the entry and, in deterministic mode, the task it is bound to, its records, its timer [17 R286]. -/
structure Tray where
  entry : W64
  task  : Nat
  due   : Nat        -- the cycle in which its timer expires; 0 for none
  recs  : List TrayRec
  full  : Bool       -- a launch is due [17 R287]
  deriving DecidableEq, Repr

/-- A live or ending region with its effective values [17 R269, R270]. -/
structure Region where
  id         : Nat        -- physical address of the RCB
  va         : Nat        -- its address in the space it was linked from
  space      : Nat        -- the region whose tables translate the RCB's own address fields [17 R273]
  parent     : Nat        -- 0 for the root
  live       : Bool       -- false: ending
  depth      : Nat
  slots      : Nat        -- effective budgets
  blocks     : Nat
  banks      : Nat
  scratch    : Nat
  carat      : W32
  prio       : Nat        -- 0-15
  prioNext   : Option Nat -- a priority that holds from the next cycle [17 R279]
  faulting   : Bool
  det        : Bool
  sysEnds    : Bool       -- system faults end the task
  handler    : W64
  faulttask  : W64
  faultspace : Nat        -- the region in whose space faulttask lies
  leases     : List LeaseRange
  parure     : Nat        -- address of the extension, in `space`; 0 for none [19 R308]
  ptbase     : W64
  hotbase    : W64
  traydef    : W32
  useSlots   : Nat
  useBlocks  : Nat
  useBanks   : Nat
  useScratch : Nat
  livetasks  : Nat
  children   : Nat
  reports    : List Report   -- waiting, at most 16 [21 R330]
  lost       : Nat
  seq        : Nat
  tls        : Vector Timeline 4
  trays      : Vector Tray 16
  deriving DecidableEq, Repr

/-- Where a job stands [17 R275-R280, 21 R338]. -/
inductive JobState where
  | waiting                     -- counter not yet zero: state 1
  | released                    -- state 2, waits for placement
  | placed                      -- its core is reserved; the lease walk is under way
  | walkFault                   -- a launch-walk system strand runs [13 R210]
  | running                     -- state 3
  | halting                     -- pre-emption requested [21 R338]
  | saved                       -- its context is saved [21 R339]
  | ending (r : Option Report) (cancel : Bool) -- stopped by a fault or cancelled; the engines finish [21 R328]
  | finished (good : Bool)      -- ended, while its batch goes on; not good: by a fault or a cancel [17 R281]
  deriving DecidableEq, Repr

/-- A release instant as [17 R284] orders it: cycle, core (256 for the scheduler), lane or position. -/
structure RelKey where
  cycle : Nat
  core  : Nat
  lane  : Nat
  deriving DecidableEq, Repr

/-- A task of a launch batch that the scheduler has taken up, or a finaliser [17 R271, R275]. -/
structure Job where
  id      : Nat
  batch   : Nat           -- the job number of the batch's first task
  idx     : Nat
  n       : Nat
  fin     : Bool          -- a finaliser [19 R302]
  recKey  : Nat           -- key of its record; 0 for a finaliser
  recVa   : Nat
  space   : Nat           -- the region in whose space the record's own addresses lie [17 R273]
  region  : Nat
  entry   : W64
  arg     : W64
  lease   : W64
  leases  : List LeaseRange
  succ    : List W64      -- succ0, succ1
  overflow : W64
  strands : Nat
  threads : Nat
  scratch : Nat
  prio    : Nat
  st      : JobState
  rel     : RelKey
  core    : Fin 256
  sbase   : Nat           -- its scratchpad allocation's first KiB
  caps    : List Capture
  walkAt  : Nat × Nat     -- the lease range and the address that its launch walk has reached [13 R210]
  marked  : Bool          -- a lane of it has executed EARLYGO [06 R104]
  decd    : Bool          -- its batch's successors have been handed to the scheduler [17 R281]
  drained : List Nat      -- target runs of its completed CDRAIN.add words, as the descriptor names them [22 R348]
  trig    : Bool          -- early-triggered [17 R281]
  cancelled : Bool        -- its record ends cancelled: state 5 [17 R278]
  struck  : Nat           -- the cycle of the fault that ended it [21 R328]
  over1ms : Bool          -- waited 1 ms: its core is reserved [17 R284]
  takeBk  : Bool          -- its banks and scratchpad were reclaimed by the save [21 R339]
  deriving DecidableEq, Repr

/-- One decrement that the scheduler still has to apply: the record's address, its space, the core it counts as coming
from, and the record, and its region, whose end or trigger makes it [18 R289, 17 R282]. -/
structure DecWork where
  va     : Nat
  space  : Nat
  core   : Nat
  owner  : Nat       -- key of the record that makes it
  from_  : Nat       -- address of that record
  region : Nat
  bad    : Bool      -- stands for a malformed overflow list [17 R282]
  now    : Bool      -- it is applied in this cycle [18 R289]
  near   : Bool      -- MODEL: of those, one whose counter has been decremented in this cycle
  deriving DecidableEq, Repr

/-- A context saved by pre-emption: the job's strands, and what was reclaimed; the reclaimed bytes stand in memory under
the keys of the save area [21 R339]. -/
structure Saved where
  job     : Nat
  strands : List Strand
  scratch : Nat                 -- reclaimed KiB of scratchpad
  banks   : List BankRun        -- reclaimed runs
  deriving DecidableEq, Repr

/-! ### Signets and parures -/

/-- A descriptor of the signet table [19 R293]. -/
structure Desc where
  index    : Nat
  st       : Nat          -- 0 free, 1 live tensor, 2 live indirection cell
  gen      : W64
  total    : Nat
  returned : Nat
  record   : W64
  innerLo  : W64
  innerChk : W64
  finEntry : W64
  finArg   : W64
  owner    : Nat
  clasp    : W64
  deriving DecidableEq, Repr

/-- What a signet word asks of the home [19 R296]. -/
inductive SigAsk where
  | new
  | deref (shard : Nat)
  | fin (entry arg : W64)
  | drop
  deriving DecidableEq, Repr

/-- A request to a home: the lane that waits for it (none for a cell's own drop), the signet, the hops followed
[19 R296, R299]. -/
structure SigReq where
  id    : Nat
  sid   : Nat
  fid   : Nat
  lane  : LaneId
  reg   : GReg          -- the quad or pair that the answer writes
  ask   : SigAsk
  first : W64           -- bits [63:0] of the lane's own signet, or the record's address
  lo    : W64
  chk   : W64
  hops  : Nat
  owner : Nat           -- region charged with a cell's failed drop; 0 for a lane's request
  remote : Bool         -- it waits for a peer's reply [23 R361]
  read  : List Run      -- what has been asked of peers for the creation record that it reads [19 R297, R303]
  got   : List Host.Cell -- the bytes that they have sent, by key
  waits : Nat           -- such reads outstanding
  deriving DecidableEq, Repr

/-- A request of the swap engine's queue [19 R313]. -/
structure SwapReq where
  region : Nat
  layer  : Nat
  demand : Bool
  order  : Nat            -- the cycle of the request
  deriving DecidableEq, Repr

/-- A layer fetch in flight [19 R312]. -/
structure Fetch where
  region : Nat
  layer  : Nat
  num    : Nat
  src    : List Run
  dst    : List Run
  got    : List Host.Cell    -- bytes that peers have sent, by key
  waits  : Nat               -- transactions outstanding
  deriving DecidableEq, Repr

/-! ### Links, ports, bring-up, power -/

/-- An Eweoth link [23 R358, R359]. -/
structure Link where
  up     : Bool
  txSeq  : BitVec 24        -- sequence of the next data flit to send
  rxSeq  : BitVec 24        -- sequence expected next
  rxAck  : BitVec 24        -- highest sequence received in order; the one before the first, at the start
  replay : List Flit        -- sent and not acknowledged, oldest first, at most 256
  fails  : Nat              -- replays of the oldest flit that have failed
  outbox : List Flit        -- flits put on the wire, newest last
  inbox  : List (List Byte) -- payloads taken in order
  deriving DecidableEq, Repr

/-- A link after bring-up [24 R376]. -/
def Link.start : Link where
  up := true
  txSeq := 0
  rxSeq := 0
  rxAck := 0xFFFFFF
  replay := []
  fails := 0
  outbox := []
  inbox := []

/-- A share of a reply: bytes from an offset of it go into a lane's buffer, from another offset. -/
structure Take where
  lane  : LaneId
  off   : Nat
  from_ : Nat
  len   : Nat
  deriving DecidableEq, Repr

/-- Who waits for a transaction, so that its response or its failure reaches it [23 R362]. -/
inductive TxOwner where
  | read (task sid fid : Nat) (takes : List Take) (rep : Report) -- the task of the lane, of a read for several of the
                                                        -- lowest; the report of its failure
  | store (task sid lane fid : Nat) (rep : Report) -- a lane's write or arrival, 32 for a uniform one; the word in flight
                                                   -- that it holds, 0 for none; the report of its failure
  | clasp (key rel task sid lane : Nat) (rep : Report) -- a release's addition to a peer's clasp, as a store
  | mask (sid : Nat) (slot : Fin 4) (id key : Nat) (lane : LaneId) -- a sparse load's mask, for the fragment that waits
  | code (sid : Nat) (slot : Fin 4) (key : Nat) -- a packet, for the fragment that is to issue from it
  | record (req : Nat)   -- a record, for a signet's request [19 R297, R303]
  | hot                  -- a hotness count, which nobody waits for [13 R216]
  | counter (sid : Nat) (slot : Fin 4) (key target : Nat) (lane : LaneId) -- an AWT's counter
  | engine (op row : Nat)
  | signet (req : Nat)
  | swap (region layer num : Nat)
  deriving DecidableEq, Repr

/-- A transaction without its response yet [23 R360]. -/
structure OutTx where
  tx    : Transaction
  owner : TxOwner
  tries : Nat
  deriving DecidableEq, Repr

/-- A transaction that waits for an earlier one to bytes that it shares, so that they are applied in order [23 R365]. -/
structure HeldTx where
  rank  : Nat
  op    : TxOp
  owner : TxOwner
  deriving DecidableEq, Repr

/-- What a destination keeps of one source [23 R360]. -/
structure InTx where
  rank : Nat
  high : BitVec 48                       -- the sequence that follows those applied in order
  resp : List (BitVec 48 × TxReply)      -- responses of the last 1,024, newest first
  deriving DecidableEq, Repr

/-- What the device has sent to a host port: a message, the bytes of a read, a Completer Abort [23 R368, R374]. -/
inductive HostOut where
  | msix (port : Fin 2) (vec : Nat)
  | data (port : Fin 2) (bs : List Byte)
  | abort (port : Fin 2)
  deriving DecidableEq, Repr

/-- The host side [23 R366-R374]. -/
structure HostSide where
  portUp   : Vector Bool 2
  sems     : Vector (Fin 4) 16        -- 0 free, 1 port A, 2 port B, 3 firmware
  semLast  : Vector (Option (Fin 2)) 16 -- the port that held it last
  semTime  : Vector Nat 16            -- cycle of the last request, for same-cycle requests
  rstPort  : Option (Fin 2)           -- the resetting port
  rstBusy  : Bool                     -- RSTSTAT[0]
  rstDue   : Nat                      -- MODEL: the cycle in which the sequence of a device reset ends
  rstIgn   : BitVec 8                 -- RSTSTAT[15:8]
  notify   : Vector (BitVec 128) 256
  unmasked : List (Nat × Nat)         -- MSI-X vectors unmasked: port and vector
  pba      : List (Nat × Nat)
  msixTab  : List (Nat × Nat × Byte)  -- bytes of the MSI-X table written by a port, by port and offset
  out      : List HostOut             -- newest last
  deriving DecidableEq, Repr

/-- An image of the boot flash: its SVN, body, signature and public key [24 R377]. -/
structure Image where
  svn       : W32
  body      : List Byte
  sig       : List Byte
  key       : List Byte
  deriving DecidableEq, Repr

/-- Bring-up, measurement, attestation [24 R376-R381]. -/
structure Boot where
  step    : Nat                    -- BOOTSTAT[3:0]
  failure : Nat                    -- BOOTSTAT[7:4]
  stopped : Bool                   -- a verification failed: only a power cycle restarts
  svns    : Vector W32 4           -- fused minimum SVNs: Smiurnen, device firmware, manifest, system handler
  fwsvn   : W32
  images  : Vector Image 4
  meas    : Vector (BitVec 512) 6
  attSt   : Fin 4                  -- 0 idle, 1 busy, 2 ready, 3 failed
  attPort : Fin 2
  attIgn  : BitVec 8
  attTime : Option Nat             -- cycle of the last accepted request
  nonce   : BitVec 256
  attNon  : BitVec 256             -- the nonce of the request in progress
  report  : List Byte
  ecccorr : W64
  eccunc  : W64
  deriving DecidableEq, Repr

/-- Power control [22 R353-R355, 24 R381-R382]. Grants are in 0.25 W. -/
structure Power where
  temp    : Vector (BitVec 16) 4
  power   : Vector (BitVec 16) 4
  grant   : Vector (BitVec 16) 4
  bubbles : Vector Nat 4          -- b of each die, 0-56
  floor   : Vector Bool 4
  limited : Vector Bool 4         -- 105 C reached [24 R382]
  off     : Bool                  -- core power removed [24 R382]
  events  : List (Fin 4)          -- dies of the shutdowns that Smiurnen has recorded, newest last [24 R382]
  deriving DecidableEq, Repr

/-! ### The device -/

/-- The device: everything the spec gives the machine. -/
structure Dev where
  focus   : Strand                -- MODEL: the strand now issuing, held out of `strands`
  strands : List Strand
  mem     : List Host.Cell        -- every memory space, keyed as Machine/Ops.lean says
  eccOne  : List Nat              -- 64-bit words with a single-bit error, by key / 8 [21 R334]
  eccBad  : List Nat              -- 64-bit words with an uncorrectable error [21 R335]
  cores   : Vector Core 256
  clasps  : List Clasp
  ops     : List EngOp
  peers   : List CollPeer
  regions : List Region
  jobs    : List Job
  decs    : List DecWork
  links   : List (Nat × Nat × Nat) -- regions waiting to be linked: RCB key, address, space of the linker
  intake  : Option Nat            -- the intake waits for this RCB's link [17 R288]
  stall   : Bool                  -- the intake slot did not translate [17 R288]
  saved   : List Saved
  descs   : List Desc             -- descriptors that have been used, by index
  sigs    : List SigReq
  swapq   : List SwapReq
  fetches : List Fetch
  evicts  : List (Nat × Nat)      -- layers EVICTING: region and layer
  swapFail : List (Nat × Nat × Nat) -- causes of the faults that layers hold: region, layer, cause [19 R315]
  eweoth  : Vector Link 32
  outTx   : List OutTx
  heldTx  : List HeldTx
  outSeq  : List (Nat × BitVec 48) -- the next sequence, per destination
  inTx    : List InTx
  cxlUp   : Vector Bool 8
  host    : HostSide
  boot    : Boot
  power   : Power
  upsets  : List W32              -- MODEL: physical upsets, the lanes that the next multiply passes mismatch [08 R145]
  sysEntry : W64                  -- the system handler's entry; 0 for none [21 R325]
  rootRcb : Nat                   -- ROOTRCB [23 R367]
  cycle   : Nat                   -- cycle count, bubbles not counted
  seq     : Nat                   -- MODEL: the last number given to a strand, flight, operation, job or entry
  fresh   : Nat                   -- MODEL: counter of free values drawn
  agenda  : List (Nat × Instr)    -- MODEL: events with the cycle in which they are due; outside inputs stand here too
  deriving DecidableEq, Repr

/-- The issue group in progress (MODEL: an issue group is one step of the hardware, a word is one step here). -/
structure Issue where
  active : Bool
  slot   : Fin 4                    -- the issuing fragment
  pos    : Fin 3                    -- the word that runs now
  gpos   : Fin 3                    -- the group's first word
  words  : List W32                 -- the group's words as fetched
  lit    : Option W32               -- LIT's share of the value for the next word [02 R32]
  scp    : Option (Scope × MOrder)  -- SCP for the next word [02 R31]
  xfer   : Option Xfer
  wait   : Option Wait              -- a wait word of the group parks the fragment after the group
  block  : Option Wait              -- a resource is short: the group does not issue [02 R28]
  fflags : Vector W32 32            -- fpstat bits that the group's F-pipe word raised [03 R54]
  real   : Option Regs              -- the registers as a group that went on later found them; `start` holds what it reads
  charge : Nat                      -- the group's carat charge [22 R350]
  deriving DecidableEq, Repr

/-- No group in progress. -/
def Issue.none : Issue where
  active := false
  slot := 0
  pos := 0
  gpos := 0
  words := []
  lit := Option.none
  scp := Option.none
  xfer := Option.none
  wait := Option.none
  block := Option.none
  fflags := Vector.replicate 32 0
  real := Option.none
  charge := 0

/-- The machine: the device, the device as it stood when the open issue group began (what the group's words read
their registers from, and what a fault of the group leaves [01 R14, 02 R28]), and the open group. -/
structure State where
  now   : Dev
  start : Dev
  iss   : Issue
  deriving DecidableEq, Repr

/-- Why the machine stops. -/
inductive Fault where
  /-- Raised by `step`: core power has been removed at 115 C, and no power-on is due [24 R382]. Safe: the hardware
  executes nothing. -/
  | powerOff
  /-- Raised by `step`: a verification of bring-up failed, and only a power cycle restarts the sequence [24 R376].
  Safe: no program runs. -/
  | bootStopped
  deriving DecidableEq, Repr

/-- Why an instruction has no meaning. -/
inductive Refusal where
  /-- Raised by an arm of `exec` whose instruction has no meaning yet. Safe: the step stops. -/
  | notModelled (mnemonic : String)
  deriving DecidableEq, Repr

/-! ### Reset -/

/-- A timeline at a region's creation [16 R263]. -/
def Timeline.start : Timeline := { issued := 0, done := 0, beyond := [] }

/-- An empty tray [17 R287]. -/
def Tray.start : Tray := { entry := 0, task := 0, due := 0, recs := [], full := false }

/-- The root region as step 7 of bring-up makes it: the whole device's budgets, priority 0, leased mode, deterministic
mode off, system faults to the system handler, handler and faulttask 0 [24 R376]. -/
def Region.root : Region where
  id := Config.rootRcb
  va := Config.rootRcb
  space := Config.rootRcb
  parent := 0
  live := true
  depth := 1
  slots := 16384
  blocks := 6291456
  banks := 16384
  scratch := 262144
  carat := 0
  prio := 0
  prioNext := Option.none
  faulting := false
  det := false
  sysEnds := false
  handler := 0
  faulttask := 0
  faultspace := Config.rootRcb
  leases := []
  parure := 0
  ptbase := BitVec.ofNat 64 Config.rootPtbase
  hotbase := 0
  traydef := 0
  useSlots := 0
  useBlocks := 0
  useBanks := 0
  useScratch := 0
  livetasks := 0
  children := 0
  reports := []
  lost := 0
  seq := 0
  tls := Vector.replicate 4 Timeline.start
  trays := Vector.replicate 16 Tray.start

/-- The idle strand of reset, in the root region. -/
def Strand.reset : Strand :=
  { Strand.idle with region := Config.rootRcb, rcbbase := BitVec.ofNat 64 Config.rootRcb }

/-- The host side after a power-on reset: every semaphore free, nothing pending [23 R370, R371]. -/
def HostSide.start : HostSide where
  portUp := Vector.replicate 2 true
  sems := Vector.replicate 16 0
  semLast := Vector.replicate 16 Option.none
  semTime := Vector.replicate 16 0
  rstPort := Option.none
  rstBusy := false
  rstDue := 0
  rstIgn := 0
  notify := Vector.replicate 256 0
  unmasked := []
  pba := []
  msixTab := []
  out := []

/-- An image as the model's flash holds it at first: no body, a signature and a key of their lengths [24 R377]. -/
def Image.blank : Image := { svn := 0, body := [], sig := List.replicate 29792 0, key := List.replicate 64 0 }

/-- The measurement registers after bring-up with such images and no system handler: every stage but the handler's has
extended its register [24 R378]. -/
def Boot.measStart : Vector (BitVec 512) 6 :=
  let image := imageBytes 0 []
  Vector.ofFn fun i =>
    if i = 3 then 0
    else if i = 4 then extend 0 Config.routingTables
    else if i = 5 then extend 0 (ownBytes Config.rootRcbCells Config.rootRcb 256)
    else extend 0 image

/-- Bring-up as it begins, with the fused minimum SVNs and the flash [24 R376, R378]. -/
def Boot.begin (svns : Vector W32 4) (images : Vector Image 4) : Boot where
  step := 0
  failure := 0
  stopped := false
  svns := svns
  fwsvn := 0
  images := images
  meas := Vector.replicate 6 0
  attSt := 0
  attPort := 0
  attIgn := 0
  attTime := Option.none
  nonce := 0
  attNon := 0
  report := []
  ecccorr := 0
  eccunc := 0

/-- Bring-up as it stands when step 8 has ended [24 R376]. -/
def Boot.start : Boot := { Boot.begin (Vector.replicate 4 0) (Vector.replicate 4 Image.blank) with step := 8, meas := Boot.measStart }

/-- Power control before the first grant: no bubbles, and no die at its floor. DESIGN CHOICE (log 6), unsafe: the spec gives
neither before a die's first grant, and R2 would leave a die without one at its floor [00 R2; 22 R353, R355]. -/
def Power.start : Power where
  temp := Vector.replicate 4 0
  power := Vector.replicate 4 0
  grant := Vector.replicate 4 0
  bubbles := Vector.replicate 4 0
  floor := Vector.replicate 4 false
  limited := Vector.replicate 4 false
  off := false
  events := []

/-- The device after reset: bring-up has run, no task has been started [24 R376]. -/
def Dev.reset : Dev where
  focus := Strand.reset
  strands := []
  mem := Config.rootRcbCells
  eccOne := []
  eccBad := []
  cores := Vector.replicate 256 Core.start
  clasps := []
  ops := []
  peers := []
  regions := [Region.root]
  jobs := []
  decs := []
  links := []
  intake := Option.none
  stall := false
  saved := []
  descs := []
  sigs := []
  swapq := []
  fetches := []
  evicts := []
  swapFail := []
  eweoth := Vector.replicate 32 Link.start
  outTx := []
  heldTx := []
  outSeq := []
  inTx := []
  cxlUp := Vector.replicate 8 true
  host := HostSide.start
  boot := Boot.start
  power := Power.start
  upsets := []
  sysEntry := Config.systemHandler
  rootRcb := Config.rootRcb
  cycle := 0
  seq := 0
  fresh := 0
  agenda := []

/-- The machine right after reset. -/
def State.reset : State := { now := Dev.reset, start := Dev.reset, iss := Issue.none }

end Sys2Proof.Machine
end

