-- ==== Sys2Proof/Machine/Num.lean ====
section
/-! DEFINITION. Number formats, exact arithmetic, rounding, flags, conversions and the window sum [03 R40-R58]. A finite
value is held exactly, as a sign, a natural mantissa and a power of two. -/

namespace Sys2Proof.Machine

/-- A floating-point format: exponent bits, mantissa bits, bias, whether it has infinities, whether it has a NaN, and
its largest finite pattern [03 R40]. -/
structure Fmt where
  ebits : Nat
  mbits : Nat
  bias  : Nat
  inf   : Bool
  nan   : Bool
  top   : Nat
  deriving DecidableEq, Repr

def Fmt.f32 : Fmt := { ebits := 8, mbits := 23, bias := 127, inf := true, nan := true, top := 0x7F7FFFFF }
def Fmt.bf16 : Fmt := { ebits := 8, mbits := 7, bias := 127, inf := true, nan := true, top := 0x7F7F }
def Fmt.f16 : Fmt := { ebits := 5, mbits := 10, bias := 15, inf := true, nan := true, top := 0x7BFF }
def Fmt.e5m2 : Fmt := { ebits := 5, mbits := 2, bias := 15, inf := true, nan := true, top := 0x7B }
def Fmt.e4m3 : Fmt := { ebits := 4, mbits := 3, bias := 7, inf := false, nan := true, top := 0x7E }
def Fmt.e2m1 : Fmt := { ebits := 2, mbits := 1, bias := 1, inf := false, nan := false, top := 0x7 }

def Fmt.width (f : Fmt) : Nat := 1 + f.ebits + f.mbits

/-- The canonical NaN; +0 in E2M1, which has none [03 R41, R42]. -/
def Fmt.qnan (f : Fmt) : Nat :=
  if f.inf then (2 ^ f.ebits - 1) * 2 ^ f.mbits + 2 ^ (f.mbits - 1) else if f.nan then 0x7F else 0

/-- The sign bit's weight. -/
def Fmt.signBit (f : Fmt) : Nat := 2 ^ (f.ebits + f.mbits)

/-- The pattern of a signed infinity; the largest finite value where the format has no infinity. -/
def Fmt.infPat (f : Fmt) (neg : Bool) : Nat :=
  (if f.inf then (2 ^ f.ebits - 1) * 2 ^ f.mbits else f.top) + (if neg then f.signBit else 0)

/-- What a pattern stands for [03 R41, R42]. A finite value is (-1)^neg m 2^e. -/
inductive Val where
  | nan (signalling : Bool)
  | inf (neg : Bool)
  | fin (neg : Bool) (m : Nat) (e : Int)
  deriving DecidableEq, Repr

/-- The value of a pattern [03 R41]. -/
def Fmt.val (f : Fmt) (p : Nat) : Val :=
  let neg := decide (p / f.signBit % 2 = 1)
  let e := p / 2 ^ f.mbits % 2 ^ f.ebits
  let m := p % 2 ^ f.mbits
  if f.inf ∧ e = 2 ^ f.ebits - 1 then
    if m = 0 then .inf neg else .nan (decide (m < 2 ^ (f.mbits - 1)))
  else if f.nan ∧ ¬ f.inf ∧ p % f.signBit = 0x7F then .nan false
  else if e = 0 then .fin neg m (1 - (f.bias : Int) - f.mbits)
  else .fin neg (m + 2 ^ f.mbits) ((e : Int) - f.bias - f.mbits)

def Val.isNan : Val → Bool
  | .nan _ => true
  | _ => false
def Val.isSnan : Val → Bool
  | .nan s => s
  | _ => false
def Val.isZero : Val → Bool
  | .fin _ m _ => m == 0
  | _ => false
def Val.neg : Val → Bool
  | .nan _ => false
  | .inf n => n
  | .fin n _ _ => n

/-! ### Flags [03 R51, R52] -/

def flagNV : W32 := 16
def flagDZ : W32 := 8
def flagOF : W32 := 4
def flagUF : W32 := 2
def flagNX : W32 := 1

/-- A flag when a condition holds. -/
def flagIf (c : Bool) (f : W32) : W32 := if c then f else 0

/-! ### Rounding [03 R46-R48] -/

/-- Whether a mode rounds the magnitude up, given the kept integer's lowest bit, the remainder and the divisor. -/
def roundsUp (r : Rnd) (neg : Bool) (kept rem div : Nat) : Bool :=
  match r with
  | .rn => decide (2 * rem > div) || (decide (2 * rem = div) && decide (kept % 2 = 1))
  | .rz => false
  | .ru => !neg && decide (rem ≠ 0)
  | .rd => neg && decide (rem ≠ 0)

/-- m 2^e as a multiple of 2^q, rounded, and whether it was exact. -/
def roundAt (r : Rnd) (neg : Bool) (m : Nat) (e q : Int) : Nat × Bool :=
  if q ≤ e then (m * 2 ^ (e - q).toNat, true)
  else
    let div := 2 ^ (q - e).toNat
    let n := m / div
    let rem := m % div
    (if roundsUp r neg n rem div then n + 1 else n, rem == 0)

/-- A value is tiny: rounded to the mantissa width with the exponent unbounded, it is below the smallest normal
[03 R52]. -/
def Fmt.isTiny (f : Fmt) (r : Rnd) (neg : Bool) (m : Nat) (e : Int) : Bool :=
  let lead := e + (Nat.log2 m : Int)
  let emin : Int := 1 - (f.bias : Int)
  decide (lead < emin - 1) ||
    (decide (lead = emin - 1) && decide ((roundAt r neg m e (lead - f.mbits)).1 < 2 ^ (f.mbits + 1)))

/-- A finite non-zero value (-1)^neg m 2^e rounded into a format: the pattern and the flags OF, UF, NX
[03 R48, R52]. -/
def Fmt.round (f : Fmt) (r : Rnd) (neg : Bool) (m : Nat) (e : Int) : Nat × W32 :=
  let lead := e + (Nat.log2 m : Int)
  let emin : Int := 1 - (f.bias : Int)
  let (n, exact) := roundAt r neg m e (max (lead - f.mbits) (emin - f.mbits))
  let q := max (lead - f.mbits) (emin - f.mbits)
  let pat := if n < 2 ^ f.mbits then n else (q + f.mbits - emin).toNat * 2 ^ f.mbits + n
  let sign := if neg then f.signBit else 0
  if pat > f.top then
    let toInf := match r with
      | .rn => true
      | .rz => false
      | .ru => !neg
      | .rd => neg
    (if toInf then f.infPat neg else f.top + sign, flagOF ||| flagNX)
  else
    (pat + sign, flagIf (f.isTiny r neg m e && !exact) flagUF ||| flagIf (!exact) flagNX)

/-- A zero of a sign. -/
def Fmt.zero (f : Fmt) (neg : Bool) : Nat := if neg then f.signBit else 0

/-- The pattern and flags of any finite value: zeros keep their sign. -/
def Fmt.ofFin (f : Fmt) (r : Rnd) (neg : Bool) (m : Nat) (e : Int) : Nat × W32 :=
  if m = 0 then (f.zero neg, 0) else f.round r neg m e

/-- A value of a signed integer mantissa; zero gives +0, or -0 under rd [03 R47]. -/
def Fmt.ofInt (f : Fmt) (r : Rnd) (n : Int) (e : Int) : Nat × W32 :=
  if n = 0 then (f.zero (r == .rd), 0) else f.round r (decide (n < 0)) n.natAbs e

/-! ### Exact sums and products -/

/-- The signed mantissa of a finite value, scaled to an exponent at or below its own. -/
def scaled (neg : Bool) (m : Nat) (e base : Int) : Int :=
  let n : Int := (m * 2 ^ (e - base).toNat : Nat)
  if neg then -n else n

/-- The result of FP32 addition of two values, rounded once [05 R81, 03 R47, R52]. -/
def addVals (f : Fmt) (a b : Val) : Nat × W32 :=
  let nv := flagIf (a.isSnan || b.isSnan) flagNV
  match a, b with
  | .nan _, _ => (f.qnan, nv)
  | _, .nan _ => (f.qnan, nv)
  | .inf x, .inf y => if x = y then (f.infPat x, nv) else (f.qnan, flagNV)
  | .inf x, .fin _ _ _ => (f.infPat x, nv)
  | .fin _ _ _, .inf y => (f.infPat y, nv)
  | .fin n1 m1 e1, .fin n2 m2 e2 =>
    if m1 = 0 ∧ m2 = 0 then (f.zero (n1 && n2), 0)
    else
      let base := min e1 e2
      f.ofInt .rn (scaled n1 m1 e1 base + scaled n2 m2 e2 base) base

/-- The exact product of two values; infinity times zero is a NaN [03 R52, R56]. -/
def mulVals (a b : Val) : Val :=
  match a, b with
  | .nan _, _ => .nan false
  | _, .nan _ => .nan false
  | .inf x, .inf y => .inf (x != y)
  | .inf x, .fin y m _ => if m = 0 then .nan true else .inf (x != y)
  | .fin x m _, .inf y => if m = 0 then .nan true else .inf (x != y)
  | .fin x m e, .fin y n k => .fin (x != y) (m * n) (e + k)

/-- NV of a product: infinity times zero, or a signalling NaN operand [03 R57]. -/
def mulNv (a b : Val) : Bool := a.isSnan || b.isSnan || (!a.isNan && !b.isNan && (mulVals a b).isNan)

def negVal : Val → Val
  | .nan s => .nan s
  | .inf n => .inf (!n)
  | .fin n m e => .fin (!n) m e

/-- A value delivered into a format [03 R42, R48, R49]: NaNs become canonical, and a NaN into E2M1 sets NV. -/
def Fmt.deliver (f : Fmt) (r : Rnd) : Val → Nat × W32
  | .nan s => (f.qnan, flagIf (s || !f.nan) flagNV)
  | .inf n => (f.infPat n, flagIf (!f.inf) flagNV)
  | .fin n m e => f.ofFin r n m e

/-- FP32 addition, subtraction, multiplication and fused multiply-add of patterns [05 R81]. -/
def f32 (x : W32) : Val := Fmt.f32.val x.toNat

def pat32 (r : Nat × W32) : W32 × W32 := (BitVec.ofNat 32 r.1, r.2)

def fadd (a b : W32) : W32 × W32 := pat32 (addVals Fmt.f32 (f32 a) (f32 b))
def fsub (a b : W32) : W32 × W32 := pat32 (addVals Fmt.f32 (f32 a) (negVal (f32 b)))

/-- The product rounded once. -/
def fmul (a b : W32) : W32 × W32 :=
  let v := mulVals (f32 a) (f32 b)
  let nv := flagIf (mulNv (f32 a) (f32 b)) flagNV
  match v with
  | .nan _ => (BitVec.ofNat 32 Fmt.f32.qnan, nv)
  | v => pat32 (Fmt.f32.deliver .rn v)

/-- The exact product plus the addend, rounded once [05 R81]. -/
def ffma (a b c : W32) : W32 × W32 :=
  let v := mulVals (f32 a) (f32 b)
  let nv := flagIf (mulNv (f32 a) (f32 b) || (f32 c).isSnan) flagNV
  let v : Val := if v.isNan then .nan false else v
  let r := addVals Fmt.f32 v (f32 c)
  pat32 (r.1, r.2 ||| nv)

/-- The order of two values that are not NaN, exactly; -0 equals +0 [05 R84]. -/
def valLt (a b : Val) : Bool :=
  match a, b with
  | .inf x, .inf y => x && !y
  | .inf x, _ => x
  | _, .inf y => !y
  | .fin n1 m1 e1, .fin n2 m2 e2 =>
    let base := min e1 e2
    decide (scaled n1 m1 e1 base < scaled n2 m2 e2 base)
  | _, _ => false

def valEq (a b : Val) : Bool := !a.isNan && !b.isNan && !valLt a b && !valLt b a

/-- FMIN and FMAX [05 R82]: a NaN beside a number gives the number; -0 counts as smaller than +0. -/
def fminmax (isMax : Bool) (a b : W32) : W32 × W32 :=
  let x := f32 a
  let y := f32 b
  let nv := flagIf (x.isSnan || y.isSnan) flagNV
  if x.isNan ∧ y.isNan then (BitVec.ofNat 32 Fmt.f32.qnan, nv)
  else if x.isNan then (b, nv)
  else if y.isNan then (a, nv)
  else
    let aLess := valLt x y || (valEq x y && x.neg && !y.neg)
    (if aLess then (if isMax then b else a)
     else if valLt y x || (valEq x y && y.neg && !x.neg) then (if isMax then a else b)
     else a, nv)

/-! ### Conversions [03 R49, R50] -/

/-- An exact value rounded to an integer, and whether it was exact. -/
def roundInt (r : Rnd) (neg : Bool) (m : Nat) (e : Int) : Int × Bool :=
  let (n, exact) := roundAt r neg m e 0
  (if neg then -(n : Int) else n, exact)

/-- A value converted to an integer range: saturating with NV, otherwise NX when rounding changed it [03 R50]. -/
def toIntRange (lo hi : Int) (r : Rnd) : Val → Int × W32
  | .nan _ => (0, flagNV)
  | .inf n => (if n then lo else hi, flagNV)
  | .fin n m e =>
    let (v, exact) := roundInt r n m e
    if v < lo then (lo, flagNV) else if v > hi then (hi, flagNV) else (v, flagIf (!exact) flagNX)

/-- The value of an integer. -/
def intVal (n : Int) : Val := .fin (decide (n < 0)) n.natAbs 0

/-- What an element type of FCVT or of a matrix is: a float format, or an integer range of a width. -/
inductive ElTy where
  | flt (f : Fmt)
  | int (signed : Bool) (w : Nat)
  deriving DecidableEq, Repr

def ElTy.width : ElTy → Nat
  | .flt f => f.width
  | .int _ w => w

/-- The value of a pattern read in a type. -/
def ElTy.val (t : ElTy) (p : Nat) : Val :=
  match t with
  | .flt f => f.val p
  | .int s w => intVal (if s ∧ p % 2 ^ w ≥ 2 ^ (w - 1) then (p % 2 ^ w : Int) - 2 ^ w else (p % 2 ^ w : Nat))

/-- A value converted into a type under a mode: pattern and flags [03 R48-R50, 07 R138]. -/
def ElTy.convert (t : ElTy) (r : Rnd) (v : Val) : Nat × W32 :=
  match t with
  | .flt f => f.deliver r v
  | .int s w =>
    let (n, fl) := toIntRange (if s then -(2 ^ (w - 1)) else 0) (if s then 2 ^ (w - 1) - 1 else 2 ^ w - 1) r v
    ((n % 2 ^ w).toNat, fl)

/-- An element converted between types. The same type keeps the pattern, but for a NaN, which becomes canonical, with NV
if it was signalling [07 R138]. -/
def convertEl (src dst : ElTy) (r : Rnd) (p : Nat) : Nat × W32 :=
  if src = dst then
    match src with
    | .flt f => if (f.val p).isNan then (f.qnan, flagIf (f.val p).isSnan flagNV) else (p, 0)
    | .int _ _ => (p, 0)
  else dst.convert r (src.val p)

/-! ### The window sum [03 R56, R57] -/

/-- The leading exponent of a non-zero finite value. -/
def leadOf (m : Nat) (e : Int) : Int := e + (Nat.log2 m : Int)

/-- The largest leading exponent among the non-zero terms. -/
def emaxOf : List Val → Option Int
  | [] => none
  | v :: vs =>
    match v, emaxOf vs with
    | .fin _ m e, none => if m = 0 then none else some (leadOf m e)
    | .fin _ m e, some x => if m = 0 then some x else some (max x (leadOf m e))
    | _, x => x

/-- A term truncated toward zero to a multiple of 2^q, and whether that was exact. -/
def truncTerm (q : Int) : Val → Int × Bool
  | .fin n m e =>
    let (k, exact) := roundAt .rz n m e q
    (if n then -(k : Int) else k, exact)
  | _ => (0, true)

/-- The sum of a group's terms rounded into a format, and the flags it raises beside those of its operands
[03 R56, R57; 08 R161]. -/
def windowSumIn (f : Fmt) (terms : List Val) : Nat × W32 :=
  let pinf := terms.any fun v => v == .inf false
  let ninf := terms.any fun v => v == .inf true
  if terms.any Val.isNan then (f.qnan, flagIf (pinf && ninf) flagNV)
  else if pinf && ninf then (f.qnan, flagNV)
  else if pinf then (f.infPat false, 0)
  else if ninf then (f.infPat true, 0)
  else
    match emaxOf terms with
    | none => (f.zero (terms.all Val.neg), 0)
    | some emax =>
      let parts := terms.map (truncTerm (emax - 27))
      let s := (parts.map Prod.fst).sum
      let cut := parts.any fun x => !x.2
      let (p, fl) := f.ofInt .rn s (emax - 27)
      let fl := fl ||| flagIf cut flagNX
      let tiny := decide (s ≠ 0) && f.isTiny .rn (decide (s < 0)) s.natAbs (emax - 27)
      (p, fl ||| flagIf (tiny && (fl &&& flagNX) != 0) flagUF)

/-- The sum of a group's terms as FP32. -/
def windowSum (terms : List Val) : W32 × W32 := pat32 (windowSumIn Fmt.f32 terms)

/-- A product of two elements as a term, with its NV [03 R56, R57]. -/
def term (a b : Val) : Val × Bool :=
  let v := mulVals a b
  (if v.isNan then .nan false else v, mulNv a b)

/-- A window sum over products and an addend: result and all flags. -/
def windowDot (prods : List (Val × Val)) (addend : Val) : W32 × W32 :=
  let ts := prods.map fun x => term x.1 x.2
  let (p, fl) := windowSum (addend :: ts.map Prod.fst)
  (p, fl ||| flagIf (addend.isSnan || ts.any Prod.snd) flagNV)

/-- The exact scale 2^(e-127) of an E8M0 byte; a NaN for 0xFF [03 R43]. -/
def e8m0 (e : Nat) : Val := if e = 0xFF then .nan false else .fin false 1 ((e : Int) - 127)

/-! ### Approximated functions [05 R85-R87]

A result is any FP32 value within the bound of the exact one: the free value where it meets the bound, the rounded
result where it does not (log 10). The exact result is computed to about 2^-64 of itself. -/

/-- Fixed-point numbers with 100 fraction bits. -/
def q100 : Nat := 2 ^ 100

/-- ln 2 and pi / 2 with 100 fraction bits. -/
def ln2Q : Int := 878668439483319573618263538048
def halfPiQ : Int := 1991220906497848681844175556976

def mulQ (a b : Int) : Int := a * b / q100

/-- The integer square root, by bits from the highest; `n` bits are left. -/
def isqrtFrom (x : Nat) : Nat → Nat → Nat
  | 0, acc => acc
  | n + 1, acc =>
    let t := acc + 2 ^ n
    isqrtFrom x n (if t * t ≤ x then t else acc)

def isqrt (x : Nat) : Nat := isqrtFrom x (Nat.log2 x / 2 + 1) 0

/-- sum of t^k / k! by Horner over the falling list of k. -/
def expSeries (t : Int) : Int := (List.range 40).foldr (fun k acc => q100 + mulQ t acc / (k + 1 : Nat)) q100

/-- 2^x for x with 100 fraction bits: mantissa with 100 fraction bits, and exponent. -/
def exp2Q (x : Int) : Int × Int :=
  let n := x / q100
  (expSeries (mulQ (x - n * q100) ln2Q), n)

/-- Fraction bits of log2 y for y in [1, 2) with 100 fraction bits. -/
def log2Bits : Nat → Nat → Nat → Nat
  | 0, _, acc => acc
  | n + 1, y, acc =>
    let y2 := y * y / q100
    if y2 ≥ 2 * q100 then log2Bits n (y2 / 2) (2 * acc + 1) else log2Bits n y2 (2 * acc)

/-- Alternating series with ratio -t / c_k: sin and cos of an angle with 100 fraction bits. -/
def sinQ (r : Int) : Int :=
  let t := mulQ r r
  mulQ r ((List.range 20).foldr (fun k acc => q100 - mulQ t acc / ((2 * k + 2) * (2 * k + 3) : Nat)) q100)
def cosQ (r : Int) : Int :=
  let t := mulQ r r
  (List.range 20).foldr (fun k acc => q100 - mulQ t acc / ((2 * k + 1) * (2 * k + 2) : Nat)) q100

/-- The functions that FSFU approximates. -/
inductive Approx where
  | rsq | exp2 | log2 | sin | cos | tanh
  deriving DecidableEq, Repr

def Approx.code : Approx → Nat
  | .rsq => 1
  | .exp2 => 3
  | .log2 => 4
  | .sin => 5
  | .cos => 6
  | .tanh => 7

/-- A finite value with 100 fraction bits, floored. -/
def toQ (neg : Bool) (m : Nat) (e : Int) : Int :=
  let s : Int := if neg then -(m : Int) else m
  if e + 100 ≥ 0 then s * 2 ^ (e + 100).toNat else s / 2 ^ (-(e + 100)).toNat

/-- The function's value at a finite operand outside the special cases: signed mantissa and exponent. -/
def Approx.real (f : Approx) (neg : Bool) (m : Nat) (e : Int) : Int × Int :=
  match f with
  | .rsq =>
    let m' := if e % 2 = 0 then m else 2 * m
    let e' := if e % 2 = 0 then e else e - 1
    (isqrt (2 ^ 240 / m'), -(e' / 2) - 120)
  | .exp2 =>
    -- 2^x stands on the right side of 1 for the smallest x as well; no FP32 value lies within 2^-60 of it but 1
    let (s, n) := exp2Q (if neg || m = 0 then toQ neg m e else max (2 ^ 40) (toQ neg m e))
    (s, n - 100)
  | .log2 =>
    let k := Nat.log2 m
    let frac := log2Bits 80 (m * 2 ^ 100 / 2 ^ k) 0
    ((e + k) * 2 ^ 80 + frac, -80)
  | .sin =>
    -- sin x stands on the right side of x for the smallest x as well
    if e + (Nat.log2 m : Int) < -30 then (if neg then 1 - (m : Int) * 2 ^ 40 else (m : Int) * 2 ^ 40 - 1, e - 40)
    else
      let x := toQ neg m e
      let k := (2 * x + halfPiQ) / (2 * halfPiQ)
      let r := x - k * halfPiQ
      (match (k % 4).toNat with
        | 0 => sinQ r
        | 1 => cosQ r
        | 2 => -sinQ r
        | _ => -cosQ r, -100)
  | .cos =>
    let x := toQ neg m e
    let k := (2 * x + halfPiQ) / (2 * halfPiQ)
    let r := x - k * halfPiQ
    (match (k % 4).toNat with
      | 0 => cosQ r
      | 1 => -sinQ r
      | 2 => -cosQ r
      | _ => sinQ r, -100)
  | .tanh =>
    if e + (Nat.log2 m : Int) < -8 then
      let x := toQ false m e
      let t := mulQ x x
      let c := q100 - (t / 3 + 1) + 2 * mulQ t t / 15 - 17 * mulQ t (mulQ t t) / 315 -- below 1, as tanh x is below x
      ((if neg then -(m : Int) else m) * c, e - 100)
    else
      -- tanh x = (1 - u) / (1 + u) with u = 2^(-2 |x| / ln 2)
      let x := toQ false m e
      let (s, n) := exp2Q (-(2 * x * q100 / ln2Q))
      let u := s / 2 ^ (-n).toNat
      let v := (q100 - u) * q100 / (q100 + u)
      (if neg then -v else v, -100)

/-- The bound on the error, as a power-of-two exponent: units in the last place at the exact result, or absolute
[05 R85]. `near1`: the operand lies in [0.5, 2]; `big`: its magnitude is above 2^15, where FSIN and FCOS state only that
the result lies in [-1, 1]. -/
def Approx.bound (f : Approx) (s : Int) (e : Int) (near1 big : Bool) : Int :=
  let ulp : Int := max (e + (Nat.log2 s.natAbs : Int) - 23) (-149)
  match f with
  | .rsq => ulp
  | .exp2 | .tanh => ulp + 1
  | .log2 => if near1 then max (ulp + 1) (-22) else ulp + 1
  | .sin | .cos => if big then 1 else -21

/-- A finite value lies within 2^b of s 2^e. -/
def within (v : Val) (s : Int) (e b : Int) : Bool :=
  match v with
  | .fin n m k =>
    let base := min (min k e) b
    let d := scaled n m k base - s * 2 ^ (e - base).toNat
    decide (d.natAbs ≤ 2 ^ (b - base).toNat)
  | _ => false

/-- What an approximated function's result keeps to beside its bound: FSIN and FCOS lie in [-1, 1], and FSIN and FTANH
of a subnormal operand are tiny, so not zero [05 R85, R86; 03 R52]. -/
def Approx.keeps (f : Approx) (m : Nat) (e : Int) (y : W32) : Bool :=
  let mag := (y &&& 0x7FFFFFFF).toNat
  let tiny := !valLt (.fin false m e) (.fin false 1 (-126)) || decide (0 < mag ∧ mag < 0x00800000)
  match f with
  | .sin => decide (mag ≤ 0x3F800000) && tiny
  | .cos => decide (mag ≤ 0x3F800000)
  | .tanh => tiny
  | _ => true

/-- The result at a finite operand, with its flags: NX, and UF when the delivered result is tiny, which zero is not;
FEXP2 sets UF with a zero too, as its row for lower operands says (log 10) [05 R85-R87, 03 R52]. -/
def Approx.value (f : Approx) (a : W32) (neg : Bool) (m : Nat) (e : Int) : W32 × W32 :=
  let (s, k) := f.real neg m e
  let near1 := !valLt (.fin neg m e) (.fin false 1 (-1)) && !valLt (.fin false 1 1) (.fin neg m e)
  let big := valLt (.fin false 1 15) (.fin false m e)
  let rn := BitVec.ofNat 32 (Fmt.f32.ofInt .rn s k).1
  let free := Config.freeSfu f.code a
  let y := if within (f32 free) s k (f.bound s k near1 big) && f.keeps m e free then free else rn
  let mag := (y &&& 0x7FFFFFFF).toNat
  (y, flagNX ||| flagIf (decide (mag < 0x00800000 ∧ (mag ≠ 0 ∨ f = .exp2))) flagUF)

/-- FSIN and FTANH are odd, FCOS is even [05 R87]. -/
def Approx.result (f : Approx) (a : W32) (neg : Bool) (m : Nat) (e : Int) : W32 × W32 :=
  match f with
  | .sin | .tanh =>
    let r := f.value (a &&& 0x7FFFFFFF) false m e
    (if neg then r.1 ^^^ 0x80000000 else r.1, r.2)
  | .cos => f.value (a &&& 0x7FFFFFFF) false m e
  | _ => f.value a neg m e

end Sys2Proof.Machine
end

