-- ==== Sys2Proof/Machine/Ops.lean ====
section
/-! DEFINITION. The named operations: memory by key, registers, strands and their fragments, results in flight, matrix
blocks, and taking and leaving exceptions. Every meaning is written over these. -/

namespace Sys2Proof.Machine

/-- What an instruction answers. -/
abbrev Out := Host.Outcome State Fault Refusal

/-! ### Memory [13 R201]

One sparse list of bytes holds every memory space; a key is the space's base plus the address within it. -/

/-- What an unlisted byte reads as. DESIGN CHOICE (log 4), unsafe: the spec gives memory no contents. -/
def Mem.blank : Byte := 0

def Key.cxl (a : Nat) : Nat := 2 ^ 64 + a
def Key.host (port a : Nat) : Nat := (2 + port) * 2 ^ 64 + a
def Key.peer (rank a : Nat) : Nat := (16 + rank) * 2 ^ 64 + a
def Key.scratch (core : Fin 256) (off : Nat) : Nat := (8192 + core.val) * 2 ^ 64 + off
def Key.casket (core : Fin 256) (addr : Nat) : Nat := (16384 + core.val) * 2 ^ 64 + addr

/-- Errors of the register file, the matrix file and the engine buffers have keys too (log 27). -/
def Key.reg (core : Fin 256) (quad : Fin 4) (slot : Fin 16) (l : LaneId) (r : GReg) : Nat :=
  (32768 + core.val) * 2 ^ 64 + 4 * (((quad.val * 16 + slot.val) * 32 + l.val) * 64 + r.val)
def Key.block (core : Fin 256) (quad : Fin 4) (slot : Fin 16) (l : LaneId) (h : MReg) : Nat :=
  (49152 + core.val) * 2 ^ 64 + 8 * (((quad.val * 16 + slot.val) * 32 + l.val) * 16 + h.val)
/-- The save area's share of a task: by offset in its scratchpad allocation, or by 2^64 + casket address [21 R339]. -/
def Key.save (tid x : Nat) : Nat := (1 + tid) * 2 ^ 96 + x
def Key.buffer (core : Fin 256) (engine : Nat) : Nat := (65536 + core.val) * 2 ^ 64 + 8 * engine

/-- The byte at a key. -/
def Mem.get : List Host.Cell → Nat → Byte
  | [], _ => Mem.blank
  | (a, b) :: rest, k => if k = a then b else if k < a then Mem.blank else Mem.get rest k

/-- The memory with one byte written, in canonical form. -/
def Mem.put : List Host.Cell → Nat → Byte → List Host.Cell
  | [], k, v => if v = Mem.blank then [] else [(k, v)]
  | (a, b) :: rest, k, v =>
    if k = a then (if v = Mem.blank then rest else (a, v) :: rest)
    else if k < a then (if v = Mem.blank then (a, b) :: rest else (k, v) :: (a, b) :: rest)
    else (a, b) :: Mem.put rest k v

/-- `n` bytes from a key, lowest first. -/
def Mem.read (m : List Host.Cell) : Nat → Nat → List Byte
  | _, 0 => []
  | k, n + 1 => Mem.get m k :: Mem.read m (k + 1) n

/-- Bytes written from a key, lowest first. -/
def Mem.write (m : List Host.Cell) : Nat → List Byte → List Host.Cell
  | _, [] => m
  | k, b :: bs => Mem.write (Mem.put m k b) (k + 1) bs

/-- The keys rise strictly above `lo`, and no entry equals what an unlisted byte reads as. -/
def Mem.wfFrom : Nat → List Host.Cell → Bool
  | _, [] => true
  | lo, (a, b) :: rest => decide (lo ≤ a) && decide (b ≠ Mem.blank) && Mem.wfFrom (a + 1) rest

/-- Memory is in canonical form. -/
def Mem.wf (m : List Host.Cell) : Bool := Mem.wfFrom 0 m

/-- A memory cell lies in `n` bytes from a key. -/
def Mem.within (a n : Nat) (c : Host.Cell) : Bool := decide (a ≤ c.1) && decide (c.1 < a + n)

/-- `n` bytes from key `a` are moved to key `b`. -/
def Mem.move (m : List Host.Cell) (a n b : Nat) : List Host.Cell :=
  (m.filter (Mem.within a n)).foldl (fun m c => Mem.put m (b + (c.1 - a)) c.2) (m.filter fun c => !Mem.within a n c)

/-- A little-endian number of `n` bytes at a key. -/
def Mem.num (m : List Host.Cell) (k n : Nat) : Nat := ofBytes (Mem.read m k n)

/-- The bytes of a list of runs, in order. -/
def Mem.readRuns (m : List Host.Cell) : List Run → List Byte
  | [] => []
  | r :: rs => Mem.read m r.key r.len ++ Mem.readRuns m rs

/-- Bytes written over a list of runs, in order. -/
def Mem.writeRuns (m : List Host.Cell) : List Run → List Byte → List Host.Cell
  | [], _ => m
  | r :: rs, bs => Mem.writeRuns (Mem.write m r.key (bs.take r.len)) rs (bs.drop r.len)

/-- The 64-bit word `w` of an error list lies whole in `n` bytes from key `k` [21 R335]. -/
def covers (k n w : Nat) : Bool := decide (k ≤ 8 * w) && decide (8 * w + 8 ≤ k + n)

/-- The words that a write covers hold no error any more, whether or not it is visible [21 R335]. -/
def Dev.heal (d : Dev) (k n : Nat) : Dev :=
  { d with eccOne := d.eccOne.filter fun w => !covers k n w, eccBad := d.eccBad.filter fun w => !covers k n w }

/-- The device with bytes written at a key; a write that covers a whole 64-bit word ends its errors [21 R335]. -/
def Dev.store (d : Dev) (k : Nat) (bs : List Byte) : Dev :=
  { d with mem := Mem.write d.mem k bs
           eccOne := d.eccOne.filter fun w => !covers k bs.length w
           eccBad := d.eccBad.filter fun w => !covers k bs.length w }

/-- The device with a number of `n` bytes written at a key. -/
def Dev.storeNum (d : Dev) (k n v : Nat) : Dev := d.store k (toBytes n v)

/-- A number of `n` bytes at a key. -/
def Dev.num (d : Dev) (k n : Nat) : Nat := Mem.num d.mem k n

/-! ### Registers [01 R8, R9] -/

def Lane.rg (l : Lane) (r : GReg) : W32 := l.g[r]
def Lane.rpair (l : Lane) (r : GReg) : W64 := pair (l.rg r) (l.rg (r.plus 1))
def Lane.rquad (l : Lane) (r : GReg) : BitVec 128 := l.rpair (r.plus 2) ++ l.rpair r
/-- A predicate; 7 is pt, which is true [01 R8]. -/
def Lane.rp (l : Lane) (n : PReg) : Bool := if h : n.val < 7 then l.p[n.val] else true
def Lane.rm (l : Lane) (n : MReg) : Option Handle := l.m[n]

def Lane.wg (l : Lane) (r : GReg) (v : W32) : Lane := { l with g := l.g.set r v }
def Lane.wpair (l : Lane) (r : GReg) (v : W64) : Lane := (l.wg r (lo32 v)).wg (r.plus 1) (hi32 v)
/-- A predicate is written; a write to pt is discarded [01 R8]. -/
def Lane.wp (l : Lane) (n : PReg) (v : Bool) : Lane := if h : n.val < 7 then { l with p := l.p.set n.val v } else l
def Lane.wm (l : Lane) (n : MReg) (v : Option Handle) : Lane := { l with m := l.m.set n v }

def Strand.lane (st : Strand) (l : LaneId) : Lane := st.lanes[l]
def Strand.rk (st : Strand) (r : KReg) : W32 := st.k[r]
def Strand.rkpair (st : Strand) (r : KReg) : W64 := pair (st.rk r) (st.rk (r.plus 1))
def Strand.wk (st : Strand) (r : KReg) (v : W32) : Strand := { st with k := st.k.set r v }
def Strand.wkpair (st : Strand) (r : KReg) (v : W64) : Strand := (st.wk r (lo32 v)).wk (r.plus 1) (hi32 v)

/-- The strand with one lane changed. -/
def Strand.onLane (st : Strand) (l : LaneId) (f : Lane → Lane) : Strand := { st with lanes := updV st.lanes l f }

/-- The strand with every lane of a mask changed. -/
def Strand.onLanes (st : Strand) (mask : W32) (f : LaneId → Lane → Lane) : Strand :=
  { st with lanes := Vector.ofFn fun l => if hasLane mask l then f l st.lanes[l] else st.lanes[l] }

/-- The fragment in a slot. -/
def Strand.frag (st : Strand) (slot : Fin 4) : Option Frag := st.frags[slot]

/-- The strand with the fragment of a slot changed. -/
def Strand.onFrag (st : Strand) (slot : Fin 4) (f : Frag → Frag) : Strand :=
  { st with frags := updV st.frags slot (Option.map f) }

/-- The strand with a slot set or freed. -/
def Strand.setFrag (st : Strand) (slot : Fin 4) (f : Option Frag) : Strand := { st with frags := st.frags.set slot f }

/-- The strand with every live fragment changed. -/
def Strand.mapFrags (st : Strand) (f : Frag → Frag) : Strand :=
  { st with frags := Vector.ofFn fun i => st.frags[i].map f }

/-- The live fragments with their slots, lowest slot first. -/
def Strand.live (st : Strand) : List (Fin 4 × Frag) :=
  (List.finRange 4).filterMap fun i => st.frags[i].map fun f => (i, f)

/-- The lowest free slot [09 R167]. -/
def Strand.freeSlot (st : Strand) : Option (Fin 4) := (List.finRange 4).find? fun i => st.frags[i].isNone

/-- The lanes that are present and have not exited [09 R164]. -/
def Strand.liveLanes (st : Strand) : W32 := maskOf fun l => st.lanes[l].present && !st.lanes[l].exited

/-! ### Parts of the device -/

/-- The device with its issuing strand changed. -/
def Dev.onFocus (d : Dev) (f : Strand → Strand) : Dev := { d with focus := f d.focus }

/-- Every strand on the device. -/
def Dev.all (d : Dev) : List Strand := (d.focus :: d.strands).filter fun st => st.id != 0

def Dev.strand? (d : Dev) (sid : Nat) : Option Strand := d.all.find? fun st => st.id == sid

/-- The device with the strand of a number changed. -/
def Dev.onStrand (d : Dev) (sid : Nat) (f : Strand → Strand) : Dev :=
  { d with focus := if d.focus.id = sid ∧ sid ≠ 0 then f d.focus else d.focus
           strands := updWhere (fun st => st.id == sid) f d.strands }

/-- The device with every strand changed. -/
def Dev.mapStrands (d : Dev) (f : Strand → Strand) : Dev :=
  { d with focus := if d.focus.id = 0 then d.focus else f d.focus, strands := d.strands.map f }

/-- The device with a strand brought into focus; the strand that was there goes back to the list. -/
def Dev.bring (d : Dev) (sid : Nat) : Dev :=
  if d.focus.id = sid then d else
  match d.strands.find? fun st => st.id == sid with
  | none => d
  | some st =>
    { d with focus := st
             strands := (if d.focus.id = 0 then [] else [d.focus]) ++ d.strands.filter fun x => x.id != sid }

/-- The device without a strand. -/
def Dev.dropStrand (d : Dev) (sid : Nat) : Dev :=
  { d with focus := if d.focus.id = sid then Strand.reset else d.focus
           strands := d.strands.filter fun x => x.id != sid }

def Dev.core (d : Dev) (c : Fin 256) : Core := d.cores[c]
def Dev.onCore (d : Dev) (c : Fin 256) (f : Core → Core) : Dev := { d with cores := updV d.cores c f }
def Dev.quad (d : Dev) (c : Fin 256) (q : Fin 4) : Quad := (d.core c).quads[q]
def Dev.onQuad (d : Dev) (c : Fin 256) (q : Fin 4) (f : Quad → Quad) : Dev :=
  d.onCore c fun k => { k with quads := updV k.quads q f }

def Dev.region? (d : Dev) (r : Nat) : Option Region := d.regions.find? fun x => x.id == r
def Dev.onRegion (d : Dev) (r : Nat) (f : Region → Region) : Dev :=
  { d with regions := updWhere (fun x => x.id == r) f d.regions }
def Dev.job? (d : Dev) (j : Nat) : Option Job := d.jobs.find? fun x => x.id == j
def Dev.onJob (d : Dev) (j : Nat) (f : Job → Job) : Dev := { d with jobs := updWhere (fun x => x.id == j) f d.jobs }
def Dev.op? (d : Dev) (o : Nat) : Option EngOp := d.ops.find? fun x => x.id == o
def Dev.onOp (d : Dev) (o : Nat) (f : EngOp → EngOp) : Dev := { d with ops := updWhere (fun x => x.id == o) f d.ops }

/-- A region and its ancestors, nearest first; a tree is at most 8 deep [17 R279]. -/
def Dev.chainFuel (d : Dev) : Nat → Nat → List Nat
  | 0, _ => []
  | n + 1, r =>
    match d.region? r with
    | none => []
    | some x => r :: (if x.parent = 0 then [] else d.chainFuel n x.parent)

def Dev.chain (d : Dev) (r : Nat) : List Nat := d.chainFuel 8 r

/-- The region of a strand with its values; the root's where the region is gone. -/
def Dev.regionOf (d : Dev) (st : Strand) : Region := (d.region? st.region).getD Region.root

/-- A write of `n` bytes from a key triggers the watches on its lines. -/
def Lane.noteWrite (x : Lane) (k n : Nat) : Lane :=
  match x.watch with
  | none => x
  | some w => if w.line < k + n ∧ k < w.line + 128 then { x with watch := some { w with hit := true } } else x

/-- Some lane of the device holds a watch. -/
def Dev.watched (d : Dev) : Bool := d.all.any fun st => st.lanes.toList.any fun x => x.watch.isSome

/-- A write reaches intaketail: the scheduler tries the entry at which it stopped again [17 R288]. -/
def Dev.noteTail (d : Dev) (k n : Nat) : Dev :=
  if d.stall && decide (d.rootRcb + 156 < k + n) && decide (k < d.rootRcb + 160) then { d with stall := false } else d

/-- Bytes have become visible: what watches them is told. -/
def Dev.trigger (d : Dev) (k n : Nat) : Dev :=
  let d := d.noteTail k n
  if d.watched then d.mapStrands fun st => { st with lanes := mapV st.lanes fun x => x.noteWrite k n } else d

/-- The fields that the scheduler keeps in the RCB: usage, livetasks, children, engines [17 R269]. -/
def Dev.writeRcb (d : Dev) (r : Nat) : Dev :=
  match d.region? r with
  | none => d
  | some x =>
    let d := d.storeNum (r + 168) 4 x.useSlots
    let d := d.storeNum (r + 172) 4 x.useBlocks
    let d := d.storeNum (r + 176) 4 x.useBanks
    let d := d.storeNum (r + 180) 4 x.useScratch
    let d := d.storeNum (r + 184) 4 x.livetasks
    let d := d.storeNum (r + 188) 4 x.children
    (d.store (r + 192) (x.tls.toList.flatMap fun t => toBytes 8 t.issued ++ toBytes 8 t.done)).trigger (r + 168) 88

/-- The device with a region changed and its RCB's scheduler fields written. -/
def Dev.updRegion (d : Dev) (r : Nat) (f : Region → Region) : Dev := (d.onRegion r f).writeRcb r

/-- The device with a change made to a region and every ancestor of it [17 R270]. -/
def Dev.updChain (d : Dev) (r : Nat) (f : Region → Region) : Dev :=
  (d.chain r).foldl (fun d x => d.updRegion x f) d

/-! ### Numbers and free values -/

/-- The next number for a strand, flight, operation, job or entry. -/
def Dev.next (d : Dev) : Nat := d.seq + 1
def Dev.bump (d : Dev) : Dev := { d with seq := d.seq + 1 }

/-- A free value has been drawn (log 2). -/
def Dev.drew (d : Dev) : Dev := { d with fresh := d.fresh + 1 }

/-- The cycle in which something of open latency happens: any later cycle (log 8). -/
def Dev.someday (d : Dev) : Nat := d.cycle + 1 + Config.freeLatency d.fresh

/-- The fewest cycles that `n` ns hold on either rail: 1.2 a ns [00 R3, 22 R349] (log 8). -/
def nsCycles (n : Nat) : Nat := (6 * n + 4) / 5

/-- The device with an event due in a cycle. -/
def Dev.plan (d : Dev) (due : Nat) (e : Instr) : Dev := { d with agenda := d.agenda ++ [(due, e)] }

/-- The device with an event due at an open later cycle (log 8). -/
def Dev.planSomeday (d : Dev) (e : Instr) : Dev := (d.plan d.someday e).drew

/-! ### The open issue group -/

/-- The strand as it stood when the group began: what the group's words read [01 R14]. -/
def State.old (s : State) : Strand := s.start.focus

/-- The issuing fragment. -/
def State.frag (s : State) : Frag := (s.old.frag s.iss.slot).getD (Frag.start 0 0)

/-- The lanes of a mask in which a guard is true [01 R15]. -/
def Strand.guarded (st : Strand) (mask : W32) (g : PReg) : W32 := maskOf fun l => hasLane mask l && (st.lane l).rp g

/-- The lanes in which a word executes: active and with a true guard [01 R15]. -/
def State.exec (s : State) (h : Hdr) : W32 := s.old.guarded s.frag.mask h.g

/-- The word has an executing lane: it acts, where it acts once [06 R95]. -/
def State.acts (s : State) (h : Hdr) : Bool := s.exec h != 0

/-- The lowest-numbered lane in which a word executes. -/
def State.low (s : State) (h : Hdr) : LaneId := lowLane (s.exec h)

/-- What the word runs at system level [01 R13]. -/
def State.sys (s : State) : Bool := s.frag.prv

def State.onDev (s : State) (f : Dev → Dev) : State := { s with now := f s.now }
def State.onFocus (s : State) (f : Strand → Strand) : State := s.onDev fun d => d.onFocus f

/-- Results written in the lanes of a mask. -/
def State.writeLanes (s : State) (mask : W32) (f : LaneId → Lane → Lane) : State :=
  s.onFocus fun st => st.onLanes mask f

/-- A g register written in the lanes of a mask. -/
def State.writeG (s : State) (mask : W32) (d : GReg) (f : LaneId → W32) : State :=
  s.writeLanes mask fun l x => x.wg d (f l)

/-- A pair written in the lanes of a mask. -/
def State.writePair (s : State) (mask : W32) (d : GReg) (f : LaneId → W64) : State :=
  s.writeLanes mask fun l x => x.wpair d (f l)

/-- A predicate written in the lanes of a mask. -/
def State.writeP (s : State) (mask : W32) (n : PReg) (f : LaneId → Bool) : State :=
  s.writeLanes mask fun l x => x.wp n (f l)

/-- A uniform register written. -/
def State.writeK (s : State) (r : KReg) (v : W32) : State := s.onFocus fun st => st.wk r v

/-- The transfer that follows the group [02 R27]. -/
def State.setXfer (s : State) (x : Xfer) : State := { s with iss := { s.iss with xfer := some x } }

/-- The wait that parks the fragment after the group. -/
def State.setWait (s : State) (w : Wait) : State := { s with iss := { s.iss with wait := some w } }

/-- The group can not issue: a resource is short [02 R28]. -/
def State.setBlock (s : State) (w : Wait) : State := { s with iss := { s.iss with block := some w } }

/-- The value that LIT supplies to the word, from the low bits of the word's own field [02 R32]. -/
def State.litVal (s : State) (low : Nat) : Option W32 := s.iss.lit.map fun v => v ||| BitVec.ofNat 32 low

/-! ### Results in flight [01 R16-R18] -/

/-- A destination belongs to a lane of the mask, or is a uniform register [01 R18, R20]. -/
def Dest.touches (mask : W32) : Dest → Bool
  | .g l _ => hasLane mask l
  | .k _ => true
  | .p l _ => hasLane mask l
  | .m l _ => hasLane mask l

/-- A result in flight for a destination [01 R17]. -/
def Strand.isPending (st : Strand) (x : Dest) : Bool := st.flights.any fun f => f.marks.any fun y => y == x

/-- Nothing is pending in the lanes of a mask or in the uniform registers [01 R18]. -/
def Strand.settled (st : Strand) (mask : W32) : Bool := st.flights.all fun f => f.marks.all fun x => !x.touches mask

/-- A handle's blocks: ceil(r c w / 512) [07 R120]. -/
def ewBits : EW → Nat
  | .w4 => 4
  | .w8 => 8
  | .w16 => 16
  | .w32 => 32

def Handle.blocks (h : Handle) : Nat := ceilDiv (h.rows * h.cols * ewBits h.w) 512

/-- The blocks that a lane's handle holds; none for an empty handle. -/
def Lane.blocksOf (l : Lane) (n : MReg) : Nat := ((l.rm n).map Handle.blocks).getD 0

/-- The live blocks of a lane, and of a strand [09 R180]. -/
def Stow.blocks (x : Stow) : Nat := (x.h.map Handle.blocks).getD 0
def Lane.blocks (l : Lane) : Nat := ((List.finRange 16).map l.blocksOf).sum + (l.stow.map Stow.blocks).sum
def Strand.blocks (st : Strand) : Nat := ((List.finRange 32).map fun i => (st.lane i).blocks).sum

/-- One arriving value is written; a lane that has exited takes nothing [06 R103]. -/
def Strand.arrive (st : Strand) : RegWrite → Strand
  | .g l r v => st.onLane l fun x => x.wg r v
  | .k r v => st.wk r v
  | .p l n v => st.onLane l fun x => x.wp n v
  | .m l h v => st.onLane l fun x => x.wm h v

/-- The strand with a flight's values written, its fpstat bits ORed and the flight gone [01 R16, 03 R53]. -/
def Strand.land (st : Strand) (f : Flight) : Strand :=
  let st := f.writes.foldl Strand.arrive st
  let st := f.fp.foldl (fun st p => st.onLane p.1 fun x => { x with fpstat := x.fpstat ||| p.2 }) st
  { st with flights := st.flights.filter fun x => x.id != f.id }

/-- A flight enters the strand. -/
def Strand.launchFlight (st : Strand) (f : Flight) : Strand := { st with flights := st.flights ++ [f] }

/-- A destination is that of a lane of the mask. -/
def Dest.inLanes (mask : W32) : Dest → Bool
  | .g l _ => hasLane mask l
  | .k _ => false
  | .p l _ => hasLane mask l
  | .m l _ => hasLane mask l

def RegWrite.inLanes (mask : W32) : RegWrite → Bool
  | .g l _ _ => hasLane mask l
  | .k _ _ => false
  | .p l _ _ => hasLane mask l
  | .m l _ _ => hasLane mask l

/-- A flight's bytes are those of a uniform load, which no lane's exit ends [04 R78]. -/
def Fill.uniform : Fill → Bool
  | .kld _ => true
  | _ => false

/-- A flight without what it holds for the lanes of a mask: their pending results are discarded [06 R103]. -/
def Flight.forget (mask : W32) (f : Flight) : Flight :=
  { f with lanes := f.lanes &&& ~~~mask
           marks := f.marks.filter fun x => !x.inLanes mask
           writes := f.writes.filter fun x => !x.inLanes mask
           bufs := f.bufs.filter fun x => f.fill.uniform || !hasLane mask x.1
           lasts := f.lasts.filter fun x => !hasLane mask x.1
           fp := f.fp.filter fun x => !hasLane mask x.1
           mx := f.mx.filter fun x => !hasLane mask x.1
           fails := f.fails.filter fun x => !hasLane mask x.lane }

/-! ### Matrix blocks [09 R179, R180] -/

/-- Blocks come back to a quadrant: they refill the reserve first, and the rest rejoins the pool [09 R179]. -/
def Quad.giveBack (q : Quad) (n : Nat) : Quad :=
  let short := 512 - q.reserve
  { q with reserve := q.reserve + min short n, free := q.free + (n - min short n) }

/-- The matrix blocks that a fragment's grant holds for a group that has not issued yet [09 R179]. -/
def Frag.granted (f : Frag) : Nat := f.grant - 1

/-- A strand's holding: its live blocks and those granted to its parked requests [09 R180]. -/
def Strand.holding (st : Strand) : Nat := st.blocks + (st.live.map fun x => x.2.granted).sum

/-- The reserve becomes unheld when its holder's live blocks are at H0 or below, or the holder has ended; it then
refills from the pool [09 R180]. -/
def Dev.settleReserve (d : Dev) (c : Fin 256) (q : Fin 4) : Dev :=
  match (d.quad c q).holder with
  | none => d
  | some sid =>
    let held := match d.strand? sid with
      | none => false
      | some st => decide ((d.quad c q).h0 < st.holding)
    if held then d else d.onQuad c q fun x => { x with holder := none, h0 := 0 }

/-- Blocks return to the quadrant's pool and leave the use of the region and its ancestors [07 R127, 17 R270]. -/
def Dev.returnBlocks (d : Dev) (c : Fin 256) (q : Fin 4) (region n : Nat) : Dev :=
  if n = 0 then d else
  let d := d.onQuad c q fun x => x.giveBack n
  let d := d.updChain region fun r => { r with useBlocks := r.useBlocks - n }
  d.settleReserve c q

/-- The blocks that wait for the completion of words in flight. -/
def Strand.freeing (st : Strand) : Nat := ((st.flights.flatMap Flight.frees).dedup.map Freed.blocks).sum

/-- Those that wait for one word's completion alone. -/
def Strand.freedBy (st : Strand) (f : Flight) : Nat :=
  ((f.frees.filter fun x => !(st.flights.any fun g => g.id != f.id && g.frees.contains x)).map Freed.blocks).sum

/-- A flight of an MEXP. -/
def Flight.isMexp (f : Flight) : Bool :=
  match f.kind with
  | .mexp _ _ => true
  | _ => false

/-- A flight reads a handle of a lane. -/
def Flight.readsM (f : Flight) (l : LaneId) (m : MReg) : Bool := f.reads.contains (l, m)

/-- A reader of a released handle: the blocks wait for it too, and an MEXP keeps the handle for a second issue. -/
def Flight.outlive (f : Flight) (x : Freed) (h : Option Handle) : Flight :=
  { f with frees := f.frees ++ [x]
           reads := f.reads.filter fun r => r != (x.lane, x.reg)
           lasts := if f.isMexp then f.lasts ++ h.toList.map fun h => (x.lane, x.reg, h) else f.lasts }

/-- The run that starts at a bank is freed. -/
def Dev.dropBanks (d : Dev) (c : Fin 256) (region first : Nat) : Dev :=
  match (d.core c).banks.find? fun r => r.first == first with
  | none => d
  | some run =>
    (d.onCore c fun k => { k with banks := k.banks.filter fun r => r.first != first }).updChain region
      fun r => { r with useBanks := r.useBanks - run.n }

/-- The blocks that a fragment's grant holds go back: its request waits again, for more [09 R173, R179]. -/
def Dev.returnGrant (d : Dev) (slot : Fin 4) : Dev :=
  match d.focus.frag slot with
  | none => d
  | some f =>
    if f.grant = 0 then d else
    let st := d.focus
    (d.onFocus fun st => st.onFrag slot fun f => { f with grant := 0 }).returnBlocks st.core st.quad st.region f.granted

/-- The runs of banks that have been granted to a fragment go back [13 R218]. -/
def Dev.returnRuns (d : Dev) (slot : Fin 4) : Dev :=
  match d.focus.frag slot with
  | none => d
  | some f =>
    if f.bank.isEmpty then d else
    let st := d.focus
    f.bank.foldl (fun d b => d.dropBanks st.core st.region b) (d.onFocus fun st => st.onFrag slot fun f => { f with bank := [] })

/-- What has been granted to a fragment for a group that it does not issue, or has issued without it, goes back. -/
def Dev.returnGrants (d : Dev) (slot : Fin 4) : Dev := (d.returnGrant slot).returnRuns slot

/-- A lane's handle is released: its blocks return when the last of the words in flight that read it has completed, or at
once [07 R127]. -/
def Dev.freeHandle (d : Dev) (l : LaneId) (m : MReg) : Dev :=
  let st := d.focus
  let n := (st.lane l).blocksOf m
  let d := d.onFocus fun st => st.onLane l fun x => x.wm m none
  match (st.flights.filter fun f => f.readsM l m).getLast? with
  | none => d.returnBlocks st.core st.quad st.region n
  | some f =>
    let x : Freed := { reader := f.id, lane := l, reg := m, blocks := n }
    (d.onFocus fun t =>
      { t with flights := updWhere (fun g => g.readsM l m) (fun g => g.outlive x ((st.lane l).rm m)) t.flights }).settleReserve
        st.core st.quad

/-- One strand is older than another of its quadrant [09 R163]. -/
def olderStrand (a b : Strand) : Bool :=
  decide (a.launched < b.launched) || (decide (a.launched = b.launched) && decide (a.slot < b.slot))

/-! ### The fragment table [09 R165-R174] -/

/-- The fragment that a deferred entry becomes: ready, never passed over, at position 0 but for lanes that go back to a
resume point (log 15) [09 R170]. -/
def Deferred.resume (e : Deferred) : Frag :=
  { e.frag with mask := e.mask, pc := e.pc, st := .ready, passed := 0, yield := false, skip := 0 }

/-- Deferred entries resume in the lowest free slots, first in first out, while slots are free [09 R170]. -/
def Strand.refillFrom (st : Strand) : List Deferred → Strand
  | [] => { st with deferred := [] }
  | e :: es =>
    match st.freeSlot with
    | none => { st with deferred := e :: es }
    | some i => (st.setFrag i (some e.resume)).refillFrom es

def Strand.refill (st : Strand) : Strand := st.refillFrom st.deferred

/-- Neither fragment has a handler record, or both records are of one entry; and neither is in a system handler
[09 R173]. -/
def Frag.sameHandler (a b : Frag) : Bool :=
  (a.handler.map HandlerRec.entry == b.handler.map HandlerRec.entry) && a.sysrec.isNone && b.sysrec.isNone &&
  a.prv == b.prv

/-- A fragment is join-waiting [09 R165]. -/
def Frag.joinWaits (f : Frag) : Bool :=
  match f.st with
  | .parked .join _ => true
  | _ => false

/-- A join-waiting fragment continues at its join point + 12 [09 R171]. -/
def Frag.joinGo (f : Frag) : Frag := { f with st := .ready, pc := f.pc + 12, pos := 0 }

/-- Join-waiting fragments whose condition holds are released [09 R171]; when every live fragment waits, the one at
the lowest join point is [09 R172]. -/
def Strand.releaseJoins (st : Strand) : Strand :=
  let full := st.liveLanes
  let done (f : Frag) : Bool := f.joinWaits && f.mask == full && st.deferred.isEmpty
  let live := st.live
  if live.any fun x => done x.2 then st.mapFrags fun f => if done f then f.joinGo else f
  else if !live.isEmpty && live.all fun x => x.2.joinWaits then
    let least := live.foldl (fun m x => min m x.2.pc.toNat) (2 ^ 64)
    match live.find? fun x => x.2.pc.toNat == least with
    | none => st
    | some x => st.onFrag x.1 Frag.joinGo
  else st

/-- The fragments of one user-handler entry, with their slots. -/
def Strand.ofEntry (st : Strand) (entry : Nat) : List (Fin 4 × Frag) :=
  st.live.filter fun x => match x.2.handler with
    | some h => h.entry == entry
    | none => false

/-- Where a fragment that issues a group again goes back to, with the lanes that are still there [10 R194]. -/
def Frag.backAside (f : Frag) (live : W32) : Option Frag :=
  match f.aside with
  | none => none
  | some a =>
    if (a.mask &&& live) = 0 then none
    else some { f with mask := a.mask &&& live, pc := a.pc, pos := a.pos, st := a.st, pend := a.pend, aside := none }

/-- The handles of an abandoned group change places with what stands in their registers. -/
def Lane.swapStow (x : Lane) (at_ : W64 × Fin 3) : Lane :=
  { x with m := Vector.ofFn fun m => ((x.stow.find? fun y => y.at_ == at_ && y.reg == m).map Stow.h).getD x.m[m]
           stow := x.stow.map fun y => if y.at_ = at_ then { y with h := x.rm y.reg } else y }

/-- A group that a pre-emption abandoned issues again: a fragment that holds lanes of it turns to it with those lanes, and
the handles that it read are back in their registers [10 R194]. -/
def Strand.againAt (st : Strand) (slot : Fin 4) : Strand :=
  match st.frag slot with
  | none => st
  | some f =>
    let free : Bool := match f.st with
      | .ready => true
      | .parked .bar _ => true
      | .parked _ _ => false
    match st.redo.find? fun r => (r.lanes &&& f.mask) != 0 with
    | none => st
    | some r =>
      if free && f.aside.isNone then
        let st := st.onLanes (r.lanes &&& f.mask) fun _ x => x.swapStow (r.pc, r.pos)
        { st.setFrag slot (some { f with mask := r.lanes &&& f.mask, pc := r.pc, pos := r.pos, st := .ready, pend := none
                                         aside := some { mask := f.mask, pc := f.pc, pos := f.pos, st := f.st, pend := f.pend } })
          with redo := st.redo.filterMap fun x =>
                 let x := if x == r then { x with lanes := x.lanes &&& ~~~f.mask } else x
                 if x.lanes = 0 then none else some x }
      else st

def Strand.again (st : Strand) : Strand :=
  if st.redo.isEmpty then st else (List.finRange 4).foldl Strand.againAt st

/-- The device drops the handler fragments of an entry and resumes every lane of the full mask that has not exited, in
the lowest of their slots, at the resume point, at user level [09 R174, 06 R107]. A group that they were issuing again is
over when none of its lanes is left. -/
def Strand.resumeAt (st : Strand) (slot : Fin 4) (f : Frag) (h : HandlerRec) : Strand :=
  let gone := (st.ofEntry h.entry).foldl (fun st x => st.setFrag x.1 none) st
  let mask := h.full &&& st.liveLanes
  let back : Frag :=
    { f with mask := mask, pc := h.pc, pos := h.pos, st := .ready, handler := none, prv := false, sysrec := none }
  let back := if mask = 0 then back.backAside st.liveLanes else some back
  (gone.setFrag slot back).refill

/-- When every lane of the entry mask has acted on a TRET or has exited, the handler's lanes and the held lanes
resume together [09 R174]. -/
def Strand.tryResume (st : Strand) (entry : Nat) : Strand :=
  match st.ofEntry entry with
  | [] => st
  | (slot, f) :: _ =>
    match f.handler with
    | none => st
    | some h => if (h.mask &&& st.liveLanes &&& ~~~h.acted) = 0 then st.resumeAt slot f h else st

/-- Lanes of a handler entry act on TRET: every record of that entry notes them [09 R174]. -/
def Strand.noteTret (st : Strand) (entry : Nat) (lanes : W32) : Strand :=
  let mark (f : Frag) : Frag :=
    { f with handler := f.handler.map fun h => if h.entry = entry then { h with acted := h.acted ||| lanes } else h }
  { st.mapFrags mark with deferred := st.deferred.map fun e => { e with frag := mark e.frag } }

/-- A transfer that waits for a parked fragment, without lanes that have exited [09 R164]. -/
def Xfer.without (lanes : W32) : Xfer → Xfer
  | .div t o pc => .div (t &&& ~~~lanes) (o &&& ~~~lanes) pc
  | .split gs => .split ((gs.map fun g => (g.1 &&& ~~~lanes, g.2)).filter fun g => g.1 != 0)
  | .exit l => .exit (l &&& ~~~lanes)
  | x => x

/-- Lanes leave: their pending results are discarded, their handles become empty, and they are exited [06 R103]. -/
def Strand.exitLanes (st : Strand) (lanes : W32) : Strand :=
  let st := st.onLanes lanes fun _ x =>
    { x with exited := true, m := Vector.replicate 16 none, stow := [], watch := none, monDrop := false, held := [] }
  { st.mapFrags (fun f => { f with pend := f.pend.map (Xfer.without lanes) })
    with flights := st.flights.map (Flight.forget lanes) }

/-- The lanes that a system handler held, when its entry lane has exited: they go on as an ERET without the entry lane
would let them (log 15). -/
def Frag.heldBySystem (f : Frag) (live : W32) : Option Frag :=
  match f.sysrec with
  | none => none
  | some r =>
    if (r.full &&& live) = 0 then none
    else some { f with mask := r.full &&& live, pc := f.syspc, pos := if f.syspc = r.pcIn then r.pos else 0
                       prv := f.pprv, sysrec := none, st := .ready }

/-- No fragment and no deferred entry is left to a handler entry. -/
def Strand.entryGone (st : Strand) (entry : Nat) : Bool :=
  (st.ofEntry entry).isEmpty && !(st.deferred.any fun e => e.frag.handler.map HandlerRec.entry == some entry)

/-- Lanes of a handler entry have gone from a fragment of it: with no fragment and no deferred entry left to it, the lanes
that it still holds resume by themselves; otherwise they do if its other lanes have all acted [09 R174]. DESIGN CHOICE (log 15):
they take the slot of the last fragment to go, also where an earlier one held a lower slot that is free again. -/
def Strand.afterLeave (st : Strand) (slot : Fin 4) (f : Frag) (h : HandlerRec) : Strand :=
  if st.entryGone h.entry then st.resumeAt slot f h else st.tryResume h.entry

/-- The lanes of a strand that a fragment or a deferred entry holds. -/
def Strand.placed (st : Strand) : W32 :=
  (st.live.foldl (fun m x => m ||| x.2.mask) 0) ||| st.deferred.foldl (fun m e => m ||| e.mask) 0

/-- A deferred entry has lost all its lanes: lanes that its handler entry still holds resume as in `afterLeave`, in the
lowest free slot, or from the deferred list where there is none (log 15) [09 R174]. -/
def Strand.afterDrop (st : Strand) (e : Deferred) : Strand :=
  match e.frag.handler with
  | none => st
  | some h =>
    if !st.entryGone h.entry then st.tryResume h.entry
    else
      let mask := h.full &&& st.liveLanes &&& ~~~st.placed
      let back : Frag :=
        { e.frag with mask := mask, pc := h.pc, pos := h.pos, st := .ready, handler := none, prv := false, sysrec := none }
      if mask = 0 then st
      else ({ st with deferred := st.deferred ++ [{ pc := h.pc, mask := mask, frag := back }] } : Strand).refill

/-- A fragment has lost lanes: an empty slot frees, unless it was the last of a handler entry that still holds lanes,
which then resume by themselves [09 R174, R175]. -/
def Strand.shrink (st : Strand) (slot : Fin 4) (lanes : W32) : Strand :=
  match st.frag slot with
  | none => st
  | some f =>
    let mask := f.mask &&& ~~~lanes
    let st := st.setFrag slot
      (if mask = 0 then f.heldBySystem st.liveLanes <|> (if f.handler.isNone then f.backAside st.liveLanes else none)
       else some { f with mask := mask })
    let st := match f.handler with
      | none => st
      | some h => st.afterLeave slot f h
    st.refill.releaseJoins

/-- A strand whose lanes have all exited. -/
def Strand.ended (st : Strand) : Bool := st.liveLanes == 0

/-- One element of the casket after a casket word's item [13 R220]. -/
def CasOp.new (op : CasOp) (old v : W32) : W32 :=
  match op with
  | .addF => (fadd old v).1
  | .addI => old + v
  | .write => v
  | .read => old
  | .readClr => 0

/-- The task that a strand runs for: its own, or the one that its lowest lane was spawned by [17 R286]. -/
def Strand.owner (st : Strand) : Nat :=
  if st.kind = .spawned then (st.lane (lowLane (maskOf fun l => (st.lane l).present))).parent else st.task

/-- Two strands run for one task [22 R345]. -/
def Strand.mates (a b : Strand) : Bool := a.id != b.id && a.owner == b.owner

/-- The next value of a counter of 64 bits that stops at its largest value [24 R381]. -/
def satNext (v : W64) : W64 := if v = BitVec.allOnes 64 then v else v + 1

/-- A word is read: a single-bit error of it is corrected and counted [21 R334]. -/
def Dev.correctWord (d : Dev) (w : Nat) : Dev :=
  if d.eccOne.contains w then
    { d with eccOne := d.eccOne.filter fun x => x != w, boot := { d.boot with ecccorr := satNext d.boot.ecccorr } }
  else d

/-- An item writes its element, and another item of its word the other half of the 64-bit word. -/
def CasItem.whole (op : CasOp) (items : List CasItem) (x : CasItem) : Bool :=
  op == .write && items.any fun y => y.addr / 8 == x.addr / 8 && y.addr != x.addr

/-- An item reads a word with an uncorrectable error, to use or to merge it [21 R335]. -/
def Dev.badItem (d : Dev) (c : Fin 256) (op : CasOp) (items : List CasItem) (x : CasItem) : Bool :=
  d.eccBad.contains (Key.casket c x.addr / 8) && !x.whole op items

/-- A casket word's items applied in order, with the values that they read [13 R220, R221]. An item whose word can not be
read has no effect, and its value is not used. -/
def Dev.casketItems (d : Dev) (c : Fin 256) (op : CasOp) (all : List CasItem) : List CasItem → Dev × List W32
  | [] => (d, [])
  | x :: xs =>
    let k := Key.casket c x.addr
    let next (d : Dev) (v : W32) : Dev × List W32 := let (d, vs) := d.casketItems c op all xs; (d, v :: vs)
    if d.badItem c op all x then next d 0 else
    let d := if x.whole op all then d.heal (k / 8 * 8) 8 else d.correctWord (k / 8)
    let old := BitVec.ofNat 32 (d.num k 4)
    next (if op = .read then d else d.storeNum k 4 (op.new old x.v).toNat) old

def Dev.casketApply (d : Dev) (c : Fin 256) (op : CasOp) (items : List CasItem) : Dev × List W32 := d.casketItems c op items items

/-- A handle of all zeros. -/
def Handle.zero (rows cols : Nat) (w : EW) : Handle := { rows := rows, cols := cols, w := w, els := List.replicate (rows * cols) 0 }

/-- The handle that a lane's register names; an empty one reads as a 0 x 0 handle, which no check lets through. -/
def Lane.hnd (x : Lane) (m : MReg) : Handle := (x.rm m).getD (Handle.zero 0 0 .w32)

/-- The handles that a casket read fills, from the values read in item order [13 R220]. -/
def cldWrites (st : Strand) (m : MReg) (lanes : W32) (items : List CasItem) (vals : List W32) : List RegWrite :=
  (lanesOf lanes).map fun l =>
    let got := ((items.zip vals).filter fun x => x.1.lane == l).map Prod.snd
    .m l m (some { (st.lane l).hnd m with els := got })

/-- The items of a casket word in flight that meet an error, by lane, with their casket addresses. -/
def Dev.casketBad (d : Dev) (c : Fin 256) (f : Flight) : List (LaneId × Nat) :=
  match f.kind with
  | .casket op _ items => if d.eccBad.isEmpty then [] else (items.filter (d.badItem c op items)).map fun x => (x.lane, x.addr)
  | _ => []

/-- The lanes of such items. -/
def badLanes (bad : List (LaneId × Nat)) : W32 := maskOf fun l => bad.any fun x => x.1 == l

/-- A casket word in flight takes effect: what it still has to do is to arrive [13 R220]. -/
def Dev.applyCasket (d : Dev) (sid : Nat) (f : Flight) : Dev :=
  match f.kind, d.strand? sid with
  | .casket op m items, some st =>
    let lanes := f.lanes &&& ~~~badLanes (d.casketBad st.core f)
    let (d, vals) := d.casketApply st.core op items
    let ws := if op = .read ∨ op = .readClr then cldWrites st m lanes items vals else []
    d.onStrand sid fun st =>
      { st with flights := updWhere (fun g => g.id == f.id) (fun g => { g with kind := .access, writes := g.writes ++ ws }) st.flights }
  | _, _ => d

/-- A casket word of a strand in flight, with the strand. -/
def Strand.casketFlights (st : Strand) : List (Nat × Flight) :=
  (st.flights.filter fun f => match f.kind with
    | .casket _ _ _ => true
    | _ => false).map fun f => (st.id, f)

/-- A list of words in flight with one more in its place, by number: in the order of issue. -/
def byIssue (x : Nat × Flight) : List (Nat × Flight) → List (Nat × Flight)
  | [] => [x]
  | y :: ys => if x.2.id ≤ y.2.id then x :: y :: ys else y :: byIssue x ys

/-- The casket words that a strand has in flight take effect as it ends, in issue order [06 R103]; in deterministic mode
after those that strands of its task issued before them [22 R346]. -/
def Dev.finishCasket (d : Dev) (st : Strand) : Dev :=
  let own := st.casketFlights
  let last := (own.map fun x => x.2.id).foldl max 0
  let before := if st.det then ((d.all.filter fun x => x.mates st).flatMap Strand.casketFlights).filter fun x => decide (x.2.id < last) else []
  ((own ++ before).foldr byIssue []).foldl (fun d x => d.applyCasket x.1 x.2) d

/-- A flight of the access queue [10 R188]. -/
def Flight.inQueue (f : Flight) : Bool :=
  match f.kind with
  | .access => true
  | .casket _ _ _ => true
  | _ => false

/-- The strand that holds a flight. -/
def Dev.ownerOf (d : Dev) (fid : Nat) : Option Nat := (d.all.find? fun st => st.flights.any fun f => f.id == fid).map Strand.id

/-- The first rerun that waits for the array starts at once; reruns of words that are gone are dropped [08 R145]. -/
def Dev.nextRerun (d : Dev) (core : Fin 256) (quad : Fin 4) : Dev :=
  let waiting := (d.quad core quad).rerunAt.filter fun fid => (d.ownerOf fid).isSome
  let d := d.onQuad core quad fun q => { q with rerunAt := waiting }
  match waiting with
  | [] => d
  | fid :: _ =>
    match d.ownerOf fid with
    | some sid => d.plan d.cycle (.checksumRerunStart sid fid)
    | none => d

/-- A strand with id `sid` leaves the device; its blocks return and its quadrant slot frees [09 R175]. -/
def Dev.endStrand (d : Dev) (sid : Nat) : Dev :=
  match d.strand? sid with
  | none => d
  | some st =>
    let d := d.finishCasket st
    let n := st.holding + st.freeing
    let d := d.dropStrand sid
    let d := d.onQuad st.core st.quad fun q =>
      { q with accessN := q.accessN - (st.flights.filter Flight.inQueue).length }
    let d := if (d.quad st.core st.quad).cellBusy.isNone then d.nextRerun st.core st.quad else d
    let d := if st.kind = .launchWalk then d else d.updChain st.region fun r => { r with useSlots := r.useSlots - 1 }
    (d.returnBlocks st.core st.quad st.region n).settleReserve st.core st.quad

/-! ### Faults and their delivery [21 R322-R331] -/

/-- A fault that names lanes and a trapinfo value. -/
def Trap.user (code : Nat) (lanes : W32) (info : W64) : Trap where
  code := code
  reason := 0
  cause := BitVec.ofNat 32 code
  lanes := lanes
  info := info
  object := 0
  flags := 0
  detail := 0
  next := false
  repPc := none

/-- How a fault is delivered, before R323 changes it [21 R322]. -/
inductive Delivery where
  | user | system | ending | machine
  deriving DecidableEq, Repr

def Trap.delivery (t : Trap) : Delivery :=
  if t.code = 0x10 ∨ t.code = 0x11 ∨ t.code = 0x13 then .system
  else if t.code = 0x12 ∨ t.code = 0x15 ∨ t.code = 0x18 then .ending
  else if 0x20 ≤ t.code ∧ t.code ≤ 0x22 then .machine
  else .user

/-- The report of a fault that ends a task [21 R329]. -/
def Trap.report (t : Trap) (st : Strand) (pc : W64) : Report where
  rank := ((st.core.val * 4 + st.quad.val) * 16 + st.slot.val) * 32 + (lowLane t.lanes).val
  code := t.code
  reason := t.reason
  flags := t.flags
  lanes := t.lanes
  task := 0
  object := t.object
  pc := t.repPc.getD pc
  info := t.info
  core := st.core.val
  quad := st.quad.val
  strand := st.strandid.toNat
  taskidx := st.taskidx.toNat
  detail := t.detail

/-- A report enters the region's queue of 16; one that finds it full is counted in `lost` [21 R330]. With an effective
faulttask of 0 no report is written. -/
def Dev.pushReport (d : Dev) (region : Nat) (r : Report) : Dev :=
  d.onRegion region fun x =>
    if x.faulttask = 0 then x
    else if x.reports.length < 16 then { x with reports := x.reports ++ [r] }
    else { x with lost := (x.lost + 1) % 2 ^ 32 }

/-- A strand stops for a task that ends: it goes, with its pending results, when the task is its own; of a spawned
strand, the lanes that the task's lanes spawned exit [21 R328]. -/
def Dev.stopStrandFor (d : Dev) (tid : Nat) (st : Strand) : Dev :=
  if st.task = tid ∧ st.kind ≠ .spawned then d.endStrand st.id
  else if st.kind = .spawned then
    let lanes := maskOf fun l => (st.lane l).present && !(st.lane l).exited && (st.lane l).parent == tid
    if lanes = 0 then d
    else if (st.liveLanes &&& ~~~lanes) = 0 then d.endStrand st.id
    else
      let n := ((lanesOf lanes).map fun l => (st.lane l).blocks).sum
      let cut (st : Strand) : Strand :=
        let st := st.exitLanes lanes
        let entries := st.deferred.map fun e => { e with mask := e.mask &&& ~~~lanes }
        let st := { st with deferred := entries.filter fun e => e.mask != 0 }
        let st := (List.finRange 4).foldl (fun st i => st.shrink i lanes) st
        (entries.filter fun e => e.mask == 0).foldl Strand.afterDrop st
      (d.onStrand st.id cut).returnBlocks st.core st.quad st.region n
  else d

/-- The strands of a task stop, its records in trays and its saved context are discarded, and its drains go on [21 R328,
16 R262]. -/
def Dev.stopTask (d : Dev) (tid : Nat) : Dev :=
  let d := d.all.foldl (fun d st => d.stopStrandFor tid st) d
  { d with regions := d.regions.map fun r =>
             { r with trays := mapV r.trays fun t => { t with recs := t.recs.filter fun x => x.parent != tid } }
           saved := d.saved.filter fun x => x.job != tid
           ops := updWhere (fun o => o.task == tid) (fun o => { o with halted := false }) d.ops }

/-- A placed job gives up its core: slots, scratchpad, launch-walk strand. -/
def Dev.unplace (d : Dev) (j : Job) : Dev :=
  let d := (d.all.filter fun st => st.task == j.id && st.kind == .launchWalk).foldl (fun d st => d.endStrand st.id) d
  let d := d.onCore j.core fun k => { k with scratch := k.scratch.filter fun r => r.task != j.id }
  d.updChain j.region fun r => { r with useSlots := r.useSlots - j.strands, useScratch := r.useScratch - j.scratch }

/-- The decrements that a record's end or trigger has still to make are not made [17 R278, 21 R328]. -/
def Dev.dropDecs (d : Dev) (recKey : Nat) : Dev := { d with decs := d.decs.filter fun w => w.owner != recKey }

/-- A task-ending or machine fault strikes a task: it stops at once, its successors are not decremented, and its end follows
with this report. The first fault counts: by cycle, then by core, quadrant, slot and lane [21 R328]. A strand that belongs to no task only stops, and the report goes to its region. -/
def Dev.strike (d : Dev) (tid region : Nat) (r : Report) : Dev :=
  match d.job? tid with
  | none => d.pushReport region r
  | some j =>
    let say (d : Dev) (cancel : Bool) : Dev :=
      d.onJob tid fun j => { j with st := .ending (some { r with task := j.recVa }) cancel, struck := d.cycle }
    match j.st with
    | .ending (some first) cancel => if j.struck = d.cycle ∧ r.rank < first.rank then say d cancel else d
    | .finished _ => d.pushReport region r
    | .placed | .walkFault => say ((d.unplace j).dropDecs j.recKey) false
    | _ => say ((d.stopTask tid).dropDecs j.recKey) false

/-- The tasks that a fault of a strand's lanes ends: the strand's own, or for a spawned strand those whose lanes spawned
the faulting lanes, in the order of the lanes (log 13). -/
def Strand.tasksOf (st : Strand) (lanes : W32) : List Nat :=
  if st.kind = .spawned then
    (lanesOf lanes).foldl (fun ts l => if ts.contains (st.lane l).parent then ts else ts ++ [(st.lane l).parent]) []
  else [st.task]

/-- A fault of a strand's lanes ends their tasks; a strand without a task ends itself [21 R323, R328]. -/
def Dev.strikeLanes (d : Dev) (st : Strand) (lanes : W32) (r : Report) : Dev :=
  let ts := st.tasksOf lanes
  let d := ts.foldl (fun d tid => d.strike tid st.region r) d
  if ts.any fun tid => (d.job? tid).isSome then d else d.endStrand st.id

/-- A strand is one of a task's own: the task launched it, or spawned every lane of it that has not exited [21 R338]. -/
def Strand.serves (st : Strand) (tid : Nat) : Bool :=
  match st.kind with
  | .launchWalk => false
  | .spawned => (List.finRange 32).all fun l => !(st.lane l).present || (st.lane l).exited || (st.lane l).parent == tid
  | .task | .finaliser => st.task == tid

/-- A strand is to stop at a group boundary for a pre-emption [21 R338]. -/
def Dev.halts (d : Dev) (st : Strand) : Bool := d.jobs.any fun j => j.st == .halting && st.serves j.id

/-- A task-ending delivery for the strand in focus [21 R323, R328]. -/
def Dev.endByFault (d : Dev) (t : Trap) (pc : W64) : Dev :=
  d.strikeLanes d.focus t.lanes (t.report d.focus pc)

/-- The counter of 16 bits that stops at its largest value [08 R147]. -/
def sat16 (c : BitVec 16) : BitVec 16 := if c = 0xFFFF then c else c + 1

/-- One more machine check where it is met [21 R336]. -/
def Dev.countMchk (d : Dev) (c : Fin 256) : Dev := d.onCore c fun k => { k with mchk := sat16 k.mchk }

def Dev.countUnc (d : Dev) : Dev := { d with boot := { d.boot with eccunc := satNext d.boot.eccunc } }

/-- Entry to the user handler: the trap CSRs and the handler record are set, the mask is reduced to traplanes, and the
fragment stands at the handler's entry [21 R324, 11 R197]. -/
def Frag.enterUser (f : Frag) (entry : Nat) (handler : W64) (t : Trap) : Frag :=
  let h : HandlerRec :=
    { entry := entry, mask := t.lanes, full := f.mask
      pc := if t.next then f.pc + 12 else f.pc, pos := if t.next then 0 else f.pos, acted := 0 }
  { f with traplanes := t.lanes, trapcause := BitVec.ofNat 32 t.code, trappc := f.pc, trapinfo := t.info, ahead := []
           handler := some h, mask := t.lanes, pc := handler, pos := 0, st := .ready }

/-- Entry to the system handler in the lowest faulting lane alone, nested or not [21 R325, R327]. -/
def Frag.enterSystem (f : Frag) (x : Lane) (l : LaneId) (entry : W64) (t : Trap) (now : Nat) : Frag :=
  let nested : Option NestRec := match f.sysrec with
    | none => none
    | some r => some { syscause := f.syscause, syspc := f.syspc, sysinfo := f.sysinfo, pprv := f.pprv, sys := r }
  let rec' : SysRec :=
    { lane := l, full := f.mask, pos := f.pos, pcIn := f.pc
      regs := (List.range 8).map fun i => x.rg (Fin.ofNat 64 (56 + i)), preds := x.p.toList, since := now }
  { f with syscause := t.cause, syspc := f.pc, sysinfo := t.info, pprv := f.prv, prv := true
           nest := f.nest || nested.isSome, nestrec := if nested.isSome then nested else f.nestrec
           sysrec := some rec', mask := oneLane l, pc := entry, pos := 0, st := .ready, ahead := [] }

/-- A machine check is counted where it is met: HALT's report and a start's are no raising of it [21 R336, 24 R381]. -/
def Dev.raise (d : Dev) (c : Fin 256) (t : Trap) : Dev :=
  if t.repPc.isSome then d else
  let d := if t.delivery = .machine then d.countMchk c else d
  if t.code = 0x21 ∧ t.detail.toNat / 2 ^ 56 < 9 then d.countUnc else d

/-- A fault of the strand in focus is handed to its fragment [21 R322, R323]: to the user handler, to the system
handler, or as the end of the task. A fault of system level is a system fault, whatever its code. A handler begins with
nothing pending: until then the fragment is parked [01 R19]. A fault that names no lanes names the whole fragment
[09 R174]. -/
def Dev.handOver (d : Dev) (slot : Fin 4) (t0 : Trap) : Dev :=
  match d.focus.frag slot with
  | none => d
  | some f =>
    let named := t0.lanes &&& f.mask
    let t := { t0 with lanes := if named = 0 then f.mask else named }
    let st := d.focus
    let r := d.regionOf st
    let park (d : Dev) : Dev := d.onFocus fun st => st.onFrag slot fun f => { f with st := .parked (.entry t) d.cycle }
    let d := d.returnGrants slot
    let system (d : Dev) : Dev :=
      if r.sysEnds ∨ d.sysEntry = 0 then d.endByFault t f.pc
      else if st.settled (oneLane (lowLane t.lanes)) then
        d.onFocus fun st => st.onFrag slot fun f => f.enterSystem (st.lane (lowLane t.lanes)) (lowLane t.lanes) d.sysEntry t d.cycle
      else park d
    let user (d : Dev) : Dev :=
      if st.settled t.lanes then
        (d.onFocus fun st => st.onFrag slot fun f => f.enterUser d.next r.handler t).bump
      else park d
    if t.repPc.isSome then d.endByFault t f.pc
    else if f.prv then
      if f.nest then d.endByFault { t with flags := t.flags ||| 2 } f.pc else system d
    else
      match t.delivery with
      | .ending | .machine => d.endByFault t f.pc
      | .system => system d
      | .user =>
        if f.handler.isSome then d.endByFault { t with flags := t.flags ||| 1 } f.pc
        else if r.handler = 0 then d.endByFault t f.pc
        else user d

/-- A fault is raised in a fragment of the strand in focus. -/
def Dev.deliver (d : Dev) (slot : Fin 4) (t : Trap) : Dev := (d.raise d.focus.core t).handOver slot t

/-- The slot of the fragment that holds a lane. -/
def Strand.slotOf (st : Strand) (l : LaneId) : Option (Fin 4) := (st.live.find? fun x => hasLane x.2.mask l).map Prod.fst

/-- A machine check that a word in flight meets: code of system level takes it as a system fault, and otherwise the lanes'
tasks end [21 R323, R328]. -/
def Dev.lateFault (d : Dev) (sid : Nat) (t : Trap) (pc : W64) : Dev :=
  let d := d.bring sid
  let t := { t with repPc := none }
  let d := d.raise d.focus.core t
  match (d.focus.slotOf (lowLane t.lanes)).bind fun i => (d.focus.frag i).map fun f => (i, f) with
  | some (i, f) => if f.prv then d.handOver i t else d.endByFault t pc
  | none => d.endByFault t pc

/-- A casket word of a strand that has ended met an error: the task that owns the bank ends [21 R335]. -/
def Dev.exitFault (d : Dev) (st : Strand) (pc : W64) (l : LaneId) (addr : Nat) : Dev :=
  let t := { Trap.user 0x21 (oneLane l) 0 with detail := BitVec.ofNat 64 (5 * 2 ^ 56 + addr) }
  (d.raise st.core t).strike (if st.kind = .spawned then (st.lane l).parent else st.task) st.region (t.report st pc)

/-- Lanes of the strand in focus exit: R103 with the blocks returned, and the strand ends with its last lane. -/
def Dev.exitFocus (d : Dev) (slot : Fin 4) (lanes : W32) : Dev :=
  let d := if ((d.focus.frag slot).map fun f => f.mask &&& ~~~lanes) = some 0 then d.returnGrants slot else d
  let st := d.focus
  let n := ((lanesOf lanes).map fun l => (st.lane l).blocks).sum
  let d := d.onFocus fun st => st.exitLanes lanes
  let d := d.onFocus fun st => st.shrink slot lanes
  let d := d.returnBlocks st.core st.quad st.region n
  if !d.focus.ended then d
  else
    let bad := st.flights.flatMap fun f => (d.casketBad st.core f).map fun x => (f.pc, x)
    bad.foldl (fun d x => d.exitFault st x.1 x.2.1 x.2.2) (d.endStrand st.id)

/-- The group's charge enters the core's window; charges that have left it are dropped [22 R351]. -/
def Core.addCharge (k : Core) (cycle n : Nat) : Core :=
  { k with window := (k.window.filter fun x => decide (cycle < x.1 + 256)) ++ (if n = 0 then [] else [(cycle, n)]) }

/-- The registers of a strand, and a strand with other registers. -/
def Strand.regs (st : Strand) : Regs := { lanes := st.lanes, k := st.k, flags := st.flags }

def Lane.withRegs (x r : Lane) : Lane :=
  { x with g := r.g, p := r.p, m := r.m, fpctl := r.fpctl, fpstat := r.fpstat, mxstat := r.mxstat, userscratch := r.userscratch }

def Strand.withRegs (st : Strand) (r : Regs) : Strand :=
  { st with lanes := Vector.ofFn fun l => st.lanes[l].withRegs r.lanes[l], k := r.k, flags := r.flags }

/-- The device as it stood when the group began, but for the numbers and free values that it has drawn. -/
def State.undo (s : State) : Dev :=
  let d : Dev := { s.start with fresh := s.now.fresh, seq := s.now.seq }
  match s.iss.real with
  | none => d
  | some r => d.onFocus fun st => st.withRegs r

/-- A fragment has issued a group, whether or not the group faults [06 R105, 09 R178]. -/
def Frag.hasIssued (f : Frag) : Frag := { f with passed := 0, yield := false, code := [] }

/-- A fault stops the open group: the group writes nothing, and the fault is delivered to the issuing fragment
[02 R28]. The group has issued: it counts in the carat window, its fragment loses its yield mark and has not been passed
over [06 R105, 09 R177, R178]. -/
def State.trap (s : State) (t : Trap) : State :=
  let d := s.undo.onFocus fun st => st.onFrag s.iss.slot Frag.hasIssued
  let d := d.onCore d.focus.core fun k => k.addCharge d.cycle s.iss.charge
  let d := d.deliver s.iss.slot t
  { now := d, start := d, iss := Issue.none }

/-- Raise a fault if there is one; go on otherwise. -/
def orTrap (t : Option Trap) (s : State) (k : State) : Out :=
  match t with
  | some t => .next (s.trap t)
  | none => .next k

/-- The word and its position, as trapinfo holds them for 0x01-0x03 [02 R28]. -/
def wordInfo (w : W32) (pos : Nat) : W64 := BitVec.ofNat 64 (w.toNat + pos * 2 ^ 32)

/-- The bits of the word that now runs. -/
def State.word (s : State) : W32 := s.iss.words.getD (s.iss.pos.val - s.iss.gpos.val) 0

/-- A privileged word at user level raises privileged instruction (0x03) [01 R11]; trapinfo as in R28. -/
def State.needSystem (s : State) (k : Out) : Out :=
  if s.sys then k else .next (s.trap (Trap.user 3 0 (wordInfo s.word s.iss.pos.val)))

/-! ### Leaving a handler -/

/-- A fragment acts on TRET: its lanes are noted, it waits for the rest of the entry mask, and all resume when the
last has acted [06 R107, 09 R174]. -/
def Strand.tret (st : Strand) (slot : Fin 4) (now : Nat) : Strand :=
  match st.frag slot with
  | none => st
  | some f =>
    match f.handler with
    | none => st
    | some h =>
      let st := st.noteTret h.entry f.mask
      let st := st.onFrag slot fun f => { f with st := .parked .tretRest now }
      st.tryResume h.entry

/-- ERET: the entry lane's g56-g63 and p0-p6 come back from the system record, the full mask and the level are
restored, and the fragment goes on at syspc, at the recorded position when syspc was not written. With no system record
it only transfers and sets the level [06 R108, 21 R326, R327]. -/
def Strand.eret (st : Strand) (slot : Fin 4) : Strand :=
  match st.frag slot with
  | none => st
  | some f =>
    match f.sysrec with
    | none => st.onFrag slot fun f => { f with pc := f.syspc, pos := 0, prv := f.pprv }
    | some r =>
      let st := st.onLane r.lane fun x =>
        let x := (List.range 8).foldl (fun x i => x.wg (Fin.ofNat 64 (56 + i)) (r.regs.getD i 0)) x
        { x with p := Vector.ofFn fun i => r.preds.getD i.val false }
      let back (f : Frag) : Frag :=
        { f with pc := f.syspc, pos := if f.syspc = r.pcIn then r.pos else 0, mask := r.full &&& st.liveLanes }
      match f.nestrec with
      | none => st.onFrag slot fun f => { back f with prv := f.pprv, sysrec := none }
      | some n => st.onFrag slot fun f =>
          { back f with syscause := n.syscause, syspc := n.syspc, sysinfo := n.sysinfo, pprv := n.pprv
                        sysrec := some n.sys, nestrec := none, nest := false }

/-! ### Parking and waking [09 R176] -/

/-- A fragment becomes ready again at the next group, its wait over. -/
def Frag.wake (f : Frag) : Frag := { f with st := .ready }

/-- The strand's fragments that wait on settle become ready when their lanes are settled [01 R18]. -/
def Strand.wakeSettled (st : Strand) : Strand :=
  st.mapFrags fun f => match f.st with
    | .parked .settle _ => if st.settled f.mask then f.wake else f
    | _ => f

/-- The handler entries that waited for results are taken when nothing is pending [01 R19]; the fragment in a slot. -/
def Dev.wakeEntry (d : Dev) (slot : Fin 4) : Dev :=
  match d.focus.frag slot with
  | none => d
  | some f =>
    match f.st with
    | .parked (.entry t) _ => (d.onFocus fun st => st.onFrag slot Frag.wake).handOver slot t
    | _ => d

/-- After results of a strand have arrived: fragments that waited for them go on. -/
def Dev.wakeStrand (d : Dev) (sid : Nat) : Dev :=
  let d := d.onStrand sid Strand.wakeSettled
  match d.strand? sid with
  | none => d
  | some st =>
    if st.live.any fun x => match x.2.st with
        | .parked (.entry _) _ => true
        | _ => false
    then (List.finRange 4).foldl (fun d i => d.wakeEntry i) (d.bring sid)
    else d

/-- The wait of a parked fragment. -/
def Dev.waitOf (d : Dev) (sid : Nat) (slot : Fin 4) : Option Wait :=
  match d.strand? sid with
  | none => none
  | some st =>
    match st.frag slot with
    | none => none
    | some f =>
      match f.st with
      | .parked w _ => some w
      | .ready => none

/-! ### Transfers [02 R27, 09 R167-R171] -/

/-- A fragment that a split makes: ready at its target, at position 0; it carries the issuing fragment's records and
CSRs, and nothing that the fragment holds for its group. -/
def Frag.part (f : Frag) (mask : W32) (pc : W64) : Frag :=
  { f with mask := mask, pc := pc, pos := 0, st := .ready, passed := 0, yield := false, skip := 0, pend := none
           grant := 0, bank := [], half := if f.handler.isSome || f.sysrec.isSome then f.half else none, code := [] }

/-- A split group takes the lowest free slot, or the deferred list when no slot is free [09 R168]. -/
def Strand.place (st : Strand) (f : Frag) (mask : W32) (pc : W64) : Strand :=
  match st.freeSlot with
  | some i => st.setFrag i (some (f.part mask pc))
  | none => { st with deferred := st.deferred ++ [{ pc := pc, mask := mask, frag := f.part mask pc }] }

/-- BDIV: the taken lanes become a new fragment when a slot is free; otherwise they keep the slot and the others go to
the deferred list [09 R167]. -/
def Strand.divide (st : Strand) (slot : Fin 4) (f : Frag) (taken other : W32) (target : W64) : Strand :=
  let move (mask : W32) (pc : W64) : Strand := st.onFrag slot fun f => { f with mask := mask, pc := pc, pos := 0 }
  if other = 0 then move f.mask target
  else if taken = 0 then move f.mask (f.pc + 12)
  else if st.freeSlot.isSome then (move other (f.pc + 12)).place f taken target
  else (move taken target).place f other (f.pc + 12)

/-- JMPR: the first group keeps the slot, each later one takes a slot or the deferred list in rank order
[09 R168]. -/
def Strand.splitBy (st : Strand) (slot : Fin 4) (f : Frag) : List (W32 × W64) → Strand
  | [] => st
  | g :: gs =>
    gs.foldl (fun st x => st.place f x.1 x.2) (st.onFrag slot fun f => { f with mask := g.1, pc := g.2, pos := 0 })

/-- A fragment with lanes that have joined it; its handler and system records hold them too, so that they go where it
goes (log 14). -/
def Frag.takeIn (f : Frag) (lanes : W32) (entry : Option Nat) : Frag :=
  { f with mask := f.mask ||| lanes
           handler := f.handler.map fun h =>
             if entry = some h.entry then h else { h with mask := h.mask ||| lanes, full := h.full ||| lanes }
           sysrec := f.sysrec.map fun (r : SysRec) => { r with full := r.full ||| lanes } }

/-- The records of a handler entry forget lanes that have gone over to another fragment (log 14). -/
def Strand.leaveEntry (st : Strand) (slot : Fin 4) (f : Frag) (h : HandlerRec) : Strand :=
  let less (h : HandlerRec) : HandlerRec := { h with mask := h.mask &&& ~~~f.mask, full := h.full &&& ~~~f.mask }
  let forget (g : Frag) : Frag := { g with handler := g.handler.map fun r => if r.entry = h.entry then less r else r }
  let st : Strand := { st.mapFrags forget with deferred := st.deferred.map fun e => { e with frag := forget e.frag } }
  st.afterLeave slot f (less h)

/-- JOIN: the fragment joins one that waits at the same point, or waits there itself [09 R171]. Lanes that its records
held, and that do not join, go on as when it exits (log 14). -/
def Strand.join (st : Strand) (slot : Fin 4) (f : Frag) (now : Nat) : Strand :=
  match st.live.find? fun x => x.1 != slot && x.2.joinWaits && x.2.pc == f.pc with
  | some x =>
    let entry := f.handler.map HandlerRec.entry
    let st := st.setFrag slot (f.heldBySystem (st.liveLanes &&& ~~~f.mask))
    let st := st.onFrag x.1 fun y => y.takeIn f.mask entry
    let st := match f.handler with
      | none => st
      | some h => if x.2.handler.map HandlerRec.entry = entry then st else st.leaveEntry slot f h
    st.refill.releaseJoins
  | none => (st.onFrag slot fun f => { f with st := .parked .join now }).releaseJoins

/-- A group has issued again: the handles that it read are released again, what stood in their registers is back, and the
fragment goes on where it stood [10 R194]. -/
def Dev.endAside (d : Dev) (slot : Fin 4) (f : Frag) : Dev :=
  let at_ := (f.pc, f.pos)
  let d := (lanesOf f.mask).foldl (fun d l =>
    ((d.focus.lane l).stow.filter fun y => y.at_ == at_).foldl (fun d y =>
      let d := if ((d.focus.lane l).rm y.reg).isSome then d.freeHandle l y.reg else d
      d.onFocus fun st => st.onLane l fun x => { x.wm y.reg y.h with stow := x.stow.filter fun z => z != y }) d) d
  d.onFocus fun st => (st.setFrag slot (f.backAside st.liveLanes)).refill

/-- The transfer of a group takes effect on the fragment of the strand in focus [02 R27]. A group that issues again has
made its transfer before: its fragment goes back to where it stood [10 R194]. -/
def Dev.transfer (d : Dev) (slot : Fin 4) (x : Xfer) : Dev :=
  match d.focus.frag slot with
  | none => d
  | some f =>
    if f.aside.isSome then d.endAside slot f else
    match x with
    | .fall pc pos => d.onFocus fun st => st.onFrag slot fun f => { f with pc := pc, pos := pos }
    | .goto pc => d.onFocus fun st => st.onFrag slot fun f => { f with pc := pc, pos := 0 }
    | .div t n pc => d.onFocus fun st => st.divide slot f t n pc
    | .split gs => d.onFocus fun st => st.splitBy slot f gs
    | .exit lanes => (d.onFocus fun st => st.onFrag slot fun f => { f with pc := f.pc + 12, pos := 0 }).exitFocus slot lanes
    | .join => d.onFocus fun st => st.join slot f d.cycle
    | .tret => d.onFocus fun st => st.tret slot d.cycle
    | .eret => if d.focus.kind = .launchWalk ∧ f.sysrec.isNone then d.exitFocus slot f.mask else d.onFocus fun st => st.eret slot
    | .yield => d.onFocus fun st => st.onFrag slot fun f => { f with pc := f.pc + 12, pos := 0, yield := true, skip := d.cycle + 1 }

/-- A parked fragment goes on: the wait word that parked it has completed, and the group's transfer takes effect. -/
def Dev.wakeFrag (d : Dev) (sid : Nat) (slot : Fin 4) : Dev :=
  let d := d.bring sid
  match d.focus.frag slot with
  | none => d
  | some f =>
    let d := d.onFocus fun st => st.onFrag slot fun f => { f with st := .ready, pend := none }
    match f.pend with
    | none => d
    | some x => d.transfer slot x

/-- A change that an event makes to the device. -/
def State.event (s : State) (f : Dev → Dev) : Out := .next (s.onDev f)

end Sys2Proof.Machine
end

