-- ==== Sys2Proof/Machine/Mmu.lean ====
section
/-! DEFINITION. Address translation: page walks, the translation caches, leases and captures, hotness counts, and the
access checks that every memory word makes [13 R200-R216, R392]. -/

namespace Sys2Proof.Machine

/-- What an access does, with its code in syscause [13 R208]. -/
inductive Access where
  | read | write | fetch | atomic
  deriving DecidableEq, Repr

def Access.code : Access → Nat
  | .read => 0
  | .write => 1
  | .fetch => 2
  | .atomic => 3

/-- Why an access fails: the fault, its reason, the walk level and the address [13 R208]; for a machine check the unit
and location [21 R336]. -/
structure Fail where
  code   : Nat
  reason : Nat
  level  : Nat
  va     : Nat
  detail : W64
  deriving DecidableEq, Repr

/-- The fault of an access, with syscause and sysinfo laid out [13 R208]. -/
def Fail.trap (x : Fail) (acc : Access) (lanes : W32) (lw : Nat) : Trap where
  code := x.code
  reason := x.reason
  cause := if 0x10 ≤ x.code ∧ x.code ≤ 0x13 then
      BitVec.ofNat 32 (lw * 2 ^ 16 + x.reason * 2 ^ 12 + x.level * 2 ^ 10 + acc.code * 2 ^ 8 + x.code)
    else BitVec.ofNat 32 x.code
  lanes := lanes
  info := BitVec.ofNat 64 x.va
  object := if 0x10 ≤ x.code ∧ x.code ≤ 0x13 then BitVec.ofNat 64 x.va else 0
  flags := 0
  detail := x.detail
  next := false
  repPc := none

def Fail.mk' (code reason level va : Nat) : Fail := { code := code, reason := reason, level := level, va := va, detail := 0 }

/-! ### Page tables [13 R204-R207] -/

/-- Bits [63:57] of a canonical address equal bit 56 [13 R200]. -/
def canonical (va : Nat) : Bool := va / 2 ^ 56 % 2 ^ 8 == 0 || va / 2 ^ 56 % 2 ^ 8 == 255

/-- The low 57 bits, which the walk indexes. -/
def va57 (va : Nat) : Nat := va % 2 ^ 57

def walkIndex (level va : Nat) : Nat :=
  match level with
  | 0 => va / 2 ^ 55 % 4
  | 1 => va / 2 ^ 42 % 8192
  | 2 => va / 2 ^ 29 % 8192
  | _ => va / 2 ^ 16 % 8192

/-- The size of a page that a leaf at a level maps [13 R204]. -/
def pageSize (level : Nat) : Nat :=
  match level with
  | 1 => 2 ^ 42
  | 2 => 2 ^ 29
  | _ => 2 ^ 16

/-- Device memory ends here [13 R206]. -/
def dramEnd : Nat := 0x6000000000

def pteBits (e : W64) (lo n : Nat) : Nat := e.toNat / 2 ^ lo % 2 ^ n
def pteKind (e : W64) : Nat := pteBits e 5 2
def pteAc (e : W64) : Nat := pteBits e 7 2
def pteHot (e : W64) : Bool := e.getLsbD 9

/-- The leaf grants what an access needs [13 R207]. -/
def grants (e : W64) : Access → Bool
  | .read => e.getLsbD 2
  | .write => e.getLsbD 3
  | .fetch => e.getLsbD 4
  | .atomic => e.getLsbD 2 && e.getLsbD 3

/-- The physical page base of a leaf, bits [59:16]. -/
def pteBase (e : W64) : Nat := pteBits e 16 44 * 2 ^ 16

/-- A leaf keeps the zero bits and the alignment that its level and its kind ask for [13 R205, R206]. -/
def leafFormed (level : Nat) (e : W64) : Bool :=
  pteBits e 60 4 == 0 && pteBits e 10 6 == 0 && level != 0 && pteBase e % pageSize level == 0 &&
  (match pteKind e with
   | 0 => pteBits e 39 21 == 0
   | 1 => pteBits e 43 17 == 0
   | _ => true)

/-- The offset of an address lies in the checked range of its leaf's kind [13 R206]. -/
def leafInRange (x : Xlat) (va : Nat) : Bool :=
  let pa := pteBase x.leaf + (va57 va - x.base)
  match pteKind x.leaf with
  | 0 => decide (pa < dramEnd)
  | 1 => decide (pa < Config.cxlBytes)
  | _ => true

/-- The memory key of an address under a translation [13 R206]. A peer leaf of the device's own rank reaches its own
memory. -/
def Xlat.key (x : Xlat) (va : Nat) : Nat :=
  let off := va57 va - x.base
  match pteKind x.leaf with
  | 0 => pteBase x.leaf + off
  | 1 => Key.cxl (pteBase x.leaf + off)
  | 2 => Key.host (pteBits x.leaf 59 1) (pteBits x.leaf 16 43 * 2 ^ 16 + off)
  | _ =>
    let a := pteBits x.leaf 16 32 * 2 ^ 16 + off
    if pteBits x.leaf 48 12 = Config.devid.toNat then a else Key.peer (pteBits x.leaf 48 12) a

/-! ### Errors of memory words [21 R334-R336] -/

/-- Unit 10 and the location of an expansion address [23 R363]. -/
def cxlDetail (a : Nat) : W64 := BitVec.ofNat 64 (10 * 2 ^ 56 + (Config.cxlPort a).val * 2 ^ 48 + a % 2 ^ 43)

/-- Unit 12 and the location of a host address [23 R363]. -/
def hostDetail (port : Fin 2) (a : Nat) : W64 := BitVec.ofNat 64 (12 * 2 ^ 56 + port.val * 2 ^ 48 + a % 2 ^ 48)

/-- The unit of an error in a word of device memory: device memory, or the L2 slice that holds the word then; which, is
open (log 27). -/
def deviceUnit (k : Nat) : Nat := Config.freeChoice k % 2

/-- The unit and location of an uncorrectable error at a key [21 R336, 23 R363]. -/
def eccDetail (k : Nat) : W64 :=
  if 2 ^ 96 ≤ k then BitVec.ofNat 64 (8 * 2 ^ 56 + Config.savePlace k % 2 ^ 56)
  else if 65536 * 2 ^ 64 ≤ k then BitVec.ofNat 64 (7 * 2 ^ 56 + k / 8 % 4)
  else if 49152 * 2 ^ 64 ≤ k then BitVec.ofNat 64 (3 * 2 ^ 56 + k / 2 ^ 16 % 4 * 2 ^ 16 + k / 8 % 2 ^ 13)
  else if 32768 * 2 ^ 64 ≤ k then
    BitVec.ofNat 64 (2 * 2 ^ 56 + k / 2 ^ 64 % 256 * 2 ^ 24 + k / 2 ^ 17 % 4 * 2 ^ 16 + k / 2 ^ 8 % 32 * 2 ^ 8 + k / 4 % 64)
  else if 16384 * 2 ^ 64 ≤ k then BitVec.ofNat 64 (5 * 2 ^ 56 + k % 2 ^ 22)
  else if 8192 * 2 ^ 64 ≤ k then BitVec.ofNat 64 (4 * 2 ^ 56 + k % 2 ^ 20)
  else if 16 * 2 ^ 64 ≤ k then BitVec.ofNat 64 (11 * 2 ^ 56 + (k / 2 ^ 64 - 16) % 4096 * 2 ^ 44 + k % 2 ^ 44)
  else if 3 * 2 ^ 64 ≤ k then hostDetail 1 (k % 2 ^ 64)
  else if 2 * 2 ^ 64 ≤ k then hostDetail 0 (k % 2 ^ 64)
  else if 2 ^ 64 ≤ k then cxlDetail (k - 2 ^ 64)
  else BitVec.ofNat 64 (deviceUnit k * 2 ^ 56 + k % 2 ^ 56)

/-- A 64-bit word meets the bytes of a run. -/
def Run.meetsWord (r : Run) (w : Nat) : Bool := decide (8 * w < r.key + r.len) && decide (r.key < 8 * w + 8)

/-- An access reads a word of a run: a load does, and a write that covers it only in part [21 R335]. -/
def Access.readsWord (acc : Access) (r : Run) (w : Nat) : Bool := r.meetsWord w && (acc != .write || !covers r.key r.len w)

/-- A word with an uncorrectable error that an access to a run reads [21 R335]. -/
def Dev.eccHit (d : Dev) (acc : Access) (r : Run) : Option Nat := d.eccBad.find? fun w => acc.readsWord r w

/-- Single-bit errors that an access meets are corrected and counted [21 R334, 24 R381]. -/
def Dev.correct (d : Dev) (acc : Access) (r : Run) : Dev :=
  if d.eccOne.isEmpty then d else
  { d with eccOne := d.eccOne.filter fun w => !acc.readsWord r w
           boot := { d.boot with ecccorr := (d.eccOne.filter fun w => acc.readsWord r w).foldl (fun v _ => satNext v) d.boot.ecccorr } }

/-- The machine check of an access that reads a word with an uncorrectable error [21 R335]. -/
def Fail.ecc (va w : Nat) : Fail := { code := 0x21, reason := 0, level := 0, va := va, detail := eccDetail (8 * w) }

/-! ### Walks [13 R204-R206] -/

/-- Walk the tables of a region from the table of a level, `n` levels being left, to a leaf [13 R204-R206]. -/
def Dev.walkFrom (d : Dev) (r : Region) (va : Nat) : Nat → Nat → Nat → Except Fail Xlat
  | 0, level, _ => .error (Fail.mk' 0x10 2 level va)
  | n + 1, level, table =>
    let k := table + 8 * walkIndex level va
    let e : W64 := BitVec.ofNat 64 (Mem.num d.mem k 8)
    let fails (reason : Nat) : Except Fail Xlat := .error (Fail.mk' 0x10 reason level va)
    match d.eccHit .read { key := k, len := 8 } with
    | some w => .error (Fail.ecc va w)
    | none =>
      if !e.getLsbD 0 then fails 0
      else if e.getLsbD 1 then
        if !leafFormed level e then fails 2
        else
          let x : Xlat :=
            { region := r.id, root := r.ptbase, base := va57 va - va57 va % pageSize level, size := pageSize level, leaf := e }
          if leafInRange x va then .ok x else fails 3
      else if pteBits e 60 4 ≠ 0 ∨ pteBits e 39 21 ≠ 0 ∨ n = 0 then fails 2
      else if pteBase e ≥ dramEnd then fails 3
      else d.walkFrom r va n (level + 1) (pteBase e)

/-- A walk of a region's tables [13 R204]. The root table's address is ptbase. -/
def Dev.walk (d : Dev) (r : Region) (va : Nat) : Except Fail Xlat := d.walkFrom r va 4 0 r.ptbase.toNat

/-- The entries that a walk reads. -/
def Dev.walkReads (d : Dev) (va : Nat) : Nat → Nat → Nat → List Run
  | 0, _, _ => []
  | n + 1, level, table =>
    let k := table + 8 * walkIndex level va
    let e : W64 := BitVec.ofNat 64 (Mem.num d.mem k 8)
    { key := k, len := 8 } :: (if e.getLsbD 0 && !e.getLsbD 1 then d.walkReads va n (level + 1) (pteBase e) else [])

/-- The single-bit errors that a walk meets are corrected and counted [21 R334]. -/
def Dev.correctWalk (d : Dev) (r : Region) (va : Nat) : Dev :=
  if d.eccOne.isEmpty then d else (d.walkReads va 4 0 r.ptbase.toNat).foldl (fun d x => d.correct .read x) d

/-! ### Translation caches [13 R213-R216] -/

def Xlat.holds (x : Xlat) (region va : Nat) : Bool :=
  x.region == region && decide (x.base ≤ va57 va) && decide (va57 va < x.base + x.size)

/-- Where a translation came from; a capture by the number of its range. -/
inductive Via where
  | lane | tlb | walk | scratch
  | capture (range : Nat)
  deriving DecidableEq, Repr

/-- One page's share of an access: the bytes reached, the translation and where it came from. -/
structure Piece where
  run : Run
  acc : Access
  va  : Nat
  x   : Option Xlat
  via : Via
  deriving DecidableEq, Repr

/-- The level of a leaf's page. -/
def leafLevel (x : Xlat) : Nat := if x.size = 2 ^ 42 then 1 else if x.size = 2 ^ 29 then 2 else 3

/-- Translate an address for a lane: its last-page register, then the core's buffer, then a walk. A cached translation
without the right, or out of its range, is not used: the tables are walked again [13 R213-R215]. -/
def Dev.lookup (d : Dev) (r : Region) (c : Fin 256) (last : Option Xlat) (acc : Access) (va : Nat) :
    Except Fail (Xlat × Via) :=
  let usable (x : Xlat) : Bool := x.holds r.id va && grants x.leaf acc && leafInRange x va
  let fresh : Except Fail (Xlat × Via) :=
    match d.walk r va with
    | .error e => .error e
    | .ok x => if grants x.leaf acc then .ok (x, .walk) else .error (Fail.mk' 0x11 0 (leafLevel x) va)
  match last.filter usable with
  | some x => .ok (x, .lane)
  | none =>
    match (d.core c).tlb.find? fun e => usable e.x with
    | some e => .ok (e.x, .tlb)
    | none => fresh

/-- The rank and the address of a peer's key. -/
def peerOf (k : Nat) : Option (Nat × Nat) :=
  if 16 * 2 ^ 64 ≤ k ∧ k < 4112 * 2 ^ 64 then some (k / 2 ^ 64 - 16, k % 2 ^ 64) else none

/-- A hotness count is added to a shadow entry, saturating [13 R216]. -/
def Dev.addHot (d : Dev) (k count : Nat) : Dev := (d.storeNum k 4 (min 0xFFFFFFFF (d.num k 4 + count))).trigger k 4

/-- Counting is on in a region: hotbase is not 0, its bits [1:0] apart [13 R216]. -/
def Region.counts (r : Region) : Bool := decide (4 ≤ r.hotbase.toNat)

/-- A count that the translation caches give up is added into the shadow table, saturating, as an atomic does; it is
discarded when the shadow address does not translate with W [13 R216]. An entry at a peer is reached by a transaction. -/
def Dev.addShadow (d : Dev) (region base count : Nat) : Dev :=
  match d.region? region with
  | none => d
  | some r =>
    if count = 0 ∨ !r.counts then d else
    let va := (r.hotbase.toNat / 4 * 4 + 4 * (base / 2 ^ 16)) % 2 ^ 64
    if !canonical va then d else
    match d.walk r va with
    | .error _ => d
    | .ok x =>
      if !grants x.leaf .write then d
      else
        let d := d.correctWalk r va
        match peerOf (x.key va) with
        | none => d.addHot (x.key va) count
        | some (rank, a) => { d with heldTx := d.heldTx ++ [{ rank := rank, op := .hot a count, owner := .hot }] }

/-- A translation leaves a core's buffer: last-page registers that hold it become empty, and its count is added to the
shadow table [13 R213, R216]. -/
def Dev.dropXlat (d : Dev) (c : Fin 256) (e : TlbEntry) : Dev :=
  let clear (st : Strand) : Strand :=
    if st.core = c then
      { st with lanes := mapV st.lanes fun l => if l.lastPage = some e.x then { l with lastPage := none } else l }
    else st
  let d := d.mapStrands clear
  let d := d.onCore c fun k => { k with tlb := k.tlb.filter fun y => y != e }
  if pteHot e.x.leaf then d.addShadow e.x.region e.x.base e.count else d

/-- Invalidate the entries of a core that satisfy a test, and the last-page registers that hold them [06 R110]. -/
def Dev.sweep (d : Dev) (c : Fin 256) (hit : Xlat → Bool) : Dev :=
  let clear (st : Strand) : Strand :=
    if st.core = c then { st with lanes := mapV st.lanes fun l => { l with lastPage := l.lastPage.filter fun x => !hit x } } else st
  ((d.core c).tlb.filter fun e => hit e.x).foldl (fun d e => d.dropXlat c e) (d.mapStrands clear)

/-- A translation that a walk of an address made enters a core's buffer, once. It replaces a stale entry that holds the
address; when the buffer is full, an open choice of entry is evicted (log 16) [13 R213, R215]. -/
def Dev.fillTlb (d : Dev) (c : Fin 256) (x : Xlat) (va : Nat) : Dev :=
  let stale := (d.core c).tlb.filter fun e => e.x.holds x.region va && e.x != x
  let d := stale.foldl (fun d e => d.dropXlat c e) d
  if (d.core c).tlb.any fun e => e.x == x then d else
  let d :=
    if (d.core c).tlb.length < 2048 then d else
    match (d.core c).tlb[Config.freeChoice d.fresh % 2048]? with
    | none => d
    | some e => (d.dropXlat c e).drew
  d.onCore c fun k => { k with tlb := k.tlb ++ [{ x := x, count := 0 }] }

/-- An access through a translation counts: its leaf has H, and counting is on in its region [13 R216]. -/
def Dev.countsHot (d : Dev) (x : Xlat) : Bool := pteHot x.leaf && ((d.region? x.region).map Region.counts).getD false

/-- One access has translated through an entry: its hotness count rises, at most to 255 [13 R216]. -/
def Dev.countHit (d : Dev) (c : Fin 256) (x : Xlat) : Dev :=
  if d.countsHot x then
    d.onCore c fun k => { k with tlb := updWhere (fun e => e.x == x) (fun e => { e with count := min 255 (e.count + 1) }) k.tlb }
  else d

/-- An access through the capture of a lease range counts in the same way [13 R216]. -/
def Dev.countCapture (d : Dev) (tid range : Nat) (x : Xlat) : Dev :=
  if d.countsHot x then
    d.onJob tid fun j =>
      { j with caps := updWhere (fun e => e.range == range && e.x == x) (fun e => { e with count := min 255 (e.count + 1) }) j.caps }
  else d

/-- The translations that an access of a lane made: one share of each page, the last of them last [13 R213, R216]. -/
def pagesOf : List Piece → List Piece
  | [] => []
  | p :: ps =>
    if ps.any fun q => q.x == p.x && q.via == p.via then pagesOf ps else p :: pagesOf ps

/-- A translation that a cache or a capture gave counts where it stands [13 R216]. -/
def Dev.hitPage (d : Dev) (p : Piece) : Dev :=
  match p.x, p.via with
  | some x, .lane | some x, .tlb => d.countHit d.focus.core x
  | some x, .capture range => d.countCapture d.focus.task range x
  | some _, .walk | some _, .scratch | none, _ => d

/-- A translation that a walk gave enters the core's buffer and counts there [13 R213, R216]. -/
def Dev.fillPage (d : Dev) (p : Piece) : Dev :=
  match p.x, p.via with
  | some x, .walk => ((d.correctWalk (d.regionOf d.focus) p.va).fillTlb d.focus.core x p.va).countHit d.focus.core x
  | some _, .lane | some _, .tlb | some _, .capture _ | some _, .scratch | none, _ => d

/-- The translation that a lane's access leaves in its last-page register: the last one that the buffer or a walk gave,
while the buffer, which is inclusive, holds it [13 R213]. -/
def Dev.rememberPage (d : Dev) (l : LaneId) (ps : List Piece) : Dev :=
  match (ps.filter fun p => p.via == .lane || p.via == .tlb || p.via == .walk).getLast?.bind Piece.x with
  | none => d
  | some x =>
    if (d.core d.focus.core).tlb.any fun e => e.x == x then
      d.onFocus fun st => st.onLane l fun y => { y with lastPage := some x }
    else d

/-- The caches after the accesses of a word, by lane (none for a fetch or a uniform access): each translation of a lane
counts once, and what walks gave is filled in after what the caches gave has counted [13 R213, R216]. -/
def Dev.touchPages (d : Dev) (as : List (Option LaneId × List Piece)) : Dev :=
  let pages := as.flatMap fun a => pagesOf a.2
  let d := pages.foldl Dev.hitPage d
  let d := pages.foldl Dev.fillPage d
  as.foldl (fun d a => match a.1 with
    | none => d
    | some l => d.rememberPage l a.2) d

/-- The caches and the error counts after the accesses of a word [13 R213, R216; 21 R334]. -/
def Dev.touch (d : Dev) (as : List (Option LaneId × List Piece)) : Dev :=
  (as.foldl (fun d a => a.2.foldl (fun d p => d.correct p.acc p.run) d) d).touchPages as

/-! ### Leases [13 R209-R211, R392] -/

def LeaseRange.allows (r : LeaseRange) : Access → Bool
  | .read => r.r
  | .write => r.w
  | .fetch => true
  | .atomic => r.r && r.w

def LeaseRange.has (r : LeaseRange) (va : Nat) : Bool := decide (r.base ≤ va) && decide (va < r.base + r.len)

/-- The first byte from `va` up to `stop` that lies in no range; `stop` when every byte lies in some range. -/
def uncovered (rs : List LeaseRange) : Nat → Nat → Nat → Nat
  | 0, va, _ => va
  | n + 1, va, stop =>
    if va ≥ stop then stop else
    match rs.filter fun r => r.has va with
    | [] => va
    | hit => uncovered rs n (hit.foldl (fun m r => max m (r.base + r.len)) va) stop

/-- Every byte of an access lies in some range. -/
def uncoveredIn (rs : List LeaseRange) (va len : Nat) : Nat := uncovered rs (rs.length + 1) va (va + len)

/-- How the lease ranges let an access through: inside ranges that grant it, or translated normally. -/
inductive LeaseWay where
  | inside
  | normal
  deriving DecidableEq, Repr

/-- The ranges of a strand: its task's list and then its region's; a spawned strand's and a finaliser's are its
region's alone [13 R211]. -/
def Dev.rangesOf (d : Dev) (st : Strand) (r : Region) : List LeaseRange :=
  (match st.kind, d.job? st.task with
   | .task, some j => j.leases
   | _, _ => []) ++ r.leases

/-- The lowest address of an access from `va` in the 64 KiB page of one of its bytes [13 R208]. -/
def firstOfPage (va byte : Nat) : Nat := if va / 2 ^ 16 = byte / 2 ^ 16 then va else byte / 2 ^ 16 * 2 ^ 16

/-- Step 3 of the access checks [13 R211, R392]. -/
def leaseWay (ranges : List LeaseRange) (faulting walk : Bool) (acc : Access) (va len : Nat) : Except Fail LeaseWay :=
  if walk ∨ acc = .fetch then .ok .normal else
  let out := uncoveredIn ranges va len
  if out < va + len then
    if faulting then .ok .normal else .error (Fail.mk' 0x12 0 0 (firstOfPage va out))
  else
    let bad := uncoveredIn (ranges.filter fun r => r.allows acc) va len
    if bad < va + len then .error (Fail.mk' 0x12 1 0 (firstOfPage va bad)) else .ok .inside

/-! ### Access checks [13 R211] -/

def scratchBase : Nat := 0x00FF000000000000
def inScratch (va : Nat) : Bool := decide (scratchBase ≤ va) && decide (va < scratchBase + 2 ^ 32)

/-- The scratchpad allocation of a strand: first KiB and KiB; a spawned strand has none [13 R202]. -/
def Dev.scratchOf (d : Dev) (st : Strand) : Nat × Nat :=
  match st.kind, d.job? st.task with
  | .task, some j => (j.sbase, j.scratch)
  | _, _ => (0, 0)

/-- The detail of a machine check where a key lies behind a CXL port or a host port that is down [23 R363, R369, R375]. -/
def Dev.portDown (d : Dev) (k : Nat) : Option W64 :=
  if 2 ^ 64 ≤ k ∧ k < 2 * 2 ^ 64 then
    if d.cxlUp[Config.cxlPort (k - 2 ^ 64)] then none
    else some (cxlDetail (k - 2 ^ 64))
  else if 2 * 2 ^ 64 ≤ k ∧ k < 4 * 2 ^ 64 then
    let port : Fin 2 := if k < 3 * 2 ^ 64 then 0 else 1
    if d.host.portUp[port] then none else some (hostDetail port (k % 2 ^ 64))
  else none

/-- The same of the first byte of a run that lies behind such a port. -/
def Dev.runDown (d : Dev) (run : Run) : Option W64 :=
  if run.key < 2 ^ 64 ∨ 4 * 2 ^ 64 ≤ run.key then none else (List.range run.len).findSome? fun i => d.portDown (run.key + i)

/-- The machine check of an access to a run: a word with an uncorrectable error, or a port that is down
[21 R335; 23 R369, R375]. -/
def Dev.runFail (d : Dev) (acc : Access) (va : Nat) (run : Run) : Option Fail :=
  match d.eccHit acc run with
  | some w => some (Fail.ecc va w)
  | none => (d.runDown run).map fun detail => { code := 0x21, reason := 0, level := 0, va := va, detail := detail }

/-- The range that an access uses at a byte, by its number: the first that holds it and grants the rights; and the bytes,
at most `len`, up to where another range takes over [13 R211]. -/
def rangeAt (ranges : List LeaseRange) (acc : Access) (va len : Nat) : Option (Nat × Nat) :=
  let rs := ranges.zipIdx.filter fun x => x.1.allows acc
  match rs.find? fun x => x.1.has va with
  | none => none
  | some x =>
    let stop := (rs.filter fun y => decide (y.2 < x.2 ∧ va < y.1.base)).foldl (fun m y => min m y.1.base) (x.1.base + x.1.len)
    some (x.2, min len (stop - va))

/-- The capture of a range that holds an address [13 R210, R211]. -/
def Job.captureOf (j : Job) (range region va : Nat) : Option Xlat :=
  (j.caps.find? fun c => c.range == range && c.x.holds region va).map Capture.x

/-- The part of an access that lies in one 64 KiB block, through the capture of a lease range where the strand's task has
one: its translation, or its fault. The bytes that an engine is to reach later (`eng`) meet no machine check yet
[16 R250]. -/
def Dev.piece (d : Dev) (eng : Bool) (st : Strand) (r : Region) (last : Option Xlat) (range : Option Nat) (acc : Access) (va len : Nat) :
    Except Fail Piece :=
  if !canonical va then .error (Fail.mk' 0x10 1 0 va)
  else if inScratch va then
    let off := va - scratchBase
    let (base, kib) := d.scratchOf st
    let run : Run := { key := Key.scratch st.core (base * 1024 + off), len := len }
    if acc = .fetch then .error (Fail.mk' 0x11 0 0 va)
    else if kib * 1024 < off + len then .error (Fail.mk' 0x11 1 0 va)
    else match if eng then none else d.runFail acc va run with
      | some e => .error e
      | none => .ok { run := run, acc := acc, va := va, x := none, via := .scratch }
  else
    let cap : Option (Xlat × Via) := match range, st.kind, d.job? st.task with
      | some i, .task, some j => (j.captureOf i r.id va).map fun x => (x, .capture i)
      | _, _, _ => none
    let found : Except Fail (Xlat × Via) := match cap with
      | some x => .ok x
      | none => d.lookup r st.core last acc va
    match found with
    | .error e => .error e
    | .ok (x, via) =>
      if !leafInRange x (va + len - 1) then .error (Fail.mk' 0x10 3 (leafLevel x) va) else
      let run : Run := { key := x.key va, len := len }
      match if eng then none else d.runFail acc va run with
      | some e => .error e
      | none => .ok { run := run, acc := acc, va := va, x := some x, via := via }

/-- An access cut at 64 KiB boundaries, and inside the leases where another range takes over; each part is checked in
ascending order, and `fuel` bounds the parts. -/
def Dev.pieces (d : Dev) (eng : Bool) (st : Strand) (r : Region) (last : Option Xlat) (way : LeaseWay) (acc : Access) :
    Nat → Nat → Nat → Except Fail (List Piece)
  | 0, _, _ => .ok []
  | n + 1, va, len =>
    if len = 0 then .ok [] else
    let block := min len (2 ^ 16 - va % 2 ^ 16)
    let found := match way with
      | .inside => rangeAt (d.rangesOf st r) acc va block
      | .normal => none
    let part := (found.map Prod.snd).getD block
    match d.piece eng st r last (found.map Prod.fst) acc va part with
    | .error e => .error e
    | .ok p =>
      match d.pieces eng st r last way acc n ((va + part) % 2 ^ 64) (len - part) with
      | .error e => .error e
      | .ok ps => .ok (p :: ps)

/-- The first byte of an access that is not canonical [13 R200]. -/
def uncanonicalIn (va len : Nat) : Option Nat :=
  if !canonical va then some va else if va < 2 ^ 56 ∧ 2 ^ 56 < va + len then some (2 ^ 56) else none

/-- The checks of R211 for one access of a strand: canonical form, the scratchpad window, leases, translation, rights;
the pages' shares in ascending order. An access of no byte meets no check. DESIGN CHOICE (log 60): the leases are asked for every
byte of an access that begins in page-mapped space, those in the scratchpad window among them. -/
def Dev.accessBy (d : Dev) (eng : Bool) (st : Strand) (last : Option Xlat) (acc : Access) (va len : Nat) : Except Fail (List Piece) :=
  let r := d.regionOf st
  if len = 0 then .ok [] else
  match uncanonicalIn va len with
  | some a => .error (Fail.mk' 0x10 1 0 (firstOfPage va a))
  | none =>
    let ranges := d.rangesOf st r
    let way : Except Fail LeaseWay :=
      if inScratch va then .ok .normal
      else leaseWay ranges r.faulting (st.kind == .launchWalk) acc va len
    match way with
    | .error e => .error e
    | .ok way => d.pieces eng st r last way acc (len / 2 ^ 16 + 2 + 2 * ranges.length) va len

/-- The access of a lane. -/
def Dev.access (d : Dev) (st : Strand) (last : Option Xlat) (acc : Access) (va len : Nat) : Except Fail (List Piece) :=
  d.accessBy false st last acc va len

/-- Runs that follow one another are one. -/
def joinRuns : List Run → List Run
  | [] => []
  | r :: rs =>
    match joinRuns rs with
    | [] => [r]
    | x :: xs => if x.key = r.key + r.len then { key := r.key, len := r.len + x.len } :: xs else r :: x :: xs

/-- The runs that an access reaches. -/
def runsOf (ps : List Piece) : List Run := joinRuns (ps.map Piece.run)

/-- The key of the first byte that an access reaches; where nothing is reached, key 0. -/
def keyOf (ps : List Piece) : Nat := match ps with
  | [] => 0
  | p :: _ => p.run.key

/-- The scheduler's own access to a record: translation and rights in a region's space, no lease [17 R273]. -/
def Dev.schedKey (d : Dev) (space : Nat) (acc : Access) (va : Nat) : Option (Nat × W64) :=
  match d.region? space with
  | none => none
  | some r =>
    if !canonical va then none else
    match d.walk r va with
    | .error _ => none
    | .ok x => if grants x.leaf acc then some (x.key va, x.leaf) else none

/-- Of the lanes that fail, the lowest-numbered one is reported, with the lanes that fail in the same way
[21 R333, 13 R208]. -/
def laneFault (acc : Access) (fails : List (LaneId × Fail)) : Option Trap :=
  match fails with
  | [] => none
  | (_, e) :: _ =>
    let lanes := maskOf fun l => fails.any fun x => x.1 == l && x.2.code == e.code && x.2.reason == e.reason
    some (e.trap acc lanes 0)

/-- The failures among the lanes' accesses, in lane order. -/
def failsOf {α : Type} (rs : List (LaneId × Except Fail α)) : List (LaneId × Fail) :=
  rs.filterMap fun x => match x.2 with
    | .error e => some (x.1, e)
    | .ok _ => none

/-- The successes among the lanes' accesses, in lane order. -/
def oksOf {α : Type} (rs : List (LaneId × Except Fail α)) : List (LaneId × α) :=
  rs.filterMap fun x => match x.2 with
    | .error _ => none
    | .ok a => some (x.1, a)

end Sys2Proof.Machine
end

