-- ==== Sys2Proof/Machine/Operands.lean ====
section
/-! DEFINITION. Every operand form: immediates and LIT [02 R32, R34], shift amounts, memory operands [06 R114], packed
elements [03 R45], and the shapes that words of one kind share. -/

namespace Sys2Proof.Machine

/-- A sign-extended immediate of IADDI and KADDI, or LIT's value [02 R34]. -/
def State.immS (s : State) (i : BitVec 8) : W32 := (s.litVal i.toNat).getD (i.signExtend 32)

/-- A zero-extended immediate of ANDI, ORI and XORI, or LIT's value [02 R34]. -/
def State.immZ (s : State) (i : BitVec 8) : W32 := (s.litVal i.toNat).getD (i.zeroExtend 32)

/-- The immediate of KLI and KADDI [02 R32, R34]. -/
def State.immK (s : State) (i : BitVec 12) : W32 := (s.litVal (i.toNat % 256)).getD (i.signExtend 32)

/-- The immediate of FADDI and FMULI: E4M3 expanded exactly, or LIT's FP32 pattern [02 R34, 03 R59]. -/
def State.immF (s : State) (i : BitVec 8) : W32 :=
  (s.litVal i.toNat).getD (BitVec.ofNat 32 (Fmt.f32.deliver .rn (Fmt.e4m3.val i.toNat)).1)

/-- The bytes of an access size [02 R30]. -/
def szBytes : AccSz → Nat
  | .s8 => 1
  | .z8 => 1
  | .s16 => 2
  | .z16 => 2
  | .w32 => 4
  | .w64 => 8
  | .w128 => 16

/-- The signed offset of an N-format operand: o scaled by the size, or LIT's value unscaled [06 R114, 02 R32]. -/
def State.offsetN (s : State) (o : BitVec 5) (size : Nat) : W64 :=
  match s.litVal (o.toNat * 8) with
  | some v => v.signExtend 64
  | none => o.signExtend 64 * BitVec.ofNat 64 size

/-- The effective address of a lane [06 R114]. -/
def State.eaN (s : State) (a : GReg) (o : BitVec 5) (size : Nat) (x : Lane) : W64 := x.rpair a + s.offsetN o size

/-- Element `i` of width `w` of a register [03 R45]. -/
def elem (v : W32) (w i : Nat) : Nat := v.toNat / 2 ^ (w * i) % 2 ^ w

/-- A per-lane word of fixed latency that writes one g register [04 R60]. -/
def laneG (h : Hdr) (d : GReg) (s : State) (f : Lane → W32) : Out :=
  .next (s.writeG (s.exec h) d fun l => f (s.old.lane l))

/-- A per-lane word of fixed latency that writes a pair. -/
def lanePair (h : Hdr) (d : GReg) (s : State) (f : Lane → W64) : Out :=
  .next (s.writePair (s.exec h) d fun l => f (s.old.lane l))

/-- A per-lane word of fixed latency that writes a predicate. -/
def laneP (h : Hdr) (pd : PReg) (s : State) (f : Lane → Bool) : Out :=
  .next (s.writeP (s.exec h) pd fun l => f (s.old.lane l))

/-- A uniform word: it executes once, when its guard is true in some active lane [04 R61]. -/
def uniform (h : Hdr) (s : State) (f : Strand → Strand) : Out := .next (if s.acts h then s.onFocus f else s)

/-- A uniform word that writes its destination and its flags from the group's sources. -/
def uniformOp (h : Hdr) (d : KReg) (s : State) (r : W32) (fl : Flags → Flags) : Out :=
  uniform h s fun st => { st.wk d r with flags := fl st.flags }

/-- Alignment (0x05): the lanes whose address is no multiple of `n`, trapinfo the address of the lowest of them
[06 R115]. -/
def State.misaligned (_s : State) (ex : W32) (n : Nat) (ea : LaneId → W64) : Option Trap :=
  let bad := maskOf fun l => hasLane ex l && (ea l).toNat % n != 0
  if bad = 0 then none else some (Trap.user 0x05 bad (ea (lowLane bad)))

end Sys2Proof.Machine
end

