-- ==== Sys2Proof/Machine/Wire.lean ====
section
/-! DEFINITION. Eweoth links: flits, their checksum, their replay buffers, and the link events [23 R358-R360]. -/

namespace Sys2Proof.Machine

/-- One bit of the CRC-64 with the ECMA-182 polynomial [23 R358]. -/
def crcBit (c : W64) : W64 := if c.getLsbD 63 then (c <<< 1) ^^^ 0x42F0E1EBA9EA3693 else c <<< 1

/-- One byte of the checksum, most significant bit first, from 0. DESIGN CHOICE (log 22): the spec names the polynomial
alone. -/
def crcByte (c : W64) (b : Byte) : W64 :=
  (List.range 8).foldl (fun c _ => crcBit c) (c ^^^ (b.zeroExtend 64 <<< 56))

def crc64 (bs : List Byte) : W64 := bs.foldl crcByte 0

/-- Bytes 0-247 of a flit [23 R358]. -/
def flitBody (f : Flit) : List Byte :=
  toBytes 4 (f.seq.toNat + f.kind.toNat * 2 ^ 24) ++ toBytes 4 f.ack.toNat ++ (List.range 240).map fun i => f.payload.getD i 0

/-- The checksum of a flit fits its bytes. -/
def flitGood (f : Flit) : Bool := f.crc == crc64 (flitBody f)

/-- A flit with its checksum. -/
def mkFlit (seq : BitVec 24) (kind : BitVec 4) (ack : BitVec 24) (payload : List Byte) : Flit :=
  let f : Flit := { seq := seq, kind := kind, ack := ack, payload := payload, crc := 0 }
  { f with crc := crc64 (flitBody f) }

/-- A payload goes out on a link that is up and has room in its replay buffer of 256 [23 R359]. -/
def Link.put (l : Link) (payload : List Byte) : Link :=
  if l.up ∧ l.replay.length < 256 then
    let f := mkFlit l.txSeq 0 l.rxAck payload
    { l with txSeq := l.txSeq + 1, replay := l.replay ++ [f], outbox := l.outbox ++ [f] }
  else l

/-- A transaction, or a response, sets out on the link of its route [23 R360]. -/
def Dev.wire (d : Dev) (rank tries : Nat) (tx : Transaction) (reply : Option TxReply) : Dev :=
  { d with eweoth := updV d.eweoth (Config.route rank tries) fun l => (Config.flitPayloads tx reply).foldl Link.put l }

/-- Flits that the other side has received in order leave the replay buffer. -/
def Link.acked (l : Link) (ack : BitVec 24) : Link :=
  match l.replay.findIdx? fun f => f.seq == ack with
  | none => l
  | some i => { l with replay := l.replay.drop (i + 1), fails := 0 }

/-- A link goes down: what it had in flight is the transaction layer's again [23 R359]. -/
def Link.down (l : Link) : Link := { l with up := false, replay := [], fails := 0 }

/-- The transactions whose link has gone down are sent again along another route [23 R360]. -/
def Dev.reroute (d : Dev) (link : Fin 32) : Dev :=
  d.outTx.foldl (fun d t =>
    if Config.route t.tx.dst t.tries = link then
      { d with outTx := updWhere (fun x => x.tx == t.tx) (fun x => { x with tries := x.tries + 1 }) d.outTx }.wire
        t.tx.dst (t.tries + 1) t.tx none
    else d) d

def Dev.onLink (d : Dev) (link : Fin 32) (f : Link → Link) : Dev := { d with eweoth := updV d.eweoth link f }

def Dev.linkDown (d : Dev) (link : Fin 32) : Dev := (d.onLink link Link.down).reroute link

/-- A nack is sent: it carries the sequence that is expected [23 R359]. -/
def Link.nack (l : Link) : Link := { l with outbox := l.outbox ++ [mkFlit l.rxSeq 1 l.rxAck []] }

/-- A link that is up takes a data flit in order; a bad checksum or a gap discards it and sends a nack [23 R359]. -/
def Link.receive (l : Link) (f : Flit) : Link :=
  if !l.up then l
  else if !(flitGood f) || f.seq != l.rxSeq then l.nack
  else { l.acked f.ack with rxAck := f.seq, rxSeq := f.seq + 1, inbox := l.inbox ++ [f.payload] }

/-- FLIT_DATA_RECEIVE [23 R359]. -/
def execFlitDataReceive (link : Fin 32) (flit : Flit) (s : State) : Out := s.event fun d => d.onLink link fun l => l.receive flit

/-- A link replays from a sequence: the flits before it have been received. -/
def Link.replayFrom (l : Link) (seq : BitVec 24) : Link :=
  match l.replay.findIdx? fun f => f.seq == seq with
  | none => l
  | some i =>
    let rest := l.replay.drop i
    { l with replay := rest, fails := if i = 0 then l.fails + 1 else 1, outbox := l.outbox ++ rest }

/-- FLIT_NACK_RECEIVE: the sender replays; a flit with a bad checksum is answered with a nack; when 8 replays of one flit have failed, the link goes down [23 R359]. -/
def execFlitNackReceive (link : Fin 32) (flit : Flit) (s : State) : Out :=
  s.event fun d =>
    let l := d.eweoth[link]
    if !l.up then d
    else if !(flitGood flit) then d.onLink link Link.nack
    else if (l.replay.headD flit).seq = flit.seq ∧ 8 ≤ l.fails then d.linkDown link
    else d.onLink link fun l => l.replayFrom flit.seq

/-- FLIT_IDLE_RECEIVE: acknowledgements arrive; a bad checksum sends a nack [23 R358, R359]. -/
def execFlitIdleReceive (link : Fin 32) (flit : Flit) (s : State) : Out :=
  s.event fun d => d.onLink link fun l => if !l.up then l else if flitGood flit then l.acked flit.ack else l.nack

/-- LINK_ACK_TIMEOUT: no acknowledgement for 100 us, so the link goes down [23 R359]. -/
def execLinkAckTimeout (link : Fin 32) (s : State) : Out :=
  s.event fun d => if (d.eweoth[link]).up then d.linkDown link else d

/-- LINK_RETRAIN_COMPLETION: the link is up again, but for a reset in progress, whose step 8 enables the links. DESIGN CHOICE
(log 22): it counts its sequences from 0 [23 R371, 24 R376]. -/
def execLinkRetrainCompletion (link : Fin 32) (s : State) : Out :=
  s.event fun d => d.onLink link fun l => if l.up || d.host.rstBusy then l else { Link.start with outbox := l.outbox, inbox := l.inbox }

end Sys2Proof.Machine
end

