-- ==== Sys2Proof/Machine/Access.lean ====
section
/-! DEFINITION. Reading and writing memory as a party: bytes bound to a clasp, monitors, peer devices; the accesses of a
word's lanes, and results that arrive later [14 R222-R242; 23 R360-R362]. -/

namespace Sys2Proof.Machine

/-! ### Parties and scopes [14 R222, R223]

A party is numbered by its strand, its lane and its core; strand 0 stands for the agents outside: the host ports, and
the peer devices from 2 on. -/

def partyOf (st : Strand) (l : LaneId) : Nat := (st.id * 2 ^ 32 + l.val) * 256 + st.core.val
/-- The party that a strand's uniform accesses are made by: no lane's [04 R78]. -/
def uniformParty (st : Strand) : Nat := (st.id * 2 ^ 32 + 32) * 256 + st.core.val
def hostParty (port : Fin 2) : Nat := port.val * 256
def peerParty (rank : Nat) : Nat := (2 + rank) * 256

def partyStrand (p : Nat) : Nat := p / 256 / 2 ^ 32
def partyCore (p : Nat) : Nat := p % 256
def partyUniform (p : Nat) : Bool := p / 256 % 2 ^ 32 == 32

/-- Two parties count as one thread: a strand's uniform accesses do with each of its lanes [04 R78, 06 R116]. -/
def sameParty (p q : Nat) : Bool :=
  p / 256 == q / 256 ||
  (partyStrand p == partyStrand q && partyStrand p != 0 && (partyUniform p || partyUniform q))

/-- A party is of this device or its node, or of a device of a list of ranks [23 R364]. -/
def partyAmong (ranks : List Nat) (p : Nat) : Bool :=
  partyStrand p != 0 || decide (p / 256 < 2) || ranks.contains (p / 256 - 2)

/-- One instance of a scope holds both parties [14 R222, 23 R364]. -/
def sameInstance (scope : Scope) (p q : Nat) : Bool :=
  if sameParty p q then true else
  let inside := partyStrand p != 0 && partyStrand q != 0
  match scope with
  | .th => false
  | .st => inside && partyStrand p == partyStrand q
  | .co => inside && partyCore p == partyCore q
  | .cl => inside && partyCore p / 16 == partyCore q / 16
  | .di => inside && partyCore p / 64 == partyCore q / 64
  | .dv => inside
  | .nd => partyAmong [] p && partyAmong [] q
  | .pa => partyAmong Config.members p && partyAmong Config.members q
  | .fb => partyAmong (Config.members ++ Config.fabricPeers) p && partyAmong (Config.members ++ Config.fabricPeers) q
  | .sy => true

/-! ### Bytes bound to a clasp [14 R238-R241] -/

def Run.has (r : Run) (k : Nat) : Bool := decide (r.key ≤ k) && decide (k < r.key + r.len)
def Run.meets (a b : Run) : Bool := decide (a.key < b.key + b.len) && decide (b.key < a.key + a.len)

/-- The clasp that binds a byte. -/
def Dev.boundAt (d : Dev) (k : Nat) : Option Clasp := d.clasps.find? fun c => c.runs.any fun r => r.has k

/-- How far a party has acquired a clasp. -/
def Clasp.view (c : Clasp) (party : Nat) : Nat :=
  ((c.views.filter fun v => sameParty v.1 party).map Prod.snd).foldl max 0

/-- A bound write that a party may read: its own, or one published to it by an acquire of its own [14 R241]. -/
def Clasp.shows (c : Clasp) (party : Nat) (w : BoundWrite) : Bool :=
  sameParty w.party party ||
  (match w.pub with
   | none => false
   | some n => decide (n ≤ c.view party) && sameInstance c.scope w.party party)

/-- The latest write to a bound byte that a party may read [14 R241]. -/
def Clasp.written (c : Clasp) (party k : Nat) : Option Byte :=
  ((c.log.filter fun w => c.shows party w && decide (w.key ≤ k) && decide (k < w.key + w.bytes.length)).getLast?).map fun w =>
    w.bytes.getD (k - w.key) 0

/-- What a party reads at a bound byte: that write, or the byte's initial value [14 R241]. -/
def Clasp.byteFor (c : Clasp) (initial : Byte) (party k : Nat) : Byte := (c.written party k).getD initial

/-- The byte that a party reads at a key. -/
def Dev.byteFor (d : Dev) (party k : Nat) : Byte :=
  match d.boundAt k with
  | none => Mem.get d.mem k
  | some c => c.byteFor (Mem.get d.mem k) party k

/-- `n` bytes that a party reads from a key. -/
def Dev.readFor (d : Dev) (party k n : Nat) : List Byte :=
  if d.clasps.isEmpty then Mem.read d.mem k n else (List.range n).map fun i => d.byteFor party (k + i)

/-- The bytes that a party reads over a list of runs. -/
def Dev.readRunsFor (d : Dev) (party : Nat) (rs : List Run) : List Byte := rs.flatMap fun r => d.readFor party r.key r.len

/-- A write into a bound range is kept in the clasp's log until it is published [14 R241]. -/
def Dev.logWrite (d : Dev) (party k : Nat) (bs : List Byte) : Dev :=
  { d with clasps := d.clasps.map fun c =>
      if c.runs.any fun r => r.meets { key := k, len := bs.length } then
        { c with log := c.log ++ [{ party := party, key := k, bytes := bs, pub := none }] }
      else c }

/-! ### Writes -/

/-- The stretches of a write whose keys satisfy a test. -/
def spansWhere (p : Nat → Bool) : Nat → List Byte → List (Nat × List Byte)
  | _, [] => []
  | k, b :: bs =>
    let rest := spansWhere p (k + 1) bs
    if !p k then rest else
    match rest with
    | [] => [(k, [b])]
    | x :: xs => if x.1 = k + 1 then (k, b :: x.2) :: xs else (k, [b]) :: x :: xs

/-- The stretches of a write that no clasp binds. -/
def Dev.freeSpans (d : Dev) (k : Nat) (bs : List Byte) : List (Nat × List Byte) := spansWhere (fun k => (d.boundAt k).isNone) k bs

/-- A clasp binds a byte of a run. -/
def Dev.bindsIn (d : Dev) (r : Run) : Bool := d.clasps.any fun c => c.runs.any fun x => x.meets r

/-- The bytes of a write that no clasp binds are stored; a bound byte becomes visible only as it is
published, so it triggers no watch before. -/
def Dev.storeFree (d : Dev) (k : Nat) (bs : List Byte) : Dev :=
  (d.freeSpans k bs).foldl (fun d x => (d.store x.1 x.2).trigger x.1 x.2.length) d

/-- Bytes written at a key by a party of this device, or by an agent that reaches its memory. -/
def Dev.writeFor (d : Dev) (party k : Nat) (bs : List Byte) : Dev :=
  if d.bindsIn { key := k, len := bs.length } then
    ((d.storeFree k bs).logWrite party k bs).heal k bs.length
  else (d.store k bs).trigger k bs.length

/-- Bytes written over a list of runs. -/
def Dev.writeRunsFor (d : Dev) (party : Nat) : List Run → List Byte → Dev
  | [], _ => d
  | r :: rs, bs => (d.writeFor party r.key (bs.take r.len)).writeRunsFor party rs (bs.drop r.len)

/-! ### Peer devices [23 R360, R361] -/

/-- The bytes of an atomic [14 R232]. -/
def atBytes : AtOp → Nat
  | .add64 | .cas64 => 8
  | .add32 | .addF32 | .addBf16x2 | .minS | .maxS | .minZ | .maxZ | .andB | .orB | .xorB | .exch | .cas32 => 4

/-- The next end-to-end sequence to a destination, counted from 0 [23 R360]. -/
def Dev.sentTo (d : Dev) (rank : Nat) : BitVec 48 :=
  match d.outSeq.find? fun x => x.1 == rank with
  | some x => x.2
  | none => 0

/-- What a transaction reads or writes of its target's memory: accesses, addresses and lengths. -/
def txParts : TxOp → List (Access × Nat × Nat)
  | .read ps => ps.map fun p => (.read, p.1, p.2)
  | .write ps => ps.map fun p => (.write, p.1, p.2.length)
  | .atomic op a _ _ => [(.atomic, a, atBytes op)]
  | .hot a _ => [(.atomic, a, 4)]
  | .sigTake a => [(.atomic, a, 16)]
  | .sigPut a _ _ => [(.atomic, a, 16)]
  | .drain _ | .post _ _ | .verdict _ _ _ | .coll _ _ => []

/-- Two stretches of bytes share one. -/
def sharesByte (a n b m : Nat) : Bool := decide (a < b + m) && decide (b < a + n)

/-- Two transactions share a byte. -/
def txMeets (x y : TxOp) : Bool :=
  (txParts x).any fun p => (txParts y).any fun q => sharesByte p.2.1 p.2.2 q.2.1 q.2.2

/-- A transaction sets out and waits for its response. -/
def Dev.sendNow (d : Dev) (rank : Nat) (op : TxOp) (owner : TxOwner) : Dev :=
  let n := d.sentTo rank
  let tx : Transaction := { src := Config.devid.toNat, dst := rank, seq := n, op := op }
  let sent : List OutTx := d.outTx ++ [{ tx := tx, owner := owner, tries := 0 }]
  let seqs := (rank, n + 1) :: d.outSeq.filter fun x => x.1 != rank
  let d : Dev := { d with outTx := sent, outSeq := seqs }
  d.wire rank 0 tx none

/-- An earlier transaction to the same bytes has no response yet, or has not set out. -/
def Dev.mustHold (d : Dev) (rank : Nat) (op : TxOp) : Bool :=
  (d.outTx.any fun t => t.tx.dst == rank && txMeets t.tx.op op) || d.heldTx.any fun t => t.rank == rank && txMeets t.op op

/-- A transaction is sent to a peer. It waits while an earlier one of this device reads or writes bytes that it shares, so
that accesses to a byte are applied in the order in which they were made, whatever the routes (log 41) [06 R116, 23
R365]. -/
def Dev.send (d : Dev) (rank : Nat) (op : TxOp) (owner : TxOwner) : Dev :=
  if d.mustHold rank op then { d with heldTx := d.heldTx ++ [{ rank := rank, op := op, owner := owner }] }
  else d.sendNow rank op owner

/-- The transactions that waited are sent in their order, as far as they may. -/
def Dev.sendHeld (d : Dev) : Dev :=
  d.heldTx.foldl (fun d t => d.send t.rank t.op t.owner) { d with heldTx := [] }

/-- An access that a thread of the device has made, by a word that has issued. -/
def TxOwner.byThread : TxOwner → Bool
  | .store _ sid _ _ _ => sid != 0
  | .clasp _ _ _ _ _ _ | .read _ _ _ _ _ => true
  | .mask _ _ _ _ _ | .counter _ _ _ _ _ | .code _ _ _ | .record _ | .hot | .engine _ _ | .signet _ | .swap _ _ _ => false

/-- The task of a lane's store, arrival or atomic that has not been applied yet: its end waits for it [17 R280]. -/
def TxOwner.endTask (op : TxOp) : TxOwner → Option Nat
  | .store task _ _ _ _ | .clasp _ _ task _ _ _ => some task
  | .read task _ _ _ _ => match op with
    | .read _ => none
    | _ => some task
  | .mask _ _ _ _ _ | .counter _ _ _ _ _ | .code _ _ _ | .record _ | .hot | .engine _ _ | .signet _ | .swap _ _ _ => none

/-- Accesses to peers that threads of the device have made, and that have not been applied yet. -/
def Dev.accessesOut (d : Dev) : Bool := (d.outTx.any fun t => t.owner.byThread) || d.heldTx.any fun t => t.owner.byThread

/-- A read of a peer that a lane of a mask has made, a uniform one among them, has no reply yet. -/
def Flight.readsOut (f : Flight) (mask : W32) : Bool :=
  f.kind != .verdict && f.waits != 0 && (f.fill.uniform || (f.lanes &&& mask) != 0)

/-- An acquire of lanes of a mask still waits for a peer's reply, or for a home's verdict: their later accesses wait for it
[14 R224, 19 R303]. -/
def Strand.acquiresOut (st : Strand) (mask : W32) : Bool :=
  st.flights.any fun f => f.acq && f.waits != 0 && (f.fill.uniform || (f.lanes &&& mask) != 0)

/-- Reads of a peer by lanes of a mask have no reply yet. -/
def Strand.readsOut (st : Strand) (mask : W32) : Bool := st.flights.any fun f => f.readsOut mask

/-- The task that a lane belongs to: its strand's, or that of the lane that spawned it (log 13). -/
def Strand.laneTask (st : Strand) (l : LaneId) : Nat := if st.kind = .spawned then (st.lane l).parent else st.task

/-- The machine check that a lane's store or arrival raises if its transaction fails: to the lane's task, with the packet
that issued it; its detail is known only then [21 R329, 23 R362]. `who` is the lane, or 32 for a uniform store, which is no
lane's; `fid` the word in flight that the store holds. -/
def Strand.storeOwner (st : Strand) (pc : W64) (l : LaneId) (who fid : Nat) : TxOwner :=
  .store (st.laneTask l) st.id who fid ((Trap.user 0x21 (oneLane l) 0).report st pc)

def State.storeOwner (s : State) (l : LaneId) : TxOwner := s.old.storeOwner s.frag.pc l l.val 0
def State.storeOwnerK (s : State) (l : LaneId) : TxOwner := s.old.storeOwner s.frag.pc l 32 0

/-- Write bytes at a key: a peer's bytes travel as a transaction, which has an owner. Bytes that a clasp binds stay in its
log until the binding is removed (log 41) [14 R241]. -/
def Dev.put (d : Dev) (party : Nat) (owner : TxOwner) (k : Nat) (bs : List Byte) : Dev :=
  match peerOf k with
  | none => d.writeFor party k bs
  | some (rank, a) =>
    if d.bindsIn { key := k, len := bs.length } then
      (d.freeSpans k bs).foldl (fun d x => d.send rank (.write [(a + (x.1 - k), x.2)]) owner) (d.logWrite party k bs)
    else d.send rank (.write [(a, bs)]) owner

/-- Write bytes over runs. -/
def Dev.putRuns (d : Dev) (party : Nat) (owner : TxOwner) : List Run → List Byte → Dev
  | [], _ => d
  | r :: rs, bs => (d.put party owner r.key (bs.take r.len)).putRuns party owner rs (bs.drop r.len)

/-- What a write over runs takes to a peer, in order. -/
def peerParts : List Run → List Byte → List (Nat × Nat × List Byte)
  | [], _ => []
  | r :: rs, bs =>
    (match peerOf r.key with
     | none => []
     | some (rank, a) => [(rank, a, bs.take r.len)]) ++ peerParts rs (bs.drop r.len)

/-- Bytes written over runs at once: what goes to a peer is one transaction [14 R229]. -/
def Dev.putAtOnce (d : Dev) (party : Nat) (owner : TxOwner) (rs : List Run) (bs : List Byte) : Dev :=
  match peerParts rs bs with
  | [] => d.writeRunsFor party rs bs
  | (rank, p) :: ps => if rs.any d.bindsIn then d.putRuns party owner rs bs else d.send rank (.write (p :: ps.map Prod.snd)) owner

/-- The transactions of peers' bytes in a write over runs. -/
def Dev.putCount (d : Dev) (scp : Bool) (rs : List Run) (bs : List Byte) : Nat :=
  let parts := peerParts rs bs
  if !(rs.any d.bindsIn) then (if scp then min 1 parts.length else parts.length)
  else (parts.map fun p => (d.freeSpans (Key.peer p.1 p.2.1) p.2.2).length).sum

/-- Bytes that lie in one 128-byte-aligned block: SCP makes an access of them single-copy atomic [14 R229]. -/
def inBlock (rs : List Run) : Bool :=
  match rs.filter fun r => r.len != 0 with
  | [] => true
  | r :: rest => (r :: rest).all fun x => x.key / 128 == r.key / 128 && (x.key + x.len - 1) / 128 == r.key / 128

/-- The bytes of a lane's store: at once where SCP makes it single-copy atomic. -/
def Dev.putLane (d : Dev) (scp : Bool) (party : Nat) (owner : TxOwner) (rs : List Run) (bs : List Byte) : Dev :=
  if scp && inBlock rs then d.putAtOnce party owner rs bs else d.putRuns party owner rs bs

/-- Where a run lies, as the detail field's units tell it apart: 0 the device, 1 CXL, 2 and 3 the hosts, 4 a peer. -/
def siteOf (k : Nat) : Nat :=
  if k < 2 ^ 64 then 0 else if k < 2 * 2 ^ 64 then 1 else if k < 3 * 2 ^ 64 then 2 else if k < 4 * 2 ^ 64 then 3
  else if (peerOf k).isSome then 4 else 0

/-! ### The accesses of a word's lanes [13 R211, R212] -/

/-- The device as a word of the open group finds it for its accesses: a CSR that an earlier word of the group writes holds
from the next group on [06 R112]. -/
def State.seen (s : State) : Dev := { s.now with regions := s.start.regions }

/-- The access of every executing lane, checked before any has an effect. -/
def State.accessLanes (s : State) (ex : W32) (acc : Access) (ea : LaneId → W64) (len : Nat) :
    List (LaneId × Except Fail (List Piece)) :=
  (lanesOf ex).map fun l => (l, s.seen.access s.old (s.old.lane l).lastPage acc (ea l).toNat len)

/-- The translation caches after the accesses of the lanes. -/
def State.touchLanes (s : State) (oks : List (LaneId × List Piece)) : State :=
  s.onDev fun d => d.touch (oks.map fun x => (some x.1, x.2))

/-- Alignment, then the access checks of R211; the word goes on with what the lanes reach [06 R115, 13 R212]. -/
def State.reach (s : State) (ex : W32) (acc : Access) (align : Nat) (ea : LaneId → W64) (len : Nat)
    (k : List (LaneId × List Piece) → State → Out) : Out :=
  let rs := s.accessLanes ex acc ea len
  match s.misaligned ex align ea, laneFault acc (failsOf rs) with
  | some t, _ => .next (s.trap t)
  | none, some t => .next (s.trap t)
  | none, none => k (oksOf rs) (s.touchLanes (oksOf rs))

/-! ### Results that arrive later [01 R16] -/

/-- SCP makes the word an acquire [14 R224]. -/
def State.acquires (s : State) : Bool := match s.iss.scp with
  | some (_, .acq) | some (_, .ar) => true
  | _ => false

/-- A flight of a word of the open group. -/
def State.flight (s : State) (ex : W32) (kind : FlightKind) : Flight :=
  { Flight.blank with acq := s.acquires, id := s.now.next, kind := kind, due := s.now.someday, pc := s.frag.pc, pos := s.iss.pos, gpos := s.iss.gpos, lanes := ex }

/-- A flight sets out; its arrival is due at an open later cycle, or follows its last remote reply (log 8). -/
def Dev.setOut (d : Dev) (f : Flight) (arrival : Instr) : Dev :=
  let d := d.bump.onFocus fun st => st.launchFlight f
  if f.waits = 0 then d.planSomeday arrival else d

/-- What a lane wants of a peer: bytes from an address, for an offset of its buffer. -/
structure Want where
  lane : LaneId
  off  : Nat
  addr : Nat
  len  : Nat

/-- One read of a peer: its rank, and what lanes want of it. -/
structure Ask where
  rank  : Nat
  wants : List Want

/-- A stretch of bytes enters a list of stretches that share none: those that it meets become one with it. -/
def addSpan (ss : List (Nat × Nat)) (x : Nat × Nat) : List (Nat × Nat) :=
  let hit := ss.filter fun s => sharesByte s.1 s.2 x.1 x.2
  let lo := hit.foldl (fun m s => min m s.1) x.1
  let hi := hit.foldl (fun m s => max m (s.1 + s.2)) (x.1 + x.2)
  ss.filter (fun s => !sharesByte s.1 s.2 x.1 x.2) ++ [(lo, hi - lo)]

/-- The bytes asked for, each of them once, so that the lanes that read a byte receive one value of it [06 R117]. -/
def Ask.parts (x : Ask) : List (Nat × Nat) := x.wants.foldl (fun ss w => addSpan ss (w.addr, w.len)) []

/-- Where an address stands in a reply. -/
def offsetIn : List (Nat × Nat) → Nat → Nat
  | [], _ => 0
  | s :: ss, a => if s.1 ≤ a ∧ a < s.1 + s.2 then a - s.1 else s.2 + offsetIn ss a

/-- The lanes' shares of the reply. -/
def Ask.takes (x : Ask) : List Take :=
  x.wants.map fun w => { lane := w.lane, off := w.off, from_ := offsetIn x.parts w.addr, len := w.len }

/-- What a lane's runs ask of peers, one by one. -/
def asksOf (l : LaneId) : Nat → List Run → List Ask
  | _, [] => []
  | off, r :: rs =>
    (match peerOf r.key with
     | none => []
     | some (rank, a) => [{ rank := rank, wants := [{ lane := l, off := off, addr := a, len := r.len }] }]) ++
    asksOf l (off + r.len) rs

/-- Two reads made as one. -/
def Ask.join (x y : Ask) : Ask := { x with wants := x.wants ++ y.wants }

def Ask.shares (x y : Ask) : Bool :=
  x.rank == y.rank && x.wants.any fun p => y.wants.any fun q => sharesByte p.addr p.len q.addr q.len

/-- One more read joins those that share a byte with it. -/
def addAsk (as : List Ask) (x : Ask) : List Ask := as.filter (fun y => !y.shares x) ++ [(as.filter fun y => y.shares x).foldr Ask.join x]

/-- What the lanes of a word ask of peers; under SCP a lane's runs in one block are one read [14 R229]. -/
def asksFor (scp : Bool) (oks : List (LaneId × List Run)) : List Ask :=
  (oks.flatMap fun x =>
    let as := asksOf x.1 0 x.2
    if scp && inBlock x.2 then
      match as with
      | [] => []
      | y :: ys => [ys.foldl Ask.join y]
    else as).foldl addAsk []

/-- The lanes that a read was made for. -/
def takeLanes (takes : List Take) : W32 := maskOf fun l => takes.any fun t => t.lane == l

/-- Who waits for what a word in flight reads of a peer. -/
def Strand.readOwner (st : Strand) (pc : W64) (fid : Nat) (takes : List Take) : TxOwner :=
  .read (st.laneTask (lowLane (takeLanes takes))) st.id fid takes ((Trap.user 0x21 (takeLanes takes) 0).report st pc)

/-- The reads set out for a flight of the strand in focus. -/
def Dev.fetchRemote (d : Dev) (pc : W64) (fid : Nat) (as : List Ask) : Dev :=
  as.foldl (fun d a => d.send a.rank (.read a.parts) (d.focus.readOwner pc fid a.takes)) d

/-- A reply that is one lane's whole buffer. -/
def Take.whole (l : LaneId) (n : Nat) : Take := { lane := l, off := 0, from_ := 0, len := n }

/-- The lanes' runs that lie at peers, each of which is one transaction. -/
def remoteRuns (oks : List (LaneId × List Run)) : Nat :=
  ((oks.flatMap Prod.snd).filter fun r => (peerOf r.key).isSome).length

/-- The runs that lanes read through a CXL port or a host port. -/
def farRuns (oks : List (LaneId × List Run)) : List (LaneId × Run) :=
  oks.flatMap fun x => (x.2.filter fun r => decide (1 ≤ siteOf r.key) && decide (siteOf r.key ≤ 3)).map fun r => (x.1, r)

/-- The bytes of peers in a list of runs that a clasp binds, as a party sees them, by their offset [14 R241]. -/
def Dev.overRuns (d : Dev) (party : Nat) : Nat → List Run → List (Nat × Byte)
  | _, [] => []
  | off, r :: rs =>
    (if (peerOf r.key).isNone then [] else
      (List.range r.len).filterMap fun i => ((d.boundAt (r.key + i)).bind fun c => c.written party (r.key + i)).map fun b => (off + i, b)) ++
    d.overRuns party (off + r.len) rs

/-- The same for the lanes of a word. -/
def Dev.overLanes (d : Dev) (party : LaneId → Nat) (oks : List (LaneId × List Run)) : List (LaneId × Nat × Byte) :=
  if d.clasps.isEmpty then [] else oks.flatMap fun x => (d.overRuns (party x.1) 0 x.2).map fun y => (x.1, y)

/-- A memory result sets out, read by parties: the bytes that are read now, and those that peers will send. -/
def State.loadAs (s : State) (party : LaneId → Nat) (ex : W32) (fill : Fill) (marks : List Dest) (oks : List (LaneId × List Run)) : State :=
  let f := s.flight ex .memory
  let f := { f with marks := marks, fill := fill
                    bufs := oks.map fun x => (x.1, s.now.readRunsFor (party x.1) x.2)
                    waits := (asksFor false oks).length, far := farRuns oks, laid := s.now.overLanes party oks }
  s.onDev fun d =>
    let d := d.fetchRemote f.pc f.id (asksFor false oks)
    if marks.isEmpty && ex == 0 then d else d.setOut f (.memoryResultArrival s.old.id f.id)

/-- A memory result of lanes, each its own party. -/
def State.load (s : State) (ex : W32) (fill : Fill) (marks : List Dest) (oks : List (LaneId × List Run)) : State :=
  s.loadAs (partyOf s.old) ex fill marks oks

/-- Values ready at issue that arrive as a variable-latency result. -/
def State.arriveLater (s : State) (ex : W32) (marks : List Dest) (writes : List RegWrite) : State :=
  if marks.isEmpty then s else
  let f := s.flight ex .memory
  let f := { f with marks := marks, writes := writes }
  s.onDev fun d => d.setOut f (.memoryResultArrival s.old.id f.id)

/-- A quad or a part of it, as register writes. -/
def regWrites (l : LaneId) (d : GReg) (n : Nat) (bs : List Byte) : List RegWrite :=
  (List.range n).map fun i => .g l (d.plus i) (BitVec.ofNat 32 (ofBytes ((bs.drop (4 * i)).take 4)))

/-- The register writes that a lane's bytes become [06 R114, 14 R232, 04 R78]. -/
def Fill.writes (f : Fill) (l : LaneId) (bs : List Byte) : List RegWrite :=
  match f with
  | .none => []
  | .ld d .s8 => [.g l d ((BitVec.ofNat 8 (ofBytes bs)).signExtend 32)]
  | .ld d .s16 => [.g l d ((BitVec.ofNat 16 (ofBytes bs)).signExtend 32)]
  | .ld d .z8 => regWrites l d 1 bs
  | .ld d .z16 => regWrites l d 1 bs
  | .ld d .w32 => regWrites l d 1 bs
  | .ld d .w64 => regWrites l d 2 bs
  | .ld d .w128 => regWrites l d 4 bs
  | .old d wide => regWrites l d (if wide then 2 else 1) bs
  | .kld k => [.k k (BitVec.ofNat 32 (ofBytes bs))]
  | .mld _ _ => []
  | .hld x => regWrites l x 4 bs
  | .hst x => if ofBytes bs = 1 then regWrites l x 4 (toBytes 16 0) else []

/-- The flight of a number in a strand. -/
def Strand.flight? (st : Strand) (fid : Nat) : Option Flight := st.flights.find? fun f => f.id == fid

def Dev.flight? (d : Dev) (sid fid : Nat) : Option Flight :=
  match d.strand? sid with
  | none => none
  | some st => st.flight? fid

/-- A strand's flight lands, and fragments that waited for it go on [01 R16, R18]. -/
def Dev.landFlight (d : Dev) (sid : Nat) (f : Flight) : Dev := (d.onStrand sid fun st => st.land f).wakeStrand sid

/-- MEMORY_RESULT_ARRIVAL: the value arrives in its registers [01 R16]. -/
def execMemoryResultArrival (sid fid : Nat) (s : State) : Out :=
  s.event fun d =>
    match d.flight? sid fid with
    | none => d
    | some f =>
      if f.kind = .memory ∧ f.waits = 0 then
        d.landFlight sid { f with writes := f.writes ++ f.bufs.flatMap fun x => f.fill.writes x.1 x.2 }
      else d

end Sys2Proof.Machine
end

