-- ==== Sys2Proof/Machine/Memory.lean ====
section
/-! DEFINITION. Plain loads, stores and prefetch, uniform loads and stores, and the atomic words [06 R114-R118, 04 R78, 14
R232-R235]. -/

namespace Sys2Proof.Machine

/-! ### Loads and stores [06 R114-R117] -/

/-- The g registers that a load of a size writes. -/
def loadMarks (ex : W32) (d : GReg) (n : Nat) : List Dest :=
  (lanesOf ex).flatMap fun l => (List.range n).map fun i => .g l (d.plus i)

/-- The g registers that hold an access of a size. -/
def szRegs : AccSz → Nat
  | .w64 => 2
  | .w128 => 4
  | .s8 | .z8 | .s16 | .z16 | .w32 => 1

def execLd (h : Hdr) (d a : GReg) (o : BitVec 5) (sz : AccSz) (s : State) : Out :=
  let ex := s.exec h
  s.reach ex .read (szBytes sz) (fun l => s.eaN a o (szBytes sz) (s.old.lane l)) (szBytes sz) fun oks t =>
    .next (t.load ex (.ld d sz) (loadMarks ex d (szRegs sz)) (oks.map fun x => (x.1, runsOf x.2)))

/-- The bytes that a store takes from a lane [06 R114]. -/
def storeBytes (x : Lane) (d : GReg) (n : Nat) : List Byte := toBytes n (x.rquad d).toNat

/-- Every lane's bytes are stored, in ascending lane order; `fid` is the word in flight that the stores hold [06 R117]. -/
def State.storeHeld (s : State) (fid : Nat) (oks : List (LaneId × List Piece)) (f : LaneId → List Byte) : State :=
  s.onDev fun d =>
    oks.foldl (fun d x =>
      d.putLane s.iss.scp.isSome (partyOf s.old x.1) (s.old.storeOwner s.frag.pc x.1 x.1.val fid) (runsOf x.2) (f x.1)) d

def State.storeLanes (s : State) (oks : List (LaneId × List Piece)) (f : LaneId → List Byte) : State := s.storeHeld 0 oks f

def execSt (h : Hdr) (d a : GReg) (o : BitVec 5) (sz : AccSz) (s : State) : Out :=
  s.reach (s.exec h) .write (szBytes sz) (fun l => s.eaN a o (szBytes sz) (s.old.lane l)) (szBytes sz) fun oks t =>
    .next (t.storeLanes oks fun l => storeBytes (s.old.lane l) d (szBytes sz))

/-- PFETCH writes nothing, orders nothing and never faults [06 R118]. DESIGN CHOICE (log 16): its translation fills no
translation buffer and no last-page register, and counts for no page. -/
def execPfetch (_h : Hdr) (_a : GReg) (_o : BitVec 5) (s : State) : Out := .next s

/-! ### Uniform loads and stores [04 R78] -/

/-- The address of a uniform access. -/
def State.eaK (s : State) (a : KReg) (o : Fin 16) : W64 := s.old.rkpair a + BitVec.ofNat 64 (4 * o.val)

/-- The one access of a uniform word: alignment, then R211, made by no lane. -/
def State.reachK (s : State) (h : Hdr) (acc : Access) (ea : W64) (k : List Piece → State → Out) : Out :=
  if !s.acts h then .next s
  else if ea.toNat % 4 ≠ 0 then .next (s.trap (Trap.user 0x05 (s.exec h) ea))
  else
    match s.seen.access s.old none acc ea.toNat 4 with
    | .error e => .next (s.trap (e.trap acc (s.exec h) 0))
    | .ok ps => k ps (s.onDev fun d => d.touch [(none, ps)])

def execKld (h : Hdr) (d a : KReg) (o : Fin 16) (s : State) : Out :=
  s.reachK h .read (s.eaK a o) fun ps t =>
    .next (t.loadAs (fun _ => uniformParty s.old) (s.exec h) (.kld d) [.k d] [(s.low h, runsOf ps)])

def execKst (h : Hdr) (d a : KReg) (o : Fin 16) (s : State) : Out :=
  s.reachK h .write (s.eaK a o) fun ps t =>
    .next (t.onDev fun dev => dev.putRuns (uniformParty s.old) (s.storeOwnerK (s.low h)) (runsOf ps) (toBytes 4 (s.old.rk d).toNat))

/-! ### Atomics [14 R232-R235] -/

/-- The sum of one BF16 half [14 R232]. -/
def addBf16 (m b : Nat) : Nat := (addVals Fmt.bf16 (Fmt.bf16.val m) (Fmt.bf16.val b)).1

/-- What an atomic leaves in memory: the old value, the operand, and what a compare expects [14 R232]. -/
def atNew (op : AtOp) (m b expect : W64) : W64 :=
  let x := lo32 m
  let y := lo32 b
  match op with
  | .add32 => (x + y).zeroExtend 64
  | .add64 => m + b
  | .addF32 => (fadd x y).1.zeroExtend 64
  | .addBf16x2 => BitVec.ofNat 64 (addBf16 (elem x 16 0) (elem y 16 0) + addBf16 (elem x 16 1) (elem y 16 1) * 2 ^ 16)
  | .minS => (if x.toInt ≤ y.toInt then x else y).zeroExtend 64
  | .maxS => (if x.toInt ≤ y.toInt then y else x).zeroExtend 64
  | .minZ => (if x.toNat ≤ y.toNat then x else y).zeroExtend 64
  | .maxZ => (if x.toNat ≤ y.toNat then y else x).zeroExtend 64
  | .andB => (x &&& y).zeroExtend 64
  | .orB => (x ||| y).zeroExtend 64
  | .xorB => (x ^^^ y).zeroExtend 64
  | .exch => y.zeroExtend 64
  | .cas32 => (if x = lo32 expect then y else x).zeroExtend 64
  | .cas64 => if m = expect then b else m

/-- The least atomic class that a scope asks for [14 R234]. -/
def leastClass : Scope → Nat
  | .th | .st | .co | .cl | .di | .dv => 1
  | .pa | .fb => 2
  | .nd | .sy => 3

/-- A scope that contains the host [23 R369]. -/
def wideScope : Scope → Bool
  | .nd | .pa | .fb | .sy => true
  | .th | .st | .co | .cl | .di | .dv => false

/-- The atomics that a host port carries [23 R369]. -/
def atOnHost : AtOp → Bool
  | .add32 | .add64 | .exch | .cas32 | .cas64 => true
  | .addF32 | .addBf16x2 | .minS | .maxS | .minZ | .maxZ | .andB | .orB | .xorB => false

/-- The atomic class of a page against a scope; `hostOk`: a host port could carry the operation [14 R234, 23 R369]. The
level is that of the walk, if one was made [13 R208]. -/
def classFail (scope : Scope) (hostOk : Bool) (va : Nat) (ps : List Piece) : Option Fail :=
  match ps with
  | [] => none
  | p :: _ =>
    match p.x with
    | none => none
    | some x =>
      let level := if p.via = .walk then leafLevel x else 0
      if pteAc x.leaf = 0 then some (Fail.mk' 0x13 0 level va)
      else if pteAc x.leaf < leastClass scope then some (Fail.mk' 0x13 1 level va)
      else if pteKind x.leaf = 2 ∧ wideScope scope ∧ ¬ hostOk then some (Fail.mk' 0x13 2 level va)
      else none

/-- The lanes' accesses with the class check after each [14 R234]. -/
def withClass (scope : Scope) (hostOk : Bool) (ea : LaneId → W64) (rs : List (LaneId × Except Fail (List Piece))) :
    List (LaneId × Except Fail (List Piece)) :=
  rs.map fun x => match x.2 with
    | .error e => (x.1, .error e)
    | .ok ps => match classFail scope hostOk (ea x.1).toNat ps with
      | some e => (x.1, .error e)
      | none => (x.1, .ok ps)

/-- One atomic step on device memory: the old value and the device after it [14 R233]. -/
def Dev.atomicAt (d : Dev) (party k : Nat) (op : AtOp) (b expect : W64) : Dev × List Byte :=
  let old := d.readFor party k (atBytes op)
  let v := atNew op (BitVec.ofNat 64 (ofBytes old)) b expect
  (d.writeFor party k (toBytes (atBytes op) v.toNat), old)

/-- The lanes' atomics, in ascending lane order, with the bytes that each receives; a peer's is sent [14 R233,
23 R361]. -/
def Dev.atomicLanes (d : Dev) (pc : W64) (fid : Nat) (op : AtOp) (b expect : LaneId → W64) :
    List (LaneId × List Piece) → Dev × List (LaneId × List Byte)
  | [] => (d, [])
  | (l, ps) :: rest =>
    let (d, old) := match peerOf (keyOf ps) with
      | some (rank, a) => (d.send rank (.atomic op a (b l) (expect l)) (d.focus.readOwner pc fid [Take.whole l (atBytes op)]), toBytes (atBytes op) 0)
      | none => d.atomicAt (partyOf d.focus l) (keyOf ps) op (b l) (expect l)
    let (d, bufs) := d.atomicLanes pc fid op b expect rest
    (d, (l, old) :: bufs)

/-- The scope that SCP gives an atomic; device scope without it [14 R233]. -/
def State.atomicScope (s : State) : Scope := match s.iss.scp with
  | some (scope, _) => scope
  | none => .dv

/-- An atomic word [14 R232-R235]. -/
def atomicWord (h : Hdr) (d a b : GReg) (op : AtOp) (s : State) : Out :=
  let ex := s.exec h
  let ea (l : LaneId) : W64 := (s.old.lane l).rpair a
  let wide := (atBytes op) == 8
  let val (r : GReg) (l : LaneId) : W64 := if wide then (s.old.lane l).rpair r else ((s.old.lane l).rg r).zeroExtend 64
  let rs := withClass s.atomicScope (atOnHost op) ea (s.accessLanes ex .atomic ea (atBytes op))
  let det : Option Trap :=
    if s.old.det ∧ (op = .addF32 ∨ op = .addBf16x2) ∧ ex ≠ 0 then some (Trap.user 0x1A ex 0) else none
  orTrap (det <|> s.misaligned ex (atBytes op) ea <|> laneFault .atomic (failsOf rs)) s <|
    let t := s.touchLanes (oksOf rs)
    let f := s.flight ex .memory
    let (dev, bufs) := t.now.atomicLanes f.pc f.id op (val b) (val d) (oksOf rs)
    let runs := (oksOf rs).map fun x => (x.1, runsOf x.2)
    let f := { f with marks := loadMarks ex d (if wide then 2 else 1), fill := .old d wide, bufs := bufs
                      waits := remoteRuns runs, far := farRuns runs }
    if ex = 0 then t else { t with now := dev.setOut f (.memoryResultArrival s.old.id f.id) }

def execAtadd32 (h : Hdr) (d a b : GReg) (s : State) : Out := atomicWord h d a b .add32 s
def execAtadd64 (h : Hdr) (d a b : GReg) (s : State) : Out := atomicWord h d a b .add64 s
def execAtaddF32 (h : Hdr) (d a b : GReg) (s : State) : Out := atomicWord h d a b .addF32 s
def execAtaddBf16x2 (h : Hdr) (d a b : GReg) (s : State) : Out := atomicWord h d a b .addBf16x2 s
def execAtmmMinS (h : Hdr) (d a b : GReg) (s : State) : Out := atomicWord h d a b .minS s
def execAtmmMaxS (h : Hdr) (d a b : GReg) (s : State) : Out := atomicWord h d a b .maxS s
def execAtmmMinZ (h : Hdr) (d a b : GReg) (s : State) : Out := atomicWord h d a b .minZ s
def execAtmmMaxZ (h : Hdr) (d a b : GReg) (s : State) : Out := atomicWord h d a b .maxZ s
def execAtlogAnd (h : Hdr) (d a b : GReg) (s : State) : Out := atomicWord h d a b .andB s
def execAtlogOr (h : Hdr) (d a b : GReg) (s : State) : Out := atomicWord h d a b .orB s
def execAtlogXor (h : Hdr) (d a b : GReg) (s : State) : Out := atomicWord h d a b .xorB s
def execAtlogExch (h : Hdr) (d a b : GReg) (s : State) : Out := atomicWord h d a b .exch s
def execCas32 (h : Hdr) (d a b : GReg) (s : State) : Out := atomicWord h d a b .cas32 s
def execCas64 (h : Hdr) (d a b : GReg) (s : State) : Out := atomicWord h d a b .cas64 s

end Sys2Proof.Machine
end

