-- ==== Sys2Proof/Machine/MatrixOps.lean ====
section
/-! DEFINITION. What every matrix word shares: formats, checks and their faults, last-use release, results in flight, and
the words' timing on the quadrant's paths [07 R119-R128, 08 R139, R140, R154; 10 R188-R196]. -/

namespace Sys2Proof.Machine

/-! ### Handles and formats [07 R119-R121] -/

/-- Element (i, j) of a handle, as its pattern. -/
def Handle.at (h : Handle) (i j : Nat) : W32 := h.els.getD (i * h.cols + j) 0

/-- A handle with its elements given by position. -/
def Handle.fill (h : Handle) (f : Nat → Nat → W32) : Handle :=
  { h with els := (List.range h.rows).flatMap fun i => (List.range h.cols).map fun j => f i j }

/-- The format that fm names for a width [07 R121]. -/
def fmTy (w : EW) (fm : Nat) : Option ElTy :=
  match w, fm with
  | .w32, 0 => some (.flt Fmt.f32)
  | .w32, 1 => some (.int true 32)
  | .w16, 0 => some (.flt Fmt.bf16)
  | .w16, 1 => some (.flt Fmt.f16)
  | .w8, 0 => some (.flt Fmt.e4m3)
  | .w8, 1 => some (.flt Fmt.e5m2)
  | .w8, 2 => some (.int true 8)
  | .w8, 3 => some (.int false 8)
  | .w4, 0 => some (.flt Fmt.e2m1)
  | .w4, 2 => some (.int true 4)
  | _, _ => none

/-- The format, FP32 where fm names none; the checks refuse that case before it is used. -/
def fmTyD (w : EW) (fm : Nat) : ElTy := (fmTy w fm).getD (.flt Fmt.f32)

/-- The elements of a handle as one bit string [07 R120]. -/
def Handle.bits (h : Handle) : Nat :=
  h.els.foldr (fun e acc => e.toNat % 2 ^ ewBits h.w + acc * 2 ^ ewBits h.w) 0

/-- Elements of a width cut from a bit string. -/
def cutBits (w : Nat) : Nat → Nat → List W32
  | 0, _ => []
  | n + 1, v => BitVec.ofNat 32 (v % 2 ^ w) :: cutBits w n (v / 2 ^ w)

/-! ### Checks [07 R122, R123] -/

/-- A check that a lane fails: the reason, the operand (0 md, 1 ma, 2 mb, 3 mc), the handle. -/
structure MFail where
  reason : Nat
  role   : Nat
  m      : MReg
  deriving DecidableEq, Repr

/-- A named operand of a matrix word: its role and its handle. -/
abbrev Operand := Nat × MReg

/-- An empty handle among the operands (0x07, reason 1). -/
def emptyFails (x : Lane) (ops : List Operand) : List MFail :=
  ops.filterMap fun o => if (x.rm o.2).isNone then some { reason := 1, role := o.1, m := o.2 } else none

/-- A failed check of one operand, as a list. -/
def failIf (c : Bool) (reason : Nat) (o : Operand) : List MFail := if c then [{ reason := reason, role := o.1, m := o.2 }] else []

/-- The lowest reason, and of its operands the lowest role [07 R123, 08 R139]. -/
def leastFail : List MFail → Option MFail
  | [] => none
  | x :: xs =>
    match leastFail xs with
    | none => some x
    | some y => some (if y.reason < x.reason ∨ (y.reason = x.reason ∧ y.role < x.role) then y else x)

/-- The fault of the lanes that fail a step of the checks: trapinfo names the lowest lane's reason and operand
[07 R123]. -/
def matFault (ex : W32) (code : Nat) (f : LaneId → List MFail) : Option Trap :=
  let bad := maskOf fun l => hasLane ex l && !(f l).isEmpty
  if bad = 0 then none else
  match leastFail (f (lowLane bad)) with
  | none => none
  | some x => some { Trap.user code bad (BitVec.ofNat 64 (x.reason * 2 ^ 8 + x.role * 2 ^ 4 + x.m.val)) with reason := x.reason }

/-- The handle check (0x07) and the shape check (0x06) of a word, in that order; shapes are checked in lanes whose handles
are live [07 R122]. -/
def State.matCheck (s : State) (ex : W32) (ops : List Operand) (shape : Lane → List MFail) : Option Trap :=
  matFault ex 0x07 (fun l => emptyFails (s.old.lane l) ops) <|> matFault ex 0x06 fun l => shape (s.old.lane l)

/-- A handle does not have a shape (reason 1). -/
def shapeIs (x : Lane) (o : Operand) (rows cols : Nat) : List MFail :=
  failIf ((x.hnd o.2).rows != rows || (x.hnd o.2).cols != cols) 1 o

/-- A handle does not have a width (reason 2). -/
def widthIs (x : Lane) (o : Operand) (w : EW) : List MFail := failIf ((x.hnd o.2).w != w) 2 o

/-- fm names no format for a handle's width (reason 3). -/
def fmIs (x : Lane) (o : Operand) (fm : Nat) : List MFail := failIf (fmTy (x.hnd o.2).w fm).isNone 3 o

/-! ### Release [07 R127, R128; 09 R179] -/

/-- The handles of the lanes of a mask are released [07 R127]. -/
def Dev.freeHandles (d : Dev) (ex : W32) (ms : List MReg) : Dev :=
  (lanesOf ex).foldl (fun d l => ms.foldl (fun d m => if ((d.focus.lane l).rm m).isSome then d.freeHandle l m else d) d) d

/-- The sources that a word marks last use. -/
def lastUse (marks : List (Bool × MReg)) : List MReg := (marks.filterMap fun x => if x.1 then some x.2 else none).dedup

/-! ### Results of M-pipe words [01 R16, 08 R140] -/

/-- What a matrix word gives in one lane: its results, its flags, and a matrix exception (0x08 or 0x09, else 0). -/
structure MatRes where
  writes : List RegWrite
  fp     : W32
  exc    : Nat
  deriving Repr

/-- A lane's result with no exception. -/
def MatRes.ok (writes : List RegWrite) (fp : W32) : MatRes := { writes := writes, fp := fp, exc := 0 }

/-- A lane that stops at a matrix exception [08 R154]. -/
def MatRes.stop (code : Nat) : MatRes := { writes := [], fp := 0, exc := code }

/-- The flight of a matrix word over its executing lanes. -/
def State.matFlight (s : State) (ex : W32) (kind : FlightKind) (due : Nat) (marks : LaneId → List Dest)
    (reads : List MReg) (r : LaneId → MatRes) : Flight :=
  let ls := lanesOf ex
  let rs := ls.map fun l => (l, r l)
  { s.flight ex kind with
    due := due, isM := true, marks := ls.flatMap marks, writes := rs.flatMap fun x => x.2.writes
    fp := rs.filterMap fun x => if x.2.fp = 0 then none else some (x.1, x.2.fp)
    mx := rs.filterMap fun x => if x.2.exc = 0 then none else some (x.1, x.2.exc)
    reads := ls.flatMap fun l => reads.map fun m => (l, m) }

/-- A matrix word sets out: its last-use handles are released, their blocks to follow when it completes, and its
completion is due [07 R128, 10 R195]. -/
def State.matLaunch (s : State) (f : Flight) (rel : List MReg) (e : Instr) : State :=
  s.onDev fun d => ((d.bump.onFocus fun st => st.launchFlight f).freeHandles f.lanes rel).plan f.due e

/-! ### Completion -/

/-- mxstat bits, and the traps that the lanes hold, as a word's result arrives [08 R153, R154]. -/
def Lane.except (x : Lane) (f : Flight) (code : Nat) : Lane :=
  let bit : W32 := if code = 0x09 then 2 else 1
  { x with mxstat := x.mxstat ||| bit
           held := if x.fpctl.getLsbD 5 then
               x.held ++ [{ word := f.id, code := code, info := f.pc + BitVec.ofNat 64 f.pos.val }]
             else x.held }

/-- A matrix word completes: its results, flags and exceptions arrive, and the blocks it was the last to read return
[08 R154, 07 R127]. -/
def Dev.landMatrix (d : Dev) (sid : Nat) (f : Flight) : Dev :=
  match d.strand? sid with
  | none => d
  | some st =>
    let d := d.onStrand sid fun st => f.mx.foldl (fun st x => st.onLane x.1 fun y => y.except f x.2) st
    (d.landFlight sid f).returnBlocks st.core st.quad st.region (st.freedBy f)

/-! ### The element path [10 R188, R196] -/

/-- The busy interval of an element-path word [10 R196]. -/
def elemBusyOf (blocks : List Nat) : Nat := ceilDiv ((blocks.map fun n => 64 * n).sum) 512

/-- An element-path word: `blocks` counts the blocks that its timing takes from each lane. -/
def State.elemWord (s : State) (ex : W32) (blocks : Lane → Nat) (marks : LaneId → List Dest) (reads rel : List MReg)
    (r : LaneId → MatRes) : State :=
  if ex = 0 then s else
  let busy := elemBusyOf ((lanesOf ex).map fun l => blocks (s.old.lane l))
  let t := s.now.cycle
  let f := s.matFlight ex .element (t + 8 + busy) marks reads r
  let s := s.matLaunch f rel (.elementPathCompletion s.old.id f.id)
  if busy = 0 then s else
  s.onDev fun d =>
    (d.onQuad s.old.core s.old.quad fun q => { q with elemBusy := some (t + busy) }).plan (t + busy)
      (.elementBusyEnd s.old.core s.old.quad)

/-- ELEMENT_BUSY_END: the path accepts its next word [10 R188, R196]. -/
def execElementBusyEnd (core : Fin 256) (quad : Fin 4) (s : State) : Out :=
  s.event fun d =>
    match (d.quad core quad).elemBusy with
    | some c => if c ≤ d.cycle then d.onQuad core quad fun q => { q with elemBusy := none } else d
    | none => d

/-- ELEMENT_PATH_COMPLETION: the results arrive [10 R196]. -/
def execElementPathCompletion (sid fid : Nat) (s : State) : Out :=
  s.event fun d =>
    match d.flight? sid fid with
    | some f => if f.kind = .element then d.landMatrix sid f else d
    | none => d

/-! ### The cell array [10 R189-R192] -/

/-- A shape class of a word: its key, its work, its lowest-numbered lane. -/
structure ShapeClass where
  key  : List Nat
  work : Nat
  low  : Nat
  deriving DecidableEq, Repr

/-- The classes of the executing lanes, from each lane's key and work [10 R189]. -/
def classesOf : List (Nat × List Nat × Nat) → List ShapeClass
  | [] => []
  | (l, key, w) :: rest =>
    let cs := classesOf rest
    if cs.any fun c => c.key == key then updWhere (fun c => c.key == key) (fun c => { c with work := c.work + w, low := min c.low l }) cs
    else { key := key, work := w, low := l } :: cs

/-- One class ranks before another [10 R190]. -/
def ranksBefore (a b : ShapeClass) : Bool := decide (b.work < a.work) || (decide (a.work = b.work) && decide (a.low < b.low))

/-- A class entered into a ranked list. -/
def rankIn (c : ShapeClass) : List ShapeClass → List ShapeClass
  | [] => [c]
  | x :: xs => if ranksBefore c x then c :: x :: xs else x :: rankIn c xs

/-- The works of the classes in rank order [10 R190]. -/
def rankedWorks (cs : List ShapeClass) : List Nat := (cs.foldr rankIn []).map ShapeClass.work

/-- A class's time on its cells [10 R192]. -/
def classTime (x : Nat × Nat) : Nat := ceilDiv x.1 x.2

/-- The first index at which a list takes its largest value. -/
def firstMax (xs : List Nat) : Nat :=
  let m := xs.foldl max 0
  xs.findIdx fun x => x == m

/-- Every class has one cell; the others are shared by largest remainder [10 R191 steps 1, 2]. -/
def shareCells (works : List Nat) : List (Nat × Nat) :=
  let share := 32 - works.length
  let total := works.sum
  let base := works.map fun w => (w, 1 + share * w / total, share * w % total)
  let left := 32 - (base.map fun x => x.2.1).sum
  let give (acc : List (Nat × Nat × Nat)) (_ : Nat) : List (Nat × Nat × Nat) :=
    let i := firstMax (acc.map fun x => x.2.2)
    acc.zipIdx.map fun x => if x.2 = i then (x.1.1, x.1.2.1 + 1, 0) else x.1
  ((List.range left).foldl give base).map fun x => (x.1, x.2.1)

/-- `j` cells are taken, one at a time, from the class other than `top` that holds the most cells and more than one; the
classes after the move with the indexes that gave [10 R191 step 3]. -/
def takeCells (top : Nat) : Nat → List (Nat × Nat) → List Nat → Option (List (Nat × Nat) × List Nat)
  | 0, xs, gave => some (xs, gave)
  | j + 1, xs, gave =>
    let spare := xs.zipIdx.map fun x => if x.2 = top ∨ x.1.2 ≤ 1 then 0 else x.1.2
    let i := firstMax spare
    if spare.getD i 0 = 0 then none
    else takeCells top j (xs.zipIdx.map fun x =>
        if x.2 = i then (x.1.1, x.1.2 - 1) else if x.2 = top then (x.1.1, x.1.2 + 1) else x.1) (i :: gave)

/-- The fewest extra cells that make a class's time strictly shorter [10 R191 step 3]. -/
def extraCells (x : Nat × Nat) : Option Nat :=
  ((List.range 32).map fun i => i + 1).find? fun j => decide (classTime (x.1, x.2 + j) < classTime x)

/-- Step 3 repeated until it is final; each move lowers the sorted list of times, so `fuel` never runs out. -/
def rebalance : Nat → List (Nat × Nat) → List (Nat × Nat)
  | 0, xs => xs
  | fuel + 1, xs =>
    let times := xs.map classTime
    let top := firstMax times
    match extraCells (xs.getD top (0, 1)) with
    | none => xs
    | some j =>
      match takeCells top j xs [] with
      | none => xs
      | some (ys, gave) =>
        if gave.all fun i => decide (classTime (ys.getD i (0, 1)) < times.getD top 0) then rebalance fuel ys else xs

/-- The time of a wave [10 R191, R192]. -/
def waveTime (works : List Nat) : Nat := if works.isEmpty then 0 else ((rebalance 1024 (shareCells works)).map classTime).foldl max 0

/-- The cell phase of a word: its waves of eight classes, one after another [10 R190, R192]. -/
def cellPhaseOf (lanes : List (Nat × List Nat × Nat)) : Nat :=
  let ws := rankedWorks (classesOf lanes)
  waveTime (ws.take 8) + waveTime ((ws.drop 8).take 8) + waveTime ((ws.drop 16).take 8) + waveTime (ws.drop 24)

/-- The array is held for a number of cycles by a flight [10 R192]. -/
def Dev.holdArray (d : Dev) (core : Fin 256) (quad : Fin 4) (fid n : Nat) : Dev :=
  if n = 0 then d else
  (d.onQuad core quad fun q => { q with cellBusy := some (d.cycle + n), cellWord := fid }).plan (d.cycle + n)
    (.cellPhaseEnd core quad)

/-- A cell word of one pass: `depth` is its pipeline depth, `work` a lane's class key and work [10 R189-R192]. -/
def State.cellWord (s : State) (ex : W32) (mult : Bool) (depth : Nat) (work : Lane → List Nat × Nat)
    (marks : LaneId → List Dest) (reads rel : List MReg) (r : LaneId → MatRes) : State :=
  if ex = 0 then s else
  let phase := cellPhaseOf ((lanesOf ex).map fun l => (l.val, work (s.old.lane l)))
  let f := s.matFlight ex (.cell mult false (depth + phase) phase) (s.now.cycle + depth + phase) marks reads r
  let s := s.matLaunch f rel (.cellWordPassEnd s.old.id f.id)
  s.onDev fun d => d.holdArray s.old.core s.old.quad f.id phase

/-- The array is free; the first rerun that waits takes it at once [08 R145]. -/
def Dev.freeArray (d : Dev) (core : Fin 256) (quad : Fin 4) : Dev :=
  (d.onQuad core quad fun q => { q with cellBusy := none, cellWord := 0 }).nextRerun core quad

/-- CELL_PHASE_END: the cell phase is over [10 R188]. -/
def execCellPhaseEnd (core : Fin 256) (quad : Fin 4) (s : State) : Out :=
  s.event fun d =>
    match (d.quad core quad).cellBusy with
    | some c => if c ≤ d.cycle then d.freeArray core quad else d
    | none => d

/-- The fault of an array error: no handle is written, the lanes are those that mismatched on the rerun
[08 R146, 21 R336]. -/
def arrayTrap (st : Strand) (bad : W32) : Trap :=
  { Trap.user 0x20 bad 0 with detail := BitVec.ofNat 64 (6 * 2 ^ 56 + st.quad.val) }

/-- CELL_WORD_PASS_END: the results arrive; a multiply whose checksums mismatch runs once more, and one that mismatches
again raises array error [08 R145, R146; 10 R192, R195]. -/
def execCellWordPassEnd (sid fid : Nat) (s : State) : Out :=
  s.event fun d =>
    match d.flight? sid fid, d.strand? sid with
    | some f, some st =>
      match f.kind with
      | .cell mult rerun dur phase =>
        let bad := if mult then d.upsets.headD 0 &&& f.lanes else 0
        let d := if mult then { d with upsets := d.upsets.tail } else d
        if bad = 0 then d.landMatrix sid f
        else if rerun then
          (d.landMatrix sid { f with writes := [], fp := [], mx := [] }).lateFault sid (arrayTrap st bad) f.pc
        else
          let d := d.onCore st.core fun k => { k with rerun := sat16 k.rerun }
          let d := d.onStrand sid fun st =>
            { st with flights := updWhere (fun x => x.id == fid) (fun x => { x with kind := .cell mult true dur phase }) st.flights }
          let d := d.onQuad st.core st.quad fun q => { q with rerunAt := q.rerunAt ++ [fid] }
          if (d.quad st.core st.quad).cellBusy.isNone then d.nextRerun st.core st.quad else d
      | _ => d
    | _, _ => d

/-- CHECKSUM_RERUN_START: the rerun takes the array for its own cell phase [08 R145]. -/
def execChecksumRerunStart (sid fid : Nat) (s : State) : Out :=
  s.event fun d =>
    match d.flight? sid fid, d.strand? sid with
    | some f, some st =>
      match f.kind with
      | .cell _ true dur phase =>
        if (d.quad st.core st.quad).rerunAt.head? = some fid ∧ (d.quad st.core st.quad).cellBusy = none then
          let d := d.onQuad st.core st.quad fun q => { q with rerunAt := q.rerunAt.tail }
          let d := d.plan (d.cycle + dur) (.cellWordPassEnd sid fid)
          if phase = 0 then d.nextRerun st.core st.quad else d.holdArray st.core st.quad fid phase
        else d
      | _ => d
    | _, _ => d

/-! ### The access queue [10 R188] -/

/-- An access-queue word sets out: it is outstanding until its completion, at an open later cycle; casket words of a
strand complete in issue order, in deterministic mode those of its whole task (log 8) [10 R188, 13 R221, 22 R346]. -/
def State.queueWord (s : State) (f : Flight) (rel : List MReg) : State :=
  s.onDev fun d =>
    let e : Instr := .matrixAccessCompletion d.focus.id f.id
    let prior := (d.all.filter fun st => st.id == d.focus.id || (d.focus.det && st.owner == d.focus.owner)).flatMap Strand.flights
    let last := (prior.filter Flight.inQueue).foldl (fun m x => max m x.due) 0
    let due := max d.someday (if d.focus.det then last + 1 else last)
    let f := { f with due := due, isM := true }
    let d := ((d.bump.onFocus fun st => st.launchFlight f).freeHandles f.lanes rel).drew
    let d := d.onQuad d.focus.core d.focus.quad fun q => { q with accessN := q.accessN + 1 }
    if f.waits = 0 then d.plan due e else d

end Sys2Proof.Machine
end

