-- ==== Sys2Proof/Machine/Matrix.lean ====
section
/-! DEFINITION. Acquiring and releasing handles, moving matrices between memory and the file, and the words that read,
write, reshape, transpose, negate, convert and copy them [07 R125-R138, 09 R179-R181]. -/

namespace Sys2Proof.Machine

/-! ### MACQ and MREL [07 R125-R127, 09 R179, R180] -/

/-- What remains of the matrix-block budgets of a region and its ancestors [07 R126, 17 R270]. -/
def Dev.blockBudget (d : Dev) (region : Nat) : Nat :=
  (d.chain region).foldl (fun m r => match d.region? r with
    | some x => min m (x.blocks - x.useBlocks)
    | none => m) (2 ^ 64)

/-- Blocks are counted in the use of a region and its ancestors [17 R270]. -/
def Dev.countBlocks (d : Dev) (region n : Nat) : Dev := d.updChain region fun r => { r with useBlocks := r.useBlocks + n }

/-- A strand is the eldest of its quadrant [09 R163, R180]. -/
def Dev.isEldest (d : Dev) (st : Strand) : Bool :=
  d.all.all fun x => x.id == st.id || x.core != st.core || x.quad != st.quad || olderStrand st x

/-- Blocks for a request of a strand: from the pool and the budgets, or for the eldest strand with the reserve
[07 R126, 09 R180]; none when they are not available. -/
def Dev.takeBlocks (d : Dev) (st : Strand) (n : Nat) : Option Dev :=
  let q := d.quad st.core st.quad
  if n ≤ min q.free (d.blockBudget st.region) then
    some ((d.onQuad st.core st.quad fun q => { q with free := q.free - n }).countBlocks st.region n)
  else if d.isEldest st ∧ q.holder = none ∧ n ≤ q.free + q.reserve then
    some ((d.onQuad st.core st.quad fun q =>
      { q with free := q.free - n, reserve := q.reserve - (n - q.free), holder := some st.id, h0 := st.holding }).countBlocks st.region n)
  else none

/-- A MACQ names a live handle in a lane (0x07, reason 2). -/
def liveFails (x : Lane) (m : MReg) : List MFail := if (x.rm m).isSome then [{ reason := 2, role := 0, m := m }] else []

/-- A predicate destination; pt is none. -/
def predMarks (l : LaneId) (pd : Option PReg) : List Dest :=
  match pd with
  | some n => if n.val = 7 then [] else [.p l n]
  | none => []

/-- The handles become live and zero, to be used once they have arrived, with the success predicate if the form has one
[07 R126, 10 R196]. `at_` is the cycle of the grant. -/
def State.acquire (s : State) (ex : W32) (m : MReg) (h : Handle) (pd : Option PReg) (n at_ : Nat) : State :=
  let due := max s.now.cycle (at_ + 4 + ceilDiv n 8)
  let f := s.matFlight ex .macq due (fun l => .m l m :: predMarks l pd) [] fun l =>
    MatRes.ok (match pd with
      | some p => [.p l p true]
      | none => []) 0
  let s := s.writeLanes ex fun _ x => x.wm m (some h)
  s.matLaunch f [] (.macqArrival s.old.id f.id)

/-- The blocks of a request [07 R126]. -/
def requestBlocks (ex : W32) (h : Handle) : Nat := laneCount ex * h.blocks

/-- The blocks of a MACQ: those that its parked request was granted, the rest taken now, an excess given back; merged
fragments hold the grants of both [09 R173, R179]. -/
def State.macqBlocks (s : State) (n : Nat) : Option State :=
  let f := s.frag
  let st := s.old
  let s' := s.onFocus fun st => st.onFrag s.iss.slot fun f => { f with grant := 0 }
  if f.grant = 0 then (s.now.takeBlocks st n).map fun d => { s with now := d }
  else if n ≤ f.granted then some (s'.onDev fun d => d.returnBlocks st.core st.quad st.region (f.granted - n))
  else (s'.now.takeBlocks st (n - f.granted)).map fun d => { s with now := d }

def execMacq (h : Hdr) (d : MReg) (r c : Fin 16) (ew : EW) (s : State) : Out :=
  let ex := s.exec h
  let z := Handle.zero (r.val + 1) (c.val + 1) ew
  let n := requestBlocks ex z
  orTrap (matFault ex 0x07 fun l => liveFails (s.old.lane l) d) s <|
    if ex = 0 then s
    else match s.macqBlocks n with
      | some t => t.acquire ex d z none n (if n ≤ s.frag.granted then s.frag.grantAt else s.now.cycle)
      | none => s.setBlock (.macq n)

def execMacqTry (h : Hdr) (d : MReg) (r c : Fin 16) (ew : EW) (pd : PReg) (s : State) : Out :=
  let ex := s.exec h
  let z := Handle.zero (r.val + 1) (c.val + 1) ew
  let n := requestBlocks ex z
  orTrap (matFault ex 0x07 fun l => liveFails (s.old.lane l) d) s <|
    if ex = 0 then s
    else match s.now.takeBlocks s.old n with
      | some dev => { s with now := dev }.acquire ex d z (some pd) n s.now.cycle
      | none =>
        let f := s.matFlight ex .macqFail (s.now.cycle + 4) (fun l => .m l d :: predMarks l (some pd)) [] fun l =>
          MatRes.ok [.p l pd false] 0
        s.matLaunch f [] (.macqTryFailArrival s.old.id f.id)

/-- MACQ_ARRIVAL: the handles, and the predicate, arrive [07 R126]. -/
def execMacqArrival (sid fid : Nat) (s : State) : Out :=
  s.event fun d =>
    match d.flight? sid fid with
    | some f => if f.kind = .macq then d.landMatrix sid f else d
    | none => d

/-- MACQ_TRY_FAIL_ARRIVAL: the false predicates arrive, and the handles stay empty [10 R196]. -/
def execMacqTryFailArrival (sid fid : Nat) (s : State) : Out :=
  s.event fun d =>
    match d.flight? sid fid with
    | some f => if f.kind = .macqFail then d.landMatrix sid f else d
    | none => d

/-- The blocks that a parked fragment waits for. -/
def Frag.macqWait (f : Frag) : Option Nat :=
  match f.st with
  | .parked (.macq n) _ => some n
  | _ => none

/-- A parked request: its strand, its slot, its blocks. -/
abbrev MacqReq := Strand × Fin 4 × Nat

/-- One parked request is considered before another: those without a yield mark first, then by age, then by the lowest
lane [09 R177 rule 4, R179]. -/
def reqBefore (a b : Strand × Fin 4 × Frag) : Bool :=
  if a.2.2.yield != b.2.2.yield then !a.2.2.yield
  else if a.1.id = b.1.id then decide (lowLane a.2.2.mask < lowLane b.2.2.mask) else olderStrand a.1 b.1

def insertReq (x : Strand × Fin 4 × Frag) : List (Strand × Fin 4 × Frag) → List (Strand × Fin 4 × Frag)
  | [] => [x]
  | y :: ys => if reqBefore x y then x :: y :: ys else y :: insertReq x ys

/-- The parked requests of a quadrant in age order. -/
def Dev.macqParked (d : Dev) (core : Fin 256) (quad : Fin 4) : List MacqReq :=
  let fs := (d.all.filter fun st => st.core == core && st.quad == quad).flatMap fun st =>
    (st.live.filter fun x => x.2.macqWait.isSome).map fun x => (st, x.1, x.2)
  (fs.foldr insertReq []).map fun x => (x.1, x.2.1, (x.2.2.macqWait).getD 0)

/-- Each parked request in turn is granted if its blocks are available, and skipped if they are not [09 R179]. -/
def Dev.grantParked (d : Dev) : List MacqReq → Dev
  | [] => d
  | (st, slot, n) :: rest =>
    let d := match d.takeBlocks ((d.strand? st.id).getD st) n with
      | none => d
      | some d =>
        d.onStrand st.id fun st => st.onFrag slot fun f => { f.wake with grant := n + 1, grantAt := d.cycle }
    d.grantParked rest

/-- MACQ_PARKED_GRANT: the quadrant considers its parked requests in age order [09 R179, R180]. -/
def execMacqParkedGrant (core : Fin 256) (quad : Fin 4) (s : State) : Out :=
  s.event fun d => d.grantParked (d.macqParked core quad)

def execMrel (h : Hdr) (d : MReg) (s : State) : Out :=
  orTrap (s.matCheck (s.exec h) [(0, d)] fun _ => []) s (s.onDev fun dev => dev.freeHandles (s.exec h) [d])

/-! ### Lines of memory [07 R130] -/

/-- The lines of a dense form: addresses and lengths in bytes. -/
def denseLines (form : MatForm) (h : Handle) (base stride : W64) : List (Nat × Nat) :=
  let w := ewBits h.w
  match form with
  | .row => (List.range h.rows).map fun k => ((base + BitVec.ofNat 64 k * stride).toNat, h.cols * w / 8)
  | .col => (List.range h.cols).map fun k => ((base + BitVec.ofNat 64 k * stride).toNat, h.rows * w / 8)
  | .bcast => [(base.toNat, h.cols * w / 8)]
  | .sparse => []

/-- A line that is no whole number of bytes (reason 6). -/
def lineFails (form : MatForm) (x : Lane) (m : MReg) : List MFail :=
  let h := x.hnd m
  let n := match form with
    | .row | .bcast => h.cols
    | .col => h.rows
    | .sparse => 0
  failIf (n * ewBits h.w % 8 != 0) 6 (0, m)

/-- What a base and a stride must be multiples of [07 R130, R131]. -/
def lineUnit (form : MatForm) (h : Handle) : Nat := if form = .sparse then 16 else max 1 (ewBits h.w / 8)

/-- Alignment of a matrix access: the base, and the stride where the form has one [07 R130, R131]. -/
def State.lineAlign (s : State) (ex : W32) (form : MatForm) (m : MReg) (base stride : LaneId → W64) : Option Trap :=
  let bad := maskOf fun l =>
    let u := lineUnit form ((s.old.lane l).hnd m)
    hasLane ex l && ((base l).toNat % u != 0 || (stride l).toNat % u != 0)
  if bad = 0 then none else some (Trap.user 0x05 bad (base (lowLane bad)))

/-- The accesses of a lane's lines, in order. -/
def Dev.accessLines (d : Dev) (st : Strand) (last : Option Xlat) (acc : Access) :
    List (Nat × Nat) → Except Fail (List Piece)
  | [] => .ok []
  | (va, n) :: rest =>
    match d.access st last acc va n with
    | .error e => .error e
    | .ok ps =>
      match d.accessLines st last acc rest with
      | .error e => .error e
      | .ok qs => .ok (ps ++ qs)

/-- The base and the stride of a lane. -/
def State.baseOf (s : State) (a : GReg) (l : LaneId) : W64 := (s.old.lane l).rpair a
def State.strideOf (s : State) (b : GReg) (l : LaneId) : W64 := ((s.old.lane l).rg b).signExtend 64

/-! ### Sparse data [07 R131, R132] -/

/-- The padded bytes of a run's values [07 R131]. -/
def valueBytes (pop w : Nat) : Nat := ceilDiv (ceilDiv (pop * w) 8) 16 * 16

/-- The set bits of a mask of 128 bits. -/
def maskBits (m : Nat) : List Nat := (List.range 128).filter fun i => m / 2 ^ i % 2 == 1

/-- What is read of a lane's sparse image: the pieces reached; the bytes, with peers' values still to come at their
offsets; whether the final run's mask has a bit beyond the run; and a mask that a peer has to send first. -/
structure SparseRead where
  ps    : List Piece
  bytes : List Byte
  far   : List (Nat × Run)
  bad   : Bool
  need  : Option Nat

def SparseRead.none : SparseRead := { ps := [], bytes := [], far := [], bad := false, need := Option.none }

/-- Bytes that a peer has sent for the group [23 R361]. -/
def aheadBytes (ahead : List (Nat × List Byte)) (k n : Nat) : Option (List Byte) :=
  (ahead.find? fun x => decide (x.1 ≤ k) && decide (k + n ≤ x.1 + x.2.length)).map fun x => (x.2.drop (k - x.1)).take n

/-- Bytes of a peer as a party sees them, where a clasp binds some [14 R241]. -/
def Dev.seenBy (d : Dev) (party k : Nat) (bs : List Byte) : List Byte :=
  if d.clasps.isEmpty then bs else bs.zipIdx.map fun x => ((d.boundAt (k + x.2)).bind fun c => c.written party (k + x.2)).getD x.1

/-- The bytes of a mask: a peer's are those that it has sent for the group [07 R131, 23 R361]. -/
def Dev.maskAt (d : Dev) (ahead : List (Nat × List Byte)) (party k : Nat) : Option (List Byte) :=
  if (peerOf k).isSome then (aheadBytes ahead k 16).map (d.seenBy party k) else some (d.readFor party k 16)

/-- The bytes of a run of values: a peer's that have come with a mask, or what stands in memory [14 R229]. -/
def Dev.valueAt (d : Dev) (ahead : List (Nat × List Byte)) (party : Nat) (r : Run) : List Byte :=
  match aheadBytes ahead r.key r.len with
  | some bs => if (peerOf r.key).isSome then d.seenBy party r.key bs else d.readFor party r.key r.len
  | none => d.readFor party r.key r.len

/-- The runs of values that peers still have to send. -/
def stillFar (ahead : List (Nat × List Byte)) (rs : List (Nat × Run)) : List (Nat × Run) :=
  rs.filter fun r => (aheadBytes ahead r.2.key r.2.len).isNone

/-- Runs with their offsets in an image. -/
def offsetsOf : Nat → List Run → List (Nat × Run)
  | _, [] => []
  | off, r :: rs => (off, r) :: offsetsOf (off + r.len) rs

/-- A lane's sparse image, checked and read run by run, each run's mask before its values [07 R122, R131]. `off` is where
its bytes stand in the image, `left` counts the elements still to come. -/
def Dev.sparseRead (d : Dev) (st : Strand) (last : Option Xlat) (ahead : List (Nat × List Byte)) (party w : Nat) :
    Nat → Nat → Nat → Nat → Except Fail SparseRead
  | 0, _, _, _ => .ok SparseRead.none
  | fuel + 1, off, va, left =>
    if left = 0 then .ok SparseRead.none else
    match d.access st last .read va 16 with
    | .error e => .error e
    | .ok ps =>
      match d.maskAt ahead party (keyOf ps) with
      | none => .ok { SparseRead.none with ps := ps, need := some (keyOf ps) }
      | some mb =>
        let bits := maskBits (ofBytes mb)
        let n := valueBytes bits.length w
        match d.access st last .read ((va + 16) % 2 ^ 64) n with
        | .error e => .error e
        | .ok qs =>
          match d.sparseRead st last ahead party w fuel (off + 16 + n) ((va + 16 + n) % 2 ^ 64) (left - 128) with
          | .error e => .error e
          | .ok x =>
            .ok { x with ps := ps ++ qs ++ x.ps, bytes := mb ++ (runsOf qs).flatMap (d.valueAt ahead party) ++ x.bytes
                         far := stillFar ahead (offsetsOf (off + 16) (runsOf qs)) ++ x.far
                         bad := x.bad || (decide (left < 128) && bits.any fun i => decide (left ≤ i)) }

/-- The elements of one run, from its set bits and the packed values. -/
def runElems : Nat → List Nat → List W32 → List W32
  | 0, _, _ => []
  | n + 1, bits, vals =>
    let i := 0
    if bits.headD 1 = i then vals.headD 0 :: runElems n (bits.tail.map fun x => x - 1) vals.tail
    else 0 :: runElems n (bits.map fun x => x - 1) vals

/-- The elements of a sparse image [07 R131]. -/
def sparseElems (w : Nat) : Nat → Nat → List Byte → List W32
  | 0, _, _ => []
  | fuel + 1, left, bs =>
    if left = 0 then [] else
    let bits := maskBits (ofBytes (bs.take 16))
    let n := valueBytes bits.length w
    let vals := cutBits w bits.length (ofBytes ((bs.drop 16).take n))
    runElems (min left 128) bits vals ++ sparseElems w fuel (left - 128) (bs.drop (16 + n))

/-- Elements packed as a line of bytes [07 R130]. -/
def packLine (w : Nat) (els : List W32) : Nat := els.foldr (fun e acc => e.toNat % 2 ^ w + acc * 2 ^ w) 0

/-- The sparse image of a sequence of elements [07 R132]. -/
def sparseImage (w : Nat) : Nat → List W32 → List Byte
  | 0, _ => []
  | fuel + 1, els =>
    if els.isEmpty then [] else
    let run := els.take 128
    let bits := run.zipIdx.filter fun x => x.1 != 0
    let mask := (bits.map fun x => 2 ^ x.2).sum
    toBytes 16 mask ++ toBytes (valueBytes bits.length w) (packLine w (bits.map Prod.fst)) ++ sparseImage w fuel (els.drop 128)

/-! ### MLD [07 R129-R133] -/

/-- A dense load: handle, shape and line checks, alignment, the memory checks of every line of every lane, then the
read. -/
def mldDense (h : Hdr) (d : MReg) (a : GReg) (form : MatForm) (stride : LaneId → W64) (s : State) : Out :=
  let ex := s.exec h
  let base := s.baseOf a
  let rs := (lanesOf ex).map fun l =>
    (l, s.seen.accessLines s.old (s.old.lane l).lastPage .read (denseLines form ((s.old.lane l).hnd d) (base l) (stride l)))
  orTrap (s.matCheck ex [(0, d)] (fun x => lineFails form x d) <|> s.lineAlign ex form d base stride <|>
      laneFault .read (failsOf rs)) s <|
    if ex = 0 then s else
    let t := s.touchLanes (oksOf rs)
    let runs := (oksOf rs).map fun x => (x.1, runsOf x.2)
    let f := t.matFlight ex .access 0 (fun l => [.m l d]) [] fun _ => MatRes.ok [] 0
    let f := { f with fill := .mld d form, bufs := runs.map fun x => (x.1, t.now.readRunsFor (partyOf s.old x.1) x.2)
                      waits := (asksFor s.iss.scp.isSome runs).length, far := farRuns runs
                      laid := s.now.overLanes (partyOf s.old) runs }
    (t.onDev fun dev => dev.fetchRemote f.pc f.id (asksFor s.iss.scp.isSome runs)).queueWord f []

def execMldRow (h : Hdr) (d : MReg) (a b : GReg) (s : State) : Out := mldDense h d a .row (s.strideOf b) s
def execMldCol (h : Hdr) (d : MReg) (a b : GReg) (s : State) : Out := mldDense h d a .col (s.strideOf b) s
def execMldBcast (h : Hdr) (d : MReg) (a : GReg) (s : State) : Out := mldDense h d a .bcast (fun _ => 0) s

/-- The masks that lanes still need of peers, with the bytes to ask for; lanes that share one ask for it once. Under SCP the
rest of its 128-byte block comes with it, so that an image inside one block is read by one transaction [14 R229]. -/
def masksNeeded (scp : Bool) (oks : List (LaneId × SparseRead)) : List (LaneId × Nat × Nat) :=
  oks.foldl (fun ks x => match x.2.need with
    | none => ks
    | some k => if ks.any fun y => y.2.1 == k then ks else ks ++ [(x.1, k, if scp then 128 - k % 128 else 16)]) []

/-- MLD.sparse: the mask check follows the memory checks of every lane [07 R122, R131]. A mask at a peer is asked for before
the group issues, since where the values lie depends on it; values that have not come with it come by their own
transactions (log 19). -/
def execMldSparse (h : Hdr) (d : MReg) (a : GReg) (s : State) : Out :=
  let ex := s.exec h
  let base := s.baseOf a
  let rs := (lanesOf ex).map fun l =>
    let x := s.old.lane l
    (l, s.seen.sparseRead s.old x.lastPage s.frag.ahead (partyOf s.old l) (ewBits (x.hnd d).w) 2 0 (base l).toNat
      (x.hnd d).els.length)
  let oks := oksOf rs
  let need := masksNeeded s.iss.scp.isSome oks
  let beyond := matFault ex 0x06 fun l => failIf (oks.any fun x => x.1 == l && x.2.bad) 7 (0, d)
  let early := s.matCheck ex [(0, d)] (fun x => lineFails .sparse x d) <|> s.lineAlign ex .sparse d base (fun _ => 0)
  orTrap (if need.isEmpty then early <|> laneFault .read (failsOf rs) <|> beyond else early) s <|
    if ex = 0 then s
    else if !need.isEmpty then (s.onDev Dev.bump).setBlock (.masks s.now.next need)
    else
      let t := s.touchLanes (oks.map fun x => (x.1, x.2.ps))
      let asks := (oks.flatMap fun x => x.2.far.flatMap fun r => asksOf x.1 r.1 [r.2]).foldl addAsk []
      let f := t.matFlight ex .access 0 (fun l => [.m l d]) [] fun _ => MatRes.ok [] 0
      let f := { f with fill := .mld d .sparse, bufs := oks.map fun x => (x.1, x.2.bytes), waits := asks.length
                        far := farRuns (oks.map fun x => (x.1, runsOf x.2.ps))
                        laid := if s.now.clasps.isEmpty then [] else oks.flatMap fun x => x.2.far.flatMap fun r =>
                          (s.now.overRuns (partyOf s.old x.1) r.1 [r.2]).map fun y => (x.1, y) }
      (t.onDev fun dev => dev.fetchRemote f.pc f.id asks).queueWord f []

/-- The elements that a matrix load's bytes become [07 R130, R131]. -/
def loadElems (form : MatForm) (h : Handle) (bs : List Byte) : List W32 :=
  let w := ewBits h.w
  match form with
  | .row => cutBits w (h.rows * h.cols) (ofBytes bs)
  | .col =>
    let els := cutBits w (h.rows * h.cols) (ofBytes bs)
    (h.fill fun i j => els.getD (j * h.rows + i) 0).els
  | .bcast =>
    let els := cutBits w h.cols (ofBytes bs)
    (h.fill fun _ j => els.getD j 0).els
  | .sparse => sparseElems w 2 (h.rows * h.cols) bs

/-- A lane's handle as a matrix load leaves it. -/
def mldWrites (st : Strand) (m : MReg) (form : MatForm) (bufs : List (LaneId × List Byte)) : List RegWrite :=
  bufs.map fun x =>
    let h := (st.lane x.1).hnd m
    .m x.1 m (some { h with els := loadElems form h x.2 })

/-- MATRIX_ACCESS_COMPLETION: an access-queue word's accesses have been applied and its result arrives [10 R188,
07 R129, 13 R220]. -/
def execMatrixAccessCompletion (sid fid : Nat) (s : State) : Out :=
  s.event fun d =>
    match d.flight? sid fid, d.strand? sid with
    | some f, some st =>
      if f.waits ≠ 0 then d else
      let done (d : Dev) (f : Flight) : Dev :=
        (d.onQuad st.core st.quad fun q => { q with accessN := q.accessN - 1 }).landMatrix sid f
      match f.kind, f.fill with
      | .access, .mld m form => done d { f with writes := mldWrites st m form f.bufs }
      | .access, _ => done d f
      | .casket _ _ _, _ =>
        let bad := d.casketBad st.core f
        let d := d.applyCasket sid f
        let d := match d.flight? sid fid with
          | none => d
          | some f => done d f
        match bad with
        | [] => d
        | x :: _ =>
          d.lateFault sid { Trap.user 0x21 (badLanes bad) 0 with detail := eccDetail (Key.casket st.core x.2) } f.pc
      | _, _ => d
    | _, _ => d

/-! ### MST [07 R129-R133] -/

/-- The bytes of line `k` of a dense store. -/
def storeLine (form : MatForm) (h : Handle) (k : Nat) : List Byte :=
  let w := ewBits h.w
  match form with
  | .row | .bcast => toBytes (h.cols * w / 8) (packLine w ((List.range h.cols).map fun j => h.at k j))
  | .col => toBytes (h.rows * w / 8) (packLine w ((List.range h.rows).map fun i => h.at i k))
  | .sparse => sparseImage w 2 h.els

/-- The lines that a store writes; the sparse image is one line [07 R132]. -/
def storeLines (form : MatForm) (h : Handle) (base stride : W64) : List (Nat × Nat) :=
  match form with
  | .sparse => [(base.toNat, (storeLine .sparse h 0).length)]
  | _ => denseLines form h base stride

/-- The bytes of a store's lines, in line order. -/
def storeImage (form : MatForm) (h : Handle) : List Byte :=
  match form with
  | .sparse => storeLine .sparse h 0
  | .row | .bcast => (List.range h.rows).flatMap fun k => storeLine .row h k
  | .col => (List.range h.cols).flatMap fun k => storeLine .col h k

/-- A matrix store: the lines are written at issue, lanes and lines ascending, and the word stays outstanding in the
access queue until what it writes at peers has been applied [07 R133, 10 R188]. -/
def mstWord (h : Hdr) (d : MReg) (a : GReg) (form : MatForm) (stride : LaneId → W64) (lw : Bool) (s : State) : Out :=
  let ex := s.exec h
  let base := s.baseOf a
  let rs := (lanesOf ex).map fun l =>
    (l, s.seen.accessLines s.old (s.old.lane l).lastPage .write (storeLines form ((s.old.lane l).hnd d) (base l) (stride l)))
  orTrap (s.matCheck ex [(0, d)] (fun x => lineFails form x d) <|> s.lineAlign ex form d base stride <|>
      laneFault .write (failsOf rs)) s <|
    if ex = 0 then s else
    let image (l : LaneId) : List Byte := storeImage form ((s.old.lane l).hnd d)
    let f := s.matFlight ex .access 0 (fun _ => []) [] fun _ => MatRes.ok [] 0
    let f := { f with waits := ((oksOf rs).map fun x => s.now.putCount (s.iss.scp.isSome && inBlock (runsOf x.2)) (runsOf x.2) (image x.1)).sum }
    ((s.touchLanes (oksOf rs)).storeHeld f.id (oksOf rs) image).queueWord f (if lw then [d] else [])

def execMstRow (h : Hdr) (d : MReg) (a b : GReg) (lw : Bool) (s : State) : Out := mstWord h d a .row (s.strideOf b) lw s
def execMstCol (h : Hdr) (d : MReg) (a b : GReg) (lw : Bool) (s : State) : Out := mstWord h d a .col (s.strideOf b) lw s
def execMstSparse (h : Hdr) (d : MReg) (a : GReg) (lw : Bool) (s : State) : Out := mstWord h d a .sparse (fun _ => 0) lw s

/-! ### Element access, fill and shape [07 R134, R135] -/

/-- The blocks of a lane's handle; the larger of two handles' [10 R196]. -/
def blocks1 (m : MReg) (x : Lane) : Nat := (x.hnd m).blocks
def blocks2 (d m : MReg) (x : Lane) : Nat := max (x.hnd d).blocks (x.hnd m).blocks

/-- A word of the element path that writes handle `d`. -/
def elemM (s : State) (ex : W32) (d : MReg) (blocks : Lane → Nat) (reads rel : List MReg) (r : Lane → Handle × W32) : State :=
  s.elemWord ex blocks (fun l => [.m l d]) reads rel fun l =>
    MatRes.ok [.m l d (some (r (s.old.lane l)).1)] (r (s.old.lane l)).2

/-- A word of the element path that writes register `g`. -/
def elemG (s : State) (ex : W32) (g : GReg) (m : MReg) (la : Bool) (r : Lane → W32) : State :=
  s.elemWord ex (blocks1 m) (fun l => [.g l g]) [m] (lastUse [(la, m)]) fun l => MatRes.ok [.g l g (r (s.old.lane l))] 0

/-- The low bits of a register that an element of a width takes. -/
def lowBits (w : EW) (v : W32) : W32 := v &&& BitVec.ofNat 32 (2 ^ ewBits w - 1)

def execMfill (h : Hdr) (d : MReg) (g : GReg) (s : State) : Out :=
  orTrap (s.matCheck (s.exec h) [(0, d)] fun _ => []) s <|
    elemM s (s.exec h) d (blocks1 d) [] [] fun x => ((x.hnd d).fill fun _ _ => lowBits (x.hnd d).w (x.rg g), 0)

/-- The row and the column of an index [07 R135]. -/
def idxRow (v : W32) : Nat := v.toNat / 16 % 16
def idxCol (v : W32) : Nat := v.toNat % 16

/-- An index outside the shape (reason 5). -/
def idxFails (h : Handle) (v : W32) (o : Operand) : List MFail :=
  failIf (decide (h.rows ≤ idxRow v) || decide (h.cols ≤ idxCol v)) 5 o

def execMget (h : Hdr) (a : MReg) (g : GReg) (la : Bool) (s : State) : Out :=
  orTrap (s.matCheck (s.exec h) [(1, a)] fun x => idxFails (x.hnd a) (x.rg g) (1, a)) s <|
    elemG s (s.exec h) g a la fun x => (x.hnd a).at (idxRow (x.rg g)) (idxCol (x.rg g))

def execMput (h : Hdr) (d : MReg) (g : GReg) (s : State) : Out :=
  orTrap (s.matCheck (s.exec h) [(0, d)] fun x => idxFails (x.hnd d) (x.rg (g.plus 1)) (0, d)) s <|
    elemM s (s.exec h) d (blocks1 d) [] [] fun x =>
      let k := x.rg (g.plus 1)
      ((x.hnd d).fill fun i j => if i = idxRow k ∧ j = idxCol k then lowBits (x.hnd d).w (x.rg g) else (x.hnd d).at i j, 0)

/-- The width code of MQ [07 R125]. -/
def ewCode : EW → Nat
  | .w4 => 0
  | .w8 => 1
  | .w16 => 2
  | .w32 => 3

def shapeWord (h : Handle) : W32 :=
  BitVec.ofNat 32 (h.rows + h.cols * 2 ^ 8 + ewCode h.w * 2 ^ 16 + h.blocks * 2 ^ 24)

def execMshape (h : Hdr) (a : MReg) (g : GReg) (la : Bool) (s : State) : Out :=
  orTrap (s.matCheck (s.exec h) [(1, a)] fun _ => []) s (elemG s (s.exec h) g a la fun x => shapeWord (x.hnd a))

/-! ### Transpose, negate, convert, copy, reshape [07 R136-R138] -/

/-- A word of two handles: the checks, and the elements of md from ma's. -/
def elem2 (h : Hdr) (d a : MReg) (la : Bool) (shape : Lane → List MFail) (r : Handle → Handle → Handle × W32) (s : State) : Out :=
  orTrap (s.matCheck (s.exec h) [(0, d), (1, a)] shape) s <|
    elemM s (s.exec h) d (blocks2 d a) [a] (lastUse [(la, a)]) fun x => r (x.hnd d) (x.hnd a)

/-- md has the shape of ma; its width too. -/
def sameShape (d a : MReg) (x : Lane) : List MFail := shapeIs x (0, d) (x.hnd a).rows (x.hnd a).cols
def sameWidth (d a : MReg) (x : Lane) : List MFail := widthIs x (0, d) (x.hnd a).w

def execMtrn (h : Hdr) (d a : MReg) (la : Bool) (s : State) : Out :=
  elem2 h d a la (fun x => shapeIs x (0, d) (x.hnd a).cols (x.hnd a).rows ++ sameWidth d a x)
    (fun hd ha => (hd.fill fun i j => ha.at j i, 0)) s

/-- Elements converted one by one, with the OR of their flags. -/
def mapEls (h : Handle) (f : W32 → W32 × W32) (src : List W32) : Handle × W32 :=
  ({ h with els := src.map fun e => (f e).1 }, src.foldl (fun fl e => fl ||| (f e).2) 0)

/-- The negation of an element [07 R137]. -/
def negEl (t : ElTy) (e : W32) : W32 × W32 :=
  match t with
  | .flt f => if (f.val e.toNat).isNan then (BitVec.ofNat 32 f.qnan, flagIf (f.val e.toNat).isSnan flagNV)
              else (e ^^^ BitVec.ofNat 32 f.signBit, 0)
  | .int _ w => ((-e) &&& BitVec.ofNat 32 (2 ^ w - 1), 0)

def execMneg (h : Hdr) (d a : MReg) (la : Bool) (fm : Fin 4) (s : State) : Out :=
  elem2 h d a la (fun x => sameShape d a x ++ sameWidth d a x ++ fmIs x (1, a) fm.val ++ fmIs x (0, d) fm.val)
    (fun hd ha => mapEls hd (negEl (fmTyD ha.w fm.val)) ha.els) s

def execMcvt (h : Hdr) (d a : MReg) (sfm : Fin 4) (rnd : Rnd) (la : Bool) (fm : Fin 4) (s : State) : Out :=
  elem2 h d a la (fun x => sameShape d a x ++ fmIs x (1, a) sfm.val ++ fmIs x (0, d) fm.val)
    (fun hd ha => mapEls hd (fun e => pat32 (convertEl (fmTyD ha.w sfm.val) (fmTyD hd.w fm.val) rnd e.toNat)) ha.els) s

def execMcopy (h : Hdr) (d a : MReg) (la : Bool) (s : State) : Out :=
  elem2 h d a la (fun x => sameShape d a x ++ sameWidth d a x) (fun hd ha => ({ hd with els := ha.els }, 0)) s

/-- The bits of a handle's sequence. -/
def seqBits (h : Handle) : Nat := h.rows * h.cols * ewBits h.w

def execMreshape (h : Hdr) (d a : MReg) (la : Bool) (s : State) : Out :=
  elem2 h d a la (fun x => failIf (seqBits (x.hnd d) != seqBits (x.hnd a)) 8 (0, d))
    (fun hd ha => ({ hd with els := cutBits (ewBits hd.w) (hd.rows * hd.cols) ha.bits }, 0)) s

end Sys2Proof.Machine
end

