-- ==== Sys2Proof/Machine/Casket.lean ====
section
/-! DEFINITION. The casket: allocating and freeing banks, adding into, writing and reading elements, and the turn order of
deterministic mode [13 R217-R221, 22 R346, R347]. -/

namespace Sys2Proof.Machine

/-! ### Banks [13 R217, R218] -/

/-- What remains of the casket-bank budgets of a region and its ancestors. -/
def Dev.bankBudget (d : Dev) (region : Nat) : Nat :=
  (d.chain region).foldl (fun m r => match d.region? r with
    | some x => min m (x.banks - x.useBanks)
    | none => m) (2 ^ 64)

/-- A bank of a core that no run holds. -/
def Core.bankFree (k : Core) (b : Nat) : Bool := !(k.banks.any fun r => decide (r.first ≤ b) && decide (b < r.first + r.n))

/-- The lowest-numbered run of n free banks of a core. -/
def Core.findBanks (k : Core) (n : Nat) : Option Nat :=
  (List.range (65 - n)).find? fun b => (List.range n).all fun i => k.bankFree (b + i)

/-- Bytes of a range of keys that read as unlisted bytes do: zero [13 R217, R202]. -/
def Dev.zeroRange (d : Dev) (lo n : Nat) : Dev :=
  { d with mem := d.mem.filter fun c => !(decide (lo ≤ c.1) && decide (c.1 < lo + n))
           eccOne := d.eccOne.filter fun w => !(decide (lo ≤ 8 * w) && decide (8 * w < lo + n))
           eccBad := d.eccBad.filter fun w => !(decide (lo ≤ 8 * w) && decide (8 * w < lo + n)) }

/-- A run of banks is allocated to a task and zeroed, and counts in the use of its region and its ancestors. -/
def Dev.takeBanks (d : Dev) (c : Fin 256) (region task first n : Nat) : Dev :=
  let d := d.onCore c fun k => { k with banks := k.banks ++ [{ first := first, n := n, task := task, closing := false }] }
  let d := d.updChain region fun r => { r with useBanks := r.useBanks + n }
  d.zeroRange (Key.casket c (first * 2 ^ 16)) (n * 2 ^ 16)

/-- CALLOC's result arrives with the banks zeroed. -/
def State.callocGive (s : State) (ex : W32) (d : GReg) (first : Nat) : State :=
  s.queueWord (s.matFlight ex .access 0 (fun l => [.g l d]) [] fun l => MatRes.ok [.g l d (BitVec.ofNat 32 first)] 0) []

/-- CALLOC: its checks are made each time it issues [02 R28]. It uses a run of its count that has been granted to its
fragment, the first of several where fragments with grants have merged; the others go back (log 14). -/
def execCalloc (h : Hdr) (d b : GReg) (s : State) : Out :=
  if !s.acts h then .next s else
  let st := s.old
  let n := ((st.lane (s.low h)).rg b).toNat
  let task := st.laneTask (s.low h)
  let drop (held : List Nat) : State := (s.onDev fun dev => held.foldl (fun dev b => dev.dropBanks st.core st.region b) dev).onFocus
    fun st => st.onFrag s.iss.slot fun f => { f with bank := [] }
  let bare := drop s.frag.bank
  if n = 0 ∨ 64 < n ∨ bare.now.bankBudget st.region < n then
    .next (s.trap (Trap.user 0x15 (s.exec h) (BitVec.ofNat 64 n)))
  else
    match s.frag.bank.find? fun b => (s.now.core st.core).banks.any fun r => r.first == b && r.n == n && r.task == task with
    | some first => .next ((drop (s.frag.bank.filter fun b => b != first)).callocGive (s.exec h) d first)
    | none =>
      match (bare.now.core st.core).findBanks n with
      | some first => .next ((bare.onDev fun dev => dev.takeBanks st.core st.region task first n).callocGive (s.exec h) d first)
      | none => .next (s.setBlock (.calloc n (s.low h)))

/-- CALLOC_GRANT: a run of free banks is granted to a parked CALLOC, whose fragment is ready at the group. One whose count
has come to be above what remains of the budget is ready without a grant, and its checks then raise 0x15 [13 R218,
02 R28]. -/
def execCallocGrant (sid : Nat) (slot : Fin 4) (s : State) : Out :=
  s.event fun d =>
    match d.waitOf sid slot, d.strand? sid with
    | some (.calloc n l), some st =>
      if d.bankBudget st.region < n then d.wakeFrag sid slot else
      match (d.core st.core).findBanks n with
      | none => d
      | some first =>
        let d := d.takeBanks st.core st.region (st.laneTask l) first n
        (d.onStrand sid fun st => st.onFrag slot fun f => { f with bank := [first] }).wakeFrag sid slot
    | _, _ => d

/-- A drain whose source run overlaps a run of banks of a core [16 R261]. -/
def EngOp.drains (o : EngOp) (c : Fin 256) (run : BankRun) : Bool :=
  let meets (first count : Nat) : Bool :=
    o.src == Key.casket c 0 && decide (first < run.first + run.n) && decide (run.first < first + count)
  match o.kind with
  | .drainMem first count _ _ => meets first count
  | .drainAdd first count _ _ _ _ _ => meets first count
  | .copy _ => false
  | .gather _ _ _ _ _ _ => false
  | .scatter _ _ _ _ _ _ => false
  | .coll _ _ _ _ _ _ => false

/-- Casket words in flight, or drains, touch a run of banks of a core [13 R218, 16 R261]. -/
def Dev.banksBusy (d : Dev) (c : Fin 256) (run : BankRun) : Bool :=
  (d.ops.any fun o => o.drains c run) || d.all.any fun st => st.core == c && st.flights.any fun f => match f.kind with
    | .casket _ _ items => items.any fun x => decide (run.first ≤ x.addr / 2 ^ 16) && decide (x.addr / 2 ^ 16 < run.first + run.n)
    | _ => false

/-- A casket fault that names an address [13 R218, R220; 21 R329]. -/
def casketTrap (code : Nat) (lanes : W32) (addr : W64) : Trap := { Trap.user code lanes addr with object := addr }

def execCfree (h : Hdr) (a : GReg) (s : State) : Out :=
  if !s.acts h then .next s else
  let st := s.old
  let v := (st.lane (s.low h)).rg a
  match (s.now.core st.core).banks.find? fun r => r.first == v.toNat && r.task == st.laneTask (s.low h) && !r.closing with
  | none => .next (s.trap (casketTrap 0x14 (s.exec h) (v.zeroExtend 64)))
  | some run =>
    if s.now.banksBusy st.core run then
      let f := { s.matFlight (s.exec h) .access 0 (fun _ => []) [] fun _ => MatRes.ok [] 0 with waits := 1 }
      let s := s.onDev fun d => d.onCore st.core fun k =>
        { k with banks := updWhere (fun r => r.first == run.first) (fun r => { r with closing := true }) k.banks }
      .next ((s.queueWord f []).setWait (.cfree run.first f.id))
    else .next (s.onDev fun d => d.dropBanks st.core st.region run.first)

/-- CFREE_COMPLETION: the casket words accepted for the banks have completed, and the banks are freed [13 R218]. -/
def execCfreeCompletion (sid : Nat) (slot : Fin 4) (s : State) : Out :=
  s.event fun d =>
    match d.waitOf sid slot, d.strand? sid with
    | some (.cfree first fid), some st =>
      match (d.core st.core).banks.find? fun r => r.first == first with
      | none => d
      | some run =>
        if d.banksBusy st.core run then d else
        let d := d.dropBanks st.core st.region first
        let d := d.onQuad st.core st.quad fun q => { q with accessN := q.accessN - 1 }
        let d := d.onStrand sid fun st => { st with flights := st.flights.filter fun f => f.id != fid }
        d.wakeFrag sid slot
    | _, _ => d

/-! ### CACC and CLD [13 R219-R221] -/

/-- The casket addresses of a lane's elements, row-major [13 R220]. -/
def casketAddrs (h : Handle) (base stride : W32) : List Int :=
  (List.range h.rows).flatMap fun i => (List.range h.cols).map fun j =>
    (base.toNat : Int) + (i : Int) * stride.toInt + 4 * (j : Int)

/-- A bank of a core is allocated to a task. -/
def Core.ownsBank (k : Core) (task bank : Nat) : Bool :=
  k.banks.any fun r => r.task == task && !r.closing && decide (r.first ≤ bank) && decide (bank < r.first + r.n)

/-- An element address that the task may not reach. -/
def badCasket (k : Core) (task : Nat) (a : Int) : Bool :=
  decide (a < 0) || decide ((2 : Int) ^ 22 ≤ a) || !k.ownsBank task (a.toNat / 2 ^ 16)

/-- The lanes with an element that fails a test, and the fault with the lowest such lane's first address. -/
def addrFault (ex : W32) (code : Nat) (addrs : LaneId → List Int) (bad : LaneId → Int → Bool) : Option Trap :=
  let lanes := maskOf fun l => hasLane ex l && (addrs l).any (bad l)
  if lanes = 0 then none else
  let l := lowLane lanes
  some (casketTrap code lanes (BitVec.ofInt 64 (((addrs l).find? (bad l)).getD 0)))

/-- The elements of the executing lanes as items, lanes ascending. -/
def casketItemsOf (ex : W32) (addrs : LaneId → List Int) (els : LaneId → List W32) : List CasItem :=
  (lanesOf ex).flatMap fun l =>
    (addrs l).zipIdx.map fun x => { lane := l, n := x.2, addr := x.1.toNat, v := (els l).getD x.2 0 }

/-- The banks that items touch. -/
def banksOf (items : List CasItem) : List Nat := (items.map fun x => x.addr / 2 ^ 16).dedup

/-- Every strand of the task with a lower number has set fin on the bank or has ended [22 R346]. -/
def Dev.turnCame (d : Dev) (st : Strand) (bank : Nat) : Bool :=
  d.all.all fun x => !x.mates st || decide (st.strandid.toNat ≤ x.strandid.toNat) || x.fin.contains bank

/-- The checks of a casket word, in order [13 R220, 22 R347]. `adds`: a CACC word. -/
def State.casketCheck (s : State) (ex : W32) (m : MReg) (a b : GReg) (adds : Bool) : Option Trap :=
  let st := s.old
  let base (l : LaneId) : W32 := (st.lane l).rg a
  let stride (l : LaneId) : W32 := (st.lane l).rg b
  let addrs (l : LaneId) : List Int := casketAddrs ((st.lane l).hnd m) (base l) (stride l)
  let odd := maskOf fun l => hasLane ex l && ((base l).toNat % 4 != 0 || (stride l).toNat % 4 != 0)
  let k := s.now.core st.core
  s.matCheck ex [(0, m)] (fun x => widthIs x (0, m) .w32) <|>
  (if odd = 0 then none else some (Trap.user 0x05 odd ((base (lowLane odd)).zeroExtend 64))) <|>
  addrFault ex 0x14 addrs (fun l x => badCasket k (st.laneTask l) x) <|>
  (if st.det && adds then addrFault ex 0x1A addrs fun _ x => st.fin.contains (x.toNat / 2 ^ 16) else none)

/-- A casket word: its checks, in deterministic mode its turn, and its items, which take effect as it completes. -/
def casketWord (h : Hdr) (m : MReg) (a b : GReg) (op : CasOp) (adds fin : Bool) (s : State) : Out :=
  let ex := s.exec h
  let st := s.old
  let addrs (l : LaneId) : List Int := casketAddrs ((st.lane l).hnd m) ((st.lane l).rg a) ((st.lane l).rg b)
  let items := casketItemsOf ex addrs fun l => ((st.lane l).hnd m).els
  orTrap (s.casketCheck ex m a b adds) s <|
    if ex = 0 then s
    else
      let held := if st.det && adds then (banksOf items).filter fun k => !s.now.turnCame st k else []
      if !held.isEmpty then s.setBlock (.casketTurn held)
      else
        let s := if fin then s.onFocus fun st => { st with fin := (st.fin ++ banksOf items).dedup } else s
        let marks (l : LaneId) : List Dest := if adds then [] else [.m l m]
        s.queueWord (s.matFlight ex (.casket op m items) 0 marks [] fun _ => MatRes.ok [] 0) []

def execCaccAdd (h : Hdr) (d : MReg) (a b : GReg) (fin : Bool) (s : State) : Out := casketWord h d a b .addF true fin s
def execCaccIadd (h : Hdr) (d : MReg) (a b : GReg) (fin : Bool) (s : State) : Out := casketWord h d a b .addI true fin s
def execCaccWrite (h : Hdr) (d : MReg) (a b : GReg) (fin : Bool) (s : State) : Out := casketWord h d a b .write true fin s
def execCld (h : Hdr) (d : MReg) (a b : GReg) (s : State) : Out := casketWord h d a b .read false false s
def execCldClr (h : Hdr) (d : MReg) (a b : GReg) (s : State) : Out := casketWord h d a b .readClr false false s

end Sys2Proof.Machine
end

