-- ==== Sys2Proof/Machine/Hazards.lean ====
section
/-! DEFINITION. What each word reads and writes, its pipe, matrix path and carat weight, and the checks that a whole issue
group makes before any word executes: illegal encoding, illegal chain, privilege, unsettled access [02 R25-R28,
R31-R33; 01 R14, R17]. -/

namespace Sys2Proof

/-- A run of registers that a word names. -/
inductive Use where
  | g (r : GReg) (n : Nat)
  | k (r : KReg) (n : Nat)
  | p (n : PReg)
  | m (h : MReg)
  deriving DecidableEq, Repr

/-- The pipes [02 R25]. -/
inductive Pipe where
  | none | a | f | m | l
  deriving DecidableEq, Repr

/-- The matrix paths [10 R188]; CDRAIN also needs a place in the engine queue. -/
inductive Path where
  | none | cell | element | access | drain
  deriving DecidableEq, Repr

/-- The register or pair of a CSR word [01 R12]. -/
def csrUse (d : GReg) (c : Csr) : Use := .g d (if c.wide then 2 else 1)

/-- The registers of a load's destination or a store's source [02 R30]. -/
def sizeRegs : AccSz → Nat
  | .w64 => 2
  | .w128 => 4
  | .s8 | .z8 | .s16 | .z16 | .w32 => 1

/-- The registers of an operand of ICMP [04 R71]. -/
def typeRegs : CmpTy → Nat
  | .s64 | .z64 => 2
  | .s | .z => 1

/-- The registers that a word reads, beside its guard. -/
def Instr.srcs : Instr → List Use
  | .nop _ => []
  | .scp _ _ => []
  | .lit _ _ _ => []
  | .br _ _ _ => []
  | .bnone _ p _ => [.p p]
  | .bany _ p _ => [.p p]
  | .ball _ p _ => [.p p]
  | .bnall _ p _ => [.p p]
  | .bdiv _ p _ => [.p p]
  | .call _ _ => []
  | .jmpr _ a => [.g a 2]
  | .ret _ a => [.g a 2]
  | .exit _ => []
  | .join _ => []
  | .earlygo _ => []
  | .yield _ => []
  | .tret _ => []
  | .bkpt _ _ => []
  | .trap _ _ => []
  | .eret _ => []
  | .halt _ => []
  | .tlbi _ a _ kind => if kind = .pg then [.g a 2] else []
  | .railsel _ _ => []
  | .csrr _ _ _ => []
  | .csrw _ d csr => [csrUse d csr]
  | .csrs _ d csr => [csrUse d csr]
  | .csrc _ d csr => [csrUse d csr]
  | .iadd _ _ a b => [.g a 1, .g b 1]
  | .isub _ _ a b => [.g a 1, .g b 1]
  | .imin _ _ a b => [.g a 1, .g b 1]
  | .imax _ _ a b => [.g a 1, .g b 1]
  | .iminZ _ _ a b => [.g a 1, .g b 1]
  | .imaxZ _ _ a b => [.g a 1, .g b 1]
  | .idiff _ _ a b => [.g a 1, .g b 1]
  | .iabs _ _ a => [.g a 1]
  | .andw _ _ a b => [.g a 1, .g b 1]
  | .orw _ _ a b => [.g a 1, .g b 1]
  | .xorw _ _ a b => [.g a 1, .g b 1]
  | .andn _ _ a b => [.g a 1, .g b 1]
  | .ishl _ _ a b => [.g a 1, .g b 1]
  | .ishr _ _ a b => [.g a 1, .g b 1]
  | .isar _ _ a b => [.g a 1, .g b 1]
  | .irot _ _ a b => [.g a 1, .g b 1]
  | .imul _ _ a b => [.g a 1, .g b 1]
  | .imulhS _ _ a b => [.g a 1, .g b 1]
  | .imulhZ _ _ a b => [.g a 1, .g b 1]
  | .imad _ d a b => [.g d 1, .g a 1, .g b 1]
  | .popc _ _ a => [.g a 1]
  | .clz _ _ a => [.g a 1]
  | .brev _ _ a => [.g a 1]
  | .fns _ _ a b => [.g a 1, .g b 1]
  | .popc64 _ _ a => [.g a 2]
  | .clz64 _ _ a => [.g a 2]
  | .brev64 _ _ a => [.g a 2]
  | .fns64 _ _ a b => [.g a 2, .g b 1]
  | .iadd64 _ _ a b => [.g a 2, .g b 2]
  | .isub64 _ _ a b => [.g a 2, .g b 2]
  | .ishl64 _ _ a b => [.g a 2, .g b 1]
  | .ishr64 _ _ a b => [.g a 2, .g b 1]
  | .bfxS _ _ a b => [.g a 1, .g b 1]
  | .bfxZ _ _ a b => [.g a 1, .g b 1]
  | .bfi _ d a b => [.g d 1, .g a 1, .g b 1]
  | .prmt _ d a b => [.g d 1, .g a 1, .g b 1]
  | .sel _ _ a b n => [.g a 1, .g b 1, .p ⟨n.val, by omega⟩]
  | .mov _ _ a => [.g a 1]
  | .mov64 _ _ a => [.g a 2]
  | .iaddi _ _ a _ => [.g a 1]
  | .andi _ _ a _ => [.g a 1]
  | .ori _ _ a _ => [.g a 1]
  | .xori _ _ a _ => [.g a 1]
  | .ishli _ _ a _ => [.g a 1]
  | .ishri _ _ a _ => [.g a 1]
  | .isari _ _ a _ => [.g a 1]
  | .iroti _ _ a _ => [.g a 1]
  | .icmp _ _ a b _ t => [.g a (typeRegs t), .g b (typeRegs t)]
  | .icmpi _ _ a _ _ t => [.g a (typeRegs t)]
  | .pand _ _ pa pb => [.p pa, .p pb]
  | .por _ _ pa pb => [.p pa, .p pb]
  | .pxor _ _ pa pb => [.p pa, .p pb]
  | .pandn _ _ pa pb => [.p pa, .p pb]
  | .lea _ _ a b _ => [.g a 2, .g b 1]
  | .movk _ _ k => [.k k 1]
  | .iaddk _ _ a k => [.g a 1, .k k 1]
  | .leak _ _ a k => [.g a 1, .k k 2]
  | .kmov _ _ a => [.k a 1]
  | .kadd _ d a => [.k d 1, .k a 1]
  | .ksub _ d a => [.k d 1, .k a 1]
  | .kmul _ d a => [.k d 1, .k a 1]
  | .kand _ d a => [.k d 1, .k a 1]
  | .kor _ d a => [.k d 1, .k a 1]
  | .kxor _ d a => [.k d 1, .k a 1]
  | .kshl _ d a => [.k d 1, .k a 1]
  | .kshr _ d a => [.k d 1, .k a 1]
  | .ksar _ d a => [.k d 1, .k a 1]
  | .kmin _ d a => [.k d 1, .k a 1]
  | .kmax _ d a => [.k d 1, .k a 1]
  | .kcmp _ d a => [.k d 1, .k a 1]
  | .kpopc _ _ a => [.k a 1]
  | .kclz _ _ a => [.k a 1]
  | .kfns _ d a => [.k d 1, .k a 1]
  | .kli _ _ _ => []
  | .kaddi _ d _ => [.k d 1]
  | .kld _ _ a _ => [.k a 2]
  | .kst _ d a _ => [.k d 1, .k a 2]
  | .kget _ _ _ _ => []
  | .fadd _ _ a b => [.g a 1, .g b 1]
  | .fsub _ _ a b => [.g a 1, .g b 1]
  | .fmul _ _ a b => [.g a 1, .g b 1]
  | .ffma _ d a b => [.g d 1, .g a 1, .g b 1]
  | .fmin _ _ a b => [.g a 1, .g b 1]
  | .fmax _ _ a b => [.g a 1, .g b 1]
  | .fabs _ _ a => [.g a 1]
  | .fneg _ _ a => [.g a 1]
  | .fcmp _ _ a b _ _ => [.g a 1, .g b 1]
  | .frcp _ _ a => [.g a 1]
  | .frsq _ _ a => [.g a 1]
  | .fsqrt _ _ a => [.g a 1]
  | .fexp2 _ _ a => [.g a 1]
  | .flog2 _ _ a => [.g a 1]
  | .fsin _ _ a => [.g a 1]
  | .fcos _ _ a => [.g a 1]
  | .ftanh _ _ a => [.g a 1]
  | .frndRn _ _ a => [.g a 1]
  | .frndRz _ _ a => [.g a 1]
  | .frndRu _ _ a => [.g a 1]
  | .frndRd _ _ a => [.g a 1]
  | .fclass _ _ a => [.g a 1]
  | .fcvt _ _ a _ _ _ => [.g a 1]
  | .pkbf _ _ a b => [.g a 1, .g b 1]
  | .pkh _ _ a b => [.g a 1, .g b 1]
  | .pkins _ d a b => [.g d 1, .g a 1, .g b 1]
  | .upk _ _ a b => [.g a 1, .g b 1]
  | .faddi _ _ a _ => [.g a 1]
  | .fmuli _ _ a _ => [.g a 1]
  | .dp4S8 _ d a b => [.g d 1, .g a 1, .g b 1]
  | .dp4Z8 _ d a b => [.g d 1, .g a 1, .g b 1]
  | .dp4E4 _ d a b => [.g d 1, .g a 1, .g b 1]
  | .dp4E5 _ d a b => [.g d 1, .g a 1, .g b 1]
  | .dp8S4 _ d a b => [.g d 1, .g a 1, .g b 1]
  | .dp8F4 _ d a b => [.g d 1, .g a 1, .g b 1]
  | .dp2Bf _ d a b => [.g d 1, .g a 1, .g b 1]
  | .scacc _ d a b => [.g d 1, .g a 1, .g b 1]
  | .ld _ _ a _ _ => [.g a 2]
  | .st _ d a _ sz => [.g d (sizeRegs sz), .g a 2]
  | .pfetch _ a _ => [.g a 2]
  | .fenceFull _ _ _ => []
  | .fenceAcq _ _ _ => []
  | .fenceRel _ _ _ => []
  | .atadd32 _ _ a b => [.g a 2, .g b 1]
  | .atadd64 _ _ a b => [.g a 2, .g b 2]
  | .ataddF32 _ _ a b => [.g a 2, .g b 1]
  | .ataddBf16x2 _ _ a b => [.g a 2, .g b 1]
  | .atmmMinS _ _ a b => [.g a 2, .g b 1]
  | .atmmMaxS _ _ a b => [.g a 2, .g b 1]
  | .atmmMinZ _ _ a b => [.g a 2, .g b 1]
  | .atmmMaxZ _ _ a b => [.g a 2, .g b 1]
  | .atlogAnd _ _ a b => [.g a 2, .g b 1]
  | .atlogOr _ _ a b => [.g a 2, .g b 1]
  | .atlogXor _ _ a b => [.g a 2, .g b 1]
  | .atlogExch _ _ a b => [.g a 2, .g b 1]
  | .cas32 _ d a b => [.g d 1, .g a 2, .g b 1]
  | .cas64 _ d a b => [.g d 2, .g a 2, .g b 2]
  | .claspAcq _ a => [.g a 2]
  | .claspRel _ a => [.g a 2]
  | .claspTry _ a _ => [.g a 2]
  | .claspBind _ a b => [.g a 2, .g b 4]
  | .claspUnbind _ a => [.g a 2]
  | .monitor _ a => [.g a 2]
  | .mwait _ a _ => [.g a 1]
  | .mcancel _ => []
  | .shflIdx _ _ a b => [.g a 1, .g b 1]
  | .shflXor _ _ a b => [.g a 1, .g b 1]
  | .shflUp _ _ a b => [.g a 1, .g b 1]
  | .shflDown _ _ a b => [.g a 1, .g b 1]
  | .redu _ _ a _ => [.g a 1]
  | .scan _ _ a _ _ => [.g a 1]
  | .compress _ _ a p => [.g a 1, .p p]
  | .expand _ _ a p => [.g a 1, .p p]
  | .matchw _ _ a => [.g a 1]
  | .ballot _ _ p => [.p p]
  | .bar _ => []
  | .arrv _ a b _ => [.g a 2, .g b 1]
  | .awt _ a b _ => [.g a 2, .g b 1]
  | .spawn _ a b => [.g a 2, .g b 2]
  | .tnew _ a => [.g a 2]
  | .tnewn _ a b => [.g a 2, .g b 1]
  | .tcancel _ a => [.g a 2]
  | .depdec _ a => [.g a 2]
  | .depadd _ a b => [.g a 2, .g b 1]
  | .depget _ a _ => [.g a 2]
  | .rgnew _ a => [.g a 2]
  | .rgend _ a => [.g a 2]
  | .rgpri _ a b => [.g a 2, .g b 1]
  | .macq _ _ _ _ _ => []
  | .macqTry _ _ _ _ _ _ => []
  | .mrel _ _ => []
  | .mldRow _ _ a b => [.g a 2, .g b 1]
  | .mldCol _ _ a b => [.g a 2, .g b 1]
  | .mldSparse _ _ a => [.g a 2]
  | .mldBcast _ _ a => [.g a 2]
  | .mstRow _ d a b _ => [.m d, .g a 2, .g b 1]
  | .mstCol _ d a b _ => [.m d, .g a 2, .g b 1]
  | .mstSparse _ d a _ => [.m d, .g a 2]
  | .mmul _ _ a b c _ _ _ => [.m a, .m b, .m c]
  | .mmult _ _ a b c _ _ _ => [.m a, .m b, .m c]
  | .mtmul _ _ a b c _ _ _ => [.m a, .m b, .m c]
  | .madd _ _ a b _ _ _ => [.m a, .m b]
  | .msub _ _ a b _ _ _ => [.m a, .m b]
  | .mhad _ _ a b _ _ _ => [.m a, .m b]
  | .mmax _ _ a b _ _ _ => [.m a, .m b]
  | .mtrn _ _ a _ => [.m a]
  | .mneg _ _ a _ _ => [.m a]
  | .mcvt _ _ a _ _ _ _ => [.m a]
  | .mcopy _ _ a _ => [.m a]
  | .mreshape _ _ a _ => [.m a]
  | .mscale _ _ a g _ => [.m a, .g g 2]
  | .mfill _ _ g => [.g g 1]
  | .mget _ a g _ => [.m a, .g g 1]
  | .mput _ d g => [.m d, .g g 2]
  | .mshape _ a _ _ => [.m a]
  | .minv _ _ a _ => [.m a]
  | .mlu _ _ a _ _ => [.m a]
  | .mchol _ _ a _ => [.m a]
  | .mtrsv _ _ a b _ _ _ _ => [.m a, .m b]
  | .mexp _ _ a _ => [.m a]
  | .mht _ _ a _ _ _ => [.m a]
  | .mquant _ _ a g _ => [.m a, .g g 1]
  | .msacc _ d a g _ => [.m d, .m a, .g g 1]
  | .calloc _ _ b => [.g b 1]
  | .cfree _ a => [.g a 1]
  | .caccAdd _ d a b _ => [.m d, .g a 1, .g b 1]
  | .caccIadd _ d a b _ => [.m d, .g a 1, .g b 1]
  | .caccWrite _ d a b _ => [.m d, .g a 1, .g b 1]
  | .cld _ _ a b => [.g a 1, .g b 1]
  | .cldClr _ _ a b => [.g a 1, .g b 1]
  | .cdrainMem _ k => [.k k 4]
  | .cdrainAdd _ k => [.k k 4]
  | .cpy _ k _ => [.k k 8]
  | .cpy2d _ k _ => [.k k 8]
  | .cpyxGather _ k _ => [.k k 8]
  | .cpyxScatter _ k _ => [.k k 8]
  | .wtany _ k => [.k k 2]
  | .wtall _ k => [.k k 2]
  | .tfirst _ k _ => [.k k 2]
  | .ttest _ k _ => [.k k 2]
  | .tlwait _ _ k => [.k k 2]
  | .tlread _ _ _ => []
  | .collAllreduce _ k => [.k k 8]
  | .collReducescatter _ k => [.k k 8]
  | .collAllgather _ k => [.k k 8]
  | .collAlltoall _ k => [.k k 8]
  | .hnew _ _ y => [.g y 2]
  | .hcopy _ _ y => [.g y 4]
  | .hdrop _ y => [.g y 4]
  | .hderef _ x y => [.g x 2, .g y 4]
  | .hfin _ x y => [.g x 4, .g y 4]
  | .hld _ _ y => [.g y 2]
  | .hst _ x y => [.g x 4, .g y 2]
  | .lywait _ a b => [.g a 1, .g b 2]
  | .lydone _ a b => [.g a 1, .g b 2]
  | .lyhintPf _ a b => [.g a 1, .g b 2]
  | .lyhintRetry _ a b => [.g a 1, .g b 2]
  | .passedOverLimit _ _ => []
  | .heldTrapDelivery _ _ => []
  | .faultReportDequeue _ => []
  | .memoryResultArrival _ _ => []
  | .scrubUncorrectable _ => []
  | .matrixAccessCompletion _ _ => []
  | .cellPhaseEnd _ _ => []
  | .cellWordPassEnd _ _ => []
  | .checksumRerunStart _ _ => []
  | .mexpPassEnd _ _ => []
  | .elementBusyEnd _ _ => []
  | .elementPathCompletion _ _ => []
  | .macqParkedGrant _ _ => []
  | .macqArrival _ _ => []
  | .macqTryFailArrival _ _ => []
  | .callocGrant _ _ => []
  | .cfreeCompletion _ _ => []
  | .barrierCompletion _ => []
  | .awtCompletion _ _ => []
  | .claspReleaseCompletion _ _ => []
  | .claspAcqCompletion _ _ => []
  | .claspUnbindCompletion _ _ => []
  | .mwaitWake _ _ => []
  | .mwaitTimeout _ _ => []
  | .tlbiSweepCompletion _ _ => []
  | .fenceEngineCompletion _ _ => []
  | .tagWaitCompletion _ _ => []
  | .tlwaitCompletion _ _ => []
  | .lywaitCompletion _ _ => []
  | .copyCompletion _ => []
  | .drainRowCompletion _ _ => []
  | .drainRowApply _ => []
  | .collCompletion _ => []
  | .homeVerdict _ => []
  | .dropPostApply _ => []
  | .signetVerdictArrival _ _ => []
  | .taskPlacement _ => []
  | .placementWaitLimit _ => []
  | .taskLaunch _ => []
  | .taskEnd _ => []
  | .regionLink _ => []
  | .regionEndCompletion _ => []
  | .intakeTaskEntry => []
  | .intakeRgendEntry => []
  | .intakeRgnewEntry => []
  | .intakeSkipEntry => []
  | .trayTimerExpiry _ _ => []
  | .swapFetchStart _ _ => []
  | .evictionCompletion _ _ => []
  | .swapFetchCompletion _ _ => []
  | .swapFetchFailure _ _ _ => []
  | .swapFetchTimeout _ _ => []
  | .preemptionRequest _ => []
  | .contextSave _ => []
  | .taskRestore _ => []
  | .watchdogParkExpiry _ _ => []
  | .watchdogHandlerExpiry _ _ => []
  | .arbiterInterval _ => []
  | .dieGrant _ _ => []
  | .grantTimeout _ => []
  | .railChangeCompletion _ => []
  | .governorRailWrite _ _ _ => []
  | .thermalLimit _ => []
  | .thermalShutdown _ => []
  | .flitDataReceive _ _ => []
  | .flitNackReceive _ _ => []
  | .flitIdleReceive _ _ => []
  | .linkAckTimeout _ => []
  | .linkRetrainCompletion _ => []
  | .transactionReceive _ => []
  | .transactionResponse _ _ _ => []
  | .transactionResendTimeout _ _ => []
  | .transactionFailure _ _ => []
  | .bar2Write _ _ _ _ => []
  | .bar2Read _ _ _ => []
  | .bar2Fetchadd _ _ _ _ => []
  | .bar2Swap _ _ _ _ => []
  | .bar2Cas _ _ _ _ _ => []
  | .rstctlReset _ _ => []
  | .semRequest _ _ => []
  | .semRelease _ _ => []
  | .msixUnmask _ _ => []
  | .controlRegisterWrite _ _ _ => []
  | .portFlr _ => []
  | .portLinkDown _ => []
  | .hostCompletionTimeout _ _ => []
  | .cxlResponseTimeout _ _ => []
  | .cxlPoisonResponse _ _ => []
  | .attctlRequest _ _ => []
  | .attestationCompletion => []
  | .powerOnReset => []
  | .illegalEncoding _ _ => []
  | .cxlPortDown _ => []

/-- The registers that a word writes. -/
def Instr.dsts : Instr → List Use
  | .nop _ => []
  | .scp _ _ => []
  | .lit _ _ _ => []
  | .br _ _ _ => []
  | .bnone _ _ _ => []
  | .bany _ _ _ => []
  | .ball _ _ _ => []
  | .bnall _ _ _ => []
  | .bdiv _ _ _ => []
  | .call _ _ => [.g 62 2]
  | .jmpr _ _ => []
  | .ret _ _ => []
  | .exit _ => []
  | .join _ => []
  | .earlygo _ => []
  | .yield _ => []
  | .tret _ => []
  | .bkpt _ _ => []
  | .trap _ _ => []
  | .eret _ => []
  | .halt _ => []
  | .tlbi _ _ _ _ => []
  | .railsel _ _ => []
  | .csrr _ d csr => [csrUse d csr]
  | .csrw _ _ _ => []
  | .csrs _ _ _ => []
  | .csrc _ _ _ => []
  | .iadd _ d _ _ => [.g d 1]
  | .isub _ d _ _ => [.g d 1]
  | .imin _ d _ _ => [.g d 1]
  | .imax _ d _ _ => [.g d 1]
  | .iminZ _ d _ _ => [.g d 1]
  | .imaxZ _ d _ _ => [.g d 1]
  | .idiff _ d _ _ => [.g d 1]
  | .iabs _ d _ => [.g d 1]
  | .andw _ d _ _ => [.g d 1]
  | .orw _ d _ _ => [.g d 1]
  | .xorw _ d _ _ => [.g d 1]
  | .andn _ d _ _ => [.g d 1]
  | .ishl _ d _ _ => [.g d 1]
  | .ishr _ d _ _ => [.g d 1]
  | .isar _ d _ _ => [.g d 1]
  | .irot _ d _ _ => [.g d 1]
  | .imul _ d _ _ => [.g d 1]
  | .imulhS _ d _ _ => [.g d 1]
  | .imulhZ _ d _ _ => [.g d 1]
  | .imad _ d _ _ => [.g d 1]
  | .popc _ d _ => [.g d 1]
  | .clz _ d _ => [.g d 1]
  | .brev _ d _ => [.g d 1]
  | .fns _ d _ _ => [.g d 1]
  | .popc64 _ d _ => [.g d 1]
  | .clz64 _ d _ => [.g d 1]
  | .brev64 _ d _ => [.g d 2]
  | .fns64 _ d _ _ => [.g d 1]
  | .iadd64 _ d _ _ => [.g d 2]
  | .isub64 _ d _ _ => [.g d 2]
  | .ishl64 _ d _ _ => [.g d 2]
  | .ishr64 _ d _ _ => [.g d 2]
  | .bfxS _ d _ _ => [.g d 1]
  | .bfxZ _ d _ _ => [.g d 1]
  | .bfi _ d _ _ => [.g d 1]
  | .prmt _ d _ _ => [.g d 1]
  | .sel _ d _ _ _ => [.g d 1]
  | .mov _ d _ => [.g d 1]
  | .mov64 _ d _ => [.g d 2]
  | .iaddi _ d _ _ => [.g d 1]
  | .andi _ d _ _ => [.g d 1]
  | .ori _ d _ _ => [.g d 1]
  | .xori _ d _ _ => [.g d 1]
  | .ishli _ d _ _ => [.g d 1]
  | .ishri _ d _ _ => [.g d 1]
  | .isari _ d _ _ => [.g d 1]
  | .iroti _ d _ _ => [.g d 1]
  | .icmp _ pd _ _ _ _ => [.p pd]
  | .icmpi _ pd _ _ _ _ => [.p pd]
  | .pand _ pd _ _ => [.p pd]
  | .por _ pd _ _ => [.p pd]
  | .pxor _ pd _ _ => [.p pd]
  | .pandn _ pd _ _ => [.p pd]
  | .lea _ d _ _ _ => [.g d 2]
  | .movk _ d _ => [.g d 1]
  | .iaddk _ d _ _ => [.g d 1]
  | .leak _ d _ _ => [.g d 2]
  | .kmov _ d _ => [.k d 1]
  | .kadd _ d _ => [.k d 1]
  | .ksub _ d _ => [.k d 1]
  | .kmul _ d _ => [.k d 1]
  | .kand _ d _ => [.k d 1]
  | .kor _ d _ => [.k d 1]
  | .kxor _ d _ => [.k d 1]
  | .kshl _ d _ => [.k d 1]
  | .kshr _ d _ => [.k d 1]
  | .ksar _ d _ => [.k d 1]
  | .kmin _ d _ => [.k d 1]
  | .kmax _ d _ => [.k d 1]
  | .kcmp _ _ _ => []
  | .kpopc _ d _ => [.k d 1]
  | .kclz _ d _ => [.k d 1]
  | .kfns _ d _ => [.k d 1]
  | .kli _ d _ => [.k d 1]
  | .kaddi _ d _ => [.k d 1]
  | .kld _ d _ _ => [.k d 1]
  | .kst _ _ _ _ => []
  | .kget _ d _ _ => [.k d 1]
  | .fadd _ d _ _ => [.g d 1]
  | .fsub _ d _ _ => [.g d 1]
  | .fmul _ d _ _ => [.g d 1]
  | .ffma _ d _ _ => [.g d 1]
  | .fmin _ d _ _ => [.g d 1]
  | .fmax _ d _ _ => [.g d 1]
  | .fabs _ d _ => [.g d 1]
  | .fneg _ d _ => [.g d 1]
  | .fcmp _ pd _ _ _ _ => [.p pd]
  | .frcp _ d _ => [.g d 1]
  | .frsq _ d _ => [.g d 1]
  | .fsqrt _ d _ => [.g d 1]
  | .fexp2 _ d _ => [.g d 1]
  | .flog2 _ d _ => [.g d 1]
  | .fsin _ d _ => [.g d 1]
  | .fcos _ d _ => [.g d 1]
  | .ftanh _ d _ => [.g d 1]
  | .frndRn _ d _ => [.g d 1]
  | .frndRz _ d _ => [.g d 1]
  | .frndRu _ d _ => [.g d 1]
  | .frndRd _ d _ => [.g d 1]
  | .fclass _ d _ => [.g d 1]
  | .fcvt _ d _ _ _ _ => [.g d 1]
  | .pkbf _ d _ _ => [.g d 1]
  | .pkh _ d _ _ => [.g d 1]
  | .pkins _ d _ _ => [.g d 1]
  | .upk _ d _ _ => [.g d 1]
  | .faddi _ d _ _ => [.g d 1]
  | .fmuli _ d _ _ => [.g d 1]
  | .dp4S8 _ d _ _ => [.g d 1]
  | .dp4Z8 _ d _ _ => [.g d 1]
  | .dp4E4 _ d _ _ => [.g d 1]
  | .dp4E5 _ d _ _ => [.g d 1]
  | .dp8S4 _ d _ _ => [.g d 1]
  | .dp8F4 _ d _ _ => [.g d 1]
  | .dp2Bf _ d _ _ => [.g d 1]
  | .scacc _ d _ _ => [.g d 1]
  | .ld _ d _ _ sz => [.g d (sizeRegs sz)]
  | .st _ _ _ _ _ => []
  | .pfetch _ _ _ => []
  | .fenceFull _ _ _ => []
  | .fenceAcq _ _ _ => []
  | .fenceRel _ _ _ => []
  | .atadd32 _ d _ _ => [.g d 1]
  | .atadd64 _ d _ _ => [.g d 2]
  | .ataddF32 _ d _ _ => [.g d 1]
  | .ataddBf16x2 _ d _ _ => [.g d 1]
  | .atmmMinS _ d _ _ => [.g d 1]
  | .atmmMaxS _ d _ _ => [.g d 1]
  | .atmmMinZ _ d _ _ => [.g d 1]
  | .atmmMaxZ _ d _ _ => [.g d 1]
  | .atlogAnd _ d _ _ => [.g d 1]
  | .atlogOr _ d _ _ => [.g d 1]
  | .atlogXor _ d _ _ => [.g d 1]
  | .atlogExch _ d _ _ => [.g d 1]
  | .cas32 _ d _ _ => [.g d 1]
  | .cas64 _ d _ _ => [.g d 2]
  | .claspAcq _ _ => []
  | .claspRel _ _ => []
  | .claspTry _ _ pd => [.p pd]
  | .claspBind _ _ _ => []
  | .claspUnbind _ _ => []
  | .monitor _ _ => []
  | .mwait _ _ pd => [.p pd]
  | .mcancel _ => []
  | .shflIdx _ d _ _ => [.g d 1]
  | .shflXor _ d _ _ => [.g d 1]
  | .shflUp _ d _ _ => [.g d 1]
  | .shflDown _ d _ _ => [.g d 1]
  | .redu _ kd _ _ => [.k kd 1]
  | .scan _ d _ _ _ => [.g d 1]
  | .compress _ d _ _ => [.g d 1]
  | .expand _ d _ _ => [.g d 1]
  | .matchw _ d _ => [.g d 1]
  | .ballot _ d _ => [.g d 1]
  | .bar _ => []
  | .arrv _ _ _ _ => []
  | .awt _ _ _ _ => []
  | .spawn _ _ _ => []
  | .tnew _ _ => []
  | .tnewn _ _ _ => []
  | .tcancel _ _ => []
  | .depdec _ _ => []
  | .depadd _ _ _ => []
  | .depget _ _ b => [.g b 1]
  | .rgnew _ _ => []
  | .rgend _ _ => []
  | .rgpri _ _ _ => []
  | .macq _ d _ _ _ => [.m d]
  | .macqTry _ d _ _ _ pd => [.m d, .p pd]
  | .mrel _ d => [.m d]
  | .mldRow _ d _ _ => [.m d]
  | .mldCol _ d _ _ => [.m d]
  | .mldSparse _ d _ => [.m d]
  | .mldBcast _ d _ => [.m d]
  | .mstRow _ _ _ _ _ => []
  | .mstCol _ _ _ _ _ => []
  | .mstSparse _ _ _ _ => []
  | .mmul _ d _ _ _ _ _ _ => [.m d]
  | .mmult _ d _ _ _ _ _ _ => [.m d]
  | .mtmul _ d _ _ _ _ _ _ => [.m d]
  | .madd _ d _ _ _ _ _ => [.m d]
  | .msub _ d _ _ _ _ _ => [.m d]
  | .mhad _ d _ _ _ _ _ => [.m d]
  | .mmax _ d _ _ _ _ _ => [.m d]
  | .mtrn _ d _ _ => [.m d]
  | .mneg _ d _ _ _ => [.m d]
  | .mcvt _ d _ _ _ _ _ => [.m d]
  | .mcopy _ d _ _ => [.m d]
  | .mreshape _ d _ _ => [.m d]
  | .mscale _ d _ _ _ => [.m d]
  | .mfill _ d _ => [.m d]
  | .mget _ _ g _ => [.g g 1]
  | .mput _ d _ => [.m d]
  | .mshape _ _ g _ => [.g g 1]
  | .minv _ d _ _ => [.m d]
  | .mlu _ d _ b _ => [.m d, .m b]
  | .mchol _ d _ _ => [.m d]
  | .mtrsv _ d _ _ _ _ _ _ => [.m d]
  | .mexp _ d _ _ => [.m d]
  | .mht _ d _ _ _ _ => [.m d]
  | .mquant _ d _ _ _ => [.m d]
  | .msacc _ d _ _ _ => [.m d]
  | .calloc _ d _ => [.g d 1]
  | .cfree _ _ => []
  | .caccAdd _ _ _ _ _ => []
  | .caccIadd _ _ _ _ _ => []
  | .caccWrite _ _ _ _ _ => []
  | .cld _ d _ _ => [.m d]
  | .cldClr _ d _ _ => [.m d]
  | .cdrainMem _ _ => []
  | .cdrainAdd _ _ => []
  | .cpy _ _ _ => []
  | .cpy2d _ _ _ => []
  | .cpyxGather _ _ _ => []
  | .cpyxScatter _ _ _ => []
  | .wtany _ _ => []
  | .wtall _ _ => []
  | .tfirst _ _ d => [.k d 1]
  | .ttest _ _ d => [.k d 2]
  | .tlwait _ _ _ => []
  | .tlread _ _ k => [.k k 2]
  | .collAllreduce _ _ => []
  | .collReducescatter _ _ => []
  | .collAllgather _ _ => []
  | .collAlltoall _ _ => []
  | .hnew _ x _ => [.g x 4]
  | .hcopy _ x y => [.g x 4, .g y 4]
  | .hdrop _ y => [.g y 4]
  | .hderef _ x _ => [.g x 2]
  | .hfin _ _ _ => []
  | .hld _ x _ => [.g x 4]
  | .hst _ x _ => [.g x 4]
  | .lywait _ _ _ => []
  | .lydone _ _ _ => []
  | .lyhintPf _ _ _ => []
  | .lyhintRetry _ _ _ => []
  | .passedOverLimit _ _ => []
  | .heldTrapDelivery _ _ => []
  | .faultReportDequeue _ => []
  | .memoryResultArrival _ _ => []
  | .scrubUncorrectable _ => []
  | .matrixAccessCompletion _ _ => []
  | .cellPhaseEnd _ _ => []
  | .cellWordPassEnd _ _ => []
  | .checksumRerunStart _ _ => []
  | .mexpPassEnd _ _ => []
  | .elementBusyEnd _ _ => []
  | .elementPathCompletion _ _ => []
  | .macqParkedGrant _ _ => []
  | .macqArrival _ _ => []
  | .macqTryFailArrival _ _ => []
  | .callocGrant _ _ => []
  | .cfreeCompletion _ _ => []
  | .barrierCompletion _ => []
  | .awtCompletion _ _ => []
  | .claspReleaseCompletion _ _ => []
  | .claspAcqCompletion _ _ => []
  | .claspUnbindCompletion _ _ => []
  | .mwaitWake _ _ => []
  | .mwaitTimeout _ _ => []
  | .tlbiSweepCompletion _ _ => []
  | .fenceEngineCompletion _ _ => []
  | .tagWaitCompletion _ _ => []
  | .tlwaitCompletion _ _ => []
  | .lywaitCompletion _ _ => []
  | .copyCompletion _ => []
  | .drainRowCompletion _ _ => []
  | .drainRowApply _ => []
  | .collCompletion _ => []
  | .homeVerdict _ => []
  | .dropPostApply _ => []
  | .signetVerdictArrival _ _ => []
  | .taskPlacement _ => []
  | .placementWaitLimit _ => []
  | .taskLaunch _ => []
  | .taskEnd _ => []
  | .regionLink _ => []
  | .regionEndCompletion _ => []
  | .intakeTaskEntry => []
  | .intakeRgendEntry => []
  | .intakeRgnewEntry => []
  | .intakeSkipEntry => []
  | .trayTimerExpiry _ _ => []
  | .swapFetchStart _ _ => []
  | .evictionCompletion _ _ => []
  | .swapFetchCompletion _ _ => []
  | .swapFetchFailure _ _ _ => []
  | .swapFetchTimeout _ _ => []
  | .preemptionRequest _ => []
  | .contextSave _ => []
  | .taskRestore _ => []
  | .watchdogParkExpiry _ _ => []
  | .watchdogHandlerExpiry _ _ => []
  | .arbiterInterval _ => []
  | .dieGrant _ _ => []
  | .grantTimeout _ => []
  | .railChangeCompletion _ => []
  | .governorRailWrite _ _ _ => []
  | .thermalLimit _ => []
  | .thermalShutdown _ => []
  | .flitDataReceive _ _ => []
  | .flitNackReceive _ _ => []
  | .flitIdleReceive _ _ => []
  | .linkAckTimeout _ => []
  | .linkRetrainCompletion _ => []
  | .transactionReceive _ => []
  | .transactionResponse _ _ _ => []
  | .transactionResendTimeout _ _ => []
  | .transactionFailure _ _ => []
  | .bar2Write _ _ _ _ => []
  | .bar2Read _ _ _ => []
  | .bar2Fetchadd _ _ _ _ => []
  | .bar2Swap _ _ _ _ => []
  | .bar2Cas _ _ _ _ _ => []
  | .rstctlReset _ _ => []
  | .semRequest _ _ => []
  | .semRelease _ _ => []
  | .msixUnmask _ _ => []
  | .controlRegisterWrite _ _ _ => []
  | .portFlr _ => []
  | .portLinkDown _ => []
  | .hostCompletionTimeout _ _ => []
  | .cxlResponseTimeout _ _ => []
  | .cxlPoisonResponse _ _ => []
  | .attctlRequest _ _ => []
  | .attestationCompletion => []
  | .powerOnReset => []
  | .illegalEncoding _ _ => []
  | .cxlPortDown _ => []

/-- The pipe of a word [02 R25, R36]. -/
def Instr.pipe : Instr → Pipe
  | .nop _ => .none
  | .scp _ _ => .none
  | .lit _ _ _ => .none
  | .br _ _ _ => .a
  | .bnone _ _ _ => .a
  | .bany _ _ _ => .a
  | .ball _ _ _ => .a
  | .bnall _ _ _ => .a
  | .bdiv _ _ _ => .a
  | .call _ _ => .a
  | .jmpr _ _ => .a
  | .ret _ _ => .a
  | .exit _ => .a
  | .join _ => .a
  | .earlygo _ => .a
  | .yield _ => .a
  | .tret _ => .a
  | .bkpt _ _ => .a
  | .trap _ _ => .a
  | .eret _ => .a
  | .halt _ => .a
  | .tlbi _ _ _ _ => .a
  | .railsel _ _ => .a
  | .csrr _ _ _ => .a
  | .csrw _ _ _ => .a
  | .csrs _ _ _ => .a
  | .csrc _ _ _ => .a
  | .iadd _ _ _ _ => .a
  | .isub _ _ _ _ => .a
  | .imin _ _ _ _ => .a
  | .imax _ _ _ _ => .a
  | .iminZ _ _ _ _ => .a
  | .imaxZ _ _ _ _ => .a
  | .idiff _ _ _ _ => .a
  | .iabs _ _ _ => .a
  | .andw _ _ _ _ => .a
  | .orw _ _ _ _ => .a
  | .xorw _ _ _ _ => .a
  | .andn _ _ _ _ => .a
  | .ishl _ _ _ _ => .a
  | .ishr _ _ _ _ => .a
  | .isar _ _ _ _ => .a
  | .irot _ _ _ _ => .a
  | .imul _ _ _ _ => .a
  | .imulhS _ _ _ _ => .a
  | .imulhZ _ _ _ _ => .a
  | .imad _ _ _ _ => .a
  | .popc _ _ _ => .a
  | .clz _ _ _ => .a
  | .brev _ _ _ => .a
  | .fns _ _ _ _ => .a
  | .popc64 _ _ _ => .a
  | .clz64 _ _ _ => .a
  | .brev64 _ _ _ => .a
  | .fns64 _ _ _ _ => .a
  | .iadd64 _ _ _ _ => .a
  | .isub64 _ _ _ _ => .a
  | .ishl64 _ _ _ _ => .a
  | .ishr64 _ _ _ _ => .a
  | .bfxS _ _ _ _ => .a
  | .bfxZ _ _ _ _ => .a
  | .bfi _ _ _ _ => .a
  | .prmt _ _ _ _ => .a
  | .sel _ _ _ _ _ => .a
  | .mov _ _ _ => .a
  | .mov64 _ _ _ => .a
  | .iaddi _ _ _ _ => .a
  | .andi _ _ _ _ => .a
  | .ori _ _ _ _ => .a
  | .xori _ _ _ _ => .a
  | .ishli _ _ _ _ => .a
  | .ishri _ _ _ _ => .a
  | .isari _ _ _ _ => .a
  | .iroti _ _ _ _ => .a
  | .icmp _ _ _ _ _ _ => .a
  | .icmpi _ _ _ _ _ _ => .a
  | .pand _ _ _ _ => .a
  | .por _ _ _ _ => .a
  | .pxor _ _ _ _ => .a
  | .pandn _ _ _ _ => .a
  | .lea _ _ _ _ _ => .a
  | .movk _ _ _ => .a
  | .iaddk _ _ _ _ => .a
  | .leak _ _ _ _ => .a
  | .kmov _ _ _ => .a
  | .kadd _ _ _ => .a
  | .ksub _ _ _ => .a
  | .kmul _ _ _ => .a
  | .kand _ _ _ => .a
  | .kor _ _ _ => .a
  | .kxor _ _ _ => .a
  | .kshl _ _ _ => .a
  | .kshr _ _ _ => .a
  | .ksar _ _ _ => .a
  | .kmin _ _ _ => .a
  | .kmax _ _ _ => .a
  | .kcmp _ _ _ => .a
  | .kpopc _ _ _ => .a
  | .kclz _ _ _ => .a
  | .kfns _ _ _ => .a
  | .kli _ _ _ => .a
  | .kaddi _ _ _ => .a
  | .kld _ _ _ _ => .a
  | .kst _ _ _ _ => .a
  | .kget _ _ _ _ => .a
  | .fadd _ _ _ _ => .f
  | .fsub _ _ _ _ => .f
  | .fmul _ _ _ _ => .f
  | .ffma _ _ _ _ => .f
  | .fmin _ _ _ _ => .f
  | .fmax _ _ _ _ => .f
  | .fabs _ _ _ => .f
  | .fneg _ _ _ => .f
  | .fcmp _ _ _ _ _ _ => .f
  | .frcp _ _ _ => .f
  | .frsq _ _ _ => .f
  | .fsqrt _ _ _ => .f
  | .fexp2 _ _ _ => .f
  | .flog2 _ _ _ => .f
  | .fsin _ _ _ => .f
  | .fcos _ _ _ => .f
  | .ftanh _ _ _ => .f
  | .frndRn _ _ _ => .f
  | .frndRz _ _ _ => .f
  | .frndRu _ _ _ => .f
  | .frndRd _ _ _ => .f
  | .fclass _ _ _ => .f
  | .fcvt _ _ _ _ _ _ => .f
  | .pkbf _ _ _ _ => .f
  | .pkh _ _ _ _ => .f
  | .pkins _ _ _ _ => .f
  | .upk _ _ _ _ => .f
  | .faddi _ _ _ _ => .f
  | .fmuli _ _ _ _ => .f
  | .dp4S8 _ _ _ _ => .f
  | .dp4Z8 _ _ _ _ => .f
  | .dp4E4 _ _ _ _ => .f
  | .dp4E5 _ _ _ _ => .f
  | .dp8S4 _ _ _ _ => .f
  | .dp8F4 _ _ _ _ => .f
  | .dp2Bf _ _ _ _ => .f
  | .scacc _ _ _ _ => .f
  | .ld _ _ _ _ _ => .l
  | .st _ _ _ _ _ => .l
  | .pfetch _ _ _ => .l
  | .fenceFull _ _ _ => .l
  | .fenceAcq _ _ _ => .l
  | .fenceRel _ _ _ => .l
  | .atadd32 _ _ _ _ => .l
  | .atadd64 _ _ _ _ => .l
  | .ataddF32 _ _ _ _ => .l
  | .ataddBf16x2 _ _ _ _ => .l
  | .atmmMinS _ _ _ _ => .l
  | .atmmMaxS _ _ _ _ => .l
  | .atmmMinZ _ _ _ _ => .l
  | .atmmMaxZ _ _ _ _ => .l
  | .atlogAnd _ _ _ _ => .l
  | .atlogOr _ _ _ _ => .l
  | .atlogXor _ _ _ _ => .l
  | .atlogExch _ _ _ _ => .l
  | .cas32 _ _ _ _ => .l
  | .cas64 _ _ _ _ => .l
  | .claspAcq _ _ => .l
  | .claspRel _ _ => .l
  | .claspTry _ _ _ => .l
  | .claspBind _ _ _ => .l
  | .claspUnbind _ _ => .l
  | .monitor _ _ => .l
  | .mwait _ _ _ => .l
  | .mcancel _ => .l
  | .shflIdx _ _ _ _ => .l
  | .shflXor _ _ _ _ => .l
  | .shflUp _ _ _ _ => .l
  | .shflDown _ _ _ _ => .l
  | .redu _ _ _ _ => .l
  | .scan _ _ _ _ _ => .l
  | .compress _ _ _ _ => .l
  | .expand _ _ _ _ => .l
  | .matchw _ _ _ => .l
  | .ballot _ _ _ => .l
  | .bar _ => .l
  | .arrv _ _ _ _ => .l
  | .awt _ _ _ _ => .l
  | .spawn _ _ _ => .l
  | .tnew _ _ => .l
  | .tnewn _ _ _ => .l
  | .tcancel _ _ => .l
  | .depdec _ _ => .l
  | .depadd _ _ _ => .l
  | .depget _ _ _ => .l
  | .rgnew _ _ => .l
  | .rgend _ _ => .l
  | .rgpri _ _ _ => .l
  | .macq _ _ _ _ _ => .m
  | .macqTry _ _ _ _ _ _ => .m
  | .mrel _ _ => .m
  | .mldRow _ _ _ _ => .m
  | .mldCol _ _ _ _ => .m
  | .mldSparse _ _ _ => .m
  | .mldBcast _ _ _ => .m
  | .mstRow _ _ _ _ _ => .m
  | .mstCol _ _ _ _ _ => .m
  | .mstSparse _ _ _ _ => .m
  | .mmul _ _ _ _ _ _ _ _ => .m
  | .mmult _ _ _ _ _ _ _ _ => .m
  | .mtmul _ _ _ _ _ _ _ _ => .m
  | .madd _ _ _ _ _ _ _ => .m
  | .msub _ _ _ _ _ _ _ => .m
  | .mhad _ _ _ _ _ _ _ => .m
  | .mmax _ _ _ _ _ _ _ => .m
  | .mtrn _ _ _ _ => .m
  | .mneg _ _ _ _ _ => .m
  | .mcvt _ _ _ _ _ _ _ => .m
  | .mcopy _ _ _ _ => .m
  | .mreshape _ _ _ _ => .m
  | .mscale _ _ _ _ _ => .m
  | .mfill _ _ _ => .m
  | .mget _ _ _ _ => .m
  | .mput _ _ _ => .m
  | .mshape _ _ _ _ => .m
  | .minv _ _ _ _ => .m
  | .mlu _ _ _ _ _ => .m
  | .mchol _ _ _ _ => .m
  | .mtrsv _ _ _ _ _ _ _ _ => .m
  | .mexp _ _ _ _ => .m
  | .mht _ _ _ _ _ _ => .m
  | .mquant _ _ _ _ _ => .m
  | .msacc _ _ _ _ _ => .m
  | .calloc _ _ _ => .m
  | .cfree _ _ => .m
  | .caccAdd _ _ _ _ _ => .m
  | .caccIadd _ _ _ _ _ => .m
  | .caccWrite _ _ _ _ _ => .m
  | .cld _ _ _ _ => .m
  | .cldClr _ _ _ _ => .m
  | .cdrainMem _ _ => .m
  | .cdrainAdd _ _ => .m
  | .cpy _ _ _ => .l
  | .cpy2d _ _ _ => .l
  | .cpyxGather _ _ _ => .l
  | .cpyxScatter _ _ _ => .l
  | .wtany _ _ => .l
  | .wtall _ _ => .l
  | .tfirst _ _ _ => .l
  | .ttest _ _ _ => .l
  | .tlwait _ _ _ => .l
  | .tlread _ _ _ => .l
  | .collAllreduce _ _ => .l
  | .collReducescatter _ _ => .l
  | .collAllgather _ _ => .l
  | .collAlltoall _ _ => .l
  | .hnew _ _ _ => .l
  | .hcopy _ _ _ => .l
  | .hdrop _ _ => .l
  | .hderef _ _ _ => .l
  | .hfin _ _ _ => .l
  | .hld _ _ _ => .l
  | .hst _ _ _ => .l
  | .lywait _ _ _ => .l
  | .lydone _ _ _ => .l
  | .lyhintPf _ _ _ => .l
  | .lyhintRetry _ _ _ => .l
  | .passedOverLimit _ _ => .none
  | .heldTrapDelivery _ _ => .none
  | .faultReportDequeue _ => .none
  | .memoryResultArrival _ _ => .none
  | .scrubUncorrectable _ => .none
  | .matrixAccessCompletion _ _ => .none
  | .cellPhaseEnd _ _ => .none
  | .cellWordPassEnd _ _ => .none
  | .checksumRerunStart _ _ => .none
  | .mexpPassEnd _ _ => .none
  | .elementBusyEnd _ _ => .none
  | .elementPathCompletion _ _ => .none
  | .macqParkedGrant _ _ => .none
  | .macqArrival _ _ => .none
  | .macqTryFailArrival _ _ => .none
  | .callocGrant _ _ => .none
  | .cfreeCompletion _ _ => .none
  | .barrierCompletion _ => .none
  | .awtCompletion _ _ => .none
  | .claspReleaseCompletion _ _ => .none
  | .claspAcqCompletion _ _ => .none
  | .claspUnbindCompletion _ _ => .none
  | .mwaitWake _ _ => .none
  | .mwaitTimeout _ _ => .none
  | .tlbiSweepCompletion _ _ => .none
  | .fenceEngineCompletion _ _ => .none
  | .tagWaitCompletion _ _ => .none
  | .tlwaitCompletion _ _ => .none
  | .lywaitCompletion _ _ => .none
  | .copyCompletion _ => .none
  | .drainRowCompletion _ _ => .none
  | .drainRowApply _ => .none
  | .collCompletion _ => .none
  | .homeVerdict _ => .none
  | .dropPostApply _ => .none
  | .signetVerdictArrival _ _ => .none
  | .taskPlacement _ => .none
  | .placementWaitLimit _ => .none
  | .taskLaunch _ => .none
  | .taskEnd _ => .none
  | .regionLink _ => .none
  | .regionEndCompletion _ => .none
  | .intakeTaskEntry => .none
  | .intakeRgendEntry => .none
  | .intakeRgnewEntry => .none
  | .intakeSkipEntry => .none
  | .trayTimerExpiry _ _ => .none
  | .swapFetchStart _ _ => .none
  | .evictionCompletion _ _ => .none
  | .swapFetchCompletion _ _ => .none
  | .swapFetchFailure _ _ _ => .none
  | .swapFetchTimeout _ _ => .none
  | .preemptionRequest _ => .none
  | .contextSave _ => .none
  | .taskRestore _ => .none
  | .watchdogParkExpiry _ _ => .none
  | .watchdogHandlerExpiry _ _ => .none
  | .arbiterInterval _ => .none
  | .dieGrant _ _ => .none
  | .grantTimeout _ => .none
  | .railChangeCompletion _ => .none
  | .governorRailWrite _ _ _ => .none
  | .thermalLimit _ => .none
  | .thermalShutdown _ => .none
  | .flitDataReceive _ _ => .none
  | .flitNackReceive _ _ => .none
  | .flitIdleReceive _ _ => .none
  | .linkAckTimeout _ => .none
  | .linkRetrainCompletion _ => .none
  | .transactionReceive _ => .none
  | .transactionResponse _ _ _ => .none
  | .transactionResendTimeout _ _ => .none
  | .transactionFailure _ _ => .none
  | .bar2Write _ _ _ _ => .none
  | .bar2Read _ _ _ => .none
  | .bar2Fetchadd _ _ _ _ => .none
  | .bar2Swap _ _ _ _ => .none
  | .bar2Cas _ _ _ _ _ => .none
  | .rstctlReset _ _ => .none
  | .semRequest _ _ => .none
  | .semRelease _ _ => .none
  | .msixUnmask _ _ => .none
  | .controlRegisterWrite _ _ _ => .none
  | .portFlr _ => .none
  | .portLinkDown _ => .none
  | .hostCompletionTimeout _ _ => .none
  | .cxlResponseTimeout _ _ => .none
  | .cxlPoisonResponse _ _ => .none
  | .attctlRequest _ _ => .none
  | .attestationCompletion => .none
  | .powerOnReset => .none
  | .illegalEncoding _ _ => .none
  | .cxlPortDown _ => .none

/-- The header of a word; SCP and LIT carry none [02 R21, R31, R32]. -/
def Instr.hdr : Instr → Option Hdr
  | .nop h => some h
  | .scp _ _ => none
  | .lit _ _ _ => none
  | .br h _ _ => some h
  | .bnone h _ _ => some h
  | .bany h _ _ => some h
  | .ball h _ _ => some h
  | .bnall h _ _ => some h
  | .bdiv h _ _ => some h
  | .call h _ => some h
  | .jmpr h _ => some h
  | .ret h _ => some h
  | .exit h => some h
  | .join h => some h
  | .earlygo h => some h
  | .yield h => some h
  | .tret h => some h
  | .bkpt h _ => some h
  | .trap h _ => some h
  | .eret h => some h
  | .halt h => some h
  | .tlbi h _ _ _ => some h
  | .railsel h _ => some h
  | .csrr h _ _ => some h
  | .csrw h _ _ => some h
  | .csrs h _ _ => some h
  | .csrc h _ _ => some h
  | .iadd h _ _ _ => some h
  | .isub h _ _ _ => some h
  | .imin h _ _ _ => some h
  | .imax h _ _ _ => some h
  | .iminZ h _ _ _ => some h
  | .imaxZ h _ _ _ => some h
  | .idiff h _ _ _ => some h
  | .iabs h _ _ => some h
  | .andw h _ _ _ => some h
  | .orw h _ _ _ => some h
  | .xorw h _ _ _ => some h
  | .andn h _ _ _ => some h
  | .ishl h _ _ _ => some h
  | .ishr h _ _ _ => some h
  | .isar h _ _ _ => some h
  | .irot h _ _ _ => some h
  | .imul h _ _ _ => some h
  | .imulhS h _ _ _ => some h
  | .imulhZ h _ _ _ => some h
  | .imad h _ _ _ => some h
  | .popc h _ _ => some h
  | .clz h _ _ => some h
  | .brev h _ _ => some h
  | .fns h _ _ _ => some h
  | .popc64 h _ _ => some h
  | .clz64 h _ _ => some h
  | .brev64 h _ _ => some h
  | .fns64 h _ _ _ => some h
  | .iadd64 h _ _ _ => some h
  | .isub64 h _ _ _ => some h
  | .ishl64 h _ _ _ => some h
  | .ishr64 h _ _ _ => some h
  | .bfxS h _ _ _ => some h
  | .bfxZ h _ _ _ => some h
  | .bfi h _ _ _ => some h
  | .prmt h _ _ _ => some h
  | .sel h _ _ _ _ => some h
  | .mov h _ _ => some h
  | .mov64 h _ _ => some h
  | .iaddi h _ _ _ => some h
  | .andi h _ _ _ => some h
  | .ori h _ _ _ => some h
  | .xori h _ _ _ => some h
  | .ishli h _ _ _ => some h
  | .ishri h _ _ _ => some h
  | .isari h _ _ _ => some h
  | .iroti h _ _ _ => some h
  | .icmp h _ _ _ _ _ => some h
  | .icmpi h _ _ _ _ _ => some h
  | .pand h _ _ _ => some h
  | .por h _ _ _ => some h
  | .pxor h _ _ _ => some h
  | .pandn h _ _ _ => some h
  | .lea h _ _ _ _ => some h
  | .movk h _ _ => some h
  | .iaddk h _ _ _ => some h
  | .leak h _ _ _ => some h
  | .kmov h _ _ => some h
  | .kadd h _ _ => some h
  | .ksub h _ _ => some h
  | .kmul h _ _ => some h
  | .kand h _ _ => some h
  | .kor h _ _ => some h
  | .kxor h _ _ => some h
  | .kshl h _ _ => some h
  | .kshr h _ _ => some h
  | .ksar h _ _ => some h
  | .kmin h _ _ => some h
  | .kmax h _ _ => some h
  | .kcmp h _ _ => some h
  | .kpopc h _ _ => some h
  | .kclz h _ _ => some h
  | .kfns h _ _ => some h
  | .kli h _ _ => some h
  | .kaddi h _ _ => some h
  | .kld h _ _ _ => some h
  | .kst h _ _ _ => some h
  | .kget h _ _ _ => some h
  | .fadd h _ _ _ => some h
  | .fsub h _ _ _ => some h
  | .fmul h _ _ _ => some h
  | .ffma h _ _ _ => some h
  | .fmin h _ _ _ => some h
  | .fmax h _ _ _ => some h
  | .fabs h _ _ => some h
  | .fneg h _ _ => some h
  | .fcmp h _ _ _ _ _ => some h
  | .frcp h _ _ => some h
  | .frsq h _ _ => some h
  | .fsqrt h _ _ => some h
  | .fexp2 h _ _ => some h
  | .flog2 h _ _ => some h
  | .fsin h _ _ => some h
  | .fcos h _ _ => some h
  | .ftanh h _ _ => some h
  | .frndRn h _ _ => some h
  | .frndRz h _ _ => some h
  | .frndRu h _ _ => some h
  | .frndRd h _ _ => some h
  | .fclass h _ _ => some h
  | .fcvt h _ _ _ _ _ => some h
  | .pkbf h _ _ _ => some h
  | .pkh h _ _ _ => some h
  | .pkins h _ _ _ => some h
  | .upk h _ _ _ => some h
  | .faddi h _ _ _ => some h
  | .fmuli h _ _ _ => some h
  | .dp4S8 h _ _ _ => some h
  | .dp4Z8 h _ _ _ => some h
  | .dp4E4 h _ _ _ => some h
  | .dp4E5 h _ _ _ => some h
  | .dp8S4 h _ _ _ => some h
  | .dp8F4 h _ _ _ => some h
  | .dp2Bf h _ _ _ => some h
  | .scacc h _ _ _ => some h
  | .ld h _ _ _ _ => some h
  | .st h _ _ _ _ => some h
  | .pfetch h _ _ => some h
  | .fenceFull h _ _ => some h
  | .fenceAcq h _ _ => some h
  | .fenceRel h _ _ => some h
  | .atadd32 h _ _ _ => some h
  | .atadd64 h _ _ _ => some h
  | .ataddF32 h _ _ _ => some h
  | .ataddBf16x2 h _ _ _ => some h
  | .atmmMinS h _ _ _ => some h
  | .atmmMaxS h _ _ _ => some h
  | .atmmMinZ h _ _ _ => some h
  | .atmmMaxZ h _ _ _ => some h
  | .atlogAnd h _ _ _ => some h
  | .atlogOr h _ _ _ => some h
  | .atlogXor h _ _ _ => some h
  | .atlogExch h _ _ _ => some h
  | .cas32 h _ _ _ => some h
  | .cas64 h _ _ _ => some h
  | .claspAcq h _ => some h
  | .claspRel h _ => some h
  | .claspTry h _ _ => some h
  | .claspBind h _ _ => some h
  | .claspUnbind h _ => some h
  | .monitor h _ => some h
  | .mwait h _ _ => some h
  | .mcancel h => some h
  | .shflIdx h _ _ _ => some h
  | .shflXor h _ _ _ => some h
  | .shflUp h _ _ _ => some h
  | .shflDown h _ _ _ => some h
  | .redu h _ _ _ => some h
  | .scan h _ _ _ _ => some h
  | .compress h _ _ _ => some h
  | .expand h _ _ _ => some h
  | .matchw h _ _ => some h
  | .ballot h _ _ => some h
  | .bar h => some h
  | .arrv h _ _ _ => some h
  | .awt h _ _ _ => some h
  | .spawn h _ _ => some h
  | .tnew h _ => some h
  | .tnewn h _ _ => some h
  | .tcancel h _ => some h
  | .depdec h _ => some h
  | .depadd h _ _ => some h
  | .depget h _ _ => some h
  | .rgnew h _ => some h
  | .rgend h _ => some h
  | .rgpri h _ _ => some h
  | .macq h _ _ _ _ => some h
  | .macqTry h _ _ _ _ _ => some h
  | .mrel h _ => some h
  | .mldRow h _ _ _ => some h
  | .mldCol h _ _ _ => some h
  | .mldSparse h _ _ => some h
  | .mldBcast h _ _ => some h
  | .mstRow h _ _ _ _ => some h
  | .mstCol h _ _ _ _ => some h
  | .mstSparse h _ _ _ => some h
  | .mmul h _ _ _ _ _ _ _ => some h
  | .mmult h _ _ _ _ _ _ _ => some h
  | .mtmul h _ _ _ _ _ _ _ => some h
  | .madd h _ _ _ _ _ _ => some h
  | .msub h _ _ _ _ _ _ => some h
  | .mhad h _ _ _ _ _ _ => some h
  | .mmax h _ _ _ _ _ _ => some h
  | .mtrn h _ _ _ => some h
  | .mneg h _ _ _ _ => some h
  | .mcvt h _ _ _ _ _ _ => some h
  | .mcopy h _ _ _ => some h
  | .mreshape h _ _ _ => some h
  | .mscale h _ _ _ _ => some h
  | .mfill h _ _ => some h
  | .mget h _ _ _ => some h
  | .mput h _ _ => some h
  | .mshape h _ _ _ => some h
  | .minv h _ _ _ => some h
  | .mlu h _ _ _ _ => some h
  | .mchol h _ _ _ => some h
  | .mtrsv h _ _ _ _ _ _ _ => some h
  | .mexp h _ _ _ => some h
  | .mht h _ _ _ _ _ => some h
  | .mquant h _ _ _ _ => some h
  | .msacc h _ _ _ _ => some h
  | .calloc h _ _ => some h
  | .cfree h _ => some h
  | .caccAdd h _ _ _ _ => some h
  | .caccIadd h _ _ _ _ => some h
  | .caccWrite h _ _ _ _ => some h
  | .cld h _ _ _ => some h
  | .cldClr h _ _ _ => some h
  | .cdrainMem h _ => some h
  | .cdrainAdd h _ => some h
  | .cpy h _ _ => some h
  | .cpy2d h _ _ => some h
  | .cpyxGather h _ _ => some h
  | .cpyxScatter h _ _ => some h
  | .wtany h _ => some h
  | .wtall h _ => some h
  | .tfirst h _ _ => some h
  | .ttest h _ _ => some h
  | .tlwait h _ _ => some h
  | .tlread h _ _ => some h
  | .collAllreduce h _ => some h
  | .collReducescatter h _ => some h
  | .collAllgather h _ => some h
  | .collAlltoall h _ => some h
  | .hnew h _ _ => some h
  | .hcopy h _ _ => some h
  | .hdrop h _ => some h
  | .hderef h _ _ => some h
  | .hfin h _ _ => some h
  | .hld h _ _ => some h
  | .hst h _ _ => some h
  | .lywait h _ _ => some h
  | .lydone h _ _ => some h
  | .lyhintPf h _ _ => some h
  | .lyhintRetry h _ _ => some h
  | .passedOverLimit _ _ => none
  | .heldTrapDelivery _ _ => none
  | .faultReportDequeue _ => none
  | .memoryResultArrival _ _ => none
  | .scrubUncorrectable _ => none
  | .matrixAccessCompletion _ _ => none
  | .cellPhaseEnd _ _ => none
  | .cellWordPassEnd _ _ => none
  | .checksumRerunStart _ _ => none
  | .mexpPassEnd _ _ => none
  | .elementBusyEnd _ _ => none
  | .elementPathCompletion _ _ => none
  | .macqParkedGrant _ _ => none
  | .macqArrival _ _ => none
  | .macqTryFailArrival _ _ => none
  | .callocGrant _ _ => none
  | .cfreeCompletion _ _ => none
  | .barrierCompletion _ => none
  | .awtCompletion _ _ => none
  | .claspReleaseCompletion _ _ => none
  | .claspAcqCompletion _ _ => none
  | .claspUnbindCompletion _ _ => none
  | .mwaitWake _ _ => none
  | .mwaitTimeout _ _ => none
  | .tlbiSweepCompletion _ _ => none
  | .fenceEngineCompletion _ _ => none
  | .tagWaitCompletion _ _ => none
  | .tlwaitCompletion _ _ => none
  | .lywaitCompletion _ _ => none
  | .copyCompletion _ => none
  | .drainRowCompletion _ _ => none
  | .drainRowApply _ => none
  | .collCompletion _ => none
  | .homeVerdict _ => none
  | .dropPostApply _ => none
  | .signetVerdictArrival _ _ => none
  | .taskPlacement _ => none
  | .placementWaitLimit _ => none
  | .taskLaunch _ => none
  | .taskEnd _ => none
  | .regionLink _ => none
  | .regionEndCompletion _ => none
  | .intakeTaskEntry => none
  | .intakeRgendEntry => none
  | .intakeRgnewEntry => none
  | .intakeSkipEntry => none
  | .trayTimerExpiry _ _ => none
  | .swapFetchStart _ _ => none
  | .evictionCompletion _ _ => none
  | .swapFetchCompletion _ _ => none
  | .swapFetchFailure _ _ _ => none
  | .swapFetchTimeout _ _ => none
  | .preemptionRequest _ => none
  | .contextSave _ => none
  | .taskRestore _ => none
  | .watchdogParkExpiry _ _ => none
  | .watchdogHandlerExpiry _ _ => none
  | .arbiterInterval _ => none
  | .dieGrant _ _ => none
  | .grantTimeout _ => none
  | .railChangeCompletion _ => none
  | .governorRailWrite _ _ _ => none
  | .thermalLimit _ => none
  | .thermalShutdown _ => none
  | .flitDataReceive _ _ => none
  | .flitNackReceive _ _ => none
  | .flitIdleReceive _ _ => none
  | .linkAckTimeout _ => none
  | .linkRetrainCompletion _ => none
  | .transactionReceive _ => none
  | .transactionResponse _ _ _ => none
  | .transactionResendTimeout _ _ => none
  | .transactionFailure _ _ => none
  | .bar2Write _ _ _ _ => none
  | .bar2Read _ _ _ => none
  | .bar2Fetchadd _ _ _ _ => none
  | .bar2Swap _ _ _ _ => none
  | .bar2Cas _ _ _ _ _ => none
  | .rstctlReset _ _ => none
  | .semRequest _ _ => none
  | .semRelease _ _ => none
  | .msixUnmask _ _ => none
  | .controlRegisterWrite _ _ _ => none
  | .portFlr _ => none
  | .portLinkDown _ => none
  | .hostCompletionTimeout _ _ => none
  | .cxlResponseTimeout _ _ => none
  | .cxlPoisonResponse _ _ => none
  | .attctlRequest _ _ => none
  | .attestationCompletion => none
  | .powerOnReset => none
  | .illegalEncoding _ _ => none
  | .cxlPortDown _ => none

/-- The matrix path of an M-pipe word [10 R188]; MACQ, MREL and words of other pipes take none. -/
def Instr.path : Instr → Path
  | .nop _ => .none
  | .scp _ _ => .none
  | .lit _ _ _ => .none
  | .br _ _ _ => .none
  | .bnone _ _ _ => .none
  | .bany _ _ _ => .none
  | .ball _ _ _ => .none
  | .bnall _ _ _ => .none
  | .bdiv _ _ _ => .none
  | .call _ _ => .none
  | .jmpr _ _ => .none
  | .ret _ _ => .none
  | .exit _ => .none
  | .join _ => .none
  | .earlygo _ => .none
  | .yield _ => .none
  | .tret _ => .none
  | .bkpt _ _ => .none
  | .trap _ _ => .none
  | .eret _ => .none
  | .halt _ => .none
  | .tlbi _ _ _ _ => .none
  | .railsel _ _ => .none
  | .csrr _ _ _ => .none
  | .csrw _ _ _ => .none
  | .csrs _ _ _ => .none
  | .csrc _ _ _ => .none
  | .iadd _ _ _ _ => .none
  | .isub _ _ _ _ => .none
  | .imin _ _ _ _ => .none
  | .imax _ _ _ _ => .none
  | .iminZ _ _ _ _ => .none
  | .imaxZ _ _ _ _ => .none
  | .idiff _ _ _ _ => .none
  | .iabs _ _ _ => .none
  | .andw _ _ _ _ => .none
  | .orw _ _ _ _ => .none
  | .xorw _ _ _ _ => .none
  | .andn _ _ _ _ => .none
  | .ishl _ _ _ _ => .none
  | .ishr _ _ _ _ => .none
  | .isar _ _ _ _ => .none
  | .irot _ _ _ _ => .none
  | .imul _ _ _ _ => .none
  | .imulhS _ _ _ _ => .none
  | .imulhZ _ _ _ _ => .none
  | .imad _ _ _ _ => .none
  | .popc _ _ _ => .none
  | .clz _ _ _ => .none
  | .brev _ _ _ => .none
  | .fns _ _ _ _ => .none
  | .popc64 _ _ _ => .none
  | .clz64 _ _ _ => .none
  | .brev64 _ _ _ => .none
  | .fns64 _ _ _ _ => .none
  | .iadd64 _ _ _ _ => .none
  | .isub64 _ _ _ _ => .none
  | .ishl64 _ _ _ _ => .none
  | .ishr64 _ _ _ _ => .none
  | .bfxS _ _ _ _ => .none
  | .bfxZ _ _ _ _ => .none
  | .bfi _ _ _ _ => .none
  | .prmt _ _ _ _ => .none
  | .sel _ _ _ _ _ => .none
  | .mov _ _ _ => .none
  | .mov64 _ _ _ => .none
  | .iaddi _ _ _ _ => .none
  | .andi _ _ _ _ => .none
  | .ori _ _ _ _ => .none
  | .xori _ _ _ _ => .none
  | .ishli _ _ _ _ => .none
  | .ishri _ _ _ _ => .none
  | .isari _ _ _ _ => .none
  | .iroti _ _ _ _ => .none
  | .icmp _ _ _ _ _ _ => .none
  | .icmpi _ _ _ _ _ _ => .none
  | .pand _ _ _ _ => .none
  | .por _ _ _ _ => .none
  | .pxor _ _ _ _ => .none
  | .pandn _ _ _ _ => .none
  | .lea _ _ _ _ _ => .none
  | .movk _ _ _ => .none
  | .iaddk _ _ _ _ => .none
  | .leak _ _ _ _ => .none
  | .kmov _ _ _ => .none
  | .kadd _ _ _ => .none
  | .ksub _ _ _ => .none
  | .kmul _ _ _ => .none
  | .kand _ _ _ => .none
  | .kor _ _ _ => .none
  | .kxor _ _ _ => .none
  | .kshl _ _ _ => .none
  | .kshr _ _ _ => .none
  | .ksar _ _ _ => .none
  | .kmin _ _ _ => .none
  | .kmax _ _ _ => .none
  | .kcmp _ _ _ => .none
  | .kpopc _ _ _ => .none
  | .kclz _ _ _ => .none
  | .kfns _ _ _ => .none
  | .kli _ _ _ => .none
  | .kaddi _ _ _ => .none
  | .kld _ _ _ _ => .none
  | .kst _ _ _ _ => .none
  | .kget _ _ _ _ => .none
  | .fadd _ _ _ _ => .none
  | .fsub _ _ _ _ => .none
  | .fmul _ _ _ _ => .none
  | .ffma _ _ _ _ => .none
  | .fmin _ _ _ _ => .none
  | .fmax _ _ _ _ => .none
  | .fabs _ _ _ => .none
  | .fneg _ _ _ => .none
  | .fcmp _ _ _ _ _ _ => .none
  | .frcp _ _ _ => .none
  | .frsq _ _ _ => .none
  | .fsqrt _ _ _ => .none
  | .fexp2 _ _ _ => .none
  | .flog2 _ _ _ => .none
  | .fsin _ _ _ => .none
  | .fcos _ _ _ => .none
  | .ftanh _ _ _ => .none
  | .frndRn _ _ _ => .none
  | .frndRz _ _ _ => .none
  | .frndRu _ _ _ => .none
  | .frndRd _ _ _ => .none
  | .fclass _ _ _ => .none
  | .fcvt _ _ _ _ _ _ => .none
  | .pkbf _ _ _ _ => .none
  | .pkh _ _ _ _ => .none
  | .pkins _ _ _ _ => .none
  | .upk _ _ _ _ => .none
  | .faddi _ _ _ _ => .none
  | .fmuli _ _ _ _ => .none
  | .dp4S8 _ _ _ _ => .none
  | .dp4Z8 _ _ _ _ => .none
  | .dp4E4 _ _ _ _ => .none
  | .dp4E5 _ _ _ _ => .none
  | .dp8S4 _ _ _ _ => .none
  | .dp8F4 _ _ _ _ => .none
  | .dp2Bf _ _ _ _ => .none
  | .scacc _ _ _ _ => .none
  | .ld _ _ _ _ _ => .none
  | .st _ _ _ _ _ => .none
  | .pfetch _ _ _ => .none
  | .fenceFull _ _ _ => .none
  | .fenceAcq _ _ _ => .none
  | .fenceRel _ _ _ => .none
  | .atadd32 _ _ _ _ => .none
  | .atadd64 _ _ _ _ => .none
  | .ataddF32 _ _ _ _ => .none
  | .ataddBf16x2 _ _ _ _ => .none
  | .atmmMinS _ _ _ _ => .none
  | .atmmMaxS _ _ _ _ => .none
  | .atmmMinZ _ _ _ _ => .none
  | .atmmMaxZ _ _ _ _ => .none
  | .atlogAnd _ _ _ _ => .none
  | .atlogOr _ _ _ _ => .none
  | .atlogXor _ _ _ _ => .none
  | .atlogExch _ _ _ _ => .none
  | .cas32 _ _ _ _ => .none
  | .cas64 _ _ _ _ => .none
  | .claspAcq _ _ => .none
  | .claspRel _ _ => .none
  | .claspTry _ _ _ => .none
  | .claspBind _ _ _ => .none
  | .claspUnbind _ _ => .none
  | .monitor _ _ => .none
  | .mwait _ _ _ => .none
  | .mcancel _ => .none
  | .shflIdx _ _ _ _ => .none
  | .shflXor _ _ _ _ => .none
  | .shflUp _ _ _ _ => .none
  | .shflDown _ _ _ _ => .none
  | .redu _ _ _ _ => .none
  | .scan _ _ _ _ _ => .none
  | .compress _ _ _ _ => .none
  | .expand _ _ _ _ => .none
  | .matchw _ _ _ => .none
  | .ballot _ _ _ => .none
  | .bar _ => .none
  | .arrv _ _ _ _ => .none
  | .awt _ _ _ _ => .none
  | .spawn _ _ _ => .none
  | .tnew _ _ => .none
  | .tnewn _ _ _ => .none
  | .tcancel _ _ => .none
  | .depdec _ _ => .none
  | .depadd _ _ _ => .none
  | .depget _ _ _ => .none
  | .rgnew _ _ => .none
  | .rgend _ _ => .none
  | .rgpri _ _ _ => .none
  | .macq _ _ _ _ _ => .none
  | .macqTry _ _ _ _ _ _ => .none
  | .mrel _ _ => .none
  | .mldRow _ _ _ _ => .access
  | .mldCol _ _ _ _ => .access
  | .mldSparse _ _ _ => .access
  | .mldBcast _ _ _ => .access
  | .mstRow _ _ _ _ _ => .access
  | .mstCol _ _ _ _ _ => .access
  | .mstSparse _ _ _ _ => .access
  | .mmul _ _ _ _ _ _ _ _ => .cell
  | .mmult _ _ _ _ _ _ _ _ => .cell
  | .mtmul _ _ _ _ _ _ _ _ => .cell
  | .madd _ _ _ _ _ _ _ => .element
  | .msub _ _ _ _ _ _ _ => .element
  | .mhad _ _ _ _ _ _ _ => .element
  | .mmax _ _ _ _ _ _ _ => .element
  | .mtrn _ _ _ _ => .element
  | .mneg _ _ _ _ _ => .element
  | .mcvt _ _ _ _ _ _ _ => .element
  | .mcopy _ _ _ _ => .element
  | .mreshape _ _ _ _ => .element
  | .mscale _ _ _ _ _ => .element
  | .mfill _ _ _ => .element
  | .mget _ _ _ _ => .element
  | .mput _ _ _ => .element
  | .mshape _ _ _ _ => .element
  | .minv _ _ _ _ => .cell
  | .mlu _ _ _ _ _ => .cell
  | .mchol _ _ _ _ => .cell
  | .mtrsv _ _ _ _ _ _ _ _ => .cell
  | .mexp _ _ _ _ => .cell
  | .mht _ _ _ _ _ _ => .cell
  | .mquant _ _ _ _ _ => .element
  | .msacc _ _ _ _ _ => .element
  | .calloc _ _ _ => .access
  | .cfree _ _ => .access
  | .caccAdd _ _ _ _ _ => .access
  | .caccIadd _ _ _ _ _ => .access
  | .caccWrite _ _ _ _ _ => .access
  | .cld _ _ _ _ => .access
  | .cldClr _ _ _ _ => .access
  | .cdrainMem _ _ => .drain
  | .cdrainAdd _ _ => .drain
  | .cpy _ _ _ => .none
  | .cpy2d _ _ _ => .none
  | .cpyxGather _ _ _ => .none
  | .cpyxScatter _ _ _ => .none
  | .wtany _ _ => .none
  | .wtall _ _ => .none
  | .tfirst _ _ _ => .none
  | .ttest _ _ _ => .none
  | .tlwait _ _ _ => .none
  | .tlread _ _ _ => .none
  | .collAllreduce _ _ => .none
  | .collReducescatter _ _ => .none
  | .collAllgather _ _ => .none
  | .collAlltoall _ _ => .none
  | .hnew _ _ _ => .none
  | .hcopy _ _ _ => .none
  | .hdrop _ _ => .none
  | .hderef _ _ _ => .none
  | .hfin _ _ _ => .none
  | .hld _ _ _ => .none
  | .hst _ _ _ => .none
  | .lywait _ _ _ => .none
  | .lydone _ _ _ => .none
  | .lyhintPf _ _ _ => .none
  | .lyhintRetry _ _ _ => .none
  | .passedOverLimit _ _ => .none
  | .heldTrapDelivery _ _ => .none
  | .faultReportDequeue _ => .none
  | .memoryResultArrival _ _ => .none
  | .scrubUncorrectable _ => .none
  | .matrixAccessCompletion _ _ => .none
  | .cellPhaseEnd _ _ => .none
  | .cellWordPassEnd _ _ => .none
  | .checksumRerunStart _ _ => .none
  | .mexpPassEnd _ _ => .none
  | .elementBusyEnd _ _ => .none
  | .elementPathCompletion _ _ => .none
  | .macqParkedGrant _ _ => .none
  | .macqArrival _ _ => .none
  | .macqTryFailArrival _ _ => .none
  | .callocGrant _ _ => .none
  | .cfreeCompletion _ _ => .none
  | .barrierCompletion _ => .none
  | .awtCompletion _ _ => .none
  | .claspReleaseCompletion _ _ => .none
  | .claspAcqCompletion _ _ => .none
  | .claspUnbindCompletion _ _ => .none
  | .mwaitWake _ _ => .none
  | .mwaitTimeout _ _ => .none
  | .tlbiSweepCompletion _ _ => .none
  | .fenceEngineCompletion _ _ => .none
  | .tagWaitCompletion _ _ => .none
  | .tlwaitCompletion _ _ => .none
  | .lywaitCompletion _ _ => .none
  | .copyCompletion _ => .none
  | .drainRowCompletion _ _ => .none
  | .drainRowApply _ => .none
  | .collCompletion _ => .none
  | .homeVerdict _ => .none
  | .dropPostApply _ => .none
  | .signetVerdictArrival _ _ => .none
  | .taskPlacement _ => .none
  | .placementWaitLimit _ => .none
  | .taskLaunch _ => .none
  | .taskEnd _ => .none
  | .regionLink _ => .none
  | .regionEndCompletion _ => .none
  | .intakeTaskEntry => .none
  | .intakeRgendEntry => .none
  | .intakeRgnewEntry => .none
  | .intakeSkipEntry => .none
  | .trayTimerExpiry _ _ => .none
  | .swapFetchStart _ _ => .none
  | .evictionCompletion _ _ => .none
  | .swapFetchCompletion _ _ => .none
  | .swapFetchFailure _ _ _ => .none
  | .swapFetchTimeout _ _ => .none
  | .preemptionRequest _ => .none
  | .contextSave _ => .none
  | .taskRestore _ => .none
  | .watchdogParkExpiry _ _ => .none
  | .watchdogHandlerExpiry _ _ => .none
  | .arbiterInterval _ => .none
  | .dieGrant _ _ => .none
  | .grantTimeout _ => .none
  | .railChangeCompletion _ => .none
  | .governorRailWrite _ _ _ => .none
  | .thermalLimit _ => .none
  | .thermalShutdown _ => .none
  | .flitDataReceive _ _ => .none
  | .flitNackReceive _ _ => .none
  | .flitIdleReceive _ _ => .none
  | .linkAckTimeout _ => .none
  | .linkRetrainCompletion _ => .none
  | .transactionReceive _ => .none
  | .transactionResponse _ _ _ => .none
  | .transactionResendTimeout _ _ => .none
  | .transactionFailure _ _ => .none
  | .bar2Write _ _ _ _ => .none
  | .bar2Read _ _ _ => .none
  | .bar2Fetchadd _ _ _ _ => .none
  | .bar2Swap _ _ _ _ => .none
  | .bar2Cas _ _ _ _ _ => .none
  | .rstctlReset _ _ => .none
  | .semRequest _ _ => .none
  | .semRelease _ _ => .none
  | .msixUnmask _ _ => .none
  | .controlRegisterWrite _ _ _ => .none
  | .portFlr _ => .none
  | .portLinkDown _ => .none
  | .hostCompletionTimeout _ _ => .none
  | .cxlResponseTimeout _ _ => .none
  | .cxlPoisonResponse _ _ => .none
  | .attctlRequest _ _ => .none
  | .attestationCompletion => .none
  | .powerOnReset => .none
  | .illegalEncoding _ _ => .none
  | .cxlPortDown _ => .none

/-- The carat weight of a word [22 R350]. -/
def Instr.weight : Instr → Nat
  | .nop _ => 0
  | .scp _ _ => 0
  | .lit _ _ _ => 0
  | .br _ _ _ => 1
  | .bnone _ _ _ => 1
  | .bany _ _ _ => 1
  | .ball _ _ _ => 1
  | .bnall _ _ _ => 1
  | .bdiv _ _ _ => 1
  | .call _ _ => 1
  | .jmpr _ _ => 1
  | .ret _ _ => 1
  | .exit _ => 1
  | .join _ => 1
  | .earlygo _ => 1
  | .yield _ => 1
  | .tret _ => 1
  | .bkpt _ _ => 1
  | .trap _ _ => 1
  | .eret _ => 1
  | .halt _ => 1
  | .tlbi _ _ _ _ => 1
  | .railsel _ _ => 1
  | .csrr _ _ _ => 1
  | .csrw _ _ _ => 1
  | .csrs _ _ _ => 1
  | .csrc _ _ _ => 1
  | .iadd _ _ _ _ => 1
  | .isub _ _ _ _ => 1
  | .imin _ _ _ _ => 1
  | .imax _ _ _ _ => 1
  | .iminZ _ _ _ _ => 1
  | .imaxZ _ _ _ _ => 1
  | .idiff _ _ _ _ => 1
  | .iabs _ _ _ => 1
  | .andw _ _ _ _ => 1
  | .orw _ _ _ _ => 1
  | .xorw _ _ _ _ => 1
  | .andn _ _ _ _ => 1
  | .ishl _ _ _ _ => 1
  | .ishr _ _ _ _ => 1
  | .isar _ _ _ _ => 1
  | .irot _ _ _ _ => 1
  | .imul _ _ _ _ => 1
  | .imulhS _ _ _ _ => 1
  | .imulhZ _ _ _ _ => 1
  | .imad _ _ _ _ => 1
  | .popc _ _ _ => 1
  | .clz _ _ _ => 1
  | .brev _ _ _ => 1
  | .fns _ _ _ _ => 1
  | .popc64 _ _ _ => 1
  | .clz64 _ _ _ => 1
  | .brev64 _ _ _ => 1
  | .fns64 _ _ _ _ => 1
  | .iadd64 _ _ _ _ => 1
  | .isub64 _ _ _ _ => 1
  | .ishl64 _ _ _ _ => 1
  | .ishr64 _ _ _ _ => 1
  | .bfxS _ _ _ _ => 1
  | .bfxZ _ _ _ _ => 1
  | .bfi _ _ _ _ => 1
  | .prmt _ _ _ _ => 1
  | .sel _ _ _ _ _ => 1
  | .mov _ _ _ => 1
  | .mov64 _ _ _ => 1
  | .iaddi _ _ _ _ => 1
  | .andi _ _ _ _ => 1
  | .ori _ _ _ _ => 1
  | .xori _ _ _ _ => 1
  | .ishli _ _ _ _ => 1
  | .ishri _ _ _ _ => 1
  | .isari _ _ _ _ => 1
  | .iroti _ _ _ _ => 1
  | .icmp _ _ _ _ _ _ => 1
  | .icmpi _ _ _ _ _ _ => 1
  | .pand _ _ _ _ => 1
  | .por _ _ _ _ => 1
  | .pxor _ _ _ _ => 1
  | .pandn _ _ _ _ => 1
  | .lea _ _ _ _ _ => 1
  | .movk _ _ _ => 1
  | .iaddk _ _ _ _ => 1
  | .leak _ _ _ _ => 1
  | .kmov _ _ _ => 1
  | .kadd _ _ _ => 1
  | .ksub _ _ _ => 1
  | .kmul _ _ _ => 1
  | .kand _ _ _ => 1
  | .kor _ _ _ => 1
  | .kxor _ _ _ => 1
  | .kshl _ _ _ => 1
  | .kshr _ _ _ => 1
  | .ksar _ _ _ => 1
  | .kmin _ _ _ => 1
  | .kmax _ _ _ => 1
  | .kcmp _ _ _ => 1
  | .kpopc _ _ _ => 1
  | .kclz _ _ _ => 1
  | .kfns _ _ _ => 1
  | .kli _ _ _ => 1
  | .kaddi _ _ _ => 1
  | .kld _ _ _ _ => 1
  | .kst _ _ _ _ => 1
  | .kget _ _ _ _ => 1
  | .fadd _ _ _ _ => 2
  | .fsub _ _ _ _ => 2
  | .fmul _ _ _ _ => 2
  | .ffma _ _ _ _ => 2
  | .fmin _ _ _ _ => 2
  | .fmax _ _ _ _ => 2
  | .fabs _ _ _ => 2
  | .fneg _ _ _ => 2
  | .fcmp _ _ _ _ _ _ => 2
  | .frcp _ _ _ => 3
  | .frsq _ _ _ => 3
  | .fsqrt _ _ _ => 3
  | .fexp2 _ _ _ => 3
  | .flog2 _ _ _ => 3
  | .fsin _ _ _ => 3
  | .fcos _ _ _ => 3
  | .ftanh _ _ _ => 3
  | .frndRn _ _ _ => 3
  | .frndRz _ _ _ => 3
  | .frndRu _ _ _ => 3
  | .frndRd _ _ _ => 3
  | .fclass _ _ _ => 3
  | .fcvt _ _ _ _ _ _ => 2
  | .pkbf _ _ _ _ => 2
  | .pkh _ _ _ _ => 2
  | .pkins _ _ _ _ => 2
  | .upk _ _ _ _ => 2
  | .faddi _ _ _ _ => 2
  | .fmuli _ _ _ _ => 2
  | .dp4S8 _ _ _ _ => 4
  | .dp4Z8 _ _ _ _ => 4
  | .dp4E4 _ _ _ _ => 4
  | .dp4E5 _ _ _ _ => 4
  | .dp8S4 _ _ _ _ => 4
  | .dp8F4 _ _ _ _ => 4
  | .dp2Bf _ _ _ _ => 4
  | .scacc _ _ _ _ => 4
  | .ld _ _ _ _ _ => 3
  | .st _ _ _ _ _ => 3
  | .pfetch _ _ _ => 3
  | .fenceFull _ _ _ => 3
  | .fenceAcq _ _ _ => 3
  | .fenceRel _ _ _ => 3
  | .atadd32 _ _ _ _ => 3
  | .atadd64 _ _ _ _ => 3
  | .ataddF32 _ _ _ _ => 3
  | .ataddBf16x2 _ _ _ _ => 3
  | .atmmMinS _ _ _ _ => 3
  | .atmmMaxS _ _ _ _ => 3
  | .atmmMinZ _ _ _ _ => 3
  | .atmmMaxZ _ _ _ _ => 3
  | .atlogAnd _ _ _ _ => 3
  | .atlogOr _ _ _ _ => 3
  | .atlogXor _ _ _ _ => 3
  | .atlogExch _ _ _ _ => 3
  | .cas32 _ _ _ _ => 3
  | .cas64 _ _ _ _ => 3
  | .claspAcq _ _ => 3
  | .claspRel _ _ => 3
  | .claspTry _ _ _ => 3
  | .claspBind _ _ _ => 3
  | .claspUnbind _ _ => 3
  | .monitor _ _ => 3
  | .mwait _ _ _ => 3
  | .mcancel _ => 3
  | .shflIdx _ _ _ _ => 2
  | .shflXor _ _ _ _ => 2
  | .shflUp _ _ _ _ => 2
  | .shflDown _ _ _ _ => 2
  | .redu _ _ _ _ => 2
  | .scan _ _ _ _ _ => 2
  | .compress _ _ _ _ => 2
  | .expand _ _ _ _ => 2
  | .matchw _ _ _ => 2
  | .ballot _ _ _ => 2
  | .bar _ => 3
  | .arrv _ _ _ _ => 3
  | .awt _ _ _ _ => 3
  | .spawn _ _ _ => 3
  | .tnew _ _ => 3
  | .tnewn _ _ _ => 3
  | .tcancel _ _ => 3
  | .depdec _ _ => 3
  | .depadd _ _ _ => 3
  | .depget _ _ _ => 3
  | .rgnew _ _ => 3
  | .rgend _ _ => 3
  | .rgpri _ _ _ => 3
  | .macq _ _ _ _ _ => 8
  | .macqTry _ _ _ _ _ _ => 8
  | .mrel _ _ => 8
  | .mldRow _ _ _ _ => 6
  | .mldCol _ _ _ _ => 6
  | .mldSparse _ _ _ => 6
  | .mldBcast _ _ _ => 6
  | .mstRow _ _ _ _ _ => 6
  | .mstCol _ _ _ _ _ => 6
  | .mstSparse _ _ _ _ => 6
  | .mmul _ _ _ _ _ _ _ _ => 64
  | .mmult _ _ _ _ _ _ _ _ => 64
  | .mtmul _ _ _ _ _ _ _ _ => 64
  | .madd _ _ _ _ _ _ _ => 8
  | .msub _ _ _ _ _ _ _ => 8
  | .mhad _ _ _ _ _ _ _ => 8
  | .mmax _ _ _ _ _ _ _ => 8
  | .mtrn _ _ _ _ => 8
  | .mneg _ _ _ _ _ => 8
  | .mcvt _ _ _ _ _ _ _ => 8
  | .mcopy _ _ _ _ => 8
  | .mreshape _ _ _ _ => 8
  | .mscale _ _ _ _ _ => 8
  | .mfill _ _ _ => 8
  | .mget _ _ _ _ => 8
  | .mput _ _ _ => 8
  | .mshape _ _ _ _ => 8
  | .minv _ _ _ _ => 64
  | .mlu _ _ _ _ _ => 64
  | .mchol _ _ _ _ => 64
  | .mtrsv _ _ _ _ _ _ _ _ => 64
  | .mexp _ _ _ _ => 64
  | .mht _ _ _ _ _ _ => 64
  | .mquant _ _ _ _ _ => 8
  | .msacc _ _ _ _ _ => 8
  | .calloc _ _ _ => 6
  | .cfree _ _ => 6
  | .caccAdd _ _ _ _ _ => 6
  | .caccIadd _ _ _ _ _ => 6
  | .caccWrite _ _ _ _ _ => 6
  | .cld _ _ _ _ => 6
  | .cldClr _ _ _ _ => 6
  | .cdrainMem _ _ => 16
  | .cdrainAdd _ _ => 16
  | .cpy _ _ _ => 16
  | .cpy2d _ _ _ => 16
  | .cpyxGather _ _ _ => 16
  | .cpyxScatter _ _ _ => 16
  | .wtany _ _ => 16
  | .wtall _ _ => 16
  | .tfirst _ _ _ => 16
  | .ttest _ _ _ => 16
  | .tlwait _ _ _ => 16
  | .tlread _ _ _ => 16
  | .collAllreduce _ _ => 16
  | .collReducescatter _ _ => 16
  | .collAllgather _ _ => 16
  | .collAlltoall _ _ => 16
  | .hnew _ _ _ => 3
  | .hcopy _ _ _ => 3
  | .hdrop _ _ => 3
  | .hderef _ _ _ => 3
  | .hfin _ _ _ => 3
  | .hld _ _ _ => 3
  | .hst _ _ _ => 3
  | .lywait _ _ _ => 3
  | .lydone _ _ _ => 3
  | .lyhintPf _ _ _ => 3
  | .lyhintRetry _ _ _ => 3
  | .passedOverLimit _ _ => 0
  | .heldTrapDelivery _ _ => 0
  | .faultReportDequeue _ => 0
  | .memoryResultArrival _ _ => 0
  | .scrubUncorrectable _ => 0
  | .matrixAccessCompletion _ _ => 0
  | .cellPhaseEnd _ _ => 0
  | .cellWordPassEnd _ _ => 0
  | .checksumRerunStart _ _ => 0
  | .mexpPassEnd _ _ => 0
  | .elementBusyEnd _ _ => 0
  | .elementPathCompletion _ _ => 0
  | .macqParkedGrant _ _ => 0
  | .macqArrival _ _ => 0
  | .macqTryFailArrival _ _ => 0
  | .callocGrant _ _ => 0
  | .cfreeCompletion _ _ => 0
  | .barrierCompletion _ => 0
  | .awtCompletion _ _ => 0
  | .claspReleaseCompletion _ _ => 0
  | .claspAcqCompletion _ _ => 0
  | .claspUnbindCompletion _ _ => 0
  | .mwaitWake _ _ => 0
  | .mwaitTimeout _ _ => 0
  | .tlbiSweepCompletion _ _ => 0
  | .fenceEngineCompletion _ _ => 0
  | .tagWaitCompletion _ _ => 0
  | .tlwaitCompletion _ _ => 0
  | .lywaitCompletion _ _ => 0
  | .copyCompletion _ => 0
  | .drainRowCompletion _ _ => 0
  | .drainRowApply _ => 0
  | .collCompletion _ => 0
  | .homeVerdict _ => 0
  | .dropPostApply _ => 0
  | .signetVerdictArrival _ _ => 0
  | .taskPlacement _ => 0
  | .placementWaitLimit _ => 0
  | .taskLaunch _ => 0
  | .taskEnd _ => 0
  | .regionLink _ => 0
  | .regionEndCompletion _ => 0
  | .intakeTaskEntry => 0
  | .intakeRgendEntry => 0
  | .intakeRgnewEntry => 0
  | .intakeSkipEntry => 0
  | .trayTimerExpiry _ _ => 0
  | .swapFetchStart _ _ => 0
  | .evictionCompletion _ _ => 0
  | .swapFetchCompletion _ _ => 0
  | .swapFetchFailure _ _ _ => 0
  | .swapFetchTimeout _ _ => 0
  | .preemptionRequest _ => 0
  | .contextSave _ => 0
  | .taskRestore _ => 0
  | .watchdogParkExpiry _ _ => 0
  | .watchdogHandlerExpiry _ _ => 0
  | .arbiterInterval _ => 0
  | .dieGrant _ _ => 0
  | .grantTimeout _ => 0
  | .railChangeCompletion _ => 0
  | .governorRailWrite _ _ _ => 0
  | .thermalLimit _ => 0
  | .thermalShutdown _ => 0
  | .flitDataReceive _ _ => 0
  | .flitNackReceive _ _ => 0
  | .flitIdleReceive _ _ => 0
  | .linkAckTimeout _ => 0
  | .linkRetrainCompletion _ => 0
  | .transactionReceive _ => 0
  | .transactionResponse _ _ _ => 0
  | .transactionResendTimeout _ _ => 0
  | .transactionFailure _ _ => 0
  | .bar2Write _ _ _ _ => 0
  | .bar2Read _ _ _ => 0
  | .bar2Fetchadd _ _ _ _ => 0
  | .bar2Swap _ _ _ _ => 0
  | .bar2Cas _ _ _ _ _ => 0
  | .rstctlReset _ _ => 0
  | .semRequest _ _ => 0
  | .semRelease _ _ => 0
  | .msixUnmask _ _ => 0
  | .controlRegisterWrite _ _ _ => 0
  | .portFlr _ => 0
  | .portLinkDown _ => 0
  | .hostCompletionTimeout _ _ => 0
  | .cxlResponseTimeout _ _ => 0
  | .cxlPoisonResponse _ _ => 0
  | .attctlRequest _ _ => 0
  | .attestationCompletion => 0
  | .powerOnReset => 0
  | .illegalEncoding _ _ => 0
  | .cxlPortDown _ => 0

end Sys2Proof

namespace Sys2Proof.Machine

/-! ### Prefixes and control words [02 R27, R31-R33] -/

/-- A word's major opcode. -/
def major (w : W32) : Nat := w.toNat / 2 ^ 20 % 128

def isScp (w : W32) : Bool := major w == 1
def isLit (w : W32) : Bool := major w == 2 || major w == 3
def isPrefix (w : W32) : Bool := isScp w || isLit w

/-- A control word: majors 0x04-0x0B [02 R27]. -/
def isControl (w : W32) : Bool := decide (4 ≤ major w) && decide (major w ≤ 0x0B)

/-- A word accepts LIT [02 R32]. -/
def takesLit (w : W32) : Bool :=
  [0x1B, 0x1C, 0x1D, 0x1E, 0x28, 0x29, 0x36, 0x37, 0x40, 0x41, 0x42].contains (major w)

/-- A word accepts SCP with an order code [02 R31]. -/
def takesScp (w : W32) (order : Nat) : Bool :=
  if major w = 0x40 ∨ major w = 0x62 then order == 0 || order == 1
  else if major w = 0x41 ∨ major w = 0x63 then order == 0 || order == 2
  else decide (0x44 ≤ major w) && decide (major w ≤ 0x47)

/-- One word of a group: its position in the packet and its bits. -/
abbrev GWord := Fin 3 × W32

/-- The first word of a list that is no prefix. -/
def firstPlain : List GWord → Option W32
  | [] => none
  | (_, w) :: ws => if isPrefix w then firstPlain ws else some w

/-- A prefix is misplaced: last in its packet, out of order, twice in the chain, or before a word that does not accept
it [02 R33]. LIT needs such a word right after it [02 R32]; SCP may stand before LIT [02 R31]. Of two SCPs the second is
the offending word: the first still has the word that it applies to (log 17). `before` holds the earlier words of the
group, `after` the later ones. -/
def misplaced (before : List GWord) (pos : Fin 3) (w : W32) (after : List GWord) : Bool :=
  pos == 2 ||
  (if isScp w then
    before.any (fun x => isPrefix x.2) ||
      (match firstPlain after with
       | none => true
       | some t => !takesScp t (w.toNat / 2 ^ 14 % 4))
   else
    before.any (fun x => isLit x.2) ||
      (match after with
       | [] => true
       | (_, t) :: _ => !takesLit t))

/-- Under LIT, KLI and KADDI need i[11:8] zero [02 R32]. -/
def wideUnderLit (before : List GWord) (w : W32) : Bool :=
  (major w == 0x28 || major w == 0x29) && decide (w.toNat / 2 ^ 8 % 16 ≠ 0) &&
  (match before.getLast? with
   | some x => isLit x.2
   | none => false)

/-- The positions of the words of a group that are illegal encodings, in order [02 R28]. -/
noncomputable def illegalAt : List GWord → List GWord → List GWord
  | _, [] => []
  | before, (pos, w) :: after =>
    let bad : Bool := match decodeWord w with
      | .error _ => true
      | .ok _ => (isControl w && pos != 2) || (isPrefix w && misplaced before pos w after) || wideUnderLit before w
    (if bad then [(pos, w)] else []) ++ illegalAt (before ++ [(pos, w)]) after

/-- A word of a group as its instruction, for words that decode. -/
noncomputable def decoded (ws : List GWord) : List (Fin 3 × W32 × Instr) :=
  ws.filterMap fun x => match decodeWord x.2 with
    | .ok i => some (x.1, x.2, i)
    | .error _ => none

/-! ### Illegal chains [01 R14, 02 R26] -/

/-- The registers of a use, one by one; pt counts for nothing [01 R14]. -/
inductive RegName where
  | g (n : Nat) | k (n : Nat) | p (n : Nat) | m (n : Nat)
  deriving DecidableEq, Repr

def useNames : Use → List RegName
  | .g r n => (List.range n).map fun i => .g (r.val + i)
  | .k r n => (List.range n).map fun i => .k (r.val + i)
  | .p n => if n.val = 7 then [] else [.p n.val]
  | .m h => [.m h.val]

def destNames (i : Instr) : List RegName := i.dsts.flatMap useNames

/-- The words of a group that break a chain rule, in order: a pipe or a destination of an earlier word, or K in the
third word [02 R26, R28]. -/
def badChain : List Instr → List (Fin 3 × W32 × Instr) → List GWord
  | _, [] => []
  | before, (pos, w, i) :: after =>
    let samePipe := i.pipe != .none && before.any fun j => j.pipe == i.pipe
    let sameDest := (destNames i).any fun n => before.any fun j => (destNames j).contains n
    let chained := pos == 2 && w.getLsbD 31
    (if samePipe || sameDest || chained then [(pos, w)] else []) ++ badChain (before ++ [i]) after

/-! ### Privilege [01 R11] -/

/-- A word that only system level may execute. -/
def privilegedWord : Instr → Bool
  | .eret _ => true
  | .halt _ => true
  | .tlbi _ _ _ _ => true
  | .railsel _ _ => true
  | .claspBind _ _ _ => true
  | .claspUnbind _ _ => true
  | .csrr _ _ c => c.system
  | .csrw _ _ c => c.system
  | .csrs _ _ c => c.system
  | .csrc _ _ c => c.system
  | _ => false

/-- The first encoding, chain or privilege fault of a group: its code and the offending word [02 R28]. -/
noncomputable def groupFault (ws : List GWord) (system : Bool) : Option (Nat × GWord) :=
  match illegalAt [] ws with
  | x :: _ => some (0x01, x)
  | [] =>
    match badChain [] (decoded ws) with
    | x :: _ => some (0x02, x)
    | [] =>
      match (decoded ws).find? fun x => privilegedWord x.2.2 && !system with
      | some x => some (0x03, (x.1, x.2.1))
      | none => none

/-! ### Unsettled access [01 R17, 10 R183] -/

/-- A use as destinations of a lane; pt is never pending. -/
def useDests (l : LaneId) : Use → List Dest
  | .g r n => (List.range n).map fun i => .g l (r.plus i)
  | .k r n => (List.range n).map fun i => .k (r.plus i)
  | .p n => if n.val = 7 then [] else [.p l n]
  | .m h => [.m l h]

/-- Words that read their g operands only in the lowest-numbered executing lane [13 R218; 17 R274; 06 R110, R113]. -/
def lowOnly : Instr → Bool
  | .calloc _ _ _ => true
  | .cfree _ _ => true
  | .rgnew _ _ => true
  | .rgend _ _ => true
  | .rgpri _ _ _ => true
  | .tlbi _ _ _ _ => true
  | .csrw _ _ c => !(c == .fpctl || c == .fpstat || c == .mxstat || c == .userscratch)
  | .csrs _ _ c => !(c == .fpctl || c == .fpstat || c == .mxstat || c == .userscratch)
  | .csrc _ _ c => !(c == .fpctl || c == .fpstat || c == .mxstat || c == .userscratch)
  | _ => false

/-- The source lane of each form of SHFL [10 R184]. -/
def srcIdx (_l : LaneId) (x : Nat) : Option LaneId := some (Fin.ofNat 32 x)
def srcXor (l : LaneId) (x : Nat) : Option LaneId := some (Fin.ofNat 32 (l.val ^^^ x))
def srcUp (l : LaneId) (x : Nat) : Option LaneId := if x ≤ l.val then some (Fin.ofNat 32 (l.val - x)) else none
def srcDown (l : LaneId) (x : Nat) : Option LaneId := if l.val + x < 32 then some (Fin.ofNat 32 (l.val + x)) else none

/-- The source lane of SHFL for a lane's own index value; none for a lane below 0 or above 31 [10 R184]. -/
def shflSrc (i : Instr) (l : LaneId) (x : Nat) : Option LaneId :=
  match i with
  | .shflIdx _ _ _ _ => srcIdx l x
  | .shflXor _ _ _ _ => srcXor l x
  | .shflUp _ _ _ _ => srcUp l x
  | .shflDown _ _ _ _ => srcDown l x
  | _ => none

/-- The registers that a word reads in other lanes of the fragment: KGET's lane, and SHFL's sources [10 R183, 04 R79]. A
lane of SHFL whose own index register is pending has no source lane yet, so it adds none (log 17). -/
def crossReads (st : Strand) (mask : W32) (ex : W32) (i : Instr) : List Dest :=
  match i with
  | .kget _ _ a lane => if ex != 0 && hasLane mask lane then [.g lane a] else []
  | .shflIdx _ _ a b | .shflXor _ _ a b | .shflUp _ _ a b | .shflDown _ _ a b =>
    (lanesOf ex).filterMap fun l =>
      if st.isPending (.g l b) then none else
      match shflSrc i l (((st.lane l).rg b).toNat % 32) with
      | some src => if hasLane mask src then some (.g src a) else none
      | none => none
  | _ => []

/-- The lane that a pending result is charged to: its own, or for a uniform register the lane that reads it. -/
def Dest.laneOr (l : LaneId) : Dest → LaneId
  | .g x _ => x
  | .k _ => l
  | .p x _ => x
  | .m x _ => x

/-- The lanes and registers that a word finds pending: its guard in every active lane, its operands in the executing
lanes, what it reads in other lanes [01 R17]. DESIGN CHOICE (log 17): a REDU with no participating lane finds its uniform
destination pending in no lane; a KLD's value that arrives later stands over what it writes. -/
def unsettledIn (st : Strand) (mask : W32) (i : Instr) : List (LaneId × Dest) :=
  match i.hdr with
  | none => []
  | some h =>
    let ex := st.guarded mask h.g
    let guards := (lanesOf mask).flatMap fun l => (useDests l (Use.p h.g)).map fun x => (l, x)
    let srcLanes := if lowOnly i then ((lanesOf ex).head?).toList else lanesOf ex
    let srcs := srcLanes.flatMap fun l => (i.srcs.flatMap (useDests l)).map fun x => (l, x)
    let dsts := (lanesOf ex).flatMap fun l => (i.dsts.flatMap (useDests l)).map fun x => (l, x)
    let cross := (crossReads st mask ex i).map fun x => (x.laneOr 0, x)
    (guards ++ srcs ++ dsts ++ cross).filter fun x => st.isPending x.2

/-- The register number and file that trapinfo names [01 R17]. -/
def Dest.info : Dest → W64
  | .g _ r => BitVec.ofNat 64 r.val
  | .k r => BitVec.ofNat 64 (r.val + 1 * 2 ^ 8)
  | .p _ n => BitVec.ofNat 64 (n.val + 2 * 2 ^ 8)
  | .m _ h => BitVec.ofNat 64 (h.val + 3 * 2 ^ 8)

/-- Unsettled access (0x04) of a group: traplanes holds every lane that meets a pending register, trapinfo the first
that the lowest of them meets (log 17). -/
def unsettledTrap (st : Strand) (mask : W32) (is : List Instr) : Option Trap :=
  let bad := is.flatMap (unsettledIn st mask)
  let lanes := maskOf fun l => bad.any fun x => x.1 == l
  if lanes = 0 then none else
  match bad.find? fun x => x.1 == lowLane lanes with
  | some x => some (Trap.user 0x04 lanes x.2.info)
  | none => none

/-! ### Readiness [01 R18, 03 R54, 10 R188] -/

/-- A CSR word that waits for the fragment's M-pipe results [03 R54]. -/
def namesMflags : Instr → Bool
  | .csrr _ _ c => c == .fpstat || c == .mxstat
  | .csrw _ _ c => c == .fpstat || c == .mxstat
  | .csrs _ _ c => c == .fpstat || c == .mxstat
  | .csrc _ _ c => c == .fpstat || c == .mxstat
  | _ => false

/-- An M-pipe word is outstanding in some lane of a mask [03 R54]. -/
def Strand.mOutstanding (st : Strand) (mask : W32) : Bool := st.flights.any fun f => f.isM && (f.lanes &&& mask) != 0

/-- The settle condition of a group [01 R18, 03 R54]. -/
def settleOk (st : Strand) (mask : W32) (is : List Instr) : Bool :=
  (!(is.any fun i => (i.hdr.map Hdr.s).getD false) || st.settled mask) &&
  (!(is.any namesMflags) || !st.mOutstanding mask)

/-- The engine queue of a core holds 64 operations: an engine word that finds it full is checked, and then parks; a
CDRAIN is not ready before [10 R188, 16 R250]. -/
def Dev.engineFull (d : Dev) (c : Fin 256) : Bool := decide (64 ≤ (d.ops.filter fun o => o.core == c).length)

/-- The quadrant's matrix paths accept the group's M-pipe word [10 R188]. -/
def Dev.pathFree (d : Dev) (c : Fin 256) (q : Fin 4) (i : Instr) : Bool :=
  let k := d.quad c q
  match i.path with
  | .none => true
  | .cell => k.cellBusy.isNone && k.rerunAt.isEmpty
  | .element => k.elemBusy.isNone
  | .access => decide (k.accessN < 16)
  | .drain => decide (k.accessN < 16) && !d.engineFull c

/-! ### Ordering across devices [14 R224, R230; 23 R365] -/

/-- A word that makes an access for its thread, or that starts another party on what the thread has done. -/
def accesses : Instr → Bool
  | .kld _ _ _ _ | .kst _ _ _ _ | .ld _ _ _ _ _ | .st _ _ _ _ _ => true
  | .mldRow _ _ _ _ | .mldCol _ _ _ _ | .mldSparse _ _ _ | .mldBcast _ _ _ => true
  | .mstRow _ _ _ _ _ | .mstCol _ _ _ _ _ | .mstSparse _ _ _ _ => true
  | .atadd32 _ _ _ _ | .atadd64 _ _ _ _ | .ataddF32 _ _ _ _ | .ataddBf16x2 _ _ _ _ => true
  | .atmmMinS _ _ _ _ | .atmmMaxS _ _ _ _ | .atmmMinZ _ _ _ _ | .atmmMaxZ _ _ _ _ => true
  | .atlogAnd _ _ _ _ | .atlogOr _ _ _ _ | .atlogXor _ _ _ _ | .atlogExch _ _ _ _ => true
  | .cas32 _ _ _ _ | .cas64 _ _ _ _ | .mwait _ _ _ | .arrv _ _ _ _ | .awt _ _ _ _ | .bar _ => true
  | .claspAcq _ _ | .claspRel _ _ | .claspTry _ _ _ | .claspBind _ _ _ | .claspUnbind _ _ => true
  | .spawn _ _ _ | .tnew _ _ | .tnewn _ _ _ | .tcancel _ _ | .depdec _ _ | .depadd _ _ _ | .depget _ _ _ => true
  | .rgnew _ _ | .rgend _ _ | .rgpri _ _ _ | .earlygo _ => true
  | .cdrainMem _ _ | .cdrainAdd _ _ | .cpy _ _ _ | .cpy2d _ _ _ | .cpyxGather _ _ _ | .cpyxScatter _ _ _ => true
  | .collAllreduce _ _ | .collReducescatter _ _ | .collAllgather _ _ | .collAlltoall _ _ => true
  | .hnew _ _ _ | .hdrop _ _ | .hderef _ _ _ | .hfin _ _ _ | .hld _ _ _ | .hst _ _ _ | .lywait _ _ _ | .lydone _ _ _ => true
  | _ => false

/-- A fence that orders the earlier reads of its lanes before their later accesses [14 R230]. -/
def fencesReads : Instr → Bool
  | .fenceAcq _ _ _ | .fenceFull _ _ _ => true
  | _ => false

/-- The scope of a word that is a release of its own; SCP's order makes one of the word after it [14 R224]. -/
def releaseScope : Instr → Option Scope
  | .scp scope order => if order = .rel ∨ order = .ar then some scope else none
  | .fenceRel _ scope _ | .fenceFull _ scope _ | .arrv _ _ _ scope => some scope
  | .hnew _ _ _ | .hdrop _ _ => some .sy
  | .hst _ _ _ => some .fb
  | _ => none

/-- A scope whose instance holds other devices. -/
def beyondNode : Scope → Bool
  | .pa | .fb | .sy => true
  | .th | .st | .co | .cl | .di | .dv | .nd => false

/-- The lanes of a fragment in which a word executes. -/
def Strand.wordLanes (st : Strand) (mask : W32) (i : Instr) : W32 :=
  match i.hdr with
  | some h => st.guarded mask h.g
  | none => mask

/-- Words wait while an earlier access to a peer has to come first: an acquire before every later access, every read
before a fence that orders reads, and every read and write before a release at a scope that holds other devices. A release
waits for the accesses of all threads of the device, since its own thread may have acquired what they did (log 41). -/
def Dev.orderFree (d : Dev) (st : Strand) (mask : W32) (is : List Instr) : Bool :=
  is.all fun i =>
    let lanes := st.wordLanes mask i
    lanes == 0 || (!(accesses i && st.acquiresOut lanes) && !(fencesReads i && st.readsOut lanes) &&
    (match releaseScope i with
     | none => true
     | some scope => !beyondNode scope || !(st.readsOut lanes || d.accessesOut)))

/-- A word that a wait before it in its group holds back: it reaches memory, the casket or another unit, or it orders what
does [14 R226]. -/
def heldBack : Instr → Bool
  | .fenceFull _ _ _ | .fenceAcq _ _ _ | .fenceRel _ _ _ | .monitor _ _ | .tlbi _ _ _ _ => true
  | .wtany _ _ | .wtall _ _ | .tlwait _ _ _ | .tfirst _ _ _ | .ttest _ _ _ | .tlread _ _ _ => true
  | .caccAdd _ _ _ _ _ | .caccIadd _ _ _ _ _ | .caccWrite _ _ _ _ _ | .cld _ _ _ _ | .cldClr _ _ _ _ => true
  | .calloc _ _ _ | .cfree _ _ | .hcopy _ _ _ => true
  | i => accesses i

/-! ### Errors of the register file and the matrix file [21 R334-R336] -/

/-- The words of the files that a use names in a lane. -/
def Strand.fileRuns (st : Strand) (l : LaneId) : Use → List Run
  | .g r n => [{ key := Key.reg st.core st.quad st.slot l r, len := 4 * n }]
  | .m h => [{ key := Key.block st.core st.quad st.slot l h, len := 8 }]
  | .k _ _ | .p _ => []

/-- What a word reads and writes of the files in a fragment: lane by lane, in order. -/
def fileUses (st : Strand) (mask : W32) (i : Instr) : List (LaneId × Access × Run) :=
  let ex := st.wordLanes mask i
  let from_ := if lowOnly i then ((lanesOf ex).head?).toList else lanesOf ex
  (from_.flatMap fun l => (i.srcs.flatMap (st.fileRuns l)).map fun r => (l, .read, r)) ++
  ((crossReads st mask ex i).flatMap fun x => match x with
    | .g l r => (st.fileRuns l (.g r 1)).map fun r => (l, .read, r)
    | _ => []) ++
  ((lanesOf ex).flatMap fun l => (i.dsts.flatMap (st.fileRuns l)).map fun r => (l, .write, r))

/-- The machine check of a group that reads a register or a handle with an uncorrectable error; a result that writes half
of a 64-bit word reads it too (log 27). -/
def Dev.fileTrap (d : Dev) (st : Strand) (mask : W32) (is : List Instr) : Option Trap :=
  if d.eccBad.isEmpty then none else
  let bad := (is.flatMap (fileUses st mask)).filterMap fun x => (d.eccHit x.2.1 x.2.2).map fun w => (x.1, w)
  let lanes := maskOf fun l => bad.any fun x => x.1 == l
  match bad.find? fun x => x.1 == lowLane lanes with
  | none => none
  | some x => some { Trap.user 0x21 lanes 0 with detail := eccDetail (8 * x.2) }

/-- The single-bit errors that a group meets there are corrected and counted, and the words that it writes whole hold no
error any more. -/
def Dev.fileTouch (d : Dev) (st : Strand) (mask : W32) (is : List Instr) : Dev :=
  if d.eccOne.isEmpty && d.eccBad.isEmpty then d else
  (is.flatMap (fileUses st mask)).foldl (fun d x =>
    let d := d.correct x.2.1 x.2.2
    if x.2.1 = .write then d.heal x.2.2.key x.2.2.len else d) d

/-- The carat charge of a group in a fragment [22 R350]. -/
def groupCharge (st : Strand) (mask : W32) (is : List Instr) : Nat :=
  (is.map fun i => i.weight * laneCount (st.guarded mask ((i.hdr.map Hdr.g).getD 7))).sum

end Sys2Proof.Machine
end

