-- ==== Sys2Proof/Machine/Issue.lean ====
section
/-! DEFINITION. Fetching a group, choosing a fragment to issue, opening and closing a group, and the end of a cycle
[01 R14; 02 R22-R28; 06 R102; 09 R173, R176-R178; 22 R344, R351]. -/

namespace Sys2Proof.Machine

/-- A fragment that may issue: its strand, its slot, itself, and its next group. -/
structure Cand where
  st    : Strand
  slot  : Fin 4
  frag  : Frag
  words : Except Fail (List GWord)
  deriving Repr

/-- The three words of a packet, from its twelve bytes [02 R21, R22]. -/
def wordsOf (bs : List Byte) : List W32 :=
  [BitVec.ofNat 32 (ofBytes (bs.take 4)), BitVec.ofNat 32 (ofBytes ((bs.drop 4).take 4)),
   BitVec.ofNat 32 (ofBytes ((bs.drop 8).take 4))]

/-- The group that begins at a position of a packet: K chains a word to the next; a chain ends with the packet
[02 R26]. -/
def groupAt (ws : List W32) (pos : Fin 3) : List GWord :=
  let w (i : Fin 3) : W32 := ws.getD i.val 0
  match pos.val with
  | 0 => if (w 0).getLsbD 31 then
           if (w 1).getLsbD 31 then [(0, w 0), (1, w 1), (2, w 2)] else [(0, w 0), (1, w 1)]
         else [(0, w 0)]
  | 1 => if (w 1).getLsbD 31 then [(1, w 1), (2, w 2)] else [(1, w 1)]
  | _ => [(2, w 2)]

/-- Fetch translates the PC like a load and needs X; leases do not apply [06 R102, 13 R211]. -/
def Dev.fetch (d : Dev) (st : Strand) (pc : W64) : Except Fail (List Piece) := d.access st none .fetch pc.toNat 12

/-- A word with guard pt, alone in its group. -/
def bareWord (w : W32) : W32 := (w &&& 0x07FFFFFF) ||| 0x38000000

/-- What issues again of a group that a pre-emption abandoned in its MEXP: the MEXP, in the lanes in which it acted
(log 36) [10 R194]. -/
noncomputable def redoneWords (ws : List GWord) : List GWord :=
  ws.filterMap fun x => match decodeWord x.2 with
    | .ok (.mexp _ _ _ _) => some (x.1, bareWord x.2)
    | _ => none

/-- The group that a fragment has begun and that it goes on with. -/
def Frag.begun (f : Frag) : Option Half := if f.aside.isSome then none else f.half.filter fun h => h.pc == f.pc && h.gpos == f.pos

/-- The words that are left of a group, with their positions. -/
def Half.rest (h : Half) : List GWord :=
  (h.words.zipIdx h.gpos.val).filterMap fun x => if h.pos.val ≤ x.2 then some (Fin.ofNat 3 x.2, x.1) else none

/-- The bytes of a packet, as far as they are here: bytes of peers have to be sent first [23 R361]. -/
def Dev.packet (d : Dev) (f : Frag) (ps : List Piece) : Option (List Byte) :=
  (runsOf ps).foldr (fun r bs => match bs, if (peerOf r.key).isNone then some (Mem.read d.mem r.key r.len)
      else (f.code.find? fun x => x.1 == r.key && x.2.length == r.len).map Prod.snd with
    | some bs, some b => some (b ++ bs)
    | _, _ => none) (some [])

/-- The next group of a fragment, or why its packet can not be fetched; the rest of a group that it has begun. -/
noncomputable def Dev.groupOf (d : Dev) (st : Strand) (f : Frag) : Except Fail (List GWord) :=
  match f.begun, d.fetch st f.pc with
  | some h, _ => .ok h.rest
  | none, .error e => .error e
  | none, .ok ps =>
    let ws := groupAt (wordsOf ((d.packet f ps).getD [])) f.pos
    .ok (if f.aside.isSome then redoneWords ws else ws)

/-- A fragment's packet is here. -/
def Dev.codeHere (d : Dev) (st : Strand) (f : Frag) : Bool :=
  f.begun.isSome ||
  match d.fetch st f.pc with
  | .error _ => true
  | .ok ps => (d.packet f ps).isSome

/-- A fragment's packet, as far as it lies at peers, is asked for, once [23 R361]. -/
def Dev.askCode (d : Dev) (st : Strand) (slot : Fin 4) (f : Frag) : Dev :=
  match d.fetch st f.pc with
  | .error _ => d
  | .ok ps =>
    (runsOf ps).foldl (fun d r => match peerOf r.key with
      | none => d
      | some (rank, a) =>
        let asks (o : TxOwner) : Bool := o == .code st.id slot r.key
        if (f.code.any fun x => x.1 == r.key && x.2.length == r.len) || (d.outTx.any fun t => asks t.owner) || d.heldTx.any fun t => asks t.owner
        then d else d.send rank (.read [(a, r.len)]) (.code st.id slot r.key)) d

/-- A strand whose task has not been told to stop [21 R338]. -/
def Dev.runs (d : Dev) (st : Strand) : Bool := !d.halts st

/-- The next word of a list, with the prefixes before it. -/
def nextPlain (ws : List GWord) : List GWord :=
  let pre := ws.takeWhile fun x => isPrefix x.2
  pre ++ (ws.drop pre.length).take 1

/-- The settle condition of a group by its words' S bits, and the waits of its decoded words; a group that goes on needs a
path and its order for its next word alone [01 R18, 09 R176]. -/
noncomputable def groupReady (d : Dev) (st : Strand) (f : Frag) (ws : List GWord) : Bool :=
  match f.begun with
  | some h =>
    let is := (decoded (nextPlain ws)).map fun x => x.2.2
    (is.all fun i => d.pathFree st.core st.quad i) && d.orderFree (st.withRegs h.regs) f.mask is
  | none =>
    let is := (decoded ws).map fun x => x.2.2
    (!(ws.any fun x => x.2.getLsbD 30) || st.settled f.mask) && settleOk st f.mask is &&
    (is.all fun i => d.pathFree st.core st.quad i) && d.orderFree st f.mask is

/-- A fragment whose lanes have a group to issue again turns to it first [10 R194]. -/
def Strand.turns (st : Strand) (f : Frag) : Bool := f.aside.isNone && st.redo.any fun r => (r.lanes &&& f.mask) != 0

/-- A fragment is ready [09 R176]. -/
noncomputable def Dev.ready (d : Dev) (st : Strand) (f : Frag) (ws : Except Fail (List GWord)) : Bool :=
  f.st == .ready && (f.skip == 0 || f.skip != d.cycle) && d.runs st && !st.turns f && d.codeHere st f &&
  (match ws with
   | .error _ => true
   | .ok ws => groupReady d st f ws)

/-- The ready fragments of a quadrant. -/
noncomputable def Dev.cands (d : Dev) (c : Fin 256) (q : Fin 4) : List Cand :=
  (d.all.filter fun st => st.core == c && st.quad == q).flatMap fun st =>
    st.live.filterMap fun x =>
      let ws := d.groupOf st x.2
      if d.ready st x.2 ws then some { st := st, slot := x.1, frag := x.2, words := ws } else none

/-- The carat charge of a candidate's next group; a group that goes on has been charged. -/
noncomputable def Cand.charge (x : Cand) : Nat :=
  match x.words, x.frag.begun with
  | .ok ws, none => groupCharge x.st x.frag.mask ((decoded ws).map fun y => y.2.2)
  | .ok _, some _ | .error _, _ => 0

/-- The carat window of a core: the charges of the last 256 cycles [22 R351]. -/
def Dev.window (d : Dev) (c : Fin 256) : Nat :=
  (((d.core c).window.filter fun x => decide (d.cycle < x.1 + 256)).map Prod.snd).sum

/-- The window is above a cap that is not 0 [09 R177 rule 3, 22 R351]. -/
def Dev.overCap (d : Dev) (c : Fin 256) : Bool :=
  let cap := (d.core c).caratcap.toNat
  decide (cap ≠ 0) && decide (cap < d.window c)

/-- The selector's order: whether `a` is chosen before `b` [09 R177, R178]. -/
noncomputable def Dev.before (d : Dev) (capped : Bool) (a b : Cand) : Bool :=
  let ea := decide (64 ≤ a.frag.passed)
  let eb := decide (64 ≤ b.frag.passed)
  let pa := (d.regionOf a.st).prio
  let pb := (d.regionOf b.st).prio
  let lowest (x : Cand) : LaneId := lowLane x.frag.mask
  if ea != eb then ea
  else if ea then
    if a.frag.passed ≠ b.frag.passed then decide (b.frag.passed < a.frag.passed)
    else if a.st.id = b.st.id then decide (a.slot < b.slot) else olderStrand a.st b.st
  else if pa ≠ pb then decide (pb < pa)
  else if capped && decide (a.charge ≠ b.charge) then decide (a.charge < b.charge)
  else if a.frag.yield != b.frag.yield then !a.frag.yield
  else if a.st.id = b.st.id then decide (lowest a < lowest b)
  else olderStrand a.st b.st

/-- The fragment that a quadrant issues from [09 R177]. -/
noncomputable def Dev.pick (d : Dev) (c : Fin 256) : List Cand → Option Cand
  | [] => none
  | x :: xs =>
    match d.pick c xs with
    | none => some x
    | some y => some (if d.before (d.overCap c) y x then y else x)

/-- A passed-over count reaches 64: the fragment is eldest-equivalent [09 R178]. -/
def Frag.atLimit (f : Frag) : Frag := { f with passed := max 64 f.passed }

/-- A ready fragment has been passed over for a cycle [09 R178]. -/
def Frag.passOver (f : Frag) : Frag := { f with passed := f.passed + 1 }

/-- The ready fragments of a quadrant that were not chosen have been passed over [09 R178]. -/
def Dev.passOthers (d : Dev) (chosen : Cand) : List Cand → Dev
  | [] => d
  | x :: xs =>
    let d := if x.st.id = chosen.st.id ∧ x.slot = chosen.slot then d
      else d.onStrand x.st.id fun st => st.onFrag x.slot Frag.passOver
    d.passOthers chosen xs

/-- A quadrant's place in the order of a cycle [16 R263]. -/
def quadPlace (c : Fin 256) (q : Fin 4) : Nat := 4 * c.val + q.val

/-- The places up to which the quadrants have had their turn in this cycle. -/
def Dev.turnsTaken (d : Dev) : Nat :=
  ((List.finRange 256).flatMap fun c => (List.finRange 4).map fun q =>
    if (d.quad c q).issued = some d.cycle then quadPlace c q + 1 else 0).foldl max 0

/-- The quadrants that hold strands and have their turn in this cycle still to come, in ascending order: groups of one
cycle issue by ascending core and quadrant [16 R263]. -/
def Dev.quadsLeft (d : Dev) : List (Fin 256 × Fin 4) :=
  let taken := d.turnsTaken
  (List.finRange 256).flatMap fun c =>
    if d.all.any fun st => st.core == c then
      (List.finRange 4).filterMap fun q =>
        if taken ≤ quadPlace c q && d.all.any fun st => st.core == c && st.quad == q then some (c, q) else none
    else []

/-- The next quadrant with a ready fragment, with its ready fragments and the chosen one. -/
noncomputable def Dev.chooseIn (d : Dev) : List (Fin 256 × Fin 4) → Option (Fin 256 × Fin 4 × List Cand × Cand)
  | [] => none
  | (c, q) :: rest =>
    let cs := d.cands c q
    match d.pick c cs with
    | some x => some (c, q, cs, x)
    | none => d.chooseIn rest

/-- A trap that a fragment's lanes hold for its next boundary: it runs no handler, and no group is under way [21 R332,
R393]. -/
def Strand.holdsTrap (st : Strand) (f : Frag) : Bool :=
  f.handler.isNone && !f.prv && f.begun.isNone && (lanesOf f.mask).any fun l => !(st.lane l).held.isEmpty

/-- The device with a chosen fragment's strand in focus: its quadrant has issued in this cycle, and the others were
passed over. -/
def Dev.choose (d : Dev) (c : Fin 256) (q : Fin 4) (cs : List Cand) (x : Cand) : Dev :=
  let d := d.onQuad c q fun k => { k with issued := some d.cycle }
  (d.passOthers x cs).bring x.st.id

/-- A group goes on with its next word: its words read the registers as they stood when it began. -/
def resumeGroup (d : Dev) (slot : Fin 4) (h : Half) : State :=
  { now := d, start := d.onFocus fun st => st.withRegs h.regs
    iss := { Issue.none with active := true, slot := slot, pos := h.pos, gpos := h.gpos, words := h.words, fflags := h.fflags
                             real := some d.focus.regs } }

/-- The carat charge of the words of a group [22 R350]. -/
noncomputable def chargeOf (st : Strand) (mask : W32) (ws : List GWord) : Nat :=
  groupCharge st mask ((decoded ws).map fun x => x.2.2)

/-- Open a group on the strand in focus: the device is noted as the group's start, and the checks of R28 that come
before any word are made. -/
noncomputable def openGroup (d : Dev) (slot : Fin 4) (f : Frag) (words : Except Fail (List GWord)) : State :=
  match f.begun with
  | some h => resumeGroup d slot h
  | none =>
  let pos := match words with
    | .ok (x :: _) => x.1
    | _ => f.pos
  let iss : Issue := { Issue.none with active := true, slot := slot, pos := pos, gpos := pos }
  let s (d : Dev) (iss : Issue) : State := { now := d, start := d, iss := iss }
  match words with
  | .error e => (s d iss).trap (e.trap .fetch f.mask 0)
  | .ok ws =>
    let touched := match d.fetch d.focus f.pc with
      | .ok ps => if f.pos = 0 then d.touch [(none, ps)] else d
      | .error _ => d
    let st := s touched { iss with words := ws.map Prod.snd, charge := chargeOf touched.focus f.mask ws }
    match groupFault ws f.prv with
    | some (code, pos, w) => st.trap (Trap.user code 0 (wordInfo w pos.val))
    | none =>
      let is := (decoded ws).map fun x => x.2.2
      match unsettledTrap touched.focus f.mask is <|> touched.fileTrap touched.focus f.mask is with
      | some t => st.trap t
      | none => st

/-- The last word of the open group. -/
def Issue.last (i : Issue) : Bool := i.pos.val + 1 == i.gpos.val + i.words.length

/-- Where a fragment goes when its group makes no transfer: the next word, or the next packet [01 R14]. -/
def Issue.fall (i : Issue) (pc : W64) : Xfer :=
  if h : i.pos.val + 1 < 3 then .fall pc ⟨i.pos.val + 1, h⟩ else .fall (pc + 12) 0

/-- The words of the open group. -/
noncomputable def State.group (s : State) : List Instr :=
  s.iss.words.filterMap fun w => match decodeWord w with
    | .ok i => some i
    | .error _ => none

/-- A group has issued: it counts for the strand, for the other strands of its task, and in the carat window; a group that
issues again after a pre-emption has counted before [10 R194; 22 R344, R345, R351; 09 R178]. -/
noncomputable def State.countGroup (s : State) : State :=
  s.onDev fun d =>
    let me := d.focus
    let d := d.fileTouch s.old s.frag.mask s.group
    let d := if s.frag.aside.isSome then d else d.mapStrands fun st =>
      if st.id = me.id then { st with groups := st.groups + 1 }
      else if me.mates st then { st with others := st.others + 1 } else st
    let d := (d.onFocus fun st => st.onFrag s.iss.slot Frag.hasIssued).returnGrants s.iss.slot
    d.onCore d.focus.core fun k => k.addCharge d.cycle s.iss.charge

/-- The masks of a sparse load that lie at peers are asked for; the group issues when they are there [23 R361]. -/
def Dev.askMasks (d : Dev) (slot : Fin 4) (id : Nat) (keys : List (LaneId × Nat × Nat)) : Dev :=
  keys.foldl (fun d x => match peerOf x.2.1 with
    | none => d
    | some (rank, a) => d.send rank (.read [(a, x.2.2)]) (.mask d.focus.id slot id x.2.1 x.1)) d

/-- A group that did not issue used no issue slot: its quadrant may issue another group in the cycle, and the fragments that
it was chosen before have not been passed over [02 R28, 09 R178]. -/
noncomputable def Dev.unchoose (d : Dev) (slot : Fin 4) : Dev :=
  let me := d.focus
  let d := (d.cands me.core me.quad).foldl (fun d x =>
    if x.st.id = me.id ∧ x.slot = slot then d
    else d.onStrand x.st.id fun st => st.onFrag x.slot fun f => { f with passed := f.passed - 1 }) d
  d.onQuad me.core me.quad fun q => { q with issued := none }

/-- Between groups the device's state is also what the next group starts from. -/
def State.rest (d : Dev) : State := { now := d, start := d, iss := Issue.none }

/-- What a fragment keeps of a group that it has begun once a group of it has closed: in a handler, and while it issues a
group again, the group that it left. -/
def Frag.keptHalf (f : Frag) (goesOn : Bool) : Option Half :=
  if !goesOn && (f.handler.isSome || f.sysrec.isSome || f.aside.isSome) then f.half else none

/-- Close the group: a short resource undoes it and parks the fragment; a wait word parks the fragment until its wait
is over; otherwise its transfer takes effect [02 R27, R28]. A group that went on was counted when it stopped. -/
noncomputable def closeGroup (s : State) : State :=
  match s.iss.block with
  | some w =>
    let d := s.undo.unchoose s.iss.slot
    let d := match w with
      | .macq _ => d.returnGrant s.iss.slot
      | .calloc _ _ => d.returnRuns s.iss.slot
      | .masks id keys => d.askMasks s.iss.slot id keys
      | _ => d
    State.rest (d.onFocus fun st => st.onFrag s.iss.slot fun f => { f with st := .parked w d.cycle, code := [] })
  | none =>
    let goesOn := s.iss.real.isSome
    let t := if goesOn then s else s.countGroup
    let d := t.now.onFocus fun st => st.onFrag s.iss.slot fun f => { f with ahead := [], half := f.keptHalf goesOn }
    let x := s.iss.xfer.getD (s.iss.fall s.frag.pc)
    match s.iss.wait with
    | some w => State.rest (d.onFocus fun st => st.onFrag s.iss.slot fun f => { f with st := .parked w d.cycle, pend := some x })
    | none => State.rest (d.transfer s.iss.slot x)

/-- A group stops before its next word, which goes on when the wait of a word before it is over and when what has to come
before it has been applied (log 62) [14 R224, R226]. -/
noncomputable def pauseGroup (s : State) : State :=
  let t := if s.iss.real.isSome then s else s.countGroup
  let h : Half := { pc := s.frag.pc, gpos := s.iss.gpos, pos := s.iss.pos, words := s.iss.words, regs := s.old.regs, fflags := s.iss.fflags }
  State.rest (t.now.onFocus fun st => st.onFrag s.iss.slot fun f =>
    { f with half := some h, st := match s.iss.wait with
        | some w => .parked w t.now.cycle
        | none => f.st })

/-- The words of the open group from the one that runs next on. -/
def Issue.left (i : Issue) : List GWord := (i.words.zipIdx i.gpos.val).filterMap fun x =>
  if i.pos.val ≤ x.2 then some (Fin.ofNat 3 x.2, x.1) else Option.none

/-- The next word of the open group has to wait: for the wait of a word before it, or for an access that a word before it
has made at a peer. -/
noncomputable def State.mustPause (s : State) : Bool :=
  let is := (decoded (nextPlain s.iss.left)).map fun x => x.2.2
  s.iss.block.isNone &&
  ((s.iss.wait.isSome && is.any heldBack) || !(s.now.orderFree { s.old with flights := s.now.focus.flights } s.frag.mask is))

/-- The next word of the open group is to run. A prefix stays in force for the word after it. -/
def State.advance (w : W32) (s : State) : State :=
  let iss := { s.iss with pos := Fin.ofNat 3 (s.iss.pos.val + 1) }
  { s with iss := if isPrefix w then iss else { iss with lit := none, scp := none } }

/-- After a word: the next word of the group, at once or later, or the end of the group. -/
noncomputable def afterWord (w : W32) (s : State) : State :=
  if !s.iss.active then s
  else if s.iss.last then closeGroup s
  else if !isPrefix w && (s.advance w).mustPause then pauseGroup (s.advance w)
  else s.advance w

/-! ### The end of a cycle -/

/-- Two fragments as one: the masks, and what each holds for the group that it is about to issue again: blocks, banks,
layers. The later of the two cycles in which they do not issue holds for both (log 14). -/
def Frag.merged (a b : Frag) : Frag :=
  { a with mask := a.mask ||| b.mask, passed := max a.passed b.passed, yield := a.yield || b.yield, skip := max a.skip b.skip
           grant := if a.grant = 0 ∧ b.grant = 0 then 0 else a.granted + b.granted + 1, grantAt := max a.grantAt b.grantAt
           bank := a.bank ++ b.bank, layers := a.layers ++ b.layers }

/-- A fragment that issues a group again, or that goes on with a group that it has begun, merges with none (log 14). -/
def Frag.onItsOwn (f : Frag) : Bool := f.aside.isSome || f.half.isSome

/-- Two fragments of a strand merge when both are ready at one PC at position 0 under one handler entry [09 R173]. -/
def Strand.mergePair (st : Strand) (i j : Fin 4) : Strand :=
  match st.frag i, st.frag j with
  | some a, some b =>
    if a.st = .ready ∧ b.st = .ready ∧ a.pc = b.pc ∧ a.pos = 0 ∧ b.pos = 0 ∧ a.sameHandler b ∧ a.onItsOwn = false ∧ b.onItsOwn = false then
      (st.setFrag j none).setFrag i (some (a.merged b))
    else st
  | _, _ => st

/-- Fragments merge, and a deferred entry that resumes in a freed slot is checked in its turn [09 R173]. -/
def Strand.mergeFuel : Nat → Strand → Strand
  | 0, st => st
  | n + 1, st =>
    let pairs : List (Fin 4 × Fin 4) := [(0, 1), (0, 2), (0, 3), (1, 2), (1, 3), (2, 3)]
    let t := (pairs.foldl (fun st x => st.mergePair x.1 x.2) st).refill
    if t.deferred.length = st.deferred.length then t else t.mergeFuel n

/-- A strand has at most 32 lanes, so that 32 rounds suffice. -/
def Strand.merge (st : Strand) : Strand := st.mergeFuel 32

/-- A ready fragment whose next group must wait for results parks on settle [01 R18]. -/
noncomputable def Dev.parkUnsettled (d : Dev) (st : Strand) : Strand :=
  st.mapFrags fun f =>
    if f.st = .ready ∧ f.begun.isNone ∧ d.codeHere st f then
      match d.groupOf st f with
      | .error _ => f
      | .ok ws =>
        let is := (decoded ws).map fun x => x.2.2
        if (!(ws.any fun x => x.2.getLsbD 30) || st.settled f.mask) && settleOk st f.mask is then f
        else { f with st := .parked .settle d.cycle }
    else f

/-- The packets that lie at peers are asked for. -/
def Dev.askPackets (d : Dev) : Dev :=
  d.all.foldl (fun d st => st.live.foldl (fun d x =>
    if x.2.st = .ready ∧ d.runs st ∧ d.codeHere st x.2 = false then d.askCode st x.1 x.2 else d) d) d

/-- The cycle ends: fragments merge, unsettled groups park, transactions that waited set out, and the next cycle begins. -/
noncomputable def Dev.endCycle (d : Dev) : Dev :=
  let d := d.mapStrands fun st => d.parkUnsettled st.merge.again
  let d := (if d.heldTx.isEmpty then d else d.sendHeld).askPackets
  { d with cycle := d.cycle + 1 }

end Sys2Proof.Machine
end

