-- ==== Sys2Proof/Machine/Flags.lean ====
section
/-! DEFINITION. Every flag computation: the uniform flags [04 R76, 10 R182], the sticky FP flags and the enabled FP
exception [03 R51-R55]. -/

namespace Sys2Proof.Machine

/-- N and Z of a uniform result [04 R76]. -/
def Flags.nz (f : Flags) (r : W32) : Flags := { f with n := r.msb, z := r == 0 }

/-- C and V of a uniform addition: the carry out of bit 31, and a signed result that does not fit [04 R76]. -/
def Flags.add (f : Flags) (a b : W32) : Flags :=
  { f.nz (a + b) with c := decide (2 ^ 32 ≤ a.toNat + b.toNat)
                      v := decide (a.toInt + b.toInt ≠ (a + b).toInt) }

/-- C and V of a uniform subtraction or compare: no borrow, and a signed result that does not fit [04 R76]. -/
def Flags.sub (f : Flags) (a b : W32) : Flags :=
  { f.nz (a - b) with c := decide (b.toNat ≤ a.toNat)
                      v := decide (a.toInt - b.toInt ≠ (a - b).toInt) }

/-- E after a cross-lane word: whether no lane was active [10 R182]. -/
def Flags.empty (f : Flags) (none : Bool) : Flags := { f with e := none }

/-- A condition of BR on the uniform flags [06 R96]. -/
def Cond.holds (cc : Cond) (f : Flags) : Bool :=
  match cc with
  | .al => true
  | .eq => f.z
  | .ne => !f.z
  | .lt => f.n != f.v
  | .ge => f.n == f.v
  | .ltu => !f.c
  | .geu => f.c
  | .mi => f.n
  | .pl => !f.n
  | .vs => f.v
  | .vc => !f.v
  | .empty => f.e
  | .nempty => !f.e

/-- The lanes in which an F-pipe word raises a flag that fpctl enables [03 R55]. -/
def State.fpTraps (s : State) (ex : W32) (fl : LaneId → W32) : W32 :=
  maskOf fun l => hasLane ex l && (fl l &&& (s.old.lane l).fpctl &&& 31) != 0

/-- The OR of the flags that the word raises in the lanes of a mask [03 R55]. -/
def orFlags (lanes : W32) (fl : LaneId → W32) : W32 := (lanesOf lanes).foldl (fun a l => a ||| fl l) 0

/-- Enabled FP exception (0x0A): trapinfo holds every flag of the trapping lanes and the word's position [03 R55]. -/
def State.fpTrap (s : State) (lanes : W32) (fl : LaneId → W32) : Trap :=
  Trap.user 0x0A lanes (BitVec.ofNat 64 ((orFlags lanes fl &&& 31).toNat + s.iss.pos.val * 2 ^ 32))

/-- The flags that an F-pipe word raises are ORed into fpstat, and noted for a CSR write of its group [03 R53, R54]. -/
def State.raiseFlags (s : State) (ex : W32) (fl : LaneId → W32) : State :=
  let s := s.writeLanes ex fun l x => { x with fpstat := x.fpstat ||| fl l }
  { s with iss := { s.iss with fflags := Vector.ofFn fun l => s.iss.fflags[l] ||| (if hasLane ex l then fl l else 0) } }

/-- An F-pipe word: in every executing lane it gives a result and flags; an enabled flag stops the whole group
[05 R80, 03 R53, R55]. `w` writes the result in a lane. -/
def fpWord (h : Hdr) (s : State) (f : Lane → W32 × W32) (w : Lane → W32 → Lane) : Out :=
  let ex := s.exec h
  let r (l : LaneId) : W32 × W32 := f (s.old.lane l)
  let bad := s.fpTraps ex fun l => (r l).2
  if bad ≠ 0 then .next (s.trap (s.fpTrap bad fun l => (r l).2))
  else .next ((s.writeLanes ex fun l x => w x (r l).1).raiseFlags ex fun l => (r l).2)

/-- An F-pipe word that writes a g register. -/
def fpG (h : Hdr) (d : GReg) (s : State) (f : Lane → W32 × W32) : Out := fpWord h s f fun x v => x.wg d v

/-- An F-pipe word that writes a predicate. -/
def fpP (h : Hdr) (pd : PReg) (s : State) (f : Lane → Bool × W32) : Out :=
  fpWord h s (fun x => (if (f x).1 then 1 else 0, (f x).2)) fun x v => x.wp pd (v == 1)

end Sys2Proof.Machine
end

