-- ==== Sys2Proof/Machine/Control.lean ====
section
/-! DEFINITION. Control words: branches, calls, returns, splits, joins, EXIT, YIELD, traps, TRET; and the system words ERET,
HALT, TLBI, RAILSEL [06 R95-R111, 09 R167-R171]. EARLYGO is in Tasks. -/

namespace Sys2Proof.Machine

/-- The target of a packet offset [02 R23]. -/
def State.target {n : Nat} (s : State) (off : BitVec n) : W64 := s.frag.pc + 12 * off.signExtend 64

/-- A control word that acts sets the transfer; one that does not falls through [06 R95]. -/
def control (h : Hdr) (s : State) (x : Xfer) : Out := .next (if s.acts h then s.setXfer x else s)

/-- A branch: the fragment moves to the target when the word acts and its condition holds [06 R95]. -/
def branch (h : Hdr) (s : State) (taken : Bool) (pc : W64) : Out :=
  .next (if s.acts h && taken then s.setXfer (.goto pc) else s)

/-- BR reads the flags as they stood before the group [06 R96]. -/
def execBr (h : Hdr) (cc : Cond) (off : BitVec 16) (s : State) : Out :=
  branch h s (Cond.holds cc s.old.flags) (s.target off)

/-- A predicate holds in some executing lane; in every one [06 R97]. -/
def State.someP (s : State) (h : Hdr) (p : PReg) : Bool := (lanesOf (s.exec h)).any fun l => (s.old.lane l).rp p
def State.everyP (s : State) (h : Hdr) (p : PReg) : Bool := (lanesOf (s.exec h)).all fun l => (s.old.lane l).rp p

def execBnone (h : Hdr) (p : PReg) (off : BitVec 15) (s : State) : Out := branch h s (!s.someP h p) (s.target off)
def execBany (h : Hdr) (p : PReg) (off : BitVec 15) (s : State) : Out := branch h s (s.someP h p) (s.target off)
def execBall (h : Hdr) (p : PReg) (off : BitVec 15) (s : State) : Out := branch h s (s.everyP h p) (s.target off)
def execBnall (h : Hdr) (p : PReg) (off : BitVec 15) (s : State) : Out := branch h s (!s.everyP h p) (s.target off)

/-- BDIV: T holds the executing lanes whose predicate is true, N every other lane of the fragment [09 R167]. -/
def execBdiv (h : Hdr) (p : PReg) (off : BitVec 17) (s : State) : Out :=
  let t := maskOf fun l => hasLane (s.exec h) l && (s.old.lane l).rp p
  .next (s.setXfer (.div t (s.frag.mask &&& ~~~t) (s.target off)))

/-- The lanes of a mask whose target is no multiple of 12, and the alignment fault that they raise [02 R22]. -/
def badTarget (lanes : W32) (target : LaneId → W64) : Option Trap :=
  let bad := maskOf fun l => hasLane lanes l && (target l).toNat % 12 != 0
  if bad = 0 then none else some (Trap.user 0x05 bad (target (lowLane bad)))

/-- CALL writes the link pair in each executing lane and transfers the fragment [06 R99]; a target that is no multiple of 12
raises alignment [02 R22]. -/
def execCall (h : Hdr) (off : BitVec 20) (s : State) : Out :=
  let go := s.writePair (s.exec h) 62 fun _ => s.frag.pc + 12
  orTrap (badTarget (s.exec h) fun _ => s.target off) s (if s.acts h then go.setXfer (.goto (s.target off)) else go)

/-- Lanes grouped by equal target, ranked by their lowest-numbered lane [09 R168]. -/
def groupTargets (lanes : W32) (target : LaneId → W64) : List (W32 × W64) :=
  (lanesOf lanes).filterMap fun l =>
    let same := maskOf fun x => hasLane lanes x && target x == target l
    if lowLane same = l then some (same, target l) else none

/-- JMPR: a lane whose guard is false takes PC + 12 [09 R168]. -/
def execJmpr (h : Hdr) (a : GReg) (s : State) : Out :=
  let target (l : LaneId) : W64 := if hasLane (s.exec h) l then (s.old.lane l).rpair a else s.frag.pc + 12
  orTrap (badTarget (s.exec h) target) s (s.setXfer (.split (groupTargets s.frag.mask target)))

/-- RET never splits: acting lanes with other targets than the lowest's raise illegal encoding [06 R100, 09 R169]. -/
def execRet (h : Hdr) (a : GReg) (s : State) : Out :=
  let ex := s.exec h
  let target (l : LaneId) : W64 := (s.old.lane l).rpair a
  let pc := target (s.low h)
  let differ := maskOf fun l => hasLane ex l && target l != pc
  let split := if differ = 0 then none else some (Trap.user 0x01 differ (wordInfo s.word s.iss.pos.val))
  orTrap (split <|> badTarget ex target) s (if s.acts h then s.setXfer (.goto pc) else s)

/-- EXIT: the executing lanes leave the strand [06 R103]. -/
def execExit (h : Hdr) (s : State) : Out := control h s (.exit (s.exec h))

def execJoin (h : Hdr) (s : State) : Out := control h s .join

def execYield (h : Hdr) (s : State) : Out := control h s .yield

/-- TRET outside a user handler raises illegal encoding [06 R107]; a resume point that is no multiple of 12 raises
alignment [02 R22]. -/
def execTret (h : Hdr) (s : State) : Out :=
  let f := s.frag
  let bad : Option Trap :=
    match f.handler with
    | some r => if f.sysrec.isSome then some (Trap.user 0x01 0 (wordInfo s.word s.iss.pos.val))
                else if r.pc.toNat % 12 ≠ 0 then some (Trap.user 0x05 0 r.pc) else none
    | none => some (Trap.user 0x01 0 (wordInfo s.word s.iss.pos.val))
  if s.acts h then orTrap bad s (s.setXfer .tret) else .next s

/-- A trap word: the fault goes to the user handler, and the resume point is PC + 12 [06 R106, R107]. -/
def trapWord (h : Hdr) (s : State) (cause : Nat) (code : BitVec 16) : Out :=
  if s.acts h then .next (s.trap { Trap.user cause (s.exec h) (code.zeroExtend 64) with next := true }) else .next s

def execBkpt (h : Hdr) (code : BitVec 16) (s : State) : Out := trapWord h s 0x0C code
def execTrap (h : Hdr) (code : BitVec 16) (s : State) : Out := trapWord h s 0x0B code

/-! ### System words [06 R108-R111] -/

def execEret (h : Hdr) (s : State) : Out :=
  s.needSystem <|
    if s.acts h then
      orTrap (if s.frag.syspc.toNat % 12 = 0 then none else some (Trap.user 0x05 0 s.frag.syspc)) s (s.setXfer .eret)
    else .next s

/-- HALT ends the task with a report taken from the system CSRs [06 R109, 21 R329]. DESIGN CHOICE (log 56): of several
executing lanes the lowest-numbered is the lane that issued it, and a code of 0x18 has object 0. -/
def haltTrap (f : Frag) (l : LaneId) : Trap where
  code := f.syscause.toNat % 256
  reason := f.syscause.toNat / 2 ^ 12 % 16
  cause := f.syscause
  lanes := oneLane l
  info := f.sysinfo
  object := if 0x10 ≤ f.syscause.toNat % 256 ∧ f.syscause.toNat % 256 ≤ 0x15 then f.sysinfo else 0
  flags := 16
  detail := 0
  next := false
  repPc := some f.syspc

def execHalt (h : Hdr) (s : State) : Out :=
  s.needSystem (if s.acts h then .next (s.trap (haltTrap s.frag (s.low h))) else .next s)

/-- TLBI parks the fragment until the caches of its scope are swept; the pair is that of the lowest executing lane (log
18) [06 R110]. -/
def execTlbi (h : Hdr) (a : GReg) (scope : Scope) (kind : TlbiKind) (s : State) : Out :=
  s.needSystem <|
    .next (if s.acts h then s.setWait (.tlbi kind scope ((s.old.lane (s.low h)).rpair a) (s.start.regionOf s.old).ptbase) else s)

/-- The cores whose caches a scope covers, seen from a core [06 R110]. -/
def scopeCores (scope : Scope) (c : Fin 256) : List (Fin 256) :=
  match scope with
  | .th | .st | .co => [c]
  | .cl => (List.finRange 256).filter fun x => x.val / 16 == c.val / 16
  | .di => (List.finRange 256).filter fun x => x.val / 64 == c.val / 64
  | .dv | .nd | .pa | .fb | .sy => List.finRange 256

/-- What a TLBI invalidates: the translations of an address that the issuing region, or another from the same tables, has
cached; those made from the current root; or everything [06 R110, 13 R213]. -/
def tlbiHits (kind : TlbiKind) (region : Nat) (va root : W64) (x : Xlat) : Bool :=
  match kind with
  | .pg => x.holds region va.toNat || (x.root == root && x.holds x.region va.toNat)
  | .root => x.root == root
  | .all => true

/-- TLBI_SWEEP_COMPLETION: the scope is swept and the fragment goes on [06 R110]. -/
def execTlbiSweepCompletion (sid : Nat) (slot : Fin 4) (s : State) : Out :=
  s.event fun d =>
    match d.waitOf sid slot, d.strand? sid with
    | some (.tlbi kind scope va root), some st =>
      let d := (scopeCores scope st.core).foldl (fun d c => d.sweep c (tlbiHits kind st.region va root)) d
      d.wakeFrag sid slot
    | _, _ => d

/-- A rail is requested for a core; it is on its way until the change completes [06 R111]. -/
def Core.setRail (k : Core) (high : Bool) : Core := { k with railsel := high, railDue := some high }

def execRailsel (h : Hdr) (rail : Bool) (s : State) : Out :=
  s.needSystem (.next (if s.acts h then s.onDev fun d => d.onCore s.old.core fun k => k.setRail rail else s))

end Sys2Proof.Machine
end

