-- ==== Sys2Proof/Machine/Csr.lean ====
section
/-! DEFINITION. The control and status registers and the words that read and write them [01 R12, R13; 06 R112, R113]. -/

namespace Sys2Proof.Machine

/-- The status CSR of a fragment [01 R13]. -/
def Frag.status (f : Frag) : W32 :=
  BitVec.ofNat 32 ((if f.prv then 1 else 0) + (if f.pprv then 2 else 0) + (if f.nest then 4 else 0))

/-- A 32-bit register as the low half of a 64-bit value. -/
def low64 (v : W32) : W64 := v.zeroExtend 64

/-- The value of a CSR as a lane reads it [01 R12]. In deterministic mode tagrdy shows the observed set and clock counts
issue groups [16 R259, 22 R344]. DESIGN CHOICE (log 59): regionid reads the address of the RCB that owns the strand, also after
system level has written another to rcbbase. -/
def Dev.csr (d : Dev) (st : Strand) (f : Frag) (l : LaneId) (c : Csr) : W64 :=
  let x := st.lane l
  let k := d.core st.core
  let r := d.regionOf st
  match c with
  | .fpctl => low64 x.fpctl
  | .fpstat => low64 x.fpstat
  | .mxstat => low64 x.mxstat
  | .tagrdy => if st.det then st.observed else st.tagrdy
  | .traytimer => low64 st.traytimer
  | .userscratch => low64 x.userscratch
  | .laneid => BitVec.ofNat 64 l.val
  | .strandid => low64 st.strandid
  | .taskidx => low64 st.taskidx
  | .regionid => BitVec.ofNat 64 (st.region / 256 % 2 ^ 32)
  | .coreid => BitVec.ofNat 64 st.core.val
  | .quadid => BitVec.ofNat 64 st.quad.val
  | .fragmask => low64 f.mask
  | .clock => if st.det then BitVec.ofNat 64 st.groups else BitVec.ofNat 64 d.cycle
  | .devid => Config.devid.zeroExtend 64
  | .batchn => low64 st.batchn
  | .blocksfree => BitVec.ofNat 64 (d.quad st.core st.quad).free
  | .traplanes => low64 f.traplanes
  | .trapcause => low64 f.trapcause
  | .trappc => f.trappc
  | .trapinfo => f.trapinfo
  | .detmode => if st.det then 1 else 0
  | .status => low64 f.status
  | .ptbase => r.ptbase
  | .rcbbase => st.rcbbase
  | .syscause => low64 f.syscause
  | .syspc => f.syspc
  | .sysinfo => f.sysinfo
  | .railsel => if k.railsel then 1 else 0
  | .caratcap => k.caratcap.zeroExtend 64
  | .leasebase => st.leasebase
  | .hotbase => r.hotbase
  | .mcstat => BitVec.ofNat 64 (k.mchk.toNat * 2 ^ 16 + k.rerun.toNat)

/-- The CSRs that a thread holds and may write [01 R12]. -/
def ofThread (c : Csr) : Bool := c == .fpctl || c == .fpstat || c == .mxstat || c == .userscratch

/-- A thread's CSR is written, in its writable bits; `fl` are the flags that the group's F-pipe word raises, ORed in last
[03 R51, R54; 08 R153]. -/
def Lane.setCsr (x : Lane) (c : Csr) (v fl : W32) : Lane :=
  match c with
  | .fpctl => { x with fpctl := v &&& 0x3F }
  | .fpstat => { x with fpstat := (v &&& 0x1F) ||| fl }
  | .mxstat => { x with mxstat := v &&& 3 }
  | .userscratch => { x with userscratch := v }
  | _ => x

/-- Bits of tags that are not outstanding are written [16 R255]. -/
def Strand.setTagrdy (st : Strand) (v : W64) : Strand := { st with tagrdy := (st.tagrdy &&& st.tagout) ||| (v &&& ~~~st.tagout) }

/-- The strand in focus changed, and with it the other strands of the task that holds the CSR [01 R12]. -/
def Dev.onTaskOf (d : Dev) (st : Strand) (f : Strand → Strand) : Dev :=
  let fellow (x : Strand) : Bool := st.kind == .task && x.kind == .task && x.task == st.task
  { d with focus := f d.focus, strands := d.strands.map fun x => if fellow x then f x else x }

/-- A CSR held by the fragment, strand, task, region or core is written once, in its writable bits [01 R12, R13;
06 R113]. -/
def Dev.setCsr (d : Dev) (slot : Fin 4) (c : Csr) (v : W64) : Dev :=
  let st := d.focus
  let onFrag (g : Frag → Frag) : Dev := d.onFocus fun st => st.onFrag slot g
  let onRegion (g : Region → Region) : Dev := d.onRegion st.region g
  let onCore (g : Core → Core) : Dev := d.onCore st.core g
  match c with
  | .tagrdy => d.onFocus fun st => st.setTagrdy v
  | .traytimer => d.onFocus fun st => { st with traytimer := lo32 v }
  | .status => onFrag fun f => { f with pprv := v.getLsbD 1 }
  | .ptbase => onRegion fun r => { r with ptbase := v }
  | .rcbbase => d.onFocus fun st => { st with rcbbase := v }
  | .syscause => onFrag fun f => { f with syscause := lo32 v }
  | .syspc => onFrag fun f => { f with syspc := v }
  | .sysinfo => onFrag fun f => { f with sysinfo := v }
  | .railsel => onCore fun k => k.setRail (v.getLsbD 0)
  | .caratcap => onCore fun k => { k with caratcap := v.truncate 24 }
  | .leasebase => d.onTaskOf st fun st => { st with leasebase := v }
  | .hotbase => onRegion fun r => { r with hotbase := v }
  | .mcstat => onCore fun k => { k with mchk := v.extractLsb' 16 16, rerun := v.extractLsb' 0 16 }
  | _ => d

/-- The level and encoding checks of a CSR word: a system CSR at user level, a write to a read-only CSR, an odd register
for a wide one [01 R11, R12]. -/
def State.csrCheck (s : State) (d : GReg) (c : Csr) (write : Bool) (k : Out) : Out :=
  if (write && !c.writable) || (c.wide && d.val % 2 != 0) then
    .next (s.trap (Trap.user 0x01 0 (wordInfo s.word s.iss.pos.val)))
  else if c.system then s.needSystem k else k

/-- The operand of a CSR word in a lane. -/
def csrOperand (x : Lane) (d : GReg) (c : Csr) : W64 := if c.wide then x.rpair d else low64 (x.rg d)

/-- The value of a CSR that a read-modify-write starts from; for tagrdy the live bits [16 R255]. -/
def State.csrOld (s : State) (l : LaneId) (c : Csr) : W64 :=
  if c = .tagrdy then s.old.tagrdy else s.start.csr s.old s.frag l c

def execCsrr (h : Hdr) (d : GReg) (csr : Csr) (s : State) : Out :=
  s.csrCheck d csr false <|
    let v (l : LaneId) : W64 := s.start.csr s.old s.frag l csr
    .next (if csr.wide then s.writePair (s.exec h) d v else s.writeG (s.exec h) d fun l => lo32 (v l))

/-- A CSR write: in each executing lane for a thread's CSR, otherwise once, from the lowest executing lane
[06 R113]. `f` combines the old value and the operand. -/
def csrWrite (h : Hdr) (d : GReg) (c : Csr) (s : State) (f : W64 → W64 → W64) : Out :=
  s.csrCheck d c true <|
    let v (l : LaneId) : W64 := f (s.csrOld l c) (csrOperand (s.old.lane l) d c)
    if ofThread c then .next (s.writeLanes (s.exec h) fun l x => x.setCsr c (lo32 (v l)) s.iss.fflags[l])
    else .next (if s.acts h then s.onDev fun d => d.setCsr s.iss.slot c (v (s.low h)) else s)

def execCsrw (h : Hdr) (d : GReg) (csr : Csr) (s : State) : Out := csrWrite h d csr s fun _ v => v
def execCsrs (h : Hdr) (d : GReg) (csr : Csr) (s : State) : Out := csrWrite h d csr s fun o v => o ||| v
def execCsrc (h : Hdr) (d : GReg) (csr : Csr) (s : State) : Out := csrWrite h d csr s fun o v => o &&& ~~~v

end Sys2Proof.Machine
end

