-- ==== Sys2Proof/Machine/Ordering.lean ====
section
/-! DEFINITION. Fences, clasps, monitors, barriers and arrival counters [14 R230-R247, 22 R345]. Accesses inside the device
take effect in one global order (log 3); where an earlier access reaches a peer, `Dev.orderFree` holds a group with a fence,
a release or an access after an acquire back until it has been applied (log 41). -/

namespace Sys2Proof.Machine

/-! ### FENCE [14 R230] -/

/-- An engine operation that a fence's mask names: bits 4 to 1 are cpy, cpyx, cdrain, coll [14 R230]. -/
def EngKind.masked (k : EngKind) (eng : BitVec 5) : Bool :=
  match k with
  | .copy _ => eng.getLsbD 4
  | .gather _ _ _ _ _ _ => eng.getLsbD 3
  | .scatter _ _ _ _ _ _ => eng.getLsbD 3
  | .drainMem _ _ _ _ => eng.getLsbD 2
  | .drainAdd _ _ _ _ _ _ _ => eng.getLsbD 2
  | .coll _ _ _ _ _ _ => eng.getLsbD 1

/-- A signet post of a strand that has not been applied yet. -/
def SigReq.isPost (r : SigReq) (sid : Nat) : Bool := r.ask == .drop && r.sid == sid

/-- The operations and posts of a strand that a fence waits for. -/
def Dev.fenceOps (d : Dev) (sid : Nat) (eng : BitVec 5) : List Nat :=
  ((d.ops.filter fun o => o.sid == sid && o.kind.masked eng).map EngOp.id) ++
  (if eng.getLsbD 0 then (d.sigs.filter fun r => r.isPost sid).map SigReq.id else [])

/-- A fence parks its fragment until the operations of its mask have completed [14 R230]. -/
def fenceWord (h : Hdr) (eng : BitVec 5) (s : State) : Out :=
  let ops := s.now.fenceOps s.old.id eng
  .next (if s.acts h && !ops.isEmpty then s.setWait (.fence ops) else s)

def execFenceFull (h : Hdr) (_scope : Scope) (eng : BitVec 5) (s : State) : Out := fenceWord h eng s
def execFenceAcq (h : Hdr) (_scope : Scope) (eng : BitVec 5) (s : State) : Out := fenceWord h eng s
def execFenceRel (h : Hdr) (_scope : Scope) (eng : BitVec 5) (s : State) : Out := fenceWord h eng s

/-- None of a fence's operations is outstanding. -/
def Dev.fenceDone (d : Dev) (ops : List Nat) : Bool :=
  ops.all fun i => !(d.ops.any fun o => o.id == i) && !(d.sigs.any fun r => r.id == i)

/-- FENCE_ENGINE_COMPLETION: the fragment goes on [14 R230]. -/
def execFenceEngineCompletion (sid : Nat) (slot : Fin 4) (s : State) : Out :=
  s.event fun d =>
    match d.waitOf sid slot with
    | some (.fence ops) => if d.fenceDone ops then d.wakeFrag sid slot else d
    | _ => d

/-! ### Clasps [14 R236-R241] -/

/-- The soft clasp of a key. -/
def Dev.clasp? (d : Dev) (key : Nat) : Option Clasp := d.clasps.find? fun c => c.name == .soft key
def Dev.onClasp (d : Dev) (name : ClaspName) (f : Clasp → Clasp) : Dev :=
  { d with clasps := updWhere (fun c => c.name == name) f d.clasps }

/-- The scope that a clasp word acts at: the bound scope, or device scope [14 R236]. -/
def Dev.claspScope (d : Dev) (ps : List Piece) : Scope := ((d.clasp? (keyOf ps)).map Clasp.scope).getD .dv

/-- The lanes of clasp misuse (0x1F), with the clasp address of the lowest [14 R236]. -/
def misuse (lanes : W32) (ea : LaneId → W64) : Option Trap :=
  if lanes = 0 then none else some (Trap.user 0x1F lanes (ea (lowLane lanes)))

/-- The checks of a clasp word's address: alignment, the scratchpad window, the access as an atomic, the class; `scope`
is none where a BIND's quad names none [14 R236]. -/
def State.claspCheck (s : State) (ex : W32) (ea : LaneId → W64) (scope : LaneId → List Piece → Option Scope) :
    Option Trap × List (LaneId × List Piece) :=
  let rs := s.accessLanes ex .atomic ea 8
  let ok := oksOf rs
  let classed := rs.map fun x => match x.2 with
    | .error e => (x.1, .error e)
    | .ok ps => match scope x.1 ps with
      | none => (x.1, .error (Fail.mk' 0x1F 0 0 (ea x.1).toNat))
      | some sc => match classFail sc true (ea x.1).toNat ps with
        | some e => (x.1, .error e)
        | none => (x.1, .ok ps)
  let window := maskOf fun l => hasLane ex l && inScratch (ea l).toNat
  (s.misaligned ex 8 ea <|> misuse window ea <|> laneFault .atomic (failsOf classed), ok)

/-- A clasp word that needs a bound clasp in every lane; it goes on with the lanes' keys [14 R238, R239]. -/
def claspWord (h : Hdr) (a : GReg) (s : State) (k : List (LaneId × Nat) → State → State) : Out :=
  let ex := s.exec h
  let ea (l : LaneId) : W64 := (s.old.lane l).rpair a
  let (t, ok) := s.claspCheck ex ea fun _ ps => some (s.now.claspScope ps)
  let free := maskOf fun l => ok.any fun x => x.1 == l && (s.now.clasp? (keyOf x.2)).isNone
  orTrap (t <|> misuse free ea) s <|
    if ex = 0 then s else k (ok.map fun x => (x.1, keyOf x.2)) (s.touchLanes ok)

/-- A release of some clasp of a list is in progress. -/
def Dev.releasing (d : Dev) (keys : List (LaneId × Nat)) : Bool :=
  keys.any fun x => match d.clasp? x.2 with
    | some c => !c.rels.isEmpty
    | none => false

/-- A party acquires a clasp: it has what was published so far [14 R240]. -/
def Clasp.acquire (c : Clasp) (party : Nat) : Clasp :=
  { c with views := (party, c.order) :: c.views.filter fun v => !sameParty v.1 party }

/-- Lanes of a strand acquire their clasps. -/
def Dev.acquireLanes (d : Dev) (st : Strand) (keys : List (LaneId × Nat)) : Dev :=
  keys.foldl (fun d x => d.onClasp (.soft x.2) fun c => c.acquire (partyOf st x.1)) d

/-- A party's release publishes its writes at the next position of the clasp order, and is in progress [14 R239,
R240]. -/
def Clasp.release (c : Clasp) (party id : Nat) : Clasp :=
  { c with order := c.order + 1, rels := c.rels ++ [{ id := id, party := party }]
           log := c.log.map fun w => if sameParty w.party party && w.pub.isNone then { w with pub := some (c.order + 1) } else w }

/-- The writes of a party that its release would publish. -/
def Clasp.unpublished (c : Clasp) (party : Nat) : List BoundWrite :=
  c.log.filter fun w => sameParty w.party party && w.pub.isNone

/-- A lane releases a clasp; watches on what it publishes are triggered. Its number is the one last given. -/
def Dev.releaseClasp (d : Dev) (party : Nat) (name : ClaspName) : Dev :=
  match d.clasps.find? fun c => c.name == name with
  | none => d
  | some c =>
    let d := (d.onClasp name fun c => c.release party d.next).bump
    (c.unpublished party).foldl (fun d w => d.trigger w.key w.bytes.length) d

/-- A soft clasp is released by a lane: the count of one at a peer rises there, by a transaction [14 R236, R239]. -/
def Dev.releaseSoft (d : Dev) (party : Nat) (owner : Nat → TxOwner) (key : Nat) : Dev :=
  let d := d.releaseClasp party (.soft key)
  match peerOf key with
  | none => d
  | some (rank, a) => d.send rank (.atomic .add64 a 1 0) (owner d.seq)

/-- Who makes a lane's release of a clasp. -/
def State.claspOwner (s : State) (l : LaneId) (key rel : Nat) : TxOwner :=
  .clasp key rel (s.old.laneTask l) s.old.id l.val ((Trap.user 0x21 (oneLane l) 0).report s.old s.frag.pc)

/-- CLASP.ACQ. DESIGN CHOICE (log 41): lanes that name several clasps acquire them all at once, when none of the clasps has
a release in progress [14 R239]. -/
def execClaspAcq (h : Hdr) (a : GReg) (s : State) : Out :=
  claspWord h a s fun keys t =>
    if t.now.releasing keys then t.setWait (.claspAcq (s.exec h) keys) else t.onDev fun d => d.acquireLanes s.old keys

def execClaspRel (h : Hdr) (a : GReg) (s : State) : Out :=
  claspWord h a s fun keys t =>
    t.onDev fun d => keys.foldl (fun d x => d.releaseSoft (partyOf s.old x.1) (s.claspOwner x.1 x.2) x.2) d

/-- CLASP.TRY acquires where no release is in progress; its predicate arrives later [14 R239]. -/
def execClaspTry (h : Hdr) (a : GReg) (pd : PReg) (s : State) : Out :=
  claspWord h a s fun keys t =>
    let got := keys.filter fun x => !t.now.releasing [x]
    let t := t.onDev fun d => d.acquireLanes s.old got
    let marks : List Dest := if pd.val = 7 then [] else (lanesOf (s.exec h)).map fun l => .p l pd
    t.arriveLater (s.exec h) marks (keys.map fun x => .p x.1 pd (got.contains x))

/-- The range, the scope and the well-formedness of a BIND's quad [14 R238]. -/
def bindBase (x : Lane) (b : GReg) : W64 := x.rpair b
def bindLen (x : Lane) (b : GReg) : Nat := (x.rpair (b.plus 2)).toNat % 2 ^ 48

/-- The scope of a code [14 R222]. -/
def scopeOf : Nat → Option Scope
  | 0 => some .th
  | 1 => some .st
  | 2 => some .co
  | 3 => some .cl
  | 4 => some .di
  | 5 => some .dv
  | 6 => some .nd
  | 7 => some .pa
  | 8 => some .fb
  | 9 => some .sy
  | _ => none

def bindScope (x : Lane) (b : GReg) : Option Scope :=
  let v := (x.rpair (b.plus 2)).toNat / 2 ^ 48
  if v / 16 = 0 then scopeOf (v % 16) else none

/-- A range overlaps a bound range. -/
def Dev.overlaps (d : Dev) (rs : List Run) : Bool := d.clasps.any fun c => c.runs.any fun x => rs.any fun y => x.meets y

/-- A binding of one lane: the clasp's key, the range's pieces, the scope, whether the range touches the scratchpad. -/
structure Bind where
  lane  : LaneId
  key   : Nat
  runs  : List Run
  scope : Scope
  pad   : Bool
  deriving DecidableEq, Repr

/-- The lanes bind in ascending order; a lane that may not is noted. The count of a clasp at a peer is set there
[14 R237, R238]. -/
def Dev.bindLanes (d : Dev) (owner : LaneId → TxOwner) : List Bind → Dev × List LaneId
  | [] => (d, [])
  | b :: bs =>
    let soft := d.clasps.filter fun c => match c.name with
      | .soft _ => true
      | .layer _ _ => false
    let bad := (d.clasp? b.key).isSome || b.runs.isEmpty || d.overlaps b.runs || b.pad || decide (4096 ≤ soft.length)
    let d' : Dev := if bad then d else
      let c : Clasp := { name := .soft b.key, runs := b.runs, scope := b.scope, order := 0, rels := [], log := [], views := [] }
      { d with clasps := d.clasps ++ [c] }.put 0 (owner b.lane) b.key (toBytes 8 0)
    let (e, ls) := d'.bindLanes owner bs
    (e, if bad then b.lane :: ls else ls)

def execClaspBind (h : Hdr) (a b : GReg) (s : State) : Out :=
  s.needSystem <|
    let ex := s.exec h
    let ea (l : LaneId) : W64 := (s.old.lane l).rpair a
    let (t, ok) := s.claspCheck ex ea fun l _ => bindScope (s.old.lane l) b
    let rs := (lanesOf ex).map fun l =>
      let x := s.old.lane l
      (l, s.seen.access s.old x.lastPage .write (bindBase x b).toNat (bindLen x b))
    let ranges := oksOf rs
    let binds := ok.filterMap fun x =>
      match ranges.find? fun y => y.1 == x.1, bindScope (s.old.lane x.1) b with
      | some y, some sc => some ({ lane := x.1, key := keyOf x.2, runs := runsOf y.2, scope := sc
                                   pad := y.2.any fun p => p.x.isNone } : Bind)
      | _, _ => none
    let (d, bad) := s.now.bindLanes s.storeOwner binds
    orTrap (t <|> laneFault .write (failsOf rs) <|> misuse (maskOf fun l => bad.contains l) ea) s <|
      ({ s with now := d }.touchLanes ok).touchLanes ranges

/-- A binding is removed, and the writes to its range become ordinary writes; those that no release had published become
visible now, and trigger watches [14 R238, R242]. -/
def Dev.unbind (d : Dev) (owner : TxOwner) (name : ClaspName) : Dev :=
  match d.clasps.find? fun c => c.name == name with
  | none => d
  | some c =>
    let d := { d with clasps := d.clasps.filter fun x => x.name != name }
    c.log.foldl (fun d w =>
      (spansWhere (fun k => c.runs.any fun r => r.has k) w.key w.bytes).foldl (fun d x =>
        match peerOf x.1 with
        | some (rank, a) => d.send rank (.write [(a, x.2)]) owner
        | none =>
          let d := d.store x.1 x.2
          if w.pub.isNone then d.trigger x.1 x.2.length else d) d) d

/-- CLASP.UNBIND. DESIGN CHOICE (log 41): every lane is checked before any has an effect, so that a clasp which two lanes name is
unbound once, without misuse in the second lane [14 R236, R238]. -/
def execClaspUnbind (h : Hdr) (a : GReg) (s : State) : Out :=
  s.needSystem <|
    claspWord h a s fun keys t =>
      if t.now.releasing keys then t.setWait (.unbind keys)
      else t.onDev fun d => keys.foldl (fun d x => d.unbind (s.storeOwner x.1) (.soft x.2)) d

/-- A release is no longer in progress. -/
def Dev.endRelease (d : Dev) (clasp rel : Nat) : Dev :=
  d.onClasp (.soft clasp) fun c => { c with rels := c.rels.filter fun r => r.id != rel }

/-- CLASP_RELEASE_COMPLETION: the count rises by 1, and the release is no longer in progress; at a peer the response to its
transaction ends it [14 R239]. -/
def execClaspReleaseCompletion (clasp rel : Nat) (s : State) : Out :=
  s.event fun d =>
    match d.clasp? clasp with
    | none => d
    | some c =>
      if (c.rels.any fun r => r.id == rel) && (peerOf clasp).isNone then
        (d.endRelease clasp rel).writeFor 0 clasp (toBytes 8 (d.num clasp 8 + 1))
      else d

/-- CLASP_ACQ_COMPLETION: no release is in progress, so the lanes acquire and the fragment goes on [14 R239]. -/
def execClaspAcqCompletion (sid : Nat) (slot : Fin 4) (s : State) : Out :=
  s.event fun d =>
    match d.waitOf sid slot, d.strand? sid with
    | some (.claspAcq _ keys), some st =>
      if d.releasing keys then d else (d.acquireLanes st keys).wakeFrag sid slot
    | _, _ => d

/-- CLASP_UNBIND_COMPLETION: the releases have completed, and the bindings are removed [14 R238]. -/
def execClaspUnbindCompletion (sid : Nat) (slot : Fin 4) (s : State) : Out :=
  s.event fun d =>
    match d.waitOf sid slot, d.strand? sid with
    | some (.unbind keys), some st =>
      if d.releasing keys then d
      else
        let pc := ((st.frag slot).map Frag.pc).getD 0
        (keys.foldl (fun d x => d.unbind (st.storeOwner pc x.1 x.1.val 0) (.soft x.2)) d).wakeFrag sid slot
    | _, _ => d

/-! ### Monitors [14 R242-R244] -/

def execMonitor (h : Hdr) (a : GReg) (s : State) : Out :=
  let ex := s.exec h
  s.reach ex .read 1 (fun l => (s.old.lane l).rpair a) 1 fun oks t =>
    let arm (st : Strand) (x : LaneId × List Piece) : Strand :=
      st.onLane x.1 fun y => { y with watch := some { line := keyOf x.2 / 128 * 128, hit := false }, monDrop := false }
    .next (t.onFocus fun st => oks.foldl arm st)

def execMcancel (h : Hdr) (s : State) : Out := .next (s.writeLanes (s.exec h) fun _ x => { x with watch := none })

/-- A lane's watch has been triggered; in deterministic mode a lane reports any watch that it holds [22 R345]. -/
def Lane.reports (x : Lane) (det : Bool) : Bool :=
  match x.watch with
  | none => false
  | some w => w.hit || det

/-- MWAIT returns: predicates are set and the watches that they report are disarmed; after a pre-emption dropped the watch
of a lane, and none has been armed again, each lane reports true [14 R243, R244]. -/
def Strand.mwaitReturn (st : Strand) (lanes : W32) (pd : PReg) : Strand :=
  let ls := lanesOf lanes
  let dropped := (ls.any fun l => (st.lane l).monDrop) && ls.all fun l => (st.lane l).watch.isNone
  st.onLanes lanes fun _ x =>
    let hit := dropped || x.reports st.det
    { x.wp pd hit with watch := if hit then none else x.watch }

/-- Every other strand of a strand's task is parked or has ended [22 R345]. -/
def Dev.othersParked (d : Dev) (st : Strand) : Bool :=
  d.all.all fun x => !st.mates x || x.live.all fun f => f.2.st != .ready

/-- MWAIT returns at once: a timeout of 0, no watch, a triggered watch, or in deterministic mode no other strand to wait
for. -/
def Dev.mwaitNow (d : Dev) (st : Strand) (lanes : W32) : Bool :=
  let ls := lanesOf lanes
  (ls.all fun l => (st.lane l).watch.isNone) || (ls.any fun l => (st.lane l).reports false) || (st.det && d.othersParked st)

def execMwait (h : Hdr) (a : GReg) (pd : PReg) (s : State) : Out :=
  let ex := s.exec h
  let n := ((s.old.lane (s.low h)).rg a).toNat
  let st := s.old
  .next <|
    if ex = 0 then s
    else if n = 0 || s.now.mwaitNow s.now.focus ex then s.onFocus fun st => st.mwaitReturn ex pd
    else
      let deadline := if st.det then st.others + n else s.now.cycle + n
      let s := s.setWait (.mwait ex pd deadline)
      if st.det then s else s.onDev fun d => d.plan deadline (.mwaitTimeout st.id s.iss.slot)

/-- The parked MWAIT of a fragment returns. -/
def Dev.mwaitEnd (d : Dev) (sid : Nat) (slot : Fin 4) (lanes : W32) (pd : PReg) : Dev :=
  (d.onStrand sid fun st => st.mwaitReturn lanes pd).wakeFrag sid slot

/-- MWAIT_WAKE: a watch has been triggered, every watch has been dropped, or in deterministic mode no other strand of the
task runs [14 R243, R244; 22 R345]. -/
def execMwaitWake (sid : Nat) (slot : Fin 4) (s : State) : Out :=
  s.event fun d =>
    match d.waitOf sid slot, d.strand? sid with
    | some (.mwait lanes pd _), some st => if d.mwaitNow st lanes then d.mwaitEnd sid slot lanes pd else d
    | _, _ => d

/-- The timeout of a parked MWAIT has expired [14 R243, 22 R345]. -/
def Dev.mwaitLate (d : Dev) (st : Strand) (deadline : Nat) : Bool := decide (deadline ≤ if st.det then st.others else d.cycle)

/-- In deterministic mode a parked MWAIT returns at once when it may [22 R345]. -/
def Dev.mwaitDue (d : Dev) : List Instr :=
  (d.all.filter Strand.det).flatMap fun st => st.live.filterMap fun x =>
    match x.2.st with
    | .parked (.mwait lanes _ deadline) _ =>
      if d.mwaitNow st lanes then some (.mwaitWake st.id x.1)
      else if d.mwaitLate st deadline then some (.mwaitTimeout st.id x.1) else none
    | _ => none

/-- MWAIT_TIMEOUT [14 R243]. -/
def execMwaitTimeout (sid : Nat) (slot : Fin 4) (s : State) : Out :=
  s.event fun d =>
    match d.waitOf sid slot, d.strand? sid with
    | some (.mwait lanes pd deadline), some st => if d.mwaitLate st deadline then d.mwaitEnd sid slot lanes pd else d
    | _, _ => d

/-! ### Barriers and arrival counters [14 R245-R247] -/

def execBar (h : Hdr) (s : State) : Out := .next (if s.acts h then s.setWait .bar else s)

/-- A fragment waits at a BAR. -/
def Frag.atBar (f : Frag) : Bool :=
  match f.st with
  | .parked .bar _ => true
  | _ => false

/-- A strand has arrived: every live fragment waits at a BAR. DEDUCED (log 20): lanes that a handler entry holds out of its
fragment's mask do not keep the strand from arriving, since no fragment holds them [14 R246, 11 R197]. -/
def Strand.atBar (st : Strand) : Bool := !st.live.isEmpty && st.live.all fun x => x.2.atBar

/-- A casket word of a strand has not been applied yet. -/
def Strand.casketBusy (st : Strand) : Bool := st.flights.any fun f => match f.kind with
  | .casket _ _ _ => true
  | _ => false

/-- The strands whose arrival a barrier counts: those of a task; a spawned strand stands alone (log 20). -/
def Dev.barGroup (d : Dev) (tid : Nat) : List Strand :=
  if tid = 0 then d.all.filter fun st => st.task == 0 && st.atBar else d.all.filter fun st => st.task == tid

/-- The barrier of a group is complete [14 R246]. -/
def barDone (g : List Strand) : Bool := !g.isEmpty && g.all fun st => st.atBar && !st.casketBusy

/-- BARRIER_COMPLETION: every waiting fragment continues past its own BAR [14 R246]. -/
def execBarrierCompletion (tid : Nat) (s : State) : Out :=
  s.event fun d =>
    let g := d.barGroup tid
    let g := if tid = 0 then g.filter fun st => !st.casketBusy else g
    if barDone g then
      g.foldl (fun d st => st.live.foldl (fun d x => d.wakeFrag st.id x.1) d) d
    else d

/-- ARRV adds to the counter of each executing lane, and writes no register [14 R247]. -/
def execArrv (h : Hdr) (a b : GReg) (scope : Scope) (s : State) : Out :=
  let ex := s.exec h
  let ea (l : LaneId) : W64 := (s.old.lane l).rpair a
  let val (l : LaneId) : W64 := ((s.old.lane l).rg b).zeroExtend 64
  let rs := withClass scope true ea (s.accessLanes ex .atomic ea 8)
  orTrap (s.misaligned ex 8 ea <|> laneFault .atomic (failsOf rs)) s <|
    (s.touchLanes (oksOf rs)).onDev fun d =>
      (oksOf rs).foldl (fun d x =>
        match peerOf (keyOf x.2) with
        | some (rank, k) => d.send rank (.atomic .add64 k (val x.1) 0) (s.storeOwner x.1)
        | none => (d.atomicAt (partyOf s.old x.1) (keyOf x.2) .add64 (val x.1) 0).1) d

/-- A counter has reached its target. A peer's counter is read by transactions, and leaves the wait with a reply that
reaches the target. -/
def Dev.counterMet (d : Dev) (party : Nat) (t : Nat × Nat) : Bool :=
  match peerOf t.1 with
  | some _ => false
  | none => decide (t.2 ≤ ofBytes (d.readFor party t.1 8))

/-- Every counter of a list has reached its target, as its lane sees it [14 R241, R247]. -/
def Dev.countersMet (d : Dev) (st : Strand) (ts : List (LaneId × Nat × Nat)) : Bool := ts.all fun t => d.counterMet (partyOf st t.1) t.2

/-- A peer's counter is read for a fragment that waits [23 R361]. -/
def Dev.askCounter (d : Dev) (sid : Nat) (slot : Fin 4) (x : LaneId × Nat × Nat) : Dev :=
  match peerOf x.2.1 with
  | none => d
  | some (rank, a) => d.send rank (.read [(a, 8)]) (.counter sid slot x.2.1 x.2.2 x.1)

def execAwt (h : Hdr) (a b : GReg) (_scope : Scope) (s : State) : Out :=
  let ex := s.exec h
  s.reach ex .read 8 (fun l => (s.old.lane l).rpair a) 8 fun oks t =>
    let target (l : LaneId) : Nat := ((s.old.lane l).rg b).toNat
    let ts := oks.map fun x => (x.1, keyOf x.2, target x.1)
    .next (if ex = 0 || t.now.countersMet s.old ts then t
      else
        let t := t.onDev fun d => ts.foldl (fun d x => d.askCounter s.old.id s.iss.slot x) d
        t.setWait (.awt ex ts))

/-- AWT_COMPLETION: every counter has reached its target, and the fragment goes on [14 R247]. -/
def execAwtCompletion (sid : Nat) (slot : Fin 4) (s : State) : Out :=
  s.event fun d =>
    match d.waitOf sid slot, d.strand? sid with
    | some (.awt _ ts), some st =>
      if d.countersMet st ts then d.wakeFrag sid slot else d
    | _, _ => d

end Sys2Proof.Machine
end

