-- ==== Sys2Proof/Machine/Engines.lean ====
section
/-! DEFINITION. The asynchronous engines: copies, gathers and scatters, drains, collectives, their tags, their timelines
and their arrivals [16 R249-R268]. -/

namespace Sys2Proof.Machine

/-! ### Machine checks that no strand meets [21 R335, R336; 23 R362] -/

/-- A report that the scheduler raises itself [21 R329]. -/
def Report.sched (code reason task : Nat) (object detail : W64) : Report where
  code := code
  reason := reason
  flags := 4
  lanes := 0
  task := task
  object := object
  pc := 0
  info := 0
  core := 0
  quad := 0
  strand := 0
  taskidx := 0
  detail := detail
  rank := 256 * 2048

/-- A machine check of an operation: to its task if that has not ended, otherwise to the root region [23 R362]. -/
def Dev.machineCheck (d : Dev) (c : Fin 256) (task region : Nat) (rep : Report) : Dev :=
  let d := d.countMchk c
  if (d.job? task).isSome then d.strike task region rep
  else d.pushReport d.rootRcb (Report.sched rep.code 0 0 0 rep.detail)

def Dev.engineCheck (d : Dev) (o : EngOp) (detail : W64) : Dev :=
  (if detail.toNat / 2 ^ 56 < 9 then d.countUnc else d : Dev).machineCheck o.core o.task o.region { o.rep with code := 0x21, detail := detail }

/-! ### Reading and writing as an engine [16 R251] -/

/-- The parties whose engine write an operation's write is [14 R239]. -/
def EngOp.parties (o : EngOp) : List Nat := (lanesOf o.lanes).map fun l => (o.sid * 2 ^ 32 + l.val) * 256 + o.core.val

/-- The party that an operation reads as; DESIGN CHOICE (log 3): that of the lowest-numbered lane that executed its word. -/
def EngOp.party (o : EngOp) : Nat := o.parties.headD 0

/-- The byte at a key as an operation reads it: a peer's as it was sent; otherwise, by an open choice, as it stands now
or as it stood at acceptance (log 3); nothing where its read fails. -/
def Dev.engByte (d : Dev) (o : EngOp) (i k : Nat) : Option Byte :=
  if o.holes.any fun r => r.has k then none
  else if (peerOf k).isSome then some (Mem.get o.got k)
  else if d.eccBad.contains (k / 8) || (d.portDown k).isSome then none
  else if (d.boundAt k).isNone && (Config.freeByte d.fresh i).getLsbD 0 then some (Mem.get o.mem0 k)
  else some (d.byteFor o.party k)

/-- The bytes of runs as an operation finds them; `i` numbers them for the open choices. -/
def Dev.engBytes (d : Dev) (o : EngOp) (i : Nat) (rs : List Run) : List (Option Byte) :=
  ((rs.flatMap fun r => (List.range r.len).map fun j => r.key + j).zipIdx).map fun x => d.engByte o (i + x.2) x.1

/-- An operation reads runs: single-bit errors are corrected and counted, and what can not be read raises a machine
check [21 R334, R335; 23 R369, R375]. -/
def Dev.engRead (d : Dev) (o : EngOp) (i : Nat) (rs : List Run) : Dev × List (Option Byte) :=
  let bs := d.engBytes o i rs
  let d := rs.foldl (fun d r => d.correct .read r) d
  match rs.findSome? fun r => d.runFail .read 0 r with
  | none => (d, bs)
  | some e => (d.engineCheck o e.detail, bs)

/-- The stretches of bytes that are there, with their keys. -/
def segments : Nat → List (Option Byte) → List (Nat × List Byte)
  | _, [] => []
  | k, none :: xs => segments (k + 1) xs
  | k, some b :: xs =>
    match segments (k + 1) xs with
    | [] => [(k, [b])]
    | (k', bs) :: rest => if k' = k + 1 then (k, b :: bs) :: rest else (k, [b]) :: (k', bs) :: rest

/-- The segments of bytes over a list of runs. -/
def runSegments : List Run → List (Option Byte) → List (Nat × List Byte)
  | [], _ => []
  | r :: rs, bs => segments r.key (bs.take r.len) ++ runSegments rs (bs.drop r.len)

/-- Bytes are stored for an operation; those in a bound range count once the operation has completed [14 R239]. -/
def Dev.engStore (d : Dev) (o : EngOp) (k : Nat) (bs : List Byte) : Dev :=
  let bound := d.clasps.any fun c => c.runs.any fun r => r.meets { key := k, len := bs.length }
  let d := if bound then d.onOp o.id fun o => { o with late := o.late ++ [(k, bs)] } else d
  (d.storeFree k bs).heal k bs.length

/-- A byte of a write can not be stored: its port is down, or the write covers only part of a word that can not be read
[21 R335; 23 R369, R375]. -/
def Dev.shut (d : Dev) (run : Run) (k : Nat) : Bool :=
  (d.portDown k).isSome || (d.eccBad.contains (k / 8) && !covers run.key run.len (k / 8))

/-- One stretch is written for an operation: a peer's travels as a transaction; bytes that can not be stored raise a
machine check [23 R361, R362]. -/
def Dev.engPut (d : Dev) (o : EngOp) (k : Nat) (bs : List Byte) : Dev :=
  match peerOf k with
  | some (rank, a) => (d.send rank (.write [(a, bs)]) (.engine o.id 0)).onOp o.id fun o => { o with waits := o.waits + 1 }
  | none =>
    let run : Run := { key := k, len := bs.length }
    match d.runFail .write 0 run with
    | none => (d.correct .write run).engStore o k bs
    | some e =>
      let kept := (bs.zipIdx).map fun x => if d.shut run (k + x.2) then none else some x.1
      ((segments k kept).foldl (fun d x => d.engStore o x.1 x.2) d).engineCheck o e.detail

/-- Bytes are written over runs for an operation. -/
def Dev.engWrite (d : Dev) (o : EngOp) (rs : List Run) (bs : List (Option Byte)) : Dev :=
  (runSegments rs bs).foldl (fun d x => d.engPut o x.1 x.2) d

/-! ### Timelines, tags and arrivals [16 R255-R268] -/

/-- An operation beyond the completed prefix joins it when the numbers below it are complete [16 R263]. -/
def Timeline.advance (t : Timeline) : Nat → Timeline
  | 0 => t
  | n + 1 => if t.beyond.contains (t.done + 1) then
      { t with done := t.done + 1, beyond := t.beyond.filter fun x => x != t.done + 1 }.advance n
    else t

/-- The operation numbered `n` has completed. -/
def Timeline.complete (t : Timeline) (n : Nat) : Timeline :=
  { t with beyond := n :: t.beyond }.advance (t.beyond.length + 1)

def ctxIdx : EngCtx → Fin 4
  | .copy => 0
  | .drain => 1
  | .coll => 2
  | .swap => 3

def Region.tl (r : Region) (c : EngCtx) : Timeline := r.tls[ctxIdx c]

/-- A region's timeline counts one more operation, and names its number. -/
def Dev.number (d : Dev) (region : Nat) (c : EngCtx) : Dev × Nat :=
  let n := ((d.region? region).map fun r => (r.tl c).issued).getD 0 + 1
  (d.updRegion region fun r => { r with tls := updV r.tls (ctxIdx c) fun t => { t with issued := n } }, n)

def Dev.completeNumber (d : Dev) (region : Nat) (c : EngCtx) (n : Nat) : Dev :=
  d.updRegion region fun r => { r with tls := updV r.tls (ctxIdx c) fun t => t.complete n }

def tagBit (t : Fin 64) : W64 := BitVec.twoPow 64 t.val

/-- A tag's operation is accepted: it is outstanding, not ready, not observed [16 R256, R259]. -/
def Strand.tagStart (st : Strand) (t : Fin 64) : Strand :=
  { st with tagout := st.tagout ||| tagBit t, tagrdy := st.tagrdy &&& ~~~tagBit t
            observed := st.observed &&& ~~~tagBit t }

/-- A tag's operation has completed [16 R256]. -/
def Strand.tagEnd (st : Strand) (t : Fin 64) : Strand :=
  { st with tagout := st.tagout &&& ~~~tagBit t, tagrdy := st.tagrdy ||| tagBit t }

/-- A strand is changed, on the device or in a saved context [16 R262]. -/
def Dev.onStrandOrSaved (d : Dev) (sid : Nat) (f : Strand → Strand) : Dev :=
  let d := d.onStrand sid f
  { d with saved := d.saved.map fun x => { x with strands := updWhere (fun st => st.id == sid) f x.strands } }

/-- An operation's arrival: an atomic add of the increment, with release order [16 R268]. No lane makes it, so no lane's
release waits for it. -/
def Dev.arriveAt (d : Dev) (o : EngOp) (a : Arrival) : Dev :=
  match peerOf a.key with
  | some (rank, k) => d.send rank (.atomic .add64 k (BitVec.ofNat 64 a.inc) 0) (.store o.task 0 32 0 { o.rep with code := 0x21 })
  | none =>
    let run : Run := { key := a.key, len := 8 }
    match d.runFail .atomic 0 run with
    | some e => d.engineCheck o e.detail
    | none => ((d.correct .atomic run).atomicAt o.party a.key .add64 (BitVec.ofNat 64 a.inc) 0).1

/-- The target run of an FP32 CDRAIN.add, as one number [22 R348]. -/
def EngKind.target : EngKind → Option Nat
  | .drainAdd _ count _ false tbank tcore rank => some (((rank * 256 + tcore.val) * 64 + tbank) * 128 + count)
  | .drainAdd _ _ _ true _ _ _ => none
  | .copy _ => none
  | .gather _ _ _ _ _ _ => none
  | .scatter _ _ _ _ _ _ => none
  | .drainMem _ _ _ _ => none
  | .coll _ _ _ _ _ _ => none

/-- An operation completes: its writes into bound ranges count, its tag is set, its number completes, it arrives
[16 R256, R263, R268]. -/
def Dev.finishOp (d : Dev) (oid : Nat) : Dev :=
  match d.op? oid with
  | none => d
  | some o =>
    let d := o.late.foldl (fun d x => o.parties.foldl (fun d p => d.logWrite p x.1 x.2) d) d
    let d := { d with ops := d.ops.filter fun x => x.id != oid }
    let d := match o.tag with
      | none => d
      | some t => d.onStrandOrSaved o.sid fun st => st.tagEnd t
    let d := d.completeNumber o.region o.ctx o.num
    let d := match o.kind.target with
      | none => d
      | some t => d.onJob o.task fun j => { j with drained := j.drained ++ [t] }
    match o.arr with
    | none => d
    | some a => d.arriveAt o a

/-! ### Accepting an operation [16 R250] -/

/-- Every page of a range is checked, in ascending order; `n` bounds the pages. -/
def Dev.engPages (d : Dev) (st : Strand) (acc : Access) : Nat → Nat → Nat → Except Fail (List Piece)
  | 0, _, _ => .ok []
  | n + 1, va, len =>
    if len = 0 then .ok [] else
    let part := min len (2 ^ 16 - va % 2 ^ 16)
    match d.accessBy true st none acc va part with
    | .error e => .error e
    | .ok ps =>
      match d.engPages st acc n ((va + part) % 2 ^ 64) (len - part) with
      | .error e => .error e
      | .ok qs => .ok (ps ++ qs)

/-- The runs of a range that an operation reads or writes: the checks of R211 for every page, and no machine check yet;
nothing is checked of an empty range [16 R250]. -/
def Dev.engRange (d : Dev) (st : Strand) (acc : Access) (va : W64) (len : Nat) : Except Fail (List Piece) :=
  d.engPages st acc (len / 2 ^ 16 + 2) va.toNat len

/-- Ranges are checked one after another [16 R250]: DESIGN CHOICE (log 17), the source before the destination before the
counter, and of a CPYX the indexes, the table, the packed bytes. -/
def Dev.engRanges (d : Dev) (st : Strand) : List (Access × W64 × Nat) → Except (Access × Fail) (List (List Piece))
  | [] => .ok []
  | (acc, va, len) :: rest =>
    match d.engRange st acc va len with
    | .error e => .error (acc, e)
    | .ok ps =>
      match d.engRanges st rest with
      | .error e => .error e
      | .ok xs => .ok (ps :: xs)

/-- The scope of an arrival at a page [16 R268]. -/
def arrivalScope (ps : List Piece) : Scope :=
  match ps with
  | [] => .dv
  | p :: _ => match p.x with
    | none => .dv
    | some x => if pteKind x.leaf = 0 then .dv else if pteKind x.leaf = 3 then .fb else .nd

/-- The check of an arrival counter, as an atomic at the arrival's scope [16 R253, R268]. -/
def Dev.engCounter (d : Dev) (st : Strand) (va : W64) : Except (Access × Fail) (List Piece) :=
  match d.engRange st .atomic va 8 with
  | .error e => .error (.atomic, e)
  | .ok ps => match classFail (arrivalScope ps) true va.toNat ps with
    | some e => .error (.atomic, e)
    | none => .ok ps

/-- What a machine check of the word's operation would report. -/
def State.engReport (s : State) (ex : W32) : Report := { Trap.user 0x21 ex 0 with }.report s.old s.frag.pc

/-- The bytes of runs that lie at peers are asked for, for an operation [23 R361]. -/
def Dev.askPeers (d : Dev) (o : EngOp) (rs : List Run) : Dev :=
  rs.foldl (fun d r => match peerOf r.key with
    | none => d
    | some (rank, a) => (d.send rank (.read [(a, r.len)]) (.engine o.id 0)).onOp o.id fun o => { o with waits := o.waits + 1 }) d

/-- The operation is accepted: it takes its number, its tag becomes outstanding, and it completes later; what moves
nothing completes at once [16 R250, R253, R256, R263]. -/
def State.accept (s : State) (ex : W32) (c : EngCtx) (tag : Option (Fin 64)) (kind : EngKind) (arr : Option Arrival)
    (pieces : List Piece) (reads : List Run) : State :=
  let st := s.old
  let t := s.onDev fun d => d.touchPages [(none, pieces)]
  let (d, n) := t.now.number st.region c
  let id := d.next
  let o : EngOp :=
    { id := id, ctx := c, num := n, region := st.region, core := st.core, sid := st.id, task := st.laneTask (lowLane ex)
      tag := tag, kind := kind, arr := arr, lanes := ex, rep := s.engReport ex, mem0 := d.mem, got := [], idx := none, holes := [], lost := false
      waits := 0, wrote := false, late := [], due := d.someday, src := Key.casket st.core 0, sent := [], rows := [], halted := false }
  let d := { d.bump.drew with ops := d.ops ++ [o] }
  let d := d.askPeers o reads
  let d := match tag with
    | none => d
    | some t => d.onFocus fun st => st.tagStart t
  { t with now := d }

/-- An accepted copy completes at an open later cycle, or when its peers have answered; one of no bytes completes now. -/
def State.setCopy (s : State) (empty : Bool) : State :=
  s.onDev fun d =>
    match d.ops.getLast? with
    | none => d
    | some o => if empty then d.finishOp o.id else if o.waits = 0 then d.planSomeday (.copyCompletion o.id) else d

/-- Illegal encoding of a descriptor, laid out as a word's [16 R250]. -/
def State.badDesc (s : State) (ex : W32) (bad : Bool) : Option Trap :=
  if bad then some (Trap.user 0x01 ex (wordInfo s.word s.iss.pos.val)) else none

/-- Alignment of a descriptor's address (0x05). -/
def badAlign (ex : W32) (va : W64) (n : Nat) : Option Trap := if va.toNat % n = 0 then none else some (Trap.user 0x05 ex va)

/-- Tag misuse: the tag is outstanding [16 R250, R256]. -/
def tagMisuse (st : Strand) (ex : W32) (t : Fin 64) : Option Trap :=
  if (st.tagout &&& tagBit t) = 0 then none else some (Trap.user 0x19 ex (tagBit t))

/-- The word goes on where its checks pass and the core's engine queue has room [16 R250]. -/
def State.startOp (s : State) (ex : W32) (bad : Option Trap) (ranges : Except (Access × Fail) State) : Out :=
  if ex = 0 then .next s else
  match bad, ranges with
  | some t, _ => .next (s.trap t)
  | none, .error e => .next (s.trap (e.2.trap e.1 ex 0))
  | none, .ok t => .next (if s.now.engineFull s.old.core then s.setBlock .engineFull else t)

/-! ### CPY and CPYX [16 R252-R254] -/

/-- The row addresses of a copy. -/
def rowVas (base pitch : W64) (rows : Nat) : List W64 := (List.range rows).map fun i => base + BitVec.ofNat 64 i * pitch

/-- A copy of rows. -/
def copyWord (h : Hdr) (src dst spitch dpitch : W64) (len rows : Nat) (tag : Fin 64) (mbz : Bool)
    (counter : Option (W64 × Nat)) (s : State) : Out :=
  let ex := s.exec h
  let st := s.old
  let align := match counter with
    | none => none
    | some (va, _) => badAlign ex va 8
  let ss := rowVas src spitch rows
  let ds := rowVas dst dpitch rows
  let ranges : Except (Access × Fail) State :=
    match s.seen.engRanges st (ss.map fun a => (.read, a, len)), s.seen.engRanges st (ds.map fun a => (.write, a, len)) with
    | .error e, _ => .error e
    | .ok _, .error e => .error e
    | .ok rs, .ok ws =>
      let go (cs : List Piece) (arr : Option Arrival) : State :=
        (s.accept ex .copy (some tag) (.copy ((rs.map runsOf).zip (ws.map runsOf))) arr
          (rs.flatten ++ ws.flatten ++ cs) (rs.flatten.map Piece.run)).setCopy (decide (len = 0) || decide (rows = 0))
      match counter with
      | none => .ok (go [] none)
      | some (va, inc) =>
        match s.seen.engCounter st va with
        | .error e => .error e
        | .ok cs => .ok (go cs (some { key := keyOf cs, inc := inc }))
  s.startOp ex (tagMisuse st ex tag <|> s.badDesc ex mbz <|> align) ranges

def execCpy (h : Hdr) (k : KReg) (tag : Fin 64) (s : State) : Out :=
  let st := s.old
  let inc := (st.rk (k.plus 5)).toNat
  copyWord h (st.rkpair k) (st.rkpair (k.plus 2)) 0 0 (st.rk (k.plus 4)).toNat 1 tag false
    (if inc = 0 then none else some (st.rkpair (k.plus 6), inc)) s

def execCpy2d (h : Hdr) (k : KReg) (tag : Fin 64) (s : State) : Out :=
  let st := s.old
  let rows := (st.rk (k.plus 5)).toNat
  copyWord h (st.rkpair k) (st.rkpair (k.plus 2)) ((st.rk (k.plus 6)).signExtend 64) ((st.rk (k.plus 7)).signExtend 64)
    (st.rk (k.plus 4)).toNat rows tag (decide (2 ^ 20 ≤ rows)) none s

/-- A gather or a scatter. -/
def copyxWord (h : Hdr) (k : KReg) (tag : Fin 64) (scatter : Bool) (s : State) : Out :=
  let ex := s.exec h
  let st := s.old
  let len := (st.rk (k.plus 6)).toNat % 2 ^ 16
  let n := (st.rk (k.plus 6)).toNat / 2 ^ 16
  let rows := (st.rk (k.plus 7)).toNat
  let index := st.rkpair (k.plus 4)
  let ranges : Except (Access × Fail) State :=
    match s.seen.engRanges st [(.read, index, 4 * n), (if scatter then .write else .read, st.rkpair k, rows * len),
        (if scatter then .read else .write, st.rkpair (k.plus 2), n * len)] with
    | .error e => .error e
    | .ok ps =>
      let ix := runsOf (ps.getD 0 [])
      let table := runsOf (ps.getD 1 [])
      let packed := runsOf (ps.getD 2 [])
      let kind : EngKind := if scatter then .scatter len n rows ix table packed else .gather len n rows ix table packed
      .ok ((s.accept ex .copy (some tag) kind none ps.flatten ix).setCopy (decide (n = 0)))
  s.startOp ex (tagMisuse st ex tag <|> s.badDesc ex (decide (len = 0)) <|> badAlign ex index 4) ranges

def execCpyxGather (h : Hdr) (k : KReg) (tag : Fin 64) (s : State) : Out := copyxWord h k tag false s
def execCpyxScatter (h : Hdr) (k : KReg) (tag : Fin 64) (s : State) : Out := copyxWord h k tag true s

/-- The part of runs from an offset, `n` bytes long. -/
def sliceRuns : List Run → Nat → Nat → List Run
  | [], _, _ => []
  | r :: rs, off, n =>
    if n = 0 then []
    else if r.len ≤ off then sliceRuns rs (off - r.len) n
    else
      let m := min n (r.len - off)
      { key := r.key + off, len := m } :: sliceRuns rs 0 (n - m)

/-- The number that read bytes stand for, if all of them could be read. -/
def numOf? (bs : List (Option Byte)) : Option Nat := if bs.all Option.isSome then some (ofBytes (bs.filterMap id)) else none

/-- The rows of a copy are moved in order [16 R253]; `i` counts the bytes read before. -/
def Dev.copyRows (d : Dev) (o : EngOp) : Nat → List (List Run × List Run) → Dev
  | _, [] => d
  | i, (src, dst) :: rest =>
    let (d, bs) := d.engRead o i src
    (d.engWrite o dst bs).copyRows o (i + bs.length) rest

/-- What a gather or a scatter does for one index: the runs that it reads and those that it writes, or the zeros that it
writes; nothing for an index of a scatter past the table [16 R254]. -/
structure RowMove where
  src : Option (List Run)
  dst : List Run

/-- The moves of a gather or a scatter, in order of position; none for an index that could not be read. -/
def EngKind.moves (k : EngKind) (idx : List (Option Nat)) : List RowMove :=
  match k with
  | .gather len _ rows _ table packed =>
    (idx.zipIdx).filterMap fun x => x.1.map fun i =>
      { src := if i < rows then some (sliceRuns table (i * len) len) else none, dst := sliceRuns packed (x.2 * len) len }
  | .scatter len _ rows _ table packed =>
    (idx.zipIdx).filterMap fun x => (x.1.filter fun i => i < rows).map fun i =>
      { src := some (sliceRuns packed (x.2 * len) len), dst := sliceRuns table (i * len) len }
  | .copy _ | .drainMem _ _ _ _ | .drainAdd _ _ _ _ _ _ _ | .coll _ _ _ _ _ _ => []

/-- Rows are moved one after another. -/
def Dev.moveRows (d : Dev) (o : EngOp) : Nat → List RowMove → Dev
  | _, [] => d
  | i, m :: ms =>
    let (d, bs) := match m.src with
      | some src => d.engRead o i src
      | none => (d, List.replicate (m.dst.map Run.len).sum (some 0))
    (d.engWrite o m.dst bs).moveRows o (i + bs.length) ms

/-- The index list of a gather or scatter, and its entries. -/
def EngKind.indices : EngKind → Option (Nat × List Run)
  | .gather _ n _ ix _ _ | .scatter _ n _ ix _ _ => some (n, ix)
  | .copy _ | .drainMem _ _ _ _ | .drainAdd _ _ _ _ _ _ _ | .coll _ _ _ _ _ _ => none

/-- A gather or scatter reads its index list, entry by entry, once. -/
def Dev.readIndices (d : Dev) (o : EngOp) (ix : List Run) : List Nat → Dev × List (Option Nat)
  | [] => (d, [])
  | q :: qs =>
    let (d, bs) := d.engRead o (4 * q) (sliceRuns ix (4 * q) 4)
    let (d, xs) := d.readIndices o ix qs
    (d, numOf? bs :: xs)

/-- With its index list read, an operation asks peers for the rows that it is to read. -/
def Dev.planRows (d : Dev) (o : EngOp) : Dev :=
  match o.kind.indices, o.idx with
  | some (n, ix), none =>
    let (d, idx) := d.readIndices o ix (List.range n)
    let rows := (o.kind.moves idx).flatMap fun m => m.src.getD []
    (d.drew.onOp o.id fun o => { o with idx := some idx }).askPeers o rows.dedup
  | _, _ => d

/-- The bytes of a copy, gather or scatter are moved. -/
def Dev.moveBytes (d : Dev) (o : EngOp) : Dev :=
  match o.kind with
  | .copy pairs => d.copyRows o 0 pairs
  | k => d.moveRows o 0 (k.moves (o.idx.getD []))

/-- An operation that has written completes when no transaction of it is outstanding. -/
def Dev.settleOp (d : Dev) (oid : Nat) : Dev :=
  match d.op? oid with
  | none => d
  | some o => if o.waits = 0 then d.finishOp oid else d

/-- COPY_COMPLETION: the bytes are moved, once what lies at peers has come; when peers have taken theirs, the copy has
completed [16 R253, R254, R256]. -/
def execCopyCompletion (op : Nat) (s : State) : Out :=
  s.event fun d =>
    match d.op? op with
    | none => d
    | some o =>
      if o.ctx ≠ .copy ∨ o.waits ≠ 0 then d
      else if o.wrote then d.finishOp op
      else
        let d := d.planRows o
        match d.op? op with
        | none => d
        | some o => if o.waits ≠ 0 then d else ((d.onOp op fun o => { o with wrote := true }).moveBytes o).drew.settleOp op

/-! ### Tags [16 R257-R259] -/

/-- The view of the ready bits [16 R259]. -/
def Strand.tagView (st : Strand) : W64 := if st.det then st.observed else st.tagrdy

/-- The lowest set bit of a mask, 64 where there is none. -/
def lowBit (v : W64) : Nat := ((List.range 64).find? fun i => v.getLsbD i).getD 64

/-- A tag wait has what it waits for. -/
def Strand.tagsMet (st : Strand) (all : Bool) (mask : W64) : Bool :=
  if all then (mask &&& ~~~st.tagrdy) == 0 else (mask &&& st.tagrdy) != 0

/-- The tags that a returning wait observes [16 R258, R259]. -/
def Strand.observe (st : Strand) (mask seen : W64) : Strand := { st with observed := st.observed ||| (mask &&& seen) }

/-- WTANY and WTALL: they test the ready bits as the group found them [06 R112]. -/
def tagWait (h : Hdr) (k : KReg) (all : Bool) (s : State) : Out :=
  let st := s.old
  let mask := st.rkpair k
  let known := st.tagrdy ||| st.tagout
  let bad := if all then (mask &&& ~~~known) != 0 else (mask &&& known) == 0
  let want := if !all && st.det then BitVec.twoPow 64 (lowBit (mask &&& known)) else mask
  if !s.acts h then .next s
  else if bad then .next (s.trap (Trap.user 0x19 (s.exec h) (mask &&& ~~~known)))
  else if st.tagsMet all want then .next (s.onFocus fun t => t.observe want st.tagrdy)
  else .next (s.setWait (if all then .wtall want else .wtany want))

def execWtany (h : Hdr) (k : KReg) (s : State) : Out := tagWait h k false s
def execWtall (h : Hdr) (k : KReg) (s : State) : Out := tagWait h k true s

/-- The tags that a parked tag wait waits for. -/
def Wait.tags : Wait → Option (Bool × W64)
  | .wtany m => some (false, m)
  | .wtall m => some (true, m)
  | _ => none

/-- A parked tag wait may return. -/
def Dev.tagWaitDone (d : Dev) (sid : Nat) (slot : Fin 4) : Bool :=
  match (d.waitOf sid slot).bind Wait.tags, d.strand? sid with
  | some (all, m), some st => st.tagsMet all m
  | _, _ => false

/-- TAG_WAIT_COMPLETION: the wait observes its tags and returns [16 R258]. -/
def execTagWaitCompletion (sid : Nat) (slot : Fin 4) (s : State) : Out :=
  s.event fun d =>
    match (d.waitOf sid slot).bind Wait.tags with
    | none => d
    | some (_, m) => if d.tagWaitDone sid slot then (d.onStrand sid fun st => st.observe m st.tagrdy).wakeFrag sid slot else d

/-- TFIRST: the lowest tag of the mask in the view, or 64. -/
def execTfirst (h : Hdr) (k d : KReg) (s : State) : Out :=
  let v := s.old.rkpair k &&& s.old.tagView
  .next (if s.acts h then s.arriveLater (s.exec h) [.k d] [.k d (BitVec.ofNat 32 (lowBit v))] else s)

/-- A pair of uniform registers that a variable-latency result writes. -/
def pairMarks (d : KReg) : List Dest := [.k d, .k (d.plus 1)]
def pairWrites (d : KReg) (v : W64) : List RegWrite := [.k d (lo32 v), .k (d.plus 1) (hi32 v)]

/-- TTEST: the tags of the mask in the view. -/
def execTtest (h : Hdr) (k d : KReg) (s : State) : Out :=
  let v := s.old.rkpair k &&& s.old.tagView
  .next (if s.acts h then s.arriveLater (s.exec h) (pairMarks d) (pairWrites d v) else s)

/-! ### Timeline words [16 R264] -/

/-- The completed counter of a strand's region. -/
def Dev.completed (d : Dev) (st : Strand) (c : EngCtx) : Nat := ((d.region? st.region).map fun r => (r.tl c).done).getD 0

/-- The swap number of a layer's last fetch, from its entry [19 R309]; the entry's address is taken in the space of the
region's control block. -/
def Dev.layerWord (d : Dev) (r : Region) (layer off n : Nat) : Nat :=
  match d.schedKey r.space .read (r.parure + 64 + 64 * layer + off) with
  | none => 0
  | some (k, _) => d.num k n

/-- TLWAIT on the swap context acquires the residency clasps of the layers that those fetches made resident
[19 R317]. -/
def Dev.acquireSwaps (d : Dev) (st : Strand) (n : Nat) : Dev :=
  match d.region? st.region with
  | none => d
  | some r =>
    { d with clasps := d.clasps.map fun c => match c.name with
        | .soft _ => c
        | .layer region j =>
          if region = r.id ∧ d.layerWord r j 24 1 = 2 ∧ d.layerWord r j 40 8 ≤ n then
            (lanesOf st.liveLanes).foldl (fun c l => c.acquire (partyOf st l)) c
          else c }

/-- A TLWAIT returns: its target is noted, and it acquires [16 R264]. -/
def Dev.tlReturn (d : Dev) (st : Strand) (c : EngCtx) (n : W64) : Dev :=
  let d := d.onStrand st.id fun st => { st with tlret := updV st.tlret (ctxIdx c) fun t => if t.toNat < n.toNat then n else t }
  if c = .swap then d.acquireSwaps st n.toNat else d

def execTlwait (h : Hdr) (ctx : EngCtx) (k : KReg) (s : State) : Out :=
  let n := s.old.rkpair k
  .next <|
    if !s.acts h then s
    else if n.toNat ≤ s.now.completed s.old ctx then s.onDev fun d => d.tlReturn s.old ctx n
    else s.setWait (.tlwait ctx n)

/-- A parked TLWAIT sees its target. -/
def Dev.tlwaitDone (d : Dev) (sid : Nat) (slot : Fin 4) : Bool :=
  match d.waitOf sid slot, d.strand? sid with
  | some (.tlwait c n), some st => decide (n.toNat ≤ d.completed st c)
  | _, _ => false

/-- TLWAIT_COMPLETION [16 R264]. -/
def execTlwaitCompletion (sid : Nat) (slot : Fin 4) (s : State) : Out :=
  s.event fun d =>
    match d.waitOf sid slot, d.strand? sid with
    | some (.tlwait c n), some st =>
      if d.tlwaitDone sid slot then (d.tlReturn st c n).wakeFrag sid slot else d
    | _, _ => d

/-- TLREAD: the completed counter; in deterministic mode the largest target that has returned [16 R264]. -/
def execTlread (h : Hdr) (ctx : EngCtx) (k : KReg) (s : State) : Out :=
  let v : W64 := if s.old.det then s.old.tlret[ctxIdx ctx] else BitVec.ofNat 64 (s.start.completed s.old ctx)
  .next (if s.acts h then s.arriveLater (s.exec h) (pairMarks k) (pairWrites k v) else s)

/-! ### CDRAIN [16 R260-R262] -/

/-- The source run's checks: a count of 1 to 64, every bank allocated to the task [16 R260]. -/
def badDrain (k : Core) (task first count : Nat) : Bool :=
  decide (count = 0) || decide (64 < count) || !((List.range count).all fun i => k.ownsBank task (first + i))

/-- What CDRAIN's two forms share: the descriptor's third register. -/
def drainFirst (w : W32) : Nat := w.toNat % 64
def drainCount (w : W32) : Nat := w.toNat / 64 % 128
def drainClr (w : W32) : Bool := w.getLsbD 13

/-- The source check of a drain. -/
def State.drainSource (s : State) (ex : W32) (w : W32) : Option Trap :=
  if badDrain (s.now.core s.old.core) (s.old.laneTask (lowLane ex)) (drainFirst w) (drainCount w) then
    some (casketTrap 0x14 ex (w.zeroExtend 64))
  else none

def execCdrainMem (h : Hdr) (k : KReg) (s : State) : Out :=
  let ex := s.exec h
  let st := s.old
  let w := st.rk (k.plus 2)
  let dst := st.rkpair k
  let ranges : Except (Access × Fail) State :=
    match s.seen.engRange st .write dst (65536 * drainCount w) with
    | .error e => .error (.write, e)
    | .ok ps => .ok (s.accept ex .drain none (.drainMem (drainFirst w) (drainCount w) (drainClr w) (runsOf ps)) none ps [])
  s.startOp ex (s.badDesc ex (decide (2 ^ 14 ≤ w.toNat) || st.rk (k.plus 3) != 0) <|> badAlign ex dst 4 <|> s.drainSource ex w)
    ranges

def execCdrainAdd (h : Hdr) (k : KReg) (s : State) : Out :=
  let ex := s.exec h
  let st := s.old
  let w := st.rk (k.plus 2)
  let target := st.rkpair k
  let tbank := target.toNat % 64
  let past := if tbank + drainCount w > 64 then some (casketTrap 0x14 ex target) else none
  let kind : EngKind := .drainAdd (drainFirst w) (drainCount w) (drainClr w) (w.getLsbD 14) tbank
    (Fin.ofNat 256 (target.toNat / 64)) (target.toNat / 2 ^ 14 % 4096)
  s.startOp ex (s.badDesc ex (decide (2 ^ 15 ≤ w.toNat) || st.rk (k.plus 3) != 0 || decide (2 ^ 26 ≤ target.toNat)) <|>
    s.drainSource ex w <|> past) (.ok (s.accept ex .drain none kind none [] []))

/-- The banks and the clr of a drain. -/
def EngKind.drainRun : EngKind → Option (Nat × Nat × Bool)
  | .drainMem f c clr _ => some (f, c, clr)
  | .drainAdd f c clr _ _ _ _ => some (f, c, clr)
  | .copy _ => none
  | .gather _ _ _ _ _ _ => none
  | .scatter _ _ _ _ _ _ => none
  | .coll _ _ _ _ _ _ => none

/-- The elements of a casket row; with clr each is set to 0 as it is read; nothing where a read fails [16 R261]. -/
def Dev.drainElems (d : Dev) (clr : Bool) : List Nat → Dev × List (Option W32)
  | [] => (d, [])
  | k :: ks =>
    let bad := d.eccBad.contains (k / 8)
    let d := d.correctWord (k / 8)
    let v := BitVec.ofNat 32 (d.num k 4)
    let (d, vs) := (if clr && !bad then d.storeNum k 4 0 else d : Dev).drainElems clr ks
    (d, (if bad then none else some v) :: vs)

/-- The keys of row i of a run of banks [16 R261]. -/
def drainKeys (src first row : Nat) : List Nat := (List.range 64).map fun j => src + first * 2 ^ 16 + 256 * row + 4 * j

/-- The rows that a drain has not read. -/
def EngOp.unread (o : EngOp) (count : Nat) : List Nat :=
  (List.range (256 * count)).filter fun r => !o.rows.contains r && !(o.sent.any fun x => x.1 == r)

/-- A drain reads one of its rows, by an open choice, and the row sets out [16 R261]. -/
def Dev.drainRead (d : Dev) (o : EngOp) : Dev :=
  match o.kind.drainRun with
  | none => d
  | some (first, count, clr) =>
    match (o.unread count)[Config.freeChoice d.fresh % (o.unread count).length]? with
    | none => d
    | some row =>
      let ks := drainKeys o.src first row
      let (d, vs) := d.drew.drainElems clr ks
      let d := match (vs.zip ks).find? fun x => x.1.isNone with
        | none => d
        | some x => d.engineCheck o (eccDetail x.2)
      let d := d.onOp o.id fun o => { o with sent := o.sent ++ [(row, vs)], due := d.someday }
      match o.kind with
      | .drainAdd _ count _ isInt tbank tcore rank =>
        let r : DrainRow :=
          { src := Config.devid.toNat, op := o.id, core := tcore, first := tbank, count := count, bank := tbank + row / 256
            row := row % 256, isInt := isInt, vals := vs }
        if rank = Config.devid.toNat then d.drew.planSomeday (.drainRowApply r) else d.drew.send rank (.drain r) (.engine o.id row)
      | _ => d.drew.planSomeday (.drainRowCompletion o.id row)

/-- A task has a drain to a target run outstanding. -/
def Dev.drainsTo (d : Dev) (tid t : Nat) : Bool := d.ops.any fun o => o.task == tid && o.kind.target == some t

/-- In deterministic mode an FP32 CDRAIN.add reads its rows once every task before its own in the batch has completed its
drains to the same target run, or has ended [22 R348]. -/
def Dev.drainTurn (d : Dev) (o : EngOp) : Bool :=
  match o.kind.target, d.job? o.task with
  | some t, some j =>
    !(((d.region? o.region).map Region.det).getD false) ||
    d.jobs.all fun x => x.batch != j.batch || decide (j.idx ≤ x.idx) || (!d.drainsTo x.id t &&
      (x.drained.contains t ||
       (match x.st with
        | .finished _ => true
        | _ => false)))
  | _, _ => true

/-- Drains that are due read a row [16 R261, R262]. -/
def Dev.drainTick (d : Dev) : Dev :=
  d.ops.foldl (fun d o => if o.ctx = .drain ∧ ¬ o.halted ∧ o.due ≤ d.cycle ∧ d.drainTurn o then d.drainRead o else d) d

/-- The bytes of elements. -/
def elemBytes (vs : List (Option W32)) : List (Option Byte) :=
  vs.flatMap fun v => match v with
    | none => List.replicate 4 none
    | some x => (toBytes 4 x.toNat).map some

/-- A drain whose rows are complete, and whose peers have answered, is complete [16 R261, R263]. -/
def Dev.settleDrain (d : Dev) (oid count : Nat) : Dev :=
  match d.op? oid with
  | none => d
  | some o => if o.rows.length = 256 * count ∧ o.waits = 0 then d.finishOp oid else d

/-- A row of a drain is complete; with its last row, so is the drain. -/
def Dev.rowDone (d : Dev) (o : EngOp) (row count : Nat) : Dev :=
  (d.onOp o.id fun o => { o with rows := o.rows ++ [row], sent := o.sent.filter fun x => x.1 != row }).settleDrain o.id count

/-- DRAIN_ROW_COMPLETION: the row's bytes are written, or its target has acknowledged it [16 R261]. -/
def execDrainRowCompletion (op row : Nat) (s : State) : Out :=
  s.event fun d =>
    match d.op? op with
    | none => d
    | some o =>
      match o.sent.find? fun x => x.1 == row with
      | none => d
      | some x =>
        match o.kind with
        | .drainMem _ count _ dst => (d.engWrite o (sliceRuns dst (256 * row) 256) (elemBytes x.2)).rowDone o row count
        | .drainAdd _ count _ _ _ _ _ => d.rowDone o row count
        | _ => d

/-- The task whose casket bank holds an error that no word of it has met is told [21 R335]. -/
def Dev.bankCheck (d : Dev) (c : Fin 256) (addr : Nat) : Dev :=
  match (d.core c).banks.find? fun r => decide (r.first ≤ addr / 2 ^ 16) && decide (addr / 2 ^ 16 < r.first + r.n) with
  | none => d
  | some r =>
    let region := ((d.job? r.task).map Job.region).getD d.rootRcb
    d.countUnc.machineCheck c r.task region
      { Report.sched 0x21 0 0 0 (BitVec.ofNat 64 (5 * 2 ^ 56 + addr)) with
        flags := 0, core := c.val, taskidx := ((d.job? r.task).map Job.idx).getD 0 }

/-- A row is added into the target run, element by element, or discarded where the run is not allocated; an element that
can not be read keeps its bytes [16 R261, 21 R335]. -/
def Dev.applyRow (d : Dev) (r : DrainRow) : Dev :=
  if (List.range r.count).any fun i => (d.core r.core).bankFree (r.first + i) then d
  else
    let items : List CasItem := (r.vals.zipIdx).filterMap fun x => x.1.map fun v =>
      { lane := 0, n := x.2, addr := r.bank * 2 ^ 16 + 256 * r.row + 4 * x.2, v := v }
    let op : CasOp := if r.isInt then .addI else .addF
    let d' := (d.casketApply r.core op items).1
    match items.find? fun x => d.badItem r.core op items x with
    | none => d'
    | some x => d'.bankCheck r.core x.addr

/-- The number of a row within its drain's run. -/
def EngOp.rowOf (o : EngOp) (r : DrainRow) : Nat :=
  match o.kind with
  | .drainAdd _ _ _ _ tbank _ _ => (r.bank - tbank) * 256 + r.row
  | _ => 0

/-- DRAIN_ROW_APPLY: a row of this device arrives at its target core, and is acknowledged [16 R261]. -/
def execDrainRowApply (row : DrainRow) (s : State) : Out :=
  s.event fun d =>
    let d := d.applyRow row
    match d.op? row.op with
    | none => d
    | some o => if row.src = Config.devid.toNat then d.planSomeday (.drainRowCompletion o.id (o.rowOf row)) else d

/-! ### COLL [16 R265-R267] -/

/-- The devices of the partition, in rank order. -/
def participants : List Nat := (List.range 4096).filter fun r => r == Config.devid.toNat || Config.members.contains r

/-- The device's place among them. -/
def myPlace : Nat := (participants.findIdx? fun r => r == Config.devid.toNat).getD 0

def collSize (ty : Nat) : Nat := if ty = 1 then 2 else 4

/-- One combination of two elements [16 R266]. -/
def combine (ty op : Nat) (a b : Nat) : Nat :=
  let x := BitVec.ofNat 32 a
  let y := BitVec.ofNat 32 b
  if ty = 0 then (if op = 0 then (fadd x y).1 else (fminmax (op == 2) x y).1).toNat
  else if ty = 1 then
    (if op = 0 then addBf16 a b
     else (fminmax (op == 2) (BitVec.ofNat 32 (a * 2 ^ 16)) (BitVec.ofNat 32 (b * 2 ^ 16))).1.toNat / 2 ^ 16)
  else if op = 0 then (x + y).toNat
  else if (decide (x.toInt ≤ y.toInt)) == (op == 1) then a else b

/-- One level of the tree: neighbours at even places are combined. -/
def treeLevel (f : Nat → Nat → Nat) : List Nat → List Nat
  | a :: b :: rest => f a b :: treeLevel f rest
  | xs => xs

/-- The tree of R266 over the positions' elements; `n` bounds its levels. -/
def treeFold (f : Nat → Nat → Nat) : Nat → List Nat → Nat
  | 0, xs => xs.headD 0
  | n + 1, xs => if xs.length ≤ 1 then xs.headD 0 else treeFold f n (treeLevel f xs)

/-- Element x of a contribution, if it could be read. -/
def collElem (sz : Nat) (bs : List (Option Byte)) (x : Nat) : Option Nat := numOf? ((bs.drop (sz * x)).take sz)

/-- Numbers of a list, if each is there. -/
def allOf (xs : List (Option Nat)) : Option (List Nat) := if xs.all Option.isSome then some (xs.filterMap id) else none

/-- The destination's bytes, from the contributions in rank order; none where an element could not be read [16 R266,
21 R335]. -/
def collResult (kind : CollKind) (e ty op place : Nat) (srcs : List (List (Option Byte))) : List (Option Byte) :=
  let sz := collSize ty
  let reduce (lo : Nat) : List (Option Byte) :=
    (List.range e).flatMap fun x => match allOf (srcs.map fun bs => collElem sz bs (lo + x)) with
      | none => List.replicate sz none
      | some vs => (toBytes sz (treeFold (combine ty op) 13 vs)).map some
  match kind with
  | .allreduce => reduce 0
  | .reducescatter => reduce (place * e)
  | .allgather => srcs.flatMap fun bs => bs.take (e * sz)
  | .alltoall => srcs.flatMap fun bs => (bs.drop (place * e * sz)).take (e * sz)

/-- The bytes of the source and of the destination [16 R266]. -/
def collSrcLen (kind : CollKind) (n : Nat) : Nat :=
  match kind with
  | .allreduce | .allgather => n
  | .reducescatter | .alltoall => participants.length * n

def collDstLen (kind : CollKind) (n : Nat) : Nat :=
  match kind with
  | .allreduce | .reducescatter => n
  | .allgather | .alltoall => participants.length * n

/-- A collective word [16 R265]. -/
def collWord (h : Hdr) (k : KReg) (kind : CollKind) (s : State) : Out :=
  let ex := s.exec h
  let st := s.old
  let w := (st.rk (k.plus 5)).toNat
  let ty := w % 4
  let op := w / 4 % 4
  let inc := w / 2 ^ 16
  let e := (st.rk (k.plus 4)).toNat
  let n := e * collSize ty
  let counter := st.rkpair (k.plus 6)
  let ranges : Except (Access × Fail) State :=
    match s.seen.engRanges st [(.read, st.rkpair k, collSrcLen kind n), (.write, st.rkpair (k.plus 2), collDstLen kind n)] with
    | .error x => .error x
    | .ok ps =>
      let src := runsOf (ps.getD 0 [])
      let go (cs : List Piece) (arr : Option Arrival) : State :=
        s.accept ex .coll none (.coll kind e ty op src (runsOf (ps.getD 1 []))) arr (ps.flatten ++ cs) src
      if inc = 0 then .ok (go [] none)
      else match s.seen.engCounter st counter with
        | .error x => .error x
        | .ok cs => .ok (go cs (some { key := keyOf cs, inc := inc }))
  s.startOp ex (s.badDesc ex (decide (ty = 3) || decide (op = 3) || decide (w / 16 % 2 ^ 12 ≠ 0)) <|>
    if inc = 0 then none else badAlign ex counter 8) ranges

def execCollAllreduce (h : Hdr) (k : KReg) (s : State) : Out := collWord h k .allreduce s
def execCollReducescatter (h : Hdr) (k : KReg) (s : State) : Out := collWord h k .reducescatter s
def execCollAllgather (h : Hdr) (k : KReg) (s : State) : Out := collWord h k .allgather s
def execCollAlltoall (h : Hdr) (k : KReg) (s : State) : Out := collWord h k .alltoall s

/-- The contributions to an operation that are there, in rank order. -/
def Dev.collParts (d : Dev) (o : EngOp) : List CollPeer :=
  participants.filterMap fun r => d.peers.find? fun p => p.region == o.region && p.num == o.num && p.rank == r

/-- The device's own contribution has been read, and sent. -/
def Dev.collSent (d : Dev) (o : EngOp) : Bool := (d.collParts o).any fun p => p.rank == Config.devid.toNat

/-- A collective reads its source, and sends its contribution to the other participants [16 R265, 23 R361]. -/
def Dev.contribute (d : Dev) (o : EngOp) : Dev :=
  match o.kind with
  | .coll kind e ty op src _ =>
    let (d, bs) := d.engRead o 0 src
    let mine : CollPeer :=
      { region := o.region, num := o.num, rank := Config.devid.toNat, kind := kind, e := e, ty := ty, op := op, bytes := bs }
    let head : CollHead := { region := o.region, num := o.num, kind := kind, e := e, ty := ty, op := op }
    let d := { d.drew with peers := d.peers ++ [mine] }
    (participants.filter fun r => r != Config.devid.toNat).foldl (fun d r =>
      (d.send r (.coll head bs) (.engine o.id 0)).onOp o.id fun o => { o with waits := o.waits + 1 }) d
  | _ => d

/-- Collectives read their source at an open moment, once what lies at peers has come [16 R251]. -/
def Dev.collTick (d : Dev) : Dev :=
  d.ops.foldl (fun d o => if o.ctx = .coll ∧ o.waits = 0 ∧ o.due ≤ d.cycle ∧ ¬ d.collSent o then d.contribute o else d) d

/-- A collective's contributions are all there, and its peers have answered. -/
def Dev.collReady (d : Dev) (o : EngOp) : Bool :=
  o.ctx == .coll && o.waits == 0 && (o.lost || decide ((d.collParts o).length = participants.length))

/-- The participants agree on kind, count, type and operation [16 R266]. -/
def collAgree (kind : CollKind) (e ty op : Nat) (ps : List CollPeer) : Bool :=
  ps.all fun p => p.kind == kind && p.e == e && p.ty == ty && p.op == op

/-- A contribution does not come: the failure is met here too, so that the collective completes [23 R362] (log 22). -/
def Dev.collLost (d : Dev) (o : EngOp) : Dev :=
  let missing := participants.find? fun r => !((d.collParts o).any fun p => p.rank == r)
  (d.onOp o.id fun o => { o with lost := true }).engineCheck o (BitVec.ofNat 64 (11 * 2 ^ 56 + missing.getD 0 * 2 ^ 44))

/-- The bytes that a collective writes: none where the participants disagree, unspecified ones where a contribution has
failed (log 11) [16 R266, 23 R362]. -/
def Dev.collBytes (d : Dev) (o : EngOp) (kind : CollKind) (e ty op : Nat) (dst : List Run) : List (Option Byte) :=
  let ps := d.collParts o
  if o.lost then (List.range (dst.map Run.len).sum).map fun i => some (Config.freeByte d.fresh i)
  else collResult kind e ty op myPlace (ps.map CollPeer.bytes)

/-- COLL_COMPLETION: the result is written and the collective arrives; where the participants disagree it completes
without either. As an input from outside it says that a contribution has failed on its way here [16 R266, R267;
23 R362]. -/
def execCollCompletion (op : Nat) (s : State) : Out :=
  s.event fun d =>
    match d.op? op with
    | none => d
    | some o =>
      match o.kind with
      | .coll kind e ty cop _ dst =>
        if o.wrote then d.settleOp op
        else if !d.collReady o then (if o.waits = 0 ∧ d.collSent o then (d.collLost o).planSomeday (.collCompletion op) else d)
        else
          let ps := d.collParts o
          let bs := d.collBytes o kind e ty cop dst
          let d := { d with peers := d.peers.filter fun p => !(ps.contains p) }
          if !o.lost && !collAgree kind e ty cop ps then (d.onOp op fun o => { o with arr := none }).finishOp op
          else (((d.onOp op fun o => { o with wrote := true }).engWrite o dst bs).drew).settleOp op
      | _ => d

end Sys2Proof.Machine
end

