-- ==== Sys2Proof/Machine/Sched.lean ====
section
/-! DEFINITION. The scheduler: its access to records, taking up and releasing tasks, decrements, placement, launch, ending
and cancelling, fault reports, regions and trays [17 R269-R288; 18 R289; 21 R328-R330; 22 R348]. -/

namespace Sys2Proof.Machine

/-! ### Records [17 R269-R273] -/

/-- The party that the scheduler and the swap engine act as: one of the device's own, of no strand. -/
def schedParty : Nat := 2 ^ 80 * 256

/-- A number of `n` bytes written by the scheduler. -/
def Dev.schedPut (d : Dev) (k n v : Nat) : Dev := d.writeFor schedParty k (toBytes n v)

/-- The key of a record or RCB: its address translates with R and W, and its page has an atomic class [17 R273]. -/
def Dev.recKey (d : Dev) (space va : Nat) : Option Nat :=
  match d.schedKey space .atomic va with
  | some (k, leaf) => if pteAc leaf = 0 then none else some k
  | none => none

/-- A number that the scheduler reads through a space, where it translates with R. -/
def Dev.schedNum (d : Dev) (space va n : Nat) : Option Nat := (d.schedKey space .read va).map fun x => d.num x.1 n

/-- Bytes of a space that the scheduler, the lease unit or a home reads: single-bit errors of the tables and of the bytes are
corrected and counted [21 R334]. -/
def Dev.noteRead (d : Dev) (space va n : Nat) : Dev :=
  if d.eccOne.isEmpty then d else
  (List.range n).foldl (fun d i =>
    let a := (va + i) % 2 ^ 64
    match d.region? space with
    | none => d
    | some r => match d.schedKey space .read a with
      | none => d.correctWalk r a
      | some x => (d.correctWalk r a).correct .read { key := x.1, len := 1 }) d

/-- The same of bytes at a key. -/
def Dev.noteKey (d : Dev) (k n : Nat) : Dev := d.correct .read { key := k, len := n }

/-- The same of a list: a count of 8 bytes, and entries of `per` bytes up to `most` of them. -/
def Dev.noteList (d : Dev) (space va per most : Nat) : Dev :=
  if va = 0 then d else d.noteRead space va (8 + per * min most ((d.schedNum space va 8).getD 0))

/-- Where an address of a space lies, whatever rights its page grants. -/
def Dev.placed (d : Dev) (space va : Nat) : Option (Nat × W64) :=
  match d.region? space with
  | none => none
  | some r =>
    if !canonical va then none else
    match d.walk r va with
    | .error _ => none
    | .ok x => some (x.key va, x.leaf)

/-- Every byte of a write of the scheduler translates with W: the keys of the bytes. -/
def Dev.schedKeys (d : Dev) (space va n : Nat) : Option (List Nat) :=
  (List.range n).mapM fun i => (d.schedKey space .write ((va + i) % 2 ^ 64)).map Prod.fst

/-- Bytes with their keys, as runs of bytes that follow one another. -/
def joinBytes : List (Nat × Byte) → List (Nat × List Byte)
  | [] => []
  | x :: xs =>
    match joinBytes xs with
    | [] => [(x.1, [x.2])]
    | y :: ys => if x.1 + 1 = y.1 then (x.1, x.2 :: y.2) :: ys else (x.1, [x.2]) :: y :: ys

/-- Bytes written by the scheduler through a space; nothing where some byte does not translate. -/
def Dev.schedWrite (d : Dev) (space va : Nat) (bs : List Byte) : Option Dev :=
  (d.schedKeys space va bs.length).map fun ks => (joinBytes (ks.zip bs)).foldl (fun d x => d.writeFor schedParty x.1 x.2) d

/-- One range of a lease list, from its two words; none where it is malformed [13 R209]. -/
def leaseOf (base w : Nat) : Option LeaseRange :=
  if w % 2 ^ 48 = 0 ∨ 2 ^ 50 ≤ w then none
  else some { base := base, len := w % 2 ^ 48, r := w / 2 ^ 48 % 2 == 1, w := w / 2 ^ 49 % 2 == 1 }

/-- A lease list; none where it is malformed or can not be read [13 R209]. -/
def Dev.readLeases (d : Dev) (space va : Nat) : Option (List LeaseRange) :=
  if va = 0 then some []
  else if va % 8 ≠ 0 then none
  else
    match d.schedNum space va 8 with
    | none => none
    | some n =>
      if 8 < n then none else
      (List.range n).mapM fun i =>
        match d.schedNum space (va + 8 + 16 * i) 8, d.schedNum space (va + 16 + 16 * i) 8 with
        | some b, some w => leaseOf b w
        | _, _ => none

/-- The live region whose RCB an address of a space names. -/
def Dev.regionAt (d : Dev) (space va : Nat) : Option Region :=
  if va % 256 ≠ 0 then none else
  match d.recKey space va with
  | none => none
  | some k => d.regions.find? fun r => r.id == k

/-- The state byte of a record [17 R271]. -/
def Dev.recState (d : Dev) (k : Nat) : Nat := d.num (k + 63) 1
def Dev.setRecState (d : Dev) (k v : Nat) : Dev := d.schedPut (k + 63) 1 v

/-- The state byte of a job's record; a finaliser has no record [19 R302]. -/
def Dev.setJobState (d : Dev) (j : Job) (v : Nat) : Dev := if j.fin then d else d.setRecState j.recKey v

/-- The dependence counter of a record. -/
def Dev.counter (d : Dev) (k : Nat) : Nat := d.num (k + 56) 2
def Dev.setCounter (d : Dev) (k v : Nat) : Dev := d.schedPut (k + 56) 2 v

/-! ### Notices [23 R373, R374] -/

/-- An MSI-X message of a port, or its pending bit where the vector is masked. -/
def Dev.msix (d : Dev) (port : Fin 2) (vec : Nat) : Dev :=
  { d with host :=
      if d.host.unmasked.contains (port.val, vec) then { d.host with out := d.host.out ++ [.msix port vec] }
      else if d.host.pba.contains (port.val, vec) then d.host
      else { d.host with pba := d.host.pba ++ [(port.val, vec)] } }

/-- An entry binds an event of a region; its RCB address lies in the root region's space (log 21). -/
def Dev.bindsEvent (d : Dev) (region ev : Nat) (e : BitVec 128) : Bool :=
  (e.toNat % 2 ^ 64 != 0) && e.getLsbD (104 + ev) &&
  ((d.regionAt d.rootRcb (e.toNat % 2 ^ 64)).map Region.id) == some region

/-- Every entry that binds an event of a region fires: 0 a report is written, 1 livetasks falls to 0, 2 the region has
ended. -/
def Dev.notify (d : Dev) (region ev : Nat) : Dev :=
  (d.host.notify.toList.filter fun e => e != 0 && d.bindsEvent region ev e).foldl
    (fun d e => d.msix (if e.getLsbD 96 then 1 else 0) (e.toNat / 2 ^ 64 % 2048)) d

/-- One task more, or less, is live in a region [17 R269]. -/
def Dev.taskIn (d : Dev) (region : Nat) : Dev := d.updRegion region fun r => { r with livetasks := r.livetasks + 1 }
def Dev.taskOut (d : Dev) (region : Nat) : Dev :=
  let d := d.updRegion region fun r => { r with livetasks := r.livetasks - 1 }
  if ((d.region? region).map Region.livetasks) = some 0 then d.notify region 1 else d

/-! ### Taking up and releasing [17 R272, R275, R276] -/

/-- A job as it stands when it is taken up. -/
def Job.blank : Job where
  id := 0
  batch := 0
  idx := 0
  n := 1
  fin := false
  recKey := 0
  recVa := 0
  space := 0
  region := 0
  entry := 0
  arg := 0
  lease := 0
  leases := []
  succ := []
  overflow := 0
  strands := 1
  threads := 1
  scratch := 0
  prio := 0
  st := .waiting
  rel := { cycle := 0, core := 0, lane := 0 }
  core := 0
  sbase := 0
  caps := []
  walkAt := (0, 0)
  marked := false
  decd := false
  drained := []
  trig := false
  cancelled := false
  struck := 0
  over1ms := false
  takeBk := false

/-- The jobs that a record's last take-up made. -/
def Dev.batchOf (d : Dev) (k : Nat) : List Job := d.jobs.filter fun j => j.recKey == k && !j.fin

/-- The order of a region's ready queue [17 R284]. -/
def queueBefore (a b : Job) : Bool :=
  if a.prio ≠ b.prio then decide (b.prio < a.prio)
  else if a.rel.cycle ≠ b.rel.cycle then decide (a.rel.cycle < b.rel.cycle)
  else if a.rel.core ≠ b.rel.core then decide (a.rel.core < b.rel.core)
  else if a.rel.lane ≠ b.rel.lane then decide (a.rel.lane < b.rel.lane)
  else if a.batch ≠ b.batch then decide (a.batch < b.batch)
  else decide (a.idx < b.idx)

/-- The first of a list in an order. -/
def leastBy {α : Type} (before : α → α → Bool) : List α → Option α
  | [] => none
  | x :: xs =>
    match leastBy before xs with
    | none => some x
    | some y => some (if before y x then y else x)

/-- The released tasks. -/
def Dev.releasedJobs (d : Dev) : List Job := d.jobs.filter fun j => j.st == .released

/-- The record at the head of a region's ready queue for a task priority, 0 for none; a finaliser has no record. -/
def Dev.queueHead (d : Dev) (region prio : Nat) : Nat :=
  ((leastBy queueBefore (d.releasedJobs.filter fun j => j.region == region && j.prio == prio && !j.fin)).map Job.recVa).getD 0

/-- A region's control block shows its ready queue. DESIGN CHOICE (log 58), unsafe: the head of a task priority is the address
of the record that stands first in it, 0 where none does [17 R269]. -/
def Dev.showQueue (d : Dev) (region : Nat) : Dev :=
  match d.region? region with
  | none => d
  | some r => d.writeFor schedParty (r.id + 80) ((List.range 8).flatMap fun p => toBytes 8 (d.queueHead region p))

/-- A waiting record's counter has reached zero: its tasks are released, and stand in the ready queue [17 R269, R276]. -/
def Dev.release (d : Dev) (k core lane : Nat) : Dev :=
  let key : RelKey := { cycle := d.cycle, core := core, lane := lane }
  let d := { d with jobs := updWhere (fun j => j.recKey == k && !j.fin) (fun j => { j with st := .released, rel := key }) d.jobs }
  let d := (d.batchOf k).foldl (fun d j => if j.idx = 0 then d.showQueue j.region else d) d
  d.setRecState k 2

/-- A report raised by the scheduler [21 R329]. -/
def Dev.schedFault (d : Dev) (region code reason task : Nat) (object : W64) : Dev :=
  d.pushReport region (Report.sched code reason task object 0)

/-- A record is taken up, for a batch of n tasks; `dflt` is the region where its field is 0, `core` and `lane` what a
release at once counts as coming from [17 R272, R275, R284]. -/
def Dev.takeUp (d : Dev) (k va space n dflt core lane : Nat) : Dev :=
  let st := d.recState k
  if n = 0 ∨ st = 1 ∨ st = 2 ∨ st = 3 then d else
  let rva := d.num (k + 16) 8
  let lva := d.num (k + 24) 8
  let d := (d.noteKey k 64).noteList space lva 16 8
  let region : Option Region := if rva = 0 then d.region? dflt else d.regionAt space rva
  let leases := d.readLeases space lva
  let strands := d.num (k + 58) 1
  let threads := d.num (k + 59) 1
  let scratch := d.num (k + 60) 2
  let prio := d.num (k + 62) 1
  let live := (region.map Region.live).getD false
  let formed := decide (1 ≤ strands ∧ strands ≤ 64 ∧ 1 ≤ threads ∧ threads ≤ 32 ∧ scratch ≤ 1024 ∧ prio < 8 ∧ n ≤ 2 ^ 20)
  match region, leases with
  | some r, some ls =>
    if live && formed then
      let job (i : Nat) : Job :=
        { Job.blank with
          id := d.seq + 1 + i, batch := d.seq + 1, idx := i, n := n, recKey := k, recVa := va, space := space, region := r.id
          entry := BitVec.ofNat 64 (d.num k 8), arg := BitVec.ofNat 64 (d.num (k + 8) 8), lease := BitVec.ofNat 64 lva
          leases := ls, succ := [BitVec.ofNat 64 (d.num (k + 32) 8), BitVec.ofNat 64 (d.num (k + 40) 8)]
          overflow := BitVec.ofNat 64 (d.num (k + 48) 8), strands := strands, threads := threads, scratch := scratch
          prio := prio }
      let d := { d with seq := d.seq + n, jobs := d.jobs ++ (List.range n).map job }
      let d := d.taskIn r.id
      if d.counter k = 0 then d.release k core lane else d.setRecState k 1
    else d.setRecState k 6
  | some r, none =>
    let d := d.setRecState k 6
    if live then d.schedFault r.id 0x12 0 va (BitVec.ofNat 64 lva) else d
  | none, _ => d.setRecState k 6

/-! ### Decrements [17 R276, R277, R282; 18 R289] -/

/-- DEPDEC's step on a counter, which releases a waiting record that it brings to zero; `false` for an underflow. -/
def Dev.decrement (d : Dev) (k core lane : Nat) : Dev × Bool :=
  let c := d.counter k
  let d := d.noteKey (k + 56) 8
  if c = 0 then (d, false)
  else
    let d := d.setCounter k (c - 1)
    let d := { d with decs := updWhere (fun w => w.now && d.recKey w.space w.va == some k) (fun w => { w with near := true }) d.decs }
    (if c = 1 ∧ d.recState k = 1 then d.release k core lane else d, true)

/-- The region that owns a record: that of its tasks, or the one that its field names, or another by default. -/
def Dev.recOwner (d : Dev) (k space dflt : Nat) : Nat :=
  match d.batchOf k with
  | j :: _ => j.region
  | [] =>
    let rva := d.num (k + 16) 8
    if rva = 0 then dflt else ((d.regionAt space rva).map Region.id).getD dflt

/-- One of the scheduler's decrements is applied [17 R282]. DESIGN CHOICE (log 61): an address that is no multiple of 64, or that
names no record, is reason 2 to the region of the task that ends, and the address is the report's object. -/
def Dev.applyDec (d : Dev) (w : DecWork) : Dev :=
  let fail (d : Dev) (region reason : Nat) : Dev := d.schedFault region 0x18 reason w.from_ (BitVec.ofNat 64 w.va)
  if w.bad then fail d w.region 2
  else if w.va % 64 ≠ 0 then fail d w.region 2
  else
    let d := d.noteRead w.space (w.va + 56) 8
    match d.recKey w.space w.va with
    | none => fail d w.region 2
    | some k =>
      let (d, ok) := d.decrement k w.core 0
      if ok then d else fail d (d.recOwner k w.space w.region) 0

/-- The entries of an overflow list; none where it is malformed [17 R282]. -/
def Dev.overflowOf (d : Dev) (space va : Nat) : Option (List Nat) :=
  if va = 0 then some []
  else if va % 8 ≠ 0 then none
  else
    match d.schedNum space va 8 with
    | none => none
    | some n => if 4096 < n then none else (List.range n).mapM fun i => d.schedNum space (va + 8 + 8 * i) 8

/-- The decrements of a job's successors, in order, skipping zero addresses [17 R282]. -/
def Dev.decsOf (d : Dev) (j : Job) : List DecWork :=
  let work (va : Nat) (bad : Bool) : DecWork :=
    { va := va, space := j.space, core := j.core.val, owner := j.recKey, from_ := j.recVa, region := j.region, bad := bad, now := false
      near := false }
  let succ := (j.succ.map BitVec.toNat).filter fun va => va != 0
  match d.overflowOf j.space j.overflow.toNat with
  | some xs => (succ ++ xs.filter fun va => va != 0).map fun va => work va false
  | none => succ.map (fun va => work va false) ++ [work j.overflow.toNat true]

/-- A batch's successors are handed over, once [17 R281]. -/
def Dev.passOn (d : Dev) (j : Job) : Dev :=
  if j.decd || j.fin then d else
  let e := d.noteList j.space j.overflow.toNat 8 4096
  { e with decs := d.decs ++ d.decsOf j
           jobs := updWhere (fun x => x.batch == j.batch) (fun x => { x with decd := true }) d.jobs }

/-- The first decrement of each owner, and the others. -/
def firstDecs : List Nat → List DecWork → List DecWork × List DecWork
  | _, [] => ([], [])
  | seen, w :: ws =>
    if seen.contains w.owner then
      let (a, b) := firstDecs seen ws
      (a, w :: b)
    else
      let (a, b) := firstDecs (w.owner :: seen) ws
      (w :: a, b)

/-- A cycle's decrements: one for each task that ends or triggers [18 R289]. -/
def Dev.markDecs (d : Dev) : Dev :=
  if d.decs.isEmpty then d else
  let (now, later) := firstDecs [] d.decs
  { d with decs := (now.map fun w => { w with now := true }) ++ later }

/-- The first of the cycle's decrements that come from a core is applied if it is due. -/
def Dev.nextDec (d : Dev) (due : DecWork → Bool) (core : Nat) : Dev :=
  match d.decs.find? fun w => w.now && w.core == core && due w with
  | none => d
  | some w => ({ d with decs := d.decs.erase w } : Dev).applyDec w

/-- The cycle's decrements up to a core are applied, in ascending core number: among what strands do in the cycle they
take the place of the core that they come from. Decrements of one counter are consecutive: once one has been applied, those of
other cores follow it before anything but a decrement (`all`) comes to that counter [18 R289]. -/
def Dev.applyDecs (d : Dev) (upTo : Nat) (all : Bool) : Dev :=
  if !(d.decs.any DecWork.now) then d else
  let due (w : DecWork) : Bool := decide (w.core ≤ upTo) || (all && w.near)
  (List.range 256).foldl (fun d c => d.decs.foldl (fun d _ => d.nextDec due c) d) d

/-! ### Ending [17 R278-R281; 21 R328, R330] -/

/-- A job has finished. -/
def Job.over (j : Job) : Bool :=
  match j.st with
  | .finished _ => true
  | _ => false

/-- A job finished by its own end. -/
def Job.good (j : Job) : Bool :=
  match j.st with
  | .finished g => g
  | _ => true

/-- A batch whose tasks have all finished, and whose decrements are made, reaches its end: its record's state is 4, or 5
where a task of it was cancelled [17 R278, R280, R281]. -/
def Dev.closeBatch (d : Dev) (batch : Nat) : Dev :=
  match d.jobs.find? fun j => j.batch == batch with
  | none => d
  | some j =>
    let js := d.jobs.filter fun x => x.batch == batch
    if js.all Job.over && !(d.decs.any fun w => w.owner == j.recKey && w.from_ == j.recVa) then
      let d := { d with jobs := d.jobs.filter fun x => x.batch != batch }
      (d.setJobState j (if js.any Job.cancelled then 5 else 4)).taskOut j.region
    else d

/-- Batches whose last decrement has been made end. -/
def Dev.closeTick (d : Dev) : Dev :=
  (d.jobs.filter fun j => j.over && j.decd).foldl (fun d j => d.closeBatch j.batch) d

/-- A batch whose tasks have all triggered or ended by themselves decrements its successors [17 R281]. -/
def Dev.handBatch (d : Dev) (j : Job) : Dev :=
  if (d.jobs.filter fun x => x.batch == j.batch).all fun x => x.good && (x.trig || x.over) then d.passOn j else d

/-- A job finishes: the batch's successors are decremented when all its tasks have triggered or ended by themselves, and
the batch ends with its last task [17 R280, R281; 21 R328]. -/
def Dev.finishJob (d : Dev) (tid : Nat) (good cancel : Bool) : Dev :=
  match d.job? tid with
  | none => d
  | some j =>
    let d := d.onJob tid fun j => { j with st := .finished good, cancelled := j.cancelled || cancel }
    let d := d.handBatch j
    d.closeBatch j.batch

/-- What the save area holds of a task is gone [21 R339]. -/
def Dev.clearSave (d : Dev) (tid : Nat) : Dev :=
  let mine (w : Nat) : Bool := 8 * w / 2 ^ 96 == 1 + tid
  { d with mem := d.mem.filter fun c => c.1 / 2 ^ 96 != 1 + tid, eccOne := d.eccOne.filter fun w => !mine w
           eccBad := d.eccBad.filter fun w => !mine w }

/-- The banks and the scratchpad of a task are freed, and its captures give their counts to the shadow table [17 R280;
13 R216, R217]. -/
def Dev.freeTask (d : Dev) (j : Job) : Dev :=
  let runs := (List.finRange 256).flatMap fun c => ((d.core c).banks.filter fun r => r.task == j.id).map fun r => (c, r)
  let d := runs.foldl (fun d x => d.dropBanks x.1 j.region x.2.first) d
  let kib := ((d.core j.core).scratch.filter fun r => r.task == j.id).map ScratchRun.n |>.sum
  let d := d.onCore j.core fun k => { k with scratch := k.scratch.filter fun r => r.task != j.id }
  let d := (d.updChain j.region fun r => { r with useScratch := r.useScratch - kib }).clearSave j.id
  j.caps.foldl (fun d c => if pteHot c.x.leaf then d.addShadow c.x.region c.x.base c.count else d) d

/-- A waiting or released task is cancelled: it never starts [17 R278]. -/
def Dev.cancelIdle (d : Dev) (j : Job) : Dev :=
  match j.st with
  | .waiting | .released => (d.finishJob j.id false true).showQueue j.region
  | .placed | .walkFault => (d.unplace j).finishJob j.id false true
  | _ => d

/-- TCANCEL on the tasks of a record: all of them stop, the record ends cancelled, and no successor is decremented any more
[17 R278]. -/
def Dev.cancelRec (d : Dev) (k : Nat) : Dev :=
  let d' := { d.dropDecs k with jobs := updWhere (fun j => j.recKey == k && !j.fin) (fun j => { j with cancelled := true }) d.jobs }
  (d'.batchOf k).foldl (fun d j => match j.st with
    | .waiting | .released | .placed | .walkFault => d.cancelIdle j
    | .running | .halting | .saved => (d.stopTask j.id).onJob j.id fun j => { j with st := .ending none true }
    | .ending _ _ | .finished _ => d) d

/-- Every strand of a task, and every thread that it spawned, has ended [17 R280]. -/
def Dev.threadsDone (d : Dev) (j : Job) : Bool :=
  (d.all.all fun st => !(st.task == j.id) && !(st.kind == .spawned && (lanesOf st.liveLanes).any fun l => (st.lane l).parent == j.id)) &&
  (d.regions.all fun r => r.trays.toList.all fun t => t.recs.all fun x => x.parent != j.id) &&
  !(d.saved.any fun x => x.job == j.id)

/-- What a task's end waits for: engine operations, stores and atomics on their way to peers; in deterministic mode, the ends of the
tasks before it in its batch [17 R280, R281]. -/
def Dev.endReady (d : Dev) (j : Job) : Bool :=
  d.threadsDone j && !(d.ops.any fun o => o.task == j.id) &&
  !(d.outTx.any fun t => t.owner.endTask t.tx.op == some j.id) && !(d.heldTx.any fun t => t.owner.endTask t.op == some j.id) &&
  (!(((d.region? j.region).map Region.det).getD false) || d.jobs.all fun x => x.batch != j.batch || decide (j.idx ≤ x.idx) || x.over)

/-- A fault report whose fault ended the fault task itself is only counted [21 R330]. -/
def Dev.reportEnd (d : Dev) (j : Job) (r : Report) : Dev :=
  match d.region? j.region with
  | none => d
  | some x =>
    if x.faulttask ≠ 0 ∧ ¬ j.fin ∧ d.recKey x.faultspace x.faulttask.toNat = some j.recKey then
      d.onRegion x.id fun x => { x with lost := (x.lost + 1) % 2 ^ 32 }
    else d.pushReport x.id r

/-- TASK_END: a task whose strands and threads have ended frees what it holds, its successors are decremented, and its
record's state becomes 4; a stopped task decrements none, and its report follows [17 R280, 21 R328]. -/
def execTaskEnd (tid : Nat) (s : State) : Out :=
  s.event fun d =>
    match d.job? tid with
    | none => d
    | some j =>
      if !d.endReady j then d else
      match j.st with
      | .running => (d.freeTask j).finishJob tid true false
      | .ending r cancel =>
        let d := (d.freeTask j).finishJob tid false cancel
        match r with
        | none => d
        | some r => d.reportEnd j r
      | _ => d

/-! ### Early triggering [06 R104, 17 R281] -/

/-- A strand has early-triggered: every present lane is marked or has exited [06 R104]. -/
def Strand.early (st : Strand) : Bool := (List.finRange 32).all fun l => !(st.lane l).present || (st.lane l).exited || (st.lane l).early

/-- A running task early-triggers: some lane has executed EARLYGO, and each strand has early-triggered or ended. -/
def Dev.triggers (d : Dev) (j : Job) : Bool :=
  j.st == .running && j.marked && !j.trig && !j.fin && d.all.all fun st => st.task != j.id || st.early

def Dev.trigJob (d : Dev) (j : Job) : Dev :=
  (d.onJob j.id fun j => { j with trig := true }).handBatch j

def Dev.triggerTick (d : Dev) : Dev := (d.jobs.filter d.triggers).foldl (fun d j => d.trigJob j) d

/-- EARLYGO marks its executing lanes [06 R104]. -/
def execEarlygo (h : Hdr) (s : State) : Out :=
  let s := s.writeLanes (s.exec h) fun _ x => { x with early := true }
  .next (if s.acts h then s.onDev fun d => d.onJob s.old.task fun j => { j with marked := true } else s)

/-! ### Fault reports [21 R329, R330] -/

/-- The 64 bytes of a report. -/
def Report.bytes (r : Report) (seq lost : Nat) : List Byte :=
  toBytes 1 r.code ++ toBytes 1 r.reason ++ toBytes 2 r.flags ++ toBytes 4 r.lanes.toNat ++ toBytes 8 r.task ++
  toBytes 8 r.object.toNat ++ toBytes 8 r.pc.toNat ++ toBytes 8 r.info.toNat ++ toBytes 2 r.core ++ toBytes 1 r.quad ++
  toBytes 1 r.strand ++ toBytes 4 r.taskidx ++ toBytes 8 r.detail.toNat ++ toBytes 4 seq ++ toBytes 4 lost

/-- FAULT_REPORT_DEQUEUE: a region's oldest report is written at its fault task's argument, and the fault task is taken
up, once its record is not in use [21 R330]. -/
def execFaultReportDequeue (rid : Nat) (s : State) : Out :=
  s.event fun d =>
    match d.region? rid with
    | none => d
    | some x =>
      match x.reports with
      | [] => d
      | r :: rest =>
        match d.recKey x.faultspace x.faulttask.toNat with
        | none => d.onRegion rid fun x => { x with reports := rest, lost := (x.lost + 1) % 2 ^ 32 }
        | some k =>
          let d := d.noteRead x.faultspace x.faulttask.toNat 64
          let st := d.recState k
          if st = 1 ∨ st = 2 ∨ st = 3 then d else
          let d := d.onRegion rid fun x => { x with reports := rest }
          let rva := d.num (k + 16) 8
          let space := if rva = 0 then rid else ((d.regionAt x.faultspace rva).map Region.id).getD rid
          let d := match d.schedWrite space (d.num (k + 8) 8) (r.bytes x.seq x.lost) with
            | none => d
            | some d => (d.onRegion rid fun x => { x with seq := (x.seq + 1) % 2 ^ 32, lost := 0 }).notify rid 0
          d.takeUp k x.faulttask.toNat x.faultspace 1 rid 256 0

/-! ### Placement [17 R284, R285] -/

/-- The strands of a task on a quadrant [09 R163]. -/
def strandsOn (n : Nat) (q : Fin 4) : Nat := ((List.range n).filter fun s => s % 4 == q.val).length

/-- The slots that placed tasks have reserved on a quadrant. -/
def Dev.reserved (d : Dev) (c : Fin 256) (q : Fin 4) : Nat :=
  ((d.jobs.filter fun j => j.core == c && (j.st == .placed || j.st == .walkFault)).map fun j => strandsOn j.strands q).sum

/-- The free strand slots of a quadrant; a launch walk's strand stands in its task's reserved slots. -/
def Dev.freeSlots (d : Dev) (c : Fin 256) (q : Fin 4) : Nat :=
  16 - ((d.all.filter fun st => st.core == c && st.quad == q && st.kind != .launchWalk).length + d.reserved c q)

/-- A KiB unit of a core's scratchpad is free. -/
def Core.kibFree (k : Core) (u : Nat) : Bool := !(k.scratch.any fun r => decide (r.base ≤ u) && decide (u < r.base + r.n))

/-- The lowest free run of n KiB of a core. -/
def Core.findKib (k : Core) (n : Nat) : Option Nat :=
  if n = 0 then some 0 else (List.range (1025 - n)).find? fun b => (List.range n).all fun i => k.kibFree (b + i)

/-- Room for slots and KiB in a region and its ancestors [17 R270]. -/
def Dev.roomFor (d : Dev) (region slots kib : Nat) : Bool :=
  (d.chain region).all fun r => match d.region? r with
    | none => true
    | some x => decide (x.useSlots + slots ≤ x.slots) && decide (x.useScratch + kib ≤ x.scratch)

/-- A task fits a core [17 R284]. -/
def Dev.fits (d : Dev) (j : Job) (c : Fin 256) : Bool :=
  ((List.finRange 4).all fun q => decide (strandsOn j.strands q ≤ d.freeSlots c q)) && ((d.core c).findKib j.scratch).isSome

/-- One level of the curve of R285. -/
def curveFrom : Nat → Nat → Nat → Nat → Nat → Nat × Nat
  | 0, _, _, x, y => (x, y)
  | n + 1, s, t, x, y =>
    let rx := t / 2 % 2
    let ry := (t ^^^ rx) % 2
    let (x, y) := if ry = 0 then (if rx = 1 then (s - 1 - y, s - 1 - x) else (y, x)) else (x, y)
    curveFrom n (2 * s) (t / 4) (x + s * rx) (y + s * ry)

/-- The core at a curve position [17 R285]. -/
def curveCore (d : Nat) : Fin 256 :=
  let (x, y) := curveFrom 4 1 (d % 256) 0 0
  Fin.ofNat 256 (16 * y + x)

/-- The lowest-numbered core that could hold a task when empty [17 R284, R285]. -/
def Dev.emptyCore (d : Dev) (j : Job) : Fin 256 :=
  if ((d.region? j.region).map Region.det).getD false then curveCore j.idx else 0

/-- The cores that a task may be placed on. -/
def Dev.coresFor (d : Dev) (j : Job) : List (Fin 256) :=
  if ((d.region? j.region).map Region.det).getD false then [curveCore j.idx] else List.finRange 256

def Dev.prioOf (d : Dev) (region : Nat) : Nat := ((d.region? region).map Region.prio).getD 0

/-- Another task, which has waited 1 ms, keeps later ones of no higher region priority off its core [17 R284]. -/
def Dev.keptOff (d : Dev) (j : Job) (c : Fin 256) : Bool :=
  d.jobs.any fun w => w.st == .released && w.over1ms && w.id != j.id && decide (w.rel.cycle < j.rel.cycle) &&
    (w.region == j.region || decide (d.prioOf j.region ≤ d.prioOf w.region)) && d.emptyCore w == c

/-- The core that a released task would take [17 R284]. -/
def Dev.coreFor (d : Dev) (j : Job) : Option (Fin 256) :=
  if d.roomFor j.region j.strands j.scratch then (d.coresFor j).find? fun c => d.fits j c && !d.keptOff j c else none

/-- The release cycle of the head of a region's ready queue. -/
def Dev.headCycle (d : Dev) (region : Nat) : Nat :=
  ((leastBy queueBefore (d.releasedJobs.filter fun j => j.region == region)).map fun j => j.rel.cycle).getD 0

/-- The order in which placement considers released tasks [17 R284]. -/
def Dev.placeBefore (d : Dev) (a b : Job) : Bool :=
  if a.region = b.region then queueBefore a b
  else if d.prioOf a.region ≠ d.prioOf b.region then decide (d.prioOf b.region < d.prioOf a.region)
  else if d.headCycle a.region ≠ d.headCycle b.region then decide (d.headCycle a.region < d.headCycle b.region)
  else decide (a.region < b.region)

/-- Free blocks outside the reserve hold a saved strand's blocks on the quadrants of a core [21 R340]. -/
def Dev.blocksFit (d : Dev) (x : Saved) (c : Fin 256) : Bool :=
  (List.finRange 4).all fun q => decide (((x.strands.filter fun st => st.quad == q).map Strand.blocks).sum ≤ (d.quad c q).free)

/-- A saved task's banks, where the save reclaimed them, are free on a core. -/
def Dev.banksFit (d : Dev) (x : Saved) (c : Fin 256) : Bool :=
  x.banks.all fun r => (List.range r.n).all fun i => (d.core c).bankFree (r.first + i)

/-- The slots that a saved task's strands need on a quadrant. -/
def Saved.needs (x : Saved) (q : Fin 4) : Nat := (x.strands.filter fun st => st.quad == q).length

/-- A task still holds scratchpad or banks on a core. -/
def Core.holdsOf (k : Core) (tid : Nat) : Bool := (k.scratch.any fun r => r.task == tid) || k.banks.any fun r => r.task == tid

/-- Room for what a saved task holds in its region and the region's ancestors [17 R270, 21 R340]. -/
def Dev.roomAgain (d : Dev) (j : Job) (x : Saved) : Bool :=
  let blocks := (x.strands.map Strand.blocks).sum
  let banks := (x.banks.map BankRun.n).sum
  d.roomFor j.region x.strands.length x.scratch && (d.chain j.region).all fun r => match d.region? r with
    | none => true
    | some y => decide (y.useBlocks + blocks ≤ y.blocks) && decide (y.useBanks + banks ≤ y.banks)

/-- The core on which a saved task can be restored: its own where it holds something there [21 R340]. -/
def Dev.restoreCore (d : Dev) (j : Job) (x : Saved) : Option (Fin 256) :=
  let cores := if (d.core j.core).holdsOf j.id then [j.core] else d.coresFor j
  if d.roomAgain j x then
    cores.find? fun c =>
      ((List.finRange 4).all fun q => decide (x.needs q ≤ d.freeSlots c q)) && ((d.core c).findKib x.scratch).isSome &&
      d.blocksFit x c && d.banksFit x c
  else none

/-- A saved task that can be restored is restored ahead of a released one of its region, or of a region of equal or lower
priority [21 R340]. -/
def Dev.waitsForRestore (d : Dev) (j : Job) : Bool :=
  d.saved.any fun x => match d.job? x.job with
    | none => false
    | some w => w.st == .saved && (d.restoreCore w x).isSome &&
        (w.region == j.region || decide (d.prioOf j.region ≤ d.prioOf w.region))

/-- The task that placement places next, with its core [17 R284]. -/
def Dev.nextPlaced (d : Dev) : Option (Job × Fin 256) :=
  let fit := d.releasedJobs.filter fun j => (d.coreFor j).isSome && !d.waitsForRestore j
  match leastBy d.placeBefore fit with
  | none => none
  | some j => (d.coreFor j).map fun c => (j, c)

/-- A task is placed: its core's slots are reserved, its scratchpad is allocated and zeroed [13 R202, 17 R276]. -/
def Dev.placeJob (d : Dev) (j : Job) (c : Fin 256) : Dev :=
  let base := ((d.core c).findKib j.scratch).getD 0
  let d := d.onJob j.id fun j => { j with st := .placed, core := c, sbase := base, caps := [], walkAt := (0, 0) }
  let d := d.showQueue j.region
  let d := d.updChain j.region fun r => { r with useSlots := r.useSlots + j.strands, useScratch := r.useScratch + j.scratch }
  if j.scratch = 0 then d
  else
    (d.onCore c fun k => { k with scratch := k.scratch ++ [{ base := base, n := j.scratch, task := j.id }] }).zeroRange
      (Key.scratch c (base * 1024)) (j.scratch * 1024)

/-- TASK_PLACEMENT: the next task that fits is placed [17 R284, R285]. -/
def execTaskPlacement (tid : Nat) (s : State) : Out :=
  s.event fun d =>
    match d.nextPlaced with
    | none => d
    | some (j, c) => if j.id = tid then (d.placeJob j c).planSomeday (.taskLaunch tid) else d

/-- PLACEMENT_WAIT_LIMIT: a task that fits nowhere has waited 1 ms [17 R284]. -/
def execPlacementWaitLimit (tid : Nat) (s : State) : Out :=
  s.event fun d => d.onJob tid fun j => if j.st = .released then { j with over1ms := true } else j

/-! ### The launch walk and the launch [13 R210; 17 R276; 01 R10; 09 R163, R164] -/

/-- A fault of the launch walk: code, reason, level, access, the page's address. -/
structure WalkFail where
  fail : Fail
  acc  : Access
  deriving DecidableEq, Repr

/-- The address of the page that a walk of an address comes to: of the size of the leaf that it reaches, or of 64 KiB
[13 R204, R208]. -/
def Dev.pageOf (d : Dev) (r : Region) (va : Nat) : Nat :=
  let reads := d.walkReads va 4 0 r.ptbase.toNat
  let size := match reads.getLast? with
    | some e => if Mem.num d.mem e.key 8 % 4 = 3 then pageSize (reads.length - 1) else 2 ^ 16
    | none => 2 ^ 16
  va / size * size

/-- One page of a range is checked and captured, up to the end of the range; a fault names the page's address
[13 R206, R208, R210]. -/
def Dev.capturePage (d : Dev) (r : Region) (x : LeaseRange) (va : Nat) : Except WalkFail Xlat :=
  let page := d.pageOf r va
  if !canonical va then .error { fail := Fail.mk' 0x10 1 0 (va / 2 ^ 16 * 2 ^ 16), acc := .read } else
  match d.walk r va with
  | .error e => .error { fail := { e with va := page }, acc := .read }
  | .ok t =>
    let last := min (x.base + x.len) (va + (t.size - va57 va % t.size)) - 1
    if !leafInRange t last then .error { fail := Fail.mk' 0x10 3 (leafLevel t) page, acc := .read }
    else if x.r && !grants t.leaf .read then .error { fail := Fail.mk' 0x11 0 (leafLevel t) page, acc := .read }
    else if x.w && !grants t.leaf .write then
      .error { fail := Fail.mk' 0x11 0 (leafLevel t) page, acc := if grants t.leaf .read then .write else .read }
    else .ok t

/-- The pages of the i-th range from an address on are captured, but for the scratchpad window's, where a range has no
effect; the address where a fault is met [13 R209, R210]. -/
def Dev.captureRange (d : Dev) (r : Region) (i : Nat) (x : LeaseRange) :
    Nat → Nat → List Capture → List Capture × Nat × Option WalkFail
  | 0, va, caps => (caps, va, none)
  | n + 1, va, caps =>
    if x.base + x.len ≤ va then (caps, va, none)
    else if inScratch va then d.captureRange r i x n (scratchBase + 2 ^ 32) caps
    else
      match d.capturePage r x va with
      | .error e => (caps, va, some e)
      | .ok t => d.captureRange r i x n (va + (t.size - va57 va % t.size)) (caps ++ [{ range := i, x := t, count := 0 }])

/-- The ranges from one on are captured, the first from an address. -/
def Dev.captureFrom (d : Dev) (r : Region) : List LeaseRange → Nat → Nat → List Capture → List Capture × (Nat × Nat) × Option WalkFail
  | [], i, _, caps => (caps, (i, 0), none)
  | x :: xs, i, va, caps =>
    let start := if va = 0 then x.base else va
    match d.captureRange r i x (x.len / 2 ^ 16 + 2) start caps with
    | (caps, at_, some e) => (caps, (i, at_), some e)
    | (caps, _, none) => d.captureFrom r xs (i + 1) 0 caps

/-- The lowest free slot of a quadrant [09 R163]. -/
def Dev.lowSlot (d : Dev) (c : Fin 256) (q : Fin 4) : Fin 16 :=
  ((List.finRange 16).find? fun i => !(d.all.any fun st => st.core == c && st.quad == q && st.slot == i)).getD 0

/-- A strand as it starts on a quadrant of a core for a region [01 R10, R12]. -/
def Dev.newStrand (d : Dev) (kind : StrandKind) (r : Region) (c : Fin 256) (q : Fin 4) (threads : Nat) (entry : W64) : Strand :=
  { Strand.idle with
    id := d.next, kind := kind, region := r.id, core := c, quad := q, slot := d.lowSlot c q, launched := d.cycle
    rcbbase := BitVec.ofNat 64 r.id, det := r.det, traytimer := r.traydef
    lanes := Vector.ofFn fun l => { Lane.start with present := decide (l.val < threads) }
    frags := Strand.idle.frags.set 0 (some (Frag.start (maskOf fun l => decide (l.val < threads)) entry)) }

/-- Alignment at a strand start ends the task [02 R22, 21 R323]. -/
def startTrap (st : Strand) (entry : W64) : Trap :=
  { Trap.user 0x05 st.liveLanes entry with flags := 8, repPc := some entry }

/-- The strand takes its place; where its entry is no multiple of 12, the start fails [02 R22, 21 R323]. -/
def Dev.startStrand (d : Dev) (st : Strand) (entry : W64) : Dev :=
  let d := { d.bump with strands := d.strands ++ [st] }
  if entry.toNat % 12 = 0 then d
  else
    (List.range 32).foldl (fun d _ => match d.strand? st.id with
      | none => d
      | some x => (d.bring st.id).deliver 0 (startTrap x entry)) d

/-- The strands of a task are launched, strand s on quadrant s mod 4 [09 R163, R164]; the slots of those that a failed
start keeps from launching fall back. -/
def Dev.launchStrands (d : Dev) (j : Job) (r : Region) : List Nat → Dev
  | [] => d
  | s :: ss =>
    let q : Fin 4 := Fin.ofNat 4 s
    let st := d.newStrand (if j.fin then .finaliser else .task) r j.core q j.threads j.entry
    let st := ({ st with task := j.id, strandid := BitVec.ofNat 32 s, taskidx := BitVec.ofNat 32 j.idx
                         batchn := BitVec.ofNat 32 j.n, leasebase := j.lease }).wkpair 0 j.arg
    let d := if (d.job? j.id).any fun x => x.st == .running then d.startStrand st j.entry
      else d.updChain j.region fun r => { r with useSlots := r.useSlots - 1 }
    d.launchStrands j r ss

/-- The launch-walk's system strand: one lane, at the system handler, at system level [13 R210]; DESIGN CHOICE (log 54): on
quadrant 0. -/
def Dev.walkStrand (d : Dev) (j : Job) (r : Region) (e : WalkFail) : Dev :=
  let st := d.newStrand .launchWalk r j.core 0 1 d.sysEntry
  let t := e.fail.trap e.acc 1 1
  let f := { Frag.start 1 d.sysEntry with prv := true, walkAt := some d.cycle, syscause := t.cause, sysinfo := t.info }
  let st := { st with task := j.id, frags := st.frags.set 0 (some f) }
  { d.bump with strands := d.strands ++ [st] }

/-- What HALT in a launch walk's handler would report [13 R210, 21 R329]. -/
def walkReport (j : Job) (e : WalkFail) : Report :=
  let t := e.fail.trap e.acc 1 1
  { (t.report Strand.idle 0) with task := j.recVa, core := j.core.val, taskidx := j.idx }

/-- A launch walk's strand of a task is still there. -/
def Dev.walking (d : Dev) (tid : Nat) : Bool := d.all.any fun st => st.task == tid && st.kind == .launchWalk

/-- A placed task ends without starting, with the report of its launch walk's fault [13 R210; 21 R323, R325]. -/
def Dev.noStart (d : Dev) (j : Job) (e : WalkFail) : Dev :=
  (d.unplace j).onJob j.id fun j => { j with st := .ending (some (walkReport j e)) false }

/-- So it does where the walk reads a table entry with an uncorrectable error [21 R335, R336]. -/
def Dev.lostWalk (d : Dev) (j : Job) (e : WalkFail) : Dev := (d.countUnc.countMchk j.core).noStart j e

/-- TASK_LAUNCH: the lease unit walks the task's ranges; when every page is captured, the strands launch and the record's
state becomes 3; a fault starts a system strand instead [13 R210, 17 R276]. -/
def execTaskLaunch (tid : Nat) (s : State) : Out :=
  s.event fun d =>
    match d.job? tid with
    | none => d
    | some j =>
      match d.region? j.region with
      | none => d
      | some r =>
        if (j.st = .placed ∨ j.st = .walkFault) ∧ ¬ d.walking tid then
          let ranges := if j.fin then [] else j.leases ++ r.leases
          let (caps, at_, e) := d.captureFrom r (ranges.drop j.walkAt.1) j.walkAt.1 j.walkAt.2 j.caps
          let walked := (caps.drop j.caps.length).map (fun c => c.x.base) ++ if e.isSome then [at_.2] else []
          let d := (walked.foldl (fun d va => d.correctWalk r va) d).onJob tid fun j => { j with caps := caps, walkAt := at_ }
          match e with
          | some e =>
            if e.fail.code = 0x21 then d.lostWalk j e
            else if d.sysEntry = 0 ∨ r.sysEnds then d.noStart j e
            else (d.onJob tid fun j => { j with st := .walkFault }).walkStrand j r e
          | none =>
            let d := (d.onJob tid fun j => { j with st := .running }).setJobState j 3
            d.launchStrands j r (List.range j.strands)
        else d

end Sys2Proof.Machine
end

