-- ==== Sys2Proof/Machine/Tasks.lean ====
section
/-! DEFINITION. The words and events of tasks, regions, trays and the intake ring [17 R274-R288]. -/

namespace Sys2Proof.Machine

/-! ### Launch and dependence words [17 R274-R278] -/

/-- The records that the executing lanes name: alignment, the access checks, the atomic class at device scope; the word
goes on with each lane's record key [17 R274]. -/
def State.reachRecs (s : State) (ex : W32) (a : GReg) (size : Nat) (k : List (LaneId × Nat) → State → Out) : Out :=
  let ea (l : LaneId) : W64 := (s.old.lane l).rpair a
  let rs := withClass .dv true ea (s.accessLanes ex .atomic ea size)
  match s.misaligned ex size ea, laneFault .atomic (failsOf rs) with
  | some t, _ => .next (s.trap t)
  | none, some t => .next (s.trap t)
  | none, none => k ((oksOf rs).map fun x => (x.1, keyOf x.2)) (s.touchLanes (oksOf rs))

/-- A record is taken up by a lane's word [17 R275]. -/
def State.takeUpBy (s : State) (a : GReg) (n : LaneId → Nat) (recs : List (LaneId × Nat)) (d : Dev) : Dev :=
  recs.foldl (fun d x =>
    d.takeUp x.2 ((s.old.lane x.1).rpair a).toNat s.old.region (n x.1) s.old.region s.old.core.val x.1.val) d

def execTnew (h : Hdr) (a : GReg) (s : State) : Out :=
  s.reachRecs (s.exec h) a 64 fun recs t => .next (t.onDev fun d => s.takeUpBy a (fun _ => 1) recs d)

def execTnewn (h : Hdr) (a b : GReg) (s : State) : Out :=
  s.reachRecs (s.exec h) a 64 fun recs t => .next (t.onDev fun d => s.takeUpBy a (fun l => ((s.old.lane l).rg b).toNat) recs d)

def execTcancel (h : Hdr) (a : GReg) (s : State) : Out :=
  s.reachRecs (s.exec h) a 64 fun recs t => .next (t.onDev fun d => recs.foldl (fun d x => d.cancelRec x.2) d)

/-- The lanes' counter updates in order, with the lanes that raised dependence underflow [17 R277]. -/
def Dev.depLanes (d : Dev) (f : Dev → LaneId → Nat → Dev × Bool) : List (LaneId × Nat) → Dev × List LaneId
  | [] => (d, [])
  | (l, k) :: rest =>
    let (d, ok) := f d l k
    let (d, bad) := d.depLanes f rest
    (d, if ok then bad else l :: bad)

/-- A counter word: every update stands; an underflow then ends the issuing task [17 R277]. -/
def depWord (h : Hdr) (a : GReg) (reason : Nat) (f : Dev → LaneId → Nat → Dev × Bool) (s : State) : Out :=
  s.reachRecs (s.exec h) a 64 fun recs t =>
    let (d, bad) := t.now.depLanes f recs
    if bad.isEmpty then .next { t with now := d }
    else
      let lanes := maskOf fun l => bad.contains l
      let va := (s.old.lane (lowLane lanes)).rpair a
      let trap := { Trap.user 0x18 lanes 0 with
        reason := reason, object := va, cause := BitVec.ofNat 32 (0x18 + reason * 2 ^ 12) }
      let base := { s.start with fresh := t.now.fresh, seq := t.now.seq }
      .next ({ s with start := (base.depLanes f recs).1 }.trap trap)

def execDepdec (h : Hdr) (a : GReg) (s : State) : Out :=
  depWord h a 0 (fun d l k => d.decrement k s.old.core.val l.val) s

/-- DEPADD's step: the counter stops at 0xFFFF. -/
def Dev.depAdd (d : Dev) (k n : Nat) : Dev × Bool :=
  let c := d.counter k + n
  if c ≤ 0xFFFF then (d.setCounter k c, true) else (d.setCounter k 0xFFFF, false)

def execDepadd (h : Hdr) (a b : GReg) (s : State) : Out :=
  depWord h a 1 (fun d l k => d.depAdd k (((s.old.lane l).rg b).toNat % 2 ^ 16)) s

/-- DEPGET: the record's state, in three bits, and its counter, as a variable-latency result [17 R277]. -/
def execDepget (h : Hdr) (a b : GReg) (s : State) : Out :=
  let ex := s.exec h
  s.reachRecs ex a 64 fun recs t =>
    .next (t.arriveLater ex ((lanesOf ex).map fun l => .g l b)
      (recs.map fun x => .g x.1 b (BitVec.ofNat 32 (t.now.recState x.2 % 8 * 2 ^ 16 + t.now.counter x.2))))

/-! ### Parures as regions see them [19 R308-R310] -/

/-- A byte range that the scheduler reads through a space, eight-byte aligned words at a time, is zero. -/
def Dev.zeroAt (d : Dev) (space va n : Nat) : Bool := (List.range n).all fun i => d.schedNum space (va + i) 1 == some 0

/-- The parts of a range of addresses in their 64 KiB blocks, with what each address leads to. -/
def blockParts {α : Type} (look : Nat → α) : Nat → Nat → Nat → List (α × Nat)
  | 0, _, _ => []
  | n + 1, va, len =>
    if len = 0 then [] else
    let part := min len (2 ^ 16 - va % 2 ^ 16)
    (look va, part) :: blockParts look n ((va + part) % 2 ^ 64) (len - part)

/-- The bytes of a range as far as its pages are mapped, with their leaves. -/
def Dev.mappedRuns (d : Dev) (space va len : Nat) : List (Run × W64) :=
  (blockParts (d.placed space) (len / 2 ^ 16 + 2) va len).filterMap fun x => x.1.map fun y => ({ key := y.1, len := x.2 }, y.2)

/-- Every mapped page of a range is of a kind that a test allows. -/
def Dev.kindsAre (d : Dev) (space va len : Nat) (ok : Nat → Bool) : Bool := (d.mappedRuns space va len).all fun x => ok (pteKind x.2)

/-- One layer entry keeps R309. DEDUCED (log 23): a page that is not mapped breaks no rule yet; the fetch's start judges
it [19 R312]. -/
def Dev.layerFormed (d : Dev) (space va : Nat) : Bool :=
  (match d.schedNum space va 8, d.schedNum space (va + 8) 8, d.schedNum space (va + 16) 8 with
   | some src, some size, some dst =>
     decide (1 ≤ size ∧ size ≤ 2 ^ 40) && dst % 256 == 0 &&
     d.kindsAre space src size (fun k => k != 0) && d.kindsAre space dst size (fun k => k == 0)
   | _, _, _ => false) && d.zeroAt space (va + 24) 4 && d.zeroAt space (va + 48) 16

/-- Where the layers of a parure go: the mapped bytes of their destinations. -/
def Dev.layerTargets (d : Dev) (space va : Nat) : List Run :=
  (List.range ((d.schedNum space va 4).getD 0)).flatMap fun i =>
    match d.schedNum space (va + 64 + 64 * i + 8) 8, d.schedNum space (va + 64 + 64 * i + 16) 8 with
    | some size, some dst => (d.mappedRuns space dst size).map Prod.fst
    | _, _ => []

/-- A parure's destinations meet those of another region's parure [19 R309]. -/
def Dev.paruresMeet (d : Dev) (k space va : Nat) : Bool :=
  let mine := d.layerTargets space va
  d.regions.any fun r => r.parure != 0 && r.id != k && (d.layerTargets r.space r.parure).any fun x => mine.any fun y => x.meets y

/-- A parure extension keeps R308 and R309. -/
def Dev.parureFormed (d : Dev) (space va : Nat) : Bool :=
  va % 64 == 0 &&
  (match d.schedNum space va 4, d.schedNum space (va + 4) 1, d.schedNum space (va + 12) 4 with
   | some n, some p, some w =>
     decide (1 ≤ n ∧ n ≤ 4096 ∧ p < 32 ∧ 1 ≤ w ∧ w ≤ n) && d.kindsAre space va (64 + 64 * n) (fun k => k == 0) &&
     (List.range n).all fun i => d.layerFormed space (va + 64 + 64 * i)
   | _, _, _ => false) &&
  d.zeroAt space (va + 5) 7 && d.zeroAt space (va + 16) 48

/-- The layer count of a parure. -/
def Dev.layerCount (d : Dev) (r : Region) : Nat := if r.parure = 0 then 0 else (d.schedNum r.space r.parure 4).getD 0

/-- A field of a layer entry is written. -/
def Dev.layerPut (d : Dev) (r : Region) (layer off n v : Nat) : Dev :=
  (d.schedWrite r.space (r.parure + 64 + 64 * layer + off) (toBytes n v)).getD d

/-- A layer's range is bound no longer. Of each byte that its fetch wrote, the fetched value or the one before it stays, by
an open choice: the range reads as unspecified bytes of its history [19 R311] (log 11). -/
def Dev.unbindLayer (d : Dev) (region layer : Nat) : Dev :=
  match d.clasps.find? fun c => c.name == .layer region layer with
  | none => d
  | some c =>
    let d := { d with clasps := d.clasps.filter fun x => x.name != .layer region layer }
    c.log.foldl (fun d w =>
      (w.bytes.zipIdx.foldl (fun (d : Dev) x =>
        if (c.runs.any fun r => r.has (w.key + x.2)) && (Config.freeByte d.fresh x.2).getLsbD 0 then d.store (w.key + x.2) [x.1] else d) d).drew) d

/-- A parure region has ended: every layer is ABSENT, and its fetches are discarded [19 R310]. -/
def Dev.endParure (d : Dev) (r : Region) : Dev :=
  let n := d.layerCount r
  let d := (List.range n).foldl (fun d j => (d.layerPut r j 24 1 0).unbindLayer r.id j) d
  { d with fetches := d.fetches.filter fun f => f.region != r.id, evicts := d.evicts.filter fun e => e.1 != r.id
           swapq := d.swapq.filter fun q => q.region != r.id, swapFail := d.swapFail.filter fun x => x.1 != r.id }

/-! ### Regions in motion [17 R269, R270, R279] -/

/-- A software field of an RCB, or the parent's value where it is 0. -/
def orParent (v p : Nat) : Nat := if v = 0 then p else v

/-- The software fields of an RCB that must be zero: those of the root alone [17 R269, R279]. -/
def rcbZero : List (Nat × Nat) := [(144, 12)]

/-- An RCB breaks a rule of R279 or R310. -/
def Dev.badRcb (d : Dev) (k space : Nat) (parent : Option Region) : Bool :=
  let modes := d.num (k + 29) 1
  let parure := d.num (k + 56) 8
  (match parent with
   | none => true
   | some p => !p.live || decide (8 ≤ p.depth)) ||
  decide (16 < d.num (k + 28) 1 ∨ 64 ≤ modes ∨ modes % 4 = 3 ∨ modes / 4 % 4 = 3 ∨ modes / 16 % 4 = 3) ||
  (rcbZero.any fun x => (Mem.read d.mem (k + x.1) x.2).any fun b => b != 0) ||
  (d.readLeases space (d.num (k + 48) 8)).isNone ||
  (parure != 0 && (!d.parureFormed space parure || d.paruresMeet k space parure))

/-- The region that an RCB makes, with its effective values [17 R270]. -/
def Dev.newRegion (d : Dev) (k va space : Nat) (p : Region) : Region :=
  let f4 (off : Nat) : Nat := d.num (k + off) 4
  let f8 (off : Nat) : Nat := d.num (k + off) 8
  let modes := d.num (k + 29) 1
  let budget (off mine : Nat) : Nat := min (orParent (f4 off) mine) mine
  { Region.root with
    id := k, va := va, space := space, parent := p.id, live := true, depth := p.depth + 1
    slots := budget 8 p.slots, blocks := budget 12 p.blocks, banks := budget 16 p.banks, scratch := budget 20 p.scratch
    carat := BitVec.ofNat 32 (orParent (f4 24) p.carat.toNat)
    prio := if d.num (k + 28) 1 = 0 then p.prio else d.num (k + 28) 1 - 1
    faulting := if modes % 4 = 0 then p.faulting else modes % 4 == 2
    det := if modes / 4 % 4 = 0 then p.det else modes / 4 % 4 == 2
    sysEnds := if modes / 16 % 4 = 0 then p.sysEnds else modes / 16 % 4 == 2
    handler := if f8 32 = 0 then p.handler else BitVec.ofNat 64 (f8 32)
    faulttask := if f8 40 = 0 then p.faulttask else BitVec.ofNat 64 (f8 40)
    faultspace := if f8 40 = 0 then p.faultspace else space
    leases := if f8 48 = 0 then p.leases else (d.readLeases space (f8 48)).getD []
    parure := f8 56
    ptbase := if f8 64 = 0 then p.ptbase else BitVec.ofNat 64 (f8 64)
    hotbase := if f8 72 = 0 then p.hotbase else BitVec.ofNat 64 (f8 72)
    traydef := if f4 164 = 0 then p.traydef else BitVec.ofNat 32 (f4 164) }

/-- The fragments that wait for something go on. -/
def Dev.wakeAll (d : Dev) (p : Strand → Wait → Bool) : Dev :=
  d.all.foldl (fun d st => st.live.foldl (fun d x => match x.2.st with
    | .parked w _ => if p st w then d.wakeFrag st.id x.1 else d
    | .ready => d) d) d

/-- An RCB is linked live, or refused; `dflt` is the parent where its field is 0 [17 R279]. -/
def Dev.linkRcb (d : Dev) (k va space : Nat) : Dev :=
  let pva := d.num k 8
  let parent : Option Region := if pva = 0 then d.region? space else d.regionAt space pva
  match parent with
  | none => d.schedPut (k + 30) 1 3
  | some p =>
    if d.badRcb k space parent then d.schedPut (k + 30) 1 3
    else
      let r := d.newRegion k va space p
      let d := { d with regions := d.regions ++ [r] }
      let d := (d.schedPut (k + 30) 1 1).schedPut (k + 31) 1 r.depth
      (d.writeRcb k).updRegion p.id fun p => { p with children := p.children + 1 }

/-- The scheduler reads an RCB that it is to link, its lease list and its parure: single-bit errors are corrected and
counted [21 R334]. -/
def Dev.noteRcb (d : Dev) (k space : Nat) : Dev :=
  let parure := d.num (k + 56) 8
  let d := (d.noteKey k 256).noteList space (d.num (k + 48) 8) 16 8
  if parure = 0 then d else d.noteRead space parure (64 + 64 * min 4096 ((d.schedNum space parure 4).getD 0))

/-- REGION_LINK: the scheduler links or refuses an RCB; the RGNEW that waits for it goes on, and so does the intake [17
R279, R288]. -/
def execRegionLink (rcb : Nat) (s : State) : Out :=
  s.event fun d =>
    match d.links.find? fun x => x.1 == rcb with
    | none => d
    | some (k, va, space) =>
      let d := { d with links := d.links.filter fun x => x.1 != rcb }
      let d := if d.num (k + 30) 1 = 0 then (d.noteRcb k space).linkRcb k va space else d
      let d := if d.intake = some rcb then { d with intake := none } else d
      d.wakeAll fun _ w => w == .rgnew rcb

/-- The operands of a region word, which acts once, for its lowest executing lane [17 R274]. -/
def State.reachRcb (s : State) (h : Hdr) (a : GReg) (k : Nat → Nat → State → Out) : Out :=
  if !s.acts h then .next s else
  let l := s.low h
  s.reachRecs (oneLane l) a 256 fun recs t => k ((recs.map Prod.snd).headD 0) ((s.old.lane l).rpair a).toNat t

def execRgnew (h : Hdr) (a : GReg) (s : State) : Out :=
  s.reachRcb h a fun k va t =>
    if t.now.num (k + 30) 1 ≠ 0 then .next t
    else .next ((t.onDev fun d => { d with links := d.links ++ [(k, va, s.old.region)] }).setWait (.rgnew k))

/-- RGEND: a live region ends; waiting and released tasks of it are cancelled. A finaliser is waited for [17 R279,
19 R302]. -/
def Dev.endRegion (d : Dev) (k : Nat) : Dev :=
  match d.region? k with
  | none => d
  | some r =>
    if k = d.rootRcb ∨ ¬ r.live then d
    else
      let d := (d.onRegion k fun r => { r with live := false }).schedPut (k + 30) 1 2
      (d.jobs.filter fun j => j.region == k && !j.fin).foldl (fun d j => d.cancelIdle j) d

def execRgend (h : Hdr) (a : GReg) (s : State) : Out := s.reachRcb h a fun k _ t => .next (t.onDev fun d => d.endRegion k)

/-- RGPRI: a live region's priority, from the next cycle [17 R279]. -/
def execRgpri (h : Hdr) (a b : GReg) (s : State) : Out :=
  let v := ((s.old.lane (s.low h)).rg b).toNat % 16
  s.reachRcb h a fun k _ t => .next (t.onDev fun d => d.onRegion k fun r => if r.live then { r with prioNext := some v } else r)

/-- The priorities that were set in this cycle hold from the next. -/
def Dev.prioTick (d : Dev) : Dev :=
  { d with regions := d.regions.map fun r => { r with prio := r.prioNext.getD r.prio, prioNext := none } }

/-- An ending region has no live task and no child. -/
def Dev.regionDone (d : Dev) (rid : Nat) : Bool :=
  match d.region? rid with
  | none => false
  | some r => !r.live && r.livetasks == 0 && r.children == 0

/-- REGION_END_COMPLETION: the region is unlinked, and its state is 0 [17 R279]. DESIGN CHOICE (log 16): translations that are
held under its RCB's address stay, and serve a region that is linked there again. -/
def execRegionEndCompletion (rid : Nat) (s : State) : Out :=
  s.event fun d =>
    match d.region? rid with
    | none => d
    | some r =>
      if !d.regionDone rid then d
      else
        let d := d.endParure r
        let d := d.schedPut (rid + 30) 1 0
        let d := d.updRegion r.parent fun p => { p with children := p.children - 1 }
        let d := d.notify rid 2
        { d with regions := d.regions.filter fun x => x.id != rid }

/-! ### Spawned threads [17 R286, R287] -/

/-- A record for a tray: the lane, the entry, the argument, the task that the thread is a child of. -/
structure SpawnRec where
  entry  : W64
  arg    : W64
  parent : Nat
  deriving DecidableEq, Repr

/-- A tray takes a record: it is bound to the entry, and in deterministic mode to the task [17 R286]. -/
def Tray.takes (t : Tray) (det : Bool) (x : SpawnRec) : Bool :=
  !t.recs.isEmpty && t.entry == x.entry && (!det || t.task == x.parent)

/-- The tray for a record: one bound to it, otherwise the lowest empty one. -/
def Region.trayFor (r : Region) (x : SpawnRec) : Option (Fin 16) :=
  match (List.finRange 16).find? fun i => (r.trays[i]).takes r.det x with
  | some i => some i
  | none => (List.finRange 16).find? fun i => (r.trays[i]).recs.isEmpty

/-- A record enters a tray. -/
def Tray.add (t : Tray) (x : SpawnRec) (due : Nat) (now : Bool) : Tray :=
  let first := t.recs.isEmpty
  let recs := t.recs ++ [{ arg := x.arg, parent := x.parent, due := due }]
  { entry := x.entry, task := x.parent, due := if first then due else t.due, recs := recs
    full := (if first then now else t.full || (t.due == 0 && now)) || decide (32 ≤ recs.length) }

/-- A tray's timer is to expire: not before it has passed, in an open cycle from then on (log 8) [17 R287]. -/
def Dev.planTray (d : Dev) (rid : Nat) (i : Fin 16) (due : Nat) : Dev :=
  (d.plan (max due (d.cycle + 1) + Config.freeLatency d.fresh) (.trayTimerExpiry rid i)).drew

/-- The records enter the region's trays in order; none where some record finds no tray. The timer of a tray starts with
its first record [17 R287]. -/
def Dev.addRecs (d : Dev) (rid : Nat) (timer : W32) : List SpawnRec → Option Dev
  | [] => some d
  | x :: xs =>
    match d.region? rid with
    | none => some d
    | some r =>
      match r.trayFor x with
      | none => none
      | some i =>
        let first := (r.trays[i]).recs.isEmpty
        let timed := !r.det && timer != 0
        let due := if timed then d.cycle + nsCycles timer.toNat else 0
        let d := d.onRegion rid fun r => { r with trays := updV r.trays i fun t => t.add x due (!r.det && timer == 0) }
        (if first && timed then d.planTray rid i due else d : Dev).addRecs rid timer xs

/-- SPAWN: each executing lane makes a thread record; where a tray is lacking the fragment parks first [17 R286]. -/
def execSpawn (h : Hdr) (a b : GReg) (s : State) : Out :=
  let st := s.old
  let recs := (lanesOf (s.exec h)).map fun l =>
    ({ entry := (st.lane l).rpair a, arg := (st.lane l).rpair b, parent := st.laneTask l } : SpawnRec)
  .next (match s.now.addRecs st.region st.traytimer recs with
    | some d => { s with now := d }
    | none => s.setBlock .spawn)

/-- The lowest core, and its lowest quadrant, with a free strand slot. -/
def Dev.freeQuad (d : Dev) : Option (Fin 256 × Fin 4) :=
  (List.finRange 256).findSome? fun c =>
    ((List.finRange 4).find? fun q => decide (0 < d.freeSlots c q)).map fun q => (c, q)

/-- The lanes of a spawned strand: lane i receives record i in g0:g1 [01 R10, 17 R287]. -/
def spawnLanes (recs : List TrayRec) : Vector Lane 32 :=
  Vector.ofFn fun l => match recs[l.val]? with
    | none => Lane.start
    | some r => { (Lane.start.wpair 0 r.arg) with present := true, parent := r.parent }

/-- A tray that is due launches a strand of up to 32 records, where a slot and the budget have room [17 R287]. -/
def Dev.launchTray (d : Dev) (rid : Nat) (i : Fin 16) : Dev :=
  match d.region? rid, d.freeQuad with
  | some r, some (c, q) =>
    let t := r.trays[i]
    if t.recs.isEmpty || !d.roomFor rid 1 0 then d
    else
      let recs := t.recs.take 32
      let rest := t.recs.drop 32
      let due := (rest.head?.map TrayRec.due).getD 0
      let left : Tray := if rest.isEmpty then Tray.start
        else { t with recs := rest, due := due, full := decide (32 ≤ rest.length) || (!r.det && due == 0) }
      let d := d.onRegion rid fun r => { r with trays := r.trays.set i left }
      let d := if due = 0 then d else d.planTray rid i due
      let st := { d.newStrand .spawned r c q recs.length t.entry with lanes := spawnLanes recs }
      (d.updChain rid fun r => { r with useSlots := r.useSlots + 1 }).startStrand st t.entry
  | _, _ => d

/-- The strands of a task have all ended while it still has records in a tray [17 R287]. -/
def Dev.strandsDone (d : Dev) (tid : Nat) : Bool :=
  ((d.job? tid).map fun j => j.st == .running).getD true && d.all.all fun st => st.task != tid

/-- Trays that are due launch [17 R287]. -/
def Dev.trayTick (d : Dev) : Dev :=
  d.regions.foldl (fun d r => (List.finRange 16).foldl (fun d i =>
    let t := r.trays[i]
    if !t.recs.isEmpty && (t.full || t.recs.any fun x => d.strandsDone x.parent) then d.launchTray r.id i else d) d) d

/-- TRAY_TIMER_EXPIRY: the time since the tray's first record has passed, and it launches a strand [17 R287]. -/
def execTrayTimerExpiry (rid : Nat) (tray : Fin 16) (s : State) : Out :=
  s.event fun d =>
    match d.region? rid with
    | none => d
    | some r =>
      let t := r.trays[tray]
      if t.due ≠ 0 ∧ t.due ≤ d.cycle ∧ ¬ r.det then
        (d.onRegion rid fun r => { r with trays := updV r.trays tray fun t => { t with full := true } }).launchTray rid tray
      else d

/-! ### The intake ring [17 R288] -/

def Dev.intakeTail (d : Dev) : Nat := d.num (d.rootRcb + 156) 4
def Dev.intakeHead (d : Dev) : Nat := d.num (d.rootRcb + 160) 4

/-- The intake may take an entry: it waits for no link and is not stopped at one. -/
def Dev.intakeOpen (d : Dev) : Bool := d.intake.isNone && !d.stall && d.intakeHead != d.intakeTail

/-- The position of the next entry in the ring. -/
def Dev.intakePos (d : Dev) : Nat := d.intakeHead % d.num (d.rootRcb + 152) 4

/-- The next entry; none where its slot does not translate with R. -/
def Dev.intakeEntry (d : Dev) : Option Nat := d.schedNum d.rootRcb (d.num (d.rootRcb + 144) 8 + 8 * d.intakePos) 8

/-- What the scheduler does with an entry. -/
inductive Entry where
  | task (va n : Nat)
  | rgend (va : Nat)
  | rgnew (va : Nat)
  | skip
  deriving DecidableEq, Repr

def entryOf (e : Nat) : Entry :=
  let v := e % 64
  let va := e / 64 * 64
  if e = 0 then .skip
  else if v ≤ 20 then .task va (2 ^ v)
  else if va % 256 ≠ 0 then .skip
  else if v = 62 then .rgend va
  else if v = 63 then .rgnew va
  else .skip

/-- The head moves past an entry. -/
def Dev.intakeNext (d : Dev) : Dev := d.schedPut (d.rootRcb + 160) 4 ((d.intakeHead + 1) % 2 ^ 32)

/-- The scheduler reads the ring's fields, an entry, and the tables to what it names: single-bit errors are corrected and
counted [21 R334]. -/
def Dev.noteIntake (d : Dev) (e : Entry) : Dev :=
  let at_ := d.num (d.rootRcb + 144) 8 + 8 * d.intakePos
  let d := (d.noteKey (d.rootRcb + 144) 20).noteRead d.rootRcb at_ 8
  match e with
  | .task va _ => d.noteRead d.rootRcb va 1
  | .rgend va => d.noteRead d.rootRcb va 1
  | .rgnew va => d.noteRead d.rootRcb va 1
  | .skip => d

/-- The scheduler looks at the next entry: it stops at a slot that does not translate; otherwise `k` says what it does with
an entry that is its, after which the head moves on. -/
def Dev.intakeTake (d : Dev) (k : Entry → Option (Dev → Dev)) : Dev :=
  if !d.intakeOpen then d else
  match d.intakeEntry with
  | none => { d with stall := true }
  | some e =>
    match k (entryOf e) with
    | none => d
    | some f => (f (d.noteIntake (entryOf e))).intakeNext

/-- The key of a record or RCB that an entry names; one whose page has atomic class 0 is refused: its state byte
at `off` becomes `refused`, from one of the states in which it may be taken up [17 R273]. -/
def Dev.entryKey (d : Dev) (va off : Nat) (open_ : List Nat) (refused : Nat) : Except Dev Nat :=
  match d.schedKey d.rootRcb .atomic va with
  | none => .error d
  | some (k, leaf) =>
    if pteAc leaf ≠ 0 then .ok k
    else .error (if open_.contains (d.num (k + off) 1) then d.schedPut (k + off) 1 refused else d)

/-- INTAKE_TASK_ENTRY: TNEW, or TNEWN with n = 2^v; the release counts as core 256 [17 R288, R284]. -/
def execIntakeTaskEntry (s : State) : Out :=
  s.event fun d => d.intakeTake fun e => match e with
    | .task va n => some fun d => match d.entryKey va 63 [0, 4, 5, 6] 6 with
        | .error d => d
        | .ok k => d.takeUp k va d.rootRcb n d.rootRcb 256 d.intakePos
    | _ => none

/-- INTAKE_RGEND_ENTRY. -/
def execIntakeRgendEntry (s : State) : Out :=
  s.event fun d => d.intakeTake fun e => match e with
    | .rgend va => some fun d => match d.recKey d.rootRcb va with
        | none => d
        | some k => d.endRegion k
    | _ => none

/-- INTAKE_RGNEW_ENTRY: the region is linked, and the intake waits until it is live or refused. -/
def execIntakeRgnewEntry (s : State) : Out :=
  s.event fun d => d.intakeTake fun e => match e with
    | .rgnew va => some fun d => match d.entryKey va 30 [0] 3 with
        | .error d => d
        | .ok k => if d.num (k + 30) 1 = 0 then { d with links := d.links ++ [(k, va, d.rootRcb)], intake := some k } else d
    | _ => none

/-- INTAKE_SKIP_ENTRY: a zero or reserved entry is passed over. -/
def execIntakeSkipEntry (s : State) : Out :=
  s.event fun d => d.intakeTake fun e => match e with
    | .skip => some id
    | _ => none

end Sys2Proof.Machine
end

