-- ==== Sys2Proof/Machine/Layers.lean ====
section
/-! DEFINITION. Parures: the layer words, and the swap engine's requests, fetches and evictions [19 R308-R320]. -/

namespace Sys2Proof.Machine

/-! ### Layers and their entries [19 R308, R309] -/

/-- A field of a parure's extension. -/
def Dev.parureWord (d : Dev) (r : Region) (off n : Nat) : Nat := (d.schedNum r.space (r.parure + off) n).getD 0

def Dev.cursor (d : Dev) (r : Region) : Nat := d.parureWord r 8 4
def Dev.setCursor (d : Dev) (r : Region) (v : Nat) : Dev := (d.schedWrite r.space (r.parure + 8) (toBytes 4 v)).getD d
def Dev.streams (d : Dev) (r : Region) : Bool := d.parureWord r 4 1 / 16 % 2 == 0
def Dev.evictPrio (d : Dev) (r : Region) : Nat := d.parureWord r 4 1 % 16

/-- How far a layer stands from the cursor: (i - cursor) mod L. -/
def Dev.cursorDist (d : Dev) (r : Region) (j : Nat) : Nat :=
  let n := d.layerCount r
  if n = 0 then 0 else (j + n - d.cursor r % n) % n

/-- A layer stands in the stream window. -/
def Dev.inWindow (d : Dev) (r : Region) (j : Nat) : Bool := decide (d.cursorDist r j < d.parureWord r 12 4)

def Dev.layerState (d : Dev) (r : Region) (j : Nat) : Nat := d.layerWord r j 24 1
def Dev.layerFault (d : Dev) (r : Region) (j : Nat) : Bool := d.layerWord r j 25 1 % 2 == 1
def Dev.layerUse (d : Dev) (r : Region) (j : Nat) : Nat := d.layerWord r j 28 4
def Dev.layerSize (d : Dev) (r : Region) (j : Nat) : Nat := d.layerWord r j 8 8
def Dev.layerDst (d : Dev) (r : Region) (j : Nat) : Nat := d.layerWord r j 16 8

/-- A layer may be fetched: it is ABSENT and its fault bit is clear. -/
def Dev.layerOpen (d : Dev) (r : Region) (j : Nat) : Bool := d.layerState r j == 0 && !d.layerFault r j

/-- The live parures and those that are ending. -/
def Dev.parures (d : Dev) : List Region := d.regions.filter fun r => r.parure != 0

/-- Two layers of a parure overlap in their destinations. -/
def Dev.layersMeet (d : Dev) (r : Region) (i j : Nat) : Bool :=
  i != j && decide (d.layerDst r i < d.layerDst r j + d.layerSize r j) && decide (d.layerDst r j < d.layerDst r i + d.layerSize r i)

/-- The layers of a parure that are not ABSENT and overlap a layer. -/
def Dev.layersUnder (d : Dev) (r : Region) (j : Nat) : List Nat :=
  (List.range (d.layerCount r)).filter fun i => d.layersMeet r i j && d.layerState r i != 0

/-- The resident bytes of the device [19 R312]. -/
def Dev.residentBytes (d : Dev) : Nat :=
  (d.parures.map fun r => (((List.range (d.layerCount r)).filter fun j => d.layerState r j != 0).map (d.layerSize r)).sum).sum

/-! ### Requests [19 R313] -/

/-- A layer is requested; a request already there keeps its time, and becomes a demand request where this one is. -/
def Dev.want (d : Dev) (region layer : Nat) (demand : Bool) : Dev :=
  let same (q : SwapReq) : Bool := q.region == region && q.layer == layer
  if d.swapq.any same then { d with swapq := updWhere same (fun q => { q with demand := q.demand || demand }) d.swapq }
  else { d with swapq := d.swapq ++ [{ region := region, layer := layer, demand := demand, order := d.cycle }] }

/-- The engine's order of requests. -/
def Dev.reqBefore (d : Dev) (a b : SwapReq) : Bool :=
  if a.demand ≠ b.demand then a.demand
  else if d.prioOf a.region ≠ d.prioOf b.region then decide (d.prioOf b.region < d.prioOf a.region)
  else if a.order ≠ b.order then decide (a.order < b.order)
  else decide (a.layer < b.layer)

/-- The two conditions of R312 hold for a layer. -/
def Dev.roomForLayer (d : Dev) (r : Region) (j : Nat) : Bool :=
  (d.layersUnder r j).isEmpty && decide (d.residentBytes + d.layerSize r j ≤ Config.parureCapacity)

/-- A request can start. -/
def Dev.canFetch (d : Dev) (q : SwapReq) : Bool :=
  match d.region? q.region with
  | none => false
  | some r => decide (d.fetches.length < 16) && r.parure != 0 && d.layerOpen r q.layer && d.roomForLayer r q.layer

/-- The request that the engine starts next. -/
def Dev.nextFetch (d : Dev) : Option SwapReq := leastBy d.reqBefore (d.swapq.filter d.canFetch)

/-! ### Eviction [19 R311, R314] -/

/-- A layer may be evicted for a request: it is RESIDENT, not in use, and for a stream or prefetch request of its own
parure no nearer the cursor. -/
def Dev.evictable (d : Dev) (q : SwapReq) (r : Region) (i : Nat) : Bool :=
  d.layerState r i == 2 && d.layerUse r i == 0 &&
  (q.demand || r.id != q.region || decide (d.cursorDist r q.layer ≤ d.cursorDist r i))

/-- The layers that capacity may be taken from, in the order of R314. -/
def Dev.evictOrder (d : Dev) (a b : Region × Nat) : Bool :=
  if d.evictPrio a.1 ≠ d.evictPrio b.1 then decide (d.evictPrio a.1 < d.evictPrio b.1)
  else if a.1.id ≠ b.1.id then decide (a.1.id < b.1.id)
  else decide (d.cursorDist b.1 b.2 < d.cursorDist a.1 a.2)

def Dev.evictCands (d : Dev) (q : SwapReq) (r : Region) : List (Region × Nat) :=
  (d.parures.filter fun p => decide (d.evictPrio p ≤ d.evictPrio r)).flatMap fun p =>
    ((List.range (d.layerCount p)).filter fun i => d.evictable q p i).map fun i => (p, i)

/-- The layer that is evicted next for a request, if some layer is in its way and one may go. -/
def Dev.victim (d : Dev) (q : SwapReq) : Option (Region × Nat) :=
  match d.region? q.region with
  | none => none
  | some r =>
    if r.parure = 0 ∨ ¬ d.layerOpen r q.layer then none
    else
      match d.layersUnder r q.layer with
      | i :: is => if (i :: is).all fun x => d.evictable q r x then some (r, i) else none
      | [] =>
        if d.residentBytes + d.layerSize r q.layer ≤ Config.parureCapacity then none
        else leastBy d.evictOrder (d.evictCands q r)

/-- A layer is chosen for eviction. -/
def Dev.evict (d : Dev) (r : Region) (j : Nat) : Dev :=
  let d := (d.layerPut r j 24 1 3).unbindLayer r.id j
  { d with evicts := d.evicts ++ [(r.id, j)] }.planSomeday (.evictionCompletion r.id j)

/-- EVICTION_COMPLETION: earlier releases of the layer have completed, and it is ABSENT [19 R311]. -/
def execEvictionCompletion (rid layer : Nat) (s : State) : Out :=
  s.event fun d =>
    match d.region? rid with
    | none => d
    | some r =>
      if d.evicts.contains (rid, layer) then
        { d.layerPut r layer 24 1 0 with evicts := d.evicts.filter fun e => e != (rid, layer) }
      else d

/-! ### Fetches [19 R311, R312, R315] -/

/-- The pages that a range of addresses reaches in a space, in order; none where one does not translate with a right. -/
def Dev.rangeRuns (d : Dev) (space : Nat) (acc : Access) (va len : Nat) : Option (List (Run × W64)) :=
  (blockParts (d.schedKey space acc) (len / 2 ^ 16 + 2) va len).mapM fun x => x.1.map fun y => ({ key := y.1, len := x.2 }, y.2)

/-- The source of a layer's fetch. -/
def Dev.fetchSrc (d : Dev) (r : Region) (j : Nat) : Option (List Run) :=
  (d.rangeRuns r.space .read (d.layerWord r j 0 8) (d.layerSize r j)).map fun xs => xs.map Prod.fst

/-- The destination of a layer's fetch: within one lease range that grants W, and on device pages. -/
def Dev.fetchDst (d : Dev) (r : Region) (j : Nat) : Option (List Run) :=
  let a := d.layerDst r j
  let n := d.layerSize r j
  if r.leases.any fun x => x.w && decide (x.base ≤ a) && decide (a + n ≤ x.base + x.len) then
    match d.rangeRuns r.space .write a n with
    | none => none
    | some xs => if xs.all fun x => pteKind x.2 == 0 then some (xs.map Prod.fst) else none
  else none

/-- The lanes of a parked LYWAIT that named a layer. -/
def Wait.naming (w : Wait) (region layer : Nat) : W32 :=
  match w with
  | .lywait ls => maskOf fun l => ls.any fun x => x == (l, region, layer)
  | _ => 0

/-- Swap fault (0x1E): the layer and its cause [19 R315]. -/
def swapTrap (lanes : W32) (layer cause : Nat) : Trap :=
  Trap.user 0x1E lanes (BitVec.ofNat 64 (layer % 2 ^ 12 + cause % 2 ^ 4 * 2 ^ 16))

/-- Every fragment that is parked on a layer takes a swap fault at its group. -/
def Dev.trapWaiters (d : Dev) (region layer cause : Nat) : Dev :=
  d.all.foldl (fun d st => st.live.foldl (fun d x => match x.2.st with
    | .parked w _ =>
      let lanes := w.naming region layer
      if lanes = 0 then d
      else ((d.bring st.id).onFocus fun st => st.onFrag x.1 Frag.wake).deliver x.1 (swapTrap lanes layer cause)
    | .ready => d) d) d

/-- A write to a run merges with a word that has an uncorrectable error (log 27) [21 R335]. -/
def Dev.mergeCause (d : Dev) (r : Run) : Option Nat := if (d.eccHit .write r).isSome then some 1 else none

/-- A layer's fault bit is set with its cause, its fetch's number completes, and its waiters trap [19 R315]. -/
def Dev.failLayer (d : Dev) (r : Region) (j cause : Nat) : Dev :=
  let d := { d with fetches := d.fetches.filter fun f => !(f.region == r.id && f.layer == j)
                    swapFail := (r.id, j, cause) :: d.swapFail.filter fun x => !(x.1 == r.id && x.2.1 == j) }
  let d := ((d.layerPut r j 24 1 0).layerPut r j 25 1 1).unbindLayer r.id j
  (d.completeNumber r.id .swap (d.layerWord r j 40 8)).trapWaiters r.id j cause

/-- Why a swap read of a run fails at once: a CXL port that is down counts as an unreadable source, a host port as a link
that is down [19 R315; 23 R362, R369, R375]. -/
def Dev.downCause (d : Dev) (r : Run) : Option Nat := (d.runDown r).map fun _ => if r.key < 2 * 2 ^ 64 then 1 else 2

/-- The same for one that an uncorrectable error may stop too. -/
def Dev.readCause (d : Dev) (r : Run) : Option Nat := if (d.eccHit .read r).isSome then some 1 else d.downCause r

/-- A fetch starts: it is numbered, its checks are made, and its layer is ARRIVING [19 R311, R312]. -/
def Dev.startFetch (d : Dev) (r : Region) (j : Nat) : Dev :=
  let (d, n) := d.number r.id .swap
  let d := { d with swapq := d.swapq.filter fun q => !(q.region == r.id && q.layer == j) }.layerPut r j 40 8 n
  match d.fetchSrc r j, d.fetchDst r j with
  | none, _ => d.failLayer r j 4
  | some _, none => d.failLayer r j 5
  | some src, some dst =>
    let remote := src.filterMap fun x => (peerOf x.key).map fun y => (y.1, y.2, x.len)
    let c : Clasp := { name := .layer r.id j, runs := dst, scope := .dv, order := 0, rels := [], log := [], views := [] }
    let f : Fetch := { region := r.id, layer := j, num := n, src := src, dst := dst, got := [], waits := remote.length }
    match src.findSome? d.downCause with
    | some cause => d.failLayer r j cause
    | none =>
    let d := d.layerPut r j 24 1 1
    let d := { d with clasps := d.clasps ++ [c], fetches := d.fetches ++ [f] }
    let d := remote.foldl (fun d x => d.send x.1 (.read [(x.2.1, x.2.2)]) (.swap r.id j n)) d
    if remote.isEmpty then d.planSomeday (.swapFetchCompletion r.id j) else d

/-- SWAP_FETCH_START: the engine starts the first request that can start [19 R313]. -/
def execSwapFetchStart (rid layer : Nat) (s : State) : Out :=
  s.event fun d =>
    match d.nextFetch, d.region? rid with
    | some q, some r =>
      if q.region = rid ∧ q.layer = layer then
        ((d.noteRead r.space r.parure 64).noteRead r.space (r.parure + 64 + 64 * layer) 64).startFetch r layer
      else d
    | _, _ => d

def Dev.fetch? (d : Dev) (rid layer : Nat) : Option Fetch := d.fetches.find? fun f => f.region == rid && f.layer == layer

/-- The bytes of a fetch's source. -/
def Dev.fetchBytes (d : Dev) (f : Fetch) : List Byte :=
  f.src.flatMap fun r => if (peerOf r.key).isSome then Mem.read f.got r.key r.len else d.readFor schedParty r.key r.len

/-- SWAP_FETCH_COMPLETION: every byte is written, the layer is RESIDENT, its clasp's count rises, its number completes
[19 R311]; a source read, or the merge read of a word that it writes in part, with an uncorrectable error fails it instead
[19 R315, 21 R335]. -/
def execSwapFetchCompletion (rid layer : Nat) (s : State) : Out :=
  s.event fun d =>
    match d.fetch? rid layer, d.region? rid with
    | some f, some r =>
      if f.waits ≠ 0 then d
      else match f.src.findSome? d.readCause <|> f.dst.findSome? d.mergeCause with
      | some cause => d.failLayer r layer cause
      | none =>
        let d := f.dst.foldl (fun d x => d.correct .write x) (f.src.foldl (fun d x => d.correct .read x) d)
        let d := d.writeRunsFor schedParty f.dst (d.fetchBytes f)
        let d := (d.releaseClasp schedParty (.layer rid layer)).onClasp (.layer rid layer) fun c => { c with rels := [] }
        let d := { d with fetches := d.fetches.filter fun x => !(x.region == rid && x.layer == layer) }
        let d := (d.layerPut r layer 24 1 2).layerPut r layer 32 8 ((d.layerWord r layer 32 8 + 1) % 2 ^ 64)
        d.completeNumber rid .swap f.num
    | _, _ => d

/-- SWAP_FETCH_FAILURE: a read of the fetch has failed [19 R315]. -/
def execSwapFetchFailure (rid layer cause : Nat) (s : State) : Out :=
  s.event fun d =>
    match d.fetch? rid layer, d.region? rid with
    | some _, some r => d.failLayer r layer cause
    | _, _ => d

/-- A timeout's cause: that of a CXL read counts as an unreadable source [23 R375]. -/
def Fetch.lateCause (f : Fetch) : Nat := if (f.src.any fun r => siteOf r.key == 1) && f.waits == 0 then 1 else 3

/-- SWAP_FETCH_TIMEOUT: a source read had no answer within 10 ms [19 R315]. -/
def execSwapFetchTimeout (rid layer : Nat) (s : State) : Out :=
  s.event fun d =>
    match d.fetch? rid layer, d.region? rid with
    | some f, some r => d.failLayer r layer f.lateCause
    | _, _ => d

/-! ### The layer words [19 R316-R319] -/

/-- A lane's layer of a live parure. -/
structure Named where
  lane  : LaneId
  r     : Region
  layer : Nat

/-- Clasp misuse of a layer word: the layer of the lowest lane, and the reason [19 R316]. -/
def layerMisuse (lanes : W32) (layer : LaneId → Nat) (reason : Nat) : Option Trap :=
  if lanes = 0 then none
  else some (Trap.user 0x1F lanes (BitVec.ofNat 64 (layer (lowLane lanes) % 2 ^ 12 + reason * 2 ^ 16)))

/-- The parure of a control block's key. -/
def Dev.parureAt (d : Dev) (k : Nat) : Option Region :=
  match d.region? k with
  | none => none
  | some r => if r.live ∧ r.parure ≠ 0 then some r else none

/-- The number of lanes that name a layer. -/
def namers (ns : List Named) (x : Named) : Nat := (ns.filter fun y => y.r.id == x.r.id && y.layer == x.layer).length

/-- The checks that the layer words share; `uses` also asks that each layer's use count covers the lanes that release
it. -/
def State.reachLayers (s : State) (h : Hdr) (a b : GReg) (uses : Bool) (k : List Named → State → Out) : Out :=
  let ex := s.exec h
  let layer (l : LaneId) : Nat := ((s.old.lane l).rg a).toNat
  s.reach ex .read 256 (fun l => (s.old.lane l).rpair b) 256 fun oks t =>
    let ns := oks.filterMap fun x => (t.now.parureAt (keyOf x.2)).map fun r => ({ lane := x.1, r := r, layer := layer x.1 } : Named)
    let lost := maskOf fun l => oks.any fun x => x.1 == l && (t.now.parureAt (keyOf x.2)).isNone
    let high := maskOf fun l => ns.any fun x => x.lane == l && decide (t.now.layerCount x.r ≤ x.layer)
    let short := maskOf fun l => uses && ns.any fun x => x.lane == l && decide (t.now.layerUse x.r x.layer < namers ns x)
    match layerMisuse lost layer 1 <|> layerMisuse high layer 2 <|> layerMisuse short layer 3 with
    | some trap => .next (s.trap trap)
    | none => k ns t

/-- The lanes acquire their layers' clasps, and the use counts rise [19 R317]. -/
def Dev.takeLayers (d : Dev) (st : Strand) (ls : List (LaneId × Nat × Nat)) : Dev :=
  ls.foldl (fun d x =>
    match d.region? x.2.1 with
    | none => d
    | some r =>
      let d := d.onClasp (.layer x.2.1 x.2.2) fun c => c.acquire (partyOf st x.1)
      d.layerPut r x.2.2 28 4 ((d.layerUse r x.2.2 + 1) % 2 ^ 32)) d

/-- Every layer of a list is RESIDENT. -/
def Dev.allResident (d : Dev) (ls : List (LaneId × Nat × Nat)) : Bool :=
  ls.all fun x => match d.region? x.2.1 with
    | none => false
    | some r => d.layerState r x.2.2 == 2

/-- The cause that a faulted ABSENT layer holds. -/
def Dev.faultOf (d : Dev) (x : Named) : Option Nat :=
  if d.layerState x.r x.layer = 0 ∧ d.layerFault x.r x.layer then
    some (((d.swapFail.find? fun y => y.1 == x.r.id && y.2.1 == x.layer).map fun y => y.2.2).getD 0)
  else none

/-- The lanes of a fragment that took their uses while it was parked, for the group that it now issues. -/
def Frag.usesTaken (f : Frag) : W32 :=
  ((f.layers.filter fun x => x.1 == f.pc && x.2.1 == f.pos).map fun x => x.2.2).foldl (· ||| ·) 0

/-- The fragment has issued that group. -/
def Frag.dropUses (f : Frag) : Frag := { f with layers := f.layers.filter fun x => !(x.1 == f.pc && x.2.1 == f.pos) }

/-- LYWAIT: lanes that took their uses while the fragment was parked are done; the others act by the state of their
layers [19 R317]. -/
def execLywait (h : Hdr) (a b : GReg) (s : State) : Out :=
  s.reachLayers h a b false fun ns t =>
    let ns := ns.filter fun x => !hasLane s.frag.usesTaken x.lane
    let ls := ns.map fun x => (x.lane, x.r.id, x.layer)
    if t.now.allResident ls then
      .next ((t.onDev fun d => d.takeLayers s.old ls).onFocus fun st => st.onFrag s.iss.slot Frag.dropUses)
    else
      match ns.find? fun x => (t.now.faultOf x).isSome with
      | some x =>
        let lanes := maskOf fun l => ns.any fun y => y.lane == l && y.r.id == x.r.id && y.layer == x.layer
        .next (s.trap (swapTrap lanes x.layer ((t.now.faultOf x).getD 0)))
      | none => .next (t.setBlock (.lywait ls))

/-- A parked LYWAIT's layers are all RESIDENT, or the parure is gone. -/
def Dev.lywaitDone (d : Dev) (sid : Nat) (slot : Fin 4) : Bool :=
  match d.waitOf sid slot with
  | some (.lywait ls) => d.allResident ls || ls.any fun x => (d.parureAt x.2.1).isNone
  | _ => false

/-- LYWAIT_COMPLETION: the lanes acquire, the use counts rise, and the fragment goes on at its group [19 R317]; where the
parure is gone the group is only issued again. -/
def execLywaitCompletion (sid : Nat) (slot : Fin 4) (s : State) : Out :=
  s.event fun d =>
    match d.waitOf sid slot, d.strand? sid with
    | some (.lywait ls), some st =>
      if d.allResident ls then
        let lanes := maskOf fun l => ls.any fun x => x.1 == l
        ((d.takeLayers st ls).onStrand sid fun st => st.onFrag slot fun f =>
          { f with layers := f.layers ++ [(f.pc, f.pos, lanes)] }).wakeFrag sid slot
      else if d.lywaitDone sid slot then d.wakeFrag sid slot
      else d
    | _, _ => d

/-- One lane's LYDONE: the use count falls, the cursor moves on from its layer's last use, and the lane releases in the
layer's clasp order, publishing nothing [19 R313, R318]. -/
def Dev.layerDone (d : Dev) (x : Named) : Dev :=
  let use := d.layerUse x.r x.layer - 1
  let d := d.layerPut x.r x.layer 28 4 use
  let d := d.onClasp (.layer x.r.id x.layer) fun c => { c with order := c.order + 1 }
  if use = 0 ∧ d.cursor x.r = x.layer then d.setCursor x.r ((x.layer + 1) % d.layerCount x.r) else d

def execLydone (h : Hdr) (a b : GReg) (s : State) : Out :=
  s.reachLayers h a b true fun ns t => .next (t.onDev fun d => ns.foldl Dev.layerDone d)

def execLyhintPf (h : Hdr) (a b : GReg) (s : State) : Out :=
  s.reachLayers h a b false fun ns t =>
    .next (t.onDev fun d => ns.foldl (fun d x => if d.layerOpen x.r x.layer then d.want x.r.id x.layer false else d) d)

/-- LYHINT.retry on one layer [19 R319]. -/
def Dev.retryLayer (d : Dev) (x : Named) : Dev :=
  if d.layerFault x.r x.layer then
    let d := { d with swapFail := d.swapFail.filter fun y => !(y.1 == x.r.id && y.2.1 == x.layer) }
    (d.layerPut x.r x.layer 25 1 0).want x.r.id x.layer true
  else d

def execLyhintRetry (h : Hdr) (a b : GReg) (s : State) : Out :=
  s.reachLayers h a b false fun ns t => .next (t.onDev fun d => ns.foldl Dev.retryLayer d)

/-! ### The swap engine's work in a cycle [19 R310, R313, R314, R317] -/

/-- The stream window's layers are requested. -/
def Dev.streamRequests (d : Dev) : Dev :=
  d.parures.foldl (fun d r =>
    if d.streams r then
      (List.range (d.layerCount r)).foldl (fun d j =>
        if d.inWindow r j && d.layerOpen r j then d.want r.id j false else d) d
    else d) d

/-- A demand request for a layer waits in the queue. -/
def Dev.demanded (d : Dev) (region layer : Nat) : Bool :=
  d.swapq.any fun q => q.region == region && q.layer == layer && q.demand

/-- A parked LYWAIT requests an ABSENT layer; with the request it moves a stream's cursor to a layer outside the
window [19 R313, R317]. -/
def Dev.demandLayer (d : Dev) (parks : Bool) (x : LaneId × Nat × Nat) : Dev :=
  match d.region? x.2.1 with
  | none => d
  | some r =>
    if !d.layerOpen r x.2.2 then d
    else
      let moves := parks || !d.demanded r.id x.2.2
      let d := if moves && d.streams r && !d.inWindow r x.2.2 then d.setCursor r x.2.2 else d
      d.want r.id x.2.2 true

/-- The parked LYWAITs' requests. -/
def Dev.demandRequests (d : Dev) : Dev :=
  d.all.foldl (fun d st => st.live.foldl (fun d x => match x.2.st with
    | .parked (.lywait ls) since => ls.foldl (fun d y => d.demandLayer (since == d.cycle) y) d
    | _ => d) d) d

/-- The engine chooses one layer for eviction, for the first request that needs and finds one. -/
def Dev.evictTick (d : Dev) : Dev :=
  if !d.evicts.isEmpty || decide (16 ≤ d.fetches.length) then d
  else
    match leastBy d.reqBefore (d.swapq.filter fun q => (d.victim q).isSome) with
    | none => d
    | some q => match d.victim q with
      | none => d
      | some (r, i) => d.evict r i

/-- What the swap engine does at the end of a cycle. -/
def Dev.swapTick (d : Dev) : Dev := if d.parures.isEmpty then d else d.demandRequests.streamRequests.evictTick

end Sys2Proof.Machine
end

