-- ==== Sys2Proof/Machine/Faults.lean ====
section
/-! DEFINITION. Held traps, watchdogs, scrubbing, illegal words, and pre-emption: its request, the save and the restore
[21 R332-R340; 09 R178]. -/

namespace Sys2Proof.Machine

/-- PASSED_OVER_LIMIT: a fragment that is passed over again becomes eldest-equivalent [09 R178]. -/
def execPassedOverLimit (sid : Nat) (slot : Fin 4) (s : State) : Out :=
  s.event fun d => d.onStrand sid fun st => st.onFrag slot fun f => if f.st = .ready ∧ 63 ≤ f.passed then f.atLimit else f

/-! ### Held traps [21 R332, R393; 08 R154; 19 R296] -/

/-- A held trap is a matrix exception. -/
def HeldTrap.matrix (h : HeldTrap) : Bool := h.code == 0x08 || h.code == 0x09

/-- Word by word, and 0x1C before 0x1D [08 R154, 19 R296]. -/
def HeldTrap.before (a b : HeldTrap) : Bool :=
  decide (a.word < b.word) || (decide (a.word = b.word) && decide (a.code < b.code))

/-- The traps that a fragment's lanes hold, lanes ascending. -/
def Strand.heldOf (st : Strand) (f : Frag) : List (LaneId × HeldTrap) :=
  (lanesOf f.mask).flatMap fun l => (st.lane l).held.map fun h => (l, h)

/-- Of the matrix exceptions that wait at one boundary, the earliest word's is delivered, and the others stand only in
mxstat [08 R154]. -/
def Lane.dropMatrix (x : Lane) (keep : Nat) : Lane := { x with held := x.held.filter fun h => !h.matrix || h.word == keep }

/-- The trap that a fragment takes at its boundary: the earliest word's, with the lanes that recorded it. -/
def Strand.heldTrap (st : Strand) (f : Frag) : Option (HeldTrap × W32) :=
  let hs := st.heldOf f
  (leastBy (fun a b => HeldTrap.before a.2 b.2) hs).map fun x =>
    ((hs.find? fun y => y.2.word == x.2.word && y.2.code == x.2.code).map Prod.snd |>.getD x.2,
     maskOf fun l => hs.any fun y => y.1 == l && y.2.word == x.2.word && y.2.code == x.2.code)

/-- The fault of a held trap. A failed verdict's reason is in bits [63:59] of its value [19 R296]. -/
def HeldTrap.trap (h : HeldTrap) (lanes : W32) : Trap :=
  { Trap.user h.code lanes h.info with reason := if h.matrix then 0 else h.info.toNat / 2 ^ 59 }

/-- HELD_TRAP_DELIVERY: at a fragment's group boundary the trap that its lanes hold is taken, and their records of it are
cleared [21 R393]. -/
def execHeldTrapDelivery (sid : Nat) (slot : Fin 4) (s : State) : Out :=
  s.event fun d =>
    let d := d.bring sid
    match d.focus.frag slot with
    | none => d
    | some f =>
      if d.focus.id ≠ sid ∨ f.st ≠ .ready ∨ ¬ d.focus.holdsTrap f then d
      else
        let keep := (((d.focus.heldOf f).filter fun x => x.2.matrix).map fun x => x.2.word).foldl min (2 ^ 64)
        match d.focus.heldTrap f with
        | none => d
        | some (h, lanes) =>
          let clear (_ : LaneId) (x : Lane) : Lane :=
            let x := x.dropMatrix keep
            { x with held := x.held.filter fun y => !(y.word == h.word && y.code == h.code) }
          (d.onFocus fun st => st.onLanes f.mask clear).deliver slot (h.trap lanes)

/-! ### Errors and watchdogs [21 R335-R337] -/

/-- SCRUB_UNCORRECTABLE: scrubbing, or the write-back of a line whose writer has ended, meets an uncorrectable error; the
root region is told [21 R335]. -/
def execScrubUncorrectable (key : Nat) (s : State) : Out :=
  s.event fun d =>
    let d := { d with eccBad := if d.eccBad.contains (key / 8) then d.eccBad else d.eccBad ++ [key / 8] }
    d.countUnc.pushReport d.rootRcb (Report.sched 0x21 0 0 0 (eccDetail key))

/-- The watchdog's code of a wait [21 R337]; MWAIT is not watched, nor are the model's own waits: for results before a handler
entry, and for the masks of a sparse load. -/
def Wait.code : Wait → Option Nat
  | .settle => some 0
  | .bar => some 1
  | .awt _ _ => some 2
  | .claspAcq _ _ => some 3
  | .tlwait _ _ => some 4
  | .wtany _ => some 5
  | .wtall _ => some 6
  | .lywait _ => some 7
  | .macq _ => some 8
  | .calloc _ _ => some 9
  | .engineFull => some 10
  | .spawn => some 12
  | .descriptor => some 13
  | .rgnew _ => some 14
  | .unbind _ => some 15
  | .cfree _ _ => some 16
  | .join => some 17
  | .casketTurn _ => some 18
  | .tretRest => some 19
  | .tlbi _ _ _ _ => some 20
  | .fence _ => some 21
  | .mwait _ _ _ => none
  | .masks _ _ => none
  | .entry _ => none

/-- A watchdog of a fragment (0x22), with the wait's code [21 R336, R337]. -/
def watchTrap (mask : W32) (code : Nat) : Trap := { Trap.user 0x22 mask 0 with detail := BitVec.ofNat 64 (9 * 2 ^ 56 + code) }

/-- The code of a wait on which a fragment has been parked for 2^34 cycles. -/
def Frag.parkedLong (f : Frag) (cycle : Nat) : Option Nat :=
  match f.st with
  | .parked w since => if since + 2 ^ 34 ≤ cycle then w.code else none
  | .ready => none

/-- A system handler has run for 2^30 cycles: of a fault, or of a launch walk [13 R210]. -/
def Frag.handlerLong (f : Frag) (cycle : Nat) : Bool :=
  match f.sysrec.map SysRec.since <|> f.walkAt with
  | some since => decide (since + 2 ^ 30 ≤ cycle)
  | none => false

/-- WATCHDOG_PARK_EXPIRY [21 R337]. -/
def execWatchdogParkExpiry (sid : Nat) (slot : Fin 4) (s : State) : Out :=
  s.event fun d =>
    let d := d.bring sid
    match d.focus.frag slot with
    | none => d
    | some f =>
      match f.parkedLong d.cycle with
      | some code => if d.focus.id = sid then d.deliver slot (watchTrap f.mask code) else d
      | none => d

/-- WATCHDOG_HANDLER_EXPIRY [21 R337]. -/
def execWatchdogHandlerExpiry (sid : Nat) (slot : Fin 4) (s : State) : Out :=
  s.event fun d =>
    let d := d.bring sid
    match d.focus.frag slot with
    | none => d
    | some f => if d.focus.id = sid ∧ f.handlerLong d.cycle then d.deliver slot (watchTrap f.mask 11) else d

/-- The watchdogs that have run out. -/
def Dev.overdue (d : Dev) : List Instr :=
  d.all.flatMap fun st => st.live.filterMap fun x =>
    if (x.2.parkedLong d.cycle).isSome then some (.watchdogParkExpiry st.id x.1)
    else if x.2.handlerLong d.cycle then some (.watchdogHandlerExpiry st.id x.1) else none

/-- ILLEGAL_ENCODING: a word that is no defined instruction faults its group; trapinfo holds the word and its position
[02 R28, R39]. -/
def execIllegalEncoding (w : W32) (at_ : Fin 3) (s : State) : Out := .next (s.trap (Trap.user 0x01 0 (wordInfo w at_.val)))

/-! ### The save [21 R338, R339] -/

/-- The strands of a task that a save takes. -/
def Dev.strandsOf (d : Dev) (tid : Nat) : List Strand := d.all.filter fun st => st.serves tid

/-- The blocks that a save of a strand writes: its live handles, and those that come back with an MEXP which it abandons
[10 R194]. -/
def Strand.saveBlocks (st : Strand) : Nat := st.blocks + (st.flights.flatMap fun f => f.lasts.map fun x => x.2.2.blocks).sum

/-- The bytes that a save of strands writes. -/
def saveBytes (sts : List Strand) : Nat := (sts.map fun st => 1024 + 352 * laneCount st.liveLanes + 64 * st.saveBlocks).sum

/-- The save area has room for a task's strands beside what it holds and what is being saved. -/
def Dev.saveRoom (d : Dev) (tid : Nat) : Bool :=
  let held := (d.saved.map fun x => saveBytes x.strands).sum
  let coming := ((d.jobs.filter fun j => j.st == .halting).map fun j => saveBytes (d.strandsOf j.id)).sum
  decide (held + coming + saveBytes (d.strandsOf tid) ≤ Config.saveArea)

/-- A strand leaves its quadrant for the save area: its blocks return, its slot frees, a reserve that it held becomes
unheld. -/
def Dev.liftStrand (d : Dev) (st : Strand) : Dev :=
  let cfrees := st.flights.filter Flight.inQueue
  let d := (d.dropStrand st.id).onQuad st.core st.quad fun q => { q with accessN := q.accessN - cfrees.length }
  let d := d.updChain st.region fun r => { r with useSlots := r.useSlots - 1 }
  (d.returnBlocks st.core st.quad st.region (st.holding + st.freeing)).settleReserve st.core st.quad

/-- The runs of banks of a task on a core. -/
def Dev.runsOfTask (d : Dev) (j : Job) : List BankRun := (d.core j.core).banks.filter fun r => r.task == j.id

/-- The scratchpad and the banks of a task are given up. -/
def Dev.reclaim (d : Dev) (j : Job) : Dev :=
  let d := (d.runsOfTask j).foldl (fun d r => d.dropBanks j.core j.region r.first) d
  let d := d.onCore j.core fun k => { k with scratch := k.scratch.filter fun r => r.task != j.id }
  d.updChain j.region fun r => { r with useScratch := r.useScratch - j.scratch }

/-- What a save takes away from the device. -/
def Dev.takeAway (d : Dev) (j : Job) (reclaims : Bool) : Dev :=
  let d := (d.strandsOf j.id).foldl Dev.liftStrand d
  if reclaims then d.reclaim j else d

/-- The tasks of one core that a pre-emption for a task may save, in the order that it takes them [21 R338]. -/
def Dev.victims (d : Dev) (t : Job) (c : Fin 256) : List Job :=
  d.jobs.filter fun j => j.core == c && j.st == .running && decide (d.prioOf j.region < d.prioOf t.region)

def Dev.victimBefore (d : Dev) (a b : Job) : Bool :=
  if d.prioOf a.region ≠ d.prioOf b.region then decide (d.prioOf a.region < d.prioOf b.region)
  else if a.prio ≠ b.prio then decide (a.prio < b.prio)
  else decide (b.rel.cycle < a.rel.cycle)

/-- A task would fit a core if the tasks of lower priority there were saved. -/
def Dev.wouldFit (d : Dev) (t : Job) (c : Fin 256) : Bool :=
  let e := (d.victims t c).foldl (fun d j => d.takeAway j true) d
  !(d.victims t c).isEmpty && e.roomFor t.region t.strands t.scratch && e.fits t c

/-- A task fits some core that it may be placed on, whether or not another task's wait keeps it off [17 R284]. -/
def Dev.fitsSome (d : Dev) (t : Job) : Bool := d.roomFor t.region t.strands t.scratch && (d.coresFor t).any fun c => d.fits t c

/-- The task that the scheduler pre-empts next, and the released task that it does so for: one victim at a time. -/
def Dev.nextVictim (d : Dev) : Option (Job × Job) :=
  if d.jobs.any fun j => j.st == .halting then none
  else
    match leastBy d.placeBefore (d.releasedJobs.filter fun t => !d.fitsSome t && (d.coresFor t).any fun c => d.wouldFit t c) with
    | none => none
    | some t =>
      match (d.coresFor t).find? fun c => d.wouldFit t c with
      | none => none
      | some c =>
        match leastBy d.victimBefore (d.victims t c) with
        | none => none
        | some j => if d.saveRoom j.id then some (j, t) else none

/-- PREEMPTION_REQUEST: a running task is to stop at its group boundaries; whether its scratchpad and banks are reclaimed
is the scheduler's choice (log 8), which it takes where the task that waits needs KiB [21 R338, R339]. Drains of reclaimed
banks read no more rows [16 R262]. -/
def execPreemptionRequest (tid : Nat) (s : State) : Out :=
  s.event fun d =>
    match d.job? tid with
    | none => d
    | some j =>
      if j.st ≠ .running ∨ ¬ d.saveRoom tid then d
      else
        let needs : Bool := match d.nextVictim with
          | some (v, t) => v.id == tid && decide (0 < t.scratch)
          | none => false
        let take := needs || decide (Config.freeChoice d.fresh % 2 = 1)
        let d := d.drew.onJob tid fun j => { j with st := .halting, takeBk := take }
        { d with ops := d.ops.map fun o => if take ∧ o.task = tid ∧ o.ctx = .drain then { o with halted := true } else o }

/-- A flight that a save does not wait for: that of a CFREE that waits. -/
def Strand.cfreeing (st : Strand) (f : Flight) : Bool :=
  st.live.any fun x => match x.2.st with
    | .parked (.cfree _ fid) _ => fid == f.id
    | _ => false

/-- A strand has come to rest: no result is pending, and no handler entry waits. -/
def Strand.atRest (st : Strand) : Bool :=
  (st.flights.all st.cfreeing) && st.live.all fun x => match x.2.st with
    | .parked (.entry _) _ => false
    | _ => true

/-- A halting task's strands have come to rest, and its halted drains have delivered the rows that they read. -/
def Dev.saveReady (d : Dev) (j : Job) : Bool :=
  j.st == .halting && (d.strandsOf j.id).all Strand.atRest && d.ops.all fun o => !(o.halted && o.task == j.id) || o.sent.isEmpty

/-- A wait of a group that has not issued: for results, for a resource that it lacks, for what it has to know first. -/
def Wait.before : Wait → Bool
  | .settle | .macq _ | .calloc _ _ | .engineFull | .spawn | .descriptor | .masks _ _ | .casketTurn _ | .lywait _ => true
  | .bar | .awt _ _ | .claspAcq _ _ | .tlwait _ _ | .wtany _ | .wtall _ | .rgnew _ | .unbind _ | .cfree _ _ | .join | .tretRest
  | .tlbi _ _ _ _ | .fence _ | .mwait _ _ _ | .entry _ => false

/-- An issue state as it is saved, and as it is restored: a group that has not issued is to issue again, and any other wait
goes on, with the span that it has lasted for its beginning (log 36) [21 R337, R339]. -/
def FragState.toSave (x : FragState) (now : Nat) : FragState :=
  match x with
  | .ready => .ready
  | .parked w since => if w.before then .ready else .parked w (now - since)

def FragState.toRun (x : FragState) (now : Nat) : FragState :=
  match x with
  | .parked w span => .parked w (now - span)
  | .ready => .ready

/-- A fragment as it is saved: times of handlers become spans; a grant of blocks is given back; what peers have sent for its
next group is asked for again [21 R337, R339]. -/
def Frag.toSave (f : Frag) (now : Nat) : Frag :=
  { f with yield := false, passed := 0, skip := 0, grant := 0, ahead := [], code := []
           sysrec := f.sysrec.map fun (r : SysRec) => { r with since := now - r.since }
           st := f.st.toSave now
           aside := f.aside.map fun (x : Aside) => { x with st := x.st.toSave now } }

/-- A fragment as it is restored. -/
def Frag.toRun (f : Frag) (now : Nat) : Frag :=
  { f with sysrec := f.sysrec.map fun (r : SysRec) => { r with since := now - r.since }
           st := f.st.toRun now
           aside := f.aside.map fun (x : Aside) => { x with st := x.st.toRun now } }

/-- A strand as it is saved: watches are dropped, last-page registers are empty, and no result is in flight: what is left
are the CFREEs that wait [21 R339, 14 R244]. -/
def Strand.toSave (st : Strand) (now : Nat) : Strand :=
  let st := st.mapFrags fun f => f.toSave now
  { st with lanes := mapV st.lanes fun x => { x with watch := none, lastPage := none, monDrop := true } }

/-- A key that lies in `n` bytes from `a`, moved to `b` with them. -/
def movedKey (a n b k : Nat) : Nat := if a ≤ k ∧ k < a + n then b + (k - a) else k

def Run.moved (r : Run) (a n b : Nat) : Run := { r with key := movedKey a n b r.key }

/-- An operation's runs, changed. -/
def EngKind.mapRuns (g : Run → Run) : EngKind → EngKind
  | .copy ps => .copy (ps.map fun p => (p.1.map g, p.2.map g))
  | .gather len n rows ix table packed => .gather len n rows (ix.map g) (table.map g) (packed.map g)
  | .scatter len n rows ix table packed => .scatter len n rows (ix.map g) (table.map g) (packed.map g)
  | .drainMem first count clr dst => .drainMem first count clr (dst.map g)
  | .drainAdd first count clr isInt tbank tcore rank => .drainAdd first count clr isInt tbank tcore rank
  | .coll kind e ty op src dst => .coll kind e ty op (src.map g) (dst.map g)

/-- An operation follows bytes that move. -/
def EngOp.moved (o : EngOp) (a n b : Nat) : EngOp :=
  { o with kind := o.kind.mapRuns fun r => r.moved a n b, mem0 := Mem.move o.mem0 a n b, holes := o.holes.map fun r => r.moved a n b
           arr := o.arr.map fun x => { x with key := movedKey a n b x.key } }

/-- Bytes of a task move, with their errors, and its operations follow them [16 R262, 21 R339]. -/
def Dev.shift (d : Dev) (tid a n b : Nat) : Dev :=
  let word (w : Nat) : Nat := movedKey a n b (8 * w) / 8
  { d with mem := Mem.move d.mem a n b, eccOne := d.eccOne.map word, eccBad := d.eccBad.map word
           ops := updWhere (fun o => o.task == tid) (fun o => o.moved a n b) d.ops }

/-- A task's drains take their rows from another place, as those of another core. -/
def Dev.drainsFrom (d : Dev) (tid src : Nat) (c : Fin 256) : Dev :=
  { d with ops := updWhere (fun o => o.task == tid && o.ctx == .drain) (fun o => { o with src := src, core := c }) d.ops }

/-- The bytes of a task's scratchpad and banks go to the save area. -/
def Dev.stash (d : Dev) (j : Job) : Dev :=
  let d := d.shift j.id (Key.scratch j.core (j.sbase * 1024)) (j.scratch * 1024) (Key.save j.id 0)
  let d := (d.runsOfTask j).foldl (fun d r =>
    d.shift j.id (Key.casket j.core (r.first * 2 ^ 16)) (r.n * 2 ^ 16) (Key.save j.id (2 ^ 64 + r.first * 2 ^ 16))) d
  d.drainsFrom j.id (Key.save j.id (2 ^ 64)) j.core

/-- CONTEXT_SAVE: the strands of a halted task are written to the save area and leave the device [21 R339]. -/
def execContextSave (tid : Nat) (s : State) : Out :=
  s.event fun d =>
    match d.job? tid with
    | none => d
    | some j =>
      if !d.saveReady j then d
      else
        let sts := d.strandsOf tid
        let x : Saved :=
          { job := tid, strands := sts.map fun st => st.toSave d.cycle, scratch := if j.takeBk then j.scratch else 0
            banks := if j.takeBk then d.runsOfTask j else [] }
        let d := if j.takeBk then d.stash j else d
        let d := (d.takeAway j j.takeBk).onJob tid fun j => { j with st := .saved }
        { d with saved := d.saved ++ [x] }

/-! ### The restore [21 R340] -/

/-- A saved task's scratchpad and banks are allocated again on a core, with their bytes. -/
def Dev.giveBack (d : Dev) (j : Job) (x : Saved) (c : Fin 256) : Dev :=
  let base := ((d.core c).findKib x.scratch).getD 0
  let d := d.onCore c fun k =>
    { k with scratch := if x.scratch = 0 then k.scratch else k.scratch ++ [{ base := base, n := x.scratch, task := j.id }] }
  let d := d.updChain j.region fun r => { r with useScratch := r.useScratch + x.scratch }
  let d := (d.onJob j.id fun j => { j with sbase := base }).zeroRange (Key.scratch c (base * 1024)) (x.scratch * 1024)
  let d := x.banks.foldl (fun d r => d.takeBanks c j.region j.id r.first r.n) d
  let d := d.onCore c fun k =>
    { k with banks := k.banks.map fun r => if r.task = j.id then { r with closing := x.banks.any fun y => y.first == r.first && y.closing } else r }
  let d := d.shift j.id (Key.save j.id 0) (x.scratch * 1024) (Key.scratch c (base * 1024))
  x.banks.foldl (fun d r =>
    d.shift j.id (Key.save j.id (2 ^ 64 + r.first * 2 ^ 16)) (r.n * 2 ^ 16) (Key.casket c (r.first * 2 ^ 16))) d

/-- A restored fragment's wait goes on: peers' counters are asked for again, and an RCB that has been linked in the meantime
ends its wait. -/
def Dev.renewWait (d : Dev) (sid : Nat) (slot : Fin 4) (f : Frag) : Dev :=
  match f.st with
  | .parked (.awt _ ts) _ => ts.foldl (fun d x => d.askCounter sid slot x) d
  | .parked (.rgnew k) _ => if d.links.any fun x => x.1 == k then d else d.wakeFrag sid slot
  | _ => d

/-- One saved strand takes a slot of its quadrant on a core, and its blocks; groups that it has to issue again come
first, and its waits go on. -/
def Dev.landStrand (d : Dev) (c : Fin 256) (st : Strand) : Dev :=
  let st' : Strand := { st.mapFrags (fun f => f.toRun d.cycle) with core := c, slot := d.lowSlot c st.quad, launched := d.cycle }
  let n := st.blocks
  let d := { d with strands := d.strands ++ [st'.again] }
  let d := d.onQuad c st.quad fun q => { q with free := q.free - n, accessN := q.accessN + st.flights.length }
  let d := d.updChain st.region fun r => { r with useSlots := r.useSlots + 1, useBlocks := r.useBlocks + n }
  st'.live.foldl (fun d x => d.renewWait st.id x.1 x.2) d

/-- A task's context is restored on a core: what was reclaimed comes back, its strands run on, its drains resume. -/
def Dev.restoreOn (d : Dev) (j : Job) (x : Saved) (c : Fin 256) : Dev :=
  let d := { d with saved := d.saved.filter fun y => y.job != j.id }
  let d := if j.takeBk then (d.giveBack j x c).drainsFrom j.id (Key.casket c 0) c else d
  let d := x.strands.foldl (fun d st => d.landStrand c st) d
  let d := d.onJob j.id fun j => { j with st := .running, core := c, takeBk := false }
  { d with ops := updWhere (fun o => o.task == j.id) (fun o => { o with halted := false }) d.ops }

/-- The report of a read of a saved context that meets an uncorrectable error in a word, on the core of the restore
[21 R329, R335, R336]. -/
def saveReport (j : Job) (c : Fin 256) (w : Nat) : Report :=
  { Report.sched 0x21 0 j.recVa 0 (eccDetail (8 * w)) with flags := 0, core := c.val, taskidx := j.idx, rank := c.val * 2048 }

/-- A task's share of the save area. -/
def saveRun (tid : Nat) : Run := { key := Key.save tid 0, len := 2 ^ 96 }

/-- TASK_RESTORE: a saved task that fits is restored; an uncorrectable error in its context ends it [21 R335, R340]. -/
def execTaskRestore (tid : Nat) (s : State) : Out :=
  s.event fun d =>
    match d.job? tid, d.saved.find? fun x => x.job == tid with
    | some j, some x =>
      match d.restoreCore j x with
      | none => d
      | some c =>
        let d := d.correct .read (saveRun tid)
        match d.eccHit .read (saveRun tid) with
        | some w => (d.countUnc.countMchk c).strike tid j.region (saveReport j c w)
        | none => d.restoreOn j x c
    | _, _ => d

/-- A released task of a higher region priority comes before a saved one: it fits, or tasks are being saved for it
[17 R284; 21 R338, R340]. -/
def Dev.comesFirst (d : Dev) (t j : Job) : Bool :=
  decide (d.prioOf j.region < d.prioOf t.region) &&
  ((d.coreFor t).isSome || (match d.nextVictim with
    | some (_, t') => t'.id == t.id
    | none => d.jobs.any fun v => v.st == .halting))

/-- The saved tasks that can be restored. -/
def Dev.restorable (d : Dev) : List Nat :=
  (d.saved.filter fun x => match d.job? x.job with
    | some j => (d.restoreCore j x).isSome && !(d.releasedJobs.any fun t => d.comesFirst t j)
    | none => false).map Saved.job

end Sys2Proof.Machine
end

