-- ==== Sys2Proof/Machine/Power.lean ====
section
/-! DEFINITION. Power control: grants, bubbles, the fail-safe floor, rails, thermal limits [22 R349, R353-R355; 24 R382].
Grants are in 0.25 W. Bubble cycles are not counted (log 8): `cycle` counts the others [22 R354]. -/

namespace Sys2Proof.Machine

/-- The floor grant, 250 W, and the module's limit, 2,000 W. -/
def floorGrant : Nat := 1000
def moduleLimit : Nat := 8000

/-- The bubbles of the device: the largest count among its dies [22 R354]. -/
def Dev.bubbles (d : Dev) : Nat := d.power.bubbles.toList.foldl max 0

def Dev.onPower (d : Dev) (f : Power → Power) : Dev := { d with power := f d.power }

/-- The die of a core [23 R356]. -/
def dieOf (c : Fin 256) : Nat := c.val / 64

/-- A core stays on the low rail: a deterministic-mode strand is on it, or its die is at the floor [06 R111, 22 R355]. -/
def Dev.keptLow (d : Dev) (c : Fin 256) : Bool :=
  (d.all.any fun st => st.core == c && st.det) || d.power.floor.toList.getD (dieOf c) false

/-- A core is moved to the low rail at once; a request for the high rail waits. -/
def Core.lower (k : Core) : Core := { k with rail := false, railDue := if k.railsel then some true else k.railDue }

/-- A rail change may complete: one to the high rail only where nothing keeps the core low. -/
def Dev.railReady (d : Dev) (c : Fin 256) : Bool :=
  match (d.core c).railDue with
  | none => false
  | some high => !high || !d.keptLow c

/-- RAIL_CHANGE_COMPLETION [22 R349, 06 R111]. -/
def execRailChangeCompletion (core : Fin 256) (s : State) : Out :=
  s.event fun d =>
    if d.railReady core then
      d.onCore core fun k => { k with rail := k.railDue.getD k.rail, railDue := none }
    else d

/-- Cores that hold deterministic-mode strands run on the low rail [06 R111]. -/
def Dev.railTick (d : Dev) : Dev :=
  d.all.foldl (fun d st => if st.det && (d.core st.core).rail then d.onCore st.core Core.lower else d) d

/-- GOVERNOR_RAIL_WRITE: the firmware governor sets a core's railsel and caratcap [22 R349, R351]. -/
def execGovernorRailWrite (core : Fin 256) (high : Bool) (cap : BitVec 24) (s : State) : Out :=
  s.event fun d => d.onCore core fun k => { k.setRail high with caratcap := cap }

/-- 105 C and 115 C, in 1/16 C [24 R381, R382]. -/
def limitTemp : Int := 1680
def shutdownTemp : Int := 1840

/-- ARBITER_INTERVAL: the sensors are read, and the arbiter grants each die a budget, within the module's limit; a die that is or
has been at 105 C gets no more than its floor, and one at 115 C shuts the package down. Temperatures and powers are physical,
and free (log 8) [22 R353, 24 R381, R382]. -/
def execArbiterInterval (grants : List Nat) (s : State) : Out :=
  s.event fun d =>
    let free (i : Nat) : BitVec 16 := BitVec.ofNat 16 (Config.freeChoice (d.fresh + i))
    let hot (i : Fin 4) : Bool := decide (limitTemp ≤ (free i.val).toInt)
    let g (i : Fin 4) : Nat := let v := grants.getD i.val 0; if d.power.limited[i] || hot i then min v floorGrant else v
    if moduleLimit < ((List.finRange 4).map g).sum then d
    else
      let d := (List.finRange 4).foldl (fun d i => d.plan d.cycle (.dieGrant i (g i))) d
      let d := ((List.finRange 4).filter fun i => decide (shutdownTemp ≤ (free i.val).toInt)).foldl
        (fun d i => d.plan d.cycle (.thermalShutdown i)) d
      let d := d.onPower fun p =>
        { p with limited := Vector.ofFn hot, temp := Vector.ofFn fun i => free i.val, power := Vector.ofFn fun i => free (4 + i.val) }
      { d with fresh := d.fresh + 8 }

/-- The cores of a die. -/
def coresOf (die : Fin 4) : List (Fin 256) := (List.finRange 256).filter fun c => dieOf c == die.val

/-- DIE_GRANT: the die makes a bubble count of its grant; a die at the floor leaves it, and its requested rails come back
[22 R353, R355]. -/
def execDieGrant (die : Fin 4) (grant : Nat) (s : State) : Out :=
  s.event fun d =>
    d.onPower fun p =>
      { p with grant := p.grant.set die (BitVec.ofNat 16 grant), bubbles := p.bubbles.set die (Config.bubblesOf die.val grant % 57)
               floor := p.floor.set die false }

/-- GRANT_TIMEOUT: the die falls to its floor: every core on the low rail, 32 bubbles in 64 cycles [22 R355]. -/
def execGrantTimeout (die : Fin 4) (s : State) : Out :=
  s.event fun d =>
    let d := (coresOf die).foldl (fun d c => d.onCore c Core.lower) d
    d.onPower fun p => { p with bubbles := p.bubbles.set die 32, floor := p.floor.set die true }

/-- THERMAL_LIMIT: a sensor of the die is at 105 C, and its next grant is no more than the floor [24 R382]. -/
def execThermalLimit (die : Fin 4) (s : State) : Out :=
  s.event fun d => d.onPower fun p => { p with limited := p.limited.set die true, temp := p.temp.set die (BitVec.ofInt 16 limitTemp) }

/-- THERMAL_SHUTDOWN: core power is removed from the package, the event is recorded, and BOOTSTAT reads 0 until the next power-on
[24 R382]. -/
def execThermalShutdown (die : Fin 4) (s : State) : Out :=
  s.event fun d =>
    let d := d.onPower fun p =>
      { p with off := true, events := p.events ++ [die]
               temp := if p.temp[die].toInt < shutdownTemp then p.temp.set die (BitVec.ofInt 16 shutdownTemp) else p.temp }
    { d with boot := { d.boot with step := 0, failure := 0 } }

end Sys2Proof.Machine
end

