-- ==== Sys2Proof/Machine/Signets.lean ====
section
/-! DEFINITION. Signets: their check values, the descriptor table, the signet words, the home's verdicts, death and the
finaliser [19 R291-R307]. -/

namespace Sys2Proof.Machine

/-! ### The signet [19 R291, R292] -/

def sigHome (lo : W64) : Nat := lo.toNat % 2 ^ 12
def sigIndex (lo : W64) : Nat := lo.toNat / 2 ^ 12 % 2 ^ 40
def sigExp (lo : W64) : Nat := lo.toNat / 2 ^ 52 % 2 ^ 6
def sigZero (lo : W64) : Nat := lo.toNat / 2 ^ 59

/-- A signet's low word with another exponent. -/
def sigWithExp (lo : W64) (e : Nat) : W64 := BitVec.ofNat 64 (lo.toNat - sigExp lo * 2 ^ 52 + e * 2 ^ 52)

/-- The low word of a signet of this device. -/
def sigOf (index e ind : Nat) : W64 := BitVec.ofNat 64 (Config.devid.toNat + index * 2 ^ 12 + e * 2 ^ 52 + ind * 2 ^ 58)

/-- A 64-bit KMAC256 output as a number. -/
def sigMac (m : List Byte) (custom : List Nat) : W64 := BitVec.ofNat 64 (ofBytes (kmac256 Config.signetKey m 8 (asciiBytes custom)))

/-- The part of the check value that the weight gives. -/
def sigWeight (e : Nat) : W64 := sigMac [BitVec.ofNat 8 e] [87, 71, 84]

/-- The check value [19 R292]. -/
def sigCheck (lo gen : W64) : W64 :=
  sigMac (toBytes 8 (sigWithExp lo 0).toNat ++ toBytes 8 gen.toNat) [83, 71, 78] ^^^ sigWeight (sigExp lo)

/-! ### Descriptors [19 R293] -/

/-- A descriptor that no signet has used. DESIGN CHOICE (log 6): its generation is 0. -/
def Desc.fresh (index : Nat) : Desc where
  index := index
  st := 0
  gen := 0
  total := 0
  returned := 0
  record := 0
  innerLo := 0
  innerChk := 0
  finEntry := 0
  finArg := 0
  owner := 0
  clasp := 0

def Dev.desc (d : Dev) (i : Nat) : Desc := (d.descs.find? fun x => x.index == i).getD (Desc.fresh i)
def Dev.setDesc (d : Dev) (x : Desc) : Dev := { d with descs := x :: d.descs.filter fun y => y.index != x.index }

/-- The lowest free descriptor from an index on; `n` bounds the search. -/
def Dev.lowestDesc (d : Dev) : Nat → Nat → Nat
  | 0, i => i
  | n + 1, i => if (d.desc i).st = 0 then i else d.lowestDesc n (i + 1)

def Dev.freeDesc (d : Dev) : Nat := d.lowestDesc d.descs.length 1

/-- The descriptors that are free and promised to no HNEW. -/
def Dev.descsLeft (d : Dev) : Nat :=
  1048575 - ((d.descs.filter fun x => x.st != 0).length + (d.sigs.filter fun r => r.ask == .new).length)

/-- A check value against a descriptor: code and reason of a failure [19 R296]. -/
def Dev.sigFail (d : Dev) (lo chk : W64) : Option (Nat × Nat) :=
  let x := d.desc (sigIndex lo)
  if x.st ≠ 0 ∧ chk = sigCheck lo x.gen then none
  else if chk = sigCheck lo (x.gen - 1) then some (0x1D, 1)
  else some (0x1C, 3)

/-! ### Creation records [19 R294] -/

/-- The shard entries of a creation record, from its address in a space; none where it is malformed or can not be read. -/
def Dev.shards (d : Dev) (space va : Nat) : Option (List W64) :=
  match d.schedNum space va 4 with
  | none => none
  | some n =>
    if n = 0 ∨ 64 < n ∨ ¬ d.zeroAt space (va + 4) 12 then none
    else
      (List.range n).mapM fun i =>
        match d.schedNum space (va + 16 + 16 * i) 8, d.schedNum space (va + 24 + 16 * i) 8 with
        | some b, some w => if w % 2 ^ 48 = 0 ∨ 2 ^ 60 ≤ w then none else some (BitVec.ofNat 64 b)
        | _, _ => none

/-- A shard's base translates in a space, whatever rights its page grants [19 R296]. -/
def Dev.mapped (d : Dev) (space : Nat) (va : W64) : Bool := (d.placed space va.toNat).isSome

/-! ### Answers to a lane [19 R296] -/

/-- The trapinfo of a failed verdict. -/
def sigInfo (first : W64) (reason : Nat) : W64 := BitVec.ofNat 64 (first.toNat % 2 ^ 59 + reason * 2 ^ 59)

/-- A request is answered: its lane's results are ready, or its failure is noted; with the last answer the verdict sets out
for the lane's word. -/
def Dev.answer (d : Dev) (r : SigReq) (writes : List RegWrite) (fail : Option (Nat × Nat)) : Dev :=
  let d := { d with sigs := d.sigs.filter fun x => x.id != r.id }
  match d.flight? r.sid r.fid with
  | none => d
  | some f =>
    let f := { f with waits := f.waits - 1, writes := f.writes ++ (if fail.isNone then writes else []) }
    let f := match fail with
      | none => f
      | some (code, reason) => { f with fails := f.fails ++ [{ lane := r.lane, code := code, info := sigInfo r.first reason }] }
    let d := d.onStrand r.sid fun st => { st with flights := updWhere (fun x => x.id == f.id) (fun _ => f) st.flights }
    if f.waits = 0 then d.planSomeday (.signetVerdictArrival r.sid r.fid) else d

/-- SIGNET_VERDICT_ARRIVAL: results arrive; the lanes whose verdict failed keep their registers and hold a trap
[19 R296]. -/
def execSignetVerdictArrival (sid fid : Nat) (s : State) : Out :=
  s.event fun d =>
    match d.flight? sid fid with
    | none => d
    | some f =>
      if f.kind ≠ .verdict ∨ f.waits ≠ 0 then d
      else
        let hold (x : Verdict) (y : Lane) : Lane := { y with held := y.held ++ [{ word := f.id, code := x.code, info := x.info }] }
        (d.onStrand sid fun st => f.fails.foldl (fun st x => st.onLane x.lane (hold x)) st).landFlight sid f

/-! ### At the home [19 R296-R304] -/

/-- A drop's post on a descriptor of this device: the failure, and whether the descriptor died [19 R301]. -/
def Dev.post (d : Dev) (lo chk : W64) : Dev × Option (Nat × Nat) × Option Desc :=
  match d.sigFail lo chk with
  | some e => (d, some e, none)
  | none =>
    let x := d.desc (sigIndex lo)
    let sum := x.returned + 2 ^ sigExp lo
    if sum < x.total then (d.setDesc { x with returned := sum, clasp := x.clasp + 1 }, none, none)
    else if sum = x.total then
      (d.setDesc { x with st := 0, gen := x.gen + 1, returned := sum, clasp := x.clasp + 1 }, none, some x)
    else (d.setDesc { x with st := 0, gen := x.gen + 1 }, some (0x1D, 2), some x)

/-- A finaliser is released into the owner region's ready queue [19 R302]. -/
def Dev.startFinaliser (d : Dev) (x : Desc) : Dev :=
  match d.region? x.owner with
  | none => d
  | some r =>
    if x.finEntry = 0 ∨ ¬ r.live then d
    else
      let j : Job :=
        { Job.blank with
          id := d.next, batch := d.next, fin := true, space := r.id, region := r.id, entry := x.finEntry, arg := x.finArg
          st := .released, rel := { cycle := d.cycle, core := 256, lane := 0 } }
      { d.bump with jobs := d.jobs ++ [j] }.taskIn r.id

/-- A request for a home sets out: to a peer as a transaction, to this device as an event that `due` places. -/
def Dev.ask (d : Dev) (r : SigReq) (due : Nat) : Dev :=
  let home := sigHome r.lo
  let here := home = Config.devid.toNat ∨ r.ask = .new
  let d := { d with sigs := d.sigs ++ [{ r with remote := !decide here }] }
  if here then d.plan due (if r.ask = .drop then .dropPostApply r.id else .homeVerdict r.id)
  else
    match r.ask with
    | .drop => d.send home (.post r.lo r.chk) (.signet r.id)
    | .deref n => d.send home (.verdict r.lo r.chk (.deref n)) (.signet r.id)
    | .fin e a => d.send home (.verdict r.lo r.chk (.fin e a)) (.signet r.id)
    | .new => d

/-- A dead descriptor's consequences: a tensor's finaliser, or a cell's own drop of its inner signet [19 R299, R302]. -/
def Dev.afterDeath (d : Dev) (x : Desc) : Dev :=
  if x.st = 1 then d.startFinaliser x
  else
    let r : SigReq :=
      { id := d.next, sid := 0, fid := 0, lane := 0, reg := 0, ask := .drop, first := x.innerLo, lo := x.innerLo
        chk := x.innerChk, hops := 0, owner := x.owner, remote := false, read := [], got := [], waits := 0 }
    (d.bump.ask r d.someday).drew

/-- A cell's drop has failed: the owner region's fault domain is told [19 R299]. -/
def Dev.cellFail (d : Dev) (r : SigReq) (code reason : Nat) : Dev :=
  let d := { d with sigs := d.sigs.filter fun x => x.id != r.id }
  d.schedFault r.owner code reason 0 r.first

/-- The drop of a request is answered: the lane's quad becomes the empty signet, or the failure is delivered [19 R300]. -/
def Dev.dropAnswer (d : Dev) (r : SigReq) (fail : Option (Nat × Nat)) : Dev :=
  if r.sid = 0 then
    match fail with
    | none => { d with sigs := d.sigs.filter fun x => x.id != r.id }
    | some (code, reason) => d.cellFail r code reason
  else d.answer r (regWrites r.lane r.reg 4 (toBytes 16 0)) fail

/-- DROP_POST_APPLY: the home applies a post of this device [19 R301]. -/
def execDropPostApply (req : Nat) (s : State) : Out :=
  s.event fun d =>
    match d.sigs.find? fun r => r.id == req with
    | none => d
    | some r =>
      if r.ask ≠ .drop ∨ r.remote then d
      else
        let (d, fail, dead) := d.post r.lo r.chk
        let d := match dead with
          | none => d
          | some x => d.afterDeath x
        d.dropAnswer r fail

/-- What a home says to a verdict request: a value, a failure, or the signet of the cell that the request reached. -/
inductive HomeSays where
  | value (v : W64)
  | fail (code reason : Nat)
  | follow (lo chk : W64)
  deriving DecidableEq, Repr

/-- HDEREF at the tensor's home [19 R303]. -/
def Dev.derefAt (d : Dev) (x : Desc) (shard : Nat) : HomeSays :=
  match d.shards x.owner x.record.toNat with
  | none => .fail 0x1C 7
  | some bs =>
    match bs[shard]? with
    | none => .fail 0x1C 4
    | some b => if d.mapped x.owner b then .value b else .fail 0x1C 7

/-- A verdict request at a home: the check, then the tensor's act, or on to the inner signet of a cell [19 R296, R299,
R303, R304]. -/
def Dev.judge (d : Dev) (lo chk : W64) (ask : VerdictAsk) : Dev × HomeSays :=
  match d.sigFail lo chk with
  | some (code, reason) => (d, .fail code reason)
  | none =>
    let x := d.desc (sigIndex lo)
    if x.st = 2 then (d, .follow x.innerLo x.innerChk)
    else match ask with
      | .deref n => (d, d.derefAt x n)
      | .fin e a => (d.setDesc { x with finEntry := e, finArg := a }, .value 0)

/-- The creation record that a request of this device reads at this home: its space and its address. -/
def Dev.recordOf (d : Dev) (r : SigReq) : Option (Nat × Nat) :=
  match r.ask with
  | .new => some (r.owner, r.lo.toNat)
  | .deref _ =>
    let x := d.desc (sigIndex r.lo)
    if (d.sigFail r.lo r.chk).isNone ∧ x.st = 1 then some (x.owner, x.record.toNat) else none
  | .fin _ _ | .drop => none

/-- The bytes of peers among `n` bytes from an address of a space, as far as they translate with R. -/
def Dev.peerBytes (d : Dev) (space va n : Nat) : List Run :=
  joinRuns ((List.range n).filterMap fun i => (d.schedKey space .read ((va + i) % 2 ^ 64)).bind fun x =>
    if (peerOf x.1).isSome then some { key := x.1, len := 1 } else none)

/-- The device with the bytes in memory that peers have sent for a request's record, to read the record in. -/
def Dev.withGot (d : Dev) (r : SigReq) : Dev := { d with mem := r.got.foldl (fun m c => Mem.put m c.1 c.2) d.mem }

/-- What a record needs that peers have not been asked for: its first 16 bytes, then its shard entries [23 R361]. -/
def Dev.recordNeeds (d : Dev) (r : SigReq) : List Run :=
  match d.recordOf r with
  | none => []
  | some (space, va) =>
    let n := ((d.withGot r).schedNum space va 4).getD 0
    (d.peerBytes space va 16 ++ d.peerBytes space (va + 16) (if n ≤ 64 then 16 * n else 0)).filter fun x => !r.read.contains x

/-- A request waits at its home, which asks peers for the record's bytes. -/
def Dev.askRecord (d : Dev) (r : SigReq) (need : List Run) : Dev :=
  let r := { r with read := r.read ++ need, waits := need.length }
  let d := { d with sigs := (d.sigs.filter fun x => x.id != r.id) ++ [r] }
  need.foldl (fun d x => match peerOf x.key with
    | none => d
    | some (rank, a) => d.send rank (.read [(a, x.len)]) (.record r.id)) d

/-- A record that a request reads is read, with its errors [21 R334]. -/
def Dev.noteRecord (d : Dev) (r : SigReq) : Dev :=
  match d.recordOf r with
  | none => d
  | some (space, va) => d.noteRead space va (16 + 16 * min 64 ((d.schedNum space va 4).getD 0))

/-- What this home says to a request of its own device. -/
def Dev.judgeFor (d : Dev) (r : SigReq) : Dev × HomeSays :=
  match r.ask with
  | .deref n => (d.noteRecord r, ((d.withGot r).judge r.lo r.chk (.deref n)).2)
  | .fin e a => d.judge r.lo r.chk (.fin e a)
  | .new | .drop => (d, .value 0)

/-- A request goes on with what a home says; HDEREF follows at most 16 cells, whose chain goes on here at once where the next
home is this device, so that lanes that reach one descriptor act in their order; `n` bounds the chain [19 R295, R296,
R299]. -/
def Dev.hear : Nat → Dev → SigReq → HomeSays → Dev
  | _, d, r, .fail code reason => d.answer r [] (some (code, reason))
  | _, d, r, .value v => d.answer r (match r.ask with
      | .deref _ => regWrites r.lane r.reg 2 (toBytes 8 v.toNat)
      | _ => []) none
  | n, d, r, .follow lo chk =>
    let deref : Bool := match r.ask with
      | .deref _ => true
      | _ => false
    if deref && decide (16 ≤ r.hops) then d.answer r [] (some (0x1C, 5))
    else
      let d := { d with sigs := d.sigs.filter fun x => x.id != r.id }
      let r := { r with lo := lo, chk := chk, hops := r.hops + 1, remote := false, read := [], got := [], waits := 0 }
      match n with
      | 0 => (d.ask r d.someday).drew
      | n + 1 =>
        if sigHome lo ≠ Config.devid.toNat then d.ask r d.cycle
        else
          let d := { d with sigs := d.sigs ++ [r] }
          match d.recordNeeds r with
          | [] =>
            let (d, word) := d.judgeFor r
            Dev.hear n d r word
          | need => d.askRecord r need

def Dev.heard (d : Dev) (r : SigReq) (word : HomeSays) : Dev := Dev.hear (d.descs.length + 1) d r word

/-- HNEW at its home: the record is read, and a descriptor is made [19 R297]. -/
def Dev.makeTensor (d : Dev) (r : SigReq) : Dev :=
  let got := d.withGot r
  let d := d.noteRecord r
  match got.shards r.owner r.lo.toNat with
  | none => d.answer r [] (some (0x1C, 7))
  | some bs =>
    if !(bs.all fun b => d.mapped r.owner b) then d.answer r [] (some (0x1C, 7))
    else
      let i := d.freeDesc
      let x := d.desc i
      let lo := sigOf i 47 0
      let d := d.setDesc { x with st := 1, total := 2 ^ 47, returned := 0, record := r.lo, innerLo := 0, innerChk := 0
                                  finEntry := 0, finArg := 0, owner := r.owner, clasp := 0 }
      d.answer r (regWrites r.lane r.reg 4 (toBytes 8 lo.toNat ++ toBytes 8 (sigCheck lo x.gen).toNat)) none

/-- HOME_VERDICT: the home verifies a request of this device and acts on the descriptor; bytes of a creation record that lie
at peers are read before [19 R296, R297, R303]. -/
def execHomeVerdict (req : Nat) (s : State) : Out :=
  s.event fun d =>
    match d.sigs.find? fun r => r.id == req with
    | none => d
    | some r =>
      if r.remote ∨ r.waits ≠ 0 then d else
      match r.ask, d.recordNeeds r with
      | .drop, _ => d
      | .new, [] => d.makeTensor r
      | _, [] =>
        let (d, word) := d.judgeFor r
        d.heard r word
      | _, need => d.askRecord r need

/-! ### The words [19 R295-R305] -/

/-- The four registers of a quad, as destinations. -/
def quadMarks (ex : W32) (r : GReg) : List Dest := loadMarks ex r 4

/-- The low word and the check of a lane's quad. -/
def Lane.sigLo (x : Lane) (r : GReg) : W64 := x.rpair r
def Lane.sigChk (x : Lane) (r : GReg) : W64 := x.rpair (r.plus 2)

/-- Invalid signet (0x1C) in the lanes that fail a test; trapinfo from the lowest [19 R296]. -/
def State.sigTrap (s : State) (ex : W32) (reason : Nat) (reg : GReg) (bad : Lane → Bool) : Option Trap :=
  let lanes := maskOf fun l => hasLane ex l && bad (s.old.lane l)
  if lanes = 0 then none
  else some { Trap.user 0x1C lanes (sigInfo ((s.old.lane (lowLane lanes)).sigLo reg) reason) with reason := reason }

/-- The local checks of a signet that a word uses [19 R296 item 1]. -/
def State.sigLocal (s : State) (ex : W32) (y : GReg) : Option Trap :=
  s.sigTrap ex 1 y (fun x => x.rquad y == 0) <|>
  s.sigTrap ex 2 y fun x => sigZero (x.sigLo y) != 0 || decide (48 ≤ sigExp (x.sigLo y))

/-- The local check of a quad that must be empty [19 R296 item 2]. -/
def State.sigEmpty (s : State) (ex : W32) (x y : GReg) : Option Trap := s.sigTrap ex 6 y fun l => l.rquad x != 0

/-- The lanes' requests set out, in ascending lane order, and a flight waits for their verdicts; HDEREF is an acquire
[19 R303]. -/
def State.askHome (s : State) (ex : W32) (marks : List Dest) (req : LaneId → SigReq) : State :=
  if ex = 0 then s else
  let acq : Bool := match (req (lowLane ex)).ask with
    | .deref _ => true
    | .new | .fin _ _ | .drop => false
  let f := { s.flight ex .verdict with marks := marks, waits := laneCount ex, acq := acq }
  s.onDev fun d =>
    let d := d.setOut f (.signetVerdictArrival s.old.id f.id)
    let due := d.someday
    (lanesOf ex).foldl (fun d l =>
      d.bump.ask { req l with id := d.next, sid := s.old.id, fid := f.id, lane := l } due) d.drew

/-- A request with nothing asked. -/
def SigReq.blank : SigReq where
  id := 0
  sid := 0
  fid := 0
  lane := 0
  reg := 0
  ask := .new
  first := 0
  lo := 0
  chk := 0
  hops := 0
  owner := 0
  remote := false
  read := []
  got := []
  waits := 0

def execHnew (h : Hdr) (x y : GReg) (s : State) : Out :=
  let ex := s.exec h
  let ea (l : LaneId) : W64 := (s.old.lane l).rpair y
  s.reach ex .read 16 ea 16 fun _ t =>
    if t.now.descsLeft < laneCount ex then .next (t.setBlock .descriptor)
    else .next (t.askHome ex (quadMarks ex x) fun l =>
      { SigReq.blank with reg := x, ask := .new, first := ea l, lo := ea l, owner := s.old.region })

/-- A signet split in two [19 R298]. -/
def sigSplit (lo chk : W64) : W64 × W64 :=
  let e := sigExp lo
  (sigWithExp lo (e - 1), chk ^^^ sigWeight e ^^^ sigWeight (e - 1))

/-- A cell takes a signet of weight 1, and half of the cell's own weight is handed out twice [19 R299]. -/
def Dev.makeCell (d : Dev) (lo chk : W64) (owner : Nat) : Dev × W64 × W64 :=
  let i := d.freeDesc
  let x := d.desc i
  let out := sigOf i 46 1
  (d.setDesc { x with st := 2, total := 2 ^ 47, returned := 0, record := 0, innerLo := lo, innerChk := chk, finEntry := 0
                      finArg := 0, owner := owner, clasp := 0 }, out, sigCheck out x.gen)

/-- The lanes copy in ascending order [19 R298, R299]. -/
def Dev.copyLanes (d : Dev) (st : Strand) (x y : GReg) : List LaneId → Dev × List RegWrite
  | [] => (d, [])
  | l :: ls =>
    let lo := (st.lane l).sigLo y
    let chk := (st.lane l).sigChk y
    let (d, lo, chk) : Dev × W64 × W64 :=
      if sigExp lo = 0 then d.makeCell lo chk st.region else (d, sigSplit lo chk)
    let bs := toBytes 8 lo.toNat ++ toBytes 8 chk.toNat
    let (d, ws) := d.copyLanes st x y ls
    (d, regWrites l x 4 bs ++ regWrites l y 4 bs ++ ws)

def execHcopy (h : Hdr) (x y : GReg) (s : State) : Out :=
  let ex := s.exec h
  orTrap (s.sigLocal ex y <|> s.sigEmpty ex x y) s <|
    let cells := maskOf fun l => hasLane ex l && sigExp ((s.old.lane l).sigLo y) == 0
    if s.now.descsLeft < laneCount cells then s.setBlock .descriptor
    else
      let (d, ws) := s.now.copyLanes s.old x y (lanesOf ex)
      { s with now := d }.arriveLater ex (quadMarks ex x ++ quadMarks ex y) ws

def execHdrop (h : Hdr) (y : GReg) (s : State) : Out :=
  let ex := s.exec h
  orTrap (s.sigLocal ex y) s <|
    s.askHome ex (quadMarks ex y) fun l =>
      { SigReq.blank with
        reg := y, ask := .drop, first := (s.old.lane l).sigLo y, lo := (s.old.lane l).sigLo y, chk := (s.old.lane l).sigChk y }

def execHderef (h : Hdr) (x y : GReg) (s : State) : Out :=
  let ex := s.exec h
  orTrap (s.sigLocal ex y) s <|
    s.askHome ex (loadMarks ex x 2) fun l =>
      { SigReq.blank with
        reg := x, ask := .deref (((s.old.lane l).rg x).toNat % 64), first := (s.old.lane l).sigLo y
        lo := (s.old.lane l).sigLo y, chk := (s.old.lane l).sigChk y }

def execHfin (h : Hdr) (x y : GReg) (s : State) : Out :=
  let ex := s.exec h
  orTrap (s.sigLocal ex y) s <|
    s.askHome ex [] fun l =>
      { SigReq.blank with
        ask := .fin ((s.old.lane l).rpair x) ((s.old.lane l).rpair (x.plus 2)), first := (s.old.lane l).sigLo y
        lo := (s.old.lane l).sigLo y, chk := (s.old.lane l).sigChk y }

/-- HLD's and HST's address: alignment, the access checks, the atomic class at fabric scope [19 R296 item 3]. -/
def State.reachSig (s : State) (ex : W32) (y : GReg) (k : List (LaneId × List Piece) → State → Out) : Out :=
  let ea (l : LaneId) : W64 := (s.old.lane l).rpair y
  let rs := withClass .fb false ea (s.accessLanes ex .atomic ea 16)
  match s.misaligned ex 16 ea <|> laneFault .atomic (failsOf rs) with
  | some t => .next (s.trap t)
  | none => k (oksOf rs) (s.touchLanes (oksOf rs))

/-- One lane takes or puts a signet in memory, as one step; a peer's memory is reached by a transaction. The bytes that
the lane's result is made from [19 R305]. -/
def Dev.moveSig (d : Dev) (pc : W64) (fid : Nat) (put : Bool) (l : LaneId) (k : Nat) (lo chk : W64) : Dev × List Byte :=
  match peerOf k with
  | some (rank, a) => (d.send rank (if put then .sigPut a lo chk else .sigTake a) (d.focus.readOwner pc fid [Take.whole l 16]), toBytes 16 0)
  | none =>
    let party := partyOf d.focus l
    let old := d.readFor party k 16
    if put then
      if ofBytes old = 0 then (d.writeFor party k (toBytes 8 lo.toNat ++ toBytes 8 chk.toNat), [1]) else (d, [0])
    else (d.writeFor party k (toBytes 16 0), old)

/-- The lanes move their signets in ascending order. -/
def Dev.moveSigs (d : Dev) (pc : W64) (fid : Nat) (put : Bool) (st : Strand) (x : GReg) :
    List (LaneId × List Piece) → Dev × List (LaneId × List Byte)
  | [] => (d, [])
  | (l, ps) :: rest =>
    let (d, bs) := d.moveSig pc fid put l (keyOf ps) ((st.lane l).sigLo x) ((st.lane l).sigChk x)
    let (d, out) := d.moveSigs pc fid put st x rest
    (d, (l, bs) :: out)

/-- HLD and HST share their flight: the x quad is pending until the bytes are there. HLD is an acquire [19 R305]. -/
def State.sigFlight (s : State) (ex : W32) (put : Bool) (x : GReg) (oks : List (LaneId × List Piece)) : State :=
  if ex = 0 then s else
  let f := s.flight ex .memory
  let (d, bufs) := s.now.moveSigs f.pc f.id put s.old x oks
  let runs := oks.map fun y => (y.1, runsOf y.2)
  let f := { f with marks := quadMarks ex x, fill := if put then .hst x else .hld x, bufs := bufs, acq := f.acq || !put
                    waits := remoteRuns runs, far := farRuns runs }
  { s with now := d.setOut f (.memoryResultArrival s.old.id f.id) }

def execHld (h : Hdr) (x y : GReg) (s : State) : Out :=
  let ex := s.exec h
  match s.sigEmpty ex x x with
  | some t => .next (s.trap t)
  | none => s.reachSig ex y fun oks t => .next (t.sigFlight ex false x oks)

def execHst (h : Hdr) (x y : GReg) (s : State) : Out :=
  let ex := s.exec h
  match s.sigLocal ex x with
  | some t => .next (s.trap t)
  | none => s.reachSig ex y fun oks t => .next (t.sigFlight ex true x oks)

end Sys2Proof.Machine
end

