-- ==== Sys2Proof/Machine/Remote.lean ====
section
/-! DEFINITION. Eweoth transactions: at their target, and their responses and failures at their source [23 R360-R365]. -/

namespace Sys2Proof.Machine

/-! ### At the target [23 R360-R362] -/

/-- The device accepts transactions from its partition's members and its fabric peers [23 R364]. -/
def accepts (rank : Nat) : Bool := rank == Config.devid.toNat || Config.members.contains rank || Config.fabricPeers.contains rank

/-- A part of a transaction lies past device memory [23 R362]. -/
def partOut (x : Access × Nat × Nat) : Bool := decide (dramEnd < x.2.1 + x.2.2)

/-- A part of a transaction meets an uncorrectable error [21 R335, 23 R362]. -/
def Dev.partBad (d : Dev) (x : Access × Nat × Nat) : Bool := (d.eccHit x.1 { key := x.2.1, len := x.2.2 }).isSome

/-- What a home says, as the reply to a peer. -/
def HomeSays.reply : HomeSays → TxReply
  | .value v => .verdict 0 0 v.toNat
  | .fail code reason => .verdict code reason 0
  | .follow lo chk => .follow lo chk

/-- A signet is taken from, or put into, 16 bytes of this device for a peer [19 R305]. -/
def Dev.sigFor (d : Dev) (party a : Nat) (put : Option (W64 × W64)) : Dev × TxReply :=
  let old := d.readFor party a 16
  match put with
  | none => (d.writeFor party a (toBytes 16 0), .data old)
  | some (lo, chk) =>
    if ofBytes old = 0 then (d.writeFor party a (toBytes 8 lo.toNat ++ toBytes 8 chk.toNat), .data [1]) else (d, .data [0])

/-- A peer adds to a number of this device. An addition of 1 to the count of a clasp that is bound here is the peer's release
of it: it publishes what the peer has written to the range (log 41) [14 R239]. -/
def Dev.peerAtomic (d : Dev) (party a : Nat) (op : AtOp) (v expect : W64) : Dev × List Byte :=
  if op = .add64 ∧ v = 1 ∧ (d.clasp? a).isSome then
    let d := d.releaseClasp party (.soft a)
    (d.endRelease a d.seq).atomicAt party a op v expect
  else d.atomicAt party a op v expect

/-- A transaction is applied as one step, and answered [23 R361]. -/
def Dev.applyTx (d : Dev) (tx : Transaction) : Dev × TxReply :=
  let party := peerParty tx.src
  match tx.op with
  | .read ps => (d, .data (ps.flatMap fun p => d.readFor party p.1 p.2))
  | .write ps => (ps.foldl (fun d p => d.writeFor party p.1 p.2) d, .done)
  | .atomic op a v e =>
    let (d, old) := d.peerAtomic party a op v e
    (d, .data old)
  | .drain row => (d.applyRow row, .done)
  | .hot a n => (d.addHot a n, .done)
  | .post lo chk =>
    let (d, fail, dead) := d.post lo chk
    let d := match dead with
      | none => d
      | some x => d.afterDeath x
    (d, match fail with
      | none => .done
      | some (code, reason) => .verdict code reason 0)
  | .verdict lo chk ask =>
    let (d, word) := d.judge lo chk ask
    (d, word.reply)
  | .sigTake a => d.sigFor party a none
  | .sigPut a lo chk => d.sigFor party a (some (lo, chk))
  | .coll h data =>
    let p : CollPeer :=
      { region := h.region, num := h.num, rank := tx.src, kind := h.kind, e := h.e, ty := h.ty, op := h.op, bytes := data }
    ({ d with peers := d.peers ++ [p] }, .done)

/-- A transaction is applied, or rejected: for its source, for its address, or for an uncorrectable error [23 R362]. A
single-bit error is corrected and counted [21 R334]. -/
def Dev.meetTx (d : Dev) (tx : Transaction) : Dev × TxReply :=
  let parts := txParts tx.op
  if !accepts tx.src || parts.any partOut then (d, .rejected)
  else if parts.any d.partBad then (d.countUnc, .rejected)
  else (parts.foldl (fun d x => d.correct x.1 { key := x.2.1, len := x.2.2 }) d).applyTx tx

def Dev.inOf (d : Dev) (rank : Nat) : InTx := (d.inTx.find? fun x => x.rank == rank).getD { rank := rank, high := 0, resp := [] }

/-- The applied prefix goes on over sequences that were applied out of order; `n` bounds it. -/
def InTx.advance (x : InTx) : Nat → InTx
  | 0 => x
  | n + 1 => if x.resp.any fun r => r.1 == x.high then { x with high := x.high + 1 }.advance n else x

/-- A transaction has been applied already. DESIGN CHOICE (log 22): of the 2^48 sequences, the half before the next one count as
past [23 R360]. -/
def InTx.applied (x : InTx) (seq : BitVec 48) : Bool := (seq - x.high).getLsbD 47 || x.resp.any fun r => r.1 == seq

/-- TRANSACTION_RECEIVE: a transaction is applied once; one that has been applied gets its stored response again; none is taken
while a reset is in progress [23 R360, R371]. -/
def execTransactionReceive (tx : Transaction) (s : State) : Out :=
  s.event fun d =>
    let x := d.inOf tx.src
    if d.host.rstBusy ∨ tx.dst ≠ Config.devid.toNat then d
    else if x.applied tx.seq then
      match x.resp.find? fun r => r.1 == tx.seq with
      | none => d
      | some r => d.wire tx.src 0 tx (some r.2)
    else
      let (d, reply) := d.meetTx tx
      let x := { x with resp := (tx.seq, reply) :: x.resp.take 1023 }.advance 1024
      ({ d with inTx := x :: d.inTx.filter fun y => y.rank != tx.src } : Dev).wire tx.src 0 tx (some reply)

/-! ### At the source -/

def OutTx.named (t : OutTx) (rank : Nat) (seq : BitVec 48) : Bool := t.tx.dst == rank && t.tx.seq == seq
def Dev.outTx? (d : Dev) (rank : Nat) (seq : BitVec 48) : Option OutTx := d.outTx.find? fun t => t.named rank seq

/-- A transaction is over, and those that waited for it set out. -/
def Dev.dropTx (d : Dev) (rank : Nat) (seq : BitVec 48) : Dev :=
  { d with outTx := d.outTx.filter fun t => !t.named rank seq }.sendHeld

/-- Bytes of a list from an offset are replaced. -/
def patch (old : List Byte) (off : Nat) (bs : List Byte) : List Byte := old.take off ++ bs ++ old.drop (off + bs.length)

/-- The event that delivers a flight once its replies are there. -/
def Flight.arrival (f : Flight) (sid : Nat) : Instr :=
  if f.kind = .verdict then .signetVerdictArrival sid f.id
  else if f.inQueue then .matrixAccessCompletion sid f.id else .memoryResultArrival sid f.id

def Dev.onFlight (d : Dev) (sid fid : Nat) (g : Flight → Flight) : Dev :=
  d.onStrand sid fun st => { st with flights := updWhere (fun x => x.id == fid) g st.flights }

/-- One reply of a flight has come, or will not come; with the last one the result sets out [23 R361]. -/
def Dev.countReply (d : Dev) (sid fid : Nat) : Dev :=
  match d.flight? sid fid with
  | none => d
  | some f =>
    let d := d.onFlight sid fid fun f => { f with waits := f.waits - 1 }
    if f.waits = 1 then d.planSomeday (f.arrival sid) else d

/-- A lane's share of a reply comes into its buffer. -/
def Take.fill (t : Take) (bs : List Byte) (x : LaneId × List Byte) : LaneId × List Byte :=
  if x.1 = t.lane then (x.1, patch x.2 t.off ((bs.drop t.from_).take t.len)) else x

/-- Bytes that a clasp binds are what the lane sees of them [14 R241]. -/
def Flight.overlaid (f : Flight) : Flight :=
  { f with bufs := f.bufs.map fun x =>
      (x.1, (f.laid.filter fun y => y.1 == x.1).foldl (fun bs y => patch bs y.2.1 [y.2.2]) x.2) }

/-- A peer's bytes come to the lanes' buffers [23 R361]. -/
def Dev.readReply (d : Dev) (sid fid : Nat) (takes : List Take) (bs : List Byte) : Dev :=
  (d.onFlight sid fid fun f =>
    ({ f with bufs := takes.foldl (fun bufs (t : Take) => bufs.map (t.fill bs)) f.bufs } : Flight).overlaid).countReply sid fid

/-- A mask of a sparse load has come; with the last one its group issues again [07 R131]. -/
def Dev.maskReply (d : Dev) (sid : Nat) (slot : Fin 4) (id key : Nat) (bs : List Byte) : Dev :=
  match d.waitOf sid slot with
  | some (.masks id' keys) =>
    if id ≠ id' then d
    else
      let d := d.onStrand sid fun st => st.onFrag slot fun f => { f with ahead := f.ahead ++ [(key, bs)] }
      let have_ := ((d.strand? sid).bind fun st => st.frag slot).map Frag.ahead |>.getD []
      if keys.all fun x => have_.any fun y => y.1 == x.2.1 then d.wakeFrag sid slot else d
  | _ => d

/-- An AWT waits no longer for a counter. -/
def Dev.counterDone (d : Dev) (sid : Nat) (slot : Fin 4) (x : LaneId × Nat × Nat) : Dev :=
  d.onStrand sid fun st => st.onFrag slot fun f => match f.st with
    | .parked (.awt lanes ts) since => { f with st := .parked (.awt lanes (ts.filter fun t => t != x)) since }
    | _ => f

/-- A peer's counter has been read for a fragment that waits: it has reached its target, or it is read again
[14 R247]. -/
def Dev.counterReply (d : Dev) (sid : Nat) (slot : Fin 4) (x : LaneId × Nat × Nat) (bs : List Byte) : Dev :=
  match d.waitOf sid slot with
  | some (.awt _ ts) =>
    if !ts.contains x then d
    else if x.2.2 ≤ ofBytes bs then d.counterDone sid slot x
    else d.askCounter sid slot x
  | _ => d

/-- The bytes of a reply, by their peer's keys. -/
def partCells (rank : Nat) : List (Nat × Nat) → List Byte → List Host.Cell → List Host.Cell
  | [], _, old => old
  | p :: ps, bs, old => partCells rank ps (bs.drop p.2) (Mem.write old (Key.peer rank p.1) (bs.take p.2))

/-- The keys and the bytes that a reply gives to an engine or to the swap engine. -/
def gotCells (t : OutTx) (reply : TxReply) (old : List Host.Cell) : List Host.Cell :=
  match t.tx.op, reply with
  | .read ps, .data bs => partCells t.tx.dst ps bs old
  | _, _ => old

/-- One transaction of an operation has ended; the operation goes on when none is outstanding [16 R256, R261]. -/
def Dev.opReply (d : Dev) (op row : Nat) (t : OutTx) (f : EngOp → EngOp) : Dev :=
  let isRow := match t.tx.op with
    | .drain _ => true
    | _ => false
  if isRow then d.planSomeday (.drainRowCompletion op row)
  else
    let d := d.onOp op fun o => let o := f o; { o with waits := o.waits - 1 }
    match d.op? op with
    | none => d
    | some o =>
      if o.waits ≠ 0 then d
      else match o.kind with
        | .drainMem _ count _ _ => d.settleDrain op count
        | .drainAdd _ _ _ _ _ _ _ => d
        | .coll _ _ _ _ _ _ => if o.wrote then d.planSomeday (.collCompletion op) else d
        | .copy _ | .gather _ _ _ _ _ _ | .scatter _ _ _ _ _ _ => d.planSomeday (.copyCompletion op)

/-- A reply to a signet's request [19 R296, R299, R301]. -/
def Dev.signetReply (d : Dev) (req : Nat) (reply : TxReply) : Dev :=
  match d.sigs.find? fun r => r.id == req with
  | none => d
  | some r =>
    if r.ask = .drop then
      match reply with
      | .verdict code reason _ => d.dropAnswer r (if code = 0 then none else some (code, reason))
      | _ => d.dropAnswer r none
    else match reply with
      | .verdict 0 _ v => d.heard r (.value (BitVec.ofNat 64 v.toNat))
      | .verdict code reason _ => d.heard r (.fail code reason)
      | .follow lo chk => d.heard r (.follow lo chk)
      | _ => d

/-- Bytes of a creation record have come; with the last of them the home goes on with its request [19 R297, R303]. -/
def Dev.recordReply (d : Dev) (req : Nat) (t : OutTx) (reply : TxReply) : Dev :=
  match d.sigs.find? fun r => r.id == req with
  | none => d
  | some r =>
    let r := { r with waits := r.waits - 1, got := gotCells t reply r.got }
    let d := { d with sigs := updWhere (fun x => x.id == req) (fun _ => r) d.sigs }
    if r.waits = 0 then d.planSomeday (.homeVerdict req) else d

/-- A packet has come for a fragment: it is ready to issue from it [06 R102]. -/
def Dev.codeReply (d : Dev) (sid : Nat) (slot : Fin 4) (key : Nat) (bs : List Byte) : Dev :=
  d.onStrand sid fun st => st.onFrag slot fun f => { f with code := f.code ++ [(key, bs)] }

/-- A reply to a fetch's read [19 R311]. -/
def Dev.swapReply (d : Dev) (region layer num : Nat) (t : OutTx) (reply : TxReply) : Dev :=
  match d.fetch? region layer with
  | none => d
  | some f =>
    if f.num ≠ num then d
    else
      let f := { f with waits := f.waits - 1, got := gotCells t reply f.got }
      let d := { d with fetches := updWhere (fun x => x.region == region && x.layer == layer) (fun _ => f) d.fetches }
      if f.waits = 0 then d.planSomeday (.swapFetchCompletion region layer) else d

/-- The detail of a failed transaction: unit 11, its target rank and address; 0 where it has none [23 R363]. -/
def txDetail (rank : Nat) (op : TxOp) : W64 :=
  let a := ((txParts op).head?.map fun x => x.2.1).getD 0
  BitVec.ofNat 64 (11 * 2 ^ 56 + rank % 4096 * 2 ^ 44 + a % 2 ^ 44)

/-- The machine check of lanes whose access has failed. -/
def lateTrap (lanes : W32) (detail : W64) : Trap := { Trap.user 0x21 lanes 0 with detail := detail }

/-- Lanes get nothing from a flight: their destinations keep their values [23 R362]. -/
def Flight.lose (f : Flight) (lanes : W32) : Flight :=
  let g := f.forget lanes
  { g with bufs := if f.fill.uniform then [] else g.bufs, marks := if f.fill.uniform then [] else g.marks
           far := f.far.filter fun x => !hasLane lanes x.1 }

/-- A lane's load, atomic or signet request fails: a machine check to the lane's task [23 R362]. -/
def Dev.lateCheck (d : Dev) (sid fid : Nat) (lanes : W32) (detail : W64) : Dev :=
  match d.flight? sid fid with
  | none => d
  | some f => (d.onFlight sid fid fun f => f.lose lanes).lateFault sid (lateTrap lanes detail) f.pc

/-- A transaction writes to its target. -/
def txWrites (op : TxOp) : Bool := (txParts op).any fun p => p.1 != .read

/-- The same of a write whose strand has ended: its task, if that has not, is told. -/
def Dev.goneCheck (d : Dev) (task : Nat) (op : TxOp) (rep : Report) (detail : W64) : Dev :=
  match d.job? task with
  | none => d
  | some j => if txWrites op then d.machineCheck (Fin.ofNat 256 rep.core) task j.region { rep with detail := detail } else d

/-- A lane's store or arrival fails: a machine check to its task if that has not ended, otherwise to the root region; code of
system level takes it as a system fault [21 R323, 23 R362]. -/
def Dev.storeFails (d : Dev) (task sid : Nat) (rep : Report) (detail : W64) : Dev :=
  let system := ((d.strand? sid).bind fun st => (st.slotOf (lowLane rep.lanes)).bind fun i => (st.frag i).map Frag.prv).getD false
  if system then d.lateFault sid (lateTrap rep.lanes detail) rep.pc
  else d.machineCheck (Fin.ofNat 256 rep.core) task (((d.job? task).map Job.region).getD d.rootRcb) { rep with detail := detail }

/-- A read that a parked fragment made fails: a machine check to its lane's task. -/
def Dev.waitFails (d : Dev) (sid : Nat) (slot : Fin 4) (l : LaneId) (detail : W64) : Dev :=
  match (d.strand? sid).bind fun st => st.frag slot with
  | none => d
  | some f => if hasLane f.mask l then d.lateFault sid (lateTrap (oneLane l) detail) f.pc else d

/-- A request whose transaction has failed: its lane's word ends, or a cell's drop is lost [19 R299, 23 R362]. -/
def Dev.signetFails (d : Dev) (req : Nat) (detail : W64) : Dev :=
  match d.sigs.find? fun r => r.id == req with
  | none => d
  | some r =>
    let d := { d with sigs := d.sigs.filter fun x => x.id != req }
    if r.sid = 0 then d.pushReport r.owner (Report.sched 0x21 0 0 r.first detail)
    else (d.lateCheck r.sid r.fid (oneLane r.lane) detail).countReply r.sid r.fid

/-- A packet can not be fetched: the fragment's lanes take a machine check [23 R362]. -/
def Dev.codeFails (d : Dev) (sid : Nat) (slot : Fin 4) (detail : W64) : Dev :=
  match (d.strand? sid).bind fun st => st.frag slot with
  | none => d
  | some f => d.lateFault sid (lateTrap f.mask detail) f.pc

/-- The bytes of an operation whose read failed are left out; a collective's destination is then unspecified. -/
def EngOp.fails (o : EngOp) (t : OutTx) : EngOp :=
  let hole (p : Nat × Nat) : Run := { key := Key.peer t.tx.dst p.1, len := p.2 }
  let o := match t.tx.op with
    | .read ps => { o with holes := o.holes ++ ps.map hole }
    | _ => o
  match o.kind with
  | .coll _ _ _ _ _ _ => { o with lost := true }
  | .copy _ | .gather _ _ _ _ _ _ | .scatter _ _ _ _ _ _ | .drainMem _ _ _ _ | .drainAdd _ _ _ _ _ _ _ => o

/-- A transaction fails, or is rejected, with its operation's effect [23 R362]. -/
def Dev.failTx (d : Dev) (t : OutTx) : Dev :=
  let detail := txDetail t.tx.dst t.tx.op
  match t.owner with
  | .read task sid fid takes rep =>
    if (d.flight? sid fid).isNone then d.goneCheck task t.tx.op rep detail
    else (d.lateCheck sid fid (takeLanes takes) detail).countReply sid fid
  | .store task sid _ fid rep => (d.storeFails task sid rep detail).countReply sid fid
  | .hot => d
  | .clasp key rel task sid _ rep => (d.endRelease key rel).storeFails task sid rep detail
  | .mask sid slot id _ l =>
    let d := d.waitFails sid slot l detail
    match d.waitOf sid slot with
    | some (.masks id' _) => if id = id' then d.wakeFrag sid slot else d
    | _ => d
  | .counter sid slot key target l =>
    let asks (x : TxOwner) : Bool := match x with
      | .counter s i k n j => s == sid && i == slot && k == key && n == target && j == l
      | _ => false
    let more := (d.outTx.any fun x => asks x.owner) || d.heldTx.any fun x => asks x.owner
    let d := d.waitFails sid slot l detail
    if more then d else d.counterDone sid slot (l, key, target)
  | .engine op row =>
    match d.op? op with
    | none => d
    | some o => (d.engineCheck o detail).opReply op row t fun o => o.fails t
  | .signet req | .record req => d.signetFails req detail
  | .code sid slot _ => d.codeFails sid slot detail
  | .swap region layer num =>
    match d.fetch? region layer, d.region? region with
    | some f, some r => if f.num = num then d.failLayer r layer 2 else d
    | _, _ => d

/-- What this device has written at a peer has become visible there: its watches on those lines are triggered
[14 R242]. -/
def Dev.noteApplied (d : Dev) (t : OutTx) : Dev :=
  ((txParts t.tx.op).filter fun p => p.1 != .read).foldl (fun d p => d.trigger (Key.peer t.tx.dst p.2.1) p.2.2) d

/-- A response reaches the one who waits for it [23 R360, R361]. -/
def Dev.answered (d : Dev) (t : OutTx) (reply : TxReply) : Dev :=
  let d := if reply = .rejected then d else d.noteApplied t
  match t.owner, reply with
  | _, .rejected => d.failTx t
  | .read _ sid fid takes _, .data bs => d.readReply sid fid takes bs
  | .read _ _ _ _ _, _ => d
  | .store _ sid _ fid _, _ => d.countReply sid fid
  | .hot, _ => d
  | .clasp key rel _ _ _ _, _ => d.endRelease key rel
  | .mask sid slot id key _, .data bs => d.maskReply sid slot id key bs
  | .mask _ _ _ _ _, _ => d
  | .counter sid slot key target l, .data bs => d.counterReply sid slot (l, key, target) bs
  | .counter _ _ _ _ _, _ => d
  | .engine op row, _ => d.opReply op row t fun o => { o with got := gotCells t reply o.got }
  | .signet req, _ => d.signetReply req reply
  | .record req, _ => d.recordReply req t reply
  | .code sid slot key, .data bs => d.codeReply sid slot key bs
  | .code _ _ _, _ => d
  | .swap region layer num, _ => d.swapReply region layer num t reply

/-- TRANSACTION_RESPONSE: the source receives the response of a transaction [23 R360]. -/
def execTransactionResponse (rank seq : Nat) (reply : TxReply) (s : State) : Out :=
  s.event fun d =>
    let n : BitVec 48 := BitVec.ofNat 48 seq
    match d.outTx? rank n with
    | none => d
    | some t => (d.dropTx rank n).answered t reply

/-- TRANSACTION_RESEND_TIMEOUT: no response within 1 ms, so it is sent again along another route [23 R360]. -/
def execTransactionResendTimeout (rank seq : Nat) (s : State) : Out :=
  s.event fun d =>
    match d.outTx? rank (BitVec.ofNat 48 seq) with
    | none => d
    | some t =>
      ({ d with outTx := updWhere (fun x => x.tx == t.tx) (fun x => { x with tries := x.tries + 1 }) d.outTx } : Dev).wire
        rank (t.tries + 1) t.tx none

/-- TRANSACTION_FAILURE: no response within 10 ms [23 R360, R362]. -/
def execTransactionFailure (rank seq : Nat) (s : State) : Out :=
  s.event fun d =>
    let n : BitVec 48 := BitVec.ofNat 48 seq
    match d.outTx? rank n with
    | none => d
    | some t => (d.dropTx rank n).failTx t

/-! ### Host and CXL accesses that fail later [23 R369, R375] -/

/-- The runs that an operation may still be reading. -/
def Dev.reading (d : Dev) (o : EngOp) : List Run :=
  if o.wrote then []
  else match o.kind with
    | .copy pairs => pairs.flatMap Prod.fst
    | .gather _ _ _ ix _ _ | .scatter _ _ _ ix _ _ => match o.idx with
      | none => ix
      | some idx => (o.kind.moves idx).flatMap fun m => m.src.getD []
    | .coll _ _ _ _ src _ => if d.collSent o then [] else src
    | .drainMem _ _ _ _ | .drainAdd _ _ _ _ _ _ _ => []

/-- An operation does not get the bytes of runs: it completes without them [23 R362]. -/
def Dev.opLoses (d : Dev) (o : EngOp) (detail : W64) (rs : List Run) : Dev :=
  (d.engineCheck o detail).onOp o.id fun o => { o with holes := o.holes ++ rs }

/-- The lanes of a flight that read a run. -/
def Flight.readersOf (f : Flight) (r : Run) : W32 := maskOf fun l => f.far.any fun x => x.1 == l && x.2 == r

/-- An access of a flight, or of an engine operation, to a site of a list fails; which of several, is open (log 8)
[23 R362]. -/
def Dev.siteFails (d : Dev) (sid fid : Nat) (sites : List Nat) : Dev :=
  let pick (rs : List Run) : Option Run :=
    let rs := rs.filter fun r => sites.contains (siteOf r.key)
    rs[Config.freeChoice d.fresh % rs.length]?
  match d.flight? sid fid with
  | some f => match pick (f.far.map Prod.snd) with
    | none => d
    | some r => d.drew.lateCheck sid fid (f.readersOf r) (eccDetail r.key)
  | none => match d.op? fid with
    | none => d
    | some o => match pick (d.reading o) with
      | none => d
      | some r => d.drew.opLoses o (eccDetail r.key) [r]

/-- HOST_COMPLETION_TIMEOUT: no completion within 50 ms (unit 12) [23 R369]. -/
def execHostCompletionTimeout (sid fid : Nat) (s : State) : Out := s.event fun d => d.siteFails sid fid [2, 3]

/-- CXL_RESPONSE_TIMEOUT: no response within 10 ms (unit 10) [23 R375]. -/
def execCxlResponseTimeout (sid fid : Nat) (s : State) : Out := s.event fun d => d.siteFails sid fid [1]

/-- CXL_POISON_RESPONSE: a response marked as poisoned (unit 10) [23 R375]. -/
def execCxlPoisonResponse (sid fid : Nat) (s : State) : Out := s.event fun d => d.siteFails sid fid [1]

/-- Of a strand's flight, the lanes whose reads left through a port that is down, with the detail of the first. -/
def Dev.cutOff (d : Dev) (f : Flight) : Option (W32 × W64) :=
  let hit := f.far.filterMap fun x => (d.runDown x.2).map fun detail => (x.1, detail)
  match hit with
  | [] => none
  | x :: _ => some (maskOf fun l => hit.any fun y => y.1 == l, x.2)

/-- What is on its way through a port that has just gone down fails: swap reads, engine reads, lanes' accesses
[23 R369, R375]. -/
def Dev.losePort (d : Dev) : Dev :=
  let d := d.fetches.foldl (fun d f => match f.src.findSome? d.downCause, d.region? f.region with
    | some cause, some r => d.failLayer r f.layer cause
    | _, _ => d) d
  let d := d.ops.foldl (fun d o =>
    let rs := (d.reading o).filter fun r => (d.runDown r).isSome
    match rs.findSome? d.runDown with
    | none => d
    | some detail => d.opLoses o detail rs) d
  d.all.foldl (fun d st => st.flights.foldl (fun d f => match d.cutOff f with
    | none => d
    | some (lanes, detail) => d.lateCheck st.id f.id lanes detail) d) d

/-- CXL_PORT_DOWN: outstanding accesses of the port raise a machine check, and its swap reads fail with cause 1
[23 R375]. -/
def execCxlPortDown (port : Fin 8) (s : State) : Out :=
  s.event fun d => { d with cxlUp := d.cxlUp.set port false }.losePort

end Sys2Proof.Machine
end

