-- ==== Sys2Proof/Machine/Host.lean ====
section
/-! DEFINITION. The host ports: BAR2, semaphores, notices, control space; bring-up, device reset, attestation [23 R366-R374;
24 R376-R382]. -/

namespace Sys2Proof.Machine

def Dev.onHost (d : Dev) (f : HostSide → HostSide) : Dev := { d with host := f d.host }
def Dev.onBoot (d : Dev) (f : Boot → Boot) : Dev := { d with boot := f d.boot }

/-- A request from a port shows that its link is up. -/
def Dev.heardFrom (d : Dev) (port : Fin 2) : Dev := d.onHost fun h => { h with portUp := h.portUp.set port true }

def Dev.tell (d : Dev) (o : HostOut) : Dev := d.onHost fun h => { h with out := h.out ++ [o] }

/-! ### BAR2 [23 R366, R368, R371] -/

/-- A host access that meets an uncorrectable error: the root region is told [21 R335]. -/
def Dev.hostEcc (d : Dev) (w : Nat) : Dev := d.countUnc.pushReport d.rootRcb (Report.sched 0x21 0 0 0 (eccDetail (8 * w)))

/-- BAR2 is blocked while a device reset is in progress [23 R371]. -/
def Dev.bar2Open (d : Dev) : Bool := !d.host.rstBusy

/-- BAR2_WRITE: a write of a port to device memory; bytes at or above the end are dropped, and so is a write whose merge
read meets an uncorrectable error [23 R368]. -/
def execBar2Write (port : Fin 2) (addr : Nat) (data : List Byte) (_relaxed : Bool) (s : State) : Out :=
  s.event fun d =>
    let d := d.heardFrom port
    let bs := data.take (dramEnd - addr)
    let run : Run := { key := addr, len := bs.length }
    if !d.bar2Open || bs.isEmpty then d
    else match d.eccHit .write run with
      | some w => d.hostEcc w
      | none => (d.correct .write run).writeFor (hostParty port) addr bs

/-- What a port reads: bytes at or above the end of device memory, and every byte during a reset, read as ones. -/
def Dev.bar2Bytes (d : Dev) (port : Fin 2) (addr n : Nat) : List Byte :=
  (List.range n).map fun i => if d.bar2Open && decide (addr + i < dramEnd) then d.byteFor (hostParty port) (addr + i) else 0xFF

/-- BAR2_READ: the port's read is an acquire, and returns device memory, or a Completer Abort [23 R368, 21 R335]. -/
def execBar2Read (port : Fin 2) (addr len : Nat) (s : State) : Out :=
  s.event fun d =>
    let d := d.heardFrom port
    let run : Run := { key := addr, len := if d.bar2Open then min len (dramEnd - addr) else 0 }
    match if run.len = 0 then none else d.eccHit .read run with
    | some w => (d.hostEcc w).tell (.abort port)
    | none => (if run.len = 0 then d else d.correct .read run : Dev).tell (.data port (d.bar2Bytes port addr len))

/-- A PCIe AtomicOp on BAR2: the old value is returned [23 R368]. -/
def bar2Atomic (port : Fin 2) (addr n : Nat) (new : Nat → Nat) (s : State) : Out :=
  s.event fun d =>
    let d := d.heardFrom port
    let run : Run := { key := addr, len := n }
    if !d.bar2Open || decide (dramEnd < addr + n) then d.tell (.data port (List.replicate n 0xFF))
    else match d.eccHit .atomic run with
      | some w => (d.hostEcc w).tell (.abort port)
      | none =>
        let old := d.readFor (hostParty port) addr n
        ((d.correct .atomic run).writeFor (hostParty port) addr (toBytes n (new (ofBytes old)))).tell (.data port old)

def wideBytes (wide : Bool) : Nat := if wide then 8 else 4

def execBar2Fetchadd (port : Fin 2) (addr : Nat) (wide : Bool) (v : W64) (s : State) : Out :=
  bar2Atomic port addr (wideBytes wide) (fun old => old + v.toNat) s
def execBar2Swap (port : Fin 2) (addr : Nat) (wide : Bool) (v : W64) (s : State) : Out :=
  bar2Atomic port addr (wideBytes wide) (fun _ => v.toNat) s
def execBar2Cas (port : Fin 2) (addr : Nat) (wide : Bool) (expect v : W64) (s : State) : Out :=
  bar2Atomic port addr (wideBytes wide)
    (fun old => if old = expect.toNat % 2 ^ (8 * wideBytes wide) then v.toNat else old) s

/-! ### Semaphores [23 R370] -/

/-- The owner code of a port. -/
def portCode (port : Fin 2) : Fin 4 := if port = 0 then 1 else 2

/-- Of two requests in one cycle, a port is preferred that did not hold the semaphore last. -/
def preferred (last : Option (Fin 2)) (port : Fin 2) : Bool :=
  match last with
  | none => port == 0
  | some p => p != port

/-- SEM_REQUEST: a free semaphore is granted; one that the other port was granted in this cycle goes to the preferred
one. -/
def execSemRequest (port : Fin 2) (n : Fin 16) (s : State) : Out :=
  s.event fun d =>
    let d := d.heardFrom port
    let owner := d.host.sems[n]
    let other := portCode (if port = 0 then 1 else 0)
    if owner = 0 ∨ (owner = other ∧ d.host.semTime[n] = d.cycle + 1 ∧ preferred d.host.semLast[n] port) then
      d.onHost fun h => { h with sems := h.sems.set n (portCode port), semTime := h.semTime.set n (d.cycle + 1) }
    else d

/-- A semaphore becomes free. -/
def HostSide.free (h : HostSide) (port : Fin 2) (n : Fin 16) : HostSide :=
  if h.sems[n] = portCode port then { h with sems := h.sems.set n 0, semLast := h.semLast.set n (some port) } else h

/-- SEM_RELEASE. -/
def execSemRelease (port : Fin 2) (n : Fin 16) (s : State) : Out :=
  s.event fun d => (d.heardFrom port).onHost fun h => h.free port n

/-! ### Notices and control space [23 R367, R373, R374; 24 R381] -/

/-- A vector is unmasked: one message for all that is pending. -/
def HostSide.unmask (h : HostSide) (port : Fin 2) (vec : Nat) : HostSide :=
  let h := { h with unmasked := (port.val, vec) :: h.unmasked.filter fun x => x != (port.val, vec) }
  if h.pba.contains (port.val, vec) then
    { h with pba := h.pba.filter fun x => x != (port.val, vec), out := h.out ++ [.msix port vec] }
  else h

def HostSide.mask (h : HostSide) (port : Fin 2) (vec : Nat) : HostSide :=
  { h with unmasked := h.unmasked.filter fun x => x != (port.val, vec) }

/-- MSIX_UNMASK [23 R374]. -/
def execMsixUnmask (port : Fin 2) (vec : Fin 2048) (s : State) : Out :=
  s.event fun d => (d.heardFrom port).onHost fun h => h.unmask port vec.val

/-- The bits of a NOTIFY entry that are not zero [23 R373]. -/
def notifyMask : BitVec 128 :=
  BitVec.ofNat 128 (2 ^ 64 - 1 + (2 ^ 11 - 1) * 2 ^ 64 + 2 ^ 96 + 7 * 2 ^ 104)

/-- One byte of a value of `n` bytes is replaced. -/
def setByte (v n i : Nat) (b : Byte) : Nat := ofBytes ((toBytes n v).set i b)

/-- One byte is written in control space; registers with a behaviour of their own have their own events, and a write
elsewhere is ignored. -/
def Dev.ctlByte (d : Dev) (port : Fin 2) (a : Nat) (b : Byte) : Dev :=
  if 0x4000 ≤ a ∧ a < 0x5000 then
    let i : Fin 256 := Fin.ofNat 256 ((a - 0x4000) / 16)
    d.onHost fun h =>
      { h with notify := h.notify.set i (BitVec.ofNat 128 (setByte h.notify[i].toNat 16 (a % 16) b) &&& notifyMask) }
  else if 0x3100 ≤ a ∧ a < 0x3120 then
    d.onBoot fun x => { x with nonce := BitVec.ofNat 256 (setByte x.nonce.toNat 32 (a - 0x3100) b) }
  else if 0x10000 ≤ a ∧ a < 0x18000 then
    let d := d.onHost fun h =>
      { h with msixTab := (port.val, a - 0x10000, b) :: h.msixTab.filter fun x => !(x.1 == port.val && x.2.1 == a - 0x10000) }
    if a % 16 = 12 then d.onHost fun h => if b.getLsbD 0 then h.mask port ((a - 0x10000) / 16) else h.unmask port ((a - 0x10000) / 16)
    else d
  else d

/-- CONTROL_REGISTER_WRITE [23 R367, R373; 24 R381]. -/
def execControlRegisterWrite (port : Fin 2) (off : Nat) (data : List Byte) (s : State) : Out :=
  s.event fun d => data.zipIdx.foldl (fun d x => d.ctlByte port (off + x.2) x.1) (d.heardFrom port)

/-- A byte of the MSI-X table as a port reads it: bit 0 of a vector's control word says that it is masked [23 R367, R374]. -/
def HostSide.msixByte (h : HostSide) (port : Fin 2) (a : Nat) : Nat :=
  let b := ((h.msixTab.find? fun x => x.1 == port.val && x.2.1 == a).map fun x => x.2.2.toNat).getD 0
  if a % 16 = 12 then b / 2 * 2 + (if h.unmasked.contains (port.val, a / 16) then 0 else 1) else b

/-- The control-space register that holds an offset: its first offset and its value [23 R367, 24 R381]. -/
def Dev.ctlReg (d : Dev) (port : Fin 2) (off : Nat) : Option (Nat × Nat) :=
  let within (base n : Nat) : Bool := decide (base ≤ off) && decide (off < base + n)
  let row (base n : Nat) : Bool := within base (8 * n) && decide ((off - base) % 8 < 4)
  let first (base n : Nat) : Nat := base + (off - base) / n * n
  let die (base : Nat) : Fin 4 := Fin.ofNat 4 ((off - base) / 8)
  if within 0 4 then some (0, Config.devid.toNat)
  else if within 0x8 8 then some (0x8, d.rootRcb)
  else if within 0x10 4 then some (0x10, port.val)
  else if within 0x108 4 then some (0x108, (if d.host.rstBusy then 1 else 0) + d.host.rstIgn.toNat * 2 ^ 8)
  else if row 0x1000 16 then some (first 0x1000 8, (d.host.sems[Fin.ofNat 16 ((off - 0x1000) / 8)]).val)
  else if within 0x2000 4 then some (0x2000, d.boot.step + d.boot.failure * 2 ^ 4)
  else if within 0x2008 4 then some (0x2008, d.boot.fwsvn.toNat)
  else if row 0x2010 4 then some (first 0x2010 8, (d.power.temp[die 0x2010]).toNat)
  else if row 0x2040 4 then some (first 0x2040 8, (d.power.power[die 0x2040]).toNat)
  else if row 0x2060 4 then
    some (first 0x2060 8, (d.power.grant[die 0x2060]).toNat + d.power.bubbles[die 0x2060] * 2 ^ 16 +
      (if d.power.floor[die 0x2060] then 2 ^ 22 else 0))
  else if within 0x2080 8 then some (0x2080, d.boot.ecccorr.toNat)
  else if within 0x2088 8 then some (0x2088, d.boot.eccunc.toNat)
  else if within 0x3008 4 then some (0x3008, d.boot.attSt.val + d.boot.attPort.val * 2 ^ 8 + d.boot.attIgn.toNat * 2 ^ 16)
  else if within 0x3100 32 then some (0x3100, d.boot.nonce.toNat)
  else if within 0x4000 0x1000 then some (first 0x4000 16, (d.host.notify[Fin.ofNat 256 ((off - 0x4000) / 16)]).toNat)
  else if within 0x8000 30288 then some (off, ((d.boot.report.getD (off - 0x8000) 0)).toNat)
  else if within 0x10000 0x8000 then some (off, d.host.msixByte port (off - 0x10000))
  else if within 0x18000 0x100 then
    some (off, (((List.range 8).filter fun i => d.host.pba.contains (port.val, 8 * (off - 0x18000) + i)).map fun i => 2 ^ i).sum)
  else none

/-- What a port reads of control space from an offset on, to the end of the register that holds it; 0 where there is none. -/
def Dev.ctlRead (d : Dev) (port : Fin 2) (off : Nat) : Nat :=
  match d.ctlReg port off with
  | none => 0
  | some (base, v) => v / 2 ^ (8 * (off - base))

/-- A port's semaphores are freed and its pending messages discarded; a reset that it asked for does not return semaphore
0 to it [23 R371]. -/
def HostSide.portGone (h : HostSide) (port : Fin 2) : HostSide :=
  let h := (List.finRange 16).foldl (fun h n => h.free port n) h
  { h with pba := h.pba.filter fun x => x.1 != port.val, rstPort := h.rstPort.filter fun p => p != port }

/-- PORT_FLR [23 R371]. -/
def execPortFlr (port : Fin 2) (s : State) : Out := s.event fun d => (d.heardFrom port).onHost fun h => h.portGone port

/-- PORT_LINK_DOWN [23 R369, R371]. -/
def execPortLinkDown (port : Fin 2) (s : State) : Out :=
  s.event fun d => (d.onHost fun h => { h.portGone port with portUp := h.portUp.set port false }).losePort

/-! ### Bring-up [24 R376-R378] -/

/-- Why an image is not accepted: 1 the key digest, 2 the signature, 3 the SVN; 0 when it is [24 R377]. -/
def Image.failure (x : Image) (kind : Nat) (least : W32) : Nat :=
  if x.key.length ≠ 64 ∨ BitVec.ofNat 256 (ofBytes (shake256 x.key 32)) ≠ Config.fusedDigest kind then 1
  else if x.sig.length ≠ 29792 ∨ !Config.slhVerify x.key (imageBytes x.svn x.body) x.sig then 2
  else if x.svn < least then 3 else 0

/-- A stage's measurement register is extended [24 R378]. -/
def Boot.measure (b : Boot) (i : Fin 6) (bs : List Byte) : Boot := { b with meas := b.meas.set i (extend b.meas[i] bs) }

/-- The sequence stops: BOOTSTAT names the failure [24 R376]. -/
def Boot.stop (b : Boot) (failure : Nat) : Boot := { b with failure := failure, stopped := true }

/-- An image is verified and loaded, and its stage measured. -/
def Boot.load (b : Boot) (i : Fin 4) : Boot :=
  if b.stopped then b else
  let x := b.images[i]
  let f := x.failure i.val b.svns[i]
  if f ≠ 0 then b.stop f else b.measure (Fin.ofNat 6 i.val) (imageBytes x.svn x.body)

/-- The manifest names a system handler image. -/
def Boot.handles (b : Boot) : Bool := let m := (b.images[2]).body; !m.isEmpty && Config.namesHandler m

/-- Step 4: the device firmware, the manifest, and the system handler image where one is named. -/
def Boot.loadAll (b : Boot) : Boot :=
  let b := b.load 1
  let b := if b.stopped then b else { b with fwsvn := (b.images[1]).svn }
  let b := b.load 2
  if b.handles then b.load 3 else b

/-- Step 8: an accepted image's higher SVN raises the fused minimum [24 R377]. -/
def Boot.fuse (b : Boot) : Boot :=
  { b with svns := Vector.ofFn fun i => if (i ≠ 3 ∨ b.handles) ∧ b.svns[i] < (b.images[i]).svn then (b.images[i]).svn else b.svns[i] }

/-- The bytes that step 3 does not write: those of CXL, host and peer memory. -/
def keptCells (m : List Host.Cell) : List Host.Cell := m.filter fun c => decide (2 ^ 64 ≤ c.1) && decide (c.1 < 8192 * 2 ^ 64)

/-- A descriptor of the table that a reset empties: `gen` is never reset, and a signet of a live one does not verify again
[19 R293]. -/
def Desc.emptied (x : Desc) : Desc :=
  { index := x.index, st := 0, gen := if x.st = 0 then x.gen else x.gen + 1, total := 0, returned := 0, record := 0, innerLo := 0
    innerChk := 0, finEntry := 0, finArg := 0, owner := 0, clasp := 0 }

/-- An event of the agenda that belongs to what a reset discards, and that nothing names for good [23 R371]. -/
def discarded : Instr → Bool
  | .drainRowApply _ | .cellPhaseEnd _ _ | .elementBusyEnd _ _ | .trayTimerExpiry _ _ | .evictionCompletion _ _
  | .swapFetchCompletion _ _ => true
  | _ => false

/-- A reset begins: every core stops, and regions, tasks and engine operations are discarded; every Eweoth link is down
[23 R371]. What outlasts it: the host side, Smiurnen's own state, memory until step 3 writes it, the sequences of the
transaction layer, and the descriptors' gen. -/
def Dev.restarted (d : Dev) : Dev :=
  { Dev.reset with
    mem := d.mem, eccOne := d.eccOne, eccBad := d.eccBad, regions := [], rootRcb := 0, sysEntry := 0, descs := d.descs.map Desc.emptied
    cxlUp := d.cxlUp, eweoth := mapV d.eweoth Link.down, outSeq := d.outSeq, inTx := d.inTx, host := d.host, boot := d.boot, power := d.power
    upsets := d.upsets, cycle := d.cycle, seq := d.seq, fresh := d.fresh, agenda := d.agenda.filter fun x => !discarded x.2 }

/-- Smiurnen begins the bring-up sequence: it takes semaphore 0, and the other semaphores are free [23 R371, 24 R376]. -/
def Dev.bootBegins (d : Dev) (by_ : Option (Fin 2)) : Dev :=
  let free (h : HostSide) : HostSide := (List.finRange 16).foldl (fun h n => (h.free 0 n).free 1 n) h
  d.drew.onHost fun h =>
    { free h with sems := Vector.ofFn fun n => if n.val = 0 then 3 else 0, rstPort := by_, rstBusy := true, rstDue := d.someday }

/-- POWER_ON_RESET: the verified bring-up sequence begins [24 R376, R382]. -/
def execPowerOnReset (s : State) : Out :=
  s.event fun d =>
    let e := { d.restarted with boot := Boot.begin d.boot.svns d.boot.images, power := { Power.start with events := d.power.events } }
    ({ e with cxlUp := Dev.reset.cxlUp, host := { HostSide.start with out := d.host.out } } : Dev).bootBegins none

/-- RSTCTL_RESET: a keyed write by the holder of semaphore 0 starts a device reset. Any other write is counted [23 R371]. -/
def execRstctlReset (port : Fin 2) (v : W32) (s : State) : Out :=
  s.event fun d =>
    let d := d.heardFrom port
    if d.host.sems[0] = portCode port ∧ v = 0x5A5A0001 then
      let b := d.boot
      let b := { b with step := 0, failure := 0, fwsvn := 0, meas := Vector.replicate 6 0 }
      ({ d.restarted with boot := b } : Dev).bootBegins (some port)
    else d.onHost fun h => { h with rstIgn := if h.rstIgn = 0xFF then 0xFF else h.rstIgn + 1 }

/-- Step 3 writes every word of device memory, SRAM, caskets and scratchpads. -/
def Dev.wiped (d : Dev) : Dev := { d with mem := keptCells d.mem, eccOne := [], eccBad := [] }

/-- Step 6: the system handler's entry, from its image, or 0. -/
def Boot.entry (b : Boot) : W64 := if b.handles then Config.handlerEntry (b.images[3]).body else 0

/-- Step 7: the root region and its RCB. -/
def Dev.rootMade (d : Dev) : Dev :=
  { d with mem := Config.rootRcbCells.foldl (fun m c => Mem.put m c.1 c.2) d.mem, regions := [Region.root], rootRcb := Config.rootRcb }

/-- Step 8: firmware returns semaphore 0 to the resetting port, or frees it, and the links and ports are enabled. -/
def Dev.bootEnds (d : Dev) : Dev :=
  let d := { d with eweoth := mapV d.eweoth fun l => { Link.start with outbox := l.outbox, inbox := l.inbox } }
  d.onHost fun h =>
    { h with rstBusy := false, rstPort := none
             sems := h.sems.set 0 (match h.rstPort with
               | some p => portCode p
               | none => 0) }

/-- The step of bring-up after the last one completed, up to its completion or its failure [24 R376]. -/
def Dev.bootStep (d : Dev) : Dev :=
  let d := match d.boot.step with
    | 1 => d.onBoot fun b => b.load 0
    | 2 => if Config.dramTrains d.fresh then d.wiped else d.onBoot fun b => b.stop 4
    | 3 => d.onBoot Boot.loadAll
    | 4 => d.onBoot fun b => b.measure 4 Config.routingTables
    | 5 => { d with sysEntry := d.boot.entry, cores := mapV d.cores fun _ => Core.start }
    | 6 => d.rootMade.onBoot fun b => b.measure 5 (ownBytes Config.rootRcbCells Config.rootRcb 256)
    | 7 => d.bootEnds.onBoot Boot.fuse
    | _ => d
  d.onBoot fun b => if b.stopped then b else { b with step := b.step + 1 }

/-- While a reset is in progress, its steps complete one by one, at open moments. -/
def Dev.resetTick (d : Dev) : Dev :=
  if d.host.rstBusy && decide (d.host.rstDue ≤ d.cycle) && !d.boot.stopped then
    d.bootStep.drew.onHost fun h => { h with rstDue := d.someday }
  else d

/-! ### Attestation [24 R379, R380] -/

/-- An ignored request is counted. -/
def Boot.ignore (b : Boot) : Boot := { b with attIgn := if b.attIgn = 0xFF then 0xFF else b.attIgn + 1 }

/-- ATTCTL_REQUEST: a request is accepted while the state is idle or ready; of two in one cycle, port A's is taken. -/
def execAttctlRequest (port : Fin 2) (v : W32) (s : State) : Out :=
  s.event fun d =>
    let d := d.heardFrom port
    if !v.getLsbD 0 then d
    else if d.boot.attSt = 0 ∨ d.boot.attSt = 2 then
      (d.onBoot fun b => { b with attSt := 1, attPort := port, attTime := some d.cycle, attNon := b.nonce }).planSomeday .attestationCompletion
    else if d.boot.attSt = 1 ∧ d.boot.attTime = some d.cycle ∧ port = 0 ∧ d.boot.attPort = 1 then
      d.onBoot fun b => { b with attPort := 0, attNon := b.nonce }.ignore
    else d.onBoot Boot.ignore

/-- The fields of a report [24 R380]. -/
def Boot.reportFields (b : Boot) : List Byte :=
  toBytes 4 30288 ++ toBytes 4 Config.devid.toNat ++ toBytes 4 b.svns[1].toNat ++ toBytes 4 b.attPort.val ++ toBytes 32 b.attNon.toNat ++
  (b.meas.toList.flatMap fun m => toBytes 64 m.toNat) ++ (List.range 64).map fun i => Config.deviceKey.getD i 0

/-- A report with its signature [24 R380]. -/
def Boot.signed (b : Boot) : List Byte :=
  let sig := Config.slhSign b.reportFields
  b.reportFields ++ (List.range 29792).map fun i => sig.getD i 0

/-- ATTESTATION_COMPLETION: the signed report is there, and the state is ready [24 R379]. -/
def execAttestationCompletion (s : State) : Out :=
  s.event fun d => d.onBoot fun b => if b.attSt = 1 then { b with attSt := 2, report := b.signed } else b

end Sys2Proof.Machine
end

