-- ==== Sys2Proof/Machine/Events.lean ====
section
/-! DEFINITION. What may happen next without an instruction: the events whose condition holds, and the device's own work at
the end of a cycle. -/

namespace Sys2Proof.Machine

/-! ### Events that may come next (log 8) -/

/-- The event that may end a parked fragment's wait, if its condition holds. -/
def Dev.waitEvent (d : Dev) (st : Strand) (slot : Fin 4) (f : Frag) : Option Instr :=
  match f.st with
  | .ready => none
  | .parked w _ =>
    let sid := st.id
    match w with
    | .awt _ ts => if d.countersMet st ts then some (.awtCompletion sid slot) else none
    | .claspAcq _ keys => if d.releasing keys then none else some (.claspAcqCompletion sid slot)
    | .unbind keys => if d.releasing keys then none else some (.claspUnbindCompletion sid slot)
    | .mwait lanes _ deadline =>
      if d.mwaitNow st lanes then some (.mwaitWake sid slot)
      else if d.mwaitLate st deadline then some (.mwaitTimeout sid slot) else none
    | .tlbi _ _ _ _ => some (.tlbiSweepCompletion sid slot)
    | .fence ops => if d.fenceDone ops then some (.fenceEngineCompletion sid slot) else none
    | .wtany _ => if d.tagWaitDone sid slot then some (.tagWaitCompletion sid slot) else none
    | .wtall _ => if d.tagWaitDone sid slot then some (.tagWaitCompletion sid slot) else none
    | .tlwait _ _ => if d.tlwaitDone sid slot then some (.tlwaitCompletion sid slot) else none
    | .lywait _ => if d.lywaitDone sid slot then some (.lywaitCompletion sid slot) else none
    | .calloc n _ =>
      if ((d.core st.core).findBanks n).isSome || decide (d.bankBudget st.region < n) then some (.callocGrant sid slot) else none
    | .cfree first _ =>
      match (d.core st.core).banks.find? fun r => r.first == first with
      | none => none
      | some run => if d.banksBusy st.core run then none else some (.cfreeCompletion sid slot)
    | .masks _ _ => none
    | .settle => none
    | .bar => none
    | .macq _ => none
    | .engineFull => none
    | .spawn => none
    | .descriptor => none
    | .rgnew _ => none
    | .join => none
    | .casketTurn _ => none
    | .tretRest => none
    | .entry _ => none

/-- The waits that may end. -/
def Dev.waitEvents (d : Dev) : List Instr := d.all.flatMap fun st => st.live.filterMap fun x => d.waitEvent st x.1 x.2

/-- The barriers that are complete. -/
def Dev.barEvents (d : Dev) : List Instr :=
  ((d.all.map Strand.task).dedup.filter fun tid =>
    let g := d.barGroup tid
    barDone (if tid = 0 then g.filter fun st => !st.casketBusy else g)).map .barrierCompletion

/-- The quadrants in which a parked MACQ's blocks are available: they consider their requests when blocks return, before any
other group takes them [09 R179]. -/
def Dev.macqEvents (d : Dev) : List Instr :=
  if d.host.rstBusy then [] else
  (d.all.map fun st => (st.core, st.quad)).dedup.filterMap fun x =>
    if (d.macqParked x.1 x.2).any fun y => (d.takeBlocks y.1 y.2.2).isSome then some (.macqParkedGrant x.1 x.2) else none

/-- The releases in progress of clasps that no peer holds. -/
def Dev.claspEvents (d : Dev) : List Instr :=
  d.clasps.flatMap fun c => match c.name with
    | .soft key => if (peerOf key).isSome then [] else c.rels.map fun r => .claspReleaseCompletion key r.id
    | .layer _ _ => []

/-- The collectives whose contributions are all there. -/
def Dev.collEvents (d : Dev) : List Instr :=
  (d.ops.filter fun o => d.collReady o && !o.wrote).map fun o => .collCompletion o.id

/-- What may happen to a job. -/
def Dev.jobEvents (d : Dev) : List Instr :=
  d.jobs.flatMap fun j =>
    match j.st with
    | .released => if (d.coreFor j).isNone && !j.over1ms && decide (j.rel.cycle + nsCycles 1000000 ≤ d.cycle) then [.placementWaitLimit j.id] else []
    | .walkFault => if d.walking j.id then [] else [.taskLaunch j.id]
    | .running | .ending _ _ => if d.endReady j then [.taskEnd j.id] else []
    | .halting => if d.saveReady j then [.contextSave j.id] else []
    | .waiting | .placed | .saved | .finished _ => []

/-- What the scheduler may do with the job list as a whole. -/
def Dev.schedEvents (d : Dev) : List Instr :=
  if d.jobs.isEmpty then [] else
  (match d.nextPlaced with
   | some (j, _) => [.taskPlacement j.id]
   | none => []) ++
  (match d.nextVictim with
   | some (j, _) => [.preemptionRequest j.id]
   | none => []) ++
  d.restorable.map .taskRestore

/-- A region's report may be written now. -/
def Dev.reportReady (d : Dev) (r : Region) : Bool :=
  !r.reports.isEmpty &&
  match d.recKey r.faultspace r.faulttask.toNat with
  | none => true
  | some k => let st := d.recState k; !(st == 1 || st == 2 || st == 3)

/-- Regions: links, ends, reports. -/
def Dev.regionEvents (d : Dev) : List Instr :=
  d.links.map (fun x => .regionLink x.1) ++
  ((d.regions.filter fun r => d.regionDone r.id).map fun r => .regionEndCompletion r.id) ++
  (d.regions.filter d.reportReady).map fun r => .faultReportDequeue r.id

/-- The intake's next entry. -/
def Dev.intakeEvents (d : Dev) : List Instr :=
  if !d.intakeOpen then [] else
  match d.intakeEntry.map entryOf with
  | none => [.intakeSkipEntry]
  | some .skip => [.intakeSkipEntry]
  | some (.task _ _) => [.intakeTaskEntry]
  | some (.rgend _) => [.intakeRgendEntry]
  | some (.rgnew _) => [.intakeRgnewEntry]

def Dev.swapEvents (d : Dev) : List Instr :=
  match d.nextFetch with
  | none => []
  | some q => [.swapFetchStart q.region q.layer]

/-- The rail changes in flight that may complete. -/
def Dev.railEvents (d : Dev) : List Instr :=
  ((d.cores.toList.zipIdx.filter fun x => x.1.railDue.isSome).map fun x => (Fin.ofNat 256 x.2 : Fin 256)).filter d.railReady
    |>.map .railChangeCompletion

/-- The events whose condition holds. While a reset is in progress nothing else happens by itself. -/
def Dev.enabled (d : Dev) : List Instr :=
  if d.host.rstBusy then [] else
  d.waitEvents ++ d.barEvents ++ d.claspEvents ++ d.collEvents ++ d.jobEvents ++ d.schedEvents ++
  d.regionEvents ++ d.intakeEvents ++ d.swapEvents ++ d.railEvents

/-! ### The end of a cycle -/

/-- A resource that a parked fragment lacked is there: the fragment issues its group again [02 R28]. -/
def Dev.mayRetry (d : Dev) (st : Strand) (f : Frag) : Bool :=
  match f.st with
  | .parked .engineFull _ => !d.engineFull st.core
  | .parked .spawn _ => ((d.region? st.region).map fun r => r.trays.toList.any fun t => t.recs.isEmpty).getD true
  | .parked .descriptor _ => decide (0 < d.descsLeft)
  | .parked (.casketTurn banks) _ => banks.all fun b => d.turnCame st b
  | _ => false

def Dev.retryParked (d : Dev) : Dev := d.mapStrands fun st => st.mapFrags fun f => if d.mayRetry st f then f.wake else f

/-- The work of a cycle's end: drains read rows and collectives their sources, batches end and trigger, priorities change,
trays and the swap engine act, rails follow, bring-up goes on, parked fragments try again. -/
def Dev.tick (d : Dev) : Dev :=
  d.drainTick.collTick.closeTick.triggerTick.prioTick.trayTick.swapTick.railTick.resetTick.retryParked.mapStrands
    Strand.wakeSettled

end Sys2Proof.Machine
end

