-- ==== Sys2Proof/Machine/Integer.lean ====
section
/-! DEFINITION. Integer, bit-field, predicate and uniform words, and NOP, SCP and LIT [02 R31-R32, 04 R60-R79]. The
uniform loads and stores are in Memory. -/

namespace Sys2Proof.Machine

/-! ### Words on no pipe -/

/-- NOP does nothing [02 R39]. -/
def execNop (_h : Hdr) (s : State) : Out := .next s

/-- SCP gives the next word of its group an order and a scope [02 R31]. -/
def execScp (scope : Scope) (order : MOrder) (s : State) : Out :=
  .next { s with iss := { s.iss with scp := some (scope, order) } }

/-- LIT gives the next word of its group bits [31:8] of its value [02 R32]. -/
def execLit (hi : Bool) (g : Fin 8) (body : BitVec 20) (s : State) : Out :=
  .next { s with iss := { s.iss with lit := some (BitVec.ofNat 32 (hi.toNat * 2 ^ 31 + g.val * 2 ^ 28 + body.toNat * 2 ^ 8)) } }

/-! ### Arithmetic [04 R62, R63] -/

def sMin (a b : W32) : W32 := if a.toInt ≤ b.toInt then a else b
def sMax (a b : W32) : W32 := if a.toInt ≤ b.toInt then b else a
def zMin (a b : W32) : W32 := if a.toNat ≤ b.toNat then a else b
def zMax (a b : W32) : W32 := if a.toNat ≤ b.toNat then b else a

def execIadd (h : Hdr) (d a b : GReg) (s : State) : Out := laneG h d s fun x => x.rg a + x.rg b
def execIsub (h : Hdr) (d a b : GReg) (s : State) : Out := laneG h d s fun x => x.rg a - x.rg b
def execImin (h : Hdr) (d a b : GReg) (s : State) : Out := laneG h d s fun x => sMin (x.rg a) (x.rg b)
def execImax (h : Hdr) (d a b : GReg) (s : State) : Out := laneG h d s fun x => sMax (x.rg a) (x.rg b)
def execIminZ (h : Hdr) (d a b : GReg) (s : State) : Out := laneG h d s fun x => zMin (x.rg a) (x.rg b)
def execImaxZ (h : Hdr) (d a b : GReg) (s : State) : Out := laneG h d s fun x => zMax (x.rg a) (x.rg b)
def execIdiff (h : Hdr) (d a b : GReg) (s : State) : Out :=
  laneG h d s fun x => BitVec.ofNat 32 ((x.rg a).toInt - (x.rg b).toInt).natAbs
def execIabs (h : Hdr) (d a : GReg) (s : State) : Out := laneG h d s fun x => BitVec.ofNat 32 (x.rg a).toInt.natAbs
def execImul (h : Hdr) (d a b : GReg) (s : State) : Out := laneG h d s fun x => x.rg a * x.rg b
def execImulhS (h : Hdr) (d a b : GReg) (s : State) : Out :=
  laneG h d s fun x => BitVec.ofInt 32 ((x.rg a).toInt * (x.rg b).toInt / 2 ^ 32)
def execImulhZ (h : Hdr) (d a b : GReg) (s : State) : Out :=
  laneG h d s fun x => BitVec.ofNat 32 ((x.rg a).toNat * (x.rg b).toNat / 2 ^ 32)
def execImad (h : Hdr) (d a b : GReg) (s : State) : Out := laneG h d s fun x => x.rg a * x.rg b + x.rg d

def execIadd64 (h : Hdr) (d a b : GReg) (s : State) : Out := lanePair h d s fun x => x.rpair a + x.rpair b
def execIsub64 (h : Hdr) (d a b : GReg) (s : State) : Out := lanePair h d s fun x => x.rpair a - x.rpair b
/-- A shift by 64 or more gives 0 [04 R63]. -/
def execIshl64 (h : Hdr) (d a b : GReg) (s : State) : Out := lanePair h d s fun x => x.rpair a <<< (x.rg b).toNat
def execIshr64 (h : Hdr) (d a b : GReg) (s : State) : Out := lanePair h d s fun x => x.rpair a >>> (x.rg b).toNat

/-! ### Logic and shifts [04 R64-R66] -/

def execAndw (h : Hdr) (d a b : GReg) (s : State) : Out := laneG h d s fun x => x.rg a &&& x.rg b
def execOrw (h : Hdr) (d a b : GReg) (s : State) : Out := laneG h d s fun x => x.rg a ||| x.rg b
def execXorw (h : Hdr) (d a b : GReg) (s : State) : Out := laneG h d s fun x => x.rg a ^^^ x.rg b
def execAndn (h : Hdr) (d a b : GReg) (s : State) : Out := laneG h d s fun x => x.rg a &&& ~~~(x.rg b)

/-- Shifts by 32 or more give 0, or copies of bit 31; a rotation takes the amount modulo 32 [04 R64]. -/
def shl32 (a : W32) (n : Nat) : W32 := a <<< n
def shr32 (a : W32) (n : Nat) : W32 := a >>> n
def sar32 (a : W32) (n : Nat) : W32 := a.sshiftRight n
def rot32 (a : W32) (n : Nat) : W32 := a.rotateRight (n % 32)

def execIshl (h : Hdr) (d a b : GReg) (s : State) : Out := laneG h d s fun x => shl32 (x.rg a) (x.rg b).toNat
def execIshr (h : Hdr) (d a b : GReg) (s : State) : Out := laneG h d s fun x => shr32 (x.rg a) (x.rg b).toNat
def execIsar (h : Hdr) (d a b : GReg) (s : State) : Out := laneG h d s fun x => sar32 (x.rg a) (x.rg b).toNat
def execIrot (h : Hdr) (d a b : GReg) (s : State) : Out := laneG h d s fun x => rot32 (x.rg a) (x.rg b).toNat

def execIaddi (h : Hdr) (d a : GReg) (i : BitVec 8) (s : State) : Out := laneG h d s fun x => x.rg a + s.immS i
def execAndi (h : Hdr) (d a : GReg) (i : BitVec 8) (s : State) : Out := laneG h d s fun x => x.rg a &&& s.immZ i
def execOri (h : Hdr) (d a : GReg) (i : BitVec 8) (s : State) : Out := laneG h d s fun x => x.rg a ||| s.immZ i
def execXori (h : Hdr) (d a : GReg) (i : BitVec 8) (s : State) : Out := laneG h d s fun x => x.rg a ^^^ s.immZ i
def execIshli (h : Hdr) (d a : GReg) (n : Fin 32) (s : State) : Out := laneG h d s fun x => shl32 (x.rg a) n.val
def execIshri (h : Hdr) (d a : GReg) (n : Fin 32) (s : State) : Out := laneG h d s fun x => shr32 (x.rg a) n.val
def execIsari (h : Hdr) (d a : GReg) (n : Fin 32) (s : State) : Out := laneG h d s fun x => sar32 (x.rg a) n.val
def execIroti (h : Hdr) (d a : GReg) (n : Fin 32) (s : State) : Out := laneG h d s fun x => rot32 (x.rg a) n.val

/-! ### Bit counting [04 R67] -/

/-- The positions of the set bits, ascending. -/
def setBits {w : Nat} (v : BitVec w) : List Nat := (List.range w).filter fun i => v.getLsbD i

def popc {w : Nat} (v : BitVec w) : W32 := BitVec.ofNat 32 (setBits v).length
/-- The zero bits above the highest set bit. -/
def clz {w : Nat} (v : BitVec w) : W32 := BitVec.ofNat 32 (if v = 0 then w else w - 1 - Nat.log2 v.toNat)
/-- Bit i moves to bit w - 1 - i. -/
def brev {w : Nat} (v : BitVec w) : BitVec w :=
  BitVec.ofNat w (((setBits v).map fun i => 2 ^ (w - 1 - i)).sum)
/-- The position of the set bit with exactly `n` set bits below it; all ones when there is none. -/
def fns {w : Nat} (v : BitVec w) (n : Nat) : W32 :=
  match (setBits v)[n]? with
  | some i => BitVec.ofNat 32 i
  | none => 0xFFFFFFFF

def execPopc (h : Hdr) (d a : GReg) (s : State) : Out := laneG h d s fun x => popc (x.rg a)
def execClz (h : Hdr) (d a : GReg) (s : State) : Out := laneG h d s fun x => clz (x.rg a)
def execBrev (h : Hdr) (d a : GReg) (s : State) : Out := laneG h d s fun x => brev (x.rg a)
def execFns (h : Hdr) (d a b : GReg) (s : State) : Out := laneG h d s fun x => fns (x.rg a) (x.rg b).toNat
def execPopc64 (h : Hdr) (d a : GReg) (s : State) : Out := laneG h d s fun x => popc (x.rpair a)
def execClz64 (h : Hdr) (d a : GReg) (s : State) : Out := laneG h d s fun x => clz (x.rpair a)
def execBrev64 (h : Hdr) (d a : GReg) (s : State) : Out := lanePair h d s fun x => brev (x.rpair a)
def execFns64 (h : Hdr) (d a b : GReg) (s : State) : Out := laneG h d s fun x => fns (x.rpair a) (x.rg b).toNat

/-! ### Bit fields, selection, moves [04 R68-R70] -/

/-- 2^n - 1, at most all ones. -/
def ones32 (n : Nat) : W32 := BitVec.ofNat 32 (2 ^ min n 32 - 1)

def posOf (b : W32) : Nat := b.toNat % 256
def lenOf (b : W32) : Nat := b.toNat / 256 % 256

/-- A bit field: bits above bit 31 read zero, and the signed form extends from the field's top bit [04 R68]. -/
def bfx (signed : Bool) (a b : W32) : W32 :=
  let x := a >>> posOf b
  let len := lenOf b
  if len = 0 then 0
  else if len < 32 then
    let x := x &&& ones32 len
    if signed && x.getLsbD (len - 1) then x ||| ~~~(ones32 len) else x
  else x

/-- The low bits of `a` replace a field of `d` [04 R68]. -/
def bfi (d a b : W32) : W32 :=
  let mask := if posOf b < 32 then ones32 (lenOf b) <<< posOf b else 0
  (d &&& ~~~mask) ||| ((a <<< posOf b) &&& mask)

/-- Byte `j` of PRMT's result: a byte of the pool, or eight copies of its top bit [04 R68]. -/
def prmtByte (pool : W64) (b : W32) (j : Nat) : Nat :=
  let nib := b.toNat / 2 ^ (4 * j) % 16
  let byte := pool.toNat / 2 ^ (8 * (nib % 8)) % 256
  if nib < 8 then byte else if byte < 128 then 0 else 255

def prmt (d a b : W32) : W32 :=
  let pool := pair a d
  BitVec.ofNat 32 (prmtByte pool b 0 + prmtByte pool b 1 * 2 ^ 8 + prmtByte pool b 2 * 2 ^ 16 + prmtByte pool b 3 * 2 ^ 24)

def execBfxS (h : Hdr) (d a b : GReg) (s : State) : Out := laneG h d s fun x => bfx true (x.rg a) (x.rg b)
def execBfxZ (h : Hdr) (d a b : GReg) (s : State) : Out := laneG h d s fun x => bfx false (x.rg a) (x.rg b)
def execBfi (h : Hdr) (d a b : GReg) (s : State) : Out := laneG h d s fun x => bfi (x.rg d) (x.rg a) (x.rg b)
def execPrmt (h : Hdr) (d a b : GReg) (s : State) : Out := laneG h d s fun x => prmt (x.rg d) (x.rg a) (x.rg b)

/-- SEL names p0-p3 in its minor field [04 R69]. -/
def execSel (h : Hdr) (d a b : GReg) (n : Fin 4) (s : State) : Out :=
  laneG h d s fun x => if x.rp ⟨n.val, by omega⟩ then x.rg a else x.rg b
def execMov (h : Hdr) (d a : GReg) (s : State) : Out := laneG h d s fun x => x.rg a
def execMov64 (h : Hdr) (d a : GReg) (s : State) : Out := lanePair h d s fun x => x.rpair a

/-! ### Compares and predicates [04 R71, R72] -/

/-- A relation between two integers. -/
def Cmp.rel (c : Cmp) (x y : Int) : Bool :=
  match c with
  | .eq => decide (x = y)
  | .ne => decide (x ≠ y)
  | .lt => decide (x < y)
  | .le => decide (x ≤ y)
  | .gt => decide (x > y)
  | .ge => decide (x ≥ y)

/-- An operand of ICMP as the number that its type reads. -/
def cmpOperand (t : CmpTy) (x : Lane) (r : GReg) : Int :=
  match t with
  | .s => (x.rg r).toInt
  | .z => (x.rg r).toNat
  | .s64 => (x.rpair r).toInt
  | .z64 => (x.rpair r).toNat

/-- The immediate of ICMPI as the number that its type reads: sign-extended for .s and .s64, zero-extended for .z and
.z64 [04 R71]. -/
def cmpImm (t : CmpTy) (i : BitVec 6) : Int :=
  match t with
  | .s | .s64 => i.toInt
  | .z | .z64 => i.toNat

def execIcmp (h : Hdr) (pd : PReg) (a b : GReg) (c : Cmp) (t : CmpTy) (s : State) : Out :=
  laneP h pd s fun x => Cmp.rel c (cmpOperand t x a) (cmpOperand t x b)
def execIcmpi (h : Hdr) (pd : PReg) (a : GReg) (i : BitVec 6) (c : Cmp) (t : CmpTy) (s : State) : Out :=
  laneP h pd s fun x => Cmp.rel c (cmpOperand t x a) (cmpImm t i)

def execPand (h : Hdr) (pd pa pb : PReg) (s : State) : Out := laneP h pd s fun x => x.rp pa && x.rp pb
def execPor (h : Hdr) (pd pa pb : PReg) (s : State) : Out := laneP h pd s fun x => x.rp pa || x.rp pb
def execPxor (h : Hdr) (pd pa pb : PReg) (s : State) : Out := laneP h pd s fun x => x.rp pa != x.rp pb
def execPandn (h : Hdr) (pd pa pb : PReg) (s : State) : Out := laneP h pd s fun x => x.rp pa && !x.rp pb

/-! ### Addresses and reads of the uniform file [04 R73, R74, R79] -/

/-- LEA's shift: 0, 2, 3 or 4 [04 R73]. -/
def leaShift (n : Fin 4) : Nat := if n.val = 0 then 0 else n.val + 1

def execLea (h : Hdr) (d a b : GReg) (n : Fin 4) (s : State) : Out :=
  lanePair h d s fun x => x.rpair a + ((x.rg b).signExtend 64 <<< leaShift n)
def execMovk (h : Hdr) (d : GReg) (k : KReg) (s : State) : Out := laneG h d s fun _ => s.old.rk k
def execIaddk (h : Hdr) (d a : GReg) (k : KReg) (s : State) : Out := laneG h d s fun x => x.rg a + s.old.rk k
def execLeak (h : Hdr) (d a : GReg) (k : KReg) (s : State) : Out :=
  lanePair h d s fun x => s.old.rkpair k + (x.rg a).signExtend 64

/-- KGET reads a lane of the issuing fragment; any other lane reads zero [04 R79, 09 R166]. -/
def execKget (h : Hdr) (d : KReg) (a : GReg) (lane : Fin 32) (s : State) : Out :=
  uniform h s fun st => st.wk d (if hasLane s.frag.mask lane then (s.old.lane lane).rg a else 0)

/-! ### Uniform operations [04 R75-R77] -/

def execKmov (h : Hdr) (d a : KReg) (s : State) : Out := uniformOp h d s (s.old.rk a) id
def execKadd (h : Hdr) (d a : KReg) (s : State) : Out :=
  uniformOp h d s (s.old.rk d + s.old.rk a) fun f => f.add (s.old.rk d) (s.old.rk a)
def execKsub (h : Hdr) (d a : KReg) (s : State) : Out :=
  uniformOp h d s (s.old.rk d - s.old.rk a) fun f => f.sub (s.old.rk d) (s.old.rk a)

/-- A uniform operation whose flags are N and Z. -/
def uniformNz (h : Hdr) (d : KReg) (s : State) (r : W32) : Out := uniformOp h d s r fun f => f.nz r

def execKmul (h : Hdr) (d a : KReg) (s : State) : Out := uniformNz h d s (s.old.rk d * s.old.rk a)
def execKand (h : Hdr) (d a : KReg) (s : State) : Out := uniformNz h d s (s.old.rk d &&& s.old.rk a)
def execKor (h : Hdr) (d a : KReg) (s : State) : Out := uniformNz h d s (s.old.rk d ||| s.old.rk a)
def execKxor (h : Hdr) (d a : KReg) (s : State) : Out := uniformNz h d s (s.old.rk d ^^^ s.old.rk a)
def execKshl (h : Hdr) (d a : KReg) (s : State) : Out := uniformNz h d s (shl32 (s.old.rk d) (s.old.rk a).toNat)
def execKshr (h : Hdr) (d a : KReg) (s : State) : Out := uniformNz h d s (shr32 (s.old.rk d) (s.old.rk a).toNat)
def execKsar (h : Hdr) (d a : KReg) (s : State) : Out := uniformNz h d s (sar32 (s.old.rk d) (s.old.rk a).toNat)
def execKmin (h : Hdr) (d a : KReg) (s : State) : Out := uniformNz h d s (sMin (s.old.rk d) (s.old.rk a))
def execKmax (h : Hdr) (d a : KReg) (s : State) : Out := uniformNz h d s (sMax (s.old.rk d) (s.old.rk a))
/-- KCMP writes only the flags [04 R75]. -/
def execKcmp (h : Hdr) (d a : KReg) (s : State) : Out :=
  uniform h s fun st => { st with flags := st.flags.sub (s.old.rk d) (s.old.rk a) }
def execKpopc (h : Hdr) (d a : KReg) (s : State) : Out := uniformNz h d s (popc (s.old.rk a))
def execKclz (h : Hdr) (d a : KReg) (s : State) : Out := uniformNz h d s (clz (s.old.rk a))
def execKfns (h : Hdr) (d a : KReg) (s : State) : Out := uniformNz h d s (fns (s.old.rk a) (s.old.rk d).toNat)
def execKli (h : Hdr) (d : KReg) (i : BitVec 12) (s : State) : Out := uniformOp h d s (s.immK i) id
def execKaddi (h : Hdr) (d : KReg) (i : BitVec 12) (s : State) : Out :=
  uniformOp h d s (s.old.rk d + s.immK i) fun f => f.add (s.old.rk d) (s.immK i)

end Sys2Proof.Machine
end

