-- ==== Sys2Proof/Machine/CrossLane.lean ====
section
/-! DEFINITION. The cross-lane words [10 R182-R187]. -/

namespace Sys2Proof.Machine

/-- A cross-lane word sets E by whether no lane takes part; it executes with no lane too [10 R182]. -/
def crossLane (h : Hdr) (s : State) (t : State) : Out :=
  .next (t.onFocus fun st => { st with flags := st.flags.empty (s.exec h == 0) })

/-- A cross-lane word that writes a g register of every participating lane. -/
def crossG (h : Hdr) (d : GReg) (s : State) (f : LaneId → W32) : Out := crossLane h s (s.writeG (s.exec h) d f)

/-- A register of a lane of the fragment; zero for any other lane [09 R166]. -/
def State.laneG (s : State) (l : LaneId) (a : GReg) : W32 :=
  if hasLane s.frag.mask l then (s.old.lane l).rg a else 0

/-- What a lane receives from a shuffle's source lane; its own value where the source lies beyond the lanes [10 R184]. -/
def shflFrom (s : State) (a : GReg) (l : LaneId) (src : Option LaneId) : W32 :=
  match src with
  | some x => s.laneG x a
  | none => (s.old.lane l).rg a

/-- The index that a lane gives a shuffle. -/
def State.shflX (s : State) (l : LaneId) (b : GReg) : Nat := ((s.old.lane l).rg b).toNat % 32

def execShflIdx (h : Hdr) (d a b : GReg) (s : State) : Out :=
  crossG h d s fun l => shflFrom s a l (srcIdx l (s.shflX l b))
def execShflXor (h : Hdr) (d a b : GReg) (s : State) : Out :=
  crossG h d s fun l => shflFrom s a l (srcXor l (s.shflX l b))
def execShflUp (h : Hdr) (d a b : GReg) (s : State) : Out :=
  crossG h d s fun l => shflFrom s a l (srcUp l (s.shflX l b))
def execShflDown (h : Hdr) (d a b : GReg) (s : State) : Out :=
  crossG h d s fun l => shflFrom s a l (srcDown l (s.shflX l b))

/-- The least or greatest value that is not a NaN; the canonical NaN when all are [10 R185]. -/
def extreme (isMax : Bool) (vs : List W32) : W32 :=
  match vs.filter fun v => !(f32 v).isNan with
  | [] => 0x7FC00000
  | v :: rest => rest.foldl (fun m x => (fminmax isMax m x).1) v

/-- A reduction over the values of a lane set, and the identity for an empty set [10 R185]. -/
def reduce (op : RedOp) (vs : List W32) : W32 :=
  match op with
  | .iadd => vs.foldl (fun m x => m + x) 0
  | .iminS => vs.foldl sMin 0x7FFFFFFF
  | .imaxS => vs.foldl sMax 0x80000000
  | .iminZ => vs.foldl zMin 0xFFFFFFFF
  | .imaxZ => vs.foldl zMax 0
  | .andB => vs.foldl (fun m x => m &&& x) 0xFFFFFFFF
  | .orB => vs.foldl (fun m x => m ||| x) 0
  | .xorB => vs.foldl (fun m x => m ^^^ x) 0
  | .fadd => if vs.isEmpty then 0x80000000 else (windowSum (vs.map f32)).1
  | .fmin => if vs.isEmpty then 0x7F800000 else extreme false vs
  | .fmax => if vs.isEmpty then 0xFF800000 else extreme true vs

/-- The values of a register over lanes. -/
def State.vals (s : State) (ls : List LaneId) (a : GReg) : List W32 := ls.map fun l => (s.old.lane l).rg a

/-- REDU writes its uniform register each time it issues [10 R186]. -/
def execRedu (h : Hdr) (kd : KReg) (a : GReg) (op : RedOp) (s : State) : Out :=
  crossLane h s (s.writeK kd (reduce op (s.vals (lanesOf (s.exec h)) a)))

def execScan (h : Hdr) (d a : GReg) (op : RedOp) (excl : Bool) (s : State) : Out :=
  crossG h d s fun l =>
    reduce op (s.vals ((lanesOf (s.exec h)).filter fun j => decide (j < l) || (!excl && j == l)) a)

/-- The participating lanes whose predicate is true, ascending [10 R187]. -/
def State.chosen (s : State) (h : Hdr) (p : PReg) : List LaneId := (lanesOf (s.exec h)).filter fun l => (s.old.lane l).rp p

/-- The place of a lane in a list. -/
def placeIn (ls : List LaneId) (l : LaneId) : Nat := ls.findIdx fun x => x == l

def execCompress (h : Hdr) (d a : GReg) (p : PReg) (s : State) : Out :=
  crossG h d s fun l =>
    match (s.chosen h p)[placeIn (lanesOf (s.exec h)) l]? with
    | some q => (s.old.lane q).rg a
    | none => 0

def execExpand (h : Hdr) (d a : GReg) (p : PReg) (s : State) : Out :=
  crossG h d s fun l =>
    if (s.old.lane l).rp p then
      match (lanesOf (s.exec h))[placeIn (s.chosen h p) l]? with
      | some q => (s.old.lane q).rg a
      | none => 0
    else 0

def execMatchw (h : Hdr) (d a : GReg) (s : State) : Out :=
  crossG h d s fun l => maskOf fun j => hasLane (s.exec h) j && (s.old.lane j).rg a == (s.old.lane l).rg a

def execBallot (h : Hdr) (d : GReg) (p : PReg) (s : State) : Out :=
  crossG h d s fun _ => maskOf fun j => hasLane (s.exec h) j && (s.old.lane j).rp p

end Sys2Proof.Machine
end

