-- ==== Sys2Proof/Machine/Float.lean ====
section
/-! DEFINITION. The F-pipe words: float arithmetic, compare, special functions, conversion, packing, packed dot products
and scaled accumulation [05 R80-R94]. -/

namespace Sys2Proof.Machine

/-! ### Arithmetic [05 R81-R83] -/

def execFadd (h : Hdr) (d a b : GReg) (s : State) : Out := fpG h d s fun x => fadd (x.rg a) (x.rg b)
def execFsub (h : Hdr) (d a b : GReg) (s : State) : Out := fpG h d s fun x => fsub (x.rg a) (x.rg b)
def execFmul (h : Hdr) (d a b : GReg) (s : State) : Out := fpG h d s fun x => fmul (x.rg a) (x.rg b)
def execFfma (h : Hdr) (d a b : GReg) (s : State) : Out := fpG h d s fun x => ffma (x.rg a) (x.rg b) (x.rg d)
def execFmin (h : Hdr) (d a b : GReg) (s : State) : Out := fpG h d s fun x => fminmax false (x.rg a) (x.rg b)
def execFmax (h : Hdr) (d a b : GReg) (s : State) : Out := fpG h d s fun x => fminmax true (x.rg a) (x.rg b)

/-- The canonical FP32 NaN [03 R41]. -/
def nan32 : W32 := 0x7FC00000

/-- A word on the sign bit: a NaN gives the canonical NaN, with NV if it was signalling [05 R82]. -/
def fsign (f : W32 → W32) (a : W32) : W32 × W32 :=
  if (f32 a).isNan then (nan32, flagIf (f32 a).isSnan flagNV) else (f a, 0)

def execFabs (h : Hdr) (d a : GReg) (s : State) : Out := fpG h d s fun x => fsign (fun v => v &&& 0x7FFFFFFF) (x.rg a)
def execFneg (h : Hdr) (d a : GReg) (s : State) : Out := fpG h d s fun x => fsign (fun v => v ^^^ 0x80000000) (x.rg a)
def execFaddi (h : Hdr) (d a : GReg) (i : BitVec 8) (s : State) : Out := fpG h d s fun x => fadd (x.rg a) (s.immF i)
def execFmuli (h : Hdr) (d a : GReg) (i : BitVec 8) (s : State) : Out := fpG h d s fun x => fmul (x.rg a) (s.immF i)

/-! ### Compare [05 R84] -/

def fcmpHolds (c : FCmpOp) (a b : Val) : Bool :=
  let unord := a.isNan || b.isNan
  match c with
  | .eq => valEq a b
  | .ne => unord || !valEq a b
  | .lt => !unord && valLt a b
  | .le => !unord && !valLt b a
  | .gt => !unord && valLt b a
  | .ge => !unord && !valLt a b
  | .unord => unord
  | .ord => !unord

def fcmp (c : FCmpOp) (sig : Bool) (a b : W32) : Bool × W32 :=
  let nv := if sig then (f32 a).isNan || (f32 b).isNan else (f32 a).isSnan || (f32 b).isSnan
  (fcmpHolds c (f32 a) (f32 b), flagIf nv flagNV)

def execFcmp (h : Hdr) (pd : PReg) (a b : GReg) (c : FCmpOp) (sig : Bool) (s : State) : Out :=
  fpP h pd s fun x => fcmp c sig (x.rg a) (x.rg b)

/-! ### Special functions [05 R85-R89] -/

def one32 (neg : Bool) : W32 := if neg then 0xBF800000 else 0x3F800000
def zero32 (neg : Bool) : W32 := if neg then 0x80000000 else 0
def inf32 (neg : Bool) : W32 := if neg then 0xFF800000 else 0x7F800000

/-- An exact quotient or root with a sticky bit below it: what was dropped never changes how it rounds. -/
def sticky (q : Nat) (exact : Bool) : Nat := 2 * q + (if exact then 0 else 1)

/-- 1 / x, correctly rounded [05 R85, R87]. -/
def frcp (a : W32) : W32 × W32 :=
  match f32 a with
  | .nan s => (nan32, flagIf s flagNV)
  | .inf n => (zero32 n, 0)
  | .fin n m e =>
    if m = 0 then (inf32 n, flagDZ)
    else
      let k := Nat.log2 m + 60
      pat32 (Fmt.f32.ofFin .rn n (sticky (2 ^ k / m) (2 ^ k % m == 0)) (-e - k - 1))

/-- The square root, correctly rounded [05 R85, R87]. -/
def fsqrt (a : W32) : W32 × W32 :=
  match f32 a with
  | .nan s => (nan32, flagIf s flagNV)
  | .inf n => if n then (nan32, flagNV) else (a, 0)
  | .fin n m e =>
    if m = 0 then (a, 0)
    else if n then (nan32, flagNV)
    else
      let t := if e % 2 = 0 then m * 2 ^ 60 else 2 * m * 2 ^ 60
      let half := (if e % 2 = 0 then e else e - 1) / 2 - 30
      let r := isqrt t
      pat32 (Fmt.f32.ofFin .rn false (sticky r (r * r == t)) (half - 1))

/-- A finite non-zero value as a power of two: its exponent. -/
def powerOfTwo (m : Nat) (e : Int) : Option Int := if m = 2 ^ Nat.log2 m then some (e + Nat.log2 m) else none

/-- An integer as FP32. -/
def ofInt32 (n : Int) (e : Int) : W32 := BitVec.ofNat 32 (Fmt.f32.ofInt .rn n e).1

def frsq (a : W32) : W32 × W32 :=
  match f32 a with
  | .nan s => (nan32, flagIf s flagNV)
  | .inf n => if n then (nan32, flagNV) else (0, 0)
  | .fin n m e =>
    if m = 0 then (inf32 n, flagDZ)
    else if n then (nan32, flagNV)
    else match powerOfTwo m e with
      | some k => if k % 2 = 0 then (ofInt32 1 (-k / 2), 0) else Approx.result .rsq a n m e
      | none => Approx.result .rsq a n m e

/-- A finite value that is an integer. -/
def asInt (neg : Bool) (m : Nat) (e : Int) : Option Int :=
  let (v, exact) := roundInt .rz neg m e
  if exact then some v else none

def fexp2 (a : W32) : W32 × W32 :=
  match f32 a with
  | .nan s => (nan32, flagIf s flagNV)
  | .inf n => (if n then 0 else inf32 false, 0)
  | .fin n m e =>
    let x : Val := .fin n m e
    if !valLt x (.fin false 128 0) then (inf32 false, flagOF ||| flagNX)
    else if valLt x (.fin true 150 0) then (0, flagUF ||| flagNX)
    else match asInt n m e with
      | some k => if k < -149 then Approx.result .exp2 a n m e else (ofInt32 1 k, 0)
      | none => Approx.result .exp2 a n m e

def flog2 (a : W32) : W32 × W32 :=
  match f32 a with
  | .nan s => (nan32, flagIf s flagNV)
  | .inf n => if n then (nan32, flagNV) else (a, 0)
  | .fin n m e =>
    if m = 0 then (inf32 true, flagDZ)
    else if n then (nan32, flagNV)
    else match powerOfTwo m e with
      | some k => (ofInt32 k 0, 0)
      | none => Approx.result .log2 a n m e

def fsin (a : W32) : W32 × W32 :=
  match f32 a with
  | .nan s => (nan32, flagIf s flagNV)
  | .inf _ => (nan32, flagNV)
  | .fin n m e => if m = 0 then (a, 0) else Approx.result .sin a n m e

def fcos (a : W32) : W32 × W32 :=
  match f32 a with
  | .nan s => (nan32, flagIf s flagNV)
  | .inf _ => (nan32, flagNV)
  | .fin n m e => if m = 0 then (one32 false, 0) else Approx.result .cos a n m e

def ftanh (a : W32) : W32 × W32 :=
  match f32 a with
  | .nan s => (nan32, flagIf s flagNV)
  | .inf n => (one32 n, 0)
  | .fin n m e =>
    if m = 0 then (a, 0)
    else if !valLt (.fin false m e) (.fin false 10 0) then (one32 n, flagNX)
    else Approx.result .tanh a n m e

/-- An integral FP32 value under a mode; it keeps the sign and sets no NX [05 R88]. -/
def frnd (r : Rnd) (a : W32) : W32 × W32 :=
  match f32 a with
  | .nan s => (nan32, flagIf s flagNV)
  | .inf _ => (a, 0)
  | .fin n m e => (BitVec.ofNat 32 (Fmt.f32.ofFin .rn n (roundAt r n m e 0).1 0).1, 0)

/-- The class bit of an operand [05 R89]. -/
def fclass (a : W32) : W32 :=
  let sub := (a &&& 0x7F800000) == 0
  match f32 a with
  | .nan s => if s then 0x100 else 0x200
  | .inf n => if n then 1 else 0x80
  | .fin n m _ =>
    if m = 0 then (if n then 8 else 0x10)
    else if sub then (if n then 4 else 0x20)
    else (if n then 2 else 0x40)

def execFrcp (h : Hdr) (d a : GReg) (s : State) : Out := fpG h d s fun x => frcp (x.rg a)
def execFrsq (h : Hdr) (d a : GReg) (s : State) : Out := fpG h d s fun x => frsq (x.rg a)
def execFsqrt (h : Hdr) (d a : GReg) (s : State) : Out := fpG h d s fun x => fsqrt (x.rg a)
def execFexp2 (h : Hdr) (d a : GReg) (s : State) : Out := fpG h d s fun x => fexp2 (x.rg a)
def execFlog2 (h : Hdr) (d a : GReg) (s : State) : Out := fpG h d s fun x => flog2 (x.rg a)
def execFsin (h : Hdr) (d a : GReg) (s : State) : Out := fpG h d s fun x => fsin (x.rg a)
def execFcos (h : Hdr) (d a : GReg) (s : State) : Out := fpG h d s fun x => fcos (x.rg a)
def execFtanh (h : Hdr) (d a : GReg) (s : State) : Out := fpG h d s fun x => ftanh (x.rg a)
def execFrndRn (h : Hdr) (d a : GReg) (s : State) : Out := fpG h d s fun x => frnd .rn (x.rg a)
def execFrndRz (h : Hdr) (d a : GReg) (s : State) : Out := fpG h d s fun x => frnd .rz (x.rg a)
def execFrndRu (h : Hdr) (d a : GReg) (s : State) : Out := fpG h d s fun x => frnd .ru (x.rg a)
def execFrndRd (h : Hdr) (d a : GReg) (s : State) : Out := fpG h d s fun x => frnd .rd (x.rg a)
def execFclass (h : Hdr) (d a : GReg) (s : State) : Out := fpG h d s fun x => (fclass (x.rg a), 0)

/-! ### Conversion and packing [05 R90-R92] -/

/-- The type that a format suffix names [05 R90]. -/
def cvtTy : CvtFmt → ElTy
  | .f32 => .flt Fmt.f32
  | .bf16 => .flt Fmt.bf16
  | .f16 => .flt Fmt.f16
  | .e4m3 => .flt Fmt.e4m3
  | .e5m2 => .flt Fmt.e5m2
  | .e2m1 => .flt Fmt.e2m1
  | .s32 => .int true 32
  | .u32 => .int false 32

def fcvt (src dst : CvtFmt) (r : Rnd) (a : W32) : W32 × W32 :=
  pat32 ((cvtTy dst).convert r ((cvtTy src).val (a.toNat % 2 ^ (cvtTy src).width)))

/-- Two FP32 values packed into a 16-bit format, with the flags of both [05 R92]. -/
def pack2 (f : Fmt) (a b : W32) : W32 × W32 :=
  let lo := f.deliver .rn (f32 a)
  let hi := f.deliver .rn (f32 b)
  (BitVec.ofNat 32 (lo.1 + hi.1 * 2 ^ 16), lo.2 ||| hi.2)

/-- The width and the element number that a control word selects [05 R92]. -/
def pkWidth (c : W32) : Nat := 4 * 2 ^ (c.toNat % 4)
def pkIndex (c : W32) : Nat := c.toNat / 16 % 8 % (32 / pkWidth c)

def pkins (d a c : W32) : W32 :=
  let w := pkWidth c
  let sh := w * pkIndex c
  let mask := BitVec.ofNat 32 (2 ^ w - 1) <<< sh
  (d &&& ~~~mask) ||| ((a <<< sh) &&& mask)

def upk (a c : W32) : W32 :=
  let w := pkWidth c
  let v := elem a w (pkIndex c)
  if c.getLsbD 8 && decide (2 ^ (w - 1) ≤ v) then BitVec.ofNat 32 v ||| ~~~(BitVec.ofNat 32 (2 ^ w - 1)) else BitVec.ofNat 32 v

def execFcvt (h : Hdr) (d a : GReg) (src dst : CvtFmt) (rnd : Rnd) (s : State) : Out :=
  fpG h d s fun x => fcvt src dst rnd (x.rg a)
def execPkbf (h : Hdr) (d a b : GReg) (s : State) : Out := fpG h d s fun x => pack2 Fmt.bf16 (x.rg a) (x.rg b)
def execPkh (h : Hdr) (d a b : GReg) (s : State) : Out := fpG h d s fun x => pack2 Fmt.f16 (x.rg a) (x.rg b)
def execPkins (h : Hdr) (d a b : GReg) (s : State) : Out := fpG h d s fun x => (pkins (x.rg d) (x.rg a) (x.rg b), 0)
def execUpk (h : Hdr) (d a b : GReg) (s : State) : Out := fpG h d s fun x => (upk (x.rg a) (x.rg b), 0)

/-! ### Packed dot products and scaled accumulation [05 R93, R94] -/

/-- An integer element. -/
def elemInt (signed : Bool) (w : Nat) (v : W32) (i : Nat) : Int :=
  let x := elem v w i
  if signed ∧ 2 ^ (w - 1) ≤ x then (x : Int) - 2 ^ w else x

/-- The exact sum of the products of `n` integer elements and an addend, modulo 2^32. -/
def dotInt (signed : Bool) (w n : Nat) (a b d : W32) : W32 :=
  BitVec.ofInt 32 (((List.range n).map fun i => elemInt signed w a i * elemInt signed w b i).sum + d.toInt)

/-- The window sum of the products of `n` float elements and an FP32 addend. -/
def dotFlt (f : Fmt) (n : Nat) (a b d : W32) : W32 × W32 :=
  windowDot ((List.range n).map fun i => (f.val (elem a f.width i), f.val (elem b f.width i))) (f32 d)

/-- A value times the exact scales of two E8M0 bytes [05 R94, 03 R43]; the flag says a scale was 0xFF. -/
def scaledBy (x : Val) (sa sb : Nat) : Val × Bool :=
  if sa = 0xFF ∨ sb = 0xFF then (.nan false, true)
  else match x with
    | .fin n m e => (.fin n m (e + (sa : Int) - 127 + (sb : Int) - 127), false)
    | v => (v, false)

def scacc (a b d : W32) : W32 × W32 :=
  let x := f32 a
  let (t, bad) := scaledBy x (b.toNat % 256) (b.toNat / 256 % 256)
  let (p, fl) := windowSum [t, f32 d]
  (p, fl ||| flagIf (bad || x.isSnan || (f32 d).isSnan) flagNV)

def execDp4S8 (h : Hdr) (d a b : GReg) (s : State) : Out :=
  fpG h d s fun x => (dotInt true 8 4 (x.rg a) (x.rg b) (x.rg d), 0)
def execDp4Z8 (h : Hdr) (d a b : GReg) (s : State) : Out :=
  fpG h d s fun x => (dotInt false 8 4 (x.rg a) (x.rg b) (x.rg d), 0)
def execDp4E4 (h : Hdr) (d a b : GReg) (s : State) : Out :=
  fpG h d s fun x => dotFlt Fmt.e4m3 4 (x.rg a) (x.rg b) (x.rg d)
def execDp4E5 (h : Hdr) (d a b : GReg) (s : State) : Out :=
  fpG h d s fun x => dotFlt Fmt.e5m2 4 (x.rg a) (x.rg b) (x.rg d)
def execDp8S4 (h : Hdr) (d a b : GReg) (s : State) : Out :=
  fpG h d s fun x => (dotInt true 4 8 (x.rg a) (x.rg b) (x.rg d), 0)
def execDp8F4 (h : Hdr) (d a b : GReg) (s : State) : Out :=
  fpG h d s fun x => dotFlt Fmt.e2m1 8 (x.rg a) (x.rg b) (x.rg d)
def execDp2Bf (h : Hdr) (d a b : GReg) (s : State) : Out :=
  fpG h d s fun x => dotFlt Fmt.bf16 2 (x.rg a) (x.rg b) (x.rg d)
def execScacc (h : Hdr) (d a b : GReg) (s : State) : Out := fpG h d s fun x => scacc (x.rg a) (x.rg b) (x.rg d)

end Sys2Proof.Machine
end

