-- ==== Sys2Proof/Machine/MatrixMath.lean ====
section
/-! DEFINITION. Matrix arithmetic: multiply and accumulate, element-wise words, block-scaled words, factorisations,
solves, the exponential and the Walsh-Hadamard transform [08 R142-R161, 10 R189, R194]. -/

namespace Sys2Proof.Machine

/-! ### Multiply and accumulate [08 R142-R144] -/

/-- Which operand of a multiply is transposed. -/
inductive MulForm where
  | plain | bt | at_
  deriving DecidableEq, Repr

/-- m, k and n of a lane's operands; k is ma's [08 R142]. -/
def mulDims (form : MulForm) (a b : Handle) : Nat × Nat × Nat :=
  match form with
  | .plain => (a.rows, a.cols, b.cols)
  | .bt => (a.rows, a.cols, b.rows)
  | .at_ => (a.cols, a.rows, b.cols)

/-- The k that mb carries. -/
def mulK (form : MulForm) (b : Handle) : Nat :=
  match form with
  | .plain => b.rows
  | .bt => b.cols
  | .at_ => b.rows

/-- The largest dimension that multiplicands of a width may have [08 R143]. -/
def mulLimit (w : EW) : Nat := if w = .w32 then 8 else 16

/-- The shape checks of a multiply in one lane [08 R143, 07 R123]. -/
def mulFails (form : MulForm) (d a b c : MReg) (fm : Nat) (x : Lane) : List MFail :=
  let ha := x.hnd a
  let hb := x.hnd b
  let (m, k, n) := mulDims form ha hb
  let lim := mulLimit ha.w
  failIf (mulK form hb != k) 1 (2, b) ++ shapeIs x (0, d) m n ++ shapeIs x (3, c) m n ++
  failIf (hb.w != ha.w) 2 (2, b) ++ widthIs x (0, d) .w32 ++ widthIs x (3, c) .w32 ++
  failIf ((fmTy ha.w fm).isNone || (ha.w == .w32 && fm == 1)) 3 (1, a) ++
  failIf ((fmTy hb.w fm).isNone || (hb.w == .w32 && fm == 1)) 3 (2, b) ++
  failIf (decide (lim < ha.rows) || decide (lim < ha.cols)) 4 (1, a) ++
  failIf (decide (lim < hb.rows) || decide (lim < hb.cols)) 4 (2, b)

/-- The elements x(i,t) and y(t,j) of a product [08 R144]. -/
def mulX (form : MulForm) (a : Handle) (i t : Nat) : W32 := if form = .at_ then a.at t i else a.at i t
def mulY (form : MulForm) (b : Handle) (t j : Nat) : W32 := if form = .bt then b.at j t else b.at t j

/-- An integer element's value. -/
def intEl (signed : Bool) (w : Nat) (e : W32) : Int :=
  if signed ∧ 2 ^ (w - 1) ≤ e.toNat % 2 ^ w then (e.toNat % 2 ^ w : Int) - 2 ^ w else (e.toNat % 2 ^ w : Nat)

/-- One element of a product: a window sum, or an exact integer sum modulo 2^32 [08 R144]. -/
def mulEl (t : ElTy) (xs ys : List W32) (addend : W32) : W32 × W32 :=
  match t with
  | .flt f => windowDot ((xs.zip ys).map fun p => (f.val p.1.toNat, f.val p.2.toNat)) (f32 addend)
  | .int s w => (BitVec.ofInt 32 (((xs.zip ys).map fun p => intEl s w p.1 * intEl s w p.2).sum + addend.toInt), 0)

/-- The elements of a handle computed by position, with the OR of their flags [08 R140]. -/
def fillEls (h : Handle) (f : Nat → Nat → W32 × W32) : Handle × W32 :=
  let rs := (List.range h.rows).flatMap fun i => (List.range h.cols).map fun j => f i j
  ({ h with els := rs.map Prod.fst }, rs.foldl (fun fl r => fl ||| r.2) 0)

/-- The product of a lane. -/
def mulResult (form : MulForm) (t : ElTy) (hd a b c : Handle) : Handle × W32 :=
  let ts := List.range (mulDims form a b).2.1
  fillEls hd fun i j => mulEl t (ts.map fun t => mulX form a i t) (ts.map fun t => mulY form b t j) (c.at i j)

/-- The cell rate of a multiplicand width [10 R189]. -/
def cellRate (w : EW) : Nat :=
  match w with
  | .w32 => 16
  | .w16 => 64
  | .w8 => 128
  | .w4 => 256

/-- A multiply's class key and work in a lane [10 R189]. -/
def mulWork (form : MulForm) (a b : MReg) (x : Lane) : List Nat × Nat :=
  let (m, k, n) := mulDims form (x.hnd a) (x.hnd b)
  ([m, n, k, ewBits (x.hnd a).w], ceilDiv (m * n * k) (cellRate (x.hnd a).w))

/-- A word of the cell array that writes handle `d` in every lane that does not stop. -/
def cellM (s : State) (ex : W32) (mult : Bool) (depth : Nat) (work : Lane → List Nat × Nat) (marks : List MReg)
    (reads rel : List MReg) (r : LaneId → Lane → MatRes) : State :=
  s.cellWord ex mult depth work (fun l => marks.map fun m => .m l m) reads rel fun l => r l (s.old.lane l)

def mulWord (h : Hdr) (form : MulForm) (d a b c : MReg) (la lb : Bool) (fm : Fin 4) (s : State) : Out :=
  let ex := s.exec h
  orTrap (s.matCheck ex [(0, d), (1, a), (2, b), (3, c)] (mulFails form d a b c fm.val)) s <|
    cellM s ex true 12 (mulWork form a b) [d] [a, b, c] (lastUse [(la, a), (lb, b)]) fun l x =>
      let r := mulResult form (fmTyD (x.hnd a).w fm.val) (x.hnd d) (x.hnd a) (x.hnd b) (x.hnd c)
      MatRes.ok [.m l d (some r.1)] r.2

def execMmul (h : Hdr) (d a b c : MReg) (la lb : Bool) (fm : Fin 4) (s : State) : Out := mulWord h .plain d a b c la lb fm s
def execMmult (h : Hdr) (d a b c : MReg) (la lb : Bool) (fm : Fin 4) (s : State) : Out := mulWord h .bt d a b c la lb fm s
def execMtmul (h : Hdr) (d a b c : MReg) (la lb : Bool) (fm : Fin 4) (s : State) : Out := mulWord h .at_ d a b c la lb fm s

/-! ### Element by element [08 R148] -/

/-- An integer result modulo 2^w. -/
def wrapEl (w : Nat) (v : Int) : W32 := BitVec.ofNat 32 (v % 2 ^ w).toNat

/-- A sum, or a difference, rounded once into a format, or modulo 2^w. -/
def addEl (t : ElTy) (neg : Bool) (a b : W32) : W32 × W32 :=
  match t with
  | .flt f => pat32 (addVals f (f.val a.toNat) (if neg then negVal (f.val b.toNat) else f.val b.toNat))
  | .int s w => (wrapEl w (intEl s w a + (if neg then -intEl s w b else intEl s w b)), 0)

/-- A product of two values rounded once into a format; a NaN follows R42. DESIGN CHOICE (log 55): an infinite product into E4M3
or E2M1 is delivered as R49 converts an infinity, the largest value with NV; the spec states it for no product
[08 R148, R149; 03 R48, R49]. -/
def mulInto (f : Fmt) (a b : Val) : W32 × W32 :=
  let v := mulVals a b
  let r := f.deliver .rn (if v.isNan then .nan false else v)
  (BitVec.ofNat 32 r.1, r.2 ||| flagIf (mulNv a b) flagNV)

def hadEl (t : ElTy) (a b : W32) : W32 × W32 :=
  match t with
  | .flt f => mulInto f (f.val a.toNat) (f.val b.toNat)
  | .int s w => (wrapEl w (intEl s w a * intEl s w b), 0)

/-- The larger of two elements under the rules of FMAX, or as integers [08 R148, 05 R82]. -/
def maxEl (t : ElTy) (a b : W32) : W32 × W32 :=
  match t with
  | .flt f =>
    let x := f.val a.toNat
    let y := f.val b.toNat
    let nv := flagIf (x.isSnan || y.isSnan) flagNV
    if x.isNan && y.isNan then (BitVec.ofNat 32 f.qnan, nv)
    else if x.isNan then (b, nv)
    else if y.isNan then (a, nv)
    else if valLt x y || (valEq x y && x.neg && !y.neg) then (b, nv)
    else (a, nv)
  | .int s w => (if intEl s w a < intEl s w b then b else a, 0)

/-- A word of three handles of one shape, one width and one format [08 R148]. -/
def elem3 (h : Hdr) (d a b : MReg) (la lb : Bool) (fm : Fin 4) (f : ElTy → W32 → W32 → W32 × W32) (s : State) : Out :=
  let ex := s.exec h
  let shape (x : Lane) : List MFail :=
    sameShape d a x ++ shapeIs x (2, b) (x.hnd a).rows (x.hnd a).cols ++ sameWidth d a x ++ widthIs x (2, b) (x.hnd a).w ++
    fmIs x (0, d) fm.val ++ fmIs x (1, a) fm.val ++ fmIs x (2, b) fm.val
  orTrap (s.matCheck ex [(0, d), (1, a), (2, b)] shape) s <|
    elemM s ex d (blocks2 d a) [a, b] (lastUse [(la, a), (lb, b)]) fun x =>
      fillEls (x.hnd d) fun i j => f (fmTyD (x.hnd a).w fm.val) ((x.hnd a).at i j) ((x.hnd b).at i j)

def execMadd (h : Hdr) (d a b : MReg) (la lb : Bool) (fm : Fin 4) (s : State) : Out :=
  elem3 h d a b la lb fm (fun t => addEl t false) s
def execMsub (h : Hdr) (d a b : MReg) (la lb : Bool) (fm : Fin 4) (s : State) : Out :=
  elem3 h d a b la lb fm (fun t => addEl t true) s
def execMhad (h : Hdr) (d a b : MReg) (la lb : Bool) (fm : Fin 4) (s : State) : Out := elem3 h d a b la lb fm hadEl s
def execMmax (h : Hdr) (d a b : MReg) (la lb : Bool) (fm : Fin 4) (s : State) : Out := elem3 h d a b la lb fm maxEl s

/-! ### Scaling, block-scaled conversion and accumulation [08 R149-R151] -/

/-- The float format that fm names for a width; none for an integer format or an undefined code. -/
def floatFm (w : EW) (fm : Nat) : Option Fmt :=
  match fmTy w fm with
  | some (.flt f) => some f
  | _ => none

def execMscale (h : Hdr) (d a : MReg) (g : GReg) (la : Bool) (s : State) : Out :=
  let fm (x : Lane) : Nat := (x.rg (g.plus 1)).toNat % 4
  let shape (x : Lane) : List MFail :=
    sameShape d a x ++ sameWidth d a x ++ failIf (floatFm (x.hnd d).w (fm x)).isNone 3 (0, d) ++
    failIf (floatFm (x.hnd a).w (fm x)).isNone 3 (1, a)
  orTrap (s.matCheck (s.exec h) [(0, d), (1, a)] shape) s <|
    elemM s (s.exec h) d (blocks2 d a) [a] (lastUse [(la, a)]) fun x =>
      let f := (floatFm (x.hnd a).w (fm x)).getD Fmt.f32
      mapEls (x.hnd d) (fun e => mulInto f (f.val e.toNat) (f32 (x.rg g))) (x.hnd a).els

/-- The rounding mode of a code [03 R46]. -/
def rndOf (n : Nat) : Rnd :=
  match n with
  | 0 => .rn
  | 1 => .rz
  | 2 => .ru
  | _ => .rd

/-- A value times 2^k. -/
def scaleVal (v : Val) (k : Int) : Val :=
  match v with
  | .fin n m e => .fin n m (e + k)
  | v => v

/-- One element of MQUANT: the scaled FP32 value in the destination's format [08 R151]. -/
def quantEl (t : ElTy) (c : W32) (e : W32) : W32 × W32 :=
  let sc := c.toNat % 256
  if sc = 0xFF then
    let r := t.convert (rndOf (c.toNat / 2 ^ 10 % 4)) (.nan false)
    (BitVec.ofNat 32 r.1, r.2 ||| flagNV)
  else pat32 (t.convert (rndOf (c.toNat / 2 ^ 10 % 4)) (scaleVal (f32 e) (127 - sc)))

def execMquant (h : Hdr) (d a : MReg) (g : GReg) (la : Bool) (s : State) : Out :=
  let fm (x : Lane) : Nat := (x.rg g).toNat / 2 ^ 8 % 4
  orTrap (s.matCheck (s.exec h) [(0, d), (1, a)] fun x => sameShape d a x ++ widthIs x (1, a) .w32 ++ fmIs x (0, d) (fm x)) s <|
    elemM s (s.exec h) d (blocks2 d a) [a] (lastUse [(la, a)]) fun x =>
      mapEls (x.hnd d) (quantEl (fmTyD (x.hnd d).w (fm x)) (x.rg g)) (x.hnd a).els

/-- One element of MSACC: a window sum of the scaled term and the old element [08 R151]. -/
def saccEl (c : W32) (a d : W32) : W32 × W32 :=
  let sc := c.toNat % 256
  let v : Val := if c.toNat / 2 ^ 8 % 4 = 1 then intVal a.toInt else f32 a
  if sc = 0xFF then (nan32, flagNV)
  else
    let r := windowSum [scaleVal v ((sc : Int) - 127), f32 d]
    (r.1, r.2 ||| flagIf (v.isSnan || (f32 d).isSnan) flagNV)

def execMsacc (h : Hdr) (d a : MReg) (g : GReg) (la : Bool) (s : State) : Out :=
  let bad (x : Lane) : Bool := decide (2 ≤ (x.rg g).toNat / 2 ^ 8 % 4)
  orTrap (s.matCheck (s.exec h) [(0, d), (1, a)] fun x =>
      sameShape d a x ++ widthIs x (0, d) .w32 ++ widthIs x (1, a) .w32 ++ failIf (bad x) 3 (1, a)) s <|
    elemM s (s.exec h) d (blocks2 d a) [a] (lastUse [(la, a)]) fun x =>
      fillEls (x.hnd d) fun i j => saccEl (x.rg g) ((x.hnd a).at i j) ((x.hnd d).at i j)

/-! ### FP32 matrices in steps [08 R141] -/

/-- A matrix of FP32 patterns under computation, with the flags raised so far. -/
structure Work where
  rows : Nat
  cols : Nat
  els  : List W32
  fl   : W32
  deriving DecidableEq, Repr

def Work.get (w : Work) (i j : Nat) : W32 := w.els.getD (i * w.cols + j) 0
/-- An element set to a value that raised flags. -/
def Work.put (w : Work) (i j : Nat) (v : W32 × W32) : Work :=
  { w with els := w.els.set (i * w.cols + j) v.1, fl := w.fl ||| v.2 }

def Work.make (rows cols : Nat) (f : Nat → Nat → W32) : Work :=
  { rows := rows, cols := cols, els := (List.range rows).flatMap fun i => (List.range cols).map fun j => f i j, fl := 0 }

/-- Two rows exchanged. -/
def Work.swap (w : Work) (p c : Nat) : Work :=
  { Work.make w.rows w.cols (fun i j => w.get (if i = p then c else if i = c then p else i) j) with fl := w.fl }

/-- The negation of a pattern. -/
def neg32 (a : W32) : W32 := a ^^^ 0x80000000

/-- a / b, correctly rounded [08 R141, 03 R52]. -/
def fdiv (a b : W32) : W32 × W32 :=
  match f32 a, f32 b with
  | .nan s, y => (nan32, flagIf (s || y.isSnan) flagNV)
  | x, .nan s => (nan32, flagIf (s || x.isSnan) flagNV)
  | .inf _, .inf _ => (nan32, flagNV)
  | .inf n, .fin k _ _ => (inf32 (n != k), 0)
  | .fin n _ _, .inf k => (zero32 (n != k), 0)
  | .fin n m e, .fin k p q =>
    if p = 0 then (if m = 0 then (nan32, flagNV) else (inf32 (n != k), flagDZ))
    else if m = 0 then (zero32 (n != k), 0)
    else
      let sh := Nat.log2 p + 60
      pat32 (Fmt.f32.ofFin .rn (n != k) (sticky (m * 2 ^ sh / p) (m * 2 ^ sh % p == 0)) (e - q - sh - 1))

/-- How a pivot ranks: by magnitude, a NaN above infinity [08 R155]. -/
def pivotRank (v : W32) : Nat := if (f32 v).isNan then 0x7F800001 else (v &&& 0x7FFFFFFF).toNat

/-- The pivot row of a column: the largest rank, the lowest row on ties [08 R155]. -/
def Work.pivot (w : Work) (c : Nat) : Nat :=
  let rows := (List.range (w.rows - c)).map fun i => c + i
  rows.foldl (fun p i => if pivotRank (w.get p c) < pivotRank (w.get i c) then i else p) c

/-- A pattern of +0 or -0. -/
def isZero32 (v : W32) : Bool := (v &&& 0x7FFFFFFF) == 0

/-! ### MINV [08 R155] -/

/-- The elimination of column `c`; none where the pivot is zero. -/
def invStep (n : Nat) (w : Work) (c : Nat) : Option Work :=
  let p := w.pivot c
  if isZero32 (w.get p c) then none else
  let w := w.swap p c
  let piv := w.get c c
  let js := (List.range (2 * n)).filter fun j => j != c
  let w := js.foldl (fun w j => w.put c j (fdiv (w.get c j) piv)) w
  let w := w.put c c (0x3F800000, 0)
  let is := (List.range n).filter fun i => i != c
  some (is.foldl (fun w i =>
    let f := w.get i c
    let w := js.foldl (fun w j => w.put i j (ffma (neg32 f) (w.get c j) (w.get i j))) w
    w.put i c (0, 0)) w)

/-- Steps made in order until one stops. -/
def stepsOf {α : Type} (f : α → Nat → Option α) : List Nat → α → Option α
  | [], w => some w
  | c :: cs, w =>
    match f w c with
    | none => none
    | some w => stepsOf f cs w

/-- Identity elements. -/
def idEl (i j : Nat) : W32 := if i = j then 0x3F800000 else 0

/-- The inverse and its flags; none for a singular matrix. -/
def invOf (a : Handle) : Option (List W32 × W32) :=
  let n := a.rows
  let w := Work.make n (2 * n) fun i j => if j < n then a.at i j else idEl i (j - n)
  (stepsOf (invStep n) (List.range n) w).map fun w =>
    ((Work.make n n fun i j => w.get i (n + j)).els, w.fl)

/-! ### MLU [08 R156] -/

/-- A factorisation under way, with its permutation. -/
structure LuWork where
  w    : Work
  perm : List Nat
  deriving DecidableEq, Repr

def swapAt (l : List Nat) (p c : Nat) : List Nat := (l.set p (l.getD c 0)).set c (l.getD p 0)

def luStep (n : Nat) (x : LuWork) (c : Nat) : Option LuWork :=
  let p := x.w.pivot c
  if isZero32 (x.w.get p c) then none else
  let w := x.w.swap p c
  let after := (List.range n).filter fun i => decide (c < i)
  let w := after.foldl (fun w i =>
    let q := fdiv (w.get i c) (w.get c c)
    let w := w.put i c q
    after.foldl (fun w j => w.put i j (ffma (neg32 q.1) (w.get c j) (w.get i j))) w) w
  some { w := w, perm := swapAt x.perm p c }

/-- The elements as operands: a NaN is the canonical one, with NV if it was signalling [03 R42]. -/
def Work.canonical (w : Work) (n : Nat) : Work :=
  (List.range n).foldl (fun w i => (List.range n).foldl (fun w j => w.put i j (fsign (fun v => v) (w.get i j))) w) w

/-- L and U in one matrix, with the permutation; none for a singular matrix. -/
def luOf (n : Nat) (w : Work) : Option LuWork := stepsOf (luStep n) (List.range n) { w := w, perm := List.range n }

/-! ### MCHOL [08 R157] -/

/-- A dot product folded into an addend in steps: s := fma(-x(t), y(t), s). -/
def foldFma (s : W32 × W32) (xs ys : List W32) : W32 × W32 :=
  (xs.zip ys).foldl (fun s p => let r := ffma (neg32 p.1) p.2 s.1; (r.1, s.2 ||| r.2)) s

def cholStep (a : Handle) (w : Work) (j : Nat) : Option Work :=
  let n := a.rows
  let row (i : Nat) : List W32 := (List.range j).map fun t => w.get i t
  let s := foldFma (a.at j j, 0) (row j) (row j)
  if !valLt (.fin false 0 0) (f32 s.1) then none else
  let r := fsqrt s.1
  let w := w.put j j (r.1, s.2 ||| r.2)
  let is := (List.range n).filter fun i => decide (j < i)
  some (is.foldl (fun w i =>
    let s := foldFma (a.at i j, 0) ((List.range j).map fun t => w.get i t) ((List.range j).map fun t => w.get j t)
    let q := fdiv s.1 (w.get j j)
    w.put i j (q.1, s.2 ||| q.2)) w)

/-- The lower factor; none for a matrix that is not SPD. -/
def cholOf (a : Handle) : Option Work :=
  stepsOf (cholStep a) (List.range a.rows) (Work.make a.rows a.rows fun _ _ => 0)

/-! ### MTRSV [08 R158] -/

/-- The rows of a solve in order. -/
def solveRows (up : Bool) (n : Nat) : List Nat := if up then (List.range n).reverse else List.range n

/-- The solve of one column by rows [08 R158]. -/
def trsv (up unit : Bool) (n p : Nat) (a : Nat → Nat → W32) (b : Nat → Nat → W32) : Work :=
  (List.range p).foldl (fun w q =>
    (solveRows up n).foldl (fun w i =>
      let ts := (List.range n).filter fun t => if up then decide (i < t) else decide (t < i)
      let s := foldFma (fsign (fun v => v) (b i q)) (ts.map fun t => a i t) (ts.map fun t => w.get t q)
      if unit then w.put i q s
      else
        let r := fdiv s.1 (a i i)
        w.put i q (r.1, s.2 ||| r.2)) w) (Work.make n p fun _ _ => 0)

/-! ### The words of R152 -/

/-- Width 32 and the limit of 8, for a handle that is read or written [08 R152]; the limit names sources only
[07 R123]. -/
def fpLimit (x : Lane) (o : Operand) : List MFail :=
  failIf (decide (8 < (x.hnd o.2).rows) || decide (8 < (x.hnd o.2).cols)) 4 o

/-- ma is square. -/
def squareIs (x : Lane) (a : MReg) : List MFail := failIf ((x.hnd a).rows != (x.hnd a).cols) 1 (1, a)

/-- The checks of an n x n word of ma and md; n is ma's rows (log 52). -/
def squareFails (d a : MReg) (x : Lane) : List MFail :=
  squareIs x a ++ shapeIs x (0, d) (x.hnd a).rows (x.hnd a).rows ++ widthIs x (0, d) .w32 ++ widthIs x (1, a) .w32 ++ fpLimit x (1, a)

/-- A handle's result from elements and flags. -/
def matDone (l : LaneId) (x : Lane) (d : MReg) (els : List W32) (fl : W32) : MatRes :=
  MatRes.ok [.m l d (some { x.hnd d with els := els })] fl

def execMinv (h : Hdr) (d a : MReg) (la : Bool) (s : State) : Out :=
  orTrap (s.matCheck (s.exec h) [(0, d), (1, a)] (squareFails d a)) s <|
    cellM s (s.exec h) false 16 (fun x => ([(x.hnd a).rows], ceilDiv (2 * (x.hnd a).rows ^ 3) 16)) [d] [a] (lastUse [(la, a)])
      fun l x => match invOf (x.hnd a) with
        | none => MatRes.stop 0x08
        | some r => matDone l x d r.1 r.2

def execMlu (h : Hdr) (d a b : MReg) (la : Bool) (s : State) : Out :=
  let shape (x : Lane) : List MFail :=
    squareFails d a x ++ shapeIs x (2, b) 1 (x.hnd a).rows ++ widthIs x (2, b) .w32
  orTrap (s.matCheck (s.exec h) [(0, d), (1, a), (2, b)] shape) s <|
    cellM s (s.exec h) false 16 (fun x => ([(x.hnd a).rows], ceilDiv ((x.hnd a).rows ^ 3) 16)) [d, b] [a] (lastUse [(la, a)])
      fun l x =>
        let n := (x.hnd a).rows
        match luOf n ((Work.make n n (x.hnd a).at).canonical n) with
        | none => MatRes.stop 0x08
        | some r => MatRes.ok [.m l d (some { x.hnd d with els := r.w.els }),
            .m l b (some { x.hnd b with els := r.perm.map fun i => BitVec.ofNat 32 i })] r.w.fl

def execMchol (h : Hdr) (d a : MReg) (la : Bool) (s : State) : Out :=
  orTrap (s.matCheck (s.exec h) [(0, d), (1, a)] (squareFails d a)) s <|
    cellM s (s.exec h) false 20 (fun x => ([(x.hnd a).rows], ceilDiv ((x.hnd a).rows ^ 3) 16)) [d] [a] (lastUse [(la, a)])
      fun l x => match cholOf (x.hnd a) with
        | none => MatRes.stop 0x09
        | some w => matDone l x d w.els w.fl

/-- A diagonal element of +0 or -0. -/
def zeroDiagonal (a : Handle) : Bool := (List.range a.rows).any fun i => isZero32 (a.at i i)

def execMtrsv (h : Hdr) (d a b : MReg) (unit up la lb : Bool) (s : State) : Out :=
  let shape (x : Lane) : List MFail :=
    squareIs x a ++ failIf ((x.hnd b).rows != (x.hnd a).rows) 1 (2, b) ++ shapeIs x (0, d) (x.hnd a).rows (x.hnd b).cols ++
    widthIs x (0, d) .w32 ++ widthIs x (1, a) .w32 ++ widthIs x (2, b) .w32 ++ fpLimit x (1, a) ++ fpLimit x (2, b)
  orTrap (s.matCheck (s.exec h) [(0, d), (1, a), (2, b)] shape) s <|
    cellM s (s.exec h) false 16
      (fun x => ([(x.hnd a).rows, (x.hnd b).cols], ceilDiv ((x.hnd a).rows ^ 2 * (x.hnd b).cols) 16)) [d] [a, b]
      (lastUse [(la, a), (lb, b)]) fun l x =>
        if !unit && zeroDiagonal (x.hnd a) then MatRes.stop 0x08
        else
          let w := trsv up unit (x.hnd a).rows (x.hnd b).cols (x.hnd a).at (x.hnd b).at
          matDone l x d w.els w.fl

/-! ### MEXP [08 R159, R160; 10 R194] -/

/-- A matrix whose elements are window sums of exact products [08 R160]. -/
def sumMat (n : Nat) (f : Nat → Nat → List (Val × Val)) : Work :=
  let rs := (List.range n).flatMap fun i => (List.range n).map fun j => windowDot (f i j) (.fin false 0 0)
  { rows := n, cols := n, els := rs.map Prod.fst, fl := rs.foldl (fun fl r => fl ||| r.2) 0 }

/-- The product of two n x n matrices, each element with addend +0. -/
def mulMat (n : Nat) (a b : Work) : Work :=
  sumMat n fun i j => (List.range n).map fun t => (f32 (a.get i t), f32 (b.get t j))

/-- The Pade coefficients: round_rn of 1, 1/2, 5/44, 1/66, 1/792, 1/15840, 1/665280 [08 R159]. -/
def padeCoef (k : Nat) : W32 :=
  match k with
  | 0 => 0x3F800000
  | 1 => 0x3F000000
  | 2 => (fdiv 0x40A00000 0x42300000).1
  | 3 => (fdiv 0x3F800000 0x42840000).1
  | 4 => (fdiv 0x3F800000 0x44460000).1
  | 5 => (fdiv 0x3F800000 0x46778000).1
  | _ => (fdiv 0x3F800000 0x49226C00).1

def pade (k : Nat) : Val := f32 (padeCoef k)
def oneVal : Val := .fin false 1 0

/-- The 1-norm: the largest column sum of magnitudes, NaN above all [08 R160]. -/
def colNorms (n : Nat) (a : Work) : List (W32 × W32) :=
  (List.range n).map fun j =>
    windowSum ((List.range n).map (fun i => f32 (a.get i j &&& 0x7FFFFFFF)) ++ [.fin false 0 0])

def normOf (n : Nat) (a : Work) : W32 × W32 :=
  let ns := colNorms n a
  (ns.foldl (fun m r => if pivotRank m < pivotRank r.1 then r.1 else m) 0, ns.foldl (fun fl r => fl ||| r.2) 0)

/-- The scaling exponent s of a norm [08 R160]. -/
def expScale (nrm : W32) : Nat :=
  match f32 nrm with
  | .nan _ => 8
  | .inf _ => 8
  | .fin _ m e =>
    if m = 0 then 0
    else
      let lead := e + (Nat.log2 m : Int)
      let c := if m = 2 ^ Nat.log2 m then lead else lead + 1
      min 8 (c + 1).toNat

/-- The matrix of a handle. -/
def workOf (a : Handle) : Work := Work.make a.rows a.rows a.at

/-- The scaling exponent of a lane's operand. -/
def expS (a : Handle) : Nat := expScale (normOf a.rows (workOf a)).1

/-- A matrix squared a number of times, with the flags of every product. -/
def squares (n : Nat) : Nat → Work → Work
  | 0, x => x
  | k + 1, x => let y := mulMat n x x; squares n k { y with fl := x.fl ||| y.fl }

/-- NV of a signalling NaN among the operand's elements that the norm reads [03 R52]. -/
def snanFlag (a : Work) : W32 := flagIf (a.els.any fun e => (f32 e).isSnan) flagNV

/-- The exponential and its flags; none where D is singular [08 R160]. -/
def expOf (a : Handle) : Option (List W32 × W32) :=
  let n := a.rows
  let w := workOf a
  let (nrm, fl0) := normOf n w
  let s := expScale nrm
  let bs := w.els.map fun e => mulInto Fmt.f32 (f32 e) (.fin false 1 (-(s : Int)))
  let b : Work := { rows := n, cols := n, els := bs.map Prod.fst, fl := bs.foldl (fun fl r => fl ||| r.2) 0 }
  let b2 := mulMat n b b
  let b4 := mulMat n b2 b2
  let b6 := mulMat n b4 b2
  let wm := sumMat n fun i j => [(pade 1, f32 (idEl i j)), (pade 3, f32 (b2.get i j)), (pade 5, f32 (b4.get i j))]
  let u := mulMat n b wm
  let v := sumMat n fun i j =>
    [(pade 0, f32 (idEl i j)), (pade 2, f32 (b2.get i j)), (pade 4, f32 (b4.get i j)), (pade 6, f32 (b6.get i j))]
  let sum2 (neg : Bool) : Work :=
    let rs := (List.range n).flatMap fun i => (List.range n).map fun j =>
      windowSum [f32 (v.get i j), if neg then negVal (f32 (u.get i j)) else f32 (u.get i j)]
    { rows := n, cols := n, els := rs.map Prod.fst, fl := rs.foldl (fun fl r => fl ||| r.2) 0 }
  let nm := sum2 false
  let dm := sum2 true
  match luOf n { dm with fl := 0 } with
  | none => none
  | some lu =>
    let y := trsv false true n n lu.w.get fun i j => nm.get (lu.perm.getD i 0) j
    let x := trsv true false n n lu.w.get y.get
    let r := squares n s x
    some (r.els, snanFlag w ||| fl0 ||| b.fl ||| b2.fl ||| b4.fl ||| b6.fl ||| wm.fl ||| u.fl ||| v.fl ||| nm.fl |||
      dm.fl ||| lu.w.fl ||| y.fl ||| x.fl ||| r.fl)

/-- A lane's work in a pass of MEXP; none where it has no step for it [10 R194]. -/
def expWork (n s pass : Nat) : Option Nat :=
  if pass = 3 then some (ceilDiv (n ^ 3) 16)
  else if pass ≤ 4 then some (ceilDiv (2 * n ^ 3) 16)
  else
    let left := s - 2 * (pass - 5)
    if left = 0 then none else if left = 1 then some (ceilDiv (n ^ 3) 16) else some (ceilDiv (2 * n ^ 3) 16)

/-- The cell phase of a pass, over the lanes' n and s. -/
def expPhase (lanes : List (Nat × Nat × Nat)) (pass : Nat) : Nat :=
  cellPhaseOf (lanes.filterMap fun x => (expWork x.2.1 x.2.2 pass).map fun w => (x.1, [x.2.1, x.2.2], w))

/-- MEXP holds the array until its last pass's cell phase has ended [10 R194]. -/
def execMexp (h : Hdr) (d a : MReg) (la : Bool) (s : State) : Out :=
  let ex := s.exec h
  orTrap (s.matCheck ex [(0, d), (1, a)] (squareFails d a)) s <|
    if ex = 0 then s else
    let lanes := (lanesOf ex).map fun l => let x := (s.old.lane l).hnd a; (l.val, x.rows, expS x)
    let smax := (lanes.map fun x => x.2.2).foldl max 0
    let phases := (List.range (4 + ceilDiv smax 2)).map fun i => expPhase lanes (i + 1)
    let durs := phases.map fun p => 16 + p
    let t := s.now.cycle
    let f := s.matFlight ex (.mexp [durs.headD 16] durs.tail) (t + durs.headD 16) (fun l => [.m l d]) [a] fun l =>
      let x := s.old.lane l
      match expOf (x.hnd a) with
      | none => MatRes.stop 0x08
      | some r => matDone l x d r.1 r.2
    (s.matLaunch f (lastUse [(la, a)]) (.mexpPassEnd s.old.id f.id)).onDev fun dev =>
      dev.holdArray s.old.core s.old.quad f.id (durs.sum - 16)

/-- The handles of a lane that an abandoned word read, and that have been released since. -/
def Flight.stowed (f : Flight) (l : LaneId) : List Stow :=
  (f.lasts.filter fun y => y.1 == l).map fun y => { at_ := (f.pc, f.gpos), reg := y.2.1, h := some y.2.2 }

/-- A strand without an MEXP's flight: its lanes have the group to issue again, with the handles that it read [10 R194]. -/
def Strand.abandon (st : Strand) (f : Flight) : Strand :=
  let kept (x : Freed) : Bool := f.lasts.any fun y => y.1 == x.lane && y.2.1 == x.reg
  let mine := f.frees.filter kept
  let st := st.onLanes f.lanes fun l x => { x with stow := x.stow ++ f.stowed l }
  { st with flights := (st.flights.filter fun g => g.id != f.id).map fun g => { g with frees := g.frees.filter fun x => !mine.contains x }
            redo := st.redo ++ [{ pc := f.pc, pos := f.gpos, lanes := f.lanes }] }

/-- A pass ends under a pre-emption request, and the word is abandoned: no result is written and none is pending, the
array is free, and the group issues again when the strand resumes [10 R194]. -/
def Dev.abandonMexp (d : Dev) (st : Strand) (f : Flight) : Dev :=
  let u := st.abandon f
  let d := d.onStrand st.id fun st => st.abandon f
  let d := if (d.quad st.core st.quad).cellWord = f.id then d.freeArray st.core st.quad else d
  d.returnBlocks st.core st.quad st.region (st.holding + st.freeing - (u.holding + u.freeing))

/-- MEXP_PASS_END: the next pass begins, or after the last the result arrives; a pre-emption request abandons the word
[10 R194]. -/
def execMexpPassEnd (sid fid : Nat) (s : State) : Out :=
  s.event fun d =>
    match d.strand? sid, d.flight? sid fid with
    | some st, some f =>
      match f.kind with
      | .mexp _ [] => if d.halts st then d.abandonMexp st f else d.landMatrix sid f
      | .mexp done (n :: rest) =>
        if d.halts st then d.abandonMexp st f
        else
          let go (x : Flight) : Flight := { x with kind := .mexp (n :: done) rest, due := d.cycle + n }
          (d.onStrand sid fun st => { st with flights := updWhere (fun x => x.id == fid) go st.flights }).plan
            (d.cycle + n) (.mexpPassEnd sid fid)
      | _ => d
    | _, _ => d

/-! ### MHT [08 R161] -/

def htLen : HtBlk → Nat
  | .b16 => 16
  | .b32 => 32
  | .b64 => 64

/-- The number of set bits of a number below 64, modulo 2. -/
def oddBits (n : Nat) : Bool := ((List.range 6).filter fun i => n / 2 ^ i % 2 == 1).length % 2 == 1

/-- One element of a transformed block. -/
def htEl (t : ElTy) (xs : List W32) (k : Nat) : W32 × W32 :=
  match t with
  | .flt f =>
    let vs := xs.zipIdx.map fun p => if oddBits (k &&& p.2) then negVal (f.val p.1.toNat) else f.val p.1.toNat
    let r := windowSumIn f (vs ++ [.fin false 0 0])
    (BitVec.ofNat 32 r.1, r.2 ||| flagIf (vs.any Val.isSnan) flagNV)
  | .int s w => (wrapEl w ((xs.zipIdx.map fun p => if oddBits (k &&& p.2) then -intEl s w p.1 else intEl s w p.1).sum), 0)

/-- The elements of a sequence transformed block by block. -/
def htBlocks (t : ElTy) (b : Nat) : Nat → List W32 → List (W32 × W32)
  | 0, _ => []
  | fuel + 1, els =>
    if els.isEmpty then [] else
    (List.range b).map (fun k => htEl t (els.take b) k) ++ htBlocks t b fuel (els.drop b)

/-- A handle transformed, with its flags. -/
def htResult (hd ha : Handle) (t : ElTy) (b : Nat) : Handle × W32 :=
  let rs := htBlocks t b 16 ha.els
  ({ hd with els := rs.map Prod.fst }, rs.foldl (fun fl r => fl ||| r.2) 0)

def execMht (h : Hdr) (d a : MReg) (fm : Fin 4) (la : Bool) (blk : HtBlk) (s : State) : Out :=
  let b := htLen blk
  let cut (x : Lane) (o : Operand) : List MFail := failIf ((x.hnd o.2).rows * (x.hnd o.2).cols % b != 0) 1 o
  let shape (x : Lane) : List MFail :=
    sameShape d a x ++ cut x (0, d) ++ cut x (1, a) ++ sameWidth d a x ++
    fmIs x (0, d) fm.val ++ fmIs x (1, a) fm.val
  orTrap (s.matCheck (s.exec h) [(0, d), (1, a)] shape) s <|
    cellM s (s.exec h) false 10
      (fun x => let e := (x.hnd a).rows * (x.hnd a).cols
        ([e, b, ewBits (x.hnd a).w], ceilDiv (e * Nat.log2 b) (4 * cellRate (x.hnd a).w))) [d] [a] (lastUse [(la, a)])
      fun l x =>
        let r := htResult (x.hnd d) (x.hnd a) (fmTyD (x.hnd a).w fm.val) b
        MatRes.ok [.m l d (some r.1)] r.2

end Sys2Proof.Machine
end

