-- ==== Sys2Proof/Machine/Dispatch.lean ====
section
/-! DEFINITION. One arm per constructor of Instr: a direct call of its meaning. -/

namespace Sys2Proof.Machine

def exec (i : Instr) (s : State) : Host.Outcome State Fault Refusal :=
  match i with
  | .passedOverLimit x0 x1 => Sys2Proof.Machine.execPassedOverLimit x0 x1 s
  | .heldTrapDelivery x0 x1 => Sys2Proof.Machine.execHeldTrapDelivery x0 x1 s
  | .faultReportDequeue x0 => Sys2Proof.Machine.execFaultReportDequeue x0 s
  | .memoryResultArrival x0 x1 => Sys2Proof.Machine.execMemoryResultArrival x0 x1 s
  | .scrubUncorrectable x0 => Sys2Proof.Machine.execScrubUncorrectable x0 s
  | .matrixAccessCompletion x0 x1 => Sys2Proof.Machine.execMatrixAccessCompletion x0 x1 s
  | .cellPhaseEnd x0 x1 => Sys2Proof.Machine.execCellPhaseEnd x0 x1 s
  | .cellWordPassEnd x0 x1 => Sys2Proof.Machine.execCellWordPassEnd x0 x1 s
  | .checksumRerunStart x0 x1 => Sys2Proof.Machine.execChecksumRerunStart x0 x1 s
  | .mexpPassEnd x0 x1 => Sys2Proof.Machine.execMexpPassEnd x0 x1 s
  | .elementBusyEnd x0 x1 => Sys2Proof.Machine.execElementBusyEnd x0 x1 s
  | .elementPathCompletion x0 x1 => Sys2Proof.Machine.execElementPathCompletion x0 x1 s
  | .macqParkedGrant x0 x1 => Sys2Proof.Machine.execMacqParkedGrant x0 x1 s
  | .macqArrival x0 x1 => Sys2Proof.Machine.execMacqArrival x0 x1 s
  | .macqTryFailArrival x0 x1 => Sys2Proof.Machine.execMacqTryFailArrival x0 x1 s
  | .callocGrant x0 x1 => Sys2Proof.Machine.execCallocGrant x0 x1 s
  | .cfreeCompletion x0 x1 => Sys2Proof.Machine.execCfreeCompletion x0 x1 s
  | .barrierCompletion x0 => Sys2Proof.Machine.execBarrierCompletion x0 s
  | .awtCompletion x0 x1 => Sys2Proof.Machine.execAwtCompletion x0 x1 s
  | .claspReleaseCompletion x0 x1 => Sys2Proof.Machine.execClaspReleaseCompletion x0 x1 s
  | .claspAcqCompletion x0 x1 => Sys2Proof.Machine.execClaspAcqCompletion x0 x1 s
  | .claspUnbindCompletion x0 x1 => Sys2Proof.Machine.execClaspUnbindCompletion x0 x1 s
  | .mwaitWake x0 x1 => Sys2Proof.Machine.execMwaitWake x0 x1 s
  | .mwaitTimeout x0 x1 => Sys2Proof.Machine.execMwaitTimeout x0 x1 s
  | .tlbiSweepCompletion x0 x1 => Sys2Proof.Machine.execTlbiSweepCompletion x0 x1 s
  | .fenceEngineCompletion x0 x1 => Sys2Proof.Machine.execFenceEngineCompletion x0 x1 s
  | .tagWaitCompletion x0 x1 => Sys2Proof.Machine.execTagWaitCompletion x0 x1 s
  | .tlwaitCompletion x0 x1 => Sys2Proof.Machine.execTlwaitCompletion x0 x1 s
  | .lywaitCompletion x0 x1 => Sys2Proof.Machine.execLywaitCompletion x0 x1 s
  | .copyCompletion x0 => Sys2Proof.Machine.execCopyCompletion x0 s
  | .drainRowCompletion x0 x1 => Sys2Proof.Machine.execDrainRowCompletion x0 x1 s
  | .drainRowApply x0 => Sys2Proof.Machine.execDrainRowApply x0 s
  | .collCompletion x0 => Sys2Proof.Machine.execCollCompletion x0 s
  | .homeVerdict x0 => Sys2Proof.Machine.execHomeVerdict x0 s
  | .dropPostApply x0 => Sys2Proof.Machine.execDropPostApply x0 s
  | .signetVerdictArrival x0 x1 => Sys2Proof.Machine.execSignetVerdictArrival x0 x1 s
  | .taskPlacement x0 => Sys2Proof.Machine.execTaskPlacement x0 s
  | .placementWaitLimit x0 => Sys2Proof.Machine.execPlacementWaitLimit x0 s
  | .taskLaunch x0 => Sys2Proof.Machine.execTaskLaunch x0 s
  | .taskEnd x0 => Sys2Proof.Machine.execTaskEnd x0 s
  | .regionLink x0 => Sys2Proof.Machine.execRegionLink x0 s
  | .regionEndCompletion x0 => Sys2Proof.Machine.execRegionEndCompletion x0 s
  | .intakeTaskEntry => Sys2Proof.Machine.execIntakeTaskEntry s
  | .intakeRgendEntry => Sys2Proof.Machine.execIntakeRgendEntry s
  | .intakeRgnewEntry => Sys2Proof.Machine.execIntakeRgnewEntry s
  | .intakeSkipEntry => Sys2Proof.Machine.execIntakeSkipEntry s
  | .trayTimerExpiry x0 x1 => Sys2Proof.Machine.execTrayTimerExpiry x0 x1 s
  | .swapFetchStart x0 x1 => Sys2Proof.Machine.execSwapFetchStart x0 x1 s
  | .evictionCompletion x0 x1 => Sys2Proof.Machine.execEvictionCompletion x0 x1 s
  | .swapFetchCompletion x0 x1 => Sys2Proof.Machine.execSwapFetchCompletion x0 x1 s
  | .swapFetchFailure x0 x1 x2 => Sys2Proof.Machine.execSwapFetchFailure x0 x1 x2 s
  | .swapFetchTimeout x0 x1 => Sys2Proof.Machine.execSwapFetchTimeout x0 x1 s
  | .preemptionRequest x0 => Sys2Proof.Machine.execPreemptionRequest x0 s
  | .contextSave x0 => Sys2Proof.Machine.execContextSave x0 s
  | .taskRestore x0 => Sys2Proof.Machine.execTaskRestore x0 s
  | .watchdogParkExpiry x0 x1 => Sys2Proof.Machine.execWatchdogParkExpiry x0 x1 s
  | .watchdogHandlerExpiry x0 x1 => Sys2Proof.Machine.execWatchdogHandlerExpiry x0 x1 s
  | .arbiterInterval x0 => Sys2Proof.Machine.execArbiterInterval x0 s
  | .dieGrant x0 x1 => Sys2Proof.Machine.execDieGrant x0 x1 s
  | .grantTimeout x0 => Sys2Proof.Machine.execGrantTimeout x0 s
  | .railChangeCompletion x0 => Sys2Proof.Machine.execRailChangeCompletion x0 s
  | .governorRailWrite x0 x1 x2 => Sys2Proof.Machine.execGovernorRailWrite x0 x1 x2 s
  | .thermalLimit x0 => Sys2Proof.Machine.execThermalLimit x0 s
  | .thermalShutdown x0 => Sys2Proof.Machine.execThermalShutdown x0 s
  | .flitDataReceive x0 x1 => Sys2Proof.Machine.execFlitDataReceive x0 x1 s
  | .flitNackReceive x0 x1 => Sys2Proof.Machine.execFlitNackReceive x0 x1 s
  | .flitIdleReceive x0 x1 => Sys2Proof.Machine.execFlitIdleReceive x0 x1 s
  | .linkAckTimeout x0 => Sys2Proof.Machine.execLinkAckTimeout x0 s
  | .linkRetrainCompletion x0 => Sys2Proof.Machine.execLinkRetrainCompletion x0 s
  | .transactionReceive x0 => Sys2Proof.Machine.execTransactionReceive x0 s
  | .transactionResponse x0 x1 x2 => Sys2Proof.Machine.execTransactionResponse x0 x1 x2 s
  | .transactionResendTimeout x0 x1 => Sys2Proof.Machine.execTransactionResendTimeout x0 x1 s
  | .transactionFailure x0 x1 => Sys2Proof.Machine.execTransactionFailure x0 x1 s
  | .bar2Write x0 x1 x2 x3 => Sys2Proof.Machine.execBar2Write x0 x1 x2 x3 s
  | .bar2Read x0 x1 x2 => Sys2Proof.Machine.execBar2Read x0 x1 x2 s
  | .bar2Fetchadd x0 x1 x2 x3 => Sys2Proof.Machine.execBar2Fetchadd x0 x1 x2 x3 s
  | .bar2Swap x0 x1 x2 x3 => Sys2Proof.Machine.execBar2Swap x0 x1 x2 x3 s
  | .bar2Cas x0 x1 x2 x3 x4 => Sys2Proof.Machine.execBar2Cas x0 x1 x2 x3 x4 s
  | .rstctlReset x0 x1 => Sys2Proof.Machine.execRstctlReset x0 x1 s
  | .semRequest x0 x1 => Sys2Proof.Machine.execSemRequest x0 x1 s
  | .semRelease x0 x1 => Sys2Proof.Machine.execSemRelease x0 x1 s
  | .msixUnmask x0 x1 => Sys2Proof.Machine.execMsixUnmask x0 x1 s
  | .controlRegisterWrite x0 x1 x2 => Sys2Proof.Machine.execControlRegisterWrite x0 x1 x2 s
  | .portFlr x0 => Sys2Proof.Machine.execPortFlr x0 s
  | .portLinkDown x0 => Sys2Proof.Machine.execPortLinkDown x0 s
  | .hostCompletionTimeout x0 x1 => Sys2Proof.Machine.execHostCompletionTimeout x0 x1 s
  | .cxlResponseTimeout x0 x1 => Sys2Proof.Machine.execCxlResponseTimeout x0 x1 s
  | .cxlPoisonResponse x0 x1 => Sys2Proof.Machine.execCxlPoisonResponse x0 x1 s
  | .attctlRequest x0 x1 => Sys2Proof.Machine.execAttctlRequest x0 x1 s
  | .attestationCompletion => Sys2Proof.Machine.execAttestationCompletion s
  | .powerOnReset => Sys2Proof.Machine.execPowerOnReset s
  | .illegalEncoding x0 x1 => Sys2Proof.Machine.execIllegalEncoding x0 x1 s
  | .cxlPortDown x0 => Sys2Proof.Machine.execCxlPortDown x0 s
  | .nop h => Sys2Proof.Machine.execNop h s
  | .scp scope order => Sys2Proof.Machine.execScp scope order s
  | .lit hi g body => Sys2Proof.Machine.execLit hi g body s
  | .br h cc off => Sys2Proof.Machine.execBr h cc off s
  | .bnone h p off => Sys2Proof.Machine.execBnone h p off s
  | .bany h p off => Sys2Proof.Machine.execBany h p off s
  | .ball h p off => Sys2Proof.Machine.execBall h p off s
  | .bnall h p off => Sys2Proof.Machine.execBnall h p off s
  | .bdiv h p off => Sys2Proof.Machine.execBdiv h p off s
  | .call h off => Sys2Proof.Machine.execCall h off s
  | .jmpr h a => Sys2Proof.Machine.execJmpr h a s
  | .ret h a => Sys2Proof.Machine.execRet h a s
  | .exit h => Sys2Proof.Machine.execExit h s
  | .join h => Sys2Proof.Machine.execJoin h s
  | .earlygo h => Sys2Proof.Machine.execEarlygo h s
  | .yield h => Sys2Proof.Machine.execYield h s
  | .tret h => Sys2Proof.Machine.execTret h s
  | .bkpt h code => Sys2Proof.Machine.execBkpt h code s
  | .trap h code => Sys2Proof.Machine.execTrap h code s
  | .eret h => Sys2Proof.Machine.execEret h s
  | .halt h => Sys2Proof.Machine.execHalt h s
  | .tlbi h a scope kind => Sys2Proof.Machine.execTlbi h a scope kind s
  | .railsel h rail => Sys2Proof.Machine.execRailsel h rail s
  | .csrr h d csr => Sys2Proof.Machine.execCsrr h d csr s
  | .csrw h d csr => Sys2Proof.Machine.execCsrw h d csr s
  | .csrs h d csr => Sys2Proof.Machine.execCsrs h d csr s
  | .csrc h d csr => Sys2Proof.Machine.execCsrc h d csr s
  | .iadd h d a b => Sys2Proof.Machine.execIadd h d a b s
  | .isub h d a b => Sys2Proof.Machine.execIsub h d a b s
  | .imin h d a b => Sys2Proof.Machine.execImin h d a b s
  | .imax h d a b => Sys2Proof.Machine.execImax h d a b s
  | .iminZ h d a b => Sys2Proof.Machine.execIminZ h d a b s
  | .imaxZ h d a b => Sys2Proof.Machine.execImaxZ h d a b s
  | .idiff h d a b => Sys2Proof.Machine.execIdiff h d a b s
  | .iabs h d a => Sys2Proof.Machine.execIabs h d a s
  | .andw h d a b => Sys2Proof.Machine.execAndw h d a b s
  | .orw h d a b => Sys2Proof.Machine.execOrw h d a b s
  | .xorw h d a b => Sys2Proof.Machine.execXorw h d a b s
  | .andn h d a b => Sys2Proof.Machine.execAndn h d a b s
  | .ishl h d a b => Sys2Proof.Machine.execIshl h d a b s
  | .ishr h d a b => Sys2Proof.Machine.execIshr h d a b s
  | .isar h d a b => Sys2Proof.Machine.execIsar h d a b s
  | .irot h d a b => Sys2Proof.Machine.execIrot h d a b s
  | .imul h d a b => Sys2Proof.Machine.execImul h d a b s
  | .imulhS h d a b => Sys2Proof.Machine.execImulhS h d a b s
  | .imulhZ h d a b => Sys2Proof.Machine.execImulhZ h d a b s
  | .imad h d a b => Sys2Proof.Machine.execImad h d a b s
  | .popc h d a => Sys2Proof.Machine.execPopc h d a s
  | .clz h d a => Sys2Proof.Machine.execClz h d a s
  | .brev h d a => Sys2Proof.Machine.execBrev h d a s
  | .fns h d a b => Sys2Proof.Machine.execFns h d a b s
  | .popc64 h d a => Sys2Proof.Machine.execPopc64 h d a s
  | .clz64 h d a => Sys2Proof.Machine.execClz64 h d a s
  | .brev64 h d a => Sys2Proof.Machine.execBrev64 h d a s
  | .fns64 h d a b => Sys2Proof.Machine.execFns64 h d a b s
  | .iadd64 h d a b => Sys2Proof.Machine.execIadd64 h d a b s
  | .isub64 h d a b => Sys2Proof.Machine.execIsub64 h d a b s
  | .ishl64 h d a b => Sys2Proof.Machine.execIshl64 h d a b s
  | .ishr64 h d a b => Sys2Proof.Machine.execIshr64 h d a b s
  | .bfxS h d a b => Sys2Proof.Machine.execBfxS h d a b s
  | .bfxZ h d a b => Sys2Proof.Machine.execBfxZ h d a b s
  | .bfi h d a b => Sys2Proof.Machine.execBfi h d a b s
  | .prmt h d a b => Sys2Proof.Machine.execPrmt h d a b s
  | .sel h d a b n => Sys2Proof.Machine.execSel h d a b n s
  | .mov h d a => Sys2Proof.Machine.execMov h d a s
  | .mov64 h d a => Sys2Proof.Machine.execMov64 h d a s
  | .iaddi h d a imm => Sys2Proof.Machine.execIaddi h d a imm s
  | .andi h d a imm => Sys2Proof.Machine.execAndi h d a imm s
  | .ori h d a imm => Sys2Proof.Machine.execOri h d a imm s
  | .xori h d a imm => Sys2Proof.Machine.execXori h d a imm s
  | .ishli h d a n => Sys2Proof.Machine.execIshli h d a n s
  | .ishri h d a n => Sys2Proof.Machine.execIshri h d a n s
  | .isari h d a n => Sys2Proof.Machine.execIsari h d a n s
  | .iroti h d a n => Sys2Proof.Machine.execIroti h d a n s
  | .icmp h pd a b c t => Sys2Proof.Machine.execIcmp h pd a b c t s
  | .icmpi h pd a imm c t => Sys2Proof.Machine.execIcmpi h pd a imm c t s
  | .pand h pd pa pb => Sys2Proof.Machine.execPand h pd pa pb s
  | .por h pd pa pb => Sys2Proof.Machine.execPor h pd pa pb s
  | .pxor h pd pa pb => Sys2Proof.Machine.execPxor h pd pa pb s
  | .pandn h pd pa pb => Sys2Proof.Machine.execPandn h pd pa pb s
  | .lea h d a b n => Sys2Proof.Machine.execLea h d a b n s
  | .movk h d k => Sys2Proof.Machine.execMovk h d k s
  | .iaddk h d a k => Sys2Proof.Machine.execIaddk h d a k s
  | .leak h d a k => Sys2Proof.Machine.execLeak h d a k s
  | .kmov h d a => Sys2Proof.Machine.execKmov h d a s
  | .kadd h d a => Sys2Proof.Machine.execKadd h d a s
  | .ksub h d a => Sys2Proof.Machine.execKsub h d a s
  | .kmul h d a => Sys2Proof.Machine.execKmul h d a s
  | .kand h d a => Sys2Proof.Machine.execKand h d a s
  | .kor h d a => Sys2Proof.Machine.execKor h d a s
  | .kxor h d a => Sys2Proof.Machine.execKxor h d a s
  | .kshl h d a => Sys2Proof.Machine.execKshl h d a s
  | .kshr h d a => Sys2Proof.Machine.execKshr h d a s
  | .ksar h d a => Sys2Proof.Machine.execKsar h d a s
  | .kmin h d a => Sys2Proof.Machine.execKmin h d a s
  | .kmax h d a => Sys2Proof.Machine.execKmax h d a s
  | .kcmp h d a => Sys2Proof.Machine.execKcmp h d a s
  | .kpopc h d a => Sys2Proof.Machine.execKpopc h d a s
  | .kclz h d a => Sys2Proof.Machine.execKclz h d a s
  | .kfns h d a => Sys2Proof.Machine.execKfns h d a s
  | .kli h d imm => Sys2Proof.Machine.execKli h d imm s
  | .kaddi h d imm => Sys2Proof.Machine.execKaddi h d imm s
  | .kld h d a o => Sys2Proof.Machine.execKld h d a o s
  | .kst h d a o => Sys2Proof.Machine.execKst h d a o s
  | .kget h d a lane => Sys2Proof.Machine.execKget h d a lane s
  | .fadd h d a b => Sys2Proof.Machine.execFadd h d a b s
  | .fsub h d a b => Sys2Proof.Machine.execFsub h d a b s
  | .fmul h d a b => Sys2Proof.Machine.execFmul h d a b s
  | .ffma h d a b => Sys2Proof.Machine.execFfma h d a b s
  | .fmin h d a b => Sys2Proof.Machine.execFmin h d a b s
  | .fmax h d a b => Sys2Proof.Machine.execFmax h d a b s
  | .fabs h d a => Sys2Proof.Machine.execFabs h d a s
  | .fneg h d a => Sys2Proof.Machine.execFneg h d a s
  | .fcmp h pd a b c sig => Sys2Proof.Machine.execFcmp h pd a b c sig s
  | .frcp h d a => Sys2Proof.Machine.execFrcp h d a s
  | .frsq h d a => Sys2Proof.Machine.execFrsq h d a s
  | .fsqrt h d a => Sys2Proof.Machine.execFsqrt h d a s
  | .fexp2 h d a => Sys2Proof.Machine.execFexp2 h d a s
  | .flog2 h d a => Sys2Proof.Machine.execFlog2 h d a s
  | .fsin h d a => Sys2Proof.Machine.execFsin h d a s
  | .fcos h d a => Sys2Proof.Machine.execFcos h d a s
  | .ftanh h d a => Sys2Proof.Machine.execFtanh h d a s
  | .frndRn h d a => Sys2Proof.Machine.execFrndRn h d a s
  | .frndRz h d a => Sys2Proof.Machine.execFrndRz h d a s
  | .frndRu h d a => Sys2Proof.Machine.execFrndRu h d a s
  | .frndRd h d a => Sys2Proof.Machine.execFrndRd h d a s
  | .fclass h d a => Sys2Proof.Machine.execFclass h d a s
  | .fcvt h d a src dst rnd => Sys2Proof.Machine.execFcvt h d a src dst rnd s
  | .pkbf h d a b => Sys2Proof.Machine.execPkbf h d a b s
  | .pkh h d a b => Sys2Proof.Machine.execPkh h d a b s
  | .pkins h d a b => Sys2Proof.Machine.execPkins h d a b s
  | .upk h d a b => Sys2Proof.Machine.execUpk h d a b s
  | .faddi h d a imm => Sys2Proof.Machine.execFaddi h d a imm s
  | .fmuli h d a imm => Sys2Proof.Machine.execFmuli h d a imm s
  | .dp4S8 h d a b => Sys2Proof.Machine.execDp4S8 h d a b s
  | .dp4Z8 h d a b => Sys2Proof.Machine.execDp4Z8 h d a b s
  | .dp4E4 h d a b => Sys2Proof.Machine.execDp4E4 h d a b s
  | .dp4E5 h d a b => Sys2Proof.Machine.execDp4E5 h d a b s
  | .dp8S4 h d a b => Sys2Proof.Machine.execDp8S4 h d a b s
  | .dp8F4 h d a b => Sys2Proof.Machine.execDp8F4 h d a b s
  | .dp2Bf h d a b => Sys2Proof.Machine.execDp2Bf h d a b s
  | .scacc h d a b => Sys2Proof.Machine.execScacc h d a b s
  | .ld h d a o sz => Sys2Proof.Machine.execLd h d a o sz s
  | .st h d a o sz => Sys2Proof.Machine.execSt h d a o sz s
  | .pfetch h a o => Sys2Proof.Machine.execPfetch h a o s
  | .fenceFull h scope eng => Sys2Proof.Machine.execFenceFull h scope eng s
  | .fenceAcq h scope eng => Sys2Proof.Machine.execFenceAcq h scope eng s
  | .fenceRel h scope eng => Sys2Proof.Machine.execFenceRel h scope eng s
  | .atadd32 h d a b => Sys2Proof.Machine.execAtadd32 h d a b s
  | .atadd64 h d a b => Sys2Proof.Machine.execAtadd64 h d a b s
  | .ataddF32 h d a b => Sys2Proof.Machine.execAtaddF32 h d a b s
  | .ataddBf16x2 h d a b => Sys2Proof.Machine.execAtaddBf16x2 h d a b s
  | .atmmMinS h d a b => Sys2Proof.Machine.execAtmmMinS h d a b s
  | .atmmMaxS h d a b => Sys2Proof.Machine.execAtmmMaxS h d a b s
  | .atmmMinZ h d a b => Sys2Proof.Machine.execAtmmMinZ h d a b s
  | .atmmMaxZ h d a b => Sys2Proof.Machine.execAtmmMaxZ h d a b s
  | .atlogAnd h d a b => Sys2Proof.Machine.execAtlogAnd h d a b s
  | .atlogOr h d a b => Sys2Proof.Machine.execAtlogOr h d a b s
  | .atlogXor h d a b => Sys2Proof.Machine.execAtlogXor h d a b s
  | .atlogExch h d a b => Sys2Proof.Machine.execAtlogExch h d a b s
  | .cas32 h d a b => Sys2Proof.Machine.execCas32 h d a b s
  | .cas64 h d a b => Sys2Proof.Machine.execCas64 h d a b s
  | .claspAcq h a => Sys2Proof.Machine.execClaspAcq h a s
  | .claspRel h a => Sys2Proof.Machine.execClaspRel h a s
  | .claspTry h a pd => Sys2Proof.Machine.execClaspTry h a pd s
  | .claspBind h a b => Sys2Proof.Machine.execClaspBind h a b s
  | .claspUnbind h a => Sys2Proof.Machine.execClaspUnbind h a s
  | .monitor h a => Sys2Proof.Machine.execMonitor h a s
  | .mwait h a pd => Sys2Proof.Machine.execMwait h a pd s
  | .mcancel h => Sys2Proof.Machine.execMcancel h s
  | .shflIdx h d a b => Sys2Proof.Machine.execShflIdx h d a b s
  | .shflXor h d a b => Sys2Proof.Machine.execShflXor h d a b s
  | .shflUp h d a b => Sys2Proof.Machine.execShflUp h d a b s
  | .shflDown h d a b => Sys2Proof.Machine.execShflDown h d a b s
  | .redu h kd a op => Sys2Proof.Machine.execRedu h kd a op s
  | .scan h d a op excl => Sys2Proof.Machine.execScan h d a op excl s
  | .compress h d a p => Sys2Proof.Machine.execCompress h d a p s
  | .expand h d a p => Sys2Proof.Machine.execExpand h d a p s
  | .matchw h d a => Sys2Proof.Machine.execMatchw h d a s
  | .ballot h d p => Sys2Proof.Machine.execBallot h d p s
  | .bar h => Sys2Proof.Machine.execBar h s
  | .arrv h a b scope => Sys2Proof.Machine.execArrv h a b scope s
  | .awt h a b scope => Sys2Proof.Machine.execAwt h a b scope s
  | .spawn h a b => Sys2Proof.Machine.execSpawn h a b s
  | .tnew h a => Sys2Proof.Machine.execTnew h a s
  | .tnewn h a b => Sys2Proof.Machine.execTnewn h a b s
  | .tcancel h a => Sys2Proof.Machine.execTcancel h a s
  | .depdec h a => Sys2Proof.Machine.execDepdec h a s
  | .depadd h a b => Sys2Proof.Machine.execDepadd h a b s
  | .depget h a b => Sys2Proof.Machine.execDepget h a b s
  | .rgnew h a => Sys2Proof.Machine.execRgnew h a s
  | .rgend h a => Sys2Proof.Machine.execRgend h a s
  | .rgpri h a b => Sys2Proof.Machine.execRgpri h a b s
  | .macq h d r c ew => Sys2Proof.Machine.execMacq h d r c ew s
  | .macqTry h d r c ew pd => Sys2Proof.Machine.execMacqTry h d r c ew pd s
  | .mrel h d => Sys2Proof.Machine.execMrel h d s
  | .mldRow h d a b => Sys2Proof.Machine.execMldRow h d a b s
  | .mldCol h d a b => Sys2Proof.Machine.execMldCol h d a b s
  | .mldSparse h d a => Sys2Proof.Machine.execMldSparse h d a s
  | .mldBcast h d a => Sys2Proof.Machine.execMldBcast h d a s
  | .mstRow h d a b lw => Sys2Proof.Machine.execMstRow h d a b lw s
  | .mstCol h d a b lw => Sys2Proof.Machine.execMstCol h d a b lw s
  | .mstSparse h d a lw => Sys2Proof.Machine.execMstSparse h d a lw s
  | .mmul h d a b c la lb fm => Sys2Proof.Machine.execMmul h d a b c la lb fm s
  | .mmult h d a b c la lb fm => Sys2Proof.Machine.execMmult h d a b c la lb fm s
  | .mtmul h d a b c la lb fm => Sys2Proof.Machine.execMtmul h d a b c la lb fm s
  | .madd h d a b la lb fm => Sys2Proof.Machine.execMadd h d a b la lb fm s
  | .msub h d a b la lb fm => Sys2Proof.Machine.execMsub h d a b la lb fm s
  | .mhad h d a b la lb fm => Sys2Proof.Machine.execMhad h d a b la lb fm s
  | .mmax h d a b la lb fm => Sys2Proof.Machine.execMmax h d a b la lb fm s
  | .mtrn h d a la => Sys2Proof.Machine.execMtrn h d a la s
  | .mneg h d a la fm => Sys2Proof.Machine.execMneg h d a la fm s
  | .mcvt h d a sfm rnd la fm => Sys2Proof.Machine.execMcvt h d a sfm rnd la fm s
  | .mcopy h d a la => Sys2Proof.Machine.execMcopy h d a la s
  | .mreshape h d a la => Sys2Proof.Machine.execMreshape h d a la s
  | .mscale h d a g la => Sys2Proof.Machine.execMscale h d a g la s
  | .mfill h d g => Sys2Proof.Machine.execMfill h d g s
  | .mget h a g la => Sys2Proof.Machine.execMget h a g la s
  | .mput h d g => Sys2Proof.Machine.execMput h d g s
  | .mshape h a g la => Sys2Proof.Machine.execMshape h a g la s
  | .minv h d a la => Sys2Proof.Machine.execMinv h d a la s
  | .mlu h d a b la => Sys2Proof.Machine.execMlu h d a b la s
  | .mchol h d a la => Sys2Proof.Machine.execMchol h d a la s
  | .mtrsv h d a b unit up la lb => Sys2Proof.Machine.execMtrsv h d a b unit up la lb s
  | .mexp h d a la => Sys2Proof.Machine.execMexp h d a la s
  | .mht h d a fm la blk => Sys2Proof.Machine.execMht h d a fm la blk s
  | .mquant h d a g la => Sys2Proof.Machine.execMquant h d a g la s
  | .msacc h d a g la => Sys2Proof.Machine.execMsacc h d a g la s
  | .calloc h d b => Sys2Proof.Machine.execCalloc h d b s
  | .cfree h a => Sys2Proof.Machine.execCfree h a s
  | .caccAdd h d a b fin => Sys2Proof.Machine.execCaccAdd h d a b fin s
  | .caccIadd h d a b fin => Sys2Proof.Machine.execCaccIadd h d a b fin s
  | .caccWrite h d a b fin => Sys2Proof.Machine.execCaccWrite h d a b fin s
  | .cld h d a b => Sys2Proof.Machine.execCld h d a b s
  | .cldClr h d a b => Sys2Proof.Machine.execCldClr h d a b s
  | .cdrainMem h k => Sys2Proof.Machine.execCdrainMem h k s
  | .cdrainAdd h k => Sys2Proof.Machine.execCdrainAdd h k s
  | .cpy h k tag => Sys2Proof.Machine.execCpy h k tag s
  | .cpy2d h k tag => Sys2Proof.Machine.execCpy2d h k tag s
  | .cpyxGather h k tag => Sys2Proof.Machine.execCpyxGather h k tag s
  | .cpyxScatter h k tag => Sys2Proof.Machine.execCpyxScatter h k tag s
  | .wtany h k => Sys2Proof.Machine.execWtany h k s
  | .wtall h k => Sys2Proof.Machine.execWtall h k s
  | .tfirst h k d => Sys2Proof.Machine.execTfirst h k d s
  | .ttest h k d => Sys2Proof.Machine.execTtest h k d s
  | .tlwait h ctx k => Sys2Proof.Machine.execTlwait h ctx k s
  | .tlread h ctx k => Sys2Proof.Machine.execTlread h ctx k s
  | .collAllreduce h k => Sys2Proof.Machine.execCollAllreduce h k s
  | .collReducescatter h k => Sys2Proof.Machine.execCollReducescatter h k s
  | .collAllgather h k => Sys2Proof.Machine.execCollAllgather h k s
  | .collAlltoall h k => Sys2Proof.Machine.execCollAlltoall h k s
  | .hnew h x y => Sys2Proof.Machine.execHnew h x y s
  | .hcopy h x y => Sys2Proof.Machine.execHcopy h x y s
  | .hdrop h y => Sys2Proof.Machine.execHdrop h y s
  | .hderef h x y => Sys2Proof.Machine.execHderef h x y s
  | .hfin h x y => Sys2Proof.Machine.execHfin h x y s
  | .hld h x y => Sys2Proof.Machine.execHld h x y s
  | .hst h x y => Sys2Proof.Machine.execHst h x y s
  | .lywait h a b => Sys2Proof.Machine.execLywait h a b s
  | .lydone h a b => Sys2Proof.Machine.execLydone h a b s
  | .lyhintPf h a b => Sys2Proof.Machine.execLyhintPf h a b s
  | .lyhintRetry h a b => Sys2Proof.Machine.execLyhintRetry h a b s

end Sys2Proof.Machine
end

