-- ==== Sys2Proof/Machine/Group.lean ====
section
/-! DEFINITION. The checks of a group whose words may take effect one after another [02 R28, 14 R226]. -/

namespace Sys2Proof.Machine

/-- The words of the open group run without a stop, to find what faults or is short; `n` bounds them. -/
noncomputable def dryRun : Nat → State → State
  | 0, s => s
  | n + 1, s =>
    match decodeWord s.word with
    | .error _ => s
    | .ok i =>
      match exec i s with
      | .next t => if !t.iss.active || t.iss.last then t else dryRun n (t.advance s.word)
      | .fault _ | .refused _ => s

/-- A group that has just opened may stop before a later word of it. -/
noncomputable def State.mayPause (s : State) : Bool :=
  s.iss.active && s.iss.real.isNone && decide (2 ≤ ((decoded s.iss.left).filter fun x => heldBack x.2.2).length)

/-- The faults of all words of such a group, and its short resources, come before any word has an effect [02 R28]. -/
noncomputable def checkGroup (s : State) : State :=
  if !s.mayPause then s else
  let t := dryRun 3 s
  if !t.iss.active then t else if t.iss.block.isSome then closeGroup t else s

end Sys2Proof.Machine
end

