-- ==== Sys2Proof/Machine/Step.lean ====
section
/-! DEFINITION. One step of the machine, and the placing of an instruction where the next step fetches. -/

namespace Sys2Proof.Machine

/-! ### What comes next

The events of a cycle come before its groups, by core, quadrant and slot, but for those that end a task by a fault: they take
their place among the groups, so that the first of several faults is the first in that order [16 R263, 21 R328]. -/

/-- The events of the agenda that are due, each with the agenda without it. -/
def dueOf (cycle : Nat) : List (Nat × Instr) → List (Instr × List (Nat × Instr))
  | [] => []
  | (c, e) :: rest =>
    let later := (dueOf cycle rest).map fun x => (x.1, (c, e) :: x.2)
    if c ≤ cycle then (e, rest) :: later else later

/-- The strand that an event is about. -/
def strandOf : Instr → Option Nat
  | .memoryResultArrival sid _ | .matrixAccessCompletion sid _ | .cellWordPassEnd sid _ | .checksumRerunStart sid _
  | .mexpPassEnd sid _ | .elementPathCompletion sid _ | .macqArrival sid _ | .macqTryFailArrival sid _
  | .signetVerdictArrival sid _ | .mwaitTimeout sid _ | .mwaitWake sid _ | .watchdogParkExpiry sid _
  | .watchdogHandlerExpiry sid _ | .hostCompletionTimeout sid _ | .cxlResponseTimeout sid _ | .cxlPoisonResponse sid _ => some sid
  | _ => none

/-- The place of an event: 0 for one that is about no strand, otherwise one more than its strand's slot number on the
device. -/
def Dev.eventPlace (d : Dev) (e : Instr) : Nat :=
  match (strandOf e).bind d.strand? with
  | none => 0
  | some st => 1 + quadPlace st.core st.quad * 16 + st.slot.val

/-- The place of a fault that ends a job, where the device did not know of it [21 R328]. -/
def Dev.newFault (d : Dev) (j : Job) : Option Nat :=
  match j.st with
  | .ending (some r) _ => if d.jobs.any fun i => i.id == j.id && i.st == j.st then none else some r.rank
  | _ => none

/-- The place of the first fault by which an event ends a task; none where it ends none. -/
noncomputable def Dev.strikes (d : Dev) (x : Instr × List (Nat × Instr)) : Option Nat :=
  match exec x.1 { now := { d with agenda := x.2 }, start := d, iss := Issue.none } with
  | .next t => (t.now.jobs.filterMap d.newFault).min?
  | .fault _ | .refused _ => none

/-- The event that comes next of those that are due, watchdogs, deterministic MWAITs and grants of blocks among them, with
the agenda after it. -/
noncomputable def Dev.nextEvent (d : Dev) : Option (Instr × List (Nat × Instr)) :=
  let own := (d.overdue ++ d.mwaitDue ++ d.macqEvents).map fun e => (e, d.agenda)
  let due := dueOf d.cycle d.agenda ++ own
  leastBy (fun x y => decide (d.eventPlace x.1 < d.eventPlace y.1)) (due.filter fun x => (d.strikes x).isNone) <|>
    leastBy (fun x y => decide ((d.strikes x).getD 0 < (d.strikes y).getD 0)) due

/-- A group comes before an event that ends a task by a fault: its core, quadrant and slot come first [21 R328]. -/
noncomputable def Dev.groupFirst (d : Dev) (x : Instr × List (Nat × Instr)) : Bool :=
  match d.strikes x, d.chooseIn d.quadsLeft with
  | some rank, some (c, q, _, y) => decide (quadPlace c q * 16 + y.st.slot.val < rank / 32)
  | _, _ => false

/-- Between groups the device's state is also what the next group starts from. -/
def settleState : Out → Out
  | .next s => .next { now := s.now, start := s.now, iss := Issue.none }
  | .fault f => .fault f
  | .refused r => .refused r

/-- The word of the open group that runs next is executed, and the group goes on or closes. -/
noncomputable def runWord (s : State) : Out :=
  match decodeWord s.word with
  | .error _ => exec (.illegalEncoding s.word s.iss.pos) s
  | .ok i =>
    match exec i s with
    | .next t => .next (afterWord s.word t)
    | .fault f => .fault f
    | .refused r => .refused r

/-- The cycle ends: the rest of its decrements are applied, what acts by itself acts, and the decrements of the next cycle
are chosen [18 R289]. -/
noncomputable def Dev.closeCycle (d : Dev) : Dev := (d.applyDecs 256 true).tick.endCycle.markDecs

/-- A candidate's next group decrements a counter. -/
noncomputable def Cand.decrements (x : Cand) : Bool :=
  match x.words with
  | .error _ => false
  | .ok ws => (decoded ws).any fun y => match y.2.2 with
    | .depdec _ _ => true
    | _ => false

/-- A quadrant issues a group, or the cycle ends [09 R177]. The decrements of cores up to its own come before it [18 R289].
A held trap is taken instead of the group [21 R332]. -/
noncomputable def issueStep (d : Dev) : Out :=
  match d.chooseIn d.quadsLeft with
  | none => .next { now := d.closeCycle, start := d.closeCycle, iss := Issue.none }
  | some (c, q, cs, x) =>
    let d' := (d.applyDecs c.val !x.decrements).choose c q cs x
    if d'.focus.holdsTrap x.frag then
      settleState (exec (.heldTrapDelivery x.st.id x.slot) { now := d', start := d', iss := Issue.none })
    else
      let s := checkGroup (openGroup d' x.slot x.frag x.words)
      if s.iss.active then runWord s else .next s

/-- No event is due: an event that may happen now, by an open choice (log 8), or a group, or the end of the cycle. Where bring-up
has stopped, only inputs from outside go on. -/
noncomputable def freeStep (d : Dev) : Out :=
  if d.boot.stopped then (if d.agenda.isEmpty then .fault .bootStopped else issueStep d)
  else match d.enabled with
  | [] => issueStep d
  | es => match es[Config.freeChoice d.fresh % (es.length + 1)]? with
    | some e => settleState (exec e { now := d.drew, start := d.drew, iss := Issue.none })
    | none => issueStep d.drew

/-- The earliest entry of the agenda, with the others. -/
def earliest : List (Nat × Instr) → Option ((Nat × Instr) × List (Nat × Instr))
  | [] => none
  | x :: xs =>
    match earliest xs with
    | none => some (x, [])
    | some (y, rest) => if y.1 < x.1 then some (y, x :: rest) else some (x, xs)

/-- Core power has been removed: what comes next until a power-on is lost, but for a further thermal shutdown, which is
recorded; with no power-on to come the machine stops (log 48) [24 R382]. -/
noncomputable def offStep (d : Dev) : Out :=
  match earliest d.agenda with
  | none => .fault .powerOff
  | some ((c, e), rest) =>
    if !(d.agenda.any fun x => x.2 == .powerOnReset) then .fault .powerOff
    else
      let d := { d with cycle := max d.cycle c, agenda := rest }
      match e with
      | .powerOnReset | .thermalShutdown _ => settleState (exec e { now := d, start := d, iss := Issue.none })
      | _ => .next { now := d, start := d, iss := Issue.none }

/-- One step: the next word of the open group; otherwise an event that is due, or a group that comes before it; otherwise
what may happen next. -/
noncomputable def step (s : State) : Out :=
  if s.iss.active then runWord s
  else if s.now.power.off then offStep s.now
  else match s.now.nextEvent with
  | none => freeStep s.now
  | some (e, rest) =>
    if s.now.groupFirst (e, rest) then issueStep s.now
    else settleState (exec e { s with now := { s.now with agenda := rest } })

/-! ### Placing an instruction -/

/-- NOP with guard pt, as Tlaing fills a packet [02 R37]. -/
def nopWord : W32 := 0x38000000

/-- A word that accepts a prefix: ATADD.32 for SCP, KLI for LIT, NOP otherwise [02 R31, R32]. -/
def follower (w : W32) : W32 := if isScp w then 0x3C400000 else if isLit w then 0x3A800000 else nopWord

/-- The packet that holds a word: a control word third, any other word first [02 R27]. -/
def packetOf (w : W32) : List Byte :=
  if isControl w then toBytes 4 nopWord.toNat ++ toBytes 4 nopWord.toNat ++ toBytes 4 w.toNat
  else toBytes 4 w.toNat ++ toBytes 4 (follower w).toNat ++ toBytes 4 nopWord.toNat

/-- The page that holds the placed packet, and tables that map virtual page 0 to it with R, W and X, AC 1. -/
def fetchPage : Nat := 0x5F00050000
def fetchTables : List (Nat × Nat) :=
  [(Config.rootPtbase, 0x5F00020001), (0x5F00020000, 0x5F00030001), (0x5F00030000, 0x5F00040001), (0x5F00040000, 0x5F0005009F)]

/-- The strand that fetches the placed word: one lane in the root region, at virtual address 0, at the word's
position; at system level for a word that needs it (log 1). -/
noncomputable def fetchStrand (id : Nat) (w : W32) : Strand :=
  let sys : Bool := match decodeWord w with
    | .ok i => privilegedWord i
    | .error _ => false
  let f := { Frag.start 1 0 with pos := if isControl w then 2 else 0, prv := sys }
  { Strand.reset with id := id, frags := Strand.reset.frags.set 0 (some f)
                      lanes := Strand.reset.lanes.set 0 { Lane.start with present := true } }

/-- The state with a word of the opcode table where the next step fetches (log 1): a strand that is about to issue it,
its packet in device memory, and the tables that reach it. -/
noncomputable def State.withFetchWord (s : State) (nbits w : Nat) : State :=
  let word : W32 := BitVec.ofNat 32 (w % 2 ^ min nbits 32)
  let mem := Mem.write (fetchTables.foldl (fun m x => Mem.write m x.1 (toBytes 8 x.2)) s.now.mem) fetchPage (packetOf word)
  let d := { s.now with mem := mem, focus := fetchStrand (s.now.seq + 1) word, strands := [], seq := s.now.seq + 1, agenda := [] }
  { now := d, start := d, iss := Issue.none }

end Sys2Proof.Machine
end

