-- ==== Sys2Proof/Safety.lean ====
section
/-! DEFINITION. The terms that claims use: what a safe run is, how a state's registers and memory are read, and what a
word leaves unchanged. -/

namespace Sys2Proof.Machine

/-! ### Safe runs -/

/-- The two reasons for which a step stops, and both are the spec's: core power is removed [24 R382], or a verification
of bring-up failed [24 R376]. A run is safe when no step refuses an instruction. -/
def State.mayStop (s : State) : Bool := s.now.power.off || s.now.boot.stopped

/-- Memory is in canonical form, in the device as it stands and in the device that the open group started from. -/
def State.memOk (s : State) : Prop := Mem.wf s.now.mem = true ∧ Mem.wf s.start.mem = true

/-! ### Reading a state -/

/-- A lane of the issuing strand, as it stands. -/
def State.lane (s : State) (l : LaneId) : Lane := s.now.focus.lane l

/-- A lane of the issuing strand as the open group reads it [01 R14]. -/
def State.src (s : State) (l : LaneId) : Lane := s.old.lane l

/-- A word with this header executes in a lane: the lane is active and its guard is true [01 R15]. -/
def State.runsIn (s : State) (h : Hdr) (l : LaneId) : Prop := hasLane (s.exec h) l = true

/-- Every byte of memory reads as before. -/
def sameMemory (s t : State) : Prop := ∀ k, Mem.get t.now.mem k = Mem.get s.now.mem k

/-- The fragment that issues, as it stands. -/
def State.fragNow (s : State) : Option Frag := s.now.focus.frag s.iss.slot

/-! ### What a word leaves unchanged -/

/-- Only the lanes of the issuing strand may differ. -/
def onlyLanes (s t : State) : Prop :=
  t = { s with now := { s.now with focus := { s.now.focus with lanes := t.now.focus.lanes } } }

/-- Only the lanes of the issuing strand, and the flags that the open group has noted for a CSR write, may differ. -/
def onlyFpLanes (s t : State) : Prop :=
  t = { s with now := { s.now with focus := { s.now.focus with lanes := t.now.focus.lanes } }
               iss := { s.iss with fflags := t.iss.fflags } }

/-- Only the uniform registers and the uniform flags of the issuing strand may differ. -/
def onlyUniform (s t : State) : Prop :=
  t = { s with now := { s.now with focus := { s.now.focus with k := t.now.focus.k, flags := t.now.focus.flags } } }

/-- Only lanes and uniform flags of the issuing strand may differ. -/
def onlyLanesFlags (s t : State) : Prop :=
  t = { s with now := { s.now with focus := { s.now.focus with lanes := t.now.focus.lanes, flags := t.now.focus.flags } } }

/-- Only the open group's own record may differ. -/
def onlyIssue (s t : State) : Prop := t = { s with iss := t.iss }

/-- Of a lane, only these g registers may differ. -/
def Lane.onlyG (x y : Lane) (rs : List GReg) : Prop := y = { x with g := y.g } ∧ ∀ r, r ∉ rs → y.rg r = x.rg r

/-- Of a lane, only these predicates may differ. -/
def Lane.onlyP (x y : Lane) (ps : List PReg) : Prop := y = { x with p := y.p } ∧ ∀ n, n ∉ ps → y.rp n = x.rp n

/-- A word writes at most these g registers, in its executing lanes; everything else is as before. -/
def writesOnlyG (s t : State) (h : Hdr) (rs : List GReg) : Prop :=
  onlyLanes s t ∧ sameMemory s t ∧
  ∀ l, (s.runsIn h l → (s.lane l).onlyG (t.lane l) rs) ∧ (¬ s.runsIn h l → t.lane l = s.lane l)

/-- A word writes at most one predicate, in its executing lanes; everything else is as before. -/
def writesOnlyP (s t : State) (h : Hdr) (n : PReg) : Prop :=
  onlyLanes s t ∧ sameMemory s t ∧
  ∀ l, (s.runsIn h l → (s.lane l).onlyP (t.lane l) [n]) ∧ (¬ s.runsIn h l → t.lane l = s.lane l)

/-- Uniform registers other than `d` are as before, and so is everything but the uniform file and flags. -/
def writesOnlyK (s t : State) (ds : List KReg) : Prop :=
  onlyUniform s t ∧ sameMemory s t ∧ ∀ r, r ∉ ds → t.now.focus.rk r = s.now.focus.rk r

end Sys2Proof.Machine
end

