-- ==== Sys2Proof/Certificates/Slice0/Obligations.lean ====
section
/-! DEFINITION. The statements about the model: each formalises rules of the spec, which its docstring and OBLIGATIONS.json
name. Tables of what each instruction of a family gives come first in each part, written from the spec's rules and not
from the model's meanings. -/

namespace Sys2Proof.Claims
open Sys2Proof.Machine

/-! ### Operands as the rules read them -/

/-- A register as the signed number s(x), and as the unsigned number z(x) [01 R9]. -/
def sN (x : Lane) (r : GReg) : Int := (x.rg r).toInt
def zN (x : Lane) (r : GReg) : Int := (x.rg r).toNat

/-- A pair as one 64-bit number, by its two registers [01 R9]. -/
def zPair (x : Lane) (r : GReg) : Nat := (x.rg r).toNat + 2 ^ 32 * (x.rg (r.plus 1)).toNat

/-- A sign-extended immediate, or the value that LIT supplies [02 R32, R34]. -/
def signedImm (s : State) (i : BitVec 8) : Int :=
  match s.iss.lit with
  | none => i.toInt
  | some v => (v ||| BitVec.ofNat 32 i.toNat).toInt

/-- A zero-extended immediate, or the value that LIT supplies [02 R32, R34]. -/
def zeroImm (s : State) (i : BitVec 8) : W32 :=
  match s.iss.lit with
  | none => BitVec.ofNat 32 i.toNat
  | some v => v ||| BitVec.ofNat 32 i.toNat

/-- The number of set bits of a value below a position. -/
def bitsBelow {w : Nat} (v : BitVec w) (n : Nat) : Nat := ((List.range n).filter fun i => v.getLsbD i).length

/-! ### Tables of per-lane integer results -/

/-- The words of [04 R62, R65, R74] that compute a number modulo 2^32 in each lane: header, destination, number. -/
def laneSum : Instr → Option (Hdr × GReg × (State → Lane → Int))
  | .iadd h d a b => some (h, d, fun _ x => zN x a + zN x b)
  | .isub h d a b => some (h, d, fun _ x => zN x a - zN x b)
  | .imin h d a b => some (h, d, fun _ x => min (sN x a) (sN x b))
  | .imax h d a b => some (h, d, fun _ x => max (sN x a) (sN x b))
  | .iminZ h d a b => some (h, d, fun _ x => min (zN x a) (zN x b))
  | .imaxZ h d a b => some (h, d, fun _ x => max (zN x a) (zN x b))
  | .idiff h d a b => some (h, d, fun _ x => |sN x a - sN x b|)
  | .iabs h d a => some (h, d, fun _ x => |sN x a|)
  | .imul h d a b => some (h, d, fun _ x => zN x a * zN x b)
  | .imulhS h d a b => some (h, d, fun _ x => sN x a * sN x b / 2 ^ 32)
  | .imulhZ h d a b => some (h, d, fun _ x => zN x a * zN x b / 2 ^ 32)
  | .imad h d a b => some (h, d, fun _ x => zN x a * zN x b + zN x d)
  | .iaddi h d a i => some (h, d, fun s x => zN x a + signedImm s i)
  | .iaddk h d a k => some (h, d, fun s x => zN x a + (s.old.rk k).toNat)
  | _ => none

/-- The words of [04 R64-R70, R74] that build each bit of their result: header, destination, bit j. -/
def laneBits : Instr → Option (Hdr × GReg × (State → Lane → Nat → Bool))
  | .andw h d a b => some (h, d, fun _ x j => (x.rg a).getLsbD j && (x.rg b).getLsbD j)
  | .orw h d a b => some (h, d, fun _ x j => (x.rg a).getLsbD j || (x.rg b).getLsbD j)
  | .xorw h d a b => some (h, d, fun _ x j => (x.rg a).getLsbD j != (x.rg b).getLsbD j)
  | .andn h d a b => some (h, d, fun _ x j => (x.rg a).getLsbD j && !(x.rg b).getLsbD j)
  | .andi h d a i => some (h, d, fun s x j => (x.rg a).getLsbD j && (zeroImm s i).getLsbD j)
  | .ori h d a i => some (h, d, fun s x j => (x.rg a).getLsbD j || (zeroImm s i).getLsbD j)
  | .xori h d a i => some (h, d, fun s x j => (x.rg a).getLsbD j != (zeroImm s i).getLsbD j)
  | .ishl h d a b => some (h, d, fun _ x j => decide ((x.rg b).toNat ≤ j) && (x.rg a).getLsbD (j - (x.rg b).toNat))
  | .ishr h d a b => some (h, d, fun _ x j => (x.rg a).getLsbD (j + (x.rg b).toNat))
  | .isar h d a b => some (h, d, fun _ x j => (x.rg a).getLsbD (min 31 (j + (x.rg b).toNat)))
  | .irot h d a b => some (h, d, fun _ x j => (x.rg a).getLsbD ((j + (x.rg b).toNat) % 32))
  | .ishli h d a n => some (h, d, fun _ x j => decide (n.val ≤ j) && (x.rg a).getLsbD (j - n.val))
  | .ishri h d a n => some (h, d, fun _ x j => (x.rg a).getLsbD (j + n.val))
  | .isari h d a n => some (h, d, fun _ x j => (x.rg a).getLsbD (min 31 (j + n.val)))
  | .iroti h d a n => some (h, d, fun _ x j => (x.rg a).getLsbD ((j + n.val) % 32))
  | .brev h d a => some (h, d, fun _ x j => (x.rg a).getLsbD (31 - j))
  | .bfxZ h d a b => some (h, d, fun _ x j =>
      let pos := (x.rg b).toNat % 256
      let len := (x.rg b).toNat / 256 % 256
      decide (j < len) && (x.rg a).getLsbD (j + pos))
  | .bfxS h d a b => some (h, d, fun _ x j =>
      let pos := (x.rg b).toNat % 256
      let len := (x.rg b).toNat / 256 % 256
      decide (0 < len) && (x.rg a).getLsbD (min j (len - 1) + pos))
  | .bfi h d a b => some (h, d, fun _ x j =>
      let pos := (x.rg b).toNat % 256
      let len := (x.rg b).toNat / 256 % 256
      if pos ≤ j ∧ j < pos + len then (x.rg a).getLsbD (j - pos) else (x.rg d).getLsbD j)
  | .prmt h d a b => some (h, d, fun _ x j =>
      let sel := (x.rg b).toNat / 2 ^ (4 * (j / 8)) % 16
      let q := 8 * (sel % 8) + (if sel < 8 then j % 8 else 7)
      if q < 32 then (x.rg a).getLsbD q else (x.rg d).getLsbD (q - 32))
  | .sel h d a b n => some (h, d, fun _ x j =>
      if x.rp ⟨n.val, by omega⟩ then (x.rg a).getLsbD j else (x.rg b).getLsbD j)
  | .mov h d a => some (h, d, fun _ x j => (x.rg a).getLsbD j)
  | .movk h d k => some (h, d, fun s _ j => (s.old.rk k).getLsbD j)
  | _ => none

/-- `n` counts the zero bits above the highest set bit of a value; it is the width for 0 [04 R67]. -/
def leadingZeros {w : Nat} (v : BitVec w) (n : Nat) : Prop :=
  n ≤ w ∧ (∀ j, w - n ≤ j → v.getLsbD j = false) ∧ (n < w → v.getLsbD (w - 1 - n) = true)

/-- `r` is the position of the set bit with exactly `n` set bits below it; all ones when there is none [04 R67]. -/
def nthSet {w : Nat} (v : BitVec w) (n : Nat) (r : W32) : Prop :=
  (∃ p, p < w ∧ v.getLsbD p = true ∧ bitsBelow v p = n ∧ r = BitVec.ofNat 32 p) ∨
  (bitsBelow v w ≤ n ∧ r = 0xFFFFFFFF)

/-- A pair as a 64-bit value. -/
def asPair (x : Lane) (r : GReg) : W64 := BitVec.ofNat 64 (zPair x r)

/-- The counting words of [04 R67]: header, destination, what holds of the result. -/
def laneCounted : Instr → Option (Hdr × GReg × (Lane → W32 → Prop))
  | .popc h d a => some (h, d, fun x r => r.toNat = bitsBelow (x.rg a) 32)
  | .clz h d a => some (h, d, fun x r => leadingZeros (x.rg a) r.toNat)
  | .fns h d a b => some (h, d, fun x r => nthSet (x.rg a) (x.rg b).toNat r)
  | .popc64 h d a => some (h, d, fun x r => r.toNat = bitsBelow (asPair x a) 64)
  | .clz64 h d a => some (h, d, fun x r => leadingZeros (asPair x a) r.toNat)
  | .fns64 h d a b => some (h, d, fun x r => nthSet (asPair x a) (x.rg b).toNat r)
  | _ => none

/-- LEA's scale [04 R73]. -/
def leaScale (n : Fin 4) : Int := if n.val = 0 then 1 else if n.val = 1 then 4 else if n.val = 2 then 8 else 16

/-- The words of [04 R63, R67, R70, R73, R74] that write a pair: header, destination, the number modulo 2^64. -/
def pairSum : Instr → Option (Hdr × GReg × (State → Lane → Int))
  | .iadd64 h d a b => some (h, d, fun _ x => zPair x a + zPair x b)
  | .isub64 h d a b => some (h, d, fun _ x => (zPair x a : Int) - zPair x b)
  | .ishl64 h d a b => some (h, d, fun _ x => if 64 ≤ (x.rg b).toNat then 0 else zPair x a * 2 ^ (x.rg b).toNat)
  | .ishr64 h d a b => some (h, d, fun _ x => if 64 ≤ (x.rg b).toNat then 0 else zPair x a / 2 ^ (x.rg b).toNat)
  | .brev64 h d a => some (h, d, fun _ x =>
      (((List.range 64).filter fun i => (asPair x a).getLsbD i).map fun i => (2 : Int) ^ (63 - i)).sum)
  | .mov64 h d a => some (h, d, fun _ x => zPair x a)
  | .lea h d a b n => some (h, d, fun _ x => zPair x a + sN x b * leaScale n)
  | .leak h d a k => some (h, d, fun s x =>
      ((s.old.rk k).toNat + 2 ^ 32 * (s.old.rk (k.plus 1)).toNat : Nat) + sN x a)
  | _ => none

/-- The number that a compare reads from a register or pair, by its type [04 R71]. -/
def compared (t : CmpTy) (x : Lane) (r : GReg) : Int :=
  match t with
  | .s => sN x r
  | .z => zN x r
  | .s64 => if zPair x r < 2 ^ 63 then zPair x r else (zPair x r : Int) - 2 ^ 64
  | .z64 => zPair x r

/-- The immediate of ICMPI as a number: sign-extended for the signed types [04 R71]. -/
def comparedImm (t : CmpTy) (i : BitVec 6) : Int :=
  if t = .s ∨ t = .s64 then (if i.toNat < 32 then i.toNat else (i.toNat : Int) - 64) else i.toNat

/-- The relations of a compare [04 R71]. -/
def related (c : Cmp) (x y : Int) : Prop :=
  match c with
  | .eq => x = y
  | .ne => x ≠ y
  | .lt => x < y
  | .le => x ≤ y
  | .gt => y < x
  | .ge => y ≤ x

/-- The words that write a predicate [04 R71, R72]: header, destination, when the predicate is true. -/
def lanePred : Instr → Option (Hdr × PReg × (Lane → Prop))
  | .icmp h pd a b c t => some (h, pd, fun x => related c (compared t x a) (compared t x b))
  | .icmpi h pd a i c t => some (h, pd, fun x => related c (compared t x a) (comparedImm t i))
  | .pand h pd pa pb => some (h, pd, fun x => x.rp pa = true ∧ x.rp pb = true)
  | .por h pd pa pb => some (h, pd, fun x => x.rp pa = true ∨ x.rp pb = true)
  | .pxor h pd pa pb => some (h, pd, fun x => x.rp pa ≠ x.rp pb)
  | .pandn h pd pa pb => some (h, pd, fun x => x.rp pa = true ∧ x.rp pb = false)
  | _ => none

end Sys2Proof.Claims

open Sys2Proof Sys2Proof.Machine Sys2Proof.Claims

/-- Each per-lane arithmetic word completes; every executing lane's destination holds the exact number of its rule
modulo 2^32, and nothing else of the machine changes [04 R62, R65, R74; 01 R14, R15]. -/
def Sys2Proof.Claims.laneArithmetic : Prop :=
  ∀ i s h d f, laneSum i = some (h, d, f) → ∃ t, exec i s = .next t ∧
    (∀ l, s.runsIn h l → (t.lane l).rg d = BitVec.ofInt 32 (f s (s.src l))) ∧ writesOnlyG s t h [d]

/-- Each logic, shift, bit-field, selection and move word completes; every bit of every executing lane's destination is
the bit that its rule names, and nothing else changes [04 R64, R65, R66, R67, R68, R69, R70, R74]. -/
def Obligations.LaneBitwise : Prop :=
  ∀ i s h d f, laneBits i = some (h, d, f) → ∃ t, exec i s = .next t ∧
    (∀ l, s.runsIn h l → ∀ j, j < 32 → ((t.lane l).rg d).getLsbD j = f s (s.src l) j) ∧ writesOnlyG s t h [d]

/-- POPC, CLZ and FNS and their 64-bit forms complete with the count, or the position, that R67 describes, and change
nothing else [04 R67]. -/
def Sys2Proof.Claims.bitCounts : Prop :=
  ∀ i s h d f, laneCounted i = some (h, d, f) → ∃ t, exec i s = .next t ∧
    (∀ l, s.runsIn h l → f (s.src l) ((t.lane l).rg d)) ∧ writesOnlyG s t h [d]

/-- Each per-lane arithmetic word completes with the exact number of its rule modulo 2^32 in every executing lane, and POPC,
CLZ and FNS and their 64-bit forms with the count or the position that R67 describes; nothing else of the machine changes
[04 R62, R65, R67, R74]. -/
def Obligations.LaneArithmetic : Prop := Sys2Proof.Claims.laneArithmetic ∧ Sys2Proof.Claims.bitCounts

/-- The words that write a pair complete; with an even destination each executing lane's pair holds the exact number of
its rule modulo 2^64, low half in d and high half in d+1, and nothing else changes [04 R63, R67, R70, R73, R74]. -/
def Obligations.PairArithmetic : Prop :=
  ∀ i s h d f, pairSum i = some (h, d, f) → d.val % 2 = 0 → ∃ t, exec i s = .next t ∧
    (∀ l, s.runsIn h l → asPair (t.lane l) d = BitVec.ofInt 64 (f s (s.src l))) ∧ writesOnlyG s t h [d, d.plus 1]

/-- Compares and predicate logic complete; every executing lane's predicate tells whether the rule's condition holds, a
write to pt is discarded, and nothing else changes [04 R71, R72; 01 R8]. -/
def Obligations.LanePredicates : Prop :=
  ∀ i s h pd f, lanePred i = some (h, pd, f) → ∃ t, exec i s = .next t ∧
    (∀ l, s.runsIn h l → pd ≠ 7 → ((t.lane l).rp pd = true ↔ f (s.src l))) ∧
    (∀ l, pd = 7 → t.lane l = s.lane l) ∧ writesOnlyP s t h pd

namespace Sys2Proof.Claims
open Sys2Proof.Machine

/-! ### Uniform words -/

/-- What a uniform word does to the flags [04 R75, R76]: nothing; N and Z; or N, Z, C and V of a sum or of a difference. -/
inductive FlagRule where
  | keep
  | nz
  | sum (a b : W32)
  | diff (a b : W32)

/-- A number fits in s32. -/
def fitsS32 (n : Int) : Prop := -2 ^ 31 ≤ n ∧ n < 2 ^ 31

/-- The flags `g` after a uniform word with result `r`, from the flags `f` before it [04 R76]. -/
def flagsAfter (rule : FlagRule) (r : W32) (f g : Flags) : Prop :=
  g.e = f.e ∧
  match rule with
  | .keep => g = f
  | .nz => g.n = r.getLsbD 31 ∧ (g.z = true ↔ r = 0) ∧ g.c = f.c ∧ g.v = f.v
  | .sum a b => g.n = r.getLsbD 31 ∧ (g.z = true ↔ r = 0) ∧ (g.c = true ↔ 2 ^ 32 ≤ a.toNat + b.toNat) ∧
      (g.v = true ↔ ¬ fitsS32 (a.toInt + b.toInt))
  | .diff a b => g.n = r.getLsbD 31 ∧ (g.z = true ↔ r = 0) ∧ (g.c = true ↔ b.toNat ≤ a.toNat) ∧
      (g.v = true ↔ ¬ fitsS32 (a.toInt - b.toInt))

/-- A 12-bit immediate, or the value that LIT supplies [04 R77, 02 R32]. -/
def uniImm (s : State) (i : BitVec 12) : W32 :=
  match s.iss.lit with
  | none => BitVec.ofInt 32 i.toInt
  | some v => v ||| BitVec.ofNat 32 (i.toNat % 256)

/-- The uniform words of [04 R75, R77, R79]: header, destination (KCMP has none), what holds of the result, flags. -/
def uniRes : Instr → Option (Hdr × Option KReg × (State → W32 → Prop) × (State → FlagRule))
  | .kmov h d a => some (h, some d, fun s r => r = s.old.rk a, fun _ => .keep)
  | .kadd h d a => some (h, some d, fun s r => r.toNat = ((s.old.rk d).toNat + (s.old.rk a).toNat) % 2 ^ 32,
      fun s => .sum (s.old.rk d) (s.old.rk a))
  | .ksub h d a => some (h, some d, fun s r => r = BitVec.ofInt 32 ((s.old.rk d).toInt - (s.old.rk a).toInt),
      fun s => .diff (s.old.rk d) (s.old.rk a))
  | .kmul h d a => some (h, some d, fun s r => r.toNat = ((s.old.rk d).toNat * (s.old.rk a).toNat) % 2 ^ 32, fun _ => .nz)
  | .kand h d a => some (h, some d, fun s r => ∀ j, r.getLsbD j = ((s.old.rk d).getLsbD j && (s.old.rk a).getLsbD j), fun _ => .nz)
  | .kor h d a => some (h, some d, fun s r => ∀ j, r.getLsbD j = ((s.old.rk d).getLsbD j || (s.old.rk a).getLsbD j), fun _ => .nz)
  | .kxor h d a => some (h, some d, fun s r => ∀ j, r.getLsbD j = ((s.old.rk d).getLsbD j != (s.old.rk a).getLsbD j), fun _ => .nz)
  | .kshl h d a => some (h, some d, fun s r => ∀ j, j < 32 →
      r.getLsbD j = (decide ((s.old.rk a).toNat ≤ j) && (s.old.rk d).getLsbD (j - (s.old.rk a).toNat)), fun _ => .nz)
  | .kshr h d a => some (h, some d, fun s r => ∀ j, r.getLsbD j = (s.old.rk d).getLsbD (j + (s.old.rk a).toNat), fun _ => .nz)
  | .ksar h d a => some (h, some d, fun s r => ∀ j, j < 32 →
      r.getLsbD j = (s.old.rk d).getLsbD (min 31 (j + (s.old.rk a).toNat)), fun _ => .nz)
  | .kmin h d a => some (h, some d, fun s r => r.toInt = min (s.old.rk d).toInt (s.old.rk a).toInt, fun _ => .nz)
  | .kmax h d a => some (h, some d, fun s r => r.toInt = max (s.old.rk d).toInt (s.old.rk a).toInt, fun _ => .nz)
  | .kcmp h d a => some (h, none, fun s r => r = BitVec.ofInt 32 ((s.old.rk d).toInt - (s.old.rk a).toInt),
      fun s => .diff (s.old.rk d) (s.old.rk a))
  | .kpopc h d a => some (h, some d, fun s r => r.toNat = bitsBelow (s.old.rk a) 32, fun _ => .nz)
  | .kclz h d a => some (h, some d, fun s r => leadingZeros (s.old.rk a) r.toNat, fun _ => .nz)
  | .kfns h d a => some (h, some d, fun s r => nthSet (s.old.rk a) (s.old.rk d).toNat r, fun _ => .nz)
  | .kli h d i => some (h, some d, fun s r => r = uniImm s i, fun _ => .keep)
  | .kaddi h d i => some (h, some d, fun s r => r.toNat = ((s.old.rk d).toNat + (uniImm s i).toNat) % 2 ^ 32,
      fun s => .sum (s.old.rk d) (uniImm s i))
  | .kget h d a l => some (h, some d, fun s r =>
      r = if hasLane s.frag.mask l = true then (s.src l).rg a else 0, fun _ => .keep)
  | _ => none

/-! ### Floating point -/

/-- The rational number that a finite value stands for. -/
def ratOf : Val → Option ℚ
  | .fin neg m e => some ((if neg then -1 else 1) * (m : ℚ) * (2 : ℚ) ^ e)
  | .nan _ => none
  | .inf _ => none

/-- The rational number of an FP32 pattern; none for an infinity or a NaN. -/
def ratF32 (a : W32) : Option ℚ := ratOf (f32 a)

/-- A mode's choice `y` among the numbers of a set, for the exact number `x` [03 R46]. -/
def roundsTo (r : Rnd) (grid : ℚ → Prop) (x y : ℚ) : Prop :=
  grid y ∧
  match r with
  | .rn => ∀ z, grid z → |y - x| ≤ |z - x|
  | .rz => |y| ≤ |x| ∧ 0 ≤ x * y ∧ ∀ z, grid z → 0 ≤ x * z → |z| ≤ |x| → |z| ≤ |y|
  | .ru => x ≤ y ∧ ∀ z, grid z → x ≤ z → y ≤ z
  | .rd => y ≤ x ∧ ∀ z, grid z → z ≤ x → z ≤ y

/-- The numbers that a format holds. -/
def Holds (f : Fmt) (z : ℚ) : Prop := ∃ q, q < 2 ^ f.width ∧ ratOf (f.val q) = some z

/-- The six formats of [03 R40]. -/
def formats : List Fmt := [Fmt.f32, Fmt.bf16, Fmt.f16, Fmt.e5m2, Fmt.e4m3, Fmt.e2m1]

/-- The largest finite number of a format, and the spacing of its numbers there. -/
def topOf (f : Fmt) (t u : ℚ) : Prop := ∃ (m : Nat) (e : Int), f.val f.top = .fin false m e ∧ t = m * 2 ^ e ∧ u = 2 ^ e

/-- A number overflows a format: rounded with the exponent unbounded, its magnitude is above the largest finite number
[03 R48]. -/
def overflows (f : Fmt) (r : Rnd) (x : ℚ) : Prop :=
  ∀ t u, topOf f t u → match r with
    | .rn => t + u / 2 < |x| ∨ (|x| = t + u / 2 ∧ f.top % 2 = 1)
    | .rz => t + u ≤ |x|
    | .ru => if 0 < x then t < x else t + u ≤ -x
    | .rd => if x < 0 then t < -x else t + u ≤ x

/-- The table of R48: an infinity or the largest finite number, with the sign. -/
def overflowGives (f : Fmt) (r : Rnd) (neg : Bool) : Nat :=
  let away : Bool := match r with
    | .rn => true
    | .rz => false
    | .ru => !neg
    | .rd => neg
  (if neg then 2 ^ (f.ebits + f.mbits) else 0) + if f.inf && away then (2 ^ f.ebits - 1) * 2 ^ f.mbits else f.top

/-- On a tie of rn the choice is even. -/
def tieEven (r : Rnd) (grid : ℚ → Prop) (x y : ℚ) (even : Prop) : Prop := r = .rn → (∃ z, grid z ∧ z ≠ y ∧ |z - x| = |y - x|) → even

/-- A pattern is a number other than 0 rounded into a format, with the number's sign [03 R46, R48]. -/
def roundedInto (f : Fmt) (r : Rnd) (x : ℚ) (p : Nat) : Prop :=
  (overflows f r x → p = overflowGives f r (decide (x < 0))) ∧
  (¬ overflows f r x → ∃ y, ratOf (f.val p) = some y ∧ roundsTo r (Holds f) x y ∧ tieEven r (Holds f) x y (p % 2 = 0) ∧
    p / 2 ^ (f.ebits + f.mbits) = if x < 0 then 1 else 0)

/-- The integers. -/
def Whole (z : ℚ) : Prop := ∃ n : ℤ, z = n

/-- An integer is a number rounded to an integer [03 R46, R50]. -/
def roundedToWhole (r : Rnd) (x : ℚ) (n : ℤ) : Prop := roundsTo r Whole x n ∧ tieEven r Whole x n (n % 2 = 0)

/-- One unit in the last place of FP32 at a number: the spacing of FP32 values there [05 R85]. -/
def ulpAt (v u : ℚ) : Prop := ∃ j : ℤ, 2 ^ j ≤ |v| ∧ |v| < 2 ^ (j + 1) ∧ u = 2 ^ max (j - 23) (-149)

/-- An approximated function's value at a finite operand as the model computes it, to about 2^-64 of it (log 10). -/
def modelValue (f : Approx) (neg : Bool) (m : Nat) (e : Int) : ℚ := ((f.real neg m e).1 : ℚ) * 2 ^ (f.real neg m e).2

/-- The special operands' results and flags [05 R87]. -/
def specialRows : List ((W32 → W32 × W32) × W32 × W32 × W32) :=
  [(frcp, 0, 0x7F800000, 8), (frcp, 0x80000000, 0xFF800000, 8), (frcp, 0x7F800000, 0, 0), (frcp, 0xFF800000, 0x80000000, 0),
   (frsq, 0, 0x7F800000, 8), (frsq, 0x80000000, 0xFF800000, 8), (frsq, 0x7F800000, 0, 0), (frsq, 0xFF800000, 0x7FC00000, 16),
   (fsqrt, 0, 0, 0), (fsqrt, 0x80000000, 0x80000000, 0), (fsqrt, 0x7F800000, 0x7F800000, 0), (fsqrt, 0xFF800000, 0x7FC00000, 16)] ++
  [(fexp2, 0, 0x3F800000, 0), (fexp2, 0x80000000, 0x3F800000, 0), (fexp2, 0x7F800000, 0x7F800000, 0), (fexp2, 0xFF800000, 0, 0),
   (flog2, 0, 0xFF800000, 8), (flog2, 0x80000000, 0xFF800000, 8), (flog2, 0x7F800000, 0x7F800000, 0), (flog2, 0xFF800000, 0x7FC00000, 16)] ++
  [(fsin, 0, 0, 0), (fsin, 0x80000000, 0x80000000, 0), (fsin, 0x7F800000, 0x7FC00000, 16), (fsin, 0xFF800000, 0x7FC00000, 16),
   (fcos, 0, 0x3F800000, 0), (fcos, 0x80000000, 0x3F800000, 0), (fcos, 0x7F800000, 0x7FC00000, 16), (fcos, 0xFF800000, 0x7FC00000, 16),
   (ftanh, 0, 0, 0), (ftanh, 0x80000000, 0x80000000, 0), (ftanh, 0x7F800000, 0x3F800000, 0), (ftanh, 0xFF800000, 0xBF800000, 0)]

/-- The float formats of FCVT [05 R90]. -/
def cvtFloat : CvtFmt → Option Fmt
  | .f32 => some Fmt.f32
  | .bf16 => some Fmt.bf16
  | .f16 => some Fmt.f16
  | .e4m3 => some Fmt.e4m3
  | .e5m2 => some Fmt.e5m2
  | .e2m1 => some Fmt.e2m1
  | .s32 | .u32 => none

/-- The range of FCVT's integer types. -/
def cvtRange : CvtFmt → Option (ℤ × ℤ)
  | .s32 => some (-2 ^ 31, 2 ^ 31 - 1)
  | .u32 => some (0, 2 ^ 32 - 1)
  | _ => none

/-- The integer that a pattern of an integer type stands for. -/
def cvtInt (t : CvtFmt) (a : W32) : ℤ := if t = .s32 then a.toInt else a.toNat

/-- The class of a pattern [05 R89]. -/
def classOf (a : W32) : Nat :=
  let e := a.toNat / 2 ^ 23 % 2 ^ 8
  let m := a.toNat % 2 ^ 23
  let pick (neg pos : Nat) : Nat := if a.getLsbD 31 then neg else pos
  if e = 255 then (if m = 0 then pick 0 7 else if m < 2 ^ 22 then 8 else 9)
  else if e = 0 then (if m = 0 then pick 3 4 else pick 2 5)
  else pick 1 6

/-- A term truncated toward zero to a multiple of `q`. -/
def cutTo (q t : ℚ) : ℚ := if t < 0 then -(⌊-t / q⌋ : ℚ) * q else (⌊t / q⌋ : ℚ) * q

/-- A pattern is the window sum of finite terms: each is cut to a multiple of 2^(emax - 27), emax the largest leading exponent,
and the sum is rounded once [03 R56]. -/
def windowGives (ts : List ℚ) (p : W32) : Prop :=
  ((∀ t ∈ ts, t = 0) → ratF32 p = some 0) ∧
  ∀ emax : ℤ, (∃ t ∈ ts, 2 ^ emax ≤ |t|) → (∀ t ∈ ts, |t| < 2 ^ (emax + 1)) →
    let x := (ts.map (cutTo (2 ^ (emax - 27)))).sum
    (x = 0 → ratF32 p = some 0) ∧ (x ≠ 0 → roundedInto Fmt.f32 .rn x p.toNat)

/-- The number of element `i` of a float format in a register; none for an infinity or a NaN. -/
def elementIn (f : Fmt) (a : W32) (i : Nat) : Option ℚ := ratOf (f.val (a.toNat / 2 ^ (f.width * i) % 2 ^ f.width))

/-- The exact result of an arithmetic word on finite operands: header, destination, number [05 R81, R83]. -/
def exactFp : Instr → Option (Hdr × GReg × (State → Lane → Option ℚ))
  | .fadd h d a b => some (h, d, fun _ x => (ratF32 (x.rg a)).bind fun u => (ratF32 (x.rg b)).map fun v => u + v)
  | .fsub h d a b => some (h, d, fun _ x => (ratF32 (x.rg a)).bind fun u => (ratF32 (x.rg b)).map fun v => u - v)
  | .fmul h d a b => some (h, d, fun _ x => (ratF32 (x.rg a)).bind fun u => (ratF32 (x.rg b)).map fun v => u * v)
  | .ffma h d a b => some (h, d, fun _ x => (ratF32 (x.rg a)).bind fun u => (ratF32 (x.rg b)).bind fun v =>
      (ratF32 (x.rg d)).map fun w => u * v + w)
  | .faddi h d a i => some (h, d, fun s x => (ratF32 (x.rg a)).bind fun u => (ratF32 (s.immF i)).map fun v => u + v)
  | .fmuli h d a i => some (h, d, fun s x => (ratF32 (x.rg a)).bind fun u => (ratF32 (s.immF i)).map fun v => u * v)
  | _ => none

/-- The F-pipe words that write a g register: header, destination, result and flags in a lane [05 R81-R94]. -/
noncomputable def fpRes : Instr → Option (Hdr × GReg × (State → Lane → W32 × W32))
  | .fadd h d a b => some (h, d, fun _ x => fadd (x.rg a) (x.rg b))
  | .fsub h d a b => some (h, d, fun _ x => fsub (x.rg a) (x.rg b))
  | .fmul h d a b => some (h, d, fun _ x => fmul (x.rg a) (x.rg b))
  | .ffma h d a b => some (h, d, fun _ x => ffma (x.rg a) (x.rg b) (x.rg d))
  | .fmin h d a b => some (h, d, fun _ x => fminmax false (x.rg a) (x.rg b))
  | .fmax h d a b => some (h, d, fun _ x => fminmax true (x.rg a) (x.rg b))
  | .fabs h d a => some (h, d, fun _ x => fsign (fun v => v &&& 0x7FFFFFFF) (x.rg a))
  | .fneg h d a => some (h, d, fun _ x => fsign (fun v => v ^^^ 0x80000000) (x.rg a))
  | .faddi h d a i => some (h, d, fun s x => fadd (x.rg a) (s.immF i))
  | .fmuli h d a i => some (h, d, fun s x => fmul (x.rg a) (s.immF i))
  | .frcp h d a => some (h, d, fun _ x => frcp (x.rg a))
  | .frsq h d a => some (h, d, fun _ x => frsq (x.rg a))
  | .fsqrt h d a => some (h, d, fun _ x => fsqrt (x.rg a))
  | .fexp2 h d a => some (h, d, fun _ x => fexp2 (x.rg a))
  | .flog2 h d a => some (h, d, fun _ x => flog2 (x.rg a))
  | .fsin h d a => some (h, d, fun _ x => fsin (x.rg a))
  | .fcos h d a => some (h, d, fun _ x => fcos (x.rg a))
  | .ftanh h d a => some (h, d, fun _ x => ftanh (x.rg a))
  | .frndRn h d a => some (h, d, fun _ x => frnd .rn (x.rg a))
  | .frndRz h d a => some (h, d, fun _ x => frnd .rz (x.rg a))
  | .frndRu h d a => some (h, d, fun _ x => frnd .ru (x.rg a))
  | .frndRd h d a => some (h, d, fun _ x => frnd .rd (x.rg a))
  | .fclass h d a => some (h, d, fun _ x => (fclass (x.rg a), 0))
  | .fcvt h d a src dst rnd => some (h, d, fun _ x => fcvt src dst rnd (x.rg a))
  | .pkbf h d a b => some (h, d, fun _ x => pack2 Fmt.bf16 (x.rg a) (x.rg b))
  | .pkh h d a b => some (h, d, fun _ x => pack2 Fmt.f16 (x.rg a) (x.rg b))
  | .pkins h d a b => some (h, d, fun _ x => (pkins (x.rg d) (x.rg a) (x.rg b), 0))
  | .upk h d a b => some (h, d, fun _ x => (upk (x.rg a) (x.rg b), 0))
  | .dp4S8 h d a b => some (h, d, fun _ x => (dotInt true 8 4 (x.rg a) (x.rg b) (x.rg d), 0))
  | .dp4Z8 h d a b => some (h, d, fun _ x => (dotInt false 8 4 (x.rg a) (x.rg b) (x.rg d), 0))
  | .dp4E4 h d a b => some (h, d, fun _ x => dotFlt Fmt.e4m3 4 (x.rg a) (x.rg b) (x.rg d))
  | .dp4E5 h d a b => some (h, d, fun _ x => dotFlt Fmt.e5m2 4 (x.rg a) (x.rg b) (x.rg d))
  | .dp8S4 h d a b => some (h, d, fun _ x => (dotInt true 4 8 (x.rg a) (x.rg b) (x.rg d), 0))
  | .dp8F4 h d a b => some (h, d, fun _ x => dotFlt Fmt.e2m1 8 (x.rg a) (x.rg b) (x.rg d))
  | .dp2Bf h d a b => some (h, d, fun _ x => dotFlt Fmt.bf16 2 (x.rg a) (x.rg b) (x.rg d))
  | .scacc h d a b => some (h, d, fun _ x => scacc (x.rg a) (x.rg b) (x.rg d))
  | _ => none

/-- No executing lane raises a flag that its fpctl enables [03 R55]. -/
def noFpTrap (s : State) (h : Hdr) (fl : Lane → W32) : Prop :=
  ∀ l, s.runsIn h l → fl (s.src l) &&& (s.src l).fpctl &&& 31 = 0

/-- The lanes after an F-pipe word that writes one g register: fpstat takes the word's flags [03 R53]; the group notes
them for a CSR write [03 R54]; nothing else changes. -/
def fpFrame (s t : State) (h : Hdr) (d : GReg) (f : Lane → W32 × W32) : Prop :=
  onlyFpLanes s t ∧ sameMemory s t ∧
  (∀ l, s.runsIn h l → (t.lane l).rg d = (f (s.src l)).1 ∧ (t.lane l).fpstat = (s.lane l).fpstat ||| (f (s.src l)).2 ∧
    t.iss.fflags[l] = s.iss.fflags[l] ||| (f (s.src l)).2 ∧
    (∀ r, r ≠ d → (t.lane l).rg r = (s.lane l).rg r) ∧
    t.lane l = { s.lane l with g := (t.lane l).g, fpstat := (t.lane l).fpstat }) ∧
  (∀ l, ¬ s.runsIn h l → t.lane l = s.lane l ∧ t.iss.fflags[l] = s.iss.fflags[l])

/-- The relations of FCMP on finite operands, and on NaNs [05 R84]. -/
def fpRelated (c : FCmpOp) (a b : W32) : Prop :=
  match ratF32 a, ratF32 b with
  | some x, some y =>
    (match c with
     | .eq => x = y
     | .ne => x ≠ y
     | .lt => x < y
     | .le => x ≤ y
     | .gt => y < x
     | .ge => y ≤ x
     | .unord => False
     | .ord => True)
  | _, _ => fcmpHolds c (f32 a) (f32 b) = true

/-! ### Cross-lane words -/

/-- The participating lanes, in ascending order [10 R182]. -/
def takers (s : State) (h : Hdr) : List LaneId := (List.finRange 32).filter fun l => hasLane (s.exec h) l

/-- The participating lanes whose predicate is true, in ascending order [10 R187]. -/
def chosenTakers (s : State) (h : Hdr) (p : PReg) : List LaneId := (takers s h).filter fun l => (s.src l).rp p

/-- A register of a lane of the fragment; zero for a lane outside it [10 R182]. -/
def laneRead (s : State) (l : LaneId) (a : GReg) : W32 := if hasLane s.frag.mask l = true then (s.src l).rg a else 0

/-- What a shuffle gives a lane, from the number of its source lane [10 R184]. -/
def shuffled (s : State) (l : LaneId) (a : GReg) (n : Int) : W32 :=
  if h : 0 ≤ n ∧ n < 32 then laneRead s ⟨n.toNat, by omega⟩ a else (s.src l).rg a

/-- The index x = G(l,b)[4:0] of a shuffle. -/
def shflIndex (s : State) (l : LaneId) (b : GReg) : Nat := ((s.src l).rg b).toNat % 32

/-- The cross-lane words that write g registers: header, destination, what holds of a participating lane's result
[10 R184-R187]. -/
def crossRes : Instr → Option (Hdr × GReg × (State → LaneId → W32 → Prop))
  | .shflIdx h d a b => some (h, d, fun s l r => r = shuffled s l a (shflIndex s l b))
  | .shflXor h d a b => some (h, d, fun s l r => r = shuffled s l a (Nat.xor l.val (shflIndex s l b)))
  | .shflUp h d a b => some (h, d, fun s l r => r = shuffled s l a ((l.val : Int) - shflIndex s l b))
  | .shflDown h d a b => some (h, d, fun s l r => r = shuffled s l a ((l.val : Int) + shflIndex s l b))
  | .scan h d a op excl => some (h, d, fun s l r =>
      r = reduce op (((takers s h).filter fun j => decide (j < l ∨ (excl = false ∧ j = l))).map fun j => (s.src j).rg a))
  | .compress h d a p => some (h, d, fun s l r => ∀ i : Nat, (takers s h)[i]? = some l →
      r = match (chosenTakers s h p)[i]? with
        | some q => (s.src q).rg a
        | none => 0)
  | .expand h d a p => some (h, d, fun s l r =>
      ((s.src l).rp p = false → r = 0) ∧
      ∀ (i : Nat) (q : LaneId), (chosenTakers s h p)[i]? = some l → (takers s h)[i]? = some q → r = (s.src q).rg a)
  | .matchw h d a => some (h, d, fun s l r => ∀ j : LaneId,
      r.getLsbD j.val = true ↔ s.runsIn h j ∧ (s.src j).rg a = (s.src l).rg a)
  | .ballot h d p => some (h, d, fun s _ r => ∀ j : LaneId, r.getLsbD j.val = true ↔ s.runsIn h j ∧ (s.src j).rp p = true)
  | _ => none

/-- E tells whether no lane took part; N, Z, C and V stay [10 R182]. -/
def crossFlags (s t : State) (h : Hdr) : Prop :=
  t.now.focus.flags = { s.now.focus.flags with e := (takers s h).isEmpty }

end Sys2Proof.Claims

/-- Each uniform word that acts completes once with its rule's result and flags, whatever the number of executing lanes;
with no executing lane it changes nothing; and nothing but its destination and the flags changes [04 R61, R75-R77, R79]. -/
def Obligations.UniformOperations : Prop :=
  ∀ i s h d p fr, uniRes i = some (h, d, p, fr) → ∃ t r, exec i s = .next t ∧
    (s.acts h = true → p s r ∧ (∀ k, d = some k → t.now.focus.rk k = r) ∧
      flagsAfter (fr s) r s.now.focus.flags t.now.focus.flags) ∧
    (s.acts h = false → t = s) ∧ writesOnlyK s t d.toList

/-- Rounding into each of the six formats under each mode gives a number of the format that the mode asks for, on a tie the
one whose last mantissa bit is 0, or past its range what the table of R48 says with OF and NX; NX tells exactly whether the
result differs from the exact number [03 R46, R48, R52]. -/
def Sys2Proof.Claims.roundingIsCorrect : Prop :=
  ∀ f ∈ formats, ∀ (r : Rnd) (neg : Bool) (m : Nat) (e : Int) (x : ℚ), m ≠ 0 → ratOf (.fin neg m e) = some x →
    roundedInto f r x (f.ofFin r neg m e).1 ∧ (overflows f r x → (f.ofFin r neg m e).2 = 5) ∧
    (¬ overflows f r x → (f.ofFin r neg m e).2.getLsbD 2 = false ∧
      ((f.ofFin r neg m e).2.getLsbD 0 = true ↔ ratOf (f.val (f.ofFin r neg m e).1) ≠ some x))

/-- FCVT's values [05 R90, R91; 03 R48-R50]. Into a float format: a number rounded under the mode, a zero with its sign, an
infinity, and the canonical NaN; the largest finite number with NV for an infinity where the format has none, and NV for a
signalling NaN or one that the format can not hold. Into an integer: the number rounded under the mode, the nearest end of the
range with NV where it lies outside, and 0 with NV for a NaN. From an integer: its number rounded. -/
def Sys2Proof.Claims.conversionValues : Prop :=
  ∀ (src dst : CvtFmt) (r : Rnd) (a : W32), src ≠ dst →
    (∀ f g v, cvtFloat src = some f → cvtFloat dst = some g → v = f.val (a.toNat % 2 ^ f.width) →
      (∀ x, ratOf v = some x → x ≠ 0 → roundedInto g r x (fcvt src dst r a).1.toNat) ∧
      (ratOf v = some 0 → fcvt src dst r a = (BitVec.ofNat 32 (if v.neg then 2 ^ (g.ebits + g.mbits) else 0), 0)) ∧
      (∀ n, v = .inf n → fcvt src dst r a = (BitVec.ofNat 32 (if g.inf then (if n then 2 ^ (g.ebits + g.mbits) else 0) + (2 ^ g.ebits - 1) * 2 ^ g.mbits
        else (if n then 2 ^ (g.ebits + g.mbits) else 0) + g.top), if g.inf then 0 else 16)) ∧
      ∀ sig, v = .nan sig → fcvt src dst r a = (BitVec.ofNat 32 g.qnan, if sig = true ∨ g.nan = false then 16 else 0)) ∧
    (∀ f lo hi v, cvtFloat src = some f → cvtRange dst = some (lo, hi) → v = f.val (a.toNat % 2 ^ f.width) →
      (∀ x, ratOf v = some x → ∃ n : ℤ, roundedToWhole r x n ∧
        (n < lo → fcvt src dst r a = (BitVec.ofInt 32 lo, 16)) ∧ (hi < n → fcvt src dst r a = (BitVec.ofInt 32 hi, 16)) ∧
        (lo ≤ n → n ≤ hi → fcvt src dst r a = (BitVec.ofInt 32 n, if (n : ℚ) = x then 0 else 1))) ∧
      (∀ n, v = .inf n → fcvt src dst r a = (BitVec.ofInt 32 (if n then lo else hi), 16)) ∧
      ∀ sig, v = .nan sig → fcvt src dst r a = (0, 16)) ∧
    (∀ g, (cvtRange src).isSome = true → cvtFloat dst = some g →
      (cvtInt src a = 0 → fcvt src dst r a = (0, 0)) ∧ (cvtInt src a ≠ 0 → roundedInto g r (cvtInt src a) (fcvt src dst r a).1.toNat)) ∧
    ∀ lo hi, (cvtRange src).isSome = true → cvtRange dst = some (lo, hi) →
      fcvt src dst r a = if cvtInt src a < lo then (BitVec.ofInt 32 lo, 16) else if hi < cvtInt src a then (BitVec.ofInt 32 hi, 16) else (a, 0)

/-- Rounding into each of the six formats under each mode gives a number of the format that the mode asks for, on a tie the even one,
and past the range what R48's table says with OF and NX; NX tells exactly whether the result differs from the exact number. FCVT
gives a number rounded so, or an integer of the destination's range, its nearest end with NV outside, and R49's results for zeros,
infinities and NaNs [03 R46, R48-R50, R52; 05 R90, R91]. -/
def Obligations.RoundingIsCorrect : Prop := Sys2Proof.Claims.roundingIsCorrect ∧ Sys2Proof.Claims.conversionValues

/-- FADD, FSUB, FMUL, FFMA, FADDI and FMULI on finite operands complete, when no raised flag is enabled, with the FP32
pattern that the exact result rounds to, past the range of FP32 as R48 says, and with a zero for an exact result of 0
[05 R81, R83; 03 R46, R48]. -/
def Sys2Proof.Claims.floatArithmeticIsNearest : Prop :=
  ∀ i s h d f w, exactFp i = some (h, d, f) → fpRes i = some (h, d, w) → noFpTrap s h (fun x => (w s x).2) →
    ∃ t, exec i s = .next t ∧ ∀ l x, s.runsIn h l → f s (s.src l) = some x →
      (x ≠ 0 → roundedInto Fmt.f32 .rn x ((t.lane l).rg d).toNat) ∧ (x = 0 → ratF32 ((t.lane l).rg d) = some 0)

/-- FRCP and FSQRT are correctly rounded, FRSQ is within one unit in the last place; the special operands, negative
operands, the range limits and the exact cases give what R86 and R87 say; FSIN and FTANH are odd, FCOS is even, and all three
set NX for an operand other than 0. FEXP2, FLOG2 and FTANH lie within two units in the last place, FLOG2 between 1/2 and 2
within 2^-22 where that is more, FSIN and FCOS within 2^-21 up to 2^15, of the function's value, which is the model's own,
exact to about 2^-64 of it (log 10) [05 R85-R87]. -/
def Sys2Proof.Claims.specialFunctionValues : Prop :=
  (∀ row ∈ specialRows, row.1 row.2.1 = row.2.2) ∧
  (∀ a sig, f32 a = .nan sig → ∀ f ∈ [frcp, frsq, fsqrt, fexp2, flog2, fsin, fcos, ftanh], f a = (0x7FC00000, if sig then 16 else 0)) ∧
  (∀ a x, ratF32 a = some x →
    (x ≠ 0 → roundedInto Fmt.f32 .rn (1 / x) (frcp a).1.toNat) ∧
    (0 < x → ∃ y, ratF32 (fsqrt a).1 = some y ∧ 0 < y ∧ ∀ z, Holds Fmt.f32 z → 0 ≤ z →
      (z < y → ((y + z) / 2) ^ 2 ≤ x) ∧ (y < z → x ≤ ((y + z) / 2) ^ 2)) ∧
    (∀ k : ℤ, 0 < x → 2 ^ (2 * k) * x ≤ 1 → 1 < 2 ^ (2 * k + 2) * x → ∃ y, ratF32 (frsq a).1 = some y ∧ 2 ^ (k - 23) < y ∧
      (y - 2 ^ (k - 23)) ^ 2 * x ≤ 1 ∧ 1 ≤ (y + 2 ^ (k - 23)) ^ 2 * x) ∧
    (x < 0 → ∀ f ∈ [frsq, fsqrt, flog2], f a = (0x7FC00000, 16)) ∧
    (∀ n : ℤ, x = 2 ^ (2 * n) → ratF32 (frsq a).1 = some (2 ^ (-n)) ∧ (frsq a).2 = 0) ∧
    (∀ n : ℤ, x = n → -149 ≤ n → n ≤ 127 → ratF32 (fexp2 a).1 = some (2 ^ n) ∧ (fexp2 a).2 = 0) ∧
    (∀ n : ℤ, x = 2 ^ n → ratF32 (flog2 a).1 = some n ∧ (flog2 a).2 = 0) ∧
    (128 ≤ x → fexp2 a = (0x7F800000, 5)) ∧ (x < -150 → fexp2 a = (0, 3)) ∧
    (10 ≤ x → ftanh a = (0x3F800000, 1)) ∧ (x ≤ -10 → ftanh a = (0xBF800000, 1)) ∧
    (fsin (a ^^^ 0x80000000)).1 = (fsin a).1 ^^^ 0x80000000 ∧ (ftanh (a ^^^ 0x80000000)).1 = (ftanh a).1 ^^^ 0x80000000 ∧
    fcos (a ^^^ 0x80000000) = fcos a ∧
    (x ≠ 0 → (fsin a).2.getLsbD 0 = true ∧ (fcos a).2.getLsbD 0 = true ∧ (ftanh a).2.getLsbD 0 = true)) ∧
  ∀ a neg m e x, f32 a = .fin neg m e → ratF32 a = some x →
    (-150 ≤ x → x < 128 → ∃ y, ratF32 (fexp2 a).1 = some y ∧
      ∀ u, ulpAt (modelValue .exp2 neg m e) u → |y - modelValue .exp2 neg m e| ≤ 2 * u) ∧
    (0 < x → ∃ y, ratF32 (flog2 a).1 = some y ∧ ∀ u, ulpAt (modelValue .log2 neg m e) u →
      |y - modelValue .log2 neg m e| ≤ if 1 / 2 ≤ x ∧ x ≤ 2 then max (2 * u) (2 ^ (-22 : ℤ)) else 2 * u) ∧
    (0 < x → x < 10 → ∃ y, ratF32 (ftanh a).1 = some y ∧
      ∀ u, ulpAt (modelValue .tanh neg m e) u → |y - modelValue .tanh neg m e| ≤ 2 * u) ∧
    (0 < x → x ≤ 2 ^ 15 → ∃ y z, ratF32 (fsin a).1 = some y ∧ |y - modelValue .sin neg m e| ≤ 2 ^ (-21 : ℤ) ∧
      ratF32 (fcos a).1 = some z ∧ |z - modelValue .cos neg m e| ≤ 2 ^ (-21 : ℤ))

/-- FMIN and FMAX give the smaller or the larger operand, -0 below +0, the number beside a NaN, and the canonical NaN for two;
FABS and FNEG clear or invert the sign of what is no NaN; FRND rounds to an integer under its mode, keeps the sign, passes
infinities, and raises nothing; FCLASS sets the one bit of its table [05 R82, R88, R89]. -/
def Sys2Proof.Claims.selectionValues : Prop :=
  (∀ a b x y, ratF32 a = some x → ratF32 b = some y → x < y → fminmax false a b = (a, 0) ∧ fminmax false b a = (a, 0) ∧
    fminmax true a b = (b, 0) ∧ fminmax true b a = (b, 0)) ∧
  (∀ a, fminmax false a a = (if (f32 a).isNan then 0x7FC00000 else a, if (f32 a).isSnan then 16 else 0) ∧
    fminmax true a a = fminmax false a a) ∧
  (fminmax false 0 0x80000000 = (0x80000000, 0) ∧ fminmax false 0x80000000 0 = (0x80000000, 0) ∧
    fminmax true 0 0x80000000 = (0, 0) ∧ fminmax true 0x80000000 0 = (0, 0)) ∧
  (∀ a, (f32 a).isNan = false → fminmax false a 0x7F800000 = (a, 0) ∧ fminmax true a 0x7F800000 = (0x7F800000, 0) ∧
    fminmax false a 0xFF800000 = (0xFF800000, 0) ∧ fminmax true a 0xFF800000 = (a, 0)) ∧
  (∀ a b sig isMax, f32 a = .nan sig → (f32 b).isNan = false →
    fminmax isMax a b = (b, if sig then 16 else 0) ∧ fminmax isMax b a = (b, if sig then 16 else 0)) ∧
  (∀ a b s1 s2 isMax, f32 a = .nan s1 → f32 b = .nan s2 → fminmax isMax a b = (0x7FC00000, if s1 || s2 then 16 else 0)) ∧
  (∀ a f, (f32 a).isNan = false → fsign f a = (f a, 0)) ∧
  (∀ a f sig, f32 a = .nan sig → fsign f a = (0x7FC00000, if sig then 16 else 0)) ∧
  (∀ r a x, ratF32 a = some x → ∃ n : ℤ, roundedToWhole r x n ∧ ratF32 (frnd r a).1 = some n ∧
    (frnd r a).1.getLsbD 31 = a.getLsbD 31 ∧ (frnd r a).2 = 0) ∧
  (∀ r a n, f32 a = .inf n → frnd r a = (a, 0)) ∧ (∀ r a sig, f32 a = .nan sig → frnd r a = (0x7FC00000, if sig then 16 else 0)) ∧
  ∀ a, (fclass a).toNat = 2 ^ classOf a

/-- PKBF and PKH put both operands, rounded, into the halves; PKINS and UPK put in or take out one element; the integer dot
products are exact modulo 2^32; the float ones and SCACC on finite elements and scales give the window sum of their products
and their addend [05 R92-R94; 03 R43, R56]. -/
def Sys2Proof.Claims.packedValues : Prop :=
  (∀ f a b x y, f = Fmt.bf16 ∨ f = Fmt.f16 → ratF32 a = some x → ratF32 b = some y →
    (x ≠ 0 → roundedInto f .rn x ((pack2 f a b).1.toNat % 2 ^ 16)) ∧ (y ≠ 0 → roundedInto f .rn y ((pack2 f a b).1.toNat / 2 ^ 16)) ∧
    (x = 0 → (pack2 f a b).1.toNat % 2 ^ 15 = 0 ∧ (pack2 f a b).1.getLsbD 15 = a.getLsbD 31) ∧
    (y = 0 → (pack2 f a b).1.toNat / 2 ^ 16 % 2 ^ 15 = 0 ∧ (pack2 f a b).1.getLsbD 31 = b.getLsbD 31)) ∧
  (∀ d a c : W32, ∀ w i : Nat, w = 4 * 2 ^ (c.toNat % 4) → i = c.toNat / 16 % 8 % (32 / w) →
    (∀ j, j < 32 → (pkins d a c).getLsbD j = if w * i ≤ j ∧ j < w * i + w then a.getLsbD (j - w * i) else d.getLsbD j) ∧
    (∀ j, j < 32 → (upk a c).getLsbD j = if j < w then a.getLsbD (w * i + j) else c.getLsbD 8 && a.getLsbD (w * i + w - 1))) ∧
  (∀ a b d : W32,
    dotInt true 8 4 a b d = BitVec.ofInt 32 (((List.range 4).map fun i => (a.extractLsb' (8 * i) 8).toInt * (b.extractLsb' (8 * i) 8).toInt).sum + d.toInt) ∧
    dotInt false 8 4 a b d = BitVec.ofNat 32 (((List.range 4).map fun i => (a.extractLsb' (8 * i) 8).toNat * (b.extractLsb' (8 * i) 8).toNat).sum + d.toNat) ∧
    dotInt true 4 8 a b d = BitVec.ofInt 32 (((List.range 8).map fun i => (a.extractLsb' (4 * i) 4).toInt * (b.extractLsb' (4 * i) 4).toInt).sum + d.toInt)) ∧
  (∀ f n a b d (xs ys : Nat → ℚ) z, (f, n) ∈ [(Fmt.e4m3, 4), (Fmt.e5m2, 4), (Fmt.e2m1, 8), (Fmt.bf16, 2)] →
    (∀ i, i < n → elementIn f a i = some (xs i) ∧ elementIn f b i = some (ys i)) → ratF32 d = some z →
    windowGives (z :: (List.range n).map fun i => xs i * ys i) (dotFlt f n a b d).1) ∧
  (∀ a b d x z, ratF32 a = some x → ratF32 d = some z → b.toNat % 256 ≠ 255 → b.toNat / 256 % 256 ≠ 255 →
    windowGives [x * 2 ^ ((b.toNat % 256 : ℤ) - 127) * 2 ^ ((b.toNat / 256 % 256 : ℤ) - 127), z] (scacc a b d).1) ∧
  ∀ a b d, b.toNat % 256 = 255 ∨ b.toNat / 256 % 256 = 255 → (scacc a b d).1 = 0x7FC00000 ∧ (scacc a b d).2.getLsbD 4 = true

/-- FADD, FSUB, FMUL, FFMA, FADDI and FMULI complete with the exact result rounded once. FRCP and FSQRT are correctly rounded, FRSQ is
within one unit in the last place, and the approximated functions are within their bounds of the function's value, which is the
model's own, exact to about 2^-64 of it (log 10); their special operands, limits and exact cases are as R86 and R87 say. FMIN, FMAX,
FABS, FNEG, FRND, FCLASS, the packing words, the dot products and SCACC give the value of their rule
[05 R81-R83, R85-R89, R92-R94; 03 R43, R46, R48, R56]. -/
def Obligations.FloatValues : Prop :=
  Sys2Proof.Claims.floatArithmeticIsNearest ∧ Sys2Proof.Claims.specialFunctionValues ∧ Sys2Proof.Claims.selectionValues ∧ Sys2Proof.Claims.packedValues

/-- Every F-pipe word that writes a g register completes when no raised flag is enabled: the destination takes its
result, fpstat takes its flags, and nothing else changes [05 R80; 03 R53]. -/
def Sys2Proof.Claims.floatWordsComplete : Prop :=
  ∀ i s h d f, fpRes i = some (h, d, f) → noFpTrap s h (fun x => (f s x).2) →
    ∃ t, exec i s = .next t ∧ fpFrame s t h d (f s)

/-- A word that raises an enabled flag in some lane stops the whole group: the step takes fault 0x0A, which names every
lane with an enabled raised flag and gives the OR of those lanes' flags with the word's position [03 R55]. -/
def Sys2Proof.Claims.enabledFlagTraps : Prop :=
  ∀ i s h d f, fpRes i = some (h, d, f) → ¬ noFpTrap s h (fun x => (f s x).2) →
    ∃ lanes fl, exec i s = .next (s.trap (Trap.user 0x0A lanes (BitVec.ofNat 64 (fl + s.iss.pos.val * 2 ^ 32)))) ∧
      (∀ l, hasLane lanes l = true ↔ s.runsIn h l ∧ (f s (s.src l)).2 &&& (s.src l).fpctl &&& 31 ≠ 0) ∧
      (∀ j, j < 5 → (fl.testBit j = true ↔ ∃ l, hasLane lanes l = true ∧ (f s (s.src l)).2.getLsbD j = true)) ∧ fl < 32

/-- Every F-pipe word that writes a g register completes when no raised flag is enabled: the destination takes its result,
fpstat its flags, and nothing else changes. One that raises an enabled flag stops the whole group with fault 0x0A, which names
the lanes with an enabled raised flag and holds the OR of their flags with the word's position [05 R80; 03 R53, R55]. -/
def Obligations.FloatWordsComplete : Prop := Sys2Proof.Claims.floatWordsComplete ∧ Sys2Proof.Claims.enabledFlagTraps

/-- FCMP completes with the relation of its operands as exact numbers, and NV for a NaN as its form says; a write to pt is
discarded [05 R84]. -/
def Obligations.FloatCompare : Prop :=
  ∀ h pd a b c sig s, noFpTrap s h (fun x => (fcmp c sig (x.rg a) (x.rg b)).2) →
    ∃ t, exec (.fcmp h pd a b c sig) s = .next t ∧ onlyFpLanes s t ∧ sameMemory s t ∧
      (∀ l, s.runsIn h l → pd ≠ 7 → ((t.lane l).rp pd = true ↔ fpRelated c ((s.src l).rg a) ((s.src l).rg b))) ∧
      (∀ l, s.runsIn h l → (t.lane l).fpstat = (s.lane l).fpstat ||| (fcmp c sig ((s.src l).rg a) ((s.src l).rg b)).2 ∧
        (∀ n, n ≠ pd → (t.lane l).rp n = (s.lane l).rp n) ∧
        t.lane l = { s.lane l with p := (t.lane l).p, fpstat := (t.lane l).fpstat }) ∧
      (∀ l, ¬ s.runsIn h l → t.lane l = s.lane l)

/-- SHFL, SCAN, COMPRESS, EXPAND, MATCH and BALLOT complete: each participating lane gets its rule's value, E tells
whether no lane took part, and nothing else changes [10 R182, R184-R187]. -/
def Sys2Proof.Claims.crossLaneWords : Prop :=
  ∀ i s h d f, crossRes i = some (h, d, f) → ∃ t, exec i s = .next t ∧
    (∀ l, s.runsIn h l → f s l ((t.lane l).rg d)) ∧ crossFlags s t h ∧ onlyLanesFlags s t ∧ sameMemory s t ∧
    ∀ l, (s.runsIn h l → (s.lane l).onlyG (t.lane l) [d]) ∧ (¬ s.runsIn h l → t.lane l = s.lane l)

/-- REDU writes its uniform register each time it issues, with the reduction over the participating lanes or the
operation's identity for none, and sets E [10 R182, R185, R186]. -/
def Sys2Proof.Claims.reduceWord : Prop :=
  ∀ h kd a op s, ∃ t, exec (.redu h kd a op) s = .next t ∧
    t.now.focus.rk kd = reduce op ((takers s h).map fun l => (s.src l).rg a) ∧ crossFlags s t h ∧ writesOnlyK s t [kd] ∧
    (takers s h = [] → t.now.focus.rk kd = match op with
      | .iadd | .imaxZ | .orB | .xorB => 0
      | .iminS => 0x7FFFFFFF
      | .imaxS | .fadd => 0x80000000
      | .iminZ | .andB => 0xFFFFFFFF
      | .fmin => 0x7F800000
      | .fmax => 0xFF800000)

/-- SHFL, SCAN, COMPRESS, EXPAND, MATCH and BALLOT give each participating lane its rule's value; REDU writes its uniform
register each time it issues, with the operation's identity where no lane takes part. E tells whether none did, and nothing
else changes [10 R182, R184-R187]. -/
def Obligations.CrossLaneWords : Prop := Sys2Proof.Claims.crossLaneWords ∧ Sys2Proof.Claims.reduceWord

namespace Sys2Proof.Claims
open Sys2Proof.Machine

/-! ### Control words -/

/-- When each condition of BR holds [06 R96]. -/
def condHolds (f : Flags) : Cond → Prop
  | .al => True
  | .eq => f.z = true
  | .ne => f.z = false
  | .lt => f.n ≠ f.v
  | .ge => f.n = f.v
  | .ltu => f.c = false
  | .geu => f.c = true
  | .mi => f.n = true
  | .pl => f.n = false
  | .vs => f.v = true
  | .vc => f.v = false
  | .empty => f.e = true
  | .nempty => f.e = false

/-- The packet that an offset names: PC + 12 times the signed offset, modulo 2^64 [02 R23]. -/
def packetAt (s : State) (off : Int) : W64 := BitVec.ofInt 64 (s.frag.pc.toNat + 12 * off)

/-- The branches: header, when an acting one is taken, the packet it goes to [06 R96, R97]. -/
def branchRule : Instr → Option (Hdr × (State → Prop) × (State → W64))
  | .br h cc off => some (h, fun s => condHolds s.old.flags cc, fun s => packetAt s off.toInt)
  | .bnone h p off => some (h, fun s => ∀ l ∈ takers s h, (s.src l).rp p = false, fun s => packetAt s off.toInt)
  | .bany h p off => some (h, fun s => ∃ l ∈ takers s h, (s.src l).rp p = true, fun s => packetAt s off.toInt)
  | .ball h p off => some (h, fun s => ∀ l ∈ takers s h, (s.src l).rp p = true, fun s => packetAt s off.toInt)
  | .bnall h p off => some (h, fun s => ∃ l ∈ takers s h, (s.src l).rp p = false, fun s => packetAt s off.toInt)
  | _ => none

/-- The control words that act for the fragment as a whole: header and transfer [06 R95, R103-R105]. -/
def plainTransfer : Instr → Option (Hdr × (State → Xfer))
  | .exit h => some (h, fun s => .exit (s.exec h))
  | .join h => some (h, fun _ => .join)
  | .yield h => some (h, fun _ => .yield)
  | _ => none

/-- The state with the transfer of its group set. -/
def withXfer (s : State) (x : Xfer) : State := { s with iss := { s.iss with xfer := some x } }

/-- Two strands hold the same fragments in the slots other than one. -/
def otherSlots (a b : Strand) (slot : Fin 4) : Prop := ∀ i, i ≠ slot → a.frag i = b.frag i

/-- The words that need system level [01 R11]. -/
def needsSystem : Instr → Bool
  | .eret _ => true
  | .halt _ => true
  | .tlbi _ _ _ _ => true
  | .railsel _ _ => true
  | .claspBind _ _ _ => true
  | .claspUnbind _ _ => true
  | _ => false

/-! ### CSR words -/

/-- The value of a CSR for a lane of the issuing strand, by the table of [01 R12]: a 32-bit one fills the low half. -/
def csrTable (s : State) (l : LaneId) : Csr → Nat
  | .fpctl => (s.src l).fpctl.toNat
  | .fpstat => (s.src l).fpstat.toNat
  | .mxstat => (s.src l).mxstat.toNat
  | .tagrdy => if s.old.det then s.old.observed.toNat else s.old.tagrdy.toNat
  | .traytimer => s.old.traytimer.toNat
  | .userscratch => (s.src l).userscratch.toNat
  | .laneid => l.val
  | .strandid => s.old.strandid.toNat
  | .taskidx => s.old.taskidx.toNat
  | .regionid => s.old.region / 256 % 2 ^ 32
  | .coreid => s.old.core.val
  | .quadid => s.old.quad.val
  | .fragmask => s.frag.mask.toNat
  | .clock => (if s.old.det then s.old.groups else s.start.cycle) % 2 ^ 64
  | .devid => Config.devid.toNat
  | .batchn => s.old.batchn.toNat
  | .blocksfree => (s.start.quad s.old.core s.old.quad).free % 2 ^ 64
  | .traplanes => s.frag.traplanes.toNat
  | .trapcause => s.frag.trapcause.toNat
  | .trappc => s.frag.trappc.toNat
  | .trapinfo => s.frag.trapinfo.toNat
  | .detmode => if s.old.det then 1 else 0
  | .status => (if s.frag.prv then 1 else 0) + (if s.frag.pprv then 2 else 0) + (if s.frag.nest then 4 else 0)
  | .ptbase => (s.start.regionOf s.old).ptbase.toNat
  | .rcbbase => s.old.rcbbase.toNat
  | .syscause => s.frag.syscause.toNat
  | .syspc => s.frag.syspc.toNat
  | .sysinfo => s.frag.sysinfo.toNat
  | .railsel => if (s.start.core s.old.core).railsel then 1 else 0
  | .caratcap => (s.start.core s.old.core).caratcap.toNat
  | .leasebase => s.old.leasebase.toNat
  | .hotbase => (s.start.regionOf s.old).hotbase.toNat
  | .mcstat => (s.start.core s.old.core).mchk.toNat * 2 ^ 16 + (s.start.core s.old.core).rerun.toNat

/-- A CSR word passes the checks of [01 R11, R12]: the register is even for a 64-bit CSR, the level is system for a
system CSR. -/
def csrAllowed (s : State) (d : GReg) (c : Csr) : Prop := (c.wide = true → d.val % 2 = 0) ∧ (c.system = true → s.sys = true)

/-- The three CSR writes: header, register, CSR, and the new value from the old one and the operand [06 R112]. -/
def csrRule : Instr → Option (Hdr × GReg × Csr × (Nat → Nat → Nat))
  | .csrw h d c => some (h, d, c, fun _ v => v)
  | .csrs h d c => some (h, d, c, fun o v => o ||| v)
  | .csrc h d c => some (h, d, c, fun o v => o &&& (2 ^ 64 - 1 - v))
  | _ => none

/-- The operand of a CSR word in a lane: the register, or the pair for a 64-bit CSR [06 R112]. -/
def csrOperandOf (x : Lane) (d : GReg) (c : Csr) : Nat := if c.wide then zPair x d else (x.rg d).toNat

/-- The state as the next group reads it. -/
def nextGroup (t : State) : State := { now := t.now, start := t.now, iss := t.iss }

/-- A CSR as a write starts from it: for tagrdy the live ready bits [16 R255]. -/
def csrLive (s : State) (l : LaneId) (c : Csr) : Nat := if c = .tagrdy then s.old.tagrdy.toNat else csrTable s l c

/-- What a write of a CSR leaves in it: the bits that the field map of that CSR lets software write
[01 R12, R13; 03 R51, R54; 08 R153; 16 R255]. -/
def csrKeeps (s : State) (l : LaneId) (c : Csr) (v : Nat) : Nat :=
  match c with
  | .fpctl => v % 64
  | .fpstat => v % 32 ||| s.iss.fflags[l].toNat
  | .mxstat => v % 4
  | .tagrdy => (s.now.focus.tagrdy.toNat &&& s.now.focus.tagout.toNat) ||| (v % 2 ^ 64 &&& (2 ^ 64 - 1 - s.now.focus.tagout.toNat))
  | .status => (csrTable (nextGroup s) l .status &&& 5) ||| (v &&& 2)
  | .railsel => v % 2
  | .caratcap => v % 2 ^ 24
  | .traytimer | .userscratch | .syscause | .mcstat => v % 2 ^ 32
  | _ => v % 2 ^ 64

/-- The registers, the flags and the memory are as before. -/
def keepsRegisters (s t : State) : Prop :=
  sameMemory s t ∧ t.now.focus.k = s.now.focus.k ∧ t.now.focus.flags = s.now.focus.flags ∧
  ∀ l, (t.lane l).g = (s.lane l).g ∧ (t.lane l).p = (s.lane l).p ∧ (t.lane l).m = (s.lane l).m

/-- The fault that stops a word at user level, or a word with an illegal encoding: it names no lanes of its own, and its
detail holds the word and its position [02 R28]. -/
def wordFault (s : State) (code : Nat) : Trap := Trap.user code 0 (BitVec.ofNat 64 (s.word.toNat + s.iss.pos.val * 2 ^ 32))

end Sys2Proof.Claims

/-- A branch completes: one that acts and whose condition holds sets its group's transfer to its target, any other does
nothing at all; registers, flags and memory stay [06 R95-R97; 02 R23, R27]. -/
def Sys2Proof.Claims.branches : Prop :=
  ∀ i s h c tgt, branchRule i = some (h, c, tgt) →
    ((s.acts h = true ∧ c s) → exec i s = .next (withXfer s (.goto (tgt s)))) ∧
    (¬ (s.acts h = true ∧ c s) → exec i s = .next s)

/-- CALL completes where its target is a multiple of 12: every executing lane's link pair g62:g63 holds the address of its
packet + 12, and the fragment's transfer is to PC + 12 times the offset; a target that is none raises alignment (0x05) in
every executing lane, with the target as the detail [06 R99; 02 R22]. -/
def Sys2Proof.Claims.callLinksAndTransfers : Prop :=
  ∀ h off s, (s.acts h = false → exec (.call h off) s = .next s) ∧
    (s.acts h = true → (packetAt s off.toInt).toNat % 12 = 0 →
      ∃ t, exec (.call h off) s = .next (withXfer t (.goto (packetAt s off.toInt))) ∧
        (∀ l, s.runsIn h l → asPair (t.lane l) 62 = s.frag.pc + 12) ∧ writesOnlyG s t h [62, 63]) ∧
    (s.acts h = true → (packetAt s off.toInt).toNat % 12 ≠ 0 →
      ∃ lanes, (∀ l, hasLane lanes l = true ↔ s.runsIn h l) ∧
        exec (.call h off) s = .next (s.trap (Trap.user 0x05 lanes (packetAt s off.toInt))))

/-- A branch that acts and whose condition holds sets its group's transfer to its target, any other does nothing at all; CALL
gives every executing lane its link and transfers [06 R95-R97, R99; 02 R23, R27]. -/
def Obligations.Branches : Prop := Sys2Proof.Claims.branches ∧ Sys2Proof.Claims.callLinksAndTransfers

/-- BDIV completes: its transfer splits the fragment into the executing lanes whose predicate is true, which go to the
target, and every other lane of the fragment [09 R167; 06 R98]. -/
def Sys2Proof.Claims.divergentBranch : Prop :=
  ∀ h p off s, ∃ t n, exec (.bdiv h p off) s = .next (withXfer s (.div t n (packetAt s off.toInt))) ∧
    (∀ l, hasLane t l = true ↔ s.runsIn h l ∧ (s.src l).rp p = true) ∧
    (∀ l, hasLane n l = true ↔ hasLane s.frag.mask l = true ∧ ¬ (s.runsIn h l ∧ (s.src l).rp p = true))

/-- A split with both parts occupied: with a free slot the taken lanes become a ready fragment at the target in the lowest
free slot and the others stay at PC + 12; with none the taken lanes keep the slot and the others join the deferred
list [09 R167]. -/
def Sys2Proof.Claims.splitTakesLowestSlot : Prop :=
  ∀ (st : Strand) (slot : Fin 4) (f : Frag) (t n : W32) (pc : W64), st.frag slot = some f → t ≠ 0 → n ≠ 0 →
    (∀ i, st.freeSlot = some i → i ≠ slot ∧ st.frag i = none ∧ (∀ j, j < i → st.frag j ≠ none) ∧
      (st.divide slot f t n pc).frag slot = some { f with mask := n, pc := f.pc + 12, pos := 0 } ∧
      (∃ g, (st.divide slot f t n pc).frag i = some g ∧ g.mask = t ∧ g.pc = pc ∧ g.pos = 0 ∧ g.st = .ready ∧ g.passed = 0) ∧
      (st.divide slot f t n pc).deferred = st.deferred ∧ ∀ j, j ≠ slot → j ≠ i → (st.divide slot f t n pc).frag j = st.frag j) ∧
    (st.freeSlot = none →
      (st.divide slot f t n pc).frag slot = some { f with mask := t, pc := pc, pos := 0 } ∧
      (∃ e, (st.divide slot f t n pc).deferred = st.deferred ++ [e] ∧ e.mask = n ∧ e.pc = f.pc + 12) ∧
      otherSlots (st.divide slot f t n pc) st slot)

/-- JMPR and RET complete when their targets are multiples of 12, and RET's agree: JMPR's transfer groups all lanes of the
fragment by target, a lane with a false guard taking PC + 12; RET moves the whole fragment [09 R168, R169; 06 R100,
R101]. -/
def Sys2Proof.Claims.registerJumps : Prop :=
  ∀ (h : Hdr) (a : GReg) (s : State), (∀ l, s.runsIn h l → zPair (s.src l) a % 12 = 0) →
    (∃ gs, exec (.jmpr h a) s = .next (withXfer s (.split gs)) ∧
      (∀ x ∈ gs, ∀ l, hasLane x.1 l = true ↔ hasLane s.frag.mask l = true ∧
        x.2 = if hasLane (s.exec h) l then asPair (s.src l) a else s.frag.pc + 12) ∧
      (∀ l, hasLane s.frag.mask l = true → ∃ x ∈ gs, hasLane x.1 l = true) ∧
      gs.Pairwise fun x y => lowLane x.1 < lowLane y.1) ∧
    ((∀ l k, s.runsIn h l → s.runsIn h k → asPair (s.src l) a = asPair (s.src k) a) → s.acts h = true →
      ∃ l, s.runsIn h l ∧ exec (.ret h a) s = .next (withXfer s (.goto (asPair (s.src l) a))))

/-- JMPR and RET with a target that is no multiple of 12 in an executing lane raise alignment (0x05) and transfer nothing;
the fault names exactly those lanes and gives the bad target of the lowest [02 R22; 09 R168]. -/
def Sys2Proof.Claims.misalignedJumpTraps : Prop :=
  ∀ (h : Hdr) (a : GReg) (s : State), (∃ l, s.runsIn h l ∧ zPair (s.src l) a % 12 ≠ 0) →
    ∃ lanes, (∀ l, hasLane lanes l = true ↔ s.runsIn h l ∧ zPair (s.src l) a % 12 ≠ 0) ∧
      exec (.jmpr h a) s = .next (s.trap (Trap.user 0x05 lanes (asPair (s.src (lowLane lanes)) a))) ∧
      ((∀ l k, s.runsIn h l → s.runsIn h k → asPair (s.src l) a = asPair (s.src k) a) →
        exec (.ret h a) s = .next (s.trap (Trap.user 0x05 lanes (asPair (s.src (lowLane lanes)) a))))

/-- BDIV's transfer splits its fragment by predicate, the taken lanes in the lowest free slot or, without one, the others on the
deferred list; JMPR groups the lanes by target, RET moves the whole fragment, and a target that is no packet address raises
alignment [09 R167-R169; 06 R98, R100, R101; 02 R22]. -/
def Obligations.DivergentTransfers : Prop :=
  Sys2Proof.Claims.divergentBranch ∧ Sys2Proof.Claims.splitTakesLowestSlot ∧ Sys2Proof.Claims.registerJumps ∧ Sys2Proof.Claims.misalignedJumpTraps

/-- EXIT, JOIN and YIELD complete: one that acts sets its transfer, one that does not does nothing [06 R95, R103-R105]. -/
def Sys2Proof.Claims.wholeFragmentTransfers : Prop :=
  ∀ i s h x, plainTransfer i = some (h, x) →
    (s.acts h = true → exec i s = .next (withXfer s (x s))) ∧ (s.acts h = false → exec i s = .next s)

/-- JOIN's transfer [09 R171], in a strand with no deferred entry: the lanes of a fragment outside a handler go over to the
fragment that waits at the same packet, and its slot frees; where that fragment then holds every lane of the strand, it
continues at the next packet. With no such fragment it waits there, or continues at once if it holds every lane of the
strand. -/
def Sys2Proof.Claims.joinMergesOrWaits : Prop :=
  ∀ (st : Strand) (slot : Fin 4) (f : Frag) (now : Nat), st.frag slot = some f → st.deferred = [] →
    (∀ j y, j ≠ slot → st.frag j = some y → y.joinWaits = true → y.pc = f.pc → f.handler = none → f.sysrec = none →
      (∀ i z, i ≠ slot → i ≠ j → st.frag i = some z → ¬ (z.joinWaits = true ∧ z.pc = f.pc)) →
      (st.join slot f now).frag slot = none ∧
      ∃ g, (st.join slot f now).frag j = some g ∧ g.mask = y.mask ||| f.mask ∧
        (g.mask = st.liveLanes → g.st = .ready ∧ g.pc = f.pc + 12 ∧ g.pos = 0)) ∧
    ((∀ i z, i ≠ slot → st.frag i = some z → ¬ (z.joinWaits = true ∧ z.pc = f.pc)) →
      (f.mask ≠ st.liveLanes → (∃ i z, i ≠ slot ∧ st.frag i = some z ∧ z.joinWaits = false) →
        (st.join slot f now).frag slot = some { f with st := .parked .join now }) ∧
      (f.mask = st.liveLanes →
        (st.join slot f now).frag slot = some { f with st := .ready, pc := f.pc + 12, pos := 0 }))

/-- YIELD's transfer [06 R105]: the fragment goes on at the next packet, it has a yield mark, and it is not ready in the next
cycle; nothing else of its strand changes. The selector chooses a fragment with a yield mark before no other of its region
priority that has none, unless it has been passed over 64 times or the carat window is above its cap. -/
def Sys2Proof.Claims.yieldMakesYoungest : Prop :=
  (∀ (d : Dev) (slot : Fin 4) (f : Frag), d.focus.frag slot = some f → f.aside = none →
    (d.transfer slot .yield).focus.frag slot =
      some { f with pc := f.pc + 12, pos := 0, yield := true, skip := d.cycle + 1 } ∧
    otherSlots (d.transfer slot .yield).focus d.focus slot ∧ (d.transfer slot .yield).focus.lanes = d.focus.lanes ∧
    (d.transfer slot .yield).mem = d.mem) ∧
  (∀ (d : Dev) (st : Strand) (f : Frag) ws, f.skip = d.cycle → f.skip ≠ 0 → d.ready st f ws = false) ∧
  ∀ (d : Dev) (a b : Cand), a.frag.yield = true → b.frag.yield = false → a.frag.passed < 64 → b.frag.passed < 64 →
    (d.regionOf a.st).prio = (d.regionOf b.st).prio → d.before false a b = false ∧ d.before false b a = true

/-- TRET's transfer [06 R107, 09 R174], of the only fragment of a handler entry: when every other lane of the entry has acted
or exited, the fragment continues at its resume point with the lanes that it had at entry, at user level; otherwise it
waits. -/
def Sys2Proof.Claims.tretResumesLanes : Prop :=
  ∀ (st : Strand) (slot : Fin 4) (f : Frag) (h : HandlerRec) (now : Nat), st.frag slot = some f → f.handler = some h →
    (∀ i z r, i ≠ slot → st.frag i = some z → z.handler = some r → r.entry ≠ h.entry) →
    ((h.mask &&& st.liveLanes &&& ~~~(h.acted ||| f.mask)) = 0 → (h.full &&& st.liveLanes) ≠ 0 →
      ∃ g, (st.tret slot now).frag slot = some g ∧ g.mask = h.full &&& st.liveLanes ∧ g.pc = h.pc ∧ g.pos = h.pos ∧
        g.st = .ready ∧ g.handler = none ∧ g.prv = false) ∧
    ((h.mask &&& st.liveLanes &&& ~~~(h.acted ||| f.mask)) ≠ 0 →
      ∃ g, (st.tret slot now).frag slot = some g ∧ g.mask = f.mask ∧ g.st = .parked .tretRest now)

/-- TRET completes in a user handler whose resume point is a packet address: its transfer is the handler's return; outside one
it raises illegal encoding, and it does nothing where it does not act [06 R107; 02 R22]. -/
def Sys2Proof.Claims.handlerReturn : Prop :=
  ∀ (h : Hdr) (s : State), (s.acts h = false → exec (.tret h) s = .next s) ∧
    (∀ r, s.acts h = true → s.frag.handler = some r → s.frag.sysrec = none → r.pc.toNat % 12 = 0 →
      exec (.tret h) s = .next (withXfer s .tret)) ∧
    (s.acts h = true → s.frag.handler = none → exec (.tret h) s = .next (s.trap (wordFault s 0x01)))

/-- The transfer of an EXIT in which only some of the strand's lanes leave: those lanes are exited with every handle empty
and no watch, their pending results are discarded, and the lanes that stay are unchanged; the strand goes on
[06 R103]. -/
def Sys2Proof.Claims.exitingLanesLeave : Prop :=
  ∀ (st : Strand) (lanes : W32),
    (∀ l, hasLane lanes l = true → ((st.exitLanes lanes).lane l).exited = true ∧
      (∀ n, ((st.exitLanes lanes).lane l).rm n = none) ∧ ((st.exitLanes lanes).lane l).watch = none) ∧
    (∀ l, hasLane lanes l = false → (st.exitLanes lanes).lane l = st.lane l) ∧
    (∀ f ∈ (st.exitLanes lanes).flights, ∀ x ∈ f.marks, x.inLanes lanes = false) ∧
    (st.exitLanes lanes).liveLanes = st.liveLanes &&& ~~~lanes

/-- EARLYGO completes: it marks every executing lane, clears no mark, and changes nothing else of the machine but that the
task's job notes that a lane of it is marked [06 R104]. -/
def Sys2Proof.Claims.earlygoMarks : Prop :=
  ∀ (h : Hdr) (s : State), ∃ t, exec (.earlygo h) s = .next t ∧ t.iss = s.iss ∧ t.start = s.start ∧
    t.now = { s.now with focus := { s.now.focus with lanes := t.now.focus.lanes }, jobs := t.now.jobs } ∧
    (t.now.jobs.map fun j => { j with marked := false }) = (s.now.jobs.map fun j => { j with marked := false }) ∧
    ∀ l, t.lane l = { s.lane l with early := (s.lane l).early || hasLane (s.exec h) l }

/-- NOP, SCP and LIT complete: NOP changes nothing, SCP and LIT only supply the next word's order and scope, or its
value [02 R31, R32, R39]. -/
def Sys2Proof.Claims.nopAndPrefixes : Prop :=
  (∀ h s, exec (.nop h) s = .next s) ∧
  (∀ scope order s, exec (.scp scope order) s = .next { s with iss := { s.iss with scp := some (scope, order) } }) ∧
  (∀ hi g body s, ∃ v : W32, exec (.lit hi g body) s = .next { s with iss := { s.iss with lit := some v } } ∧
    v.toNat = (if hi then 2 ^ 31 else 0) + g.val * 2 ^ 28 + body.toNat * 2 ^ 8)

/-- TRAP and BKPT that act complete by entering the user handler: the fault is 0x0B or 0x0C, it names the executing
lanes, trapinfo holds the code, and the resume point is the next packet [06 R106, R107]. -/
def Sys2Proof.Claims.trapWords : Prop :=
  ∀ (h : Hdr) (code : BitVec 16) (s : State),
    (s.acts h = true →
      (∃ t, exec (.trap h code) s = .next (s.trap t) ∧ t.code = 0x0B ∧ t.lanes = s.exec h ∧ t.info.toNat = code.toNat ∧ t.next = true) ∧
      (∃ t, exec (.bkpt h code) s = .next (s.trap t) ∧ t.code = 0x0C ∧ t.lanes = s.exec h ∧ t.info.toNat = code.toNat ∧ t.next = true)) ∧
    (s.acts h = false → exec (.trap h code) s = .next s ∧ exec (.bkpt h code) s = .next s)

/-- EXIT, JOIN and YIELD set their transfer when they act; lanes that exit lose their handles, watch and pending results while the
others stay as they are; JOIN's lanes merge with a fragment that waits at its packet, or wait, or go on when they are all of
the strand's; YIELD's fragment goes on at the next packet as the youngest and skips a cycle; TRET returns from a user handler,
with the lanes of the entry at the resume point, and is illegal outside one (that it acts in one that a system handler has not
interrupted, and that an unaligned resume point raises 0x05, is the model's reading, log 45); TRAP and BKPT raise their fault
with their code and go on at the next packet [06 R95, R103-R107; 09 R171, R174]. -/
def Obligations.FragmentTransfers : Prop :=
  Sys2Proof.Claims.wholeFragmentTransfers ∧ Sys2Proof.Claims.joinMergesOrWaits ∧ Sys2Proof.Claims.yieldMakesYoungest ∧ Sys2Proof.Claims.handlerReturn ∧ Sys2Proof.Claims.tretResumesLanes ∧ Sys2Proof.Claims.exitingLanesLeave ∧ Sys2Proof.Claims.trapWords

/-- A fault with user delivery, from a user-level fragment that runs no handler, in a region with a handler, whose lanes
have nothing pending: the group writes nothing, the trap CSRs hold the lanes, the code, the packet and the detail, and
the fragment goes on at the handler with the faulting lanes alone [21 R324; 02 R28; 11 R197]. -/
def Sys2Proof.Claims.userHandlerEntry : Prop :=
  ∀ (s : State) (t : Trap) (f : Frag), s.start.focus.frag s.iss.slot = some f → f.prv = false → f.handler = none →
    t.delivery = .user → t.repPc = none → (s.start.regionOf s.start.focus).handler ≠ 0 →
    t.lanes &&& f.mask ≠ 0 → s.start.focus.settled (t.lanes &&& f.mask) = true →
    ∃ g r, (s.trap t).now.focus.frag s.iss.slot = some g ∧ g.handler = some r ∧
      g.traplanes = t.lanes &&& f.mask ∧ g.trapcause.toNat = t.code % 2 ^ 32 ∧ g.trappc = f.pc ∧ g.trapinfo = t.info ∧
      g.mask = t.lanes &&& f.mask ∧ g.pc = (s.start.regionOf s.start.focus).handler ∧ g.pos = 0 ∧ g.prv = false ∧
      r.mask = t.lanes &&& f.mask ∧ r.full = f.mask ∧
      (r.pc, r.pos) = (if t.next then (f.pc + 12, (0 : Fin 3)) else (f.pc, f.pos)) ∧
      (s.iss.real = none → ∀ l, (s.trap t).lane l = s.src l) ∧ (s.trap t).now.mem = s.start.mem ∧
      otherSlots (s.trap t).now.focus s.start.focus s.iss.slot

/-- CSRR completes at either level for the CSRs that R12 lets that level read: every executing lane receives the CSR's
value, in a pair for a 64-bit CSR, and nothing else changes [06 R112; 01 R11, R12, R13]. -/
def Sys2Proof.Claims.csrRead : Prop :=
  ∀ h d c s, csrAllowed s d c → ∃ t, exec (.csrr h d c) s = .next t ∧
    (∀ l, s.runsIn h l → if c.wide then zPair (t.lane l) d = csrTable s l c
      else ((t.lane l).rg d).toNat = csrTable s l c % 2 ^ 32) ∧
    writesOnlyG s t h (if c.wide then [d, d.plus 1] else [d])

/-- CSRW, CSRS and CSRC of a writable CSR complete: a CSR of the thread takes each executing lane's value, any other CSR
takes the value of the lowest executing lane, once; the bits that the CSR's field map ignores stay; every other CSR,
every register, the flags and memory stay [06 R112, R113; 01 R12, R13; 03 R51, R54]. -/
def Sys2Proof.Claims.csrWrite : Prop :=
  ∀ i s h d c f, csrRule i = some (h, d, c, f) → csrAllowed s d c → c.writable = true → s.fragNow.isSome = true →
    (s.now.region? s.now.focus.region).isSome = true → s.acts h = true →
    ∃ t, exec i s = .next t ∧ keepsRegisters s t ∧
      (∀ l e, e ≠ c → csrLive (nextGroup t) l e = csrLive (nextGroup s) l e) ∧
      (ofThread c = true → ∀ l,
        (s.runsIn h l → csrLive (nextGroup t) l c = csrKeeps s l c (f (csrLive s l c) (csrOperandOf (s.src l) d c))) ∧
        (¬ s.runsIn h l → csrLive (nextGroup t) l c = csrLive (nextGroup s) l c)) ∧
      (ofThread c = false → ∃ m, s.runsIn h m ∧ (∀ k, s.runsIn h k → m ≤ k) ∧
        ∀ l, csrLive (nextGroup t) l c = csrKeeps s l c (f (csrLive s m c) (csrOperandOf (s.src m) d c)))

/-- CSRR gives every executing lane the value of the CSR table, in a pair for a 64-bit CSR; CSRW, CSRS and CSRC change a writable
CSR by each lane's value where it is the thread's, by the lowest executing lane's otherwise, in the bits that its field map lets
them; everything else stays [06 R112, R113; 01 R11-R13; 03 R51, R54]. -/
def Obligations.CsrWords : Prop := Sys2Proof.Claims.csrRead ∧ Sys2Proof.Claims.csrWrite

/-- At user level ERET, HALT, TLBI, RAILSEL, CLASP.BIND and CLASP.UNBIND and every access to a system CSR raise privileged
instruction (0x03), with the word and its position as the detail; an access that R12 forbids raises illegal encoding at
either level [01 R11, R12; 02 R28]. -/
def Sys2Proof.Claims.privilegeChecks : Prop :=
  (∀ i s, needsSystem i = true → s.sys = false → exec i s = .next (s.trap (wordFault s 0x03))) ∧
  (∀ h d c s, c.system = true → s.sys = false → (c.wide = true → d.val % 2 = 0) →
    exec (.csrr h d c) s = .next (s.trap (wordFault s 0x03)) ∧
    ∀ i f, csrRule i = some (h, d, c, f) → c.writable = true → exec i s = .next (s.trap (wordFault s 0x03))) ∧
  (∀ i f h d c s, csrRule i = some (h, d, c, f) → c.writable = false ∨ (c.wide = true ∧ d.val % 2 = 1) →
    exec i s = .next (s.trap (wordFault s 0x01)))

/-- At system level ERET to an aligned syspc sets its transfer, TLBI parks its fragment for the sweep, and RAILSEL requests
the rail; each does nothing when it does not act [06 R95, R108, R110, R111]. -/
def Sys2Proof.Claims.systemWords : Prop :=
  ∀ (h : Hdr) (s : State), s.sys = true →
    (s.acts h = true → s.frag.syspc.toNat % 12 = 0 → exec (.eret h) s = .next (withXfer s .eret)) ∧
    (s.acts h = true → s.frag.syspc.toNat % 12 ≠ 0 → ∃ t, exec (.eret h) s = .next (s.trap t) ∧ t.code = 0x05 ∧ t.info = s.frag.syspc) ∧
    (∀ a scope kind, s.acts h = true → ∃ va root, exec (.tlbi h a scope kind) s = .next (s.setWait (.tlbi kind scope va root)) ∧
      ∃ l, s.runsIn h l ∧ va = asPair (s.src l) a) ∧
    (∀ rail, s.acts h = true → ∃ t, exec (.railsel h rail) s = .next t ∧ keepsRegisters s t ∧
      ((t.now.core s.old.core).railsel = rail ∧ (t.now.core s.old.core).railDue = some rail) ∧
      ∀ c, c ≠ s.old.core → t.now.core c = s.now.core c) ∧
    (∀ i, (∃ a scope kind, i = .tlbi h a scope kind) ∨ i = .eret h ∨ i = .halt h ∨ (∃ rail, i = .railsel h rail) →
      s.acts h = false → exec i s = .next s)

/-- ERET's transfer from a system handler that interrupted no other: the level becomes PPRV, the fragment has its full
mask's live lanes at syspc, at the recorded position when syspc was not written, and the entry lane's g56-g63 and p0-p6
are those of the entry; without a system record it only transfers and sets the level [06 R108; 21 R325, R326]. -/
def Obligations.EretRestores : Prop :=
  ∀ (st : Strand) (slot : Fin 4) (f : Frag), st.frag slot = some f →
    (f.sysrec = none → (st.eret slot).frag slot = some { f with pc := f.syspc, pos := 0, prv := f.pprv } ∧
      (st.eret slot).lanes = st.lanes) ∧
    (∀ r, f.sysrec = some r → f.nestrec = none → ∃ g, (st.eret slot).frag slot = some g ∧ g.pc = f.syspc ∧ g.prv = f.pprv ∧
      g.mask = r.full &&& st.liveLanes ∧ g.sysrec = none ∧ g.pos = (if f.syspc = r.pcIn then r.pos else 0) ∧
      (∀ i : Fin 8, ((st.eret slot).lane r.lane).rg (Fin.ofNat 64 (56 + i.val)) = r.regs.getD i.val 0) ∧
      (∀ i : Fin 7, ((st.eret slot).lane r.lane).p[i] = r.preds.getD i.val false) ∧
      (∀ q : GReg, q.val < 56 → ((st.eret slot).lane r.lane).rg q = (st.lane r.lane).rg q) ∧
      ∀ l, l ≠ r.lane → (st.eret slot).lane l = st.lane l)

/-- A system fault of a user-level fragment whose lowest faulting lane has nothing pending, with a system handler and a
region that does not end its tasks for it: the lowest faulting lane alone goes on at the handler's entry, at system
level, with syscause, syspc and sysinfo set and PPRV user; the group writes nothing [21 R325; 01 R11; 02 R28]. -/
def Sys2Proof.Claims.systemHandlerEntry : Prop :=
  ∀ (s : State) (t : Trap) (f : Frag), s.start.focus.frag s.iss.slot = some f → f.prv = false → f.sysrec = none →
    t.delivery = .system → t.repPc = none → (s.start.regionOf s.start.focus).sysEnds = false → s.start.sysEntry ≠ 0 →
    t.lanes &&& f.mask ≠ 0 → s.start.focus.settled (oneLane (lowLane (t.lanes &&& f.mask))) = true →
    ∃ g r, (s.trap t).now.focus.frag s.iss.slot = some g ∧ g.sysrec = some r ∧ g.prv = true ∧ g.pprv = false ∧
      g.mask = oneLane (lowLane (t.lanes &&& f.mask)) ∧ g.pc = s.start.sysEntry ∧ g.pos = 0 ∧ g.st = .ready ∧
      g.syscause = t.cause ∧ g.syspc = f.pc ∧ g.sysinfo = t.info ∧ r.lane = lowLane (t.lanes &&& f.mask) ∧ r.full = f.mask ∧
      r.pos = f.pos ∧ (∀ i : Fin 8, r.regs.getD i.val 0 = ((s.trap t).lane r.lane).rg (Fin.ofNat 64 (56 + i.val))) ∧
      (s.iss.real = none → ∀ l, (s.trap t).lane l = s.src l) ∧ (s.trap t).now.mem = s.start.mem

/-- A user fault of user-level code sends the faulting lanes to the user handler with the trap CSRs set; a system fault sends the
lowest faulting lane alone to the system handler, at system level, with the system CSRs set; the group writes nothing
[21 R324, R325; 02 R28; 11 R197; 01 R11]. -/
def Obligations.HandlerEntries : Prop := Sys2Proof.Claims.userHandlerEntry ∧ Sys2Proof.Claims.systemHandlerEntry

/-- HALT at system level ends the issuing strand's task with a report taken from the system CSRs as they stand: code,
reason, detail, the PC from syspc, and flag bit 4 [06 R109]. -/
def Sys2Proof.Claims.haltEndsTask : Prop :=
  ∀ (h : Hdr) (s : State) (j : Job), s.sys = true → s.acts h = true → s.start.focus.frag s.iss.slot = some s.frag →
    s.old.kind = .task → s.start.job? s.old.task = some j → j.st = .running →
    ∃ t j' rep, exec (.halt h) s = .next t ∧ t.now.job? s.old.task = some j' ∧ j'.st = .ending (some rep) false ∧
      rep.code = s.frag.syscause.toNat % 256 ∧ rep.reason = s.frag.syscause.toNat / 2 ^ 12 % 16 ∧ rep.info = s.frag.sysinfo ∧
      rep.pc = s.frag.syspc ∧ rep.flags = 16 ∧ rep.task = j.recVa

/-- At user level the privileged words and every access to a system CSR raise privileged instruction (0x03). At system level ERET
sets its transfer, TLBI parks its fragment for the sweep, RAILSEL requests the rail, and HALT ends the task with a report
from the system CSRs [01 R11, R12; 02 R28; 06 R108-R111]. -/
def Obligations.SystemWords : Prop :=
  Sys2Proof.Claims.privilegeChecks ∧ Sys2Proof.Claims.systemWords ∧ Sys2Proof.Claims.haltEndsTask

namespace Sys2Proof.Claims
open Sys2Proof.Machine

/-! ### Memory words -/

/-- The executing lanes' addresses are aligned, and every access passes the checks of [13 R211]. -/
def reachable (s : State) (h : Hdr) (acc : Access) (align : Nat) (ea : LaneId → W64) (len : Nat) : Bool :=
  (s.misaligned (s.exec h) align ea).isNone && (failsOf (s.accessLanes (s.exec h) acc ea len)).isEmpty

/-- Each executing lane with the key of the first byte that its access reaches. -/
def reachedKeys (s : State) (h : Hdr) (acc : Access) (ea : LaneId → W64) (len : Nat) : List (LaneId × Nat) :=
  (oksOf (s.accessLanes (s.exec h) acc ea len)).map fun x => (x.1, keyOf x.2)

/-- Each executing lane with the runs of bytes that its access reaches, in order. -/
def reachedRuns (s : State) (h : Hdr) (acc : Access) (ea : LaneId → W64) (len : Nat) : List (LaneId × List Run) :=
  (oksOf (s.accessLanes (s.exec h) acc ea len)).map fun x => (x.1, runsOf x.2)

/-- The lanes' runs, by the keys of their first bytes. -/
def runKeys (rs : List (LaneId × List Run)) : List (LaneId × Nat) := rs.flatMap fun x => x.2.map fun r => (x.1, r.key)

/-- Memory is plain where a word reaches: no byte is bound to a clasp, no address is a peer's, and no region keeps a
hotness shadow table, which a translation that leaves the caches would write [13 R216; 14 R238; 23 R361]. -/
def plainMemory (s : State) (keys : List (LaneId × Nat)) : Prop :=
  s.now.clasps = [] ∧ (∀ x ∈ keys, peerOf x.2 = none) ∧ ∀ r ∈ s.now.regions, r.hotbase = 0

/-- Bytes `n` of a number, lowest first. -/
def lowBytes (n v : Nat) : List Byte := (List.range n).map fun i => BitVec.ofNat 8 (v / 2 ^ (8 * i))

/-- The number that a register, pair or quad holds. -/
def zQuad (x : Lane) (r : GReg) : Nat := zPair x r + 2 ^ 64 * zPair x (r.plus 2)

/-- The memory words whose lanes each make one access: header, kind, alignment, address, bytes [06 R114, R115; 14 R232,
R242, R247]. -/
def laneAccess : Instr → Option (Hdr × Access × Nat × (State → LaneId → W64) × Nat)
  | .ld h _ a o sz => some (h, .read, szBytes sz, fun s l => s.eaN a o (szBytes sz) (s.src l), szBytes sz)
  | .st h _ a o sz => some (h, .write, szBytes sz, fun s l => s.eaN a o (szBytes sz) (s.src l), szBytes sz)
  | .monitor h a => some (h, .read, 1, fun s l => asPair (s.src l) a, 1)
  | .awt h a _ _ => some (h, .read, 8, fun s l => asPair (s.src l) a, 8)
  | _ => none

/-- The atomic words: header, destination, address pair, operand, operation [14 R232]. -/
def atomicRule : Instr → Option (Hdr × GReg × GReg × GReg × AtOp)
  | .atadd32 h d a b => some (h, d, a, b, .add32)
  | .atadd64 h d a b => some (h, d, a, b, .add64)
  | .ataddF32 h d a b => some (h, d, a, b, .addF32)
  | .ataddBf16x2 h d a b => some (h, d, a, b, .addBf16x2)
  | .atmmMinS h d a b => some (h, d, a, b, .minS)
  | .atmmMaxS h d a b => some (h, d, a, b, .maxS)
  | .atmmMinZ h d a b => some (h, d, a, b, .minZ)
  | .atmmMaxZ h d a b => some (h, d, a, b, .maxZ)
  | .atlogAnd h d a b => some (h, d, a, b, .andB)
  | .atlogOr h d a b => some (h, d, a, b, .orB)
  | .atlogXor h d a b => some (h, d, a, b, .xorB)
  | .atlogExch h d a b => some (h, d, a, b, .exch)
  | .cas32 h d a b => some (h, d, a, b, .cas32)
  | .cas64 h d a b => some (h, d, a, b, .cas64)
  | _ => none

/-- An atomic works on 64 bits [14 R232]. -/
def wideAtomic (op : AtOp) : Bool := op == .add64 || op == .cas64

/-- A 32-bit number read as signed. -/
def asS32 (n : Nat) : Int := if n < 2 ^ 31 then n else (n : Int) - 2 ^ 32

/-- What an atomic leaves in memory, from the old value m, the operand b and the expected value e [14 R232]. -/
def atomicLeaves (op : AtOp) (m b e : Nat) : Nat :=
  match op with
  | .add32 => (m + b) % 2 ^ 32
  | .add64 => (m + b) % 2 ^ 64
  | .addF32 => (fadd (BitVec.ofNat 32 m) (BitVec.ofNat 32 b)).1.toNat
  | .addBf16x2 => addBf16 (m % 2 ^ 16) (b % 2 ^ 16) + 2 ^ 16 * addBf16 (m / 2 ^ 16) (b / 2 ^ 16)
  | .minS => if asS32 m ≤ asS32 b then m else b
  | .maxS => if asS32 b ≤ asS32 m then m else b
  | .minZ => min m b
  | .maxZ => max m b
  | .andB => m &&& b
  | .orB => m ||| b
  | .xorB => m ^^^ b
  | .exch => b
  | .cas32 => if m = e then b else m
  | .cas64 => if m = e then b else m

/-- The lanes' atomics on memory, one after the other: each reads its old value and leaves the new one. -/
def atomicsOn (op : AtOp) (b e : LaneId → Nat) : List Host.Cell → List (LaneId × Nat) → List Host.Cell × List (LaneId × Nat)
  | m, [] => (m, [])
  | m, (l, k) :: rest =>
    let n := if wideAtomic op then 8 else 4
    let old := Mem.num m k n
    let (m', olds) := atomicsOn op b e (Mem.write m k (lowBytes n (atomicLeaves op old (b l) (e l)))) rest
    (m', (l, old) :: olds)

/-- The number in a register, or in a pair for a 64-bit atomic. -/
def atomicArg (s : State) (op : AtOp) (r : GReg) (l : LaneId) : Nat :=
  if wideAtomic op then zPair (s.src l) r else ((s.src l).rg r).toNat

/-- An atomic's accesses pass every check: alignment, [13 R211], the class of [14 R234], and in deterministic mode no float
sum [14 R235]. -/
def atomicAllowed (s : State) (h : Hdr) (a : GReg) (op : AtOp) : Prop :=
  let n := if wideAtomic op then 8 else 4
  let ea : LaneId → W64 := fun l => asPair (s.src l) a
  (∀ l, s.runsIn h l → zPair (s.src l) a % n = 0) ∧
  failsOf (withClass s.atomicScope (atOnHost op) ea (s.accessLanes (s.exec h) .atomic ea n)) = [] ∧
  (s.old.det = true → op ≠ .addF32 ∧ op ≠ .addBf16x2)

/-- The value that a load delivers, by its size [06 R114]. -/
def loadDelivers (x : Lane) (d : GReg) (sz : AccSz) (bs : List Byte) : Prop :=
  match sz with
  | .s8 => (x.rg d).toInt = if ofBytes bs < 128 then (ofBytes bs : Int) else (ofBytes bs : Int) - 256
  | .s16 => (x.rg d).toInt = if ofBytes bs < 2 ^ 15 then (ofBytes bs : Int) else (ofBytes bs : Int) - 2 ^ 16
  | .z8 | .z16 | .w32 => (x.rg d).toNat = ofBytes bs
  | .w64 => zPair x d = ofBytes bs
  | .w128 => zQuad x d = ofBytes bs

/-- The next state holds one more result in flight, as given; registers, flags and, beside the translation caches'
counts, the rest of the strand's registers stay. -/
def launches (s t : State) (f : Flight) : Prop :=
  t.now.focus.flights = s.now.focus.flights ++ [f] ∧ t.now.focus.k = s.now.focus.k ∧
  t.now.focus.flags = s.now.focus.flags ∧
  ∀ l, (t.lane l).g = (s.lane l).g ∧ (t.lane l).p = (s.lane l).p ∧ (t.lane l).m = (s.lane l).m

/-! ### Ordering words -/

/-- The fences: header and engine mask [14 R230]. -/
def fenceRule : Instr → Option (Hdr × BitVec 5)
  | .fenceFull h _ eng => some (h, eng)
  | .fenceAcq h _ eng => some (h, eng)
  | .fenceRel h _ eng => some (h, eng)
  | _ => none

/-- A number names something that a fence with this mask waits for: an operation of the strand in a masked engine, or a
drop post when bit 0 is set [14 R230]. -/
def fenceNames (s : State) (eng : BitVec 5) (n : Nat) : Prop :=
  (∃ o ∈ s.now.ops, o.id = n ∧ o.sid = s.old.id ∧
    (match o.kind with
     | .copy _ => eng.getLsbD 4
     | .gather _ _ _ _ _ _ | .scatter _ _ _ _ _ _ => eng.getLsbD 3
     | .drainMem _ _ _ _ | .drainAdd _ _ _ _ _ _ _ => eng.getLsbD 2
     | .coll _ _ _ _ _ _ => eng.getLsbD 1) = true) ∨
  (eng.getLsbD 0 = true ∧ ∃ q ∈ s.now.sigs, q.id = n ∧ q.ask = .drop ∧ q.sid = s.old.id)

/-- The clasp words that need a bound clasp pass their checks, and every executing lane's clasp is bound [14 R236-R239]. -/
def claspsBound (s : State) (h : Hdr) (a : GReg) : Prop :=
  let ea : LaneId → W64 := fun l => (s.src l).rpair a
  let c := s.claspCheck (s.exec h) ea fun _ ps => some (s.now.claspScope ps)
  c.1 = none ∧ s.exec h ≠ 0 ∧ ∀ x ∈ c.2, (s.now.clasp? (keyOf x.2)).isSome = true

/-- Each executing lane with the key of its clasp. -/
def claspKeys (s : State) (h : Hdr) (a : GReg) : List (LaneId × Nat) :=
  (oksOf (s.accessLanes (s.exec h) .atomic (fun l => (s.src l).rpair a) 8)).map fun x => (x.1, keyOf x.2)

/-- The bindings that a CLASP.BIND makes, in lane order [14 R238]. -/
def bindsOf (s : State) (h : Hdr) (a b : GReg) : List Bind :=
  (oksOf (s.accessLanes (s.exec h) .atomic (fun l => (s.src l).rpair a) 8)).filterMap fun x =>
    match (oksOf ((lanesOf (s.exec h)).map fun l =>
        (l, s.seen.access s.old (s.src l).lastPage .write (bindBase (s.src l) b).toNat (bindLen (s.src l) b)))).find? fun y => y.1 == x.1,
      bindScope (s.src x.1) b with
    | some y, some sc => some { lane := x.1, key := keyOf x.2, runs := runsOf y.2, scope := sc, pad := y.2.any fun p => p.x.isNone }
    | _, _ => none

/-- A BIND passes its checks in every lane [14 R236-R238]. -/
def bindAllowed (s : State) (h : Hdr) (a b : GReg) : Prop :=
  (s.claspCheck (s.exec h) (fun l => (s.src l).rpair a) fun l _ => bindScope (s.src l) b).1 = none ∧
  failsOf ((lanesOf (s.exec h)).map fun l =>
    (l, s.seen.access s.old (s.src l).lastPage .write (bindBase (s.src l) b).toNat (bindLen (s.src l) b))) = [] ∧
  (s.now.bindLanes s.storeOwner (bindsOf s h a b)).2 = []

/-- A lane reports a watch: a triggered one, or in deterministic mode any [14 R243; 22 R345]. -/
def reportsWatch (x : Lane) (det : Bool) : Prop := ∃ w, x.watch = some w ∧ (w.hit = true ∨ det = true)

/-- A pre-emption dropped the watch of an executing lane, and no executing lane holds one [14 R244]. -/
def watchesDropped (s : State) (h : Hdr) : Prop :=
  (∃ l, s.runsIn h l ∧ (s.lane l).monDrop = true) ∧ ∀ l, s.runsIn h l → (s.lane l).watch = none

end Sys2Proof.Claims

/-- LD completes when its lanes' addresses are aligned and reachable: one result sets out that will write the loaded
registers of every executing lane, each lane's bytes being those of memory at its address; nothing arrives yet
[06 R114, R116; 01 R16]. -/
def Obligations.LoadSetsOut : Prop :=
  ∀ h d a o sz s, s.acts h = true → reachable s h .read (szBytes sz) (fun l => s.eaN a o (szBytes sz) (s.src l)) (szBytes sz) = true →
    plainMemory s (runKeys (reachedRuns s h .read (fun l => s.eaN a o (szBytes sz) (s.src l)) (szBytes sz))) →
    ∃ t f, exec (.ld h d a o sz) s = .next t ∧ launches s t f ∧ sameMemory s t ∧ f.kind = .memory ∧ f.fill = .ld d sz ∧
      f.lanes = s.exec h ∧ f.waits = 0 ∧
      (∀ l, s.runsIn h l → ∃ rs, (l, rs) ∈ reachedRuns s h .read (fun l => s.eaN a o (szBytes sz) (s.src l)) (szBytes sz) ∧
        (l, Mem.readRuns s.now.mem rs) ∈ f.bufs) ∧
      (∀ l, s.runsIn h l → Dest.g l d ∈ f.marks ∧ (sz = .w64 ∨ sz = .w128 → Dest.g l (d.plus 1) ∈ f.marks) ∧
        (sz = .w128 → Dest.g l (d.plus 2) ∈ f.marks ∧ Dest.g l (d.plus 3) ∈ f.marks))

/-- A memory result whose replies are all there arrives: its flight is gone, and each lane's destination holds the loaded
bytes extended as the size says, the atomic's old value, the uniform word, or the signet that HLD took; HST's quad is empty
where the signet went to memory; a lane that a load's flight does not name is unchanged [01 R16; 04 R78; 06 R114; 14 R232;
19 R305]. -/
def Obligations.MemoryResultArrives : Prop :=
  ∀ sid fid (s : State) (st : Strand) (f : Flight), s.now.strand? sid = some st → st.flight? fid = some f → f.kind = .memory →
    f.waits = 0 → f.writes = [] → f.fp = [] → (f.bufs.map Prod.fst).Nodup →
    (st.live.all fun x => match x.2.st with
      | .parked (.entry _) _ => false
      | _ => true) = true →
    ∃ t u, exec (.memoryResultArrival sid fid) s = .next t ∧ t.now.strand? sid = some u ∧
      (∀ g ∈ u.flights, g.id ≠ fid) ∧ sameMemory s t ∧
      (∀ d sz, f.fill = .ld d sz → (∀ x ∈ f.bufs, x.2.length = szBytes sz) → (sz = .w64 → d.val % 2 = 0) →
        (sz = .w128 → d.val % 4 = 0) → ∀ x ∈ f.bufs, loadDelivers (u.lane x.1) d sz x.2) ∧
      (∀ d wide, f.fill = .old d wide → (∀ x ∈ f.bufs, x.2.length = if wide then 8 else 4) → (wide = true → d.val % 2 = 0) →
        ∀ x ∈ f.bufs, if wide then zPair (u.lane x.1) d = ofBytes x.2 else ((u.lane x.1).rg d).toNat = ofBytes x.2) ∧
      (∀ k l bs, f.fill = .kld k → f.bufs = [(l, bs)] → bs.length = 4 → (u.rk k).toNat = ofBytes bs) ∧
      (∀ x, f.fill = .hld x → x.val % 4 = 0 → (∀ y ∈ f.bufs, y.2.length = 16) → ∀ y ∈ f.bufs, zQuad (u.lane y.1) x = ofBytes y.2) ∧
      (∀ x, f.fill = .hst x → x.val % 4 = 0 → ∀ y ∈ f.bufs, y.2 = [1] → zQuad (u.lane y.1) x = 0) ∧
      (∀ d sz, f.fill = .ld d sz → ∀ l, l ∉ f.bufs.map Prod.fst → u.lane l = st.lane l)

/-- ST completes when its lanes' addresses are aligned and reachable: memory takes every lane's bytes in ascending lane
order, the form's width of them where the lane's own access reaches; every other byte reads as before [06 R114, R116,
R117]. -/
def Obligations.StoreWritesItsBytes : Prop :=
  ∀ h d a o sz s, s.memOk →
    reachable s h .write (szBytes sz) (fun l => s.eaN a o (szBytes sz) (s.src l)) (szBytes sz) = true →
    plainMemory s (runKeys (reachedRuns s h .write (fun l => s.eaN a o (szBytes sz) (s.src l)) (szBytes sz))) →
    ∃ t, exec (.st h d a o sz) s = .next t ∧
      t.now.mem = (reachedRuns s h .write (fun l => s.eaN a o (szBytes sz) (s.src l)) (szBytes sz)).foldl
        (fun m x => Mem.writeRuns m x.2 (lowBytes (szBytes sz) (zQuad (s.src x.1) d))) s.now.mem ∧
      (∀ k, (∀ x ∈ reachedRuns s h .write (fun l => s.eaN a o (szBytes sz) (s.src l)) (szBytes sz), ∀ r ∈ x.2,
          ¬ (r.key ≤ k ∧ k < r.key + r.len)) → Mem.get t.now.mem k = Mem.get s.now.mem k) ∧
      t.now.focus.k = s.now.focus.k ∧ t.now.focus.flags = s.now.focus.flags ∧ t.now.focus.flights = s.now.focus.flights ∧
      ∀ l, (t.lane l).g = (s.lane l).g ∧ (t.lane l).p = (s.lane l).p ∧ (t.lane l).m = (s.lane l).m

/-- PFETCH completes with no effect at all [06 R118]. -/
def Sys2Proof.Claims.prefetchHasNoEffect : Prop := ∀ h a o s, exec (.pfetch h a o) s = .next s

/-- EARLYGO marks every executing lane and changes nothing else of it; NOP does nothing, SCP and LIT only supply the next word's
order and scope or its value; PFETCH has no effect [02 R31, R32, R39; 06 R104, R118]. -/
def Obligations.NopAndPrefixes : Prop :=
  Sys2Proof.Claims.earlygoMarks ∧ Sys2Proof.Claims.nopAndPrefixes ∧ Sys2Proof.Claims.prefetchHasNoEffect

/-- LD, ST, MONITOR and AWT with an executing lane whose address is no multiple of the access size raise alignment (0x05)
before any access: the fault names exactly those lanes and gives the address of the lowest [06 R115]. -/
def Sys2Proof.Claims.misalignedAccessTraps : Prop :=
  ∀ i s h acc n ea len, laneAccess i = some (h, acc, n, ea, len) → (∃ l, s.runsIn h l ∧ (ea s l).toNat % n ≠ 0) →
    ∃ lanes, (∀ l, hasLane lanes l = true ↔ s.runsIn h l ∧ (ea s l).toNat % n ≠ 0) ∧
      exec i s = .next (s.trap (Trap.user 0x05 lanes (ea s (lowLane lanes))))

/-- LD, ST, MONITOR and AWT with aligned addresses of which some can not be reached raise the fault of the lowest failing
lane; it names the lanes that fail with the same code and reason, and nothing is written [13 R208, R212; 21 R333]. -/
def Sys2Proof.Claims.unreachableAccessTraps : Prop :=
  ∀ i s h acc n ea len l e, laneAccess i = some (h, acc, n, ea, len) → (∀ l, s.runsIn h l → (ea s l).toNat % n = 0) →
    (failsOf (s.accessLanes (s.exec h) acc (ea s) len)).head? = some (l, e) →
    ∃ lanes, exec i s = .next (s.trap (e.trap acc lanes 0)) ∧
      ∀ k, hasLane lanes k = true ↔ ∃ g, (k, g) ∈ failsOf (s.accessLanes (s.exec h) acc (ea s) len) ∧ g.code = e.code ∧ g.reason = e.reason

/-- LD, ST, MONITOR and AWT with a misaligned lane raise alignment (0x05) for exactly those lanes, with the address of the lowest;
with aligned addresses that can not all be reached they raise the lowest failing lane's fault for the lanes that fail alike
[06 R115; 13 R208, R212; 21 R333]. -/
def Obligations.AccessFaults : Prop := Sys2Proof.Claims.misalignedAccessTraps ∧ Sys2Proof.Claims.unreachableAccessTraps

/-- KLD and KST complete, once, at an aligned address that can be reached: KLD sets out the word at the address for its
uniform register, KST stores its register's four bytes; with no executing lane neither does anything [04 R61, R78]. -/
def Obligations.UniformLoadStore : Prop :=
  ∀ (h : Hdr) (d a : KReg) (o : Fin 16) (s : State),
    (s.acts h = false → exec (.kld h d a o) s = .next s ∧ exec (.kst h d a o) s = .next s) ∧
    (∀ ps p, s.acts h = true → (s.eaK a o).toNat % 4 = 0 → s.seen.access s.old none .read (s.eaK a o).toNat 4 = .ok ps →
      plainMemory s [(0, keyOf ps)] → ps = [p] →
      ∃ t f l, exec (.kld h d a o) s = .next t ∧ launches s t f ∧ sameMemory s t ∧ f.kind = .memory ∧ f.fill = .kld d ∧
        f.marks = [.k d] ∧ f.bufs = [(l, Mem.read s.now.mem p.run.key p.run.len)]) ∧
    (∀ ps p, s.acts h = true → (s.eaK a o).toNat % 4 = 0 → s.seen.access s.old none .write (s.eaK a o).toNat 4 = .ok ps →
      plainMemory s [(0, keyOf ps)] → ps = [p] → p.run.len = 4 →
      ∃ t, exec (.kst h d a o) s = .next t ∧ t.now.mem = Mem.write s.now.mem p.run.key (lowBytes 4 (s.old.rk d).toNat) ∧
        t.now.focus.k = s.now.focus.k ∧ t.now.focus.flags = s.now.focus.flags)

/-- The fourteen atomic words complete when every check passes: the lanes' operations act on memory one after the other in
ascending order, each leaving what its operation says, and a result sets out that will give every lane its old value
[14 R232, R233]. -/
def Obligations.AtomicWords : Prop :=
  ∀ i s h d a b op, atomicRule i = some (h, d, a, b, op) → s.acts h = true → atomicAllowed s h a op →
    plainMemory s (reachedKeys s h .atomic (fun l => asPair (s.src l) a) (if wideAtomic op then 8 else 4)) →
    ∃ t f, exec i s = .next t ∧ launches s t f ∧ f.kind = .memory ∧ f.fill = .old d (wideAtomic op) ∧ f.lanes = s.exec h ∧
      t.now.mem = (atomicsOn op (atomicArg s op b) (atomicArg s op d) s.now.mem
        (reachedKeys s h .atomic (fun l => asPair (s.src l) a) (if wideAtomic op then 8 else 4))).1 ∧
      f.bufs.map (fun x => (x.1, ofBytes x.2)) = (atomicsOn op (atomicArg s op b) (atomicArg s op d) s.now.mem
        (reachedKeys s h .atomic (fun l => asPair (s.src l) a) (if wideAtomic op then 8 else 4))).2

/-- A fence that acts parks its fragment exactly while an operation or post that its mask names is outstanding, and waits
for all of those; otherwise it does nothing [14 R230]. -/
def Sys2Proof.Claims.fencesWaitForMaskedEngines : Prop :=
  ∀ i s h eng, fenceRule i = some (h, eng) →
    ((s.acts h = true ∧ ∃ n, fenceNames s eng n) → ∃ ops, exec i s = .next (s.setWait (.fence ops)) ∧ ∀ n, n ∈ ops ↔ fenceNames s eng n) ∧
    (¬ (s.acts h = true ∧ ∃ n, fenceNames s eng n) → exec i s = .next s)

/-- CLASP.ACQ, CLASP.REL and CLASP.TRY on bound clasps complete: an acquire makes each lane see everything published so
far, or parks while a release is in progress; a release publishes the lane's writes at a new position of the clasp order
and is in progress; a try never parks [14 R239, R240]. -/
def Sys2Proof.Claims.claspWords : Prop :=
  ∀ (h : Hdr) (a : GReg) (s : State), claspsBound s h a →
    (s.now.releasing (claspKeys s h a) = false → ∃ t, exec (.claspAcq h a) s = .next t ∧
      ∀ x ∈ claspKeys s h a, ∃ c, t.now.clasp? x.2 = some c ∧ c.view (partyOf s.old x.1) = c.order) ∧
    (s.now.releasing (claspKeys s h a) = true → ∃ t, exec (.claspAcq h a) s = .next t ∧
      t.iss.wait = some (.claspAcq (s.exec h) (claspKeys s h a))) ∧
    (∃ t, exec (.claspRel h a) s = .next t ∧ ∀ x ∈ claspKeys s h a, ∃ c c', s.now.clasp? x.2 = some c ∧ t.now.clasp? x.2 = some c' ∧
      c.order < c'.order ∧ c'.unpublished (partyOf s.old x.1) = [] ∧ ∃ r ∈ c'.rels, r.party = partyOf s.old x.1) ∧
    (∀ pd, pd ≠ 7 → ∃ t f, exec (.claspTry h a pd) s = .next t ∧ t.iss = s.iss ∧ f ∈ t.now.focus.flights ∧ f.kind = .memory ∧
      ∀ x ∈ claspKeys s h a, RegWrite.p x.1 pd (!s.now.releasing [x]) ∈ f.writes ∧ Dest.p x.1 pd ∈ f.marks)

/-- CLASP.BIND and CLASP.UNBIND at system level complete when their checks pass: a bind binds each lane's range at its
scope with the clasp's count at 0; an unbind with no release in progress removes each lane's binding, and with one parks
the fragment [14 R237, R238; 01 R11]. -/
def Sys2Proof.Claims.claspBindings : Prop :=
  ∀ (h : Hdr) (a : GReg) (s : State), s.sys = true →
    (∀ b, bindAllowed s h a b → ∃ t, exec (.claspBind h a b) s = .next t ∧
      (∀ x ∈ bindsOf s h a b, ∃ c, t.now.clasp? x.key = some c ∧ c.runs = x.runs ∧ c.scope = x.scope ∧ c.order = 0 ∧ c.rels = []) ∧
      ∀ x, bindsOf s h a b = [x] → s.memOk → peerOf x.key = none → (∀ r ∈ s.now.regions, r.hotbase = 0) →
        (∀ c ∈ t.now.clasps, ∀ r ∈ c.runs, ¬ (r.key < x.key + 8 ∧ x.key < r.key + r.len)) → Mem.num t.now.mem x.key 8 = 0) ∧
    (claspsBound s h a → s.now.releasing (claspKeys s h a) = false → ∃ t, exec (.claspUnbind h a) s = .next t ∧
      ∀ x ∈ claspKeys s h a, t.now.clasp? x.2 = none) ∧
    (claspsBound s h a → s.now.releasing (claspKeys s h a) = true → ∃ t, exec (.claspUnbind h a) s = .next t ∧
      t.iss.wait = some (.unbind (claspKeys s h a)))

/-- On bound clasps an acquire makes each lane see everything published so far, or parks while a release is in progress; a release
publishes the lane's writes; a try never parks. At system level BIND binds each lane's range at its scope with a count of 0,
and UNBIND removes the binding or parks [14 R236-R240; 01 R11]. -/
def Obligations.ClaspWords : Prop := Sys2Proof.Claims.claspWords ∧ Sys2Proof.Claims.claspBindings

/-- MONITOR, MCANCEL and MWAIT complete: MONITOR arms each executing lane's watch on its 128-byte line, untriggered;
MCANCEL disarms; MWAIT returns at once for a zero timeout or when a watch has been triggered, with each lane's predicate
telling whether its own was, or true where a pre-emption dropped the watches, and otherwise parks [14 R242-R244]. -/
def Obligations.MonitorWords : Prop :=
  ∀ (h : Hdr) (a : GReg) (pd : PReg) (s : State),
    (reachable s h .read 1 (fun l => asPair (s.src l) a) 1 = true → ∃ t, exec (.monitor h a) s = .next t ∧
      ∀ x ∈ reachedKeys s h .read (fun l => asPair (s.src l) a) 1,
        (t.lane x.1).watch = some { line := x.2 - x.2 % 128, hit := false }) ∧
    (∃ t, exec (.mcancel h) s = .next t ∧ onlyLanes s t ∧ ∀ l, t.lane l = if hasLane (s.exec h) l then { s.lane l with watch := none } else s.lane l) ∧
    (s.acts h = true →
      (∀ l, s.runsIn h l → ((s.src (s.low h)).rg a) = 0 ∨ ∃ k, s.runsIn h k ∧ ∃ w, (s.lane k).watch = some w ∧ w.hit = true) →
      ∃ t, exec (.mwait h a pd) s = .next t ∧ t.iss = s.iss ∧ ∀ l, s.runsIn h l →
        (pd ≠ 7 → ((t.lane l).rp pd = true ↔ watchesDropped s h ∨ reportsWatch (s.lane l) s.now.focus.det)) ∧
        (t.lane l).watch = if (s.lane l).reports s.now.focus.det then none else (s.lane l).watch) ∧
    (s.acts h = true → (s.src (s.low h)).rg a ≠ 0 → s.now.mwaitNow s.now.focus (s.exec h) = false →
      ∃ t n, exec (.mwait h a pd) s = .next t ∧ t.iss.wait = some (.mwait (s.exec h) pd n))

/-- BAR, ARRV and AWT complete: BAR that acts parks its fragment; ARRV adds each lane's value to its counter modulo 2^64;
AWT goes on at once when every counter has reached its target, and otherwise parks with its counters and targets
[14 R246, R247]. -/
def Sys2Proof.Claims.barrierAndCounters : Prop :=
  ∀ (h : Hdr) (a b : GReg) (scope : Scope) (s : State),
    (s.acts h = true → exec (.bar h) s = .next (s.setWait .bar)) ∧ (s.acts h = false → exec (.bar h) s = .next s) ∧
    ((∀ l, s.runsIn h l → zPair (s.src l) a % 8 = 0) →
      failsOf (withClass scope true (fun l => asPair (s.src l) a) (s.accessLanes (s.exec h) .atomic (fun l => asPair (s.src l) a) 8)) = [] →
      plainMemory s (reachedKeys s h .atomic (fun l => asPair (s.src l) a) 8) →
      ∃ t, exec (.arrv h a b scope) s = .next t ∧
        t.now.mem = (reachedKeys s h .atomic (fun l => asPair (s.src l) a) 8).foldl
          (fun m x => Mem.write m x.2 (lowBytes 8 (Mem.num m x.2 8 + ((s.src x.1).rg b).toNat))) s.now.mem ∧
        ∀ l, (t.lane l).g = (s.lane l).g) ∧
    (s.acts h = true → reachable s h .read 8 (fun l => asPair (s.src l) a) 8 = true →
      plainMemory s (reachedKeys s h .read (fun l => asPair (s.src l) a) 8) →
      ((∀ x ∈ reachedKeys s h .read (fun l => asPair (s.src l) a) 8, ((s.src x.1).rg b).toNat ≤ Mem.num s.now.mem x.2 8) →
        ∃ t, exec (.awt h a b scope) s = .next t ∧ t.iss = s.iss ∧ sameMemory s t) ∧
      ((∃ x ∈ reachedKeys s h .read (fun l => asPair (s.src l) a) 8, Mem.num s.now.mem x.2 8 < ((s.src x.1).rg b).toNat) →
        ∃ t, exec (.awt h a b scope) s = .next t ∧
          t.iss.wait = some (.awt (s.exec h) ((reachedKeys s h .read (fun l => asPair (s.src l) a) 8).map fun x =>
            (x.1, x.2, ((s.src x.1).rg b).toNat)))))

/-- A fence parks its fragment exactly while an operation or a post that its mask names is outstanding. BAR parks; ARRV adds to its
counters modulo 2^64; AWT goes on when every counter has reached its target and parks otherwise [14 R230, R246, R247]. -/
def Obligations.BarriersAndFences : Prop := Sys2Proof.Claims.fencesWaitForMaskedEngines ∧ Sys2Proof.Claims.barrierAndCounters

namespace Sys2Proof.Claims
open Sys2Proof.Machine

/-! ### Matrix words -/

/-- What a matrix word does in a lane: its header; when its checks pass; what becomes pending; the sources that it
releases; and the writes, flags and exception code that it delivers [07 R122-R128; 08 R139, R140]. -/
structure MatRule where
  h     : Hdr
  ok    : Lane → Prop
  dests : LaneId → List Dest
  last  : List MReg
  res   : LaneId → Lane → List RegWrite → W32 → Nat → Prop

/-- Every one of these registers names a live handle. -/
def liveAll (x : Lane) (ms : List MReg) : Prop := ∀ m ∈ ms, (x.rm m).isSome = true

def rowsOf (x : Lane) (m : MReg) : Nat := (x.hnd m).rows
def colsOf (x : Lane) (m : MReg) : Nat := (x.hnd m).cols
def widthOf (x : Lane) (m : MReg) : EW := (x.hnd m).w
def bitsOf (x : Lane) (m : MReg) : Nat := ewBits (x.hnd m).w

/-- Two handles have one shape. -/
def sameDims (x : Lane) (a b : MReg) : Prop := rowsOf x a = rowsOf x b ∧ colsOf x a = colsOf x b

/-- A format code is defined for a handle's width [07 R121]. -/
def fmOk (x : Lane) (m : MReg) (fm : Nat) : Prop := (fmTy (widthOf x m) fm).isSome = true

/-- The format of a handle's elements, where the code is defined [07 R121]. -/
def fmOf (x : Lane) (m : MReg) (fm : Nat) : ElTy := (fmTy (widthOf x m) fm).getD (.flt Fmt.f32)

/-- The blocks of a handle [07 R120]. -/
def blocksIn (x : Lane) (m : MReg) : Nat := (rowsOf x m * colsOf x m * bitsOf x m + 511) / 512

/-- The sources that are marked last use. -/
def marked (ms : List (Bool × MReg)) : List MReg := (ms.filter fun x => x.1).map Prod.snd

/-- A handle keeps its shape and width; element (i, j) is what `f` gives, and the flags are the OR of what it raises
[07 R124; 08 R140]. -/
def byPlace (hd r : Handle) (fl : W32) (f : Nat → Nat → W32 × W32) : Prop :=
  r.rows = hd.rows ∧ r.cols = hd.cols ∧ r.w = hd.w ∧
  (∀ i j, i < hd.rows → j < hd.cols → r.at i j = (f i j).1) ∧
  ∀ b, fl.getLsbD b = true ↔ ∃ i j, i < hd.rows ∧ j < hd.cols ∧ (f i j).2.getLsbD b = true

/-- A handle's elements are those of a source, one by one. -/
def byElement (hd ha r : Handle) (fl : W32) (f : W32 → W32 × W32) : Prop :=
  r.rows = hd.rows ∧ r.cols = hd.cols ∧ r.w = hd.w ∧ r.els = ha.els.map (fun e => (f e).1) ∧
  ∀ b, fl.getLsbD b = true ↔ ∃ e ∈ ha.els, (f e).2.getLsbD b = true

/-- A lane writes one handle with what holds of it, and raises no exception. -/
def oneHandle (d : MReg) (p : Lane → Handle → W32 → Prop) : LaneId → Lane → List RegWrite → W32 → Nat → Prop :=
  fun l x ws fl e => e = 0 ∧ ∃ r, ws = [.m l d (some r)] ∧ p x r fl

/-- A lane writes one g register. -/
def oneReg (g : GReg) (f : Lane → W32) : LaneId → Lane → List RegWrite → W32 → Nat → Prop :=
  fun l x ws fl e => e = 0 ∧ fl = 0 ∧ ws = [.g l g (f x)]

/-- The low w bits of a value. -/
def lowOf (w : Nat) (v : W32) : W32 := BitVec.ofNat 32 (v.toNat % 2 ^ w)

/-- A number modulo 2^w, as an element. -/
def elemOf (w : Nat) (n : Int) : W32 := BitVec.ofInt 32 (n % 2 ^ w)

/-- An integer element's number. -/
def elemInt (signed : Bool) (w : Nat) (e : W32) : Int :=
  if signed = true ∧ 2 ^ (w - 1) ≤ e.toNat % 2 ^ w then (e.toNat % 2 ^ w : Int) - 2 ^ w else (e.toNat % 2 ^ w : Nat)

/-- NV. -/
def nvIf (b : Bool) : W32 := if b then 16 else 0

/-- The negation of an element [07 R137]. -/
def negated (t : ElTy) (e : W32) : W32 × W32 :=
  match t with
  | .flt f => if (f.val e.toNat).isNan then (BitVec.ofNat 32 f.qnan, flagIf (f.val e.toNat).isSnan flagNV)
              else (e ^^^ BitVec.ofNat 32 (2 ^ (f.width - 1)), 0)
  | .int s w => (elemOf w (-elemInt s w e), 0)

/-- The sum or the difference of two elements [08 R148]: exact modulo 2^w, or rounded once. -/
def summed (t : ElTy) (minus : Bool) (a b : W32) : W32 × W32 :=
  match t with
  | .flt f => pat32 (addVals f (f.val a.toNat) (if minus then negVal (f.val b.toNat) else f.val b.toNat))
  | .int s w => (elemOf w (if minus then elemInt s w a - elemInt s w b else elemInt s w a + elemInt s w b), 0)

/-- The product of two elements [08 R148]. -/
def multiplied (t : ElTy) (a b : W32) : W32 × W32 :=
  match t with
  | .flt f => mulInto f (f.val a.toNat) (f.val b.toNat)
  | .int s w => (elemOf w (elemInt s w a * elemInt s w b), 0)

/-- The larger of two elements: under the rules of FMAX, or as integers [08 R148]. -/
def larger (t : ElTy) (a b : W32) : W32 × W32 :=
  match t with
  | .flt _ => maxEl t a b
  | .int s w => (if elemInt s w b ≤ elemInt s w a then a else b, 0)

/-- A word of two handles [07 R136]: its rule from its further check and its result. -/
def twoHandles (h : Hdr) (d a : MReg) (la : Bool) (ok : Lane → Prop) (p : Lane → Handle → W32 → Prop) : MatRule :=
  { h := h, ok := fun x => liveAll x [d, a] ∧ ok x, dests := fun l => [.m l d], last := marked [(la, a)], res := oneHandle d p }

/-- A word of three handles of one shape, width and format [08 R148]. -/
def threeHandles (h : Hdr) (d a b : MReg) (la lb : Bool) (fm : Nat) (f : ElTy → W32 → W32 → W32 × W32) : MatRule :=
  { h := h
    ok := fun x => liveAll x [d, a, b] ∧ sameDims x d a ∧ sameDims x b a ∧ widthOf x d = widthOf x a ∧
      widthOf x b = widthOf x a ∧ fmOk x a fm
    dests := fun l => [.m l d], last := marked [(la, a), (lb, b)]
    res := oneHandle d fun x r fl => byPlace (x.hnd d) r fl fun i j => f (fmOf x a fm) ((x.hnd a).at i j) ((x.hnd b).at i j) }

/-- The row and the column that an index names [07 R135]. -/
def rowAt (v : W32) : Nat := v.toNat / 16 % 16
def colAt (v : W32) : Nat := v.toNat % 16

/-- The words of the element path, with the blocks that their timing counts [07 R134-R138; 08 R148-R151; 10 R196]. -/
def elementRule : Instr → Option (MatRule × (Lane → Nat))
  | .mfill h d g => some ({ h := h, ok := fun x => liveAll x [d], dests := fun l => [.m l d], last := []
                            res := oneHandle d fun x r fl => byPlace (x.hnd d) r fl fun _ _ => (lowOf (bitsOf x d) (x.rg g), 0) },
      fun x => blocksIn x d)
  | .mget h a g la => some ({ h := h, ok := fun x => liveAll x [a] ∧ rowAt (x.rg g) < rowsOf x a ∧ colAt (x.rg g) < colsOf x a
                              dests := fun l => [.g l g], last := marked [(la, a)]
                              res := oneReg g fun x => (x.hnd a).at (rowAt (x.rg g)) (colAt (x.rg g)) }, fun x => blocksIn x a)
  | .mput h d g => some ({ h := h
                           ok := fun x => liveAll x [d] ∧ rowAt (x.rg (g.plus 1)) < rowsOf x d ∧ colAt (x.rg (g.plus 1)) < colsOf x d
                           dests := fun l => [.m l d], last := []
                           res := oneHandle d fun x r fl => byPlace (x.hnd d) r fl fun i j =>
                             (if i = rowAt (x.rg (g.plus 1)) ∧ j = colAt (x.rg (g.plus 1)) then lowOf (bitsOf x d) (x.rg g)
                              else (x.hnd d).at i j, 0) }, fun x => blocksIn x d)
  | .mshape h a g la => some ({ h := h, ok := fun x => liveAll x [a], dests := fun l => [.g l g], last := marked [(la, a)]
                                res := oneReg g fun x => BitVec.ofNat 32 (rowsOf x a + 2 ^ 8 * colsOf x a +
                                  2 ^ 16 * (Nat.log2 (bitsOf x a) - 2) + 2 ^ 24 * blocksIn x a) }, fun x => blocksIn x a)
  | .mtrn h d a la => some (twoHandles h d a la
      (fun x => rowsOf x d = colsOf x a ∧ colsOf x d = rowsOf x a ∧ widthOf x d = widthOf x a)
      (fun x r fl => byPlace (x.hnd d) r fl fun i j => ((x.hnd a).at j i, 0)), fun x => max (blocksIn x d) (blocksIn x a))
  | .mneg h d a la fm => some (twoHandles h d a la
      (fun x => sameDims x d a ∧ widthOf x d = widthOf x a ∧ fmOk x a fm.val)
      (fun x r fl => byElement (x.hnd d) (x.hnd a) r fl (negated (fmOf x a fm.val))), fun x => max (blocksIn x d) (blocksIn x a))
  | .mcvt h d a sfm rnd la fm => some (twoHandles h d a la
      (fun x => sameDims x d a ∧ fmOk x a sfm.val ∧ fmOk x d fm.val)
      (fun x r fl => byElement (x.hnd d) (x.hnd a) r fl fun e =>
        pat32 (convertEl (fmOf x a sfm.val) (fmOf x d fm.val) rnd e.toNat)), fun x => max (blocksIn x d) (blocksIn x a))
  | .mcopy h d a la => some (twoHandles h d a la (fun x => sameDims x d a ∧ widthOf x d = widthOf x a)
      (fun x r fl => byElement (x.hnd d) (x.hnd a) r fl fun e => (e, 0)), fun x => max (blocksIn x d) (blocksIn x a))
  | .mreshape h d a la => some (twoHandles h d a la
      (fun x => rowsOf x d * colsOf x d * bitsOf x d = rowsOf x a * colsOf x a * bitsOf x a)
      (fun x r fl => r.rows = rowsOf x d ∧ r.cols = colsOf x d ∧ r.w = widthOf x d ∧ fl = 0 ∧
        ∀ n b, n < rowsOf x d * colsOf x d → b < bitsOf x d →
          (r.els.getD n 0).getLsbD b = (x.hnd a).bits.testBit (bitsOf x d * n + b)), fun x => max (blocksIn x d) (blocksIn x a))
  | .mscale h d a g la => some (twoHandles h d a la
      (fun x => sameDims x d a ∧ widthOf x d = widthOf x a ∧ ∃ f, fmTy (widthOf x a) ((x.rg (g.plus 1)).toNat % 4) = some (.flt f))
      (fun x r fl => ∀ f, fmTy (widthOf x a) ((x.rg (g.plus 1)).toNat % 4) = some (.flt f) →
        byElement (x.hnd d) (x.hnd a) r fl fun e => mulInto f (f.val e.toNat) (f32 (x.rg g))),
      fun x => max (blocksIn x d) (blocksIn x a))
  | .madd h d a b la lb fm => some (threeHandles h d a b la lb fm.val fun t => summed t false, fun x => max (blocksIn x d) (blocksIn x a))
  | .msub h d a b la lb fm => some (threeHandles h d a b la lb fm.val fun t => summed t true, fun x => max (blocksIn x d) (blocksIn x a))
  | .mhad h d a b la lb fm => some (threeHandles h d a b la lb fm.val multiplied, fun x => max (blocksIn x d) (blocksIn x a))
  | .mmax h d a b la lb fm => some (threeHandles h d a b la lb fm.val larger, fun x => max (blocksIn x d) (blocksIn x a))
  | .mquant h d a g la => some (twoHandles h d a la
      (fun x => sameDims x d a ∧ widthOf x a = .w32 ∧ fmOk x d ((x.rg g).toNat / 2 ^ 8 % 4))
      (fun x r fl => byElement (x.hnd d) (x.hnd a) r fl (quantEl (fmOf x d ((x.rg g).toNat / 2 ^ 8 % 4)) (x.rg g))),
      fun x => max (blocksIn x d) (blocksIn x a))
  | .msacc h d a g la => some (twoHandles h d a la
      (fun x => sameDims x d a ∧ widthOf x d = .w32 ∧ widthOf x a = .w32 ∧ (x.rg g).toNat / 2 ^ 8 % 4 < 2)
      (fun x r fl => byPlace (x.hnd d) r fl fun i j => saccEl (x.rg g) ((x.hnd a).at i j) ((x.hnd d).at i j)),
      fun x => max (blocksIn x d) (blocksIn x a))
  | _ => none

/-- The flight that a matrix word sends out in the next state: every executing lane's destinations are pending and its
writes, flags and exception are on their way; no register has changed yet, but the handles that it releases are empty;
memory, uniform registers and flags stay [01 R16; 07 R128; 08 R140]. -/
def matrixSetsOut (s t : State) (r : MatRule) (f : Flight) : Prop :=
  f ∈ t.now.focus.flights ∧ f.id = s.now.seq + 1 ∧ f.isM = true ∧ f.lanes = s.exec r.h ∧
  (∀ l, s.runsIn r.h l → (∀ x ∈ r.dests l, x ∈ f.marks) ∧ ∃ ws fl e, r.res l (s.src l) ws fl e ∧ (∀ w ∈ ws, w ∈ f.writes) ∧
    (fl ≠ 0 → (l, fl) ∈ f.fp) ∧ (e ≠ 0 → (l, e) ∈ f.mx)) ∧
  (∀ l, (t.lane l).g = (s.lane l).g ∧ (t.lane l).p = (s.lane l).p ∧
    ∀ m, (t.lane l).rm m = if hasLane (s.exec r.h) l = true ∧ m ∈ r.last then none else (s.lane l).rm m) ∧
  t.now.focus.k = s.now.focus.k ∧ t.now.focus.flags = s.now.focus.flags ∧ sameMemory s t

/-- The sum of a number over the executing lanes. -/
def overLanes (s : State) (h : Hdr) (f : Lane → Nat) : Nat := ((takers s h).map fun l => f (s.src l)).sum

/-! ### The cell array -/

/-- The three multiplies: header, destination, sources, marks, format, m-k-n of a lane, and elements x(i,t), y(t,j)
[08 R142-R144]. -/
structure MulRule where
  h    : Hdr
  d    : MReg
  a    : MReg
  b    : MReg
  c    : MReg
  last : List MReg
  fm   : Nat
  dims : Lane → Nat × Nat × Nat
  kb   : Lane → Nat
  x    : Lane → Nat → Nat → W32
  y    : Lane → Nat → Nat → W32

def multiplyRule : Instr → Option MulRule
  | .mmul h d a b c la lb fm => some
      { h := h, d := d, a := a, b := b, c := c, last := marked [(la, a), (lb, b)], fm := fm.val
        dims := fun x => (rowsOf x a, colsOf x a, colsOf x b), kb := fun x => rowsOf x b
        x := fun x i t => (x.hnd a).at i t, y := fun x t j => (x.hnd b).at t j }
  | .mmult h d a b c la lb fm => some
      { h := h, d := d, a := a, b := b, c := c, last := marked [(la, a), (lb, b)], fm := fm.val
        dims := fun x => (rowsOf x a, colsOf x a, rowsOf x b), kb := fun x => colsOf x b
        x := fun x i t => (x.hnd a).at i t, y := fun x t j => (x.hnd b).at j t }
  | .mtmul h d a b c la lb fm => some
      { h := h, d := d, a := a, b := b, c := c, last := marked [(la, a), (lb, b)], fm := fm.val
        dims := fun x => (colsOf x a, rowsOf x a, colsOf x b), kb := fun x => rowsOf x b
        x := fun x i t => (x.hnd a).at t i, y := fun x t j => (x.hnd b).at t j }
  | _ => none

/-- A multiply's checks pass in a lane [08 R143]: live handles, matching shapes, 32-bit accumulators, one multiplicand
width with a defined format, and dimensions up to 16, for FP32 multiplicands up to 8. -/
def MulRule.ok (r : MulRule) (x : Lane) : Prop :=
  liveAll x [r.d, r.a, r.b, r.c] ∧ r.kb x = (r.dims x).2.1 ∧
  rowsOf x r.d = (r.dims x).1 ∧ colsOf x r.d = (r.dims x).2.2 ∧ rowsOf x r.c = (r.dims x).1 ∧ colsOf x r.c = (r.dims x).2.2 ∧
  widthOf x r.b = widthOf x r.a ∧ widthOf x r.d = .w32 ∧ widthOf x r.c = .w32 ∧ fmOk x r.a r.fm ∧
  ¬ (widthOf x r.a = .w32 ∧ r.fm = 1) ∧
  ∀ m ∈ [r.a, r.b], ∀ lim, lim = (if widthOf x r.a = .w32 then 8 else 16) → rowsOf x m ≤ lim ∧ colsOf x m ≤ lim

/-- One element of a product [08 R144]: an exact integer sum modulo 2^32, or the window sum of the exact products and the
addend. -/
def productEl (t : ElTy) (k : Nat) (x y : Nat → W32) (c : W32) : W32 × W32 :=
  match t with
  | .int s w => (BitVec.ofInt 32 (((List.range k).map fun u => elemInt s w (x u) * elemInt s w (y u)).sum + c.toInt), 0)
  | .flt f => windowDot ((List.range k).map fun u => (f.val (x u).toNat, f.val (y u).toNat)) (f32 c)

/-- The rule of a multiply as a matrix word. -/
def MulRule.toRule (r : MulRule) : MatRule :=
  { h := r.h, ok := r.ok, dests := fun l => [.m l r.d], last := r.last
    res := oneHandle r.d fun x h fl => byPlace (x.hnd r.d) h fl fun i j =>
      productEl (fmOf x r.a r.fm) (r.dims x).2.1 (r.x x i) (fun u => r.y x u j) ((x.hnd r.c).at i j) }

/-- The checks of an n x n word [08 R152]. -/
def squareOk (d a : MReg) (x : Lane) : Prop :=
  liveAll x [d, a] ∧ rowsOf x a = colsOf x a ∧ sameDims x d a ∧ widthOf x d = .w32 ∧ widthOf x a = .w32 ∧ rowsOf x a ≤ 8

/-- A lane that gets a matrix, or stops at a matrix exception and writes nothing [08 R154]. -/
def orException (code : Nat) (d : MReg) (f : Lane → Option (List W32 × W32)) : LaneId → Lane → List RegWrite → W32 → Nat → Prop :=
  fun l x ws fl e => match f x with
    | none => ws = [] ∧ fl = 0 ∧ e = code
    | some r => ws = [.m l d (some { x.hnd d with els := r.1 })] ∧ fl = r.2 ∧ e = 0

/-- The other words of the cell array, with their pipeline depth [08 R155-R161; 10 R189]. -/
def cellRule : Instr → Option (MatRule × Nat)
  | .minv h d a la => some ({ h := h, ok := squareOk d a, dests := fun l => [.m l d], last := marked [(la, a)]
                              res := orException 0x08 d fun x => invOf (x.hnd a) }, 16)
  | .mchol h d a la => some ({ h := h, ok := squareOk d a, dests := fun l => [.m l d], last := marked [(la, a)]
                               res := orException 0x09 d fun x => (cholOf (x.hnd a)).map fun w => (w.els, w.fl) }, 20)
  | .mlu h d a b la => some ({ h := h
                               ok := fun x => squareOk d a x ∧ liveAll x [b] ∧ rowsOf x b = 1 ∧ colsOf x b = rowsOf x a ∧ widthOf x b = .w32
                               dests := fun l => [.m l d, .m l b], last := marked [(la, a)]
                               res := fun l x ws fl e =>
                                 match luOf (rowsOf x a) ((Work.make (rowsOf x a) (rowsOf x a) (x.hnd a).at).canonical (rowsOf x a)) with
                                 | none => ws = [] ∧ fl = 0 ∧ e = 0x08
                                 | some r => ws = [.m l d (some { x.hnd d with els := r.w.els }),
                                     .m l b (some { x.hnd b with els := r.perm.map fun i => BitVec.ofNat 32 i })] ∧ fl = r.w.fl ∧ e = 0 }, 16)
  | .mtrsv h d a b unit up la lb => some ({ h := h
                                            ok := fun x => liveAll x [d, a, b] ∧ rowsOf x a = colsOf x a ∧ rowsOf x b = rowsOf x a ∧
                                              rowsOf x d = rowsOf x a ∧ colsOf x d = colsOf x b ∧ widthOf x d = .w32 ∧
                                              widthOf x a = .w32 ∧ widthOf x b = .w32 ∧ rowsOf x a ≤ 8 ∧ colsOf x b ≤ 8
                                            dests := fun l => [.m l d], last := marked [(la, a), (lb, b)]
                                            res := orException 0x08 d fun x =>
                                              if unit = false ∧ ∃ i < rowsOf x a, (x.hnd a).at i i &&& 0x7FFFFFFF = 0 then none
                                              else some ((trsv up unit (rowsOf x a) (colsOf x b) (x.hnd a).at (x.hnd b).at).els,
                                                (trsv up unit (rowsOf x a) (colsOf x b) (x.hnd a).at (x.hnd b).at).fl) }, 16)
  | .mht h d a fm la blk => some ({ h := h
                                    ok := fun x => liveAll x [d, a] ∧ sameDims x d a ∧ widthOf x d = widthOf x a ∧ fmOk x a fm.val ∧
                                      rowsOf x a * colsOf x a % htLen blk = 0
                                    dests := fun l => [.m l d], last := marked [(la, a)]
                                    res := oneHandle d fun x r fl => (r, fl) = htResult (x.hnd d) (x.hnd a) (fmOf x a fm.val) (htLen blk) }, 10)
  | _ => none

/-- MEXP's rule [08 R159, R160]. -/
def expRule (h : Hdr) (d a : MReg) (la : Bool) : MatRule :=
  { h := h, ok := squareOk d a, dests := fun l => [.m l d], last := marked [(la, a)]
    res := orException 0x08 d fun x => expOf (x.hnd a) }

end Sys2Proof.Claims

/-- The sixteen words of the element path complete when their checks pass: a flight sets out that will write every
executing lane's result, with the flags that its elements raise, 8 cycles and an eighth of the blocks later; the path is
busy until then but for the 8; a word with no executing lane does nothing [07 R134-R138; 08 R140, R148-R151; 10 R196]. -/
def Obligations.MatrixElementWords : Prop :=
  ∀ i s r blocks, elementRule i = some (r, blocks) → (∀ l, s.runsIn r.h l → r.ok (s.src l)) →
    (s.acts r.h = false → exec i s = .next s) ∧
    (s.acts r.h = true → ∃ t f, exec i s = .next t ∧ matrixSetsOut s t r f ∧ f.kind = .element ∧
      f.due = s.now.cycle + 8 + (overLanes s r.h blocks + 7) / 8 ∧ (f.due, Instr.elementPathCompletion s.old.id f.id) ∈ t.now.agenda ∧
      (0 < overLanes s r.h blocks →
        (t.now.quad s.old.core s.old.quad).elemBusy = some (s.now.cycle + (overLanes s r.h blocks + 7) / 8)))

/-- MMUL, MMULT and MTMUL complete when their checks pass: a flight sets out that will write the product and the addend's
sum in every executing lane; lanes of one shape share the 32 cells, so the result is there 12 cycles after a thirty-second
of their work [08 R142-R144; 10 R189, R192]. -/
def Sys2Proof.Claims.matrixMultiply : Prop :=
  ∀ i s r, multiplyRule i = some r → (∀ l, s.runsIn r.h l → r.ok (s.src l)) →
    (s.acts r.h = false → exec i s = .next s) ∧
    (s.acts r.h = true → ∃ t f n, exec i s = .next t ∧ matrixSetsOut s t r.toRule f ∧ f.kind = .cell true false (12 + n) n ∧
      f.due = s.now.cycle + 12 + n ∧ (f.due, Instr.cellWordPassEnd s.old.id f.id) ∈ t.now.agenda ∧
      ((∀ l k, s.runsIn r.h l → s.runsIn r.h k → r.dims (s.src l) = r.dims (s.src k) ∧ widthOf (s.src l) r.a = widthOf (s.src k) r.a) →
        n = (overLanes s r.h (fun x => ((r.dims x).1 * (r.dims x).2.1 * (r.dims x).2.2 + cellRate (widthOf x r.a) - 1) /
          cellRate (widthOf x r.a)) + 31) / 32))

/-- MINV, MLU, MCHOL, MTRSV, MHT and MEXP complete when their checks pass: each executing lane's matrix, or its matrix
exception with nothing written, is on its way [08 R152-R161; 10 R194]. -/
def Sys2Proof.Claims.matrixFactorisations : Prop :=
  (∀ i s r depth, cellRule i = some (r, depth) → (∀ l, s.runsIn r.h l → r.ok (s.src l)) →
    (s.acts r.h = false → exec i s = .next s) ∧
    (s.acts r.h = true → ∃ t f n, exec i s = .next t ∧ matrixSetsOut s t r f ∧ f.kind = .cell false false (depth + n) n ∧
      f.due = s.now.cycle + depth + n ∧ (f.due, Instr.cellWordPassEnd s.old.id f.id) ∈ t.now.agenda)) ∧
  (∀ h d a la s, (∀ l, s.runsIn h l → squareOk d a (s.src l)) →
    (s.acts h = false → exec (.mexp h d a la) s = .next s) ∧
    (s.acts h = true → ∃ t f n rest, exec (.mexp h d a la) s = .next t ∧ matrixSetsOut s t (expRule h d a la) f ∧
      f.kind = .mexp [n] rest ∧ 3 ≤ rest.length ∧ f.due = s.now.cycle + n ∧
      (f.due, Instr.mexpPassEnd s.old.id f.id) ∈ t.now.agenda))

/-- MMUL, MMULT and MTMUL send out the product and the addend's sum in every executing lane, after 12 cycles and a thirty-second of
their work; MINV, MLU, MCHOL, MTRSV, MHT and MEXP send out each lane's matrix, or its matrix exception with nothing written
[08 R142-R144, R152-R161; 10 R189, R192, R194]. -/
def Obligations.ArrayWords : Prop := Sys2Proof.Claims.matrixMultiply ∧ Sys2Proof.Claims.matrixFactorisations

namespace Sys2Proof.Claims
open Sys2Proof.Machine

/-! ### Acquiring and releasing handles -/

/-- A handle whose elements are all zero [07 R126]. -/
def zeroOf (r c : Fin 16) (ew : EW) : Handle :=
  { rows := r.val + 1, cols := c.val + 1, w := ew, els := List.replicate ((r.val + 1) * (c.val + 1)) 0 }

/-- The blocks that a MACQ asks for: those of each executing lane's handle, together [07 R120, R126]. -/
def asked (s : State) (h : Hdr) (r c : Fin 16) (ew : EW) : Nat :=
  (takers s h).length * (((r.val + 1) * (c.val + 1) * ewBits ew + 511) / 512)

/-- MACQ and MACQ.try: header, destination, shape, width, success predicate. -/
def acquireRule : Instr → Option (Hdr × MReg × Fin 16 × Fin 16 × EW × Option PReg)
  | .macq h d r c ew => some (h, d, r, c, ew, none)
  | .macqTry h d r c ew pd => some (h, d, r, c, ew, some pd)
  | _ => none

/-- The quadrant of the issuing strand. -/
def myQuad (s : State) (d : Dev) : Quad := d.quad s.old.core s.old.quad

/-- The blocks are available: the lesser of the free blocks and of what the budgets leave covers them [07 R126]. -/
def blocksThere (s : State) (n : Nat) : Prop := n ≤ (myQuad s s.now).free ∧ n ≤ s.now.blockBudget s.old.region

/-- The reserve covers a request that is not available: the eldest strand's, with the reserve unheld [09 R180]. -/
def reserveThere (s : State) (n : Nat) : Prop :=
  s.now.isEldest s.old = true ∧ (myQuad s s.now).holder = none ∧ n ≤ (myQuad s s.now).free + (myQuad s s.now).reserve

/-- The handles are granted: live and zero in the executing lanes, pending until the arrival in a given cycle, with the
success bit if there is one; every other handle and every register stays [07 R126; 10 R196]. -/
def granted (s t : State) (h : Hdr) (d : MReg) (z : Handle) (pd : Option PReg) (due : Nat) : Prop :=
  ∃ f, f ∈ t.now.focus.flights ∧ f.kind = .macq ∧ f.due = due ∧ (due, Instr.macqArrival s.old.id f.id) ∈ t.now.agenda ∧
    (∀ l, s.runsIn h l → Dest.m l d ∈ f.marks ∧ ∀ p, pd = some p → RegWrite.p l p true ∈ f.writes ∧ (p ≠ 7 → Dest.p l p ∈ f.marks)) ∧
    ∀ l m, (t.lane l).g = (s.lane l).g ∧ (t.lane l).p = (s.lane l).p ∧
      (t.lane l).rm m = if hasLane (s.exec h) l = true ∧ m = d then some z else (s.lane l).rm m

/-- A key lies outside the fields that the scheduler keeps in the control blocks [17 R269]. -/
def outsideRcbs (s : State) (k : Nat) : Prop := ∀ r ∈ s.now.regions, ¬ (r.id + 168 ≤ k ∧ k < r.id + 256)

/-! ### Matrices in memory -/

/-- An address moved by a number of signed strides. -/
def strideFrom (base : W64) (k : Nat) (stride : W32) : Nat := (BitVec.ofInt 64 (base.toNat + k * stride.toInt)).toNat

/-- The lines of a dense form: addresses and bytes [07 R130]. -/
def linesOf (form : MatForm) (x : Lane) (m : MReg) (base : W64) (stride : W32) : List (Nat × Nat) :=
  match form with
  | .row => (List.range (rowsOf x m)).map fun k => (strideFrom base k stride, colsOf x m * bitsOf x m / 8)
  | .col => (List.range (colsOf x m)).map fun k => (strideFrom base k stride, rowsOf x m * bitsOf x m / 8)
  | .bcast => [(base.toNat, colsOf x m * bitsOf x m / 8)]
  | .sparse => []

/-- The dense loads and stores: header, handle, address pair, form, stride register, last use, and whether it loads
[07 R129]. -/
def denseRule : Instr → Option (Hdr × MReg × GReg × MatForm × Option GReg × Bool × Bool)
  | .mldRow h d a b => some (h, d, a, .row, some b, false, true)
  | .mldCol h d a b => some (h, d, a, .col, some b, false, true)
  | .mldBcast h d a => some (h, d, a, .bcast, none, false, true)
  | .mstRow h d a b lw => some (h, d, a, .row, some b, lw, false)
  | .mstCol h d a b lw => some (h, d, a, .col, some b, lw, false)
  | _ => none

/-- The stride of a lane. -/
def strideIn (x : Lane) (b : Option GReg) : W32 := match b with
  | some b => x.rg b
  | none => 0

/-- The checks of a dense matrix access in a lane pass: a live handle, lines of whole bytes, a base and a stride aligned to
the element [07 R122, R130]. -/
def denseOk (x : Lane) (d : MReg) (a : GReg) (form : MatForm) (b : Option GReg) : Prop :=
  liveAll x [d] ∧ (if form = .col then rowsOf x d else colsOf x d) * bitsOf x d % 8 = 0 ∧
  (8 ∣ bitsOf x d → zPair x a % (bitsOf x d / 8) = 0 ∧ (strideIn x b).toNat % (bitsOf x d / 8) = 0)

/-- Every executing lane's lines are reached, as `ps` says; what they reach is plain memory of this device. -/
def linesReached (s : State) (h : Hdr) (acc : Access) (lines : LaneId → List (Nat × Nat)) (ps : LaneId → List Piece) : Prop :=
  (∀ l, s.runsIn h l → s.seen.accessLines s.old (s.src l).lastPage acc (lines l) = .ok (ps l) ∧
    ∀ r ∈ runsOf (ps l), peerOf r.key = none) ∧
  s.now.clasps = [] ∧ ∀ r ∈ s.now.regions, r.hotbase = 0

/-- Elements packed into a line of whole bytes, the first in the lowest bits [07 R130]. -/
def lineBytes (w : Nat) (els : List W32) : List Byte :=
  lowBytes (els.length * w / 8) ((els.zipIdx.map fun x => x.1.toNat % 2 ^ w * 2 ^ (w * x.2)).sum)

/-- The bytes that a dense store writes, line by line [07 R130]. -/
def denseImage (form : MatForm) (x : Lane) (m : MReg) : List Byte :=
  match form with
  | .col => (List.range (colsOf x m)).flatMap fun j => lineBytes (bitsOf x m) ((List.range (rowsOf x m)).map fun i => (x.hnd m).at i j)
  | _ => (List.range (rowsOf x m)).flatMap fun i => lineBytes (bitsOf x m) ((List.range (colsOf x m)).map fun j => (x.hnd m).at i j)

/-- The registers, predicates, uniform registers and flags are as before; the handles too, but for released ones. -/
def keepsLanes (s t : State) (h : Hdr) (last : List MReg) : Prop :=
  t.now.focus.k = s.now.focus.k ∧ t.now.focus.flags = s.now.focus.flags ∧
  ∀ l, (t.lane l).g = (s.lane l).g ∧ (t.lane l).p = (s.lane l).p ∧
    ∀ m, (t.lane l).rm m = if hasLane (s.exec h) l = true ∧ m ∈ last then none else (s.lane l).rm m

/-- A word of the access queue is outstanding with this flight. -/
def queued (s t : State) (f : Flight) : Prop :=
  f ∈ t.now.focus.flights ∧ f.id = s.now.seq + 1 ∧ f.isM = true ∧
  (t.now.quad s.now.focus.core s.now.focus.quad).accessN = (s.now.quad s.now.focus.core s.now.focus.quad).accessN + 1

/-- Element (i, j) of a dense load, from the bytes of its lines [07 R130]. -/
def loadedAt (form : MatForm) (rows cols w : Nat) (bs : List Byte) (i j : Nat) : Nat :=
  let n := match form with
    | .col => j * rows + i
    | .bcast => j
    | .row | .sparse => i * cols + j
  ofBytes bs / 2 ^ (w * n) % 2 ^ w

/-! ### The casket -/

/-- The words that add into, write or read the casket: header, handle, base, stride, item, whether it adds, fin
[13 R219, R220]. -/
def casketRule : Instr → Option (Hdr × MReg × GReg × GReg × CasOp × Bool × Bool)
  | .caccAdd h d a b fin => some (h, d, a, b, .addF, true, fin)
  | .caccIadd h d a b fin => some (h, d, a, b, .addI, true, fin)
  | .caccWrite h d a b fin => some (h, d, a, b, .write, true, fin)
  | .cld h d a b => some (h, d, a, b, .read, false, false)
  | .cldClr h d a b => some (h, d, a, b, .readClr, false, false)
  | _ => none

/-- The casket address of element (i, j) [13 R220]. -/
def casketAt (x : Lane) (a b : GReg) (i j : Nat) : Int := ((x.rg a).toNat : Int) + i * (x.rg b).toInt + 4 * j

/-- A bank of a core is open to a task. -/
def bankOf (k : Core) (task bank : Nat) : Prop :=
  ∃ r ∈ k.banks, r.task = task ∧ r.closing = false ∧ r.first ≤ bank ∧ bank < r.first + r.n

/-- A casket word's checks pass in a lane: a live 32-bit handle, an aligned base and stride, every element in a bank of the
task [13 R220]. -/
def casketOk (s : State) (l : LaneId) (d : MReg) (a b : GReg) : Prop :=
  liveAll (s.src l) [d] ∧ widthOf (s.src l) d = .w32 ∧ ((s.src l).rg a).toNat % 4 = 0 ∧ ((s.src l).rg b).toNat % 4 = 0 ∧
  ∀ i j, i < rowsOf (s.src l) d → j < colsOf (s.src l) d →
    0 ≤ casketAt (s.src l) a b i j ∧ casketAt (s.src l) a b i j < 2 ^ 22 ∧
    bankOf (s.now.core s.old.core) (s.old.laneTask l) ((casketAt (s.src l) a b i j).toNat / 2 ^ 16)

/-- The items of a casket word: lanes ascending, elements row by row [13 R220, R221]. -/
def casketList (s : State) (h : Hdr) (d : MReg) (a b : GReg) : List CasItem :=
  (takers s h).flatMap fun l => (List.range (rowsOf (s.src l) d)).flatMap fun i => (List.range (colsOf (s.src l) d)).map fun j =>
    { lane := l, n := i * colsOf (s.src l) d + j, addr := (casketAt (s.src l) a b i j).toNat, v := ((s.src l).hnd d).at i j }

/-- What an item leaves in its casket word [13 R220]. -/
def casketLeaves (op : CasOp) (old v : Nat) : Nat :=
  match op with
  | .addF => (fadd (BitVec.ofNat 32 old) (BitVec.ofNat 32 v)).1.toNat
  | .addI => (old + v) % 2 ^ 32
  | .write => v
  | .read => old
  | .readClr => 0

/-- The 32-bit word of a core's casket at an address. -/
def casketWordAt (d : Dev) (c : Fin 256) (a : Nat) : Nat := Mem.num d.mem (Key.casket c a) 4

/-- No fragment of a strand waits to enter a handler. -/
def noEntry (st : Strand) : Prop :=
  ∀ x ∈ st.live, match x.2.st with
    | .parked (.entry _) _ => False
    | _ => True

end Sys2Proof.Claims

/-- MACQ and MACQ.try complete: with the blocks available, or for the eldest strand with the reserve, the handles are live
and zero, the quadrant's counts fall, and the arrival is 4 cycles and an eighth of the blocks later; otherwise MACQ waits
for its blocks and MACQ.try reports false 4 cycles later [07 R125, R126; 09 R179, R180; 10 R196]. -/
def Sys2Proof.Claims.matrixAcquire : Prop :=
  ∀ i s h d r c ew pd n, acquireRule i = some (h, d, r, c, ew, pd) → n = asked s h r c ew → s.acts h = true →
    s.frag.grant = 0 ∨ pd.isSome = true → (∀ l, s.runsIn h l → (s.src l).rm d = none) →
    (blocksThere s n → ∃ t, exec i s = .next t ∧ granted s t h d (zeroOf r c ew) pd (s.now.cycle + 4 + (n + 7) / 8) ∧
      (myQuad s t.now).free = (myQuad s s.now).free - n ∧ (myQuad s t.now).reserve = (myQuad s s.now).reserve) ∧
    (¬ blocksThere s n → reserveThere s n →
      ∃ t, exec i s = .next t ∧ granted s t h d (zeroOf r c ew) pd (s.now.cycle + 4 + (n + 7) / 8) ∧
        (myQuad s t.now).free + (myQuad s t.now).reserve + n = (myQuad s s.now).free + (myQuad s s.now).reserve ∧
        (myQuad s t.now).holder = some s.old.id ∧ (myQuad s t.now).h0 = s.old.holding) ∧
    (¬ blocksThere s n → ¬ reserveThere s n → pd = none → exec i s = .next (s.setBlock (.macq n))) ∧
    (∀ p, ¬ blocksThere s n → ¬ reserveThere s n → pd = some p → ∃ t f, exec i s = .next t ∧ f ∈ t.now.focus.flights ∧
      f.kind = .macqFail ∧ f.due = s.now.cycle + 4 ∧ (f.due, Instr.macqTryFailArrival s.old.id f.id) ∈ t.now.agenda ∧
      (∀ l, s.runsIn h l → RegWrite.p l p false ∈ f.writes) ∧ keepsLanes s t h [])

/-- A MACQ whose blocks were granted while its fragment was parked completes without asking again, and what merged fragments
were granted beyond them comes back. MREL empties its
handle in the executing lanes at once, and the blocks that no earlier word still reads come back to the quadrant. MACQ of a
live handle and MREL of an empty one raise matrix handle (0x07), with reasons 2 and 1 [07 R122, R127; 09 R179]. -/
def Sys2Proof.Claims.matrixGrantAndRelease : Prop :=
  (∀ h d r c ew s f n m, n = asked s h r c ew → s.acts h = true → s.frag.grant = m + 1 → n ≤ m →
    (∀ l, s.runsIn h l → (s.src l).rm d = none) →
    s.now.focus.frag s.iss.slot = some f →
    ∃ t g, exec (.macq h d r c ew) s = .next t ∧
      granted s t h d (zeroOf r c ew) none (max s.now.cycle (s.frag.grantAt + 4 + (n + 7) / 8)) ∧
      (myQuad s t.now).free + (myQuad s t.now).reserve = (myQuad s s.now).free + (myQuad s s.now).reserve + (m - n) ∧
      t.fragNow = some g ∧ g.grant = 0) ∧
  (∀ h d s, (∀ l, s.runsIn h l → ((s.src l).rm d).isSome = true) → (∀ f ∈ s.now.focus.flights, ∀ l, (l, d) ∉ f.reads) →
    ∃ t, exec (.mrel h d) s = .next t ∧ keepsLanes s t h [d] ∧
      (t.now.quad s.now.focus.core s.now.focus.quad).free + (t.now.quad s.now.focus.core s.now.focus.quad).reserve =
        (s.now.quad s.now.focus.core s.now.focus.quad).free + (s.now.quad s.now.focus.core s.now.focus.quad).reserve +
          ((takers s h).map fun l => (s.lane l).blocksOf d).sum) ∧
  (∀ i s h d r c ew pd, acquireRule i = some (h, d, r, c, ew, pd) → (∃ l, s.runsIn h l ∧ ((s.src l).rm d).isSome = true) →
    ∃ t, exec i s = .next (s.trap t) ∧ t.code = 0x07 ∧ t.reason = 2 ∧
      ∀ l, hasLane t.lanes l = true ↔ s.runsIn h l ∧ ((s.src l).rm d).isSome = true) ∧
  (∀ h d s, (∃ l, s.runsIn h l ∧ (s.src l).rm d = none) →
    ∃ t, exec (.mrel h d) s = .next (s.trap t) ∧ t.code = 0x07 ∧ t.reason = 1 ∧
      ∀ l, hasLane t.lanes l = true ↔ s.runsIn h l ∧ (s.src l).rm d = none)

/-- MACQ and MACQ.try take free blocks, the reserve for the eldest strand, or wait or report false; a granted MACQ completes without
asking again; MREL empties its handle and gives its blocks back; a live handle acquired, or an empty one released, raises
matrix handle (0x07) [07 R122, R125-R127; 09 R179, R180; 10 R196]. -/
def Obligations.MatrixBlocks : Prop := Sys2Proof.Claims.matrixAcquire ∧ Sys2Proof.Claims.matrixGrantAndRelease

/-- The matrix loads and stores complete when their checks pass. A load sends out the bytes of each lane's lines, with its
handle pending; a store writes the handle's elements as lines, lanes ascending, and every other byte but the scheduler's
own fields reads as before; a stored handle marked last use is released [07 R129-R133; 10 R188]. -/
def Obligations.MatrixMemory : Prop :=
  (∀ i s h d a form b lw ld ps, denseRule i = some (h, d, a, form, b, lw, ld) → s.memOk → s.acts h = true →
    (∀ l, s.runsIn h l → denseOk (s.src l) d a form b) →
    linesReached s h (if ld then .read else .write) (fun l => linesOf form (s.src l) d (asPair (s.src l) a) (strideIn (s.src l) b)) ps →
    ∃ t f, exec i s = .next t ∧ queued s t f ∧ f.kind = .access ∧ keepsLanes s t h (if lw then [d] else []) ∧
      (ld = true → f.fill = .mld d form ∧ f.waits = 0 ∧ sameMemory s t ∧
        ∀ l, s.runsIn h l → Dest.m l d ∈ f.marks ∧ (l, Mem.readRuns s.now.mem (runsOf (ps l))) ∈ f.bufs) ∧
      (ld = false → ∀ k, outsideRcbs s k → Mem.get t.now.mem k = Mem.get ((takers s h).foldl
        (fun m l => Mem.writeRuns m (runsOf (ps l)) (denseImage form (s.src l) d)) s.now.mem) k)) ∧
  (∀ h d a lw s ps, s.memOk → s.acts h = true → (∀ l, s.runsIn h l → liveAll (s.src l) [d] ∧ zPair (s.src l) a % 16 = 0) →
    linesReached s h .write (fun l => [(zPair (s.src l) a, (sparseImage (bitsOf (s.src l) d) 2 ((s.src l).hnd d).els).length)]) ps →
    ∃ t f, exec (.mstSparse h d a lw) s = .next t ∧ queued s t f ∧ f.kind = .access ∧ keepsLanes s t h (if lw then [d] else []) ∧
      ∀ k, outsideRcbs s k → Mem.get t.now.mem k = Mem.get ((takers s h).foldl
        (fun m l => Mem.writeRuns m (runsOf (ps l)) (sparseImage (bitsOf (s.src l) d) 2 ((s.src l).hnd d).els)) s.now.mem) k) ∧
  (∀ h d a s (x : LaneId → SparseRead), s.acts h = true → (∀ l, s.runsIn h l → liveAll (s.src l) [d] ∧ zPair (s.src l) a % 16 = 0) →
    (∀ l, s.runsIn h l → s.seen.sparseRead s.old (s.src l).lastPage s.frag.ahead (partyOf s.old l) (bitsOf (s.src l) d) 2 0
      (zPair (s.src l) a) ((s.src l).hnd d).els.length = .ok (x l) ∧ (x l).need = none ∧ (x l).bad = false) →
    (∀ r ∈ s.now.regions, r.hotbase = 0) →
    ∃ t f, exec (.mldSparse h d a) s = .next t ∧ queued s t f ∧ f.kind = .access ∧ f.fill = .mld d .sparse ∧ keepsLanes s t h [] ∧
      sameMemory s t ∧ ∀ l, s.runsIn h l → Dest.m l d ∈ f.marks ∧ (l, (x l).bytes) ∈ f.bufs)

/-- The casket's bank words complete: CALLOC of 1 to 64 banks within the budget takes the lowest run of free banks for the
task, zeroed, and sends out its number, or waits for one; any other count ends the task with 0x15. CFREE of a run of the
task that no casket word or drain uses frees it; a busy one closes and the fragment waits; any other number raises 0x14
[13 R217, R218; 21 R322]. -/
def Sys2Proof.Claims.casketBanks : Prop :=
  (∀ h d b s n, s.acts h = true → s.frag.bank = [] → n = ((s.src (s.low h)).rg b).toNat → 1 ≤ n → n ≤ 64 → n ≤ s.now.bankBudget s.old.region →
    (∀ first, (s.now.core s.old.core).findBanks n = some first →
      (∀ i, i < n → (s.now.core s.old.core).bankFree (first + i) = true) ∧
      (∀ lower, lower < first → ∃ i, i < n ∧ (s.now.core s.old.core).bankFree (lower + i) = false) ∧
      ∃ t f, exec (.calloc h d b) s = .next t ∧ queued s t f ∧ f.kind = .access ∧
        (∀ l, s.runsIn h l → RegWrite.g l d (BitVec.ofNat 32 first) ∈ f.writes ∧ Dest.g l d ∈ f.marks) ∧
        bankOf (t.now.core s.old.core) (s.old.laneTask (s.low h)) first ∧
        ∀ a, first * 2 ^ 16 ≤ a → a < (first + n) * 2 ^ 16 → Mem.get t.now.mem (Key.casket s.old.core a) = 0) ∧
    ((s.now.core s.old.core).findBanks n = none → exec (.calloc h d b) s = .next (s.setBlock (.calloc n (s.low h))))) ∧
  (∀ h d b s n, s.acts h = true → s.frag.bank = [] → n = ((s.src (s.low h)).rg b).toNat →
    (n = 0 ∨ 64 < n ∨ s.now.bankBudget s.old.region < n) →
    exec (.calloc h d b) s = .next (s.trap (Trap.user 0x15 (s.exec h) (BitVec.ofNat 64 n)))) ∧
  (∀ h a s run, s.acts h = true →
    (s.now.core s.old.core).banks.find? (fun r => r.first == ((s.src (s.low h)).rg a).toNat && r.task == s.old.laneTask (s.low h) && !r.closing) = some run →
    (s.now.banksBusy s.old.core run = false → ∃ t, exec (.cfree h a) s = .next t ∧
      ∀ r ∈ (t.now.core s.old.core).banks, r.first ≠ run.first) ∧
    (s.now.banksBusy s.old.core run = true → ∃ t fid, exec (.cfree h a) s = .next t ∧ t.iss.wait = some (.cfree run.first fid) ∧
      ∀ r ∈ (t.now.core s.old.core).banks, r.first = run.first → r.closing = true)) ∧
  (∀ h a s, s.acts h = true → (∀ r ∈ (s.now.core s.old.core).banks,
      ¬ (r.first = ((s.src (s.low h)).rg a).toNat ∧ r.task = s.old.laneTask (s.low h) ∧ r.closing = false)) →
    ∃ t, exec (.cfree h a) s = .next (s.trap t) ∧ t.code = 0x14 ∧ t.lanes = s.exec h ∧ t.info.toNat = ((s.src (s.low h)).rg a).toNat)

/-- CACC and CLD complete, outside deterministic mode or when their strand's turn has come, when every element lies in a
bank of the task: a flight with one item for each element, lanes ascending and elements row by row, is outstanding in the
access queue; CLD's handle is pending; nothing changes yet [13 R219-R221; 22 R346]. -/
def Sys2Proof.Claims.casketWords : Prop :=
  ∀ i s h d a b op adds fin, casketRule i = some (h, d, a, b, op, adds, fin) → s.acts h = true →
    (∀ l, s.runsIn h l → casketOk s l d a b) →
    (s.old.det = true → adds = true → ∀ x ∈ casketList s h d a b, s.old.fin.contains (x.addr / 2 ^ 16) = false ∧
      s.now.turnCame s.old (x.addr / 2 ^ 16) = true) →
    ∃ t f, exec i s = .next t ∧ queued s t f ∧ f.kind = .casket op d (casketList s h d a b) ∧ f.lanes = s.exec h ∧ f.waits = 0 ∧
      (adds = false → ∀ l, s.runsIn h l → Dest.m l d ∈ f.marks) ∧ keepsLanes s t h [] ∧ sameMemory s t ∧
      (fin = true → ∀ x ∈ casketList s h d a b, x.addr / 2 ^ 16 ∈ t.now.focus.fin)

/-- CALLOC takes the lowest run of free banks, zeroed, waits for one, or ends the task for a count it can not have; CFREE frees a run
or waits; CACC and CLD queue one item for each element, lanes ascending and elements row by row [13 R217-R221; 21 R322; 22
R346]. -/
def Obligations.CasketWords : Prop := Sys2Proof.Claims.casketBanks ∧ Sys2Proof.Claims.casketWords

namespace Sys2Proof.Claims
open Sys2Proof.Machine

/-! ### Engine words -/

/-- A pair, and a register, of the uniform file as the group reads it. -/
def kPair (s : State) (k : KReg) (n : Nat) : W64 :=
  BitVec.ofNat 64 ((s.old.rk (k.plus n)).toNat + 2 ^ 32 * (s.old.rk ((k.plus n).plus 1)).toNat)
def kNum (s : State) (k : KReg) (n : Nat) : Nat := (s.old.rk (k.plus n)).toNat

/-- What an engine word's descriptor says: its header, its engine context, its tag, whether it is well formed and passes
its own checks, the ranges that it reads and writes, its arrival counter with the increment, whether it moves nothing, and
the operation over the reached pieces [16 R250-R266]. -/
structure EngRule where
  h       : Hdr
  ctx     : EngCtx
  tag     : Option (Fin 64)
  ok      : State → Prop
  ranges  : State → List (Access × W64 × Nat)
  counter : State → Option (W64 × Nat)
  empty   : State → Prop
  kind    : State → List (List Piece) → EngKind

/-- A copy of one row or of several rows, `sp` and `dp` the pitches [16 R252, R253]. -/
def copyRule (h : Hdr) (tag : Fin 64) (src dst : State → W64) (sp dp : State → W64) (len rows : State → Nat) (ok : State → Prop)
    (counter : State → Option (W64 × Nat)) : EngRule :=
  let row (base pitch : W64) (i : Nat) : W64 := base + BitVec.ofNat 64 i * pitch
  { h := h, ctx := .copy, tag := some tag, ok := ok, counter := counter
    ranges := fun s => (List.range (rows s)).map (fun i => (Access.read, row (src s) (sp s) i, len s)) ++
      (List.range (rows s)).map fun i => (Access.write, row (dst s) (dp s) i, len s)
    empty := fun s => len s = 0 ∨ rows s = 0
    kind := fun s ps => .copy (((ps.take (rows s)).map runsOf).zip ((ps.drop (rows s)).map runsOf)) }

/-- A gather or a scatter: the table, the packed rows and the index list [16 R254]. -/
def indexRule (h : Hdr) (k : KReg) (tag : Fin 64) (scatter : Bool) : EngRule :=
  let len (s : State) : Nat := kNum s k 6 % 2 ^ 16
  let n (s : State) : Nat := kNum s k 6 / 2 ^ 16
  { h := h, ctx := .copy, tag := some tag, counter := fun _ => none
    ok := fun s => len s ≠ 0 ∧ (kPair s k 4).toNat % 4 = 0
    ranges := fun s => [(.read, kPair s k 4, 4 * n s), (if scatter then .write else .read, kPair s k 0, kNum s k 7 * len s),
      (if scatter then .read else .write, kPair s k 2, n s * len s)]
    empty := fun s => n s = 0
    kind := fun s ps =>
      if scatter then .scatter (len s) (n s) (kNum s k 7) (runsOf (ps.getD 0 [])) (runsOf (ps.getD 1 [])) (runsOf (ps.getD 2 []))
      else .gather (len s) (n s) (kNum s k 7) (runsOf (ps.getD 0 [])) (runsOf (ps.getD 1 [])) (runsOf (ps.getD 2 [])) }

/-- A collective: type, operation and arrival increment in its sixth register; the source and the destination hold one
chunk, or one for each participant [16 R265, R266]. -/
def collRule (h : Hdr) (k : KReg) (kind : CollKind) : EngRule :=
  let n (s : State) : Nat := kNum s k 4 * (if kNum s k 5 % 4 = 1 then 2 else 4)
  let all (s : State) : Nat := participants.length * n s
  { h := h, ctx := .coll, tag := none
    ok := fun s => kNum s k 5 % 4 ≠ 3 ∧ kNum s k 5 / 4 % 4 ≠ 3 ∧ kNum s k 5 / 16 % 2 ^ 12 = 0
    ranges := fun s => match kind with
      | .allreduce => [(.read, kPair s k 0, n s), (.write, kPair s k 2, n s)]
      | .reducescatter => [(.read, kPair s k 0, all s), (.write, kPair s k 2, n s)]
      | .allgather => [(.read, kPair s k 0, n s), (.write, kPair s k 2, all s)]
      | .alltoall => [(.read, kPair s k 0, all s), (.write, kPair s k 2, all s)]
    counter := fun s => if kNum s k 5 / 2 ^ 16 = 0 then none else some (kPair s k 6, kNum s k 5 / 2 ^ 16)
    empty := fun _ => False
    kind := fun s ps => .coll kind (kNum s k 4) (kNum s k 5 % 4) (kNum s k 5 / 4 % 4) (runsOf (ps.getD 0 [])) (runsOf (ps.getD 1 [])) }

/-- A bank of the issuing core that the issuing task owns [13 R217]. -/
def drainBanks (s : State) (h : Hdr) (k : KReg) : Prop :=
  1 ≤ kNum s k 2 / 64 % 128 ∧ kNum s k 2 / 64 % 128 ≤ 64 ∧
  ∀ i, i < kNum s k 2 / 64 % 128 → bankOf (s.now.core s.old.core) (s.old.laneTask (s.low h)) (kNum s k 2 % 64 + i)

/-- The engine words [16 R252-R254, R260, R265]. -/
def engineRule : Instr → Option EngRule
  | .cpy h k tag => some (copyRule h tag (fun s => kPair s k 0) (fun s => kPair s k 2) (fun _ => 0) (fun _ => 0)
      (fun s => kNum s k 4) (fun _ => 1) (fun _ => True) fun s => if kNum s k 5 = 0 then none else some (kPair s k 6, kNum s k 5))
  | .cpy2d h k tag => some (copyRule h tag (fun s => kPair s k 0) (fun s => kPair s k 2)
      (fun s => BitVec.ofInt 64 (s.old.rk (k.plus 6)).toInt) (fun s => BitVec.ofInt 64 (s.old.rk (k.plus 7)).toInt)
      (fun s => kNum s k 4) (fun s => kNum s k 5) (fun s => kNum s k 5 < 2 ^ 20) fun _ => none)
  | .cpyxGather h k tag => some (indexRule h k tag false)
  | .cpyxScatter h k tag => some (indexRule h k tag true)
  | .collAllreduce h k => some (collRule h k .allreduce)
  | .collReducescatter h k => some (collRule h k .reducescatter)
  | .collAllgather h k => some (collRule h k .allgather)
  | .collAlltoall h k => some (collRule h k .alltoall)
  | .cdrainMem h k => some
      { h := h, ctx := .drain, tag := none, counter := fun _ => none, empty := fun _ => False
        ok := fun s => kNum s k 2 < 2 ^ 14 ∧ kNum s k 3 = 0 ∧ (kPair s k 0).toNat % 4 = 0 ∧ drainBanks s h k
        ranges := fun s => [(.write, kPair s k 0, 65536 * (kNum s k 2 / 64 % 128))]
        kind := fun s ps => .drainMem (kNum s k 2 % 64) (kNum s k 2 / 64 % 128) ((s.old.rk (k.plus 2)).getLsbD 13) (runsOf (ps.getD 0 [])) }
  | .cdrainAdd h k => some
      { h := h, ctx := .drain, tag := none, counter := fun _ => none, empty := fun _ => False
        ok := fun s => kNum s k 2 < 2 ^ 15 ∧ kNum s k 3 = 0 ∧ (kPair s k 0).toNat < 2 ^ 26 ∧ drainBanks s h k ∧
          (kPair s k 0).toNat % 64 + kNum s k 2 / 64 % 128 ≤ 64
        ranges := fun _ => []
        kind := fun s _ => .drainAdd (kNum s k 2 % 64) (kNum s k 2 / 64 % 128) ((s.old.rk (k.plus 2)).getLsbD 13)
          ((s.old.rk (k.plus 2)).getLsbD 14) ((kPair s k 0).toNat % 64) (Fin.ofNat 256 ((kPair s k 0).toNat / 64))
          ((kPair s k 0).toNat / 2 ^ 14 % 4096) }
  | _ => none

/-- The word's checks pass, and `arr` is the arrival that its operation will make. -/
def engineChecked (r : EngRule) (s : State) (ps : List (List Piece)) (arr : Option Arrival) : Prop :=
  s.acts r.h = true ∧ r.ok s ∧ (∀ t, r.tag = some t → s.old.tagout.getLsbD t.val = false) ∧
  s.seen.engRanges s.old (r.ranges s) = .ok ps ∧
  match r.counter s with
  | none => arr = none
  | some (va, inc) => va.toNat % 8 = 0 ∧ ∃ cs, s.seen.engCounter s.old va = .ok cs ∧ arr = some { key := keyOf cs, inc := inc }

/-! ### Tags and timelines -/

/-- The tags that a tag word sees: the ready bits, or in deterministic mode those that a wait has observed [16 R259]. -/
def seenTags (s : State) : W64 := if s.old.det then s.old.observed else s.old.tagrdy

/-- A tag is ready or outstanding [16 R256]. -/
def knownTag (s : State) (i : Nat) : Prop := s.old.tagrdy.getLsbD i = true ∨ s.old.tagout.getLsbD i = true

/-- A number is the lowest tag of a set; 64 for the empty set. -/
def lowestTag (p : Nat → Prop) (n : Nat) : Prop := (n < 64 ∧ p n ∧ ∀ i, i < n → ¬ p i) ∨ (n = 64 ∧ ∀ i, i < 64 → ¬ p i)

/-- A result of a uniform word is on its way: its writes, and their arrival at some later cycle [16 R257, R264]. -/
def uniformLater (s t : State) (ws : List (KReg × W32)) : Prop :=
  ∃ f due, launches s t f ∧ f.kind = .memory ∧ f.waits = 0 ∧ f.writes = ws.map (fun x => .k x.1 x.2) ∧
    f.marks = ws.map (fun x => .k x.1) ∧ s.now.cycle < due ∧ (due, Instr.memoryResultArrival s.old.id f.id) ∈ t.now.agenda ∧ sameMemory s t

/-- The halves of a 64-bit value in a pair of uniform registers. -/
def pairOf (d : KReg) (v : Nat) : List (KReg × W32) := [(d, BitVec.ofNat 32 v), (d.plus 1, BitVec.ofNat 32 (v / 2 ^ 32))]

end Sys2Proof.Claims

/-- CPY, CPY2D, CPYX, COLL and CDRAIN that pass their checks are accepted: the operation takes the next number of its region's
timeline, its tag is outstanding and not ready, and what it does is what its descriptor says; one that moves nothing is
complete at once. A tag that is outstanding raises 0x19, and a full queue holds the group back [16 R250-R256, R260,
R263, R265]. -/
def Obligations.EngineWords : Prop :=
  (∀ i s r ps arr reg, engineRule i = some r → engineChecked r s ps arr → s.now.engineFull s.old.core = false →
    s.now.region? s.old.region = some reg → s.now.focus.id = s.old.id → s.old.id ≠ 0 → (∀ o ∈ s.now.ops, o.id ≤ s.now.seq) →
    ∃ t reg', exec i s = .next t ∧ t.now.region? s.old.region = some reg' ∧ (reg'.tl r.ctx).issued = (reg.tl r.ctx).issued + 1 ∧
      (∀ l, (t.lane l).g = (s.lane l).g ∧ (t.lane l).p = (s.lane l).p ∧ (t.lane l).m = (s.lane l).m) ∧ t.now.focus.k = s.now.focus.k ∧
      (¬ r.empty s → ∃ o ∈ t.now.ops, o.ctx = r.ctx ∧ o.num = (reg.tl r.ctx).issued + 1 ∧ o.region = s.old.region ∧ o.core = s.old.core ∧
        o.sid = s.old.id ∧ o.task = s.old.laneTask (s.low r.h) ∧ o.tag = r.tag ∧ o.kind = r.kind s ps ∧ o.arr = arr ∧ o.lanes = s.exec r.h ∧
        (∀ g, r.tag = some g → t.now.focus.tagout.getLsbD g.val = true ∧ t.now.focus.tagrdy.getLsbD g.val = false ∧
          t.now.focus.observed.getLsbD g.val = false) ∧
        (r.ctx = .copy → o.waits = 0 → ∃ due, s.now.cycle < due ∧ (due, Instr.copyCompletion o.id) ∈ t.now.agenda)) ∧
      (r.empty s → (∀ x ∈ t.now.ops, x ∈ s.now.ops) ∧
        (∀ g, r.tag = some g → t.now.focus.tagout.getLsbD g.val = false ∧ t.now.focus.tagrdy.getLsbD g.val = true) ∧
        ((reg.tl r.ctx).done = (reg.tl r.ctx).issued → (reg.tl r.ctx).issued + 1 ≤ (reg'.tl r.ctx).done))) ∧
  (∀ i s r g, engineRule i = some r → s.acts r.h = true → r.tag = some g → s.old.tagout.getLsbD g.val = true →
    ∃ t, exec i s = .next (s.trap t) ∧ t.code = 0x19 ∧ t.lanes = s.exec r.h) ∧
  (∀ i s r ps arr, engineRule i = some r → engineChecked r s ps arr → s.now.engineFull s.old.core = true →
    exec i s = .next (s.setBlock .engineFull)) ∧
  (∀ i s r, engineRule i = some r → s.acts r.h = false → exec i s = .next s)

/-- The tag and timeline words complete. A WTANY or WTALL whose tags are ready, as the group found them, returns and observes
them, and parks its fragment otherwise; a mask without a known tag, or with an unknown one, raises 0x19. TFIRST and TTEST send out the lowest
tag, or the tags, that are seen. TLWAIT returns when its number is complete and parks otherwise; TLREAD sends out the
completed count [16 R257-R259, R264]. -/
def Obligations.TagWords : Prop :=
  ∀ (h : Hdr) (k d : KReg) (ctx : EngCtx) (s : State),
    (s.acts h = false → ∀ i ∈ [Instr.wtany h k, .wtall h k, .tfirst h k d, .ttest h k d, .tlwait h ctx k, .tlread h ctx k], exec i s = .next s) ∧
    (s.acts h = true →
      ((∀ i, i < 64 → (kPair s k 0).getLsbD i = true → knownTag s i) →
        ((∀ i, i < 64 → (kPair s k 0).getLsbD i = true → s.old.tagrdy.getLsbD i = true) →
          ∃ t, exec (.wtall h k) s = .next t ∧ t.iss = s.iss ∧ sameMemory s t ∧
            t.now.focus = { s.now.focus with observed := t.now.focus.observed } ∧
            ∀ i, t.now.focus.observed.getLsbD i = (s.now.focus.observed.getLsbD i || (kPair s k 0).getLsbD i && s.old.tagrdy.getLsbD i)) ∧
        ((∃ i, i < 64 ∧ (kPair s k 0).getLsbD i = true ∧ s.old.tagrdy.getLsbD i = false) →
          exec (.wtall h k) s = .next (s.setWait (.wtall (kPair s k 0))))) ∧
      (∀ want : W64, (∃ i, i < 64 ∧ (kPair s k 0).getLsbD i = true ∧ knownTag s i) → (s.old.det = false → want = kPair s k 0) →
        (s.old.det = true → ∃ n, lowestTag (fun i => (kPair s k 0).getLsbD i = true ∧ knownTag s i) n ∧ want = BitVec.twoPow 64 n) →
        ((∃ i, i < 64 ∧ want.getLsbD i = true ∧ s.old.tagrdy.getLsbD i = true) →
          ∃ t, exec (.wtany h k) s = .next t ∧ t.iss = s.iss ∧ sameMemory s t ∧
            ∀ i, t.now.focus.observed.getLsbD i = (s.now.focus.observed.getLsbD i || want.getLsbD i && s.old.tagrdy.getLsbD i)) ∧
        ((∀ i, i < 64 → want.getLsbD i = true → s.old.tagrdy.getLsbD i = false) →
          exec (.wtany h k) s = .next (s.setWait (.wtany want)))) ∧
      ((∃ i, i < 64 ∧ (kPair s k 0).getLsbD i = true ∧ ¬ knownTag s i) → ∃ t, exec (.wtall h k) s = .next (s.trap t) ∧ t.code = 0x19) ∧
      ((∀ i, i < 64 → (kPair s k 0).getLsbD i = true → ¬ knownTag s i) → ∃ t, exec (.wtany h k) s = .next (s.trap t) ∧ t.code = 0x19) ∧
      (∃ t n, exec (.tfirst h k d) s = .next t ∧ lowestTag (fun i => (kPair s k 0).getLsbD i = true ∧ (seenTags s).getLsbD i = true) n ∧
        uniformLater s t [(d, BitVec.ofNat 32 n)]) ∧
      (∃ t, exec (.ttest h k d) s = .next t ∧ uniformLater s t (pairOf d (kPair s k 0 &&& seenTags s).toNat)) ∧
      (∀ r, s.now.region? s.old.region = some r →
        ((kPair s k 0).toNat ≤ (r.tl ctx).done → s.now.focus.id = s.old.id → s.old.id ≠ 0 →
          ∃ t, exec (.tlwait h ctx k) s = .next t ∧ t.iss = s.iss ∧ sameMemory s t ∧
            (kPair s k 0).toNat ≤ (t.now.focus.tlret[ctxIdx ctx]).toNat ∧ t.now.focus.lanes = s.now.focus.lanes ∧ t.now.focus.k = s.now.focus.k) ∧
        ((r.tl ctx).done < (kPair s k 0).toNat → exec (.tlwait h ctx k) s = .next (s.setWait (.tlwait ctx (kPair s k 0))))) ∧
      (∀ r, s.start.region? s.old.region = some r →
        ∃ t, exec (.tlread h ctx k) s = .next t ∧
          uniformLater s t (pairOf k (if s.old.det then (s.old.tlret[ctxIdx ctx]).toNat else (r.tl ctx).done % 2 ^ 64))))

namespace Sys2Proof.Claims
open Sys2Proof.Machine

/-! ### Task words -/

/-- Every executing lane's record, at an aligned address that can be reached and has the class of a device-scope atomic
[17 R274]. -/
def recsAllowed (s : State) (h : Hdr) (a : GReg) : Prop :=
  (∀ l, s.runsIn h l → zPair (s.src l) a % 64 = 0) ∧
  failsOf (withClass .dv true (fun l => asPair (s.src l) a) (s.accessLanes (s.exec h) .atomic (fun l => asPair (s.src l) a) 64)) = []

/-- The executing lanes with the keys of their records. -/
def recsOf (s : State) (h : Hdr) (a : GReg) : List (LaneId × Nat) := reachedKeys s h .atomic (fun l => asPair (s.src l) a) 64

/-- A key lies outside the ready-queue heads that the scheduler keeps in the control blocks [17 R269]. -/
def outsideQueues (s : State) (k : Nat) : Prop := ∀ r ∈ s.now.regions, ¬ (r.id + 80 ≤ k ∧ k < r.id + 144)

/-- The memory that a word's accesses see is plain, and the record at a key shares no byte with the scheduler's own fields. -/
def plainRecs (s : State) (recs : List (LaneId × Nat)) : Prop :=
  s.memOk ∧ plainMemory s recs ∧ ∀ x ∈ recs, ∀ i, i < 64 → outsideRcbs s (x.2 + i) ∧ outsideQueues s (x.2 + i)

/-- The counters after the lanes' updates, one lane after another, and whether every update kept its bound: DEPDEC takes 1
and releases a waiting record at zero, DEPADD adds a number [17 R276, R277]. -/
def countersAfter (dec : Bool) (n : LaneId → Nat) : List Host.Cell → List (LaneId × Nat) → List Host.Cell × Bool
  | m, [] => (m, true)
  | m, (l, k) :: rest =>
    let c := Mem.num m (k + 56) 2
    if dec then
      if c = 0 then ((countersAfter dec n m rest).1, false)
      else
        let m := Mem.write m (k + 56) (lowBytes 2 (c - 1))
        countersAfter dec n (if c = 1 ∧ Mem.num m (k + 63) 1 = 1 then Mem.write m (k + 63) [2] else m) rest
    else if c + n l ≤ 0xFFFF then countersAfter dec n (Mem.write m (k + 56) (lowBytes 2 (c + n l))) rest
    else ((countersAfter dec n m rest).1, false)

/-- A record's fields are well formed [17 R271]. -/
def recFormed (m : List Host.Cell) (k n : Nat) : Prop :=
  let strands := Mem.num m (k + 58) 1
  let threads := Mem.num m (k + 59) 1
  n ≠ 0 ∧ n ≤ 2 ^ 20 ∧ 1 ≤ strands ∧ strands ≤ 64 ∧ 1 ≤ threads ∧ threads ≤ 32 ∧ Mem.num m (k + 60) 2 ≤ 1024 ∧ Mem.num m (k + 62) 1 < 8

/-- The region that a record names, or the issuing one where it names none [17 R271]. -/
def recRegion (s : State) (k : Nat) (r : Region) : Prop :=
  let va := Mem.num s.now.mem (k + 16) 8
  if va = 0 then s.now.region? s.old.region = some r else s.now.regionAt s.old.region va = some r

/-- The words that take up a record: header, address pair, the number of tasks [17 R275]. -/
def takeUpRule : Instr → Option (Hdr × GReg × (State → LaneId → Nat))
  | .tnew h a => some (h, a, fun _ _ => 1)
  | .tnewn h a b => some (h, a, fun s l => ((s.src l).rg b).toNat)
  | _ => none

/-- The registers, the uniform registers and the flags are as before. -/
def keepsFiles (s t : State) : Prop :=
  t.now.focus.k = s.now.focus.k ∧ t.now.focus.flags = s.now.focus.flags ∧
  ∀ l, (t.lane l).g = (s.lane l).g ∧ (t.lane l).p = (s.lane l).p ∧ (t.lane l).m = (s.lane l).m

/-- No task of a set of jobs is still to start. -/
def idleGone (d : Dev) (p : Job → Prop) : Prop :=
  ∀ j ∈ d.jobs, p j → j.fin = false → j.st ≠ .waiting ∧ j.st ≠ .released ∧ j.st ≠ .placed ∧ j.st ≠ .walkFault

/-- The control block that a region word's lowest executing lane names, with its checks [17 R274]. -/
def rcbAllowed (s : State) (h : Hdr) (a : GReg) (k : Nat) : Prop :=
  zPair (s.src (s.low h)) a % 256 = 0 ∧ ∃ ps, s.seen.access s.old (s.src (s.low h)).lastPage .atomic (zPair (s.src (s.low h)) a) 256 = .ok ps ∧
    classFail .dv true (zPair (s.src (s.low h)) a) ps = none ∧ keyOf ps = k

end Sys2Proof.Claims

/-- TNEW and TNEWN take up a record that is not in use: its batch's tasks are made from its fields, released when its counter
is 0 and waiting otherwise, and its state byte and its region's livetasks follow. A record that is waiting, released or
running is left alone [17 R272, R274-R276]. -/
def Sys2Proof.Claims.taskTakeUp : Prop :=
  (∀ i s h a n l k r ls, takeUpRule i = some (h, a, n) → takers s h = [l] → recsAllowed s h a → recsOf s h a = [(l, k)] →
    plainRecs s [(l, k)] → ¬ (1 ≤ Mem.num s.now.mem (k + 63) 1 ∧ Mem.num s.now.mem (k + 63) 1 ≤ 3) → recFormed s.now.mem k (n s l) →
    recRegion s k r → r.live = true → s.now.readLeases s.old.region (Mem.num s.now.mem (k + 24) 8) = some ls →
    ∃ (t : State) (js : List Job) (r' : Region), exec i s = .next t ∧ keepsFiles s t ∧ js.map Job.idx = List.range (n s l) ∧
      (∀ j ∈ js, j ∈ t.now.jobs ∧ j.recKey = k ∧ j.region = r.id ∧ j.n = n s l ∧ j.leases = ls ∧ j.fin = false ∧
        j.entry.toNat = Mem.num s.now.mem k 8 ∧ j.arg.toNat = Mem.num s.now.mem (k + 8) 8 ∧ j.strands = Mem.num s.now.mem (k + 58) 1 ∧
        j.threads = Mem.num s.now.mem (k + 59) 1 ∧ j.scratch = Mem.num s.now.mem (k + 60) 2 ∧ j.prio = Mem.num s.now.mem (k + 62) 1 ∧
        j.st = if Mem.num s.now.mem (k + 56) 2 = 0 then .released else .waiting) ∧
      Mem.num t.now.mem (k + 63) 1 = (if Mem.num s.now.mem (k + 56) 2 = 0 then 2 else 1) ∧
      t.now.region? r.id = some r' ∧ r'.livetasks = r.livetasks + 1) ∧
  (∀ i s h a n, takeUpRule i = some (h, a, n) → recsAllowed s h a → plainMemory s (recsOf s h a) →
    (∀ x ∈ recsOf s h a, 1 ≤ Mem.num s.now.mem (x.2 + 63) 1 ∧ Mem.num s.now.mem (x.2 + 63) 1 ≤ 3) →
    ∃ t, exec i s = .next t ∧ keepsFiles s t ∧ sameMemory s t ∧ t.now.jobs.map Job.id = s.now.jobs.map Job.id)

/-- TCANCEL leaves no task of the records that its lanes name to start or to run. DEPDEC and DEPADD complete when every lane's
update keeps its bound, and change the counters lane by lane; one that does not ends the task with 0x18. DEPGET sends out
each lane's record state and counter [17 R274, R277, R278]. -/
def Sys2Proof.Claims.taskWords : Prop :=
  ∀ (h : Hdr) (a b : GReg) (s : State), recsAllowed s h a →
    (∃ t, exec (.tcancel h a) s = .next t ∧ ∀ x ∈ recsOf s h a, idleGone t.now (fun j => j.recKey = x.2) ∧
      ∀ j ∈ t.now.jobs, j.recKey = x.2 → j.fin = false → j.st ≠ .running ∧ j.st ≠ .halting ∧ j.st ≠ .saved) ∧
    (plainRecs s (recsOf s h a) →
      ((countersAfter true (fun _ => 0) s.now.mem (recsOf s h a)).2 = true → ∃ t, exec (.depdec h a) s = .next t ∧ keepsFiles s t ∧
        ∀ k, outsideQueues s k → Mem.get t.now.mem k = Mem.get (countersAfter true (fun _ => 0) s.now.mem (recsOf s h a)).1 k) ∧
      ((countersAfter true (fun _ => 0) s.now.mem (recsOf s h a)).2 = false →
        ∃ u t, exec (.depdec h a) s = .next (State.trap u t) ∧ t.code = 0x18 ∧ t.reason = 0) ∧
      ((countersAfter false (fun l => ((s.src l).rg b).toNat % 2 ^ 16) s.now.mem (recsOf s h a)).2 = true →
        ∃ t, exec (.depadd h a b) s = .next t ∧ keepsFiles s t ∧
          ∀ k, Mem.get t.now.mem k = Mem.get (countersAfter false (fun l => ((s.src l).rg b).toNat % 2 ^ 16) s.now.mem (recsOf s h a)).1 k) ∧
      ((countersAfter false (fun l => ((s.src l).rg b).toNat % 2 ^ 16) s.now.mem (recsOf s h a)).2 = false →
        ∃ u t, exec (.depadd h a b) s = .next (State.trap u t) ∧ t.code = 0x18 ∧ t.reason = 1) ∧
      (s.acts h = true → ∃ t f, exec (.depget h a b) s = .next t ∧ launches s t f ∧ sameMemory s t ∧ f.kind = .memory ∧ f.waits = 0 ∧
        ∀ x ∈ recsOf s h a, Dest.g x.1 b ∈ f.marks ∧
          RegWrite.g x.1 b (BitVec.ofNat 32 (Mem.num s.now.mem (x.2 + 63) 1 % 8 * 2 ^ 16 + Mem.num s.now.mem (x.2 + 56) 2)) ∈ f.writes))

/-- TNEW and TNEWN make the tasks of a record that is not in use, and leave one in use alone; TCANCEL leaves none of its tasks to start
or run; DEPDEC and DEPADD change counters lane by lane and end the task on an underflow; DEPGET sends out state and counter
[17 R271, R272, R274-R278]. -/
def Obligations.TaskRecordWords : Prop := Sys2Proof.Claims.taskTakeUp ∧ Sys2Proof.Claims.taskWords

/-- SPAWN with a tray for each executing lane makes every lane's thread record in a tray bound to its entry, and holds its
group back when the lowest lane's finds none. RGNEW of an unlinked control block asks for its link and parks the fragment; of
any other it only completes. RGEND of a live region other than the root ends it and cancels what has not started; RGPRI
sets a live region's next priority. The region words act once, for the lowest executing lane [17 R274, R279, R286]. -/
def Obligations.SpawnAndRegionWords : Prop :=
  (∀ h a b s r, s.now.region? s.old.region = some r →
    ((takers s h).length ≤ (r.trays.toList.filter fun t => t.recs.isEmpty).length →
      ∃ t r', exec (.spawn h a b) s = .next t ∧ keepsFiles s t ∧ sameMemory s t ∧ t.now.region? s.old.region = some r' ∧
        ∀ l, s.runsIn h l → ∃ y ∈ r'.trays.toList, y.entry = asPair (s.src l) a ∧
          (∃ x ∈ y.recs, x.arg = asPair (s.src l) b ∧ x.parent = s.old.laneTask l)) ∧
    (s.acts h = true → (∀ y ∈ r.trays.toList, y.recs ≠ [] ∧ y.entry ≠ asPair (s.src (s.low h)) a) →
      exec (.spawn h a b) s = .next (s.setBlock .spawn))) ∧
  (∀ h a b s, s.acts h = false → exec (.rgnew h a) s = .next s ∧ exec (.rgend h a) s = .next s ∧ exec (.rgpri h a b) s = .next s) ∧
  (∀ h a b s k, s.acts h = true → rcbAllowed s h a k → (∀ r ∈ s.now.regions, r.hotbase = 0) →
    (Mem.num s.now.mem (k + 30) 1 = 0 → ∃ t, exec (.rgnew h a) s = .next t ∧ t.iss.wait = some (.rgnew k) ∧ sameMemory s t ∧
      t.now.links = s.now.links ++ [(k, zPair (s.src (s.low h)) a, s.old.region)]) ∧
    (Mem.num s.now.mem (k + 30) 1 ≠ 0 → ∃ t, exec (.rgnew h a) s = .next t ∧ t.iss = s.iss ∧ sameMemory s t ∧ t.now.links = s.now.links) ∧
    (∀ r, s.now.region? k = some r → r.live = true →
      (k ≠ s.now.rootRcb → ∃ t r', exec (.rgend h a) s = .next t ∧ t.now.region? k = some r' ∧ r'.live = false ∧
        idleGone t.now (fun j => j.region = k)) ∧
      ∃ t r', exec (.rgpri h a b) s = .next t ∧ t.now.region? k = some r' ∧
        r' = { r with prioNext := some (((s.src (s.low h)).rg b).toNat % 16) } ∧ sameMemory s t) ∧
    (k = s.now.rootRcb ∨ s.now.region? k = none → ∃ t, exec (.rgend h a) s = .next t ∧ sameMemory s t ∧ t.now.regions = s.now.regions))

namespace Sys2Proof.Claims
open Sys2Proof.Machine

/-! ### Signet words -/

/-- A signet may be used in a lane: it is not empty, its upper bits are zero, its weight exponent is below 48 [19 R296]. -/
def sigUsable (x : Lane) (y : GReg) : Prop := zQuad x y ≠ 0 ∧ zPair x y / 2 ^ 59 = 0 ∧ zPair x y / 2 ^ 52 % 2 ^ 6 < 48

/-- The executing lanes' requests are with their homes, and the word's verdict waits for all of them; registers, flags and
memory stay [19 R296]. -/
def asksHomes (s t : State) (h : Hdr) (ask : LaneId → SigAsk) (lo chk : LaneId → Nat) (marks : LaneId → List Dest) : Prop :=
  ∃ f, launches s t f ∧ sameMemory s t ∧ f.kind = .verdict ∧ f.waits = (takers s h).length ∧ f.lanes = s.exec h ∧
    ∀ l, s.runsIn h l → (∀ x ∈ marks l, x ∈ f.marks) ∧ ∃ q ∈ t.now.sigs, q.sid = s.old.id ∧ q.fid = f.id ∧ q.lane = l ∧ q.ask = ask l ∧
      q.lo.toNat = lo l ∧ q.chk.toNat = chk l ∧ q.hops = 0

/-- The destinations of a pair and of a quad. -/
def pairDests (l : LaneId) (r : GReg) : List Dest := [.g l r, .g l (r.plus 1)]
def quadDests (l : LaneId) (r : GReg) : List Dest := [.g l r, .g l (r.plus 1), .g l (r.plus 2), .g l (r.plus 3)]

/-- The writes of a 128-bit number to a quad. -/
def quadWrites (l : LaneId) (r : GReg) (v : Nat) : List RegWrite :=
  [.g l r (BitVec.ofNat 32 v), .g l (r.plus 1) (BitVec.ofNat 32 (v / 2 ^ 32)), .g l (r.plus 2) (BitVec.ofNat 32 (v / 2 ^ 64)),
   .g l (r.plus 3) (BitVec.ofNat 32 (v / 2 ^ 96))]

/-- The signets that HLD and HST move, one lane after another: a load takes the 16 bytes and leaves zeros, a store puts a
signet where 16 zero bytes stand [19 R305]. -/
def signetsMoved (put : Bool) (v : LaneId → Nat) : List Host.Cell → List (LaneId × Nat) → List Host.Cell × List (LaneId × List Byte)
  | m, [] => (m, [])
  | m, (l, k) :: rest =>
    let old := Mem.read m k 16
    let step : List Host.Cell × List Byte :=
      if put then (if ofBytes old = 0 then (Mem.write m k (lowBytes 16 (v l)), [1]) else (m, [0])) else (Mem.write m k (lowBytes 16 0), old)
    let (m', bs) := signetsMoved put v step.1 rest
    (m', (l, step.2) :: bs)

/-- A signet's place in memory passes its checks in every lane [19 R296]. -/
def sigPlaces (s : State) (h : Hdr) (y : GReg) : Prop :=
  (∀ l, s.runsIn h l → zPair (s.src l) y % 16 = 0) ∧
  failsOf (withClass .fb false (fun l => asPair (s.src l) y) (s.accessLanes (s.exec h) .atomic (fun l => asPair (s.src l) y) 16)) = []

/-- A signet with its weight exponent lowered by one. -/
def halved (lo : Nat) : Nat := lo - 2 ^ 52

/-! ### Layer words -/

/-- One executing lane names layer `j` of the live parure `r` [19 R316]. -/
def layerNamed (s : State) (h : Hdr) (a b : GReg) (l : LaneId) (r : Region) (j : Nat) : Prop :=
  s.memOk ∧ takers s h = [l] ∧ reachable s h .read 256 (fun l => asPair (s.src l) b) 256 = true ∧
  (∃ k, reachedKeys s h .read (fun l => asPair (s.src l) b) 256 = [(l, k)] ∧ s.now.region? k = some r) ∧
  r.live = true ∧ r.parure ≠ 0 ∧ j = ((s.src l).rg a).toNat ∧ j < s.now.layerCount r ∧ ∀ x ∈ s.now.regions, x.hotbase = 0

/-- The lane took its use of the layer while its fragment was parked on this group [19 R317]. -/
def useTaken (s : State) (l : LaneId) : Prop :=
  ∃ x ∈ s.frag.layers, x.1 = s.frag.pc ∧ x.2.1 = s.frag.pos ∧ hasLane x.2.2 l = true

/-- The `n` bytes at an offset of a layer's entry can be written and stand from key `k` on; no clasp binds them. -/
def entryAt (s : State) (r : Region) (j off n k : Nat) : Prop :=
  s.now.schedKeys r.space (r.parure + 64 + 64 * j + off) n = some ((List.range n).map fun i => k + i) ∧
  ∀ c ∈ s.now.clasps, ∀ x ∈ c.runs, ∀ i, i < n → ¬ (x.key ≤ k + i ∧ k + i < x.key + x.len)

/-- Memory is as before but for these bytes. -/
def wroteAt (s t : State) (k : Nat) (bs : List Byte) : Prop := ∀ x, Mem.get t.now.mem x = Mem.get (Mem.write s.now.mem k bs) x

/-! ### Waits -/

/-- A fragment is parked on a wait. -/
def parkedOn (s : State) (sid : Nat) (slot : Fin 4) (st : Strand) (f : Frag) (w : Wait) : Prop :=
  s.now.strand? sid = some st ∧ st.frag slot = some f ∧ ∃ since, f.st = .parked w since

/-- A parked fragment goes on: it is ready, and the transfer of its wait word's group, if it had one, takes effect; `p` says
what has happened beside that. -/
def goesOn (t : State) (sid : Nat) (slot : Fin 4) (f : Frag) (p : Dev → Prop) : Prop :=
  ∃ e : Dev, p e ∧ e.focus.id = sid ∧ e.focus.frag slot = some { f with st := .ready, pend := none } ∧
    t.now = match f.pend with
      | none => e
      | some x => e.transfer slot x

/-- The strand in focus has the registers, the flags and the results in flight of another. -/
def filesOf (e : Dev) (st : Strand) : Prop :=
  e.focus.k = st.k ∧ e.focus.flags = st.flags ∧ e.focus.flights = st.flights ∧
  ∀ l, (e.focus.lane l).g = (st.lane l).g ∧ (e.focus.lane l).p = (st.lane l).p ∧ (e.focus.lane l).m = (st.lane l).m

/-- A pre-emption dropped the watch of a lane of a mask, and no lane of the mask holds one [14 R244]. -/
def maskDropped (st : Strand) (lanes : W32) : Prop :=
  (∃ l, hasLane lanes l = true ∧ (st.lane l).monDrop = true) ∧ ∀ l, hasLane lanes l = true → (st.lane l).watch = none

/-- The predicate of each lane of a mask tells what an MWAIT reports [14 R243, R244; 22 R345]. -/
def reportsTo (st : Strand) (lanes : W32) (pd : PReg) (e : Dev) : Prop :=
  ∀ l, hasLane lanes l = true → ((e.focus.lane l).rp pd = true ↔ maskDropped st lanes ∨ reportsWatch (st.lane l) st.det)

/-- The waits that end without writing a register: event, strand, slot, and when the wait is over
[06 R110; 14 R230, R238, R239, R247; 16 R257, R264]. -/
def waitRule : Instr → Option (Nat × Fin 4 × (State → Strand → Wait → Prop))
  | .awtCompletion sid slot => some (sid, slot, fun s _ w => ∃ lanes ts, w = .awt lanes ts ∧
      ∀ x ∈ ts, peerOf x.2.1 = none ∧ x.2.2 ≤ Mem.num s.now.mem x.2.1 8)
  | .claspAcqCompletion sid slot => some (sid, slot, fun s _ w => ∃ lanes keys, w = .claspAcq lanes keys ∧
      ∀ x ∈ keys, ∀ c, s.now.clasp? x.2 = some c → c.rels = [])
  | .claspUnbindCompletion sid slot => some (sid, slot, fun s _ w => ∃ keys, w = .unbind keys ∧
      ∀ x ∈ keys, ∀ c, s.now.clasp? x.2 = some c → c.rels = [])
  | .tlbiSweepCompletion sid slot => some (sid, slot, fun _ _ w => ∃ kind scope va root, w = .tlbi kind scope va root)
  | .fenceEngineCompletion sid slot => some (sid, slot, fun s _ w => ∃ ops, w = .fence ops ∧
      ∀ n ∈ ops, (∀ o ∈ s.now.ops, o.id ≠ n) ∧ ∀ q ∈ s.now.sigs, q.id ≠ n)
  | .tagWaitCompletion sid slot => some (sid, slot, fun _ st w => ∃ m,
      (w = .wtall m ∧ ∀ i, m.getLsbD i = true → st.tagrdy.getLsbD i = true) ∨
      (w = .wtany m ∧ ∃ i, m.getLsbD i = true ∧ st.tagrdy.getLsbD i = true))
  | .tlwaitCompletion sid slot => some (sid, slot, fun s st w => ∃ c n r, w = .tlwait c n ∧ s.now.region? st.region = some r ∧
      n.toNat ≤ (r.tl c).done)
  | _ => none

/-- What each of those completions does beside letting the fragment go on. -/
def waitDoes (w : Wait) (st : Strand) (s : State) (e : Dev) : Prop :=
  match w with
  | .claspAcq _ keys => ∀ x ∈ keys, ∀ c, e.clasp? x.2 = some c → c.view (partyOf st x.1) = c.order
  | .unbind keys => ∀ x ∈ keys, e.clasp? x.2 = none
  | .tlbi .all .dv _ _ => ∀ c, (e.core c).tlb = []
  | .tlbi .all .co _ _ => (e.core st.core).tlb = []
  | .wtany m | .wtall m => ∀ i, e.focus.observed.getLsbD i = (st.observed.getLsbD i || m.getLsbD i && st.tagrdy.getLsbD i)
  | .tlwait c n => n.toNat ≤ (e.focus.tlret[ctxIdx c]).toNat
  | _ => e.clasps = s.now.clasps

end Sys2Proof.Claims

/-- The signet words complete when their checks pass. HNEW, HDROP, HDEREF and HFIN ask the homes of their lanes' signets and
wait for every verdict. HCOPY halves a signet's weight between two valid signets; of a signet of weight 1 it makes a cell.
HLD and HST take or put whole signets in memory. A descriptor that is not there holds the group back, and an empty
signet raises 0x1C [19 R293-R300, R303-R305]. -/
def Obligations.SignetWords : Prop :=
  ∀ (h : Hdr) (x y : GReg) (s : State), s.acts h = true →
    (reachable s h .read 16 (fun l => asPair (s.src l) y) 16 = true → (∀ r ∈ s.now.regions, r.hotbase = 0) →
      ((takers s h).length ≤ s.now.descsLeft → ∃ t, exec (.hnew h x y) s = .next t ∧
        asksHomes s t h (fun _ => .new) (fun l => zPair (s.src l) y) (fun _ => 0) fun l => quadDests l x) ∧
      (s.now.descsLeft < (takers s h).length → ∃ t, exec (.hnew h x y) s = .next t ∧ t.iss.block = some .descriptor)) ∧
    ((∀ l, s.runsIn h l → sigUsable (s.src l) y) →
      (∃ t, exec (.hdrop h y) s = .next t ∧
        asksHomes s t h (fun _ => .drop) (fun l => zPair (s.src l) y) (fun l => zPair (s.src l) (y.plus 2)) fun l => quadDests l y) ∧
      (∃ t, exec (.hderef h x y) s = .next t ∧
        asksHomes s t h (fun l => .deref (((s.src l).rg x).toNat % 64)) (fun l => zPair (s.src l) y)
          (fun l => zPair (s.src l) (y.plus 2)) fun l => pairDests l x) ∧
      (∃ t, exec (.hfin h x y) s = .next t ∧
        asksHomes s t h (fun l => .fin (asPair (s.src l) x) (asPair (s.src l) (x.plus 2))) (fun l => zPair (s.src l) y)
          (fun l => zPair (s.src l) (y.plus 2)) fun _ => []) ∧
      ((∀ l, s.runsIn h l → zQuad (s.src l) x = 0) →
        ((∀ l, s.runsIn h l → 1 ≤ zPair (s.src l) y / 2 ^ 52 % 2 ^ 6) → ∃ t f, exec (.hcopy h x y) s = .next t ∧ launches s t f ∧ f.waits = 0 ∧
          t.now.descs = s.now.descs ∧ sameMemory s t ∧ ∀ l, s.runsIn h l → ∃ chk : W64,
            (∀ gen, asPair (s.src l) (y.plus 2) = sigCheck (asPair (s.src l) y) gen →
              chk = sigCheck (BitVec.ofNat 64 (halved (zPair (s.src l) y))) gen) ∧
            ∀ w ∈ quadWrites l x (halved (zPair (s.src l) y) + 2 ^ 64 * chk.toNat) ++
              quadWrites l y (halved (zPair (s.src l) y) + 2 ^ 64 * chk.toNat), w ∈ f.writes) ∧
        (∀ l, takers s h = [l] → zPair (s.src l) y / 2 ^ 52 % 2 ^ 6 = 0 → 1 ≤ s.now.descsLeft →
          ∃ t f n, exec (.hcopy h x y) s = .next t ∧ launches s t f ∧ 1 ≤ n ∧ (s.now.desc n).st = 0 ∧ (t.now.desc n).st = 2 ∧
            (t.now.desc n).total = 2 ^ 47 ∧ (t.now.desc n).returned = 0 ∧ (t.now.desc n).innerLo = asPair (s.src l) y ∧
            (t.now.desc n).innerChk = asPair (s.src l) (y.plus 2) ∧ (t.now.desc n).owner = s.old.region ∧
            ∃ lo : W64, lo = BitVec.ofNat 64 (Config.devid.toNat + n * 2 ^ 12 + 46 * 2 ^ 52 + 2 ^ 58) ∧
              ∀ w ∈ quadWrites l x (lo.toNat + 2 ^ 64 * (sigCheck lo (s.now.desc n).gen).toNat) ++
                quadWrites l y (lo.toNat + 2 ^ 64 * (sigCheck lo (s.now.desc n).gen).toNat), w ∈ f.writes) ∧
        (s.now.descsLeft < ((takers s h).filter fun l => decide (zPair (s.src l) y / 2 ^ 52 % 2 ^ 6 = 0)).length →
          exec (.hcopy h x y) s = .next (s.setBlock .descriptor)))) ∧
    ((∃ l, s.runsIn h l ∧ zQuad (s.src l) y = 0) → ∀ i ∈ [Instr.hcopy h x y, .hdrop h y, .hderef h x y, .hfin h x y],
      ∃ t, exec i s = .next (s.trap t) ∧ t.code = 0x1C ∧ t.reason = 1 ∧ ∀ l, hasLane t.lanes l = true ↔ s.runsIn h l ∧ zQuad (s.src l) y = 0) ∧
    (sigPlaces s h y → plainMemory s (reachedKeys s h .atomic (fun l => asPair (s.src l) y) 16) →
      ((∀ l, s.runsIn h l → zQuad (s.src l) x = 0) → ∃ t f, exec (.hld h x y) s = .next t ∧ launches s t f ∧ f.kind = .memory ∧
        f.fill = .hld x ∧ f.waits = 0 ∧ (∀ l, s.runsIn h l → ∀ m ∈ quadDests l x, m ∈ f.marks) ∧
        (∀ k, Mem.get t.now.mem k =
          Mem.get (signetsMoved false (fun _ => 0) s.now.mem (reachedKeys s h .atomic (fun l => asPair (s.src l) y) 16)).1 k) ∧
        f.bufs = (signetsMoved false (fun _ => 0) s.now.mem (reachedKeys s h .atomic (fun l => asPair (s.src l) y) 16)).2) ∧
      ((∀ l, s.runsIn h l → sigUsable (s.src l) x) → ∃ t f, exec (.hst h x y) s = .next t ∧ launches s t f ∧ f.kind = .memory ∧
        f.fill = .hst x ∧ f.waits = 0 ∧
        (∀ k, Mem.get t.now.mem k =
          Mem.get (signetsMoved true (fun l => zQuad (s.src l) x) s.now.mem (reachedKeys s h .atomic (fun l => asPair (s.src l) y) 16)).1 k) ∧
        f.bufs = (signetsMoved true (fun l => zQuad (s.src l) x) s.now.mem (reachedKeys s h .atomic (fun l => asPair (s.src l) y) 16)).2))

/-- The layer words complete. LYWAIT of a RESIDENT layer acquires its clasp and raises its use count; of an ABSENT layer with
its fault bit set it raises 0x1E; of any other it holds its group back, and once granted it issues. LYDONE lowers the use
count and takes a position of the clasp order; LYHINT.pf requests an ABSENT layer, LYHINT.retry clears a fault and requests
the layer as a demand [19 R313, R316-R319]. -/
def Obligations.LayerWords : Prop :=
  ∀ (h : Hdr) (a b : GReg) (s : State) (l : LaneId) (r : Region) (j : Nat), layerNamed s h a b l r j →
    (useTaken s l → ∃ t, exec (.lywait h a b) s = .next t ∧ t.iss = s.iss ∧ keepsFiles s t ∧ sameMemory s t ∧
      ∀ f, t.fragNow = some f → ∀ x ∈ f.layers, ¬ (x.1 = f.pc ∧ x.2.1 = f.pos)) ∧
    (¬ useTaken s l →
      (∀ k, s.now.layerState r j = 2 → entryAt s r j 28 4 k → ∃ t, exec (.lywait h a b) s = .next t ∧ t.iss = s.iss ∧ keepsFiles s t ∧
        wroteAt s t k (lowBytes 4 (s.now.layerUse r j + 1)) ∧
        ∀ c ∈ t.now.clasps, c.name = .layer r.id j → c.view (partyOf s.old l) = c.order) ∧
      (s.now.layerState r j = 0 → s.now.layerFault r j = true →
        ∃ t, exec (.lywait h a b) s = .next (s.trap t) ∧ t.code = 0x1E ∧ t.lanes = oneLane l ∧ t.info.toNat % 2 ^ 12 = j % 2 ^ 12) ∧
      (s.now.layerState r j ≠ 2 → ¬ (s.now.layerState r j = 0 ∧ s.now.layerFault r j = true) →
        ∃ t, exec (.lywait h a b) s = .next t ∧ t.iss.block = some (.lywait [(l, r.id, j)]))) ∧
    (∀ k, 1 ≤ s.now.layerUse r j → entryAt s r j 28 4 k → ∃ t, exec (.lydone h a b) s = .next t ∧ keepsFiles s t ∧
      (s.now.layerUse r j ≠ 1 → wroteAt s t k (lowBytes 4 (s.now.layerUse r j - 1))) ∧
      ∀ c ∈ t.now.clasps, c.name = .layer r.id j → ∃ c' ∈ s.now.clasps, c'.name = c.name ∧ c.order = c'.order + 1) ∧
    (s.now.layerUse r j = 0 → ∃ t, exec (.lydone h a b) s = .next (s.trap t) ∧ t.code = 0x1F ∧ t.info.toNat / 2 ^ 16 = 3) ∧
    (∃ t, exec (.lyhintPf h a b) s = .next t ∧ t.iss = s.iss ∧ keepsFiles s t ∧ sameMemory s t ∧
      (s.now.layerState r j = 0 → s.now.layerFault r j = false → ∃ q ∈ t.now.swapq, q.region = r.id ∧ q.layer = j) ∧
      (¬ (s.now.layerState r j = 0 ∧ s.now.layerFault r j = false) → t.now.swapq = s.now.swapq)) ∧
    (∃ t, exec (.lyhintRetry h a b) s = .next t ∧ t.iss = s.iss ∧ keepsFiles s t ∧
      (∀ k, s.now.layerFault r j = true → entryAt s r j 25 1 k →
        wroteAt s t k [0] ∧ ∃ q ∈ t.now.swapq, q.region = r.id ∧ q.layer = j ∧ q.demand = true) ∧
      (s.now.layerFault r j = false → sameMemory s t ∧ t.now.swapq = s.now.swapq))

/-- A parked fragment whose wait is over goes on at the place that its group's transfer names: AWT, CLASP.ACQ and
CLASP.UNBIND, TLBI, the fences, WTANY and WTALL, TLWAIT; registers and memory stay, and the completion does what its word
then does [06 R110; 09 R176; 14 R230, R238, R239, R247; 16 R257-R259, R264; 02 R27]. -/
def Sys2Proof.Claims.waitsEnd : Prop :=
  ∀ i s sid slot c st f w, waitRule i = some (sid, slot, c) → parkedOn s sid slot st f w → c s st w →
    (∀ x ∈ s.now.clasps, x.log = []) → (∀ r ∈ s.now.regions, r.hotbase = 0) →
    ∃ t, exec i s = .next t ∧ goesOn t sid slot f fun e => filesOf e st ∧ (∀ k, Mem.get e.mem k = Mem.get s.now.mem k) ∧ waitDoes w st s e

/-- Other waits end: MWAIT when a watch of its lanes has been triggered or its time is over, with each lane's predicate
telling what it reports; CFREE when nothing uses its banks, CALLOC when banks are free
or its region's budget has come to be too small, LYWAIT when its layers are
RESIDENT; the barrier of a task when every fragment of it waits at BAR; the first parked MACQ of a quadrant when its
blocks are available [07 R126; 09 R179; 13 R218; 14 R243, R246; 19 R317]. -/
def Sys2Proof.Claims.resourceWaitsEnd : Prop :=
  (∀ sid slot s st f lanes pd n, parkedOn s sid slot st f (.mwait lanes pd n) → pd ≠ 7 →
    ((∃ l w, hasLane lanes l = true ∧ (st.lane l).watch = some w ∧ w.hit = true) ∨ (∀ l, hasLane lanes l = true → (st.lane l).watch = none) →
      ∃ t, exec (.mwaitWake sid slot) s = .next t ∧ goesOn t sid slot f (reportsTo st lanes pd)) ∧
    (n ≤ (if st.det then st.others else s.now.cycle) → ∃ t, exec (.mwaitTimeout sid slot) s = .next t ∧
      goesOn t sid slot f (reportsTo st lanes pd))) ∧
  (∀ sid slot s st f first fid run, parkedOn s sid slot st f (.cfree first fid) →
    (s.now.core st.core).banks.find? (fun r => r.first == first) = some run → s.now.banksBusy st.core run = false →
    ∃ t, exec (.cfreeCompletion sid slot) s = .next t ∧ goesOn t sid slot f fun e => ∀ r ∈ (e.core st.core).banks, r.first ≠ first) ∧
  (∀ sid slot s st f n l, parkedOn s sid slot st f (.calloc n l) → 1 ≤ n →
    (∀ first, (s.now.core st.core).findBanks n = some first → n ≤ s.now.bankBudget st.region →
      ∃ t, exec (.callocGrant sid slot) s = .next t ∧
        goesOn t sid slot { f with bank := [first] } fun e => bankOf (e.core st.core) (st.laneTask l) first) ∧
    (s.now.bankBudget st.region < n → ∃ t, exec (.callocGrant sid slot) s = .next t ∧
      goesOn t sid slot f fun e => filesOf e st ∧ e.mem = s.now.mem)) ∧
  (∀ sid slot s st f ls, parkedOn s sid slot st f (.lywait ls) →
    (∀ x ∈ ls, ∃ r, s.now.region? x.2.1 = some r ∧ s.now.layerState r x.2.2 = 2) → ∃ t lanes, exec (.lywaitCompletion sid slot) s = .next t ∧
      (∀ l, hasLane lanes l = true ↔ ∃ x ∈ ls, x.1 = l) ∧
      goesOn t sid slot { f with layers := f.layers ++ [(f.pc, f.pos, lanes)] } fun e => filesOf e st) ∧
  (∀ tid s, tid ≠ 0 → (s.now.all.map Strand.id).Nodup → (∃ st ∈ s.now.all, st.task = tid) →
    (∀ st ∈ s.now.all, st.task = tid → st.casketBusy = false ∧ st.live ≠ [] ∧ ∀ x ∈ st.live, x.2.atBar = true ∧ x.2.aside = none ∧
      ∃ pc pos, x.2.pend = some (.fall pc pos)) →
    ∃ t, exec (.barrierCompletion tid) s = .next t ∧ ∀ st ∈ s.now.all, st.task = tid → ∀ x ∈ st.live, ∀ pc pos, x.2.pend = some (.fall pc pos) →
      ∃ u, t.now.strand? st.id = some u ∧ u.frag x.1 = some { x.2 with st := .ready, pend := none, pc := pc, pos := pos }) ∧
  (∀ core quad s st slot f n rest, (s.now.all.map Strand.id).Nodup → s.now.macqParked core quad = (st, slot, n) :: rest →
    st.frag slot = some f → n ≤ (s.now.quad core quad).free → n ≤ s.now.blockBudget st.region →
    ∃ t u, exec (.macqParkedGrant core quad) s = .next t ∧ t.now.strand? st.id = some u ∧
      u.frag slot = some { f with st := .ready, grant := n + 1, grantAt := s.now.cycle })

/-- A parked fragment whose wait is over goes on at the place that its group's transfer names, and the completion does what its word
then does: AWT, CLASP.ACQ, CLASP.UNBIND, TLBI, fences, tag and timeline waits, MWAIT, CFREE, CALLOC, LYWAIT, a task's barrier and
the first parked MACQ of a quadrant [06 R110; 07 R126; 09 R176, R179; 13 R218; 14 R230, R238, R239, R243, R246, R247; 16 R257-R259,
R264; 19 R317]. -/
def Obligations.WaitsEnd : Prop := Sys2Proof.Claims.waitsEnd ∧ Sys2Proof.Claims.resourceWaitsEnd

namespace Sys2Proof.Claims
open Sys2Proof.Machine

/-! ### Results that arrive -/

/-- What a write names. -/
def writeNames : RegWrite → Dest
  | .g l r _ => .g l r
  | .k r _ => .k r
  | .p l n _ => .p l n
  | .m l m _ => .m l m

/-- A strand's registers hold what a write delivers; a write to pt is discarded [01 R8, R16]. -/
def holdsWrite (u : Strand) : RegWrite → Prop
  | .g l r v => (u.lane l).rg r = v
  | .k r v => u.rk r = v
  | .p l n v => n ≠ 7 → (u.lane l).rp n = v
  | .m l m v => (u.lane l).rm m = v

/-- Registers, predicates and handles that a list of writes does not name are as before. -/
def restKept (st u : Strand) (ws : List RegWrite) : Prop :=
  (∀ l r, Dest.g l r ∉ ws.map writeNames → (u.lane l).rg r = (st.lane l).rg r) ∧
  (∀ l n, Dest.p l n ∉ ws.map writeNames → (u.lane l).rp n = (st.lane l).rp n) ∧
  (∀ l m, Dest.m l m ∉ ws.map writeNames → (u.lane l).rm m = (st.lane l).rm m) ∧
  (∀ r, Dest.k r ∉ ws.map writeNames → u.rk r = st.rk r) ∧ u.flags = st.flags

/-- The arrivals that deliver what their flight holds: event, strand, flight, the kind of flight
[01 R16; 07 R126; 10 R188, R192, R194, R196; 19 R296]. -/
def arrivalRule : Instr → Option (Nat × Nat × (FlightKind → Prop))
  | .memoryResultArrival sid fid => some (sid, fid, fun k => k = .memory)
  | .macqArrival sid fid => some (sid, fid, fun k => k = .macq)
  | .macqTryFailArrival sid fid => some (sid, fid, fun k => k = .macqFail)
  | .elementPathCompletion sid fid => some (sid, fid, fun k => k = .element)
  | .matrixAccessCompletion sid fid => some (sid, fid, fun k => k = .access)
  | .cellWordPassEnd sid fid => some (sid, fid, fun k => ∃ m r dur phase, k = .cell m r dur phase)
  | .mexpPassEnd sid fid => some (sid, fid, fun k => ∃ done, done ≠ [] ∧ k = .mexp done [])
  | .signetVerdictArrival sid fid => some (sid, fid, fun k => k = .verdict)
  | _ => none

/-- The casket words' items on memory, one after another, with the values that they read [13 R220]. -/
def casketOn (c : Fin 256) (op : CasOp) : List Host.Cell → List CasItem → List Host.Cell × List Nat
  | m, [] => (m, [])
  | m, x :: xs =>
    let k := Key.casket c x.addr
    let old := Mem.num m k 4
    let (m', vs) := casketOn c op (Mem.write m k (lowBytes 4 (casketLeaves op old x.v.toNat))) xs
    (m', old :: vs)

/-! ### Engine completions -/

/-- The writes of a copy, gather or scatter in order: the runs and their bytes, read from `m` [16 R253, R254]. -/
def engineMoves (m : List Host.Cell) : EngKind → List (List Run × List Byte)
  | .copy pairs => pairs.map fun x => (x.2, Mem.readRuns m x.1)
  | .gather len n rows ix table packed => (List.range n).map fun q =>
      let x := ofBytes (Mem.readRuns m (sliceRuns ix (4 * q) 4))
      (sliceRuns packed (q * len) len, if x < rows then Mem.readRuns m (sliceRuns table (x * len) len) else List.replicate len 0)
  | .scatter len n rows ix table packed => (List.range n).map fun q =>
      let x := ofBytes (Mem.readRuns m (sliceRuns ix (4 * q) 4))
      if x < rows then (sliceRuns table (x * len) len, Mem.readRuns m (sliceRuns packed (q * len) len)) else ([], [])
  | _ => []

/-- Runs that this device reaches itself, through ports that are up; no error stands and no clasp binds. -/
def ownRuns (s : State) (rs : List Run) : Prop :=
  s.memOk ∧ s.now.clasps = [] ∧ s.now.eccBad = [] ∧
  ∀ r ∈ rs, r.key + r.len ≤ 16 * 2 ^ 64 ∧ ∀ k, r.key ≤ k → k < r.key + r.len → s.now.portDown k = none

/-- The runs that a copy, gather or scatter reads [16 R253, R254]. -/
def engineReads : EngKind → List Run
  | .copy pairs => pairs.flatMap Prod.fst
  | .gather _ _ _ ix table _ => ix ++ table
  | .scatter _ _ _ ix _ packed => ix ++ packed
  | _ => []

/-- An operation's sources are as they were at its acceptance, and no destination overlaps them. -/
def stillSources (s : State) (o : EngOp) (dst : List Run) : Prop :=
  ownRuns s (engineReads o.kind) ∧ ownRuns s dst ∧ o.holes = [] ∧ o.idx = none ∧
  ∀ r ∈ engineReads o.kind, (∀ k, r.key ≤ k → k < r.key + r.len → Mem.get o.mem0 k = Mem.get s.now.mem k) ∧
    ∀ d ∈ dst, ¬ (r.key < d.key + d.len ∧ d.key < r.key + r.len)

/-- One combination of two elements, by type and operation, where FP32 and BF16 are added, or compared as FMIN and FMAX do, and
s32 is added modulo 2^32 or compared as signed [05 R82; 16 R266]. -/
def combineRule (ty op a b : Nat) : Nat :=
  let wide (f : W32 → W32 → W32) : Nat := (f (BitVec.ofNat 32 (a * 2 ^ 16)) (BitVec.ofNat 32 (b * 2 ^ 16))).toNat / 2 ^ 16
  let signed (x : Nat) : Int := (BitVec.ofNat 32 x).toInt
  match ty, op with
  | 0, 0 => (fadd (BitVec.ofNat 32 a) (BitVec.ofNat 32 b)).1.toNat
  | 0, 1 => (fminmax false (BitVec.ofNat 32 a) (BitVec.ofNat 32 b)).1.toNat
  | 0, _ => (fminmax true (BitVec.ofNat 32 a) (BitVec.ofNat 32 b)).1.toNat
  | 1, 0 => addBf16 a b
  | 1, 1 => wide fun x y => (fminmax false x y).1
  | 1, _ => wide fun x y => (fminmax true x y).1
  | _, 0 => (a + b) % 2 ^ 32
  | _, 1 => if signed a ≤ signed b then a else b
  | _, _ => if signed a ≤ signed b then b else a

/-- The values of the positions after the tree's steps 1, 2, 4, …, 2 ^ (n - 1) over `p` positions [16 R266]. -/
def treeAfter (f : Nat → Nat → Nat) (p : Nat) (v : Nat → Nat) : Nat → Nat → Nat
  | 0 => v
  | n + 1 => fun q =>
    if q % (2 * 2 ^ n) = 0 ∧ q + 2 ^ n < p then f (treeAfter f p v n q) (treeAfter f p v n (q + 2 ^ n)) else treeAfter f p v n q

/-- What a collective leaves at its destination, from the contributions of the positions: a reduction's elements by the tree,
from the first element or from the device's own chunk, and the chunks of a gather or an exchange byte by byte [16 R266]. -/
def collLeaves (m : List Host.Cell) (key : Nat) (kind : CollKind) (e ty op : Nat) (c : Nat → List Byte) : Prop :=
  let sz := if ty = 1 then 2 else 4
  let p := participants.length
  let part (q : Nat) : List Byte := c (participants.getD q 0)
  let element (first x q : Nat) : Nat := ofBytes (((part q).drop (sz * (first + x))).take sz)
  let reduced (first : Nat) : Prop := ∀ x, x < e → Mem.num m (key + sz * x) sz = treeAfter (combineRule ty op) p (element first x) 12 0
  let chunks (first : Nat) : Prop := ∀ j y, j < p → y < e * sz → Mem.get m (key + j * (e * sz) + y) = (part j).getD (first + y) 0
  match kind with
  | .allreduce => reduced 0
  | .reducescatter => ∀ i, participants[i]? = some Config.devid.toNat → reduced (i * e)
  | .allgather => chunks 0
  | .alltoall => ∀ i, participants[i]? = some Config.devid.toNat → chunks (i * (e * sz))

/-- The chunks of a collective's source and of its destination [16 R266]. -/
def collChunks : CollKind → Nat × Nat
  | .allreduce => (1, 1)
  | .reducescatter => (participants.length, 1)
  | .allgather => (1, participants.length)
  | .alltoall => (participants.length, participants.length)

/-- An operation has completed: it is gone, its tag is ready, and its number has joined the completed prefix where those
below it had [16 R256, R263]. -/
def opCompleted (s t : State) (o : EngOp) : Prop :=
  (∀ x ∈ t.now.ops, x.id ≠ o.id) ∧
  (∀ g u, o.tag = some g → t.now.strand? o.sid = some u → u.tagrdy.getLsbD g.val = true ∧ u.tagout.getLsbD g.val = false) ∧
  ∀ r, s.now.region? o.region = some r → (r.tl o.ctx).done + 1 = o.num → ∃ r', t.now.region? o.region = some r' ∧ o.num ≤ (r'.tl o.ctx).done

end Sys2Proof.Claims

/-- A result in flight whose replies are all there arrives: its flight is gone, every destination holds what it brings,
fpstat and mxstat gain exactly the bits that it raises, and every other register and the flags are as before. It holds
for memory results, MACQ, the element path, the access queue, the cell array, MEXP's last pass and signet verdicts
[01 R16, R17; 03 R53; 07 R126; 08 R153; 10 R188, R192-R196; 19 R296]. -/
def Sys2Proof.Claims.resultsArrive : Prop :=
  ∀ i s sid fid kind st f, arrivalRule i = some (sid, fid, kind) → s.now.strand? sid = some st → st.flight? fid = some f → kind f.kind →
    s.memOk → (∀ done, f.kind = .mexp done [] → s.now.halts st = false) → f.waits = 0 → f.bufs = [] → f.fails = [] → f.fill = .none → (f.writes.map writeNames).Nodup → noEntry st →
    s.now.upsets.headD 0 &&& f.lanes = 0 →
    ∃ t u, exec i s = .next t ∧ t.now.strand? sid = some u ∧ (∀ g ∈ u.flights, g.id ≠ fid) ∧ (∀ w ∈ f.writes, holdsWrite u w) ∧
      restKept st u f.writes ∧
      (∀ l, (u.lane l).fpstat = (f.fp.filter fun x => x.1 == l).foldl (fun b x => b ||| x.2) (st.lane l).fpstat) ∧
      (∀ l, (u.lane l).mxstat = ((if f.kind = .memory ∨ f.kind = .verdict then [] else f.mx).filter fun x => x.1 == l).foldl
        (fun b x => b ||| if x.2 = 9 then 2 else 1) (st.lane l).mxstat) ∧
      (∀ k, outsideRcbs s k → Mem.get t.now.mem k = Mem.get s.now.mem k)

/-- The access queue's words complete: a dense matrix load fills its handle element by element from the bytes that it read;
casket words act on the casket in order, and a casket read fills its handle with the old values; the queue has room for one
word more [07 R130, R131; 10 R188; 13 R219-R221]. -/
def Sys2Proof.Claims.accessQueueCompletes : Prop :=
  ∀ sid fid s st f, s.now.strand? sid = some st → st.flight? fid = some f → f.waits = 0 → noEntry st → f.writes = [] →
    (∀ m form, f.kind = .access → f.fill = .mld m form → form ≠ .sparse → (f.bufs.map Prod.fst).Nodup →
      ∃ t u, exec (.matrixAccessCompletion sid fid) s = .next t ∧ t.now.strand? sid = some u ∧ (∀ g ∈ u.flights, g.id ≠ fid) ∧
        (t.now.quad st.core st.quad).accessN = (s.now.quad st.core st.quad).accessN - 1 ∧
        ∀ x ∈ f.bufs, ∃ hd, (u.lane x.1).rm m = some hd ∧ hd.rows = rowsOf (st.lane x.1) m ∧ hd.cols = colsOf (st.lane x.1) m ∧
          hd.w = widthOf (st.lane x.1) m ∧ ∀ i j, i < hd.rows → j < hd.cols →
            (hd.at i j).toNat = loadedAt form hd.rows hd.cols (ewBits hd.w) x.2 i j) ∧
    (∀ op m items, f.kind = .casket op m items → (∀ x ∈ items, x.addr < 2 ^ 22) → s.memOk → s.now.eccBad = [] →
      ∃ t u, exec (.matrixAccessCompletion sid fid) s = .next t ∧ t.now.strand? sid = some u ∧ (∀ g ∈ u.flights, g.id ≠ fid) ∧
        (t.now.quad st.core st.quad).accessN = (s.now.quad st.core st.quad).accessN - 1 ∧
        (∀ k, outsideRcbs s k → Mem.get t.now.mem k = Mem.get (casketOn st.core op s.now.mem items).1 k) ∧
        (op = .read ∨ op = .readClr → ∀ l, hasLane f.lanes l = true → ∃ hd, (u.lane l).rm m = some hd ∧
          hd.els.map BitVec.toNat = ((items.zip (casketOn st.core op s.now.mem items).2).filter fun x => x.1.lane == l).map Prod.snd))

/-- A result in flight whose replies are all there delivers exactly its writes and flags; a dense matrix load fills its handle element by
element from its bytes; casket words act on the casket in order, and a casket read gives the old values [01 R16, R17; 03 R53; 07
R126, R130; 08 R153; 10 R188, R192-R196; 13 R219-R221; 19 R296]. -/
def Obligations.ResultsArrive : Prop := Sys2Proof.Claims.resultsArrive ∧ Sys2Proof.Claims.accessQueueCompletes

/-- The arrays' own events: a multiply with a checksum mismatch waits to run again behind those that wait already and is
counted, one that mismatches again ends its task with array error (0x20); the first that waits takes the free array for its own phase; a phase's or a busy interval's end
frees its path; a pass of MEXP that is not the last begins the next; under a pre-emption request the word is abandoned at the end of any pass, and its
group is to issue again; a fragment passed over 63 times is at its limit, and one past it keeps its count [08 R145-R147; 09 R178; 10 R188, R192, R194-R196; 21 R336]. -/
def Obligations.ArrayEvents : Prop :=
  (∀ sid fid s st f dur phase, s.now.strand? sid = some st → st.flight? fid = some f → s.now.upsets.headD 0 &&& f.lanes ≠ 0 →
    (f.kind = .cell true false dur phase → ∃ t, exec (.cellWordPassEnd sid fid) s = .next t ∧
      (t.now.core st.core).rerun = sat16 (s.now.core st.core).rerun ∧ (t.now.quad st.core st.quad).rerunAt.getLast? = some fid ∧
      ((s.now.quad st.core st.quad).cellBusy ≠ none → (t.now.quad st.core st.quad).rerunAt = (s.now.quad st.core st.quad).rerunAt ++ [fid]) ∧
      (∃ u g, t.now.strand? sid = some u ∧ u.lanes = st.lanes ∧ u.flight? fid = some g ∧ g = { f with kind := .cell true true dur phase }) ∧
      sameMemory s t) ∧
    (∀ j, f.kind = .cell true true dur phase → noEntry st → st.kind = .task → (∀ x ∈ st.live, x.2.prv = false) → s.now.job? st.task = some j → j.st = .running →
      ∃ t, exec (.cellWordPassEnd sid fid) s = .next t ∧ (t.now.core st.core).mchk = sat16 (s.now.core st.core).mchk ∧
        ∃ j' rep, t.now.job? st.task = some j' ∧ j'.st = .ending (some rep) false ∧ rep.code = 0x20 ∧
          rep.lanes = s.now.upsets.headD 0 &&& f.lanes ∧ rep.detail.toNat = 6 * 2 ^ 56 + st.quad.val)) ∧
  (∀ sid fid s st f m dur phase, s.now.strand? sid = some st → st.flight? fid = some f → f.kind = .cell m true dur phase →
    (s.now.quad st.core st.quad).rerunAt.head? = some fid → (s.now.quad st.core st.quad).cellBusy = none → phase ≠ 0 →
    ∃ t, exec (.checksumRerunStart sid fid) s = .next t ∧ (t.now.quad st.core st.quad).cellBusy = some (s.now.cycle + phase) ∧
      (t.now.quad st.core st.quad).rerunAt = (s.now.quad st.core st.quad).rerunAt.tail ∧ (s.now.cycle + dur, Instr.cellWordPassEnd sid fid) ∈ t.now.agenda ∧ sameMemory s t) ∧
  (∀ core quad s c, (s.now.quad core quad).cellBusy = some c → c ≤ s.now.cycle →
    ∃ t, exec (.cellPhaseEnd core quad) s = .next t ∧ (t.now.quad core quad).cellBusy = none ∧ sameMemory s t ∧
      ∀ fid st, (s.now.quad core quad).rerunAt.head? = some fid → s.now.all.find? (fun st => st.flights.any fun f => f.id == fid) = some st →
        (s.now.cycle, Instr.checksumRerunStart st.id fid) ∈ t.now.agenda) ∧
  (∀ core quad s c, (s.now.quad core quad).elemBusy = some c → c ≤ s.now.cycle →
    ∃ t, exec (.elementBusyEnd core quad) s = .next t ∧ (t.now.quad core quad).elemBusy = none ∧ sameMemory s t) ∧
  (∀ sid fid s st f done more, s.now.strand? sid = some st → st.flight? fid = some f → f.kind = .mexp done more →
    (∀ n rest, more = n :: rest → s.now.halts st = false → ∃ t u, exec (.mexpPassEnd sid fid) s = .next t ∧ t.now.strand? sid = some u ∧ u.lanes = st.lanes ∧
      u.flight? fid = some { f with kind := .mexp (n :: done) rest, due := s.now.cycle + n } ∧
      (s.now.cycle + n, Instr.mexpPassEnd sid fid) ∈ t.now.agenda) ∧
    (s.now.halts st = true → ∃ t u, exec (.mexpPassEnd sid fid) s = .next t ∧ t.now.strand? sid = some u ∧ restKept st u [] ∧
      (∀ g ∈ u.flights, g.id ≠ fid) ∧ ∃ x ∈ u.redo, x.pc = f.pc ∧ x.pos = f.gpos ∧ x.lanes = f.lanes)) ∧
  (∀ sid slot s st f, s.now.strand? sid = some st → st.frag slot = some f → f.st = .ready → 63 ≤ f.passed →
    ∃ t u, exec (.passedOverLimit sid slot) s = .next t ∧ t.now.strand? sid = some u ∧ u.frag slot = some { f with passed := max 64 f.passed } ∧
      u.lanes = st.lanes ∧ sameMemory s t)

/-- The engines' events: a copy, gather or scatter moves its bytes and is complete; a row of a drain is written, or is
acknowledged; a row that arrives is added to its target's casket words, or discarded where a bank of its target run is free; a collective
with every contribution writes its result: every kind, type and operation by R266's table and tree, an integer sum the sum modulo
2^32 of every element; where the participants disagree it completes without writing; a release that completes
raises its clasp's count by 1 [14 R239; 16 R253-R256, R261-R263, R266-R268]. -/
def Obligations.EngineEvents : Prop :=
  (∀ op s o, s.now.op? op = some o → o.ctx = .copy → o.waits = 0 → o.wrote = true →
    ∃ t, exec (.copyCompletion op) s = .next t ∧ opCompleted s t o) ∧
  (∀ op s o, s.now.op? op = some o → o.ctx = .copy → o.waits = 0 → o.wrote = false → o.late = [] →
    stillSources s o ((engineMoves s.now.mem o.kind).flatMap Prod.fst) →
    (∀ a, o.arr = some a → ownRuns s [{ key := a.key, len := 8 }]) →
    ∃ t, exec (.copyCompletion op) s = .next t ∧ opCompleted s t o ∧
      (∀ k, outsideRcbs s k → (∀ a, o.arr = some a → ¬ (a.key ≤ k ∧ k < a.key + 8)) →
        Mem.get t.now.mem k = Mem.get ((engineMoves s.now.mem o.kind).foldl (fun m x => Mem.writeRuns m x.1 x.2) s.now.mem) k) ∧
      (∀ a, o.arr = some a → (∀ i, i < 8 → outsideRcbs s (a.key + i) ∧
          ∀ x ∈ engineMoves s.now.mem o.kind, ∀ r ∈ x.1, ¬ (r.key ≤ a.key + i ∧ a.key + i < r.key + r.len)) →
        Mem.num t.now.mem a.key 8 = (Mem.num s.now.mem a.key 8 + a.inc) % 2 ^ 64)) ∧
  (∀ op row s o (vs : List W32) first count clr dst, s.now.op? op = some o → o.kind = .drainMem first count clr dst → o.arr = none → o.late = [] →
    o.sent.find? (fun x => x.1 == row) = some (row, vs.map some) → ownRuns s (sliceRuns dst (256 * row) 256) →
    ∃ t, exec (.drainRowCompletion op row) s = .next t ∧ (∀ x ∈ t.now.ops, x.id = op → row ∈ x.rows) ∧
      ∀ k, outsideRcbs s k → Mem.get t.now.mem k =
        Mem.get (Mem.writeRuns s.now.mem (sliceRuns dst (256 * row) 256) (vs.flatMap fun v => lowBytes 4 v.toNat)) k) ∧
  (∀ op row s o x first count clr isInt tbank tcore rank, s.now.op? op = some o → o.kind = .drainAdd first count clr isInt tbank tcore rank →
    o.arr = none → o.late = [] → s.memOk → o.sent.find? (fun x => x.1 == row) = some x →
    ∃ t, exec (.drainRowCompletion op row) s = .next t ∧ (∀ y ∈ t.now.ops, y.id = op → row ∈ y.rows) ∧
      ∀ k, outsideRcbs s k → Mem.get t.now.mem k = Mem.get s.now.mem k) ∧
  (∀ (row : DrainRow) s, ∃ t, exec (.drainRowApply row) s = .next t ∧
    ((∃ i, i < row.count ∧ (s.now.core row.core).bankFree (row.first + i) = true) → sameMemory s t) ∧
    ((∀ i, i < row.count → (s.now.core row.core).bankFree (row.first + i) = false) → s.memOk → s.now.eccBad = [] →
      ∀ k, Mem.get t.now.mem k =
        Mem.get (casketOn row.core (if row.isInt then .addI else .addF) s.now.mem ((row.vals.zipIdx).filterMap fun x => x.1.map fun v =>
          { lane := 0, n := x.2, addr := row.bank * 2 ^ 16 + 256 * row.row + 4 * x.2, v := v })).1 k) ∧
    (row.src = Config.devid.toNat → ∀ o, s.now.op? row.op = some o →
      ∃ due n, s.now.cycle < due ∧ (due, Instr.drainRowCompletion o.id n) ∈ t.now.agenda)) ∧
  (∀ op s o e src dst (c : Nat → List Byte), s.now.op? op = some o → o.kind = .coll .allreduce e 2 0 src [dst] → o.ctx = .coll →
    o.waits = 0 → o.wrote = false → o.lost = false → o.arr = none → o.late = [] → dst.len = 4 * e → ownRuns s [dst] →
    (∀ r ∈ participants, s.now.peers.find? (fun p => p.region == o.region && p.num == o.num && p.rank == r) =
      some { region := o.region, num := o.num, rank := r, kind := .allreduce, e := e, ty := 2, op := 0, bytes := (c r).map some }) →
    ∃ t, exec (.collCompletion op) s = .next t ∧ opCompleted s t o ∧
      ∀ x, x < e → (∀ i, i < 4 → outsideRcbs s (dst.key + 4 * x + i)) →
        Mem.num t.now.mem (dst.key + 4 * x) 4 = (participants.map fun r => ofBytes (((c r).drop (4 * x)).take 4)).sum % 2 ^ 32) ∧
  (∀ op s o kind e ty cop src dst (c : Nat → List Byte), s.now.op? op = some o → o.kind = .coll kind e ty cop src [dst] → o.ctx = .coll →
    ty ≤ 2 → cop ≤ 2 → o.waits = 0 → o.wrote = false → o.lost = false → o.arr = none → o.late = [] → ownRuns s [dst] →
    dst.len = (collChunks kind).2 * (e * if ty = 1 then 2 else 4) →
    (∀ r ∈ participants, (c r).length = (collChunks kind).1 * (e * if ty = 1 then 2 else 4)) →
    (∀ r ∈ participants, s.now.peers.find? (fun p => p.region == o.region && p.num == o.num && p.rank == r) =
      some { region := o.region, num := o.num, rank := r, kind := kind, e := e, ty := ty, op := cop, bytes := (c r).map some }) →
    (∀ i, i < dst.len → outsideRcbs s (dst.key + i)) →
    ∃ t, exec (.collCompletion op) s = .next t ∧ opCompleted s t o ∧ collLeaves t.now.mem dst.key kind e ty cop c) ∧
  (∀ op s o kind e ty cop src dst r p, s.now.op? op = some o → o.kind = .coll kind e ty cop src dst → o.ctx = .coll →
    o.waits = 0 → o.wrote = false → o.lost = false → o.late = [] → r ∈ participants →
    (∀ r ∈ participants, (s.now.peers.find? fun p => p.region == o.region && p.num == o.num && p.rank == r).isSome) →
    s.now.peers.find? (fun p => p.region == o.region && p.num == o.num && p.rank == r) = some p →
    (p.kind, p.e, p.ty, p.op) ≠ (kind, e, ty, cop) →
    ∃ t, exec (.collCompletion op) s = .next t ∧ opCompleted s t o ∧ ∀ k, outsideRcbs s k → Mem.get t.now.mem k = Mem.get s.now.mem k) ∧
  (∀ key rel s c, s.memOk → peerOf key = none → s.now.clasp? key = some c → (∃ r ∈ c.rels, r.id = rel) →
    (∀ c ∈ s.now.clasps, ∀ r ∈ c.runs, ¬ (r.key < key + 8 ∧ key < r.key + r.len)) →
    ∃ t c', exec (.claspReleaseCompletion key rel) s = .next t ∧ Mem.num t.now.mem key 8 = (Mem.num s.now.mem key 8 + 1) % 2 ^ 64 ∧
      t.now.clasp? key = some c' ∧ (∀ r ∈ c'.rels, r.id ≠ rel) ∧ c'.order = c.order ∧ c'.log = c.log)

namespace Sys2Proof.Claims
open Sys2Proof.Machine

/-! ### Events of the scheduler -/

/-- Every fragment that is parked on a wait of this kind, with a place to fall to, is ready there. -/
def allGoOn (s t : State) (w : Wait) : Prop :=
  ∀ st ∈ s.now.all, ∀ slot f since pc pos, st.frag slot = some f → f.st = .parked w since → f.aside = none → f.pend = some (.fall pc pos) →
    ∃ u, t.now.strand? st.id = some u ∧ u.frag slot = some { f with st := .ready, pend := none, pc := pc, pos := pos }

/-- Every fragment that is parked on a wait falls to the packet after its group, once it goes on. -/
def allFall (s : State) (w : Wait) : Prop :=
  ∀ st ∈ s.now.all, ∀ x ∈ st.live, ∀ n, x.2.st = .parked w n → x.2.aside = none ∧ ∃ pc pos, x.2.pend = some (.fall pc pos)

/-- The intake's next entry can be read, and its low six bits and its address are these [17 R288]. -/
def nextEntry (s : State) (v va : Nat) : Prop :=
  s.now.intakeOpen = true ∧ s.now.intakeEntry = some (va + v) ∧ v < 64 ∧ va % 64 = 0

/-- A task's own report, as a fault leaves it: the job waits for its end with this report. -/
def endsWith (t : State) (tid : Nat) (p : Report → Prop) : Prop :=
  ∃ j rep, t.now.job? tid = some j ∧ j.st = .ending (some rep) false ∧ p rep

/-- A strand of a running task. -/
def taskStrand (s : State) (sid : Nat) (st : Strand) : Prop :=
  s.now.strand? sid = some st ∧ st.kind = .task ∧ ∃ j, s.now.job? st.task = some j ∧ j.st = .running

/-- A fragment at system level, with nothing pending in its lowest lane, takes a fault as a system fault: it runs no nested
handler, and its region sends system faults to the handler that is set [21 R323, R327]. -/
def takesSystem (s : State) (st : Strand) (f : Frag) : Prop :=
  f.prv = true ∧ f.nest = false ∧ s.now.sysEntry ≠ 0 ∧ (s.now.regionOf st).sysEnds = false ∧ st.settled (oneLane (lowLane f.mask)) = true

/-- The fragment has entered the system handler in its lowest lane [21 R325]. -/
def inSystem (s t : State) (sid : Nat) (slot : Fin 4) (f : Frag) (code : Nat) : Prop :=
  ∃ u g, t.now.strand? sid = some u ∧ u.frag slot = some g ∧ g.prv = true ∧ g.pprv = true ∧ g.pc = s.now.sysEntry ∧ g.pos = 0 ∧
    g.syspc = f.pc ∧ g.mask = oneLane (lowLane f.mask) ∧ g.syscause.toNat % 256 = code

/-- Two strands hold the same registers. -/
def sameFiles (a b : Strand) : Prop :=
  a.k = b.k ∧ a.flags = b.flags ∧ ∀ l, (a.lane l).g = (b.lane l).g ∧ (a.lane l).p = (b.lane l).p ∧ (a.lane l).m = (b.lane l).m

end Sys2Proof.Claims

/-- Placement takes a task of the highest region priority that fits: it is placed on its core, and its launch follows; a task
that has waited 1 ms is noted. A launch whose ranges are captured starts the task's strands, strand n on quadrant n mod 4
with its threads' lanes, its argument in k0:k1 and every other register zero; a capture that fails starts the system
strand, or ends the task: for a table entry with an uncorrectable error, where there is no system handler, and where the region
ends its tasks at system faults [01 R10; 09 R163, R164; 13 R210; 17 R276, R284]. -/
def Sys2Proof.Claims.taskStarts : Prop :=
  (∀ tid s j c, s.now.nextPlaced = some (j, c) → j.id = tid →
    (∀ x ∈ s.now.releasedJobs, (s.now.coreFor x).isSome = true → s.now.waitsForRestore x = false → s.now.prioOf x.region ≤ s.now.prioOf j.region) ∧
    ∃ t due, exec (.taskPlacement tid) s = .next t ∧ s.now.cycle < due ∧ (due, Instr.taskLaunch tid) ∈ t.now.agenda ∧
      ∀ x ∈ t.now.jobs, x.id = tid → x.st = .placed ∧ x.core = c) ∧
  (∀ tid s, ∃ t, exec (.placementWaitLimit tid) s = .next t ∧ sameMemory s t ∧
    ∀ j, s.now.job? tid = some j → j.st = .released → t.now.job? tid = some { j with over1ms := true }) ∧
  (∀ tid s j r ranges caps at_, s.now.job? tid = some j → s.now.region? j.region = some r → j.st = .placed ∨ j.st = .walkFault →
    s.now.walking tid = false → ranges = (if j.fin then [] else j.leases ++ r.leases) →
    (s.now.captureFrom r (ranges.drop j.walkAt.1) j.walkAt.1 j.walkAt.2 j.caps = (caps, at_, none) → j.entry.toNat % 12 = 0 →
      ∃ t, exec (.taskLaunch tid) s = .next t ∧ (∃ x, t.now.job? tid = some x ∧ x.st = .running ∧ x.caps = caps) ∧
        ∀ n, n < j.strands → ∃ st ∈ t.now.all, st.task = tid ∧ st.strandid = BitVec.ofNat 32 n ∧ st.quad.val = n % 4 ∧ st.core = j.core ∧
          st.region = r.id ∧ st.rkpair 0 = j.arg ∧ (∀ q : KReg, 2 ≤ q.val → st.rk q = 0) ∧ st.flights = [] ∧
          (∀ l, (st.lane l).present = decide (l.val < j.threads) ∧ (st.lane l).exited = false ∧ (∀ q, (st.lane l).rg q = 0) ∧ ∀ m, (st.lane l).rm m = none) ∧
          ∃ f, st.frag 0 = some f ∧ f.pc = j.entry ∧ f.pos = 0 ∧ f.st = .ready ∧ f.prv = false ∧ ∀ l, hasLane f.mask l = decide (l.val < j.threads)) ∧
    (∀ e, s.now.captureFrom r (ranges.drop j.walkAt.1) j.walkAt.1 j.walkAt.2 j.caps = (caps, at_, some e) →
      (e.fail.code ≠ 0x21 → s.now.sysEntry ≠ 0 → r.sysEnds = false → ∃ t st f, exec (.taskLaunch tid) s = .next t ∧ st ∈ t.now.all ∧ st.task = tid ∧ st.kind = .launchWalk ∧
        st.frag 0 = some f ∧ f.prv = true ∧ f.pc = s.now.sysEntry ∧ f.mask = 1) ∧
      (e.fail.code = 0x21 ∨ s.now.sysEntry = 0 ∨ r.sysEnds = true → ∃ t, exec (.taskLaunch tid) s = .next t ∧ endsWith t tid fun rep => rep.code = e.fail.code)))

/-- A task whose end is ready ends: it has finished, its banks and scratchpad are free. An ending region without tasks and
children is unlinked. A spawn tray whose timer has expired launches its records, one lane each with its argument in g0:g1
[13 R202, R217; 17 R279, R280, R286, R287]. -/
def Sys2Proof.Claims.taskAndRegionEnds : Prop :=
  (∀ tid s j, s.now.job? tid = some j → s.now.endReady j = true → (j.st = .running ∨ ∃ r c, j.st = .ending r c) →
    ∃ t, exec (.taskEnd tid) s = .next t ∧ (∀ x ∈ t.now.jobs, x.id = tid → ∃ g, x.st = .finished g ∧ (g = true ↔ j.st = .running)) ∧
      (∀ c, ∀ r ∈ (t.now.core c).banks, r.task ≠ tid) ∧ ∀ r ∈ (t.now.core j.core).scratch, r.task ≠ tid) ∧
  (∀ rid s r, s.now.region? rid = some r → r.live = false → r.livetasks = 0 → r.children = 0 → r.parent ≠ rid →
    ∃ t, exec (.regionEndCompletion rid) s = .next t ∧ (∀ x ∈ t.now.regions, x.id ≠ rid) ∧
      ∀ p, s.now.region? r.parent = some p → ∃ p', t.now.region? r.parent = some p' ∧ p'.children = p.children - 1) ∧
  (∀ rid tray s r y c q, s.now.region? rid = some r → y = r.trays[tray] → y.due ≠ 0 → y.due ≤ s.now.cycle → r.det = false → y.recs ≠ [] →
    s.now.freeQuad = some (c, q) → s.now.roomFor rid 1 0 = true → y.entry.toNat % 12 = 0 →
    ∃ t st, exec (.trayTimerExpiry rid tray) s = .next t ∧ st ∈ t.now.all ∧ st.kind = .spawned ∧ st.core = c ∧ st.quad = q ∧ st.region = rid ∧
      (∀ l, (st.lane l).present = decide (l.val < y.recs.length)) ∧
      (∀ (l : LaneId) x, y.recs[l.val]? = some x → (st.lane l).rpair 0 = x.arg ∧ (st.lane l).parent = x.parent) ∧
      ∃ f, st.frag 0 = some f ∧ f.pc = y.entry ∧ f.pos = 0 ∧ f.st = .ready)

/-- Placement takes a task of the highest region priority that fits, and its launch starts its strands with their lanes, argument and zero
registers, or the system strand where a capture fails; a task that ends frees its banks and scratchpad, an ended region without
tasks or children is unlinked, and an expired tray launches its records, one lane each [01 R10; 09 R163, R164; 13 R202, R210,
R217; 17 R276, R279, R280, R284, R286, R287]. -/
def Obligations.TasksStartAndEnd : Prop := Sys2Proof.Claims.taskStarts ∧ Sys2Proof.Claims.taskAndRegionEnds

/-- The scheduler links a well-formed control block below a live parent, or refuses it with state 3, and every RGNEW that
waits for it goes on. The intake takes its next entry: a batch of 2^v tasks, a region to end, a region to link, for which it
then waits, or a reserved entry, which it passes over. A region's oldest report is written at its fault task's argument, as
R329 lays it out; that its seq is the count of reports before it, which then rises, is the model's reading (log 26) [17 R269, R270, R279, R288; 21 R329, R330]. -/
def Obligations.RegionAndIntakeEvents : Prop :=
  (∀ rcb va space s p, s.memOk → (rcb, va, space) ∈ s.now.links → (∀ x ∈ s.now.links, x.1 = rcb → x = (rcb, va, space)) →
    Mem.num s.now.mem (rcb + 30) 1 = 0 → s.now.region? rcb = none → (s.now.all.map Strand.id).Nodup → s.now.clasps = [] → allFall s (.rgnew rcb) →
    (if Mem.num s.now.mem rcb 8 = 0 then s.now.region? space else s.now.regionAt space (Mem.num s.now.mem rcb 8)) = some p →
    (s.now.badRcb rcb space (some p) = false → ∃ t r, exec (.regionLink rcb) s = .next t ∧ t.now.region? rcb = some r ∧ r.live = true ∧
      r.parent = p.id ∧ r.depth = p.depth + 1 ∧ r.prio = (if Mem.num s.now.mem (rcb + 28) 1 = 0 then p.prio else Mem.num s.now.mem (rcb + 28) 1 - 1) ∧
      r.slots ≤ p.slots ∧ r.blocks ≤ p.blocks ∧ r.banks ≤ p.banks ∧ r.scratch ≤ p.scratch ∧ r.livetasks = 0 ∧ r.children = 0 ∧
      (∀ x ∈ t.now.links, x.1 ≠ rcb) ∧ allGoOn s t (.rgnew rcb)) ∧
    (s.now.badRcb rcb space (some p) = true → ∃ t, exec (.regionLink rcb) s = .next t ∧ t.now.region? rcb = none ∧
      Mem.num t.now.mem (rcb + 30) 1 = 3 ∧ allGoOn s t (.rgnew rcb))) ∧
  (∀ s v va k r ls, nextEntry s v va → v ≤ 20 → va + v ≠ 0 → s.now.recKey s.now.rootRcb va = some k →
    ¬ (1 ≤ Mem.num s.now.mem (k + 63) 1 ∧ Mem.num s.now.mem (k + 63) 1 ≤ 3) → recFormed s.now.mem k (2 ^ v) →
    (if Mem.num s.now.mem (k + 16) 8 = 0 then s.now.region? s.now.rootRcb else s.now.regionAt s.now.rootRcb (Mem.num s.now.mem (k + 16) 8)) = some r →
    r.live = true → s.now.readLeases s.now.rootRcb (Mem.num s.now.mem (k + 24) 8) = some ls →
    ∃ t, exec .intakeTaskEntry s = .next t ∧ ∀ i, i < 2 ^ v → ∃ j ∈ t.now.jobs, j.recKey = k ∧ j.idx = i ∧ j.n = 2 ^ v ∧ j.region = r.id) ∧
  (∀ s va k r, nextEntry s 62 va → va % 256 = 0 → s.now.recKey s.now.rootRcb va = some k → s.now.region? k = some r → r.live = true →
    k ≠ s.now.rootRcb → ∃ t r', exec .intakeRgendEntry s = .next t ∧ t.now.region? k = some r' ∧ r'.live = false) ∧
  (∀ s va k, nextEntry s 63 va → va % 256 = 0 → s.now.recKey s.now.rootRcb va = some k → Mem.num s.now.mem (k + 30) 1 = 0 →
    ∃ t, exec .intakeRgnewEntry s = .next t ∧ t.now.intake = some k ∧ t.now.links = s.now.links ++ [(k, va, s.now.rootRcb)]) ∧
  (∀ s v va, nextEntry s v va → va + v = 0 ∨ (21 ≤ v ∧ v ≤ 61) → s.now.clasps = [] → s.memOk →
    ∃ t, exec .intakeSkipEntry s = .next t ∧ Mem.num t.now.mem (s.now.rootRcb + 160) 4 = (Mem.num s.now.mem (s.now.rootRcb + 160) 4 + 1) % 2 ^ 32 ∧
      t.now.jobs = s.now.jobs ∧ t.now.regions = s.now.regions) ∧
  (∀ rid s x r rest k a, s.now.region? rid = some x → x.reports = r :: rest → s.now.recKey x.faultspace x.faulttask.toNat = some k →
    ¬ (1 ≤ Mem.num s.now.mem (k + 63) 1 ∧ Mem.num s.now.mem (k + 63) 1 ≤ 3) → Mem.num s.now.mem (k + 16) 8 = 0 → s.now.clasps = [] → s.memOk →
    s.now.schedKeys rid (Mem.num s.now.mem (k + 8) 8) 64 = some ((List.range 64).map fun i => a + i) →
    (∀ i, i < 64 → outsideRcbs s (a + i) ∧ outsideQueues s (a + i) ∧ a + i ≠ k + 63) →
    ∃ t, exec (.faultReportDequeue rid) s = .next t ∧ Mem.num t.now.mem a 1 = r.code % 2 ^ 8 ∧ Mem.num t.now.mem (a + 1) 1 = r.reason % 2 ^ 8 ∧
      Mem.num t.now.mem (a + 2) 2 = r.flags % 2 ^ 16 ∧ Mem.num t.now.mem (a + 4) 4 = r.lanes.toNat ∧ Mem.num t.now.mem (a + 8) 8 = r.task % 2 ^ 64 ∧
      Mem.num t.now.mem (a + 16) 8 = r.object.toNat ∧ Mem.num t.now.mem (a + 24) 8 = r.pc.toNat ∧ Mem.num t.now.mem (a + 32) 8 = r.info.toNat ∧
      Mem.num t.now.mem (a + 48) 8 = r.detail.toNat ∧ Mem.num t.now.mem (a + 56) 4 = x.seq % 2 ^ 32 ∧ Mem.num t.now.mem (a + 60) 4 = x.lost % 2 ^ 32 ∧
      ∃ x', t.now.region? rid = some x' ∧ rest <+: x'.reports ∧ x'.seq = (x.seq + 1) % 2 ^ 32)

/-- Pre-emption: a requested task halts; a halted task that has come to rest is saved, its strands leave the device and their
registers stand in its saved context; a saved task that fits is restored on its core with those registers, and runs
[10 R194; 21 R338-R340]. -/
def Obligations.PreemptionSavesAndRestores : Prop :=
  (∀ tid s j, s.now.job? tid = some j → j.st = .running → s.now.saveRoom tid = true →
    ∃ t x, exec (.preemptionRequest tid) s = .next t ∧ t.now.job? tid = some x ∧ x.st = .halting ∧ sameMemory s t ∧ t.now.strands = s.now.strands) ∧
  (∀ tid s j, s.now.job? tid = some j → s.now.saveReady j = true → (s.now.all.map Strand.id).Nodup →
    ∃ t x y, exec (.contextSave tid) s = .next t ∧ t.now.job? tid = some x ∧ x.st = .saved ∧ y ∈ t.now.saved ∧ y.job = tid ∧
      ∀ st ∈ s.now.all, st.serves tid = true → (∀ u ∈ t.now.all, u.id ≠ st.id) ∧
        ∃ z ∈ y.strands, z.id = st.id ∧ sameFiles z st ∧ ∀ l, (z.lane l).watch = none) ∧
  (∀ tid s j y c, s.now.job? tid = some j → s.now.saved.find? (fun x => x.job == tid) = some y → s.now.restoreCore j y = some c →
    (∀ w ∈ s.now.eccBad, 8 * w / 2 ^ 96 ≠ 1 + tid) →
    ∃ t x, exec (.taskRestore tid) s = .next t ∧ t.now.job? tid = some x ∧ x.st = .running ∧ x.core = c ∧ (∀ z ∈ t.now.saved, z.job ≠ tid) ∧
      ∀ z ∈ y.strands, z.id ≠ 0 → ∃ u ∈ t.now.all, u.id = z.id ∧ u.core = c ∧ u.quad = z.quad ∧ u.k = z.k ∧
        (∀ l, (u.lane l).g = (z.lane l).g ∧ (u.lane l).p = (z.lane l).p) ∧ (z.redo = [] → sameFiles u z))

/-- A held trap of a lane is taken at its fragment's boundary like any user fault, and cleared. A wait of 2^34 cycles, or a
system handler of 2^30 cycles, raises watchdog (0x22) with its wait code: it ends the task of code at user level; at system level
it is a system fault, and inside a nested handler it ends the task; that the watchdog is delivered so at system level is the model's
reading of R323, R325 and R327 (log 47). An uncorrectable error that scrubbing
meets is counted and reported to the root region. A word that is no instruction raises 0x01 with the word and its position
[02 R28; 21 R323-R325, R327, R335-R337, R393]. -/
def Obligations.FaultEvents : Prop :=
  (∀ sid slot s st f l h, s.now.strand? sid = some st → st.frag slot = some f → f.st = .ready → f.handler = none → f.prv = false → f.begun = none →
    hasLane f.mask l = true → (st.lane l).held = [h] → h.code ≠ 0x20 → h.code ≠ 0x22 → (Trap.user h.code 0 0).delivery = .user →
    (∀ k, k ≠ l → hasLane f.mask k = true → (st.lane k).held = []) → (s.now.regionOf st).handler ≠ 0 → st.settled (oneLane l) = true →
    ∃ t u g, exec (.heldTrapDelivery sid slot) s = .next t ∧ t.now.strand? sid = some u ∧ (u.lane l).held = [] ∧ u.frag slot = some g ∧
      g.handler.isSome = true ∧ g.traplanes = oneLane l ∧ g.trapcause = BitVec.ofNat 32 h.code ∧ g.trapinfo = h.info ∧ g.trappc = f.pc ∧
      g.mask = oneLane l ∧ g.pc = (s.now.regionOf st).handler ∧ g.pos = 0 ∧ ∀ k, (u.lane k).g = (st.lane k).g) ∧
  (∀ sid slot s st f w since code, taskStrand s sid st → st.frag slot = some f → f.st = .parked w since → since + 2 ^ 34 ≤ s.now.cycle →
    w.code = some code →
    (f.prv = false → ∃ t, exec (.watchdogParkExpiry sid slot) s = .next t ∧
      endsWith t st.task fun rep => rep.code = 0x22 ∧ rep.detail.toNat = 9 * 2 ^ 56 + code ∧ rep.pc = f.pc) ∧
    (takesSystem s st f → ∃ t, exec (.watchdogParkExpiry sid slot) s = .next t ∧ inSystem s t sid slot f 0x22)) ∧
  (∀ sid slot s st f r, taskStrand s sid st → st.frag slot = some f → f.sysrec = some r → r.since + 2 ^ 30 ≤ s.now.cycle →
    f.st = .ready → f.prv = true →
    (f.nest = true ∨ s.now.sysEntry = 0 → ∃ t, exec (.watchdogHandlerExpiry sid slot) s = .next t ∧
      endsWith t st.task fun rep => rep.code = 0x22 ∧ rep.detail.toNat = 9 * 2 ^ 56 + 11) ∧
    (takesSystem s st f → ∃ t, exec (.watchdogHandlerExpiry sid slot) s = .next t ∧ inSystem s t sid slot f 0x22)) ∧
  (∀ key s x, s.now.region? s.now.rootRcb = some x → x.faulttask ≠ 0 → x.reports.length < 16 →
    ∃ t x', exec (.scrubUncorrectable key) s = .next t ∧ key / 8 ∈ t.now.eccBad ∧ t.now.boot.eccunc = satNext s.now.boot.eccunc ∧
      t.now.region? s.now.rootRcb = some x' ∧ (∃ rep, x'.reports = x.reports ++ [rep] ∧ rep.code = 0x21) ∧ sameMemory s t) ∧
  (∀ w (at_ : Fin 3) s, ∃ t, exec (.illegalEncoding w at_) s = .next (s.trap t) ∧ t.code = 0x01 ∧ t.info.toNat = w.toNat + at_.val * 2 ^ 32)

namespace Sys2Proof.Claims
open Sys2Proof.Machine

/-! ### Signet homes -/

/-- A request of this device stands at its home. -/
def stands (s : State) (req : Nat) (q : SigReq) : Prop :=
  s.now.sigs.find? (fun r => r.id == req) = some q ∧ q.remote = false ∧ q.id ≤ s.now.seq ∧ q.waits = 0 ∧ q.got = []

/-- It asks this, and no byte of a creation record that it reads has to come from a peer. -/
def atHome (s : State) (req : Nat) (q : SigReq) (ask : SigAsk) : Prop := stands s req q ∧ q.ask = ask ∧ s.now.recordNeeds q = []

/-- The descriptor that a signet names [19 R291, R293]. -/
def named (s : State) (lo : W64) : Desc := s.now.desc (lo.toNat / 2 ^ 12 % 2 ^ 40)

/-- A signet's check value holds for a descriptor in use [19 R292, R296]. -/
def checks (x : Desc) (lo chk : W64) : Prop := x.st ≠ 0 ∧ chk = sigCheck lo x.gen

/-- The code and the reason of a failed check [19 R296]. -/
def checkCode (x : Desc) (lo chk : W64) : Nat × Nat := if chk = sigCheck lo (x.gen - 1) then (0x1D, 1) else (0x1C, 3)

/-- A failed verdict of a request's lane [19 R296]. -/
def failedVerdict (q : SigReq) (code reason : Nat) : Verdict :=
  { lane := q.lane, code := code, info := BitVec.ofNat 64 (q.first.toNat % 2 ^ 59 + reason * 2 ^ 59) }

/-- A request is answered: it is gone, its lane's writes or its failure have joined its word's verdict, which sets out with the
last answer; registers stay [19 R296]. -/
def answered (s t : State) (q : SigReq) (ws : List RegWrite) (bad : List Verdict) : Prop :=
  (∀ x ∈ t.now.sigs, x.id ≠ q.id) ∧
  ∀ st f, s.now.strand? q.sid = some st → st.flight? q.fid = some f →
    ∃ u g, t.now.strand? q.sid = some u ∧ sameFiles u st ∧ u.flight? q.fid = some g ∧ g.writes = f.writes ++ ws ∧
      g.fails = f.fails ++ bad ∧ g.waits = f.waits - 1 ∧ g.marks = f.marks ∧
      (f.waits ≤ 1 → ∃ due, s.now.cycle < due ∧ (due, Instr.signetVerdictArrival q.sid q.fid) ∈ t.now.agenda)

/-- The writes of a 64-bit number to a pair. -/
def pairWrites (l : LaneId) (r : GReg) (v : W64) : List RegWrite :=
  [.g l r (BitVec.ofNat 32 v.toNat), .g l (r.plus 1) (BitVec.ofNat 32 (v.toNat / 2 ^ 32))]

/-! ### The swap engine -/

/-- A fetch has failed with a cause: it is gone, its number joins the completed prefix, and the layer holds the cause
[19 R315]. -/
def fetchFailed (s t : State) (rid layer cause : Nat) : Prop :=
  (∀ f ∈ t.now.fetches, ¬ (f.region = rid ∧ f.layer = layer)) ∧ (rid, layer, cause) ∈ t.now.swapFail ∧
  (∀ c ∈ t.now.clasps, c.name ≠ .layer rid layer) ∧
  ∀ r, s.now.region? rid = some r → ∃ r', t.now.region? rid = some r' ∧ (r.tl .swap).issued ≤ (r'.tl .swap).issued

end Sys2Proof.Claims

/-- The home of a signet. HNEW's request makes a descriptor of a readable creation record: live, of weight 2^47, with the
record and the owner region noted; the lane's quad receives the signet. HDEREF's gets the base address of the shard that it
names; HFIN's sets the finaliser; a record whose bytes lie at peers is asked of them first. A post adds its weight below the total; at the total the descriptor dies: it is free, its
generation is one more, and a tensor's finaliser is released, a cell's inner signet dropped; past the total it dies, and the post
fails and changes neither its sum nor its clasp count. A check that fails is the
lane's failed verdict [19 R293, R294, R296, R297, R299-R304]. -/
def Sys2Proof.Claims.signetHomeEvents : Prop :=
  (∀ req s q bs, atHome s req q .new → s.now.shards q.owner q.lo.toNat = some bs → (∀ b ∈ bs, s.now.mapped q.owner b = true) →
    ∃ t n lo, exec (.homeVerdict req) s = .next t ∧ 1 ≤ n ∧ (s.now.desc n).st = 0 ∧ (t.now.desc n).st = 1 ∧
      (t.now.desc n).gen = (s.now.desc n).gen ∧ (t.now.desc n).total = 2 ^ 47 ∧ (t.now.desc n).returned = 0 ∧ (t.now.desc n).record = q.lo ∧
      (t.now.desc n).finEntry = 0 ∧ (t.now.desc n).owner = q.owner ∧
      lo = BitVec.ofNat 64 (Config.devid.toNat + n * 2 ^ 12 + 47 * 2 ^ 52) ∧
      answered s t q (quadWrites q.lane q.reg (lo.toNat + 2 ^ 64 * (sigCheck lo (s.now.desc n).gen).toNat)) []) ∧
  (∀ req s q n bs b, atHome s req q (.deref n) → checks (named s q.lo) q.lo q.chk → (named s q.lo).st = 1 →
    s.now.shards (named s q.lo).owner (named s q.lo).record.toNat = some bs → bs[n]? = some b → s.now.mapped (named s q.lo).owner b = true →
    ∃ t, exec (.homeVerdict req) s = .next t ∧ answered s t q (pairWrites q.lane q.reg b) [] ∧ sameMemory s t) ∧
  (∀ req s q, stands s req q → q.ask ≠ .drop → s.now.recordNeeds q ≠ [] → ∃ t r, exec (.homeVerdict req) s = .next t ∧ sameMemory s t ∧
    r ∈ t.now.sigs ∧ r.id = q.id ∧ r.ask = q.ask ∧ r.lo = q.lo ∧ r.waits = (s.now.recordNeeds q).length) ∧
  (∀ req s q e a, atHome s req q (.fin e a) → checks (named s q.lo) q.lo q.chk → (named s q.lo).st = 1 →
    ∃ t, exec (.homeVerdict req) s = .next t ∧ answered s t q [] [] ∧ sameMemory s t ∧
      t.now.desc (named s q.lo).index = { named s q.lo with finEntry := e, finArg := a }) ∧
  (∀ req s q, (∃ n, atHome s req q (.deref n)) ∨ (∃ e a, atHome s req q (.fin e a)) → ¬ checks (named s q.lo) q.lo q.chk →
    ∃ t, exec (.homeVerdict req) s = .next t ∧
      answered s t q [] [failedVerdict q (checkCode (named s q.lo) q.lo q.chk).1 (checkCode (named s q.lo) q.lo q.chk).2]) ∧
  (∀ req s q e, atHome s req q .drop → q.sid ≠ 0 → e = q.lo.toNat / 2 ^ 52 % 2 ^ 6 →
    (checks (named s q.lo) q.lo q.chk → (named s q.lo).returned + 2 ^ e < (named s q.lo).total →
      ∃ t, exec (.dropPostApply req) s = .next t ∧ answered s t q (quadWrites q.lane q.reg 0) [] ∧
        t.now.desc (named s q.lo).index = { named s q.lo with returned := (named s q.lo).returned + 2 ^ e, clasp := (named s q.lo).clasp + 1 }) ∧
    (checks (named s q.lo) q.lo q.chk → (named s q.lo).returned + 2 ^ e = (named s q.lo).total →
      ∃ t, exec (.dropPostApply req) s = .next t ∧ answered s t q (quadWrites q.lane q.reg 0) [] ∧
        (t.now.desc (named s q.lo).index).st = 0 ∧ (t.now.desc (named s q.lo).index).gen = (named s q.lo).gen + 1 ∧
        ((named s q.lo).st = 1 → (named s q.lo).finEntry ≠ 0 → ∀ r, s.now.region? (named s q.lo).owner = some r → r.live = true →
          ∃ j ∈ t.now.jobs, j.fin = true ∧ j.st = .released ∧ j.entry = (named s q.lo).finEntry ∧ j.arg = (named s q.lo).finArg ∧ j.region = r.id) ∧
        ((named s q.lo).st ≠ 1 → ∃ p ∈ t.now.sigs, p.ask = .drop ∧ p.lo = (named s q.lo).innerLo ∧ p.chk = (named s q.lo).innerChk ∧
          p.owner = (named s q.lo).owner)) ∧
    (checks (named s q.lo) q.lo q.chk → (named s q.lo).total < (named s q.lo).returned + 2 ^ e →
      ∃ t, exec (.dropPostApply req) s = .next t ∧ answered s t q [] [failedVerdict q 0x1D 2] ∧
        t.now.desc (named s q.lo).index = { named s q.lo with st := 0, gen := (named s q.lo).gen + 1 }) ∧
    (¬ checks (named s q.lo) q.lo q.chk → ∃ t, exec (.dropPostApply req) s = .next t ∧ t.now.descs = s.now.descs ∧
      answered s t q [] [failedVerdict q (checkCode (named s q.lo) q.lo q.chk).1 (checkCode (named s q.lo) q.lo q.chk).2]))

/-- The swap engine. The first request that can start gets the next number of its region's swap timeline: a fetch is in
flight with its destination bound to the layer's clasp, or the layer holds cause 4 or 5 where the source or the destination
fails its check, cause 1 or 2 where its source lies behind a CXL or host port that is down. A fetch whose bytes are all there completes: its number joins the completed prefix and its clasp's order
rises. A fetch that fails, or has no answer in 10 ms, leaves its cause: 3 for the latter, 1 where only reads of expansion
memory are left; that, and the causes of a port that is down, are the model's choices where R375 does not give them (log 32). A layer's eviction ends with
state ABSENT [16 R263; 19 R309, R311-R313, R315; 23 R375]. -/
def Sys2Proof.Claims.swapEngineEvents : Prop :=
  (∀ rid layer s q r, s.now.nextFetch = some q → q.region = rid → q.layer = layer → s.now.region? rid = some r →
    ∃ t r', exec (.swapFetchStart rid layer) s = .next t ∧ (∀ x ∈ t.now.swapq, ¬ (x.region = rid ∧ x.layer = layer)) ∧
      t.now.region? rid = some r' ∧ (r'.tl .swap).issued = (r.tl .swap).issued + 1 ∧
      ((∃ f ∈ t.now.fetches, f.region = rid ∧ f.layer = layer ∧ f.num = (r.tl .swap).issued + 1 ∧
          (∃ c ∈ t.now.clasps, c.name = .layer rid layer ∧ c.runs = f.dst ∧ c.order = 0) ∧
          (f.waits = 0 → ∃ due, s.now.cycle < due ∧ (due, Instr.swapFetchCompletion rid layer) ∈ t.now.agenda)) ∨
        fetchFailed s t rid layer 4 ∨ fetchFailed s t rid layer 5 ∨
        (fetchFailed s t rid layer 1 ∧ ∃ port : Fin 8, s.now.cxlUp[port] = false) ∨
        (fetchFailed s t rid layer 2 ∧ ∃ port : Fin 2, s.now.host.portUp[port] = false))) ∧
  (∀ rid layer s r f, s.now.region? rid = some r → s.now.fetch? rid layer = some f → f.waits = 0 → s.now.eccBad = [] →
    (∀ x ∈ f.src, s.now.runDown x = none) →
    ∃ t, exec (.swapFetchCompletion rid layer) s = .next t ∧ (∀ x ∈ t.now.fetches, ¬ (x.region = rid ∧ x.layer = layer)) ∧
      ((r.tl .swap).done + 1 = f.num → ∃ r', t.now.region? rid = some r' ∧ f.num ≤ (r'.tl .swap).done) ∧
      ∀ c ∈ t.now.clasps, c.name = .layer rid layer → c.rels = [] ∧ ∃ c' ∈ s.now.clasps, c'.name = c.name ∧ c.runs = c'.runs ∧ c.order = c'.order + 1) ∧
  (∀ rid layer cause s r f, s.now.region? rid = some r → s.now.fetch? rid layer = some f →
    (∃ t, exec (.swapFetchFailure rid layer cause) s = .next t ∧ fetchFailed s t rid layer cause) ∧
    (f.waits ≠ 0 ∨ (∀ x ∈ f.src, siteOf x.key ≠ 1) → ∃ t, exec (.swapFetchTimeout rid layer) s = .next t ∧ fetchFailed s t rid layer 3) ∧
    (f.waits = 0 → (∃ x ∈ f.src, siteOf x.key = 1) → ∃ t, exec (.swapFetchTimeout rid layer) s = .next t ∧ fetchFailed s t rid layer 1)) ∧
  (∀ rid layer s r k, s.now.region? rid = some r → (rid, layer) ∈ s.now.evicts → entryAt s r layer 24 1 k →
    ∃ t, exec (.evictionCompletion rid layer) s = .next t ∧ (rid, layer) ∉ t.now.evicts ∧ wroteAt s t k [0])

/-- The home makes a descriptor for HNEW, answers HDEREF and HFIN, and applies posts until the descriptor dies; a failed check is its
lane's failed verdict. The swap engine starts the first request that can start, completes or fails a fetch with its cause, and
ends an eviction with state ABSENT; cause 3 of a timed-out fetch while replies are outstanding, and the causes behind a port that
is down, are the model's choices where R375 does not give them (log 32) [16 R263; 19 R293, R294, R296, R297, R299-R304, R309,
R311-R313, R315; 23 R375]. -/
def Obligations.SignetAndSwapEvents : Prop := Sys2Proof.Claims.signetHomeEvents ∧ Sys2Proof.Claims.swapEngineEvents

namespace Sys2Proof.Claims
open Sys2Proof.Machine

/-! ### Power -/

/-- A die's sensor reads at or above a temperature, in 1/16 C [24 R381, R382]. -/
def asHotAs (s : State) (i : Fin 4) (c : Int) : Prop := 16 * c ≤ (s.now.power.temp[i]).toInt

/-- An image is accepted: its key has 64 bytes and the fused digest, its signature has 29,792 bytes and verifies over its SVN
and body (log 57), its SVN is not below the fused minimum [24 R377]. -/
def imageAccepted (d : Dev) (i : Fin 4) : Prop :=
  let x := d.boot.images[i]
  x.key.length = 64 ∧ BitVec.ofNat 256 (ofBytes (shake256 x.key 32)) = Config.fusedDigest i.val ∧ x.sig.length = 29792 ∧
  Config.slhVerify x.key (lowBytes 4 x.svn.toNat ++ x.body) x.sig = true ∧ (d.boot.svns[i]).toNat ≤ x.svn.toNat

/-- Nothing runs on a device. -/
def nothingRuns (d : Dev) : Prop :=
  d.all = [] ∧ d.jobs = [] ∧ d.ops = [] ∧ d.clasps = [] ∧ d.regions = [] ∧ ∀ c, d.core c = Core.start

/-- A reset begins: nothing runs, Smiurnen holds semaphore 0, and the others are free [23 R371; 24 R376]. -/
def resetBegins (t : State) (port : Option (Fin 2)) : Prop :=
  nothingRuns t.now ∧ t.now.host.rstBusy = true ∧ t.now.host.rstPort = port ∧ t.now.boot.step = 0 ∧ t.now.boot.failure = 0 ∧
  t.now.boot.fwsvn = 0 ∧ (∀ i : Fin 6, t.now.boot.meas[i] = 0) ∧ (∀ i : Fin 32, (t.now.eweoth[i]).up = false) ∧
  ∀ n : Fin 16, t.now.host.sems[n] = if n.val = 0 then 3 else 0

/-- Bring-up stops at a step with an image's failure [24 R376, R377]. -/
def bootStops (d e : Dev) : Prop :=
  e.boot.stopped = true ∧ e.boot.step = d.boot.step ∧ 1 ≤ e.boot.failure ∧ e.boot.failure ≤ 3

/-- A stage's register is extended with an image [24 R378]. -/
def measures (d e : Dev) (i : Fin 4) : Prop :=
  e.boot.meas[Fin.ofNat 6 i.val] = extend d.boot.meas[Fin.ofNat 6 i.val] (imageBytes (d.boot.images[i]).svn (d.boot.images[i]).body)

/-! ### Links -/

/-- Only one link may differ, and all but the links is as before. -/
def onlyLink (s t : State) (i : Fin 32) : Prop :=
  t = { s with now := { s.now with eweoth := t.now.eweoth } } ∧ ∀ j, j ≠ i → t.now.eweoth[j] = s.now.eweoth[j]

/-- A flit's checksum fits. -/
def soundFlit (f : Flit) : Prop := f.crc = crc64 (flitBody f)

/-- A link has gone down: it holds nothing for replay [23 R359]. -/
def wentDown (t : State) (i : Fin 32) : Prop := (t.now.eweoth[i]).up = false ∧ (t.now.eweoth[i]).replay = []

/-! ### Transactions -/

/-- What the device keeps of a source: the stored responses [23 R360]. -/
def respOf (s : State) (rank : Nat) : List (BitVec 48 × TxReply) := (s.now.inOf rank).resp

/-- A transaction comes to this device while no reset is in progress. -/
def comes (s : State) (tx : Transaction) : Prop := tx.dst = Config.devid.toNat ∧ s.now.host.rstBusy = false

/-- It has been applied before: its sequence is past, by the half of the sequences before the next one (log 22), or its
response is kept [23 R360]. -/
def appliedTx (s : State) (tx : Transaction) : Prop :=
  2 ^ 47 ≤ (tx.seq - (s.now.inOf tx.src).high).toNat ∨ ∃ x ∈ respOf s tx.src, x.1 = tx.seq

/-- It is rejected: its source is none that the device accepts, an address of it lies past device memory, or a word that it
reads holds an uncorrectable error [23 R362, R364]. -/
def rejectsTx (s : State) (tx : Transaction) : Prop :=
  (tx.src ≠ Config.devid.toNat ∧ tx.src ∉ Config.members ∧ tx.src ∉ Config.fabricPeers) ∨
  ∃ x ∈ txParts tx.op, 0x6000000000 < x.2.1 + x.2.2 ∨ (s.now.eccHit x.1 { key := x.2.1, len := x.2.2 }).isSome = true

/-- Memory after writes one after another is as a device's. -/
def wroteAll (s t : State) (ps : List (Nat × List Byte)) : Prop :=
  ∀ k, Mem.get t.now.mem k = Mem.get (ps.foldl (fun m p => Mem.write m p.1 p.2) s.now.mem) k

/-- Code of user level runs in every fragment of a task's strand. -/
def userStrand (s : State) (sid : Nat) (st : Strand) : Prop := taskStrand s sid st ∧ ∀ x ∈ st.live, x.2.prv = false

/-- A task's access that fails later ends the task with a machine check of this unit [21 R328, R336; 23 R362, R363]. -/
def endsLate (t : State) (st : Strand) (lanes : W32) (unit : Nat) : Prop :=
  endsWith t st.task fun rep => rep.code = 0x21 ∧ rep.lanes = lanes ∧ rep.detail.toNat / 2 ^ 56 = unit

/-! ### Host ports -/

/-- BAR2 is open, and a port's access to these bytes of device memory meets no error and no bound byte [23 R368, R371]. -/
def bar2Plain (s : State) (addr n : Nat) : Prop :=
  s.now.host.rstBusy = false ∧ addr + n ≤ 0x6000000000 ∧ s.now.eccBad = [] ∧ s.now.clasps = []

/-- A port's code as an owner of a semaphore [23 R370]. -/
def ownerCode (port : Fin 2) : Fin 4 := if port = 0 then 1 else 2

/-- A PCIe AtomicOp on BAR2: event, port, address, width, what it leaves [23 R368]. -/
def bar2Rule : Instr → Option (Fin 2 × Nat × Nat × (Nat → Nat))
  | .bar2Fetchadd port a wide v => some (port, a, if wide then 8 else 4, fun old => old + v.toNat)
  | .bar2Swap port a wide v => some (port, a, if wide then 8 else 4, fun _ => v.toNat)
  | .bar2Cas port a wide e v => some (port, a, if wide then 8 else 4, fun old =>
      if old = e.toNat % 2 ^ (8 * if wide then 8 else 4) then v.toNat else old)
  | _ => none

/-- A semaphore that a port held is free; any other is as before. -/
def freedBy (s t : State) (port : Fin 2) : Prop :=
  ∀ n : Fin 16, t.now.host.sems[n] = if s.now.host.sems[n] = ownerCode port then 0 else s.now.host.sems[n]

end Sys2Proof.Claims

/-- Grants. An interval's grants within 2,000 W reach their dies, no more than 250 W for a die that has been at 105 C since the last
interval or is so now, and a die at 115 C shuts the package down. What the sensors read is free (log 8); that a limit lasts from
one interval to the next, that a sensor has its threshold's temperature after a thermal event, and that the events are kept
by die are the model's choices (log 48). A grant sets a count of
0 to 56 bubbles and ends the floor; a die without a grant has 32 bubbles and the low rail on every core; a die that comes to 105 C
is limited; at 115 C core power is gone, the event is kept, and BOOTSTAT reads 0 [22 R353-R355; 24 R382]. -/
def Obligations.GrantEvents : Prop :=
  (∀ (grants : List Nat) s, ((List.finRange 4).map fun i => grants.getD i.val 0).sum ≤ 8000 →
    ∃ t, exec (.arbiterInterval grants) s = .next t ∧ sameMemory s t ∧
      ∀ i : Fin 4, (t.now.power.limited[i] = true ↔ asHotAs t i 105) ∧
        (s.now.power.limited[i] = true ∨ asHotAs t i 105 → (s.now.cycle, Instr.dieGrant i (min (grants.getD i.val 0) 1000)) ∈ t.now.agenda) ∧
        (s.now.power.limited[i] = false → ¬ asHotAs t i 105 → (s.now.cycle, Instr.dieGrant i (grants.getD i.val 0)) ∈ t.now.agenda) ∧
        (asHotAs t i 115 → (s.now.cycle, Instr.thermalShutdown i) ∈ t.now.agenda)) ∧
  (∀ (die : Fin 4) grant s, ∃ t, exec (.dieGrant die grant) s = .next t ∧ t.now.power.grant[die] = BitVec.ofNat 16 grant ∧
    t.now.power.bubbles[die] ≤ 56 ∧ t.now.power.floor[die] = false ∧
    ∀ i : Fin 4, i ≠ die → t.now.power.bubbles[i] = s.now.power.bubbles[i] ∧ t.now.power.floor[i] = s.now.power.floor[i]) ∧
  (∀ (die : Fin 4) s, ∃ t, exec (.grantTimeout die) s = .next t ∧ t.now.power.bubbles[die] = 32 ∧ t.now.power.floor[die] = true ∧
    ∀ c : Fin 256, (c.val / 64 = die.val → (t.now.core c).rail = false) ∧ (c.val / 64 ≠ die.val → t.now.core c = s.now.core c)) ∧
  (∀ (die : Fin 4) s, ∃ t, exec (.thermalLimit die) s = .next t ∧ t.now.power.limited[die] = true ∧ asHotAs t die 105 ∧
    t.now.power.off = s.now.power.off ∧ sameMemory s t) ∧
  (∀ (die : Fin 4) s, ∃ t, exec (.thermalShutdown die) s = .next t ∧ t.now.power.off = true ∧ asHotAs t die 115 ∧
    t.now.power.events = s.now.power.events ++ [die] ∧ t.now.boot.step = 0 ∧ t.now.boot.failure = 0 ∧ sameMemory s t)

/-- Rails. A change in flight reaches the requested rail where no deterministic strand and no floor keeps the core low; the
firmware governor sets a core's requested rail and its window cap; other cores and memory stay [06 R111; 22 R349, R351, R355]. -/
def Obligations.PowerEvents : Prop :=
  (∀ (core : Fin 256) high s, (s.now.core core).railDue = some high →
    high = false ∨ ((∀ st ∈ s.now.all, st.core = core → st.det = false) ∧
      ∀ i : Fin 4, i.val = core.val / 64 → s.now.power.floor[i] = false) →
    ∃ t, exec (.railChangeCompletion core) s = .next t ∧ t.now.core core = { s.now.core core with rail := high, railDue := none } ∧
      (∀ c, c ≠ core → t.now.core c = s.now.core c) ∧ sameMemory s t) ∧
  (∀ (core : Fin 256) high cap s, ∃ t, exec (.governorRailWrite core high cap) s = .next t ∧ sameMemory s t ∧
    t.now.core core = { s.now.core core with railsel := high, railDue := some high, caratcap := cap } ∧
    ∀ c, c ≠ core → t.now.core c = s.now.core c)

/-- Bring-up, device reset and attestation. A power-on, and a keyed write by the holder of semaphore 0, begin the sequence: nothing
runs, the links are down, Smiurnen holds semaphore 0; any other write is counted. The eight steps complete in turn: an image
that is accepted is measured, one that is not stops the sequence with a failure code; step 3 leaves every word without an error
or stops; step 5 measures the routing tables; step 6 sets the system handler's entry, 0 where the manifest names no image; step 7
makes the root region and its control block; step 8 raises the fused minimum of the SVNs, enables the links, and returns semaphore 0. An accepted request for a report leaves the
state busy, and its completion a report of 30,288 bytes with the fields in their places. That a wrong value
written by the holder counts is the model's reading (log 49); that an image's SVN and body are what is signed and measured is its
choice (log 57) [23 R370, R371; 24 R376-R382]. -/
def Obligations.BringUpAndAttestation : Prop :=
  (∀ s, ∃ t, exec .powerOnReset s = .next t ∧ resetBegins t none ∧ t.now.power.off = false ∧ t.now.boot.stopped = false ∧
    t.now.boot.svns = s.now.boot.svns ∧ t.now.boot.images = s.now.boot.images ∧ t.now.boot.ecccorr = 0 ∧ t.now.boot.eccunc = 0 ∧
    t.now.power.events = s.now.power.events) ∧
  (∀ d e : Dev, d.boot.stopped = false → e = d.bootStep →
    (d.boot.step = 0 → e.boot.step = 1 ∧ e.boot.stopped = false ∧ e.boot.failure = d.boot.failure) ∧
    (d.boot.step = 2 → (e.boot.step = 3 ∧ e.boot.stopped = false ∧ e.eccOne = [] ∧ e.eccBad = []) ∨
      (e.boot.step = 2 ∧ e.boot.stopped = true ∧ e.boot.failure ≠ 0)) ∧
    (d.boot.step = 3 → d.boot.handles = true →
      (imageAccepted d 1 → imageAccepted d 2 → imageAccepted d 3 → e.boot.step = 4 ∧ e.boot.stopped = false ∧
        measures d e 1 ∧ measures d e 2 ∧ measures d e 3) ∧
      (imageAccepted d 1 → imageAccepted d 2 → ¬ imageAccepted d 3 → bootStops d e ∧ measures d e 1 ∧ measures d e 2)) ∧
    (d.boot.step = 4 → e.boot.step = 5 ∧ e.boot.stopped = false ∧
      e.boot.meas[(4 : Fin 6)] = extend d.boot.meas[(4 : Fin 6)] Config.routingTables) ∧
    (d.boot.step = 5 → e.boot.step = 6 ∧ e.boot.stopped = false ∧ (∀ c, (e.core c).railsel = false ∧ (e.core c).rail = false) ∧
      (d.boot.handles = true → e.sysEntry = Config.handlerEntry (d.boot.images[(3 : Fin 4)]).body) ∧
      (d.boot.handles = false → e.sysEntry = 0)) ∧
    (d.boot.step = 1 → (imageAccepted d 0 → e.boot.step = 2 ∧ e.boot.stopped = false ∧ measures d e 0) ∧ (¬ imageAccepted d 0 → bootStops d e)) ∧
    (d.boot.step = 3 → d.boot.handles = false →
      (imageAccepted d 1 → imageAccepted d 2 → e.boot.step = 4 ∧ e.boot.stopped = false ∧ e.boot.fwsvn = (d.boot.images[(1 : Fin 4)]).svn ∧
        measures d e 1 ∧ measures d e 2) ∧
      (¬ imageAccepted d 1 → bootStops d e ∧ e.boot.fwsvn = d.boot.fwsvn) ∧
      (imageAccepted d 1 → ¬ imageAccepted d 2 → bootStops d e ∧ measures d e 1)) ∧
    (d.boot.step = 6 → e.boot.step = 7 ∧ e.regions = [Region.root] ∧ e.rootRcb = Config.rootRcb) ∧
    (d.boot.step = 7 → e.boot.step = 8 ∧ e.host.rstBusy = false ∧ (∀ i : Fin 32, (e.eweoth[i]).up = true) ∧
      (e.host.sems[(0 : Fin 16)] = match d.host.rstPort with
        | some p => ownerCode p
        | none => 0) ∧
      ∀ i : Fin 4, i ≠ 3 → (e.boot.svns[i]).toNat = max (d.boot.svns[i]).toNat (d.boot.images[i]).svn.toNat)) ∧
  (∀ port (v : W32) s, s.now.host.sems[(0 : Fin 16)] = ownerCode port → v = 0x5A5A0001 → ∃ t, exec (.rstctlReset port v) s = .next t ∧
    resetBegins t (some port) ∧ t.now.mem = s.now.mem ∧ t.now.outSeq = s.now.outSeq ∧ t.now.inTx = s.now.inTx) ∧
  (∀ port (v : W32) s, s.now.host.sems[(0 : Fin 16)] ≠ ownerCode port ∨ v ≠ 0x5A5A0001 → ∃ t, exec (.rstctlReset port v) s = .next t ∧
    t.now.host.rstIgn.toNat = min 255 (s.now.host.rstIgn.toNat + 1) ∧ t.now.host.rstBusy = s.now.host.rstBusy ∧ t.now.mem = s.now.mem) ∧
  (∀ port (v : W32) s, v.getLsbD 0 = true → s.now.boot.attSt = 0 ∨ s.now.boot.attSt = 2 → ∃ t due, exec (.attctlRequest port v) s = .next t ∧
    t.now.boot.attSt = 1 ∧ t.now.boot.attPort = port ∧ t.now.boot.attNon = s.now.boot.nonce ∧ s.now.cycle < due ∧
    (due, Instr.attestationCompletion) ∈ t.now.agenda) ∧
  (∀ port (v : W32) s, v.getLsbD 0 = true → s.now.boot.attSt = 1 → s.now.boot.attTime ≠ some s.now.cycle → ∃ t, exec (.attctlRequest port v) s = .next t ∧
    t.now.boot.attSt = 1 ∧ t.now.boot.attPort = s.now.boot.attPort ∧ t.now.boot.attIgn.toNat = min 255 (s.now.boot.attIgn.toNat + 1)) ∧
  (∀ (v : W32) s, v.getLsbD 0 = true → s.now.boot.attSt = 1 → s.now.boot.attTime = some s.now.cycle → s.now.boot.attPort = 1 →
    ∃ t, exec (.attctlRequest 0 v) s = .next t ∧ t.now.boot.attSt = 1 ∧ t.now.boot.attPort = 0 ∧ t.now.boot.attNon = s.now.boot.nonce ∧
      t.now.boot.attIgn.toNat = min 255 (s.now.boot.attIgn.toNat + 1)) ∧
  (∀ s, s.now.boot.attSt = 1 → ∃ t, exec .attestationCompletion s = .next t ∧ t.now.boot.attSt = 2 ∧ t.now.boot.report.length = 30288 ∧
    t.now.boot.report.take 4 = lowBytes 4 30288 ∧ (t.now.boot.report.drop 4).take 4 = lowBytes 4 Config.devid.toNat ∧
    (t.now.boot.report.drop 8).take 4 = lowBytes 4 (s.now.boot.svns[(1 : Fin 4)]).toNat ∧ (t.now.boot.report.drop 12).take 4 = lowBytes 4 s.now.boot.attPort.val ∧
    (t.now.boot.report.drop 16).take 32 = lowBytes 32 s.now.boot.attNon.toNat ∧
    ∀ i : Fin 6, (t.now.boot.report.drop (48 + 64 * i.val)).take 64 = lowBytes 64 (s.now.boot.meas[i]).toNat)

/-- The links. A data flit in order is taken and acknowledged; one with a bad checksum or out of order gets a nack with the
expected sequence, and so does any other flit with a bad checksum. A nack of a flit that is held for replay sends it and all later ones again; when 8 replays of it have
failed, and when no acknowledgement has come for 100 us, the link goes down. An acknowledgement frees what it covers. A
retrained link is up; that it counts from 0 is the model's choice (log 22) [23 R358, R359]. -/
def Obligations.LinkEvents : Prop :=
  ∀ (i : Fin 32) (flit : Flit) (s : State) (l : Link), l = s.now.eweoth[i] →
    (l.up = true → soundFlit flit → flit.seq = l.rxSeq → ∃ t, exec (.flitDataReceive i flit) s = .next t ∧ onlyLink s t i ∧
      (t.now.eweoth[i]).inbox = l.inbox ++ [flit.payload] ∧ (t.now.eweoth[i]).rxSeq = l.rxSeq + 1 ∧ (t.now.eweoth[i]).rxAck = flit.seq) ∧
    (l.up = true → ¬ (soundFlit flit ∧ flit.seq = l.rxSeq) → ∃ t n, exec (.flitDataReceive i flit) s = .next t ∧ onlyLink s t i ∧
      t.now.eweoth[i] = { l with outbox := l.outbox ++ [n] } ∧ n.kind = 1 ∧ n.seq = l.rxSeq ∧ soundFlit n) ∧
    (l.up = true → ¬ soundFlit flit → ∃ t u n, exec (.flitNackReceive i flit) s = .next t ∧ exec (.flitIdleReceive i flit) s = .next u ∧
      onlyLink s t i ∧ onlyLink s u i ∧ t.now.eweoth[i] = { l with outbox := l.outbox ++ [n] } ∧ u.now.eweoth[i] = t.now.eweoth[i] ∧
      n.kind = 1 ∧ n.seq = l.rxSeq ∧ soundFlit n) ∧
    (∀ n x, l.up = true → soundFlit flit → l.replay[n]? = some x → x.seq = flit.seq → (∀ m y, m < n → l.replay[m]? = some y → y.seq ≠ flit.seq) →
      (n ≠ 0 ∨ l.fails < 8 → ∃ t, exec (.flitNackReceive i flit) s = .next t ∧ onlyLink s t i ∧ (t.now.eweoth[i]).replay = l.replay.drop n ∧
        (t.now.eweoth[i]).outbox = l.outbox ++ l.replay.drop n ∧ (t.now.eweoth[i]).up = true) ∧
      (n = 0 → 8 ≤ l.fails → ∃ t, exec (.flitNackReceive i flit) s = .next t ∧ wentDown t i)) ∧
    (∀ n x, l.up = true → soundFlit flit → l.replay[n]? = some x → x.seq = flit.ack → (∀ m y, m < n → l.replay[m]? = some y → y.seq ≠ flit.ack) →
      ∃ t, exec (.flitIdleReceive i flit) s = .next t ∧ onlyLink s t i ∧ (t.now.eweoth[i]).replay = l.replay.drop (n + 1)) ∧
    (l.up = true → ∃ t, exec (.linkAckTimeout i) s = .next t ∧ wentDown t i ∧ sameMemory s t) ∧
    (l.up = false → s.now.host.rstBusy = false → ∃ t, exec (.linkRetrainCompletion i) s = .next t ∧ onlyLink s t i ∧ (t.now.eweoth[i]).up = true ∧
      (t.now.eweoth[i]).replay = [] ∧ (t.now.eweoth[i]).txSeq = 0 ∧ (t.now.eweoth[i]).rxSeq = 0)

/-- Transactions. A new one that its target does not reject is applied once, with its reply kept; one applied before changes
nothing of memory; one that is rejected is answered so; which sequences count as applied before, half of the 2^48, is the model's choice
(log 22). At its source a response ends a transaction and brings a lane its
bytes; without one in 1 ms it is sent again; without one in 10 ms it fails, and a task's load at user level ends the task with a
machine check of unit 11, a fetch fails with cause 2. Host and CXL accesses that fail do so with units 12 and 10, in the lanes that
made the access, and a CXL port that goes down fails its fetches with cause 1 [19 R315; 23 R360-R363, R369, R375]. -/
def Obligations.TransactionEvents : Prop :=
  (∀ tx s, comes s tx → ¬ appliedTx s tx → s.now.clasps = [] → ∃ t, exec (.transactionReceive tx) s = .next t ∧
    (rejectsTx s tx → (tx.seq, TxReply.rejected) ∈ respOf t tx.src ∧ sameMemory s t) ∧
    (¬ rejectsTx s tx →
      (∀ ps, tx.op = .write ps → (tx.seq, TxReply.done) ∈ respOf t tx.src ∧ wroteAll s t ps) ∧
      ∀ ps, tx.op = .read ps → (tx.seq, TxReply.data (ps.flatMap fun p => Mem.read s.now.mem p.1 p.2)) ∈ respOf t tx.src ∧ sameMemory s t)) ∧
  (∀ tx s, comes s tx → appliedTx s tx → ∃ t, exec (.transactionReceive tx) s = .next t ∧ t.now.inTx = s.now.inTx ∧ sameMemory s t) ∧
  (∀ rank seq s x, s.now.outTx? rank (BitVec.ofNat 48 seq) = some x → s.now.heldTx = [] →
    (∀ reply, reply ≠ .rejected → ∃ t, exec (.transactionResponse rank seq reply) s = .next t ∧
      ((∃ task sid l fid rep, x.owner = .store task sid l fid rep) → t.now.outTx? rank (BitVec.ofNat 48 seq) = none ∧ sameMemory s t) ∧
      ∀ task sid fid k rep st f bs, x.owner = .read task sid fid [k] rep → reply = .data bs → s.now.strand? sid = some st → st.flight? fid = some f →
        f.laid = [] →
        t.now.outTx? rank (BitVec.ofNat 48 seq) = none ∧
        ∃ u g, t.now.strand? sid = some u ∧ u.lanes = st.lanes ∧ u.flight? fid = some g ∧ g.waits = f.waits - 1 ∧
          ∀ y ∈ f.bufs, y.1 = k.lane →
            (k.lane, y.2.take k.off ++ (bs.drop k.from_).take k.len ++ y.2.drop (k.off + ((bs.drop k.from_).take k.len).length)) ∈ g.bufs) ∧
    (∃ t, exec (.transactionResendTimeout rank seq) s = .next t ∧
      t.now.outTx? rank (BitVec.ofNat 48 seq) = some { x with tries := x.tries + 1 } ∧ sameMemory s t) ∧
    (∀ task sid fid k rep st f, x.owner = .read task sid fid [k] rep → userStrand s sid st → st.flight? fid = some f →
      ∃ t, exec (.transactionFailure rank seq) s = .next t ∧ t.now.outTx? rank (BitVec.ofNat 48 seq) = none ∧
        endsLate t st (oneLane k.lane) 11) ∧
    (∀ rid layer num f r, x.owner = .swap rid layer num → s.now.fetch? rid layer = some f → f.num = num → s.now.region? rid = some r →
      ∃ t, exec (.transactionFailure rank seq) s = .next t ∧ t.now.outTx? rank (BitVec.ofNat 48 seq) = none ∧ fetchFailed s t rid layer 2)) ∧
  (∀ sid fid s st f, userStrand s sid st → st.flight? fid = some f →
    ((∃ x ∈ f.far, siteOf x.2.key = 2 ∨ siteOf x.2.key = 3) → ∃ t lanes x, exec (.hostCompletionTimeout sid fid) s = .next t ∧ x ∈ f.far ∧
      (siteOf x.2.key = 2 ∨ siteOf x.2.key = 3) ∧ (∀ l, hasLane lanes l = true ↔ (l, x.2) ∈ f.far) ∧ endsLate t st lanes 12) ∧
    ((∃ x ∈ f.far, siteOf x.2.key = 1) → ∀ i ∈ [Instr.cxlResponseTimeout sid fid, .cxlPoisonResponse sid fid],
      ∃ t lanes x, exec i s = .next t ∧ x ∈ f.far ∧ siteOf x.2.key = 1 ∧ (∀ l, hasLane lanes l = true ↔ (l, x.2) ∈ f.far) ∧
        endsLate t st lanes 10)) ∧
  (∀ (port : Fin 8) s, ∃ t, exec (.cxlPortDown port) s = .next t ∧ t.now.cxlUp[port] = false ∧
    (∀ i : Fin 8, i ≠ port → t.now.cxlUp[i] = s.now.cxlUp[i]) ∧
    ((∀ i : Fin 2, s.now.host.portUp[i] = true) → ∀ f ∈ s.now.fetches, (s.now.region? f.region).isSome = true →
      (∃ r ∈ f.src, 0 < r.len ∧ 2 ^ 64 ≤ r.key ∧ r.key < 2 * 2 ^ 64 ∧ Config.cxlPort (r.key - 2 ^ 64) = port) →
        (f.region, f.layer, 1) ∈ t.now.swapFail))

/-- BAR2. A port's writes, reads and AtomicOps act on device memory and AtomicOps return the old value; a write at or above its
end is dropped, and a read there, as any during a device reset, gives ones [23 R366, R368, R371]. -/
def Obligations.Bar2Events : Prop :=
  (∀ port addr data relaxed s, bar2Plain s addr data.length → data ≠ [] →
    ∃ t, exec (.bar2Write port addr data relaxed) s = .next t ∧ wroteAt s t addr data) ∧
  (∀ port addr data relaxed s, s.now.host.rstBusy = true ∨ 0x6000000000 ≤ addr →
    ∃ t, exec (.bar2Write port addr data relaxed) s = .next t ∧ sameMemory s t) ∧
  (∀ port addr len s, s.now.host.rstBusy = false → s.now.eccBad = [] → s.now.clasps = [] →
    ∃ t bs, exec (.bar2Read port addr len) s = .next t ∧ sameMemory s t ∧ t.now.host.out = s.now.host.out ++ [.data port bs] ∧ bs.length = len ∧
      ∀ i, i < len → bs.getD i 0 = if addr + i < 0x6000000000 then Mem.get s.now.mem (addr + i) else 0xFF) ∧
  (∀ port addr len s, s.now.host.rstBusy = true → ∃ t, exec (.bar2Read port addr len) s = .next t ∧ sameMemory s t ∧
    t.now.host.out = s.now.host.out ++ [.data port (List.replicate len 0xFF)]) ∧
  (∀ i s port a n new, bar2Rule i = some (port, a, n, new) → bar2Plain s a n →
    ∃ t, exec i s = .next t ∧ wroteAt s t a (lowBytes n (new (Mem.num s.now.mem a n))) ∧
      t.now.host.out = s.now.host.out ++ [.data port (Mem.read s.now.mem a n)]) ∧
  (∀ i s port a n new, bar2Rule i = some (port, a, n, new) → s.now.host.rstBusy = true ∨ 0x6000000000 < a + n →
    ∃ t, exec i s = .next t ∧ sameMemory s t ∧ t.now.host.out = s.now.host.out ++ [.data port (List.replicate n 0xFF)])

/-- The host ports. A free semaphore is granted to the port that asks and only its holder frees it; an unmasked vector sends what
is pending, once; a NOTIFY entry takes the written bytes in its defined bits; a function-level reset or a link that goes down
frees the port's semaphores and discards its pending messages [23 R367, R369-R371, R373, R374]. -/
def Obligations.HostPortEvents : Prop :=
  (∀ port (n : Fin 16) s, ∃ t u, exec (.semRequest port n) s = .next t ∧ exec (.semRelease port n) s = .next u ∧
    (s.now.host.sems[n] = 0 → t.now.host.sems[n] = ownerCode port) ∧
    (s.now.host.sems[n] ≠ 0 → s.now.host.semTime[n] ≠ s.now.cycle + 1 → t.now.host.sems[n] = s.now.host.sems[n]) ∧
    (u.now.host.sems[n] = if s.now.host.sems[n] = ownerCode port then 0 else s.now.host.sems[n]) ∧
    ∀ m : Fin 16, m ≠ n → t.now.host.sems[m] = s.now.host.sems[m] ∧ u.now.host.sems[m] = s.now.host.sems[m]) ∧
  (∀ port (vec : Fin 2048) s, ∃ t, exec (.msixUnmask port vec) s = .next t ∧ (port.val, vec.val) ∈ t.now.host.unmasked ∧
    (port.val, vec.val) ∉ t.now.host.pba ∧
    t.now.host.out = s.now.host.out ++ if (port.val, vec.val) ∈ s.now.host.pba then [.msix port vec.val] else []) ∧
  (∀ port (n : Fin 256) data s, data.length = 16 → ∃ t, exec (.controlRegisterWrite port (0x4000 + 16 * n.val) data) s = .next t ∧ sameMemory s t ∧
    (∀ j, j < 128 → (t.now.host.notify[n]).getLsbD j =
      ((ofBytes data).testBit j && (decide (j < 75) || decide (j = 96) || decide (104 ≤ j ∧ j < 107)))) ∧
    ∀ m : Fin 256, m ≠ n → t.now.host.notify[m] = s.now.host.notify[m]) ∧
  (∀ port s, ∃ t, exec (.portFlr port) s = .next t ∧ freedBy s t port ∧ sameMemory s t ∧ ∀ x, x ∈ t.now.host.pba ↔ x ∈ s.now.host.pba ∧ x.1 ≠ port.val) ∧
  (∀ port s, ∃ t, exec (.portLinkDown port) s = .next t ∧ freedBy s t port ∧ t.now.host.portUp[port] = false ∧
    ∀ x, x ∈ t.now.host.pba ↔ x ∈ s.now.host.pba ∧ x.1 ≠ port.val)

namespace Sys2Proof.Claims
open Sys2Proof.Machine

/-! ### The machine as a whole -/

/-- No event comes before the next issue group: none is due, none may happen now, and the machine is up; or the event that
comes next belongs to a later quadrant. -/
def quiet (s : State) : Prop :=
  s.iss.active = false ∧ s.now.power.off = false ∧
  ((s.now.nextEvent = none ∧ s.now.boot.stopped = false ∧ s.now.enabled = []) ∨
   ∃ e rest, s.now.nextEvent = some (e, rest) ∧ s.now.groupFirst (e, rest) = true)

/-- The device as a quadrant issues: the decrements of cores up to its own have been applied, all that stand in one run where its
group decrements none, and its strand is in focus [18 R289]. -/
noncomputable def issuing (s : State) (c : Fin 256) (q : Fin 4) (cs : List Cand) (x : Cand) : Dev := (s.now.applyDecs c.val !x.decrements).choose c q cs x

end Sys2Proof.Claims

/-- Words written out from the encoding tables decode to the instructions they stand for: a branch, a jump, a CSR read, a
NOP, a fence, an atomic, a matrix word, a load and a compare [02 R21-R36]. -/
def Obligations.DecodeSanity : Prop :=
  decodeWord 0x3842FFFF = .ok (.br { k := false, s := false, g := 7 } .ne (-1)) ∧
  decodeWord 0x38800A00 = .ok (.jmpr { k := false, s := false, g := 7 } 10) ∧
  decodeWord 0x38C10107 = .ok (.csrr { k := false, s := false, g := 7 } 4 .clock) ∧
  decodeWord 0x38000000 = .ok (.nop { k := false, s := false, g := 7 }) ∧
  decodeWord 0x3C325800 = .ok (.fenceRel { k := false, s := false, g := 7 } .dv 0x10) ∧
  decodeWord 0x3C41841C = .ok (.atadd32 { k := false, s := false, g := 7 } 6 4 7) ∧
  decodeWord 0x3E9021E2 = .ok (.mget { k := false, s := false, g := 7 } 2 7 true) ∧
  decodeWord 0x3C020415 = .ok (.ld { k := false, s := false, g := 7 } 8 4 2 .w64) ∧
  decodeWord 0x3A143F68 = .ok (.icmpi { k := false, s := false, g := 7 } 2 7 (-5) .lt .s)

/-- Decoding and encoding agree: the word of every well-formed instruction decodes to it, with every operand at every value
that the encoding admits; and every word that decodes is the word of its instruction, which is well formed
[02 R21-R39]. -/
def Obligations.DecodeEncode : Prop :=
  (∀ i w, encode i = some w → i.wellFormed = true → decodeWord w = .ok i) ∧
  ∀ i w, decodeWord w = .ok i → encode i = some w ∧ i.wellFormed = true

/-- A step of an open group runs the instruction that the group's next word decodes to, and the group goes on or closes; a
word that is no instruction takes the illegal-encoding event. From rest, with no event to come first, a step opens the
group that stands at the chosen fragment's packet and position, and runs its first word; a group that had stopped between two of
its words (log 62), one that an abandoned MEXP issues again (log 36), and the rest where an event comes first are the other
cases [02 R21, R26-R28, R39; 06 R102;
09 R177]. -/
def Obligations.StepRunsDecodedWord : Prop :=
  (∀ s i t, s.iss.active = true → decodeWord s.word = .ok i → exec i s = .next t → step s = .next (afterWord s.word t)) ∧
  (∀ s e, s.iss.active = true → decodeWord s.word = .error e → step s = exec (.illegalEncoding s.word s.iss.pos) s) ∧
  (∀ s c q cs x o i t, quiet s → s.now.chooseIn s.now.quadsLeft = some (c, q, cs, x) → (issuing s c q cs x).focus.holdsTrap x.frag = false →
    x.frag.begun = none → x.frag.aside = none → o = checkGroup (openGroup (issuing s c q cs x) x.slot x.frag x.words) → o.iss.active = true → decodeWord o.word = .ok i → exec i o = .next t →
    step s = .next (afterWord o.word t) ∧ o.iss.slot = x.slot ∧ o.iss.pos = x.frag.pos ∧
    ∀ ps, s.now.fetch x.st x.frag.pc = .ok ps → (∀ p ∈ ps, peerOf p.run.key = none) → o.word = (wordsOf (Mem.readRuns s.now.mem (runsOf ps))).getD x.frag.pos.val 0) ∧
  (∀ s e rest, s.iss.active = false → s.now.nextEvent = some (e, rest) → s.now.power.off = false → s.now.groupFirst (e, rest) = false →
    ∃ t, exec e { s with now := { s.now with agenda := rest } } = .next t ∧ step s = .next { now := t.now, start := t.now, iss := Issue.none })

/-- Every step keeps memory in canonical form, in the device as it stands and as the open group found it: the memory of every
space is one list of bytes by rising address with none that reads as unlisted (log 4) [13 R201]. -/
def Obligations.MemoryStaysCanonical : Prop := ∀ s t, s.memOk → step s = .next t → t.memOk

/-- No instruction and no event stops the machine: each has a next state. A step stops exactly where it executes nothing: after
core power has been removed, with no power-on to come; and where bring-up has stopped at a failed verification and nothing is due
or to come. Where these two stops stand is the model's choice (log 48, 49). It refuses nothing [24 R376, R382]. -/
def Obligations.ExecNeverStops : Prop :=
  (∀ i s, ∃ t, exec i s = .next t) ∧
  (∀ s, (∃ t, step s = .next t) ∨ step s = .fault .powerOff ∨ step s = .fault .bootStopped) ∧
  (∀ s, step s = .fault .powerOff ↔
    s.iss.active = false ∧ s.now.power.off = true ∧ ∀ x ∈ s.now.agenda, x.2 ≠ Instr.powerOnReset) ∧
  ∀ s, step s = .fault .bootStopped ↔
    s.iss.active = false ∧ s.now.power.off = false ∧ s.now.boot.stopped = true ∧ s.now.nextEvent = none ∧ s.now.agenda = []

/-- The machine after reset, as step 8 of bring-up leaves it: no task, no strand, no transaction; semaphore 0 free; cores on
the low rail; the links up; BOOTSTAT at step 8; the root region alone, of depth 1 and priority 0 with the whole device's
budgets, and its page-table root; memory in canonical form. What firmware chooses (where the root RCB and its tables lie) is the
model's choice (log 5), and so is that semaphores 1 to 15 are free (log 6); how bring-up leaves the device is its reading
(log 49) [23 R370; 24 R376]. -/
def Obligations.ResetState : Prop :=
  State.reset.memOk ∧ State.reset.now.all = [] ∧ State.reset.now.jobs = [] ∧ State.reset.now.outTx = [] ∧ State.reset.iss = Issue.none ∧
  State.reset.now.boot.step = 8 ∧ State.reset.now.boot.failure = 0 ∧ State.reset.now.boot.stopped = false ∧ State.reset.now.power.off = false ∧
  (∀ n : Fin 16, State.reset.now.host.sems[n] = 0) ∧ (∀ i : Fin 32, (State.reset.now.eweoth[i]).up = true) ∧
  (∀ c : Fin 256, (State.reset.now.core c).railsel = false ∧ (State.reset.now.core c).rail = false ∧ (State.reset.now.core c).banks = []) ∧
  ∃ r, State.reset.now.regions = [r] ∧ r.depth = 1 ∧ r.prio = 0 ∧ r.det = false ∧ r.slots = 16384 ∧ r.blocks = 6291456 ∧ r.banks = 16384 ∧
    r.scratch = 262144 ∧ r.live = true ∧ Mem.num State.reset.now.mem (r.id + 64) 8 = r.ptbase.toNat
end

