-- ==== Sys2Proof/Laws/Memory.lean ====
section
/-! SUPPORT. Memory: a read after a write, what a write leaves alone, and that every memory operation keeps the canonical
form. -/

namespace Sys2Proof.Machine

theorem Mem.wfFrom_le {m : List Host.Cell} {lo hi : Nat} (h : Mem.wfFrom hi m = true) (hl : lo ≤ hi) : Mem.wfFrom lo m = true := by
  cases m with
  | nil => rfl
  | cons x rest =>
    simp only [Mem.wfFrom, Bool.and_eq_true, decide_eq_true_eq] at h ⊢
    exact ⟨⟨by omega, h.1.2⟩, h.2⟩

/-- Below the first key of a canonical list every byte reads as unlisted. -/
theorem Mem.get_below {m : List Host.Cell} {lo k : Nat} (h : Mem.wfFrom lo m = true) (hk : k < lo) : Mem.get m k = Mem.blank := by
  cases m with
  | nil => rfl
  | cons x rest =>
    simp only [Mem.wfFrom, Bool.and_eq_true, decide_eq_true_eq] at h
    have h1 : k ≠ x.1 := by omega
    have h2 : k < x.1 := by omega
    simp only [Mem.get, if_neg h1, if_pos h2]

theorem Mem.wfFrom_put {m : List Host.Cell} {lo k : Nat} {v : Byte} (h : Mem.wfFrom lo m = true) (hk : lo ≤ k) :
    Mem.wfFrom lo (Mem.put m k v) = true := by
  induction m generalizing lo with
  | nil => by_cases hv : v = Mem.blank <;> simp [Mem.put, hv, Mem.wfFrom, hk]
  | cons x rest ih =>
    simp only [Mem.wfFrom, Bool.and_eq_true, decide_eq_true_eq] at h
    obtain ⟨⟨h1, h2⟩, h3⟩ := h
    unfold Mem.put
    split
    · split
      · exact Mem.wfFrom_le h3 (by omega)
      · simp only [Mem.wfFrom, Bool.and_eq_true, decide_eq_true_eq]; exact ⟨⟨h1, by assumption⟩, h3⟩
    · split
      · split
        · simp only [Mem.wfFrom, Bool.and_eq_true, decide_eq_true_eq]; exact ⟨⟨h1, h2⟩, h3⟩
        · simp only [Mem.wfFrom, Bool.and_eq_true, decide_eq_true_eq]
          exact ⟨⟨hk, by assumption⟩, ⟨by omega, h2⟩, h3⟩
      · simp only [Mem.wfFrom, Bool.and_eq_true, decide_eq_true_eq]
        exact ⟨⟨h1, h2⟩, ih h3 (by omega)⟩

/-- Writing one byte keeps the canonical form. -/
theorem Mem.wf_put {m : List Host.Cell} (k : Nat) (v : Byte) (h : Mem.wf m = true) : Mem.wf (Mem.put m k v) = true :=
  Mem.wfFrom_put h (Nat.zero_le k)

/-- Writing bytes keeps the canonical form. -/
theorem Mem.wf_write {m : List Host.Cell} (k : Nat) (bs : List Byte) (h : Mem.wf m = true) : Mem.wf (Mem.write m k bs) = true := by
  induction bs generalizing m k with
  | nil => exact h
  | cons b bs ih => exact ih _ (Mem.wf_put k b h)

/-- Writing over runs keeps the canonical form. -/
theorem Mem.wf_writeRuns {m : List Host.Cell} (rs : List Run) (bs : List Byte) (h : Mem.wf m = true) :
    Mem.wf (Mem.writeRuns m rs bs) = true := by
  induction rs generalizing m bs with
  | nil => exact h
  | cons r rs ih => exact ih _ (Mem.wf_write _ _ h)

theorem Mem.wfFrom_filter {m : List Host.Cell} {lo : Nat} (p : Host.Cell → Bool) (h : Mem.wfFrom lo m = true) :
    Mem.wfFrom lo (m.filter p) = true := by
  induction m generalizing lo with
  | nil => rfl
  | cons x rest ih =>
    simp only [Mem.wfFrom, Bool.and_eq_true, decide_eq_true_eq] at h
    by_cases hp : p x = true
    · simp only [List.filter_cons, hp, if_true, Mem.wfFrom, Bool.and_eq_true, decide_eq_true_eq]
      exact ⟨h.1, ih h.2⟩
    · simp only [List.filter_cons, hp]
      exact ih (Mem.wfFrom_le h.2 (by omega))

/-- Taking cells away, as a range set to zero does, keeps the canonical form. -/
theorem Mem.wf_filter {m : List Host.Cell} (p : Host.Cell → Bool) (h : Mem.wf m = true) : Mem.wf (m.filter p) = true :=
  Mem.wfFrom_filter p h

/-- Puts of cells one after another, each at a place of its own, keep the canonical form. -/
theorem Mem.wf_puts {m : List Host.Cell} (place : Host.Cell → Nat) (cs : List Host.Cell) (h : Mem.wf m = true) :
    Mem.wf (cs.foldl (fun m c => Mem.put m (place c) c.2) m) = true := by
  induction cs generalizing m with
  | nil => exact h
  | cons c cs ih => exact ih (Mem.wf_put (place c) c.2 h)

/-- Bytes moved keep the canonical form. -/
theorem Mem.wf_move {m : List Host.Cell} (a n b : Nat) (h : Mem.wf m = true) : Mem.wf (Mem.move m a n b) = true :=
  Mem.wf_puts _ _ (Mem.wf_filter _ h)

/-- A device's store keeps the canonical form. -/
theorem Dev.wf_store {d : Dev} (k : Nat) (bs : List Byte) (h : Mem.wf d.mem = true) : Mem.wf (d.store k bs).mem = true :=
  Mem.wf_write k bs h

theorem Dev.wf_storeNum {d : Dev} (k n v : Nat) (h : Mem.wf d.mem = true) : Mem.wf (d.storeNum k n v).mem = true :=
  Dev.wf_store k _ h

theorem Mem.get_putFrom {m : List Host.Cell} {lo : Nat} (k j : Nat) (v : Byte) (h : Mem.wfFrom lo m = true) :
    Mem.get (Mem.put m k v) j = if j = k then v else Mem.get m j := by
  induction m generalizing lo with
  | nil =>
    by_cases hj : j = k
    · by_cases hv : v = Mem.blank
      · subst hj; simp [Mem.put, hv, Mem.get]
      · subst hj; simp [Mem.put, hv, Mem.get]
    · by_cases hv : v = Mem.blank <;> by_cases hl : j < k <;> simp [Mem.put, hv, Mem.get, hj]
  | cons x rest ih =>
    obtain ⟨a, b⟩ := x
    simp only [Mem.wfFrom, Bool.and_eq_true, decide_eq_true_eq] at h
    unfold Mem.put
    split
    · rename_i hk
      subst hk
      split
      · rename_i hv
        by_cases hj : j = k
        · subst hj; simp [hv, Mem.get_below h.2 (Nat.lt_succ_self j)]
        · by_cases hl : j < k
          · simp [hj, hl, Mem.get, Mem.get_below h.2 (Nat.lt_succ_of_lt hl)]
          · simp [hj, hl, Mem.get]
      · by_cases hj : j = k <;> simp [hj, Mem.get]
    · rename_i hk
      split
      · rename_i hlt
        split
        · rename_i hv
          by_cases hj : j = k
          · subst hj; simp [hv, Mem.get, hk, hlt]
          · simp [hj]
        · by_cases hj : j = k
          · simp [hj, Mem.get]
          · by_cases hl : j < k
            · have : j ≠ a := by omega
              have h3 : j < a := by omega
              simp [hj, hl, Mem.get, this, h3]
            · simp [hj, hl, Mem.get]
      · rename_i hge
        by_cases hja : j = a
        · have : j ≠ k := by omega
          subst hja; simp [Mem.get, this]
        · by_cases hl : j < a
          · have : j ≠ k := by omega
            simp [Mem.get, hja, hl, this]
          · simp [Mem.get, hja, hl, ih h.2]

/-- A byte after one byte was written. -/
theorem Mem.get_put {m : List Host.Cell} (k j : Nat) (v : Byte) (h : Mem.wf m = true) :
    Mem.get (Mem.put m k v) j = if j = k then v else Mem.get m j := Mem.get_putFrom k j v h

/-- A byte outside the bytes that were written reads as before. -/
theorem Mem.get_write_other {m : List Host.Cell} (k j : Nat) (bs : List Byte) (h : Mem.wf m = true)
    (hj : j < k ∨ k + bs.length ≤ j) : Mem.get (Mem.write m k bs) j = Mem.get m j := by
  induction bs generalizing m k with
  | nil => rfl
  | cons b bs ih =>
    simp only [List.length_cons] at hj
    rw [Mem.write, ih (k + 1) (Mem.wf_put k b h) (by omega), Mem.get_put k j b h, if_neg (by omega)]

/-- A byte that was written reads as written. -/
theorem Mem.get_write_same {m : List Host.Cell} (k i : Nat) (bs : List Byte) (h : Mem.wf m = true) (hi : i < bs.length) :
    Mem.get (Mem.write m k bs) (k + i) = bs[i] := by
  induction bs generalizing m k i with
  | nil => simp at hi
  | cons b bs ih =>
    cases i with
    | zero => rw [Nat.add_zero, Mem.write, Mem.get_write_other _ _ _ (Mem.wf_put k b h) (Or.inl (by omega)), Mem.get_put k k b h]; simp
    | succ i =>
      have := ih (k + 1) i (Mem.wf_put k b h) (by simpa using hi)
      rw [Mem.write, show k + (i + 1) = k + 1 + i by omega, this]; simp

/-- The number of bytes that a read gives. -/
@[simp] theorem Mem.length_read (m : List Host.Cell) (k n : Nat) : (Mem.read m k n).length = n := by
  induction n generalizing k with
  | zero => rfl
  | succ n ih => simp [Mem.read, ih]

theorem Mem.getElem_read (m : List Host.Cell) (k n i : Nat) (hi : i < (Mem.read m k n).length) :
    (Mem.read m k n)[i] = Mem.get m (k + i) := by
  induction n generalizing k i with
  | zero => simp at hi
  | succ n ih =>
    cases i with
    | zero => rfl
    | succ i =>
      simp only [Mem.read, List.getElem_cons_succ]
      rw [ih (k + 1) i (by simpa [Mem.read] using hi), show k + (i + 1) = k + 1 + i by omega]

/-- A read of the bytes that were written gives them. -/
theorem Mem.read_write_same {m : List Host.Cell} (k : Nat) (bs : List Byte) (h : Mem.wf m = true) :
    Mem.read (Mem.write m k bs) k bs.length = bs := by
  apply List.ext_getElem (by simp)
  intro i h1 h2
  rw [Mem.getElem_read, Mem.get_write_same k i bs h h2]

/-- A read that meets none of the bytes that were written gives what it gave before. -/
theorem Mem.read_write_other {m : List Host.Cell} (k j n : Nat) (bs : List Byte) (h : Mem.wf m = true)
    (hj : j + n ≤ k ∨ k + bs.length ≤ j) : Mem.read (Mem.write m k bs) j n = Mem.read m j n := by
  apply List.ext_getElem (by simp)
  intro i h1 h2
  rw [Mem.getElem_read, Mem.getElem_read]
  apply Mem.get_write_other k _ bs h
  simp at h2
  omega

/-- Little-endian bytes: as many as asked, and the number comes back modulo their range. -/
@[simp] theorem length_toBytes (n v : Nat) : (toBytes n v).length = n := by
  induction n generalizing v with
  | zero => rfl
  | succ n ih => simp [toBytes, ih]

theorem ofBytes_toBytes (n v : Nat) : ofBytes (toBytes n v) = v % 256 ^ n := by
  induction n generalizing v with
  | zero => simp [toBytes, ofBytes, Nat.mod_one]
  | succ n ih =>
    simp only [toBytes, ofBytes, ih, BitVec.toNat_ofNat]
    rw [show (2 : Nat) ^ 8 = 256 by norm_num, Nat.pow_succ, Nat.mul_comm (256 ^ n) 256, Nat.mod_mul]

/-- A number read back from where it was stored. -/
theorem Dev.num_storeNum {d : Dev} (k n v : Nat) (h : Mem.wf d.mem = true) : (d.storeNum k n v).num k n = v % 256 ^ n := by
  have := Mem.read_write_same k (toBytes n v) h
  rw [length_toBytes] at this
  simp only [Dev.num, Mem.num, Dev.storeNum, Dev.store, this, ofBytes_toBytes]

end Sys2Proof.Machine
end

