-- ==== Sys2Proof/Laws/State.lean ====
section
/-! SUPPORT. What each update of a state leaves: one lemma for each field and each update, so that no proof unfolds a record
update. -/

namespace Sys2Proof.Machine


/-! ### Lane.wg -/

@[simp] theorem Lane.wg_p (x : Lane) (r : GReg) (w : W32) : (x.wg r w).p = x.p := rfl
@[simp] theorem Lane.wg_m (x : Lane) (r : GReg) (w : W32) : (x.wg r w).m = x.m := rfl
@[simp] theorem Lane.wg_fpctl (x : Lane) (r : GReg) (w : W32) : (x.wg r w).fpctl = x.fpctl := rfl
@[simp] theorem Lane.wg_fpstat (x : Lane) (r : GReg) (w : W32) : (x.wg r w).fpstat = x.fpstat := rfl
@[simp] theorem Lane.wg_mxstat (x : Lane) (r : GReg) (w : W32) : (x.wg r w).mxstat = x.mxstat := rfl
@[simp] theorem Lane.wg_userscratch (x : Lane) (r : GReg) (w : W32) : (x.wg r w).userscratch = x.userscratch := rfl
@[simp] theorem Lane.wg_present (x : Lane) (r : GReg) (w : W32) : (x.wg r w).present = x.present := rfl
@[simp] theorem Lane.wg_exited (x : Lane) (r : GReg) (w : W32) : (x.wg r w).exited = x.exited := rfl
@[simp] theorem Lane.wg_early (x : Lane) (r : GReg) (w : W32) : (x.wg r w).early = x.early := rfl
@[simp] theorem Lane.wg_watch (x : Lane) (r : GReg) (w : W32) : (x.wg r w).watch = x.watch := rfl
@[simp] theorem Lane.wg_held (x : Lane) (r : GReg) (w : W32) : (x.wg r w).held = x.held := rfl
@[simp] theorem Lane.wg_lastPage (x : Lane) (r : GReg) (w : W32) : (x.wg r w).lastPage = x.lastPage := rfl
@[simp] theorem Lane.wg_monDrop (x : Lane) (r : GReg) (w : W32) : (x.wg r w).monDrop = x.monDrop := rfl
@[simp] theorem Lane.wg_stow (x : Lane) (r : GReg) (w : W32) : (x.wg r w).stow = x.stow := rfl
@[simp] theorem Lane.wg_parent (x : Lane) (r : GReg) (w : W32) : (x.wg r w).parent = x.parent := rfl
@[simp] theorem Lane.wg_g (x : Lane) (r : GReg) (w : W32) : (x.wg r w).g = x.g.set r w := rfl

/-! ### Lane.wm -/

@[simp] theorem Lane.wm_g (x : Lane) (n : MReg) (w : Option Handle) : (x.wm n w).g = x.g := rfl
@[simp] theorem Lane.wm_p (x : Lane) (n : MReg) (w : Option Handle) : (x.wm n w).p = x.p := rfl
@[simp] theorem Lane.wm_fpctl (x : Lane) (n : MReg) (w : Option Handle) : (x.wm n w).fpctl = x.fpctl := rfl
@[simp] theorem Lane.wm_fpstat (x : Lane) (n : MReg) (w : Option Handle) : (x.wm n w).fpstat = x.fpstat := rfl
@[simp] theorem Lane.wm_mxstat (x : Lane) (n : MReg) (w : Option Handle) : (x.wm n w).mxstat = x.mxstat := rfl
@[simp] theorem Lane.wm_userscratch (x : Lane) (n : MReg) (w : Option Handle) : (x.wm n w).userscratch = x.userscratch := rfl
@[simp] theorem Lane.wm_present (x : Lane) (n : MReg) (w : Option Handle) : (x.wm n w).present = x.present := rfl
@[simp] theorem Lane.wm_exited (x : Lane) (n : MReg) (w : Option Handle) : (x.wm n w).exited = x.exited := rfl
@[simp] theorem Lane.wm_early (x : Lane) (n : MReg) (w : Option Handle) : (x.wm n w).early = x.early := rfl
@[simp] theorem Lane.wm_watch (x : Lane) (n : MReg) (w : Option Handle) : (x.wm n w).watch = x.watch := rfl
@[simp] theorem Lane.wm_held (x : Lane) (n : MReg) (w : Option Handle) : (x.wm n w).held = x.held := rfl
@[simp] theorem Lane.wm_lastPage (x : Lane) (n : MReg) (w : Option Handle) : (x.wm n w).lastPage = x.lastPage := rfl
@[simp] theorem Lane.wm_monDrop (x : Lane) (n : MReg) (w : Option Handle) : (x.wm n w).monDrop = x.monDrop := rfl
@[simp] theorem Lane.wm_stow (x : Lane) (n : MReg) (w : Option Handle) : (x.wm n w).stow = x.stow := rfl
@[simp] theorem Lane.wm_parent (x : Lane) (n : MReg) (w : Option Handle) : (x.wm n w).parent = x.parent := rfl
@[simp] theorem Lane.wm_m (x : Lane) (n : MReg) (w : Option Handle) : (x.wm n w).m = x.m.set n w := rfl

/-! ### Lane.wp -/

@[simp] theorem Lane.wp_g (x : Lane) (n : PReg) (w : Bool) : (x.wp n w).g = x.g := by unfold Lane.wp; split <;> rfl
@[simp] theorem Lane.wp_m (x : Lane) (n : PReg) (w : Bool) : (x.wp n w).m = x.m := by unfold Lane.wp; split <;> rfl
@[simp] theorem Lane.wp_fpctl (x : Lane) (n : PReg) (w : Bool) : (x.wp n w).fpctl = x.fpctl := by unfold Lane.wp; split <;> rfl
@[simp] theorem Lane.wp_fpstat (x : Lane) (n : PReg) (w : Bool) : (x.wp n w).fpstat = x.fpstat := by unfold Lane.wp; split <;> rfl
@[simp] theorem Lane.wp_mxstat (x : Lane) (n : PReg) (w : Bool) : (x.wp n w).mxstat = x.mxstat := by unfold Lane.wp; split <;> rfl
@[simp] theorem Lane.wp_userscratch (x : Lane) (n : PReg) (w : Bool) : (x.wp n w).userscratch = x.userscratch := by unfold Lane.wp; split <;> rfl
@[simp] theorem Lane.wp_present (x : Lane) (n : PReg) (w : Bool) : (x.wp n w).present = x.present := by unfold Lane.wp; split <;> rfl
@[simp] theorem Lane.wp_exited (x : Lane) (n : PReg) (w : Bool) : (x.wp n w).exited = x.exited := by unfold Lane.wp; split <;> rfl
@[simp] theorem Lane.wp_early (x : Lane) (n : PReg) (w : Bool) : (x.wp n w).early = x.early := by unfold Lane.wp; split <;> rfl
@[simp] theorem Lane.wp_watch (x : Lane) (n : PReg) (w : Bool) : (x.wp n w).watch = x.watch := by unfold Lane.wp; split <;> rfl
@[simp] theorem Lane.wp_held (x : Lane) (n : PReg) (w : Bool) : (x.wp n w).held = x.held := by unfold Lane.wp; split <;> rfl
@[simp] theorem Lane.wp_lastPage (x : Lane) (n : PReg) (w : Bool) : (x.wp n w).lastPage = x.lastPage := by unfold Lane.wp; split <;> rfl
@[simp] theorem Lane.wp_monDrop (x : Lane) (n : PReg) (w : Bool) : (x.wp n w).monDrop = x.monDrop := by unfold Lane.wp; split <;> rfl
@[simp] theorem Lane.wp_stow (x : Lane) (n : PReg) (w : Bool) : (x.wp n w).stow = x.stow := by unfold Lane.wp; split <;> rfl
@[simp] theorem Lane.wp_parent (x : Lane) (n : PReg) (w : Bool) : (x.wp n w).parent = x.parent := by unfold Lane.wp; split <;> rfl

/-! ### Strand.wk -/

@[simp] theorem Strand.wk_id (st : Strand) (r : KReg) (w : W32) : (st.wk r w).id = st.id := rfl
@[simp] theorem Strand.wk_kind (st : Strand) (r : KReg) (w : W32) : (st.wk r w).kind = st.kind := rfl
@[simp] theorem Strand.wk_task (st : Strand) (r : KReg) (w : W32) : (st.wk r w).task = st.task := rfl
@[simp] theorem Strand.wk_region (st : Strand) (r : KReg) (w : W32) : (st.wk r w).region = st.region := rfl
@[simp] theorem Strand.wk_core (st : Strand) (r : KReg) (w : W32) : (st.wk r w).core = st.core := rfl
@[simp] theorem Strand.wk_quad (st : Strand) (r : KReg) (w : W32) : (st.wk r w).quad = st.quad := rfl
@[simp] theorem Strand.wk_slot (st : Strand) (r : KReg) (w : W32) : (st.wk r w).slot = st.slot := rfl
@[simp] theorem Strand.wk_launched (st : Strand) (r : KReg) (w : W32) : (st.wk r w).launched = st.launched := rfl
@[simp] theorem Strand.wk_strandid (st : Strand) (r : KReg) (w : W32) : (st.wk r w).strandid = st.strandid := rfl
@[simp] theorem Strand.wk_taskidx (st : Strand) (r : KReg) (w : W32) : (st.wk r w).taskidx = st.taskidx := rfl
@[simp] theorem Strand.wk_batchn (st : Strand) (r : KReg) (w : W32) : (st.wk r w).batchn = st.batchn := rfl
@[simp] theorem Strand.wk_rcbbase (st : Strand) (r : KReg) (w : W32) : (st.wk r w).rcbbase = st.rcbbase := rfl
@[simp] theorem Strand.wk_leasebase (st : Strand) (r : KReg) (w : W32) : (st.wk r w).leasebase = st.leasebase := rfl
@[simp] theorem Strand.wk_det (st : Strand) (r : KReg) (w : W32) : (st.wk r w).det = st.det := rfl
@[simp] theorem Strand.wk_lanes (st : Strand) (r : KReg) (w : W32) : (st.wk r w).lanes = st.lanes := rfl
@[simp] theorem Strand.wk_flags (st : Strand) (r : KReg) (w : W32) : (st.wk r w).flags = st.flags := rfl
@[simp] theorem Strand.wk_tagrdy (st : Strand) (r : KReg) (w : W32) : (st.wk r w).tagrdy = st.tagrdy := rfl
@[simp] theorem Strand.wk_tagout (st : Strand) (r : KReg) (w : W32) : (st.wk r w).tagout = st.tagout := rfl
@[simp] theorem Strand.wk_observed (st : Strand) (r : KReg) (w : W32) : (st.wk r w).observed = st.observed := rfl
@[simp] theorem Strand.wk_tlret (st : Strand) (r : KReg) (w : W32) : (st.wk r w).tlret = st.tlret := rfl
@[simp] theorem Strand.wk_traytimer (st : Strand) (r : KReg) (w : W32) : (st.wk r w).traytimer = st.traytimer := rfl
@[simp] theorem Strand.wk_frags (st : Strand) (r : KReg) (w : W32) : (st.wk r w).frags = st.frags := rfl
@[simp] theorem Strand.wk_deferred (st : Strand) (r : KReg) (w : W32) : (st.wk r w).deferred = st.deferred := rfl
@[simp] theorem Strand.wk_flights (st : Strand) (r : KReg) (w : W32) : (st.wk r w).flights = st.flights := rfl
@[simp] theorem Strand.wk_groups (st : Strand) (r : KReg) (w : W32) : (st.wk r w).groups = st.groups := rfl
@[simp] theorem Strand.wk_others (st : Strand) (r : KReg) (w : W32) : (st.wk r w).others = st.others := rfl
@[simp] theorem Strand.wk_fin (st : Strand) (r : KReg) (w : W32) : (st.wk r w).fin = st.fin := rfl
@[simp] theorem Strand.wk_redo (st : Strand) (r : KReg) (w : W32) : (st.wk r w).redo = st.redo := rfl
@[simp] theorem Strand.wk_k (st : Strand) (r : KReg) (w : W32) : (st.wk r w).k = st.k.set r w := rfl

/-! ### Strand.onLane -/

@[simp] theorem Strand.onLane_id (st : Strand) (l : LaneId) (f : Lane → Lane) : (st.onLane l f).id = st.id := rfl
@[simp] theorem Strand.onLane_kind (st : Strand) (l : LaneId) (f : Lane → Lane) : (st.onLane l f).kind = st.kind := rfl
@[simp] theorem Strand.onLane_task (st : Strand) (l : LaneId) (f : Lane → Lane) : (st.onLane l f).task = st.task := rfl
@[simp] theorem Strand.onLane_region (st : Strand) (l : LaneId) (f : Lane → Lane) : (st.onLane l f).region = st.region := rfl
@[simp] theorem Strand.onLane_core (st : Strand) (l : LaneId) (f : Lane → Lane) : (st.onLane l f).core = st.core := rfl
@[simp] theorem Strand.onLane_quad (st : Strand) (l : LaneId) (f : Lane → Lane) : (st.onLane l f).quad = st.quad := rfl
@[simp] theorem Strand.onLane_slot (st : Strand) (l : LaneId) (f : Lane → Lane) : (st.onLane l f).slot = st.slot := rfl
@[simp] theorem Strand.onLane_launched (st : Strand) (l : LaneId) (f : Lane → Lane) : (st.onLane l f).launched = st.launched := rfl
@[simp] theorem Strand.onLane_strandid (st : Strand) (l : LaneId) (f : Lane → Lane) : (st.onLane l f).strandid = st.strandid := rfl
@[simp] theorem Strand.onLane_taskidx (st : Strand) (l : LaneId) (f : Lane → Lane) : (st.onLane l f).taskidx = st.taskidx := rfl
@[simp] theorem Strand.onLane_batchn (st : Strand) (l : LaneId) (f : Lane → Lane) : (st.onLane l f).batchn = st.batchn := rfl
@[simp] theorem Strand.onLane_rcbbase (st : Strand) (l : LaneId) (f : Lane → Lane) : (st.onLane l f).rcbbase = st.rcbbase := rfl
@[simp] theorem Strand.onLane_leasebase (st : Strand) (l : LaneId) (f : Lane → Lane) : (st.onLane l f).leasebase = st.leasebase := rfl
@[simp] theorem Strand.onLane_det (st : Strand) (l : LaneId) (f : Lane → Lane) : (st.onLane l f).det = st.det := rfl
@[simp] theorem Strand.onLane_k (st : Strand) (l : LaneId) (f : Lane → Lane) : (st.onLane l f).k = st.k := rfl
@[simp] theorem Strand.onLane_flags (st : Strand) (l : LaneId) (f : Lane → Lane) : (st.onLane l f).flags = st.flags := rfl
@[simp] theorem Strand.onLane_tagrdy (st : Strand) (l : LaneId) (f : Lane → Lane) : (st.onLane l f).tagrdy = st.tagrdy := rfl
@[simp] theorem Strand.onLane_tagout (st : Strand) (l : LaneId) (f : Lane → Lane) : (st.onLane l f).tagout = st.tagout := rfl
@[simp] theorem Strand.onLane_observed (st : Strand) (l : LaneId) (f : Lane → Lane) : (st.onLane l f).observed = st.observed := rfl
@[simp] theorem Strand.onLane_tlret (st : Strand) (l : LaneId) (f : Lane → Lane) : (st.onLane l f).tlret = st.tlret := rfl
@[simp] theorem Strand.onLane_traytimer (st : Strand) (l : LaneId) (f : Lane → Lane) : (st.onLane l f).traytimer = st.traytimer := rfl
@[simp] theorem Strand.onLane_frags (st : Strand) (l : LaneId) (f : Lane → Lane) : (st.onLane l f).frags = st.frags := rfl
@[simp] theorem Strand.onLane_deferred (st : Strand) (l : LaneId) (f : Lane → Lane) : (st.onLane l f).deferred = st.deferred := rfl
@[simp] theorem Strand.onLane_flights (st : Strand) (l : LaneId) (f : Lane → Lane) : (st.onLane l f).flights = st.flights := rfl
@[simp] theorem Strand.onLane_groups (st : Strand) (l : LaneId) (f : Lane → Lane) : (st.onLane l f).groups = st.groups := rfl
@[simp] theorem Strand.onLane_others (st : Strand) (l : LaneId) (f : Lane → Lane) : (st.onLane l f).others = st.others := rfl
@[simp] theorem Strand.onLane_fin (st : Strand) (l : LaneId) (f : Lane → Lane) : (st.onLane l f).fin = st.fin := rfl
@[simp] theorem Strand.onLane_redo (st : Strand) (l : LaneId) (f : Lane → Lane) : (st.onLane l f).redo = st.redo := rfl
@[simp] theorem Strand.onLane_lanes (st : Strand) (l : LaneId) (f : Lane → Lane) : (st.onLane l f).lanes = updV st.lanes l f := rfl

/-! ### Strand.onLanes -/

@[simp] theorem Strand.onLanes_id (st : Strand) (m : W32) (f : LaneId → Lane → Lane) : (st.onLanes m f).id = st.id := by simp only [Strand.onLanes]
@[simp] theorem Strand.onLanes_kind (st : Strand) (m : W32) (f : LaneId → Lane → Lane) : (st.onLanes m f).kind = st.kind := by simp only [Strand.onLanes]
@[simp] theorem Strand.onLanes_task (st : Strand) (m : W32) (f : LaneId → Lane → Lane) : (st.onLanes m f).task = st.task := by simp only [Strand.onLanes]
@[simp] theorem Strand.onLanes_region (st : Strand) (m : W32) (f : LaneId → Lane → Lane) : (st.onLanes m f).region = st.region := by simp only [Strand.onLanes]
@[simp] theorem Strand.onLanes_core (st : Strand) (m : W32) (f : LaneId → Lane → Lane) : (st.onLanes m f).core = st.core := by simp only [Strand.onLanes]
@[simp] theorem Strand.onLanes_quad (st : Strand) (m : W32) (f : LaneId → Lane → Lane) : (st.onLanes m f).quad = st.quad := by simp only [Strand.onLanes]
@[simp] theorem Strand.onLanes_slot (st : Strand) (m : W32) (f : LaneId → Lane → Lane) : (st.onLanes m f).slot = st.slot := by simp only [Strand.onLanes]
@[simp] theorem Strand.onLanes_launched (st : Strand) (m : W32) (f : LaneId → Lane → Lane) : (st.onLanes m f).launched = st.launched := by simp only [Strand.onLanes]
@[simp] theorem Strand.onLanes_strandid (st : Strand) (m : W32) (f : LaneId → Lane → Lane) : (st.onLanes m f).strandid = st.strandid := by simp only [Strand.onLanes]
@[simp] theorem Strand.onLanes_taskidx (st : Strand) (m : W32) (f : LaneId → Lane → Lane) : (st.onLanes m f).taskidx = st.taskidx := by simp only [Strand.onLanes]
@[simp] theorem Strand.onLanes_batchn (st : Strand) (m : W32) (f : LaneId → Lane → Lane) : (st.onLanes m f).batchn = st.batchn := by simp only [Strand.onLanes]
@[simp] theorem Strand.onLanes_rcbbase (st : Strand) (m : W32) (f : LaneId → Lane → Lane) : (st.onLanes m f).rcbbase = st.rcbbase := by simp only [Strand.onLanes]
@[simp] theorem Strand.onLanes_leasebase (st : Strand) (m : W32) (f : LaneId → Lane → Lane) : (st.onLanes m f).leasebase = st.leasebase := by simp only [Strand.onLanes]
@[simp] theorem Strand.onLanes_det (st : Strand) (m : W32) (f : LaneId → Lane → Lane) : (st.onLanes m f).det = st.det := by simp only [Strand.onLanes]
@[simp] theorem Strand.onLanes_k (st : Strand) (m : W32) (f : LaneId → Lane → Lane) : (st.onLanes m f).k = st.k := by simp only [Strand.onLanes]
@[simp] theorem Strand.onLanes_flags (st : Strand) (m : W32) (f : LaneId → Lane → Lane) : (st.onLanes m f).flags = st.flags := by simp only [Strand.onLanes]
@[simp] theorem Strand.onLanes_tagrdy (st : Strand) (m : W32) (f : LaneId → Lane → Lane) : (st.onLanes m f).tagrdy = st.tagrdy := by simp only [Strand.onLanes]
@[simp] theorem Strand.onLanes_tagout (st : Strand) (m : W32) (f : LaneId → Lane → Lane) : (st.onLanes m f).tagout = st.tagout := by simp only [Strand.onLanes]
@[simp] theorem Strand.onLanes_observed (st : Strand) (m : W32) (f : LaneId → Lane → Lane) : (st.onLanes m f).observed = st.observed := by simp only [Strand.onLanes]
@[simp] theorem Strand.onLanes_tlret (st : Strand) (m : W32) (f : LaneId → Lane → Lane) : (st.onLanes m f).tlret = st.tlret := by simp only [Strand.onLanes]
@[simp] theorem Strand.onLanes_traytimer (st : Strand) (m : W32) (f : LaneId → Lane → Lane) : (st.onLanes m f).traytimer = st.traytimer := by simp only [Strand.onLanes]
@[simp] theorem Strand.onLanes_frags (st : Strand) (m : W32) (f : LaneId → Lane → Lane) : (st.onLanes m f).frags = st.frags := by simp only [Strand.onLanes]
@[simp] theorem Strand.onLanes_deferred (st : Strand) (m : W32) (f : LaneId → Lane → Lane) : (st.onLanes m f).deferred = st.deferred := by simp only [Strand.onLanes]
@[simp] theorem Strand.onLanes_flights (st : Strand) (m : W32) (f : LaneId → Lane → Lane) : (st.onLanes m f).flights = st.flights := by simp only [Strand.onLanes]
@[simp] theorem Strand.onLanes_groups (st : Strand) (m : W32) (f : LaneId → Lane → Lane) : (st.onLanes m f).groups = st.groups := by simp only [Strand.onLanes]
@[simp] theorem Strand.onLanes_others (st : Strand) (m : W32) (f : LaneId → Lane → Lane) : (st.onLanes m f).others = st.others := by simp only [Strand.onLanes]
@[simp] theorem Strand.onLanes_fin (st : Strand) (m : W32) (f : LaneId → Lane → Lane) : (st.onLanes m f).fin = st.fin := by simp only [Strand.onLanes]
@[simp] theorem Strand.onLanes_redo (st : Strand) (m : W32) (f : LaneId → Lane → Lane) : (st.onLanes m f).redo = st.redo := by simp only [Strand.onLanes]

/-! ### Strand.onFrag -/

@[simp] theorem Strand.onFrag_id (st : Strand) (i : Fin 4) (f : Frag → Frag) : (st.onFrag i f).id = st.id := rfl
@[simp] theorem Strand.onFrag_kind (st : Strand) (i : Fin 4) (f : Frag → Frag) : (st.onFrag i f).kind = st.kind := rfl
@[simp] theorem Strand.onFrag_task (st : Strand) (i : Fin 4) (f : Frag → Frag) : (st.onFrag i f).task = st.task := rfl
@[simp] theorem Strand.onFrag_region (st : Strand) (i : Fin 4) (f : Frag → Frag) : (st.onFrag i f).region = st.region := rfl
@[simp] theorem Strand.onFrag_core (st : Strand) (i : Fin 4) (f : Frag → Frag) : (st.onFrag i f).core = st.core := rfl
@[simp] theorem Strand.onFrag_quad (st : Strand) (i : Fin 4) (f : Frag → Frag) : (st.onFrag i f).quad = st.quad := rfl
@[simp] theorem Strand.onFrag_slot (st : Strand) (i : Fin 4) (f : Frag → Frag) : (st.onFrag i f).slot = st.slot := rfl
@[simp] theorem Strand.onFrag_launched (st : Strand) (i : Fin 4) (f : Frag → Frag) : (st.onFrag i f).launched = st.launched := rfl
@[simp] theorem Strand.onFrag_strandid (st : Strand) (i : Fin 4) (f : Frag → Frag) : (st.onFrag i f).strandid = st.strandid := rfl
@[simp] theorem Strand.onFrag_taskidx (st : Strand) (i : Fin 4) (f : Frag → Frag) : (st.onFrag i f).taskidx = st.taskidx := rfl
@[simp] theorem Strand.onFrag_batchn (st : Strand) (i : Fin 4) (f : Frag → Frag) : (st.onFrag i f).batchn = st.batchn := rfl
@[simp] theorem Strand.onFrag_rcbbase (st : Strand) (i : Fin 4) (f : Frag → Frag) : (st.onFrag i f).rcbbase = st.rcbbase := rfl
@[simp] theorem Strand.onFrag_leasebase (st : Strand) (i : Fin 4) (f : Frag → Frag) : (st.onFrag i f).leasebase = st.leasebase := rfl
@[simp] theorem Strand.onFrag_det (st : Strand) (i : Fin 4) (f : Frag → Frag) : (st.onFrag i f).det = st.det := rfl
@[simp] theorem Strand.onFrag_lanes (st : Strand) (i : Fin 4) (f : Frag → Frag) : (st.onFrag i f).lanes = st.lanes := rfl
@[simp] theorem Strand.onFrag_k (st : Strand) (i : Fin 4) (f : Frag → Frag) : (st.onFrag i f).k = st.k := rfl
@[simp] theorem Strand.onFrag_flags (st : Strand) (i : Fin 4) (f : Frag → Frag) : (st.onFrag i f).flags = st.flags := rfl
@[simp] theorem Strand.onFrag_tagrdy (st : Strand) (i : Fin 4) (f : Frag → Frag) : (st.onFrag i f).tagrdy = st.tagrdy := rfl
@[simp] theorem Strand.onFrag_tagout (st : Strand) (i : Fin 4) (f : Frag → Frag) : (st.onFrag i f).tagout = st.tagout := rfl
@[simp] theorem Strand.onFrag_observed (st : Strand) (i : Fin 4) (f : Frag → Frag) : (st.onFrag i f).observed = st.observed := rfl
@[simp] theorem Strand.onFrag_tlret (st : Strand) (i : Fin 4) (f : Frag → Frag) : (st.onFrag i f).tlret = st.tlret := rfl
@[simp] theorem Strand.onFrag_traytimer (st : Strand) (i : Fin 4) (f : Frag → Frag) : (st.onFrag i f).traytimer = st.traytimer := rfl
@[simp] theorem Strand.onFrag_deferred (st : Strand) (i : Fin 4) (f : Frag → Frag) : (st.onFrag i f).deferred = st.deferred := rfl
@[simp] theorem Strand.onFrag_flights (st : Strand) (i : Fin 4) (f : Frag → Frag) : (st.onFrag i f).flights = st.flights := rfl
@[simp] theorem Strand.onFrag_groups (st : Strand) (i : Fin 4) (f : Frag → Frag) : (st.onFrag i f).groups = st.groups := rfl
@[simp] theorem Strand.onFrag_others (st : Strand) (i : Fin 4) (f : Frag → Frag) : (st.onFrag i f).others = st.others := rfl
@[simp] theorem Strand.onFrag_fin (st : Strand) (i : Fin 4) (f : Frag → Frag) : (st.onFrag i f).fin = st.fin := rfl
@[simp] theorem Strand.onFrag_redo (st : Strand) (i : Fin 4) (f : Frag → Frag) : (st.onFrag i f).redo = st.redo := rfl
@[simp] theorem Strand.onFrag_frags (st : Strand) (i : Fin 4) (f : Frag → Frag) : (st.onFrag i f).frags = updV st.frags i (Option.map f) := rfl

/-! ### Strand.setFrag -/

@[simp] theorem Strand.setFrag_id (st : Strand) (i : Fin 4) (f : Option Frag) : (st.setFrag i f).id = st.id := rfl
@[simp] theorem Strand.setFrag_kind (st : Strand) (i : Fin 4) (f : Option Frag) : (st.setFrag i f).kind = st.kind := rfl
@[simp] theorem Strand.setFrag_task (st : Strand) (i : Fin 4) (f : Option Frag) : (st.setFrag i f).task = st.task := rfl
@[simp] theorem Strand.setFrag_region (st : Strand) (i : Fin 4) (f : Option Frag) : (st.setFrag i f).region = st.region := rfl
@[simp] theorem Strand.setFrag_core (st : Strand) (i : Fin 4) (f : Option Frag) : (st.setFrag i f).core = st.core := rfl
@[simp] theorem Strand.setFrag_quad (st : Strand) (i : Fin 4) (f : Option Frag) : (st.setFrag i f).quad = st.quad := rfl
@[simp] theorem Strand.setFrag_slot (st : Strand) (i : Fin 4) (f : Option Frag) : (st.setFrag i f).slot = st.slot := rfl
@[simp] theorem Strand.setFrag_launched (st : Strand) (i : Fin 4) (f : Option Frag) : (st.setFrag i f).launched = st.launched := rfl
@[simp] theorem Strand.setFrag_strandid (st : Strand) (i : Fin 4) (f : Option Frag) : (st.setFrag i f).strandid = st.strandid := rfl
@[simp] theorem Strand.setFrag_taskidx (st : Strand) (i : Fin 4) (f : Option Frag) : (st.setFrag i f).taskidx = st.taskidx := rfl
@[simp] theorem Strand.setFrag_batchn (st : Strand) (i : Fin 4) (f : Option Frag) : (st.setFrag i f).batchn = st.batchn := rfl
@[simp] theorem Strand.setFrag_rcbbase (st : Strand) (i : Fin 4) (f : Option Frag) : (st.setFrag i f).rcbbase = st.rcbbase := rfl
@[simp] theorem Strand.setFrag_leasebase (st : Strand) (i : Fin 4) (f : Option Frag) : (st.setFrag i f).leasebase = st.leasebase := rfl
@[simp] theorem Strand.setFrag_det (st : Strand) (i : Fin 4) (f : Option Frag) : (st.setFrag i f).det = st.det := rfl
@[simp] theorem Strand.setFrag_lanes (st : Strand) (i : Fin 4) (f : Option Frag) : (st.setFrag i f).lanes = st.lanes := rfl
@[simp] theorem Strand.setFrag_k (st : Strand) (i : Fin 4) (f : Option Frag) : (st.setFrag i f).k = st.k := rfl
@[simp] theorem Strand.setFrag_flags (st : Strand) (i : Fin 4) (f : Option Frag) : (st.setFrag i f).flags = st.flags := rfl
@[simp] theorem Strand.setFrag_tagrdy (st : Strand) (i : Fin 4) (f : Option Frag) : (st.setFrag i f).tagrdy = st.tagrdy := rfl
@[simp] theorem Strand.setFrag_tagout (st : Strand) (i : Fin 4) (f : Option Frag) : (st.setFrag i f).tagout = st.tagout := rfl
@[simp] theorem Strand.setFrag_observed (st : Strand) (i : Fin 4) (f : Option Frag) : (st.setFrag i f).observed = st.observed := rfl
@[simp] theorem Strand.setFrag_tlret (st : Strand) (i : Fin 4) (f : Option Frag) : (st.setFrag i f).tlret = st.tlret := rfl
@[simp] theorem Strand.setFrag_traytimer (st : Strand) (i : Fin 4) (f : Option Frag) : (st.setFrag i f).traytimer = st.traytimer := rfl
@[simp] theorem Strand.setFrag_deferred (st : Strand) (i : Fin 4) (f : Option Frag) : (st.setFrag i f).deferred = st.deferred := rfl
@[simp] theorem Strand.setFrag_flights (st : Strand) (i : Fin 4) (f : Option Frag) : (st.setFrag i f).flights = st.flights := rfl
@[simp] theorem Strand.setFrag_groups (st : Strand) (i : Fin 4) (f : Option Frag) : (st.setFrag i f).groups = st.groups := rfl
@[simp] theorem Strand.setFrag_others (st : Strand) (i : Fin 4) (f : Option Frag) : (st.setFrag i f).others = st.others := rfl
@[simp] theorem Strand.setFrag_fin (st : Strand) (i : Fin 4) (f : Option Frag) : (st.setFrag i f).fin = st.fin := rfl
@[simp] theorem Strand.setFrag_redo (st : Strand) (i : Fin 4) (f : Option Frag) : (st.setFrag i f).redo = st.redo := rfl
@[simp] theorem Strand.setFrag_frags (st : Strand) (i : Fin 4) (f : Option Frag) : (st.setFrag i f).frags = st.frags.set i f := rfl

/-! ### Strand.launchFlight -/

@[simp] theorem Strand.launchFlight_id (st : Strand) (f : Flight) : (st.launchFlight f).id = st.id := rfl
@[simp] theorem Strand.launchFlight_kind (st : Strand) (f : Flight) : (st.launchFlight f).kind = st.kind := rfl
@[simp] theorem Strand.launchFlight_task (st : Strand) (f : Flight) : (st.launchFlight f).task = st.task := rfl
@[simp] theorem Strand.launchFlight_region (st : Strand) (f : Flight) : (st.launchFlight f).region = st.region := rfl
@[simp] theorem Strand.launchFlight_core (st : Strand) (f : Flight) : (st.launchFlight f).core = st.core := rfl
@[simp] theorem Strand.launchFlight_quad (st : Strand) (f : Flight) : (st.launchFlight f).quad = st.quad := rfl
@[simp] theorem Strand.launchFlight_slot (st : Strand) (f : Flight) : (st.launchFlight f).slot = st.slot := rfl
@[simp] theorem Strand.launchFlight_launched (st : Strand) (f : Flight) : (st.launchFlight f).launched = st.launched := rfl
@[simp] theorem Strand.launchFlight_strandid (st : Strand) (f : Flight) : (st.launchFlight f).strandid = st.strandid := rfl
@[simp] theorem Strand.launchFlight_taskidx (st : Strand) (f : Flight) : (st.launchFlight f).taskidx = st.taskidx := rfl
@[simp] theorem Strand.launchFlight_batchn (st : Strand) (f : Flight) : (st.launchFlight f).batchn = st.batchn := rfl
@[simp] theorem Strand.launchFlight_rcbbase (st : Strand) (f : Flight) : (st.launchFlight f).rcbbase = st.rcbbase := rfl
@[simp] theorem Strand.launchFlight_leasebase (st : Strand) (f : Flight) : (st.launchFlight f).leasebase = st.leasebase := rfl
@[simp] theorem Strand.launchFlight_det (st : Strand) (f : Flight) : (st.launchFlight f).det = st.det := rfl
@[simp] theorem Strand.launchFlight_lanes (st : Strand) (f : Flight) : (st.launchFlight f).lanes = st.lanes := rfl
@[simp] theorem Strand.launchFlight_k (st : Strand) (f : Flight) : (st.launchFlight f).k = st.k := rfl
@[simp] theorem Strand.launchFlight_flags (st : Strand) (f : Flight) : (st.launchFlight f).flags = st.flags := rfl
@[simp] theorem Strand.launchFlight_tagrdy (st : Strand) (f : Flight) : (st.launchFlight f).tagrdy = st.tagrdy := rfl
@[simp] theorem Strand.launchFlight_tagout (st : Strand) (f : Flight) : (st.launchFlight f).tagout = st.tagout := rfl
@[simp] theorem Strand.launchFlight_observed (st : Strand) (f : Flight) : (st.launchFlight f).observed = st.observed := rfl
@[simp] theorem Strand.launchFlight_tlret (st : Strand) (f : Flight) : (st.launchFlight f).tlret = st.tlret := rfl
@[simp] theorem Strand.launchFlight_traytimer (st : Strand) (f : Flight) : (st.launchFlight f).traytimer = st.traytimer := rfl
@[simp] theorem Strand.launchFlight_frags (st : Strand) (f : Flight) : (st.launchFlight f).frags = st.frags := rfl
@[simp] theorem Strand.launchFlight_deferred (st : Strand) (f : Flight) : (st.launchFlight f).deferred = st.deferred := rfl
@[simp] theorem Strand.launchFlight_groups (st : Strand) (f : Flight) : (st.launchFlight f).groups = st.groups := rfl
@[simp] theorem Strand.launchFlight_others (st : Strand) (f : Flight) : (st.launchFlight f).others = st.others := rfl
@[simp] theorem Strand.launchFlight_fin (st : Strand) (f : Flight) : (st.launchFlight f).fin = st.fin := rfl
@[simp] theorem Strand.launchFlight_redo (st : Strand) (f : Flight) : (st.launchFlight f).redo = st.redo := rfl
@[simp] theorem Strand.launchFlight_flights (st : Strand) (f : Flight) : (st.launchFlight f).flights = st.flights ++ [f] := rfl

/-! ### Dev.onFocus -/

@[simp] theorem Dev.onFocus_strands (d : Dev) (f : Strand → Strand) : (d.onFocus f).strands = d.strands := rfl
@[simp] theorem Dev.onFocus_mem (d : Dev) (f : Strand → Strand) : (d.onFocus f).mem = d.mem := rfl
@[simp] theorem Dev.onFocus_eccOne (d : Dev) (f : Strand → Strand) : (d.onFocus f).eccOne = d.eccOne := rfl
@[simp] theorem Dev.onFocus_eccBad (d : Dev) (f : Strand → Strand) : (d.onFocus f).eccBad = d.eccBad := rfl
@[simp] theorem Dev.onFocus_cores (d : Dev) (f : Strand → Strand) : (d.onFocus f).cores = d.cores := rfl
@[simp] theorem Dev.onFocus_clasps (d : Dev) (f : Strand → Strand) : (d.onFocus f).clasps = d.clasps := rfl
@[simp] theorem Dev.onFocus_ops (d : Dev) (f : Strand → Strand) : (d.onFocus f).ops = d.ops := rfl
@[simp] theorem Dev.onFocus_peers (d : Dev) (f : Strand → Strand) : (d.onFocus f).peers = d.peers := rfl
@[simp] theorem Dev.onFocus_regions (d : Dev) (f : Strand → Strand) : (d.onFocus f).regions = d.regions := rfl
@[simp] theorem Dev.onFocus_jobs (d : Dev) (f : Strand → Strand) : (d.onFocus f).jobs = d.jobs := rfl
@[simp] theorem Dev.onFocus_decs (d : Dev) (f : Strand → Strand) : (d.onFocus f).decs = d.decs := rfl
@[simp] theorem Dev.onFocus_links (d : Dev) (f : Strand → Strand) : (d.onFocus f).links = d.links := rfl
@[simp] theorem Dev.onFocus_intake (d : Dev) (f : Strand → Strand) : (d.onFocus f).intake = d.intake := rfl
@[simp] theorem Dev.onFocus_stall (d : Dev) (f : Strand → Strand) : (d.onFocus f).stall = d.stall := rfl
@[simp] theorem Dev.onFocus_saved (d : Dev) (f : Strand → Strand) : (d.onFocus f).saved = d.saved := rfl
@[simp] theorem Dev.onFocus_descs (d : Dev) (f : Strand → Strand) : (d.onFocus f).descs = d.descs := rfl
@[simp] theorem Dev.onFocus_sigs (d : Dev) (f : Strand → Strand) : (d.onFocus f).sigs = d.sigs := rfl
@[simp] theorem Dev.onFocus_swapq (d : Dev) (f : Strand → Strand) : (d.onFocus f).swapq = d.swapq := rfl
@[simp] theorem Dev.onFocus_fetches (d : Dev) (f : Strand → Strand) : (d.onFocus f).fetches = d.fetches := rfl
@[simp] theorem Dev.onFocus_evicts (d : Dev) (f : Strand → Strand) : (d.onFocus f).evicts = d.evicts := rfl
@[simp] theorem Dev.onFocus_swapFail (d : Dev) (f : Strand → Strand) : (d.onFocus f).swapFail = d.swapFail := rfl
@[simp] theorem Dev.onFocus_eweoth (d : Dev) (f : Strand → Strand) : (d.onFocus f).eweoth = d.eweoth := rfl
@[simp] theorem Dev.onFocus_outTx (d : Dev) (f : Strand → Strand) : (d.onFocus f).outTx = d.outTx := rfl
@[simp] theorem Dev.onFocus_heldTx (d : Dev) (f : Strand → Strand) : (d.onFocus f).heldTx = d.heldTx := rfl
@[simp] theorem Dev.onFocus_outSeq (d : Dev) (f : Strand → Strand) : (d.onFocus f).outSeq = d.outSeq := rfl
@[simp] theorem Dev.onFocus_inTx (d : Dev) (f : Strand → Strand) : (d.onFocus f).inTx = d.inTx := rfl
@[simp] theorem Dev.onFocus_cxlUp (d : Dev) (f : Strand → Strand) : (d.onFocus f).cxlUp = d.cxlUp := rfl
@[simp] theorem Dev.onFocus_host (d : Dev) (f : Strand → Strand) : (d.onFocus f).host = d.host := rfl
@[simp] theorem Dev.onFocus_boot (d : Dev) (f : Strand → Strand) : (d.onFocus f).boot = d.boot := rfl
@[simp] theorem Dev.onFocus_power (d : Dev) (f : Strand → Strand) : (d.onFocus f).power = d.power := rfl
@[simp] theorem Dev.onFocus_upsets (d : Dev) (f : Strand → Strand) : (d.onFocus f).upsets = d.upsets := rfl
@[simp] theorem Dev.onFocus_sysEntry (d : Dev) (f : Strand → Strand) : (d.onFocus f).sysEntry = d.sysEntry := rfl
@[simp] theorem Dev.onFocus_rootRcb (d : Dev) (f : Strand → Strand) : (d.onFocus f).rootRcb = d.rootRcb := rfl
@[simp] theorem Dev.onFocus_cycle (d : Dev) (f : Strand → Strand) : (d.onFocus f).cycle = d.cycle := rfl
@[simp] theorem Dev.onFocus_seq (d : Dev) (f : Strand → Strand) : (d.onFocus f).seq = d.seq := rfl
@[simp] theorem Dev.onFocus_fresh (d : Dev) (f : Strand → Strand) : (d.onFocus f).fresh = d.fresh := rfl
@[simp] theorem Dev.onFocus_agenda (d : Dev) (f : Strand → Strand) : (d.onFocus f).agenda = d.agenda := rfl
@[simp] theorem Dev.onFocus_focus (d : Dev) (f : Strand → Strand) : (d.onFocus f).focus = f d.focus := rfl

/-! ### Dev.onCore -/

@[simp] theorem Dev.onCore_focus (d : Dev) (c : Fin 256) (f : Core → Core) : (d.onCore c f).focus = d.focus := rfl
@[simp] theorem Dev.onCore_strands (d : Dev) (c : Fin 256) (f : Core → Core) : (d.onCore c f).strands = d.strands := rfl
@[simp] theorem Dev.onCore_mem (d : Dev) (c : Fin 256) (f : Core → Core) : (d.onCore c f).mem = d.mem := rfl
@[simp] theorem Dev.onCore_eccOne (d : Dev) (c : Fin 256) (f : Core → Core) : (d.onCore c f).eccOne = d.eccOne := rfl
@[simp] theorem Dev.onCore_eccBad (d : Dev) (c : Fin 256) (f : Core → Core) : (d.onCore c f).eccBad = d.eccBad := rfl
@[simp] theorem Dev.onCore_clasps (d : Dev) (c : Fin 256) (f : Core → Core) : (d.onCore c f).clasps = d.clasps := rfl
@[simp] theorem Dev.onCore_ops (d : Dev) (c : Fin 256) (f : Core → Core) : (d.onCore c f).ops = d.ops := rfl
@[simp] theorem Dev.onCore_peers (d : Dev) (c : Fin 256) (f : Core → Core) : (d.onCore c f).peers = d.peers := rfl
@[simp] theorem Dev.onCore_regions (d : Dev) (c : Fin 256) (f : Core → Core) : (d.onCore c f).regions = d.regions := rfl
@[simp] theorem Dev.onCore_jobs (d : Dev) (c : Fin 256) (f : Core → Core) : (d.onCore c f).jobs = d.jobs := rfl
@[simp] theorem Dev.onCore_decs (d : Dev) (c : Fin 256) (f : Core → Core) : (d.onCore c f).decs = d.decs := rfl
@[simp] theorem Dev.onCore_links (d : Dev) (c : Fin 256) (f : Core → Core) : (d.onCore c f).links = d.links := rfl
@[simp] theorem Dev.onCore_intake (d : Dev) (c : Fin 256) (f : Core → Core) : (d.onCore c f).intake = d.intake := rfl
@[simp] theorem Dev.onCore_stall (d : Dev) (c : Fin 256) (f : Core → Core) : (d.onCore c f).stall = d.stall := rfl
@[simp] theorem Dev.onCore_saved (d : Dev) (c : Fin 256) (f : Core → Core) : (d.onCore c f).saved = d.saved := rfl
@[simp] theorem Dev.onCore_descs (d : Dev) (c : Fin 256) (f : Core → Core) : (d.onCore c f).descs = d.descs := rfl
@[simp] theorem Dev.onCore_sigs (d : Dev) (c : Fin 256) (f : Core → Core) : (d.onCore c f).sigs = d.sigs := rfl
@[simp] theorem Dev.onCore_swapq (d : Dev) (c : Fin 256) (f : Core → Core) : (d.onCore c f).swapq = d.swapq := rfl
@[simp] theorem Dev.onCore_fetches (d : Dev) (c : Fin 256) (f : Core → Core) : (d.onCore c f).fetches = d.fetches := rfl
@[simp] theorem Dev.onCore_evicts (d : Dev) (c : Fin 256) (f : Core → Core) : (d.onCore c f).evicts = d.evicts := rfl
@[simp] theorem Dev.onCore_swapFail (d : Dev) (c : Fin 256) (f : Core → Core) : (d.onCore c f).swapFail = d.swapFail := rfl
@[simp] theorem Dev.onCore_eweoth (d : Dev) (c : Fin 256) (f : Core → Core) : (d.onCore c f).eweoth = d.eweoth := rfl
@[simp] theorem Dev.onCore_outTx (d : Dev) (c : Fin 256) (f : Core → Core) : (d.onCore c f).outTx = d.outTx := rfl
@[simp] theorem Dev.onCore_heldTx (d : Dev) (c : Fin 256) (f : Core → Core) : (d.onCore c f).heldTx = d.heldTx := rfl
@[simp] theorem Dev.onCore_outSeq (d : Dev) (c : Fin 256) (f : Core → Core) : (d.onCore c f).outSeq = d.outSeq := rfl
@[simp] theorem Dev.onCore_inTx (d : Dev) (c : Fin 256) (f : Core → Core) : (d.onCore c f).inTx = d.inTx := rfl
@[simp] theorem Dev.onCore_cxlUp (d : Dev) (c : Fin 256) (f : Core → Core) : (d.onCore c f).cxlUp = d.cxlUp := rfl
@[simp] theorem Dev.onCore_host (d : Dev) (c : Fin 256) (f : Core → Core) : (d.onCore c f).host = d.host := rfl
@[simp] theorem Dev.onCore_boot (d : Dev) (c : Fin 256) (f : Core → Core) : (d.onCore c f).boot = d.boot := rfl
@[simp] theorem Dev.onCore_power (d : Dev) (c : Fin 256) (f : Core → Core) : (d.onCore c f).power = d.power := rfl
@[simp] theorem Dev.onCore_upsets (d : Dev) (c : Fin 256) (f : Core → Core) : (d.onCore c f).upsets = d.upsets := rfl
@[simp] theorem Dev.onCore_sysEntry (d : Dev) (c : Fin 256) (f : Core → Core) : (d.onCore c f).sysEntry = d.sysEntry := rfl
@[simp] theorem Dev.onCore_rootRcb (d : Dev) (c : Fin 256) (f : Core → Core) : (d.onCore c f).rootRcb = d.rootRcb := rfl
@[simp] theorem Dev.onCore_cycle (d : Dev) (c : Fin 256) (f : Core → Core) : (d.onCore c f).cycle = d.cycle := rfl
@[simp] theorem Dev.onCore_seq (d : Dev) (c : Fin 256) (f : Core → Core) : (d.onCore c f).seq = d.seq := rfl
@[simp] theorem Dev.onCore_fresh (d : Dev) (c : Fin 256) (f : Core → Core) : (d.onCore c f).fresh = d.fresh := rfl
@[simp] theorem Dev.onCore_agenda (d : Dev) (c : Fin 256) (f : Core → Core) : (d.onCore c f).agenda = d.agenda := rfl
@[simp] theorem Dev.onCore_cores (d : Dev) (c : Fin 256) (f : Core → Core) : (d.onCore c f).cores = updV d.cores c f := rfl

/-! ### Dev.onRegion -/

@[simp] theorem Dev.onRegion_focus (d : Dev) (r : Nat) (f : Region → Region) : (d.onRegion r f).focus = d.focus := rfl
@[simp] theorem Dev.onRegion_strands (d : Dev) (r : Nat) (f : Region → Region) : (d.onRegion r f).strands = d.strands := rfl
@[simp] theorem Dev.onRegion_mem (d : Dev) (r : Nat) (f : Region → Region) : (d.onRegion r f).mem = d.mem := rfl
@[simp] theorem Dev.onRegion_eccOne (d : Dev) (r : Nat) (f : Region → Region) : (d.onRegion r f).eccOne = d.eccOne := rfl
@[simp] theorem Dev.onRegion_eccBad (d : Dev) (r : Nat) (f : Region → Region) : (d.onRegion r f).eccBad = d.eccBad := rfl
@[simp] theorem Dev.onRegion_cores (d : Dev) (r : Nat) (f : Region → Region) : (d.onRegion r f).cores = d.cores := rfl
@[simp] theorem Dev.onRegion_clasps (d : Dev) (r : Nat) (f : Region → Region) : (d.onRegion r f).clasps = d.clasps := rfl
@[simp] theorem Dev.onRegion_ops (d : Dev) (r : Nat) (f : Region → Region) : (d.onRegion r f).ops = d.ops := rfl
@[simp] theorem Dev.onRegion_peers (d : Dev) (r : Nat) (f : Region → Region) : (d.onRegion r f).peers = d.peers := rfl
@[simp] theorem Dev.onRegion_jobs (d : Dev) (r : Nat) (f : Region → Region) : (d.onRegion r f).jobs = d.jobs := rfl
@[simp] theorem Dev.onRegion_decs (d : Dev) (r : Nat) (f : Region → Region) : (d.onRegion r f).decs = d.decs := rfl
@[simp] theorem Dev.onRegion_links (d : Dev) (r : Nat) (f : Region → Region) : (d.onRegion r f).links = d.links := rfl
@[simp] theorem Dev.onRegion_intake (d : Dev) (r : Nat) (f : Region → Region) : (d.onRegion r f).intake = d.intake := rfl
@[simp] theorem Dev.onRegion_stall (d : Dev) (r : Nat) (f : Region → Region) : (d.onRegion r f).stall = d.stall := rfl
@[simp] theorem Dev.onRegion_saved (d : Dev) (r : Nat) (f : Region → Region) : (d.onRegion r f).saved = d.saved := rfl
@[simp] theorem Dev.onRegion_descs (d : Dev) (r : Nat) (f : Region → Region) : (d.onRegion r f).descs = d.descs := rfl
@[simp] theorem Dev.onRegion_sigs (d : Dev) (r : Nat) (f : Region → Region) : (d.onRegion r f).sigs = d.sigs := rfl
@[simp] theorem Dev.onRegion_swapq (d : Dev) (r : Nat) (f : Region → Region) : (d.onRegion r f).swapq = d.swapq := rfl
@[simp] theorem Dev.onRegion_fetches (d : Dev) (r : Nat) (f : Region → Region) : (d.onRegion r f).fetches = d.fetches := rfl
@[simp] theorem Dev.onRegion_evicts (d : Dev) (r : Nat) (f : Region → Region) : (d.onRegion r f).evicts = d.evicts := rfl
@[simp] theorem Dev.onRegion_swapFail (d : Dev) (r : Nat) (f : Region → Region) : (d.onRegion r f).swapFail = d.swapFail := rfl
@[simp] theorem Dev.onRegion_eweoth (d : Dev) (r : Nat) (f : Region → Region) : (d.onRegion r f).eweoth = d.eweoth := rfl
@[simp] theorem Dev.onRegion_outTx (d : Dev) (r : Nat) (f : Region → Region) : (d.onRegion r f).outTx = d.outTx := rfl
@[simp] theorem Dev.onRegion_heldTx (d : Dev) (r : Nat) (f : Region → Region) : (d.onRegion r f).heldTx = d.heldTx := rfl
@[simp] theorem Dev.onRegion_outSeq (d : Dev) (r : Nat) (f : Region → Region) : (d.onRegion r f).outSeq = d.outSeq := rfl
@[simp] theorem Dev.onRegion_inTx (d : Dev) (r : Nat) (f : Region → Region) : (d.onRegion r f).inTx = d.inTx := rfl
@[simp] theorem Dev.onRegion_cxlUp (d : Dev) (r : Nat) (f : Region → Region) : (d.onRegion r f).cxlUp = d.cxlUp := rfl
@[simp] theorem Dev.onRegion_host (d : Dev) (r : Nat) (f : Region → Region) : (d.onRegion r f).host = d.host := rfl
@[simp] theorem Dev.onRegion_boot (d : Dev) (r : Nat) (f : Region → Region) : (d.onRegion r f).boot = d.boot := rfl
@[simp] theorem Dev.onRegion_power (d : Dev) (r : Nat) (f : Region → Region) : (d.onRegion r f).power = d.power := rfl
@[simp] theorem Dev.onRegion_upsets (d : Dev) (r : Nat) (f : Region → Region) : (d.onRegion r f).upsets = d.upsets := rfl
@[simp] theorem Dev.onRegion_sysEntry (d : Dev) (r : Nat) (f : Region → Region) : (d.onRegion r f).sysEntry = d.sysEntry := rfl
@[simp] theorem Dev.onRegion_rootRcb (d : Dev) (r : Nat) (f : Region → Region) : (d.onRegion r f).rootRcb = d.rootRcb := rfl
@[simp] theorem Dev.onRegion_cycle (d : Dev) (r : Nat) (f : Region → Region) : (d.onRegion r f).cycle = d.cycle := rfl
@[simp] theorem Dev.onRegion_seq (d : Dev) (r : Nat) (f : Region → Region) : (d.onRegion r f).seq = d.seq := rfl
@[simp] theorem Dev.onRegion_fresh (d : Dev) (r : Nat) (f : Region → Region) : (d.onRegion r f).fresh = d.fresh := rfl
@[simp] theorem Dev.onRegion_agenda (d : Dev) (r : Nat) (f : Region → Region) : (d.onRegion r f).agenda = d.agenda := rfl
@[simp] theorem Dev.onRegion_regions (d : Dev) (r : Nat) (f : Region → Region) : (d.onRegion r f).regions = updWhere (fun x => x.id == r) f d.regions := rfl

/-! ### Dev.onJob -/

@[simp] theorem Dev.onJob_focus (d : Dev) (j : Nat) (f : Job → Job) : (d.onJob j f).focus = d.focus := rfl
@[simp] theorem Dev.onJob_strands (d : Dev) (j : Nat) (f : Job → Job) : (d.onJob j f).strands = d.strands := rfl
@[simp] theorem Dev.onJob_mem (d : Dev) (j : Nat) (f : Job → Job) : (d.onJob j f).mem = d.mem := rfl
@[simp] theorem Dev.onJob_eccOne (d : Dev) (j : Nat) (f : Job → Job) : (d.onJob j f).eccOne = d.eccOne := rfl
@[simp] theorem Dev.onJob_eccBad (d : Dev) (j : Nat) (f : Job → Job) : (d.onJob j f).eccBad = d.eccBad := rfl
@[simp] theorem Dev.onJob_cores (d : Dev) (j : Nat) (f : Job → Job) : (d.onJob j f).cores = d.cores := rfl
@[simp] theorem Dev.onJob_clasps (d : Dev) (j : Nat) (f : Job → Job) : (d.onJob j f).clasps = d.clasps := rfl
@[simp] theorem Dev.onJob_ops (d : Dev) (j : Nat) (f : Job → Job) : (d.onJob j f).ops = d.ops := rfl
@[simp] theorem Dev.onJob_peers (d : Dev) (j : Nat) (f : Job → Job) : (d.onJob j f).peers = d.peers := rfl
@[simp] theorem Dev.onJob_regions (d : Dev) (j : Nat) (f : Job → Job) : (d.onJob j f).regions = d.regions := rfl
@[simp] theorem Dev.onJob_decs (d : Dev) (j : Nat) (f : Job → Job) : (d.onJob j f).decs = d.decs := rfl
@[simp] theorem Dev.onJob_links (d : Dev) (j : Nat) (f : Job → Job) : (d.onJob j f).links = d.links := rfl
@[simp] theorem Dev.onJob_intake (d : Dev) (j : Nat) (f : Job → Job) : (d.onJob j f).intake = d.intake := rfl
@[simp] theorem Dev.onJob_stall (d : Dev) (j : Nat) (f : Job → Job) : (d.onJob j f).stall = d.stall := rfl
@[simp] theorem Dev.onJob_saved (d : Dev) (j : Nat) (f : Job → Job) : (d.onJob j f).saved = d.saved := rfl
@[simp] theorem Dev.onJob_descs (d : Dev) (j : Nat) (f : Job → Job) : (d.onJob j f).descs = d.descs := rfl
@[simp] theorem Dev.onJob_sigs (d : Dev) (j : Nat) (f : Job → Job) : (d.onJob j f).sigs = d.sigs := rfl
@[simp] theorem Dev.onJob_swapq (d : Dev) (j : Nat) (f : Job → Job) : (d.onJob j f).swapq = d.swapq := rfl
@[simp] theorem Dev.onJob_fetches (d : Dev) (j : Nat) (f : Job → Job) : (d.onJob j f).fetches = d.fetches := rfl
@[simp] theorem Dev.onJob_evicts (d : Dev) (j : Nat) (f : Job → Job) : (d.onJob j f).evicts = d.evicts := rfl
@[simp] theorem Dev.onJob_swapFail (d : Dev) (j : Nat) (f : Job → Job) : (d.onJob j f).swapFail = d.swapFail := rfl
@[simp] theorem Dev.onJob_eweoth (d : Dev) (j : Nat) (f : Job → Job) : (d.onJob j f).eweoth = d.eweoth := rfl
@[simp] theorem Dev.onJob_outTx (d : Dev) (j : Nat) (f : Job → Job) : (d.onJob j f).outTx = d.outTx := rfl
@[simp] theorem Dev.onJob_heldTx (d : Dev) (j : Nat) (f : Job → Job) : (d.onJob j f).heldTx = d.heldTx := rfl
@[simp] theorem Dev.onJob_outSeq (d : Dev) (j : Nat) (f : Job → Job) : (d.onJob j f).outSeq = d.outSeq := rfl
@[simp] theorem Dev.onJob_inTx (d : Dev) (j : Nat) (f : Job → Job) : (d.onJob j f).inTx = d.inTx := rfl
@[simp] theorem Dev.onJob_cxlUp (d : Dev) (j : Nat) (f : Job → Job) : (d.onJob j f).cxlUp = d.cxlUp := rfl
@[simp] theorem Dev.onJob_host (d : Dev) (j : Nat) (f : Job → Job) : (d.onJob j f).host = d.host := rfl
@[simp] theorem Dev.onJob_boot (d : Dev) (j : Nat) (f : Job → Job) : (d.onJob j f).boot = d.boot := rfl
@[simp] theorem Dev.onJob_power (d : Dev) (j : Nat) (f : Job → Job) : (d.onJob j f).power = d.power := rfl
@[simp] theorem Dev.onJob_upsets (d : Dev) (j : Nat) (f : Job → Job) : (d.onJob j f).upsets = d.upsets := rfl
@[simp] theorem Dev.onJob_sysEntry (d : Dev) (j : Nat) (f : Job → Job) : (d.onJob j f).sysEntry = d.sysEntry := rfl
@[simp] theorem Dev.onJob_rootRcb (d : Dev) (j : Nat) (f : Job → Job) : (d.onJob j f).rootRcb = d.rootRcb := rfl
@[simp] theorem Dev.onJob_cycle (d : Dev) (j : Nat) (f : Job → Job) : (d.onJob j f).cycle = d.cycle := rfl
@[simp] theorem Dev.onJob_seq (d : Dev) (j : Nat) (f : Job → Job) : (d.onJob j f).seq = d.seq := rfl
@[simp] theorem Dev.onJob_fresh (d : Dev) (j : Nat) (f : Job → Job) : (d.onJob j f).fresh = d.fresh := rfl
@[simp] theorem Dev.onJob_agenda (d : Dev) (j : Nat) (f : Job → Job) : (d.onJob j f).agenda = d.agenda := rfl
@[simp] theorem Dev.onJob_jobs (d : Dev) (j : Nat) (f : Job → Job) : (d.onJob j f).jobs = updWhere (fun x => x.id == j) f d.jobs := rfl

/-! ### Dev.onOp -/

@[simp] theorem Dev.onOp_focus (d : Dev) (o : Nat) (f : EngOp → EngOp) : (d.onOp o f).focus = d.focus := rfl
@[simp] theorem Dev.onOp_strands (d : Dev) (o : Nat) (f : EngOp → EngOp) : (d.onOp o f).strands = d.strands := rfl
@[simp] theorem Dev.onOp_mem (d : Dev) (o : Nat) (f : EngOp → EngOp) : (d.onOp o f).mem = d.mem := rfl
@[simp] theorem Dev.onOp_eccOne (d : Dev) (o : Nat) (f : EngOp → EngOp) : (d.onOp o f).eccOne = d.eccOne := rfl
@[simp] theorem Dev.onOp_eccBad (d : Dev) (o : Nat) (f : EngOp → EngOp) : (d.onOp o f).eccBad = d.eccBad := rfl
@[simp] theorem Dev.onOp_cores (d : Dev) (o : Nat) (f : EngOp → EngOp) : (d.onOp o f).cores = d.cores := rfl
@[simp] theorem Dev.onOp_clasps (d : Dev) (o : Nat) (f : EngOp → EngOp) : (d.onOp o f).clasps = d.clasps := rfl
@[simp] theorem Dev.onOp_peers (d : Dev) (o : Nat) (f : EngOp → EngOp) : (d.onOp o f).peers = d.peers := rfl
@[simp] theorem Dev.onOp_regions (d : Dev) (o : Nat) (f : EngOp → EngOp) : (d.onOp o f).regions = d.regions := rfl
@[simp] theorem Dev.onOp_jobs (d : Dev) (o : Nat) (f : EngOp → EngOp) : (d.onOp o f).jobs = d.jobs := rfl
@[simp] theorem Dev.onOp_decs (d : Dev) (o : Nat) (f : EngOp → EngOp) : (d.onOp o f).decs = d.decs := rfl
@[simp] theorem Dev.onOp_links (d : Dev) (o : Nat) (f : EngOp → EngOp) : (d.onOp o f).links = d.links := rfl
@[simp] theorem Dev.onOp_intake (d : Dev) (o : Nat) (f : EngOp → EngOp) : (d.onOp o f).intake = d.intake := rfl
@[simp] theorem Dev.onOp_stall (d : Dev) (o : Nat) (f : EngOp → EngOp) : (d.onOp o f).stall = d.stall := rfl
@[simp] theorem Dev.onOp_saved (d : Dev) (o : Nat) (f : EngOp → EngOp) : (d.onOp o f).saved = d.saved := rfl
@[simp] theorem Dev.onOp_descs (d : Dev) (o : Nat) (f : EngOp → EngOp) : (d.onOp o f).descs = d.descs := rfl
@[simp] theorem Dev.onOp_sigs (d : Dev) (o : Nat) (f : EngOp → EngOp) : (d.onOp o f).sigs = d.sigs := rfl
@[simp] theorem Dev.onOp_swapq (d : Dev) (o : Nat) (f : EngOp → EngOp) : (d.onOp o f).swapq = d.swapq := rfl
@[simp] theorem Dev.onOp_fetches (d : Dev) (o : Nat) (f : EngOp → EngOp) : (d.onOp o f).fetches = d.fetches := rfl
@[simp] theorem Dev.onOp_evicts (d : Dev) (o : Nat) (f : EngOp → EngOp) : (d.onOp o f).evicts = d.evicts := rfl
@[simp] theorem Dev.onOp_swapFail (d : Dev) (o : Nat) (f : EngOp → EngOp) : (d.onOp o f).swapFail = d.swapFail := rfl
@[simp] theorem Dev.onOp_eweoth (d : Dev) (o : Nat) (f : EngOp → EngOp) : (d.onOp o f).eweoth = d.eweoth := rfl
@[simp] theorem Dev.onOp_outTx (d : Dev) (o : Nat) (f : EngOp → EngOp) : (d.onOp o f).outTx = d.outTx := rfl
@[simp] theorem Dev.onOp_heldTx (d : Dev) (o : Nat) (f : EngOp → EngOp) : (d.onOp o f).heldTx = d.heldTx := rfl
@[simp] theorem Dev.onOp_outSeq (d : Dev) (o : Nat) (f : EngOp → EngOp) : (d.onOp o f).outSeq = d.outSeq := rfl
@[simp] theorem Dev.onOp_inTx (d : Dev) (o : Nat) (f : EngOp → EngOp) : (d.onOp o f).inTx = d.inTx := rfl
@[simp] theorem Dev.onOp_cxlUp (d : Dev) (o : Nat) (f : EngOp → EngOp) : (d.onOp o f).cxlUp = d.cxlUp := rfl
@[simp] theorem Dev.onOp_host (d : Dev) (o : Nat) (f : EngOp → EngOp) : (d.onOp o f).host = d.host := rfl
@[simp] theorem Dev.onOp_boot (d : Dev) (o : Nat) (f : EngOp → EngOp) : (d.onOp o f).boot = d.boot := rfl
@[simp] theorem Dev.onOp_power (d : Dev) (o : Nat) (f : EngOp → EngOp) : (d.onOp o f).power = d.power := rfl
@[simp] theorem Dev.onOp_upsets (d : Dev) (o : Nat) (f : EngOp → EngOp) : (d.onOp o f).upsets = d.upsets := rfl
@[simp] theorem Dev.onOp_sysEntry (d : Dev) (o : Nat) (f : EngOp → EngOp) : (d.onOp o f).sysEntry = d.sysEntry := rfl
@[simp] theorem Dev.onOp_rootRcb (d : Dev) (o : Nat) (f : EngOp → EngOp) : (d.onOp o f).rootRcb = d.rootRcb := rfl
@[simp] theorem Dev.onOp_cycle (d : Dev) (o : Nat) (f : EngOp → EngOp) : (d.onOp o f).cycle = d.cycle := rfl
@[simp] theorem Dev.onOp_seq (d : Dev) (o : Nat) (f : EngOp → EngOp) : (d.onOp o f).seq = d.seq := rfl
@[simp] theorem Dev.onOp_fresh (d : Dev) (o : Nat) (f : EngOp → EngOp) : (d.onOp o f).fresh = d.fresh := rfl
@[simp] theorem Dev.onOp_agenda (d : Dev) (o : Nat) (f : EngOp → EngOp) : (d.onOp o f).agenda = d.agenda := rfl
@[simp] theorem Dev.onOp_ops (d : Dev) (o : Nat) (f : EngOp → EngOp) : (d.onOp o f).ops = updWhere (fun x => x.id == o) f d.ops := rfl

/-! ### Dev.bump -/

@[simp] theorem Dev.bump_focus (d : Dev) : (d.bump).focus = d.focus := rfl
@[simp] theorem Dev.bump_strands (d : Dev) : (d.bump).strands = d.strands := rfl
@[simp] theorem Dev.bump_mem (d : Dev) : (d.bump).mem = d.mem := rfl
@[simp] theorem Dev.bump_eccOne (d : Dev) : (d.bump).eccOne = d.eccOne := rfl
@[simp] theorem Dev.bump_eccBad (d : Dev) : (d.bump).eccBad = d.eccBad := rfl
@[simp] theorem Dev.bump_cores (d : Dev) : (d.bump).cores = d.cores := rfl
@[simp] theorem Dev.bump_clasps (d : Dev) : (d.bump).clasps = d.clasps := rfl
@[simp] theorem Dev.bump_ops (d : Dev) : (d.bump).ops = d.ops := rfl
@[simp] theorem Dev.bump_peers (d : Dev) : (d.bump).peers = d.peers := rfl
@[simp] theorem Dev.bump_regions (d : Dev) : (d.bump).regions = d.regions := rfl
@[simp] theorem Dev.bump_jobs (d : Dev) : (d.bump).jobs = d.jobs := rfl
@[simp] theorem Dev.bump_decs (d : Dev) : (d.bump).decs = d.decs := rfl
@[simp] theorem Dev.bump_links (d : Dev) : (d.bump).links = d.links := rfl
@[simp] theorem Dev.bump_intake (d : Dev) : (d.bump).intake = d.intake := rfl
@[simp] theorem Dev.bump_stall (d : Dev) : (d.bump).stall = d.stall := rfl
@[simp] theorem Dev.bump_saved (d : Dev) : (d.bump).saved = d.saved := rfl
@[simp] theorem Dev.bump_descs (d : Dev) : (d.bump).descs = d.descs := rfl
@[simp] theorem Dev.bump_sigs (d : Dev) : (d.bump).sigs = d.sigs := rfl
@[simp] theorem Dev.bump_swapq (d : Dev) : (d.bump).swapq = d.swapq := rfl
@[simp] theorem Dev.bump_fetches (d : Dev) : (d.bump).fetches = d.fetches := rfl
@[simp] theorem Dev.bump_evicts (d : Dev) : (d.bump).evicts = d.evicts := rfl
@[simp] theorem Dev.bump_swapFail (d : Dev) : (d.bump).swapFail = d.swapFail := rfl
@[simp] theorem Dev.bump_eweoth (d : Dev) : (d.bump).eweoth = d.eweoth := rfl
@[simp] theorem Dev.bump_outTx (d : Dev) : (d.bump).outTx = d.outTx := rfl
@[simp] theorem Dev.bump_heldTx (d : Dev) : (d.bump).heldTx = d.heldTx := rfl
@[simp] theorem Dev.bump_outSeq (d : Dev) : (d.bump).outSeq = d.outSeq := rfl
@[simp] theorem Dev.bump_inTx (d : Dev) : (d.bump).inTx = d.inTx := rfl
@[simp] theorem Dev.bump_cxlUp (d : Dev) : (d.bump).cxlUp = d.cxlUp := rfl
@[simp] theorem Dev.bump_host (d : Dev) : (d.bump).host = d.host := rfl
@[simp] theorem Dev.bump_boot (d : Dev) : (d.bump).boot = d.boot := rfl
@[simp] theorem Dev.bump_power (d : Dev) : (d.bump).power = d.power := rfl
@[simp] theorem Dev.bump_upsets (d : Dev) : (d.bump).upsets = d.upsets := rfl
@[simp] theorem Dev.bump_sysEntry (d : Dev) : (d.bump).sysEntry = d.sysEntry := rfl
@[simp] theorem Dev.bump_rootRcb (d : Dev) : (d.bump).rootRcb = d.rootRcb := rfl
@[simp] theorem Dev.bump_cycle (d : Dev) : (d.bump).cycle = d.cycle := rfl
@[simp] theorem Dev.bump_fresh (d : Dev) : (d.bump).fresh = d.fresh := rfl
@[simp] theorem Dev.bump_agenda (d : Dev) : (d.bump).agenda = d.agenda := rfl
@[simp] theorem Dev.bump_seq (d : Dev) : (d.bump).seq = d.seq + 1 := rfl

/-! ### Dev.drew -/

@[simp] theorem Dev.drew_focus (d : Dev) : (d.drew).focus = d.focus := rfl
@[simp] theorem Dev.drew_strands (d : Dev) : (d.drew).strands = d.strands := rfl
@[simp] theorem Dev.drew_mem (d : Dev) : (d.drew).mem = d.mem := rfl
@[simp] theorem Dev.drew_eccOne (d : Dev) : (d.drew).eccOne = d.eccOne := rfl
@[simp] theorem Dev.drew_eccBad (d : Dev) : (d.drew).eccBad = d.eccBad := rfl
@[simp] theorem Dev.drew_cores (d : Dev) : (d.drew).cores = d.cores := rfl
@[simp] theorem Dev.drew_clasps (d : Dev) : (d.drew).clasps = d.clasps := rfl
@[simp] theorem Dev.drew_ops (d : Dev) : (d.drew).ops = d.ops := rfl
@[simp] theorem Dev.drew_peers (d : Dev) : (d.drew).peers = d.peers := rfl
@[simp] theorem Dev.drew_regions (d : Dev) : (d.drew).regions = d.regions := rfl
@[simp] theorem Dev.drew_jobs (d : Dev) : (d.drew).jobs = d.jobs := rfl
@[simp] theorem Dev.drew_decs (d : Dev) : (d.drew).decs = d.decs := rfl
@[simp] theorem Dev.drew_links (d : Dev) : (d.drew).links = d.links := rfl
@[simp] theorem Dev.drew_intake (d : Dev) : (d.drew).intake = d.intake := rfl
@[simp] theorem Dev.drew_stall (d : Dev) : (d.drew).stall = d.stall := rfl
@[simp] theorem Dev.drew_saved (d : Dev) : (d.drew).saved = d.saved := rfl
@[simp] theorem Dev.drew_descs (d : Dev) : (d.drew).descs = d.descs := rfl
@[simp] theorem Dev.drew_sigs (d : Dev) : (d.drew).sigs = d.sigs := rfl
@[simp] theorem Dev.drew_swapq (d : Dev) : (d.drew).swapq = d.swapq := rfl
@[simp] theorem Dev.drew_fetches (d : Dev) : (d.drew).fetches = d.fetches := rfl
@[simp] theorem Dev.drew_evicts (d : Dev) : (d.drew).evicts = d.evicts := rfl
@[simp] theorem Dev.drew_swapFail (d : Dev) : (d.drew).swapFail = d.swapFail := rfl
@[simp] theorem Dev.drew_eweoth (d : Dev) : (d.drew).eweoth = d.eweoth := rfl
@[simp] theorem Dev.drew_outTx (d : Dev) : (d.drew).outTx = d.outTx := rfl
@[simp] theorem Dev.drew_heldTx (d : Dev) : (d.drew).heldTx = d.heldTx := rfl
@[simp] theorem Dev.drew_outSeq (d : Dev) : (d.drew).outSeq = d.outSeq := rfl
@[simp] theorem Dev.drew_inTx (d : Dev) : (d.drew).inTx = d.inTx := rfl
@[simp] theorem Dev.drew_cxlUp (d : Dev) : (d.drew).cxlUp = d.cxlUp := rfl
@[simp] theorem Dev.drew_host (d : Dev) : (d.drew).host = d.host := rfl
@[simp] theorem Dev.drew_boot (d : Dev) : (d.drew).boot = d.boot := rfl
@[simp] theorem Dev.drew_power (d : Dev) : (d.drew).power = d.power := rfl
@[simp] theorem Dev.drew_upsets (d : Dev) : (d.drew).upsets = d.upsets := rfl
@[simp] theorem Dev.drew_sysEntry (d : Dev) : (d.drew).sysEntry = d.sysEntry := rfl
@[simp] theorem Dev.drew_rootRcb (d : Dev) : (d.drew).rootRcb = d.rootRcb := rfl
@[simp] theorem Dev.drew_cycle (d : Dev) : (d.drew).cycle = d.cycle := rfl
@[simp] theorem Dev.drew_seq (d : Dev) : (d.drew).seq = d.seq := rfl
@[simp] theorem Dev.drew_agenda (d : Dev) : (d.drew).agenda = d.agenda := rfl
@[simp] theorem Dev.drew_fresh (d : Dev) : (d.drew).fresh = d.fresh + 1 := rfl

/-! ### Dev.plan -/

@[simp] theorem Dev.plan_focus (d : Dev) (n : Nat) (e : Instr) : (d.plan n e).focus = d.focus := rfl
@[simp] theorem Dev.plan_strands (d : Dev) (n : Nat) (e : Instr) : (d.plan n e).strands = d.strands := rfl
@[simp] theorem Dev.plan_mem (d : Dev) (n : Nat) (e : Instr) : (d.plan n e).mem = d.mem := rfl
@[simp] theorem Dev.plan_eccOne (d : Dev) (n : Nat) (e : Instr) : (d.plan n e).eccOne = d.eccOne := rfl
@[simp] theorem Dev.plan_eccBad (d : Dev) (n : Nat) (e : Instr) : (d.plan n e).eccBad = d.eccBad := rfl
@[simp] theorem Dev.plan_cores (d : Dev) (n : Nat) (e : Instr) : (d.plan n e).cores = d.cores := rfl
@[simp] theorem Dev.plan_clasps (d : Dev) (n : Nat) (e : Instr) : (d.plan n e).clasps = d.clasps := rfl
@[simp] theorem Dev.plan_ops (d : Dev) (n : Nat) (e : Instr) : (d.plan n e).ops = d.ops := rfl
@[simp] theorem Dev.plan_peers (d : Dev) (n : Nat) (e : Instr) : (d.plan n e).peers = d.peers := rfl
@[simp] theorem Dev.plan_regions (d : Dev) (n : Nat) (e : Instr) : (d.plan n e).regions = d.regions := rfl
@[simp] theorem Dev.plan_jobs (d : Dev) (n : Nat) (e : Instr) : (d.plan n e).jobs = d.jobs := rfl
@[simp] theorem Dev.plan_decs (d : Dev) (n : Nat) (e : Instr) : (d.plan n e).decs = d.decs := rfl
@[simp] theorem Dev.plan_links (d : Dev) (n : Nat) (e : Instr) : (d.plan n e).links = d.links := rfl
@[simp] theorem Dev.plan_intake (d : Dev) (n : Nat) (e : Instr) : (d.plan n e).intake = d.intake := rfl
@[simp] theorem Dev.plan_stall (d : Dev) (n : Nat) (e : Instr) : (d.plan n e).stall = d.stall := rfl
@[simp] theorem Dev.plan_saved (d : Dev) (n : Nat) (e : Instr) : (d.plan n e).saved = d.saved := rfl
@[simp] theorem Dev.plan_descs (d : Dev) (n : Nat) (e : Instr) : (d.plan n e).descs = d.descs := rfl
@[simp] theorem Dev.plan_sigs (d : Dev) (n : Nat) (e : Instr) : (d.plan n e).sigs = d.sigs := rfl
@[simp] theorem Dev.plan_swapq (d : Dev) (n : Nat) (e : Instr) : (d.plan n e).swapq = d.swapq := rfl
@[simp] theorem Dev.plan_fetches (d : Dev) (n : Nat) (e : Instr) : (d.plan n e).fetches = d.fetches := rfl
@[simp] theorem Dev.plan_evicts (d : Dev) (n : Nat) (e : Instr) : (d.plan n e).evicts = d.evicts := rfl
@[simp] theorem Dev.plan_swapFail (d : Dev) (n : Nat) (e : Instr) : (d.plan n e).swapFail = d.swapFail := rfl
@[simp] theorem Dev.plan_eweoth (d : Dev) (n : Nat) (e : Instr) : (d.plan n e).eweoth = d.eweoth := rfl
@[simp] theorem Dev.plan_outTx (d : Dev) (n : Nat) (e : Instr) : (d.plan n e).outTx = d.outTx := rfl
@[simp] theorem Dev.plan_heldTx (d : Dev) (n : Nat) (e : Instr) : (d.plan n e).heldTx = d.heldTx := rfl
@[simp] theorem Dev.plan_outSeq (d : Dev) (n : Nat) (e : Instr) : (d.plan n e).outSeq = d.outSeq := rfl
@[simp] theorem Dev.plan_inTx (d : Dev) (n : Nat) (e : Instr) : (d.plan n e).inTx = d.inTx := rfl
@[simp] theorem Dev.plan_cxlUp (d : Dev) (n : Nat) (e : Instr) : (d.plan n e).cxlUp = d.cxlUp := rfl
@[simp] theorem Dev.plan_host (d : Dev) (n : Nat) (e : Instr) : (d.plan n e).host = d.host := rfl
@[simp] theorem Dev.plan_boot (d : Dev) (n : Nat) (e : Instr) : (d.plan n e).boot = d.boot := rfl
@[simp] theorem Dev.plan_power (d : Dev) (n : Nat) (e : Instr) : (d.plan n e).power = d.power := rfl
@[simp] theorem Dev.plan_upsets (d : Dev) (n : Nat) (e : Instr) : (d.plan n e).upsets = d.upsets := rfl
@[simp] theorem Dev.plan_sysEntry (d : Dev) (n : Nat) (e : Instr) : (d.plan n e).sysEntry = d.sysEntry := rfl
@[simp] theorem Dev.plan_rootRcb (d : Dev) (n : Nat) (e : Instr) : (d.plan n e).rootRcb = d.rootRcb := rfl
@[simp] theorem Dev.plan_cycle (d : Dev) (n : Nat) (e : Instr) : (d.plan n e).cycle = d.cycle := rfl
@[simp] theorem Dev.plan_seq (d : Dev) (n : Nat) (e : Instr) : (d.plan n e).seq = d.seq := rfl
@[simp] theorem Dev.plan_fresh (d : Dev) (n : Nat) (e : Instr) : (d.plan n e).fresh = d.fresh := rfl
@[simp] theorem Dev.plan_agenda (d : Dev) (n : Nat) (e : Instr) : (d.plan n e).agenda = d.agenda ++ [(n, e)] := rfl

/-! ### Dev.store -/

@[simp] theorem Dev.store_focus (d : Dev) (k : Nat) (bs : List Byte) : (d.store k bs).focus = d.focus := rfl
@[simp] theorem Dev.store_strands (d : Dev) (k : Nat) (bs : List Byte) : (d.store k bs).strands = d.strands := rfl
@[simp] theorem Dev.store_cores (d : Dev) (k : Nat) (bs : List Byte) : (d.store k bs).cores = d.cores := rfl
@[simp] theorem Dev.store_clasps (d : Dev) (k : Nat) (bs : List Byte) : (d.store k bs).clasps = d.clasps := rfl
@[simp] theorem Dev.store_ops (d : Dev) (k : Nat) (bs : List Byte) : (d.store k bs).ops = d.ops := rfl
@[simp] theorem Dev.store_peers (d : Dev) (k : Nat) (bs : List Byte) : (d.store k bs).peers = d.peers := rfl
@[simp] theorem Dev.store_regions (d : Dev) (k : Nat) (bs : List Byte) : (d.store k bs).regions = d.regions := rfl
@[simp] theorem Dev.store_jobs (d : Dev) (k : Nat) (bs : List Byte) : (d.store k bs).jobs = d.jobs := rfl
@[simp] theorem Dev.store_decs (d : Dev) (k : Nat) (bs : List Byte) : (d.store k bs).decs = d.decs := rfl
@[simp] theorem Dev.store_links (d : Dev) (k : Nat) (bs : List Byte) : (d.store k bs).links = d.links := rfl
@[simp] theorem Dev.store_intake (d : Dev) (k : Nat) (bs : List Byte) : (d.store k bs).intake = d.intake := rfl
@[simp] theorem Dev.store_stall (d : Dev) (k : Nat) (bs : List Byte) : (d.store k bs).stall = d.stall := rfl
@[simp] theorem Dev.store_saved (d : Dev) (k : Nat) (bs : List Byte) : (d.store k bs).saved = d.saved := rfl
@[simp] theorem Dev.store_descs (d : Dev) (k : Nat) (bs : List Byte) : (d.store k bs).descs = d.descs := rfl
@[simp] theorem Dev.store_sigs (d : Dev) (k : Nat) (bs : List Byte) : (d.store k bs).sigs = d.sigs := rfl
@[simp] theorem Dev.store_swapq (d : Dev) (k : Nat) (bs : List Byte) : (d.store k bs).swapq = d.swapq := rfl
@[simp] theorem Dev.store_fetches (d : Dev) (k : Nat) (bs : List Byte) : (d.store k bs).fetches = d.fetches := rfl
@[simp] theorem Dev.store_evicts (d : Dev) (k : Nat) (bs : List Byte) : (d.store k bs).evicts = d.evicts := rfl
@[simp] theorem Dev.store_swapFail (d : Dev) (k : Nat) (bs : List Byte) : (d.store k bs).swapFail = d.swapFail := rfl
@[simp] theorem Dev.store_eweoth (d : Dev) (k : Nat) (bs : List Byte) : (d.store k bs).eweoth = d.eweoth := rfl
@[simp] theorem Dev.store_outTx (d : Dev) (k : Nat) (bs : List Byte) : (d.store k bs).outTx = d.outTx := rfl
@[simp] theorem Dev.store_heldTx (d : Dev) (k : Nat) (bs : List Byte) : (d.store k bs).heldTx = d.heldTx := rfl
@[simp] theorem Dev.store_outSeq (d : Dev) (k : Nat) (bs : List Byte) : (d.store k bs).outSeq = d.outSeq := rfl
@[simp] theorem Dev.store_inTx (d : Dev) (k : Nat) (bs : List Byte) : (d.store k bs).inTx = d.inTx := rfl
@[simp] theorem Dev.store_cxlUp (d : Dev) (k : Nat) (bs : List Byte) : (d.store k bs).cxlUp = d.cxlUp := rfl
@[simp] theorem Dev.store_host (d : Dev) (k : Nat) (bs : List Byte) : (d.store k bs).host = d.host := rfl
@[simp] theorem Dev.store_boot (d : Dev) (k : Nat) (bs : List Byte) : (d.store k bs).boot = d.boot := rfl
@[simp] theorem Dev.store_power (d : Dev) (k : Nat) (bs : List Byte) : (d.store k bs).power = d.power := rfl
@[simp] theorem Dev.store_upsets (d : Dev) (k : Nat) (bs : List Byte) : (d.store k bs).upsets = d.upsets := rfl
@[simp] theorem Dev.store_sysEntry (d : Dev) (k : Nat) (bs : List Byte) : (d.store k bs).sysEntry = d.sysEntry := rfl
@[simp] theorem Dev.store_rootRcb (d : Dev) (k : Nat) (bs : List Byte) : (d.store k bs).rootRcb = d.rootRcb := rfl
@[simp] theorem Dev.store_cycle (d : Dev) (k : Nat) (bs : List Byte) : (d.store k bs).cycle = d.cycle := rfl
@[simp] theorem Dev.store_seq (d : Dev) (k : Nat) (bs : List Byte) : (d.store k bs).seq = d.seq := rfl
@[simp] theorem Dev.store_fresh (d : Dev) (k : Nat) (bs : List Byte) : (d.store k bs).fresh = d.fresh := rfl
@[simp] theorem Dev.store_agenda (d : Dev) (k : Nat) (bs : List Byte) : (d.store k bs).agenda = d.agenda := rfl
@[simp] theorem Dev.store_mem (d : Dev) (k : Nat) (bs : List Byte) : (d.store k bs).mem = Mem.write d.mem k bs := rfl

/-! ### State.onDev -/

@[simp] theorem State.onDev_start (s : State) (f : Dev → Dev) : (s.onDev f).start = s.start := rfl
@[simp] theorem State.onDev_iss (s : State) (f : Dev → Dev) : (s.onDev f).iss = s.iss := rfl
@[simp] theorem State.onDev_now (s : State) (f : Dev → Dev) : (s.onDev f).now = f s.now := rfl

/-! ### State.onFocus -/

@[simp] theorem State.onFocus_start (s : State) (f : Strand → Strand) : (s.onFocus f).start = s.start := rfl
@[simp] theorem State.onFocus_iss (s : State) (f : Strand → Strand) : (s.onFocus f).iss = s.iss := rfl
@[simp] theorem State.onFocus_now (s : State) (f : Strand → Strand) : (s.onFocus f).now = s.now.onFocus f := rfl

/-! ### State.writeLanes -/

@[simp] theorem State.writeLanes_start (s : State) (m : W32) (f : LaneId → Lane → Lane) : (s.writeLanes m f).start = s.start := by simp only [State.writeLanes, State.onFocus_start]
@[simp] theorem State.writeLanes_iss (s : State) (m : W32) (f : LaneId → Lane → Lane) : (s.writeLanes m f).iss = s.iss := by simp only [State.writeLanes, State.onFocus_iss]
@[simp] theorem State.writeLanes_now (s : State) (m : W32) (f : LaneId → Lane → Lane) : (s.writeLanes m f).now = s.now.onFocus fun st => st.onLanes m f := by
  simp only [State.writeLanes, State.onFocus_now]

/-! ### State.writeK -/

@[simp] theorem State.writeK_start (s : State) (r : KReg) (w : W32) : (s.writeK r w).start = s.start := rfl
@[simp] theorem State.writeK_iss (s : State) (r : KReg) (w : W32) : (s.writeK r w).iss = s.iss := rfl
@[simp] theorem State.writeK_now (s : State) (r : KReg) (w : W32) : (s.writeK r w).now = s.now.onFocus fun st => st.wk r w := rfl

/-! ### State.setXfer -/

@[simp] theorem State.setXfer_now (s : State) (x : Xfer) : (s.setXfer x).now = s.now := rfl
@[simp] theorem State.setXfer_start (s : State) (x : Xfer) : (s.setXfer x).start = s.start := rfl

/-! ### State.setWait -/

@[simp] theorem State.setWait_now (s : State) (w : Wait) : (s.setWait w).now = s.now := rfl
@[simp] theorem State.setWait_start (s : State) (w : Wait) : (s.setWait w).start = s.start := rfl

/-! ### State.setBlock -/

@[simp] theorem State.setBlock_now (s : State) (w : Wait) : (s.setBlock w).now = s.now := rfl
@[simp] theorem State.setBlock_start (s : State) (w : Wait) : (s.setBlock w).start = s.start := rfl

end Sys2Proof.Machine
end

