-- ==== Sys2Proof/Laws/Ops.lean ====
section
/-! SUPPORT. What the shared operations do, said once: lane masks, registers after a write, and the shapes of words that
write one register, one pair, one predicate, uniform registers, or a group's transfer. -/

namespace Sys2Proof

/-! ### Masks and vectors -/

theorem hasLane_foldl (f : LaneId → Bool) (ls : List LaneId) (m : W32) (l : LaneId) :
    hasLane (ls.foldl (fun m l => if f l then m ||| BitVec.twoPow 32 l.val else m) m) l =
      (hasLane m l || (ls.contains l && f l)) := by
  induction ls generalizing m with
  | nil => simp
  | cons x xs ih =>
    rw [List.foldl_cons, ih]
    by_cases hx : x = l
    · subst hx
      by_cases hf : f x = true
      · simp [hf, hasLane]
      · simp [hf]
    · have hv : x.val ≠ l.val := fun h => hx (Fin.ext h)
      have hc : (x :: xs).contains l = xs.contains l := by simp [Ne.symm hx]
      rw [hc]
      by_cases hf : f x = true
      · rw [if_pos hf, hasLane, hasLane, BitVec.getLsbD_or, BitVec.getLsbD_twoPow, decide_eq_false hv, Bool.and_false, Bool.or_false]
      · rw [if_neg hf]

/-- A mask made of a test holds the lanes that pass it. -/
@[simp] theorem hasLane_maskOf (f : LaneId → Bool) (l : LaneId) : hasLane (maskOf f) l = f l := by
  unfold maskOf
  rw [hasLane_foldl]
  simp [hasLane]

/-- Masks with the same lanes are equal. -/
theorem mask_ext {a b : W32} (h : ∀ l, hasLane a l = hasLane b l) : a = b :=
  BitVec.eq_of_getLsbD_eq fun i hi => h ⟨i, hi⟩

/-- A mask is empty when it holds no lane. -/
theorem mask_eq_zero {m : W32} : m = 0 ↔ ∀ l, hasLane m l = false := by
  constructor
  · rintro rfl l; simp [hasLane]
  · intro h; exact mask_ext fun l => by rw [h l]; simp [hasLane]

/-- One entry of a vector after another or the same one changed. -/
theorem getElem_updV {α : Type} {n : Nat} (v : Vector α n) (i j : Fin n) (f : α → α) :
    (updV v i f)[j] = if i = j then f v[i] else v[j] := by
  simp only [updV, Fin.getElem_fin, Vector.getElem_set, Fin.ext_iff]

end Sys2Proof

namespace Sys2Proof.Machine

/-! ### Registers after a write -/

theorem Lane.rg_wg (x : Lane) (r q : GReg) (v : W32) : (x.wg r v).rg q = if r = q then v else x.rg q := by
  simp only [Lane.rg, Lane.wg, Fin.getElem_fin, Vector.getElem_set, Fin.ext_iff]

@[simp] theorem Lane.rg_wg_same (x : Lane) (r : GReg) (v : W32) : (x.wg r v).rg r = v := by rw [Lane.rg_wg, if_pos rfl]

theorem Lane.rm_wm (x : Lane) (r q : MReg) (v : Option Handle) : (x.wm r v).rm q = if r = q then v else x.rm q := by
  simp only [Lane.rm, Lane.wm, Fin.getElem_fin, Vector.getElem_set, Fin.ext_iff]

/-- A predicate after a write: a write to pt is discarded [01 R8]. -/
theorem Lane.rp_wp (x : Lane) (n q : PReg) (v : Bool) : (x.wp n v).rp q = if n = q ∧ n ≠ 7 then v else x.rp q := by
  unfold Lane.wp Lane.rp
  by_cases hn : n.val < 7
  · have h7 : n ≠ 7 := fun h => by subst h; simp at hn
    simp only [hn, dif_pos]
    by_cases hq : q.val < 7
    · simp only [hq, dif_pos, Vector.getElem_set]
      by_cases he : n = q
      · subst he; simp [h7]
      · have hv : n.val ≠ q.val := fun h => he (Fin.ext h)
        simp [he, hv]
    · have he : n ≠ q := fun h => hq (h ▸ hn)
      simp [hq, he]
  · have h7 : n = 7 := Fin.ext (by have := n.isLt; simp; omega)
    simp [h7]

@[simp] theorem Lane.rp_pt (x : Lane) : x.rp 7 = true := by simp [Lane.rp]

@[simp] theorem Lane.rg_wp (x : Lane) (n : PReg) (v : Bool) (r : GReg) : (x.wp n v).rg r = x.rg r := by simp [Lane.rg]
@[simp] theorem Lane.rp_wg (x : Lane) (r : GReg) (v : W32) (n : PReg) : (x.wg r v).rp n = x.rp n := by simp [Lane.rp]
@[simp] theorem Lane.rm_wg (x : Lane) (r : GReg) (v : W32) (n : MReg) : (x.wg r v).rm n = x.rm n := by simp [Lane.rm]
@[simp] theorem Lane.rm_wp (x : Lane) (p : PReg) (v : Bool) (n : MReg) : (x.wp p v).rm n = x.rm n := by simp [Lane.rm]

theorem Strand.rk_wk (st : Strand) (r q : KReg) (v : W32) : (st.wk r v).rk q = if r = q then v else st.rk q := by
  simp only [Strand.rk, Strand.wk, Fin.getElem_fin, Vector.getElem_set, Fin.ext_iff]

/-- A lane after every lane of a mask was changed. -/
@[simp] theorem Strand.lane_onLanes (st : Strand) (m : W32) (f : LaneId → Lane → Lane) (l : LaneId) :
    (st.onLanes m f).lane l = if hasLane m l then f l (st.lane l) else st.lane l := by
  simp only [Strand.onLanes, Strand.lane, Fin.getElem_fin, Vector.getElem_ofFn]

theorem Strand.lane_onLane (st : Strand) (i l : LaneId) (f : Lane → Lane) :
    (st.onLane i f).lane l = if i = l then f (st.lane i) else st.lane l := by
  simp only [Strand.onLane, Strand.lane, getElem_updV]

theorem Strand.frag_setFrag (st : Strand) (i j : Fin 4) (f : Option Frag) :
    (st.setFrag i f).frag j = if i = j then f else st.frag j := by
  simp only [Strand.frag, Strand.setFrag, Fin.getElem_fin, Vector.getElem_set, Fin.ext_iff]

theorem Dev.core_onCore (d : Dev) (c k : Fin 256) (f : Core → Core) : (d.onCore c f).core k = if c = k then f (d.core c) else d.core k := by
  simp only [Dev.core, Dev.onCore, getElem_updV]

/-! ### Which lanes execute -/

/-- A word executes in a lane that is active and whose guard is true [01 R15]. -/
theorem State.runsIn_iff (s : State) (h : Hdr) (l : LaneId) : s.runsIn h l ↔ hasLane s.frag.mask l = true ∧ (s.src l).rp h.g = true := by
  simp only [State.runsIn, State.exec, Strand.guarded, hasLane_maskOf, Bool.and_eq_true, State.src, State.old]

/-- A word acts when it executes in some lane [06 R95]. -/
theorem State.acts_iff (s : State) (h : Hdr) : s.acts h = true ↔ ∃ l, s.runsIn h l := by
  rw [State.acts, bne_iff_ne, Ne, mask_eq_zero]
  simp [State.runsIn]

/-! ### Writes in lanes -/

/-- A lane after a write in the lanes of a mask. -/
@[simp] theorem State.lane_writeLanes (s : State) (m : W32) (f : LaneId → Lane → Lane) (l : LaneId) :
    (s.writeLanes m f).lane l = if hasLane m l then f l (s.lane l) else s.lane l := by
  simp only [State.lane, State.writeLanes_now, Dev.onFocus_focus, Strand.lane_onLanes]

/-- Writes in lanes change lanes only. -/
theorem State.onlyLanes_writeLanes (s : State) (m : W32) (f : LaneId → Lane → Lane) : onlyLanes s (s.writeLanes m f) := by
  simp only [onlyLanes, State.writeLanes, State.onFocus, State.onDev, Dev.onFocus, Strand.onLanes]

@[simp] theorem State.mem_writeLanes (s : State) (m : W32) (f : LaneId → Lane → Lane) : (s.writeLanes m f).now.mem = s.now.mem := by
  simp only [State.writeLanes_now, Dev.onFocus_mem]

/-- A lane that executes a word, and one that does not, after the word's writes. -/
theorem State.lane_write_in (s : State) (h : Hdr) (f : LaneId → Lane → Lane) (l : LaneId) (hl : s.runsIn h l) :
    (s.writeLanes (s.exec h) f).lane l = f l (s.lane l) := by
  rw [State.lane_writeLanes]; exact if_pos hl

theorem State.lane_write_out (s : State) (h : Hdr) (f : LaneId → Lane → Lane) (l : LaneId) (hl : ¬ s.runsIn h l) :
    (s.writeLanes (s.exec h) f).lane l = s.lane l := by
  rw [State.lane_writeLanes]; exact if_neg hl

theorem sameMemory_of_eq {s t : State} (h : t.now.mem = s.now.mem) : sameMemory s t := fun k => by rw [h]

theorem Lane.onlyG_wg (x : Lane) (d : GReg) (v : W32) : x.onlyG (x.wg d v) [d] := by
  refine ⟨rfl, fun r hr => ?_⟩
  rw [Lane.rg_wg, if_neg (fun h => hr (by simp [h]))]

theorem Lane.onlyG_wpair (x : Lane) (d : GReg) (v : W64) : x.onlyG (x.wpair d v) [d, d.plus 1] := by
  refine ⟨rfl, fun r hr => ?_⟩
  simp only [List.mem_cons, List.not_mem_nil, or_false, not_or] at hr
  rw [Lane.wpair, Lane.rg_wg, if_neg (Ne.symm hr.2), Lane.rg_wg, if_neg (Ne.symm hr.1)]

theorem Lane.onlyP_wp (x : Lane) (n : PReg) (v : Bool) : x.onlyP (x.wp n v) [n] := by
  refine ⟨by unfold Lane.wp; split <;> rfl, fun q hq => ?_⟩
  rw [Lane.rp_wp, if_neg (fun h => hq (by simp [h.1]))]

/-- A word that writes one g register in its executing lanes from the group's sources [04 R60]. -/
theorem laneG_next (h : Hdr) (d : GReg) (s : State) (f : Lane → W32) :
    ∃ t, laneG h d s f = .next t ∧ (∀ l, s.runsIn h l → (t.lane l).rg d = f (s.src l)) ∧ writesOnlyG s t h [d] := by
  refine ⟨_, rfl, fun l hl => ?_, ?_, ?_, fun l => ⟨fun hl => ?_, fun hl => ?_⟩⟩
  · rw [State.writeG, State.lane_write_in _ _ _ _ hl, Lane.rg_wg_same]; rfl
  · exact s.onlyLanes_writeLanes _ _
  · exact sameMemory_of_eq (s.mem_writeLanes _ _)
  · rw [State.writeG, State.lane_write_in _ _ _ _ hl]; exact Lane.onlyG_wg _ _ _
  · rw [State.writeG, State.lane_write_out _ _ _ _ hl]

/-- A word that writes a pair in its executing lanes. -/
theorem lanePair_next (h : Hdr) (d : GReg) (s : State) (f : Lane → W64) :
    ∃ t, lanePair h d s f = .next t ∧ (∀ l, s.runsIn h l → t.lane l = (s.lane l).wpair d (f (s.src l))) ∧
      writesOnlyG s t h [d, d.plus 1] := by
  refine ⟨_, rfl, fun l hl => ?_, ?_, ?_, fun l => ⟨fun hl => ?_, fun hl => ?_⟩⟩
  · rw [State.writePair, State.lane_write_in _ _ _ _ hl]; rfl
  · exact s.onlyLanes_writeLanes _ _
  · exact sameMemory_of_eq (s.mem_writeLanes _ _)
  · rw [State.writePair, State.lane_write_in _ _ _ _ hl]; exact Lane.onlyG_wpair _ _ _
  · rw [State.writePair, State.lane_write_out _ _ _ _ hl]

/-- A word that writes a predicate in its executing lanes; a write to pt changes nothing. -/
theorem laneP_next (h : Hdr) (pd : PReg) (s : State) (f : Lane → Bool) :
    ∃ t, laneP h pd s f = .next t ∧ (∀ l, s.runsIn h l → pd ≠ 7 → (t.lane l).rp pd = f (s.src l)) ∧
      (∀ l, pd = 7 → t.lane l = s.lane l) ∧ writesOnlyP s t h pd := by
  refine ⟨_, rfl, fun l hl h7 => ?_, fun l h7 => ?_, ?_, ?_, fun l => ⟨fun hl => ?_, fun hl => ?_⟩⟩
  · rw [State.writeP, State.lane_write_in _ _ _ _ hl, Lane.rp_wp, if_pos ⟨rfl, h7⟩]; rfl
  · subst h7
    rw [State.writeP, State.lane_writeLanes]
    split
    · simp [Lane.wp]
    · rfl
  · exact s.onlyLanes_writeLanes _ _
  · exact sameMemory_of_eq (s.mem_writeLanes _ _)
  · rw [State.writeP, State.lane_write_in _ _ _ _ hl]; exact Lane.onlyP_wp _ _ _
  · rw [State.writeP, State.lane_write_out _ _ _ _ hl]

/-- A uniform word acts on the issuing strand once, when some lane executes it, and does nothing otherwise [04 R61]. -/
theorem uniform_next (h : Hdr) (s : State) (f : Strand → Strand) :
    (s.acts h = true → uniform h s f = .next (s.onFocus f)) ∧ (s.acts h = false → uniform h s f = .next s) := by
  constructor <;> intro ha <;> simp only [uniform, ha] <;> rfl

/-- An F-pipe word with no enabled flag writes its results and its flags [05 R80, 03 R53]; with one it traps [03 R55]. -/
theorem fpWord_cases (h : Hdr) (s : State) (f : Lane → W32 × W32) (w : Lane → W32 → Lane) :
    ((∀ l, s.runsIn h l → (f (s.src l)).2 &&& (s.src l).fpctl &&& 31 = 0) ∧
      fpWord h s f w = .next ((s.writeLanes (s.exec h) fun l x => w x (f (s.old.lane l)).1).raiseFlags (s.exec h) fun l => (f (s.old.lane l)).2)) ∨
    ((∃ l, s.runsIn h l ∧ (f (s.src l)).2 &&& (s.src l).fpctl &&& 31 ≠ 0) ∧
      fpWord h s f w = .next (s.trap (s.fpTrap (s.fpTraps (s.exec h) fun l => (f (s.old.lane l)).2) fun l => (f (s.old.lane l)).2))) := by
  by_cases hz : (s.fpTraps (s.exec h) fun l => (f (s.old.lane l)).2) = 0
  · refine Or.inl ⟨fun l hl => ?_, by simp only [fpWord, hz, ne_eq, not_true_eq_false, if_false]⟩
    have := (mask_eq_zero.mp hz) l
    simp only [State.fpTraps, hasLane_maskOf, Bool.and_eq_false_iff, bne_eq_false_iff_eq] at this
    rcases this with h1 | h1
    · exact absurd hl (by simp [State.runsIn, h1])
    · exact h1
  · refine Or.inr ⟨?_, by simp only [fpWord, ne_eq, hz, not_false_eq_true, if_true]⟩
    by_contra hc
    push Not at hc
    refine hz (mask_eq_zero.mpr fun l => ?_)
    simp only [State.fpTraps, hasLane_maskOf, Bool.and_eq_false_iff, bne_eq_false_iff_eq]
    by_cases hl : s.runsIn h l
    · exact Or.inr (hc l hl)
    · exact Or.inl (by simpa [State.runsIn] using hl)

/-- A trap of a word replaces its effect; without one the word goes on. -/
@[simp] theorem orTrap_none (s k : State) : orTrap none s k = .next k := rfl
@[simp] theorem orTrap_some (t : Trap) (s k : State) : orTrap (some t) s k = .next (s.trap t) := rfl

/-- A privileged word at user level raises 0x03; at system level it goes on [01 R11]. -/
theorem State.needSystem_system (s : State) (k : Out) (h : s.sys = true) : s.needSystem k = k := by
  simp [State.needSystem, h]

/-- Alignment: no trap exactly when every lane's address is a multiple of the size [06 R115]. -/
theorem State.misaligned_none (s : State) (ex : W32) (n : Nat) (ea : LaneId → W64) :
    s.misaligned ex n ea = none ↔ ∀ l, hasLane ex l = true → (ea l).toNat % n = 0 := by
  unfold State.misaligned
  simp only
  split
  · rename_i hz
    refine ⟨fun _ l hl => ?_, fun _ => rfl⟩
    have := (mask_eq_zero.mp hz) l
    simpa [hl] using this
  · rename_i hz
    refine ⟨fun hc => by simp at hc, fun hall => absurd (mask_eq_zero.mpr fun l => ?_) hz⟩
    by_cases hl : hasLane ex l = true
    · simp [hl, hall l hl]
    · simp [hl]

/-- A range set to zero keeps memory canonical. -/
theorem Dev.wf_zeroRange {d : Dev} (lo n : Nat) (h : Mem.wf d.mem = true) : Mem.wf (d.zeroRange lo n).mem = true :=
  Mem.wf_filter _ h

/-- What is cleared of a save area, the bytes of a task that move, the memory that a bring-up overwrites and the root RCB it
writes all keep memory canonical. -/
theorem Dev.wf_clearSave {d : Dev} (tid : Nat) (h : Mem.wf d.mem = true) : Mem.wf (d.clearSave tid).mem = true := Mem.wf_filter _ h

theorem Dev.wf_shift {d : Dev} (tid a n b : Nat) (h : Mem.wf d.mem = true) : Mem.wf (d.shift tid a n b).mem = true := Mem.wf_move a n b h

theorem Dev.wf_wiped {d : Dev} (h : Mem.wf d.mem = true) : Mem.wf d.wiped.mem = true := Mem.wf_filter _ h

theorem Dev.wf_rootMade {d : Dev} (h : Mem.wf d.mem = true) : Mem.wf d.rootMade.mem = true := Mem.wf_puts _ _ h

/-- The memory that reset leaves is canonical. -/
theorem State.reset_memOk : State.reset.memOk := by
  have h : Mem.wf Config.rootRcbCells = true := by decide
  exact ⟨h, h⟩

end Sys2Proof.Machine
end

