-- ==== Sys2Proof/Laws/Step.lean ====
section
/-! SUPPORT. What the end, the pause and the check of a group can do, for proofs about a step. -/

namespace Sys2Proof.Machine

/-- A group that closes leaves no open group, and the device is also what the next group starts from [02 R27, R28]. -/
theorem closeGroup_rest (s : State) : ∃ d, closeGroup s = State.rest d := by
  unfold closeGroup
  split
  · exact ⟨_, rfl⟩
  · dsimp only; split <;> exact ⟨_, rfl⟩

/-- So does a group that stops between two of its words [14 R226]. -/
theorem pauseGroup_rest (s : State) : ∃ d, pauseGroup s = State.rest d := ⟨_, rfl⟩

/-- After a word of an open group the group goes on with its next word, or no group is open. -/
theorem afterWord_cases (w : W32) (s : State) (h : s.iss.active = true) :
    afterWord w s = s.advance w ∨ ∃ d, afterWord w s = State.rest d := by
  unfold afterWord
  rw [h]
  simp only [Bool.not_true, Bool.false_eq_true, if_false]
  split
  · exact Or.inr (closeGroup_rest s)
  · split
    · exact Or.inr (pauseGroup_rest _)
    · exact Or.inl rfl

/-- The check of a group changes nothing, or no group is open afterwards: it has faulted, or it is short of a resource
[02 R28]. -/
theorem checkGroup_cases (s : State) : checkGroup s = s ∨ (checkGroup s).iss.active = false := by
  unfold checkGroup
  split
  · exact Or.inl rfl
  · dsimp only
    split
    · rename_i h; exact Or.inr (by simpa using h)
    · split
      · obtain ⟨d, hd⟩ := closeGroup_rest (dryRun 3 s)
        rw [hd]; exact Or.inr rfl
      · exact Or.inl rfl

/-- A group that cannot stop between its words is checked word by word. -/
theorem checkGroup_plain (s : State) (h : s.mayPause = false) : checkGroup s = s := by
  unfold checkGroup; rw [h]; rfl

end Sys2Proof.Machine
end

