-- ==== Sys2Proof/Tests/Slice0.lean ====
section
/-! SUPPORT. Tests on small states: what WellFormed refuses, one word of every instruction, single steps, and for every
statement with hypotheses a state and operands that meet them. Expected values come from the spec's tables and worked
cases. -/

namespace Sys2Proof.Tests
open Sys2Proof.Machine Sys2Proof.Claims

set_option maxRecDepth 20000

/-! ### Small states -/

/-- The header K=0, S=1, G=5 of the decode tests, and the headers with guard pt and with guard p0. -/
def h : Hdr := { k := false, s := true, g := 5 }
def hd : Hdr := { k := false, s := false, g := 7 }
def h0 : Hdr := { k := false, s := false, g := 0 }

/-- A present lane with these g registers. -/
def lane (gs : List (GReg × W32)) : Lane :=
  { Lane.start with present := true, g := gs.foldl (fun v x => v.set x.1 x.2) Lane.start.g }

/-- A handle of a small matrix. -/
def mat (rows cols : Nat) (w : EW) (els : List W32) : Handle := { rows := rows, cols := cols, w := w, els := els }

/-- A lane with handles. -/
def mlane (gs : List (GReg × W32)) (ms : List (MReg × Handle)) : Lane :=
  { lane gs with m := ms.foldl (fun v x => v.set x.1 (some x.2)) Lane.start.m }

/-- Strand 1, a task strand with two lanes and one fragment at packet 24. -/
def strand (a b : Lane) : Strand :=
  { Strand.reset with id := 1, task := 5, lanes := (Strand.reset.lanes.set 0 a).set 1 b
                      frags := Strand.reset.frags.set 0 (some (Frag.start 3 24)) }

/-- The strand with its fragment changed. -/
def fragd (st : Strand) (f : Frag → Frag) : Strand := st.onFrag 0 f

/-- A translation of the whole of device memory to itself, with every right and AC 1. -/
def flat : Xlat := { region := Config.rootRcb, base := 0, size := 2 ^ 42, leaf := 0x9F, root := 0 }

/-- The device with a strand in focus and that translation in core 0's buffer. -/
def dev (st : Strand) : Dev :=
  { Dev.reset with focus := st, seq := 9, regions := [{ Region.root with faulting := true }]
                   cores := Dev.reset.cores.set 0 { Core.start with tlb := [{ x := flat, count := 0 }] } }

/-- The open group of slot 0 on a device. -/
def grp (d : Dev) : State := { now := d, start := d, iss := { Issue.none with active := true } }

def lanes2 (a b : List (GReg × W32)) : State := grp (dev (strand (lane a) (lane b)))
def sys2 (a b : List (GReg × W32)) : State := grp (dev (fragd (strand (lane a) (lane b)) fun f => { f with prv := true }))

/-- Two lanes with small registers. -/
def s0 : State := lanes2 [(1, 5), (2, 7), (4, 0x1000), (8, 0x1008)] [(1, 0xFFFFFFFF), (2, 3), (4, 0x2000), (8, 0x2008)]

/-! ### WellFormed refuses an ill-formed term for each check -/

theorem test_ill_oddPair : (Instr.iadd64 hd 3 2 4).wellFormed = false := by decide
theorem test_ill_badQuad : (Instr.ld hd 2 4 0 .w128).wellFormed = false := by decide
theorem test_ill_badBase : (Instr.cpy hd 12 0).wellFormed = false := by decide
theorem test_ill_storeSize : (Instr.st hd 2 4 0 .z8).wellFormed = false := by decide
theorem test_ill_csrOddPair : (Instr.csrr hd 3 .clock).wellFormed = false := by decide
theorem test_ill_csrReadOnly : (Instr.csrw hd 2 .laneid).wellFormed = false := by decide
theorem test_ill_sameFormat : (Instr.fcvt hd 1 2 .bf16 .bf16 .rn).wellFormed = false := by decide
theorem test_ill_lastUseDest : (Instr.mtrn hd 3 3 true).wellFormed = false := by decide
theorem test_ill_luDest : (Instr.mlu hd 3 4 4 false).wellFormed = false := by decide
theorem test_ill_overlap : (Instr.hcopy hd 8 8).wellFormed = false := by decide

/-- The words of those terms are refused by the decoder, with the check's name. -/
theorem test_ill_words : decodeWord 0x3970C210 = .error (.illFormed .oddPair) ∧
    decodeWord 0x3C1080A1 = .error (.illFormed .storeSize) ∧ decodeWord 0x38F08106 = .error (.illFormed .csrReadOnly) := by decide

/-! ### One word of every instruction

Each word is the opcode table's code with K=0, S=1, G=5 and the operands in its fields. -/

/-- The decoder reads an instruction from a word. -/
noncomputable def reads (w : W32) (i : Instr) : Bool := match decodeWord w with
  | .ok j => j == i
  | .error _ => false

theorem test_decode_control_1 : ([
    (0x68000000, .nop h),
    (0x80178000, .scp .pa .rel),
    (0xB0312345, .lit true 6 0x12345),
    (0x6845FFFD, .br h .ltu (-3)),
    (0x68547FFD, .bnone h 2 (-3)),
    (0x6854FFFD, .bany h 2 (-3)),
    (0x68557FFD, .ball h 2 (-3)),
    (0x6855FFFD, .bnall h 2 (-3)),
    (0x6865FFFD, .bdiv h 2 (-3)),
    (0x687FFFFD, .call h (-3)),
    (0x68800800, .jmpr h 8),
    (0x68902000, .ret h 8),
    (0x68910000, .exit h),
    (0x68920000, .join h),
    (0x68930000, .earlygo h),
    (0x68940000, .yield h),
    (0x68950000, .tret h),
    (0x689609A5, .bkpt h 0x9A5),
    (0x68A009A5, .trap h 0x9A5),
    (0x68B00000, .eret h),
    (0x68B10000, .halt h),
    (0x68B221D0, .tlbi h 8 .pa .root),
    (0x68B30001, .railsel h true),
    (0x68C20107, .csrr h 8 .clock)] : List (W32 × Instr)).all (fun x => reads x.1 x.2) = true := by decide +kernel

theorem test_decode_control_2 : ([
    (0x68D20005, .csrw h 8 .userscratch),
    (0x68E20005, .csrs h 8 .userscratch),
    (0x68F20005, .csrc h 8 .userscratch)] : List (W32 × Instr)).all (fun x => reads x.1 x.2) = true := by decide +kernel

theorem test_decode_integer_1 : ([
    (0x69020C50, .iadd h 8 12 20),
    (0x69020C51, .isub h 8 12 20),
    (0x69020C52, .imin h 8 12 20),
    (0x69020C53, .imax h 8 12 20),
    (0x69120C50, .iminZ h 8 12 20),
    (0x69120C51, .imaxZ h 8 12 20),
    (0x69120C52, .idiff h 8 12 20),
    (0x69120C03, .iabs h 8 12),
    (0x69220C50, .andw h 8 12 20),
    (0x69220C51, .orw h 8 12 20),
    (0x69220C52, .xorw h 8 12 20),
    (0x69220C53, .andn h 8 12 20),
    (0x69320C50, .ishl h 8 12 20),
    (0x69320C51, .ishr h 8 12 20),
    (0x69320C52, .isar h 8 12 20),
    (0x69320C53, .irot h 8 12 20),
    (0x69420C50, .imul h 8 12 20),
    (0x69420C51, .imulhS h 8 12 20),
    (0x69420C52, .imulhZ h 8 12 20),
    (0x69420C53, .imad h 8 12 20),
    (0x69520C00, .popc h 8 12),
    (0x69520C01, .clz h 8 12),
    (0x69520C02, .brev h 8 12),
    (0x69520C53, .fns h 8 12 20)] : List (W32 × Instr)).all (fun x => reads x.1 x.2) = true := by decide +kernel

theorem test_decode_integer_2 : ([
    (0x69620C00, .popc64 h 8 12),
    (0x69620C01, .clz64 h 8 12),
    (0x69620C02, .brev64 h 8 12),
    (0x69620C53, .fns64 h 8 12 20),
    (0x69720C50, .iadd64 h 8 12 20),
    (0x69720C51, .isub64 h 8 12 20),
    (0x69720C52, .ishl64 h 8 12 20),
    (0x69720C53, .ishr64 h 8 12 20),
    (0x69820C50, .bfxS h 8 12 20),
    (0x69820C51, .bfxZ h 8 12 20),
    (0x69820C52, .bfi h 8 12 20),
    (0x69820C53, .prmt h 8 12 20),
    (0x69920C52, .sel h 8 12 20 2),
    (0x69A20C00, .mov h 8 12),
    (0x69A20C01, .mov64 h 8 12),
    (0x69B20CFD, .iaddi h 8 12 (-3)),
    (0x69C20CFD, .andi h 8 12 (-3)),
    (0x69D20CFD, .ori h 8 12 (-3)),
    (0x69E20CFD, .xori h 8 12 (-3)),
    (0x69F20C13, .ishli h 8 12 19),
    (0x69F20C53, .ishri h 8 12 19),
    (0x69F20C93, .isari h 8 12 19),
    (0x69F20CD3, .iroti h 8 12 19)] : List (W32 × Instr)).all (fun x => reads x.1 x.2) = true := by decide +kernel

theorem test_decode_compare : ([
    (0x6A04418F, .icmp h 2 8 12 .le .z64),
    (0x6A1447AF, .icmpi h 2 8 (-3) .le .z64),
    (0x6A255800, .pand h 2 5 3),
    (0x6A255801, .por h 2 5 3),
    (0x6A255802, .pxor h 2 5 3),
    (0x6A255803, .pandn h 2 5 3),
    (0x6A320C52, .lea h 8 12 20 2),
    (0x6A420018, .movk h 8 24),
    (0x6A520C18, .iaddk h 8 12 24),
    (0x6A620C18, .leak h 8 12 24)] : List (W32 × Instr)).all (fun x => reads x.1 x.2) = true := by decide +kernel

theorem test_decode_uniform : ([
    (0x6A718280, .kmov h 24 40),
    (0x6A718281, .kadd h 24 40),
    (0x6A718282, .ksub h 24 40),
    (0x6A718283, .kmul h 24 40),
    (0x6A718284, .kand h 24 40),
    (0x6A718285, .kor h 24 40),
    (0x6A718286, .kxor h 24 40),
    (0x6A718287, .kshl h 24 40),
    (0x6A718288, .kshr h 24 40),
    (0x6A718289, .ksar h 24 40),
    (0x6A71828A, .kmin h 24 40),
    (0x6A71828B, .kmax h 24 40),
    (0x6A71828C, .kcmp h 24 40),
    (0x6A71828D, .kpopc h 24 40),
    (0x6A71828E, .kclz h 24 40),
    (0x6A71828F, .kfns h 24 40),
    (0x6A8189A5, .kli h 24 0x9A5),
    (0x6A9189A5, .kaddi h 24 0x9A5),
    (0x6AA1828B, .kld h 24 40 11),
    (0x6AB1828B, .kst h 24 40 11),
    (0x6AC18226, .kget h 24 8 19)] : List (W32 × Instr)).all (fun x => reads x.1 x.2) = true := by decide +kernel

theorem test_decode_float_1 : ([
    (0x6B020C50, .fadd h 8 12 20),
    (0x6B020C51, .fsub h 8 12 20),
    (0x6B020C52, .fmul h 8 12 20),
    (0x6B020C53, .ffma h 8 12 20),
    (0x6B120C50, .fmin h 8 12 20),
    (0x6B120C51, .fmax h 8 12 20),
    (0x6B120C02, .fabs h 8 12),
    (0x6B120C03, .fneg h 8 12),
    (0x6B244199, .fcmp h 2 8 12 .unord true),
    (0x6B320C00, .frcp h 8 12),
    (0x6B320C04, .frsq h 8 12),
    (0x6B320C08, .fsqrt h 8 12),
    (0x6B320C0C, .fexp2 h 8 12),
    (0x6B320C10, .flog2 h 8 12),
    (0x6B320C14, .fsin h 8 12),
    (0x6B320C18, .fcos h 8 12),
    (0x6B320C1C, .ftanh h 8 12),
    (0x6B320C20, .frndRn h 8 12),
    (0x6B320C24, .frndRz h 8 12),
    (0x6B320C28, .frndRu h 8 12),
    (0x6B320C2C, .frndRd h 8 12),
    (0x6B320C30, .fclass h 8 12),
    (0x6B420C87, .fcvt h 8 12 .e5m2 .bf16 .rd),
    (0x6B520C50, .pkbf h 8 12 20)] : List (W32 × Instr)).all (fun x => reads x.1 x.2) = true := by decide +kernel

theorem test_decode_float_2 : ([
    (0x6B520C51, .pkh h 8 12 20),
    (0x6B520C52, .pkins h 8 12 20),
    (0x6B520C53, .upk h 8 12 20),
    (0x6B620CFD, .faddi h 8 12 (-3)),
    (0x6B720CFD, .fmuli h 8 12 (-3)),
    (0x6B820C50, .dp4S8 h 8 12 20),
    (0x6B820C51, .dp4Z8 h 8 12 20),
    (0x6B820C52, .dp4E4 h 8 12 20),
    (0x6B820C53, .dp4E5 h 8 12 20),
    (0x6B920C50, .dp8S4 h 8 12 20),
    (0x6B920C51, .dp8F4 h 8 12 20),
    (0x6B920C52, .dp2Bf h 8 12 20),
    (0x6B920C53, .scacc h 8 12 20)] : List (W32 × Instr)).all (fun x => reads x.1 x.2) = true := by decide +kernel

theorem test_decode_memory_1 : ([
    (0x6C020CED, .ld h 8 12 (-3) .w64),
    (0x6C120CED, .st h 8 12 (-3) .w64),
    (0x6C2008EE, .pfetch h 8 (-3)),
    (0x6C307B00, .fenceFull h .pa 0x16),
    (0x6C317B00, .fenceAcq h .pa 0x16),
    (0x6C327B00, .fenceRel h .pa 0x16),
    (0x6C420C50, .atadd32 h 8 12 20),
    (0x6C420C51, .atadd64 h 8 12 20),
    (0x6C420C52, .ataddF32 h 8 12 20),
    (0x6C420C53, .ataddBf16x2 h 8 12 20),
    (0x6C520C50, .atmmMinS h 8 12 20),
    (0x6C520C51, .atmmMaxS h 8 12 20),
    (0x6C520C52, .atmmMinZ h 8 12 20),
    (0x6C520C53, .atmmMaxZ h 8 12 20),
    (0x6C620C50, .atlogAnd h 8 12 20),
    (0x6C620C51, .atlogOr h 8 12 20),
    (0x6C620C52, .atlogXor h 8 12 20),
    (0x6C620C53, .atlogExch h 8 12 20),
    (0x6C720C50, .cas32 h 8 12 20),
    (0x6C720C51, .cas64 h 8 12 20),
    (0x6C802000, .claspAcq h 8),
    (0x6C812000, .claspRel h 8),
    (0x6C822004, .claspTry h 8 2),
    (0x6C8320C0, .claspBind h 8 12)] : List (W32 × Instr)).all (fun x => reads x.1 x.2) = true := by decide +kernel

theorem test_decode_memory_2 : ([
    (0x6C842000, .claspUnbind h 8),
    (0x6C902000, .monitor h 8),
    (0x6C912100, .mwait h 8 2),
    (0x6C920000, .mcancel h)] : List (W32 × Instr)).all (fun x => reads x.1 x.2) = true := by decide +kernel

theorem test_decode_cross_lane : ([
    (0x6D020C50, .shflIdx h 8 12 20),
    (0x6D020C51, .shflXor h 8 12 20),
    (0x6D020C52, .shflUp h 8 12 20),
    (0x6D020C53, .shflDown h 8 12 20),
    (0x6D118210, .redu h 24 8 .imaxZ),
    (0x6D220C11, .scan h 8 12 .imaxZ true),
    (0x6D320C08, .compress h 8 12 2),
    (0x6D320C09, .expand h 8 12 2),
    (0x6D320C02, .matchw h 8 12),
    (0x6D32000B, .ballot h 8 2)] : List (W32 × Instr)).all (fun x => reads x.1 x.2) = true := by decide +kernel

theorem test_decode_tasks : ([
    (0x6D400000, .bar h),
    (0x6D4120C7, .arrv h 8 12 .pa),
    (0x6D4220C7, .awt h 8 12 .pa),
    (0x6D5020C0, .spawn h 8 12),
    (0x6D602000, .tnew h 8),
    (0x6D6120C0, .tnewn h 8 12),
    (0x6D622000, .tcancel h 8),
    (0x6D702000, .depdec h 8),
    (0x6D7120C0, .depadd h 8 12),
    (0x6D7220C0, .depget h 8 12),
    (0x6D802000, .rgnew h 8),
    (0x6D812000, .rgend h 8),
    (0x6D8220C0, .rgpri h 8 12)] : List (W32 × Instr)).all (fun x => reads x.1 x.2) = true := by decide +kernel

theorem test_decode_matrix_1 : ([
    (0x6E01BB80, .macq h 1 11 11 .w16),
    (0x6E01BBA8, .macqTry h 1 11 11 .w16 2),
    (0x6E110000, .mrel h 1),
    (0x6E2120C0, .mldRow h 1 8 12),
    (0x6E2120C1, .mldCol h 1 8 12),
    (0x6E212002, .mldSparse h 1 8),
    (0x6E212003, .mldBcast h 1 8),
    (0x6E3120C8, .mstRow h 1 8 12 true),
    (0x6E3120C9, .mstCol h 1 8 12 true),
    (0x6E31200A, .mstSparse h 1 8 true),
    (0x6E41234A, .mmul h 1 2 3 4 true false 2),
    (0x6E51234A, .mmult h 1 2 3 4 true false 2),
    (0x6E61234A, .mtmul h 1 2 3 4 true false 2),
    (0x6E71230A, .madd h 1 2 3 true false 2),
    (0x6E71231A, .msub h 1 2 3 true false 2),
    (0x6E71232A, .mhad h 1 2 3 true false 2),
    (0x6E71233A, .mmax h 1 2 3 true false 2),
    (0x6E812008, .mtrn h 1 2 true),
    (0x6E81201A, .mneg h 1 2 true 2),
    (0x6E812B2A, .mcvt h 1 2 2 .rd true 2),
    (0x6E812038, .mcopy h 1 2 true),
    (0x6E812048, .mreshape h 1 2 true),
    (0x6E912220, .mscale h 1 2 8 true),
    (0x6E910201, .mfill h 1 8)] : List (W32 × Instr)).all (fun x => reads x.1 x.2) = true := by decide +kernel

theorem test_decode_matrix_2 : ([
    (0x6E901222, .mget h 1 8 true),
    (0x6E910203, .mput h 1 8),
    (0x6E901224, .mshape h 1 8 true),
    (0x6EA12008, .minv h 1 2 true),
    (0x6EA12309, .mlu h 1 2 3 true),
    (0x6EA1200A, .mchol h 1 2 true),
    (0x6EA1231B, .mtrsv h 1 2 3 false true true false),
    (0x6EB12008, .mexp h 1 2 true),
    (0x6EC1220A, .mht h 1 2 2 true .b64),
    (0x6ED12220, .mquant h 1 2 8 true),
    (0x6ED12221, .msacc h 1 2 8 true)] : List (W32 × Instr)).all (fun x => reads x.1 x.2) = true := by decide +kernel

theorem test_decode_casket : ([
    (0x6F0020C0, .calloc h 8 12),
    (0x6F012000, .cfree h 8),
    (0x6F1120C8, .caccAdd h 1 8 12 true),
    (0x6F1120C9, .caccIadd h 1 8 12 true),
    (0x6F1120CA, .caccWrite h 1 8 12 true),
    (0x6F2120C0, .cld h 1 8 12),
    (0x6F2120C1, .cldClr h 1 8 12),
    (0x6F301800, .cdrainMem h 24),
    (0x6F311800, .cdrainAdd h 24)] : List (W32 × Instr)).all (fun x => reads x.1 x.2) = true := by decide +kernel

theorem test_decode_engines : ([
    (0x6F801894, .cpy h 24 37),
    (0x6F811894, .cpy2d h 24 37),
    (0x6F901894, .cpyxGather h 24 37),
    (0x6F911894, .cpyxScatter h 24 37),
    (0x6FA01800, .wtany h 24),
    (0x6FA11800, .wtall h 24),
    (0x6FA21828, .tfirst h 24 40),
    (0x6FA31828, .ttest h 24 40),
    (0x6FB04600, .tlwait h .drain 24),
    (0x6FB14600, .tlread h .drain 24),
    (0x6FC01800, .collAllreduce h 24),
    (0x6FC11800, .collReducescatter h 24),
    (0x6FC21800, .collAllgather h 24),
    (0x6FC31800, .collAlltoall h 24)] : List (W32 × Instr)).all (fun x => reads x.1 x.2) = true := by decide +kernel

theorem test_decode_signets_layers : ([
    (0x6FD020C0, .hnew h 8 12),
    (0x6FD120C0, .hcopy h 8 12),
    (0x6FD20080, .hdrop h 8),
    (0x6FD320C0, .hderef h 8 12),
    (0x6FD420C0, .hfin h 8 12),
    (0x6FD520C0, .hld h 8 12),
    (0x6FD620C0, .hst h 8 12),
    (0x6FE020C0, .lywait h 8 12),
    (0x6FE120C0, .lydone h 8 12),
    (0x6FE220C0, .lyhintPf h 8 12),
    (0x6FE220C4, .lyhintRetry h 8 12)] : List (W32 × Instr)).all (fun x => reads x.1 x.2) = true := by decide +kernel

/-! ### The statements about per-lane, uniform and floating-point words have witnesses -/

theorem test_runs : s0.runsIn hd 0 ∧ s0.runsIn hd 1 ∧ ¬ s0.runsIn hd 2 ∧ ¬ s0.runsIn h0 0 ∧ s0.acts hd = true ∧ s0.acts h0 = false := by
  unfold State.runsIn; decide

theorem witness_LaneBitwise : (∃ f, laneBits (.sel hd 63 0 1 3) = some (hd, 63, f)) ∧ ∃ f, laneBits (.ishli hd 0 63 31) = some (hd, 0, f) :=
  ⟨⟨_, rfl⟩, ⟨_, rfl⟩⟩

theorem witness_LaneArithmetic : (∃ f, laneSum (.imad hd 0 63 1) = some (hd, 0, f)) ∧
    ∃ f, laneCounted (.fns64 hd 63 62 1) = some (hd, 63, f) :=
  ⟨⟨_, rfl⟩, ⟨_, rfl⟩⟩

theorem witness_PairArithmetic : (∃ f, pairSum (.leak hd 62 0 190) = some (hd, 62, f)) ∧ (62 : GReg).val % 2 = 0 := ⟨⟨_, rfl⟩, by decide⟩

theorem witness_LanePredicates : (∃ f, lanePred (.icmpi hd 6 63 (-32) .ge .s) = some (hd, 6, f)) ∧
    ∃ f, lanePred (.pxor hd 7 6 7) = some (hd, 7, f) := ⟨⟨_, rfl⟩, ⟨_, rfl⟩⟩

theorem witness_UniformOperations : (∃ p fr, uniRes (.kaddi hd 191 (-2048)) = some (hd, some 191, p, fr)) ∧
    (∃ p fr, uniRes (.kcmp hd 0 191) = some (hd, none, p, fr)) ∧ s0.acts hd = true ∧ s0.acts h0 = false :=
  ⟨⟨_, _, rfl⟩, ⟨_, _, rfl⟩, by decide, by decide⟩

/-- 5 lies half-way between the E2M1 numbers 4 and 6, the largest. -/
theorem overflows_e2m1 (x : ℚ) : overflows Fmt.e2m1 .rn x ↔ 7 < |x| ∨ |x| = 7 := by
  have h : Fmt.e2m1.val Fmt.e2m1.top = .fin false 3 1 := by decide
  have ht : Fmt.e2m1.top % 2 = 1 := by decide
  have hs : (6 : ℚ) + 2 / 2 = 7 := by norm_num
  constructor
  · intro H
    have H' : 6 + 2 / 2 < |x| ∨ (|x| = 6 + 2 / 2 ∧ Fmt.e2m1.top % 2 = 1) := H 6 2 ⟨3, 1, h, by norm_num, by norm_num⟩
    rw [hs] at H'
    exact H'.imp id And.left
  · rintro H t u ⟨m, e, hv, rfl, rfl⟩
    rw [h] at hv
    injection hv with _ hm he
    subst hm he
    have hs' : ((3 : ℕ) : ℚ) * 2 ^ (1 : ℤ) + 2 ^ (1 : ℤ) / 2 = 7 := by norm_num
    show ((3 : ℕ) : ℚ) * 2 ^ (1 : ℤ) + 2 ^ (1 : ℤ) / 2 < |x| ∨ (|x| = ((3 : ℕ) : ℚ) * 2 ^ (1 : ℤ) + 2 ^ (1 : ℤ) / 2 ∧ _)
    rw [hs']
    exact H.imp id fun h => ⟨h, ht⟩

/-- A tie between two numbers of a format, and a number past its range. -/
theorem witness_RoundingIsCorrect : Fmt.e2m1 ∈ formats ∧ (ratOf (.fin false 5 0) = some 5 ∧ ¬ overflows Fmt.e2m1 .rn 5) ∧
    ratOf (.fin false 7 0) = some 7 ∧ overflows Fmt.e2m1 .rn 7 := by
  refine ⟨by simp [formats], ⟨by norm_num [ratOf], ?_⟩, by norm_num [ratOf], ?_⟩ <;> rw [overflows_e2m1] <;> norm_num [abs_of_pos]

/-- A number, a zero, an infinity and a NaN of FP32; -1, which u32 can not hold, and 2^32, which s32 can not; integers. -/
theorem witness_ConversionValues : cvtFloat .f32 = some Fmt.f32 ∧ cvtFloat .e4m3 = some Fmt.e4m3 ∧ cvtRange .s32 = some (-2 ^ 31, 2 ^ 31 - 1) ∧
    cvtRange .u32 = some (0, 2 ^ 32 - 1) ∧ ratOf (Fmt.f32.val 0xBF800000) = some (-1) ∧ ratOf (Fmt.f32.val 0) = some 0 ∧
    ratOf (Fmt.f32.val 0x4F800000) = some (2 ^ 32) ∧ Fmt.f32.val 0x7F800000 = .inf false ∧ Fmt.f32.val 0x7FC00000 = .nan false ∧
    roundedToWhole .rn (-1) (-1) ∧ cvtInt .s32 0 = 0 ∧ cvtInt .s32 0xFFFFFFFF ≠ 0 ∧ cvtInt .s32 0xFFFFFFFF < 0 := by
  have h1 : Fmt.f32.val 0xBF800000 = .fin true 8388608 (-23) := by decide
  have h2 : Fmt.f32.val 0x4F800000 = .fin false 8388608 9 := by decide
  have h3 : Fmt.f32.val 0 = .fin false 0 (-149) := by decide
  refine ⟨rfl, rfl, rfl, rfl, ?_, ?_, ?_, by decide, by decide, ⟨⟨⟨-1, by norm_num⟩, fun z _ => by norm_num⟩, fun _ ⟨z, _, hz, he⟩ => ?_⟩,
    by decide, by decide, by decide⟩
  · rw [h1]; norm_num [ratOf]
  · rw [h3]; norm_num [ratOf]
  · rw [h2]; norm_num [ratOf]
  · exfalso
    norm_num at he hz
    exact hz (by linarith)

theorem ratF32_one : ratF32 0x3F800000 = some 1 := by
  have h : f32 0x3F800000 = .fin false 8388608 (-23) := by decide
  rw [ratF32, h]; norm_num [ratOf]

/-- Every number but 0 has a unit in the last place. -/
theorem ulpAt_exists (v : ℚ) (hv : v ≠ 0) : ∃ u, ulpAt v u := by
  obtain ⟨j, h1, h2⟩ := exists_mem_Ico_zpow (abs_pos.2 hv) (by norm_num : (1 : ℚ) < 2)
  exact ⟨_, j, h1, h2, rfl⟩

/-- With fpctl zero no word traps; 1 is in the range of every function, a power of 4 and of 2, and an integer. -/
theorem witness_FloatValues : (∃ f w, exactFp (.ffma hd 1 2 3) = some (hd, 1, f) ∧ fpRes (.ffma hd 1 2 3) = some (hd, 1, w)) ∧
    noFpTrap s0 hd (fun x => (ffma (x.rg 2) (x.rg 3) (x.rg 1)).2) ∧ ratF32 0x3F800000 = some 1 ∧ f32 0x7F800001 = .nan true ∧
    f32 0x3F800000 = .fin false 8388608 (-23) ∧ ((2 : ℚ) ^ (2 * (0 : ℤ)) * 1 ≤ 1 ∧ (1 : ℚ) < 2 ^ (2 * (0 : ℤ) + 2) * 1) ∧
    (1 : ℚ) = 2 ^ (2 * (0 : ℤ)) ∧ (1 : ℚ) = ((1 : ℤ) : ℚ) ∧ (0 : ℚ) < 1 ∧ (1 : ℚ) < 10 ∧ ∀ v : ℚ, v ≠ 0 → ∃ u, ulpAt v u := by
  refine ⟨⟨_, _, rfl, rfl⟩, ?_, ratF32_one, by decide, by decide, by norm_num, by norm_num, by norm_num, by norm_num, by norm_num, ulpAt_exists⟩
  unfold noFpTrap State.runsIn; decide

/-- 1 and 0, an infinity, both kinds of NaN; elements that are 1 and an addend of 1, whose largest leading exponent is 0. -/
theorem witness_FloatValues_words : ratF32 0x3F800000 = some 1 ∧ ratF32 0 = some 0 ∧ (0 : ℚ) < 1 ∧ (f32 0x3F800000).isNan = false ∧
    f32 0x7F800000 = .inf false ∧ f32 0x7FC00000 = .nan false ∧ f32 0x7F800001 = .nan true ∧
    (∀ i, i < 2 → elementIn Fmt.bf16 0x3F803F80 i = some 1) ∧ ((∃ t ∈ [(1 : ℚ), 1 * 1, 1 * 1], (2 : ℚ) ^ (0 : ℤ) ≤ |t|) ∧
      ∀ t ∈ [(1 : ℚ), 1 * 1, 1 * 1], |t| < (2 : ℚ) ^ ((0 : ℤ) + 1)) ∧
    ((0x7F7F : W32).toNat % 256 ≠ 255 ∧ (0x7F7F : W32).toNat / 256 % 256 ≠ 255) ∧ (0xFF : W32).toNat % 256 = 255 := by
  have h : f32 0 = .fin false 0 (-149) := by decide
  refine ⟨ratF32_one, by rw [ratF32, h]; norm_num [ratOf], by norm_num, by decide, by decide, by decide, by decide, ?_, ⟨⟨1, by simp, by norm_num⟩, ?_⟩,
    by decide, by decide⟩
  · intro i hi
    have h : Fmt.bf16.val ((0x3F803F80 : W32).toNat / 2 ^ (Fmt.bf16.width * i) % 2 ^ Fmt.bf16.width) = .fin false 128 (-7) := by
      interval_cases i <;> decide
    rw [elementIn, h]; norm_num [ratOf]
  · norm_num

def sInf : State :=
  grp (dev (strand { lane [(2, 0x7F800000), (3, 0xFF800000)] with fpctl := 16 } (lane [])))

theorem witness_FloatWordsComplete : (∃ f, fpRes (.fadd hd 1 2 3) = some (hd, 1, f)) ∧
    noFpTrap s0 hd (fun x => (fadd (x.rg 2) (x.rg 3)).2) ∧
    ¬ noFpTrap sInf hd (fun x => (fadd (x.rg 2) (x.rg 3)).2) := by
  refine ⟨⟨_, rfl⟩, ?_, ?_⟩
  · unfold noFpTrap State.runsIn; decide
  · unfold noFpTrap State.runsIn; decide

theorem witness_FloatCompare : noFpTrap sInf hd (fun x => (fcmp .lt false (x.rg 2) (x.rg 3)).2) := by
  unfold noFpTrap State.runsIn; decide

theorem witness_CrossLaneWords : (∃ f, crossRes (.shflDown hd 63 1 2) = some (hd, 63, f)) ∧
    (∃ f, crossRes (.scan hd 0 1 .fadd true) = some (hd, 0, f)) ∧
    takers s0 hd = [0, 1] ∧ takers s0 h0 = [] := ⟨⟨_, rfl⟩, ⟨_, rfl⟩, by decide, by decide⟩

theorem test_iadd_wraps : ∃ t, exec (.iadd hd 3 1 2) (lanes2 [(1, 0xFFFFFFFF), (2, 2)] []) = .next t ∧
    (t.lane 0).rg 3 = 1 := ⟨_, rfl, by decide⟩

/-! ### Control words, exceptions and CSRs -/

def sCall : State := grp (dev (fragd (strand (lane []) (lane [])) fun f => { f with pc := 40 }))

theorem witness_Branches : (∃ c tgt, branchRule (.br hd .ne (-1)) = some (hd, c, tgt) ∧ s0.acts hd = true ∧ c s0 ∧ tgt s0 = 12) ∧
    (∃ c tgt, branchRule (.br hd .eq 32767) = some (hd, c, tgt) ∧ ¬ (s0.acts hd = true ∧ c s0)) ∧ s0.acts h0 = false := by
  refine ⟨⟨_, _, rfl, by decide, ?_, by decide⟩, ⟨_, _, rfl, ?_⟩, by decide⟩
  · show s0.old.flags.z = false; decide
  · show ¬ (s0.acts hd = true ∧ s0.old.flags.z = true); decide

/-- CALL to a packet address, and one from a place that is none, which a handler's entry can be. -/
theorem witness_Branches_call : (s0.acts hd = true ∧ (packetAt s0 (-1)).toNat % 12 = 0) ∧
    (sCall.acts hd = true ∧ (packetAt sCall 0).toNat % 12 ≠ 0) := by decide

def st1 : Strand := strand (lane [(8, 24)]) (lane [(8, 24)])
def st4 : Strand := (List.finRange 4).foldl (fun st i => st.setFrag i (some (Frag.start (oneLane (Fin.ofNat 32 i.val)) 24))) st1

/-- A split with a free slot and one without; register targets that agree, that differ, and that are no packet address. -/
theorem witness_DivergentTransfers : (st1.frag 0 = some (Frag.start 3 24) ∧ (1 : W32) ≠ 0 ∧ (2 : W32) ≠ 0 ∧ st1.freeSlot = some 1) ∧
    (st4.frag 3 = some (Frag.start 8 24) ∧ st4.freeSlot = none) ∧
    (∀ l, (grp (dev st1)).runsIn hd l → zPair ((grp (dev st1)).src l) 8 % 12 = 0) ∧
    (∀ l k, (grp (dev st1)).runsIn hd l → (grp (dev st1)).runsIn hd k →
        asPair ((grp (dev st1)).src l) 8 = asPair ((grp (dev st1)).src k) 8) ∧
    (grp (dev st1)).acts hd = true ∧ (∃ l, s0.runsIn hd l ∧ zPair (s0.src l) 8 % 12 ≠ 0) := by
  unfold State.runsIn; decide

def rec0 : HandlerRec := { entry := 3, mask := 3, full := 3, pc := 36, pos := 1, acted := 0 }
def sHandler : State := grp (dev (fragd (strand (lane []) (lane [])) fun f => { f with handler := some rec0 }))

theorem witness_FragmentTransfers : (∃ x, plainTransfer (.join hd) = some (hd, x)) ∧ s0.acts hd = true ∧ s0.acts h0 = false ∧
    (sHandler.acts hd = true ∧ sHandler.frag.handler = some rec0 ∧ sHandler.frag.sysrec = none ∧ rec0.pc.toNat % 12 = 0) ∧
    s0.frag.handler = none := ⟨⟨_, rfl⟩, by decide, by decide, by decide, by decide⟩

/-- Two fragments at packet 24; the first waits at JOIN there, or runs. -/
def stJoin (waits : Bool) : Strand :=
  ((strand (lane []) (lane [])).setFrag 0 (some { Frag.start 1 24 with st := if waits then .parked .join 0 else .ready })).setFrag 1 (some (Frag.start 2 24))

theorem witness_FragmentTransfers_join : (stJoin true).deferred = [] ∧ (stJoin true).frag 1 = some (Frag.start 2 24) ∧
    (∃ y, (stJoin true).frag 0 = some y ∧ y.joinWaits = true ∧ y.pc = (Frag.start 2 24).pc) ∧ (Frag.start 2 24).handler = none ∧
    (Frag.start 2 24).sysrec = none ∧ (∀ i : Fin 4, i ≠ 1 → i ≠ 0 → (stJoin true).frag i = none) ∧
    (∀ i : Fin 4, i ≠ 1 → ∀ z ∈ (stJoin false).frag i, z.joinWaits = false) ∧ (Frag.start 2 24).mask ≠ (stJoin false).liveLanes ∧
    (∃ z, (stJoin false).frag 0 = some z ∧ z.joinWaits = false) ∧ st1.frag 0 = some (Frag.start 3 24) ∧
    (Frag.start 3 24).mask = st1.liveLanes ∧ ∀ i : Fin 4, i ≠ 0 → st1.frag i = none :=
  ⟨rfl, rfl, ⟨_, rfl, by decide, rfl⟩, rfl, rfl, by decide, by decide, by decide, ⟨_, rfl, by decide⟩, rfl, by decide, by decide⟩

/-- A fragment of strand 1 that would issue nothing. -/
def cand (f : Frag) : Cand := { st := st1, slot := 0, frag := f, words := .ok [] }

theorem witness_FragmentTransfers_yield : (dev st1).focus.frag 0 = some (Frag.start 3 24) ∧ (Frag.start 3 24).aside = none ∧
    ({ Frag.start 3 24 with skip := 5 } : Frag).skip = ({ dev st1 with cycle := 5 } : Dev).cycle ∧ (5 : Nat) ≠ 0 ∧
    (cand { Frag.start 3 24 with yield := true }).frag.yield = true ∧ (cand (Frag.start 3 24)).frag.yield = false ∧
    (cand { Frag.start 3 24 with yield := true }).frag.passed < 64 ∧ (cand (Frag.start 3 24)).frag.passed < 64 := by decide

/-- The last lanes of an entry, and lanes of one that has others. -/
theorem witness_FragmentTransfers_tret : (∃ f, sHandler.old.frag 0 = some f ∧ f.handler = some rec0 ∧
      (rec0.mask &&& sHandler.old.liveLanes &&& ~~~(rec0.acted ||| f.mask)) = 0 ∧ (rec0.full &&& sHandler.old.liveLanes) ≠ 0) ∧
    (∀ i : Fin 4, i ≠ 0 → sHandler.old.frag i = none) ∧
    ∃ f, (fragd st1 fun f => { f with mask := 1, handler := some rec0 }).frag 0 = some f ∧ f.handler = some rec0 ∧
      (rec0.mask &&& st1.liveLanes &&& ~~~(rec0.acted ||| f.mask)) ≠ 0 :=
  ⟨⟨_, rfl, rfl, by decide, by decide⟩, by decide, ⟨_, rfl, rfl, by decide⟩⟩

def dUser : Dev := { dev (strand (lane []) (lane [])) with regions := [{ Region.root with handler := 48 }], sysEntry := 96 }

theorem witness_HandlerEntries_user : ∃ f, (grp dUser).start.focus.frag (grp dUser).iss.slot = some f ∧ f.prv = false ∧ f.handler = none ∧
    (Trap.user 0x0B 3 7).delivery = .user ∧ (Trap.user 0x0B 3 7).repPc = none ∧
    ((grp dUser).start.regionOf (grp dUser).start.focus).handler ≠ 0 ∧ (Trap.user 0x0B 3 7).lanes &&& f.mask ≠ 0 ∧
    (grp dUser).start.focus.settled ((Trap.user 0x0B 3 7).lanes &&& f.mask) = true := ⟨Frag.start 3 24, by decide⟩

theorem witness_CsrWords_read : csrAllowed s0 0 .clock ∧ csrAllowed s0 63 .fpctl ∧ csrAllowed (sys2 [] []) 62 .hotbase := by
  unfold csrAllowed; decide

theorem witness_CsrWords_write : (∃ f, csrRule (.csrc hd 62 .sysinfo) = some (hd, 62, .sysinfo, f)) ∧ csrAllowed (sys2 [] []) 62 .sysinfo ∧
    Csr.sysinfo.writable = true ∧ (sys2 [] []).fragNow.isSome = true ∧
    ((sys2 [] []).now.region? (sys2 [] []).now.focus.region).isSome = true ∧ (sys2 [] []).acts hd = true ∧
    ofThread .sysinfo = false ∧ ofThread .fpstat = true ∧ csrAllowed s0 63 .fpstat := by
  refine ⟨⟨_, rfl⟩, ?_⟩
  unfold csrAllowed; decide

def sysr : SysRec := { lane := 0, full := 3, pos := 2, pcIn := 24, regs := List.replicate 8 9, preds := List.replicate 7 true, since := 0 }
def stSys : Strand := fragd (strand (lane []) (lane [])) fun f => { f with mask := 1, prv := true, syspc := 24, sysrec := some sysr }

theorem witness_EretRestores : (∃ f, st1.frag 0 = some f ∧ f.sysrec = none) ∧ ∃ f, stSys.frag 0 = some f ∧ f.sysrec = some sysr ∧
    f.nestrec = none :=
  ⟨⟨_, rfl, rfl⟩, ⟨_, rfl, rfl, rfl⟩⟩

theorem witness_HandlerEntries_system : ∃ f, (grp dUser).start.focus.frag (grp dUser).iss.slot = some f ∧ f.prv = false ∧ f.sysrec = none ∧
    (Trap.user 0x10 2 0).delivery = .system ∧ (Trap.user 0x10 2 0).repPc = none ∧
    ((grp dUser).start.regionOf (grp dUser).start.focus).sysEnds = false ∧ (grp dUser).start.sysEntry ≠ 0 ∧
    (Trap.user 0x10 2 0).lanes &&& f.mask ≠ 0 ∧
    (grp dUser).start.focus.settled (oneLane (lowLane ((Trap.user 0x10 2 0).lanes &&& f.mask))) = true := ⟨Frag.start 3 24, by decide⟩

/-- Task 5, running on core 0. -/
def job5 : Job :=
  { id := 5, batch := 5, idx := 0, n := 1, fin := false, recKey := 0x10000, recVa := 0x10000, space := Config.rootRcb
    region := Config.rootRcb, entry := 24, arg := 0, lease := 0, leases := [], succ := [0, 0], overflow := 0, strands := 1
    threads := 2, scratch := 0, prio := 0, st := .running, rel := { cycle := 0, core := 0, lane := 0 }, core := 0, sbase := 0
    caps := [], walkAt := (0, 0), marked := false, decd := false, drained := [], trig := false, over1ms := false, takeBk := false
    cancelled := false, struck := 0 }

/-- The device with task 5 running in its strand. -/
def withJob (d : Dev) : Dev := { d with jobs := [job5] }
def sysAt (pc : W64) : State :=
  grp (withJob (dev (fragd (strand (lane [(8, 24)]) (lane [(8, 24)])) fun f => { f with prv := true, syspc := pc })))

theorem witness_SystemWords : (needsSystem (.halt hd) = true ∧ s0.sys = false) ∧ (Csr.status.system = true ∧
    (∃ f, csrRule (.csrw hd 0 .status) = some (hd, 0, .status, f))) ∧
    (∃ f, csrRule (.csrs hd 1 .tagrdy) = some (hd, 1, .tagrdy, f) ∧ (Csr.tagrdy.wide = true ∧ (1 : GReg).val % 2 = 1)) ∧
    ((sysAt 24).sys = true ∧ (sysAt 24).acts hd = true ∧ (sysAt 24).frag.syspc.toNat % 12 = 0) ∧ (sysAt 25).frag.syspc.toNat % 12 ≠ 0 ∧
    (sysAt 24).acts h0 = false ∧ (sysAt 24).start.focus.frag (sysAt 24).iss.slot = some (sysAt 24).frag ∧ (sysAt 24).old.kind = .task ∧
    (sysAt 24).start.job? (sysAt 24).old.task = some job5 ∧ job5.st = .running :=
  ⟨by decide, ⟨rfl, ⟨_, rfl⟩⟩, ⟨_, rfl, by decide⟩, by decide, by decide, by decide, by decide, by decide, by decide, rfl⟩

/-! ### Memory, atomics, clasps, monitors, fences -/

theorem witness_LoadSetsOut : s0.acts hd = true ∧ reachable s0 hd .read 16 (fun l => s0.eaN 4 0x10 16 (s0.src l)) 16 = true ∧
    plainMemory s0 (runKeys (reachedRuns s0 hd .read (fun l => s0.eaN 4 0x10 16 (s0.src l)) 16)) ∧
    reachedKeys s0 hd .read (fun l => s0.eaN 4 0x10 16 (s0.src l)) 16 = [(0, 0xF00), (1, 0x1F00)] := by
  unfold plainMemory; decide

/-- A result of strand 1 in flight. -/
def fly (f : Flight) : State := { s0 with now := s0.now.onFocus fun st => { st with flights := [f] } }
def ldFlight (fill : Fill) (bufs : List (LaneId × List Byte)) : Flight := { Flight.blank with id := 7, lanes := 3, fill := fill, bufs := bufs }

theorem witness_MemoryResultArrives : ∀ f ∈ [ldFlight (.ld 8 .w128) [(0, List.replicate 16 1), (1, List.replicate 16 0xFF)],
      ldFlight (.ld 62 .w64) [(0, List.replicate 8 1)], ldFlight (.ld 63 .s8) [(1, [0x80])], ldFlight (.old 8 true) [(0,
          List.replicate 8 2)],
      ldFlight (.kld 191) [(0, [1, 2, 3, 4])], ldFlight (.hld 60) [(0, List.replicate 16 3)], ldFlight (.hst 60) [(0, [1])]],
    ∃ st, (fly f).now.strand? 1 = some st ∧ st.flight? 7 = some f ∧ f.kind = .memory ∧ f.waits = 0 ∧ f.writes = [] ∧ f.fp = [] ∧
      (f.bufs.map Prod.fst).Nodup ∧ (st.live.all fun x => match x.2.st with
        | .parked (.entry _) _ => false
        | _ => true) = true := by
  intro f hf
  refine ⟨{ s0.now.focus with flights := [f] }, ?_⟩
  simp only [List.mem_cons, List.not_mem_nil, or_false] at hf
  rcases hf with rfl | rfl | rfl | rfl | rfl | rfl | rfl <;> decide

theorem witness_StoreWritesItsBytes : s0.memOk ∧ reachable s0 hd .write 2 (fun l => s0.eaN 4 0x1F 2 (s0.src l)) 2 = true ∧
    plainMemory s0 (runKeys (reachedRuns s0 hd .write (fun l => s0.eaN 4 0x1F 2 (s0.src l)) 2)) := by
  unfold State.memOk plainMemory; decide

/-- Lane 1's address is odd; lane 0's address has no translation. -/
def sOdd : State := lanes2 [(4, 0x1000)] [(4, 0x1001)]
def sFar : State := lanes2 [(4, 0), (5, 0x400)] [(4, 0x1000)]

theorem witness_AccessFaults : (∃ ea len, laneAccess (.ld hd 8 4 0 .z16) = some (hd, .read, 2, ea, len) ∧ ∃ l, sOdd.runsIn hd l ∧
    (ea sOdd l).toNat % 2 ≠ 0) ∧
    ∃ ea len, laneAccess (.st hd 8 4 0 .w64) = some (hd, .write, 8, ea, len) ∧ (∀ l, sFar.runsIn hd l → (ea sFar l).toNat % 8 = 0) ∧
      ∃ l e, (failsOf (sFar.accessLanes (sFar.exec hd) .write (ea sFar) len)).head? = some (l, e) ∧ l = 0 ∧ e.code = 0x10 := by
  refine ⟨⟨_, _, rfl, ?_⟩, ⟨_, _, rfl, ?_, ?_⟩⟩
  · unfold State.runsIn; decide
  · unfold State.runsIn; decide
  · exact ⟨0, Fail.mk' 0x10 0 0 (0x400 * 2 ^ 32), by decide⟩

/-- A device word reached through the flat translation. -/
def piece (acc : Access) (k n : Nat) : Piece := { run := { key := k, len := n }, acc := acc, va := k, x := some flat, via := .tlb }

def sUni : State := grp (dev { strand (lane []) (lane []) with k := Strand.reset.k.set 2 0x40 })

theorem witness_UniformLoadStore : s0.acts h0 = false ∧ sUni.acts hd = true ∧ (sUni.eaK 2 15).toNat % 4 = 0 ∧
    sUni.seen.access sUni.old none .read (sUni.eaK 2 15).toNat 4 = .ok [piece .read 0x7C 4] ∧
    sUni.seen.access sUni.old none .write (sUni.eaK 2 15).toNat 4 = .ok [piece .write 0x7C 4] ∧
    plainMemory sUni [(0, keyOf [piece .read 0x7C 4])] ∧ (piece .write 0x7C 4).run.len = 4 := by
  unfold plainMemory
  exact ⟨by decide, by decide, by decide, rfl, rfl, by decide, rfl⟩

theorem witness_AtomicWords : atomicRule (.cas64 hd 2 4 6) = some (hd, 2, 4, 6, .cas64) ∧ s0.acts hd = true ∧ atomicAllowed s0 hd 4 .cas64 ∧
    atomicAllowed s0 hd 8 .addF32 ∧ plainMemory s0 (reachedKeys s0 hd .atomic (fun l => asPair (s0.src l) 4) (if wideAtomic .cas64 then 8 else 4)) := by
  unfold atomicAllowed plainMemory State.runsIn; decide

def clasp (rels : List Release) : Clasp :=
  { name := .soft 0x1000, runs := [{ key := 0x3000, len := 64 }], scope := .dv, order := 2, rels := rels, log := [], views := [] }
/-- One lane at system level, with the clasp at 0x1000 bound, and a quad at g8 that names 64 bytes from 0x5000 at device scope. -/
def sClasp (cs : List Clasp) : State :=
  let st := fragd (strand (lane [(4, 0x1000), (8, 0x5000), (10, 64), (11, 0x50000)]) Lane.start) fun f => { f with mask := 1, prv := true }
  grp { dev st with clasps := cs }
def rel1 : Release := { id := 4, party := 77 }

theorem witness_ClaspWords : claspsBound (sClasp [clasp []]) hd 4 ∧
    (sClasp [clasp []]).now.releasing (claspKeys (sClasp [clasp []]) hd 4) = false ∧
    claspsBound (sClasp [clasp [rel1]]) hd 4 ∧ (sClasp [clasp [rel1]]).now.releasing (claspKeys (sClasp [clasp [rel1]]) hd 4) = true ∧
    (sClasp []).sys = true ∧ bindAllowed (sClasp []) hd 4 8 ∧ (∃ x, bindsOf (sClasp []) hd 4 8 = [x] ∧ x.key = 0x1000) ∧
    ((sClasp []).memOk ∧ peerOf 0x1000 = none) ∧ ∀ r ∈ (sClasp []).now.regions, r.hotbase = 0 := by
  unfold claspsBound bindAllowed State.memOk
  refine ⟨by decide, by decide, by decide, by decide, by decide, by decide,
      ⟨{ lane := 0, key := 0x1000, runs := [{ key := 0x5000, len := 64 }], scope := .dv, pad := false }, rfl, rfl⟩, by decide, by decide⟩

def sWatch (w : Option Watch) (n : W32) : State := grp (dev (strand { lane [(4, 0x1000), (2, n)] with watch := w } (lane [(4, 0x2000)])))

/-- Lane 0's watch went with a pre-emption. -/
def sDropped : State := grp (dev (strand { lane [(4, 0x1000)] with monDrop := true } (lane [(4, 0x2000)])))

theorem witness_MonitorWords : reachable s0 hd .read 1 (fun l => asPair (s0.src l) 4) 1 = true ∧ (sWatch none 0).acts hd = true ∧
    ¬ watchesDropped (sWatch none 0) hd ∧ watchesDropped sDropped hd ∧ ((sWatch none 0).src ((sWatch none 0).low hd)).rg 2 = 0 ∧
    (∃ k, (sWatch (some { line := 0x1000, hit := true }) 9).runsIn hd k ∧
        ∃ w, ((sWatch (some { line := 0x1000, hit := true }) 9).lane k).watch = some w ∧ w.hit = true) ∧
    ((sWatch (some { line := 0x1000, hit := false }) 9).src ((sWatch (some { line := 0x1000, hit := false }) 9).low hd)).rg 2 ≠ 0 ∧
    (sWatch (some { line := 0x1000, hit := false }) 9).now.mwaitNow (sWatch (some { line := 0x1000, hit := false }) 9).now.focus
      ((sWatch (some { line := 0x1000, hit := false }) 9).exec hd) = false := by
  unfold watchesDropped State.runsIn
  exact ⟨by decide, by decide, by decide, by decide, by decide, ⟨0, by decide, _, rfl, rfl⟩, by decide, by decide⟩

def rep0 : Report :=
  { code := 0, reason := 0, flags := 0, lanes := 0, task := 0, object := 0, pc := 0, info := 0, core := 0, quad := 0, strand := 0
    taskidx := 0, detail := 0, rank := 0 }
def op3 (kind : EngKind) : EngOp :=
  { id := 3, ctx := .copy, num := 1, region := Config.rootRcb, core := 0, sid := 1, task := 5, tag := none, kind := kind, arr := none
    lanes := 1, rep := rep0, mem0 := [], got := [], idx := none, holes := [], lost := false, waits := 0, wrote := false, late := [], due := 0
    src := Key.casket 0 0, sent := [], rows := [], halted := false }
def sOps (d : Dev) : State := grp { d with ops := [op3 (.copy [])] }

theorem witness_BarriersAndFences : fenceRule (.fenceRel hd .dv 0x10) = some (hd, 0x10) ∧ (sOps s0.now).acts hd = true ∧
    fenceNames (sOps s0.now) 0x10 3 ∧
    (¬ ∃ n, fenceNames (sOps s0.now) 0x0F n) ∧ s0.acts h0 = false ∧ (∀ l, s0.runsIn hd l → zPair (s0.src l) 4 % 8 = 0) ∧
    failsOf (withClass .dv true (fun l => asPair (s0.src l) 4) (s0.accessLanes (s0.exec hd) .atomic (fun l => asPair (s0.src l) 4) 8)) = [] ∧
    plainMemory s0 (reachedKeys s0 hd .atomic (fun l => asPair (s0.src l) 4) 8) ∧
        reachable s0 hd .read 8 (fun l => asPair (s0.src l) 4) 8 = true ∧
    (∀ x ∈ reachedKeys s0 hd .read (fun l => asPair (s0.src l) 4) 8, ((s0.src x.1).rg 3).toNat ≤ Mem.num s0.now.mem x.2 8) ∧
    ∃ x ∈ reachedKeys s0 hd .read (fun l => asPair (s0.src l) 4) 8, Mem.num s0.now.mem x.2 8 < ((s0.src x.1).rg 2).toNat := by
  refine ⟨rfl, by decide, Or.inl ⟨op3 (.copy []), by decide, rfl, rfl, by decide⟩, ?_, by decide, ?_, by decide, ?_, by decide, by decide,
      by decide⟩
  · rintro ⟨n, ⟨o, ho, -, -, hk⟩ | ⟨-, q, hq, -⟩⟩
    · obtain rfl : o = op3 (.copy []) := by simpa [sOps, grp] using ho
      exact absurd hk (by decide)
    · simp [sOps, grp, s0, lanes2, dev, Dev.reset] at hq
  · unfold State.runsIn; decide
  · unfold plainMemory; decide

/-! ### Matrix words and the casket -/

def m22 (w : EW) (a b c d : W32) : Handle := mat 2 2 w [a, b, c, d]
/-- Two lanes with 2x2 FP32 handles m1-m4, a 1x2 handle m5, g8 = 17 (row 1, column 1), g9 = 17, g10 = 0. -/
def mats : List (MReg × Handle) :=
  [(1, m22 .w32 0x3F800000 0 0 0x3F800000), (2, m22 .w32 0x40000000 0 0 0x40000000), (3, m22 .w32 0 0 0 0), (4, m22 .w32 0 0 0 0), (5,
      mat 1 2 .w32 [0, 0])]
def sMat : State := grp (dev (strand (mlane [(8, 17), (9, 17), (10, 0), (11, 0)] mats) (mlane [(8, 17), (9, 17), (10, 0), (11, 0)] mats)))

theorem sMat_lanes (l : LaneId) (hl : sMat.runsIn hd l) : l = 0 ∨ l = 1 := by
  unfold State.runsIn at hl; revert l; decide

theorem witness_MatrixElementWords :
    (∃ r b, elementRule (.mput hd 1 8) = some (r, b) ∧ (∀ l, sMat.runsIn r.h l → r.ok (sMat.src l)) ∧ sMat.acts r.h = true) ∧
    (∃ r b, elementRule (.mmax hd 1 2 3 true false 0) = some (r, b) ∧ (∀ l, sMat.runsIn r.h l → r.ok (sMat.src l)) ∧ sMat.acts r.h = true) ∧
    (∃ r b, elementRule (.mscale hd 3 1 10 false) = some (r, b) ∧ (∀ l, sMat.runsIn r.h l → r.ok (sMat.src l)) ∧ sMat.acts r.h = true) ∧
    (∃ r b, elementRule (.mreshape hd 3 1 false) = some (r, b) ∧ (∀ l, sMat.runsIn r.h l → r.ok (sMat.src l)) ∧ sMat.acts r.h = true) ∧
    ∃ r b, elementRule (.mfill h0 3 1) = some (r, b) ∧ (∀ l, sMat.runsIn r.h l → r.ok (sMat.src l)) ∧ sMat.acts r.h = false := by
  refine ⟨⟨_, _, rfl, fun l hl => ?_, by decide⟩, ⟨_, _, rfl, fun l hl => ?_, by decide⟩, ⟨_, _, rfl, fun l hl => ?_, by decide⟩,
    ⟨_, _, rfl, fun l hl => ?_, by decide⟩, ⟨_, _, rfl, fun l hl => ?_, by decide⟩⟩
  · rcases sMat_lanes l hl with rfl | rfl <;> (dsimp only; unfold liveAll; decide)
  · rcases sMat_lanes l hl with rfl | rfl <;> (dsimp only [threeHandles]; unfold liveAll sameDims fmOk; decide)
  · rcases sMat_lanes l hl with rfl | rfl <;>
      (dsimp only [twoHandles]; refine ⟨?_, ?_, ?_, ⟨Fmt.f32, ?_⟩⟩ <;> (try unfold liveAll) <;> (try unfold sameDims) <;> decide)
  · rcases sMat_lanes l hl with rfl | rfl <;> (dsimp only [twoHandles]; unfold liveAll; decide)
  · unfold State.runsIn at hl; exact absurd hl (by revert l; decide)

theorem witness_ArrayWords :
    (∃ r, multiplyRule (.mmul hd 3 1 2 4 true true 0) = some r ∧ (∀ l, sMat.runsIn r.h l → r.ok (sMat.src l)) ∧ sMat.acts r.h = true ∧
      ∀ l k, sMat.runsIn r.h l → sMat.runsIn r.h k → r.dims (sMat.src l) = r.dims (sMat.src k) ∧
          widthOf (sMat.src l) r.a = widthOf (sMat.src k) r.a) ∧
    (∃ r depth, cellRule (.mlu hd 3 1 5 false) = some (r, depth) ∧ (∀ l, sMat.runsIn r.h l → r.ok (sMat.src l)) ∧ sMat.acts r.h = true) ∧
    (∃ r depth, cellRule (.mtrsv hd 3 1 2 false true true true) = some (r, depth) ∧ (∀ l, sMat.runsIn r.h l → r.ok (sMat.src l))) ∧
    (∀ l, sMat.runsIn hd l → squareOk 3 1 (sMat.src l)) ∧ sMat.acts h0 = false := by
  refine ⟨⟨_, rfl, fun l hl => ?_, by decide, fun l k hl hk => ?_⟩, ⟨_, _, rfl, fun l hl => ?_, by decide⟩, ⟨_, _, rfl, fun l hl => ?_⟩,
      fun l hl => ?_, by decide⟩
  · rcases sMat_lanes l hl with rfl | rfl <;>
      (unfold MulRule.ok liveAll fmOk
       refine ⟨by decide, by decide, by decide, by decide, by decide, by decide, by decide, by decide, by decide, by decide, by decide, ?_⟩
       rintro m hm lim rfl
       revert m; decide)
  · rcases sMat_lanes l hl with rfl | rfl <;> rcases sMat_lanes k hk with rfl | rfl <;> decide
  · rcases sMat_lanes l hl with rfl | rfl <;> (dsimp only; unfold squareOk liveAll sameDims; decide)
  · rcases sMat_lanes l hl with rfl | rfl <;> (dsimp only; unfold liveAll; decide)
  · rcases sMat_lanes l hl with rfl | rfl <;> (unfold squareOk liveAll sameDims; decide)

/-- A device whose quadrant 0 has these free blocks and this reserve. -/
def sPool (free reserve grant : Nat) : State :=
  grp { dev (fragd (strand (lane []) (lane [])) fun f => { f with grant := grant }) with
    cores := Dev.reset.cores.set 0 { Core.start with quads := Core.start.quads.set 0 { Quad.start with free := free, reserve := reserve } } }

theorem witness_MatrixBlocks : acquireRule (.macq hd 15 15 15 .w32) = some (hd, 15, 15, 15, .w32, none) ∧
    acquireRule (.macqTry hd 0 0 0 .w4 7) = some (hd, 0, 0, 0, .w4, some 7) ∧ asked (sPool 32 0 0) hd 15 15 .w32 = 32 ∧
    (sPool 32 0 0).acts hd = true ∧ (sPool 32 0 0).frag.grant = 0 ∧ (∀ l, (sPool 32 0 0).runsIn hd l →
        ((sPool 32 0 0).src l).rm 15 = none) ∧
    blocksThere (sPool 32 0 0) 32 ∧ (¬ blocksThere (sPool 31 1 0) 32 ∧ reserveThere (sPool 31 1 0) 32) ∧
    (¬ blocksThere (sPool 31 0 0) 32 ∧ ¬ reserveThere (sPool 31 0 0) 32) ∧
    ((sPool 0 0 33).frag.grant = 32 + 1 ∧ (sPool 0 0 33).now.focus.frag (sPool 0 0 33).iss.slot = some (sPool 0 0 33).frag) ∧
    ((∀ l, sMat.runsIn hd l → ((sMat.src l).rm 5).isSome = true) ∧ ∀ f ∈ sMat.now.focus.flights, ∀ l, (l, (5 : MReg)) ∉ f.reads) ∧
    (∃ l, sMat.runsIn hd l ∧ ((sMat.src l).rm 5).isSome = true) ∧ ∃ l, sMat.runsIn hd l ∧ (sMat.src l).rm 15 = none := by
  unfold State.runsIn blocksThere reserveThere
  refine ⟨rfl, rfl, by decide, by decide, by decide, by decide, by decide, by decide, by decide, by decide,
    ⟨by decide, fun f hf => ?_⟩, by decide, by decide⟩
  revert f; decide

/-- Handle m1 is 2x2 of 8 bits, m2 2x4 of 8 bits; g4 names 0x1000 and g6 is a stride of -4. -/
def mats8 : List (MReg × Handle) := [(1, m22 .w8 1 2 3 4), (2, mat 2 4 .w8 [1, 0, 2, 0, 0, 3, 0, 4])]
def sMem : State :=
  grp (dev (fragd (strand (mlane [(4, 0x1000), (6, 0xFFFFFFFC)] mats8) Lane.start) fun f => { f with mask := 1 }))

theorem sMem_lane (l : LaneId) (hl : sMem.runsIn hd l) : l = 0 := by
  unfold State.runsIn at hl; revert l; decide

/-- What the sparse read of a lane answers, and that it does. -/
def okOf : Except Fail SparseRead → SparseRead
  | .ok x => x
  | .error _ => SparseRead.none

theorem is_ok {e : Except Fail SparseRead} (he : e.isOk = true) : e = .ok (okOf e) := by
  cases e with
  | ok x => rfl
  | error x => cases he

def sparseOf (l : LaneId) : SparseRead :=
  okOf (sMem.seen.sparseRead sMem.old (sMem.src l).lastPage sMem.frag.ahead (partyOf sMem.old l) (bitsOf (sMem.src l) 2) 2 0
    (zPair (sMem.src l) 4) ((sMem.src l).hnd 2).els.length)

theorem witness_MatrixMemory :
    (∃ ps, denseRule (.mldRow hd 1 4 6) = some (hd, 1, 4, .row, some 6, false, true) ∧ sMem.acts hd = true ∧
      (∀ l, sMem.runsIn hd l → denseOk (sMem.src l) 1 4 .row (some 6)) ∧
      linesReached sMem hd .read (fun l => linesOf .row (sMem.src l) 1 (asPair (sMem.src l) 4) (strideIn (sMem.src l) (some 6))) ps) ∧
    (∃ ps, denseRule (.mstCol hd 1 4 6 true) = some (hd, 1, 4, .col, some 6, true, false) ∧
      (∀ l, sMem.runsIn hd l → denseOk (sMem.src l) 1 4 .col (some 6)) ∧
      linesReached sMem hd .write (fun l => linesOf .col (sMem.src l) 1 (asPair (sMem.src l) 4) (strideIn (sMem.src l) (some 6))) ps) ∧
    (∃ ps, (∀ l, sMem.runsIn hd l → liveAll (sMem.src l) [2] ∧ zPair (sMem.src l) 4 % 16 = 0) ∧
      linesReached sMem hd .write (fun l => [(zPair (sMem.src l) 4,
          (sparseImage (bitsOf (sMem.src l) 2) 2 ((sMem.src l).hnd 2).els).length)]) ps) ∧
    ((∀ l, sMem.runsIn hd l → sMem.seen.sparseRead sMem.old (sMem.src l).lastPage sMem.frag.ahead (partyOf sMem.old l) (bitsOf (sMem.src l) 2) 2 0
        (zPair (sMem.src l) 4) ((sMem.src l).hnd 2).els.length = .ok (sparseOf l) ∧ (sparseOf l).need = none ∧ (sparseOf l).bad = false) ∧
      ∀ r ∈ sMem.now.regions, r.hotbase = 0) ∧ sMem.memOk := by
  refine ⟨⟨fun _ => [piece .read 0x1000 2, piece .read 0xFFC 2], rfl, by decide, ?_, ⟨?_, by decide, by decide⟩⟩,
    ⟨fun _ => [piece .write 0x1000 2, piece .write 0xFFC 2], rfl, ?_, ⟨?_, by decide, by decide⟩⟩,
    ⟨fun _ => [piece .write 0x1000 32], ?_, ⟨?_, by decide, by decide⟩⟩, ⟨?_, by decide⟩, by unfold State.memOk; decide⟩
  case refine_7 => intro l hl; obtain rfl := sMem_lane l hl; exact ⟨is_ok (by decide), by decide, by decide⟩
  all_goals (intro l hl; obtain rfl := sMem_lane l hl; (try unfold denseOk); (try unfold liveAll); decide)

/-- Two banks of core 0: 0 and 1 belong to task 5, the others are free or, with `full`, all belong to task 6. -/
def sBanks (full closing : Bool) (b a : W32) : State :=
  grp (withJob { dev (fragd (strand (mlane [(2, b), (4, a), (6, 8)] [(1, m22 .w32 1 2 3 4)]) Lane.start) fun f => { f with mask := 1 }) with
    cores := Dev.reset.cores.set 0 { Core.start with
      banks := { first := 0, n := 2, task := 5, closing := closing } ::
        (if full then [{ first := 2, n := 62, task := 6, closing := false }] else []) } })

theorem witness_CasketWords :
    ((sBanks false false 62 0).acts hd = true ∧ (sBanks false false 62 0).frag.bank = [] ∧
      ((sBanks false false 62 0).src ((sBanks false false 62 0).low hd)).rg 2 = 62 ∧
          62 ≤ (sBanks false false 62 0).now.bankBudget (sBanks false false 62 0).old.region ∧
      ((sBanks false false 62 0).now.core (sBanks false false 62 0).old.core).findBanks 62 = some 2) ∧
    ((sBanks true false 1 0).now.core (sBanks true false 1 0).old.core).findBanks 1 = none ∧
    ((sBanks false false 65 0).src ((sBanks false false 65 0).low hd)).rg 2 = 65 ∧
    (∃ run, ((sBanks false false 1 0).now.core (sBanks false false 1 0).old.core).banks.find? (fun r => r.first ==
        (((sBanks false false 1 0).src ((sBanks false false 1 0).low hd)).rg 4).toNat &&
            r.task == (sBanks false false 1 0).old.laneTask ((sBanks false false 1 0).low hd) &&
        !r.closing) = some run ∧ (sBanks false false 1 0).now.banksBusy (sBanks false false 1 0).old.core run = false) ∧
    (∀ r ∈ ((sBanks false true 1 0).now.core (sBanks false true 1 0).old.core).banks,
      ¬ (r.first = (((sBanks false true 1 0).src ((sBanks false true 1 0).low hd)).rg 4).toNat ∧ r.closing = false)) := by
  refine ⟨by decide, by decide, by decide, ⟨{ first := 0, n := 2, task := 5, closing := false }, rfl, by decide⟩, by decide⟩

/-- CACC on elements at both ends of the task's two banks: 2x2 from 0x1FFF4 with a stride of -0x1FFF4. -/
def sCacc : State :=
  grp (withJob { dev (fragd (strand (mlane [(4, 0x1FFF8), (6, 0xFFFE0008)] [(1, m22 .w32 1 2 3 4)]) Lane.start) fun f => { f with mask := 1 }) with
    cores := Dev.reset.cores.set 0 { Core.start with banks := [{ first := 0, n := 2, task := 5, closing := false }] } })

theorem sCacc_lane (l : LaneId) (hl : sCacc.runsIn hd l) : l = 0 := by
  unfold State.runsIn at hl; revert l; decide

theorem witness_CasketWords_cacc : casketRule (.caccIadd hd 1 4 6 true) = some (hd, 1, 4, 6, .addI, true, true) ∧ sCacc.acts hd = true ∧
    (∀ l, sCacc.runsIn hd l → casketOk sCacc l 1 4 6) ∧ sCacc.old.det = false := by
  refine ⟨rfl, by decide, fun l hl => ?_, by decide⟩
  obtain rfl := sCacc_lane l hl
  unfold casketOk liveAll
  refine ⟨by decide, by decide, by decide, by decide, ?_⟩
  have hr : rowsOf (sCacc.src 0) 1 = 2 := by decide
  have hc : colsOf (sCacc.src 0) 1 = 2 := by decide
  rw [hr, hc]
  intro i j hi hj
  have hi' : i = 0 ∨ i = 1 := by omega
  have hj' : j = 0 ∨ j = 1 := by omega
  rcases hi' with rfl | rfl <;> rcases hj' with rfl | rfl <;>
    exact ⟨by decide, by decide, { first := 0, n := 2, task := 5, closing := false }, by decide⟩

def sBusy : State := { sBanks false false 1 0 with now := { (sBanks false false 1 0).now with ops := [op3 (.drainMem 1 1 false [])] } }

theorem witness_CasketWords_busy : sBusy.now.banksBusy sBusy.old.core { first := 0, n := 2, task := 5, closing := false } = true := by decide

/-! ### Engines, tags and tasks -/

/-- Strand 1 with these uniform registers from k8 on. -/
def kstrand (vs : List W32) : Strand :=
  { strand (lane []) (lane []) with k := (vs.zipIdx.foldl (fun v x => v.setIfInBounds (8 + x.2) x.1) Strand.reset.k) }
def sEng (vs : List W32) (tagout : W64) (ops : List EngOp) : State :=
  grp (withJob { dev { kstrand vs with tagout := tagout } with
    cores := Dev.reset.cores.set 0 { Core.start with tlb := [{ x := flat, count := 0 }], banks := [{ first := 1, n := 2, task := 5, closing := false }] }
    ops := ops })

/-- A copy of 16 bytes from 0x1000 to 0x2000 with an arrival of 3 at 0x3000, one of no bytes, and one that meets a full queue. -/
def sCopy (len : W32) (out : W64) (ops : List EngOp) : State := sEng [0x1000, 0, 0x2000, 0, len, 3, 0x3000, 0] out ops

theorem witness_EngineWords_copy : ∃ r, engineRule (.cpy hd 8 63) = some r ∧
    engineChecked r (sCopy 16 0 []) [[piece .read 0x1000 16], [piece .write 0x2000 16]] (some { key := 0x3000, inc := 3 }) ∧ ¬ r.empty (sCopy 16 0 []) ∧
    engineChecked r (sCopy 0 0 []) [[], []] (some { key := 0x3000, inc := 3 }) ∧ r.empty (sCopy 0 0 []) ∧
    (sCopy 16 0 []).now.engineFull (sCopy 16 0 []).old.core = false ∧
        ((sCopy 16 0 []).now.region? (sCopy 16 0 []).old.region).isSome = true ∧
    (sCopy 16 0 []).now.focus.id = (sCopy 16 0 []).old.id ∧ (sCopy 16 0 []).old.id ≠ 0 ∧
        (∀ o ∈ (sCopy 16 0 []).now.ops, o.id ≤ (sCopy 16 0 []).now.seq) ∧
    ((sCopy 16 0x8000000000000000 []).acts r.h = true ∧ r.tag = some 63 ∧ (sCopy 16 0x8000000000000000 []).old.tagout.getLsbD 63 = true) ∧
    engineChecked r (sCopy 16 0 (List.replicate 64 (op3 (.copy [])))) [[piece .read 0x1000 16],
        [piece .write 0x2000 16]] (some { key := 0x3000, inc := 3 }) ∧
    (sCopy 16 0 (List.replicate 64 (op3 (.copy [])))).now.engineFull 0 = true := by
  refine ⟨_, rfl, ⟨by decide, trivial, ?_, rfl, by decide, [piece .atomic 0x3000 8], rfl, rfl⟩, ?_,
    ⟨by decide, trivial, ?_, rfl, by decide, [piece .atomic 0x3000 8], rfl, rfl⟩, Or.inl (by decide), by decide, by decide, by decide, by decide,
        by decide,
    ⟨by decide, rfl, by decide⟩, ⟨by decide, trivial, ?_, rfl, by decide, [piece .atomic 0x3000 8], rfl, rfl⟩, by decide⟩
  · rintro t ⟨⟩; decide
  · rintro (h | h) <;> exact absurd h (by decide)
  · rintro t ⟨⟩; decide
  · rintro t ⟨⟩; decide

theorem two_lt {n : Nat} {p : Nat → Prop} (hn : n = 2) (h0 : p 0) (h1 : p 1) : ∀ i, i < n → p i := by
  intro i hi
  have : i = 0 ∨ i = 1 := by omega
  rcases this with rfl | rfl <;> assumption

/-- CPY2D, CPYX, COLL and CDRAIN with descriptors that pass. -/
theorem witness_EngineWords_others :
    (∃ r ps, engineRule (.cpy2d hd 8 0) = some r ∧ engineChecked r (sEng [0x1000, 0, 0x2000, 0, 4, 2, 0xFFFFFFFC, 8] 0 []) ps none) ∧
    (∃ r ps, engineRule (.cpyxScatter hd 8 0) = some r ∧ engineChecked r (sEng [0x1000, 0, 0x2000, 0, 0x3000, 0, 0x20004,
        9] 0 []) ps none) ∧
    (∃ r ps, engineRule (.collAllreduce hd 8) = some r ∧ engineChecked r (sEng [0x1000, 0, 0x20000000, 0, 2, 0x30001, 0x3000,
        0] 0 []) ps (some { key := 0x3000, inc := 3 })) ∧
    (∃ r ps, engineRule (.cdrainMem hd 8) = some r ∧ engineChecked r (sEng [0x40000, 0, 0x2081, 0] 0 []) ps none) ∧
    (∃ r ps, engineRule (.cdrainAdd hd 8) = some r ∧ engineChecked r (sEng [62, 0, 0x6081, 0] 0 []) ps none) ∧
    ∃ r, engineRule (.cpy h0 8 0) = some r ∧ s0.acts r.h = false := by
  refine ⟨⟨_, [[piece .read 0x1000 4], [piece .read 0xFFC 4], [piece .write 0x2000 4], [piece .write 0x2008 4]], rfl, by decide, ?_, ?_, rfl, rfl⟩, ⟨_, _, rfl,
      by decide, ?_, ?_, rfl, rfl⟩,
    ⟨_, _, rfl, by decide, ?_, ?_, rfl, by decide, [piece .atomic 0x3000 8], rfl, rfl⟩, ⟨_, _, rfl, by decide, ?_, ?_, rfl, rfl⟩,
    ⟨_, _, rfl, by decide, ?_, ?_, rfl, rfl⟩, ⟨_, rfl, by decide⟩⟩
  · show _ < _; decide
  · rintro t ⟨⟩; decide
  · show _ ∧ _; decide
  · rintro t ⟨⟩; decide
  · show _ ∧ _; decide
  · rintro t ⟨⟩
  · exact ⟨by decide, by decide, by decide, ⟨by decide, by decide, two_lt (by decide) ⟨{ first := 1, n := 2, task := 5, closing := false },
      by decide⟩ ⟨{ first := 1, n := 2, task := 5, closing := false }, by decide⟩⟩⟩
  · rintro t ⟨⟩
  · exact ⟨by decide, by decide, by decide, ⟨by decide, by decide, two_lt (by decide) ⟨{ first := 1, n := 2, task := 5, closing := false },
      by decide⟩ ⟨{ first := 1, n := 2, task := 5, closing := false }, by decide⟩⟩, by decide⟩
  · rintro t ⟨⟩

/-- The mask in k8-k9, the ready and the outstanding tags, deterministic mode or not. -/
def sTags (mask rdy out : W64) (det : Bool) : State :=
  grp (dev { kstrand [mask.setWidth 32, (mask >>> 32).setWidth 32] with tagrdy := rdy, tagout := out, det := det })

theorem witness_TagWords : (sTags 3 3 0 false).acts h0 = false ∧ (sTags 3 3 0 false).acts hd = true ∧
    ((∀ i, i < 64 → (kPair (sTags 3 3 0 false) 8 0).getLsbD i = true → knownTag (sTags 3 3 0 false) i) ∧
      ∀ i, i < 64 → (kPair (sTags 3 3 0 false) 8 0).getLsbD i = true → (sTags 3 3 0 false).now.focus.tagrdy.getLsbD i = true) ∧
    ((∀ i, i < 64 → (kPair (sTags 3 1 2 false) 8 0).getLsbD i = true → knownTag (sTags 3 1 2 false) i) ∧
      ∃ i, i < 64 ∧ (kPair (sTags 3 1 2 false) 8 0).getLsbD i = true ∧ (sTags 3 1 2 false).now.focus.tagrdy.getLsbD i = false) ∧
    ((∃ i, i < 64 ∧ (kPair (sTags 0x8000000000000000 0 0x8000000000000000 true) 8 0).getLsbD i = true ∧
        knownTag (sTags 0x8000000000000000 0 0x8000000000000000 true) i) ∧
      lowestTag (fun i => (kPair (sTags 0x8000000000000000 0 0x8000000000000000 true) 8 0).getLsbD i = true ∧
        knownTag (sTags 0x8000000000000000 0 0x8000000000000000 true) i) 63 ∧
      ∀ i, i < 64 → (BitVec.twoPow 64 63).getLsbD i = true →
          (sTags 0x8000000000000000 0 0x8000000000000000 true).now.focus.tagrdy.getLsbD i = false) ∧
    (∃ i, i < 64 ∧ (kPair (sTags 3 1 0 false) 8 0).getLsbD i = true ∧ ¬ knownTag (sTags 3 1 0 false) i) ∧
    (∀ i, i < 64 → (kPair (sTags 4 1 2 false) 8 0).getLsbD i = true → ¬ knownTag (sTags 4 1 2 false) i) ∧
    (∃ r, (sTags 0 0 0 false).now.region? (sTags 0 0 0 false).old.region = some r ∧
        (kPair (sTags 0 0 0 false) 8 0).toNat ≤ (r.tl .copy).done ∧
      (sTags 0 0 0 false).now.focus.id = (sTags 0 0 0 false).old.id ∧ (sTags 0 0 0 false).old.id ≠ 0) ∧
    ∃ r, (sTags 1 0 0 false).start.region? (sTags 1 0 0 false).old.region = some r ∧
        (r.tl .coll).done < (kPair (sTags 1 0 0 false) 8 0).toNat := by
  unfold lowestTag knownTag
  exact ⟨by decide, by decide, by decide, ⟨by decide, 1, by decide⟩, ⟨⟨63, by decide⟩, by decide, by decide⟩, ⟨1, by decide⟩, by decide,
    ⟨{ Region.root with faulting := true }, by decide⟩, ⟨{ Region.root with faulting := true }, by decide⟩⟩

/-- Lane 0 names a record at 0x1000 with this counter and state: entry 24, one strand of two threads. -/
def sRec (cnt state : Byte) (g8 : W32) : State :=
  let st := fragd (strand (lane [(4, 0x1000), (8, g8)]) Lane.start) fun f => { f with mask := 1 }
  grp (withJob { dev st with mem := Mem.write (Mem.write [] 0x1000 [24]) 0x1038 [cnt, 0, 1, 2, 0, 0, 3, state] })

theorem plain_sRec (cnt state : Byte) (g8 : W32) (hm : (sRec cnt state g8).memOk) : plainRecs (sRec cnt state g8) [(0, 0x1000)] := by
  unfold plainRecs plainMemory
  refine ⟨hm, ⟨rfl, by decide, fun r hr => ?_⟩, fun x hx i hi => ⟨fun r hr => ?_, fun r hr => ?_⟩⟩
  all_goals obtain rfl : r = { Region.root with faulting := true } := by simpa [sRec, grp, withJob, dev] using hr
  · rfl
  all_goals
    obtain rfl : x = (0, 0x1000) := by simpa using hx
    have : ({ Region.root with faulting := true } : Region).id = Config.rootRcb := rfl
    rw [this]; revert hi; unfold Config.rootRcb; omega

theorem witness_TaskRecordWords_new : (∃ n, takeUpRule (.tnewn hd 4 8) = some (hd, 4, n) ∧ takers (sRec 1 4 3) hd = [0] ∧
    recsAllowed (sRec 1 4 3) hd 4 ∧
      recsOf (sRec 1 4 3) hd 4 = [(0, 0x1000)] ∧ plainRecs (sRec 1 4 3) [(0, 0x1000)] ∧
      ¬ (1 ≤ Mem.num (sRec 1 4 3).now.mem (0x1000 + 63) 1 ∧ Mem.num (sRec 1 4 3).now.mem (0x1000 + 63) 1 ≤ 3) ∧
      recFormed (sRec 1 4 3).now.mem 0x1000 (n (sRec 1 4 3) 0) ∧ ∃ r ls, recRegion (sRec 1 4 3) 0x1000 r ∧ r.live = true ∧
      (sRec 1 4 3).now.readLeases (sRec 1 4 3).old.region (Mem.num (sRec 1 4 3).now.mem (0x1000 + 24) 8) = some ls) ∧
    (∃ n, takeUpRule (.tnew hd 4) = some (hd, 4, n) ∧ recsAllowed (sRec 1 2 0) hd 4 ∧ plainMemory (sRec 1 2 0) (recsOf (sRec 1 2 0) hd 4) ∧
      ∀ x ∈ recsOf (sRec 1 2 0) hd 4, 1 ≤ Mem.num (sRec 1 2 0).now.mem (x.2 + 63) 1 ∧ Mem.num (sRec 1 2 0).now.mem (x.2 + 63) 1 ≤ 3) := by
  refine ⟨⟨_, rfl, by decide, ?_, by rfl, ?_, by decide, ?_, { Region.root with faulting := true }, [], ?_, by decide, by rfl⟩, ⟨_, rfl,
      ?_, ?_, by decide⟩⟩
  · unfold recsAllowed State.runsIn; decide
  · exact plain_sRec _ _ _ (by unfold State.memOk; decide)
  · unfold recFormed; decide
  · unfold recRegion; decide
  · unfold recsAllowed State.runsIn; decide
  · unfold plainMemory; decide

theorem witness_TaskRecordWords : plainRecs (sRec 1 1 0xFFFF) (recsOf (sRec 1 1 0xFFFF) hd 4) ∧
    plainRecs (sRec 0 2 0) (recsOf (sRec 0 2 0) hd 4) ∧ recsAllowed (sRec 1 1 0xFFFF) hd 4 ∧
    (countersAfter true (fun _ => 0) (sRec 1 1 0).now.mem [(0, 0x1000)]).2 = true ∧
        (countersAfter true (fun _ => 0) (sRec 0 2 0).now.mem [(0, 0x1000)]).2 = false ∧
    recsOf (sRec 0 2 0) hd 4 = [(0, 0x1000)] ∧ recsAllowed (sRec 0 2 0) hd 4 ∧
    (countersAfter false (fun _ => 0xFF00) (sRec 0xFF 1 0).now.mem [(0, 0x1000)]).2 = true ∧
    (countersAfter false (fun _ => 0xFFFF) (sRec 1 1 0).now.mem [(0, 0x1000)]).2 = false ∧ (sRec 1 1 0).acts hd = true := by
  refine ⟨plain_sRec _ _ _ (by unfold State.memOk; decide), plain_sRec _ _ _ (by unfold State.memOk; decide), ?_⟩
  unfold recsAllowed State.runsIn; decide

/-- Lane 0 names the control block of the root in g4 and of region 0x4000 in g6; the block at 0x8000 in g10 is not linked yet. -/
def sRcb : State :=
  let st := fragd (strand (lane [(4, BitVec.ofNat 32 Config.rootRcb), (5, BitVec.ofNat 32 (Config.rootRcb / 2 ^ 32)), (6, 0x4000), (10,
      0x8000), (12, 0x7FFFFFFF)]) Lane.start) fun f => { f with mask := 1 }
  grp (withJob { dev st with
    regions := [{ Region.root with faulting := true }, { Region.root with id := 0x4000, faulting := true }]
    mem := Mem.write [] 0x401E [1] })
/-- Every tray of the region is bound to another entry. -/
def sTrays : State :=
  grp (withJob { dev (strand (lane [(4, 24)]) (lane [(4, 24)])) with
    regions := [{ Region.root with trays := mapV Region.root.trays fun y => { y with entry := 12, recs := [{ arg := 0, parent := 5, due := 0 }] } }] })

theorem witness_SpawnAndRegionWords :
    (∃ r, s0.now.region? s0.old.region = some r ∧ (takers s0 hd).length ≤ (r.trays.toList.filter fun t => t.recs.isEmpty).length) ∧
    (∃ r, sTrays.now.region? sTrays.old.region = some r ∧ sTrays.acts hd = true ∧
      ∀ y ∈ r.trays.toList, y.recs ≠ [] ∧ y.entry ≠ asPair (sTrays.src (sTrays.low hd)) 4) ∧ s0.acts h0 = false ∧ sRcb.acts hd = true ∧
    rcbAllowed sRcb hd 4 sRcb.now.rootRcb ∧ rcbAllowed sRcb hd 6 0x4000 ∧ rcbAllowed sRcb hd 10 0x8000 ∧
        (∀ r ∈ sRcb.now.regions, r.hotbase = 0) ∧
    Mem.num sRcb.now.mem (0x8000 + 30) 1 = 0 ∧ Mem.num sRcb.now.mem (0x4000 + 30) 1 ≠ 0 ∧
    (∃ r, sRcb.now.region? 0x4000 = some r ∧ r.live = true) ∧ 0x4000 ≠ sRcb.now.rootRcb ∧ sRcb.now.region? 0x8000 = none := by
  refine ⟨⟨{ Region.root with faulting := true }, by decide⟩,
      ⟨{ Region.root with trays := mapV Region.root.trays fun y => { y with entry := 12, recs := [{ arg := 0, parent := 5, due := 0 }] } }, ?_⟩,
    by decide, by decide, ⟨by decide, [piece .atomic Config.rootRcb 256], rfl, by decide, rfl⟩, ⟨by decide, [piece .atomic 0x4000 256], rfl, by decide,
        rfl⟩,
    ⟨by decide, [piece .atomic 0x8000 256], rfl, by decide, rfl⟩, by decide, by decide, by decide,
    ⟨{ Region.root with id := 0x4000, faulting := true }, by decide⟩, by decide, by decide⟩
  refine ⟨rfl, by decide, by decide⟩

/-! ### Signets and layers -/

/-- Lane 0 has signet words in g4-g7 and g8-g11; g12-g13 name 0x1000; the memory has AC 3. -/
def sSig (y x : List W32) : State :=
  let st := fragd (strand (lane ((y.zipIdx.map fun v => ((4 : GReg).plus v.2, v.1)) ++ (x.zipIdx.map fun v => ((8 : GReg).plus v.2,
      v.1)) ++ [(12, 0x1000)]))
    Lane.start) fun f => { f with mask := 1 }
  grp { dev st with cores := Dev.reset.cores.set 0 { Core.start with tlb := [{ x := { flat with leaf := 0x19F }, count := 0 }] } }

/-- Every descriptor is taken. -/
def desc1 : Desc :=
  { index := 1, st := 1, gen := 0, total := 0, returned := 0, record := 0, innerLo := 0, innerChk := 0, finEntry := 0, finArg := 0
    owner := 0, clasp := 0 }
def taken (s : State) (n : Nat) : State := { s with now := { s.now with descs := List.replicate n desc1 } }

theorem taken_left (s : State) (n : Nat) (h : 1048575 ≤ n) : (taken s n).now.descsLeft = 0 := by
  have h1 : (List.filter (fun x : Desc => x.st != 0) (List.replicate n desc1)).length = n := by
    rw [List.filter_replicate, if_pos (by rfl)]; simp
  simp only [Dev.descsLeft, taken, h1]
  omega

/-- The signet of weight exponent 46 (0x02E00001_00000000) and one of weight exponent 0. -/
theorem witness_SignetWords : (sSig [0, 0x02E00001] []).acts hd = true ∧
    reachable s0 hd .read 16 (fun l => asPair (s0.src l) 4) 16 = true ∧ (∀ r ∈ s0.now.regions, r.hotbase = 0) ∧ s0.acts hd = true ∧
    (takers s0 hd).length ≤ s0.now.descsLeft ∧
    (∀ l, (sSig [0, 0x02E00001, 5] [0, 0, 0, 0]).runsIn hd l → sigUsable ((sSig [0, 0x02E00001, 5] [0, 0, 0, 0]).src l) 4) ∧
    (∀ l, (sSig [0, 0x02E00001, 5] [0, 0, 0, 0]).runsIn hd l → zQuad ((sSig [0, 0x02E00001, 5] [0, 0, 0, 0]).src l) 8 = 0) ∧
    (∀ l, (sSig [0, 0x02E00001, 5] [0, 0, 0, 0]).runsIn hd l → 1 ≤ zPair ((sSig [0, 0x02E00001, 5] [0, 0, 0,
        0]).src l) 4 / 2 ^ 52 % 2 ^ 6) ∧
    (takers (sSig [0x1000, 0] []) hd = [0] ∧ zPair ((sSig [0x1000, 0] []).src 0) 4 / 2 ^ 52 % 2 ^ 6 = 0 ∧
        1 ≤ (sSig [0x1000, 0] []).now.descsLeft) ∧
    (∃ l, (sSig [] []).runsIn hd l ∧ zQuad ((sSig [] []).src l) 4 = 0) ∧
    (sigPlaces (sSig [] []) hd 12 ∧ plainMemory (sSig [] []) (reachedKeys (sSig [] []) hd .atomic (fun l => asPair ((sSig [] []).src l) 12) 16) ∧
      ∀ l, (sSig [] []).runsIn hd l → zQuad ((sSig [] []).src l) 8 = 0) ∧
    ∀ l, (sSig [] [0x1000, 0, 0, 7]).runsIn hd l → sigUsable ((sSig [] [0x1000, 0, 0, 7]).src l) 8 := by
  unfold State.runsIn sigUsable sigPlaces plainMemory State.runsIn
  refine ⟨by decide, by decide, by decide, by decide, by decide, by decide, by decide, by decide, by decide, by decide, ⟨by decide,
      by decide, by decide⟩, by decide⟩

theorem witness_SignetWords_full : ∀ n, 1048575 ≤ n → (taken (sSig [0x1000, 0] [0, 0, 0, 0]) n).now.descsLeft <
    ((takers (taken (sSig [0x1000, 0] [0, 0, 0, 0]) n) hd).filter fun l => decide (zPair ((taken (sSig [0x1000, 0] [0, 0, 0,
        0]) n).src l) 4 / 2 ^ 52 % 2 ^ 6 = 0)).length := by
  intro n hn
  rw [taken_left _ _ hn]
  exact (by decide : 0 < ((takers (sSig [0x1000, 0] [0, 0, 0, 0]) hd).filter fun l =>
    decide (zPair ((sSig [0x1000, 0] [0, 0, 0, 0]).src l) 4 / 2 ^ 52 % 2 ^ 6 = 0)).length)

/-- Tables that map the first 4 TiB to device memory, and a parure at 0x10000 with two layers, layer 1 in this state. -/
def parMem (state fault use : Byte) : List Host.Cell :=
  Mem.write (Mem.write (Mem.write (Mem.write [] 0x10000 [2]) 0x10098 [state, fault, 0, 0,
      use]) Config.rootPtbase (toBytes 8 0x5F00020001)) 0x5F00020000 [0x9F]
def parRegion : Region := { Region.root with faulting := true, parure := 0x10000 }
def sLayer (state fault use : Byte) (done : Bool) : State :=
  let st := fragd (strand (lane [(2, 1), (4, 0), (5, 0x5F)]) Lane.start) fun f =>
    { f with mask := 1, layers := if done then [(24, 0, 1)] else [] }
  grp { dev st with mem := parMem state fault use, regions := [parRegion] }

theorem named_sLayer (a b c : Byte) (d : Bool) (h : (a, b, c, d) ∈ [(2, 0, 0, false), (0, 1, 0, false), (1, 0, 0, false), (2, 0, 1, false),
    (0, 0, 0, true)]) :
    layerNamed (sLayer a b c d) hd 2 4 0 parRegion 1 := by
  simp only [List.mem_cons, List.not_mem_nil, or_false, Prod.mk.injEq] at h
  rcases h with ⟨rfl, rfl, rfl, rfl⟩ | ⟨rfl, rfl, rfl, rfl⟩ | ⟨rfl, rfl, rfl, rfl⟩ | ⟨rfl, rfl, rfl, rfl⟩ | ⟨rfl, rfl, rfl, rfl⟩ <;>
    exact ⟨by unfold State.memOk; decide, by decide, by decide, ⟨Config.rootRcb, by decide⟩, by decide, by decide, by decide, by decide, by decide⟩

theorem witness_LayerWords :
    (layerNamed (sLayer 0 0 0 true) hd 2 4 0 parRegion 1 ∧ useTaken (sLayer 0 0 0 true) 0) ∧
    (layerNamed (sLayer 2 0 0 false) hd 2 4 0 parRegion 1 ∧ ¬ useTaken (sLayer 2 0 0 false) 0 ∧
      (sLayer 2 0 0 false).now.layerState parRegion 1 = 2 ∧ entryAt (sLayer 2 0 0 false) parRegion 1 28 4 0x1009C) ∧
    (layerNamed (sLayer 0 1 0 false) hd 2 4 0 parRegion 1 ∧ ¬ useTaken (sLayer 0 1 0 false) 0 ∧ (sLayer 0 1 0 false).now.layerState parRegion 1 = 0 ∧
      (sLayer 0 1 0 false).now.layerFault parRegion 1 = true ∧ entryAt (sLayer 0 1 0 false) parRegion 1 25 1 0x10099) ∧
    (layerNamed (sLayer 1 0 0 false) hd 2 4 0 parRegion 1 ∧ ¬ useTaken (sLayer 1 0 0 false) 0 ∧ (sLayer 1 0 0 false).now.layerState parRegion 1 = 1) ∧
    (layerNamed (sLayer 2 0 1 false) hd 2 4 0 parRegion 1 ∧ 1 ≤ (sLayer 2 0 1 false).now.layerUse parRegion 1 ∧
        entryAt (sLayer 2 0 1 false) parRegion 1 28 4 0x1009C) := by
  unfold useTaken
  refine ⟨⟨named_sLayer _ _ _ _ (by decide), by decide⟩, ⟨named_sLayer _ _ _ _ (by decide), by decide, by decide, by decide, ?_⟩,
    ⟨named_sLayer _ _ _ _ (by decide), by decide, by decide, by decide, by decide, ?_⟩,
    ⟨named_sLayer _ _ _ _ (by decide), by decide, by decide⟩,
    ⟨named_sLayer _ _ _ _ (by decide), by decide, by decide, ?_⟩⟩ <;> exact fun c hc => absurd hc (by simp [sLayer, grp, dev, Dev.reset])

/-! ### Waits -/

/-- A device whose strand's one fragment is parked since cycle 3; task 5 has banks 2-4, tag 1 is ready, layer 1 is RESIDENT. -/
def sPark (w : Wait) (f : Frag → Frag) : State :=
  let st := fragd (strand { lane [] with watch := some { line := 0x1000, hit := true } } (lane [])) fun x => f { x with st := .parked w 3, pend := some (.fall 24 1) }
  let d := { dev { st with tagrdy := 2 } with
    clasps := [clasp []], mem := parMem 2 0 0, regions := [parRegion]
    cores := Dev.reset.cores.set 0 { Core.start with banks := [{ first := 2, n := 3, task := 5, closing := true }] } }
  { grp (withJob d) with iss := Issue.none }

theorem witness_WaitsEnd : ∀ x ∈ [(Instr.awtCompletion 1 0, Wait.awt 1 [(0, 0x2000, 0)]), (.claspAcqCompletion 1 0, .claspAcq 1 [(0, 0x1000)]),
      (.claspUnbindCompletion 1 0, .unbind [(0, 0x1000)]), (.tlbiSweepCompletion 1 0, .tlbi .all .co 0 0), (.fenceEngineCompletion 1 0,
          .fence [77]),
      (.tagWaitCompletion 1 0, .wtany 6), (.tagWaitCompletion 1 0, .wtall 2), (.tlwaitCompletion 1 0, .tlwait .drain 0)],
    ∃ c f, waitRule x.1 = some (1, 0, c) ∧ parkedOn (sPark x.2 id) 1 0 (sPark x.2 id).now.focus f x.2 ∧
        c (sPark x.2 id) (sPark x.2 id).now.focus x.2 ∧
      (∀ y ∈ (sPark x.2 id).now.clasps, y.log = []) ∧ ∀ r ∈ (sPark x.2 id).now.regions, r.hotbase = 0 := by
  intro x hx
  simp only [List.mem_cons, List.not_mem_nil, or_false] at hx
  have cl : ∀ c : Clasp, some (clasp []) = some c → c.rels = [] := by rintro c ⟨⟩; rfl
  rcases hx with rfl | rfl | rfl | rfl | rfl | rfl | rfl | rfl <;>
    refine ⟨_, { Frag.start 3 24 with st := .parked _ 3, pend := some (.fall 24 1) }, rfl, ⟨rfl, rfl, 3, rfl⟩, ?_, by decide, by decide⟩
  · exact ⟨1, _, rfl, by decide⟩
  · refine ⟨1, _, rfl, fun y hy c hc => ?_⟩
    obtain rfl : y = (0, 0x1000) := by simpa using hy
    exact cl c hc
  · refine ⟨_, rfl, fun y hy c hc => ?_⟩
    obtain rfl : y = (0, 0x1000) := by simpa using hy
    exact cl c hc
  · exact ⟨_, _, _, _, rfl⟩
  · exact ⟨_, rfl, by decide⟩
  · exact ⟨_, Or.inr ⟨rfl, 1, by decide⟩⟩
  · refine ⟨_, Or.inl ⟨rfl, fun i hi => ?_⟩⟩
    obtain rfl : i = 1 := by
      by_contra hne
      rw [show (2 : W64) = BitVec.twoPow 64 1 from rfl, BitVec.getLsbD_twoPow] at hi
      simp at hi; omega
    decide
  · exact ⟨_, _, _, rfl, rfl, by decide⟩

theorem witness_WaitsEnd_resources :
    (∃ f, parkedOn (sPark (.mwait 3 6 1) id) 1 0 (sPark (.mwait 3 6 1) id).now.focus f (.mwait 3 6 1)) ∧
    (∃ l w, hasLane (3 : W32) l = true ∧ ((sPark (.mwait 3 6 1) id).now.focus.lane l).watch = some w ∧ w.hit = true) ∧
    0 ≤ (sPark (.mwait 3 6 0) id).now.cycle ∧
    (∃ f run, parkedOn (sPark (.cfree 2 5) id) 1 0 (sPark (.cfree 2 5) id).now.focus f (.cfree 2 5) ∧
      ((sPark (.cfree 2 5) id).now.core 0).banks.find? (fun r => r.first == 2) = some run ∧
          (sPark (.cfree 2 5) id).now.banksBusy 0 run = false) ∧
    (∃ f, parkedOn (sPark (.calloc 59 0) id) 1 0 (sPark (.calloc 59 0) id).now.focus f (.calloc 59 0) ∧
      ((sPark (.calloc 59 0) id).now.core 0).findBanks 59 = some 5 ∧
          59 ≤ (sPark (.calloc 59 0) id).now.bankBudget (sPark (.calloc 59 0) id).now.focus.region) ∧
    (∃ f, parkedOn (sPark (.calloc 20000 0) id) 1 0 (sPark (.calloc 20000 0) id).now.focus f (.calloc 20000 0) ∧
      (sPark (.calloc 20000 0) id).now.bankBudget (sPark (.calloc 20000 0) id).now.focus.region < 20000) ∧
    (∃ f, parkedOn (sPark (.lywait [(0, Config.rootRcb, 1)]) id) 1 0 (sPark (.lywait [(0, Config.rootRcb,
        1)]) id).now.focus f (.lywait [(0, Config.rootRcb, 1)]) ∧
      (sPark (.lywait [(0, Config.rootRcb, 1)]) id).now.region? Config.rootRcb = some parRegion ∧
          (sPark (.lywait [(0, Config.rootRcb, 1)]) id).now.layerState parRegion 1 = 2) ∧
    ((sPark .bar id).now.all.map Strand.id).Nodup ∧
    (∃ st ∈ (sPark .bar id).now.all, st.task = 5) ∧
    (∀ st ∈ (sPark .bar id).now.all, st.task = 5 → st.casketBusy = false ∧ st.live ≠ [] ∧ ∀ x ∈ st.live, x.2.atBar = true ∧
      x.2.aside = none ∧ ∃ pc pos, x.2.pend = some (.fall pc pos)) ∧
    (∃ st slot f rest, (sPark (.macq 40) id).now.macqParked 0 0 = (st, slot, 40) :: rest ∧ st.frag slot = some f ∧
      40 ≤ ((sPark (.macq 40) id).now.quad 0 0).free ∧ 40 ≤ (sPark (.macq 40) id).now.blockBudget st.region) := by
  refine ⟨⟨_, rfl, rfl, 3, rfl⟩, ⟨0, _, by decide, rfl, rfl⟩, by decide, ⟨_, _, ⟨rfl, rfl, 3, rfl⟩, rfl, by decide⟩,
    ⟨_, ⟨rfl, rfl, 3, rfl⟩, by decide, by decide⟩, ⟨_, ⟨rfl, rfl, 3, rfl⟩, by decide⟩, ⟨_, ⟨rfl, rfl, 3, rfl⟩, by decide, by decide⟩,
    by decide, by decide, ?_, ⟨_, _, _, _,
        rfl, rfl, by decide, by decide⟩⟩
  intro st hst _
  obtain rfl : st = (sPark .bar id).now.focus := by
    have h : (sPark .bar id).now.all = [(sPark .bar id).now.focus] := by rfl
    rw [h] at hst; simpa using hst
  refine ⟨by decide, by decide, fun x hx => ?_⟩
  have h : (sPark .bar id).now.focus.live = [(0, { Frag.start 3 24 with st := .parked .bar 3, pend := some (.fall 24 1) })] := by rfl
  rw [h] at hx
  obtain rfl : x = _ := by simpa using hx
  exact ⟨rfl, rfl, 24, 1, rfl⟩

/-! ### Events of results, arrays and engines -/

def wr1 : List RegWrite := [.g 0 8 5, .g 1 63 6, .k 191 7, .p 0 6 true, .p 1 7 true, .m 0 15 (some (m22 .w32 1 2 3 4))]

theorem noEntry_s0 {fs : List Flight} : noEntry { s0.now.focus with flights := fs } := by
  intro x hx
  obtain rfl : x = (0, Frag.start 3 24) := by
    have h : ({ s0.now.focus with flights := fs } : Strand).live = [(0, Frag.start 3 24)] := by rfl
    rw [h] at hx; simpa using hx
  trivial

def fl7 (k : FlightKind) : Flight := { Flight.blank with id := 7, kind := k, lanes := 3, writes := wr1, fp := [(0, 16)], mx := [(1, 9)] }

theorem witness_ResultsArrive : ∀ x ∈ [(Instr.memoryResultArrival 1 7, FlightKind.memory), (.macqArrival 1 7, .macq),
    (.macqTryFailArrival 1 7, .macqFail),
      (.elementPathCompletion 1 7, .element), (.matrixAccessCompletion 1 7, .access), (.cellWordPassEnd 1 7, .cell true false 20 4),
      (.mexpPassEnd 1 7, .mexp [4] []), (.signetVerdictArrival 1 7, .verdict)],
    ∃ k st, arrivalRule x.1 = some (1, 7, k) ∧ (fly (fl7 x.2)).now.strand? 1 = some st ∧ st.flight? 7 = some (fl7 x.2) ∧ k (fl7 x.2).kind ∧
      (fl7 x.2).waits = 0 ∧ (fl7 x.2).bufs = [] ∧ (fl7 x.2).fails = [] ∧ (fl7 x.2).fill = .none ∧ (fl7 x.2).writes = wr1 ∧
          (wr1.map writeNames).Nodup ∧ (fly (fl7 x.2)).memOk ∧ (fly (fl7 x.2)).now.halts st = false ∧
      noEntry st ∧ (fly (fl7 x.2)).now.upsets.headD 0 &&& (fl7 x.2).lanes = 0 := by
  intro x hx
  simp only [List.mem_cons, List.not_mem_nil, or_false] at hx
  rcases hx with rfl | rfl | rfl | rfl | rfl | rfl | rfl | rfl <;>
    refine ⟨_, _, rfl, rfl, rfl, ?_, rfl, rfl, rfl, rfl, rfl, by decide, by unfold State.memOk; decide, by decide, noEntry_s0, rfl⟩
  all_goals first
    | rfl
    | exact ⟨_, _, _, _, rfl⟩
    | exact ⟨_, by decide, rfl⟩

def mldFlight : Flight := { Flight.blank with id := 7, kind := .access, lanes := 1, fill := .mld 2 .col, bufs := [(0, [1, 2, 3, 4, 5, 6, 7, 8])] }
def casFlight : Flight := { Flight.blank with id := 7, kind := .casket .readClr 2 [{ lane := 0, n := 0, addr := 2 ^ 22 - 4, v := 0 }], lanes := 1 }

theorem witness_ResultsArrive_access : (∃ st, (fly mldFlight).now.strand? 1 = some st ∧ st.flight? 7 = some mldFlight ∧ noEntry st ∧
    mldFlight.waits = 0 ∧
      mldFlight.writes = [] ∧ mldFlight.kind = .access ∧ mldFlight.fill = .mld 2 .col ∧ (mldFlight.bufs.map Prod.fst).Nodup) ∧
    ∃ st, (fly casFlight).now.strand? 1 = some st ∧ st.flight? 7 = some casFlight ∧ noEntry st ∧ casFlight.waits = 0 ∧
        casFlight.writes = [] ∧
      (fly casFlight).memOk ∧ (fly casFlight).now.eccBad = [] ∧ ∃ op m items, casFlight.kind = .casket op m items ∧ ∀ x ∈ items, x.addr < 2 ^ 22 :=
  ⟨⟨_, rfl, rfl, noEntry_s0, rfl, rfl, rfl, rfl, by decide⟩,
    ⟨_, rfl, rfl, noEntry_s0, rfl, rfl, by unfold State.memOk; decide, rfl, _, _, _, rfl, by decide⟩⟩

/-- Task 5 runs a strand with this flight; the next pass end is upset in lane 1, and this is the state of quadrant 0. -/
def sCell (k : FlightKind) (q : Quad → Quad) (halting : Bool) : State :=
  let s := fly (fl7 k)
  { s with now := { s.now with
      jobs := [{ job5 with st := if halting then .halting else .running }]
      upsets := [2]
      cores := Dev.reset.cores.set 0 { Core.start with quads := Core.start.quads.set 0 (q Quad.start) } } }

theorem witness_ArrayEvents : (∃ st f, (sCell (.cell true false 20 4) id false).now.strand? 1 = some st ∧ st.flight? 7 = some f ∧
      (sCell (.cell true false 20 4) id false).now.upsets.headD 0 &&& f.lanes ≠ 0 ∧ f.kind = .cell true false 20 4) ∧
    (∃ st f, (sCell (.cell true true 20 4) id false).now.strand? 1 = some st ∧ st.flight? 7 = some f ∧
      (sCell (.cell true true 20 4) id false).now.upsets.headD 0 &&& f.lanes ≠ 0 ∧ f.kind = .cell true true 20 4 ∧ noEntry st ∧
          st.kind = .task ∧ (∀ x ∈ st.live, x.2.prv = false) ∧
      (sCell (.cell true true 20 4) id false).now.job? st.task = some job5 ∧ job5.st = .running) ∧
    (∃ st f, (sCell (.cell true true 20 4) (fun q => { q with rerunAt := [7] }) false).now.strand? 1 = some st ∧ st.flight? 7 = some f ∧
        f.kind = .cell true true 20 4 ∧
      ((sCell (.cell true true 20 4) (fun q => { q with rerunAt := [7] }) false).now.quad st.core st.quad).rerunAt.head? = some 7 ∧
      ((sCell (.cell true true 20 4) (fun q => { q with rerunAt := [7] }) false).now.quad st.core st.quad).cellBusy = none ∧
          (4 : Nat) ≠ 0) ∧
    (((sCell .element (fun q => { q with cellBusy := some 0, elemBusy := some 0, rerunAt := [7] }) false).now.quad 0 0).cellBusy = some 0 ∧
      ((sCell .element (fun q => { q with cellBusy := some 0, elemBusy := some 0, rerunAt := [7] }) false).now.quad 0 0).elemBusy = some 0 ∧
      ((sCell .element (fun q => { q with cellBusy := some 0, elemBusy := some 0, rerunAt := [7] }) false).now.quad 0 0).rerunAt.head? = some 7 ∧
      ∃ st, (sCell .element (fun q => { q with cellBusy := some 0, elemBusy := some 0, rerunAt := [7] }) false).now.all.find? (fun st => st.flights.any fun f => f.id == 7) = some st) ∧
    (∃ st f, (sCell (.mexp [4] [5]) id false).now.strand? 1 = some st ∧ st.flight? 7 = some f ∧ f.kind = .mexp [4] [5] ∧
        (sCell (.mexp [4] [5]) id false).now.halts st = false) ∧
    (∃ st f, (sCell (.mexp [4] [5]) id true).now.strand? 1 = some st ∧ st.flight? 7 = some f ∧ f.kind = .mexp [4] [5] ∧
        (sCell (.mexp [4] [5]) id true).now.halts st = true) ∧
    ∃ st f, (grp (dev (fragd st1 fun f => { f with passed := 63 }))).now.strand? 1 = some st ∧ st.frag 0 = some f ∧ f.st = .ready ∧
        63 ≤ f.passed := by
  refine ⟨⟨_, _, rfl, rfl, by decide, rfl⟩, ⟨_, _, rfl, rfl, by decide, rfl, noEntry_s0, rfl, by decide, rfl, rfl⟩, ⟨_, _, rfl, rfl, rfl, rfl, rfl,
      by decide⟩, ⟨rfl, rfl, rfl, _, rfl⟩,
    ⟨_, _, rfl, rfl, rfl, by decide⟩, ⟨_, _, rfl, rfl, rfl, by decide⟩, ⟨_, _, rfl, rfl, rfl, by decide⟩⟩

/-- A device with one accepted operation, and a copy of two rows from 0x1000 to 0x2000 that raises a counter. -/
def sOp (o : EngOp) : State := { s0 with now := { s0.now with ops := [o] } }
def opCopy (wrote : Bool) : EngOp :=
  { op3 (.copy [([{ key := 0x1000, len := 4 }], [{ key := 0x2000, len := 4 }]), ([{ key := 0x1004, len := 4 }], [{ key := 0x1FFC, len := 4 }])]) with
    tag := some 63, wrote := wrote, mem0 := s0.now.mem, arr := some { key := 0x3000, inc := 2 ^ 32 - 1 } }

/-- Low memory holds no control block. -/
theorem low_free (o : EngOp) (k : Nat) (hk : k < 2 ^ 20) : outsideRcbs (sOp o) k := by
  intro r hr
  obtain rfl : r = { Region.root with faulting := true } := by simpa [sOp, s0, lanes2, grp, dev] using hr
  have : ({ Region.root with faulting := true } : Region).id = Config.rootRcb := rfl
  rw [this]; unfold Config.rootRcb; omega

theorem ports_up (k : Nat) : s0.now.portDown k = none := by
  have hc : ∀ i : Fin 8, s0.now.cxlUp[i] = true := by decide
  have hp : ∀ i : Fin 2, s0.now.host.portUp[i] = true := by decide
  unfold Dev.portDown
  split
  · rw [if_pos (hc _)]
  · split
    · dsimp only; rw [if_pos (hp _)]
    · rfl

/-- Runs of the test device are its own. -/
theorem own_runs (o : EngOp) (rs : List Run) (h : ∀ r ∈ rs, r.key + r.len ≤ 16 * 2 ^ 64) : ownRuns (sOp o) rs :=
  ⟨⟨(by decide : Mem.wf s0.now.mem = true), (by decide : Mem.wf s0.start.mem = true)⟩, rfl, rfl, fun r hr => ⟨h r hr, fun k _ _ => ports_up k⟩⟩

theorem witness_EngineEvents_copy : ((sOp (opCopy true)).now.op? 3 = some (opCopy true) ∧ (opCopy true).ctx = .copy ∧
    (opCopy true).waits = 0 ∧ (opCopy true).wrote = true) ∧
    (sOp (opCopy false)).now.op? 3 = some (opCopy false) ∧ (opCopy false).wrote = false ∧ (opCopy false).late = [] ∧
    stillSources (sOp (opCopy false)) (opCopy false) ((engineMoves (sOp (opCopy false)).now.mem (opCopy false).kind).flatMap Prod.fst) ∧
    ownRuns (sOp (opCopy false)) [{ key := 0x3000, len := 8 }] ∧ ∀ i, i < 8 → outsideRcbs (sOp (opCopy false)) (0x3000 + i) ∧
      ∀ x ∈ engineMoves (sOp (opCopy false)).now.mem (opCopy false).kind, ∀ r ∈ x.1, ¬ (r.key ≤ 0x3000 + i ∧
          0x3000 + i < r.key + r.len) := by
  refine ⟨⟨rfl, rfl, rfl, rfl⟩, rfl, rfl, rfl, ⟨own_runs _ _ (by decide), own_runs _ _ (by decide), rfl, rfl,
    fun r hr => ⟨fun k _ _ => rfl, ?_⟩⟩, own_runs _ _ (by decide), ?_⟩
  · revert r; decide
  intro i hi
  refine ⟨low_free _ _ (by omega), ?_⟩
  have h : engineMoves (sOp (opCopy false)).now.mem (opCopy false).kind =
    [([{ key := 0x2000, len := 4 }], [0, 0, 0, 0]), ([{ key := 0x1FFC, len := 4 }], [0, 0, 0, 0])] := by rfl
  rw [h]; simp; omega

def row64 : List W32 := List.replicate 64 1
def opDrain (k : EngKind) : EngOp := { op3 k with ctx := .drain, sent := [(255, row64.map some)] }
noncomputable def drow : DrainRow :=
  { src := Config.devid.toNat, op := 3, core := 0, first := 0, count := 2, bank := 1, row := 255, isInt := true, vals := row64.map some }

/-- Rows on their way to memory and to a bank, a free bank and one that task 5 has, a clasp in whose runs no count lies. -/
theorem witness_EngineEvents_rows : ((sOp (opDrain (.drainMem 0 1 true [{ key := 0x20000, len := 65536 }]))).now.op? 3 = some (opDrain (.drainMem 0 1 true [{ key := 0x20000, len := 65536 }])) ∧
      (opDrain (.drainMem 0 1 true [{ key := 0x20000, len := 65536 }])).arr = none ∧
          (opDrain (.drainMem 0 1 true [{ key := 0x20000, len := 65536 }])).late = [] ∧
      (opDrain (.drainMem 0 1 true [{ key := 0x20000, len := 65536 }])).sent.find? (fun x => x.1 == 255) = some (255, row64.map some) ∧
      ownRuns (sOp (opDrain (.drainMem 0 1 true [{ key := 0x20000, len := 65536 }]))) (sliceRuns [{ key := 0x20000, len := 65536 }] (256 * 255) 256)) ∧
    ((sOp (opDrain (.drainAdd 0 1 false true 63 0 0))).now.op? 3 = some (opDrain (.drainAdd 0 1 false true 63 0 0)) ∧
      (opDrain (.drainAdd 0 1 false true 63 0 0)).sent.find? (fun x => x.1 == 255) = some (255, row64.map some)) ∧
    (∃ i, i < drow.count ∧ ((sOp (opDrain (.drainAdd 0 1 false true 63 0 0))).now.core drow.core).bankFree (drow.first + i) = true) ∧
    drow.src = Config.devid.toNat ∧ ((∀ i, i < drow.count → ((sBanks false false 1 0).now.core drow.core).bankFree (drow.first + i) = false) ∧
      (sBanks false false 1 0).memOk ∧ (sBanks false false 1 0).now.eccBad = []) ∧
    (∃ c, (sClasp [clasp [rel1]]).now.clasp? 0x1000 = some c ∧ (∃ r ∈ c.rels, r.id = 4) ∧
      ∀ c ∈ (sClasp [clasp [rel1]]).now.clasps, ∀ r ∈ c.runs, ¬ (r.key < 0x1000 + 8 ∧ 0x1000 < r.key + r.len)) := by
  exact ⟨⟨rfl, rfl, rfl, by decide, own_runs _ _ (by decide)⟩, ⟨rfl, by decide⟩, ⟨0, by decide⟩, rfl,
    ⟨two_lt rfl (by decide) (by decide), by unfold State.memOk; decide, rfl⟩, ⟨_, rfl, by decide, by decide⟩⟩

/-- A collective of two elements, whose participants hold 3s; the result goes to 0x2000. -/
noncomputable def opColl (kind : CollKind) (ty op : Nat) : EngOp :=
  { op3 (.coll kind 2 ty op [{ key := 0x1000, len := 8 }] [{ key := 0x2000, len := (collChunks kind).2 * (2 * if ty = 1 then 2 else 4) }]) with
    ctx := .coll, mem0 := s0.now.mem }
noncomputable def threes (kind : CollKind) (ty : Nat) : List Byte := List.replicate ((collChunks kind).1 * (2 * if ty = 1 then 2 else 4)) 3
noncomputable def peer2 (kind : CollKind) (ty op r : Nat) : CollPeer :=
  { region := Config.rootRcb, num := 1, rank := r, kind := kind, e := 2, ty := ty, op := op, bytes := (threes kind ty).map some }
/-- The participants agree with the operation, or have another one. -/
noncomputable def sColl (kind : CollKind) (ty op op' : Nat) : State :=
  { sOp (opColl kind ty op) with now := { (sOp (opColl kind ty op)).now with peers := participants.map (peer2 kind ty op') } }

theorem find_peer2 (kind : CollKind) (ty op : Nat) (rs : List Nat) (r : Nat) (h : r ∈ rs) :
    (rs.map (peer2 kind ty op)).find? (fun p => p.region == Config.rootRcb && p.num == 1 && p.rank == r) = some (peer2 kind ty op r) := by
  induction rs with
  | nil => exact absurd h List.not_mem_nil
  | cons x xs ih =>
    by_cases hx : x = r
    · subst hx; simp [peer2]
    · have hr : r ∈ xs := by simpa [Ne.symm hx] using h
      rw [List.map_cons, List.find?_cons_of_neg (by simp [peer2, hx]), ih hr]

theorem participants_few : participants.length ≤ 4096 := by
  unfold participants; exact (List.length_filter_le _ _).trans (by simp)

theorem chunks_few (kind : CollKind) : (collChunks kind).2 ≤ 4096 := by
  cases kind <;> first | exact participants_few | (show 1 ≤ 4096; omega)

theorem dst_bytes (kind : CollKind) (ty : Nat) : (collChunks kind).2 * (2 * if ty = 1 then 2 else 4) ≤ 32768 := by
  have := chunks_few kind
  split <;> omega

theorem devid_takes_part : Config.devid.toNat ∈ participants := by
  unfold participants
  have := Config.devid.isLt
  simp only [List.mem_filter, List.mem_range, beq_self_eq_true, Bool.true_or, and_true]
  omega

/-- A result for every kind, type and operation; participants that do not agree. -/
theorem witness_EngineEvents_coll (kind : CollKind) (ty op : Nat) :
    ((sColl kind ty op op).now.op? 3 = some (opColl kind ty op) ∧ (opColl kind ty op).ctx = .coll ∧ (opColl kind ty op).waits = 0 ∧
      (opColl kind ty op).wrote = false ∧ (opColl kind ty op).lost = false ∧ (opColl kind ty op).arr = none ∧ (opColl kind ty op).late = [] ∧
      ownRuns (sColl kind ty op op) [{ key := 0x2000, len := (collChunks kind).2 * (2 * if ty = 1 then 2 else 4) }] ∧
      (∀ r ∈ participants, (threes kind ty).length = (collChunks kind).1 * (2 * if ty = 1 then 2 else 4) ∧
        (sColl kind ty op op).now.peers.find? (fun p => p.region == (opColl kind ty op).region && p.num == (opColl kind ty op).num && p.rank == r) =
          some { region := (opColl kind ty op).region, num := (opColl kind ty op).num, rank := r, kind := kind, e := 2, ty := ty, op := op
                 bytes := (threes kind ty).map some }) ∧
      ∀ i, i < (collChunks kind).2 * (2 * if ty = 1 then 2 else 4) → outsideRcbs (sColl kind ty op op) (0x2000 + i)) ∧
    (sColl kind 0 0 1).now.op? 3 = some (opColl kind 0 0) ∧ Config.devid.toNat ∈ participants ∧
    ∀ r ∈ participants, ∃ p, (sColl kind 0 0 1).now.peers.find? (fun p => p.region == (opColl kind 0 0).region && p.num == (opColl kind 0 0).num && p.rank == r) =
      some p ∧ (p.kind, p.e, p.ty, p.op) ≠ (kind, 2, 0, 0) := by
  have hd := dst_bytes kind ty
  refine ⟨⟨rfl, rfl, rfl, rfl, rfl, rfl, rfl, own_runs (opColl kind ty op) _ (fun r hr => ?_), fun r hr => ⟨?_, find_peer2 _ _ _ _ _ hr⟩, fun i hi => ?_⟩,
    rfl, devid_takes_part, fun r hr => ⟨_, find_peer2 kind 0 1 _ _ hr, by simp [peer2]⟩⟩
  · obtain rfl := List.mem_singleton.1 hr
    dsimp only; omega
  · simp [threes]
  · exact low_free (opColl kind ty op) _ (by omega)

/-! ### Events of the scheduler, regions, pre-emption and faults -/

/-- A device between two groups. -/
def rest (d : Dev) : State := { now := d, start := d, iss := Issue.none }
def sJob (f : Job → Job) (g : Dev → Dev) : State := rest (g { Dev.reset with jobs := [f job5] })
def badLease : LeaseRange := { base := 0x70000000, len := 65536, r := true, w := true }

theorem witness_TasksStartAndEnd_start : ((sJob (fun j => { j with st := .released }) id).now.nextPlaced = some ({ job5 with st := .released }, 0)) ∧
    (sJob (fun j => { j with st := .released }) id).now.job? 5 = some { job5 with st := .released } ∧
    (∃ caps at_, (sJob (fun j => { j with st := .placed }) id).now.job? 5 = some { job5 with st := .placed } ∧
      (sJob (fun j => { j with st := .placed }) id).now.region? job5.region = some Region.root ∧
          (sJob (fun j => { j with st := .placed }) id).now.walking 5 = false ∧
      (sJob (fun j => { j with st := .placed }) id).now.captureFrom Region.root (([] : List LeaseRange).drop 0) 0 0 [] = (caps, at_,
          none) ∧ job5.entry.toNat % 12 = 0) ∧
    ∃ caps at_ e, (sJob (fun j => { j with st := .placed, leases := [badLease] }) fun d => { d with sysEntry := 96 }).now.captureFrom Region.root [badLease] 0 0 [] =
      (caps, at_, some e) ∧ e.fail.code ≠ 0x21 ∧ Region.root.sysEnds = false ∧ (sJob (fun j => { j with st := .placed, leases := [badLease] }) fun d => { d with sysEntry := 96 }).now.sysEntry ≠ 0 ∧
      (sJob (fun j => { j with st := .placed, leases := [badLease] }) id).now.sysEntry = 0 := by
  refine ⟨by decide, by decide, ⟨_, _, rfl, by decide, by decide, rfl, by decide⟩, ⟨_, _, _, rfl, by decide, by decide, by decide, by decide⟩⟩

def trayed (cyc : Nat) : State :=
  rest { Dev.reset with
    cycle := cyc
    regions := [{ Region.root with trays := Region.root.trays.set 15 { entry := 36, task := 0, due := 5, recs := List.replicate 32 { arg := 7, parent := 5, due := 0 }, full := false } }] }

theorem witness_TasksStartAndEnd_end : ((sJob id id).now.job? 5 = some job5 ∧ (sJob id id).now.endReady job5 = true ∧ job5.st = .running) ∧
    (∃ r, (sJob id fun d => { d with regions := [Region.root, { Region.root with id := 0x4000, parent := Config.rootRcb, live := false }] }).now.region? 0x4000 = some r ∧
      r.live = false ∧ r.livetasks = 0 ∧ r.children = 0 ∧ r.parent ≠ 0x4000) ∧
    (∃ r y c q, (trayed 5).now.region? Config.rootRcb = some r ∧ y = r.trays[(15 : Fin 16)] ∧ y.due ≠ 0 ∧ y.due ≤ (trayed 5).now.cycle ∧
        r.det = false ∧
      y.recs ≠ [] ∧ (trayed 5).now.freeQuad = some (c, q) ∧ (trayed 5).now.roomFor Config.rootRcb 1 0 = true ∧ y.entry.toNat % 12 = 0) := by
  refine ⟨by decide, ⟨{ Region.root with id := 0x4000, parent := Config.rootRcb, live := false }, by decide⟩, ⟨_, _, 0, 0, rfl, rfl,
      by decide, by decide, by decide, by decide, by decide, by decide, by decide⟩⟩

/-- Root tables that map the first 4 TiB, the root control block, and these bytes. -/
def mapped (m : List Host.Cell) : List Host.Cell :=
  Mem.write (Mem.write m Config.rootPtbase (toBytes 8 0x5F00020001)) 0x5F00020000 [0x9F]

/-- A link of 0x8000 asked for, one fragment waiting for it; the block's priority byte. -/
def sLink (prio : Byte) : State :=
  let st := fragd (strand (lane []) (lane [])) fun f => { f with st := .parked (.rgnew 0x8000) 1, pend := some (.fall 36 0) }
  rest { dev st with mem := mapped (Mem.write Config.rootRcbCells 0x801C [prio]), links := [(0x8000, 0x8000, Config.rootRcb)], regions := [Region.root] }

theorem witness_RegionAndIntakeEvents_link : ∀ prio ∈ [(16 : Byte), 17], (0x8000, 0x8000, Config.rootRcb) ∈ (sLink prio).now.links ∧
    (∀ x ∈ (sLink prio).now.links, x.1 = 0x8000 → x = (0x8000, 0x8000, Config.rootRcb)) ∧ Mem.num (sLink prio).now.mem (0x8000 + 30) 1 = 0 ∧
    (sLink prio).now.region? 0x8000 = none ∧ ((sLink prio).now.all.map Strand.id).Nodup ∧ (sLink prio).now.clasps = [] ∧
        allFall (sLink prio) (.rgnew 0x8000) ∧
    Mem.num (sLink prio).now.mem 0x8000 8 = 0 ∧ (sLink prio).now.region? Config.rootRcb = some Region.root ∧
    (sLink prio).now.badRcb 0x8000 Config.rootRcb (some Region.root) = decide (prio = 17) ∧ (sLink prio).memOk := by
  intro prio hp
  have hf : ∀ p, allFall (sLink p) (.rgnew 0x8000) := by
    intro p st hst x hx n hn
    have h1 : (sLink p).now.all = [(sLink p).now.focus] := by rfl
    have h2 : (sLink p).now.focus.live = [(0, { Frag.start 3 24 with st := .parked (.rgnew 0x8000) 1, pend := some (.fall 36 0) })] := by rfl
    rw [h1, List.mem_singleton] at hst
    subst hst
    rw [h2, List.mem_singleton] at hx
    subst hx
    exact ⟨rfl, 36, 0, rfl⟩
  simp only [List.mem_cons, List.not_mem_nil, or_false] at hp
  rcases hp with rfl | rfl <;> exact ⟨by decide, by decide, by decide, by decide, by decide, rfl, hf _, by decide, by decide, by decide,
    by unfold State.memOk; decide⟩

/-- The ring's first entry, appended and not yet taken. -/
def sRing (e : Nat) (m : List Host.Cell → List Host.Cell) : State :=
  rest { Dev.reset with
    mem := m (mapped (Mem.write (Mem.write Config.rootRcbCells (Config.rootRcb + 156) [1]) Config.intakeBase (toBytes 8 e)))
    regions := [Region.root, { Region.root with id := 0x4000 }] }
def rec8 (m : List Host.Cell) : List Host.Cell := Mem.write (Mem.write m 0x1000 [24]) 0x103A [1, 32, 0, 4, 7]

theorem witness_RegionAndIntakeEvents_intake :
    (nextEntry (sRing 0x1014 rec8) 20 0x1000 ∧ (sRing 0x1014 rec8).now.recKey (sRing 0x1014 rec8).now.rootRcb 0x1000 = some 0x1000 ∧
      ¬ (1 ≤ Mem.num (sRing 0x1014 rec8).now.mem (0x1000 + 63) 1 ∧ Mem.num (sRing 0x1014 rec8).now.mem (0x1000 + 63) 1 ≤ 3) ∧
      recFormed (sRing 0x1014 rec8).now.mem 0x1000 (2 ^ 20) ∧ Mem.num (sRing 0x1014 rec8).now.mem (0x1000 + 16) 8 = 0 ∧
      (sRing 0x1014 rec8).now.region? (sRing 0x1014 rec8).now.rootRcb = some Region.root ∧
      (sRing 0x1014 rec8).now.readLeases (sRing 0x1014 rec8).now.rootRcb (Mem.num (sRing 0x1014 rec8).now.mem (0x1000 + 24) 8) = some []) ∧
    (nextEntry (sRing 0x403E id) 62 0x4000 ∧ (sRing 0x403E id).now.recKey (sRing 0x403E id).now.rootRcb 0x4000 = some 0x4000 ∧
      (∃ r, (sRing 0x403E id).now.region? 0x4000 = some r ∧ r.live = true) ∧ 0x4000 ≠ (sRing 0x403E id).now.rootRcb) ∧
    (nextEntry (sRing 0x803F id) 63 0x8000 ∧ (sRing 0x803F id).now.recKey (sRing 0x803F id).now.rootRcb 0x8000 = some 0x8000 ∧
      Mem.num (sRing 0x803F id).now.mem (0x8000 + 30) 1 = 0) ∧
    nextEntry (sRing 0 id) 0 0 ∧ nextEntry (sRing 0x1015 id) 21 0x1000 ∧ nextEntry (sRing 0x103D id) 61 0x1000 ∧
        (sRing 0 id).now.clasps = [] ∧ (sRing 0 id).memOk := by
  unfold nextEntry recFormed State.memOk
  refine ⟨⟨by decide, by decide, by decide, by decide, by decide, by decide, by rfl⟩, ⟨by decide, by decide,
      ⟨{ Region.root with id := 0x4000 }, by decide⟩, by decide⟩,
    ⟨by decide, by decide, by decide⟩, by decide, by decide, by decide, rfl, by decide⟩

def rep9 : Report := { rep0 with code := 0x22, reason := 1, lanes := 3, pc := 24, info := 9 }
/-- The root region has a fault task at 0x1000, whose argument is 0x20000, and one report. -/
def sReport : State :=
  rest { Dev.reset with
    mem := mapped (Mem.write Config.rootRcbCells 0x1008 [0, 0, 2])
    regions := [{ Region.root with faulttask := 0x1000, reports := [rep9] }] }

theorem witness_RegionAndIntakeEvents_report : ∃ x, sReport.now.region? Config.rootRcb = some x ∧ x.reports = [rep9] ∧
    sReport.now.recKey x.faultspace x.faulttask.toNat = some 0x1000 ∧
    ¬ (1 ≤ Mem.num sReport.now.mem (0x1000 + 63) 1 ∧ Mem.num sReport.now.mem (0x1000 + 63) 1 ≤ 3) ∧
        Mem.num sReport.now.mem (0x1000 + 16) 8 = 0 ∧ sReport.now.clasps = [] ∧
    sReport.now.schedKeys Config.rootRcb (Mem.num sReport.now.mem (0x1000 + 8) 8) 64 = some ((List.range 64).map fun i => 0x20000 + i) ∧
    sReport.memOk ∧ ∀ i, i < 64 → outsideRcbs sReport (0x20000 + i) ∧ outsideQueues sReport (0x20000 + i) ∧ 0x20000 + i ≠ 0x1000 + 63 := by
  refine ⟨{ Region.root with faulttask := 0x1000, reports := [rep9] }, by decide, rfl, by decide, by decide, by decide, rfl, by decide,
      by unfold State.memOk; decide, fun i hi => ⟨?_, ?_, by omega⟩⟩
  all_goals
    intro r hr
    obtain rfl : r = { Region.root with faulttask := 0x1000, reports := [rep9] } := by simpa [sReport, rest] using hr
    have : ({ Region.root with faulttask := 0x1000, reports := [rep9] } : Region).id = Config.rootRcb := rfl
    rw [this]; unfold Config.rootRcb; omega

/-- Task 5 with its one strand, as it stands or saved. -/
def sHalt (st : JobState) : State := rest { dev (strand (lane [(3, 9)]) (lane [])) with jobs := [{ job5 with st := st }] }
def saved5 : Saved := { job := 5, strands := [strand (lane [(3, 9)]) (lane [])], scratch := 0, banks := [] }
def sSaved : State := sJob (fun j => { j with st := .saved }) fun d => { d with saved := [saved5] }

theorem witness_PreemptionSavesAndRestores : ((sJob id id).now.job? 5 = some job5 ∧ job5.st = .running ∧
    (sJob id id).now.saveRoom 5 = true) ∧
    (∃ j, (sHalt .halting).now.job? 5 = some j ∧ (sHalt .halting).now.saveReady j = true ∧ ((sHalt .halting).now.all.map Strand.id).Nodup ∧
      ∃ st ∈ (sHalt .halting).now.all, st.serves 5 = true) ∧
    ∃ j c, sSaved.now.job? 5 = some j ∧ sSaved.now.saved.find? (fun x => x.job == 5) = some saved5 ∧
        sSaved.now.restoreCore j saved5 = some c ∧
      (∀ w ∈ sSaved.now.eccBad, 8 * w / 2 ^ 96 ≠ 1 + 5) ∧ ∃ z ∈ saved5.strands, z.id ≠ 0 ∧ z.redo = [] := by
  refine ⟨⟨by decide, rfl, ?_⟩, ⟨{ job5 with st := .halting }, by decide, by decide, by decide, by decide⟩,
    ⟨{ job5 with st := .saved }, 0, by decide, rfl, by decide, by decide, _, List.mem_singleton.2 rfl, by decide⟩⟩
  have h : saveBytes ((sJob id id).now.strandsOf 5) = 0 := by decide
  have h2 : (sJob id id).now.saved = [] := rfl
  have h3 : ((sJob id id).now.jobs.filter fun j => j.st == .halting) = [] := by decide
  simp [Dev.saveRoom, h, h2, h3]

/-- Lane 1 holds a trap of matrix handle; the region has a handler. -/
def sHeld (cyc : Nat) (entry : W64) (f : Frag → Frag) : State :=
  rest { dev (fragd (strand (lane []) { lane [] with held := [{ code := 8, word := 9, info := 77 }] }) f) with
    cycle := cyc, sysEntry := entry, jobs := [job5], regions := [{ Region.root with handler := 48, faulttask := 0x1000 }] }

/-- A fragment parked since cycle 3, at user or at system level, and one in a system handler since cycle 0, nested or not. -/
def parked3 (prv : Bool) (f : Frag) : Frag := { f with st := .parked (.cfree 2 5) 3, prv := prv }
def inHandler (nest : Bool) (f : Frag) : Frag := { f with prv := true, sysrec := some sysr, nest := nest }

theorem witness_FaultEvents : (∃ st f h, (sHeld 0 0 id).now.strand? 1 = some st ∧ st.frag 0 = some f ∧ f.st = .ready ∧ f.handler = none ∧
    f.prv = false ∧ f.begun = none ∧
      hasLane f.mask 1 = true ∧ (st.lane 1).held = [h] ∧ h.code ≠ 0x20 ∧ h.code ≠ 0x22 ∧ (Trap.user h.code 0 0).delivery = .user ∧
      (∀ k, k ≠ 1 → hasLane f.mask k = true → (st.lane k).held = []) ∧ ((sHeld 0 0 id).now.regionOf st).handler ≠ 0 ∧
          st.settled (oneLane 1) = true) ∧
    (∀ prv, ∃ st f w, taskStrand (sHeld (2 ^ 34 + 3) 96 (parked3 prv)) 1 st ∧ st.frag 0 = some f ∧ f.st = .parked w 3 ∧
      3 + 2 ^ 34 ≤ (sHeld (2 ^ 34 + 3) 96 (parked3 prv)).now.cycle ∧ w.code = some 16 ∧ f.prv = prv ∧
      (prv = true → takesSystem (sHeld (2 ^ 34 + 3) 96 (parked3 prv)) st f)) ∧
    (∀ nest, ∃ st f r, taskStrand (sHeld (2 ^ 30) 96 (inHandler nest)) 1 st ∧ st.frag 0 = some f ∧ f.sysrec = some r ∧ f.st = .ready ∧
      f.prv = true ∧ r.since + 2 ^ 30 ≤ (sHeld (2 ^ 30) 96 (inHandler nest)).now.cycle ∧
      if nest then f.nest = true else takesSystem (sHeld (2 ^ 30) 96 (inHandler nest)) st f) ∧
    ∃ x, (sHeld 0 0 id).now.region? (sHeld 0 0 id).now.rootRcb = some x ∧ x.faulttask ≠ 0 ∧ x.reports.length < 16 := by
  refine ⟨⟨_, Frag.start 3 24, { code := 8, word := 9, info := 77 }, rfl, rfl, rfl, rfl, rfl, rfl, by decide, by rfl, by decide, by decide,
      by decide, by decide, by decide, by decide⟩, fun prv => ?_, fun nest => ?_,
    ⟨{ Region.root with handler := 48, faulttask := 0x1000 }, by decide⟩⟩
  · cases prv <;> refine ⟨_, _, _, ⟨rfl, rfl, job5, by decide, rfl⟩, rfl, rfl, by decide, by decide, rfl, ?_⟩ <;>
      (unfold takesSystem; decide)
  · cases nest <;> refine ⟨_, _, _, ⟨rfl, rfl, job5, by decide, rfl⟩, rfl, rfl, rfl, rfl, by decide, ?_⟩ <;>
      (unfold takesSystem; decide)


/-! ### Signet homes and the swap engine -/

/-- A request for the home, and descriptor 5 in this state with weight 2^10 of 2^46 returned. -/
def sigq (ask : SigAsk) (lo chk : W64) : SigReq :=
  { id := 3, sid := 1, fid := 7, lane := 1, reg := 8, ask := ask, first := lo, lo := lo, chk := chk, hops := 0, owner := Config.rootRcb, remote := false, read := [], got := [],
    waits := 0 }
def desc5 (st returned : Nat) : Desc := { desc1 with index := 5, st := st, gen := 4, total := 2 ^ 46, returned := returned, record := 0x20000, finEntry := 24, owner := Config.rootRcb }
/-- A creation record of two shards at 0x20000. -/
def sHome (q : SigReq) (x : Desc) : State :=
  rest { dev (strand (lane []) (lane [])) with
    mem := mapped (Mem.write (Mem.write (Mem.write [] 0x20000 [2]) 0x20010 [0, 0, 1, 0, 0, 0, 0, 0, 64]) 0x20020 [0, 0, 2, 0, 0, 0, 0, 0,
        64])
    regions := [Region.root], sigs := [q], descs := [x], seq := 9 }

/-- The signet of descriptor 5 with weight exponent 46, or 45. -/
def lo46 : W64 := 0x02E0000000005000
def lo45 : W64 := 0x02D0000000005000

theorem home_named (q : SigReq) (x : Desc) (hx : x.index = 5) : named (sHome q x) lo46 = x ∧ named (sHome q x) lo45 = x := by
  have h : ∀ n, n = 5 → ([x].find? fun y => y.index == n) = some x := by rintro n rfl; simp [hx]
  constructor <;> simp only [named, Dev.desc, sHome, rest] <;> rw [h _ (by decide)] <;> rfl

theorem walk_congr (d e : Dev) (hm : d.mem = e.mem) (hb : d.eccBad = e.eccBad) (r : Region) (va : Nat) :
    ∀ n level table, d.walkFrom r va n level table = e.walkFrom r va n level table := by
  have he : d.eccHit = e.eccHit := by funext a run; simp only [Dev.eccHit, hb]
  intro n
  induction n with
  | zero => intros; rfl
  | succ n ih => intro level table; simp only [Dev.walkFrom, hm, he, ih]

theorem shards_congr (d e : Dev) (hr : d.regions = e.regions) (hm : d.mem = e.mem) (hb : d.eccBad = e.eccBad) (sp va : Nat) (a : W64) :
    d.shards sp va = e.shards sp va ∧ d.mapped sp a = e.mapped sp a := by
  have hk : d.schedKey = e.schedKey := by
    funext x y z; simp only [Dev.schedKey, Dev.region?, Dev.walk, walk_congr d e hm hb, hr]
  have hn : d.schedNum = e.schedNum := by
    funext x y z; simp only [Dev.schedNum, Dev.num, hk, hm]
  have hz : d.zeroAt = e.zeroAt := by
    funext x y z; simp only [Dev.zeroAt, hn]
  unfold Dev.shards Dev.mapped
  have hp : d.placed = e.placed := by
    funext x y; simp only [Dev.placed, Dev.region?, Dev.walk, walk_congr d e hm hb, hr]
  rw [hn, hz, hp]
  exact ⟨rfl, rfl⟩

theorem home_shards (q : SigReq) (x : Desc) : (sHome q x).now.shards Config.rootRcb 0x20000 = some [0x10000, 0x20000] ∧
    (sHome q x).now.mapped Config.rootRcb 0x10000 = true ∧ (sHome q x).now.mapped Config.rootRcb 0x20000 = true := by
  have h : ∀ a, _ := fun a => shards_congr (sHome q x).now (sHome (sigq .drop 0 0) (desc5 1 0)).now rfl rfl rfl Config.rootRcb 0x20000 a
  rw [(h 0).1, (h 0x10000).2, (h 0x20000).2]
  decide

theorem peerBytes_congr (d e : Dev) (hr : d.regions = e.regions) (hm : d.mem = e.mem) (hb : d.eccBad = e.eccBad) (sp va n : Nat) :
    d.peerBytes sp va n = e.peerBytes sp va n := by
  have hk : d.schedKey = e.schedKey := by
    funext x y z; simp only [Dev.schedKey, Dev.region?, Dev.walk, walk_congr d e hm hb, hr]
  simp only [Dev.peerBytes, hk]

/-- A byte of the record is in device memory. -/
theorem home_byte : ∀ j < 48, ((sHome (sigq .drop 0 0) (desc5 1 0)).now.schedKey Config.rootRcb .read (0x20000 + j)).all (fun x => (peerOf x.1).isNone) := by
  intro j hj
  interval_cases j <;> decide

theorem home_own (va n : Nat) (h1 : 0x20000 ≤ va) (h2 : va + n ≤ 0x20000 + 48) :
    (sHome (sigq .drop 0 0) (desc5 1 0)).now.peerBytes Config.rootRcb va n = [] := by
  unfold Dev.peerBytes
  have h : (List.range n).filterMap (fun i => ((sHome (sigq .drop 0 0) (desc5 1 0)).now.schedKey Config.rootRcb .read ((va + i) % 2 ^ 64)).bind fun x =>
      if (peerOf x.1).isSome then some ({ key := x.1, len := 1 } : Run) else none) = [] := by
    rw [List.filterMap_eq_nil_iff]
    intro i hi
    have hi' := List.mem_range.1 hi
    have hb := home_byte (va + i - 0x20000) (by omega)
    rw [show 0x20000 + (va + i - 0x20000) = (va + i) % 2 ^ 64 by omega] at hb
    revert hb
    match (sHome (sigq .drop 0 0) (desc5 1 0)).now.schedKey Config.rootRcb .read ((va + i) % 2 ^ 64) with
    | none => intro _; rfl
    | some x => intro hb; simp at hb; simp [hb]
  rw [h]; rfl

theorem record_of_deref (d : Dev) (q : SigReq) (n : Nat) (hq : q.ask = .deref n) {sp va : Nat} (h : d.recordOf q = some (sp, va)) :
    sp = (d.desc (sigIndex q.lo)).owner ∧ va = (d.desc (sigIndex q.lo)).record.toNat := by
  unfold Dev.recordOf at h
  rw [hq] at h
  dsimp only at h
  split at h
  · injection h with h; injection h with h1 h2; exact ⟨h1.symm, h2.symm⟩
  · cases h

/-- The record at 0x20000 lies in device memory: no request needs a byte of a peer. -/
theorem home_needs (q : SigReq) (x : Desc) (hg : q.got = []) (hr : ∀ sp va, (sHome q x).now.recordOf q = some (sp, va) → sp = Config.rootRcb ∧ va = 0x20000) :
    (sHome q x).now.recordNeeds q = [] := by
  unfold Dev.recordNeeds
  match h : (sHome q x).now.recordOf q with
  | none => rfl
  | some (sp, va) =>
    obtain ⟨rfl, rfl⟩ := hr sp va h
    have hw : (sHome q x).now.withGot q = (sHome q x).now := by simp [Dev.withGot, hg]
    have hn : ((sHome q x).now.schedNum Config.rootRcb 0x20000 4).getD 0 = 2 := by
      have e : (sHome q x).now.schedNum Config.rootRcb 0x20000 4 = (sHome (sigq .drop 0 0) (desc5 1 0)).now.schedNum Config.rootRcb 0x20000 4 := by
        simp only [Dev.schedNum, Dev.schedKey, Dev.region?, Dev.walk, walk_congr (sHome q x).now (sHome (sigq .drop 0 0) (desc5 1 0)).now rfl rfl]
        rfl
      rw [e]; decide
    have hp : ∀ va n, (sHome q x).now.peerBytes Config.rootRcb va n = (sHome (sigq .drop 0 0) (desc5 1 0)).now.peerBytes Config.rootRcb va n :=
      fun va n => peerBytes_congr _ _ rfl rfl rfl _ _ _
    dsimp only
    rw [hw, hn, hp, hp]
    rw [home_own 0x20000 16 (by omega) (by omega), show (if 2 ≤ 64 then 16 * 2 else 0) = 32 from rfl, home_own (0x20000 + 16) 32 (by omega) (by omega)]
    rfl

/-- The tables also map the second 4 TiB to the peer of a rank. -/
def sPeerRecord (rank : Nat) : State :=
  let s := sHome (sigq .new 0x40000000000 0) (desc5 1 0)
  { s with now := { s.now with mem := Mem.write s.now.mem 0x5F00020008 (lowBytes 8 (rank * 2 ^ 48 + 0xFF)) } }

theorem joinRuns_ne_of_mem (r : Run) (rs : List Run) (h : r ∈ rs) : joinRuns rs ≠ [] := by
  cases rs with
  | nil => cases h
  | cons x xs =>
    unfold joinRuns
    split
    · simp
    · split <;> simp

def peerXlat (rank : Nat) : Xlat :=
  { region := Config.rootRcb, root := Region.root.ptbase, base := 0x40000000000, size := 0x40000000000, leaf := BitVec.ofNat 64 (rank * 2 ^ 48 + 0xFF) }

/-- A walk ends at this translation. -/
def okXlat (o : Except Fail Xlat) (x : Xlat) : Bool :=
  match o with
  | .ok y => decide (y = x)
  | .error _ => false

theorem peer_walk (rank : Nat) (hr : rank = 1 ∨ rank = 2) : (sPeerRecord rank).now.walk Region.root 0x40000000000 = .ok (peerXlat rank) := by
  have h : okXlat ((sPeerRecord rank).now.walk Region.root 0x40000000000) (peerXlat rank) = true := by
    rcases hr with rfl | rfl <;> decide
  revert h
  generalize (sPeerRecord rank).now.walk Region.root 0x40000000000 = o
  intro h
  match o, h with
  | .ok x, h => rw [of_decide_eq_true h]

theorem peer_key (rank : Nat) (hr : rank = 1 ∨ rank = 2) (hne : Config.devid.toNat ≠ rank) :
    (sPeerRecord rank).now.schedKey Config.rootRcb .read 0x40000000000 = some (Key.peer rank 0, (peerXlat rank).leaf) := by
  have hreg : (sPeerRecord rank).now.region? Config.rootRcb = some Region.root := by rfl
  have hx : pteKind (peerXlat rank).leaf = 3 ∧ pteBits (peerXlat rank).leaf 48 12 = rank ∧ pteBits (peerXlat rank).leaf 16 32 = 0 ∧
      va57 0x40000000000 - (peerXlat rank).base = 0 ∧ grants (peerXlat rank).leaf .read = true ∧ canonical 0x40000000000 = true := by
    rcases hr with rfl | rfl <;> decide
  obtain ⟨h1, h2, h3, h4, h5, h6⟩ := hx
  simp only [Dev.schedKey, hreg, peer_walk rank hr, Xlat.key, h1, h2, h3, h4, h5, h6, Bool.not_true, Bool.false_eq_true, if_false, if_true,
    if_neg (Ne.symm hne), Nat.zero_mul, Nat.zero_add]

theorem peer_bytes (rank : Nat) (hr : rank = 1 ∨ rank = 2) (hne : Config.devid.toNat ≠ rank) (n : Nat) :
    (sPeerRecord rank).now.peerBytes Config.rootRcb 0x40000000000 (n + 1) ≠ [] := by
  have hpk : (peerOf (Key.peer rank 0)).isSome = true := by rcases hr with rfl | rfl <;> decide
  have hva : ∀ va, va = 0x40000000000 → ((sPeerRecord rank).now.schedKey Config.rootRcb .read va).bind (fun x =>
      if (peerOf x.1).isSome then some ({ key := x.1, len := 1 } : Run) else none) = some { key := Key.peer rank 0, len := 1 } := by
    rintro va rfl
    rw [peer_key rank hr hne, Option.bind_some, if_pos hpk]
  exact joinRuns_ne_of_mem _ _ (List.mem_filterMap.2 ⟨0, by simp, hva _ (by omega)⟩)

theorem peer_needs (rank : Nat) (hr : rank = 1 ∨ rank = 2) (hne : Config.devid.toNat ≠ rank) :
    (sPeerRecord rank).now.recordNeeds (sigq .new 0x40000000000 0) ≠ [] := by
  have hrec : (sPeerRecord rank).now.recordOf (sigq .new 0x40000000000 0) = some (Config.rootRcb, (0x40000000000 : W64).toNat) := by rfl
  have h0 : (0x40000000000 : W64).toNat = 0x40000000000 := by decide
  unfold Dev.recordNeeds
  rw [hrec, h0]
  dsimp only
  intro h
  have h2 := List.filter_eq_nil_iff.1 h
  obtain ⟨x, hx⟩ := List.exists_mem_of_ne_nil _ (peer_bytes rank hr hne 15)
  exact h2 x (List.mem_append_left _ hx) (by simp [sigq])

/-- A creation record in a peer's memory has to be asked for. -/
theorem witness_SignetAndSwapEvents_record : ∃ rank, stands (sPeerRecord rank) 3 (sigq .new 0x40000000000 0) ∧
    (sigq .new 0x40000000000 0).ask ≠ .drop ∧ (sPeerRecord rank).now.recordNeeds (sigq .new 0x40000000000 0) ≠ [] := by
  by_cases h1 : Config.devid.toNat = 1
  · exact ⟨2, ⟨rfl, rfl, by decide, rfl, rfl⟩, by decide, peer_needs 2 (Or.inr rfl) (by omega)⟩
  · exact ⟨1, ⟨rfl, rfl, by decide, rfl, rfl⟩, by decide, peer_needs 1 (Or.inl rfl) h1⟩

theorem witness_SignetAndSwapEvents_home : ∀ chk, chk = sigCheck lo46 4 → ∀ q, q = sigq (.deref 1) lo46 chk →
    ∀ c45, c45 = sigCheck lo45 4 → ∀ p, p = sigq .drop lo45 c45 →
    (atHome (sHome (sigq .new 0x20000 0) (desc5 1 0)) 3 (sigq .new 0x20000 0) .new ∧ (sigq .new 0x20000 0).owner = Config.rootRcb) ∧
    (atHome (sHome q (desc5 1 0)) 3 q (.deref 1) ∧ checks (named (sHome q (desc5 1 0)) lo46) lo46 chk ∧
        (named (sHome q (desc5 1 0)) lo46).st = 1 ∧
      (named (sHome q (desc5 1 0)) lo46).owner = Config.rootRcb ∧ (named (sHome q (desc5 1 0)) lo46).record = 0x20000 ∧
          ([0x10000, 0x20000] : List W64)[1]? = some 0x20000) ∧
    (atHome (sHome { q with ask := .fin 36 8 } (desc5 1 0)) 3 { q with ask := .fin 36 8 } (.fin 36 8) ∧
        ¬ checks (named (sHome q (desc5 0 0)) lo46) lo46 chk) ∧
    (atHome (sHome p (desc5 1 (2 ^ 45))) 3 p .drop ∧ checks (named (sHome p (desc5 1 (2 ^ 45))) lo45) lo45 c45 ∧ p.sid ≠ 0 ∧
        lo45.toNat / 2 ^ 52 % 2 ^ 6 = 45 ∧
      (named (sHome p (desc5 1 (2 ^ 45))) lo45).returned + 2 ^ 45 = (named (sHome p (desc5 1 (2 ^ 45))) lo45).total ∧
      (named (sHome p (desc5 1 0)) lo45).returned + 2 ^ 45 < (named (sHome p (desc5 1 0)) lo45).total ∧
      checks (named (sHome p (desc5 2 (2 ^ 45))) lo45) lo45 c45 ∧ (named (sHome p (desc5 2 (2 ^ 45))) lo45).st ≠ 1 ∧
          ¬ checks (named (sHome p (desc5 0 0)) lo45) lo45 c45) := by
  intro chk hchk q hq c45 hc p hp
  simp only [(home_named q _ (show (desc5 1 0).index = 5 from rfl)).1, (home_named q _ (show (desc5 0 0).index = 5 from rfl)).1,
    (home_named p _ (show (desc5 1 (2 ^ 45)).index = 5 from rfl)).2, (home_named p _ (show (desc5 1 0).index = 5 from rfl)).2,
    (home_named p _ (show (desc5 2 (2 ^ 45)).index = 5 from rfl)).2, (home_named p _ (show (desc5 0 0).index = 5 from rfl)).2]
  have h1 : ∀ st, (desc5 st (2 ^ 45)).gen = 4 := fun _ => rfl
  have h2 : ∀ st, (desc5 st 0).gen = 4 := fun _ => rfl
  subst hq hp
  have hst : ∀ ask lo chk x, stands (sHome (sigq ask lo chk) x) 3 (sigq ask lo chk) := fun ask lo chk x => ⟨rfl, rfl, show (3 : Nat) ≤ 9 by decide, rfl, rfl⟩
  have hrec : ∀ sp va, (sHome (sigq (.deref 1) lo46 chk) (desc5 1 0)).now.recordOf (sigq (.deref 1) lo46 chk) = some (sp, va) →
      sp = Config.rootRcb ∧ va = 0x20000 := by
    intro sp va h
    obtain ⟨ho, hv⟩ := record_of_deref _ _ 1 rfl h
    have hx : (sHome (sigq (.deref 1) lo46 chk) (desc5 1 0)).now.desc (sigIndex (sigq (.deref 1) lo46 chk).lo) = desc5 1 0 := by
      have h5 : sigIndex lo46 = 5 := by decide
      show (sHome (sigq (.deref 1) lo46 chk) (desc5 1 0)).now.desc (sigIndex lo46) = desc5 1 0
      rw [h5]; rfl
    rw [hx] at ho hv
    exact ⟨ho, hv⟩
  have hnew : ∀ sp va, (sHome (sigq .new 0x20000 0) (desc5 1 0)).now.recordOf (sigq .new 0x20000 0) = some (sp, va) →
      sp = Config.rootRcb ∧ va = 0x20000 := by
    rintro sp va h
    injection h with h; injection h with h1 h2; exact ⟨h1.symm, h2.symm⟩
  refine ⟨⟨⟨hst _ _ _ _, rfl, home_needs _ _ rfl hnew⟩, rfl⟩, ⟨⟨hst _ _ _ _, rfl, home_needs _ _ rfl hrec⟩, ⟨by decide, by rw [h2]; exact hchk⟩, rfl, rfl,
      rfl, rfl⟩,
    ⟨⟨hst (.fin 36 8) _ _ _, rfl, rfl⟩, fun h => h.1 rfl⟩, ⟨⟨hst _ _ _ _, rfl, rfl⟩, ⟨by decide,
        by rw [h1]; exact hc⟩, by simp [sigq], by decide, by decide, by decide,
    ⟨by decide, by rw [h1]; exact hc⟩, by decide, fun h => h.1 rfl⟩⟩

/-- A parure with an ABSENT layer 1 that is asked for, one whose fetch is in flight, and one whose eviction is under way. -/
def swapq1 : SwapReq := { region := Config.rootRcb, layer := 1, demand := true, order := 0 }
def fetch1 : Fetch := { region := Config.rootRcb, layer := 1, num := 1, src := [{ key := 0x40000, len := 64 }], dst := [{ key := 0x50000, len := 64 }], got := [], waits := 0 }
/-- A fetch from expansion memory. -/
def fetch2 : Fetch := { fetch1 with src := [{ key := 2 ^ 64 + 0x40000, len := 64 }] }
def sSwap (d : Dev → Dev) : State := rest (d { Dev.reset with mem := parMem 0 0 0, regions := [parRegion] })

theorem witness_SignetAndSwapEvents_swap : (sSwap fun d => { d with swapq := [swapq1] }).now.nextFetch = some swapq1 ∧
    (sSwap fun d => { d with swapq := [swapq1] }).now.region? Config.rootRcb = some parRegion ∧
    ((sSwap fun d => { d with fetches := [fetch1] }).now.fetch? Config.rootRcb 1 = some fetch1 ∧ fetch1.waits = 0 ∧
      (sSwap fun d => { d with fetches := [fetch1] }).now.eccBad = [] ∧
      (∀ x ∈ fetch1.src, (sSwap fun d => { d with fetches := [fetch1] }).now.runDown x = none ∧ siteOf x.key ≠ 1) ∧
      (parRegion.tl .swap).done + 1 = fetch1.num) ∧
    ((sSwap fun d => { d with fetches := [fetch2] }).now.fetch? Config.rootRcb 1 = some fetch2 ∧ fetch2.waits = 0 ∧
      ∃ x ∈ fetch2.src, siteOf x.key = 1) ∧
    ((Config.rootRcb, 1) ∈ (sSwap fun d => { d with evicts := [(Config.rootRcb, 1)] }).now.evicts ∧
      entryAt (sSwap fun d => { d with evicts := [(Config.rootRcb, 1)] }) parRegion 1 24 1 0x10098) := by
  have hc : (sSwap fun d => { d with swapq := [swapq1] }).now.canFetch swapq1 = true := by
    have h1 : (sSwap fun d => { d with swapq := [swapq1] }).now.region? swapq1.region = some parRegion := by rfl
    have h2 : (decide ((sSwap fun d => { d with swapq := [swapq1] }).now.fetches.length < 16) && parRegion.parure != 0 &&
      (sSwap fun d => { d with swapq := [swapq1] }).now.layerOpen parRegion swapq1.layer) = true := by decide
    have h3 : (sSwap fun d => { d with swapq := [swapq1] }).now.residentBytes + (sSwap fun d => { d with swapq := [swapq1] }).now.layerSize parRegion swapq1.layer = 0 := by decide
    have h4 : ((sSwap fun d => { d with swapq := [swapq1] }).now.layersUnder parRegion swapq1.layer).isEmpty = true := by decide
    simp only [Dev.canFetch, h1, h2, Dev.roomForLayer, h3, h4, Nat.zero_le, decide_true, Bool.and_self]
  refine ⟨?_, by decide, ⟨by rfl, by decide, by decide, by decide, by decide⟩, ⟨by rfl, by decide, by decide⟩, by decide, ⟨by decide, ?_⟩⟩
  · have hq : (sSwap fun d => { d with swapq := [swapq1] }).now.swapq.filter (sSwap fun d => { d with swapq := [swapq1] }).now.canFetch = [swapq1] := by
      rw [show (sSwap fun d => { d with swapq := [swapq1] }).now.swapq = [swapq1] from rfl, List.filter_cons_of_pos hc, List.filter_nil]
    rw [Dev.nextFetch, hq]; rfl
  · exact fun c hc => absurd hc (by simp [sSwap, rest, Dev.reset])

/-! ### Power, bring-up, links, transactions, ports -/

/-- Grants of the whole envelope, a die that was at its limit, a rail change that may complete. -/
theorem witness_GrantEvents : ((List.finRange 4).map fun i => [2000, 2000, 2000, 2000].getD i.val 0).sum ≤ 8000 ∧
    State.reset.now.power.limited[(3 : Fin 4)] = false ∧
    ({ Dev.reset.power with limited := Vector.replicate 4 true } : Power).limited[(0 : Fin 4)] = true := by decide

theorem witness_PowerEvents :
    ((rest { Dev.reset with cores := Dev.reset.cores.set 255 { Core.start with railDue := some true } }).now.core 255).railDue = some true ∧
    (∀ st ∈ State.reset.now.all, st.core = 255 → st.det = false) ∧ State.reset.now.power.floor[(3 : Fin 4)] = false := by decide

def onPort (f : HostSide → HostSide) : State := rest { Dev.reset with host := f Dev.reset.host }
def onBoot (f : Boot → Boot) : State := rest { Dev.reset with boot := f Dev.reset.boot }

/-- The device at a step of bring-up, with these images. -/
def atStep (n : Nat) (x : Image) : Dev := (onBoot fun b => { b with step := n, images := Vector.replicate 4 x }).now

/-- An image without a key is not accepted, at steps 1 and 3; the other steps check none; the manifest names a handler image, or
none. -/
theorem witness_BringUpAndAttestation_rejected : ∀ i, ¬ imageAccepted (atStep 1 { svn := 0, body := [], sig := [], key := [] }) i ∧
    (∀ n ∈ [0, 1, 2, 3, 4, 5, 6, 7], (atStep n { svn := 0, body := [], sig := [], key := [] }).boot.stopped = false ∧
      (atStep n { svn := 0, body := [], sig := [], key := [] }).boot.step = n ∧
      (atStep n { svn := 0, body := [], sig := [], key := [] }).boot.handles = false) ∧
    ∀ (x : Image) (n : Nat), x.body ≠ [] → Config.namesHandler x.body = true → (atStep n x).boot.stopped = false ∧ (atStep n x).boot.step = n ∧
      (atStep n x).boot.handles = true := by
  intro i
  refine ⟨?_, by decide, fun x n hb hn => ⟨rfl, rfl, ?_⟩⟩
  rotate_left
  · have hx : (atStep n x).boot.images[(2 : Fin 4)] = x := by simp [atStep, onBoot, rest]
    simp only [Boot.handles]
    change (!((atStep n x).boot.images[(2 : Fin 4)]).body.isEmpty && Config.namesHandler ((atStep n x).boot.images[(2 : Fin 4)]).body) = true
    rw [hx, hn]
    cases h : x.body with
    | nil => exact absurd h hb
    | cons _ _ => rfl
  rintro ⟨h, -⟩
  simp [atStep, onBoot, rest] at h

theorem svns_reset : ∀ j : Fin 4, Dev.reset.boot.svns[j] = 0 := by decide

/-- An image whose key has the fused digest and whose signature verifies is accepted. -/
theorem witness_BringUpAndAttestation_accepted : ∀ (x : Image) (i : Fin 4), x.svn = 0 → x.key.length = 64 →
    BitVec.ofNat 256 (ofBytes (shake256 x.key 32)) = Config.fusedDigest i.val → x.sig.length = 29792 →
    Config.slhVerify x.key (lowBytes 4 x.svn.toNat ++ x.body) x.sig = true →
    ∀ n, imageAccepted (atStep n x) i ∧ (atStep n x).boot.stopped = false ∧ (atStep n x).boot.step = n := by
  intro x i h0 hk hd hs hv n
  have hx : (atStep n x).boot.images[i] = x := by simp [atStep, onBoot, rest]
  have hm : (atStep n x).boot.svns[i] = 0 := svns_reset i
  refine ⟨?_, rfl, rfl⟩
  simp only [imageAccepted, hx, hm]
  exact ⟨hk, hd, hs, hv, by simp⟩

theorem witness_BringUpAndAttestation : (onPort fun h => { h with sems := h.sems.set 0 2 }).now.host.sems[(0 : Fin 16)] = ownerCode 1 ∧
    State.reset.now.host.sems[(0 : Fin 16)] ≠ ownerCode 0 ∧ State.reset.now.boot.attSt = 0 ∧
        (onBoot fun b => { b with attSt := 1 }).now.boot.attSt = 1 ∧
    (onBoot fun b => { b with attSt := 1 }).now.boot.attTime ≠ some (onBoot fun b => { b with attSt := 1 }).now.cycle ∧
    (onBoot fun b => { b with attSt := 1, attTime := some 0, attPort := 1 }).now.boot.attTime =
      some (onBoot fun b => { b with attSt := 1, attTime := some 0, attPort := 1 }).now.cycle := by decide

def flit0 (kind : BitVec 4) (seq ack : BitVec 24) : Flit :=
  { seq := seq, kind := kind, ack := ack, payload := [1, 2, 3]
    crc := crc64 (flitBody { seq := seq, kind := kind, ack := ack, payload := [1, 2, 3], crc := 0 }) }
def badFlit : Flit := { flit0 0 0 0 with crc := (flit0 0 0 0).crc + 1 }

theorem flit0_sound (k : BitVec 4) (s a : BitVec 24) : soundFlit (flit0 k s a) := by simp only [soundFlit, flit0, flitBody]

/-- A link with two flits to replay, the eighth replay of the first failed. -/
def link2 (fails : Nat) : Link := { Link.start with txSeq := 2, replay := [flit0 0 0 0, flit0 0 1 0], fails := fails }
def sLinks (l : Link) : State := rest { Dev.reset with eweoth := Dev.reset.eweoth.set 31 l }

theorem witness_LinkEvents : (sLinks Link.start).now.eweoth[(31 : Fin 32)] = Link.start ∧ Link.start.up = true ∧
    (flit0 0 0 0).seq = Link.start.rxSeq ∧
    ¬ (soundFlit badFlit ∧ badFlit.seq = Link.start.rxSeq) ∧ ¬ (soundFlit (flit0 0 5 0) ∧ (flit0 0 5 0).seq = Link.start.rxSeq) ∧
    ((link2 8).replay[0]? = some (flit0 0 0 0) ∧ (flit0 0 0 0).seq = (flit0 1 0 0).seq ∧ 8 ≤ (link2 8).fails ∧ (link2 7).fails < 8) ∧
    ((link2 0).replay[1]? = some (flit0 0 1 0) ∧ (flit0 0 1 0).seq = (flit0 2 0 1).ack ∧ ∀ m y, m < 1 → (link2 0).replay[m]? = some y →
        y.seq ≠ (flit0 2 0 1).ack) ∧
    (link2 8).up = true ∧ ¬ soundFlit badFlit ∧ Link.start.down.up = false ∧ (sLinks Link.start.down).now.host.rstBusy = false := by
  have hb : ¬ soundFlit badFlit := by
    intro h
    simp only [soundFlit, badFlit, flit0, flitBody] at h
    generalize crc64 _ = c at h
    have := congrArg (fun x => x - c) h
    simp at this
  refine ⟨rfl, rfl, rfl, fun h => hb h.1, fun h => absurd (show (5 : BitVec 24) = 0 from h.2) (by decide), ⟨rfl, rfl, by decide, by decide⟩,
    ⟨rfl, rfl, ?_⟩, rfl, hb, rfl, rfl⟩
  · intro m y hm hy
    obtain rfl : m = 0 := by omega
    obtain rfl : y = flit0 0 0 0 := by
      have : (link2 0).replay[0]? = some (flit0 0 0 0) := rfl
      rw [this] at hy; exact (Option.some.inj hy).symm
    show ¬ (0 : BitVec 24) = 1
    decide

/-- A transaction of a source for this device, of which two were applied in order. -/
noncomputable def txOf (r : Nat) (seq : BitVec 48) (op : TxOp) : Transaction := { src := r, dst := Config.devid.toNat, seq := seq, op := op }
noncomputable def sIn : State :=
  rest { Dev.reset with inTx := [{ rank := Config.devid.toNat, high := 2, resp := [(1, .done), (0, .done)] }] }

theorem inOf_sIn : sIn.now.inOf Config.devid.toNat = { rank := Config.devid.toNat, high := 2, resp := [(1, .done), (0, .done)] } := by
  simp [sIn, rest, Dev.inOf]

/-- The next one, and one out of order, are new, and the device does not reject them; one was applied before; one that reaches
past device memory is rejected. -/
theorem witness_TransactionEvents_in : (∀ seq ∈ [(2 : BitVec 48), 3], ∀ op, comes sIn (txOf Config.devid.toNat seq op) ∧
      ¬ appliedTx sIn (txOf Config.devid.toNat seq op)) ∧ sIn.now.clasps = [] ∧
    (∀ op, appliedTx sIn (txOf Config.devid.toNat 1 op)) ∧
    (∀ op ∈ [TxOp.write [(0x5FFFFFFFFE, [1, 2])], .read [(0x1000, 8)]], ¬ rejectsTx sIn (txOf Config.devid.toNat 2 op)) ∧
    rejectsTx sIn (txOf Config.devid.toNat 2 (.write [(0x5FFFFFFFFF, [1, 2])])) := by
  refine ⟨fun seq hs op => ⟨⟨rfl, rfl⟩, ?_⟩, rfl, fun op => ?_, fun op ho => ?_, Or.inr ⟨(.write, 0x5FFFFFFFFF, 2), by simp [txOf, txParts], Or.inl (by decide)⟩⟩
  · simp only [List.mem_cons, List.not_mem_nil, or_false] at hs
    rcases hs with rfl | rfl <;> simp [appliedTx, respOf, txOf, inOf_sIn]
  · exact Or.inr ⟨(1, .done), by simp [respOf, txOf, inOf_sIn], rfl⟩
  · rintro (⟨h, -, -⟩ | ⟨x, hx, h⟩)
    · exact h rfl
    · simp only [List.mem_cons, List.not_mem_nil, or_false] at ho
      have he : sIn.now.eccHit x.1 { key := x.2.1, len := x.2.2 } = none := rfl
      rw [he] at h
      rcases ho with rfl | rfl <;>
        (obtain rfl : x = _ := by simpa [txOf, txParts] using hx
         revert h; decide)

def outTx1 (o : TxOwner) : OutTx := { tx := { src := 0, dst := 4095, seq := 6, op := .read [(0x1000, 4)] }, owner := o, tries := 0 }
def take0 : Take := { lane := 0, off := 0, from_ := 0, len := 4 }
/-- A load whose lanes read these bytes outside the device. -/
def ldRemote (far : Nat) : Flight :=
  { ldFlight (.ld 8 .w32) [(0, [0, 0, 0, 0])] with waits := 1, far := [(0, { key := far, len := 4 })] }
/-- Task 5 with a load in flight, one transaction outstanding and a fetch. -/
def sOut (o : TxOwner) (far : Nat) : State :=
  rest { (fly (ldRemote far)).now with jobs := [job5], outTx := [outTx1 o], fetches := [{ fetch1 with waits := 1, src := [{ key := 2 ^ 64, len := 4 }] }] }
/-- Of the load's lane, of a lane's write, of a fetch. -/
def ownLoad : TxOwner := .read 5 1 7 [take0] (Report.sched 0x21 0 0 0 0)
def ownStore : TxOwner := .store 5 1 0 0 (Report.sched 0x21 0 0 0 0)
def ownSwap : TxOwner := .swap Config.rootRcb 1 1

theorem user_sOut (o : TxOwner) (far : Nat) : userStrand (sOut o far) 1 (sOut o far).now.focus := by
  refine ⟨⟨rfl, rfl, job5, rfl, rfl⟩, fun x hx => ?_⟩
  obtain rfl : x = (0, Frag.start 3 24) := by
    have h : (sOut o far).now.focus.live = [(0, Frag.start 3 24)] := by rfl
    rw [h] at hx; simpa using hx
  rfl

theorem witness_TransactionEvents_out : (∀ o ∈ [ownLoad, ownStore, ownSwap], (sOut o (4 * 2 ^ 64)).now.outTx? 4095 (BitVec.ofNat 48 6) = some (outTx1 o) ∧
      (sOut o (4 * 2 ^ 64)).now.heldTx = []) ∧
    (∀ site ∈ [1, 2, 3], ∃ st, userStrand (sOut ownStore (site * 2 ^ 64)) 1 st ∧ st.flight? 7 = some (ldRemote (site * 2 ^ 64)) ∧
      ∃ x ∈ (ldRemote (site * 2 ^ 64)).far, siteOf x.2.key = site) ∧ (∃ y ∈ (ldRemote (4 * 2 ^ 64)).bufs, y.1 = 0) ∧ (ldRemote (4 * 2 ^ 64)).laid = [] ∧
    ((sOut ownSwap (4 * 2 ^ 64)).now.fetch? Config.rootRcb 1 = some { fetch1 with waits := 1, src := [{ key := 2 ^ 64, len := 4 }] } ∧
      ((sOut ownSwap (4 * 2 ^ 64)).now.region? Config.rootRcb).isSome = true) ∧
    (∀ i : Fin 2, (sOut ownSwap (4 * 2 ^ 64)).now.host.portUp[i] = true) ∧
    ∃ r ∈ ({ fetch1 with waits := 1, src := [{ key := 2 ^ 64, len := 4 }] } : Fetch).src, 0 < r.len ∧ 2 ^ 64 ≤ r.key ∧ r.key < 2 * 2 ^ 64 ∧
      Config.cxlPort (r.key - 2 ^ 64) = Config.cxlPort 0 := by
  refine ⟨by decide, fun site hs => ⟨_, user_sOut _ _, rfl, ?_⟩, by decide, rfl, ⟨by rfl, by decide⟩, by decide,
    ⟨_, List.mem_singleton.2 rfl, by decide, by decide, by decide, rfl⟩⟩
  revert site; decide

theorem witness_Bar2Events : bar2Plain State.reset 0x5FFFFFFFF8 8 ∧ (onPort fun h => { h with rstBusy := true }).now.host.rstBusy = true ∧
    (∃ f, bar2Rule (.bar2Cas 1 0x5FFFFFFFF8 true 0 7) = some (1, 0x5FFFFFFFF8, 8, f)) ∧
    (∃ f, bar2Rule (.bar2Fetchadd 0 0x5FFFFFFFFE false 1) = some (0, 0x5FFFFFFFFE, 4, f)) ∧
    State.reset.now.eccBad = [] ∧ State.reset.now.clasps = [] := by
  unfold bar2Plain
  exact ⟨by decide, rfl, ⟨_, rfl⟩, ⟨_, rfl⟩, rfl, rfl⟩

theorem witness_HostPortEvents : State.reset.now.host.sems[(15 : Fin 16)] = 0 ∧
    (onPort fun h => { h with sems := h.sems.set 15 1 }).now.host.sems[(15 : Fin 16)] ≠ 0 ∧
    (onPort fun h => { h with sems := h.sems.set 15 1 }).now.host.semTime[(15 : Fin 16)] ≠
      (onPort fun h => { h with sems := h.sems.set 15 1 }).now.cycle + 1 := by decide

/-! ### The machine as a whole -/

theorem witness_DecodeEncode : encode (.nop hd) = some 0x38000000 ∧ (Instr.nop hd).wellFormed = true ∧
    decodeWord 0x38000000 = .ok (.nop hd) := by
  refine ⟨by decide, by decide, by rfl⟩

/-- An open group with this one word. -/
def sWord (w : W32) : State := { s0 with iss := { Issue.none with active := true, words := [w] } }

theorem witness_StepRunsDecodedWord_open : (sWord 0x38000000).iss.active = true ∧ decodeWord (sWord 0x38000000).word = .ok (.nop hd) ∧
    (∃ t, exec (.nop hd) (sWord 0x38000000) = .next t) ∧ ∃ e, decodeWord (sWord 0xFFFFFFFF).word = .error e :=
  ⟨rfl, by rfl, ⟨_, rfl⟩, ⟨_, by rfl⟩⟩

/-- Reset with IADD g63, g62, g1 where the next group is fetched. -/
noncomputable def start1 : State := State.reset.withFetchWord 32 0x390FFE04

theorem witness_StepRunsDecodedWord_quiet : quiet start1 ∧ (start1.now.chooseIn start1.now.quadsLeft).isSome = true := by
  unfold quiet
  exact ⟨⟨by decide, by decide, Or.inl ⟨by decide, by decide, by decide⟩⟩, by decide⟩

/-- An event is due first. -/
def sDue : State := rest { Dev.reset with agenda := [(0, .thermalLimit 2), (0, .scrubUncorrectable 8)] }

theorem witness_StepRunsDecodedWord_due : sDue.iss.active = false ∧ sDue.now.nextEvent = some (.thermalLimit 2, [(0, .scrubUncorrectable 8)]) ∧
    sDue.now.power.off = false ∧ sDue.now.groupFirst (.thermalLimit 2, [(0, .scrubUncorrectable 8)]) = false := by decide

/-- The decrements that a quadrant's cycle begins with are none here. -/
theorem witness_StepRunsDecodedWord_first : ∃ c q cs x, start1.now.chooseIn start1.now.quadsLeft = some (c, q, cs, x) ∧
    (issuing start1 c q cs x).focus.holdsTrap x.frag = false ∧ x.frag.begun = none ∧ x.frag.aside = none ∧
    (checkGroup (openGroup (issuing start1 c q cs x) x.slot x.frag x.words)).iss.active = true ∧
    decodeWord (checkGroup (openGroup (issuing start1 c q cs x) x.slot x.frag x.words)).word = .ok (.iadd hd 63 62 1) := by
  have h : (match start1.now.chooseIn start1.now.quadsLeft with
      | none => false
      | some (c, q, cs, x) => !(issuing start1 c q cs x).focus.holdsTrap x.frag && x.frag.begun.isNone && x.frag.aside.isNone &&
        (checkGroup (openGroup (issuing start1 c q cs x) x.slot x.frag x.words)).iss.active &&
        decide ((checkGroup (openGroup (issuing start1 c q cs x) x.slot x.frag x.words)).word = 0x390FFE04)) = true := by decide
  revert h
  generalize start1.now.chooseIn start1.now.quadsLeft = o
  intro h
  match o, h with
  | some (c, q, cs, x), h =>
    simp only [Bool.and_eq_true, Bool.not_eq_true', decide_eq_true_eq, Option.isNone_iff_eq_none] at h
    exact ⟨c, q, cs, x, rfl, h.1.1.1.1, h.1.1.1.2, h.1.1.2, h.1.2, by rw [h.2]; rfl⟩

theorem witness_MemoryStaysCanonical : State.reset.memOk ∧ (sWord 0x38000000).memOk ∧ ∃ t, step (sWord 0x38000000) = .next t :=
  ⟨State.reset_memOk, State.reset_memOk, _, rfl⟩

/-- Core power is gone, with and without a power-on to come; bring-up has stopped with nothing to come. -/
def sOff (ev : List (Nat × Instr)) : State := rest { Dev.reset with power := { Dev.reset.power with off := true }, agenda := ev }

theorem witness_ExecNeverStops : ((sOff [(0, .thermalShutdown 1)]).iss.active = false ∧ (sOff [(0, .thermalShutdown 1)]).now.power.off = true ∧
      ∀ x ∈ (sOff [(0, .thermalShutdown 1)]).now.agenda, x.2 ≠ .powerOnReset) ∧
    (¬ ∀ x ∈ (sOff [(7, .powerOnReset)]).now.agenda, x.2 ≠ .powerOnReset) ∧
    (onBoot fun b => { b with stopped := true }).now.boot.stopped = true ∧ (onBoot fun b => { b with stopped := true }).now.nextEvent = none ∧
    (onBoot fun b => { b with stopped := true }).now.agenda = [] := by decide

/-! ### One step each -/

/-- An instruction answers a next state of which this holds. -/
noncomputable def after (i : Instr) (s : State) (p : State → Bool) : Bool :=
  match exec i s with
  | .next t => p t
  | _ => false

/-- The report with which a task ends by a fault. -/
def reportOf (j : Job) : Option Report :=
  match j.st with
  | .ending r false => r
  | _ => none


def sMemBytes : State := { sMem with now := { sMem.now with mem := Mem.write [] 0xFFC [9,8,0,0,5,6] } }
theorem test_mld_row_negative_stride : after (.mldRow hd 1 4 6) (sMemBytes) (fun t =>
    t.now.focus.flights.map (fun f => (f.kind, f.fill, f.waits, f.marks, f.bufs, f.id)) == [(.access, .mld 1 .row, 0, [.m 0 1], [(0,
        [5,6,9,8])], 10)] && (t.now.quad 0 0).accessN == 1) = true := by decide
theorem test_mst_col_last_use : after (.mstCol hd 1 4 6 true) (sMem) (fun t =>
    Mem.read t.now.mem 0xFFC 8 == [2,4,0,0,1,3,0,0] && ((t.lane 0).rm 1).isNone && (t.now.quad 0 0).accessN == 1) = true := by decide
theorem test_mst_sparse_mask_then_values : after (.mstSparse hd 2 4 false) (sMem) (fun t =>
    Mem.read t.now.mem 0x1000 22 == [0xA5,0,0,0,0,0,0,0,0,0,0,0,0,0,0,0,1,2,3,4,0,0]) = true := by decide
theorem test_mmul_identity : after (.mmul hd 3 1 2 4 true true 0) (sMat) (fun t =>
    t.now.focus.flights.map (fun f => (f.id, f.isM, f.lanes, f.kind, f.due)) == [(10, true, 3, .cell true false 13 1, 13)] &&
        ((t.lane 0).rm 1).isNone && ((t.lane 1).rm 2).isNone && ((t.lane 1).rm 4).isSome) = true := by decide
theorem test_macq_takes_the_reserve : after (.macq hd 15 15 15 .w32) ((sPool 31 1 0)) (fun t =>
    (t.now.quad 0 0).free == 0 && (t.now.quad 0 0).reserve == 0 && (t.now.quad 0 0).holder == some 1 &&
        (t.now.quad 0 0).h0 == 0) = true := by decide
theorem test_macq_try_fails : after (.macqTry hd 15 15 15 .w32 6) ((sPool 31 0 0)) (fun t =>
    t.now.focus.flights.map (fun f => (f.kind, f.due, f.writes)) == [(.macqFail, 4, [.p 0 6 false, .p 1 6 false])] &&
        ((t.lane 1).rm 15).isNone) = true := by decide
theorem test_calloc_lowest_run : after (.calloc hd 8 2) ((sBanks false false 62 0)) (fun t =>
    t.now.focus.flights.map (fun f => (f.kind, f.writes)) == [(.access, [.g 0 8 2])] &&
        ((t.now.core 0).banks.map fun r => (r.first, r.n, r.task, r.closing)) == [(0,2,5,false),(2,62,5,false)]) = true := by decide
theorem test_cacc_items_in_order : after (.caccIadd hd 1 4 6 true) (sCacc) (fun t =>
    t.now.focus.flights.map (fun f => (f.kind, f.lanes, f.waits)) == [(.casket .addI 1 [⟨0,0,0x1FFF8,1⟩,⟨0,1,0x1FFFC,2⟩,⟨0,2,0,3⟩,⟨0,3,4,4⟩], 1, 0)] && t.now.focus.fin == [0, 1] || t.now.focus.fin == [1, 0]) = true := by decide
theorem test_arrv_adds : after (.arrv hd 4 2 .dv) (s0) (fun t =>
    Mem.read t.now.mem 0x1000 8 == [7,0,0,0,0,0,0,0] && Mem.read t.now.mem 0x2000 2 == [3,0]) = true := by decide
theorem test_clasp_try_during_release : after (.claspTry hd 4 2) ((sClasp [clasp [rel1]])) (fun t =>
    t.now.focus.flights.map (fun f => (f.kind, f.writes, f.marks)) == [(.memory, [.p 0 2 false], [.p 0 2])]) = true := by decide
theorem test_mwait_reports_its_lane : after (.mwait hd 2 6) ((sWatch (some { line := 0x1000, hit := true }) 9)) (fun t =>
    t.iss == (sWatch none 9).iss && (t.lane 0).rp 6 && !(t.lane 1).rp 6 && (t.lane 0).watch == none) = true := by decide
def sLaunch5 := sJob (fun j => { j with st := .placed, strands := 5, threads := 3, arg := 0x900000007 }) id
theorem test_launch_five_strands : after (.taskLaunch 5) (sLaunch5) (fun t =>
    (t.now.job? 5).map Job.st == some .running &&
   ((t.now.all.filter fun st => st.task == 5).map fun st => (st.strandid, st.quad, st.core, st.region, st.rk 0, st.rk 1,
       (st.frag 0).map fun f => (f.pc, f.mask, f.prv)))
     == [(0, 0), (1, 1), (2, 2), (3, 3), (4, 0)].map (fun x => (x.1, x.2, 0, Config.rootRcb, 7, 9, some (24, 7,
         false)))) = true := by decide
theorem test_tray_launches_its_lanes : after (.trayTimerExpiry Config.rootRcb 15) ((trayed 5)) (fun t =>
    (t.now.all.map fun st => (st.kind, st.core, st.quad, st.region, (st.lane 31).present, (st.lane 31).rpair 0, (st.lane 31).parent,
        (st.frag 0).map fun f => (f.pc, f.pos))) == [(.spawned, 0, 0, Config.rootRcb, true, 7, 5, some (36, 0))]) = true := by decide
theorem test_region_link_clamps : after (.regionLink 0x8000) ((sLink 16)) (fun t =>
    ((t.now.region? 0x8000).any fun r => r.live && r.parent == Config.rootRcb && r.depth == 2 && r.prio == 15 && r.slots == 16384 &&
        r.blocks == 6291456 && r.banks == 16384 && r.scratch == 262144 && r.livetasks == 0 && r.children == 0) && t.now.links.isEmpty &&
        ((t.now.focus.frag 0).any fun f => f.st == .ready && f.pc == 36 && f.pend == none)) = true := by decide
theorem test_region_link_refuses_priority_17 : after (.regionLink 0x8000) ((sLink 17)) (fun t =>
    (t.now.region? 0x8000).isNone && Mem.num t.now.mem (0x8000 + 30) 1 == 3 && ((t.now.focus.frag 0).any fun f => f.st == .ready &&
        f.pc == 36 && f.pend == none)) = true := by decide
theorem test_fault_report_layout : after (.faultReportDequeue Config.rootRcb) (sReport) (fun t =>
    Mem.read t.now.mem 0x20000 64 == [0x22,1,0,0, 3,0,0,0, 0,0,0,0,0,0,0,0, 0,0,0,0,0,0,0,0, 24,0,0,0,0,0,0,0, 9,0,0,0,0,0,0,0,
        0,0,0,0,0,0,0,0, 0,0,0,0,0,0,0,0, 0,0,0,0, 0,0,0,0] && ((t.now.region? Config.rootRcb).map fun r => (r.seq,
        r.reports.length)) == some (1, 0)) = true := by decide
theorem test_watchdog_wait_code : after (.watchdogParkExpiry 1 0) (sHeld (2 ^ 34 + 3) 0 (parked3 false)) (fun t =>
    (((t.now.job? 5).bind reportOf).any fun r => r.code == 0x22 && r.detail == 0x900000000000010 && r.pc == 24)) = true := by decide
theorem test_context_save : after (.contextSave 5) ((sHalt .halting)) (fun t =>
    (t.now.job? 5).map Job.st == some .saved && (t.now.saved.map fun y => (y.job, y.strands.map fun z => (z.id, (z.lane 0).rg 3))) == [(5,
        [(1, 9)])] && (t.now.all.all fun u => u.id != 1)) = true := by decide
theorem test_task_restore : after (.taskRestore 5) (sSaved) (fun t =>
    (t.now.job? 5).map Job.st == some .running && (t.now.job? 5).map Job.core == some 0 && t.now.saved.isEmpty &&
        (t.now.all.map fun u => (u.id, u.core, u.quad, (u.lane 0).rg 3)) == [(1, 0, 0, 9)]) = true := by decide
def clrFlight : Flight :=
  { Flight.blank with id := 7, kind := .casket .readClr 1 [{ lane := 0, n := 0, addr := 8, v := 0 }, { lane := 0, n := 1, addr := 12, v := 0 }], lanes := 1 }
def sCasketWords : State := { sCacc with now := { (sCacc.now.onFocus fun st => { st with flights := [clrFlight] }) with mem := Mem.write [] (Key.casket 0 8) [1, 0, 0, 0, 2] } }
theorem test_second_checksum_mismatch : after (.cellWordPassEnd 1 7) ((sCell (.cell true true 20 4) id false)) (fun t =>
    (t.now.core 0).mchk == 1 && (((t.now.job? 5).bind reportOf).any fun r => r.code == 0x20 && r.lanes == 2 &&
        r.detail == 0x600000000000000)) = true := by decide
theorem test_drain_row_to_memory : after (.drainRowCompletion 3 255) ((sOp (opDrain (.drainMem 0 1 true [{ key := 0x20000, len := 65536 }])))) (fun t =>
    (t.now.ops.all fun o => o.rows.contains 255) && Mem.read t.now.mem (0x20000 + 255 * 256) 5 == [1,0,0,0,1] &&
        Mem.get t.now.mem 0x30000 == 0) = true := by decide
theorem test_cld_clr_old_values : after (.matrixAccessCompletion 1 7) (sCasketWords) (fun t =>
    (((t.now.focus.lane 0).rm 1).any fun h => h.els == [1, 2]) && t.now.mem.isEmpty) = true := by decide
def sLayer2 : State := { sLayer 2 0 2 false with now := { (sLayer 2 0 2 false).now with clasps := [{ clasp [] with name := .layer Config.rootRcb 1 }] } }
/-- The next state of an instruction. -/
noncomputable def next (i : Instr) (s : State) : State :=
  match exec i s with
  | .next t => t
  | _ => s
noncomputable def tLydone := next (.lydone hd 2 4) sLayer2
theorem test_lydone_counts : Mem.read tLydone.now.mem 0x10090 16 = [0,0,0,0,0,0,0,0,2,0,0,0,1,0,0,0] ∧
    tLydone.now.clasps.map Clasp.order = [3] := by decide
theorem test_bar2_read_beyond_the_end : after (.bar2Read 0 0x5FFFFFFFFE 4) (State.reset) (fun t =>
    t.now.host.out == [.data 0 [0,0,0xFF,0xFF]]) = true := by decide
theorem test_bar2_cas : after (.bar2Cas 1 0x5FFFFFFFF8 true 0 7) (State.reset) (fun t =>
    Mem.read t.now.mem 0x5FFFFFFFF8 2 == [7,0] && t.now.host.out == [.data 1 [0,0,0,0,0,0,0,0]]) = true := by decide
theorem test_notify_defined_bits : after (.controlRegisterWrite 0 (0x4000 + 16 * 255) (List.replicate 16 0xFF)) (State.reset) (fun t =>
    (t.now.host.notify[(255:Fin 256)]) == BitVec.ofNat 128 (2^75 - 1 + 2^96 + 7 * 2^104)) = true := by decide
def tUser := ((grp dUser).trap (Trap.user 0x0B 2 7))
def tSystem := ((grp dUser).trap (Trap.user 0x10 2 9))
theorem test_user_handler_entry : ((tUser.now.focus.frag 0).any fun g => g.handler.isSome && g.traplanes == 2 && g.trapcause == 11 &&
    g.trappc == 24 && g.trapinfo == 7 && g.mask == 2 && g.pc == 48 && g.pos == 0 && !g.prv &&
    (g.handler.map fun r => (r.mask, r.full, r.pc, r.pos)) == some (2, 3, 24, 0)) = true := by decide
theorem test_system_handler_entry : ((tSystem.now.focus.frag 0).any fun g => g.sysrec.isSome && g.prv && !g.pprv && g.mask == 2 &&
    g.pc == 96 && g.pos == 0 && g.st == .ready && g.syspc == 24 && g.sysinfo == 9 && g.syscause == (Trap.user 0x10 2 9).cause &&
    (g.sysrec.map fun r => (r.lane, r.full, r.pos, r.regs)) == some (1, 3, 0, List.replicate 8 0)) = true := by decide
theorem test_eret : (((stSys.eret 0).frag 0).any fun g => g.pc == 24 && !g.prv && g.mask == 3 && g.sysrec.isNone && g.pos == 2) = true ∧
    ((stSys.eret 0).lane 0).rg 56 = 9 ∧ ((stSys.eret 0).lane 0).rg 63 = 9 ∧ ((stSys.eret 0).lane 0).rp 6 = true := by decide
theorem test_csrc_syscause : after (.csrc hd 2 .syscause) ((sys2 [(2, 1)] [])) (fun t =>
    (t.fragNow.map Frag.syscause) == some 0) = true := by decide

end Sys2Proof.Tests
end

section
namespace Sys2Proof.Machine

/-! ### What bookkeeping leaves of the device

Three relations, each wider than the one before: writing memory, keeping the books of regions, and the upkeep that
follows a strand's end. Each says which fields may differ; all others are read off with `congrArg`. -/

/-- At most memory may differ, with its errors and what a write tells: watches, clasp logs, the intake's stop. -/
def Dev.onlyMemory (d e : Dev) : Prop :=
  e = { d with focus := e.focus, strands := e.strands, mem := e.mem, eccOne := e.eccOne, eccBad := e.eccBad
               clasps := e.clasps, stall := e.stall, boot := e.boot }

/-- At most memory, regions, host notices and transactions that wait may differ. -/
def Dev.onlyBooks (d e : Dev) : Prop :=
  e = { d with focus := e.focus, strands := e.strands, mem := e.mem, eccOne := e.eccOne, eccBad := e.eccBad
               clasps := e.clasps, stall := e.stall, boot := e.boot
               regions := e.regions, host := e.host, heldTx := e.heldTx }

/-- At most those and the cores, the agenda, the saved contexts and the engine operations may differ: no job does. -/
def Dev.onlyUpkeep (d e : Dev) : Prop :=
  e = { d with focus := e.focus, strands := e.strands, mem := e.mem, eccOne := e.eccOne, eccBad := e.eccBad
               clasps := e.clasps, stall := e.stall, boot := e.boot
               regions := e.regions, host := e.host, heldTx := e.heldTx
               cores := e.cores, agenda := e.agenda, saved := e.saved, ops := e.ops }

theorem Dev.onlyMemory.refl (d : Dev) : d.onlyMemory d := rfl
theorem Dev.onlyBooks.refl (d : Dev) : d.onlyBooks d := rfl
theorem Dev.onlyUpkeep.refl (d : Dev) : d.onlyUpkeep d := rfl

theorem Dev.onlyMemory.trans {d e f : Dev} (h : d.onlyMemory e) (k : e.onlyMemory f) : d.onlyMemory f := by
  unfold Dev.onlyMemory at *; rw [k, h]

theorem Dev.onlyBooks.trans {d e f : Dev} (h : d.onlyBooks e) (k : e.onlyBooks f) : d.onlyBooks f := by
  unfold Dev.onlyBooks at *; rw [k, h]

theorem Dev.onlyUpkeep.trans {d e f : Dev} (h : d.onlyUpkeep e) (k : e.onlyUpkeep f) : d.onlyUpkeep f := by
  unfold Dev.onlyUpkeep at *; rw [k, h]

theorem Dev.onlyMemory.books {d e : Dev} (h : d.onlyMemory e) : d.onlyBooks e := by
  unfold Dev.onlyMemory Dev.onlyBooks at *; rw [h]

theorem Dev.onlyBooks.upkeep {d e : Dev} (h : d.onlyBooks e) : d.onlyUpkeep e := by
  unfold Dev.onlyBooks Dev.onlyUpkeep at *; rw [h]

theorem Dev.onlyMemory.upkeep {d e : Dev} (h : d.onlyMemory e) : d.onlyUpkeep e := h.books.upkeep

theorem Dev.onlyMemory.regions {d e : Dev} (h : d.onlyMemory e) : e.regions = d.regions := (congrArg Dev.regions h :)
theorem Dev.onlyBooks.cores {d e : Dev} (h : d.onlyBooks e) : e.cores = d.cores := (congrArg Dev.cores h :)
theorem Dev.onlyUpkeep.jobs {d e : Dev} (h : d.onlyUpkeep e) : e.jobs = d.jobs := (congrArg Dev.jobs h :)
theorem Dev.onlyUpkeep.cycle {d e : Dev} (h : d.onlyUpkeep e) : e.cycle = d.cycle := (congrArg Dev.cycle h :)
theorem Dev.onlyUpkeep.seq {d e : Dev} (h : d.onlyUpkeep e) : e.seq = d.seq := (congrArg Dev.seq h :)
theorem Dev.onlyUpkeep.sysEntry {d e : Dev} (h : d.onlyUpkeep e) : e.sysEntry = d.sysEntry := (congrArg Dev.sysEntry h :)

theorem Dev.onlyUpkeep.job? {d e : Dev} (h : d.onlyUpkeep e) (tid : Nat) : e.job? tid = d.job? tid := by
  unfold Dev.job?; rw [h.jobs]

/-- Memory work done for each entry of a list is memory work; so with the books and the upkeep. -/
theorem Dev.onlyMemory.foldl {α : Type} {f : Dev → α → Dev} (h : ∀ (d : Dev) x, d.onlyMemory (f d x)) (xs : List α) (d : Dev) :
    d.onlyMemory (xs.foldl f d) := by
  induction xs generalizing d with
  | nil => exact .refl d
  | cons x xs ih => exact (h d x).trans (ih _)

theorem Dev.onlyBooks.foldl {α : Type} {f : Dev → α → Dev} (h : ∀ (d : Dev) x, d.onlyBooks (f d x)) (xs : List α) (d : Dev) :
    d.onlyBooks (xs.foldl f d) := by
  induction xs generalizing d with
  | nil => exact .refl d
  | cons x xs ih => exact (h d x).trans (ih _)

theorem Dev.onlyUpkeep.foldl {α : Type} {f : Dev → α → Dev} (h : ∀ (d : Dev) x, d.onlyUpkeep (f d x)) (xs : List α) (d : Dev) :
    d.onlyUpkeep (xs.foldl f d) := by
  induction xs generalizing d with
  | nil => exact .refl d
  | cons x xs ih => exact (h d x).trans (ih _)

/-- A choice between two pieces of such work is such work. -/
theorem Dev.onlyMemory.ite {d e f : Dev} {c : Prop} [Decidable c] (h : d.onlyMemory e) (k : d.onlyMemory f) :
    d.onlyMemory (if c then e else f) := by split <;> assumption

theorem Dev.onlyBooks.ite {d e f : Dev} {c : Prop} [Decidable c] (h : d.onlyBooks e) (k : d.onlyBooks f) :
    d.onlyBooks (if c then e else f) := by split <;> assumption

theorem Dev.onlyUpkeep.ite {d e f : Dev} {c : Prop} [Decidable c] (h : d.onlyUpkeep e) (k : d.onlyUpkeep f) :
    d.onlyUpkeep (if c then e else f) := by split <;> assumption

/-! ### Memory work -/

theorem Dev.onlyMemory_heal (d : Dev) (k n : Nat) : d.onlyMemory (d.heal k n) := rfl
theorem Dev.onlyMemory_store (d : Dev) (k : Nat) (bs : List Byte) : d.onlyMemory (d.store k bs) := rfl
theorem Dev.onlyMemory_storeNum (d : Dev) (k n v : Nat) : d.onlyMemory (d.storeNum k n v) := rfl
theorem Dev.onlyMemory_logWrite (d : Dev) (p k : Nat) (bs : List Byte) : d.onlyMemory (d.logWrite p k bs) := rfl
theorem Dev.onlyMemory_zeroRange (d : Dev) (lo n : Nat) : d.onlyMemory (d.zeroRange lo n) := rfl
theorem Dev.onlyMemory_clearSave (d : Dev) (tid : Nat) : d.onlyMemory (d.clearSave tid) := rfl
theorem Dev.onlyMemory_onStrand (d : Dev) (sid : Nat) (f : Strand → Strand) : d.onlyMemory (d.onStrand sid f) := rfl
theorem Dev.onlyMemory_onFocus (d : Dev) (f : Strand → Strand) : d.onlyMemory (d.onFocus f) := rfl
theorem Dev.onlyMemory_mapStrands (d : Dev) (f : Strand → Strand) : d.onlyMemory (d.mapStrands f) := rfl
theorem Dev.onlyMemory_countUnc (d : Dev) : d.onlyMemory d.countUnc := rfl

theorem Dev.onlyMemory_noteTail (d : Dev) (k n : Nat) : d.onlyMemory (d.noteTail k n) := by
  unfold Dev.noteTail; split <;> rfl

theorem Dev.onlyMemory_trigger (d : Dev) (k n : Nat) : d.onlyMemory (d.trigger k n) := by
  unfold Dev.trigger
  refine (d.onlyMemory_noteTail k n).trans ?_
  dsimp only; split
  · exact Dev.onlyMemory_mapStrands _ _
  · rfl

theorem Dev.onlyMemory_storeFree (d : Dev) (k : Nat) (bs : List Byte) : d.onlyMemory (d.storeFree k bs) := by
  unfold Dev.storeFree
  refine .foldl (fun d x => ?_) _ d
  exact (d.onlyMemory_store x.1 x.2).trans (Dev.onlyMemory_trigger _ x.1 x.2.length)

theorem Dev.onlyMemory_writeFor (d : Dev) (p k : Nat) (bs : List Byte) : d.onlyMemory (d.writeFor p k bs) := by
  unfold Dev.writeFor
  split
  · exact ((d.onlyMemory_storeFree k bs).trans (Dev.onlyMemory_logWrite _ _ _ _)).trans (Dev.onlyMemory_heal _ _ _)
  · exact (d.onlyMemory_store k bs).trans (Dev.onlyMemory_trigger _ _ _)

theorem Dev.onlyMemory_schedPut (d : Dev) (k n v : Nat) : d.onlyMemory (d.schedPut k n v) := d.onlyMemory_writeFor _ _ _

theorem Dev.onlyMemory_setJobState (d : Dev) (j : Job) (v : Nat) : d.onlyMemory (d.setJobState j v) := by
  unfold Dev.setJobState
  split
  · rfl
  · exact d.onlyMemory_schedPut _ _ _

theorem Dev.onlyMemory_showQueue (d : Dev) (region : Nat) : d.onlyMemory (d.showQueue region) := by
  unfold Dev.showQueue
  split
  · rfl
  · exact d.onlyMemory_writeFor _ _ _

theorem Dev.onlyMemory_correct (d : Dev) (acc : Access) (r : Run) : d.onlyMemory (d.correct acc r) := by
  unfold Dev.correct; split <;> rfl

theorem Dev.onlyMemory_correctWord (d : Dev) (w : Nat) : d.onlyMemory (d.correctWord w) := by
  unfold Dev.correctWord; split <;> rfl

theorem Dev.onlyMemory_correctWalk (d : Dev) (r : Region) (va : Nat) : d.onlyMemory (d.correctWalk r va) := by
  unfold Dev.correctWalk
  split
  · rfl
  · exact Dev.onlyMemory.foldl (fun d x => d.onlyMemory_correct _ x) _ _

theorem Dev.onlyMemory_noteRead (d : Dev) (space va n : Nat) : d.onlyMemory (d.noteRead space va n) := by
  unfold Dev.noteRead
  split
  · rfl
  · refine Dev.onlyMemory.foldl (fun d i => ?_) _ _
    dsimp only
    split
    · rfl
    · split
      · exact d.onlyMemory_correctWalk _ _
      · exact (d.onlyMemory_correctWalk _ _).trans (Dev.onlyMemory_correct _ _ _)

theorem Dev.onlyMemory_noteList (d : Dev) (space va per most : Nat) : d.onlyMemory (d.noteList space va per most) := by
  unfold Dev.noteList
  split
  · rfl
  · exact d.onlyMemory_noteRead _ _ _

theorem Dev.onlyMemory_schedWrite {d e : Dev} {space va : Nat} {bs : List Byte} (h : d.schedWrite space va bs = some e) :
    d.onlyMemory e := by
  obtain ⟨ks, -, rfl⟩ := Option.map_eq_some_iff.mp h
  exact Dev.onlyMemory.foldl (fun d x => d.onlyMemory_writeFor _ _ _) _ _

theorem Dev.onlyMemory_layerPut (d : Dev) (r : Region) (layer off n v : Nat) : d.onlyMemory (d.layerPut r layer off n v) := by
  unfold Dev.layerPut
  cases h : d.schedWrite r.space (r.parure + 64 + 64 * layer + off) (toBytes n v) with
  | none => rfl
  | some e => exact Dev.onlyMemory_schedWrite h

/-! ### The books of regions -/

theorem Dev.onlyBooks_onRegion (d : Dev) (r : Nat) (f : Region → Region) : d.onlyBooks (d.onRegion r f) := rfl

theorem Dev.onlyMemory_writeRcb (d : Dev) (r : Nat) : d.onlyMemory (d.writeRcb r) := by
  unfold Dev.writeRcb
  split
  · rfl
  · refine .trans ?_ (Dev.onlyMemory_trigger _ _ _)
    refine .trans ?_ (Dev.onlyMemory_store _ _ _)
    exact (((((d.onlyMemory_storeNum _ _ _).trans (Dev.onlyMemory_storeNum _ _ _ _)).trans (Dev.onlyMemory_storeNum _ _ _ _)).trans
      (Dev.onlyMemory_storeNum _ _ _ _)).trans (Dev.onlyMemory_storeNum _ _ _ _)).trans (Dev.onlyMemory_storeNum _ _ _ _)

theorem Dev.onlyBooks_updRegion (d : Dev) (r : Nat) (f : Region → Region) : d.onlyBooks (d.updRegion r f) :=
  (d.onlyBooks_onRegion r f).trans (Dev.onlyMemory_writeRcb _ r).books

theorem Dev.onlyBooks_updChain (d : Dev) (r : Nat) (f : Region → Region) : d.onlyBooks (d.updChain r f) :=
  Dev.onlyBooks.foldl (fun d x => d.onlyBooks_updRegion x f) _ _

theorem Dev.onlyBooks_notify (d : Dev) (region ev : Nat) : d.onlyBooks (d.notify region ev) := by
  unfold Dev.notify
  refine .foldl (fun d x => ?_) _ d
  rfl

theorem Dev.onlyBooks_taskOut (d : Dev) (region : Nat) : d.onlyBooks (d.taskOut region) := by
  have hout := d.onlyBooks_updRegion region fun r => { r with livetasks := r.livetasks - 1 }
  exact .ite (hout.trans (Dev.onlyBooks_notify _ _ _)) hout

theorem Dev.onlyBooks_reportEnd (d : Dev) (j : Job) (r : Report) : d.onlyBooks (d.reportEnd j r) := by
  unfold Dev.reportEnd
  split
  · rfl
  · split <;> rfl

theorem Dev.onlyBooks_addShadow (d : Dev) (region base count : Nat) : d.onlyBooks (d.addShadow region base count) := by
  unfold Dev.addShadow
  split
  · rfl
  · split
    · rfl
    · dsimp only
      split
      · rfl
      · split
        · rfl
        · split
          · rfl
          · split
            · exact ((d.onlyMemory_correctWalk _ _).trans ((Dev.onlyMemory_storeNum _ _ _ _).trans (Dev.onlyMemory_trigger _ _ _))).books
            · exact (d.onlyMemory_correctWalk _ _).books.trans rfl

/-! ### Upkeep -/

theorem Dev.onlyUpkeep_onCore (d : Dev) (c : Fin 256) (f : Core → Core) : d.onlyUpkeep (d.onCore c f) := rfl
theorem Dev.onlyUpkeep_onQuad (d : Dev) (c : Fin 256) (q : Fin 4) (f : Quad → Quad) : d.onlyUpkeep (d.onQuad c q f) := rfl
theorem Dev.onlyUpkeep_countMchk (d : Dev) (c : Fin 256) : d.onlyUpkeep (d.countMchk c) := rfl

theorem Dev.onlyUpkeep_settleReserve (d : Dev) (c : Fin 256) (q : Fin 4) : d.onlyUpkeep (d.settleReserve c q) := by
  unfold Dev.settleReserve
  split
  · rfl
  · exact .ite rfl rfl

theorem Dev.onlyUpkeep_returnBlocks (d : Dev) (c : Fin 256) (q : Fin 4) (region n : Nat) :
    d.onlyUpkeep (d.returnBlocks c q region n) := by
  unfold Dev.returnBlocks
  split
  · rfl
  · exact ((d.onlyUpkeep_onQuad c q _).trans (Dev.onlyBooks_updChain _ _ _).upkeep).trans (Dev.onlyUpkeep_settleReserve _ _ _)

theorem Dev.onlyUpkeep_dropBanks (d : Dev) (c : Fin 256) (region first : Nat) : d.onlyUpkeep (d.dropBanks c region first) := by
  unfold Dev.dropBanks
  split
  · rfl
  · exact (d.onlyUpkeep_onCore c _).trans (Dev.onlyBooks_updChain _ _ _).upkeep

theorem Dev.onlyUpkeep_returnGrant (d : Dev) (slot : Fin 4) : d.onlyUpkeep (d.returnGrant slot) := by
  unfold Dev.returnGrant
  split
  · rfl
  · split
    · rfl
    · exact (d.onlyMemory_onFocus _).upkeep.trans (Dev.onlyUpkeep_returnBlocks _ _ _ _ _)

theorem Dev.onlyUpkeep_returnRuns (d : Dev) (slot : Fin 4) : d.onlyUpkeep (d.returnRuns slot) := by
  unfold Dev.returnRuns
  split
  · rfl
  · split
    · rfl
    · exact (d.onlyMemory_onFocus _).upkeep.trans (Dev.onlyUpkeep.foldl (fun d b => d.onlyUpkeep_dropBanks _ _ b) _ _)

theorem Dev.onlyUpkeep_returnGrants (d : Dev) (slot : Fin 4) : d.onlyUpkeep (d.returnGrants slot) :=
  (d.onlyUpkeep_returnGrant slot).trans (Dev.onlyUpkeep_returnRuns _ slot)

theorem Dev.onlyMemory_casketItems (d : Dev) (c : Fin 256) (op : CasOp) (all items : List CasItem) :
    d.onlyMemory (d.casketItems c op all items).1 := by
  induction items generalizing d with
  | nil => rfl
  | cons x xs ih =>
    unfold Dev.casketItems
    dsimp only
    split
    · exact ih d
    · refine .trans ?_ (ih _)
      have hready := Dev.onlyMemory.ite (c := x.whole op all) (d.onlyMemory_heal (Key.casket c x.addr / 8 * 8) 8)
        (d.onlyMemory_correctWord (Key.casket c x.addr / 8))
      exact .ite hready (hready.trans (Dev.onlyMemory_storeNum _ _ _ _))

theorem Dev.onlyMemory_applyCasket (d : Dev) (sid : Nat) (f : Flight) : d.onlyMemory (d.applyCasket sid f) := by
  unfold Dev.applyCasket
  split
  · exact (d.onlyMemory_casketItems _ _ _ _).trans (Dev.onlyMemory_onStrand _ _ _)
  · rfl

theorem Dev.onlyMemory_finishCasket (d : Dev) (st : Strand) : d.onlyMemory (d.finishCasket st) := by
  unfold Dev.finishCasket
  refine .foldl (fun d x => ?_) _ d
  exact d.onlyMemory_applyCasket x.1 x.2

theorem Dev.onlyUpkeep_nextRerun (d : Dev) (core : Fin 256) (quad : Fin 4) : d.onlyUpkeep (d.nextRerun core quad) := by
  unfold Dev.nextRerun
  dsimp only
  split
  · rfl
  · split <;> rfl

/-- A strand that ends takes nothing of any job with it. -/
theorem Dev.onlyUpkeep_endStrand (d : Dev) (sid : Nat) : d.onlyUpkeep (d.endStrand sid) := by
  unfold Dev.endStrand
  split
  · rfl
  · rename_i st _
    refine .trans ?_ ((Dev.onlyUpkeep_returnBlocks _ _ _ _ _).trans (Dev.onlyUpkeep_settleReserve _ _ _))
    have hquad : d.onlyUpkeep (((d.finishCasket st).dropStrand sid).onQuad st.core st.quad fun q =>
        { q with accessN := q.accessN - (st.flights.filter Flight.inQueue).length }) := (d.onlyMemory_finishCasket st).upkeep.trans rfl
    have hrerun (e : Dev) : e.onlyUpkeep (if (e.quad st.core st.quad).cellBusy.isNone then e.nextRerun st.core st.quad else e) := by
      split
      · exact e.onlyUpkeep_nextRerun _ _
      · rfl
    have hslots (e : Dev) : e.onlyUpkeep
        (if st.kind = .launchWalk then e else e.updChain st.region fun r => { r with useSlots := r.useSlots - 1 }) := by
      split
      · rfl
      · exact (e.onlyBooks_updChain _ _).upkeep
    exact (hquad.trans (hrerun _)).trans (hslots _)

theorem Dev.onlyUpkeep_stopStrandFor (d : Dev) (tid : Nat) (st : Strand) : d.onlyUpkeep (d.stopStrandFor tid st) := by
  unfold Dev.stopStrandFor
  split
  · exact d.onlyUpkeep_endStrand _
  · split
    · dsimp only
      split
      · rfl
      · split
        · exact d.onlyUpkeep_endStrand _
        · exact (d.onlyMemory_onStrand _ _).upkeep.trans (Dev.onlyUpkeep_returnBlocks _ _ _ _ _)
    · rfl

/-- What a task's strands leave behind as they stop touches no job. -/
theorem Dev.onlyUpkeep_stopTask (d : Dev) (tid : Nat) : d.onlyUpkeep (d.stopTask tid) :=
  (Dev.onlyUpkeep.foldl (fun d st => d.onlyUpkeep_stopStrandFor tid st) d.all d).trans rfl

theorem Dev.onlyUpkeep_unplace (d : Dev) (j : Job) : d.onlyUpkeep (d.unplace j) := by
  unfold Dev.unplace
  refine .trans (.trans ?_ (Dev.onlyUpkeep_onCore _ _ _)) (Dev.onlyBooks_updChain _ _ _).upkeep
  refine .foldl (fun d st => ?_) _ d
  exact d.onlyUpkeep_endStrand st.id

end Sys2Proof.Machine
end

section
namespace Sys2Proof.Machine

/-! ### Strands under bookkeeping: only watches change -/

/-- Of a strand at most its lanes' watches differ. -/
def Strand.onlyWatches (a b : Strand) : Prop :=
  b = { a with lanes := b.lanes } ∧ ∀ l, b.lane l = { a.lane l with watch := (b.lane l).watch }

theorem Strand.onlyWatches.refl (a : Strand) : a.onlyWatches a := ⟨rfl, fun _ => rfl⟩

theorem Strand.onlyWatches.trans {a b c : Strand} (h : a.onlyWatches b) (k : b.onlyWatches c) : a.onlyWatches c := by
  refine ⟨by rw [k.1, h.1], fun l => ?_⟩
  have hc := k.2 l
  rw [h.2 l] at hc
  exact hc

theorem Strand.onlyWatches.id_eq {a b : Strand} (h : a.onlyWatches b) : b.id = a.id := (congrArg Strand.id h.1 :)
theorem Strand.onlyWatches.kind_eq {a b : Strand} (h : a.onlyWatches b) : b.kind = a.kind := (congrArg Strand.kind h.1 :)
theorem Strand.onlyWatches.task_eq {a b : Strand} (h : a.onlyWatches b) : b.task = a.task := (congrArg Strand.task h.1 :)
theorem Strand.onlyWatches.k_eq {a b : Strand} (h : a.onlyWatches b) : b.k = a.k := (congrArg Strand.k h.1 :)
theorem Strand.onlyWatches.flags_eq {a b : Strand} (h : a.onlyWatches b) : b.flags = a.flags := (congrArg Strand.flags h.1 :)
theorem Strand.onlyWatches.flights_eq {a b : Strand} (h : a.onlyWatches b) : b.flights = a.flights := (congrArg Strand.flights h.1 :)

/-- Every strand of the device keeps all but its watches. -/
def Dev.strandsKept (d e : Dev) : Prop :=
  d.focus.onlyWatches e.focus ∧ List.Forall₂ Strand.onlyWatches d.strands e.strands

theorem Dev.strandsKept.of_eq {d e : Dev} (hf : e.focus = d.focus) (hs : e.strands = d.strands) : d.strandsKept e := by
  rw [Dev.strandsKept, hf, hs]
  exact ⟨.refl _, List.forall₂_same.mpr fun x _ => .refl x⟩

theorem Dev.strandsKept.refl (d : Dev) : d.strandsKept d := .of_eq rfl rfl

theorem Strand.onlyWatches.lists_trans {xs ys zs : List Strand} (h : List.Forall₂ Strand.onlyWatches xs ys)
    (k : List.Forall₂ Strand.onlyWatches ys zs) : List.Forall₂ Strand.onlyWatches xs zs := by
  induction h generalizing zs with
  | nil => cases k; exact .nil
  | cons hab _ ih => cases k with
    | cons hbc htl => exact .cons (hab.trans hbc) (ih htl)

theorem Dev.strandsKept.trans {d e f : Dev} (h : d.strandsKept e) (k : e.strandsKept f) : d.strandsKept f :=
  ⟨h.1.trans k.1, Strand.onlyWatches.lists_trans h.2 k.2⟩

theorem Dev.strandsKept.foldl {α : Type} {f : Dev → α → Dev} (h : ∀ (d : Dev) x, d.strandsKept (f d x)) (xs : List α) (d : Dev) :
    d.strandsKept (xs.foldl f d) := by
  induction xs generalizing d with
  | nil => exact .refl d
  | cons x xs ih => exact (h d x).trans (ih _)

theorem Lane.noteWrite_onlyWatch (x : Lane) (k n : Nat) : x.noteWrite k n = { x with watch := (x.noteWrite k n).watch } := by
  unfold Lane.noteWrite
  split
  · rfl
  · split <;> rfl

theorem Strand.onlyWatches_noteWrite (st : Strand) (k n : Nat) :
    st.onlyWatches { st with lanes := mapV st.lanes fun x => x.noteWrite k n } := by
  refine ⟨rfl, fun l => ?_⟩
  have hl : ({ st with lanes := mapV st.lanes fun x => x.noteWrite k n } : Strand).lane l = (st.lane l).noteWrite k n := by
    simp only [Strand.lane, mapV, Fin.getElem_fin, Vector.getElem_ofFn]
  rw [hl]; exact Lane.noteWrite_onlyWatch _ k n

theorem Dev.strandsKept_mapStrands (d : Dev) (f : Strand → Strand) (h : ∀ st : Strand, st.onlyWatches (f st)) :
    d.strandsKept (d.mapStrands f) := by
  refine ⟨?_, ?_⟩
  · unfold Dev.mapStrands
    dsimp only
    split
    · exact .refl _
    · exact h _
  · exact List.forall₂_map_right_iff.mpr (List.forall₂_same.mpr fun x _ => h x)

/-- What a write tells the device's strands is a hit of a watch [14 R242]. -/
theorem Dev.strandsKept_trigger (d : Dev) (k n : Nat) : d.strandsKept (d.trigger k n) := by
  have htail : d.strandsKept (d.noteTail k n) := by
    unfold Dev.noteTail
    split <;> exact .of_eq rfl rfl
  unfold Dev.trigger
  refine htail.trans ?_
  dsimp only
  split
  · exact Dev.strandsKept_mapStrands _ _ fun st => st.onlyWatches_noteWrite k n
  · exact .refl _

theorem Dev.strandsKept_writeRcb (d : Dev) (r : Nat) : d.strandsKept (d.writeRcb r) := by
  unfold Dev.writeRcb
  split
  · exact .refl _
  · refine .trans ?_ (Dev.strandsKept_trigger _ _ _)
    exact .of_eq (by simp only [Dev.storeNum, Dev.store_focus]) (by simp only [Dev.storeNum, Dev.store_strands])

theorem Dev.strandsKept_updRegion (d : Dev) (r : Nat) (f : Region → Region) : d.strandsKept (d.updRegion r f) :=
  .trans (.of_eq rfl rfl) (Dev.strandsKept_writeRcb _ r)

theorem Dev.strandsKept_updChain (d : Dev) (r : Nat) (f : Region → Region) : d.strandsKept (d.updChain r f) :=
  .foldl (fun d x => d.strandsKept_updRegion x f) _ _

theorem Dev.strandsKept_settleReserve (d : Dev) (c : Fin 256) (q : Fin 4) : d.strandsKept (d.settleReserve c q) := by
  unfold Dev.settleReserve
  split
  · exact .refl _
  · dsimp only
    split
    · split <;> exact .of_eq rfl rfl
    · split <;> exact .of_eq rfl rfl

/-- Blocks that return disturb no strand. -/
theorem Dev.strandsKept_returnBlocks (d : Dev) (c : Fin 256) (q : Fin 4) (region n : Nat) :
    d.strandsKept (d.returnBlocks c q region n) := by
  unfold Dev.returnBlocks
  split
  · exact .refl _
  · refine .trans (.trans ?_ (Dev.strandsKept_updChain _ _ _)) (Dev.strandsKept_settleReserve _ _ _)
    exact .of_eq rfl rfl

theorem Dev.strandsKept_dropBanks (d : Dev) (c : Fin 256) (region first : Nat) : d.strandsKept (d.dropBanks c region first) := by
  unfold Dev.dropBanks
  split
  · exact .refl _
  · refine .trans ?_ (Dev.strandsKept_updChain _ _ _)
    exact .of_eq rfl rfl

/-- A strand that is found is found again, with at most its watches changed. -/
theorem Dev.strandsKept.strand? {d e : Dev} (h : d.strandsKept e) {sid : Nat} {st : Strand} (hs : d.strand? sid = some st) :
    ∃ u, e.strand? sid = some u ∧ st.onlyWatches u := by
  have key (xs ys : List Strand) (hxy : List.Forall₂ Strand.onlyWatches xs ys)
      (hx : (xs.filter fun st => st.id != 0).find? (fun st => st.id == sid) = some st) :
      ∃ u, (ys.filter fun st => st.id != 0).find? (fun st => st.id == sid) = some u ∧ st.onlyWatches u := by
    induction hxy with
    | nil => simp at hx
    | @cons a b xs ys hab _ ih =>
      simp only [List.filter_cons, hab.id_eq] at hx ⊢
      split at hx
      · rename_i hid
        simp only [hid, if_true, List.find?_cons, hab.id_eq] at hx ⊢
        cases hm : a.id == sid with
        | true => simp only [hm, Option.some.injEq] at hx ⊢; exact ⟨b, rfl, hx ▸ hab⟩
        | false => simp only [hm] at hx ⊢; exact ih hx
      · rename_i hid
        simp only [hid]
        exact ih hx
  exact key (d.focus :: d.strands) (e.focus :: e.strands) (.cons h.1 h.2) hs

end Sys2Proof.Machine
end

section
namespace Sys2Proof.Machine

/-! ### Masks, pairs and the level of a word -/

/-- The lowest lane of a mask that holds a lane is a lane of it. -/
theorem hasLane_lowLane {m : W32} (h : ∃ l, hasLane m l = true) : hasLane m (lowLane m) = true := by
  obtain ⟨l, hl⟩ := h
  have hmem : l ∈ lanesOf m := List.mem_filter.mpr ⟨List.mem_finRange l, hl⟩
  cases hm : lanesOf m with
  | nil => simp [hm] at hmem
  | cons x xs =>
    have hx : x ∈ lanesOf m := by simp [hm]
    simpa [lowLane, hm] using (List.mem_filter.mp hx).2

/-- A word that acts executes in its lowest lane. -/
theorem State.runsIn_low {s : State} {h : Hdr} (ha : s.acts h = true) : s.runsIn h (s.low h) :=
  hasLane_lowLane ((s.acts_iff h).mp ha)

/-- A pair is the number of its two registers, the low half in the first [01 R8]. -/
theorem pair_toNat (lo hi : W32) : (pair lo hi).toNat = lo.toNat + 2 ^ 32 * hi.toNat := by
  rw [pair, BitVec.toNat_append, Nat.shiftLeft_eq, Nat.mul_comm, ← Nat.two_pow_add_eq_or_of_lt lo.isLt, Nat.add_comm]

theorem Lane.rpair_eq_asPair (x : Lane) (r : GReg) : x.rpair r = Claims.asPair x r := by
  refine BitVec.eq_of_toNat_eq ?_
  have h := pair_toNat (x.rg r) (x.rg (r.plus 1))
  rw [Lane.rpair, Claims.asPair, BitVec.toNat_ofNat, Claims.zPair, ← h, Nat.mod_eq_of_lt (BitVec.isLt _)]

/-- A privileged word at user level raises 0x03, with the word and its position [01 R11; 02 R28]. -/
theorem State.needSystem_user (s : State) (k : Out) (h : s.sys = false) :
    s.needSystem k = .next (s.trap (Claims.wordFault s 0x03)) := by
  simp only [State.needSystem, h]; rfl

/-- A CSR word that R12 forbids at either level raises illegal encoding [01 R12]. -/
theorem State.csrCheck_illegal (s : State) (d : GReg) (c : Csr) (w : Bool) (k : Out)
    (h : (w = true ∧ c.writable = false) ∨ (c.wide = true ∧ d.val % 2 = 1)) :
    s.csrCheck d c w k = .next (s.trap (Claims.wordFault s 0x01)) := by
  unfold State.csrCheck
  rw [if_pos (by rcases h with ⟨hw, hc⟩ | ⟨hw, hd⟩ <;> simp_all)]
  rfl

/-- A system CSR at user level raises privileged instruction [01 R11, R12]. -/
theorem State.csrCheck_user (s : State) (d : GReg) (c : Csr) (w : Bool) (k : Out) (hu : s.sys = false) (hc : c.system = true)
    (hw : w = true → c.writable = true) (hd : c.wide = true → d.val % 2 = 0) :
    s.csrCheck d c w k = .next (s.trap (Claims.wordFault s 0x03)) := by
  unfold State.csrCheck
  rw [if_neg (by intro h; cases w <;> cases hwide : c.wide <;> simp_all), if_pos hc, s.needSystem_user k hu]

theorem exec_csrw (h : Hdr) (d : GReg) (c : Csr) (s : State) : exec (.csrw h d c) s = csrWrite h d c s fun _ v => v := rfl
theorem exec_csrs (h : Hdr) (d : GReg) (c : Csr) (s : State) : exec (.csrs h d c) s = csrWrite h d c s fun o v => o ||| v := rfl
theorem exec_csrc (h : Hdr) (d : GReg) (c : Csr) (s : State) : exec (.csrc h d c) s = csrWrite h d c s fun o v => o &&& ~~~v := rfl

/-- The three CSR writes are one word, with three ways to combine the old value and the operand [06 R112]. -/
theorem exec_csrRule {i : Instr} {h : Hdr} {d : GReg} {c : Csr} {f : Nat → Nat → Nat}
    (hi : Claims.csrRule i = some (h, d, c, f)) (s : State) : ∃ g, exec i s = csrWrite h d c s g := by
  unfold Claims.csrRule at hi
  split at hi <;> simp only [Option.some.injEq, Prod.mk.injEq, reduceCtorEq] at hi <;> obtain ⟨rfl, rfl, rfl, -⟩ := hi
  · exact ⟨_, exec_csrw _ _ _ s⟩
  · exact ⟨_, exec_csrs _ _ _ s⟩
  · exact ⟨_, exec_csrc _ _ _ s⟩

theorem exec_needsSystem {i : Instr} (hi : Claims.needsSystem i = true) (s : State) : ∃ k, exec i s = s.needSystem k := by
  unfold Claims.needsSystem at hi
  split at hi
  case h_7 => exact absurd hi Bool.false_ne_true
  all_goals exact ⟨_, rfl⟩

/-- Where the privileged words and the CSR words stop [01 R11, R12; 02 R28]. -/
theorem privilegeChecks_hold : Sys2Proof.Claims.privilegeChecks := by
  refine ⟨fun i s hi hu => ?_, fun h d c s hc hu hd => ⟨?_, fun i f hi hw => ?_⟩, fun i f h d c s hi hbad => ?_⟩
  · obtain ⟨k, hk⟩ := exec_needsSystem hi s
    rw [hk, s.needSystem_user k hu]
  · exact s.csrCheck_user d c false _ hu hc (by simp) hd
  · obtain ⟨g, hg⟩ := exec_csrRule hi s
    rw [hg]
    exact s.csrCheck_user d c true _ hu hc (fun _ => hw) hd
  · obtain ⟨g, hg⟩ := exec_csrRule hi s
    rw [hg]
    exact s.csrCheck_illegal d c true _ (hbad.imp_left fun hw => ⟨rfl, hw⟩)

/-! ### The system words at system level -/

theorem execEret_system (h : Hdr) (s : State) (hs : s.sys = true) (ha : s.acts h = true) :
    exec (.eret h) s = orTrap (if s.frag.syspc.toNat % 12 = 0 then none else some (Trap.user 0x05 0 s.frag.syspc)) s (s.setXfer .eret) := by
  change execEret h s = _
  rw [execEret, s.needSystem_system _ hs, if_pos ha]

/-- A rail request changes its core's rail and nothing else [06 R111]. -/
theorem execRailsel_acts (h : Hdr) (rail : Bool) (s : State) (hs : s.sys = true) (ha : s.acts h = true) :
    ∃ t, exec (.railsel h rail) s = .next t ∧ Claims.keepsRegisters s t ∧
      ((t.now.core s.old.core).railsel = rail ∧ (t.now.core s.old.core).railDue = some rail) ∧
      ∀ c, c ≠ s.old.core → t.now.core c = s.now.core c := by
  refine ⟨s.onDev fun d => d.onCore s.old.core fun k => k.setRail rail, ?_, ?_, ?_, fun c hc => ?_⟩
  · change execRailsel h rail s = _
    rw [execRailsel, s.needSystem_system _ hs, if_pos ha]
  · exact ⟨fun k => rfl, rfl, rfl, fun l => ⟨rfl, rfl, rfl⟩⟩
  · rw [State.onDev_now, Dev.core_onCore, if_pos rfl]; exact ⟨rfl, rfl⟩
  · rw [State.onDev_now, Dev.core_onCore, if_neg (Ne.symm hc)]

/-- At system level each system word does what its rule says, and nothing when it does not act [06 R95, R108, R110, R111]. -/
theorem systemWords_act : Sys2Proof.Claims.systemWords := by
  refine fun h s hs => ⟨fun ha hpc => ?_, fun ha hpc => ?_, fun a scope kind ha => ?_, fun rail ha => ?_, fun i hi ha => ?_⟩
  · rw [execEret_system h s hs ha, if_pos hpc]; rfl
  · exact ⟨_, by rw [execEret_system h s hs ha, if_neg hpc]; rfl, rfl, rfl⟩
  · refine ⟨(s.src (s.low h)).rpair a, (s.start.regionOf s.old).ptbase, ?_, s.low h, State.runsIn_low ha, Lane.rpair_eq_asPair _ a⟩
    change execTlbi h a scope kind s = _
    rw [execTlbi, s.needSystem_system _ hs, if_pos ha]; rfl
  · exact execRailsel_acts h rail s hs ha
  · rcases hi with ⟨a, scope, kind, rfl⟩ | rfl | rfl | ⟨rail, rfl⟩
    · change execTlbi h a scope kind s = _
      rw [execTlbi, s.needSystem_system _ hs, ha]; rfl
    · change execEret h s = _
      rw [execEret, s.needSystem_system _ hs, ha]; rfl
    · change execHalt h s = _
      rw [execHalt, s.needSystem_system _ hs, ha]; rfl
    · change execRailsel h rail s = _
      rw [execRailsel, s.needSystem_system _ hs, ha]; rfl

/-! ### HALT -/

theorem Dev.job?_id {d : Dev} {tid : Nat} {j : Job} (h : d.job? tid = some j) : j.id = tid := by
  simpa using List.find?_some h

/-- A job after a change of it that keeps its number. -/
theorem Dev.job?_onJob {d : Dev} {tid : Nat} {j : Job} (h : d.job? tid = some j) (f : Job → Job) (hf : ∀ x, (f x).id = x.id) :
    (d.onJob tid f).job? tid = some (f j) := by
  have hp : ((fun x : Job => x.id == tid) ∘ fun x => if (x.id == tid) = true then f x else x) = fun x => x.id == tid := by
    funext x
    by_cases hx : x.id = tid <;> simp [hx, hf]
  rw [Dev.job?, Dev.onJob_jobs, updWhere, List.find?_map, hp]
  simp [show d.jobs.find? (fun x => x.id == tid) = some j from h, Dev.job?_id h]

/-- A fault that strikes a running task leaves it waiting for its end with that report [21 R328]. -/
theorem Dev.strike_running {d : Dev} {tid : Nat} {j : Job} (region : Nat) (r : Report) (h : d.job? tid = some j)
    (hr : j.st = .running) : ∃ j', (d.strike tid region r).job? tid = some j' ∧
      j'.st = .ending (some { r with task := j.recVa }) false := by
  have hstop : ((d.stopTask tid).dropDecs j.recKey).job? tid = some j := ((d.onlyUpkeep_stopTask tid).job? tid).trans h
  unfold Dev.strike
  simp only [h, hr]
  exact ⟨_, Dev.job?_onJob hstop (fun j' => { j' with st := .ending (some { r with task := j'.recVa }) false, struck := _ })
    fun _ => rfl, rfl⟩

/-- A task's own strand that ends by a fault leaves the task's report [21 R323, R328]. -/
theorem Dev.endByFault_running {d : Dev} {j : Job} (t : Trap) (pc : W64) (hk : d.focus.kind = .task)
    (h : d.job? d.focus.task = some j) (hr : j.st = .running) :
    ∃ j', (d.endByFault t pc).job? d.focus.task = some j' ∧
      j'.st = .ending (some { t.report d.focus pc with task := j.recVa }) false := by
  obtain ⟨j', hj', hst⟩ := Dev.strike_running d.focus.region (t.report d.focus pc) h hr
  refine ⟨j', ?_, hst⟩
  unfold Dev.endByFault Dev.strikeLanes
  simp [Strand.tasksOf, hk, hj']

/-- A fragment after one slot's fragment was changed. -/
theorem Strand.frag_onFrag (st : Strand) (i j : Fin 4) (f : Frag → Frag) :
    (st.onFrag i f).frag j = if i = j then (st.frag i).map f else st.frag j := by
  simp only [Strand.frag, Strand.onFrag, getElem_updV]

/-- What a group's fault goes back to has the strand that the group had, with other registers at most, and its jobs. -/
theorem State.undo_keeps (s : State) : s.undo.focus.frags = s.old.frags ∧ s.undo.focus.kind = s.old.kind ∧
    s.undo.focus.task = s.old.task ∧ s.undo.jobs = s.start.jobs := by
  unfold State.undo
  split <;> refine ⟨?_, ?_, ?_, ?_⟩ <;> simp only [Dev.onFocus_focus, Dev.onFocus_jobs, Strand.withRegs, State.old]

/-- The device that a fault of the open group is delivered to: the group's start, where the group has issued [02 R28]. -/
def State.faulted (s : State) : Dev :=
  (s.undo.onFocus fun st => st.onFrag s.iss.slot Frag.hasIssued).onCore s.undo.focus.core
    fun k => k.addCharge s.undo.cycle s.iss.charge

theorem State.trap_now (s : State) (t : Trap) : (s.trap t).now = s.faulted.deliver s.iss.slot t := rfl

theorem State.faulted_frag {s : State} {f : Frag} (h : s.start.focus.frag s.iss.slot = some f) :
    s.faulted.focus.frag s.iss.slot = some f.hasIssued := by
  have hu : s.undo.focus.frag s.iss.slot = some f := by rw [Strand.frag, s.undo_keeps.1]; exact h
  simp only [State.faulted, Dev.onCore_focus, Dev.onFocus_focus, Strand.frag_onFrag, hu, if_true, Option.map_some]

theorem State.faulted_keeps (s : State) :
    s.faulted.focus.kind = s.old.kind ∧ s.faulted.focus.task = s.old.task ∧ s.faulted.jobs = s.start.jobs := s.undo_keeps.2

/-- Grants that go back leave a strand's kind and task as they are. -/
theorem Dev.returnGrants_focus (d : Dev) (slot : Fin 4) :
    (d.returnGrants slot).focus.kind = d.focus.kind ∧ (d.returnGrants slot).focus.task = d.focus.task := by
  have hgrant : (d.returnGrant slot).focus.kind = d.focus.kind ∧ (d.returnGrant slot).focus.task = d.focus.task := by
    unfold Dev.returnGrant
    split
    · exact ⟨rfl, rfl⟩
    · split
      · exact ⟨rfl, rfl⟩
      · have h := Dev.strandsKept_returnBlocks (d.onFocus fun st => st.onFrag slot fun f => { f with grant := 0 })
          d.focus.core d.focus.quad d.focus.region (Frag.granted ‹_›)
        exact ⟨h.1.kind_eq, h.1.task_eq⟩
  have hruns (e : Dev) : (e.returnRuns slot).focus.kind = e.focus.kind ∧ (e.returnRuns slot).focus.task = e.focus.task := by
    unfold Dev.returnRuns
    split
    · exact ⟨rfl, rfl⟩
    · split
      · exact ⟨rfl, rfl⟩
      · have h := Dev.strandsKept.foldl (fun d b => d.strandsKept_dropBanks e.focus.core e.focus.region b) (Frag.bank ‹_›)
          (e.onFocus fun st => st.onFrag slot fun f => { f with bank := [] })
        exact ⟨h.1.kind_eq, h.1.task_eq⟩
  exact ⟨(hruns _).1.trans hgrant.1, (hruns _).2.trans hgrant.2⟩

/-- A fault with a report's own PC ends the task at once, whatever the level [06 R109; 21 R323]. -/
theorem Dev.deliver_repPc {d : Dev} {slot : Fin 4} {f : Frag} {t : Trap} (hf : d.focus.frag slot = some f)
    (ht : t.repPc.isSome = true) : ∃ lanes, d.deliver slot t = (d.returnGrants slot).endByFault { t with lanes := lanes } f.pc := by
  unfold Dev.deliver Dev.raise Dev.handOver
  simp only [ht, hf, if_true]
  exact ⟨_, rfl⟩

/-- HALT's report, from the system CSRs as they stand [06 R109; 21 R329]. -/
theorem haltEndsTask_holds : Sys2Proof.Claims.haltEndsTask := by
  intro h s j hs ha hfrag hkind hjob hrun
  obtain ⟨hfk, hft, hfj⟩ := s.faulted_keeps
  obtain ⟨hgk, hgt⟩ := s.faulted.returnGrants_focus s.iss.slot
  have hgj : (s.faulted.returnGrants s.iss.slot).job? (s.faulted.returnGrants s.iss.slot).focus.task = some j := by
    rw [(s.faulted.onlyUpkeep_returnGrants _).job?, hgt, hft, Dev.job?, hfj]
    exact hjob
  obtain ⟨lanes, hdel⟩ := Dev.deliver_repPc (t := haltTrap s.frag (s.low h)) (State.faulted_frag hfrag) rfl
  obtain ⟨j', hj', hst⟩ := Dev.endByFault_running { haltTrap s.frag (s.low h) with lanes := lanes } s.frag.hasIssued.pc
    (hgk.trans (hfk.trans hkind)) hgj hrun
  refine ⟨s.trap (haltTrap s.frag (s.low h)), j', _, ?_, ?_, hst, rfl, rfl, rfl, rfl, rfl, rfl⟩
  · change execHalt h s = _
    rw [execHalt, s.needSystem_system _ hs, if_pos ha]
  · rw [State.trap_now, hdel, ← hj', hgt, hft]

end Sys2Proof.Machine

namespace Sys2Proof.Proofs
open Sys2Proof.Machine

/-- Settles O17: the privileged words and system CSRs stop at user level; at system level each word does what its rule says,
and HALT strikes the task with its report. -/
theorem systemWords : Obligations.SystemWords := ⟨privilegeChecks_hold, systemWords_act, haltEndsTask_holds⟩

end Sys2Proof.Proofs
end

section
namespace Sys2Proof.Machine
open Sys2Proof.Claims (writeNames holdsWrite restKept noEntry)

/-! ### One value arrives, and several [01 R8, R16] -/

/-- The lane that a write names, if it names one. -/
def RegWrite.lane? : RegWrite → Option LaneId
  | .g l _ _ | .p l _ _ | .m l _ _ => some l
  | .k _ _ => none

/-- A value that arrives changes lanes and the uniform file only. -/
theorem Strand.arrive_only (st : Strand) (w : RegWrite) :
    st.arrive w = { st with lanes := (st.arrive w).lanes, k := (st.arrive w).k } := by cases w <;> rfl

theorem Strand.arrives_only (st : Strand) (ws : List RegWrite) :
    ws.foldl Strand.arrive st = { st with lanes := (ws.foldl Strand.arrive st).lanes, k := (ws.foldl Strand.arrive st).k } := by
  induction ws generalizing st with
  | nil => rfl
  | cons w ws ih =>
    rw [List.foldl_cons, ih, st.arrive_only w]

/-- A lane that a write does not name is as before. -/
theorem Strand.lane_arrive_other (st : Strand) {w : RegWrite} {l : LaneId} (h : w.lane? ≠ some l) :
    (st.arrive w).lane l = st.lane l := by
  cases w with
  | k r v => rfl
  | g i r v => exact (st.lane_onLane i l _).trans (if_neg fun hi => h (congrArg some hi))
  | p i n v => exact (st.lane_onLane i l _).trans (if_neg fun hi => h (congrArg some hi))
  | m i m v => exact (st.lane_onLane i l _).trans (if_neg fun hi => h (congrArg some hi))

theorem Strand.lane_arrives_other (st : Strand) {ws : List RegWrite} {l : LaneId} (h : ∀ w ∈ ws, w.lane? ≠ some l) :
    (ws.foldl Strand.arrive st).lane l = st.lane l := by
  induction ws generalizing st with
  | nil => rfl
  | cons w ws ih =>
    rw [List.foldl_cons, ih _ fun v hv => h v (List.mem_cons_of_mem w hv), st.lane_arrive_other (h w List.mem_cons_self)]

/-- A lane of a strand after a change in one lane, with the change of another lane left out. -/
theorem Strand.lane_onLane_cases (st : Strand) (i l : LaneId) (f : Lane → Lane) :
    (i = l ∧ (st.onLane i f).lane l = f (st.lane l)) ∨ (i ≠ l ∧ (st.onLane i f).lane l = st.lane l) := by
  by_cases h : i = l
  · exact .inl ⟨h, by rw [st.lane_onLane, if_pos h, h]⟩
  · exact .inr ⟨h, by rw [st.lane_onLane, if_neg h]⟩

/-- A value that arrives is in its place; a write to pt is discarded. -/
theorem Strand.holdsWrite_arrive (st : Strand) (w : RegWrite) : holdsWrite (st.arrive w) w := by
  cases w with
  | g l r v => simp [holdsWrite, Strand.arrive, Strand.lane_onLane]
  | k r v => simp [holdsWrite, Strand.arrive, Strand.rk_wk]
  | p l n v =>
    intro h
    simp [Strand.arrive, Strand.lane_onLane, Lane.rp_wp, h]
  | m l m v => simp [holdsWrite, Strand.arrive, Strand.lane_onLane, Lane.rm_wm]

/-- A value that arrives changes the register that it names and no other. -/
theorem Strand.restKept_arrive (st : Strand) (w : RegWrite) : restKept st (st.arrive w) [w] := by
  refine ⟨fun l r h => ?_, fun l n h => ?_, fun l m h => ?_, fun r h => ?_, ?_⟩
  · cases w with
    | g i q v =>
      rcases st.lane_onLane_cases i l fun x => x.wg q v with ⟨hi, he⟩ | ⟨-, he⟩
      · rw [Strand.arrive, he, Lane.rg_wg, if_neg (fun hq => h (by simp [writeNames, hi, hq]))]
      · rw [Strand.arrive, he]
    | k q v => rfl
    | p i n v => rcases st.lane_onLane_cases i l fun x => x.wp n v with ⟨-, he⟩ | ⟨-, he⟩ <;> simp [Strand.arrive, he]
    | m i m v => rcases st.lane_onLane_cases i l fun x => x.wm m v with ⟨-, he⟩ | ⟨-, he⟩ <;> simp [Strand.arrive, he, Lane.rg]
  · cases w with
    | g i q v => rcases st.lane_onLane_cases i l fun x => x.wg q v with ⟨-, he⟩ | ⟨-, he⟩ <;> simp [Strand.arrive, he]
    | k q v => rfl
    | p i q v =>
      rcases st.lane_onLane_cases i l fun x => x.wp q v with ⟨hi, he⟩ | ⟨-, he⟩
      · rw [Strand.arrive, he, Lane.rp_wp, if_neg (fun hq => h (by simp [writeNames, hi, hq.1]))]
      · rw [Strand.arrive, he]
    | m i m v => rcases st.lane_onLane_cases i l fun x => x.wm m v with ⟨-, he⟩ | ⟨-, he⟩ <;> simp [Strand.arrive, he, Lane.rp]
  · cases w with
    | g i q v => rcases st.lane_onLane_cases i l fun x => x.wg q v with ⟨-, he⟩ | ⟨-, he⟩ <;> simp [Strand.arrive, he]
    | k q v => rfl
    | p i n v => rcases st.lane_onLane_cases i l fun x => x.wp n v with ⟨-, he⟩ | ⟨-, he⟩ <;> simp [Strand.arrive, he]
    | m i q v =>
      rcases st.lane_onLane_cases i l fun x => x.wm q v with ⟨hi, he⟩ | ⟨-, he⟩
      · rw [Strand.arrive, he, Lane.rm_wm, if_neg (fun hq => h (by simp [writeNames, hi, hq]))]
      · rw [Strand.arrive, he]
  · cases w with
    | k q v => rw [Strand.arrive, st.rk_wk, if_neg (fun hq => h (by simp [writeNames, hq]))]
    | g i q v => rfl
    | p i n v => rfl
    | m i m v => rfl
  · rw [st.arrive_only w]

theorem restKept_refl (st : Strand) (ws : List RegWrite) : restKept st st ws :=
  ⟨fun _ _ _ => rfl, fun _ _ _ => rfl, fun _ _ _ => rfl, fun _ _ => rfl, rfl⟩

theorem restKept_trans {a b c : Strand} {xs ys : List RegWrite} (h : restKept a b xs) (k : restKept b c ys) :
    restKept a c (xs ++ ys) := by
  obtain ⟨hg, hp, hm, hk, hf⟩ := h
  obtain ⟨kg, kp, km, kk, kf⟩ := k
  simp only [restKept, List.map_append, List.mem_append, not_or]
  exact ⟨fun l r h => (kg l r h.2).trans (hg l r h.1), fun l n h => (kp l n h.2).trans (hp l n h.1),
    fun l m h => (km l m h.2).trans (hm l m h.1), fun r h => (kk r h.2).trans (hk r h.1), kf.trans hf⟩

/-- Values that arrive one after another change the registers that they name and no others. -/
theorem Strand.restKept_arrives (st : Strand) (ws : List RegWrite) : restKept st (ws.foldl Strand.arrive st) ws := by
  induction ws generalizing st with
  | nil => exact restKept_refl st []
  | cons w ws ih => exact restKept_trans (st.restKept_arrive w) (ih _)

/-- A value stays in place while other registers change. -/
theorem holdsWrite_kept {st u : Strand} {ws : List RegWrite} {v : RegWrite} (h : restKept st u ws)
    (hv : writeNames v ∉ ws.map writeNames) (hs : holdsWrite st v) : holdsWrite u v := by
  obtain ⟨hg, hp, hm, hk, -⟩ := h
  cases v with
  | g l r v => exact (hg l r hv).trans hs
  | k r v => exact (hk r hv).trans hs
  | p l n v => exact fun h7 => (hp l n hv).trans (hs h7)
  | m l m v => exact (hm l m hv).trans hs

/-- Values for different registers all arrive. -/
theorem Strand.holdsWrite_arrives (st : Strand) {ws : List RegWrite} (hn : (ws.map writeNames).Nodup) {w : RegWrite} (hw : w ∈ ws) :
    holdsWrite (ws.foldl Strand.arrive st) w := by
  induction ws generalizing st with
  | nil => simp at hw
  | cons v ws ih =>
    obtain ⟨hv, hn⟩ := List.nodup_cons.mp hn
    rcases List.mem_cons.mp hw with rfl | hw
    · exact holdsWrite_kept (Strand.restKept_arrives _ ws) hv (st.holdsWrite_arrive w)
    · exact ih _ hn hw

/-! ### A change for each entry of a list, lane by lane -/

/-- A lane after a list of changes has had those that name it. -/
theorem Strand.lane_foldl_onLane {α : Type} (i : α → LaneId) (g : α → Lane → Lane) (xs : List α) (st : Strand) (l : LaneId) :
    (xs.foldl (fun st x => st.onLane (i x) (g x)) st).lane l = (xs.filter fun x => i x == l).foldl (fun y x => g x y) (st.lane l) := by
  induction xs generalizing st with
  | nil => rfl
  | cons x xs ih =>
    rw [List.foldl_cons, ih, st.lane_onLane]
    by_cases h : i x = l <;> simp [h]

theorem Strand.foldl_onLane_only {α : Type} (i : α → LaneId) (g : α → Lane → Lane) (xs : List α) (st : Strand) :
    xs.foldl (fun st x => st.onLane (i x) (g x)) st =
      { st with lanes := (xs.foldl (fun st x => st.onLane (i x) (g x)) st).lanes } := by
  induction xs generalizing st with
  | nil => rfl
  | cons x xs ih => rw [List.foldl_cons, ih]; rfl

/-- fpstat bits ORed into a lane one after another. -/
theorem Lane.foldl_fpstat {α : Type} (f : α → W32) (xs : List α) (y : Lane) :
    xs.foldl (fun y x => { y with fpstat := y.fpstat ||| f x }) y = { y with fpstat := xs.foldl (fun b x => b ||| f x) y.fpstat } := by
  induction xs generalizing y with
  | nil => rfl
  | cons x xs ih => rw [List.foldl_cons, ih]; rfl

/-- Exceptions noted in a lane one after another: mxstat gains their bits, and held traps may follow [08 R153, R154]. -/
theorem Lane.foldl_except {α : Type} (f : Flight) (code : α → Nat) (xs : List α) (y : Lane) :
    ∃ held, xs.foldl (fun y x => y.except f (code x)) y =
      { y with mxstat := xs.foldl (fun b x => b ||| if code x = 9 then 2 else 1) y.mxstat, held := held } := by
  induction xs generalizing y with
  | nil => exact ⟨y.held, rfl⟩
  | cons x xs ih =>
    obtain ⟨held, h⟩ := ih (y.except f (code x))
    exact ⟨held, by rw [List.foldl_cons, h]; rfl⟩

/-! ### A result lands -/

/-- The lanes of a strand whose result has landed: its values written, its fpstat bits ORed [01 R16; 03 R53]. -/
theorem Strand.lane_land (st : Strand) (f : Flight) (l : LaneId) :
    (st.land f).lane l = { (f.writes.foldl Strand.arrive st).lane l with
      fpstat := (f.fp.filter fun x => x.1 == l).foldl (fun b x => b ||| x.2) ((f.writes.foldl Strand.arrive st).lane l).fpstat } := by
  refine Eq.trans ?_ (Lane.foldl_fpstat Prod.snd _ _)
  exact Strand.lane_foldl_onLane Prod.fst (fun p x => { x with fpstat := x.fpstat ||| p.2 }) f.fp _ l

/-- A result that lands changes lanes, the uniform file, and what is in flight. -/
theorem Strand.land_only (st : Strand) (f : Flight) :
    st.land f = { st with lanes := (st.land f).lanes, k := (f.writes.foldl Strand.arrive st).k
                          flights := st.flights.filter fun x => x.id != f.id } := by
  have hfp := Strand.foldl_onLane_only Prod.fst (fun (p : LaneId × W32) x => { x with fpstat := x.fpstat ||| p.2 }) f.fp
    (f.writes.foldl Strand.arrive st)
  unfold Strand.land
  dsimp only
  rw [hfp, st.arrives_only f.writes]

theorem Strand.restKept_land (st : Strand) (f : Flight) : restKept st (st.land f) f.writes := by
  obtain ⟨hg, hp, hm, hk, -⟩ := st.restKept_arrives f.writes
  refine ⟨fun l r h => ?_, fun l n h => ?_, fun l m h => ?_, fun r h => ?_, ?_⟩
  · rw [st.lane_land]; exact hg l r h
  · rw [st.lane_land]; exact hp l n h
  · rw [st.lane_land]; exact hm l m h
  · rw [st.land_only]; exact hk r h
  · rw [st.land_only]

theorem Strand.holdsWrite_land (st : Strand) {f : Flight} (hn : (f.writes.map writeNames).Nodup) {w : RegWrite} (hw : w ∈ f.writes) :
    holdsWrite (st.land f) w := by
  have h := st.holdsWrite_arrives hn hw
  cases w with
  | g l r v => rw [holdsWrite, st.lane_land]; exact h
  | k r v => rw [holdsWrite, st.land_only]; exact h
  | p l n v => rw [holdsWrite, st.lane_land]; exact h
  | m l m v => rw [holdsWrite, st.lane_land]; exact h

/-! ### Finding the strand that a result lands in -/

theorem Dev.strand?_id {d : Dev} {sid : Nat} {st : Strand} (h : d.strand? sid = some st) : st.id = sid := by
  simpa using List.find?_some h

theorem Dev.strand?_ne_zero {d : Dev} {sid : Nat} {st : Strand} (h : d.strand? sid = some st) : sid ≠ 0 := by
  have hm := List.mem_of_find?_eq_some h
  rw [Dev.all, List.mem_filter] at hm
  simpa [Dev.strand?_id h] using hm.2

theorem Strand.flight?_id {st : Strand} {fid : Nat} {f : Flight} (h : st.flight? fid = some f) : f.id = fid := by
  simpa using List.find?_some h

theorem Dev.flight?_of {d : Dev} {sid fid : Nat} {st : Strand} (h : d.strand? sid = some st) : d.flight? sid fid = st.flight? fid := by
  rw [Dev.flight?, h]

/-- A change of the strands of one number, in a list of strands that starts with the focus. -/
theorem Dev.strands_onStrand (d : Dev) {sid : Nat} (h0 : sid ≠ 0) (f : Strand → Strand) :
    (d.onStrand sid f).focus :: (d.onStrand sid f).strands =
      (d.focus :: d.strands).map fun st => if st.id == sid then f st else st := by
  simp [Dev.onStrand, updWhere, h0]

/-- A strand is found after it was changed, its number kept. -/
theorem Dev.strand?_onStrand {d : Dev} {sid : Nat} {st : Strand} (h : d.strand? sid = some st) (f : Strand → Strand)
    (hf : ∀ x, (f x).id = x.id) : (d.onStrand sid f).strand? sid = some (f st) := by
  have hid (x : Strand) : (if (x.id == sid) = true then f x else x).id = x.id := by split <;> simp [hf]
  rw [Dev.strand?, Dev.all, d.strands_onStrand (Dev.strand?_ne_zero h) f, List.filter_map, List.find?_map]
  have hfilter : ((fun st : Strand => st.id != 0) ∘ fun x => if (x.id == sid) = true then f x else x) = fun st => st.id != 0 := by
    funext x; simp only [Function.comp, hid]
  have hfind : ((fun st : Strand => st.id == sid) ∘ fun x => if (x.id == sid) = true then f x else x) = fun st => st.id == sid := by
    funext x; simp only [Function.comp, hid]
  rw [hfilter, hfind, show (d.focus :: d.strands).filter (fun st => st.id != 0) = d.all from rfl,
    show d.all.find? (fun st => st.id == sid) = some st from h]
  simp [Dev.strand?_id h]

/-- Two changes of one strand are one change. -/
theorem Dev.onStrand_onStrand (d : Dev) (sid : Nat) (f g : Strand → Strand) (hf : ∀ x, (f x).id = x.id) :
    (d.onStrand sid f).onStrand sid g = d.onStrand sid fun x => g (f x) := by
  have hfocus : (if (d.onStrand sid f).focus.id = sid ∧ sid ≠ 0 then g (d.onStrand sid f).focus else (d.onStrand sid f).focus) =
      if d.focus.id = sid ∧ sid ≠ 0 then g (f d.focus) else d.focus := by
    by_cases h : d.focus.id = sid ∧ sid ≠ 0
    · simp [Dev.onStrand, h, hf]
    · simp only [Dev.onStrand, if_neg h]
  have hstrands : updWhere (fun st => st.id == sid) g (d.onStrand sid f).strands =
      updWhere (fun st => st.id == sid) (fun x => g (f x)) d.strands := by
    simp only [Dev.onStrand, updWhere, List.map_map]
    refine List.map_congr_left fun x _ => ?_
    by_cases h : x.id = sid <;> simp [h, hf]
  unfold Dev.onStrand at *
  rw [hfocus, hstrands]

/-! ### Fragments that wait -/

theorem Strand.mem_live {st : Strand} {x : Fin 4 × Frag} : x ∈ st.live ↔ st.frag x.1 = some x.2 := by
  simp only [Strand.live, List.mem_filterMap, List.mem_finRange, true_and, Option.map_eq_some_iff]
  constructor
  · rintro ⟨i, f, hf, rfl⟩; exact hf
  · exact fun h => ⟨x.1, x.2, h, rfl⟩

/-- A fragment waits to enter a handler [01 R19]. -/
def Frag.entering (f : Frag) : Bool :=
  match f.st with
  | .parked (.entry _) _ => true
  | _ => false

theorem noEntry_iff {st : Strand} : noEntry st ↔ ∀ i f, st.frag i = some f → f.entering = false := by
  constructor
  · intro h i f hf
    have := h (i, f) (Strand.mem_live.mpr hf)
    unfold Frag.entering
    split <;> simp_all
  · intro h x hx
    have := h x.1 x.2 (Strand.mem_live.mp hx)
    unfold Frag.entering at this
    split <;> simp_all

theorem Strand.frag_mapFrags (st : Strand) (f : Frag → Frag) (i : Fin 4) : (st.mapFrags f).frag i = (st.frag i).map f := by
  simp only [Strand.frag, Strand.mapFrags, Fin.getElem_fin, Vector.getElem_ofFn]

/-- A fragment that goes on after its results have settled waits for no handler; any other waits as before [01 R18]. -/
theorem noEntry_wakeSettled {st : Strand} (h : noEntry st) : noEntry st.wakeSettled := by
  rw [noEntry_iff] at h ⊢
  intro i f hf
  rw [Strand.wakeSettled, Strand.frag_mapFrags, Option.map_eq_some_iff] at hf
  obtain ⟨g, hg, rfl⟩ := hf
  have hgs := h i g hg
  split
  · split
    · rfl
    · exact hgs
  · exact hgs

theorem noEntry_of_frags {st u : Strand} (h : noEntry st) (hu : u.frags = st.frags) : noEntry u := by
  rw [noEntry_iff] at h ⊢
  intro i f hf
  exact h i f (by rw [Strand.frag, ← hu]; exact hf)

/-- Where no fragment waits for a handler, the results that arrive only let settled fragments go on [01 R18, R19]. -/
theorem Dev.wakeStrand_noEntry {d : Dev} {sid : Nat} {st : Strand} (hs : d.strand? sid = some st) (h : noEntry st) :
    d.wakeStrand sid = d.onStrand sid Strand.wakeSettled := by
  have hu : (d.onStrand sid Strand.wakeSettled).strand? sid = some st.wakeSettled := Dev.strand?_onStrand hs _ fun _ => rfl
  have hw := noEntry_iff.mp (noEntry_wakeSettled h)
  unfold Dev.wakeStrand
  simp only [hu]
  rw [if_neg]
  rw [List.any_eq_true]
  rintro ⟨x, hx, hx'⟩
  have hxe := hw x.1 x.2 (Strand.mem_live.mp hx)
  unfold Frag.entering at hxe
  split at hxe <;> simp_all

/-- A result of a strand without such a fragment lands, and settled fragments go on [01 R16, R18]. -/
theorem Dev.landFlight_noEntry {d : Dev} {sid : Nat} {st : Strand} (hs : d.strand? sid = some st) (h : noEntry st) (f : Flight) :
    d.landFlight sid f = d.onStrand sid fun x => (x.land f).wakeSettled := by
  have hid (x : Strand) : (x.land f).id = x.id := by rw [x.land_only f]
  have hfrags : (st.land f).frags = st.frags := by rw [st.land_only f]
  rw [Dev.landFlight, Dev.wakeStrand_noEntry (Dev.strand?_onStrand hs _ hid) (noEntry_of_frags h hfrags), d.onStrand_onStrand sid _ _ hid]

/-- The strand that such a result has landed in. -/
theorem Dev.strand?_landFlight {d : Dev} {sid : Nat} {st : Strand} (hs : d.strand? sid = some st) (h : noEntry st) (f : Flight) :
    (d.landFlight sid f).strand? sid = some (st.land f).wakeSettled := by
  rw [Dev.landFlight_noEntry hs h]
  exact Dev.strand?_onStrand hs _ fun x => by rw [Strand.wakeSettled, x.land_only f]; rfl

/-- No flight of the landed number is left. -/
theorem Strand.land_flight_gone (st : Strand) (f : Flight) : ∀ g ∈ (st.land f).wakeSettled.flights, g.id ≠ f.id := by
  intro g hg
  rw [show (st.land f).wakeSettled.flights = (st.land f).flights from rfl, st.land_only f] at hg
  simpa using (List.mem_filter.mp hg).2

end Sys2Proof.Machine
end

section
namespace Sys2Proof.Machine
open Sys2Proof.Claims (writeNames holdsWrite restKept noEntry zPair zQuad loadDelivers)

/-! ### Bytes and the numbers that they stand for [06 R114] -/

theorem ofBytes_append (as bs : List Byte) : ofBytes (as ++ bs) = ofBytes as + 256 ^ as.length * ofBytes bs := by
  induction as with
  | nil => simp [ofBytes]
  | cons a as ih => simp only [List.cons_append, ofBytes, ih, List.length_cons, Nat.pow_succ]; ring

theorem ofBytes_lt (bs : List Byte) : ofBytes bs < 256 ^ bs.length := by
  induction bs with
  | nil => simp [ofBytes]
  | cons b bs ih => simp only [ofBytes, List.length_cons, Nat.pow_succ]; have := b.isLt; omega

theorem ofBytes_lt_of_length {bs : List Byte} {n : Nat} (h : bs.length = n) : ofBytes bs < 256 ^ n := h ▸ ofBytes_lt bs

/-- Bytes from a position on are the first four of them and the rest. -/
theorem ofBytes_drop_split (bs : List Byte) {n : Nat} (h : n + 4 ≤ bs.length) :
    ofBytes (bs.drop n) = ofBytes ((bs.drop n).take 4) + 2 ^ 32 * ofBytes (bs.drop (n + 4)) := by
  conv_lhs => rw [← List.take_append_drop 4 (bs.drop n), ofBytes_append, List.drop_drop]
  rw [List.length_take, List.length_drop, Nat.min_eq_left (by omega)]; norm_num

/-- The 32-bit word at a position of a value's bytes. -/
def wordOf (bs : List Byte) (i : Nat) : W32 := BitVec.ofNat 32 (ofBytes ((bs.drop (4 * i)).take 4))

theorem toNat_wordOf (bs : List Byte) (i : Nat) : (wordOf bs i).toNat = ofBytes ((bs.drop (4 * i)).take 4) := by
  have hlen : ((bs.drop (4 * i)).take 4).length ≤ 4 := by simp
  have := ofBytes_lt ((bs.drop (4 * i)).take 4)
  have := Nat.pow_le_pow_right (n := 256) (by omega) hlen
  rw [wordOf, BitVec.toNat_ofNat, Nat.mod_eq_of_lt (by omega)]

/-- A value of at most four bytes is its first word. -/
theorem wordOf_zero {bs : List Byte} (h : bs.length ≤ 4) : (wordOf bs 0).toNat = ofBytes bs := by
  rw [toNat_wordOf, Nat.mul_zero, List.drop_zero, List.take_of_length_le h]

theorem wordOf_pair {bs : List Byte} (h : bs.length = 8) : (wordOf bs 0).toNat + 2 ^ 32 * (wordOf bs 1).toNat = ofBytes bs := by
  have h0 := ofBytes_drop_split bs (n := 0) (by omega)
  rw [List.drop_zero] at h0
  rw [toNat_wordOf, toNat_wordOf, List.take_of_length_le (l := bs.drop (4 * 1)) (by simp [h]), h0]
  rfl

theorem wordOf_quad {bs : List Byte} (h : bs.length = 16) :
    (wordOf bs 0).toNat + 2 ^ 32 * (wordOf bs 1).toNat + 2 ^ 64 * ((wordOf bs 2).toNat + 2 ^ 32 * (wordOf bs 3).toNat) = ofBytes bs := by
  have h0 := ofBytes_drop_split bs (n := 0) (by omega)
  have h4 := ofBytes_drop_split bs (n := 4) (by omega)
  have h8 := ofBytes_drop_split bs (n := 8) (by omega)
  rw [List.drop_zero] at h0
  simp only [toNat_wordOf]
  rw [List.take_of_length_le (l := bs.drop (4 * 3)) (by simp [h])]
  simp only [Nat.mul_zero, Nat.mul_one, List.drop_zero, Nat.reduceMul, Nat.reduceAdd] at h0 h4 h8 ⊢
  omega

/-! ### Registers of a pair and of a quad [01 R9] -/

theorem GReg.plus_zero (r : GReg) : r.plus 0 = r := by simp [GReg.plus]

theorem GReg.plus_plus (r : GReg) (m n : Nat) : (r.plus m).plus n = r.plus (m + n) := by
  simp only [GReg.plus, Fin.ext_iff, Fin.val_ofNat]; omega

theorem GReg.plus_inj {r : GReg} {m n : Nat} (hm : m < 64) (hn : n < 64) (h : r.plus m = r.plus n) : m = n := by
  simp only [GReg.plus, Fin.ext_iff, Fin.val_ofNat] at h; omega

/-- The registers of a lane from one on hold the words of a value. -/
def Lane.holdsWords (x : Lane) (d : GReg) (n : Nat) (bs : List Byte) : Prop := ∀ i < n, x.rg (d.plus i) = wordOf bs i

theorem Lane.holdsWords.reg {x : Lane} {d : GReg} {bs : List Byte} (h : x.holdsWords d 1 bs) (hl : bs.length ≤ 4) :
    (x.rg d).toNat = ofBytes bs := by
  rw [← wordOf_zero hl, ← h 0 (by omega), GReg.plus_zero]

theorem Lane.holdsWords.pair {x : Lane} {d : GReg} {bs : List Byte} (h : x.holdsWords d 2 bs) (hl : bs.length = 8) :
    zPair x d = ofBytes bs := by
  rw [← wordOf_pair hl, ← h 0 (by omega), ← h 1 (by omega), GReg.plus_zero, zPair]

theorem Lane.holdsWords.quad {x : Lane} {d : GReg} {bs : List Byte} (h : x.holdsWords d 4 bs) (hl : bs.length = 16) :
    zQuad x d = ofBytes bs := by
  rw [← wordOf_quad hl, ← h 0 (by omega), ← h 1 (by omega), ← h 2 (by omega), ← h 3 (by omega), GReg.plus_zero, zQuad, zPair, zPair,
    GReg.plus_plus]

/-! ### The writes of a lane's bytes [06 R114; 14 R232] -/

theorem mem_regWrites {l : LaneId} {d : GReg} {n : Nat} {bs : List Byte} {i : Nat} (h : i < n) :
    .g l (d.plus i) (wordOf bs i) ∈ regWrites l d n bs := List.mem_map.mpr ⟨i, List.mem_range.mpr h, rfl⟩

theorem names_regWrites (l : LaneId) (d : GReg) (n : Nat) (bs : List Byte) :
    (regWrites l d n bs).map writeNames = (List.range n).map fun i => .g l (d.plus i) := by
  simp only [regWrites, List.map_map]; rfl

theorem nodup_names_regWrites (l : LaneId) (d : GReg) {n : Nat} (h : n ≤ 4) (bs : List Byte) :
    ((regWrites l d n bs).map writeNames).Nodup := by
  rw [names_regWrites]
  refine List.nodup_range.map_on fun i hi j hj he => ?_
  rw [List.mem_range] at hi hj
  exact GReg.plus_inj (r := d) (by omega) (by omega) (Dest.g.inj he).2

/-- The lane that a destination is in, if it is in one. -/
def laneOfDest : Dest → Option LaneId
  | .g l _ | .p l _ | .m l _ => some l
  | .k _ => none

theorem laneOfDest_names (w : RegWrite) : laneOfDest (writeNames w) = w.lane? := by cases w <;> rfl

theorem lane_regWrites {l : LaneId} {d : GReg} {n : Nat} {bs : List Byte} {w : RegWrite} (h : w ∈ regWrites l d n bs) :
    w.lane? = some l := by
  obtain ⟨i, -, rfl⟩ := List.mem_map.mp h
  rfl

/-- A lane's bytes become writes of that lane, KLD's aside. -/
theorem Fill.lane_writes {f : Fill} (hf : f.uniform = false) {l : LaneId} {bs : List Byte} {w : RegWrite} (h : w ∈ f.writes l bs) :
    w.lane? = some l := by
  cases f with
  | none => simp [Fill.writes] at h
  | ld d sz =>
    cases sz with
    | s8 => rw [List.mem_singleton.mp h]; rfl
    | s16 => rw [List.mem_singleton.mp h]; rfl
    | z8 => exact lane_regWrites h
    | z16 => exact lane_regWrites h
    | w32 => exact lane_regWrites h
    | w64 => exact lane_regWrites h
    | w128 => exact lane_regWrites h
  | old d wide => exact lane_regWrites h
  | kld k => simp [Fill.uniform] at hf
  | mld m e => simp [Fill.writes] at h
  | hld x => exact lane_regWrites h
  | hst x =>
    rw [Fill.writes] at h
    split at h
    · exact lane_regWrites h
    · simp at h

/-- The writes of one lane name different registers. -/
theorem Fill.nodup_writes (f : Fill) (l : LaneId) (bs : List Byte) : ((f.writes l bs).map writeNames).Nodup := by
  cases f with
  | none => exact List.nodup_nil
  | ld d sz =>
    cases sz with
    | s8 => exact List.nodup_singleton _
    | s16 => exact List.nodup_singleton _
    | z8 => exact nodup_names_regWrites l d (by omega) bs
    | z16 => exact nodup_names_regWrites l d (by omega) bs
    | w32 => exact nodup_names_regWrites l d (by omega) bs
    | w64 => exact nodup_names_regWrites l d (by omega) bs
    | w128 => exact nodup_names_regWrites l d (by omega) bs
  | old d wide => exact nodup_names_regWrites l d (by split <;> omega) bs
  | kld k => exact List.nodup_singleton _
  | mld m e => exact List.nodup_nil
  | hld x => exact nodup_names_regWrites l x (by omega) bs
  | hst x =>
    rw [Fill.writes]
    split
    · exact nodup_names_regWrites l x (by omega) _
    · exact List.nodup_nil

/-- The writes of all lanes' bytes. -/
def Fill.allWrites (f : Fill) (bufs : List (LaneId × List Byte)) : List RegWrite := bufs.flatMap fun x => f.writes x.1 x.2

theorem Fill.mem_allWrites {f : Fill} {bufs : List (LaneId × List Byte)} {x : LaneId × List Byte} (hx : x ∈ bufs) {w : RegWrite}
    (hw : w ∈ f.writes x.1 x.2) : w ∈ f.allWrites bufs := List.mem_flatMap.mpr ⟨x, hx, hw⟩

/-- The writes of different lanes' bytes name different registers. -/
theorem Fill.nodup_allWrites {f : Fill} (hf : f.uniform = false) {bufs : List (LaneId × List Byte)} (hn : (bufs.map Prod.fst).Nodup) :
    ((f.allWrites bufs).map writeNames).Nodup := by
  rw [Fill.allWrites, List.map_flatMap, List.nodup_flatMap]
  refine ⟨fun x _ => f.nodup_writes x.1 x.2, (List.pairwise_map.mp hn).imp fun {x y} hxy => ?_⟩
  rw [Function.onFun, List.disjoint_left]
  rintro _ hx hy
  obtain ⟨v, hv, rfl⟩ := List.mem_map.mp hx
  obtain ⟨w, hw, he⟩ := List.mem_map.mp hy
  refine hxy (Option.some.inj ?_)
  rw [← Fill.lane_writes hf hv, ← Fill.lane_writes hf hw, ← laneOfDest_names, ← laneOfDest_names, he]

/-! ### A memory result arrives [01 R16] -/

theorem noEntry_of_all {st : Strand} (h : (st.live.all fun x => match x.2.st with
    | .parked (.entry _) _ => false
    | _ => true) = true) : noEntry st := by
  intro x hx
  have hx' := List.all_eq_true.mp h x hx
  split <;> simp_all

/-- The flight of a memory result, its bytes turned into writes. -/
def Flight.filled (f : Flight) : Flight := { f with writes := f.writes ++ f.fill.allWrites f.bufs }

theorem exec_memoryResultArrival {s : State} {sid fid : Nat} {st : Strand} {f : Flight} (hs : s.now.strand? sid = some st)
    (hf : st.flight? fid = some f) (hk : f.kind = .memory) (hw : f.waits = 0) :
    exec (.memoryResultArrival sid fid) s = .next { s with now := s.now.landFlight sid f.filled } := by
  have hd : s.now.flight? sid fid = some f := (Dev.flight?_of hs).trans hf
  rw [show exec (.memoryResultArrival sid fid) s = execMemoryResultArrival sid fid s from rfl]
  simp only [execMemoryResultArrival, State.event, State.onDev, hd, hk, hw, and_self, if_true]
  rfl

@[simp] theorem Strand.lane_wakeSettled (st : Strand) (l : LaneId) : st.wakeSettled.lane l = st.lane l := rfl

/-- The registers of a lane hold what its bytes become. -/
theorem holdsWords_of_holdsWrite {u : Strand} {l : LaneId} {d : GReg} {n : Nat} {bs : List Byte}
    (h : ∀ w ∈ regWrites l d n bs, holdsWrite u w) : (u.lane l).holdsWords d n bs := fun _ hi => h _ (mem_regWrites hi)

/-- A load's register holds its bytes, extended as the size says [06 R114]. -/
theorem loadDelivers_of_holdsWrite {u : Strand} {l : LaneId} {d : GReg} {sz : AccSz} {bs : List Byte} (hl : bs.length = szBytes sz)
    (h : ∀ w ∈ (Fill.ld d sz).writes l bs, holdsWrite u w) : loadDelivers (u.lane l) d sz bs := by
  have hlt := ofBytes_lt_of_length hl
  cases sz with
  | s8 =>
    have hr : (u.lane l).rg d = (BitVec.ofNat 8 (ofBytes bs)).signExtend 32 := h _ List.mem_cons_self
    simp only [szBytes] at hlt
    rw [loadDelivers, hr, BitVec.toInt_signExtend_of_le (by omega), BitVec.toInt_eq_toNat_cond, BitVec.toNat_ofNat]
    split <;> split <;> omega
  | s16 =>
    have hr : (u.lane l).rg d = (BitVec.ofNat 16 (ofBytes bs)).signExtend 32 := h _ List.mem_cons_self
    simp only [szBytes] at hlt
    rw [loadDelivers, hr, BitVec.toInt_signExtend_of_le (by omega), BitVec.toInt_eq_toNat_cond, BitVec.toNat_ofNat]
    split <;> split <;> omega
  | z8 => exact (holdsWords_of_holdsWrite h).reg (by simp [hl, szBytes])
  | z16 => exact (holdsWords_of_holdsWrite h).reg (by simp [hl, szBytes])
  | w32 => exact (holdsWords_of_holdsWrite h).reg (by simp [hl, szBytes])
  | w64 => exact (holdsWords_of_holdsWrite h).pair hl
  | w128 => exact (holdsWords_of_holdsWrite h).quad hl

/-- An atomic's destination holds the old value [14 R232]. -/
theorem oldDelivers_of_holdsWrite {u : Strand} {l : LaneId} {d : GReg} {wide : Bool} {bs : List Byte}
    (hl : bs.length = if wide then 8 else 4) (h : ∀ w ∈ (Fill.old d wide).writes l bs, holdsWrite u w) :
    if wide then zPair (u.lane l) d = ofBytes bs else ((u.lane l).rg d).toNat = ofBytes bs := by
  cases wide with
  | true => exact (holdsWords_of_holdsWrite h).pair hl
  | false => exact (holdsWords_of_holdsWrite h).reg hl.le

/-- HST's quad is empty where the signet went to memory [19 R305]. -/
theorem hstDelivers_of_holdsWrite {u : Strand} {l : LaneId} {x : GReg} (h : ∀ w ∈ (Fill.hst x).writes l [1], holdsWrite u w) :
    zQuad (u.lane l) x = 0 :=
  (holdsWords_of_holdsWrite h).quad (length_toBytes 16 0)

/-- A filled flight names only lanes that its bytes are for. -/
theorem Strand.lane_land_filled {st : Strand} {f : Flight} (hw : f.writes = []) (hp : f.fp = []) (hu : f.fill.uniform = false)
    {l : LaneId} (hl : l ∉ f.bufs.map Prod.fst) : (st.land f.filled).lane l = st.lane l := by
  have hfp : f.filled.fp = [] := hp
  rw [st.lane_land, hfp]
  refine st.lane_arrives_other fun w hm he => hl ?_
  simp only [Flight.filled, hw, List.nil_append] at hm
  obtain ⟨x, hx, hwx⟩ := List.mem_flatMap.mp hm
  rw [Fill.lane_writes hu hwx] at he
  exact Option.some.inj he ▸ List.mem_map_of_mem hx

end Sys2Proof.Machine

namespace Sys2Proof.Proofs
open Sys2Proof.Machine
open Sys2Proof.Claims (holdsWrite noEntry)

/-- Settles O19: the flight's bytes become writes of different registers, and every write of a landing flight is in place. -/
theorem memoryResultArrives : Obligations.MemoryResultArrives := by
  unfold Obligations.MemoryResultArrives
  intro sid fid s st f hs hf hkind hwaits hwrites hfp hbufs hlive
  have hne : noEntry st := noEntry_of_all hlive
  have hid : f.filled.id = fid := show f.id = fid from Strand.flight?_id hf
  have hall : f.filled.writes = f.fill.allWrites f.bufs := by simp only [Flight.filled, hwrites, List.nil_append]
  have hput (hu : f.fill.uniform = false) (x) (hx : x ∈ f.bufs) (w) (hw : w ∈ f.fill.writes x.1 x.2) :
      holdsWrite (st.land f.filled).wakeSettled w := by
    refine st.holdsWrite_land (f := f.filled) ?_ ?_
    · rw [hall]; exact Fill.nodup_allWrites hu hbufs
    · rw [hall]; exact Fill.mem_allWrites hx hw
  refine ⟨_, (st.land f.filled).wakeSettled, exec_memoryResultArrival hs hf hkind hwaits, Dev.strand?_landFlight hs hne f.filled,
    fun g hg => hid ▸ st.land_flight_gone f.filled g hg, ?_, ?_, ?_, ?_, ?_, ?_, ?_⟩
  · intro k
    dsimp only
    rw [Dev.landFlight_noEntry hs hne]; rfl
  · intro d sz hd hl _ _ x hx
    exact loadDelivers_of_holdsWrite (hl x hx) (hd ▸ hput (hd ▸ rfl) x hx)
  · intro d wide hd hl _ x hx
    exact oldDelivers_of_holdsWrite (hl x hx) (hd ▸ hput (hd ▸ rfl) x hx)
  · intro k l bs hk hb hl
    have hone : f.filled.writes = [.k k (BitVec.ofNat 32 (ofBytes bs))] := by rw [hall, hk, hb]; rfl
    have h : holdsWrite (st.land f.filled) (.k k (BitVec.ofNat 32 (ofBytes bs))) :=
      st.holdsWrite_land (by rw [hone]; exact List.nodup_singleton _) (by rw [hone]; exact List.mem_cons_self)
    have hlt := ofBytes_lt_of_length hl
    rw [show (st.land f.filled).wakeSettled.rk k = BitVec.ofNat 32 (ofBytes bs) from h, BitVec.toNat_ofNat, Nat.mod_eq_of_lt (by omega)]
  · intro x hx _ hl y hy
    have h := hput (hx ▸ rfl) y hy
    rw [hx] at h
    exact (holdsWords_of_holdsWrite h).quad (hl y hy)
  · intro x hx _ y hy h1
    have h := hput (hx ▸ rfl) y hy
    rw [hx, h1] at h
    exact hstDelivers_of_holdsWrite h
  · intro d sz hd l hl
    rw [Strand.lane_wakeSettled]
    exact Strand.lane_land_filled hwrites hfp (hd ▸ rfl) hl

end Sys2Proof.Proofs
end

section
namespace Sys2Proof.Machine

/-! ### What the scheduler's fields of the control blocks leave of memory [17 R269] -/

/-- Bytes are written from `lo` on and below `hi` only. -/
def Mem.writesWithin (lo hi : Nat) (m n : List Host.Cell) : Prop :=
  Mem.wf m = true → Mem.wf n = true ∧ ∀ k, k < lo ∨ hi ≤ k → Mem.get n k = Mem.get m k

theorem Mem.writesWithin.trans {lo hi : Nat} {a b c : List Host.Cell} (h : Mem.writesWithin lo hi a b) (k : Mem.writesWithin lo hi b c) :
    Mem.writesWithin lo hi a c := by
  intro ha
  obtain ⟨hb, hab⟩ := h ha
  obtain ⟨hc, hbc⟩ := k hb
  exact ⟨hc, fun x hx => (hbc x hx).trans (hab x hx)⟩

theorem Mem.writesWithin_write {lo hi : Nat} (m : List Host.Cell) {k : Nat} {bs : List Byte} (hlo : lo ≤ k) (hhi : k + bs.length ≤ hi) :
    Mem.writesWithin lo hi m (Mem.write m k bs) :=
  fun h => ⟨Mem.wf_write k bs h, fun _ hx => Mem.get_write_other k _ bs h (by omega)⟩

theorem Dev.writesWithin_storeNum {lo hi : Nat} (d : Dev) {k n : Nat} (v : Nat) (hlo : lo ≤ k) (hhi : k + n ≤ hi) :
    Mem.writesWithin lo hi d.mem (d.storeNum k n v).mem :=
  Mem.writesWithin_write d.mem hlo (by rw [length_toBytes]; exact hhi)

theorem Dev.trigger_mem (d : Dev) (k n : Nat) : (d.trigger k n).mem = d.mem := by
  have htail : (d.noteTail k n).mem = d.mem := by
    unfold Dev.noteTail
    split <;> rfl
  unfold Dev.trigger
  dsimp only
  split <;> exact htail

/-- The bytes of a region's four timelines. -/
theorem length_timelines (v : Vector Timeline 4) :
    (v.toList.flatMap fun t => toBytes 8 t.issued ++ toBytes 8 t.done).length = 64 := by
  simp [List.length_flatMap]

theorem Dev.writesWithin_writeRcb (d : Dev) (r : Nat) : Mem.writesWithin (r + 168) (r + 256) d.mem (d.writeRcb r).mem := by
  unfold Dev.writeRcb
  split
  · exact fun h => ⟨h, fun _ _ => rfl⟩
  · dsimp only
    rw [Dev.trigger_mem]
    refine .trans ?_ (Mem.writesWithin_write _ (by omega) (by rw [length_timelines]))
    exact (((((d.writesWithin_storeNum _ (by omega) (by omega)).trans (Dev.writesWithin_storeNum _ _ (by omega) (by omega))).trans
      (Dev.writesWithin_storeNum _ _ (by omega) (by omega))).trans (Dev.writesWithin_storeNum _ _ (by omega) (by omega))).trans
      (Dev.writesWithin_storeNum _ _ (by omega) (by omega))).trans (Dev.writesWithin_storeNum _ _ (by omega) (by omega))

/-- Of memory at most the scheduler's fields of the control blocks differ. -/
def Dev.keepsMemory (d e : Dev) : Prop := Mem.wf d.mem = true → Mem.wf e.mem = true ∧
  ∀ k, (∀ n ∈ d.regions.map Region.id, ¬ (n + 168 ≤ k ∧ k < n + 256)) → Mem.get e.mem k = Mem.get d.mem k

/-- Memory is kept so, the regions are the same ones, and the access queues hold as many words. -/
structure Dev.onlyRcbs (d e : Dev) : Prop where
  ids : e.regions.map Region.id = d.regions.map Region.id
  queued : ∀ c q, (e.quad c q).accessN = (d.quad c q).accessN
  mem : d.keepsMemory e

theorem Dev.onlyRcbs.refl (d : Dev) : d.onlyRcbs d := ⟨rfl, fun _ _ => rfl, fun h => ⟨h, fun _ _ => rfl⟩⟩

theorem Dev.onlyRcbs.trans {d e f : Dev} (h : d.onlyRcbs e) (k : e.onlyRcbs f) : d.onlyRcbs f := by
  refine ⟨k.ids.trans h.ids, fun c q => (k.queued c q).trans (h.queued c q), fun hd => ?_⟩
  obtain ⟨he, hde⟩ := h.mem hd
  obtain ⟨hf, hef⟩ := k.mem he
  exact ⟨hf, fun x hx => (hef x (h.ids ▸ hx)).trans (hde x hx)⟩

theorem Dev.onlyRcbs.foldl {α : Type} {f : Dev → α → Dev} (h : ∀ (d : Dev) x, d.onlyRcbs (f d x)) (xs : List α) (d : Dev) :
    d.onlyRcbs (xs.foldl f d) := by
  induction xs generalizing d with
  | nil => exact .refl d
  | cons x xs ih => exact (h d x).trans (ih _)

/-- A change that leaves memory, regions and cores. -/
theorem Dev.onlyRcbs.of_eq {d e : Dev} (hm : e.mem = d.mem) (hr : e.regions = d.regions) (hc : e.cores = d.cores) : d.onlyRcbs e :=
  ⟨by rw [hr], fun c q => by rw [Dev.quad, Dev.core, hc]; rfl, fun h => by rw [hm]; exact ⟨h, fun _ _ => rfl⟩⟩

theorem Dev.quad_onQuad (d : Dev) (c c' : Fin 256) (q q' : Fin 4) (f : Quad → Quad) :
    (d.onQuad c q f).quad c' q' = if c = c' ∧ q = q' then f (d.quad c q) else d.quad c' q' := by
  rw [Dev.quad, Dev.onQuad, d.core_onCore]
  by_cases hc : c = c'
  · subst hc
    simp only [if_true, true_and, getElem_updV, Dev.quad]
  · simp only [hc, if_false, false_and, Dev.quad]

theorem Dev.onlyRcbs_onQuad (d : Dev) (c : Fin 256) (q : Fin 4) (f : Quad → Quad) (hf : ∀ x, (f x).accessN = x.accessN) :
    d.onlyRcbs (d.onQuad c q f) := by
  refine ⟨rfl, fun c' q' => ?_, fun h => ⟨h, fun _ _ => rfl⟩⟩
  rw [d.quad_onQuad]
  split
  · rename_i h
    obtain ⟨rfl, rfl⟩ := h
    exact hf _
  · rfl

theorem Dev.onlyRcbs_writeRcb (d : Dev) (r : Nat) : d.onlyRcbs (d.writeRcb r) := by
  cases hr : d.region? r with
  | none => simp only [Dev.writeRcb, hr]; exact .refl d
  | some x =>
    have hid : x.id = r := by simpa using List.find?_some hr
    have hmem : r ∈ d.regions.map Region.id := hid ▸ List.mem_map_of_mem (List.mem_of_find?_eq_some hr)
    refine ⟨by rw [(d.onlyMemory_writeRcb r).regions], fun c q => ?_, fun h => ?_⟩
    · rw [Dev.quad, Dev.core, (d.onlyMemory_writeRcb r).books.cores]; rfl
    · obtain ⟨he, hde⟩ := d.writesWithin_writeRcb r h
      exact ⟨he, fun k hk => hde k (by have := hk r hmem; omega)⟩

theorem Dev.onlyRcbs_onRegion (d : Dev) (r : Nat) (f : Region → Region) (hf : ∀ x, (f x).id = x.id) : d.onlyRcbs (d.onRegion r f) := by
  refine ⟨?_, fun _ _ => rfl, fun h => ⟨h, fun _ _ => rfl⟩⟩
  simp only [Dev.onRegion, updWhere, List.map_map]
  refine List.map_congr_left fun x _ => ?_
  simp only [Function.comp]
  split
  · exact hf x
  · rfl

theorem Dev.onlyRcbs_updRegion (d : Dev) (r : Nat) (f : Region → Region) (hf : ∀ x, (f x).id = x.id) : d.onlyRcbs (d.updRegion r f) :=
  (d.onlyRcbs_onRegion r f hf).trans (Dev.onlyRcbs_writeRcb _ r)

theorem Dev.onlyRcbs_updChain (d : Dev) (r : Nat) (f : Region → Region) (hf : ∀ x, (f x).id = x.id) : d.onlyRcbs (d.updChain r f) :=
  .foldl (fun d x => d.onlyRcbs_updRegion x f hf) _ _

theorem Dev.onlyRcbs_settleReserve (d : Dev) (c : Fin 256) (q : Fin 4) : d.onlyRcbs (d.settleReserve c q) := by
  unfold Dev.settleReserve
  split
  · exact .refl d
  · dsimp only
    split
    · split
      · exact .refl d
      · exact d.onlyRcbs_onQuad c q _ fun _ => rfl
    · split
      · exact .refl d
      · exact d.onlyRcbs_onQuad c q _ fun _ => rfl

/-- Blocks that return write the books of their regions, and nothing else of memory. -/
theorem Dev.onlyRcbs_returnBlocks (d : Dev) (c : Fin 256) (q : Fin 4) (region n : Nat) : d.onlyRcbs (d.returnBlocks c q region n) := by
  unfold Dev.returnBlocks
  split
  · exact .refl d
  · refine .trans (.trans ?_ (Dev.onlyRcbs_updChain _ region (fun r => { r with useBlocks := r.useBlocks - n }) fun _ => rfl))
      (Dev.onlyRcbs_settleReserve _ c q)
    exact d.onlyRcbs_onQuad c q (fun x => x.giveBack n) fun _ => rfl

end Sys2Proof.Machine
end

section
namespace Sys2Proof.Machine
open Sys2Proof.Claims (writeNames holdsWrite restKept noEntry outsideRcbs arrivalRule)

/-! ### Exceptions noted as a result arrives [08 R153, R154] -/

/-- A strand whose lanes have noted the exceptions that a word's result brings. -/
def Strand.excepts (f : Flight) (st : Strand) : Strand := f.mx.foldl (fun st x => st.onLane x.1 fun y => y.except f x.2) st

theorem Strand.excepts_only (f : Flight) (st : Strand) : st.excepts f = { st with lanes := (st.excepts f).lanes } :=
  Strand.foldl_onLane_only Prod.fst (fun (x : LaneId × Nat) y => y.except f x.2) f.mx st

/-- A lane's mxstat gains the bits of its exceptions; of the rest only its held traps differ. -/
theorem Strand.lane_excepts (f : Flight) (st : Strand) (l : LaneId) :
    ∃ held, (st.excepts f).lane l = { st.lane l with
      mxstat := (f.mx.filter fun x => x.1 == l).foldl (fun b x => b ||| if x.2 = 9 then 2 else 1) (st.lane l).mxstat, held := held } := by
  obtain ⟨held, h⟩ := Lane.foldl_except f Prod.snd (f.mx.filter fun x => x.1 == l) (st.lane l)
  exact ⟨held, (Strand.lane_foldl_onLane Prod.fst (fun (x : LaneId × Nat) y => y.except f x.2) f.mx st l).trans h⟩

theorem Strand.restKept_excepts (f : Flight) (st : Strand) : restKept st (st.excepts f) [] := by
  refine ⟨fun l r _ => ?_, fun l n _ => ?_, fun l m _ => ?_, fun r _ => ?_, ?_⟩
  · obtain ⟨held, h⟩ := st.lane_excepts f l
    rw [h]; rfl
  · obtain ⟨held, h⟩ := st.lane_excepts f l
    rw [h]; rfl
  · obtain ⟨held, h⟩ := st.lane_excepts f l
    rw [h]; rfl
  · rw [st.excepts_only f]; rfl
  · rw [st.excepts_only f]

theorem noEntry_excepts {st : Strand} (h : noEntry st) (f : Flight) : noEntry (st.excepts f) :=
  noEntry_of_frags h (by rw [st.excepts_only f])

/-! ### Strands whose watches alone differ -/

theorem Strand.onlyWatches.restKept {a b : Strand} (h : a.onlyWatches b) : restKept a b [] :=
  ⟨fun l r _ => by rw [h.2 l]; rfl, fun l n _ => by rw [h.2 l]; rfl, fun l m _ => by rw [h.2 l]; rfl,
    fun r _ => by rw [Strand.rk, h.k_eq]; rfl, h.flags_eq⟩

theorem Strand.onlyWatches.holdsWrite {a b : Strand} (h : a.onlyWatches b) {w : RegWrite} (hw : holdsWrite a w) : holdsWrite b w :=
  holdsWrite_kept h.restKept List.not_mem_nil hw

/-! ### What a strand is after a result has landed -/

/-- The strand that a result has landed in: the flight gone, its writes in place and no other register changed, its bits in
fpstat, and the exceptions' bits in mxstat [01 R16; 03 R53; 08 R153]. -/
structure Strand.landed (st : Strand) (f : Flight) (mx : List (LaneId × Nat)) (u : Strand) : Prop where
  gone : ∀ g ∈ u.flights, g.id ≠ f.id
  writes : (f.writes.map writeNames).Nodup → ∀ w ∈ f.writes, holdsWrite u w
  kept : restKept st u f.writes
  fpstat : ∀ l, (u.lane l).fpstat = (f.fp.filter fun x => x.1 == l).foldl (fun b x => b ||| x.2) (st.lane l).fpstat
  mxstat : ∀ l, (u.lane l).mxstat = (mx.filter fun x => x.1 == l).foldl (fun b x => b ||| if x.2 = 9 then 2 else 1) (st.lane l).mxstat

/-- fpstat and mxstat are no destination of an arriving value. -/
theorem Strand.lane_arrive_stat (st : Strand) (w : RegWrite) (l : LaneId) :
    ((st.arrive w).lane l).fpstat = (st.lane l).fpstat ∧ ((st.arrive w).lane l).mxstat = (st.lane l).mxstat := by
  cases w with
  | k r v => exact ⟨rfl, rfl⟩
  | g i r v => rcases st.lane_onLane_cases i l fun x => x.wg r v with ⟨-, h⟩ | ⟨-, h⟩ <;> rw [Strand.arrive, h] <;> exact ⟨rfl, rfl⟩
  | p i n v =>
    rcases st.lane_onLane_cases i l fun x => x.wp n v with ⟨-, h⟩ | ⟨-, h⟩ <;> rw [Strand.arrive, h]
    · exact ⟨by simp, by simp⟩
    · exact ⟨rfl, rfl⟩
  | m i m v => rcases st.lane_onLane_cases i l fun x => x.wm m v with ⟨-, h⟩ | ⟨-, h⟩ <;> rw [Strand.arrive, h] <;> exact ⟨rfl, rfl⟩

theorem Strand.lane_arrives_stat (st : Strand) (ws : List RegWrite) (l : LaneId) :
    ((ws.foldl Strand.arrive st).lane l).fpstat = (st.lane l).fpstat ∧ ((ws.foldl Strand.arrive st).lane l).mxstat = (st.lane l).mxstat := by
  induction ws generalizing st with
  | nil => exact ⟨rfl, rfl⟩
  | cons w ws ih =>
    obtain ⟨hf, hm⟩ := st.lane_arrive_stat w l
    obtain ⟨kf, km⟩ := ih (st.arrive w)
    exact ⟨kf.trans hf, km.trans hm⟩

theorem Strand.landed_land (st : Strand) (f : Flight) : st.landed f [] (st.land f).wakeSettled := by
  refine ⟨st.land_flight_gone f, fun hn w hw => st.holdsWrite_land hn hw, st.restKept_land f, fun l => ?_, fun l => ?_⟩
  · rw [Strand.lane_wakeSettled, st.lane_land, (st.lane_arrives_stat f.writes l).1]
  · rw [Strand.lane_wakeSettled, st.lane_land, (st.lane_arrives_stat f.writes l).2]; rfl

theorem Strand.landed_excepts (st : Strand) (f : Flight) : st.landed f f.mx ((st.excepts f).land f).wakeSettled := by
  obtain ⟨gone, writes, kept, hf, hm⟩ := (st.excepts f).landed_land f
  refine ⟨gone, writes, restKept_trans (st.restKept_excepts f) kept, fun l => ?_, fun l => ?_⟩
  · obtain ⟨held, h⟩ := st.lane_excepts f l
    rw [hf, h]
  · obtain ⟨held, h⟩ := st.lane_excepts f l
    rw [hm, h]; rfl

/-- Bookkeeping after a result has landed takes nothing of it away. -/
theorem Strand.landed.onlyWatches {st u v : Strand} {f : Flight} {mx : List (LaneId × Nat)} (h : st.landed f mx u)
    (hv : u.onlyWatches v) : st.landed f mx v := by
  refine ⟨hv.flights_eq ▸ h.gone, fun hn w hw => hv.holdsWrite (h.writes hn w hw), ?_, fun l => ?_, fun l => ?_⟩
  · have := restKept_trans h.kept hv.restKept
    rwa [List.append_nil] at this
  · rw [hv.2 l]; exact h.fpstat l
  · rw [hv.2 l]; exact h.mxstat l

/-! ### A result lands, and its blocks return [07 R127; 08 R154] -/

/-- A device in which a strand's result has landed, memory changed in the control blocks alone. -/
def Dev.landedIn (d : Dev) (sid : Nat) (st : Strand) (f : Flight) (mx : List (LaneId × Nat)) (e : Dev) : Prop :=
  (∃ u, e.strand? sid = some u ∧ st.landed f mx u) ∧ d.onlyRcbs e

theorem Dev.landFlight_landedIn {d : Dev} {sid : Nat} {st : Strand} (hs : d.strand? sid = some st) (h : noEntry st) (f : Flight) :
    d.landedIn sid st f [] (d.landFlight sid f) := by
  refine ⟨⟨_, Dev.strand?_landFlight hs h f, st.landed_land f⟩, ?_⟩
  rw [Dev.landFlight_noEntry hs h]
  exact .of_eq rfl rfl rfl

theorem Dev.landMatrix_landedIn {d : Dev} {sid : Nat} {st : Strand} (hs : d.strand? sid = some st) (h : noEntry st) (f : Flight) :
    d.landedIn sid st f f.mx (d.landMatrix sid f) := by
  have hid (x : Strand) : (x.excepts f).id = x.id := by rw [x.excepts_only f]
  have hsx : (d.onStrand sid fun st => st.excepts f).strand? sid = some (st.excepts f) := Dev.strand?_onStrand hs _ hid
  obtain ⟨⟨v, hv, -⟩, hbooks⟩ := Dev.landFlight_landedIn hsx (noEntry_excepts h f) f
  have hland := Dev.strand?_landFlight hsx (noEntry_excepts h f) f
  have hdev : d.landMatrix sid f = ((d.onStrand sid fun st => st.excepts f).landFlight sid f).returnBlocks st.core st.quad st.region
      (st.freedBy f) := by simp only [Dev.landMatrix, hs]; rfl
  rw [hdev]
  have hnote : d.onlyRcbs (d.onStrand sid fun st => st.excepts f) := .of_eq rfl rfl rfl
  refine ⟨?_, (hnote.trans hbooks).trans (Dev.onlyRcbs_returnBlocks _ _ _ _ _)⟩
  obtain ⟨u, hu, hw⟩ := (Dev.strandsKept_returnBlocks _ st.core st.quad st.region (st.freedBy f)).strand? hland
  exact ⟨u, hu, (st.landed_excepts f).onlyWatches hw⟩

/-- Keys outside the control blocks' fields are outside them by the blocks' places. -/
theorem outsideRcbs_ids {s : State} {k : Nat} (h : outsideRcbs s k) : ∀ n ∈ s.now.regions.map Region.id, ¬ (n + 168 ≤ k ∧ k < n + 256) := by
  intro n hn
  obtain ⟨r, hr, rfl⟩ := List.mem_map.mp hn
  exact h r hr

/-! ### The arrivals [01 R16; 07 R126; 10 R188, R192, R194, R196; 19 R296] -/

/-- An event lands a strand's result, and does nothing else but books. -/
def arrivesAs (i : Instr) (s : State) (sid : Nat) (st : Strand) (f : Flight) (mx : List (LaneId × Nat)) : Prop :=
  ∃ d e : Dev, exec i s = .next { s with now := e } ∧ d.mem = s.now.mem ∧ d.regions = s.now.regions ∧ d.landedIn sid st f mx e

section
variable {s : State} {sid fid : Nat} {st : Strand} {f : Flight} (hs : s.now.strand? sid = some st) (hf : st.flight? fid = some f)
  (hne : noEntry st)

include hs hf in
theorem Dev.flight?_eq : s.now.flight? sid fid = some f := (Dev.flight?_of hs).trans hf

include hs hf hne

theorem memoryResultArrival_lands (hk : f.kind = .memory) (hw : f.waits = 0) (hb : f.bufs = []) :
    arrivesAs (.memoryResultArrival sid fid) s sid st f [] := by
  have hnone : f.fill.allWrites f.bufs = [] := by rw [hb]; rfl
  have hfill : f.filled = f := by rw [Flight.filled, hnone, List.append_nil]
  exact ⟨s.now, _, hfill ▸ exec_memoryResultArrival hs hf hk hw, rfl, rfl, Dev.landFlight_landedIn hs hne f⟩

theorem macqArrival_lands (hk : f.kind = .macq) : arrivesAs (.macqArrival sid fid) s sid st f f.mx := by
  refine ⟨s.now, _, ?_, rfl, rfl, Dev.landMatrix_landedIn hs hne f⟩
  rw [show exec (.macqArrival sid fid) s = execMacqArrival sid fid s from rfl]
  simp only [execMacqArrival, State.event, State.onDev, Dev.flight?_eq hs hf, hk, if_true]

theorem macqTryFailArrival_lands (hk : f.kind = .macqFail) : arrivesAs (.macqTryFailArrival sid fid) s sid st f f.mx := by
  refine ⟨s.now, _, ?_, rfl, rfl, Dev.landMatrix_landedIn hs hne f⟩
  rw [show exec (.macqTryFailArrival sid fid) s = execMacqTryFailArrival sid fid s from rfl]
  simp only [execMacqTryFailArrival, State.event, State.onDev, Dev.flight?_eq hs hf, hk, if_true]

theorem elementPathCompletion_lands (hk : f.kind = .element) : arrivesAs (.elementPathCompletion sid fid) s sid st f f.mx := by
  refine ⟨s.now, _, ?_, rfl, rfl, Dev.landMatrix_landedIn hs hne f⟩
  rw [show exec (.elementPathCompletion sid fid) s = execElementPathCompletion sid fid s from rfl]
  simp only [execElementPathCompletion, State.event, State.onDev, Dev.flight?_eq hs hf, hk, if_true]

theorem matrixAccessCompletion_lands (hk : f.kind = .access) (hw : f.waits = 0) (hfill : f.fill = .none) :
    arrivesAs (.matrixAccessCompletion sid fid) s sid st f f.mx := by
  refine ⟨s.now.onQuad st.core st.quad fun q => { q with accessN := q.accessN - 1 }, _, ?_, rfl, rfl,
    Dev.landMatrix_landedIn (d := s.now.onQuad st.core st.quad fun q => { q with accessN := q.accessN - 1 }) hs hne f⟩
  rw [show exec (.matrixAccessCompletion sid fid) s = execMatrixAccessCompletion sid fid s from rfl]
  simp only [execMatrixAccessCompletion, State.event, State.onDev, Dev.flight?_eq hs hf, hs, hk, hw, hfill]
  rfl

theorem cellWordPassEnd_lands {m r : Bool} {dur phase : Nat} (hk : f.kind = .cell m r dur phase) (hup : s.now.upsets.headD 0 &&& f.lanes = 0) :
    arrivesAs (.cellWordPassEnd sid fid) s sid st f f.mx := by
  have hbad : (if m = true then s.now.upsets.headD 0 &&& f.lanes else 0) = 0 := by rw [hup]; exact ite_self 0
  refine ⟨if m then { s.now with upsets := s.now.upsets.tail } else s.now, _, ?_, ?_, ?_, Dev.landMatrix_landedIn ?_ hne f⟩
  · rw [show exec (.cellWordPassEnd sid fid) s = execCellWordPassEnd sid fid s from rfl]
    simp only [execCellWordPassEnd, State.event, State.onDev, Dev.flight?_eq hs hf, hs, hk, hbad, if_true]
  · split <;> rfl
  · split <;> rfl
  · split <;> exact hs

theorem mexpPassEnd_lands {done : List Nat} (hk : f.kind = .mexp done []) (hh : s.now.halts st = false) :
    arrivesAs (.mexpPassEnd sid fid) s sid st f f.mx := by
  refine ⟨s.now, _, ?_, rfl, rfl, Dev.landMatrix_landedIn hs hne f⟩
  rw [show exec (.mexpPassEnd sid fid) s = execMexpPassEnd sid fid s from rfl]
  simp only [execMexpPassEnd, State.event, State.onDev, Dev.flight?_eq hs hf, hs, hk, hh]
  rfl

theorem signetVerdictArrival_lands (hk : f.kind = .verdict) (hw : f.waits = 0) (hfails : f.fails = []) :
    arrivesAs (.signetVerdictArrival sid fid) s sid st f [] := by
  have hs' : (s.now.onStrand sid fun st => st).strand? sid = some st := Dev.strand?_onStrand hs _ fun _ => rfl
  refine ⟨s.now.onStrand sid fun st => st, _, ?_, rfl, rfl, Dev.landFlight_landedIn hs' hne f⟩
  rw [show exec (.signetVerdictArrival sid fid) s = execSignetVerdictArrival sid fid s from rfl]
  simp only [execSignetVerdictArrival, State.event, State.onDev, Dev.flight?_eq hs hf, hk, hw, hfails, List.foldl_nil]
  rfl

end

/-- Each arrival lands its flight, with its exceptions where the matrix unit notes them. -/
theorem arrivalRule_lands {i : Instr} {s : State} {sid fid : Nat} {kind : FlightKind → Prop} {st : Strand} {f : Flight}
    (hi : arrivalRule i = some (sid, fid, kind)) (hs : s.now.strand? sid = some st) (hf : st.flight? fid = some f) (hk : kind f.kind)
    (hh : ∀ done, f.kind = .mexp done [] → s.now.halts st = false) (hw : f.waits = 0) (hb : f.bufs = []) (hfails : f.fails = [])
    (hfill : f.fill = .none) (hne : noEntry st) (hup : s.now.upsets.headD 0 &&& f.lanes = 0) :
    arrivesAs i s sid st f (if f.kind = .memory ∨ f.kind = .verdict then [] else f.mx) := by
  unfold arrivalRule at hi
  split at hi <;> simp only [Option.some.injEq, Prod.mk.injEq, reduceCtorEq] at hi <;> obtain ⟨rfl, rfl, rfl⟩ := hi
  · rw [if_pos (.inl hk)]
    exact memoryResultArrival_lands hs hf hne hk hw hb
  · rw [if_neg (by rw [show f.kind = .macq from hk]; simp)]
    exact macqArrival_lands hs hf hne hk
  · rw [if_neg (by rw [show f.kind = .macqFail from hk]; simp)]
    exact macqTryFailArrival_lands hs hf hne hk
  · rw [if_neg (by rw [show f.kind = .element from hk]; simp)]
    exact elementPathCompletion_lands hs hf hne hk
  · rw [if_neg (by rw [show f.kind = .access from hk]; simp)]
    exact matrixAccessCompletion_lands hs hf hne hk hw hfill
  · obtain ⟨m, r, dur, phase, hk⟩ := hk
    rw [if_neg (by rw [hk]; simp)]
    exact cellWordPassEnd_lands hs hf hne hk hup
  · obtain ⟨done, -, hk⟩ := hk
    rw [if_neg (by rw [hk]; simp)]
    exact mexpPassEnd_lands hs hf hne hk (hh done hk)
  · rw [if_pos (.inr hk)]
    exact signetVerdictArrival_lands hs hf hne hk hw hfails

/-- Results in flight deliver their writes and flags: each event lands its flight, and landing says the rest. -/
theorem arrivals_deliver : Claims.resultsArrive := by
  intro i s sid fid kind st f hi hs hf hk hok hh hw hb hfails hfill hnodup hne hup
  obtain ⟨d, e, hexec, hmem, hregions, ⟨u, hu, hl⟩, hbooks⟩ := arrivalRule_lands hi hs hf hk hh hw hb hfails hfill hne hup
  obtain ⟨-, hget⟩ := hbooks.mem (hmem ▸ hok.1)
  refine ⟨_, u, hexec, hu, Strand.flight?_id hf ▸ hl.gone, hl.writes hnodup, hl.kept, hl.fpstat, hl.mxstat, fun k hk => ?_⟩
  rw [hmem, hregions] at hget
  exact hget k (outsideRcbs_ids hk)

end Sys2Proof.Machine
end

section
namespace Sys2Proof.Machine
open Sys2Proof.Claims (writeNames holdsWrite noEntry outsideRcbs rowsOf colsOf widthOf loadedAt lowBytes casketLeaves casketOn)

/-! ### A dense matrix load [07 R130] -/

/-- An element cut from a bit string is the string's bits at the element's place. -/
theorem toNat_cutBits {w n i : Nat} (hw : w ≤ 32) (hi : i < n) (v : Nat) : ((cutBits w n v).getD i 0).toNat = v / 2 ^ (w * i) % 2 ^ w := by
  induction n generalizing i v with
  | zero => omega
  | succ n ih =>
    cases i with
    | zero =>
      have hlt : v % 2 ^ w < 2 ^ 32 := (Nat.mod_lt v (by positivity)).trans_le (Nat.pow_le_pow_right (by omega) hw)
      simp only [cutBits, List.getD_cons_zero, BitVec.toNat_ofNat, Nat.mul_zero, Nat.pow_zero, Nat.div_one]
      exact Nat.mod_eq_of_lt hlt
    | succ i =>
      rw [cutBits, List.getD_cons_succ, ih (by omega), Nat.div_div_eq_div_mul, ← Nat.pow_add, Nat.mul_succ, Nat.add_comm w]

/-- A position in a matrix, by rows. -/
theorem pos_lt {i j r c : Nat} (hi : i < r) (hj : j < c) : i * c + j < r * c := by
  have := Nat.mul_le_mul_right c hi
  rw [Nat.succ_mul] at this
  omega

/-- The entry of a table that is laid out row by row. -/
theorem getD_rows {α : Type} (f : Nat → Nat → α) (a : α) {i j r c : Nat} (hi : i < r) (hj : j < c) :
    ((List.range r).flatMap fun i => (List.range c).map fun j => f i j).getD (i * c + j) a = f i j := by
  have hlen (n : Nat) : ((List.range n).flatMap fun i => (List.range c).map fun j => f i j).length = n * c := by
    simp [List.length_flatMap]
  induction r with
  | zero => omega
  | succ r ih =>
    rw [List.range_succ, List.flatMap_append]
    by_cases hr : i < r
    · rw [List.getD_append _ _ _ _ (by rw [hlen]; exact pos_lt hr hj), ih hr]
    · have hir : i = r := by omega
      subst hir
      rw [List.getD_append_right _ _ _ _ (by rw [hlen]; omega), hlen, Nat.add_sub_cancel_left]
      simp [List.getD, hj]

theorem ewBits_le (w : EW) : ewBits w ≤ 32 := by cases w <;> decide

/-- Every element of a dense load is the bits of its place in the lines [07 R130]. -/
theorem loadElems_at {form : MatForm} (hform : form ≠ .sparse) (h : Handle) (bs : List Byte) {i j : Nat} (hi : i < h.rows) (hj : j < h.cols) :
    (({ h with els := loadElems form h bs } : Handle).at i j).toNat = loadedAt form h.rows h.cols (ewBits h.w) bs i j := by
  have hw := ewBits_le h.w
  cases form with
  | row => exact toNat_cutBits hw (pos_lt hi hj) _
  | col =>
    refine (congrArg BitVec.toNat (getD_rows _ 0 hi hj)).trans (toNat_cutBits hw ?_ _)
    rw [Nat.mul_comm h.rows]
    exact pos_lt hj hi
  | bcast => exact (congrArg BitVec.toNat (getD_rows _ 0 hi hj)).trans (toNat_cutBits hw hj _)
  | sparse => exact absurd rfl hform

/-- The handles of different lanes are different destinations. -/
theorem nodup_names_mldWrites {st : Strand} {m : MReg} {form : MatForm} {bufs : List (LaneId × List Byte)} (h : (bufs.map Prod.fst).Nodup) :
    ((mldWrites st m form bufs).map writeNames).Nodup := by
  have hnames : (mldWrites st m form bufs).map writeNames = (bufs.map Prod.fst).map fun l => .m l m := by
    simp only [mldWrites, List.map_map]; rfl
  rw [hnames]
  exact h.map fun a b hab => (Dest.m.inj hab).1

/-- A device with one word fewer in the access queue of a strand's quadrant. -/
def Dev.unqueue (d : Dev) (st : Strand) : Dev := d.onQuad st.core st.quad fun q => { q with accessN := q.accessN - 1 }

/-- A word of the access queue lands, and the queue has room for one more. -/
theorem Dev.landMatrix_unqueue {d : Dev} {sid : Nat} {st st' : Strand} (hs : d.strand? sid = some st) (h : noEntry st) (f : Flight) :
    (∃ u, ((d.unqueue st').landMatrix sid f).strand? sid = some u ∧ st.landed f f.mx u) ∧
      d.keepsMemory ((d.unqueue st').landMatrix sid f) ∧
      (((d.unqueue st').landMatrix sid f).quad st'.core st'.quad).accessN = (d.quad st'.core st'.quad).accessN - 1 := by
  obtain ⟨hu, -, hqueued, hmem⟩ := Dev.landMatrix_landedIn (d := d.unqueue st') hs h f
  exact ⟨hu, hmem, by rw [hqueued, Dev.unqueue, d.quad_onQuad, if_pos ⟨rfl, rfl⟩]⟩

/-- A flight with its values ready. -/
def Flight.ready (f : Flight) (ws : List RegWrite) : Flight := { f with writes := ws }

theorem exec_matrixAccessCompletion_mld {s : State} {sid fid : Nat} {st : Strand} {f : Flight} {m : MReg} {form : MatForm}
    (hs : s.now.strand? sid = some st) (hf : st.flight? fid = some f) (hw : f.waits = 0) (hk : f.kind = .access) (hfill : f.fill = .mld m form) :
    exec (.matrixAccessCompletion sid fid) s =
      .next { s with now := (s.now.unqueue st).landMatrix sid (f.ready (mldWrites st m form f.bufs)) } := by
  rw [show exec (.matrixAccessCompletion sid fid) s = execMatrixAccessCompletion sid fid s from rfl]
  simp only [execMatrixAccessCompletion, State.event, State.onDev, Dev.flight?_eq hs hf, hs, hk, hw, hfill]
  rfl

theorem denseLoad_arrives {s : State} {sid fid : Nat} {st : Strand} {f : Flight} {m : MReg} {form : MatForm}
    (hs : s.now.strand? sid = some st) (hf : st.flight? fid = some f) (hw : f.waits = 0) (hne : noEntry st) (hk : f.kind = .access)
    (hfill : f.fill = .mld m form) (hform : form ≠ .sparse) (hbufs : (f.bufs.map Prod.fst).Nodup) :
    ∃ t u, exec (.matrixAccessCompletion sid fid) s = .next t ∧ t.now.strand? sid = some u ∧ (∀ g ∈ u.flights, g.id ≠ fid) ∧
      (t.now.quad st.core st.quad).accessN = (s.now.quad st.core st.quad).accessN - 1 ∧
      ∀ x ∈ f.bufs, ∃ hd, (u.lane x.1).rm m = some hd ∧ hd.rows = rowsOf (st.lane x.1) m ∧ hd.cols = colsOf (st.lane x.1) m ∧
        hd.w = widthOf (st.lane x.1) m ∧ ∀ i j, i < hd.rows → j < hd.cols →
          (hd.at i j).toNat = loadedAt form hd.rows hd.cols (ewBits hd.w) x.2 i j := by
  obtain ⟨⟨u, hu, hl⟩, -, hqueue⟩ := Dev.landMatrix_unqueue (st' := st) hs hne (f.ready (mldWrites st m form f.bufs))
  have hid : (f.ready (mldWrites st m form f.bufs)).id = fid := show f.id = fid from Strand.flight?_id hf
  refine ⟨_, u, exec_matrixAccessCompletion_mld hs hf hw hk hfill, hu, hid ▸ hl.gone, hqueue, fun x hx => ?_⟩
  refine ⟨{ (st.lane x.1).hnd m with els := loadElems form ((st.lane x.1).hnd m) x.2 }, ?_, rfl, rfl, rfl, fun i j hi hj => ?_⟩
  · exact hl.writes (nodup_names_mldWrites hbufs) (.m x.1 m _) (List.mem_map_of_mem hx)
  · exact loadElems_at hform _ _ hi hj

/-! ### Memories that read alike -/

/-- Two memories in canonical form read alike at every key. -/
def Mem.alike (m n : List Host.Cell) : Prop := Mem.wf m = true ∧ Mem.wf n = true ∧ ∀ k, Mem.get m k = Mem.get n k

theorem Mem.alike.num {m n : List Host.Cell} (h : Mem.alike m n) (k len : Nat) : Mem.num m k len = Mem.num n k len := by
  rw [Mem.num, Mem.num]
  congr 1
  apply List.ext_getElem (by simp)
  intro i h1 h2
  rw [Mem.getElem_read, Mem.getElem_read, h.2.2]

/-- A byte after a write is the written one in its place, and as before elsewhere. -/
theorem Mem.get_write_cases {m : List Host.Cell} (k : Nat) (bs : List Byte) (h : Mem.wf m = true) (j : Nat) :
    Mem.get (Mem.write m k bs) j = if hj : k ≤ j ∧ j < k + bs.length then bs[j - k] else Mem.get m j := by
  split
  · rename_i hj
    have := Mem.get_write_same (m := m) k (j - k) bs h (by omega)
    rwa [show k + (j - k) = j by omega] at this
  · exact Mem.get_write_other k j bs h (by omega)

theorem Mem.alike.write {m n : List Host.Cell} (h : Mem.alike m n) (k : Nat) (bs : List Byte) :
    Mem.alike (Mem.write m k bs) (Mem.write n k bs) := by
  obtain ⟨hm, hn, hg⟩ := h
  refine ⟨Mem.wf_write k bs hm, Mem.wf_write k bs hn, fun j => ?_⟩
  rw [Mem.get_write_cases k bs hm, Mem.get_write_cases k bs hn, hg]

/-- Little-endian bytes come back from the number that they stand for. -/
theorem toBytes_ofBytes (bs : List Byte) : toBytes bs.length (ofBytes bs) = bs := by
  induction bs with
  | nil => rfl
  | cons b bs ih =>
    have hb := b.isLt
    rw [List.length_cons, toBytes, ofBytes, show (b.toNat + 256 * ofBytes bs) / 256 = ofBytes bs by omega, ih]
    congr 1
    apply BitVec.eq_of_toNat_eq
    rw [BitVec.toNat_ofNat]
    omega

/-- A number that is read and written back leaves memory reading as it did. -/
theorem Mem.alike.write_num {m n : List Host.Cell} (h : Mem.alike m n) (k len : Nat) :
    Mem.alike m (Mem.write n k (toBytes len (Mem.num n k len))) := by
  obtain ⟨hm, hn, hg⟩ := h
  have hbytes : toBytes len (Mem.num n k len) = Mem.read n k len := by
    have := toBytes_ofBytes (Mem.read n k len)
    rwa [Mem.length_read] at this
  refine ⟨hm, Mem.wf_write k _ hn, fun j => ?_⟩
  rw [hg, hbytes, Mem.get_write_cases k _ hn]
  split
  · rename_i hj
    rw [Mem.getElem_read, show k + (j - k) = j by omega]
  · rfl

/-- The statement's bytes of a number are the model's. -/
theorem lowBytes_eq_toBytes (n v : Nat) : lowBytes n v = toBytes n v := by
  induction n generalizing v with
  | zero => rfl
  | succ n ih =>
    rw [toBytes, ← ih, lowBytes, lowBytes, List.range_succ_eq_map, List.map_cons, List.map_map]
    congr 1
    · simp
    · refine List.map_congr_left fun i _ => ?_
      simp only [Function.comp, Nat.succ_eq_add_one]
      rw [Nat.div_div_eq_div_mul, show 256 = 2 ^ 8 by rfl, ← Nat.pow_add, show 8 * (i + 1) = 8 + 8 * i by omega]

theorem Mem.num_lt (m : List Host.Cell) (k : Nat) : Mem.num m k 4 < 2 ^ 32 := by
  have := ofBytes_lt (Mem.read m k 4)
  rw [Mem.length_read] at this
  exact this

/-! ### The casket words [13 R220] -/

/-- What an item leaves is what its operation says. -/
theorem CasOp.toNat_new (op : CasOp) {n : Nat} (hn : n < 2 ^ 32) (v : W32) :
    (op.new (BitVec.ofNat 32 n) v).toNat = casketLeaves op n v.toNat := by
  cases op with
  | addF => simp only [CasOp.new, casketLeaves, BitVec.ofNat_toNat, BitVec.setWidth_eq]
  | addI => simp only [CasOp.new, casketLeaves, BitVec.toNat_add, BitVec.toNat_ofNat, Nat.mod_eq_of_lt hn]
  | write => rfl
  | read => rw [CasOp.new, casketLeaves, BitVec.toNat_ofNat, Nat.mod_eq_of_lt hn]
  | readClr => rfl

/-- The device keeps all but memory and single-bit errors, and no uncorrectable error stands. -/
def Dev.casketKept (d e : Dev) : Prop := e = { d with mem := e.mem, eccOne := e.eccOne, boot := e.boot } ∧ d.eccBad = []

theorem Dev.casketKept.trans {d e f : Dev} (h : d.casketKept e) (k : e.casketKept f) : d.casketKept f :=
  ⟨by rw [k.1, h.1], h.2⟩

/-- Before an item reads its word, a single-bit error of it is corrected, or ends as the word is written whole. -/
theorem Dev.casketReady_kept {d : Dev} (h : d.eccBad = []) (b : Bool) (k : Nat) :
    d.casketKept (if b then d.heal (k / 8 * 8) 8 else d.correctWord (k / 8)) ∧
      (if b then d.heal (k / 8 * 8) 8 else d.correctWord (k / 8)).mem = d.mem := by
  cases b with
  | true => exact ⟨⟨by simp [Dev.heal, h], h⟩, rfl⟩
  | false =>
    simp only [Bool.false_eq_true, if_false, Dev.correctWord]
    split <;> exact ⟨⟨rfl, h⟩, rfl⟩

theorem Dev.casketKept_storeNum {d : Dev} (h : d.eccBad = []) (k n v : Nat) : d.casketKept (d.storeNum k n v) :=
  ⟨by simp [Dev.storeNum, Dev.store, h], h⟩

/-- A casket word's items act on memory in order, and read the old values [13 R220]. -/
theorem Dev.casketItems_casketOn (c : Fin 256) (op : CasOp) (all items : List CasItem) {d : Dev} {m : List Host.Cell}
    (hbad : d.eccBad = []) (hm : Mem.alike d.mem m) :
    d.casketKept (d.casketItems c op all items).1 ∧ Mem.alike (d.casketItems c op all items).1.mem (casketOn c op m items).1 ∧
      (d.casketItems c op all items).2.map BitVec.toNat = (casketOn c op m items).2 := by
  induction items generalizing d m with
  | nil => exact ⟨⟨rfl, hbad⟩, hm, rfl⟩
  | cons x xs ih =>
    have hgood : d.badItem c op all x = false := by simp [Dev.badItem, hbad]
    obtain ⟨hready, hrmem⟩ := Dev.casketReady_kept hbad (x.whole op all) (Key.casket c x.addr)
    simp only [Dev.casketItems, casketOn, hgood, Bool.false_eq_true, if_false]
    generalize (if x.whole op all = true then d.heal (Key.casket c x.addr / 8 * 8) 8 else d.correctWord (Key.casket c x.addr / 8)) = e
      at hready hrmem
    have hebad : e.eccBad = [] := by rw [hready.1]; exact hbad
    have heold : e.num (Key.casket c x.addr) 4 = Mem.num m (Key.casket c x.addr) 4 := by rw [Dev.num, hrmem, hm.num]
    have hlt := Mem.num_lt m (Key.casket c x.addr)
    have hstep : e.casketKept (if op = .read then e else e.storeNum (Key.casket c x.addr) 4
          (op.new (BitVec.ofNat 32 (e.num (Key.casket c x.addr) 4)) x.v).toNat) ∧
        Mem.alike (if op = .read then e else e.storeNum (Key.casket c x.addr) 4
          (op.new (BitVec.ofNat 32 (e.num (Key.casket c x.addr) 4)) x.v).toNat).mem
          (Mem.write m (Key.casket c x.addr) (lowBytes 4 (casketLeaves op (Mem.num m (Key.casket c x.addr) 4) x.v.toNat))) := by
      rw [lowBytes_eq_toBytes]
      split
      · rename_i hop
        subst hop
        exact ⟨⟨rfl, hebad⟩, by rw [hrmem]; exact hm.write_num _ 4⟩
      · refine ⟨Dev.casketKept_storeNum hebad _ _ _, ?_⟩
        rw [heold, op.toNat_new hlt, Dev.storeNum, Dev.store, hrmem]
        exact hm.write _ _
    obtain ⟨hkept, halike⟩ := hstep
    obtain ⟨ikept, ialike, ivals⟩ := ih (by rw [hkept.1]; exact hebad) halike
    refine ⟨(hready.trans hkept).trans ikept, ialike, ?_⟩
    rw [List.map_cons, ivals, heold, BitVec.toNat_ofNat, Nat.mod_eq_of_lt hlt]

/-! ### A casket word's result arrives -/

/-- A flight that is found stays found as it changes, its number kept. -/
theorem Strand.flight?_updWhere {st : Strand} {fid : Nat} {f : Flight} (h : st.flight? fid = some f) (g : Flight → Flight)
    (hg : ∀ x, (g x).id = x.id) : ({ st with flights := updWhere (fun x => x.id == fid) g st.flights } : Strand).flight? fid = some (g f) := by
  have hid (x : Flight) : (if (x.id == fid) = true then g x else x).id = x.id := by split <;> simp [hg]
  have hfind : ((fun x : Flight => x.id == fid) ∘ fun x => if (x.id == fid) = true then g x else x) = fun x => x.id == fid := by
    funext x; simp only [Function.comp, hid]
  rw [Strand.flight?, updWhere, List.find?_map, hfind, show st.flights.find? (fun x => x.id == fid) = some f from h]
  simp [Strand.flight?_id h]

/-- The flight of a casket word that has acted: what it still has to do is to arrive. -/
def Flight.acted (f : Flight) (ws : List RegWrite) : Flight := { f with kind := .access, writes := f.writes ++ ws }

/-- The strand of a casket word that has acted. -/
def Strand.acted (st : Strand) (fid : Nat) (ws : List RegWrite) : Strand :=
  { st with flights := updWhere (fun g => g.id == fid) (fun g => g.acted ws) st.flights }

/-- The writes of a casket word: those of a read fill its handles. -/
def casketWrites (st : Strand) (op : CasOp) (m : MReg) (lanes : W32) (items : List CasItem) (vals : List W32) : List RegWrite :=
  if op = .read ∨ op = .readClr then cldWrites st m lanes items vals else []

theorem badLanes_nil : badLanes [] = 0 := by decide

/-- Where no error stands, every lane of a casket word takes part. -/
theorem Dev.applyCasket_eq {d : Dev} {sid : Nat} {st : Strand} {f : Flight} {op : CasOp} {m : MReg} {items : List CasItem}
    (hs : d.strand? sid = some st) (hk : f.kind = .casket op m items) (hbad : d.eccBad = []) :
    d.applyCasket sid f = (d.casketItems st.core op items items).1.onStrand sid fun x =>
      x.acted f.id (casketWrites st op m f.lanes items (d.casketItems st.core op items items).2) := by
  have hnone : d.casketBad st.core f = [] := by simp [Dev.casketBad, hk, hbad]
  have hlanes : f.lanes &&& ~~~badLanes (d.casketBad st.core f) = f.lanes := by rw [hnone, badLanes_nil]; exact BitVec.and_allOnes
  simp only [Dev.applyCasket, hk, hs, hlanes]
  rfl

theorem exec_matrixAccessCompletion_casket {s : State} {sid fid : Nat} {st : Strand} {f g : Flight} {op : CasOp} {m : MReg}
    {items : List CasItem} (hs : s.now.strand? sid = some st) (hf : st.flight? fid = some f) (hw : f.waits = 0)
    (hk : f.kind = .casket op m items) (hbad : s.now.eccBad = []) (hg : (s.now.applyCasket sid f).flight? sid fid = some g) :
    exec (.matrixAccessCompletion sid fid) s =
      .next { s with now := ((s.now.applyCasket sid f).unqueue st).landMatrix sid g } := by
  have hnone : s.now.casketBad st.core f = [] := by simp [Dev.casketBad, hk, hbad]
  rw [show exec (.matrixAccessCompletion sid fid) s = execMatrixAccessCompletion sid fid s from rfl]
  simp only [execMatrixAccessCompletion, State.event, State.onDev, Dev.flight?_eq hs hf, hs, hk, hw, hnone, hg]
  rfl

/-- The handles of different lanes are different destinations. -/
theorem nodup_names_cldWrites (st : Strand) (m : MReg) (lanes : W32) (items : List CasItem) (vals : List W32) :
    ((cldWrites st m lanes items vals).map writeNames).Nodup := by
  have hnames : (cldWrites st m lanes items vals).map writeNames = (lanesOf lanes).map fun l => .m l m := by
    simp only [cldWrites, List.map_map]; rfl
  rw [hnames]
  exact ((List.nodup_finRange 32).filter _).map fun a b hab => (Dest.m.inj hab).1

/-- A casket read's values of one lane, as numbers. -/
theorem laneValues_toNat (items : List CasItem) (vals : List W32) (l : LaneId) :
    (((items.zip vals).filter fun x => x.1.lane == l).map Prod.snd).map BitVec.toNat =
      ((items.zip (vals.map BitVec.toNat)).filter fun x => x.1.lane == l).map Prod.snd := by
  rw [List.zip_map_right, List.filter_map, List.map_map, List.map_map]
  rfl

theorem casketWord_arrives {s : State} {sid fid : Nat} {st : Strand} {f : Flight} {op : CasOp} {m : MReg} {items : List CasItem}
    (hs : s.now.strand? sid = some st) (hf : st.flight? fid = some f) (hw : f.waits = 0) (hne : noEntry st) (hwrites : f.writes = [])
    (hk : f.kind = .casket op m items) (hok : s.memOk) (hbad : s.now.eccBad = []) :
    ∃ t u, exec (.matrixAccessCompletion sid fid) s = .next t ∧ t.now.strand? sid = some u ∧ (∀ g ∈ u.flights, g.id ≠ fid) ∧
      (t.now.quad st.core st.quad).accessN = (s.now.quad st.core st.quad).accessN - 1 ∧
      (∀ k, outsideRcbs s k → Mem.get t.now.mem k = Mem.get (casketOn st.core op s.now.mem items).1 k) ∧
      (op = .read ∨ op = .readClr → ∀ l, hasLane f.lanes l = true → ∃ hd, (u.lane l).rm m = some hd ∧
        hd.els.map BitVec.toNat = ((items.zip (casketOn st.core op s.now.mem items).2).filter fun x => x.1.lane == l).map Prod.snd) := by
  obtain ⟨⟨hkept, -⟩, ⟨hwf, -, hget⟩, hvals⟩ :=
    Dev.casketItems_casketOn st.core op items items hbad (m := s.now.mem) ⟨hok.1, hok.1, fun _ => rfl⟩
  have hid : f.id = fid := Strand.flight?_id hf
  have happly := Dev.applyCasket_eq hs hk hbad
  rw [hid] at happly
  generalize (s.now.casketItems st.core op items items).2 = vals at happly hvals
  generalize (s.now.casketItems st.core op items items).1 = e at happly hkept hwf hget
  have hes : e.strand? sid = some st := by rw [hkept]; exact hs
  have hds : (s.now.applyCasket sid f).strand? sid = some (st.acted fid (casketWrites st op m f.lanes items vals)) := by
    rw [happly]; exact Dev.strand?_onStrand hes _ fun _ => rfl
  have hdf : (s.now.applyCasket sid f).flight? sid fid = some (f.acted (casketWrites st op m f.lanes items vals)) := by
    rw [Dev.flight?_of hds]; exact Strand.flight?_updWhere hf _ fun _ => rfl
  have hdm : (s.now.applyCasket sid f).mem = e.mem := by rw [happly]; rfl
  have hdr : (s.now.applyCasket sid f).regions = s.now.regions := by rw [happly]; exact (congrArg Dev.regions hkept :)
  have hdq : (s.now.applyCasket sid f).quad st.core st.quad = s.now.quad st.core st.quad := by
    rw [happly, hkept]; rfl
  obtain ⟨⟨u, hu, hl⟩, hmem, hqueue⟩ :=
    Dev.landMatrix_unqueue (st' := st) hds (noEntry_of_frags hne rfl) (f.acted (casketWrites st op m f.lanes items vals))
  refine ⟨_, u, exec_matrixAccessCompletion_casket hs hf hw hk hbad hdf, hu, hid ▸ hl.gone, hdq ▸ hqueue, fun k hk => ?_, fun hop l hl' => ?_⟩
  · obtain ⟨-, hkeep⟩ := hmem (hdm ▸ hwf)
    rw [hdr, hdm] at hkeep
    exact (hkeep k (outsideRcbs_ids hk)).trans (hget k)
  · have hws : (f.acted (casketWrites st op m f.lanes items vals)).writes = cldWrites st m f.lanes items vals := by
      simp only [Flight.acted, hwrites, List.nil_append, casketWrites, if_pos hop]
    have hw := hl.writes (by rw [hws]; exact nodup_names_cldWrites _ _ _ _ _)
    rw [hws] at hw
    have hmem : l ∈ lanesOf f.lanes := List.mem_filter.mpr ⟨List.mem_finRange l, hl'⟩
    exact ⟨_, hw _ (List.mem_map_of_mem hmem), by rw [laneValues_toNat, hvals]⟩

/-- The access queue completes dense matrix loads and casket words. -/
theorem accessQueue_completes : Claims.accessQueueCompletes := by
  intro sid fid s st f hs hf hw hne hwrites
  exact ⟨fun m form hk hfill hform hbufs => denseLoad_arrives hs hf hw hne hk hfill hform hbufs,
    fun op m items hk _ hok hbad => casketWord_arrives hs hf hw hne hwrites hk hok hbad⟩

end Sys2Proof.Machine

namespace Sys2Proof.Proofs
open Sys2Proof.Machine

/-- Settles O40: every arrival lands its flight and returns its blocks, which writes nothing but registers and the books of
the regions; the access queue's words do so after their handles are filled or their items have acted. -/
theorem resultsArrive : Obligations.ResultsArrive := ⟨arrivals_deliver, accessQueue_completes⟩

end Sys2Proof.Proofs
end

section
namespace Sys2Proof.Machine
open Sys2Proof.Claims (endsWith)

/-! ### Placement [17 R284] -/

theorem leastBy_eq_none {α : Type} {before : α → α → Bool} {xs : List α} (h : leastBy before xs = none) : xs = [] := by
  cases xs with
  | nil => rfl
  | cons x xs => rw [leastBy] at h; split at h <;> simp at h

/-- The first of a list in an order by falling rank has the highest rank. -/
theorem rank_le_leastBy {α : Type} {before : α → α → Bool} (rank : α → Nat)
    (hyes : ∀ a b, before a b = true → rank b ≤ rank a) (hno : ∀ a b, before a b = false → rank a ≤ rank b)
    {xs : List α} {y : α} (h : leastBy before xs = some y) : ∀ x ∈ xs, rank x ≤ rank y := by
  induction xs generalizing y with
  | nil => simp
  | cons a as ih =>
    rw [leastBy] at h
    cases hm : leastBy before as with
    | none =>
      rw [hm] at h
      simp [leastBy_eq_none hm, Option.some.inj h]
    | some b =>
      have hb := ih hm
      simp only [hm, Option.some.injEq] at h
      cases hba : before b a with
      | true =>
        rw [if_pos hba] at h
        subst h
        exact List.forall_mem_cons.mpr ⟨hyes _ _ hba, hb⟩
      | false =>
        rw [if_neg (by simp [hba])] at h
        subst h
        exact List.forall_mem_cons.mpr ⟨le_rfl, fun x hx => (hb x hx).trans (hno _ _ hba)⟩

/-- The order of placement is by falling region priority. -/
theorem Dev.prio_of_placeBefore (d : Dev) {a b : Job} (h : d.placeBefore a b = true) : d.prioOf b.region ≤ d.prioOf a.region := by
  unfold Dev.placeBefore at h
  split at h
  · rename_i hr; rw [hr]
  · split at h
    · exact (of_decide_eq_true h).le
    · omega

theorem Dev.prio_of_not_placeBefore (d : Dev) {a b : Job} (h : d.placeBefore a b = false) : d.prioOf a.region ≤ d.prioOf b.region := by
  unfold Dev.placeBefore at h
  split at h
  · rename_i hr; rw [hr]
  · split at h
    · have := of_decide_eq_false h; omega
    · omega

/-- No released task that fits has a higher region priority than the one that placement takes. -/
theorem Dev.nextPlaced_highest {d : Dev} {j : Job} {c : Fin 256} (h : d.nextPlaced = some (j, c)) :
    ∀ x ∈ d.releasedJobs, (d.coreFor x).isSome = true → d.waitsForRestore x = false → d.prioOf x.region ≤ d.prioOf j.region := by
  intro x hx hfit hwait
  unfold Dev.nextPlaced at h
  dsimp only at h
  split at h
  · simp at h
  · rename_i y hy
    obtain ⟨c', -, hc⟩ := Option.map_eq_some_iff.mp h
    obtain ⟨rfl, -⟩ := Prod.mk.inj hc
    refine rank_le_leastBy (fun j => d.prioOf j.region) (fun a b => d.prio_of_placeBefore) (fun a b => d.prio_of_not_placeBefore) hy x ?_
    exact List.mem_filter.mpr ⟨hx, by simp [hfit, hwait]⟩

/-- A job as placement leaves it. -/
def Job.placedOn (c : Fin 256) (base : Nat) (j : Job) : Job :=
  { j with st := .placed, core := c, sbase := base, caps := [], walkAt := (0, 0) }

/-- Beside the job's own record, placement does upkeep. -/
theorem Dev.placeJob_upkeep (d : Dev) (j : Job) (c : Fin 256) :
    (d.onJob j.id (Job.placedOn c (((d.core c).findKib j.scratch).getD 0))).onlyUpkeep (d.placeJob j c) := by
  unfold Dev.placeJob
  dsimp only
  have hbooks (e : Dev) : e.onlyUpkeep ((e.showQueue j.region).updChain j.region fun r =>
      { r with useSlots := r.useSlots + j.strands, useScratch := r.useScratch + j.scratch }) :=
    (e.onlyMemory_showQueue _).upkeep.trans (Dev.onlyBooks_updChain _ _ _).upkeep
  split
  · exact hbooks _
  · exact (hbooks _).trans ((Dev.onlyUpkeep_onCore _ c _).trans (Dev.onlyMemory_zeroRange _ _ _).upkeep)

/-- A job of a number is one that was changed, where all jobs of the number were. -/
theorem Dev.mem_onJob {d : Dev} {tid : Nat} {f : Job → Job} {x : Job} (hx : x ∈ (d.onJob tid f).jobs)
    (hid : x.id = tid) : ∃ y ∈ d.jobs, x = f y := by
  rw [Dev.onJob_jobs, updWhere] at hx
  obtain ⟨y, hy, rfl⟩ := List.mem_map.mp hx
  by_cases h : y.id = tid
  · exact ⟨y, hy, by simp [h]⟩
  · simp [h] at hid

theorem taskPlacement_places {tid : Nat} {s : State} {j : Job} {c : Fin 256} (h : s.now.nextPlaced = some (j, c)) (hid : j.id = tid) :
    ∃ t due, exec (.taskPlacement tid) s = .next t ∧ s.now.cycle < due ∧ (due, Instr.taskLaunch tid) ∈ t.now.agenda ∧
      ∀ x ∈ t.now.jobs, x.id = tid → x.st = .placed ∧ x.core = c := by
  have hup := s.now.placeJob_upkeep j c
  refine ⟨{ s with now := (s.now.placeJob j c).planSomeday (.taskLaunch tid) }, (s.now.placeJob j c).someday, ?_, ?_, ?_, ?_⟩
  · rw [show exec (.taskPlacement tid) s = execTaskPlacement tid s from rfl]
    simp only [execTaskPlacement, State.event, State.onDev, h, hid, if_true]
  · have hcycle : (s.now.placeJob j c).cycle = s.now.cycle := hup.cycle
    rw [Dev.someday, hcycle]
    omega
  · exact List.mem_append_right _ List.mem_cons_self
  · intro x hx hxid
    have hjobs : x ∈ (s.now.placeJob j c).jobs := hx
    rw [hup.jobs] at hjobs
    obtain ⟨y, -, rfl⟩ := Dev.mem_onJob hjobs (hxid.trans hid.symm)
    exact ⟨rfl, rfl⟩

/-- A job that waits has been noted to have waited 1 ms. -/
def Job.waited (j : Job) : Job := if j.st = .released then { j with over1ms := true } else j

theorem placementWaitLimit_notes (tid : Nat) (s : State) :
    ∃ t, exec (.placementWaitLimit tid) s = .next t ∧ sameMemory s t ∧
      ∀ j, s.now.job? tid = some j → j.st = .released → t.now.job? tid = some { j with over1ms := true } := by
  refine ⟨{ s with now := s.now.onJob tid Job.waited }, rfl, fun _ => rfl, fun j hj hst => ?_⟩
  have hid (x : Job) : x.waited.id = x.id := by unfold Job.waited; split <;> rfl
  refine (Dev.job?_onJob hj Job.waited hid).trans ?_
  rw [Job.waited, if_pos hst]

/-! ### The launch walk [13 R210] -/

/-- The addresses whose walks the lease unit reads. -/
def walkedFrom (j : Job) (caps : List Capture) (at_ : Nat × Nat) (e : Option WalkFail) : List Nat :=
  (caps.drop j.caps.length).map (fun c => c.x.base) ++ if e.isSome then [at_.2] else []

/-- The device after a task's launch walk: what it read is corrected, and the job holds its captures. -/
def Dev.walkedBy (d : Dev) (tid : Nat) (j : Job) (r : Region) (caps : List Capture) (at_ : Nat × Nat) (e : Option WalkFail) : Dev :=
  ((walkedFrom j caps at_ e).foldl (fun d va => d.correctWalk r va) d).onJob tid fun j => { j with caps := caps, walkAt := at_ }

/-- What a launch does once its walk has ended. -/
def Dev.launchAfter (d : Dev) (tid : Nat) (j : Job) (r : Region) : Option WalkFail → Dev
  | some e =>
    if e.fail.code = 0x21 then d.lostWalk j e
    else if d.sysEntry = 0 ∨ r.sysEnds then d.noStart j e
    else (d.onJob tid fun j => { j with st := .walkFault }).walkStrand j r e
  | none => ((d.onJob tid fun j => { j with st := .running }).setJobState j 3).launchStrands j r (List.range j.strands)

theorem exec_taskLaunch {tid : Nat} {s : State} {j : Job} {r : Region} {ranges : List LeaseRange} {caps : List Capture} {at_ : Nat × Nat}
    {e : Option WalkFail} (hj : s.now.job? tid = some j) (hr : s.now.region? j.region = some r) (hst : j.st = .placed ∨ j.st = .walkFault)
    (hw : s.now.walking tid = false) (hranges : ranges = if j.fin then [] else j.leases ++ r.leases)
    (hcap : s.now.captureFrom r (ranges.drop j.walkAt.1) j.walkAt.1 j.walkAt.2 j.caps = (caps, at_, e)) :
    exec (.taskLaunch tid) s = .next { s with now := (s.now.walkedBy tid j r caps at_ e).launchAfter tid j r e } := by
  subst hranges
  rw [show exec (.taskLaunch tid) s = execTaskLaunch tid s from rfl]
  simp only [execTaskLaunch, State.event, State.onDev, hj, hr, hw, hcap]
  rw [if_pos ⟨hst, by simp⟩]
  rfl

section
variable {d : Dev} {tid : Nat} {j : Job} (r : Region) (caps : List Capture) (at_ : Nat × Nat) (e : Option WalkFail)

theorem Dev.onlyMemory_walks (xs : List Nat) : d.onlyMemory (xs.foldl (fun d va => d.correctWalk r va) d) :=
  .foldl (fun d va => d.onlyMemory_correctWalk r va) xs d

theorem Dev.job?_walkedBy (hj : d.job? tid = some j) :
    (d.walkedBy tid j r caps at_ e).job? tid = some { j with caps := caps, walkAt := at_ } :=
  Dev.job?_onJob (((Dev.onlyMemory_walks r _).upkeep.job? tid).trans hj) _ fun _ => rfl

theorem Dev.sysEntry_walkedBy : (d.walkedBy tid j r caps at_ e).sysEntry = d.sysEntry :=
  (Dev.onlyMemory_walks (d := d) r (walkedFrom j caps at_ e)).upkeep.sysEntry

end

/-- A placed task that ends without starting waits for its end with the walk's report [13 R210]. -/
theorem Dev.job?_noStart {d : Dev} {tid : Nat} {j j' : Job} (e : WalkFail) (hid : j.id = tid) (hj : d.job? tid = some j') :
    ∃ x rep, (d.noStart j e).job? tid = some x ∧ x.st = .ending (some rep) false ∧ rep.code = e.fail.code := by
  subst hid
  have hup : (d.unplace j).job? j.id = some j' := ((d.onlyUpkeep_unplace j).job? _).trans hj
  exact ⟨_, walkReport j' e, Dev.job?_onJob hup _ fun _ => rfl, rfl, rfl⟩

theorem Dev.job?_lostWalk {d : Dev} {tid : Nat} {j j' : Job} (e : WalkFail) (hid : j.id = tid) (hj : d.job? tid = some j') :
    ∃ x rep, (d.lostWalk j e).job? tid = some x ∧ x.st = .ending (some rep) false ∧ rep.code = e.fail.code :=
  Dev.job?_noStart e hid ((((d.onlyMemory_countUnc).upkeep.trans (Dev.onlyUpkeep_countMchk _ _)).job? tid).trans hj)

/-- A strand that was added is on the device. -/
theorem Dev.mem_all_of_strands {d : Dev} {st : Strand} (h : st ∈ d.strands) (h0 : st.id ≠ 0) : st ∈ d.all :=
  List.mem_filter.mpr ⟨List.mem_cons_of_mem _ h, by simp [h0]⟩

/-- A walk that fails starts the system strand of the task [13 R210; 21 R325]. -/
theorem Dev.walkStrand_starts (d : Dev) (j : Job) (r : Region) (e : WalkFail) :
    ∃ st f, st ∈ (d.walkStrand j r e).all ∧ st.task = j.id ∧ st.kind = .launchWalk ∧ st.frag 0 = some f ∧ f.prv = true ∧
      f.pc = d.sysEntry ∧ f.mask = 1 :=
  ⟨_, _, Dev.mem_all_of_strands (List.mem_append_right _ List.mem_cons_self) (Nat.succ_ne_zero d.seq), rfl, rfl, rfl, rfl, rfl, rfl⟩

section
variable {tid : Nat} {s : State} {j : Job} {r : Region} {ranges : List LeaseRange} {caps : List Capture} {at_ : Nat × Nat} {e : WalkFail}
  (hj : s.now.job? tid = some j) (hr : s.now.region? j.region = some r) (hst : j.st = .placed ∨ j.st = .walkFault)
  (hw : s.now.walking tid = false) (hranges : ranges = if j.fin then [] else j.leases ++ r.leases)
  (hcap : s.now.captureFrom r (ranges.drop j.walkAt.1) j.walkAt.1 j.walkAt.2 j.caps = (caps, at_, some e))

include hj hr hst hw hranges hcap

theorem taskLaunch_walkFault (hcode : e.fail.code ≠ 0x21) (hsys : s.now.sysEntry ≠ 0) (hends : r.sysEnds = false) :
    ∃ t st f, exec (.taskLaunch tid) s = .next t ∧ st ∈ t.now.all ∧ st.task = tid ∧ st.kind = .launchWalk ∧
      st.frag 0 = some f ∧ f.prv = true ∧ f.pc = s.now.sysEntry ∧ f.mask = 1 := by
  have hentry := Dev.sysEntry_walkedBy (d := s.now) (tid := tid) (j := j) r caps at_ (some e)
  have hgo : (s.now.walkedBy tid j r caps at_ (some e)).launchAfter tid j r (some e) =
      ((s.now.walkedBy tid j r caps at_ (some e)).onJob tid fun j => { j with st := .walkFault }).walkStrand j r e := by
    simp only [Dev.launchAfter, hentry]
    rw [if_neg hcode, if_neg (by rintro (h | h); exacts [hsys h, absurd h (by simp [hends])])]
  obtain ⟨st, f, hmem, htask, hkind, hfrag, hprv, hpc, hmask⟩ :=
    Dev.walkStrand_starts ((s.now.walkedBy tid j r caps at_ (some e)).onJob tid fun j => { j with st := .walkFault }) j r e
  exact ⟨_, st, f, exec_taskLaunch hj hr hst hw hranges hcap, hgo ▸ hmem, htask.trans (Dev.job?_id hj), hkind, hfrag, hprv,
    hpc.trans hentry, hmask⟩

theorem taskLaunch_noStart (hno : e.fail.code = 0x21 ∨ s.now.sysEntry = 0 ∨ r.sysEnds = true) :
    ∃ t, exec (.taskLaunch tid) s = .next t ∧ endsWith t tid fun rep => rep.code = e.fail.code := by
  refine ⟨_, exec_taskLaunch hj hr hst hw hranges hcap, ?_⟩
  have hjob := Dev.job?_walkedBy r caps at_ (some e) hj
  have hentry := Dev.sysEntry_walkedBy (d := s.now) (tid := tid) (j := j) r caps at_ (some e)
  simp only [endsWith, Dev.launchAfter, hentry]
  split
  · exact Dev.job?_lostWalk e (Dev.job?_id hj) hjob
  · rename_i hcode
    rw [if_pos (hno.resolve_left hcode)]
    exact Dev.job?_noStart e (Dev.job?_id hj) hjob

end

/-! ### The launch [01 R10; 09 R163, R164] -/

theorem pair_lo_hi (v : W64) : pair (lo32 v) (hi32 v) = v := by
  refine BitVec.eq_of_toNat_eq ?_
  rw [pair_toNat, lo32, hi32, BitVec.extractLsb'_toNat, BitVec.extractLsb'_toNat, Nat.shiftRight_eq_div_pow, Nat.shiftRight_eq_div_pow]
  omega

/-- The strand that a task's launch starts as its n-th. -/
def Dev.launchStrand (d : Dev) (j : Job) (r : Region) (n : Nat) : Strand :=
  ({ d.newStrand (if j.fin then .finaliser else .task) r j.core (Fin.ofNat 4 n) j.threads j.entry with
      task := j.id, strandid := BitVec.ofNat 32 n, taskidx := BitVec.ofNat 32 j.idx, batchn := BitVec.ofNat 32 j.n, leasebase := j.lease } :
    Strand).wkpair 0 j.arg

/-- Strand n of a task as its launch starts it [01 R10; 09 R163, R164]. -/
def launchedAs (j : Job) (r : Region) (n : Nat) (st : Strand) : Prop :=
  st.task = j.id ∧ st.strandid = BitVec.ofNat 32 n ∧ st.quad.val = n % 4 ∧ st.core = j.core ∧
    st.region = r.id ∧ st.rkpair 0 = j.arg ∧ (∀ q : KReg, 2 ≤ q.val → st.rk q = 0) ∧ st.flights = [] ∧
    (∀ l, (st.lane l).present = decide (l.val < j.threads) ∧ (st.lane l).exited = false ∧ (∀ q, (st.lane l).rg q = 0) ∧
      ∀ m, (st.lane l).rm m = none) ∧
    ∃ f, st.frag 0 = some f ∧ f.pc = j.entry ∧ f.pos = 0 ∧ f.st = .ready ∧ f.prv = false ∧
      ∀ l, hasLane f.mask l = decide (l.val < j.threads)

theorem Strand.rkpair_wkpair (st : Strand) (v : W64) : (st.wkpair 0 v).rkpair 0 = v := by
  have h01 : ((0 : KReg).plus 1 = 0) = False := by decide
  simp only [Strand.rkpair, Strand.wkpair, Strand.rk_wk, h01, if_true, if_false, pair_lo_hi]

theorem Strand.rk_wkpair_other (st : Strand) (v : W64) {q : KReg} (hq : 2 ≤ q.val) : (st.wkpair 0 v).rk q = st.rk q := by
  have h0 : (0 : KReg) ≠ q := fun h => by subst h; simp at hq
  have h1 : (0 : KReg).plus 1 ≠ q := fun h => by subst h; revert hq; decide
  simp only [Strand.wkpair, Strand.rk_wk, if_neg h0, if_neg h1]

theorem Dev.lane_newStrand (d : Dev) (kind : StrandKind) (r : Region) (c : Fin 256) (q : Fin 4) (threads : Nat) (entry : W64) (l : LaneId) :
    (d.newStrand kind r c q threads entry).lane l = { Lane.start with present := decide (l.val < threads) } := by
  simp only [Dev.newStrand, Strand.lane, Fin.getElem_fin, Vector.getElem_ofFn]

theorem Lane.rg_start (q : GReg) : Lane.start.rg q = 0 := by simp [Lane.rg, Lane.start]
theorem Lane.rm_start (m : MReg) : Lane.start.rm m = none := by simp [Lane.rm, Lane.start]

theorem Dev.launchStrand_as (d : Dev) (j : Job) (r : Region) (n : Nat) : launchedAs j r n (d.launchStrand j r n) := by
  refine ⟨rfl, rfl, rfl, rfl, rfl, Strand.rkpair_wkpair _ _, fun q hq => ?_, rfl, fun l => ?_, ?_⟩
  · refine (Strand.rk_wkpair_other _ _ hq).trans ?_
    simp [Strand.rk, Dev.newStrand, Strand.idle]
  · have hl : (d.launchStrand j r n).lane l = { Lane.start with present := decide (l.val < j.threads) } :=
      Dev.lane_newStrand d (if j.fin then .finaliser else .task) r j.core (Fin.ofNat 4 n) j.threads j.entry l
    rw [hl]
    exact ⟨rfl, rfl, Lane.rg_start, Lane.rm_start⟩
  · exact ⟨_, rfl, rfl, rfl, rfl, rfl, fun l => hasLane_maskOf _ l⟩

/-- A strand with an aligned entry takes its place [02 R22]. -/
theorem Dev.startStrand_aligned (d : Dev) (st : Strand) {entry : W64} (h : entry.toNat % 12 = 0) :
    d.startStrand st entry = { d.bump with strands := d.strands ++ [st] } := by
  simp only [Dev.startStrand, h, if_true]

/-- Every strand of a running task with an aligned entry starts, and none that is there goes. -/
theorem Dev.launchStrands_start {tid : Nat} {j x : Job} (r : Region) (hid : j.id = tid) (halign : j.entry.toNat % 12 = 0) (hx : x.st = .running)
    (ns : List Nat) {d : Dev} (hjob : d.job? tid = some x) :
    (d.launchStrands j r ns).job? tid = some x ∧ d.strands ⊆ (d.launchStrands j r ns).strands ∧
      ∀ n ∈ ns, ∃ st ∈ (d.launchStrands j r ns).strands, st.id ≠ 0 ∧ launchedAs j r n st := by
  induction ns generalizing d with
  | nil => exact ⟨hjob, fun _ h => h, by simp⟩
  | cons n ns ih =>
    have hrun : ((d.job? j.id).any fun x => x.st == .running) = true := by rw [hid, hjob]; simp [hx]
    have hstep : d.launchStrands j r (n :: ns) =
        Dev.launchStrands { d.bump with strands := d.strands ++ [d.launchStrand j r n] } j r ns := by
      rw [Dev.launchStrands]
      simp only [hrun, if_true, Dev.startStrand_aligned _ _ halign]
      rfl
    obtain ⟨ijob, ikeep, iall⟩ := ih (d := { d.bump with strands := d.strands ++ [d.launchStrand j r n] }) hjob
    rw [hstep]
    refine ⟨ijob, fun st h => ikeep (List.mem_append_left _ h), List.forall_mem_cons.mpr ⟨?_, iall⟩⟩
    exact ⟨d.launchStrand j r n, ikeep (List.mem_append_right _ List.mem_cons_self), Nat.succ_ne_zero d.seq, d.launchStrand_as j r n⟩

theorem taskLaunch_starts {tid : Nat} {s : State} {j : Job} {r : Region} {ranges : List LeaseRange} {caps : List Capture} {at_ : Nat × Nat}
    (hj : s.now.job? tid = some j) (hr : s.now.region? j.region = some r) (hst : j.st = .placed ∨ j.st = .walkFault)
    (hw : s.now.walking tid = false) (hranges : ranges = if j.fin then [] else j.leases ++ r.leases)
    (hcap : s.now.captureFrom r (ranges.drop j.walkAt.1) j.walkAt.1 j.walkAt.2 j.caps = (caps, at_, none)) (halign : j.entry.toNat % 12 = 0) :
    ∃ t, exec (.taskLaunch tid) s = .next t ∧ (∃ x, t.now.job? tid = some x ∧ x.st = .running ∧ x.caps = caps) ∧
      ∀ n, n < j.strands → ∃ st ∈ t.now.all, launchedAs j r n st := by
  have hid := Dev.job?_id hj
  have hjob := Dev.job?_onJob (Dev.job?_walkedBy r caps at_ none hj) (fun j => { j with st := .running }) fun _ => rfl
  have hjob' := ((Dev.onlyMemory_setJobState _ j 3).upkeep.job? tid).trans hjob
  obtain ⟨hlast, -, hall⟩ := Dev.launchStrands_start r hid halign rfl (List.range j.strands) hjob'
  refine ⟨_, exec_taskLaunch hj hr hst hw hranges hcap, ⟨_, hlast, rfl, rfl⟩, fun n hn => ?_⟩
  obtain ⟨st, hmem, h0, has⟩ := hall n (List.mem_range.mpr hn)
  exact ⟨st, Dev.mem_all_of_strands hmem h0, has⟩

/-- Placement, the note of 1 ms, and the launch. -/
theorem tasks_start : Claims.taskStarts := by
  refine ⟨fun tid s j c h hid => ⟨Dev.nextPlaced_highest h, taskPlacement_places h hid⟩, placementWaitLimit_notes, ?_⟩
  intro tid s j r ranges caps at_ hj hr hst hw hranges
  refine ⟨fun hcap halign => ?_, fun e hcap => ⟨?_, ?_⟩⟩
  · obtain ⟨t, hexec, hjob, hall⟩ := taskLaunch_starts hj hr hst hw hranges hcap halign
    refine ⟨t, hexec, hjob, fun n hn => ?_⟩
    obtain ⟨st, hmem, htask, has⟩ := hall n hn
    exact ⟨st, hmem, htask.trans (Dev.job?_id hj), has⟩
  · exact taskLaunch_walkFault hj hr hst hw hranges hcap
  · exact taskLaunch_noStart hj hr hst hw hranges hcap

end Sys2Proof.Machine
end

section
namespace Sys2Proof.Machine

/-! ### What a task's end frees [17 R280] -/

/-- The run that starts at a bank is gone from its core; every other run stays. -/
theorem Dev.banks_dropBanks (d : Dev) (c c' : Fin 256) (region first : Nat) :
    ((d.dropBanks c region first).core c').banks =
      if c = c' then (d.core c).banks.filter fun r => r.first != first else (d.core c').banks := by
  cases hrun : (d.core c).banks.find? fun r => r.first == first with
  | none =>
    simp only [Dev.dropBanks, hrun]
    split
    · rename_i hc
      subst hc
      exact (List.filter_eq_self.mpr fun r hr => by simpa using List.find?_eq_none.mp hrun r hr).symm
    · rfl
  | some run =>
    simp only [Dev.dropBanks, hrun]
    rw [Dev.core, (Dev.onlyBooks_updChain _ _ _).cores, ← Dev.core, d.core_onCore]
    split <;> rfl

/-- Of the runs that were there, none starts where a freed one does. -/
theorem Dev.banks_drops (region : Nat) (runs : List (Fin 256 × BankRun)) {d : Dev} {c : Fin 256} {r : BankRun}
    (h : r ∈ ((runs.foldl (fun d x => d.dropBanks x.1 region x.2.first) d).core c).banks) :
    r ∈ (d.core c).banks ∧ ∀ x ∈ runs, x.1 = c → r.first ≠ x.2.first := by
  induction runs generalizing d with
  | nil => exact ⟨h, by simp⟩
  | cons x xs ih =>
    obtain ⟨hr, hxs⟩ := ih h
    rw [Dev.banks_dropBanks] at hr
    by_cases hc : x.1 = c
    · rw [if_pos hc, List.mem_filter, hc] at hr
      exact ⟨hr.1, List.forall_mem_cons.mpr ⟨fun _ => by simpa using hr.2, hxs⟩⟩
    · rw [if_neg hc] at hr
      exact ⟨hr, List.forall_mem_cons.mpr ⟨fun h => absurd h hc, hxs⟩⟩

/-- The bank runs of a task, by core. -/
def Dev.taskRuns (d : Dev) (tid : Nat) : List (Fin 256 × BankRun) :=
  (List.finRange 256).flatMap fun c => ((d.core c).banks.filter fun r => r.task == tid).map fun r => (c, r)

theorem Dev.mem_taskRuns {d : Dev} {c : Fin 256} {r : BankRun} (h : r ∈ (d.core c).banks) : (c, r) ∈ d.taskRuns r.task :=
  List.mem_flatMap.mpr ⟨c, List.mem_finRange c, List.mem_map_of_mem (List.mem_filter.mpr ⟨h, beq_self_eq_true _⟩)⟩

/-- The device with a task's banks freed, and then its scratchpad. -/
def Dev.banksFreed (d : Dev) (j : Job) : Dev := (d.taskRuns j.id).foldl (fun d x => d.dropBanks x.1 j.region x.2.first) d

def Dev.scratchFreed (d : Dev) (j : Job) : Dev :=
  (d.banksFreed j).onCore j.core fun k => { k with scratch := k.scratch.filter fun r => r.task != j.id }

theorem Dev.banks_banksFreed (d : Dev) (j : Job) (c : Fin 256) : ∀ r ∈ ((d.banksFreed j).core c).banks, r.task ≠ j.id := by
  intro r hr htask
  obtain ⟨hmem, hfirst⟩ := Dev.banks_drops j.region (d.taskRuns j.id) hr
  exact hfirst (c, r) (htask ▸ Dev.mem_taskRuns hmem) rfl rfl

/-- What a task's end frees beyond its banks and scratchpad is booked, not held by a core. -/
theorem Dev.freeTask_books (d : Dev) (j : Job) : (d.scratchFreed j).onlyBooks (d.freeTask j) := by
  unfold Dev.freeTask
  refine .trans ?_ (.foldl (fun d c => ?_) _ _)
  · exact (Dev.onlyBooks_updChain _ _ _).trans (Dev.onlyMemory_clearSave _ _).books
  · split
    · exact d.onlyBooks_addShadow _ _ _
    · rfl

/-- Neither a bank nor scratchpad of its core is the task's after its end [17 R280]. -/
theorem Dev.freeTask_frees (d : Dev) (j : Job) :
    (∀ c, ∀ r ∈ ((d.freeTask j).core c).banks, r.task ≠ j.id) ∧ ∀ r ∈ ((d.freeTask j).core j.core).scratch, r.task ≠ j.id := by
  have hcore (c : Fin 256) : (d.freeTask j).core c = (d.scratchFreed j).core c := by
    rw [Dev.core, (d.freeTask_books j).cores, ← Dev.core]
  refine ⟨fun c r hr => ?_, fun r hr => ?_⟩
  · refine d.banks_banksFreed j c r ?_
    rw [hcore, Dev.scratchFreed, Dev.core_onCore] at hr
    split at hr
    · rename_i hc
      subst hc
      exact hr
    · exact hr
  · rw [hcore, Dev.scratchFreed, Dev.core_onCore, if_pos rfl, List.mem_filter] at hr
    simpa using hr.2

theorem Dev.onlyUpkeep_freeTask (d : Dev) (j : Job) : d.onlyUpkeep (d.freeTask j) := by
  refine .trans ?_ (d.freeTask_books j).upkeep
  have hbanks : d.onlyUpkeep (d.banksFreed j) := .foldl (fun d (x : Fin 256 × BankRun) => d.onlyUpkeep_dropBanks x.1 j.region x.2.first) _ d
  exact hbanks.trans (Dev.onlyUpkeep_onCore _ _ _)

/-! ### A job finishes [17 R280, R281] -/

/-- Cores stay, and every job is one that was there, with its number and its state. -/
def Dev.jobsKept (d e : Dev) : Prop := e.cores = d.cores ∧ ∀ x ∈ e.jobs, ∃ y ∈ d.jobs, x.id = y.id ∧ x.st = y.st

theorem Dev.jobsKept.trans {d e f : Dev} (h : d.jobsKept e) (k : e.jobsKept f) : d.jobsKept f := by
  refine ⟨k.1.trans h.1, fun x hx => ?_⟩
  obtain ⟨y, hy, hid, hst⟩ := k.2 x hx
  obtain ⟨z, hz, hid', hst'⟩ := h.2 y hy
  exact ⟨z, hz, hid.trans hid', hst.trans hst'⟩

theorem Dev.onlyBooks.jobsKept {d e : Dev} (h : d.onlyBooks e) : d.jobsKept e :=
  ⟨h.cores, fun x hx => ⟨x, h.upkeep.jobs ▸ hx, rfl, rfl⟩⟩

theorem Dev.jobsKept_passOn (d : Dev) (j : Job) : d.jobsKept (d.passOn j) := by
  unfold Dev.passOn
  split
  · exact (Dev.onlyBooks.refl d).jobsKept
  · refine ⟨(d.onlyMemory_noteList _ _ _ _).books.cores, fun x hx => ?_⟩
    obtain ⟨y, hy, rfl⟩ := List.mem_map.mp hx
    exact ⟨y, hy, by split <;> rfl, by split <;> rfl⟩

theorem Dev.jobsKept_handBatch (d : Dev) (j : Job) : d.jobsKept (d.handBatch j) := by
  unfold Dev.handBatch
  split
  · exact d.jobsKept_passOn j
  · exact (Dev.onlyBooks.refl d).jobsKept

theorem Dev.jobsKept_closeBatch (d : Dev) (batch : Nat) : d.jobsKept (d.closeBatch batch) := by
  unfold Dev.closeBatch
  split
  · exact (Dev.onlyBooks.refl d).jobsKept
  · dsimp only
    split
    · refine .trans (e := { d with jobs := d.jobs.filter fun x => x.batch != batch }) ?_
        ((Dev.onlyMemory_setJobState _ _ _).books.trans (Dev.onlyBooks_taskOut _ _)).jobsKept
      exact ⟨rfl, fun x hx => ⟨x, (List.mem_filter.mp hx).1, rfl, rfl⟩⟩
    · exact (Dev.onlyBooks.refl d).jobsKept

/-- Every job of the number has finished. -/
theorem Dev.finishJob_finished {d : Dev} {tid : Nat} {j : Job} (good cancel : Bool) (hj : d.job? tid = some j) :
    (d.finishJob tid good cancel).cores = d.cores ∧ ∀ x ∈ (d.finishJob tid good cancel).jobs, x.id = tid → x.st = .finished good := by
  have hkept := (Dev.jobsKept_handBatch (d.onJob tid fun j => { j with st := .finished good, cancelled := j.cancelled || cancel }) j).trans
    (Dev.jobsKept_closeBatch _ j.batch)
  simp only [Dev.finishJob, hj]
  refine ⟨hkept.1, fun x hx hid => ?_⟩
  obtain ⟨y, hy, hxy, hst⟩ := hkept.2 x hx
  obtain ⟨z, -, rfl⟩ := Dev.mem_onJob hy (hxy ▸ hid)
  exact hst

/-- The device after a task's end, but for its report. -/
def Dev.taskEnded (d : Dev) (j : Job) (good cancel : Bool) : Dev := (d.freeTask j).finishJob j.id good cancel

/-- The task has finished, and its banks and scratchpad are free. -/
def Dev.freedOf (d : Dev) (tid : Nat) (core : Fin 256) (good : Bool) : Prop :=
  (∀ x ∈ d.jobs, x.id = tid → x.st = .finished good) ∧ (∀ c, ∀ r ∈ (d.core c).banks, r.task ≠ tid) ∧
    ∀ r ∈ (d.core core).scratch, r.task ≠ tid

theorem Dev.freedOf_taskEnded {d : Dev} {tid : Nat} {j : Job} (good cancel : Bool) (hj : d.job? tid = some j) :
    (d.taskEnded j good cancel).freedOf tid j.core good := by
  have hid : j.id = tid := Dev.job?_id hj
  subst hid
  obtain ⟨hcores, hfin⟩ := Dev.finishJob_finished good cancel (((d.onlyUpkeep_freeTask j).job? j.id).trans hj)
  have hcore (c : Fin 256) : (d.taskEnded j good cancel).core c = (d.freeTask j).core c := by
    rw [Dev.core, Dev.taskEnded, hcores, ← Dev.core]
  obtain ⟨hbanks, hscratch⟩ := d.freeTask_frees j
  exact ⟨hfin, fun c => hcore c ▸ hbanks c, hcore j.core ▸ hscratch⟩

theorem Dev.freedOf.books {d e : Dev} {tid : Nat} {core : Fin 256} {good : Bool} (h : d.freedOf tid core good) (k : d.onlyBooks e) :
    e.freedOf tid core good := by
  have hcore (c : Fin 256) : e.core c = d.core c := by rw [Dev.core, k.cores, ← Dev.core]
  obtain ⟨hjobs, hbanks, hscratch⟩ := h
  exact ⟨fun x hx => hjobs x (k.upkeep.jobs ▸ hx), fun c => hcore c ▸ hbanks c, hcore core ▸ hscratch⟩

/-- The report of a task's end, if it has one, is written. -/
def Dev.reportOf (d : Dev) (j : Job) : Option Report → Dev
  | none => d
  | some r => d.reportEnd j r

theorem Dev.onlyBooks_reportOf (d : Dev) (j : Job) (r : Option Report) : d.onlyBooks (d.reportOf j r) := by
  cases r with
  | none => rfl
  | some r => exact d.onlyBooks_reportEnd j r

theorem exec_taskEnd_running {tid : Nat} {s : State} {j : Job} (hj : s.now.job? tid = some j) (hready : s.now.endReady j = true)
    (hst : j.st = .running) : exec (.taskEnd tid) s = .next { s with now := s.now.taskEnded j true false } := by
  rw [show exec (.taskEnd tid) s = execTaskEnd tid s from rfl]
  simp only [execTaskEnd, State.event, State.onDev, hj, hready, hst, Dev.taskEnded, Dev.job?_id hj]
  rfl

theorem exec_taskEnd_ending {tid : Nat} {s : State} {j : Job} {r : Option Report} {cancel : Bool} (hj : s.now.job? tid = some j)
    (hready : s.now.endReady j = true) (hst : j.st = .ending r cancel) :
    exec (.taskEnd tid) s = .next { s with now := (s.now.taskEnded j false cancel).reportOf j r } := by
  rw [show exec (.taskEnd tid) s = execTaskEnd tid s from rfl]
  simp only [execTaskEnd, State.event, State.onDev, hj, hready, hst, Dev.taskEnded, Dev.job?_id hj]
  cases r <;> rfl

theorem taskEnd_ends {tid : Nat} {s : State} {j : Job} (hj : s.now.job? tid = some j) (hready : s.now.endReady j = true)
    (hst : j.st = .running ∨ ∃ r c, j.st = .ending r c) :
    ∃ t, exec (.taskEnd tid) s = .next t ∧ (∀ x ∈ t.now.jobs, x.id = tid → ∃ g, x.st = .finished g ∧ (g = true ↔ j.st = .running)) ∧
      (∀ c, ∀ r ∈ (t.now.core c).banks, r.task ≠ tid) ∧ ∀ r ∈ (t.now.core j.core).scratch, r.task ≠ tid := by
  rcases hst with hst | ⟨r, cancel, hst⟩
  · obtain ⟨hjobs, hbanks, hscratch⟩ := Dev.freedOf_taskEnded true false hj
    exact ⟨_, exec_taskEnd_running hj hready hst, fun x hx hid => ⟨true, hjobs x hx hid, by simp [hst]⟩, hbanks, hscratch⟩
  · obtain ⟨hjobs, hbanks, hscratch⟩ := (Dev.freedOf_taskEnded false cancel hj).books (Dev.onlyBooks_reportOf _ j r)
    exact ⟨_, exec_taskEnd_ending hj hready hst, fun x hx hid => ⟨false, hjobs x hx hid, by simp [hst]⟩, hbanks, hscratch⟩

/-! ### A region is unlinked [17 R279] -/

theorem foldl_keeps {α β γ : Type} (p : β → γ) {f : β → α → β} (h : ∀ b a, p (f b a) = p b) (xs : List α) (b : β) :
    p (xs.foldl f b) = p b := by
  induction xs generalizing b with
  | nil => rfl
  | cons x xs ih => exact (ih _).trans (h b x)

/-- A layer's range that is unbound leaves the regions. -/
theorem Dev.unbindLayer_regions (d : Dev) (region layer : Nat) : (d.unbindLayer region layer).regions = d.regions := by
  unfold Dev.unbindLayer
  split
  · rfl
  · refine (foldl_keeps Dev.regions (fun d w => ?_) _ _).trans rfl
    refine Eq.trans (b := (w.bytes.zipIdx.foldl _ d).regions) rfl (foldl_keeps Dev.regions (fun d x => ?_) _ d)
    split <;> rfl

theorem Dev.endParure_regions (d : Dev) (r : Region) : (d.endParure r).regions = d.regions :=
  foldl_keeps Dev.regions (fun d j => (Dev.unbindLayer_regions _ r.id j).trans (d.onlyMemory_layerPut _ _ _ _ _).regions) _ d

theorem Dev.notify_regions (d : Dev) (region ev : Nat) : (d.notify region ev).regions = d.regions :=
  foldl_keeps Dev.regions (f := fun (d : Dev) (e : BitVec 128) => d.msix (if e.getLsbD 96 then 1 else 0) (e.toNat / 2 ^ 64 % 2048))
    (fun _ _ => rfl) _ d

theorem Dev.updRegion_regions (d : Dev) (r : Nat) (f : Region → Region) : (d.updRegion r f).regions = updWhere (fun x => x.id == r) f d.regions :=
  (Dev.onlyMemory_writeRcb _ r).regions

/-- A region of a number after a change of the regions of a number, which keeps their numbers. -/
theorem Dev.region?_updWhere {rs : List Region} (r q : Nat) {f : Region → Region} (hf : ∀ x, (f x).id = x.id) :
    (updWhere (fun x => x.id == r) f rs).find? (fun x => x.id == q) =
      (rs.find? fun x => x.id == q).map fun x => if x.id == r then f x else x := by
  have hp : ((fun x : Region => x.id == q) ∘ fun x => if (x.id == r) = true then f x else x) = fun x => x.id == q := by
    funext x
    simp only [Function.comp]
    split <;> simp [hf]
  rw [updWhere, List.find?_map, hp]

/-- A region is found where the regions of another number are taken away. -/
theorem Dev.region?_filter {rs : List Region} {r q : Nat} (h : q ≠ r) :
    (rs.filter fun x => x.id != r).find? (fun x => x.id == q) = rs.find? fun x => x.id == q := by
  rw [List.find?_filter]
  congr 1
  funext x
  by_cases hx : x.id = q <;> simp [hx, h]

/-- A region with one child fewer. -/
def Region.lessChild (p : Region) : Region := { p with children := p.children - 1 }

/-- The device as a region's end leaves it. -/
def Dev.regionEnded (d : Dev) (rid : Nat) (r : Region) : Dev :=
  ((((d.endParure r).schedPut (rid + 30) 1 0).updRegion r.parent Region.lessChild).notify rid 2)

theorem Dev.regionEnded_regions (d : Dev) (rid : Nat) (r : Region) : (d.regionEnded rid r).regions =
    updWhere (fun x => x.id == r.parent) Region.lessChild d.regions := by
  rw [Dev.regionEnded, Dev.notify_regions, Dev.updRegion_regions, (Dev.onlyMemory_schedPut _ _ _ _).regions, Dev.endParure_regions]

theorem exec_regionEndCompletion {rid : Nat} {s : State} {r : Region} (hr : s.now.region? rid = some r) (hlive : r.live = false)
    (htasks : r.livetasks = 0) (hkids : r.children = 0) :
    exec (.regionEndCompletion rid) s = .next { s with now :=
      { s.now.regionEnded rid r with regions := (s.now.regionEnded rid r).regions.filter fun x => x.id != rid } } := by
  have hdone : s.now.regionDone rid = true := by simp [Dev.regionDone, hr, hlive, htasks, hkids]
  rw [show exec (.regionEndCompletion rid) s = execRegionEndCompletion rid s from rfl]
  simp only [execRegionEndCompletion, State.event, State.onDev, hr, hdone]
  rfl

theorem regionEndCompletion_unlinks {rid : Nat} {s : State} {r : Region} (hr : s.now.region? rid = some r) (hlive : r.live = false)
    (htasks : r.livetasks = 0) (hkids : r.children = 0) (hparent : r.parent ≠ rid) :
    ∃ t, exec (.regionEndCompletion rid) s = .next t ∧ (∀ x ∈ t.now.regions, x.id ≠ rid) ∧
      ∀ p, s.now.region? r.parent = some p → ∃ p', t.now.region? r.parent = some p' ∧ p'.children = p.children - 1 := by
  refine ⟨_, exec_regionEndCompletion hr hlive htasks hkids, fun x hx => ?_, fun p hp => ?_⟩
  · simpa using (List.mem_filter.mp hx).2
  · have hpid : p.id = r.parent := by simpa using List.find?_some hp
    refine ⟨p.lessChild, ?_, rfl⟩
    rw [Dev.region?, Dev.region?_filter hparent, Dev.regionEnded_regions, Dev.region?_updWhere r.parent r.parent (f := Region.lessChild) fun _ => rfl,
      show s.now.regions.find? (fun x => x.id == r.parent) = some p from hp]
    simp [hpid]

/-! ### A tray launches [17 R286, R287] -/

section
variable (d : Dev) (rid : Nat) {f : Region → Region} (hid : ∀ x, (f x).id = x.id) (hparent : ∀ x, (f x).parent = x.parent)
  (hroom : ∀ x, (f x).useSlots = x.useSlots ∧ (f x).slots = x.slots ∧ (f x).useScratch = x.useScratch ∧ (f x).scratch = x.scratch)

include hid in
theorem Dev.region?_onRegion (q : Nat) : (d.onRegion rid f).region? q = (d.region? q).map fun x => if x.id == rid then f x else x :=
  Dev.region?_updWhere rid q hid

include hid hparent in
theorem Dev.chainFuel_onRegion (n q : Nat) : (d.onRegion rid f).chainFuel n q = d.chainFuel n q := by
  induction n generalizing q with
  | zero => rfl
  | succ n ih =>
    rw [Dev.chainFuel, Dev.chainFuel, d.region?_onRegion rid hid]
    cases d.region? q with
    | none => rfl
    | some x =>
      have hp : (if (x.id == rid) = true then f x else x).parent = x.parent := by split <;> simp [hparent]
      simp only [Option.map_some, hp, ih]

include hid hparent hroom in
/-- A change of a region that leaves its tree, its budgets and their use leaves the room. -/
theorem Dev.roomFor_onRegion (q slots kib : Nat) : (d.onRegion rid f).roomFor q slots kib = d.roomFor q slots kib := by
  rw [Dev.roomFor, Dev.roomFor, Dev.chain, Dev.chain, d.chainFuel_onRegion rid hid hparent]
  congr 1
  funext r
  rw [d.region?_onRegion rid hid]
  cases d.region? r with
  | none => rfl
  | some x =>
    obtain ⟨h1, h2, h3, h4⟩ := hroom x
    simp only [Option.map_some]
    split <;> simp only [h1, h2, h3, h4]

end

/-- The lanes of a spawned strand: lane i holds record i in g0:g1 and counts as a child of its parent. -/
theorem spawnLanes_some {recs : List TrayRec} {l : LaneId} {x : TrayRec} (h : recs[l.val]? = some x) :
    (spawnLanes recs)[l] = { (Lane.start.wpair 0 x.arg) with present := true, parent := x.parent } := by
  simp only [spawnLanes, Fin.getElem_fin, Vector.getElem_ofFn, h]

theorem spawnLanes_none {recs : List TrayRec} {l : LaneId} (h : recs[l.val]? = none) : (spawnLanes recs)[l] = Lane.start := by
  simp only [spawnLanes, Fin.getElem_fin, Vector.getElem_ofFn, h]

theorem spawnLanes_present (recs : List TrayRec) (l : LaneId) : (spawnLanes recs)[l].present = decide (l.val < recs.length) := by
  cases h : recs[l.val]? with
  | none => rw [spawnLanes_none h, decide_eq_false (by rw [List.getElem?_eq_none_iff] at h; omega)]; rfl
  | some x => rw [spawnLanes_some h, decide_eq_true (List.getElem?_eq_some_iff.mp h).1]

theorem Lane.rpair_wpair_zero (x : Lane) (v : W64) : (x.wpair 0 v).rpair 0 = v := by
  have h01 : ((0 : GReg).plus 1 = 0) = False := by decide
  simp only [Lane.rpair, Lane.wpair, Lane.rg_wg, h01, if_true, if_false, pair_lo_hi]

/-- A strand that a tray starts, for its first 32 records [17 R287]. -/
def trayStrand (rid : Nat) (c : Fin 256) (q : Fin 4) (y : Tray) (st : Strand) : Prop :=
  st.kind = .spawned ∧ st.core = c ∧ st.quad = q ∧ st.region = rid ∧ (∀ l, st.lane l = (spawnLanes (y.recs.take 32))[l]) ∧
    ∃ f, st.frag 0 = some f ∧ f.pc = y.entry ∧ f.pos = 0 ∧ f.st = .ready

theorem Dev.launchTray_starts {d : Dev} {rid : Nat} {i : Fin 16} {r : Region} {c : Fin 256} {q : Fin 4} (hr : d.region? rid = some r)
    (hfree : d.freeQuad = some (c, q)) (hroom : d.roomFor rid 1 0 = true) (hrecs : r.trays[i].recs ≠ [])
    (halign : r.trays[i].entry.toNat % 12 = 0) : ∃ st ∈ (d.launchTray rid i).all, trayStrand rid c q r.trays[i] st := by
  have hrid : r.id = rid := by simpa using List.find?_some hr
  have hgo : (r.trays[i].recs.isEmpty || !d.roomFor rid 1 0) = false := by
    rw [hroom, List.isEmpty_eq_false_iff.mpr hrecs]; rfl
  unfold Dev.launchTray
  simp only [hr, hfree, hgo, Dev.startStrand_aligned _ _ halign]
  refine ⟨_, Dev.mem_all_of_strands (List.mem_append_right _ List.mem_cons_self) (Nat.succ_ne_zero _), rfl, rfl, rfl, hrid, fun _ => rfl,
    _, rfl, rfl, rfl, rfl⟩

/-- A tray that launches whatever it holds. -/
def Tray.filled (t : Tray) : Tray := { t with full := true }

/-- A region with such a tray. -/
def Region.trayFilled (tray : Fin 16) (r : Region) : Region := { r with trays := updV r.trays tray Tray.filled }

theorem exec_trayTimerExpiry {rid : Nat} {tray : Fin 16} {s : State} {r : Region} (hr : s.now.region? rid = some r)
    (hdue : r.trays[tray].due ≠ 0) (hpast : r.trays[tray].due ≤ s.now.cycle) (hdet : r.det = false) :
    exec (.trayTimerExpiry rid tray) s = .next { s with now := (s.now.onRegion rid (Region.trayFilled tray)).launchTray rid tray } := by
  rw [show exec (.trayTimerExpiry rid tray) s = execTrayTimerExpiry rid tray s from rfl]
  simp only [execTrayTimerExpiry, State.event, State.onDev, hr]
  rw [if_pos ⟨hdue, hpast, by simp [hdet]⟩]
  rfl

theorem trayTimerExpiry_launches {rid : Nat} {tray : Fin 16} {s : State} {r : Region} {y : Tray} {c : Fin 256} {q : Fin 4}
    (hr : s.now.region? rid = some r) (hy : y = r.trays[tray]) (hdue : y.due ≠ 0) (hpast : y.due ≤ s.now.cycle) (hdet : r.det = false)
    (hrecs : y.recs ≠ []) (hfree : s.now.freeQuad = some (c, q)) (hroom : s.now.roomFor rid 1 0 = true) (halign : y.entry.toNat % 12 = 0) :
    ∃ t st, exec (.trayTimerExpiry rid tray) s = .next t ∧ st ∈ t.now.all ∧ st.kind = .spawned ∧ st.core = c ∧ st.quad = q ∧
      st.region = rid ∧
      (∀ l, (st.lane l).present = decide (l.val < y.recs.length)) ∧
      (∀ (l : LaneId) x, y.recs[l.val]? = some x → (st.lane l).rpair 0 = x.arg ∧ (st.lane l).parent = x.parent) ∧
      ∃ f, st.frag 0 = some f ∧ f.pc = y.entry ∧ f.pos = 0 ∧ f.st = .ready := by
  subst hy
  have hrid : r.id = rid := by simpa using List.find?_some hr
  have hregion : (s.now.onRegion rid (Region.trayFilled tray)).region? rid =
      some (r.trayFilled tray) := by
    rw [s.now.region?_onRegion rid (f := Region.trayFilled tray) fun _ => rfl, hr]
    simp [hrid]
  have htray : (r.trayFilled tray).trays[tray] = r.trays[tray].filled := by rw [Region.trayFilled, getElem_updV, if_pos rfl]
  have hroom' : (s.now.onRegion rid (Region.trayFilled tray)).roomFor rid 1 0 = true := by
    rw [s.now.roomFor_onRegion rid (f := Region.trayFilled tray) (fun _ => rfl) (fun _ => rfl) fun _ => ⟨rfl, rfl, rfl, rfl⟩]
    exact hroom
  obtain ⟨st, hmem, hkind, hcore, hquad, hreg, hlanes, hfrag⟩ := Dev.launchTray_starts (i := tray) hregion hfree hroom'
    (by rw [htray]; exact hrecs) (by rw [htray]; exact halign)
  rw [htray] at hlanes hfrag
  refine ⟨_, st, exec_trayTimerExpiry hr hdue hpast hdet, hmem, hkind, hcore, hquad, hreg, fun l => ?_, fun l x hx => ?_, hfrag⟩
  · have := l.isLt
    rw [hlanes, spawnLanes_present, List.length_take]
    exact decide_eq_decide.mpr (by simp only [Tray.filled]; omega)
  · have htake : (r.trays[tray].filled.recs.take 32)[l.val]? = some x := by rw [List.getElem?_take_of_lt l.isLt]; exact hx
    rw [hlanes, spawnLanes_some htake]
    exact ⟨Lane.rpair_wpair_zero Lane.start x.arg, rfl⟩

/-- The ends of tasks and regions, and the trays. -/
theorem tasks_and_regions_end : Claims.taskAndRegionEnds :=
  ⟨fun _ _ _ => taskEnd_ends, fun _ _ _ => regionEndCompletion_unlinks, fun _ _ _ _ _ _ _ => trayTimerExpiry_launches⟩

end Sys2Proof.Machine

namespace Sys2Proof.Proofs
open Sys2Proof.Machine

/-- Settles O43: each event of the scheduler is its own change of the device and upkeep, which disturbs no job, strand or
core that the statement speaks of. -/
theorem tasksStartAndEnd : Obligations.TasksStartAndEnd := ⟨tasks_start, tasks_and_regions_end⟩

end Sys2Proof.Proofs
end

section
/-! ### The encoding: decoding an encoded word, and encoding a decoded one [02 R21-R39]

A word is a header, a major opcode and 20 bits of body. The words that `encodeNat` gives are written as `word h m (pack low fs)`,
with the operand fields `fs` from high to low over fixed low bits; `fld_pack_at`, `fld_pack_below` and `fld_pack_above` then
say what each field of such a word reads, and every row of the encoding tables follows in both directions. -/

namespace Sys2Proof

/-! #### Fields of a word -/

/-- An operand field of a word: its low bit, how many values it has, and its value. -/
structure Field where
  lo : Nat
  size : Nat
  val : Fin size

/-- The number with these fields, from high to low, over fixed low bits. -/
def pack (low : Nat) : List Field → Nat
  | [] => low
  | f :: fs => f.val.val * 2 ^ f.lo + pack low fs

/-- The fields are disjoint, run from high to low and lie below bit `top`, with the fixed bits below the last of them. -/
def LaidOut (low : Nat) : Nat → List Field → Prop
  | top, [] => low < 2 ^ top
  | top, f :: fs => f.size * 2 ^ f.lo ≤ 2 ^ top ∧ LaidOut low f.lo fs

@[simp] theorem laidOut_nil {low top : Nat} : LaidOut low top [] ↔ low < 2 ^ top := Iff.rfl

@[simp] theorem laidOut_cons {low top lo N : Nat} {v : Fin N} {fs : List Field} :
    LaidOut low top (⟨lo, N, v⟩ :: fs) ↔ N * 2 ^ lo ≤ 2 ^ top ∧ LaidOut low lo fs := Iff.rfl

theorem fld_add_below {v l x lo n : Nat} (h : lo + n ≤ l) : fld (v * 2 ^ l + x) lo n = fld x lo n := by
  obtain ⟨k, rfl⟩ := Nat.exists_eq_add_of_le h
  rw [fld, fld, Nat.pow_add, Nat.pow_add, Nat.mul_assoc, Nat.mul_left_comm, Nat.mul_add_div (Nat.two_pow_pos lo),
    Nat.mul_left_comm, Nat.mul_add_mod]

theorem fld_add {v l x n : Nat} (hv : v < 2 ^ n) (hx : x < 2 ^ l) : fld (v * 2 ^ l + x) l n = v := by
  rw [fld, Nat.mul_comm, Nat.mul_add_div (Nat.two_pow_pos l), Nat.div_eq_of_lt hx, Nat.add_zero, Nat.mod_eq_of_lt hv]

theorem mul_two_pow_add_lt {v N l x m : Nat} (hv : v < N) (hx : x < 2 ^ l) (hm : N * 2 ^ l ≤ m) : v * 2 ^ l + x < m :=
  calc v * 2 ^ l + x < v * 2 ^ l + 2 ^ l := Nat.add_lt_add_left hx _
    _ = (v + 1) * 2 ^ l := (Nat.succ_mul v _).symm
    _ ≤ N * 2 ^ l := Nat.mul_le_mul_right _ hv
    _ ≤ m := hm

theorem pack_lt {low top : Nat} {fs : List Field} (h : LaidOut low top fs) : pack low fs < 2 ^ top := by
  induction fs generalizing top with
  | nil => exact h
  | cons f fs ih => exact mul_two_pow_add_lt f.val.isLt (ih h.2) h.1

@[simp] theorem pack_zero {low lo N : Nat} {fs : List Field} : pack low (⟨lo, N + 1, 0⟩ :: fs) = pack low fs := by
  simp [pack]

@[simp] theorem fld_pack_nil {low lo n : Nat} : fld (pack low []) lo n = low / 2 ^ lo % 2 ^ n := rfl

@[simp] theorem fld_pack_below {low lo n l N : Nat} {v : Fin N} {fs : List Field} (h : lo + n ≤ l) :
    fld (pack low (⟨l, N, v⟩ :: fs)) lo n = fld (pack low fs) lo n := fld_add_below h

@[simp] theorem fld_pack_at {low n l N : Nat} {v : Fin N} {fs : List Field} (hN : N ≤ 2 ^ n) (h : LaidOut low l fs) :
    fld (pack low (⟨l, N, v⟩ :: fs)) l n = v.val := fld_add (Nat.lt_of_lt_of_le v.isLt hN) (pack_lt h)

@[simp] theorem fld_pack_above {low lo n : Nat} {fs : List Field} (h : LaidOut low lo fs) :
    fld (pack low fs) lo n = 0 := by
  rw [fld, Nat.div_eq_of_lt (pack_lt h), Nat.zero_mod]

/-- Two bodies are equal when their topmost fields are and the rest is. -/
@[simp] theorem pack_eq_fld {low lo N top b : Nat} {v : Fin N} {fs : List Field} (h : LaidOut low lo fs) (hl : lo ≤ top) :
    pack low (⟨lo, N, v⟩ :: fs) = fld b 0 top ↔ v.val = fld b lo (top - lo) ∧ pack low fs = fld b 0 lo := by
  obtain ⟨k, rfl⟩ := Nat.exists_eq_add_of_le hl
  have hx := pack_lt h
  have hb : b % 2 ^ lo < 2 ^ lo := Nat.mod_lt _ (Nat.two_pow_pos lo)
  simp only [pack, fld, Nat.pow_zero, Nat.div_one, Nat.add_sub_cancel_left]
  rw [Nat.pow_add, Nat.mod_mul, Nat.add_comm (b % 2 ^ lo), Nat.mul_comm v.val]
  refine ⟨fun e => ?_, fun ⟨hv, hp⟩ => by rw [hv, hp]⟩
  have hv : v.val = b / 2 ^ lo % 2 ^ k := by
    have := congrArg (· / 2 ^ lo) e
    simpa [Nat.mul_add_div, Nat.div_eq_of_lt hx, Nat.div_eq_of_lt hb] using this
  exact ⟨hv, Nat.add_left_cancel (hv ▸ e)⟩

@[simp] theorem pack_nil_eq {low x : Nat} : pack low [] = x ↔ low = x := Iff.rfl

/-! #### Operands: what reading a field gives, as an equation between numbers -/

theorem bitF_toNat (w lo : Nat) : (bitF w lo).toNat = fld w lo 1 := by
  have := Nat.mod_lt (w / 2 ^ lo) (by decide : 0 < 2)
  by_cases h : w / 2 ^ lo % 2 = 1
  · simp [bitF, fld, h]
  · simp [bitF, fld, h]; omega

/-- A bit vector as the value of its field. -/
def bvField {n : Nat} (v : BitVec n) : Fin (2 ^ n) := v.toFin

/-- A flag as the value of its field. -/
def bitField (b : Bool) : Fin 2 := ⟨b.toNat, by cases b <;> decide⟩

theorem toNat_eq_bvField {n : Nat} (v : BitVec n) : v.toNat = (bvField v).val := by cases v; rfl

theorem toNat_eq_bitField (b : Bool) : b.toNat = (bitField b).val := by cases b <;> rfl

@[simp] theorem gF_val (w lo : Nat) : (gF w lo).val = fld w lo 6 := Fin.ext_iff.mp rfl
@[simp] theorem pF_val (w lo : Nat) : (pF w lo).val = fld w lo 3 := Fin.ext_iff.mp rfl
@[simp] theorem mF_val (w lo : Nat) : (mF w lo).val = fld w lo 4 := Fin.ext_iff.mp rfl
@[simp] theorem finF_val (w lo n : Nat) : (finF w lo n).val = fld w lo n := Fin.ext_iff.mp rfl
@[simp] theorem bvF_field (w lo n : Nat) : (bvField (bvF w lo n)).val = fld w lo n := BitVec.toNat_ofNat ..
@[simp] theorem bitF_field (w lo : Nat) : (bitField (bitF w lo)).val = fld w lo 1 := bitF_toNat w lo

@[simp] theorem gF_eq_iff {w lo : Nat} {r : GReg} : gF w lo = r ↔ fld w lo 6 = r.val := Fin.ext_iff
@[simp] theorem pF_eq_iff {w lo : Nat} {r : PReg} : pF w lo = r ↔ fld w lo 3 = r.val := Fin.ext_iff
@[simp] theorem mF_eq_iff {w lo : Nat} {r : MReg} : mF w lo = r ↔ fld w lo 4 = r.val := Fin.ext_iff

/-- One clause for each width that the tables use: their types are `Fin` of a literal, not of a power of two. -/
@[simp] theorem finF_eq_iff (w lo : Nat) : (∀ r : Fin 4, @Eq (Fin 4) (finF w lo 2) r ↔ fld w lo 2 = r.val) ∧
    (∀ r : Fin 16, @Eq (Fin 16) (finF w lo 4) r ↔ fld w lo 4 = r.val) ∧
    (∀ r : Fin 32, @Eq (Fin 32) (finF w lo 5) r ↔ fld w lo 5 = r.val) ∧
    ∀ r : Fin 64, @Eq (Fin 64) (finF w lo 6) r ↔ fld w lo 6 = r.val :=
  ⟨fun _ => Fin.ext_iff, fun _ => Fin.ext_iff, fun _ => Fin.ext_iff, fun _ => Fin.ext_iff⟩

@[simp] theorem bvF_eq_iff {w lo n : Nat} {v : BitVec n} : bvF w lo n = v ↔ fld w lo n = v.toNat := by
  rw [BitVec.toNat_eq, bvF, BitVec.toNat_ofNat, fld]

@[simp] theorem bitF_eq_iff {w lo : Nat} {b : Bool} : bitF w lo = b ↔ fld w lo 1 = (bitField b).val := by
  rw [← bitF_toNat, ← toNat_eq_bitField]; cases bitF w lo <;> cases b <;> decide

@[simp] theorem kF_eq_iff {w lo : Nat} {k : KReg} : kF w lo = some k ↔ fld w lo 8 = k.val := by
  have := k.isLt
  simp only [kF, fld]
  split <;> simp [Fin.ext_iff]; omega

/-! #### Codes of operands: `ofCode` reads exactly the code back, and a code is a value of its field -/

@[simp] theorem Cond.ofCode_eq_some {n : Nat} {x : Cond} : Cond.ofCode n = some x ↔ n = x.code :=
  ⟨fun h => by unfold Cond.ofCode at h; split at h <;> cases h <;> rfl, fun h => by subst h; cases x <;> rfl⟩
def Cond.field (x : Cond) : Fin 16 := ⟨x.code, by cases x <;> decide⟩
@[simp] theorem Cond.code_eq_field (x : Cond) : x.code = x.field.val := by cases x <;> rfl

@[simp] theorem Cmp.ofCode_eq_some {n : Nat} {x : Cmp} : Cmp.ofCode n = some x ↔ n = x.code :=
  ⟨fun h => by unfold Cmp.ofCode at h; split at h <;> cases h <;> rfl, fun h => by subst h; cases x <;> rfl⟩
def Cmp.field (x : Cmp) : Fin 8 := ⟨x.code, by cases x <;> decide⟩
@[simp] theorem Cmp.code_eq_field (x : Cmp) : x.code = x.field.val := by cases x <;> rfl

@[simp] theorem CmpTy.ofCode_eq_some {n : Nat} {x : CmpTy} : CmpTy.ofCode n = some x ↔ n = x.code :=
  ⟨fun h => by unfold CmpTy.ofCode at h; split at h <;> cases h <;> rfl, fun h => by subst h; cases x <;> rfl⟩
def CmpTy.field (x : CmpTy) : Fin 4 := ⟨x.code, by cases x <;> decide⟩
@[simp] theorem CmpTy.code_eq_field (x : CmpTy) : x.code = x.field.val := by cases x <;> rfl

@[simp] theorem FCmpOp.ofCode_eq_some {n : Nat} {x : FCmpOp} : FCmpOp.ofCode n = some x ↔ n = x.code :=
  ⟨fun h => by unfold FCmpOp.ofCode at h; split at h <;> cases h <;> rfl, fun h => by subst h; cases x <;> rfl⟩
def FCmpOp.field (x : FCmpOp) : Fin 8 := ⟨x.code, by cases x <;> decide⟩
@[simp] theorem FCmpOp.code_eq_field (x : FCmpOp) : x.code = x.field.val := by cases x <;> rfl

@[simp] theorem CvtFmt.ofCode_eq_some {n : Nat} {x : CvtFmt} : CvtFmt.ofCode n = some x ↔ n = x.code :=
  ⟨fun h => by unfold CvtFmt.ofCode at h; split at h <;> cases h <;> rfl, fun h => by subst h; cases x <;> rfl⟩
def CvtFmt.field (x : CvtFmt) : Fin 8 := ⟨x.code, by cases x <;> decide⟩
@[simp] theorem CvtFmt.code_eq_field (x : CvtFmt) : x.code = x.field.val := by cases x <;> rfl

@[simp] theorem Rnd.ofCode_eq_some {n : Nat} {x : Rnd} : Rnd.ofCode n = some x ↔ n = x.code :=
  ⟨fun h => by unfold Rnd.ofCode at h; split at h <;> cases h <;> rfl, fun h => by subst h; cases x <;> rfl⟩
def Rnd.field (x : Rnd) : Fin 4 := ⟨x.code, by cases x <;> decide⟩
@[simp] theorem Rnd.code_eq_field (x : Rnd) : x.code = x.field.val := by cases x <;> rfl

@[simp] theorem AccSz.ofCode_eq_some {n : Nat} {x : AccSz} : AccSz.ofCode n = some x ↔ n = x.code :=
  ⟨fun h => by unfold AccSz.ofCode at h; split at h <;> cases h <;> rfl, fun h => by subst h; cases x <;> rfl⟩
def AccSz.field (x : AccSz) : Fin 8 := ⟨x.code, by cases x <;> decide⟩
@[simp] theorem AccSz.code_eq_field (x : AccSz) : x.code = x.field.val := by cases x <;> rfl

@[simp] theorem Scope.ofCode_eq_some {n : Nat} {x : Scope} : Scope.ofCode n = some x ↔ n = x.code :=
  ⟨fun h => by unfold Scope.ofCode at h; split at h <;> cases h <;> rfl, fun h => by subst h; cases x <;> rfl⟩
def Scope.field (x : Scope) : Fin 16 := ⟨x.code, by cases x <;> decide⟩
@[simp] theorem Scope.code_eq_field (x : Scope) : x.code = x.field.val := by cases x <;> rfl

@[simp] theorem MOrder.ofCode_eq_some {n : Nat} {x : MOrder} : MOrder.ofCode n = some x ↔ n = x.code :=
  ⟨fun h => by unfold MOrder.ofCode at h; split at h <;> cases h <;> rfl, fun h => by subst h; cases x <;> rfl⟩
def MOrder.field (x : MOrder) : Fin 4 := ⟨x.code, by cases x <;> decide⟩
@[simp] theorem MOrder.code_eq_field (x : MOrder) : x.code = x.field.val := by cases x <;> rfl

@[simp] theorem TlbiKind.ofCode_eq_some {n : Nat} {x : TlbiKind} : TlbiKind.ofCode n = some x ↔ n = x.code :=
  ⟨fun h => by unfold TlbiKind.ofCode at h; split at h <;> cases h <;> rfl, fun h => by subst h; cases x <;> rfl⟩
def TlbiKind.field (x : TlbiKind) : Fin 4 := ⟨x.code, by cases x <;> decide⟩
@[simp] theorem TlbiKind.code_eq_field (x : TlbiKind) : x.code = x.field.val := by cases x <;> rfl

@[simp] theorem RedOp.ofCode_eq_some {n : Nat} {x : RedOp} : RedOp.ofCode n = some x ↔ n = x.code :=
  ⟨fun h => by unfold RedOp.ofCode at h; split at h <;> cases h <;> rfl, fun h => by subst h; cases x <;> rfl⟩
def RedOp.field (x : RedOp) : Fin 16 := ⟨x.code, by cases x <;> decide⟩
@[simp] theorem RedOp.code_eq_field (x : RedOp) : x.code = x.field.val := by cases x <;> rfl

@[simp] theorem EW.ofCode_eq_some {n : Nat} {x : EW} : EW.ofCode n = some x ↔ n = x.code :=
  ⟨fun h => by unfold EW.ofCode at h; split at h <;> cases h <;> rfl, fun h => by subst h; cases x <;> rfl⟩
def EW.field (x : EW) : Fin 4 := ⟨x.code, by cases x <;> decide⟩
@[simp] theorem EW.code_eq_field (x : EW) : x.code = x.field.val := by cases x <;> rfl

@[simp] theorem HtBlk.ofCode_eq_some {n : Nat} {x : HtBlk} : HtBlk.ofCode n = some x ↔ n = x.code :=
  ⟨fun h => by unfold HtBlk.ofCode at h; split at h <;> cases h <;> rfl, fun h => by subst h; cases x <;> rfl⟩
def HtBlk.field (x : HtBlk) : Fin 4 := ⟨x.code, by cases x <;> decide⟩
@[simp] theorem HtBlk.code_eq_field (x : HtBlk) : x.code = x.field.val := by cases x <;> rfl

@[simp] theorem EngCtx.ofCode_eq_some {n : Nat} {x : EngCtx} : EngCtx.ofCode n = some x ↔ n = x.code :=
  ⟨fun h => by unfold EngCtx.ofCode at h; split at h <;> cases h <;> rfl, fun h => by subst h; cases x <;> rfl⟩
def EngCtx.field (x : EngCtx) : Fin 4 := ⟨x.code, by cases x <;> decide⟩
@[simp] theorem EngCtx.code_eq_field (x : EngCtx) : x.code = x.field.val := by cases x <;> rfl

@[simp] theorem Csr.ofCode_eq_some {n : Nat} {x : Csr} : Csr.ofCode n = some x ↔ n = x.code :=
  ⟨fun h => by unfold Csr.ofCode at h; split at h <;> cases h <;> rfl, fun h => by subst h; cases x <;> rfl⟩
def Csr.field (x : Csr) : Fin 4096 := ⟨x.code, by cases x <;> decide⟩
@[simp] theorem Csr.code_eq_field (x : Csr) : x.code = x.field.val := by cases x <;> rfl

/-! #### A word as header, major opcode and body -/

/-- The header bits K, S and G as one field. -/
def Hdr.field (h : Hdr) : Fin 32 := ⟨h.k.toNat * 16 + h.s.toNat * 8 + h.g.val, by
  have := h.g.isLt; have := Bool.toNat_lt h.k; have := Bool.toNat_lt h.s; omega⟩

theorem Hdr.code_eq_field (h : Hdr) : h.code = h.field.val * 2 ^ 27 := by
  simp only [Hdr.code, Hdr.field]; omega

theorem hdrF_field (w : Nat) : (hdrF w).field.val = fld w 27 5 := by
  simp only [Hdr.field, hdrF, bitF_toNat, pF, fld]; omega

theorem Hdr.field_inj {h h' : Hdr} (e : h.field.val = h'.field.val) : h = h' := by
  obtain ⟨k, s, g⟩ := h
  obtain ⟨k', s', g'⟩ := h'
  simp only [Hdr.field] at e
  have := g.isLt
  have := g'.isLt
  cases k <;> cases k' <;> cases s <;> cases s' <;> simp_all [Fin.ext_iff] <;> omega

/-- The word with this header, major opcode and body. -/
def word (h : Hdr) (m body : Nat) : Nat := h.field.val * 2 ^ 27 + (m * 2 ^ 20 + body)

section
variable {h : Hdr} {m b : Nat}

@[simp] theorem fld_word {lo n : Nat} (hn : lo + n ≤ 20) : fld (word h m b) lo n = fld b lo n := by
  rw [word, fld_add_below (by omega), fld_add_below hn]

theorem hdrF_word (hm : m < 128) (hb : b < 2 ^ 20) : hdrF (word h m b) = h :=
  Hdr.field_inj ((hdrF_field _).trans (fld_add h.field.isLt (mul_two_pow_add_lt hm hb (by decide))))

theorem word_lt (hm : m < 128) (hb : b < 2 ^ 20) : word h m b < 2 ^ 32 :=
  mul_two_pow_add_lt h.field.isLt (mul_two_pow_add_lt hm hb (by decide)) (by decide)

theorem fld_word_major (hm : m < 128) (hb : b < 2 ^ 20) : fld (word h m b) 20 7 = m := by
  rw [word, fld_add_below (by omega), fld_add hm hb]

theorem word_eq_word {b' : Nat} (hb : b < 2 ^ 20) : word h m b' = word h m b ↔ b' = fld b 0 20 := by
  simp only [word, fld]; omega

theorem word_fields {w : Nat} (hw : w < 2 ^ 32) : word (hdrF w) (fld w 20 7) (fld w 0 20) = w := by
  simp only [word, hdrF_field, fld]; omega

@[simp] theorem pack_lt_body {low : Nat} {fs : List Field} (hb : LaidOut low 20 fs) : pack low fs < 1048576 := pack_lt hb

@[simp] theorem word_pack_lt {low : Nat} {fs : List Field} (hm : m < 128) (hb : LaidOut low 20 fs) :
    word h m (pack low fs) < 4294967296 := word_lt hm (pack_lt hb)

end

/-- The word of a row of the tables: the opcode `base` gives the major and the fixed bits, of which bits 16 to 19 may be a minor
opcode above the operands `fs`. -/
@[simp] def rowWord (h : Hdr) (base : Nat) (fs : List Field) : Nat :=
  word h (base / 1048576) (pack (base % 65536) (⟨16, 16, ⟨base / 65536 % 16, Nat.mod_lt _ (by decide)⟩⟩ :: fs))

section
variable (h : Hdr) (base l0 l1 l2 l3 l4 l5 l6 : Nat) {N0 N1 N2 N3 N4 N5 N6 : Nat}
  (a0 : Fin N0) (a1 : Fin N1) (a2 : Fin N2) (a3 : Fin N3) (a4 : Fin N4) (a5 : Fin N5) (a6 : Fin N6)

@[simp] theorem enc0_word : enc0 h.code base = rowWord h base [] := by
  simp only [enc0, rowWord, word, pack, Hdr.code_eq_field]; omega

@[simp] theorem enc1_word : enc1 h.code base a0.val l0 = rowWord h base [⟨l0, N0, a0⟩] := by
  simp only [enc1, rowWord, word, pack, Hdr.code_eq_field]; omega

@[simp] theorem enc2_word : enc2 h.code base a0.val l0 a1.val l1 = rowWord h base [⟨l0, N0, a0⟩, ⟨l1, N1, a1⟩] := by
  simp only [enc2, rowWord, word, pack, Hdr.code_eq_field]; omega

@[simp] theorem enc3_word : enc3 h.code base a0.val l0 a1.val l1 a2.val l2 =
    rowWord h base [⟨l0, N0, a0⟩, ⟨l1, N1, a1⟩, ⟨l2, N2, a2⟩] := by
  simp only [enc3, rowWord, word, pack, Hdr.code_eq_field]; omega

@[simp] theorem enc4_word : enc4 h.code base a0.val l0 a1.val l1 a2.val l2 a3.val l3 =
    rowWord h base [⟨l0, N0, a0⟩, ⟨l1, N1, a1⟩, ⟨l2, N2, a2⟩, ⟨l3, N3, a3⟩] := by
  simp only [enc4, rowWord, word, pack, Hdr.code_eq_field]; omega

@[simp] theorem enc5_word : enc5 h.code base a0.val l0 a1.val l1 a2.val l2 a3.val l3 a4.val l4 =
    rowWord h base [⟨l0, N0, a0⟩, ⟨l1, N1, a1⟩, ⟨l2, N2, a2⟩, ⟨l3, N3, a3⟩, ⟨l4, N4, a4⟩] := by
  simp only [enc5, rowWord, word, pack, Hdr.code_eq_field]; omega

@[simp] theorem enc6_word : enc6 h.code base a0.val l0 a1.val l1 a2.val l2 a3.val l3 a4.val l4 a5.val l5 =
    rowWord h base [⟨l0, N0, a0⟩, ⟨l1, N1, a1⟩, ⟨l2, N2, a2⟩, ⟨l3, N3, a3⟩, ⟨l4, N4, a4⟩, ⟨l5, N5, a5⟩] := by
  simp only [enc6, rowWord, word, pack, Hdr.code_eq_field]; omega

@[simp] theorem enc7_word : enc7 h.code base a0.val l0 a1.val l1 a2.val l2 a3.val l3 a4.val l4 a5.val l5 a6.val l6 =
    rowWord h base [⟨l0, N0, a0⟩, ⟨l1, N1, a1⟩, ⟨l2, N2, a2⟩, ⟨l3, N3, a3⟩, ⟨l4, N4, a4⟩, ⟨l5, N5, a5⟩, ⟨l6, N6, a6⟩] := by
  simp only [enc7, rowWord, word, pack, Hdr.code_eq_field]; omega

end

/-! #### The decoder's dispatch on the major opcode -/

theorem need_eq_ok {α : Type} {o : Option α} {e : DecodeError} {f : α → Except DecodeError Instr} {i : Instr} :
    need o e f = .ok i ↔ ∃ a, o = some a ∧ f a = .ok i := by
  cases o <;> simp [need]

theorem ite_eq_ok {c : Prop} [Decidable c] {a b : Except DecodeError Instr} {i : Instr} :
    (if c then a else b) = .ok i ↔ c ∧ a = .ok i ∨ ¬ c ∧ b = .ok i := ite_eq_iff

/-- A major opcode's share of the decoder, read on words put together from header, major and body. -/
theorem decodeFields_word_of_major {m : Nat} {f : Hdr → Nat → Except DecodeError Instr} (hm : m < 128)
    (hf : ∀ w, fld w 20 7 = m → ∀ r, f (hdrF w) w = r → decodeFields w = r) (h : Hdr) (b : Nat) (hb : b < 2 ^ 20) :
    decodeFields (word h m b) = f h (word h m b) :=
  hf _ (fld_word_major hm hb) _ (by rw [hdrF_word hm hb])

theorem decodeFields_word :
    (∀ h b, b < 2 ^ 20 → decodeFields (word h 0x00 b) = decMaj00 h (word h 0x00 b)) ∧
    (∀ h b, b < 2 ^ 20 → decodeFields (word h 0x04 b) = decMaj04 h (word h 0x04 b)) ∧
    (∀ h b, b < 2 ^ 20 → decodeFields (word h 0x05 b) = decMaj05 h (word h 0x05 b)) ∧
    (∀ h b, b < 2 ^ 20 → decodeFields (word h 0x06 b) = decMaj06 h (word h 0x06 b)) ∧
    (∀ h b, b < 2 ^ 20 → decodeFields (word h 0x07 b) = decMaj07 h (word h 0x07 b)) ∧
    (∀ h b, b < 2 ^ 20 → decodeFields (word h 0x08 b) = decMaj08 h (word h 0x08 b)) ∧
    (∀ h b, b < 2 ^ 20 → decodeFields (word h 0x09 b) = decMaj09 h (word h 0x09 b)) ∧
    (∀ h b, b < 2 ^ 20 → decodeFields (word h 0x0A b) = decMaj0A h (word h 0x0A b)) ∧
    (∀ h b, b < 2 ^ 20 → decodeFields (word h 0x0B b) = decMaj0B h (word h 0x0B b)) ∧
    (∀ h b, b < 2 ^ 20 → decodeFields (word h 0x0C b) = decMaj0C h (word h 0x0C b)) ∧
    (∀ h b, b < 2 ^ 20 → decodeFields (word h 0x0D b) = decMaj0D h (word h 0x0D b)) ∧
    (∀ h b, b < 2 ^ 20 → decodeFields (word h 0x0E b) = decMaj0E h (word h 0x0E b)) ∧
    (∀ h b, b < 2 ^ 20 → decodeFields (word h 0x0F b) = decMaj0F h (word h 0x0F b)) ∧
    (∀ h b, b < 2 ^ 20 → decodeFields (word h 0x10 b) = decMaj10 h (word h 0x10 b)) ∧
    (∀ h b, b < 2 ^ 20 → decodeFields (word h 0x11 b) = decMaj11 h (word h 0x11 b)) ∧
    (∀ h b, b < 2 ^ 20 → decodeFields (word h 0x12 b) = decMaj12 h (word h 0x12 b)) ∧
    (∀ h b, b < 2 ^ 20 → decodeFields (word h 0x13 b) = decMaj13 h (word h 0x13 b)) ∧
    (∀ h b, b < 2 ^ 20 → decodeFields (word h 0x14 b) = decMaj14 h (word h 0x14 b)) ∧
    (∀ h b, b < 2 ^ 20 → decodeFields (word h 0x15 b) = decMaj15 h (word h 0x15 b)) ∧
    (∀ h b, b < 2 ^ 20 → decodeFields (word h 0x16 b) = decMaj16 h (word h 0x16 b)) ∧
    (∀ h b, b < 2 ^ 20 → decodeFields (word h 0x17 b) = decMaj17 h (word h 0x17 b)) ∧
    (∀ h b, b < 2 ^ 20 → decodeFields (word h 0x18 b) = decMaj18 h (word h 0x18 b)) ∧
    (∀ h b, b < 2 ^ 20 → decodeFields (word h 0x19 b) = decMaj19 h (word h 0x19 b)) ∧
    (∀ h b, b < 2 ^ 20 → decodeFields (word h 0x1A b) = decMaj1A h (word h 0x1A b)) ∧
    (∀ h b, b < 2 ^ 20 → decodeFields (word h 0x1B b) = decMaj1B h (word h 0x1B b)) ∧
    (∀ h b, b < 2 ^ 20 → decodeFields (word h 0x1C b) = decMaj1C h (word h 0x1C b)) ∧
    (∀ h b, b < 2 ^ 20 → decodeFields (word h 0x1D b) = decMaj1D h (word h 0x1D b)) ∧
    (∀ h b, b < 2 ^ 20 → decodeFields (word h 0x1E b) = decMaj1E h (word h 0x1E b)) ∧
    (∀ h b, b < 2 ^ 20 → decodeFields (word h 0x1F b) = decMaj1F h (word h 0x1F b)) ∧
    (∀ h b, b < 2 ^ 20 → decodeFields (word h 0x20 b) = decMaj20 h (word h 0x20 b)) ∧
    (∀ h b, b < 2 ^ 20 → decodeFields (word h 0x21 b) = decMaj21 h (word h 0x21 b)) ∧
    (∀ h b, b < 2 ^ 20 → decodeFields (word h 0x22 b) = decMaj22 h (word h 0x22 b)) ∧
    (∀ h b, b < 2 ^ 20 → decodeFields (word h 0x23 b) = decMaj23 h (word h 0x23 b)) ∧
    (∀ h b, b < 2 ^ 20 → decodeFields (word h 0x24 b) = decMaj24 h (word h 0x24 b)) ∧
    (∀ h b, b < 2 ^ 20 → decodeFields (word h 0x25 b) = decMaj25 h (word h 0x25 b)) ∧
    (∀ h b, b < 2 ^ 20 → decodeFields (word h 0x26 b) = decMaj26 h (word h 0x26 b)) ∧
    (∀ h b, b < 2 ^ 20 → decodeFields (word h 0x27 b) = decMaj27 h (word h 0x27 b)) ∧
    (∀ h b, b < 2 ^ 20 → decodeFields (word h 0x28 b) = decMaj28 h (word h 0x28 b)) ∧
    (∀ h b, b < 2 ^ 20 → decodeFields (word h 0x29 b) = decMaj29 h (word h 0x29 b)) ∧
    (∀ h b, b < 2 ^ 20 → decodeFields (word h 0x2A b) = decMaj2A h (word h 0x2A b)) ∧
    (∀ h b, b < 2 ^ 20 → decodeFields (word h 0x2B b) = decMaj2B h (word h 0x2B b)) ∧
    (∀ h b, b < 2 ^ 20 → decodeFields (word h 0x2C b) = decMaj2C h (word h 0x2C b)) ∧
    (∀ h b, b < 2 ^ 20 → decodeFields (word h 0x30 b) = decMaj30 h (word h 0x30 b)) ∧
    (∀ h b, b < 2 ^ 20 → decodeFields (word h 0x31 b) = decMaj31 h (word h 0x31 b)) ∧
    (∀ h b, b < 2 ^ 20 → decodeFields (word h 0x32 b) = decMaj32 h (word h 0x32 b)) ∧
    (∀ h b, b < 2 ^ 20 → decodeFields (word h 0x33 b) = decMaj33 h (word h 0x33 b)) ∧
    (∀ h b, b < 2 ^ 20 → decodeFields (word h 0x34 b) = decMaj34 h (word h 0x34 b)) ∧
    (∀ h b, b < 2 ^ 20 → decodeFields (word h 0x35 b) = decMaj35 h (word h 0x35 b)) ∧
    (∀ h b, b < 2 ^ 20 → decodeFields (word h 0x36 b) = decMaj36 h (word h 0x36 b)) ∧
    (∀ h b, b < 2 ^ 20 → decodeFields (word h 0x37 b) = decMaj37 h (word h 0x37 b)) ∧
    (∀ h b, b < 2 ^ 20 → decodeFields (word h 0x38 b) = decMaj38 h (word h 0x38 b)) ∧
    (∀ h b, b < 2 ^ 20 → decodeFields (word h 0x39 b) = decMaj39 h (word h 0x39 b)) ∧
    (∀ h b, b < 2 ^ 20 → decodeFields (word h 0x40 b) = decMaj40 h (word h 0x40 b)) ∧
    (∀ h b, b < 2 ^ 20 → decodeFields (word h 0x41 b) = decMaj41 h (word h 0x41 b)) ∧
    (∀ h b, b < 2 ^ 20 → decodeFields (word h 0x42 b) = decMaj42 h (word h 0x42 b)) ∧
    (∀ h b, b < 2 ^ 20 → decodeFields (word h 0x43 b) = decMaj43 h (word h 0x43 b)) ∧
    (∀ h b, b < 2 ^ 20 → decodeFields (word h 0x44 b) = decMaj44 h (word h 0x44 b)) ∧
    (∀ h b, b < 2 ^ 20 → decodeFields (word h 0x45 b) = decMaj45 h (word h 0x45 b)) ∧
    (∀ h b, b < 2 ^ 20 → decodeFields (word h 0x46 b) = decMaj46 h (word h 0x46 b)) ∧
    (∀ h b, b < 2 ^ 20 → decodeFields (word h 0x47 b) = decMaj47 h (word h 0x47 b)) ∧
    (∀ h b, b < 2 ^ 20 → decodeFields (word h 0x48 b) = decMaj48 h (word h 0x48 b)) ∧
    (∀ h b, b < 2 ^ 20 → decodeFields (word h 0x49 b) = decMaj49 h (word h 0x49 b)) ∧
    (∀ h b, b < 2 ^ 20 → decodeFields (word h 0x50 b) = decMaj50 h (word h 0x50 b)) ∧
    (∀ h b, b < 2 ^ 20 → decodeFields (word h 0x51 b) = decMaj51 h (word h 0x51 b)) ∧
    (∀ h b, b < 2 ^ 20 → decodeFields (word h 0x52 b) = decMaj52 h (word h 0x52 b)) ∧
    (∀ h b, b < 2 ^ 20 → decodeFields (word h 0x53 b) = decMaj53 h (word h 0x53 b)) ∧
    (∀ h b, b < 2 ^ 20 → decodeFields (word h 0x54 b) = decMaj54 h (word h 0x54 b)) ∧
    (∀ h b, b < 2 ^ 20 → decodeFields (word h 0x55 b) = decMaj55 h (word h 0x55 b)) ∧
    (∀ h b, b < 2 ^ 20 → decodeFields (word h 0x56 b) = decMaj56 h (word h 0x56 b)) ∧
    (∀ h b, b < 2 ^ 20 → decodeFields (word h 0x57 b) = decMaj57 h (word h 0x57 b)) ∧
    (∀ h b, b < 2 ^ 20 → decodeFields (word h 0x58 b) = decMaj58 h (word h 0x58 b)) ∧
    (∀ h b, b < 2 ^ 20 → decodeFields (word h 0x60 b) = decMaj60 h (word h 0x60 b)) ∧
    (∀ h b, b < 2 ^ 20 → decodeFields (word h 0x61 b) = decMaj61 h (word h 0x61 b)) ∧
    (∀ h b, b < 2 ^ 20 → decodeFields (word h 0x62 b) = decMaj62 h (word h 0x62 b)) ∧
    (∀ h b, b < 2 ^ 20 → decodeFields (word h 0x63 b) = decMaj63 h (word h 0x63 b)) ∧
    (∀ h b, b < 2 ^ 20 → decodeFields (word h 0x64 b) = decMaj64 h (word h 0x64 b)) ∧
    (∀ h b, b < 2 ^ 20 → decodeFields (word h 0x65 b) = decMaj65 h (word h 0x65 b)) ∧
    (∀ h b, b < 2 ^ 20 → decodeFields (word h 0x66 b) = decMaj66 h (word h 0x66 b)) ∧
    (∀ h b, b < 2 ^ 20 → decodeFields (word h 0x67 b) = decMaj67 h (word h 0x67 b)) ∧
    (∀ h b, b < 2 ^ 20 → decodeFields (word h 0x68 b) = decMaj68 h (word h 0x68 b)) ∧
    (∀ h b, b < 2 ^ 20 → decodeFields (word h 0x69 b) = decMaj69 h (word h 0x69 b)) ∧
    (∀ h b, b < 2 ^ 20 → decodeFields (word h 0x6A b) = decMaj6A h (word h 0x6A b)) ∧
    (∀ h b, b < 2 ^ 20 → decodeFields (word h 0x6B b) = decMaj6B h (word h 0x6B b)) ∧
    (∀ h b, b < 2 ^ 20 → decodeFields (word h 0x6C b) = decMaj6C h (word h 0x6C b)) ∧
    (∀ h b, b < 2 ^ 20 → decodeFields (word h 0x6D b) = decMaj6D h (word h 0x6D b)) ∧
    (∀ h b, b < 2 ^ 20 → decodeFields (word h 0x70 b) = decMaj70 h (word h 0x70 b)) ∧
    (∀ h b, b < 2 ^ 20 → decodeFields (word h 0x71 b) = decMaj71 h (word h 0x71 b)) ∧
    (∀ h b, b < 2 ^ 20 → decodeFields (word h 0x72 b) = decMaj72 h (word h 0x72 b)) ∧
    (∀ h b, b < 2 ^ 20 → decodeFields (word h 0x73 b) = decMaj73 h (word h 0x73 b)) ∧
    (∀ h b, b < 2 ^ 20 → decodeFields (word h 0x78 b) = decMaj78 h (word h 0x78 b)) ∧
    (∀ h b, b < 2 ^ 20 → decodeFields (word h 0x79 b) = decMaj79 h (word h 0x79 b)) ∧
    (∀ h b, b < 2 ^ 20 → decodeFields (word h 0x7A b) = decMaj7A h (word h 0x7A b)) ∧
    (∀ h b, b < 2 ^ 20 → decodeFields (word h 0x7B b) = decMaj7B h (word h 0x7B b)) ∧
    (∀ h b, b < 2 ^ 20 → decodeFields (word h 0x7C b) = decMaj7C h (word h 0x7C b)) ∧
    (∀ h b, b < 2 ^ 20 → decodeFields (word h 0x7D b) = decMaj7D h (word h 0x7D b)) ∧
    (∀ h b, b < 2 ^ 20 → decodeFields (word h 0x7E b) = decMaj7E h (word h 0x7E b)) := by
  and_intros
  all_goals
    refine decodeFields_word_of_major (by decide) fun w hw r hr => ?_
    rw [decodeFields, hw]
    exact hr

theorem decodeFields_of_major_scp {w : Nat} {r : Except DecodeError Instr} (hm : fld w 20 7 = 1) (hr : decMaj01 w = r) :
    decodeFields w = r := by
  rw [decodeFields, hm]; exact hr

theorem decodeFields_of_major_lit {w : Nat} {r : Except DecodeError Instr} (hm : fld w 20 7 = 2 ∨ fld w 20 7 = 3)
    (hr : decMaj02 w = r) : decodeFields w = r := by
  rcases hm with hm | hm <;> rw [decodeFields, hm] <;> exact hr

/-! #### The word of an instruction decodes to it -/

/-- The number that encodes an instruction is a word, and decodes to it. -/
def Decodes (i : Instr) : Prop := ∀ n, encodeNat i = some n → n < 2 ^ 32 ∧ decodeFields n = .ok i

theorem decodes_of_encodeNat {i : Instr} {n : Nat} (hn : encodeNat i = some n) (hd : n < 2 ^ 32 ∧ decodeFields n = .ok i) :
    Decodes i := fun _ hm => Option.some.inj (hn.symm.trans hm) ▸ hd

theorem decodes_of_event {i : Instr} (hi : encodeNat i = none) : Decodes i := fun _ hn => nomatch hi.symm.trans hn

/-- SCP and LIT have no header: their K, S and G are fixed or data [02 R31-R32]. -/
theorem scp_decodes (scope : Scope) (order : MOrder) : Decodes (.scp scope order) := by
  refine decodes_of_encodeNat rfl ⟨?_, decodeFields_of_major_scp ?_ ?_⟩ <;> cases scope <;> cases order <;> decide

theorem lit_decodes (hi : Bool) (g : Fin 8) (body : BitVec 20) : Decodes (.lit hi g body) := by
  refine decodes_of_encodeNat rfl ⟨?_, decodeFields_of_major_lit ?_ ?_⟩
  all_goals simp only [enc3, toNat_eq_bvField, toNat_eq_bitField]
  · omega
  · simp only [fld]; omega
  · simp only [decMaj02, ite_eq_ok, reduceCtorEq, and_false, or_false, Except.ok.injEq, Instr.lit.injEq, bitF_eq_iff,
      bvF_eq_iff, Fin.ext_iff, finF_val, toNat_eq_bvField]
    simp only [fld]
    omega

/-- The rows whose minor opcode stands below an operand: their fields are not a list over fixed low bits. -/
theorem interleaved_decodes :
    (∀ h p off, Decodes (.bany h p off)) ∧
    (∀ h p off, Decodes (.ball h p off)) ∧
    (∀ h p off, Decodes (.bnall h p off)) ∧
    (∀ h d a n, Decodes (.ishri h d a n)) ∧
    (∀ h d a n, Decodes (.isari h d a n)) ∧
    (∀ h d a n, Decodes (.iroti h d a n)) ∧
    (∀ h d r c ew pd, Decodes (.macqTry h d r c ew pd)) ∧
    (∀ h d a b la lb fm, Decodes (.msub h d a b la lb fm)) ∧
    (∀ h d a b la lb fm, Decodes (.mhad h d a b la lb fm)) ∧
    (∀ h d a b la lb fm, Decodes (.mmax h d a b la lb fm)) ∧
    (∀ h d a la fm, Decodes (.mneg h d a la fm)) ∧
    (∀ h d a sfm rnd la fm, Decodes (.mcvt h d a sfm rnd la fm)) ∧
    (∀ h d a la, Decodes (.mcopy h d a la)) ∧
    (∀ h d a la, Decodes (.mreshape h d a la)) := by
  and_intros
  all_goals
    intros
    refine decodes_of_encodeNat rfl ?_
    simp only [rowWord, enc2_word, enc3_word, enc4_word, enc5_word, enc6_word, Nat.reduceDiv, Nat.reduceMod, toNat_eq_bitField,
      toNat_eq_bvField, Rnd.code_eq_field, EW.code_eq_field]
    refine ⟨word_lt (by decide) (by simp only [pack]; omega), ?_⟩
    simp (disch := simp only [pack]; omega) only [decodeFields_word]
    simp [decMaj05, decMaj1F, decMaj60, decMaj67, decMaj68, need_eq_ok, ite_eq_ok, toNat_eq_bvField]
    simp only [pack, fld]
    omega

theorem control_decodes :
    (∀ h, Decodes (.nop h)) ∧
    (∀ h cc off, Decodes (.br h cc off)) ∧
    (∀ h p off, Decodes (.bnone h p off)) ∧
    (∀ h p off, Decodes (.bdiv h p off)) ∧
    (∀ h off, Decodes (.call h off)) ∧
    (∀ h a, Decodes (.jmpr h a)) ∧
    (∀ h a, Decodes (.ret h a)) ∧
    (∀ h, Decodes (.exit h)) ∧
    (∀ h, Decodes (.join h)) ∧
    (∀ h, Decodes (.earlygo h)) ∧
    (∀ h, Decodes (.yield h)) ∧
    (∀ h, Decodes (.tret h)) ∧
    (∀ h code, Decodes (.bkpt h code)) ∧
    (∀ h code, Decodes (.trap h code)) ∧
    (∀ h, Decodes (.eret h)) ∧
    (∀ h, Decodes (.halt h)) ∧
    (∀ h a scope kind, Decodes (.tlbi h a scope kind)) ∧
    (∀ h rail, Decodes (.railsel h rail)) ∧
    (∀ h d csr, Decodes (.csrr h d csr)) ∧
    (∀ h d csr, Decodes (.csrw h d csr)) ∧
    (∀ h d csr, Decodes (.csrs h d csr)) ∧
    (∀ h d csr, Decodes (.csrc h d csr)) := by
  and_intros
  all_goals
    intros
    refine decodes_of_encodeNat rfl ?_
    simp [decodeFields_word, decMaj00, decMaj04, decMaj05, decMaj06, decMaj07, decMaj08, decMaj09, decMaj0A, decMaj0B, decMaj0C,
      decMaj0D, decMaj0E, decMaj0F, need_eq_ok, ite_eq_ok, toNat_eq_bitField, toNat_eq_bvField]
    all_goals simp [fld, pack] <;> omega

theorem integer_decodes :
    (∀ h d a b, Decodes (.iadd h d a b)) ∧
    (∀ h d a b, Decodes (.isub h d a b)) ∧
    (∀ h d a b, Decodes (.imin h d a b)) ∧
    (∀ h d a b, Decodes (.imax h d a b)) ∧
    (∀ h d a b, Decodes (.iminZ h d a b)) ∧
    (∀ h d a b, Decodes (.imaxZ h d a b)) ∧
    (∀ h d a b, Decodes (.idiff h d a b)) ∧
    (∀ h d a, Decodes (.iabs h d a)) ∧
    (∀ h d a b, Decodes (.andw h d a b)) ∧
    (∀ h d a b, Decodes (.orw h d a b)) ∧
    (∀ h d a b, Decodes (.xorw h d a b)) ∧
    (∀ h d a b, Decodes (.andn h d a b)) ∧
    (∀ h d a b, Decodes (.ishl h d a b)) ∧
    (∀ h d a b, Decodes (.ishr h d a b)) ∧
    (∀ h d a b, Decodes (.isar h d a b)) ∧
    (∀ h d a b, Decodes (.irot h d a b)) ∧
    (∀ h d a b, Decodes (.imul h d a b)) ∧
    (∀ h d a b, Decodes (.imulhS h d a b)) ∧
    (∀ h d a b, Decodes (.imulhZ h d a b)) ∧
    (∀ h d a b, Decodes (.imad h d a b)) ∧
    (∀ h d a, Decodes (.popc h d a)) ∧
    (∀ h d a, Decodes (.clz h d a)) ∧
    (∀ h d a, Decodes (.brev h d a)) ∧
    (∀ h d a b, Decodes (.fns h d a b)) ∧
    (∀ h d a, Decodes (.popc64 h d a)) ∧
    (∀ h d a, Decodes (.clz64 h d a)) ∧
    (∀ h d a, Decodes (.brev64 h d a)) ∧
    (∀ h d a b, Decodes (.fns64 h d a b)) ∧
    (∀ h d a b, Decodes (.iadd64 h d a b)) ∧
    (∀ h d a b, Decodes (.isub64 h d a b)) ∧
    (∀ h d a b, Decodes (.ishl64 h d a b)) ∧
    (∀ h d a b, Decodes (.ishr64 h d a b)) := by
  and_intros
  all_goals
    intros
    refine decodes_of_encodeNat rfl ?_
    simp [decodeFields_word, decMaj10, decMaj11, decMaj12, decMaj13, decMaj14, decMaj15, decMaj16, decMaj17, ite_eq_ok]
    all_goals simp [fld, pack]; omega

theorem bitfield_decodes :
    (∀ h d a b, Decodes (.bfxS h d a b)) ∧
    (∀ h d a b, Decodes (.bfxZ h d a b)) ∧
    (∀ h d a b, Decodes (.bfi h d a b)) ∧
    (∀ h d a b, Decodes (.prmt h d a b)) ∧
    (∀ h d a b n, Decodes (.sel h d a b n)) ∧
    (∀ h d a, Decodes (.mov h d a)) ∧
    (∀ h d a, Decodes (.mov64 h d a)) ∧
    (∀ h d a i, Decodes (.iaddi h d a i)) ∧
    (∀ h d a i, Decodes (.andi h d a i)) ∧
    (∀ h d a i, Decodes (.ori h d a i)) ∧
    (∀ h d a i, Decodes (.xori h d a i)) ∧
    (∀ h d a n, Decodes (.ishli h d a n)) := by
  and_intros
  all_goals
    intros
    refine decodes_of_encodeNat rfl ?_
    simp [decodeFields_word, decMaj18, decMaj19, decMaj1A, decMaj1B, decMaj1C, decMaj1D, decMaj1E, decMaj1F, toNat_eq_bvField]

theorem predicate_decodes :
    (∀ h pd a b c t, Decodes (.icmp h pd a b c t)) ∧
    (∀ h pd a i c t, Decodes (.icmpi h pd a i c t)) ∧
    (∀ h pd pa pb, Decodes (.pand h pd pa pb)) ∧
    (∀ h pd pa pb, Decodes (.por h pd pa pb)) ∧
    (∀ h pd pa pb, Decodes (.pxor h pd pa pb)) ∧
    (∀ h pd pa pb, Decodes (.pandn h pd pa pb)) ∧
    (∀ h d a b n, Decodes (.lea h d a b n)) ∧
    (∀ h d k, Decodes (.movk h d k)) ∧
    (∀ h d a k, Decodes (.iaddk h d a k)) ∧
    (∀ h d a k, Decodes (.leak h d a k)) ∧
    (∀ h d a, Decodes (.kmov h d a)) ∧
    (∀ h d a, Decodes (.kadd h d a)) ∧
    (∀ h d a, Decodes (.ksub h d a)) ∧
    (∀ h d a, Decodes (.kmul h d a)) ∧
    (∀ h d a, Decodes (.kand h d a)) ∧
    (∀ h d a, Decodes (.kor h d a)) ∧
    (∀ h d a, Decodes (.kxor h d a)) ∧
    (∀ h d a, Decodes (.kshl h d a)) ∧
    (∀ h d a, Decodes (.kshr h d a)) ∧
    (∀ h d a, Decodes (.ksar h d a)) ∧
    (∀ h d a, Decodes (.kmin h d a)) ∧
    (∀ h d a, Decodes (.kmax h d a)) ∧
    (∀ h d a, Decodes (.kcmp h d a)) ∧
    (∀ h d a, Decodes (.kpopc h d a)) ∧
    (∀ h d a, Decodes (.kclz h d a)) ∧
    (∀ h d a, Decodes (.kfns h d a)) ∧
    (∀ h d i, Decodes (.kli h d i)) ∧
    (∀ h d i, Decodes (.kaddi h d i)) ∧
    (∀ h d a o, Decodes (.kld h d a o)) ∧
    (∀ h d a o, Decodes (.kst h d a o)) ∧
    (∀ h d a lane, Decodes (.kget h d a lane)) := by
  and_intros
  all_goals
    intros
    refine decodes_of_encodeNat rfl ?_
    simp [decodeFields_word, decMaj20, decMaj21, decMaj22, decMaj23, decMaj24, decMaj25, decMaj26, decMaj27, decMaj28, decMaj29,
      decMaj2A, decMaj2B, decMaj2C, need_eq_ok, toNat_eq_bvField]

theorem float_decodes :
    (∀ h d a b, Decodes (.fadd h d a b)) ∧
    (∀ h d a b, Decodes (.fsub h d a b)) ∧
    (∀ h d a b, Decodes (.fmul h d a b)) ∧
    (∀ h d a b, Decodes (.ffma h d a b)) ∧
    (∀ h d a b, Decodes (.fmin h d a b)) ∧
    (∀ h d a b, Decodes (.fmax h d a b)) ∧
    (∀ h d a, Decodes (.fabs h d a)) ∧
    (∀ h d a, Decodes (.fneg h d a)) ∧
    (∀ h pd a b c sig, Decodes (.fcmp h pd a b c sig)) ∧
    (∀ h d a, Decodes (.frcp h d a)) ∧
    (∀ h d a, Decodes (.frsq h d a)) ∧
    (∀ h d a, Decodes (.fsqrt h d a)) ∧
    (∀ h d a, Decodes (.fexp2 h d a)) ∧
    (∀ h d a, Decodes (.flog2 h d a)) ∧
    (∀ h d a, Decodes (.fsin h d a)) ∧
    (∀ h d a, Decodes (.fcos h d a)) ∧
    (∀ h d a, Decodes (.ftanh h d a)) ∧
    (∀ h d a, Decodes (.frndRn h d a)) ∧
    (∀ h d a, Decodes (.frndRz h d a)) ∧
    (∀ h d a, Decodes (.frndRu h d a)) ∧
    (∀ h d a, Decodes (.frndRd h d a)) ∧
    (∀ h d a, Decodes (.fclass h d a)) ∧
    (∀ h d a src dst rnd, Decodes (.fcvt h d a src dst rnd)) ∧
    (∀ h d a b, Decodes (.pkbf h d a b)) ∧
    (∀ h d a b, Decodes (.pkh h d a b)) ∧
    (∀ h d a b, Decodes (.pkins h d a b)) ∧
    (∀ h d a b, Decodes (.upk h d a b)) ∧
    (∀ h d a i, Decodes (.faddi h d a i)) ∧
    (∀ h d a i, Decodes (.fmuli h d a i)) ∧
    (∀ h d a b, Decodes (.dp4S8 h d a b)) ∧
    (∀ h d a b, Decodes (.dp4Z8 h d a b)) ∧
    (∀ h d a b, Decodes (.dp4E4 h d a b)) ∧
    (∀ h d a b, Decodes (.dp4E5 h d a b)) ∧
    (∀ h d a b, Decodes (.dp8S4 h d a b)) ∧
    (∀ h d a b, Decodes (.dp8F4 h d a b)) ∧
    (∀ h d a b, Decodes (.dp2Bf h d a b)) ∧
    (∀ h d a b, Decodes (.scacc h d a b)) := by
  and_intros
  all_goals
    intros
    refine decodes_of_encodeNat rfl ?_
    simp [decodeFields_word, decMaj30, decMaj31, decMaj32, decMaj33, decMaj34, decMaj35, decMaj36, decMaj37, decMaj38, decMaj39,
      need_eq_ok, toNat_eq_bitField, toNat_eq_bvField]

theorem memory_decodes :
    (∀ h d a o sz, Decodes (.ld h d a o sz)) ∧
    (∀ h d a o sz, Decodes (.st h d a o sz)) ∧
    (∀ h a o, Decodes (.pfetch h a o)) ∧
    (∀ h scope eng, Decodes (.fenceFull h scope eng)) ∧
    (∀ h scope eng, Decodes (.fenceAcq h scope eng)) ∧
    (∀ h scope eng, Decodes (.fenceRel h scope eng)) ∧
    (∀ h d a b, Decodes (.atadd32 h d a b)) ∧
    (∀ h d a b, Decodes (.atadd64 h d a b)) ∧
    (∀ h d a b, Decodes (.ataddF32 h d a b)) ∧
    (∀ h d a b, Decodes (.ataddBf16x2 h d a b)) ∧
    (∀ h d a b, Decodes (.atmmMinS h d a b)) ∧
    (∀ h d a b, Decodes (.atmmMaxS h d a b)) ∧
    (∀ h d a b, Decodes (.atmmMinZ h d a b)) ∧
    (∀ h d a b, Decodes (.atmmMaxZ h d a b)) ∧
    (∀ h d a b, Decodes (.atlogAnd h d a b)) ∧
    (∀ h d a b, Decodes (.atlogOr h d a b)) ∧
    (∀ h d a b, Decodes (.atlogXor h d a b)) ∧
    (∀ h d a b, Decodes (.atlogExch h d a b)) ∧
    (∀ h d a b, Decodes (.cas32 h d a b)) ∧
    (∀ h d a b, Decodes (.cas64 h d a b)) ∧
    (∀ h a, Decodes (.claspAcq h a)) ∧
    (∀ h a, Decodes (.claspRel h a)) ∧
    (∀ h a pd, Decodes (.claspTry h a pd)) ∧
    (∀ h a b, Decodes (.claspBind h a b)) ∧
    (∀ h a, Decodes (.claspUnbind h a)) ∧
    (∀ h a, Decodes (.monitor h a)) ∧
    (∀ h a pd, Decodes (.mwait h a pd)) ∧
    (∀ h, Decodes (.mcancel h)) := by
  and_intros
  all_goals
    intros
    refine decodes_of_encodeNat rfl ?_
    simp [decodeFields_word, decMaj40, decMaj41, decMaj42, decMaj43, decMaj44, decMaj45, decMaj46, decMaj47, decMaj48, decMaj49,
      need_eq_ok, toNat_eq_bvField]
    all_goals simp [fld, pack]

theorem strand_decodes :
    (∀ h d a b, Decodes (.shflIdx h d a b)) ∧
    (∀ h d a b, Decodes (.shflXor h d a b)) ∧
    (∀ h d a b, Decodes (.shflUp h d a b)) ∧
    (∀ h d a b, Decodes (.shflDown h d a b)) ∧
    (∀ h kd a op, Decodes (.redu h kd a op)) ∧
    (∀ h d a op excl, Decodes (.scan h d a op excl)) ∧
    (∀ h d a p, Decodes (.compress h d a p)) ∧
    (∀ h d a p, Decodes (.expand h d a p)) ∧
    (∀ h d a, Decodes (.matchw h d a)) ∧
    (∀ h d p, Decodes (.ballot h d p)) ∧
    (∀ h, Decodes (.bar h)) ∧
    (∀ h a b scope, Decodes (.arrv h a b scope)) ∧
    (∀ h a b scope, Decodes (.awt h a b scope)) ∧
    (∀ h a b, Decodes (.spawn h a b)) ∧
    (∀ h a, Decodes (.tnew h a)) ∧
    (∀ h a b, Decodes (.tnewn h a b)) ∧
    (∀ h a, Decodes (.tcancel h a)) ∧
    (∀ h a, Decodes (.depdec h a)) ∧
    (∀ h a b, Decodes (.depadd h a b)) ∧
    (∀ h a b, Decodes (.depget h a b)) ∧
    (∀ h a, Decodes (.rgnew h a)) ∧
    (∀ h a, Decodes (.rgend h a)) ∧
    (∀ h a b, Decodes (.rgpri h a b)) := by
  and_intros
  all_goals
    intros
    refine decodes_of_encodeNat rfl ?_
    simp [decodeFields_word, decMaj50, decMaj51, decMaj52, decMaj53, decMaj54, decMaj55, decMaj56, decMaj57, decMaj58,
      need_eq_ok, ite_eq_ok, toNat_eq_bitField]
    all_goals simp [fld, pack]; omega

theorem matrix_decodes :
    (∀ h d r c ew, Decodes (.macq h d r c ew)) ∧
    (∀ h d, Decodes (.mrel h d)) ∧
    (∀ h d a b, Decodes (.mldRow h d a b)) ∧
    (∀ h d a b, Decodes (.mldCol h d a b)) ∧
    (∀ h d a, Decodes (.mldSparse h d a)) ∧
    (∀ h d a, Decodes (.mldBcast h d a)) ∧
    (∀ h d a b lw, Decodes (.mstRow h d a b lw)) ∧
    (∀ h d a b lw, Decodes (.mstCol h d a b lw)) ∧
    (∀ h d a lw, Decodes (.mstSparse h d a lw)) ∧
    (∀ h d a b c la lb fm, Decodes (.mmul h d a b c la lb fm)) ∧
    (∀ h d a b c la lb fm, Decodes (.mmult h d a b c la lb fm)) ∧
    (∀ h d a b c la lb fm, Decodes (.mtmul h d a b c la lb fm)) ∧
    (∀ h d a b la lb fm, Decodes (.madd h d a b la lb fm)) ∧
    (∀ h d a la, Decodes (.mtrn h d a la)) ∧
    (∀ h d a g la, Decodes (.mscale h d a g la)) ∧
    (∀ h d g, Decodes (.mfill h d g)) ∧
    (∀ h a g la, Decodes (.mget h a g la)) ∧
    (∀ h d g, Decodes (.mput h d g)) ∧
    (∀ h a g la, Decodes (.mshape h a g la)) ∧
    (∀ h d a la, Decodes (.minv h d a la)) ∧
    (∀ h d a b la, Decodes (.mlu h d a b la)) ∧
    (∀ h d a la, Decodes (.mchol h d a la)) ∧
    (∀ h d a b unit up la lb, Decodes (.mtrsv h d a b unit up la lb)) ∧
    (∀ h d a la, Decodes (.mexp h d a la)) ∧
    (∀ h d a fm la blk, Decodes (.mht h d a fm la blk)) ∧
    (∀ h d a g la, Decodes (.mquant h d a g la)) ∧
    (∀ h d a g la, Decodes (.msacc h d a g la)) := by
  and_intros
  all_goals
    intros
    refine decodes_of_encodeNat rfl ?_
    simp [decodeFields_word, decMaj60, decMaj61, decMaj62, decMaj63, decMaj64, decMaj65, decMaj66, decMaj67, decMaj68, decMaj69,
      decMaj6A, decMaj6B, decMaj6C, decMaj6D, need_eq_ok, ite_eq_ok, toNat_eq_bitField]
    all_goals simp [fld, pack]; omega

theorem engine_decodes :
    (∀ h d b, Decodes (.calloc h d b)) ∧
    (∀ h a, Decodes (.cfree h a)) ∧
    (∀ h d a b fin, Decodes (.caccAdd h d a b fin)) ∧
    (∀ h d a b fin, Decodes (.caccIadd h d a b fin)) ∧
    (∀ h d a b fin, Decodes (.caccWrite h d a b fin)) ∧
    (∀ h d a b, Decodes (.cld h d a b)) ∧
    (∀ h d a b, Decodes (.cldClr h d a b)) ∧
    (∀ h k, Decodes (.cdrainMem h k)) ∧
    (∀ h k, Decodes (.cdrainAdd h k)) ∧
    (∀ h k tag, Decodes (.cpy h k tag)) ∧
    (∀ h k tag, Decodes (.cpy2d h k tag)) ∧
    (∀ h k tag, Decodes (.cpyxGather h k tag)) ∧
    (∀ h k tag, Decodes (.cpyxScatter h k tag)) ∧
    (∀ h k, Decodes (.wtany h k)) ∧
    (∀ h k, Decodes (.wtall h k)) ∧
    (∀ h k d, Decodes (.tfirst h k d)) ∧
    (∀ h k d, Decodes (.ttest h k d)) ∧
    (∀ h ctx k, Decodes (.tlwait h ctx k)) ∧
    (∀ h ctx k, Decodes (.tlread h ctx k)) ∧
    (∀ h k, Decodes (.collAllreduce h k)) ∧
    (∀ h k, Decodes (.collReducescatter h k)) ∧
    (∀ h k, Decodes (.collAllgather h k)) ∧
    (∀ h k, Decodes (.collAlltoall h k)) ∧
    (∀ h x y, Decodes (.hnew h x y)) ∧
    (∀ h x y, Decodes (.hcopy h x y)) ∧
    (∀ h y, Decodes (.hdrop h y)) ∧
    (∀ h x y, Decodes (.hderef h x y)) ∧
    (∀ h x y, Decodes (.hfin h x y)) ∧
    (∀ h x y, Decodes (.hld h x y)) ∧
    (∀ h x y, Decodes (.hst h x y)) ∧
    (∀ h a b, Decodes (.lywait h a b)) ∧
    (∀ h a b, Decodes (.lydone h a b)) ∧
    (∀ h a b, Decodes (.lyhintPf h a b)) ∧
    (∀ h a b, Decodes (.lyhintRetry h a b)) := by
  and_intros
  all_goals
    intros
    refine decodes_of_encodeNat rfl ?_
    simp [decodeFields_word, decMaj70, decMaj71, decMaj72, decMaj73, decMaj78, decMaj79, decMaj7A, decMaj7B, decMaj7C, decMaj7D,
      decMaj7E, need_eq_ok, ite_eq_ok, toNat_eq_bitField]
    all_goals simp [fld, pack]; omega

theorem decodes (i : Instr) : Decodes i := by
  cases i
  any_goals exact decodes_of_event rfl
  all_goals
    simp only [scp_decodes, lit_decodes, interleaved_decodes, control_decodes, integer_decodes, bitfield_decodes,
      predicate_decodes, float_decodes, memory_decodes, strand_decodes, matrix_decodes, engine_decodes]

/-! #### A word that decodes is the word of its instruction -/

/-- What the decoder reads from a word encodes to that word. -/
def Reencodes (w : Nat) (r : Except DecodeError Instr) : Prop := ∀ i, r = .ok i → encodeNat i = some w

/-- What the decoder of a major opcode reads from a word of that major encodes to the word. -/
def MajorReencodes (m : Nat) (f : Hdr → Nat → Except DecodeError Instr) : Prop :=
  ∀ h b, b < 2 ^ 20 → Reencodes (word h m b) (f h (word h m b))

section
variable {w : Nat} {a b : Except DecodeError Instr}

theorem reencodes_error {e : DecodeError} : Reencodes w (.error e) ↔ True := ⟨fun _ => trivial, fun _ _ h => nomatch h⟩

theorem reencodes_ok {i : Instr} : Reencodes w (.ok i) ↔ encodeNat i = some w :=
  ⟨fun h => h i rfl, fun h _ e => Except.ok.inj e ▸ h⟩

theorem reencodes_ite {c : Prop} [Decidable c] :
    Reencodes w (if c then a else b) ↔ (c → Reencodes w a) ∧ (¬ c → Reencodes w b) := by
  by_cases hc : c <;> simp [hc]

theorem reencodes_need {α : Type} {o : Option α} {e : DecodeError} {f : α → Except DecodeError Instr} :
    Reencodes w (need o e f) ↔ ∀ x, o = some x → Reencodes w (f x) := by
  cases o <;> simp [need, reencodes_error]

end

theorem reencodes_of_major {m w : Nat} {f : Hdr → Nat → Except DecodeError Instr} (hf : MajorReencodes m f)
    (hw : w < 2 ^ 32) (hm : fld w 20 7 = m) : Reencodes w (f (hdrF w) w) := by
  have hb : fld w 0 20 < 2 ^ 20 := Nat.mod_lt _ (by decide)
  simpa only [← hm, word_fields hw] using hf (hdrF w) (fld w 0 20) hb

theorem scp_reencodes {w : Nat} (hw : w < 2 ^ 32) (hm : fld w 20 7 = 1) : Reencodes w (decMaj01 w) := by
  simp only [decMaj01, reencodes_error, reencodes_ok, reencodes_ite, reencodes_need, implies_true, and_true]
  intro h1 h2 scope hs order ho
  refine congrArg some ?_
  rw [Scope.ofCode_eq_some] at hs
  rw [MOrder.ofCode_eq_some] at ho
  simp only [enc2, ← hs, ← ho]
  simp only [fld] at *
  omega

theorem lit_reencodes {w : Nat} (hw : w < 2 ^ 32) (hm : fld w 20 7 = 2 ∨ fld w 20 7 = 3) : Reencodes w (decMaj02 w) := by
  simp only [decMaj02, reencodes_error, reencodes_ok, reencodes_ite, implies_true, and_true]
  intro h1
  refine congrArg some ?_
  simp only [enc3, toNat_eq_bvField, toNat_eq_bitField, bvF_field, bitF_field, finF_val]
  simp only [fld] at *
  omega

theorem control_reencodes :
    MajorReencodes 0x00 decMaj00 ∧ MajorReencodes 0x04 decMaj04 ∧ MajorReencodes 0x06 decMaj06 ∧ MajorReencodes 0x07 decMaj07 ∧
    MajorReencodes 0x08 decMaj08 ∧ MajorReencodes 0x09 decMaj09 ∧ MajorReencodes 0x0A decMaj0A ∧ MajorReencodes 0x0B decMaj0B ∧
    MajorReencodes 0x0C decMaj0C ∧ MajorReencodes 0x0D decMaj0D ∧ MajorReencodes 0x0E decMaj0E ∧ MajorReencodes 0x0F decMaj0F := by
  and_intros
  all_goals
    intro h b hb
    simp only [decMaj00, decMaj04, decMaj06, decMaj07, decMaj08, decMaj09, decMaj0A, decMaj0B, decMaj0C, decMaj0D, decMaj0E,
      decMaj0F, reencodes_error, reencodes_ok, reencodes_ite, reencodes_need, imp_and, implies_true, and_true]
    and_intros
    all_goals
      intros
      refine congrArg some ?_
      simp only [rowWord, enc0_word, enc1_word, enc2_word, enc3_word, Cond.code_eq_field, Scope.code_eq_field,
        TlbiKind.code_eq_field, Csr.code_eq_field, toNat_eq_bvField, toNat_eq_bitField, Nat.reduceDiv, Nat.reduceMod]
      simp [*, word_eq_word hb] at *
      all_goals simp only [fld] at *; omega

theorem integer_reencodes :
    MajorReencodes 0x10 decMaj10 ∧ MajorReencodes 0x11 decMaj11 ∧ MajorReencodes 0x12 decMaj12 ∧ MajorReencodes 0x13 decMaj13 ∧
    MajorReencodes 0x14 decMaj14 ∧ MajorReencodes 0x15 decMaj15 ∧ MajorReencodes 0x16 decMaj16 ∧ MajorReencodes 0x17 decMaj17 ∧
    MajorReencodes 0x18 decMaj18 ∧ MajorReencodes 0x19 decMaj19 ∧ MajorReencodes 0x1A decMaj1A ∧ MajorReencodes 0x1B decMaj1B ∧
    MajorReencodes 0x1C decMaj1C ∧ MajorReencodes 0x1D decMaj1D ∧ MajorReencodes 0x1E decMaj1E := by
  and_intros
  all_goals
    intro h b hb
    simp only [decMaj10, decMaj11, decMaj12, decMaj13, decMaj14, decMaj15, decMaj16, decMaj17, decMaj18, decMaj19, decMaj1A,
      decMaj1B, decMaj1C, decMaj1D, decMaj1E, reencodes_error, reencodes_ok, reencodes_ite, imp_and, implies_true, and_true]
    and_intros
    all_goals
      intros
      refine congrArg some ?_
      simp only [rowWord, enc2_word, enc3_word, enc4_word, toNat_eq_bvField, Nat.reduceDiv, Nat.reduceMod]
      simp [*, word_eq_word hb] at *
      all_goals simp only [fld] at *; omega

theorem predicate_reencodes :
    MajorReencodes 0x20 decMaj20 ∧ MajorReencodes 0x21 decMaj21 ∧ MajorReencodes 0x22 decMaj22 ∧ MajorReencodes 0x23 decMaj23 ∧
    MajorReencodes 0x24 decMaj24 ∧ MajorReencodes 0x25 decMaj25 ∧ MajorReencodes 0x26 decMaj26 ∧ MajorReencodes 0x27 decMaj27 ∧
    MajorReencodes 0x28 decMaj28 ∧ MajorReencodes 0x29 decMaj29 ∧ MajorReencodes 0x2A decMaj2A ∧ MajorReencodes 0x2B decMaj2B ∧
    MajorReencodes 0x2C decMaj2C := by
  and_intros
  all_goals
    intro h b hb
    simp only [decMaj20, decMaj21, decMaj22, decMaj23, decMaj24, decMaj25, decMaj26, decMaj27, decMaj28, decMaj29, decMaj2A,
      decMaj2B, decMaj2C, reencodes_error, reencodes_ok, reencodes_ite, reencodes_need, imp_and, implies_true, and_true]
    and_intros
    all_goals
      intros
      refine congrArg some ?_
      simp only [rowWord, enc2_word, enc3_word, enc4_word, enc5_word, Cmp.code_eq_field, CmpTy.code_eq_field, toNat_eq_bvField,
        Nat.reduceDiv, Nat.reduceMod]
      simp [*, word_eq_word hb] at *
      all_goals simp only [fld] at *; omega

theorem float_reencodes :
    MajorReencodes 0x30 decMaj30 ∧ MajorReencodes 0x31 decMaj31 ∧ MajorReencodes 0x32 decMaj32 ∧ MajorReencodes 0x33 decMaj33 ∧
    MajorReencodes 0x34 decMaj34 ∧ MajorReencodes 0x35 decMaj35 ∧ MajorReencodes 0x36 decMaj36 ∧ MajorReencodes 0x37 decMaj37 ∧
    MajorReencodes 0x38 decMaj38 ∧ MajorReencodes 0x39 decMaj39 := by
  and_intros
  all_goals
    intro h b hb
    simp only [decMaj30, decMaj31, decMaj32, decMaj33, decMaj34, decMaj35, decMaj36, decMaj37, decMaj38, decMaj39,
      reencodes_error, reencodes_ok, reencodes_ite, reencodes_need, imp_and, implies_true, and_true]
    and_intros
    all_goals
      intros
      refine congrArg some ?_
      simp only [rowWord, enc2_word, enc3_word, enc5_word, FCmpOp.code_eq_field, CvtFmt.code_eq_field, Rnd.code_eq_field,
        toNat_eq_bvField, toNat_eq_bitField, Nat.reduceDiv, Nat.reduceMod]
      simp [*, word_eq_word hb] at *
      all_goals simp only [fld] at *; omega

theorem memory_reencodes :
    MajorReencodes 0x40 decMaj40 ∧ MajorReencodes 0x41 decMaj41 ∧ MajorReencodes 0x42 decMaj42 ∧ MajorReencodes 0x43 decMaj43 ∧
    MajorReencodes 0x44 decMaj44 ∧ MajorReencodes 0x45 decMaj45 ∧ MajorReencodes 0x46 decMaj46 ∧ MajorReencodes 0x47 decMaj47 ∧
    MajorReencodes 0x48 decMaj48 ∧ MajorReencodes 0x49 decMaj49 := by
  and_intros
  all_goals
    intro h b hb
    simp only [decMaj40, decMaj41, decMaj42, decMaj43, decMaj44, decMaj45, decMaj46, decMaj47, decMaj48, decMaj49,
      reencodes_error, reencodes_ok, reencodes_ite, reencodes_need, imp_and, implies_true, and_true]
    and_intros
    all_goals
      intros
      refine congrArg some ?_
      simp only [rowWord, enc0_word, enc1_word, enc2_word, enc3_word, enc4_word, AccSz.code_eq_field, Scope.code_eq_field,
        toNat_eq_bvField, Nat.reduceDiv, Nat.reduceMod]
      simp [*, word_eq_word hb] at *
      all_goals simp only [fld] at *; omega

theorem strand_reencodes :
    MajorReencodes 0x50 decMaj50 ∧ MajorReencodes 0x51 decMaj51 ∧ MajorReencodes 0x52 decMaj52 ∧ MajorReencodes 0x53 decMaj53 ∧
    MajorReencodes 0x54 decMaj54 ∧ MajorReencodes 0x55 decMaj55 ∧ MajorReencodes 0x56 decMaj56 ∧ MajorReencodes 0x57 decMaj57 ∧
    MajorReencodes 0x58 decMaj58 := by
  and_intros
  all_goals
    intro h b hb
    simp only [decMaj50, decMaj51, decMaj52, decMaj53, decMaj54, decMaj55, decMaj56, decMaj57, decMaj58, reencodes_error,
      reencodes_ok, reencodes_ite, reencodes_need, imp_and, implies_true, and_true]
    and_intros
    all_goals
      intros
      refine congrArg some ?_
      simp only [rowWord, enc0_word, enc1_word, enc2_word, enc3_word, enc4_word, Scope.code_eq_field, RedOp.code_eq_field,
        toNat_eq_bitField, Nat.reduceDiv, Nat.reduceMod]
      simp [*, word_eq_word hb] at *
      all_goals simp only [fld] at *; omega

theorem matrix_reencodes :
    MajorReencodes 0x61 decMaj61 ∧ MajorReencodes 0x62 decMaj62 ∧ MajorReencodes 0x63 decMaj63 ∧ MajorReencodes 0x64 decMaj64 ∧
    MajorReencodes 0x65 decMaj65 ∧ MajorReencodes 0x66 decMaj66 ∧ MajorReencodes 0x69 decMaj69 ∧ MajorReencodes 0x6A decMaj6A ∧
    MajorReencodes 0x6B decMaj6B ∧ MajorReencodes 0x6C decMaj6C ∧ MajorReencodes 0x6D decMaj6D := by
  and_intros
  all_goals
    intro h b hb
    simp only [decMaj61, decMaj62, decMaj63, decMaj64, decMaj65, decMaj66, decMaj69, decMaj6A, decMaj6B, decMaj6C, decMaj6D,
      reencodes_error, reencodes_ok, reencodes_ite, reencodes_need, imp_and, implies_true, and_true]
    and_intros
    all_goals
      intros
      refine congrArg some ?_
      simp only [rowWord, enc1_word, enc2_word, enc3_word, enc4_word, enc5_word, enc7_word, HtBlk.code_eq_field,
        toNat_eq_bitField, Nat.reduceDiv, Nat.reduceMod]
      simp [*, word_eq_word hb] at *
      all_goals simp only [fld] at *; omega

theorem engine_reencodes :
    MajorReencodes 0x70 decMaj70 ∧ MajorReencodes 0x71 decMaj71 ∧ MajorReencodes 0x72 decMaj72 ∧ MajorReencodes 0x73 decMaj73 ∧
    MajorReencodes 0x78 decMaj78 ∧ MajorReencodes 0x79 decMaj79 ∧ MajorReencodes 0x7A decMaj7A ∧ MajorReencodes 0x7B decMaj7B ∧
    MajorReencodes 0x7C decMaj7C ∧ MajorReencodes 0x7D decMaj7D ∧ MajorReencodes 0x7E decMaj7E := by
  and_intros
  all_goals
    intro h b hb
    simp only [decMaj70, decMaj71, decMaj72, decMaj73, decMaj78, decMaj79, decMaj7A, decMaj7B, decMaj7C, decMaj7D, decMaj7E,
      reencodes_error, reencodes_ok, reencodes_ite, reencodes_need, imp_and, implies_true, and_true]
    and_intros
    all_goals
      intros
      refine congrArg some ?_
      simp only [rowWord, enc1_word, enc2_word, enc3_word, enc4_word, EngCtx.code_eq_field, toNat_eq_bitField, Nat.reduceDiv,
        Nat.reduceMod]
      simp [*, word_eq_word hb] at *
      all_goals simp only [fld] at *; omega

/-- Majors whose minor opcode stands below an operand. -/
theorem branch_and_shift_reencodes :
    MajorReencodes 0x05 decMaj05 ∧ MajorReencodes 0x1F decMaj1F := by
  and_intros
  all_goals
    intro h b hb
    simp only [decMaj05, decMaj1F, reencodes_error, reencodes_ok, reencodes_ite, imp_and, implies_true, and_true]
    and_intros
    all_goals
      intros
      refine congrArg some ?_
      simp only [rowWord, enc2_word, enc3_word, toNat_eq_bvField, Nat.reduceDiv, Nat.reduceMod]
      simp [*, word_eq_word hb, -pack_eq_fld, pack] at *
      all_goals simp only [fld] at *; omega

theorem matrix_interleaved_reencodes :
    MajorReencodes 0x60 decMaj60 ∧ MajorReencodes 0x67 decMaj67 ∧ MajorReencodes 0x68 decMaj68 := by
  and_intros
  all_goals
    intro h b hb
    simp only [decMaj60, decMaj67, decMaj68, reencodes_error, reencodes_ok, reencodes_ite, reencodes_need, imp_and,
      implies_true, and_true]
    and_intros
    all_goals
      intros
      refine congrArg some ?_
      simp only [rowWord, enc3_word, enc4_word, enc5_word, enc6_word, Rnd.code_eq_field, EW.code_eq_field, toNat_eq_bitField,
        Nat.reduceDiv, Nat.reduceMod]
      simp [*, word_eq_word hb, -pack_eq_fld, pack] at *
      all_goals simp only [fld] at *; omega

theorem decodeFields_reencodes {w : Nat} (hw : w < 2 ^ 32) : Reencodes w (decodeFields w) := by
  unfold decodeFields
  split
  case h_2 hm => exact scp_reencodes hw hm
  case h_3 hm => exact lit_reencodes hw (.inl hm)
  case h_4 hm => exact lit_reencodes hw (.inr hm)
  case h_100 => exact reencodes_error.mpr trivial
  all_goals
    rename_i hm
    refine reencodes_of_major ?_ hw hm
    simp only [control_reencodes, integer_reencodes, predicate_reencodes, float_reencodes, memory_reencodes, strand_reencodes,
      matrix_reencodes, engine_reencodes, branch_and_shift_reencodes, matrix_interleaved_reencodes]

/-! #### Words and their instructions -/

theorem decodeWord_eq_ok {w : W32} {i : Instr} :
    decodeWord w = .ok i ↔ decodeFields w.toNat = .ok i ∧ i.wellFormed = true := by
  unfold decodeWord Instr.wellFormed
  cases decodeFields w.toNat with
  | error => simp
  | ok j =>
    simp only [Except.ok.injEq]
    cases h : j.illForm with
    | none => simpa using fun hj => by simp [← hj, h]
    | some r => simpa using fun hj => by simp [← hj, h]

theorem encode_eq_some {i : Instr} {w : W32} : encode i = some w ↔ encodeNat i = some w.toNat := by
  unfold encode
  cases h : encodeNat i with
  | none => simp
  | some n =>
    obtain ⟨hn, -⟩ := decodes i n h
    simp only [Option.map_some, Option.some.injEq, BitVec.toNat_eq, BitVec.toNat_ofNat, Nat.mod_eq_of_lt hn]

end Sys2Proof

namespace Sys2Proof.Proofs

/-- Settles O56: each row of the encoding tables is checked in both directions, and the two directions assembled over the
instructions and over the major opcodes. -/
theorem decodeEncode : Obligations.DecodeEncode := by
  refine ⟨fun i w hw hi => decodeWord_eq_ok.mpr ⟨(decodes i _ (encode_eq_some.mp hw)).2, hi⟩, fun i w hw => ?_⟩
  obtain ⟨hf, hi⟩ := decodeWord_eq_ok.mp hw
  exact ⟨encode_eq_some.mpr (decodeFields_reencodes w.isLt i hf), hi⟩

end Sys2Proof.Proofs
end

section
/-! ### The next group, and the word that a step runs [02 R21-R28, 09 R177] -/

namespace Sys2Proof.Machine

theorem Dev.mem_of_pick {d : Dev} {c : Fin 256} {cs : List Cand} {x : Cand} (h : d.pick c cs = some x) : x ∈ cs := by
  induction cs generalizing x with
  | nil => exact nomatch h
  | cons y ys ih =>
    unfold Dev.pick at h
    split at h
    · cases h; exact List.mem_cons_self
    · next z hz =>
      obtain rfl := Option.some.inj h
      split
      · exact List.mem_cons_of_mem _ (ih hz)
      · exact List.mem_cons_self

/-- The chosen fragment is one of its quadrant's candidates. -/
theorem Dev.chosen_mem_cands {d : Dev} {qs : List (Fin 256 × Fin 4)} {c : Fin 256} {q : Fin 4} {cs : List Cand} {x : Cand}
    (h : d.chooseIn qs = some (c, q, cs, x)) : x ∈ d.cands c q := by
  induction qs with
  | nil => exact nomatch h
  | cons y ys ih =>
    unfold Dev.chooseIn at h
    dsimp only at h
    split at h
    · next hp => cases h; exact Dev.mem_of_pick hp
    · exact ih h

theorem Dev.words_of_mem_cands {d : Dev} {c : Fin 256} {q : Fin 4} {x : Cand} (h : x ∈ d.cands c q) :
    x.words = d.groupOf x.st x.frag := by
  simp only [Dev.cands, List.mem_flatMap, List.mem_filterMap] at h
  obtain ⟨st, -, y, -, hy⟩ := h
  split at hy <;> cases hy
  rfl

/-- A group starts with the word at its position. -/
theorem groupAt_eq_cons (ws : List W32) (pos : Fin 3) : ∃ rest, groupAt ws pos = (pos, ws.getD pos.val 0) :: rest := by
  fin_cases pos <;> simp only [groupAt] <;> (repeat' split) <;> exact ⟨_, rfl⟩

/-- The next group of a fragment that issues afresh starts at its position, with the word of its packet that stands there. -/
theorem Dev.groupOf_eq_cons {d : Dev} {st : Strand} {f : Frag} {ws : List GWord} (hb : f.begun = none) (ha : f.aside = none)
    (h : d.groupOf st f = .ok ws) : ∃ ps rest, d.fetch st f.pc = .ok ps ∧
      ws = (f.pos, (wordsOf ((d.packet f ps).getD [])).getD f.pos.val 0) :: rest := by
  unfold Dev.groupOf at h
  rw [hb, ha] at h
  cases hf : d.fetch st f.pc with
  | error e => rw [hf] at h; exact nomatch h
  | ok ps =>
    rw [hf] at h
    obtain ⟨rest, hr⟩ := groupAt_eq_cons (wordsOf ((d.packet f ps).getD [])) f.pos
    exact ⟨ps, rest, rfl, (Except.ok.inj h).symm.trans hr⟩

theorem joinRuns_local {rs : List Run} (h : ∀ r ∈ rs, peerOf r.key = none) : ∀ r ∈ joinRuns rs, peerOf r.key = none := by
  induction rs with
  | nil => exact h
  | cons r rs ih =>
    obtain ⟨hr, hrs⟩ := List.forall_mem_cons.mp h
    have ih := ih hrs
    unfold joinRuns
    split
    · exact fun x hx => List.mem_singleton.mp hx ▸ hr
    · next y ys hy =>
      rw [hy] at ih
      split
      · exact List.forall_mem_cons.mpr ⟨hr, (List.forall_mem_cons.mp ih).2⟩
      · exact List.forall_mem_cons.mpr ⟨hr, ih⟩

/-- A packet that lies on this device is read from its memory. -/
theorem Dev.packet_of_local {d : Dev} {f : Frag} {ps : List Piece} (h : ∀ p ∈ ps, peerOf p.run.key = none) :
    d.packet f ps = some (Mem.readRuns d.mem (runsOf ps)) := by
  have hr : ∀ r ∈ runsOf ps, peerOf r.key = none := joinRuns_local (by simpa using h)
  unfold Dev.packet
  generalize runsOf ps = rs at hr
  induction rs with
  | nil => rfl
  | cons r rs ih =>
    rw [List.forall_mem_cons] at hr
    simp only [List.foldr_cons, ih hr.2, hr.1, Option.isNone_none, if_true, Mem.readRuns]

/-- A group that opens afresh is open only where its packet was fetched and no check of R28 has faulted: it stands before the
first of the fetched words. -/
theorem openGroup_active {d : Dev} {slot : Fin 4} {f : Frag} {words : Except Fail (List GWord)} (hb : f.begun = none)
    (h : (openGroup d slot f words).iss.active = true) : ∃ ws, words = .ok ws ∧ (openGroup d slot f words).iss.slot = slot ∧
      (openGroup d slot f words).iss.words = ws.map Prod.snd ∧
      (openGroup d slot f words).iss.pos = (ws.head?.map Prod.fst).getD f.pos ∧
      (openGroup d slot f words).iss.gpos = (openGroup d slot f words).iss.pos := by
  unfold openGroup at h ⊢
  rw [hb] at h ⊢
  cases words with
  | error e => exact nomatch h
  | ok ws =>
    dsimp only at h ⊢
    split at h
    · exact nomatch h
    · split at h
      · exact nomatch h
      · cases ws <;> exact ⟨_, rfl, rfl, rfl, rfl, rfl⟩

/-! #### Every operation has a next state -/

/-- The operation has a next state. -/
def Completes (o : Out) : Prop := ∃ t, o = .next t

theorem completes_next (t : State) : Completes (.next t) := ⟨t, rfl⟩

theorem completes_ite {c : Prop} [Decidable c] {a b : Out} (ha : Completes a) (hb : Completes b) :
    Completes (if c then a else b) := by
  split
  · exact ha
  · exact hb

theorem orTrap_completes (t : Option Trap) (s k : State) : Completes (orTrap t s k) := by
  cases t <;> exact completes_next _

theorem State.needSystem_completes {s : State} {k : Out} (hk : Completes k) : Completes (s.needSystem k) :=
  completes_ite hk (completes_next _)

theorem fpWord_completes (h : Hdr) (s : State) (f : Lane → W32 × W32) (w : Lane → W32 → Lane) : Completes (fpWord h s f w) :=
  completes_ite (completes_next _) (completes_next _)

theorem fpG_completes (h : Hdr) (d : GReg) (s : State) (f : Lane → W32 × W32) : Completes (fpG h d s f) :=
  fpWord_completes h s f _

theorem State.csrCheck_completes {s : State} {d : GReg} {c : Csr} {write : Bool} {k : Out} (hk : Completes k) :
    Completes (s.csrCheck d c write k) :=
  completes_ite (completes_next _) (completes_ite (State.needSystem_completes hk) hk)

theorem trapWord_completes (h : Hdr) (s : State) (cause : Nat) (code : BitVec 16) : Completes (trapWord h s cause code) :=
  completes_ite (completes_next _) (completes_next _)

theorem tagWait_completes (h : Hdr) (k : KReg) (all : Bool) (s : State) : Completes (tagWait h k all s) :=
  completes_ite (completes_next _) (completes_ite (completes_next _) (completes_ite (completes_next _) (completes_next _)))

theorem csrWrite_completes (h : Hdr) (d : GReg) (c : Csr) (s : State) (f : W64 → W64 → W64) : Completes (csrWrite h d c s f) :=
  State.csrCheck_completes (completes_ite (completes_next _) (completes_next _))

theorem State.startOp_completes (s : State) (ex : W32) (bad : Option Trap) (ranges : Except (Access × Fail) State) :
    Completes (s.startOp ex bad ranges) := by
  refine completes_ite (completes_next _) ?_
  split <;> exact completes_next _

section
variable {s : State} {ex : W32} {acc : Access} {align len size : Nat} {ea : LaneId → W64} {h : Hdr} {a b : GReg} {uses : Bool}

theorem State.reach_completes {k : List (LaneId × List Piece) → State → Out} (hk : ∀ x t, Completes (k x t)) :
    Completes (s.reach ex acc align ea len k) := by
  unfold State.reach
  dsimp only
  split
  · exact completes_next _
  · exact completes_next _
  · exact hk _ _

theorem State.reachK_completes {va : W64} {k : List Piece → State → Out} (hk : ∀ x t, Completes (k x t)) :
    Completes (s.reachK h acc va k) := by
  refine completes_ite (completes_next _) (completes_ite (completes_next _) ?_)
  split
  · exact completes_next _
  · exact hk _ _

theorem State.reachRecs_completes {k : List (LaneId × Nat) → State → Out} (hk : ∀ x t, Completes (k x t)) :
    Completes (s.reachRecs ex a size k) := by
  unfold State.reachRecs
  dsimp only
  split
  · exact completes_next _
  · exact completes_next _
  · exact hk _ _

theorem State.reachRcb_completes {k : Nat → Nat → State → Out} (hk : ∀ x y t, Completes (k x y t)) : Completes (s.reachRcb h a k) :=
  completes_ite (completes_next _) (State.reachRecs_completes fun _ _ => hk _ _ _)

theorem State.reachLayers_completes {k : List Named → State → Out} (hk : ∀ x t, Completes (k x t)) :
    Completes (s.reachLayers h a b uses k) := by
  unfold State.reachLayers
  refine State.reach_completes fun x t => ?_
  dsimp only
  split
  · exact completes_next _
  · exact hk _ _

theorem State.reachSig_completes {k : List (LaneId × List Piece) → State → Out} (hk : ∀ x t, Completes (k x t)) :
    Completes (s.reachSig ex a k) := by
  unfold State.reachSig
  dsimp only
  split
  · exact completes_next _
  · exact hk _ _

end

theorem depWord_completes (h : Hdr) (a : GReg) (reason : Nat) (f : Dev → LaneId → Nat → Dev × Bool) (s : State) :
    Completes (depWord h a reason f s) :=
  State.reachRecs_completes fun _ _ => completes_ite (completes_next _) (completes_next _)

theorem execCalloc_completes (h : Hdr) (d b : GReg) (s : State) : Completes (execCalloc h d b s) := by
  refine completes_ite (completes_next _) (completes_ite (completes_next _) ?_)
  split
  · exact completes_next _
  · split <;> exact completes_next _

theorem execCfree_completes (h : Hdr) (a : GReg) (s : State) : Completes (execCfree h a s) := by
  refine completes_ite (completes_next _) ?_
  dsimp only
  split
  · exact completes_next _
  · split <;> exact completes_next _

theorem execHst_completes (h : Hdr) (x y : GReg) (s : State) : Completes (execHst h x y s) := by
  unfold execHst
  dsimp only
  split
  · exact completes_next _
  · exact State.reachSig_completes fun _ _ => completes_next _

theorem execHld_completes (h : Hdr) (x y : GReg) (s : State) : Completes (execHld h x y s) := by
  unfold execHld
  dsimp only
  split
  · exact completes_next _
  · exact State.reachSig_completes fun _ _ => completes_next _

theorem execLywait_completes (h : Hdr) (a b : GReg) (s : State) : Completes (execLywait h a b s) := by
  refine State.reachLayers_completes fun ns t => completes_ite (completes_next _) ?_
  split <;> exact completes_next _

/-- Every instruction and every event has a next state: most operations are one state, the others end in a trap or go on. -/
theorem exec_completes (i : Instr) (s : State) : Completes (exec i s) := by
  cases i
  case passedOverLimit | heldTrapDelivery | faultReportDequeue | memoryResultArrival | scrubUncorrectable |
      matrixAccessCompletion | cellPhaseEnd | cellWordPassEnd | checksumRerunStart | mexpPassEnd | elementBusyEnd |
      elementPathCompletion | macqParkedGrant | macqArrival | macqTryFailArrival | callocGrant | cfreeCompletion |
      barrierCompletion | awtCompletion | claspReleaseCompletion | claspAcqCompletion | claspUnbindCompletion | mwaitWake |
      mwaitTimeout | tlbiSweepCompletion | fenceEngineCompletion | tagWaitCompletion | tlwaitCompletion | lywaitCompletion |
      copyCompletion | drainRowCompletion | drainRowApply | collCompletion | homeVerdict | dropPostApply |
      signetVerdictArrival | taskPlacement | placementWaitLimit | taskLaunch | taskEnd | regionLink | regionEndCompletion |
      intakeTaskEntry | intakeRgendEntry | intakeRgnewEntry | intakeSkipEntry | trayTimerExpiry | swapFetchStart |
      evictionCompletion | swapFetchCompletion | swapFetchFailure | swapFetchTimeout | preemptionRequest | contextSave |
      taskRestore | watchdogParkExpiry | watchdogHandlerExpiry | arbiterInterval | dieGrant | grantTimeout |
      railChangeCompletion | governorRailWrite | thermalLimit | thermalShutdown | flitDataReceive | flitNackReceive |
      flitIdleReceive | linkAckTimeout | linkRetrainCompletion | transactionReceive | transactionResponse |
      transactionResendTimeout | transactionFailure | bar2Write | bar2Read | bar2Fetchadd | bar2Swap | bar2Cas | rstctlReset |
      semRequest | semRelease | msixUnmask | controlRegisterWrite | portFlr | portLinkDown | hostCompletionTimeout |
      cxlResponseTimeout | cxlPoisonResponse | attctlRequest | attestationCompletion | powerOnReset | illegalEncoding |
      cxlPortDown | nop | scp | lit | br | bnone | bany | ball | bnall | bdiv | exit | join | earlygo | yield | iadd | isub |
      imin | imax | iminZ | imaxZ | idiff | iabs | andw | orw | xorw | andn | ishl | ishr | isar | irot | imul | imulhS |
      imulhZ | imad | popc | clz | brev | fns | popc64 | clz64 | brev64 | fns64 | iadd64 | isub64 | ishl64 | ishr64 | bfxS |
      bfxZ | bfi | prmt | sel | mov | mov64 | iaddi | andi | ori | xori | ishli | ishri | isari | iroti | icmp | icmpi | pand
      | por | pxor | pandn | lea | movk | iaddk | leak | kmov | kadd | ksub | kmul | kand | kor | kxor | kshl | kshr | ksar |
      kmin | kmax | kcmp | kpopc | kclz | kfns | kli | kaddi | kget | pfetch | fenceFull | fenceAcq | fenceRel | mwait |
      mcancel | shflIdx | shflXor | shflUp | shflDown | redu | scan | compress | expand | matchw | ballot | bar | spawn |
      tfirst | ttest | tlwait | tlread =>
    exact completes_next _
  case call | jmpr | ret | atadd32 | atadd64 | ataddF32 | ataddBf16x2 | atmmMinS | atmmMaxS | atmmMinZ | atmmMaxZ | atlogAnd |
      atlogOr | atlogXor | atlogExch | cas32 | cas64 | claspAcq | claspRel | claspTry | arrv | macq | macqTry | mrel | mldRow
      | mldCol | mldSparse | mldBcast | mstRow | mstCol | mstSparse | mmul | mmult | mtmul | madd | msub | mhad | mmax | mtrn
      | mneg | mcvt | mcopy | mreshape | mscale | mfill | mget | mput | mshape | minv | mlu | mchol | mtrsv | mexp | mht |
      mquant | msacc | caccAdd | caccIadd | caccWrite | cld | cldClr | hcopy | hdrop | hderef | hfin =>
    exact orTrap_completes ..
  case fadd | fsub | fmul | ffma | fmin | fmax | fabs | fneg | frcp | frsq | fsqrt | fexp2 | flog2 | fsin | fcos | ftanh |
      frndRn | frndRz | frndRu | frndRd | fclass | fcvt | pkbf | pkh | pkins | upk | faddi | fmuli | dp4S8 | dp4Z8 | dp4E4 |
      dp4E5 | dp8S4 | dp8F4 | dp2Bf | scacc =>
    unfold exec
    exact fpG_completes ..
  case cdrainMem | cdrainAdd | cpy | cpy2d | cpyxGather | cpyxScatter | collAllreduce | collReducescatter | collAllgather |
      collAlltoall =>
    exact State.startOp_completes ..
  case tnew | tnewn | tcancel | depget => exact State.reachRecs_completes fun _ _ => completes_next _
  case ld | st | monitor | awt => exact State.reach_completes fun _ _ => completes_next _
  case csrw | csrs | csrc => unfold exec; exact csrWrite_completes ..
  case lydone | lyhintPf | lyhintRetry => exact State.reachLayers_completes fun _ _ => completes_next _
  case kld | kst => exact State.reachK_completes fun _ _ => completes_next _
  case depdec | depadd => exact depWord_completes ..
  case rgend | rgpri => exact State.reachRcb_completes fun _ _ _ => completes_next _
  case bkpt | trap => exact trapWord_completes ..
  case wtany | wtall => exact tagWait_completes ..
  case tlbi | railsel => exact State.needSystem_completes (completes_next _)
  case claspBind | claspUnbind => exact State.needSystem_completes (orTrap_completes ..)
  case fcmp => unfold exec execFcmp; exact fpWord_completes ..
  case csrr => exact State.csrCheck_completes (completes_next _)
  case rgnew => exact State.reachRcb_completes fun _ _ _ => completes_ite (completes_next _) (completes_next _)
  case hnew => exact State.reach_completes fun _ _ => completes_ite (completes_next _) (completes_next _)
  case halt => exact State.needSystem_completes (completes_ite (completes_next _) (completes_next _))
  case eret => exact State.needSystem_completes (completes_ite (orTrap_completes ..) (completes_next _))
  case tret => exact completes_ite (orTrap_completes ..) (completes_next _)
  case calloc => exact execCalloc_completes ..
  case cfree => exact execCfree_completes ..
  case hst => exact execHst_completes ..
  case hld => exact execHld_completes ..
  case lywait => exact execLywait_completes ..

/-! #### Steps -/

/-- From rest, with no event to come first, a step issues a group or ends the cycle. -/
theorem step_of_quiet {s : State} (h : Claims.quiet s) : step s = issueStep s.now := by
  obtain ⟨hi, ho, ⟨hn, hs, he⟩ | ⟨e, rest, hn, hg⟩⟩ := h
  · simp only [step, hi, ho, hn, freeStep, hs, he, Bool.false_eq_true, if_false]
  · simp only [step, hi, ho, hn, hg, Bool.false_eq_true, if_false, if_true]

theorem runWord_of_next {s t : State} {i : Instr} (hd : decodeWord s.word = .ok i) (he : exec i s = .next t) :
    runWord s = .next (afterWord s.word t) := by
  simp only [runWord, hd, he]

/-- The group that a quadrant issues runs its first word. -/
theorem issueStep_of_open {d : Dev} {c : Fin 256} {q : Fin 4} {cs : List Cand} {x : Cand} {o : State}
    (hc : d.chooseIn d.quadsLeft = some (c, q, cs, x))
    (hh : ((d.applyDecs c.val !x.decrements).choose c q cs x).focus.holdsTrap x.frag = false)
    (ho : o = checkGroup (openGroup ((d.applyDecs c.val !x.decrements).choose c q cs x) x.slot x.frag x.words))
    (ha : o.iss.active = true) : issueStep d = runWord o := by
  subst ho
  simp only [issueStep, hc, hh, ha, Bool.false_eq_true, if_false, if_true]

/-- The group that a chosen fragment opens afresh stands at the fragment's position, and its word is the one that its packet holds
there. -/
theorem opened_word {d e : Dev} {qs : List (Fin 256 × Fin 4)} {c : Fin 256} {q : Fin 4} {cs : List Cand} {x : Cand} {o : State}
    (hc : d.chooseIn qs = some (c, q, cs, x)) (hb : x.frag.begun = none) (has : x.frag.aside = none)
    (ho : o = checkGroup (openGroup e x.slot x.frag x.words)) (ha : o.iss.active = true) :
    o.iss.slot = x.slot ∧ o.iss.pos = x.frag.pos ∧ ∃ ps, d.fetch x.st x.frag.pc = .ok ps ∧
      o.word = (wordsOf ((d.packet x.frag ps).getD [])).getD x.frag.pos.val 0 := by
  have hp : o = openGroup e x.slot x.frag x.words := by
    rcases checkGroup_cases (openGroup e x.slot x.frag x.words) with h | h
    · exact ho.trans h
    · rw [← ho, ha] at h; exact nomatch h
  rw [hp] at ha
  obtain ⟨ws, hws, hslot, hwords, hpos, hgpos⟩ := openGroup_active hb ha
  obtain ⟨ps, rest, hf, rfl⟩ := Dev.groupOf_eq_cons hb has
    ((Dev.words_of_mem_cands (Dev.chosen_mem_cands hc)).symm.trans hws)
  rw [hp]
  exact ⟨hslot, hpos, ps, hf, by simp [State.word, hwords, hgpos]⟩

end Sys2Proof.Machine

namespace Sys2Proof.Proofs
open Sys2Proof.Machine

/-- Settles O57: an open group runs its decoded word; from rest the step issues, and the chosen candidate's words are those of
its packet. -/
theorem stepRunsDecodedWord : Obligations.StepRunsDecodedWord := by
  refine ⟨fun s i t ha hd he => ?_, fun s e ha hd => ?_, fun s c q cs x o i t hq hc hh hb has ho ha hd he => ?_,
    fun s e rest ha hn hoff hg => ?_⟩
  · rw [step, ha, if_pos rfl, runWord_of_next hd he]
  · rw [step, ha, if_pos rfl, runWord, hd]
  · obtain ⟨hslot, hpos, ps, hf, hw⟩ := opened_word hc hb has ho ha
    refine ⟨by rw [step_of_quiet hq, issueStep_of_open hc hh ho ha, runWord_of_next hd he], hslot, hpos, fun ps' hf' hl => ?_⟩
    obtain rfl : ps = ps' := Except.ok.inj (hf.symm.trans hf')
    rw [hw, Dev.packet_of_local hl, Option.getD_some]
  · obtain ⟨t, ht⟩ := exec_completes e { s with now := { s.now with agenda := rest } }
    refine ⟨t, ht, ?_⟩
    simp only [step, ha, hoff, hn, hg, ht, settleState, Bool.false_eq_true, if_false]

end Sys2Proof.Proofs
end

section
namespace Sys2Proof.Proofs

/-- Settles O55: each word is the encoding of its well-formed instruction, so that it decodes to it. -/
theorem decodeSanity : Obligations.DecodeSanity := by
  and_intros
  all_goals exact decodeEncode.1 _ _ (by decide) (by decide)

end Sys2Proof.Proofs
end

section
/-! ### EARLYGO, and the words that change nothing of the machine [02 R31, R32, R39; 06 R104, R118] -/

namespace Sys2Proof.Machine

/-- A change of some list entries is not seen by what maps it away. -/
theorem map_updWhere {α β : Type} {p : α → Bool} {f : α → α} {g : α → β} (h : ∀ x, g (f x) = g x) (l : List α) :
    (updWhere p f l).map g = l.map g := by
  rw [updWhere, List.map_map]
  refine List.map_congr_left fun x _ => ?_
  simp only [Function.comp_apply]
  split
  · exact h x
  · rfl

/-- The device with its jobs marked as EARLYGO marks them: those with the task's number. -/
def Dev.markJob (d : Dev) (task : Nat) : Dev := d.onJob task fun j => { j with marked := true }

theorem Dev.markJob_jobs (d : Dev) (task : Nat) :
    (d.markJob task).jobs.map (fun j => { j with marked := false }) = d.jobs.map fun j => { j with marked := false } := by
  rw [Dev.markJob, Dev.onJob_jobs]
  refine map_updWhere (fun _ => ?_) d.jobs
  rfl

/-- The executing lanes marked. -/
def State.markLanes (s : State) (h : Hdr) : State := s.writeLanes (s.exec h) fun _ x => { x with early := true }

@[simp] theorem State.markLanes_iss (s : State) (h : Hdr) : (s.markLanes h).iss = s.iss := State.writeLanes_iss ..
@[simp] theorem State.markLanes_start (s : State) (h : Hdr) : (s.markLanes h).start = s.start := State.writeLanes_start ..

@[simp] theorem State.markLanes_jobs (s : State) (h : Hdr) : (s.markLanes h).now.jobs = s.now.jobs := by
  rw [State.markLanes, State.writeLanes_now, Dev.onFocus_jobs]

/-- Of the device, only the lanes in focus change. -/
theorem State.markLanes_now (s : State) (h : Hdr) : (s.markLanes h).now =
    { s.now with focus := { s.now.focus with lanes := (s.markLanes h).now.focus.lanes }, jobs := (s.markLanes h).now.jobs } := by
  simp only [State.markLanes, State.writeLanes_now, Dev.onFocus, Strand.onLanes]

theorem State.markLanes_lane (s : State) (h : Hdr) (l : LaneId) :
    (s.markLanes h).lane l = { s.lane l with early := (s.lane l).early || hasLane (s.exec h) l } := by
  rw [State.markLanes, State.lane_writeLanes]
  cases hl : hasLane (s.exec h) l <;> simp

theorem exec_earlygo (h : Hdr) (s : State) : exec (.earlygo h) s =
    .next (if (s.markLanes h).acts h then (s.markLanes h).onDev fun d => d.markJob (s.markLanes h).old.task else s.markLanes h) := by
  unfold exec
  rfl

/-- EARLYGO marks the executing lanes, and the task of a strand that has one [06 R104]. -/
theorem exec_earlygo_cases (h : Hdr) (s : State) : exec (.earlygo h) s = .next (s.markLanes h) ∨
    exec (.earlygo h) s = .next ((s.markLanes h).onDev fun d => d.markJob (s.markLanes h).old.task) := by
  rw [exec_earlygo]
  cases (s.markLanes h).acts h
  · exact .inl rfl
  · exact .inr rfl

theorem earlygo_marks : Claims.earlygoMarks := by
  intro h s
  rcases exec_earlygo_cases h s with he | he
  · refine ⟨_, he, s.markLanes_iss h, s.markLanes_start h, s.markLanes_now h, by rw [s.markLanes_jobs], s.markLanes_lane h⟩
  · refine ⟨_, he, ?_, ?_, ?_, ?_, fun l => ?_⟩
    · rw [State.onDev_iss, s.markLanes_iss]
    · rw [State.onDev_start, s.markLanes_start]
    · simp only [State.onDev_now, Dev.markJob, Dev.onJob, State.markLanes, State.writeLanes_now, Dev.onFocus, Strand.onLanes]
    · rw [State.onDev_now, Dev.markJob_jobs, s.markLanes_jobs]
    · rw [State.lane, State.onDev_now, Dev.markJob, Dev.onJob_focus]
      exact s.markLanes_lane h l

/-- LIT's fields fill the upper 24 bits of a word [02 R32]. -/
theorem lit_value (hi : Bool) (g : Fin 8) (body : BitVec 20) :
    (BitVec.ofNat 32 (hi.toNat * 2 ^ 31 + g.val * 2 ^ 28 + body.toNat * 2 ^ 8)).toNat =
      (if hi then 2 ^ 31 else 0) + g.val * 2 ^ 28 + body.toNat * 2 ^ 8 := by
  have := body.isLt
  cases hi <;> simp <;> omega

theorem nop_and_prefixes : Claims.nopAndPrefixes :=
  ⟨fun _ _ => rfl, fun _ _ _ => rfl, fun hi g body _ => ⟨_, rfl, lit_value hi g body⟩⟩

end Sys2Proof.Machine

namespace Sys2Proof.Proofs
open Sys2Proof.Machine

/-- Settles O21: EARLYGO writes lanes and marks jobs alone; NOP, SCP, LIT and PFETCH are single states given outright. -/
theorem nopAndPrefixes : Obligations.NopAndPrefixes := ⟨earlygo_marks, nop_and_prefixes, fun _ _ _ _ => rfl⟩

end Sys2Proof.Proofs
end

section
/-! ### Delivery of a fault to a fragment [21 R322-R327] -/

namespace Sys2Proof.Machine

/-! #### The strand in focus -/

theorem Dev.focus_bring {d : Dev} {sid : Nat} {st : Strand} (h : d.strand? sid = some st) : (d.bring sid).focus = st := by
  have h0 := Dev.strand?_ne_zero h
  unfold Dev.bring
  split
  · next hid =>
    rw [Dev.strand?, Dev.all, List.filter_cons_of_pos (by simp [hid, h0]), List.find?_cons_of_pos (by simp [hid])] at h
    exact Option.some.inj h
  · next hid =>
    have hs : d.strands.find? (fun x => x.id == sid) = some st := by
      rw [Dev.strand?, Dev.all, List.find?_filter, List.find?_cons_of_neg (by simp [hid])] at h
      rw [← h]
      congr 1
      funext x
      by_cases hx : x.id = sid <;> simp [hx, h0]
    rw [hs]

theorem Dev.onlyMemory_bring (d : Dev) (sid : Nat) : d.onlyMemory (d.bring sid) := by
  unfold Dev.bring
  split
  · rfl
  · split <;> rfl

theorem Dev.strand?_focus {d : Dev} {sid : Nat} (hid : d.focus.id = sid) (h0 : sid ≠ 0) : d.strand? sid = some d.focus := by
  rw [Dev.strand?, Dev.all, List.filter_cons_of_pos (by simp [hid, h0]), List.find?_cons_of_pos (by simp [hid])]

theorem Dev.regionOf_of_regions {d e : Dev} (h : e.regions = d.regions) (st : Strand) : e.regionOf st = d.regionOf st := by
  rw [Dev.regionOf, Dev.regionOf, Dev.region?, Dev.region?, h]

/-! #### Grants that go back leave the rest of the strand -/

/-- Of a strand at most its lanes' watches, and what one fragment holds for a request that it will repeat, differ. -/
def Strand.onlyGrants (slot : Fin 4) (a b : Strand) : Prop :=
  b = { a with lanes := b.lanes, frags := b.frags } ∧ (∀ l, b.lane l = { a.lane l with watch := (b.lane l).watch }) ∧
  ∀ f, a.frag slot = some f → ∃ g, b.frag slot = some g ∧ g = { f with grant := g.grant, bank := g.bank }

theorem Strand.onlyWatches.grants {a b : Strand} (slot : Fin 4) (h : a.onlyWatches b) : a.onlyGrants slot b := by
  obtain ⟨hb, hl⟩ := h
  have hf : b.frags = a.frags := (congrArg Strand.frags hb :)
  exact ⟨by rw [hf]; exact hb, hl, fun f hs => ⟨f, by rw [Strand.frag, hf]; exact hs, rfl⟩⟩

theorem Strand.onlyGrants.trans {slot : Fin 4} {a b c : Strand} (h : a.onlyGrants slot b) (k : b.onlyGrants slot c) :
    a.onlyGrants slot c := by
  obtain ⟨hb, hl, hf⟩ := h
  obtain ⟨kb, kl, kf⟩ := k
  refine ⟨by rw [kb, hb], fun l => ?_, fun f hs => ?_⟩
  · have hc := kl l
    rw [hl l] at hc
    exact hc
  · obtain ⟨g, hg, hgf⟩ := hf f hs
    obtain ⟨e, he, heg⟩ := kf g hg
    exact ⟨e, he, by rw [heg, hgf]⟩

theorem Strand.onlyGrants_onFrag (st : Strand) (slot : Fin 4) {F : Frag → Frag}
    (hF : ∀ f, F f = { f with grant := (F f).grant, bank := (F f).bank }) : st.onlyGrants slot (st.onFrag slot F) :=
  ⟨rfl, fun _ => rfl, fun f hs => ⟨F f, by rw [Strand.frag_onFrag, if_pos rfl, hs]; rfl, hF f⟩⟩

theorem Dev.returnGrants_onlyGrants (d : Dev) (slot : Fin 4) : d.focus.onlyGrants slot (d.returnGrants slot).focus := by
  have hgrant : d.focus.onlyGrants slot (d.returnGrant slot).focus := by
    unfold Dev.returnGrant
    split
    · exact (Strand.onlyWatches.refl _).grants slot
    · split
      · exact (Strand.onlyWatches.refl _).grants slot
      · exact (d.focus.onlyGrants_onFrag slot fun _ => rfl).trans ((Dev.strandsKept_returnBlocks _ _ _ _ _).1.grants slot)
  have hruns (e : Dev) : e.focus.onlyGrants slot (e.returnRuns slot).focus := by
    unfold Dev.returnRuns
    split
    · exact (Strand.onlyWatches.refl _).grants slot
    · split
      · exact (Strand.onlyWatches.refl _).grants slot
      · exact (e.focus.onlyGrants_onFrag slot fun _ => rfl).trans
          ((Dev.strandsKept.foldl (fun d b => d.strandsKept_dropBanks _ _ b) _ _).1.grants slot)
  exact hgrant.trans (hruns _)

theorem Strand.onlyGrants.id_eq {slot : Fin 4} {a b : Strand} (h : a.onlyGrants slot b) : b.id = a.id := (congrArg Strand.id h.1 :)
theorem Strand.onlyGrants.kind_eq {slot : Fin 4} {a b : Strand} (h : a.onlyGrants slot b) : b.kind = a.kind := (congrArg Strand.kind h.1 :)
theorem Strand.onlyGrants.task_eq {slot : Fin 4} {a b : Strand} (h : a.onlyGrants slot b) : b.task = a.task := (congrArg Strand.task h.1 :)

/-! #### Where a fault goes -/

/-- A fault as its fragment takes it: one that names no lane of it names the whole fragment [09 R174]. -/
def Trap.named (t : Trap) (f : Frag) : Trap := { t with lanes := if t.lanes &&& f.mask = 0 then f.mask else t.lanes &&& f.mask }

theorem Trap.delivery_lanes (t : Trap) (lanes : W32) : Trap.delivery { t with lanes := lanes } = t.delivery := rfl

section
variable {d : Dev} {slot : Fin 4} {f : Frag} {t : Trap} (hf : d.focus.frag slot = some f) (ht : ¬ t.repPc.isSome = true)
include hf ht

/-- A machine fault at user level ends the task. -/
theorem Dev.handOver_machine (hp : ¬ f.prv = true) (hm : t.delivery = .machine) :
    d.handOver slot t = (d.returnGrants slot).endByFault (t.named f) f.pc := by
  unfold Dev.handOver
  rw [hf]
  dsimp only
  rw [if_neg ht, if_neg hp, (t.delivery_lanes _).trans hm]
  rfl

/-- A fault in a nested system handler ends the task. -/
theorem Dev.handOver_nested (hp : f.prv = true) (hn : f.nest = true) :
    d.handOver slot t = (d.returnGrants slot).endByFault { t.named f with flags := t.flags ||| 2 } f.pc := by
  unfold Dev.handOver
  rw [hf]
  dsimp only
  rw [if_neg ht, if_pos hp, if_pos hn]
  rfl

/-- A system fault ends the task where no system handler is set. -/
theorem Dev.handOver_noSystem (hp : f.prv = true) (hn : ¬ f.nest = true) (h0 : d.sysEntry = 0) :
    d.handOver slot t = (d.returnGrants slot).endByFault (t.named f) f.pc := by
  have he : (d.returnGrants slot).sysEntry = 0 := (d.onlyUpkeep_returnGrants slot).sysEntry.trans h0
  unfold Dev.handOver
  rw [hf]
  dsimp only
  rw [if_neg ht, if_pos hp, if_neg hn, if_pos (.inr he)]
  rfl

/-- A system fault whose lowest lane has nothing pending enters the system handler there [21 R325]. -/
theorem Dev.handOver_system (hp : f.prv = true) (hn : ¬ f.nest = true) (h0 : d.sysEntry ≠ 0)
    (he : ¬ (d.regionOf d.focus).sysEnds = true) (hs : d.focus.settled (oneLane (lowLane (t.named f).lanes)) = true) :
    d.handOver slot t = (d.returnGrants slot).onFocus fun st => st.onFrag slot fun f' =>
      f'.enterSystem (st.lane (lowLane (t.named f).lanes)) (lowLane (t.named f).lanes) (d.returnGrants slot).sysEntry (t.named f)
        (d.returnGrants slot).cycle := by
  have h0' : ¬ (d.returnGrants slot).sysEntry = 0 := fun h => h0 ((d.onlyUpkeep_returnGrants slot).sysEntry.symm.trans h)
  unfold Dev.handOver
  rw [hf]
  dsimp only
  rw [if_neg ht, if_pos hp, if_neg hn, if_neg (not_or.mpr ⟨he, h0'⟩)]
  exact if_pos hs

/-- A user fault whose lanes have nothing pending enters the region's handler [21 R324]. -/
theorem Dev.handOver_user (hp : ¬ f.prv = true) (hm : t.delivery = .user) (hh : ¬ f.handler.isSome = true)
    (h0 : (d.regionOf d.focus).handler ≠ 0) (hs : d.focus.settled (t.named f).lanes = true) :
    d.handOver slot t = ((d.returnGrants slot).onFocus fun st => st.onFrag slot fun f' =>
      f'.enterUser (d.returnGrants slot).next (d.regionOf d.focus).handler (t.named f)).bump := by
  unfold Dev.handOver
  rw [hf]
  dsimp only
  rw [if_neg ht, if_neg hp, (t.delivery_lanes _).trans hm]
  dsimp only
  rw [if_neg hh, if_neg h0]
  exact if_pos hs

end

end Sys2Proof.Machine
end

section
/-! ### Watchdogs, scrub errors and illegal words [02 R28; 21 R335-R337] -/

namespace Sys2Proof.Machine
open Claims

/-! #### A fault as it is raised -/

/-- Only a machine check is counted as it is raised: another fault is handed over at once. -/
theorem Dev.deliver_uncounted {d : Dev} {slot : Fin 4} {t : Trap} (hm : t.delivery ≠ .machine) (hc : t.code ≠ 0x21) :
    d.deliver slot t = d.handOver slot t := by
  unfold Dev.deliver Dev.raise
  dsimp only
  rw [if_neg hm, if_neg fun h : t.code = 0x21 ∧ _ => hc h.1, ite_self]

theorem watchTrap_named (f : Frag) (code : Nat) : (watchTrap f.mask code).named f = watchTrap f.mask code := by
  have h : (if f.mask &&& f.mask = 0 then f.mask else f.mask &&& f.mask) = f.mask := by simp
  exact congrArg (fun m => { watchTrap f.mask code with lanes := m }) h

theorem Wait.code_le {w : Wait} {code : Nat} (h : w.code = some code) : code ≤ 21 := by
  cases w <;> simp [Wait.code] at h <;> omega

theorem watchTrap_detail {mask : W32} {code : Nat} (h : code ≤ 21) : (watchTrap mask code).detail.toNat = 9 * 2 ^ 56 + code := by
  simp only [watchTrap, BitVec.toNat_ofNat]
  omega

/-- A report that a fault of the strand in focus leaves for its running task. -/
theorem endsWith_of_endByFault {s : State} {d : Dev} {j : Job} {t : Trap} {pc : W64} {p : Report → Prop} (hs : s.now = d.endByFault t pc)
    (hk : d.focus.kind = .task) (hj : d.job? d.focus.task = some j) (hr : j.st = .running)
    (hp : ∀ task, p { t.report d.focus pc with task := task }) : endsWith s d.focus.task p := by
  obtain ⟨j', hj', hst⟩ := Dev.endByFault_running t pc hk hj hr
  exact ⟨j', _, hs ▸ hj', hst, hp _⟩

/-! #### A watchdog's fault, where it is delivered -/

section
variable {s : State} {sid : Nat} {st : Strand} {slot : Fin 4} {f : Frag} {code : Nat}

/-- The device whose strand a watchdog strikes, with its machine check counted. -/
def State.struck (s : State) (sid : Nat) : Dev := (s.now.bring sid).countMchk (s.now.bring sid).focus.core

/-- The state that a watchdog leaves. -/
def State.watched (s : State) (sid : Nat) (slot : Fin 4) (f : Frag) (code : Nat) : State :=
  s.onDev fun d => (d.bring sid).deliver slot (watchTrap f.mask code)

theorem State.watched_now : (s.watched sid slot f code).now = (s.struck sid).handOver slot (watchTrap f.mask code) := rfl

theorem State.struck_upkeep : s.now.onlyUpkeep (s.struck sid) := (s.now.onlyMemory_bring sid).upkeep.trans (Dev.onlyUpkeep_countMchk _ _)

theorem State.struck_regions : (s.struck sid).regions = s.now.regions := (s.now.onlyMemory_bring sid).regions

theorem State.struck_focus (hs : s.now.strand? sid = some st) : (s.struck sid).focus = st := Dev.focus_bring hs

/-- The strand's task ends where the fault is one that ends it. -/
theorem watched_endsWith {t : Trap} {p : Report → Prop} (hst : taskStrand s sid st)
    (hh : (s.struck sid).handOver slot (watchTrap f.mask code) = ((s.struck sid).returnGrants slot).endByFault t f.pc)
    (hp : ∀ (u : Strand) (task : Nat), p { t.report u f.pc with task := task }) : endsWith (s.watched sid slot f code) st.task p := by
  obtain ⟨hs, hk, j, hj, hr⟩ := hst
  have hg := (s.struck sid).returnGrants_onlyGrants slot
  have hfocus := State.struck_focus hs
  have htask : ((s.struck sid).returnGrants slot).focus.task = st.task := by rw [hg.task_eq, hfocus]
  have hjob : ((s.struck sid).returnGrants slot).job? ((s.struck sid).returnGrants slot).focus.task = some j := by
    rw [htask, ((s.struck sid).onlyUpkeep_returnGrants slot).job?, State.struck_upkeep.job?, hj]
  rw [← htask]
  exact endsWith_of_endByFault (State.watched_now.trans hh) (by rw [hg.kind_eq, hfocus, hk]) hjob hr fun task => hp _ task

/-- At user level a watchdog ends the task. -/
theorem watched_user (hst : taskStrand s sid st) (hf : st.frag slot = some f) (hp : f.prv = false) (hc : code ≤ 21) :
    endsWith (s.watched sid slot f code) st.task fun rep => rep.code = 0x22 ∧ rep.detail.toNat = 9 * 2 ^ 56 + code ∧ rep.pc = f.pc := by
  refine watched_endsWith hst (Dev.handOver_machine ?_ Bool.false_ne_true (by simp [hp]) rfl) fun u task => ⟨rfl, ?_, rfl⟩
  · rw [State.struck_focus hst.1]; exact hf
  · exact watchTrap_detail (mask := f.mask) hc

/-- At system level it ends the task in a nested handler, and where no system handler is set. -/
theorem watched_ends (hst : taskStrand s sid st) (hf : st.frag slot = some f) (hp : f.prv = true)
    (he : f.nest = true ∨ s.now.sysEntry = 0) (hc : code ≤ 21) :
    endsWith (s.watched sid slot f code) st.task fun rep => rep.code = 0x22 ∧ rep.detail.toNat = 9 * 2 ^ 56 + code := by
  have hf' : (s.struck sid).focus.frag slot = some f := by rw [State.struck_focus hst.1]; exact hf
  by_cases hn : f.nest = true
  · exact watched_endsWith hst (Dev.handOver_nested hf' Bool.false_ne_true hp hn) fun u task => ⟨rfl, watchTrap_detail (mask := f.mask) hc⟩
  · have h0 : (s.struck sid).sysEntry = 0 := State.struck_upkeep.sysEntry.trans (he.resolve_left hn)
    exact watched_endsWith hst (Dev.handOver_noSystem hf' Bool.false_ne_true hp hn h0) fun u task => ⟨rfl, watchTrap_detail (mask := f.mask) hc⟩

/-- At system level it is a system fault otherwise: the fragment enters the system handler. -/
theorem watched_inSystem (hs : s.now.strand? sid = some st) (hf : st.frag slot = some f) (hsys : takesSystem s st f) :
    inSystem s (s.watched sid slot f code) sid slot f 0x22 := by
  obtain ⟨hp, hn, h0, hends, hset⟩ := hsys
  have hfocus := State.struck_focus hs
  have hnow := State.watched_now.trans (Dev.handOver_system (d := s.struck sid) (t := watchTrap f.mask code) (by rw [hfocus]; exact hf)
    Bool.false_ne_true hp (by simp [hn]) (fun h => h0 (State.struck_upkeep.sysEntry.symm.trans h))
    (by rw [Dev.regionOf_of_regions State.struck_regions, hfocus, hends]; exact Bool.false_ne_true)
    (by rw [hfocus, watchTrap_named]; exact hset))
  have hg := (s.struck sid).returnGrants_onlyGrants slot
  obtain ⟨g, hg', hgf⟩ := hg.2.2 f (by rw [hfocus]; exact hf)
  have hentry : ((s.struck sid).returnGrants slot).sysEntry = s.now.sysEntry :=
    ((s.struck sid).onlyUpkeep_returnGrants slot).sysEntry.trans State.struck_upkeep.sysEntry
  rw [watchTrap_named, hentry] at hnow
  have hid : (s.watched sid slot f code).now.focus.id = sid := by
    rw [hnow, Dev.onFocus_focus, Strand.onFrag_id, hg.id_eq, hfocus]
    exact Dev.strand?_id hs
  have hfrag := congrArg (fun d : Dev => d.focus.frag slot) hnow
  simp only [Dev.onFocus_focus, Strand.frag_onFrag, if_true, hg', Option.map_some] at hfrag
  refine ⟨_, _, Dev.strand?_focus hid (Dev.strand?_ne_zero hs), hfrag, ?_⟩
  rw [hgf]
  exact ⟨rfl, hp, rfl, rfl, rfl, rfl, rfl⟩

/-! #### The events -/

theorem Frag.parkedLong_of {w : Wait} {since cycle : Nat} (h : f.st = .parked w since) (hlong : since + 2 ^ 34 ≤ cycle) :
    f.parkedLong cycle = w.code := by
  unfold Frag.parkedLong
  rw [h]
  exact if_pos hlong

theorem Frag.handlerLong_of {r : SysRec} {cycle : Nat} (h : f.sysrec = some r) (hlong : r.since + 2 ^ 30 ≤ cycle) :
    f.handlerLong cycle = true := by
  unfold Frag.handlerLong
  rw [h]
  exact decide_eq_true hlong

theorem exec_watchdogParkExpiry {w : Wait} {since : Nat} (hs : s.now.strand? sid = some st) (hf : st.frag slot = some f)
    (hw : f.st = .parked w since) (hlong : since + 2 ^ 34 ≤ s.now.cycle) (hc : w.code = some code) :
    exec (.watchdogParkExpiry sid slot) s = .next (s.watched sid slot f code) := by
  have hcycle : (s.now.bring sid).cycle = s.now.cycle := (s.now.onlyMemory_bring sid).upkeep.cycle
  refine congrArg Host.Outcome.next (congrArg (fun d => { s with now := d }) ?_)
  dsimp only
  rw [Dev.focus_bring hs, hf]
  dsimp only
  rw [hcycle, Frag.parkedLong_of hw hlong, hc]
  exact if_pos (Dev.strand?_id hs)

theorem exec_watchdogHandlerExpiry {r : SysRec} (hs : s.now.strand? sid = some st) (hf : st.frag slot = some f)
    (hr : f.sysrec = some r) (hlong : r.since + 2 ^ 30 ≤ s.now.cycle) :
    exec (.watchdogHandlerExpiry sid slot) s = .next (s.watched sid slot f 11) := by
  have hcycle : (s.now.bring sid).cycle = s.now.cycle := (s.now.onlyMemory_bring sid).upkeep.cycle
  refine congrArg Host.Outcome.next (congrArg (fun d => { s with now := d }) ?_)
  dsimp only
  rw [Dev.focus_bring hs, hf]
  dsimp only
  rw [hcycle]
  exact if_pos ⟨Dev.strand?_id hs, Frag.handlerLong_of hr hlong⟩

end

/-- A report that the region's queue takes stands last in it [21 R330]. -/
theorem Dev.region?_pushReport {d : Dev} {rid : Nat} {x : Region} (hx : d.region? rid = some x) (hf : x.faulttask ≠ 0)
    (hl : x.reports.length < 16) (r : Report) :
    (d.pushReport rid r).region? rid = some { x with reports := x.reports ++ [r] } := by
  have hid : (x.id == rid) = true := by simpa using List.find?_some hx
  refine (Dev.region?_onRegion d rid (fun y => ?_) rid).trans ?_
  · split
    · rfl
    · split <;> rfl
  · rw [hx, Option.map_some, if_pos hid, if_neg hf, if_pos hl]

/-- An uncorrectable word that scrubbing meets: it is marked, counted, and the root region's report follows [21 R335]. -/
theorem scrubUncorrectable_reports {key : Nat} {s : State} {x : Region} (hx : s.now.region? s.now.rootRcb = some x)
    (hf : x.faulttask ≠ 0) (hl : x.reports.length < 16) :
    ∃ t x', exec (.scrubUncorrectable key) s = .next t ∧ key / 8 ∈ t.now.eccBad ∧ t.now.boot.eccunc = satNext s.now.boot.eccunc ∧
      t.now.region? s.now.rootRcb = some x' ∧ (∃ rep, x'.reports = x.reports ++ [rep] ∧ rep.code = 0x21) ∧ sameMemory s t := by
  refine ⟨_, _, rfl, ?_, rfl, Dev.region?_pushReport hx hf hl (Report.sched 0x21 0 0 0 (eccDetail key)), ⟨_, rfl, rfl⟩, fun _ => rfl⟩
  change key / 8 ∈ if s.now.eccBad.contains (key / 8) then s.now.eccBad else s.now.eccBad ++ [key / 8]
  split
  · next h => simpa using h
  · simp

theorem illegalEncoding_traps (w : W32) (at_ : Fin 3) (s : State) :
    ∃ t, exec (.illegalEncoding w at_) s = .next (s.trap t) ∧ t.code = 0x01 ∧ t.info.toNat = w.toNat + at_.val * 2 ^ 32 := by
  refine ⟨_, rfl, rfl, ?_⟩
  have := w.isLt
  have := at_.isLt
  simp only [Trap.user, wordInfo, BitVec.toNat_ofNat]
  omega

end Sys2Proof.Machine
end

section
/-! ### Held traps [21 R332, R393] -/

namespace Sys2Proof.Machine

theorem mem_lanesOf {m : W32} {l : LaneId} : l ∈ lanesOf m ↔ hasLane m l = true := by
  simp [lanesOf]

theorem nodup_lanesOf (m : W32) : (lanesOf m).Nodup := (List.nodup_finRange 32).filter _

@[simp] theorem hasLane_oneLane (l k : LaneId) : hasLane (oneLane l) k = (l == k) := by
  simp only [hasLane, oneLane, BitVec.getLsbD_twoPow]
  rw [Bool.eq_iff_iff]
  simp [Fin.ext_iff]

theorem oneLane_and {m : W32} {l : LaneId} (h : hasLane m l = true) : oneLane l &&& m = oneLane l := by
  refine mask_ext fun k => ?_
  have hk : hasLane (oneLane l &&& m) k = (hasLane (oneLane l) k && hasLane m k) := BitVec.getLsbD_and ..
  rw [hk, hasLane_oneLane]
  by_cases hl : l = k
  · simp [← hl, h]
  · simp [hl]

theorem oneLane_ne_zero (l : LaneId) : oneLane l ≠ 0 := fun h => by simpa using mask_eq_zero.mp h l

/-- Of a list's entries one alone has a part. -/
theorem flatMap_eq_of_mem {α β : Type} {g : α → List β} {a : α} {xs : List α} (hn : xs.Nodup) (ha : a ∈ xs)
    (h : ∀ x ∈ xs, x ≠ a → g x = []) : xs.flatMap g = g a := by
  induction xs with
  | nil => simp at ha
  | cons x xs ih =>
    obtain ⟨hx, hxs⟩ := List.nodup_cons.mp hn
    rw [List.flatMap_cons]
    rcases List.mem_cons.mp ha with rfl | ha
    · rw [List.flatMap_eq_nil_iff.mpr fun y hy => h y (List.mem_cons_of_mem _ hy) fun e => hx (e ▸ hy), List.append_nil]
    · rw [h x List.mem_cons_self fun e => hx (e ▸ ha), List.nil_append]
      exact ih hxs ha fun y hy => h y (List.mem_cons_of_mem _ hy)

section
variable {st : Strand} {f : Frag} {l : LaneId} {h : HeldTrap} (hl : hasLane f.mask l = true) (hh : (st.lane l).held = [h])
  (ho : ∀ k, k ≠ l → hasLane f.mask k = true → (st.lane k).held = [])
include hl hh

theorem Strand.holdsTrap_of (hn : f.handler = none) (hp : f.prv = false) (hb : f.begun = none) : st.holdsTrap f = true := by
  have : (lanesOf f.mask).any (fun l => !(st.lane l).held.isEmpty) = true := List.any_eq_true.mpr ⟨l, mem_lanesOf.mpr hl, by rw [hh]; rfl⟩
  rw [Strand.holdsTrap, hn, hp, hb, this]
  rfl

include ho

theorem Strand.heldOf_eq : st.heldOf f = [(l, h)] := by
  rw [Strand.heldOf, flatMap_eq_of_mem (nodup_lanesOf _) (mem_lanesOf.mpr hl), hh]
  · rfl
  · intro k hk hkl
    rw [ho k hkl (mem_lanesOf.mp hk)]
    rfl

theorem Strand.heldTrap_eq : st.heldTrap f = some (h, oneLane l) := by
  rw [Strand.heldTrap, Strand.heldOf_eq hl hh ho]
  have hm : maskOf (fun k => [(l, h)].any fun y => y.1 == k && y.2.word == h.word && y.2.code == h.code) = oneLane l :=
    mask_ext fun k => by simp
  simp only [leastBy, Option.map_some, List.find?_cons, beq_self_eq_true, Bool.and_self, Option.getD_some, hm]

end

/-- A lane once a held trap is taken: of its matrix exceptions those of the earliest word are left, and none of the trap's
word and code. -/
def Lane.taken (keep : Nat) (h : HeldTrap) (x : Lane) : Lane :=
  { x.dropMatrix keep with held := (x.dropMatrix keep).held.filter fun y => !(y.word == h.word && y.code == h.code) }

theorem Lane.held_taken {x : Lane} {h : HeldTrap} (hx : x.held = [h]) (keep : Nat) : (x.taken keep h).held = [] := by
  simp only [Lane.taken, Lane.dropMatrix, hx, List.filter_cons]
  simp

/-- The earliest word of the matrix exceptions that wait at a fragment's boundary. -/
def Strand.keptWord (st : Strand) (f : Frag) : Nat :=
  (((st.heldOf f).filter fun x => x.2.matrix).map fun x => x.2.word).foldl min (2 ^ 64)

/-- The device whose strand takes a held trap, with the strand's records of it cleared. -/
def Dev.takeHeld (d : Dev) (st : Strand) (f : Frag) (h : HeldTrap) : Dev :=
  d.onFocus fun u => u.onLanes f.mask fun _ x => x.taken (st.keptWord f) h

theorem exec_heldTrapDelivery {s : State} {sid : Nat} {slot : Fin 4} {st : Strand} {f : Frag} {h : HeldTrap} {lanes : W32}
    (hs : s.now.strand? sid = some st) (hf : st.frag slot = some f) (hr : f.st = .ready) (hb : st.holdsTrap f = true)
    (ht : st.heldTrap f = some (h, lanes)) : exec (.heldTrapDelivery sid slot) s =
      .next (s.onDev fun d => ((d.bring sid).takeHeld st f h).deliver slot (h.trap lanes)) := by
  refine congrArg Host.Outcome.next (congrArg (fun d => { s with now := d }) ?_)
  dsimp only
  rw [Dev.focus_bring hs, hf]
  dsimp only
  rw [if_neg (by simp [Dev.strand?_id hs, hr, hb]), ht]
  rfl

/-- Which way a fault goes is a matter of its code. -/
theorem Trap.delivery_of_code {t u : Trap} (h : t.code = u.code) : t.delivery = u.delivery := by
  rw [Trap.delivery, Trap.delivery, h]

theorem HeldTrap.trap_named {h : HeldTrap} {f : Frag} {l : LaneId} (hl : hasLane f.mask l = true) :
    (h.trap (oneLane l)).named f = h.trap (oneLane l) := by
  have hm : (if oneLane l &&& f.mask = 0 then f.mask else oneLane l &&& f.mask) = oneLane l := by
    rw [oneLane_and hl, if_neg (oneLane_ne_zero l)]
  exact congrArg (fun m => { h.trap (oneLane l) with lanes := m }) hm

/-- A user fault of settled lanes: the strand in focus has entered its region's handler there, with its registers and held traps
as they were [21 R324]. -/
theorem Dev.deliver_user {d : Dev} {slot : Fin 4} {f : Frag} {t : Trap} (hid : d.focus.id ≠ 0) (hf : d.focus.frag slot = some f)
    (hp : f.prv = false) (hn : f.handler = none) (ht : t.named f = t) (hrep : t.repPc = none) (hc : t.code ≠ 0x21)
    (hd : t.delivery = .user) (hr : (d.regionOf d.focus).handler ≠ 0) (hset : d.focus.settled t.lanes = true) :
    ∃ u g, (d.deliver slot t).strand? d.focus.id = some u ∧ u.frag slot = some g ∧ g.handler.isSome = true ∧ g.traplanes = t.lanes ∧
      g.trapcause = BitVec.ofNat 32 t.code ∧ g.trapinfo = t.info ∧ g.trappc = f.pc ∧ g.mask = t.lanes ∧
      g.pc = (d.regionOf d.focus).handler ∧ g.pos = 0 ∧ ∀ k, (u.lane k).g = (d.focus.lane k).g ∧ (u.lane k).held = (d.focus.lane k).held := by
  have hm : t.delivery ≠ .machine := by rw [hd]; exact Delivery.noConfusion
  have hnow := (Dev.deliver_uncounted (d := d) (slot := slot) hm hc).trans
    (Dev.handOver_user hf (by simp [hrep]) (by simp [hp]) hd (by simp [hn]) hr (by rw [ht]; exact hset))
  rw [ht] at hnow
  obtain ⟨hstrand, hlanes, hfrags⟩ := d.returnGrants_onlyGrants slot
  obtain ⟨g, hg, hgf⟩ := hfrags f hf
  have hid' : (d.deliver slot t).focus.id = d.focus.id := by
    rw [hnow, Dev.bump_focus, Dev.onFocus_focus, Strand.onFrag_id, hstrand]
  have hfrag := congrArg (fun d : Dev => d.focus.frag slot) hnow
  simp only [Dev.bump_focus, Dev.onFocus_focus, Strand.frag_onFrag, if_true, hg, Option.map_some] at hfrag
  have hlane (k : LaneId) : (d.deliver slot t).focus.lane k = (d.returnGrants slot).focus.lane k := by
    rw [hnow, Dev.bump_focus, Dev.onFocus_focus]
    rfl
  refine ⟨_, _, Dev.strand?_focus hid' hid, hfrag, ?_⟩
  rw [hgf]
  refine ⟨rfl, rfl, rfl, rfl, rfl, rfl, rfl, rfl, fun k => ?_⟩
  rw [hlane, hlanes k]
  exact ⟨rfl, rfl⟩

/-- The user handler that a held trap enters at its fragment's boundary. -/
theorem heldTrap_enters {s : State} {sid : Nat} {slot : Fin 4} {st : Strand} {f : Frag} {l : LaneId} {h : HeldTrap}
    (hs : s.now.strand? sid = some st) (hf : st.frag slot = some f) (hn : f.handler = none) (hp : f.prv = false)
    (hl : hasLane f.mask l = true) (hh : (st.lane l).held = [h]) (hc : h.code ≠ 0x21) (hd : (Trap.user h.code 0 0).delivery = .user)
    (hr : (s.now.regionOf st).handler ≠ 0) (hset : st.settled (oneLane l) = true) :
    ∃ u g, (((s.now.bring sid).takeHeld st f h).deliver slot (h.trap (oneLane l))).strand? sid = some u ∧ (u.lane l).held = [] ∧
      u.frag slot = some g ∧ g.handler.isSome = true ∧ g.traplanes = oneLane l ∧ g.trapcause = BitVec.ofNat 32 h.code ∧
      g.trapinfo = h.info ∧ g.trappc = f.pc ∧ g.mask = oneLane l ∧ g.pc = (s.now.regionOf st).handler ∧ g.pos = 0 ∧
      ∀ k, (u.lane k).g = (st.lane k).g := by
  have hfocus : ((s.now.bring sid).takeHeld st f h).focus = st.onLanes f.mask fun _ x => x.taken (st.keptWord f) h := by
    rw [Dev.takeHeld, Dev.onFocus_focus, Dev.focus_bring hs]
  have hid : ((s.now.bring sid).takeHeld st f h).focus.id = sid := by rw [hfocus, Strand.onLanes_id, Dev.strand?_id hs]
  have hregion : ((s.now.bring sid).takeHeld st f h).regionOf ((s.now.bring sid).takeHeld st f h).focus = s.now.regionOf st := by
    rw [hfocus, Dev.regionOf, Strand.onLanes_region, Dev.regionOf, Dev.region?, Dev.region?, Dev.takeHeld, Dev.onFocus_regions,
      (s.now.onlyMemory_bring sid).regions]
  have hdel : (h.trap (oneLane l)).delivery = .user := (Trap.delivery_of_code rfl).trans hd
  have hfrag : ((s.now.bring sid).takeHeld st f h).focus.frag slot = some f := by
    rw [hfocus, Strand.frag, Strand.onLanes_frags]
    exact hf
  have hsettled : ((s.now.bring sid).takeHeld st f h).focus.settled (oneLane l) = true := by
    rw [hfocus, Strand.settled, Strand.onLanes_flights]
    exact hset
  obtain ⟨u, g, hu, hg, hhandler, htl, htc, hti, htp, hm, hpc, hpos, hlanes⟩ :=
    Dev.deliver_user (d := (s.now.bring sid).takeHeld st f h) (t := h.trap (oneLane l)) (by rw [hid]; exact Dev.strand?_ne_zero hs)
      hfrag hp hn (HeldTrap.trap_named hl) rfl hc hdel (by rw [hregion]; exact hr) hsettled
  rw [hid] at hu
  rw [hregion] at hpc
  rw [hfocus] at hlanes
  refine ⟨u, g, hu, ?_, hg, hhandler, htl, htc, hti, htp, hm, hpc, hpos, fun k => ?_⟩
  · rw [(hlanes l).2, Strand.lane_onLanes, if_pos hl]
    exact Lane.held_taken hh _
  · rw [(hlanes k).1, Strand.lane_onLanes]
    split <;> rfl

end Sys2Proof.Machine

namespace Sys2Proof.Proofs
open Sys2Proof.Machine

/-- Settles O46: each event is a delivery to the fragment in focus, which hands its fault to a handler or ends the task. -/
theorem faultEvents : Obligations.FaultEvents := by
  refine ⟨fun sid slot s st f l h hs hf hr hn hp hb hl hh h20 h22 hd ho hreg hset => ?_,
    fun sid slot s st f w since code hst hf hw hlong hc => ⟨fun hp => ?_, fun hsys => ?_⟩,
    fun sid slot s st f r hst hf hr hlong hready hp => ⟨fun he => ?_, fun hsys => ?_⟩,
    fun key s x hx hf hl => scrubUncorrectable_reports hx hf hl, illegalEncoding_traps⟩
  · have hc : h.code ≠ 0x21 := fun h21 => by rw [h21] at hd; exact absurd hd (by decide)
    obtain ⟨u, g, hu⟩ := heldTrap_enters hs hf hn hp hl hh hc hd hreg hset
    exact ⟨_, u, g, exec_heldTrapDelivery hs hf hr (Strand.holdsTrap_of hl hh hn hp hb) (Strand.heldTrap_eq hl hh ho), hu⟩
  · exact ⟨_, exec_watchdogParkExpiry hst.1 hf hw hlong hc, watched_user hst hf hp (Wait.code_le hc)⟩
  · exact ⟨_, exec_watchdogParkExpiry hst.1 hf hw hlong hc, watched_inSystem hst.1 hf hsys⟩
  · exact ⟨_, exec_watchdogHandlerExpiry hst.1 hf hr hlong, watched_ends hst hf hp he (by decide)⟩
  · exact ⟨_, exec_watchdogHandlerExpiry hst.1 hf hr hlong, watched_inSystem hst.1 hf hsys⟩

end Sys2Proof.Proofs
end

section
/-! ### Rounding to a grid [03 R46]

A grid is a strictly increasing sequence of numbers: the naturals, or the magnitudes of a format's patterns with the
exponent unbounded. `Picks` says which index a mode chooses for a magnitude, and `roundAt` picks from the naturals. The
numbers are of any ordered field: the rationals, and for square roots the reals. -/

namespace Rounding
open Sys2Proof (Rnd)
open Sys2Proof.Machine

/-- A mode rounds magnitudes of a sign away from zero. -/
def roundsAway (r : Rnd) (neg : Bool) : Bool :=
  match r with
  | .rn => false
  | .rz => false
  | .ru => !neg
  | .rd => neg

variable {K : Type} [Field K] [LinearOrder K]

/-- The grid number at `p` is nearest to `x`, and on a tie `p` is even. -/
def Nearest (g : ℕ → K) (x : K) (p : ℕ) : Prop :=
  (∀ k < p, g k + g p ≤ 2 * x ∧ (g k + g p = 2 * x → p % 2 = 0)) ∧
  ∀ k, p < k → 2 * x ≤ g p + g k ∧ (g p + g k = 2 * x → p % 2 = 0)

/-- The grid number at `p` is the largest that does not exceed `x`. -/
def Below (g : ℕ → K) (x : K) (p : ℕ) : Prop := g p ≤ x ∧ ∀ k, p < k → x < g k

/-- The grid number at `p` is the smallest that `x` does not exceed. -/
def Above (g : ℕ → K) (x : K) (p : ℕ) : Prop := x ≤ g p ∧ ∀ k < p, g k < x

/-- What a mode picks from a grid for the magnitude `x` of a number with a sign [03 R46]. -/
def Picks (r : Rnd) (neg : Bool) (g : ℕ → K) (x : K) (p : ℕ) : Prop :=
  if r = .rn then Nearest g x p else if roundsAway r neg then Above g x p else Below g x p

variable {g : ℕ → K} {x : K} {p j : ℕ} {r : Rnd} {neg : Bool}

theorem picks_rn : Picks .rn neg g x p ↔ Nearest g x p := by simp [Picks]

theorem picks_above (hr : roundsAway r neg = true) : Picks r neg g x p ↔ Above g x p := by
  have : r ≠ .rn := by rintro rfl; simp [roundsAway] at hr
  simp [Picks, hr, this]

theorem picks_below (hn : r ≠ .rn) (hr : roundsAway r neg = false) : Picks r neg g x p ↔ Below g x p := by
  simp [Picks, hr, hn]

/-- A mode picks from a grid as it picks from any other for which the three ways of rounding do. -/
theorem Picks.imp {g' : ℕ → K} {x' : K} {p' : ℕ} (h : Picks r neg g x p) (hn : Nearest g x p → Nearest g' x' p')
    (ha : Above g x p → Above g' x' p') (hb : Below g x p → Below g' x' p') : Picks r neg g' x' p' := by
  unfold Picks at h ⊢
  split_ifs at h ⊢
  · exact hn h
  · exact ha h
  · exact hb h

variable [IsStrictOrderedRing K]

/-- A number of the grid rounds to itself. -/
theorem Picks.of_eq (hg : StrictMono g) (h : g p = x) : Picks r neg g x p := by
  subst h
  unfold Picks
  split_ifs
  · refine ⟨fun k hk => ?_, fun k hk => ?_⟩ <;> have := hg hk
    · exact ⟨by linarith, fun he => absurd he (by linarith)⟩
    · exact ⟨by linarith, fun he => absurd he (by linarith)⟩
  · exact ⟨le_rfl, fun k hk => hg hk⟩
  · exact ⟨le_rfl, fun k hk => hg hk⟩

/-- Rounding does not pass a number of the grid from above. -/
theorem Picks.le_index (hg : StrictMono g) (h : Picks r neg g x p) (hj : g j ≤ x) : j ≤ p := by
  by_contra hlt
  have hpj := hg (not_le.1 hlt)
  unfold Picks at h
  split_ifs at h
  · have := (h.2 j (not_le.1 hlt)).1
    linarith
  · exact absurd h.1 (by linarith)
  · exact absurd (h.2 j (not_le.1 hlt)) (by linarith)

/-- Rounding does not pass a number of the grid from below. -/
theorem Picks.index_le (hg : StrictMono g) (h : Picks r neg g x p) (hj : x ≤ g j) : p ≤ j := by
  by_contra hlt
  have hpj := hg (not_le.1 hlt)
  unfold Picks at h
  split_ifs at h
  · have := (h.1 j (not_le.1 hlt)).1
    linarith
  · exact absurd (h.2 j (not_le.1 hlt)) (by linarith)
  · exact absurd h.1 (by linarith)

theorem Picks.index_eq (hg : StrictMono g) (h : Picks r neg g x p) (hj : g j = x) : p = j :=
  le_antisymm (h.index_le hg hj.ge) (h.le_index hg hj.le)

omit [Field K] [IsStrictOrderedRing K] in
/-- When a mode picks an index past `j`. -/
theorem Below.lt_index_iff (hg : StrictMono g) (h : Below g x p) : j < p ↔ g (j + 1) ≤ x :=
  ⟨fun hj => (hg.monotone hj).trans h.1, fun hj => not_le.1 fun hp => absurd hj (not_le.2 (h.2 _ (Nat.lt_succ_of_le hp)))⟩

omit [Field K] [IsStrictOrderedRing K] in
theorem Above.lt_index_iff (hg : StrictMono g) (h : Above g x p) : j < p ↔ g j < x :=
  ⟨fun hj => h.2 j hj, fun hj => not_le.1 fun hp => absurd (hj.trans_le h.1) (not_lt.2 (hg.monotone hp))⟩

theorem Nearest.lt_index_iff (hg : StrictMono g) (h : Nearest g x p) :
    j < p ↔ g j + g (j + 1) < 2 * x ∨ (g j + g (j + 1) = 2 * x ∧ j % 2 = 1) := by
  constructor
  · intro hj
    have hle := hg.monotone hj
    obtain ⟨h1, h2⟩ := h.1 j hj
    rcases h1.lt_or_eq with hlt | heq
    · exact Or.inl (by simp only [Nat.succ_eq_add_one] at hle; linarith)
    · rcases hle.lt_or_eq with hlt | hp
      · exact Or.inl (by simp only [Nat.succ_eq_add_one] at hlt; linarith)
      · have := hg.injective hp
        exact Or.inr ⟨by rw [← heq, ← hp], by have := h2 heq; omega⟩
  · intro hj
    by_contra hp
    have hp := not_lt.1 hp
    have hle := hg.monotone hp
    obtain ⟨h1, h2⟩ := h.2 (j + 1) (by omega)
    rcases hj with hlt | ⟨heq, hodd⟩
    · linarith
    · have : g p = g j := by linarith
      have hpj := hg.injective this
      have := h2 (by rw [this, heq])
      omega

/-! #### The naturals as a grid -/

theorem strictMono_natCast : StrictMono (fun n : ℕ => (n : K)) := fun _ _ h => Nat.cast_lt.2 h

/-- Nearest among the naturals: within a half, and even at a half. -/
theorem nearest_nat (h1 : 2 * (p : K) ≤ 2 * x + 1) (h2 : 2 * x ≤ 2 * p + 1) (he : 2 * (p : K) = 2 * x + 1 ∨ 2 * x = 2 * p + 1 → p % 2 = 0) :
    Nearest (fun n : ℕ => (n : K)) x p := by
  refine ⟨fun k hk => ?_, fun k hk => ?_⟩
  · have hk' : (k : K) + 1 ≤ p := by exact_mod_cast hk
    exact ⟨by linarith, fun ht => he (Or.inl (by linarith))⟩
  · have hk' : (p : K) + 1 ≤ k := by exact_mod_cast hk
    exact ⟨by linarith, fun ht => he (Or.inr (by linarith))⟩

/-- The nearest natural lies within a half. -/
theorem Nearest.within_half (h : Nearest (fun n : ℕ => (n : K)) x p) (hx : 0 ≤ x) : 2 * |(p : K) - x| ≤ 1 := by
  obtain ⟨hlo, hhi⟩ := h
  have h2 : 2 * x ≤ 2 * p + 1 := by
    have := (hhi (p + 1) (by omega)).1
    push_cast at this
    linarith
  have h1 : 2 * (p : K) ≤ 2 * x + 1 := by
    cases p with
    | zero => simp; linarith
    | succ n =>
      have := (hlo n (by omega)).1
      push_cast at this ⊢
      linarith
  rw [← le_div_iff₀' two_pos, abs_le]
  constructor <;> linarith

/-- A quotient `n + rem / D` rounded as `roundsUp` says. -/
theorem roundsUp_picks (r : Rnd) (neg : Bool) {n rem D : ℕ} (hr : rem < D) :
    Picks r neg (fun n : ℕ => (n : K)) (n + rem / D) (if roundsUp r neg n rem D then n + 1 else n) := by
  have hD : (0 : K) < D := by exact_mod_cast (by omega : 0 < D)
  have hr0 : (0 : K) ≤ rem / D := by positivity
  have hr1 : (rem : K) / D < 1 := (div_lt_one hD).2 (by exact_mod_cast hr)
  have hlt : D < 2 * rem ↔ 1 < 2 * ((rem : K) / D) := by
    rw [mul_div_assoc', lt_div_iff₀ hD, one_mul]; exact_mod_cast Iff.rfl
  have heq : 2 * rem = D ↔ 2 * ((rem : K) / D) = 1 := by
    rw [mul_div_assoc', div_eq_iff hD.ne', one_mul]; exact_mod_cast Iff.rfl
  have hz : rem = 0 ↔ (rem : K) / D = 0 := by simp [hD.ne']
  have hbelow : Below (fun n : ℕ => (n : K)) (n + rem / D) n := by
    refine ⟨by linarith, fun k hk => ?_⟩
    have : (n : K) + 1 ≤ k := by exact_mod_cast hk
    linarith
  have habove : Above (fun n : ℕ => (n : K)) (n + rem / D) (if rem ≠ 0 then n + 1 else n) := by
    split_ifs with h0
    · have hpos : (0 : K) < rem / D := lt_of_le_of_ne hr0 fun h => h0 (hz.2 h.symm)
      refine ⟨by push_cast; linarith, fun k hk => ?_⟩
      have : (k : K) ≤ n := by exact_mod_cast Nat.lt_succ_iff.1 hk
      linarith
    · rw [not_not, hz] at h0
      refine ⟨by rw [h0, add_zero], fun k hk => ?_⟩
      have : (k : K) < n := by exact_mod_cast hk
      linarith
  cases r with
  | rn =>
    rw [picks_rn]
    by_cases h : D < 2 * rem ∨ (2 * rem = D ∧ n % 2 = 1)
    · rw [if_pos (by simpa [roundsUp] using h)]
      have hle : 1 ≤ 2 * ((rem : K) / D) := by
        rcases h with h | h
        · exact (hlt.1 h).le
        · exact (heq.1 h.1).ge
      refine nearest_nat (by push_cast; linarith) (by push_cast; linarith) fun ht => ?_
      rcases h with h | h
      · have := hlt.1 h
        push_cast at ht
        rcases ht with ht | ht <;> linarith
      · omega
    · rw [if_neg (by simpa [roundsUp] using h)]
      push Not at h
      have hle : 2 * ((rem : K) / D) ≤ 1 := not_lt.1 fun hc => absurd (hlt.2 hc) (not_lt.2 h.1)
      refine nearest_nat (by linarith) (by linarith) fun ht => ?_
      have : 2 * ((rem : K) / D) = 1 := by rcases ht with ht | ht <;> linarith
      have := h.2 (heq.2 this)
      omega
  | rz => exact (picks_below (by simp) rfl).2 hbelow
  | ru =>
    cases neg with
    | true => exact (picks_below (by simp) rfl).2 hbelow
    | false => simpa [roundsUp] using (picks_above (r := .ru) (neg := false) rfl).2 habove
  | rd =>
    cases neg with
    | true => simpa [roundsUp] using (picks_above (r := .rd) (neg := true) rfl).2 habove
    | false => exact (picks_below (by simp) rfl).2 hbelow

/-- `roundAt` picks from the naturals, and says whether the number was one [03 R46]. -/
theorem roundAt_picks (K : Type) [Field K] [LinearOrder K] [IsStrictOrderedRing K] (r : Rnd) (neg : Bool) (m : ℕ) (e q : ℤ) :
    Picks r neg (fun n : ℕ => (n : K)) ((m : K) * 2 ^ (e - q)) (roundAt r neg m e q).1 ∧
      ((roundAt r neg m e q).2 = true ↔ ((roundAt r neg m e q).1 : K) = (m : K) * 2 ^ (e - q)) := by
  unfold roundAt
  split_ifs with hq
  · have h : (((m * 2 ^ (e - q).toNat : ℕ)) : K) = (m : K) * 2 ^ (e - q) := by
      push_cast
      rw [← zpow_natCast, Int.toNat_of_nonneg (by omega)]
    exact ⟨Picks.of_eq strictMono_natCast h, by simp only [h]⟩
  · obtain ⟨d, hd⟩ : ∃ d : ℕ, q - e = d := ⟨(q - e).toNat, by omega⟩
    have hx : (m : K) * 2 ^ (e - q) = (m : K) / ((2 ^ d : ℕ) : K) := by
      rw [show e - q = -(d : ℤ) by omega, zpow_neg, zpow_natCast]
      rw [Nat.cast_pow, Nat.cast_ofNat, div_eq_mul_inv]
    rw [hx, show (q - e).toNat = d by omega]
    dsimp only
    have hdiv : 0 < 2 ^ d := by positivity
    generalize 2 ^ d = D at *
    have hD : (0 : K) < D := by exact_mod_cast hdiv
    have hval : (m : K) / D = (m / D : ℕ) + (m % D : ℕ) / D := by
      rw [div_eq_iff hD.ne', add_mul, div_mul_cancel₀ _ hD.ne', mul_comm]
      exact_mod_cast (Nat.div_add_mod m D).symm
    have hp := roundsUp_picks (K := K) r neg (n := m / D) (Nat.mod_lt m hdiv)
    rw [hval]
    refine ⟨hp, ?_⟩
    have hfrac : ((m % D : ℕ) : K) / D < 1 := (div_lt_one hD).2 (by exact_mod_cast Nat.mod_lt m hdiv)
    rw [beq_iff_eq]
    constructor
    · intro h0
      rw [h0, if_neg (by cases r <;> simp [roundsUp]; omega)]
      simp
    · intro h
      split_ifs at h
      · push_cast at h
        exact absurd hfrac (by linarith)
      · have : ((m % D : ℕ) : K) / D = 0 := by linarith
        simpa [hD.ne'] using this

end Rounding
end

section
/-! ### The formats as grids [03 R40, R41, R48] -/

namespace Rounding
open Sys2Proof (Rnd)
open Sys2Proof.Machine Sys2Proof.Claims

/-- The exponent of a format's subnormals, the least spacing of its numbers. -/
def qmin (f : Fmt) : ℤ := 1 - f.bias - f.mbits

/-- The magnitude of a pattern without its sign, with the exponent unbounded: the number past the largest finite one is the
one that follows it in the rule of R41. -/
def mag (K : Type) [Field K] (f : Fmt) (p : ℕ) : K :=
  if p < 2 ^ f.mbits then p * 2 ^ qmin f else ((p % 2 ^ f.mbits + 2 ^ f.mbits : ℕ) : K) * 2 ^ (((p / 2 ^ f.mbits : ℕ) : ℤ) - 1 + qmin f)

/-- A pattern is `j` in the block `d`: `j` steps of 2^(qmin + d). -/
structure InBlock (f : Fmt) (p d j : ℕ) : Prop where
  eq : p = d * 2 ^ f.mbits + j
  lt : j < 2 ^ (f.mbits + 1)
  normal : d = 0 ∨ 2 ^ f.mbits ≤ j

theorem exists_inBlock (f : Fmt) (p : ℕ) : ∃ d j, InBlock f p d j := by
  rcases lt_or_ge p (2 ^ f.mbits) with h | h
  · exact ⟨0, p, by simp, by rw [pow_succ]; omega, Or.inl rfl⟩
  · have hpos : 0 < 2 ^ f.mbits := by positivity
    have h1 : 1 ≤ p / 2 ^ f.mbits := (Nat.one_le_div_iff hpos).2 h
    have hm := Nat.mod_lt p hpos
    have hd := Nat.div_add_mod' p (2 ^ f.mbits)
    obtain ⟨d, hd'⟩ : ∃ d, p / 2 ^ f.mbits = d + 1 := ⟨p / 2 ^ f.mbits - 1, by omega⟩
    rw [hd', add_mul, one_mul] at hd
    exact ⟨d, p % 2 ^ f.mbits + 2 ^ f.mbits, by omega, by rw [pow_succ]; omega, Or.inr (by omega)⟩

section Grid
variable {K : Type} [Field K] {f : Fmt}

/-- The magnitude of a pattern by its block; the first step of the next block is counted with this one too. -/
theorem mag_block (f : Fmt) {d j : ℕ} (hj : j ≤ 2 ^ (f.mbits + 1)) (hd : d = 0 ∨ 2 ^ f.mbits ≤ j) [CharZero K] :
    mag K f (d * 2 ^ f.mbits + j) = j * 2 ^ (qmin f + d) := by
  have hpos : 0 < 2 ^ f.mbits := by positivity
  unfold mag
  rcases lt_or_ge j (2 ^ f.mbits) with h | h
  · obtain rfl : d = 0 := hd.resolve_right (by omega)
    simp [h]
  · rw [if_neg (by nlinarith)]
    rcases hj.lt_or_eq with hlt | rfl
    · have hj' : d * 2 ^ f.mbits + j = (j - 2 ^ f.mbits) + 2 ^ f.mbits * (d + 1) := by rw [mul_add, mul_comm]; omega
      have hlt' : j - 2 ^ f.mbits < 2 ^ f.mbits := by rw [pow_succ] at hlt; omega
      rw [hj', Nat.add_mul_mod_self_left, Nat.mod_eq_of_lt hlt', Nat.add_mul_div_left _ _ hpos, Nat.div_eq_of_lt hlt',
        Nat.sub_add_cancel h]
      congr 2
      push_cast
      ring
    · rw [show d * 2 ^ f.mbits + 2 ^ (f.mbits + 1) = 2 ^ f.mbits * (d + 2) by ring, Nat.mul_mod_right, Nat.mul_div_cancel_left _ hpos]
      rw [zero_add, show ((d + 2 : ℕ) : ℤ) - 1 + qmin f = qmin f + d + 1 by push_cast; ring, zpow_add_one₀ two_ne_zero]
      push_cast
      ring

theorem InBlock.mag_eq [CharZero K] {p d j : ℕ} (h : InBlock f p d j) : mag K f p = j * 2 ^ (qmin f + d) := by
  rw [h.eq, mag_block f h.lt.le h.normal]

theorem InBlock.mag_succ [CharZero K] {p d j : ℕ} (h : InBlock f p d j) : mag K f (p + 1) = (j + 1) * 2 ^ (qmin f + d) := by
  rw [h.eq, add_assoc, mag_block f h.lt (h.normal.imp id (by omega))]
  push_cast
  rfl

@[simp] theorem mag_zero : mag K f 0 = 0 := by simp [mag]

theorem mag_cast {K L : Type} [Field K] [Field L] [CharZero K] [CharZero L] (φ : K →+* L) (f : Fmt) (p : ℕ) : φ (mag K f p) = mag L f p := by
  obtain ⟨d, j, h⟩ := exists_inBlock f p
  rw [h.mag_eq, h.mag_eq, map_mul, map_natCast, map_zpow₀, map_ofNat]

variable [LinearOrder K] [IsStrictOrderedRing K]

theorem mag_strictMono : StrictMono (mag K f) := by
  refine strictMono_nat_of_lt_succ fun p => ?_
  obtain ⟨d, j, h⟩ := exists_inBlock f p
  rw [h.mag_eq, h.mag_succ]
  have : (0 : K) < 2 ^ (qmin f + d) := by positivity
  linarith [add_one_mul (j : K) (2 ^ (qmin f + d))]

theorem mag_nonneg (p : ℕ) : 0 ≤ mag K f p := by
  rw [← mag_zero (K := K) (f := f)]
  exact mag_strictMono.monotone (Nat.zero_le p)

/-- Every number with few enough bits is in the grid. -/
theorem exists_mag (f : Fmt) (n : ℕ) (q : ℤ) (hn : n ≤ 2 ^ (f.mbits + 1)) (hq : qmin f ≤ q) : ∃ p, mag K f p = n * 2 ^ q := by
  obtain ⟨d, rfl⟩ : ∃ d : ℕ, q = qmin f + d := ⟨(q - qmin f).toNat, by omega⟩
  induction d generalizing n with
  | zero => exact ⟨0 * 2 ^ f.mbits + n, by rw [mag_block f hn (Or.inl rfl)]⟩
  | succ d ih =>
    rcases lt_or_ge n (2 ^ f.mbits) with h | h
    · obtain ⟨p, hp⟩ := ih (2 * n) (by rw [pow_succ]; omega) (by omega)
      refine ⟨p, hp.trans ?_⟩
      push_cast
      rw [← add_assoc, zpow_add_one₀ two_ne_zero]
      ring
    · exact ⟨_, mag_block f hn (Or.inr h)⟩

/-- Rounding to the naturals at a block's spacing is rounding to the format [03 R46]. -/
theorem picks_mag (hmb : 1 ≤ f.mbits) {r : Rnd} {neg : Bool} {v : K} {n d : ℕ} (h : Picks r neg (fun n : ℕ => (n : K)) v n)
    (hd : d = 0 ∨ ((2 ^ f.mbits : ℕ) : K) ≤ v) (hv : v < (2 ^ (f.mbits + 1) : ℕ)) :
    Picks r neg (mag K f) (v * 2 ^ (qmin f + d)) (d * 2 ^ f.mbits + n) := by
  have hu : (0 : K) < 2 ^ (qmin f + d) := by positivity
  have hn : n ≤ 2 ^ (f.mbits + 1) := h.index_le strictMono_natCast hv.le
  have hdn : d = 0 ∨ 2 ^ f.mbits ≤ n := hd.imp id fun h' => h.le_index strictMono_natCast h'
  have hmag : mag K f (d * 2 ^ f.mbits + n) = n * 2 ^ (qmin f + d) := mag_block f hn hdn
  have hmono := mag_strictMono (K := K) (f := f)
  -- a smaller pattern lies a step below, unless the number lies above the whole block
  have hpred : ∀ k < d * 2 ^ f.mbits + n, (∃ i < n, mag K f k ≤ i * 2 ^ (qmin f + d)) ∨ (n : K) ≤ v := by
    intro k hk
    by_cases hb : n = 2 ^ f.mbits ∧ d ≠ 0
    · exact Or.inr (by rw [hb.1]; exact hd.resolve_left hb.2)
    · by_cases h0 : n = 0
      · rw [h0] at hdn ⊢
        have : d = 0 := hdn.resolve_right (by have : 0 < 2 ^ f.mbits := by positivity
                                              omega)
        simp [this, h0] at hk
      · refine Or.inl ⟨n - 1, by omega, ?_⟩
        rw [← mag_block (K := K) f (d := d) (j := n - 1) (by omega) (by omega)]
        exact hmono.monotone (by omega)
  -- a larger pattern lies a step above, unless the number lies below
  have hsucc : ∀ k, d * 2 ^ f.mbits + n < k → ((n + 1 : ℕ) : K) * 2 ^ (qmin f + d) ≤ mag K f k ∨ v < n := by
    intro k hk
    rcases hn.lt_or_eq with hlt | heq
    · left
      rw [← mag_block (K := K) f (d := d) (j := n + 1) (by omega) (by omega)]
      exact hmono.monotone (by omega)
    · right
      rw [heq]
      exact hv
  have heven : n % 2 = 0 → (d * 2 ^ f.mbits + n) % 2 = 0 := fun h2 => by
    obtain ⟨b, hb⟩ : ∃ b, f.mbits = b + 1 := ⟨f.mbits - 1, by omega⟩
    rw [hb, pow_succ, ← mul_assoc]
    omega
  have hscale : ∀ a b : K, a < b → a * 2 ^ (qmin f + d) < b * 2 ^ (qmin f + d) := fun a b hab => mul_lt_mul_of_pos_right hab hu
  refine h.imp ?_ ?_ ?_
  · rintro ⟨hlo, hhi⟩
    refine ⟨fun k hk => ?_, fun k hk => ?_⟩
    · have hlt := hmono hk
      rw [hmag] at hlt ⊢
      rcases hpred k hk with ⟨i, hi, hle⟩ | hle
      · obtain ⟨h1, h2⟩ := hlo i hi
        have h1' := mul_le_mul_of_nonneg_right h1 hu.le
        refine ⟨by linarith, fun ht => heven (h2 (le_antisymm h1 (not_lt.1 fun hc => ?_)))⟩
        have := hscale _ _ hc
        linarith
      · have := mul_le_mul_of_nonneg_right hle hu.le
        exact ⟨by linarith, fun ht => absurd ht (by linarith)⟩
    · have hlt := hmono hk
      rw [hmag] at hlt ⊢
      rcases hsucc k hk with hle | hle
      · obtain ⟨h1, h2⟩ := hhi (n + 1) (by omega)
        have h1' := mul_le_mul_of_nonneg_right h1 hu.le
        refine ⟨by linarith, fun ht => heven (h2 (le_antisymm (not_lt.1 fun hc => ?_) h1))⟩
        have := hscale _ _ hc
        linarith
      · have := hscale _ _ hle
        exact ⟨by linarith, fun ht => absurd ht (by linarith)⟩
  · rintro ⟨hle, hlo⟩
    refine ⟨by rw [hmag]; exact mul_le_mul_of_nonneg_right hle hu.le, fun k hk => ?_⟩
    rcases hpred k hk with ⟨i, hi, hik⟩ | hik
    · exact hik.trans_lt (hscale _ _ (hlo i hi))
    · exact (hmono hk).trans_le (by rw [hmag]; exact mul_le_mul_of_nonneg_right hik hu.le)
  · rintro ⟨hle, hhi⟩
    refine ⟨by rw [hmag]; exact mul_le_mul_of_nonneg_right hle hu.le, fun k hk => ?_⟩
    rcases hsucc k hk with hik | hik
    · exact (hscale _ _ (hhi (n + 1) (by omega))).trans_le hik
    · exact absurd hle (not_le.2 hik)

end Grid

/-! #### The six formats -/

/-- What the six formats share: the patterns up to the largest finite one are those of numbers, and it is a normal one. -/
structure Good (f : Fmt) : Prop where
  mbits_pos : 1 ≤ f.mbits
  top_normal : 2 ^ f.mbits ≤ f.top
  top_lt : f.top < f.signBit
  finite : ∀ p < f.signBit, p ≤ f.top ↔ ¬ (f.inf = true ∧ p / 2 ^ f.mbits = 2 ^ f.ebits - 1) ∧ ¬ (f.nan = true ∧ ¬ f.inf = true ∧ p = 0x7F)
  infPat_lt : f.infPat false < f.signBit
  qnan_lt : f.qnan < f.signBit
  width_le : f.width ≤ 32

theorem good_of_mem {f : Fmt} (h : f ∈ formats) : Good f := by
  simp only [formats, List.mem_cons, List.not_mem_nil, or_false] at h
  rcases h with rfl | rfl | rfl | rfl | rfl | rfl
  all_goals refine ⟨by decide, by decide, by decide, fun p hp => ?_, by decide, by decide, by decide⟩
  · simp [Fmt.f32, Fmt.signBit] at hp ⊢
    omega
  · simp [Fmt.bf16, Fmt.signBit] at hp ⊢
    omega
  · simp [Fmt.f16, Fmt.signBit] at hp ⊢
    omega
  · simp [Fmt.e5m2, Fmt.signBit] at hp ⊢
    omega
  · simp [Fmt.e4m3, Fmt.signBit] at hp ⊢
    omega
  · simp [Fmt.e2m1, Fmt.signBit] at hp ⊢
    omega

/-- A magnitude with a sign. -/
def signed (neg : Bool) (x : ℚ) : ℚ := if neg then -x else x

@[simp] theorem signed_true (x : ℚ) : signed true x = -x := rfl
@[simp] theorem signed_false (x : ℚ) : signed false x = x := rfl

theorem abs_signed (neg : Bool) (x : ℚ) : |signed neg x| = |x| := by cases neg <;> simp [signed]

/-- A number is its magnitude with its sign. -/
theorem signed_abs (x : ℚ) : signed (decide (x < 0)) |x| = x := by
  by_cases h : x < 0
  · simp [signed, h, abs_of_neg h]
  · simp [signed, h, abs_of_nonneg (not_lt.1 h)]

theorem decide_signed_lt {neg : Bool} {x : ℚ} (h : 0 < x) : decide (signed neg x < 0) = neg := by
  cases neg <;> simp [signed, h, h.le]

theorem signed_inj {neg : Bool} {x y : ℚ} : signed neg x = signed neg y ↔ x = y := by cases neg <;> simp [signed]

theorem signed_eq_zero {neg : Bool} {x : ℚ} : signed neg x = 0 ↔ x = 0 := by cases neg <;> simp [signed]

/-- The weight of a sign in a pattern. -/
def signOf (f : Fmt) (neg : Bool) : ℕ := if neg then f.signBit else 0

theorem signBit_eq (f : Fmt) : f.signBit = 2 ^ f.mbits * 2 ^ f.ebits := by rw [Fmt.signBit, pow_add, mul_comm]

theorem ratOf_fin (neg : Bool) (m : ℕ) (e : ℤ) : ratOf (.fin neg m e) = some (signed neg (m * 2 ^ e)) := by
  cases neg <;> simp [ratOf, signed]

theorem mod_signOf {f : Fmt} {neg : Bool} {p : ℕ} (hp : p < f.signBit) :
    (p + signOf f neg) % f.signBit = p ∧ (p + signOf f neg) / f.signBit = if neg then 1 else 0 := by
  have hpos : 0 < f.signBit := by unfold Fmt.signBit; positivity
  cases neg
  · simp [signOf, Nat.mod_eq_of_lt hp, Nat.div_eq_of_lt hp]
  · simp [signOf, Nat.mod_eq_of_lt hp, Nat.add_div_right _ hpos, Nat.div_eq_of_lt hp]

section Format
variable {f : Fmt} (hf : Good f)
include hf

/-- The value of a pattern whose magnitude is a number's, by its block. -/
theorem val_fin {p d j : ℕ} (hp : p % f.signBit ≤ f.top) (h : InBlock f (p % f.signBit) d j) :
    f.val p = .fin (decide (p / f.signBit % 2 = 1)) j (qmin f + d) := by
  have hpos : 0 < f.signBit := by unfold Fmt.signBit; positivity
  have he : p / 2 ^ f.mbits % 2 ^ f.ebits = p % f.signBit / 2 ^ f.mbits := by rw [signBit_eq, Nat.mod_mul_right_div_self]
  have hm : p % 2 ^ f.mbits = p % f.signBit % 2 ^ f.mbits := by rw [signBit_eq, Nat.mod_mul_right_mod]
  obtain ⟨h1, h2⟩ := (hf.finite _ (Nat.mod_lt p hpos)).1 hp
  unfold Fmt.val
  simp only [he, hm]
  rw [if_neg h1, if_neg h2]
  have hpos' : 0 < 2 ^ f.mbits := by positivity
  obtain ⟨heq, hlt, hn⟩ := h
  rcases lt_or_ge j (2 ^ f.mbits) with hj | hj
  · obtain rfl : d = 0 := hn.resolve_right (by omega)
    rw [zero_mul, zero_add] at heq
    rw [heq, if_pos (Nat.div_eq_of_lt hj), Nat.mod_eq_of_lt hj]
    simp [qmin]
  · have hlt' : j - 2 ^ f.mbits < 2 ^ f.mbits := by rw [pow_succ] at hlt; omega
    have heq' : p % f.signBit = (j - 2 ^ f.mbits) + 2 ^ f.mbits * (d + 1) := by rw [heq, mul_add, mul_comm]; omega
    rw [heq', Nat.add_mul_mod_self_left, Nat.mod_eq_of_lt hlt', Nat.add_mul_div_left _ _ hpos', Nat.div_eq_of_lt hlt',
      Nat.sub_add_cancel hj, if_neg (by omega)]
    congr 1
    simp [qmin]
    ring

/-- A pattern is that of a number exactly when its magnitude is at most the largest finite one. -/
theorem finite_of_val {p : ℕ} {neg : Bool} {m : ℕ} {e : ℤ} (h : f.val p = .fin neg m e) : p % f.signBit ≤ f.top := by
  have hpos : 0 < f.signBit := by unfold Fmt.signBit; positivity
  rw [hf.finite _ (Nat.mod_lt p hpos)]
  have he : p / 2 ^ f.mbits % 2 ^ f.ebits = p % f.signBit / 2 ^ f.mbits := by rw [signBit_eq, Nat.mod_mul_right_div_self]
  refine ⟨fun hc => ?_, fun hc => ?_⟩
  · simp only [Fmt.val, he, if_pos hc] at h
    split_ifs at h
  · simp only [Fmt.val, if_pos hc] at h
    split_ifs at h

/-- The number of a pattern. -/
theorem ratOf_val (p : ℕ) : ratOf (f.val p) =
    if p % f.signBit ≤ f.top then some (signed (decide (p / f.signBit % 2 = 1)) (mag ℚ f (p % f.signBit))) else none := by
  split_ifs with h
  · obtain ⟨d, j, hb⟩ := exists_inBlock f (p % f.signBit)
    rw [val_fin hf h hb, ratOf_fin, hb.mag_eq]
  · cases hv : f.val p with
    | fin neg m e => exact absurd (finite_of_val hf hv) h
    | nan s => rfl
    | inf n => rfl

/-- The pattern of a magnitude with a sign gives the number. -/
theorem ratOf_val_signOf {p : ℕ} (hp : p ≤ f.top) (neg : Bool) : ratOf (f.val (p + signOf f neg)) = some (signed neg (mag ℚ f p)) := by
  obtain ⟨h1, h2⟩ := mod_signOf (neg := neg) (hp.trans_lt hf.top_lt)
  rw [ratOf_val hf, h1, if_pos hp, h2]
  cases neg <;> rfl

/-- The numbers of a format, by magnitude. -/
theorem holds_iff {z : ℚ} : Holds f z ↔ ∃ k ≤ f.top, |z| = mag ℚ f k := by
  constructor
  · rintro ⟨q, -, h⟩
    rw [ratOf_val hf] at h
    split_ifs at h with hk
    exact ⟨_, hk, by rw [← Option.some.inj h, abs_signed, abs_of_nonneg (mag_nonneg _)]⟩
  · rintro ⟨k, hk, h⟩
    refine ⟨k + signOf f (decide (z < 0)), ?_, by rw [ratOf_val_signOf hf hk, ← h, signed_abs]⟩
    have := hf.top_lt
    rw [Fmt.width, Nat.add_assoc, pow_add, pow_one, ← Fmt.signBit, signOf]
    split_ifs <;> omega

/-- The number past the largest finite one, with the exponent unbounded, is one spacing away. -/
theorem topOf_iff {t u : ℚ} : topOf f t u ↔ t = mag ℚ f f.top ∧ u = mag ℚ f (f.top + 1) - mag ℚ f f.top := by
  obtain ⟨d, j, hb⟩ := exists_inBlock f f.top
  have hval : f.val f.top = .fin false j (qmin f + d) := by
    have hm := Nat.mod_eq_of_lt hf.top_lt
    rw [val_fin hf (by rw [hm]) (by rw [hm]; exact hb), Nat.div_eq_of_lt hf.top_lt]
    rfl
  rw [hb.mag_eq, hb.mag_succ]
  constructor
  · rintro ⟨m, e, h, rfl, rfl⟩
    rw [hval] at h
    cases h
    exact ⟨rfl, by ring⟩
  · rintro ⟨rfl, rfl⟩
    exact ⟨j, _, hval, rfl, by ring⟩

/-- A number overflows exactly when rounding with the exponent unbounded passes the largest finite number [03 R48]. -/
theorem overflows_iff {r : Rnd} {x : ℚ} {p : ℕ} (hx : x ≠ 0) (h : Picks r (decide (x < 0)) (mag ℚ f) |x| p) : overflows f r x ↔ f.top < p := by
  have hmono := mag_strictMono (K := ℚ) (f := f)
  have hsum : ∀ y : ℚ, mag ℚ f f.top + (mag ℚ f (f.top + 1) - mag ℚ f f.top) / 2 < y ↔ mag ℚ f f.top + mag ℚ f (f.top + 1) < 2 * y :=
    fun y => ⟨fun h => by linarith, fun h => by linarith⟩
  have hsum' : ∀ y : ℚ, y = mag ℚ f f.top + (mag ℚ f (f.top + 1) - mag ℚ f f.top) / 2 ↔ mag ℚ f f.top + mag ℚ f (f.top + 1) = 2 * y :=
    fun y => ⟨fun h => by linarith, fun h => by linarith⟩
  have hgiven : overflows f r x ↔ ∀ t u, t = mag ℚ f f.top ∧ u = mag ℚ f (f.top + 1) - mag ℚ f f.top → _ :=
    forall₂_congr fun t u => imp_congr_left (topOf_iff hf)
  rw [hgiven]
  simp only [and_imp, forall_eq_apply_imp_iff, forall_eq, add_sub_cancel]
  by_cases hneg : x < 0
  · have habs := abs_of_neg hneg
    rw [decide_eq_true hneg, habs] at h
    cases r with
    | rn => simp only [hsum, hsum', habs, ((picks_rn.1 h).lt_index_iff hmono)]
    | rz => simp only [habs, ((picks_below (by simp) rfl).1 h).lt_index_iff hmono]
    | ru => simp only [if_neg hneg.not_gt, ((picks_below (by simp) rfl).1 h).lt_index_iff hmono]
    | rd => simp only [if_pos hneg, ((picks_above rfl).1 h).lt_index_iff hmono]
  · have hpos : 0 < x := lt_of_le_of_ne (not_lt.1 hneg) (Ne.symm hx)
    have habs := abs_of_pos hpos
    rw [decide_eq_false hneg, habs] at h
    cases r with
    | rn => simp only [hsum, hsum', habs, ((picks_rn.1 h).lt_index_iff hmono)]
    | rz => simp only [habs, ((picks_below (by simp) rfl).1 h).lt_index_iff hmono]
    | ru => simp only [if_pos hpos, ((picks_above rfl).1 h).lt_index_iff hmono]
    | rd => simp only [if_neg hneg, ((picks_below (by simp) rfl).1 h).lt_index_iff hmono]
end Format

end Rounding
end

section
/-! ### A pick is a rounding [03 R46, R48] -/

namespace Rounding
open Sys2Proof (Rnd)
open Sys2Proof.Machine Sys2Proof.Claims

/-! #### A grid and its negative numbers -/

section Signed
variable {g : ℕ → ℚ} {x : ℚ} {p : ℕ} {r : Rnd}

/-- The nearest magnitude lies no farther than any other; a tie means that it is even. -/
theorem Nearest.dist_le (hg : StrictMono g) (h : Nearest g x p) (k : ℕ) :
    |g p - x| ≤ |g k - x| ∧ (k ≠ p → |g k - x| = |g p - x| → p % 2 = 0) := by
  rcases lt_trichotomy k p with hk | rfl | hk
  · obtain ⟨h1, h2⟩ := h.1 k hk
    have := hg hk
    rw [abs_of_nonpos (by linarith : g k - x ≤ 0)]
    refine ⟨abs_le.2 ⟨by linarith, by linarith⟩, fun _ ht => h2 ?_⟩
    rcases abs_cases (g p - x) with hc | hc <;> linarith
  · exact ⟨le_rfl, fun hne => absurd rfl hne⟩
  · obtain ⟨h1, h2⟩ := h.2 k hk
    have := hg hk
    rw [abs_of_nonneg (by linarith : 0 ≤ g k - x)]
    refine ⟨abs_le.2 ⟨by linarith, by linarith⟩, fun _ ht => h2 ?_⟩
    rcases abs_cases (g p - x) with hc | hc <;> linarith

theorem signed_dist (x a : ℚ) : |signed (decide (x < 0)) a - x| = |(a - |x|)| := by
  by_cases h : x < 0
  · rw [decide_eq_true h, abs_of_neg h, signed, if_pos rfl, ← abs_neg]
    congr 1
    ring
  · rw [decide_eq_false h, abs_of_nonneg (not_lt.1 h)]
    rfl

/-- What a mode picks for the magnitude, with the sign, is what it asks for among the numbers of both signs [03 R46]. -/
theorem roundsTo_of_picks (hg : StrictMono g) (h0 : g 0 = 0) {grid : ℚ → Prop} {ok : ℕ → Prop} (hgrid : ∀ z, grid z ↔ ∃ k, ok k ∧ |z| = g k)
    (h : Picks r (decide (x < 0)) g |x| p) (hp : ok p) : roundsTo r grid x (signed (decide (x < 0)) (g p)) := by
  have hnn : ∀ k, 0 ≤ g k := fun k => h0 ▸ hg.monotone (Nat.zero_le k)
  have hy : |signed (decide (x < 0)) (g p)| = g p := by rw [abs_signed, abs_of_nonneg (hnn p)]
  refine ⟨(hgrid _).2 ⟨p, hp, hy⟩, ?_⟩
  have hle : ∀ z, grid z → |z| ≤ |x| → |z| ≤ g p := fun z hz hzx => by
    obtain ⟨k, -, hk⟩ := (hgrid z).1 hz
    rw [hk] at hzx ⊢
    exact hg.monotone (h.le_index hg hzx)
  have hge : ∀ z, grid z → |x| ≤ |z| → g p ≤ |z| := fun z hz hzx => by
    obtain ⟨k, -, hk⟩ := (hgrid z).1 hz
    rw [hk] at hzx ⊢
    exact hg.monotone (h.index_le hg hzx)
  cases r with
  | rn =>
    intro z hz
    obtain ⟨k, -, hk⟩ := (hgrid z).1 hz
    rw [signed_dist]
    exact (((picks_rn.1 h).dist_le hg k).1.trans (le_of_eq (by rw [hk]))).trans (abs_abs_sub_abs_le z x)
  | rz =>
    have hb := (picks_below (by simp) rfl).1 h
    refine ⟨by rw [hy]; exact hb.1, ?_, fun z hz _ hzx => by rw [hy]; exact hle z hz hzx⟩
    by_cases hx : x < 0
    · simpa [signed, hx] using mul_nonpos_of_nonpos_of_nonneg hx.le (hnn p)
    · simpa [signed, hx] using mul_nonneg (not_lt.1 hx) (hnn p)
  | ru =>
    by_cases hx : x < 0
    · rw [decide_eq_true hx] at h ⊢
      have hb := (picks_below (by simp) rfl).1 h
      rw [abs_of_neg hx] at hb hle
      refine ⟨by rw [signed, if_pos rfl]; linarith [hb.1], fun z hz hzx => ?_⟩
      rw [signed, if_pos rfl]
      rcases le_or_gt 0 z with hz0 | hz0
      · linarith [hnn p]
      · have := hle z hz (by rw [abs_of_neg hz0]; linarith)
        rw [abs_of_neg hz0] at this
        linarith
    · rw [decide_eq_false hx] at h ⊢
      have hx := not_lt.1 hx
      have hb := (picks_above rfl).1 h
      rw [abs_of_nonneg hx] at hb hge
      refine ⟨hb.1, fun z hz hzx => ?_⟩
      have := hge z hz (by rwa [abs_of_nonneg (hx.trans hzx)])
      rwa [abs_of_nonneg (hx.trans hzx)] at this
  | rd =>
    by_cases hx : x < 0
    · rw [decide_eq_true hx] at h ⊢
      have hb := (picks_above rfl).1 h
      rw [abs_of_neg hx] at hb hge
      refine ⟨by rw [signed, if_pos rfl]; linarith [hb.1], fun z hz hzx => ?_⟩
      have hz0 : z < 0 := hzx.trans_lt hx
      have := hge z hz (by rw [abs_of_neg hz0]; linarith)
      rw [abs_of_neg hz0] at this
      rw [signed, if_pos rfl]
      linarith
    · rw [decide_eq_false hx] at h ⊢
      have hx := not_lt.1 hx
      have hb := (picks_below (by simp) rfl).1 h
      rw [abs_of_nonneg hx] at hb hle
      refine ⟨hb.1, fun z hz hzx => ?_⟩
      rcases le_or_gt 0 z with hz0 | hz0
      · have := hle z hz (by rwa [abs_of_nonneg hz0])
        rwa [abs_of_nonneg hz0] at this
      · exact hz0.le.trans (hnn p)

/-- On a tie the pick is even [03 R46]. -/
theorem tieEven_of_picks (hg : StrictMono g) (h0 : g 0 = 0) {grid : ℚ → Prop} {ok : ℕ → Prop} (hgrid : ∀ z, grid z ↔ ∃ k, ok k ∧ |z| = g k)
    (h : Picks r (decide (x < 0)) g |x| p) : tieEven r grid x (signed (decide (x < 0)) (g p)) (p % 2 = 0) := by
  rintro rfl ⟨z, hz, hne, ht⟩
  obtain ⟨k, -, hk⟩ := (hgrid z).1 hz
  have hn := picks_rn.1 h
  rw [signed_dist] at ht
  have hzk : |(g k - |x|)| ≤ |z - x| := by rw [← hk]; exact abs_abs_sub_abs_le z x
  have heq : |(g k - |x|)| = |(g p - |x|)| := le_antisymm (hzk.trans_eq ht) (hn.dist_le hg k).1
  by_cases hkp : k = p
  · -- `z` is the negative of the number picked, so both are as far as 0 is
    exfalso
    have hfar : |z - x| = g p + |x| := by
      rw [← hkp, ← hk]
      by_cases hx : x < 0
      · have hz0 : 0 ≤ z := by
          by_contra hc
          refine hne ?_
          rw [← hkp, ← hk, signed, decide_eq_true hx, if_pos rfl, abs_of_neg (not_le.1 hc), neg_neg]
        rw [abs_of_nonneg hz0, abs_of_neg hx, abs_of_nonneg (by linarith)]
        ring
      · have hz0 : z ≤ 0 := by
          by_contra hc
          refine hne ?_
          rw [← hkp, ← hk, signed, decide_eq_false hx, abs_of_pos (not_le.1 hc)]
          rfl
        rw [abs_of_nonpos hz0, abs_of_nonneg (not_lt.1 hx), abs_of_nonpos (by linarith [not_lt.1 hx])]
        ring
    have hp0 : g p = 0 := by
      have hpn : 0 ≤ g p := h0 ▸ hg.monotone (Nat.zero_le p)
      have hxn := abs_nonneg x
      have h0p := (hn.dist_le hg 0).1
      rw [h0, zero_sub, abs_neg, abs_abs, ← ht, hfar] at h0p
      linarith
    have hz0 : z = 0 := abs_eq_zero.1 (by rw [hk, hkp, hp0])
    exact hne (by rw [hz0, hp0]; cases decide (x < 0) <;> simp [signed])
  · exact (hn.dist_le hg k).2 hkp heq
end Signed

/-! #### Into a format -/

/-- Whether a mode gives the infinity past the range, where a format has one [03 R48]. -/
def toInf (r : Rnd) (neg : Bool) : Bool :=
  match r with
  | .rn => true
  | .rz => false
  | .ru => !neg
  | .rd => neg

/-- The pattern of a picked magnitude with a sign; past the range, the one of the table of R48. -/
def packed (f : Fmt) (r : Rnd) (neg : Bool) (p : ℕ) : ℕ :=
  if f.top < p then (if toInf r neg then f.infPat neg else f.top + signOf f neg) else p + signOf f neg

theorem packed_overflow (f : Fmt) (r : Rnd) (neg : Bool) {p : ℕ} (h : f.top < p) : packed f r neg p = overflowGives f r neg := by
  rw [packed, if_pos h, Fmt.infPat, signOf, Fmt.signBit]
  cases r <;> cases neg <;> cases hi : f.inf <;> simp [overflowGives, toInf, hi, Nat.add_comm]

theorem packed_of_le (f : Fmt) (r : Rnd) (neg : Bool) {p : ℕ} (h : p ≤ f.top) : packed f r neg p = p + signOf f neg := by
  rw [packed, if_neg (not_lt.2 h)]

section Format
variable {f : Fmt} (hf : Good f)
include hf

theorem packed_lt (r : Rnd) (neg : Bool) (p : ℕ) : packed f r neg p < 2 ^ f.width := by
  have h1 := hf.top_lt
  have h2 := hf.infPat_lt
  rw [Fmt.width, Nat.add_assoc, pow_add, pow_one, ← Fmt.signBit]
  have hs : signOf f neg ≤ f.signBit := by rw [signOf]; split_ifs <;> omega
  have hinf : f.infPat neg = f.infPat false + signOf f neg := by cases neg <;> simp [Fmt.infPat, signOf]
  rw [packed]
  split_ifs <;> omega

/-- A mode's pick for a number other than 0 is the number rounded into the format [03 R46, R48]. -/
theorem roundedInto_packed {r : Rnd} {x : ℚ} {p : ℕ} (hx : x ≠ 0) (h : Picks r (decide (x < 0)) (mag ℚ f) |x| p) :
    roundedInto f r x (packed f r (decide (x < 0)) p) := by
  refine ⟨fun ho => packed_overflow f r _ ((overflows_iff hf hx h).1 ho), fun ho => ?_⟩
  have hp : p ≤ f.top := not_lt.1 fun hc => ho ((overflows_iff hf hx h).2 hc)
  obtain ⟨-, hdiv⟩ := mod_signOf (neg := decide (x < 0)) (hp.trans_lt hf.top_lt)
  rw [packed_of_le f r _ hp]
  refine ⟨_, ratOf_val_signOf hf hp _, roundsTo_of_picks mag_strictMono mag_zero (fun z => holds_iff hf) h hp, ?_, ?_⟩
  · have heven : signOf f (decide (x < 0)) % 2 = 0 := by
      rw [signOf, signBit_eq]
      obtain ⟨b, hb⟩ : ∃ b, f.mbits = b + 1 := ⟨f.mbits - 1, by have := hf.mbits_pos; omega⟩
      split_ifs
      · rw [hb, pow_succ, mul_right_comm, Nat.mul_mod_left]
      · rfl
    rw [show (p + signOf f (decide (x < 0))) % 2 = p % 2 by omega]
    exact tieEven_of_picks mag_strictMono mag_zero (fun z => holds_iff hf) h
  · rw [← Fmt.signBit, hdiv]
    simp
end Format

/-! #### What the model's rounding picks -/

/-- The spacing at which a number is rounded: that of its leading bit, but not below the format's least [03 R48]. -/
def quantum (f : Fmt) (m : ℕ) (e : ℤ) : ℤ := max (e + (Nat.log2 m : ℤ) - f.mbits) (qmin f)

/-- The pattern without sign that `Fmt.round` forms. -/
def patOf (f : Fmt) (r : Rnd) (neg : Bool) (m : ℕ) (e : ℤ) : ℕ :=
  (quantum f m e - qmin f).toNat * 2 ^ f.mbits + (roundAt r neg m e (quantum f m e)).1

section Pattern
variable {f : Fmt} {m : ℕ} {e : ℤ}

theorem quantum_eq (f : Fmt) (m : ℕ) (e : ℤ) : quantum f m e = qmin f + ((quantum f m e - qmin f).toNat : ℕ) := by
  have : qmin f ≤ quantum f m e := le_max_right _ _
  omega

variable (K : Type) [Field K] [LinearOrder K] [IsStrictOrderedRing K]

/-- A number against the power of two that its leading bit stands for. -/
theorem log2_bounds (hm : m ≠ 0) (e : ℤ) : (2 : K) ^ (e + (Nat.log2 m : ℤ)) ≤ m * 2 ^ e ∧ (m : K) * 2 ^ e < 2 ^ (e + (Nat.log2 m : ℤ) + 1) := by
  have hpos : (0 : K) < 2 ^ e := by positivity
  have h1 : ((2 ^ Nat.log2 m : ℕ) : K) ≤ m := by exact_mod_cast Nat.log2_self_le hm
  have h2 : (m : K) < ((2 ^ (Nat.log2 m + 1) : ℕ) : K) := by exact_mod_cast Nat.lt_log2_self
  push_cast at h1 h2
  constructor
  · rw [zpow_add₀ two_ne_zero, zpow_natCast, mul_comm]
    exact mul_le_mul_of_nonneg_right h1 hpos.le
  · rw [add_assoc, zpow_add₀ two_ne_zero, mul_comm (m : K)]
    refine mul_lt_mul_of_pos_left ?_ hpos
    exact_mod_cast h2

/-- At its spacing a number has the format's width. -/
theorem quantum_scaled (hm : m ≠ 0) : ((quantum f m e - qmin f).toNat = 0 ∨ ((2 ^ f.mbits : ℕ) : K) ≤ m * 2 ^ (e - quantum f m e)) ∧
    (m : K) * 2 ^ (e - quantum f m e) < (2 ^ (f.mbits + 1) : ℕ) := by
  obtain ⟨h1, h2⟩ := log2_bounds K hm (e - quantum f m e)
  have hq1 : e + (Nat.log2 m : ℤ) - f.mbits ≤ quantum f m e := le_max_left _ _
  constructor
  · rcases max_choice (e + (Nat.log2 m : ℤ) - f.mbits) (qmin f) with h | h
    · right
      have hq : e - quantum f m e + (Nat.log2 m : ℤ) = f.mbits := by rw [quantum, h]; ring
      rw [hq, zpow_natCast] at h1
      exact_mod_cast h1
    · left
      rw [quantum, h]
      simp
  · refine h2.trans_le ?_
    rw [Nat.cast_pow, Nat.cast_ofNat, ← zpow_natCast]
    exact zpow_le_zpow_right₀ one_le_two (by push_cast; omega)

/-- What is picked from the naturals at a number's spacing gives the pattern that the mode picks. -/
theorem picks_of_quantum (hmb : 1 ≤ f.mbits) {r : Rnd} {neg : Bool} {v : K} {n : ℕ} (h : Picks r neg (fun n : ℕ => (n : K)) v n)
    (hd : (quantum f m e - qmin f).toNat = 0 ∨ ((2 ^ f.mbits : ℕ) : K) ≤ v) (hv : v < (2 ^ (f.mbits + 1) : ℕ)) :
    Picks r neg (mag K f) (v * 2 ^ quantum f m e) ((quantum f m e - qmin f).toNat * 2 ^ f.mbits + n) := by
  have := picks_mag hmb h hd hv
  rwa [← quantum_eq] at this

/-- The model's pattern is the mode's pick from the format with the exponent unbounded [03 R48]. -/
theorem patOf_picks (hmb : 1 ≤ f.mbits) (hm : m ≠ 0) (r : Rnd) (neg : Bool) : Picks r neg (mag K f) (m * 2 ^ e) (patOf f r neg m e) := by
  obtain ⟨hd, hv⟩ := quantum_scaled K (f := f) (e := e) hm
  have := picks_of_quantum K hmb (roundAt_picks K r neg m e (quantum f m e)).1 hd hv
  rwa [mul_assoc, ← zpow_add₀ two_ne_zero, sub_add_cancel] at this

/-- The number at the model's pattern. -/
theorem mag_patOf (hm : m ≠ 0) (r : Rnd) (neg : Bool) :
    mag K f (patOf f r neg m e) = (roundAt r neg m e (quantum f m e)).1 * 2 ^ quantum f m e := by
  obtain ⟨hd, hv⟩ := quantum_scaled K (f := f) (e := e) hm
  have hp := (roundAt_picks K r neg m e (quantum f m e)).1
  have := mag_block (K := K) f (hp.index_le strictMono_natCast hv.le) (hd.imp id fun h => hp.le_index strictMono_natCast h)
  rwa [← quantum_eq] at this
end Pattern

/-! #### The model's rounding -/

section Round
variable {f : Fmt} {m : ℕ} {e : ℤ} {r : Rnd} {neg : Bool}

theorem round_eq (hm : m ≠ 0) : f.round r neg m e = (packed f r neg (patOf f r neg m e),
    if f.top < patOf f r neg m e then 5 else
      flagIf (f.isTiny r neg m e && !(roundAt r neg m e (quantum f m e)).2) flagUF ||| flagIf (!(roundAt r neg m e (quantum f m e)).2) flagNX) := by
  obtain ⟨hd, hv⟩ := quantum_scaled ℚ (f := f) (e := e) hm
  have hp := (roundAt_picks ℚ r neg m e (quantum f m e)).1
  have hn : (quantum f m e - qmin f).toNat = 0 ∨ 2 ^ f.mbits ≤ (roundAt r neg m e (quantum f m e)).1 :=
    hd.imp id fun h => hp.le_index strictMono_natCast h
  have hq : max (e + (Nat.log2 m : ℤ) - f.mbits) ((1 - (f.bias : ℤ)) - f.mbits) = quantum f m e := rfl
  have hpat : (if (roundAt r neg m e (quantum f m e)).1 < 2 ^ f.mbits then (roundAt r neg m e (quantum f m e)).1 else
      (quantum f m e + f.mbits - (1 - (f.bias : ℤ))).toNat * 2 ^ f.mbits + (roundAt r neg m e (quantum f m e)).1) = patOf f r neg m e := by
    have hs : quantum f m e + f.mbits - (1 - (f.bias : ℤ)) = quantum f m e - qmin f := by rw [qmin]; ring
    rw [hs, patOf]
    split_ifs with h
    · rw [hn.resolve_right (by omega)]
      simp
    · rfl
  unfold Fmt.round
  simp only [hq, hpat]
  unfold packed signOf
  by_cases hover : f.top < patOf f r neg m e
  · simp only [gt_iff_lt, if_pos hover]
    cases r <;> rfl
  · simp only [gt_iff_lt, if_neg hover]

theorem ofFin_eq_round (hm : m ≠ 0) : f.ofFin r neg m e = f.round r neg m e := if_neg hm

/-- The flags past the range: OF and NX [03 R48]. -/
theorem round_snd_overflow (hm : m ≠ 0) (h : f.top < patOf f r neg m e) : (f.round r neg m e).2 = 5 := by
  rw [round_eq hm, if_pos h]

/-- The flags within the range: UF and NX only, and NX unless the rounding was exact [03 R52]. -/
theorem round_snd_finite (hm : m ≠ 0) (h : ¬ f.top < patOf f r neg m e) : (f.round r neg m e).2.getLsbD 2 = false ∧
    ((f.round r neg m e).2.getLsbD 0 = true ↔ (roundAt r neg m e (quantum f m e)).2 = false) := by
  rw [round_eq hm, if_neg h]
  dsimp only
  generalize (roundAt r neg m e (quantum f m e)).2 = exact
  generalize f.isTiny r neg m e = tiny
  revert exact tiny
  decide

variable (hf : Good f)
include hf

theorem picks_signed (hm : m ≠ 0) : signed neg ((m : ℚ) * 2 ^ e) ≠ 0 ∧
    Picks r (decide (signed neg ((m : ℚ) * 2 ^ e) < 0)) (mag ℚ f) |signed neg ((m : ℚ) * 2 ^ e)| (patOf f r neg m e) := by
  have hpos : (0 : ℚ) < m * 2 ^ e := by positivity
  rw [decide_signed_lt hpos, ← abs_ne_zero, abs_signed, abs_of_pos hpos]
  exact ⟨hpos.ne', patOf_picks ℚ hf.mbits_pos hm r neg⟩

/-- A number other than 0 is rounded into the format as its mode asks [03 R46, R48]. -/
theorem roundedInto_round (hm : m ≠ 0) : roundedInto f r (signed neg (m * 2 ^ e)) (f.round r neg m e).1 := by
  obtain ⟨hne, hpicks⟩ := picks_signed (r := r) (neg := neg) (e := e) hf hm
  rw [round_eq hm]
  have := roundedInto_packed hf hne hpicks
  rwa [decide_signed_lt (by positivity)] at this

theorem overflows_round (hm : m ≠ 0) : overflows f r (signed neg (m * 2 ^ e)) ↔ f.top < patOf f r neg m e :=
  overflows_iff hf (picks_signed (r := r) hf hm).1 (picks_signed hf hm).2

/-- Within the range the result stands for the picked number. -/
theorem ratOf_round (hm : m ≠ 0) (h : patOf f r neg m e ≤ f.top) :
    ratOf (f.val (f.round r neg m e).1) = some (signed neg ((roundAt r neg m e (quantum f m e)).1 * 2 ^ quantum f m e)) := by
  rw [round_eq hm, packed_of_le f r neg h, ratOf_val_signOf hf h, mag_patOf ℚ hm]

end Round

end Rounding
end

section
/-! ### Rounding and conversion [03 R46-R50, R52; 05 R90, R91] -/

namespace Rounding
open Sys2Proof Sys2Proof.Machine Sys2Proof.Claims

/-- Rounding into a format is the mode's, with R48's table past the range and NX exactly for a changed number. -/
theorem roundingIsCorrect_holds : roundingIsCorrect := by
  intro f hmem r neg m e x hm hx
  have hf := good_of_mem hmem
  rw [ratOf_fin, Option.some.injEq] at hx
  subst hx
  rw [ofFin_eq_round hm, overflows_round hf hm]
  refine ⟨roundedInto_round hf hm, round_snd_overflow hm, fun ho => ?_⟩
  obtain ⟨hof, hnx⟩ := round_snd_finite hm ho
  refine ⟨hof, ?_⟩
  have hpos : (0 : ℚ) < 2 ^ quantum f m e := by positivity
  rw [hnx, ratOf_round hf hm (not_lt.1 ho), Ne, Option.some.injEq, signed_inj, ← Bool.not_eq_true,
    (roundAt_picks ℚ r neg m e (quantum f m e)).2, ← mul_left_inj' hpos.ne', mul_assoc, ← zpow_add₀ two_ne_zero, sub_add_cancel]

/-! #### FCVT into a float format -/

/-- The type of a float suffix is one of the six formats. -/
theorem cvtTy_float {t : CvtFmt} {f : Fmt} (h : cvtFloat t = some f) : cvtTy t = .flt f ∧ f ∈ formats := by
  cases t <;> simp [cvtFloat] at h <;> subst h <;> exact ⟨rfl, by simp [formats]⟩

theorem toNat_ofNat_lt {p w : ℕ} (hw : w ≤ 32) (hp : p < 2 ^ w) : (BitVec.ofNat 32 p).toNat = p := by
  rw [BitVec.toNat_ofNat, Nat.mod_eq_of_lt (hp.trans_le (Nat.pow_le_pow_right two_pos hw))]

theorem round_lt {f : Fmt} (hf : Good f) {m : ℕ} (hm : m ≠ 0) (r : Rnd) (neg : Bool) (e : ℤ) : (f.round r neg m e).1 < 2 ^ f.width := by
  rw [round_eq hm]
  exact packed_lt hf r neg _

/-- A number delivered into a format. -/
theorem deliver_roundedInto {f : Fmt} (hf : Good f) {r : Rnd} {v : Val} {x : ℚ} (hv : ratOf v = some x) (hx : x ≠ 0) :
    roundedInto f r x (f.deliver r v).1 ∧ (f.deliver r v).1 < 2 ^ f.width := by
  cases v with
  | nan => cases hv
  | inf => cases hv
  | fin neg m e =>
    rw [ratOf_fin, Option.some.injEq] at hv
    subst hv
    have hm : m ≠ 0 := by rintro rfl; simp [signed] at hx
    rw [Fmt.deliver, ofFin_eq_round hm]
    exact ⟨roundedInto_round hf hm, round_lt hf hm r neg e⟩

/-- A number delivered into a register. -/
theorem pat32_roundedInto {f : Fmt} (hf : Good f) {r : Rnd} {v : Val} {x : ℚ} (hv : ratOf v = some x) (hx : x ≠ 0) :
    roundedInto f r x (pat32 (f.deliver r v)).1.toNat := by
  obtain ⟨h1, h2⟩ := deliver_roundedInto hf (r := r) hv hx
  rwa [pat32, toNat_ofNat_lt hf.width_le h2]

/-- A zero delivered into a format keeps its sign. -/
theorem deliver_zero {f : Fmt} {r : Rnd} {v : Val} (hv : ratOf v = some 0) : f.deliver r v = (f.zero v.neg, 0) := by
  cases v with
  | nan => cases hv
  | inf => cases hv
  | fin neg m e =>
    rw [ratOf_fin, Option.some.injEq, signed_eq_zero] at hv
    have hm : m = 0 := by simpa [zpow_ne_zero] using hv
    rw [Fmt.deliver, Fmt.ofFin, if_pos hm]
    rfl

/-! #### FCVT into an integer -/

/-- The type of an integer suffix, with its range. -/
theorem cvtTy_range {t : CvtFmt} {lo hi : ℤ} (h : cvtRange t = some (lo, hi)) :
    ∃ s, cvtTy t = .int s 32 ∧ lo = (if s then -(2 ^ (32 - 1)) else 0) ∧ hi = (if s then 2 ^ (32 - 1) - 1 else 2 ^ 32 - 1) := by
  cases t <;> simp [cvtRange] at h <;> obtain ⟨rfl, rfl⟩ := h
  · exact ⟨true, rfl, rfl, rfl⟩
  · exact ⟨false, rfl, rfl, rfl⟩

theorem ofNat_emod (n : ℤ) : BitVec.ofNat 32 (n % 2 ^ 32).toNat = BitVec.ofInt 32 n := by
  apply BitVec.eq_of_toNat_eq
  rw [BitVec.toNat_ofNat, BitVec.toNat_ofInt]
  omega

/-- A value converted into an integer suffix. -/
theorem convert_range {t : CvtFmt} {lo hi : ℤ} (h : cvtRange t = some (lo, hi)) (r : Rnd) (v : Val) :
    pat32 ((cvtTy t).convert r v) = (BitVec.ofInt 32 (toIntRange lo hi r v).1, (toIntRange lo hi r v).2) := by
  obtain ⟨s, ht, rfl, rfl⟩ := cvtTy_range h
  rw [ht]
  simp only [ElTy.convert, pat32, ofNat_emod]

theorem whole_iff (z : ℚ) : Whole z ↔ ∃ k : ℕ, True ∧ |z| = k := by
  constructor
  · rintro ⟨n, rfl⟩
    exact ⟨n.natAbs, trivial, by rw [Nat.cast_natAbs]; push_cast; rfl⟩
  · rintro ⟨k, -, h⟩
    rcases abs_eq_abs.1 (h.trans (Nat.abs_cast k).symm) with rfl | rfl
    · exact ⟨k, by simp⟩
    · exact ⟨-k, by simp⟩

/-- An integer with the sign of a number: what `roundInt` gives. -/
theorem roundInt_spec (r : Rnd) (neg : Bool) (m : ℕ) (e : ℤ) : roundedToWhole r (signed neg (m * 2 ^ e)) (roundInt r neg m e).1 ∧
    ((roundInt r neg m e).2 = true ↔ ((roundInt r neg m e).1 : ℚ) = signed neg (m * 2 ^ e)) := by
  obtain ⟨hp, hex⟩ := roundAt_picks ℚ r neg m e 0
  rw [sub_zero] at hp hex
  have hval : ((roundInt r neg m e).1 : ℚ) = signed neg (roundAt r neg m e 0).1 := by cases neg <;> simp [roundInt, signed]
  have heven : (roundInt r neg m e).1 % 2 = 0 ↔ (roundAt r neg m e 0).1 % 2 = 0 := by cases neg <;> simp [roundInt] <;> omega
  have h2 : (roundInt r neg m e).2 = (roundAt r neg m e 0).2 := rfl
  rw [h2, hex, hval, signed_inj]
  refine ⟨?_, Iff.rfl⟩
  unfold roundedToWhole
  rw [hval, heven]
  obtain ⟨hp', hsign⟩ : Picks r (decide (signed neg ((m : ℚ) * 2 ^ e) < 0)) (fun n : ℕ => (n : ℚ)) |signed neg ((m : ℚ) * 2 ^ e)|
        (roundAt r neg m e 0).1 ∧
      signed (decide (signed neg ((m : ℚ) * 2 ^ e) < 0)) ((roundAt r neg m e 0).1 : ℚ) = signed neg (roundAt r neg m e 0).1 := by
    rcases Nat.eq_zero_or_pos m with rfl | hm
    · have h0 := hp.index_eq strictMono_natCast (j := 0) (by simp)
      rw [h0]
      exact ⟨Picks.of_eq strictMono_natCast (by simp [signed]), by simp [signed]⟩
    · have hpos : (0 : ℚ) < m * 2 ^ e := by positivity
      rw [decide_signed_lt hpos, abs_signed, abs_of_pos hpos]
      exact ⟨hp, rfl⟩
  have h1 := roundsTo_of_picks strictMono_natCast Nat.cast_zero whole_iff hp' trivial
  have h2 := tieEven_of_picks strictMono_natCast Nat.cast_zero whole_iff hp'
  rw [hsign] at h1 h2
  exact ⟨h1, h2⟩

/-! #### FCVT from an integer -/

theorem ratOf_intVal (n : ℤ) : ratOf (intVal n) = some (n : ℚ) := by
  rw [intVal, ratOf_fin, zpow_zero, mul_one, Nat.cast_natAbs, Int.cast_abs]
  have := signed_abs (n : ℚ)
  rw [show decide ((n : ℚ) < 0) = decide (n < 0) by simp] at this
  rw [this]

/-- An integer suffix reads the register as its integer. -/
theorem cvtTy_val {t : CvtFmt} (h : (cvtRange t).isSome = true) (a : W32) :
    (cvtTy t).val (a.toNat % 2 ^ (cvtTy t).width) = intVal (cvtInt t a) ∧ BitVec.ofInt 32 (cvtInt t a) = a := by
  have hlt := a.isLt
  cases t <;> simp [cvtRange] at h
  · simp only [cvtTy, ElTy.val, ElTy.width, cvtInt, if_true, Nat.mod_eq_of_lt hlt, true_and, BitVec.ofInt_toInt, and_true]
    congr 1
    rw [BitVec.toInt_eq_toNat_cond]
    split_ifs <;> omega
  · simp [cvtTy, ElTy.val, ElTy.width, cvtInt, Nat.mod_eq_of_lt hlt]

theorem roundInt_intVal (r : Rnd) (n : ℤ) : roundInt r (decide (n < 0)) n.natAbs 0 = (n, true) := by
  simp only [roundInt, roundAt, le_refl, if_true, sub_self, Int.toNat_zero, pow_zero, mul_one, Prod.mk.injEq, and_true]
  split_ifs with h <;> simp at h <;> omega

/-! #### FCVT -/

/-- FCVT of a number into an integer: rounded, the nearest end with NV outside the range, and NX for a changed number [03 R50]. -/
theorem toIntRange_fin (lo hi : ℤ) (hle : lo ≤ hi) (r : Rnd) {v : Val} {x : ℚ} (hv : ratOf v = some x) : ∃ n : ℤ, roundedToWhole r x n ∧
    (n < lo → toIntRange lo hi r v = (lo, 16)) ∧ (hi < n → toIntRange lo hi r v = (hi, 16)) ∧
    (lo ≤ n → n ≤ hi → toIntRange lo hi r v = (n, if (n : ℚ) = x then 0 else 1)) := by
  cases v with
  | nan => cases hv
  | inf => cases hv
  | fin neg m e =>
    rw [ratOf_fin, Option.some.injEq] at hv
    subst hv
    obtain ⟨h1, h2⟩ := roundInt_spec r neg m e
    refine ⟨_, h1, fun h => ?_, fun h => ?_, fun h h' => ?_⟩
    · simp only [toIntRange, if_pos h, flagNV]
    · simp only [toIntRange, if_neg (show ¬ (roundInt r neg m e).1 < lo by omega), gt_iff_lt, if_pos h, flagNV]
    · simp only [toIntRange, if_neg (not_lt.2 h), gt_iff_lt, if_neg (not_lt.2 h'), ← h2]
      cases (roundInt r neg m e).2 <;> rfl

theorem toIntRange_intVal (lo hi : ℤ) (r : Rnd) (n : ℤ) :
    toIntRange lo hi r (intVal n) = if n < lo then (lo, 16) else if hi < n then (hi, 16) else (n, 0) := by
  simp only [intVal, toIntRange, roundInt_intVal]
  rfl

theorem fcvt_from_float {src : CvtFmt} {f : Fmt} (h : cvtFloat src = some f) (dst : CvtFmt) (r : Rnd) (a : W32) :
    fcvt src dst r a = pat32 ((cvtTy dst).convert r (f.val (a.toNat % 2 ^ f.width))) := by
  rw [fcvt, (cvtTy_float h).1]
  rfl

theorem fcvt_from_int {src : CvtFmt} (h : (cvtRange src).isSome = true) (dst : CvtFmt) (r : Rnd) (a : W32) :
    fcvt src dst r a = pat32 ((cvtTy dst).convert r (intVal (cvtInt src a))) := by
  rw [fcvt, (cvtTy_val h a).1]

theorem convert_float {dst : CvtFmt} {g : Fmt} (h : cvtFloat dst = some g) (r : Rnd) (v : Val) : (cvtTy dst).convert r v = g.deliver r v := by
  rw [(cvtTy_float h).1]
  rfl

/-- FCVT gives the values of R49, R50, R90 and R91. -/
theorem conversionValues_holds : conversionValues := by
  refine fun src dst r a _ => ⟨fun f g v hf hg hv => ?_, fun f lo hi v hf hr hv => ?_, fun g hs hg => ?_, fun lo hi hs hr => ?_⟩
  · rw [fcvt_from_float hf, convert_float hg, ← hv]
    have hgood := good_of_mem (cvtTy_float hg).2
    refine ⟨fun x hx => pat32_roundedInto hgood hx, fun hx => ?_, ?_, ?_⟩
    · rw [deliver_zero hx, Fmt.zero, Fmt.signBit]
      rfl
    · rintro n rfl
      cases n <;> cases hi : g.inf <;> simp [Fmt.deliver, pat32, Fmt.infPat, Fmt.signBit, hi, flagIf, flagNV, Nat.add_comm]
    · rintro sig rfl
      cases sig <;> cases hn : g.nan <;> simp [Fmt.deliver, pat32, hn, flagIf, flagNV]
  · rw [fcvt_from_float hf, convert_range hr, ← hv]
    have hle : lo ≤ hi := by obtain ⟨s, -, rfl, rfl⟩ := cvtTy_range hr; cases s <;> simp
    refine ⟨fun x hx => ?_, ?_, ?_⟩
    · obtain ⟨n, h1, h2, h3, h4⟩ := toIntRange_fin lo hi hle r hx
      exact ⟨n, h1, fun h => by rw [h2 h], fun h => by rw [h3 h], fun h h' => by rw [h4 h h']⟩
    · rintro n rfl
      rfl
    · rintro sig rfl
      rfl
  · rw [fcvt_from_int hs, convert_float hg]
    refine ⟨fun h0 => ?_, fun h0 => pat32_roundedInto (good_of_mem (cvtTy_float hg).2) (ratOf_intVal _) (by exact_mod_cast h0)⟩
    rw [h0]
    rfl
  · rw [fcvt_from_int hs, convert_range hr, toIntRange_intVal]
    split_ifs
    · rfl
    · rfl
    · rw [(cvtTy_val hs a).2]

end Rounding

namespace Sys2Proof.Proofs

/-- Settles O6: `roundAt` picks from the naturals what its mode asks for, and at a format's spacing that is the mode's pick from
the format's magnitudes, a grid whose index is the pattern. -/
theorem roundingIsCorrect : Obligations.RoundingIsCorrect :=
  ⟨Rounding.roundingIsCorrect_holds, Rounding.conversionValues_holds⟩

end Sys2Proof.Proofs
end

section
/-! ### Float arithmetic [05 R81, R83; 03 R46-R48] -/

namespace Rounding
open Sys2Proof Sys2Proof.Machine Sys2Proof.Claims

theorem good32 : Good Fmt.f32 := good_of_mem (by simp [formats])

theorem ratOf_eq_some {v : Val} {x : ℚ} (h : ratOf v = some x) : ∃ neg m e, v = .fin neg m e ∧ x = signed neg (m * 2 ^ e) := by
  cases v with
  | nan => cases h
  | inf => cases h
  | fin neg m e => exact ⟨neg, m, e, rfl, (Option.some.inj ((ratOf_fin neg m e).symm.trans h)).symm⟩

/-- An integer mantissa with its sign apart. -/
theorem signed_natAbs (n : ℤ) (e : ℤ) : signed (decide (n < 0)) ((n.natAbs : ℚ) * 2 ^ e) = n * 2 ^ e := by
  by_cases h : n < 0
  · simp [signed, h, Nat.cast_natAbs, abs_of_neg h]
  · simp [signed, h, Nat.cast_natAbs, abs_of_nonneg (not_lt.1 h)]

/-- The pattern stands for a number rounded to nearest: a zero for 0. -/
def Rounds (f : Fmt) (x : ℚ) (p : ℕ) : Prop := (x ≠ 0 → roundedInto f .rn x p) ∧ (x = 0 → ratOf (f.val p) = some 0)

theorem zero_lt {f : Fmt} (neg : Bool) : f.zero neg < 2 ^ f.width := by
  rw [Fmt.zero, Fmt.width, Nat.add_assoc, pow_add, pow_one, ← Fmt.signBit]
  have : 0 < f.signBit := by unfold Fmt.signBit; positivity
  split_ifs <;> omega

/-- A zero of either sign is the number 0. -/
theorem ratOf_zero {f : Fmt} (hf : Good f) (neg : Bool) : ratOf (f.val (f.zero neg)) = some 0 := by
  have := ratOf_val_signOf hf (Nat.zero_le f.top) neg
  rw [mag_zero, zero_add] at this
  rw [Fmt.zero, ← signOf, this]
  cases neg <;> simp [signed]

theorem ofInt_rounds {f : Fmt} (hf : Good f) (n e : ℤ) : Rounds f (n * 2 ^ e) (f.ofInt .rn n e).1 ∧ (f.ofInt .rn n e).1 < 2 ^ f.width := by
  unfold Fmt.ofInt
  split_ifs with hn
  · subst hn
    exact ⟨⟨fun h => absurd (by simp) h, fun _ => ratOf_zero hf (Rnd.rn == .rd)⟩, zero_lt (f := f) (Rnd.rn == .rd)⟩
  · have hm : n.natAbs ≠ 0 := Int.natAbs_ne_zero.2 hn
    have hx : (n : ℚ) * 2 ^ e ≠ 0 := mul_ne_zero (by exact_mod_cast hn) (zpow_ne_zero _ two_ne_zero)
    refine ⟨⟨fun _ => ?_, fun h => absurd h hx⟩, round_lt hf hm _ _ _⟩
    rw [← signed_natAbs]
    exact roundedInto_round hf hm

theorem ofFin_rounds {f : Fmt} (hf : Good f) (neg : Bool) (m : ℕ) (e : ℤ) :
    Rounds f (signed neg (m * 2 ^ e)) (f.ofFin .rn neg m e).1 ∧ (f.ofFin .rn neg m e).1 < 2 ^ f.width := by
  unfold Fmt.ofFin
  split_ifs with hm
  · subst hm
    exact ⟨⟨fun h => absurd (by simp [signed]) h, fun _ => ratOf_zero hf _⟩, zero_lt _⟩
  · refine ⟨⟨fun _ => roundedInto_round hf hm, fun h => ?_⟩, round_lt hf hm _ _ _⟩
    rw [signed_eq_zero] at h
    exact absurd h (by positivity)

/-- A mantissa brought to a smaller exponent keeps its number. -/
theorem scaled_mul (neg : Bool) (m : ℕ) {e base : ℤ} (h : base ≤ e) : (scaled neg m e base : ℚ) * 2 ^ base = signed neg (m * 2 ^ e) := by
  have hz : (2 : ℚ) ^ (e - base).toNat * 2 ^ base = 2 ^ e := by
    rw [← zpow_natCast, ← zpow_add₀ two_ne_zero, Int.toNat_of_nonneg (by omega), sub_add_cancel]
  cases neg <;> simp [scaled, signed, mul_assoc, hz]

theorem addVals_rounds {f : Fmt} (hf : Good f) {a b : Val} {x y : ℚ} (ha : ratOf a = some x) (hb : ratOf b = some y) :
    Rounds f (x + y) (addVals f a b).1 ∧ (addVals f a b).1 < 2 ^ f.width := by
  obtain ⟨n1, m1, e1, rfl, rfl⟩ := ratOf_eq_some ha
  obtain ⟨n2, m2, e2, rfl, rfl⟩ := ratOf_eq_some hb
  unfold addVals
  dsimp only
  split_ifs with h
  · obtain ⟨rfl, rfl⟩ := h
    exact ⟨⟨fun h => absurd (by simp [signed]) h, fun _ => ratOf_zero hf _⟩, zero_lt _⟩
  · have := ofInt_rounds hf (scaled n1 m1 e1 (min e1 e2) + scaled n2 m2 e2 (min e1 e2)) (min e1 e2)
    rwa [Int.cast_add, add_mul, scaled_mul _ _ (min_le_left _ _), scaled_mul _ _ (min_le_right _ _)] at this

theorem signed_mul (a b : Bool) (x y : ℚ) : signed a x * signed b y = signed (a != b) (x * y) := by
  cases a <;> cases b <;> simp [signed]

theorem ratOf_mulVals {a b : Val} {x y : ℚ} (ha : ratOf a = some x) (hb : ratOf b = some y) : ratOf (mulVals a b) = some (x * y) := by
  obtain ⟨n1, m1, e1, rfl, rfl⟩ := ratOf_eq_some ha
  obtain ⟨n2, m2, e2, rfl, rfl⟩ := ratOf_eq_some hb
  rw [mulVals, ratOf_fin, signed_mul, zpow_add₀ two_ne_zero]
  congr 2
  push_cast
  ring

theorem ratOf_negVal {a : Val} {x : ℚ} (ha : ratOf a = some x) : ratOf (negVal a) = some (-x) := by
  obtain ⟨n, m, e, rfl, rfl⟩ := ratOf_eq_some ha
  rw [negVal, ratOf_fin]
  cases n <;> simp [signed]

/-- The pattern of a register after a rounding. -/
theorem Rounds.word {x : ℚ} {p : ℕ} (h : Rounds Fmt.f32 x p ∧ p < 2 ^ Fmt.f32.width) : Rounds Fmt.f32 x (BitVec.ofNat 32 p).toNat := by
  rw [toNat_ofNat_lt (by decide) h.2]
  exact h.1

theorem fadd_rounds {a b : W32} {x y : ℚ} (ha : ratF32 a = some x) (hb : ratF32 b = some y) : Rounds Fmt.f32 (x + y) (fadd a b).1.toNat :=
  Rounds.word (addVals_rounds good32 ha hb)

theorem fsub_rounds {a b : W32} {x y : ℚ} (ha : ratF32 a = some x) (hb : ratF32 b = some y) : Rounds Fmt.f32 (x - y) (fsub a b).1.toNat := by
  rw [sub_eq_add_neg]
  exact Rounds.word (addVals_rounds good32 ha (ratOf_negVal hb))

theorem fmul_rounds {a b : W32} {x y : ℚ} (ha : ratF32 a = some x) (hb : ratF32 b = some y) : Rounds Fmt.f32 (x * y) (fmul a b).1.toNat := by
  obtain ⟨n, m, e, hv, hx⟩ := ratOf_eq_some (ratOf_mulVals ha hb)
  rw [fmul, hv, hx]
  exact Rounds.word (ofFin_rounds good32 n m e)

theorem ffma_rounds {a b c : W32} {x y z : ℚ} (ha : ratF32 a = some x) (hb : ratF32 b = some y) (hc : ratF32 c = some z) :
    Rounds Fmt.f32 (x * y + z) (ffma a b c).1.toNat := by
  have hm := ratOf_mulVals ha hb
  obtain ⟨n, m, e, hv, hx⟩ := ratOf_eq_some hm
  have := addVals_rounds good32 (hv ▸ hm) hc
  rw [ffma, hv]
  exact Rounds.word this

/-- Flags leave the g registers. -/
theorem rg_raiseFlags (s : State) (ex : W32) (fl : LaneId → W32) (l : LaneId) (d : GReg) :
    ((s.raiseFlags ex fl).lane l).rg d = (s.lane l).rg d := by
  simp only [State.raiseFlags, State.lane, State.writeLanes_now, Dev.onFocus_focus, Strand.lane_onLanes]
  split_ifs <;> rfl

/-- An F-pipe word without an enabled flag writes its result in every executing lane [05 R80]. -/
theorem fpG_next {h : Hdr} {d : GReg} {s : State} {f : Lane → W32 × W32} (hn : noFpTrap s h fun x => (f x).2) :
    ∃ t, fpG h d s f = .next t ∧ ∀ l, s.runsIn h l → (t.lane l).rg d = (f (s.src l)).1 := by
  rcases fpWord_cases h s f fun x v => x.wg d v with ⟨-, he⟩ | ⟨⟨l, hl, hne⟩, -⟩
  · refine ⟨_, he, fun l hl => ?_⟩
    have hl' : hasLane (s.exec h) l = true := hl
    rw [rg_raiseFlags, State.lane_writeLanes, if_pos hl', Lane.rg_wg_same]
    rfl
  · exact absurd (hn l hl) hne

/-- The six words round their exact result once. -/
theorem floatArithmeticIsNearest_holds : floatArithmeticIsNearest := by
  intro i s h d f w he hw hn
  have hexec : exec i s = fpG h d s (w s) ∧ ∀ x r, f s x = some r → Rounds Fmt.f32 r (w s x).1.toNat := by
    unfold exactFp at he
    split at he
    all_goals
      simp only [Option.some.injEq, Prod.mk.injEq, reduceCtorEq] at he
    all_goals
      obtain ⟨rfl, rfl, rfl⟩ := he
      simp only [fpRes, Option.some.injEq, Prod.mk.injEq, true_and] at hw
      subst hw
      refine ⟨rfl, fun x r hr => ?_⟩
      simp only [Option.bind_eq_some_iff, Option.map_eq_some_iff] at hr
    · obtain ⟨u, hu, v, hv, rfl⟩ := hr
      exact fadd_rounds hu hv
    · obtain ⟨u, hu, v, hv, rfl⟩ := hr
      exact fsub_rounds hu hv
    · obtain ⟨u, hu, v, hv, rfl⟩ := hr
      exact fmul_rounds hu hv
    · obtain ⟨u, hu, v, hv, z, hz, rfl⟩ := hr
      exact ffma_rounds hu hv hz
    · obtain ⟨u, hu, v, hv, rfl⟩ := hr
      exact fadd_rounds hu hv
    · obtain ⟨u, hu, v, hv, rfl⟩ := hr
      exact fmul_rounds hu hv
  obtain ⟨hex, hr⟩ := hexec
  obtain ⟨t, ht, hl⟩ := fpG_next (d := d) hn
  refine ⟨t, hex.trans ht, fun l x hl' hx => ?_⟩
  rw [hl l hl']
  obtain ⟨h1, h2⟩ := hr _ _ hx
  exact ⟨h1, h2⟩

end Rounding
end

section
/-! ### Selection, rounding to integers and classes [05 R82, R88, R89] -/

namespace Rounding
open Sys2Proof Sys2Proof.Machine Sys2Proof.Claims

/-! #### FP32 patterns -/

theorem signBit32 : Fmt.f32.signBit = 2 ^ 31 := rfl
theorem qmin32 : qmin Fmt.f32 = -149 := rfl

/-- The parts of a finite FP32 value. -/
theorem f32_fin {a : W32} {neg : Bool} {m : ℕ} {e : ℤ} (h : f32 a = .fin neg m e) : ∃ p ≤ Fmt.f32.top, p = a.toNat % 2 ^ 31 ∧
    neg = a.getLsbD 31 ∧ m < 2 ^ 24 ∧ -149 ≤ e ∧ mag ℚ Fmt.f32 p = m * 2 ^ e := by
  have hp := finite_of_val good32 h
  obtain ⟨d, j, hb⟩ := exists_inBlock Fmt.f32 (a.toNat % Fmt.f32.signBit)
  have hv := (val_fin good32 hp hb).symm.trans h
  simp only [Val.fin.injEq] at hv
  obtain ⟨h1, rfl, rfl⟩ := hv
  refine ⟨_, hp, rfl, ?_, hb.lt, by rw [qmin32]; omega, hb.mag_eq⟩
  rw [← h1, signBit32, BitVec.getLsbD, Nat.testBit_eq_decide_div_mod_eq]

/-- The value of an FP32 pattern by its fields [03 R41]. -/
theorem f32_eq (a : W32) : f32 a =
    if a.toNat / 2 ^ 23 % 2 ^ 8 = 255 then
      if a.toNat % 2 ^ 23 = 0 then .inf (a.getLsbD 31) else .nan (decide (a.toNat % 2 ^ 23 < 2 ^ 22))
    else if a.toNat / 2 ^ 23 % 2 ^ 8 = 0 then .fin (a.getLsbD 31) (a.toNat % 2 ^ 23) (-149)
    else .fin (a.getLsbD 31) (a.toNat % 2 ^ 23 + 2 ^ 23) ((a.toNat / 2 ^ 23 % 2 ^ 8 : ℕ) - 127 - 23) := by
  rw [BitVec.getLsbD, Nat.testBit_eq_decide_div_mod_eq]
  simp [f32, Fmt.val, Fmt.f32, Fmt.signBit]
  rfl

theorem mag_top32 : mag ℚ Fmt.f32 Fmt.f32.top = (2 ^ 24 - 1) * 2 ^ 104 := by
  have h : InBlock Fmt.f32 Fmt.f32.top 253 (2 ^ 24 - 1) := ⟨by decide, by decide, by decide⟩
  rw [h.mag_eq, qmin32]
  norm_num

/-- A number of the format rounds to its own pattern. -/
theorem patOf_of_mag {f : Fmt} (hf : Good f) {r : Rnd} {neg : Bool} {m k : ℕ} {e : ℤ} (hm : m ≠ 0) (hk : mag ℚ f k = m * 2 ^ e) :
    patOf f r neg m e = k := (patOf_picks ℚ hf.mbits_pos hm r neg).index_eq mag_strictMono hk

/-- The numbers of at most 24 bits at a spacing that FP32 has, up to the largest finite one. -/
theorem exists_mag32 {n : ℕ} {q : ℤ} (hn : n ≤ 2 ^ 24) (hq : -149 ≤ q) (htop : (n : ℚ) * 2 ^ q ≤ 2 ^ 127) :
    ∃ k ≤ Fmt.f32.top, mag ℚ Fmt.f32 k = n * 2 ^ q := by
  obtain ⟨k, hk⟩ := exists_mag (K := ℚ) Fmt.f32 n q hn hq
  refine ⟨k, ?_, hk⟩
  rw [← (mag_strictMono (K := ℚ)).le_iff_le, hk, mag_top32]
  exact htop.trans (by norm_num)

/-! #### FMIN and FMAX -/

theorem valLt_fin {a b : Val} {x y : ℚ} (ha : ratOf a = some x) (hb : ratOf b = some y) : valLt a b = decide (x < y) := by
  obtain ⟨n1, m1, e1, rfl, rfl⟩ := ratOf_eq_some ha
  obtain ⟨n2, m2, e2, rfl, rfl⟩ := ratOf_eq_some hb
  have hpos : (0 : ℚ) < 2 ^ min e1 e2 := by positivity
  rw [valLt, ← scaled_mul n1 m1 (min_le_left e1 e2), ← scaled_mul n2 m2 (min_le_right e1 e2)]
  simp only [mul_lt_mul_iff_left₀ hpos, Int.cast_lt]

theorem valLt_self (v : Val) : valLt v v = false := by
  cases v with
  | nan => rfl
  | inf n => cases n <;> rfl
  | fin neg m e => rw [valLt_fin (ratOf_fin neg m e) (ratOf_fin neg m e)]; simp

theorem isNan_of_rat {v : Val} {x : ℚ} (h : ratOf v = some x) : v.isNan = false := by
  obtain ⟨n, m, e, rfl, -⟩ := ratOf_eq_some h
  rfl

@[simp] theorem isNan_nan (s : Bool) : (Val.nan s).isNan = true := rfl
@[simp] theorem isSnan_nan (s : Bool) : (Val.nan s).isSnan = s := rfl

theorem isSnan_of_isNan {v : Val} (h : v.isNan = false) : v.isSnan = false := by
  cases v with
  | nan => cases h
  | inf => rfl
  | fin => rfl

/-- FMIN and FMAX of two numbers or infinities. -/
theorem fminmax_num {a b : W32} (isMax : Bool) (ha : (f32 a).isNan = false) (hb : (f32 b).isNan = false) : fminmax isMax a b =
    (if valLt (f32 a) (f32 b) || (valEq (f32 a) (f32 b) && (f32 a).neg && !(f32 b).neg) then (if isMax then b else a)
     else if valLt (f32 b) (f32 a) || (valEq (f32 a) (f32 b) && (f32 b).neg && !(f32 a).neg) then (if isMax then a else b) else a, 0) := by
  simp [fminmax, ha, hb, isSnan_of_isNan, flagIf]

/-- Of two that are in order, FMIN gives the first and FMAX the second. -/
theorem fminmax_of_lt {a b : W32} (isMax : Bool) (ha : (f32 a).isNan = false) (hb : (f32 b).isNan = false) (h : valLt (f32 a) (f32 b) = true)
    (h' : valLt (f32 b) (f32 a) = false) : fminmax isMax a b = (if isMax then b else a, 0) ∧ fminmax isMax b a = (if isMax then b else a, 0) := by
  constructor
  · rw [fminmax_num isMax ha hb, h]
    rfl
  · rw [fminmax_num isMax hb ha, valEq, h, h']
    simp

theorem fminmax_self {a : W32} (isMax : Bool) (ha : (f32 a).isNan = false) : fminmax isMax a a = (a, 0) := by
  rw [fminmax_num isMax ha ha, valLt_self]
  cases (f32 a).neg <;> simp

/-- The pattern of an infinity. -/
theorem eq_inf32 {a : W32} {n : Bool} (h : f32 a = .inf n) : a = inf32 n := by
  rw [f32_eq] at h
  split_ifs at h with h1 h2
  have hlt := a.isLt
  rw [Val.inf.injEq, BitVec.getLsbD, Nat.testBit_eq_decide_div_mod_eq] at h
  apply BitVec.eq_of_toNat_eq
  subst h
  unfold inf32
  split_ifs with hs <;> simp at hs ⊢ <;> omega

theorem notNan_cases {v : Val} (h : v.isNan = false) : (∃ n, v = .inf n) ∨ ∃ n m e, v = .fin n m e := by
  cases v with
  | nan => cases h
  | inf n => exact Or.inl ⟨n, rfl⟩
  | fin n m e => exact Or.inr ⟨n, m, e, rfl⟩

/-- A number or an infinity beside +∞, and beside -∞. -/
theorem fminmax_inf {a : W32} (ha : (f32 a).isNan = false) : fminmax false a 0x7F800000 = (a, 0) ∧ fminmax true a 0x7F800000 = (0x7F800000, 0) ∧
    fminmax false a 0xFF800000 = (0xFF800000, 0) ∧ fminmax true a 0xFF800000 = (a, 0) := by
  have hp : f32 0x7F800000 = .inf false := by decide
  have hn : f32 0xFF800000 = .inf true := by decide
  rcases notNan_cases ha with ⟨n, h⟩ | ⟨n, m, e, h⟩
  · obtain rfl := eq_inf32 h
    cases n <;> decide
  · have hup := fun isMax => (fminmax_of_lt isMax ha (b := 0x7F800000) (by rw [hp]; rfl) (by rw [h, hp]; rfl) (by rw [h, hp]; rfl)).1
    have hdown := fun isMax => (fminmax_of_lt isMax (a := 0xFF800000) (by rw [hn]; rfl) ha (by rw [h, hn]; rfl) (by rw [h, hn]; rfl)).2
    exact ⟨hup false, hup true, hdown false, hdown true⟩

theorem fminmax_nan {a b : W32} {sig : Bool} (isMax : Bool) (ha : f32 a = .nan sig) (hb : (f32 b).isNan = false) :
    fminmax isMax a b = (b, if sig then 16 else 0) ∧ fminmax isMax b a = (b, if sig then 16 else 0) := by
  simp [fminmax, ha, hb, isSnan_of_isNan hb, flagIf, flagNV]

theorem fminmax_nans {a b : W32} {s1 s2 : Bool} (isMax : Bool) (ha : f32 a = .nan s1) (hb : f32 b = .nan s2) :
    fminmax isMax a b = (0x7FC00000, if s1 || s2 then 16 else 0) := by
  simp only [fminmax, ha, hb, isNan_nan, isSnan_nan, and_self, if_true]
  rfl

/-! #### FRND -/

theorem getLsbD_pattern {p : ℕ} {neg : Bool} (hp : p ≤ Fmt.f32.top) : (BitVec.ofNat 32 (p + signOf Fmt.f32 neg)).getLsbD 31 = neg := by
  have hlt : Fmt.f32.top < 2 ^ 31 := by decide
  rw [BitVec.getLsbD, BitVec.toNat_ofNat, Nat.testBit_eq_decide_div_mod_eq, signOf, signBit32]
  cases neg <;> simp <;> omega

/-- FRND gives the integer that its mode asks for, which FP32 holds, with the operand's sign [05 R88]. -/
theorem frnd_spec (r : Rnd) {a : W32} {x : ℚ} (hx : ratF32 a = some x) : ∃ n : ℤ, roundedToWhole r x n ∧ ratF32 (frnd r a).1 = some (n : ℚ) ∧
    (frnd r a).1.getLsbD 31 = a.getLsbD 31 ∧ (frnd r a).2 = 0 := by
  obtain ⟨neg, m, e, hv, rfl⟩ := ratOf_eq_some hx
  obtain ⟨p, hp, hpa, hneg, hm, he, hmag⟩ := f32_fin hv
  obtain ⟨hw, -⟩ := roundInt_spec r neg m e
  refine ⟨_, hw, ?_⟩
  have hval : ((roundInt r neg m e).1 : ℚ) = signed neg (roundAt r neg m e 0).1 := by cases neg <;> simp [roundInt, signed]
  -- the rounded magnitude is a number of FP32
  obtain ⟨k, hk, hkn⟩ : ∃ k ≤ Fmt.f32.top, mag ℚ Fmt.f32 k = (roundAt r neg m e 0).1 := by
    rcases le_or_gt 0 e with he0 | he0
    · refine ⟨p, hp, ?_⟩
      rw [hmag, roundAt, if_pos he0, sub_zero]
      push_cast
      rw [← zpow_natCast, Int.toNat_of_nonneg he0]
    · have hle : (roundAt r neg m e 0).1 ≤ 2 ^ 24 := by
        refine (roundAt_picks ℚ r neg m e 0).1.index_le strictMono_natCast ?_
        have h1 : (2 : ℚ) ^ (e - 0) ≤ 1 := zpow_le_one_of_nonpos₀ one_le_two (by omega)
        have h2 : (m : ℚ) ≤ (2 ^ 24 : ℕ) := by exact_mod_cast hm.le
        calc (m : ℚ) * 2 ^ (e - 0) ≤ m * 1 := mul_le_mul_of_nonneg_left h1 (Nat.cast_nonneg m)
          _ ≤ _ := by rw [mul_one]; exact h2
      have hle' : ((roundAt r neg m e 0).1 : ℚ) ≤ 2 ^ 24 := by exact_mod_cast hle
      obtain ⟨k, hk, h⟩ := exists_mag32 (n := (roundAt r neg m e 0).1) (q := 0) hle (by norm_num)
        (by rw [zpow_zero, mul_one]; exact hle'.trans (by norm_num))
      exact ⟨k, hk, by rw [h, zpow_zero, mul_one]⟩
  have hpat : (Fmt.f32.ofFin .rn neg (roundAt r neg m e 0).1 0).1 = k + signOf Fmt.f32 neg := by
    rcases Nat.eq_zero_or_pos (roundAt r neg m e 0).1 with h0 | h0
    · have : k = 0 := (mag_strictMono (K := ℚ)).injective (hkn.trans (by rw [h0, Nat.cast_zero, mag_zero]))
      rw [h0, this, zero_add]
      rfl
    · rw [ofFin_eq_round h0.ne', round_eq h0.ne', patOf_of_mag good32 h0.ne' (by rw [hkn, zpow_zero, mul_one]), packed_of_le _ _ _ hk]
  have hv' : frnd r a = (BitVec.ofNat 32 (k + signOf Fmt.f32 neg), 0) := by rw [frnd, hv]; simp only [hpat]
  have hlt : k + signOf Fmt.f32 neg < 2 ^ 32 := by
    have : Fmt.f32.top < 2 ^ 31 := by decide
    rw [signOf, signBit32]
    split_ifs <;> omega
  rw [hv', getLsbD_pattern hk, hval, ratF32, f32, toNat_ofNat_lt le_rfl hlt, ratOf_val_signOf good32 hk, hkn]
  exact ⟨rfl, hneg, rfl⟩

/-! #### FCLASS -/

/-- Masking the exponent field leaves nothing exactly when the field is 0. -/
theorem and_exponent_eq_zero (a : W32) : a &&& 0x7F800000 = 0 ↔ a.toNat / 2 ^ 23 % 2 ^ 8 = 0 := by
  have hmask : ∀ i < 32, (0x7F800000 : W32).getLsbD i = decide (23 ≤ i ∧ i < 31) := by decide
  have hbit : ∀ i, (a.toNat / 2 ^ 23 % 2 ^ 8).testBit i = (decide (i < 8) && a.getLsbD (23 + i)) := fun i => by
    rw [Nat.testBit_mod_two_pow, Nat.testBit_div_two_pow, BitVec.getLsbD, Nat.add_comm]
  constructor
  · intro h
    refine Nat.eq_of_testBit_eq fun i => ?_
    rw [hbit, Nat.zero_testBit, Bool.and_eq_false_iff, decide_eq_false_iff_not]
    by_cases hi : i < 8
    · have : (a &&& 0x7F800000).getLsbD (23 + i) = false := by rw [h, BitVec.ofNat_eq_ofNat, BitVec.getLsbD_zero]
      rw [BitVec.getLsbD_and, hmask _ (by omega), decide_eq_true (by omega), Bool.and_true] at this
      exact Or.inr this
    · exact Or.inl hi
  · intro h
    refine BitVec.eq_of_getLsbD_eq fun i hi => ?_
    rw [BitVec.getLsbD_and, hmask i hi, BitVec.ofNat_eq_ofNat, BitVec.getLsbD_zero, Bool.and_eq_false_iff, decide_eq_false_iff_not]
    by_cases hr : 23 ≤ i ∧ i < 31
    · left
      have := hbit (i - 23)
      rw [h, Nat.zero_testBit, decide_eq_true (show i - 23 < 8 by omega), Nat.add_sub_cancel' hr.1] at this
      simpa using this.symm
    · exact Or.inr hr

/-- FCLASS sets the bit of the operand's class [05 R89]. -/
theorem fclass_spec (a : W32) : (fclass a).toNat = 2 ^ classOf a := by
  have hsub : (a &&& 0x7F800000 == 0) = decide (a.toNat / 2 ^ 23 % 2 ^ 8 = 0) := by
    rw [Bool.eq_iff_iff, beq_iff_eq, decide_eq_true_iff, and_exponent_eq_zero]
  unfold fclass classOf
  rw [f32_eq]
  simp only [hsub]
  by_cases hinf : a.toNat / 2 ^ 23 % 2 ^ 8 = 255
  · by_cases hm : a.toNat % 2 ^ 23 = 0
    · simp only [if_pos hinf, if_pos hm]
      cases a.getLsbD 31 <;> rfl
    · simp only [if_pos hinf, if_neg hm]
      by_cases hs : a.toNat % 2 ^ 23 < 2 ^ 22
      · simp only [decide_eq_true hs, if_pos hs]
        rfl
      · simp only [decide_eq_false hs, if_neg hs]
        rfl
  · by_cases hz : a.toNat / 2 ^ 23 % 2 ^ 8 = 0
    · by_cases hm : a.toNat % 2 ^ 23 = 0
      · simp only [if_neg hinf, if_pos hz, if_pos hm]
        cases a.getLsbD 31 <;> rfl
      · simp only [if_neg hinf, if_pos hz, if_neg hm, decide_eq_true hz]
        cases a.getLsbD 31 <;> rfl
    · simp only [if_neg hinf, if_neg hz, decide_eq_false hz]
      rw [if_neg (by positivity)]
      cases a.getLsbD 31 <;> rfl

/-! #### The statement -/

theorem fsign_num {f : W32 → W32} {a : W32} (h : (f32 a).isNan = false) : fsign f a = (f a, 0) := by
  rw [fsign, h]
  rfl

theorem fsign_nan {f : W32 → W32} {a : W32} {sig : Bool} (h : f32 a = .nan sig) : fsign f a = (0x7FC00000, if sig then 16 else 0) := by
  rw [fsign, h]
  rfl

theorem fminmax_lt {a b : W32} {x y : ℚ} (ha : ratF32 a = some x) (hb : ratF32 b = some y) (h : x < y) (isMax : Bool) :
    fminmax isMax a b = (if isMax then b else a, 0) ∧ fminmax isMax b a = (if isMax then b else a, 0) :=
  fminmax_of_lt isMax (isNan_of_rat ha) (isNan_of_rat hb) (by rw [valLt_fin ha hb]; exact decide_eq_true h)
    (by rw [valLt_fin hb ha]; exact decide_eq_false h.not_gt)

/-- FMIN and FMAX of an operand with itself. -/
theorem fminmax_same (isMax : Bool) (a : W32) :
    fminmax isMax a a = (if (f32 a).isNan then 0x7FC00000 else a, if (f32 a).isSnan then 16 else 0) := by
  cases hn : (f32 a).isNan with
  | false => rw [fminmax_self isMax hn, isSnan_of_isNan hn]; rfl
  | true =>
    obtain ⟨s, hs⟩ : ∃ s, f32 a = .nan s := by
      cases h : f32 a with
      | nan s => exact ⟨s, rfl⟩
      | inf n => rw [h] at hn; cases hn
      | fin n m e => rw [h] at hn; cases hn
    rw [fminmax_nans isMax hs hs, hs, Bool.or_self]
    rfl

theorem selectionValues_holds : selectionValues := by
  refine ⟨fun a b x y ha hb h => ?_, fun a => ?_, by decide, fun a ha => fminmax_inf ha, fun a b sig isMax ha hb => fminmax_nan isMax ha hb,
    fun a b s1 s2 isMax ha hb => fminmax_nans isMax ha hb, fun a f h => fsign_num h, fun a f sig h => fsign_nan h,
    fun r a x hx => frnd_spec r hx, fun r a n h => ?_, fun r a sig h => ?_, fclass_spec⟩
  · have hmin := fminmax_lt ha hb h false
    have hmax := fminmax_lt ha hb h true
    exact ⟨hmin.1, hmin.2, hmax.1, hmax.2⟩
  · exact ⟨fminmax_same false a, (fminmax_same true a).trans (fminmax_same false a).symm⟩
  · rw [frnd, h]
  · rw [frnd, h]
    rfl

end Rounding
end

section
/-! ### The window sum [03 R43, R56; 05 R93, R94] -/

namespace Rounding
open Sys2Proof Sys2Proof.Machine Sys2Proof.Claims

/-- Values and the numbers that they stand for. -/
def AreRats : List Val → List ℚ → Prop := List.Forall₂ fun v t => ratOf v = some t

theorem two_zpow_le_iff {a b : ℤ} : (2 : ℚ) ^ a ≤ 2 ^ b ↔ a ≤ b := zpow_le_zpow_iff_right₀ one_lt_two

theorem two_zpow_lt_iff {a b : ℤ} : (2 : ℚ) ^ a < 2 ^ b ↔ a < b := zpow_lt_zpow_iff_right₀ one_lt_two

/-- The leading exponent of a number other than 0. -/
theorem leadOf_bounds {neg : Bool} {m : ℕ} {e : ℤ} (hm : m ≠ 0) :
    (2 : ℚ) ^ leadOf m e ≤ |signed neg (m * 2 ^ e)| ∧ |signed neg ((m : ℚ) * 2 ^ e)| < 2 ^ (leadOf m e + 1) := by
  rw [abs_signed, abs_of_nonneg (by positivity)]
  exact log2_bounds ℚ hm e

theorem emaxOf_fin_none (n : Bool) (m : ℕ) (e : ℤ) {vs : List Val} (h : emaxOf vs = none) :
    emaxOf (.fin n m e :: vs) = if m = 0 then none else some (leadOf m e) := by simp only [emaxOf, h]

theorem emaxOf_fin_some (n : Bool) (m : ℕ) (e : ℤ) {vs : List Val} {x : ℤ} (h : emaxOf vs = some x) :
    emaxOf (.fin n m e :: vs) = if m = 0 then some x else some (max x (leadOf m e)) := by simp only [emaxOf, h]

/-- The largest leading exponent bounds every term, and some term reaches it; there is none when all are 0. -/
theorem emaxOf_spec {vs : List Val} {ts : List ℚ} (h : AreRats vs ts) : (emaxOf vs = none → ∀ t ∈ ts, t = 0) ∧
    ∀ E, emaxOf vs = some E → (∃ t ∈ ts, 2 ^ E ≤ |t|) ∧ ∀ t ∈ ts, |t| < 2 ^ (E + 1) := by
  induction h with
  | nil => exact ⟨fun _ t ht => by simp at ht, fun E hE => by simp [emaxOf] at hE⟩
  | @cons v t vs ts hv _ ih =>
    obtain ⟨neg, m, e, rfl, rfl⟩ := ratOf_eq_some hv
    obtain ⟨ih0, ih1⟩ := ih
    rcases Nat.eq_zero_or_pos m with rfl | hm
    · have hE : emaxOf (.fin neg 0 e :: vs) = emaxOf vs := by
        cases hvs : emaxOf vs with
        | none => exact emaxOf_fin_none neg 0 e hvs
        | some x => exact emaxOf_fin_some neg 0 e hvs
      have hz : signed neg (((0 : ℕ) : ℚ) * 2 ^ e) = 0 := by simp [signed]
      rw [hE, hz]
      refine ⟨fun h0 => List.forall_mem_cons.2 ⟨rfl, ih0 h0⟩, fun E h1 => ?_⟩
      obtain ⟨⟨t, ht, hle⟩, hlt⟩ := ih1 E h1
      exact ⟨⟨t, List.mem_cons_of_mem _ ht, hle⟩, List.forall_mem_cons.2 ⟨by rw [abs_zero]; positivity, hlt⟩⟩
    · obtain ⟨hlo, hhi⟩ := leadOf_bounds (neg := neg) (e := e) hm.ne'
      cases hvs : emaxOf vs with
      | none =>
        have hE : emaxOf (.fin neg m e :: vs) = some (leadOf m e) := (emaxOf_fin_none neg m e hvs).trans (if_neg hm.ne')
        rw [hE]
        refine ⟨fun h => (nomatch h), fun E h1 => ?_⟩
        obtain rfl := Option.some.inj h1
        refine ⟨⟨_, List.mem_cons_self, hlo⟩, List.forall_mem_cons.2 ⟨hhi, fun t ht => ?_⟩⟩
        rw [ih0 hvs t ht, abs_zero]
        positivity
      | some x =>
        have hE : emaxOf (.fin neg m e :: vs) = some (max x (leadOf m e)) := (emaxOf_fin_some neg m e hvs).trans (if_neg hm.ne')
        rw [hE]
        refine ⟨fun h => (nomatch h), fun E h1 => ?_⟩
        obtain rfl := Option.some.inj h1
        obtain ⟨⟨t, ht, hle⟩, hlt⟩ := ih1 x hvs
        have hup : ∀ {a : ℚ} {k : ℤ}, k ≤ max x (leadOf m e) → a < 2 ^ (k + 1) → a < 2 ^ (max x (leadOf m e) + 1) := fun hk ha =>
          ha.trans_le (two_zpow_le_iff.2 (by omega))
        refine ⟨?_, List.forall_mem_cons.2 ⟨hup (le_max_right _ _) hhi, fun t ht => hup (le_max_left _ _) (hlt t ht)⟩⟩
        rcases max_choice x (leadOf m e) with hc | hc <;> rw [hc]
        · exact ⟨t, List.mem_cons_of_mem _ ht, hle⟩
        · exact ⟨_, List.mem_cons_self, hlo⟩

/-- A term cut to a multiple of 2^q [03 R56]. -/
theorem truncTerm_cutTo {v : Val} {t : ℚ} (h : ratOf v = some t) (q : ℤ) : ((truncTerm q v).1 : ℚ) * 2 ^ q = cutTo (2 ^ q) t := by
  obtain ⟨neg, m, e, rfl, rfl⟩ := ratOf_eq_some h
  have hb := (picks_below (by simp) rfl).1 (roundAt_picks ℚ .rz neg m e q).1
  have hfloor : ⌊(m : ℚ) * 2 ^ (e - q)⌋ = ((roundAt .rz neg m e q).1 : ℤ) := by
    rw [Int.floor_eq_iff]
    refine ⟨by exact_mod_cast hb.1, ?_⟩
    have := hb.2 ((roundAt .rz neg m e q).1 + 1) (by omega)
    exact_mod_cast this
  have hdiv : (m : ℚ) * 2 ^ e / 2 ^ q = m * 2 ^ (e - q) := by rw [zpow_sub₀ two_ne_zero, mul_div_assoc]
  have hcut : (truncTerm q (.fin neg m e)).1 = if neg then -((roundAt .rz neg m e q).1 : ℤ) else (roundAt .rz neg m e q).1 := rfl
  rw [hcut, cutTo]
  rcases Nat.eq_zero_or_pos m with rfl | hm
  · have h0 : ((roundAt .rz neg 0 e q).1 : ℤ) = 0 := by rw [← hfloor]; simp
    rw [h0]
    simp [signed]
  · have hpos : (0 : ℚ) < m * 2 ^ e := by positivity
    cases neg with
    | true =>
      rw [signed_true, if_pos (show -((m : ℚ) * 2 ^ e) < 0 by linarith), neg_neg, hdiv, hfloor]
      simp
    | false =>
      rw [signed_false, if_neg (not_lt.2 hpos.le), hdiv, hfloor]
      simp

theorem sum_truncTerm {vs : List Val} {ts : List ℚ} (h : AreRats vs ts) (q : ℤ) :
    ((((vs.map (truncTerm q)).map Prod.fst).sum : ℤ) : ℚ) * 2 ^ q = (ts.map (cutTo (2 ^ q))).sum := by
  induction h with
  | nil => simp
  | cons hv _ ih => simp only [List.map_cons, List.sum_cons, Int.cast_add, add_mul, truncTerm_cutTo hv, ih]

theorem AreRats.any_eq_false {vs : List Val} {ts : List ℚ} (h : AreRats vs ts) {p : Val → Bool} (hp : ∀ n m e, p (.fin n m e) = false) :
    vs.any p = false := by
  induction h with
  | nil => rfl
  | cons hv _ ih =>
    obtain ⟨n, m, e, rfl, -⟩ := ratOf_eq_some hv
    rw [List.any_cons, hp, ih]
    rfl

/-- The window sum of finite terms: each cut at the window's end, and the sum rounded once [03 R56]. -/
theorem windowSum_gives {vs : List Val} {ts : List ℚ} (h : AreRats vs ts) : windowGives ts (windowSum vs).1 := by
  obtain ⟨hnone, hsome⟩ := emaxOf_spec h
  have hnan : vs.any Val.isNan = false := h.any_eq_false fun _ _ _ => rfl
  have hinf : ∀ s, (vs.any fun v => v == .inf s) = false := fun s => h.any_eq_false fun _ _ _ => by simp
  cases hE : emaxOf vs with
  | none =>
    have hw : (windowSum vs).1 = BitVec.ofNat 32 (Fmt.f32.zero (vs.all Val.neg)) := by simp [windowSum, windowSumIn, hnan, hinf, hE, pat32]
    have hz := hnone hE
    rw [hw]
    refine ⟨fun _ => ?_, fun emax ⟨t, ht, hle⟩ _ => ?_⟩
    · rw [ratF32, f32, toNat_ofNat_lt (by decide) (zero_lt _)]
      exact ratOf_zero good32 _
    · rw [hz t ht, abs_zero] at hle
      exact absurd hle (not_le.2 (by positivity))
  | some E =>
    obtain ⟨⟨t, ht, hle⟩, hlt⟩ := hsome E hE
    have hw : (windowSum vs).1 = BitVec.ofNat 32 (Fmt.f32.ofInt .rn ((vs.map (truncTerm (E - 27))).map Prod.fst).sum (E - 27)).1 := by
      simp [windowSum, windowSumIn, hnan, hinf, hE, pat32]
    rw [hw]
    refine ⟨fun hz => ?_, fun emax ⟨t', ht', hle'⟩ hlt' => ?_⟩
    · rw [hz t ht, abs_zero] at hle
      exact absurd hle (not_le.2 (by positivity))
    · obtain rfl : E = emax := by
        have h1 := two_zpow_lt_iff.1 (hle.trans_lt (hlt' t ht))
        have h2 := two_zpow_lt_iff.1 (hle'.trans_lt (hlt t' ht'))
        omega
      have := Rounds.word (ofInt_rounds good32 ((vs.map (truncTerm (E - 27))).map Prod.fst).sum (E - 27))
      rw [sum_truncTerm h] at this
      exact ⟨this.2, this.1⟩

/-! #### The packed float dot products and SCACC -/

/-- The product of two numbers is a term without NV. -/
theorem ratOf_term {a b : Val} {x y : ℚ} (ha : ratOf a = some x) (hb : ratOf b = some y) : ratOf (term a b).1 = some (x * y) := by
  have hm := ratOf_mulVals ha hb
  simp only [term, isNan_of_rat hm, Bool.false_eq_true, if_false]
  exact hm

/-- A float dot product of finite elements is the window sum of the addend and the products [05 R93]. -/
theorem dotFlt_gives {f : Fmt} {n : ℕ} {a b d : W32} {xs ys : ℕ → ℚ} {z : ℚ}
    (h : ∀ i, i < n → elementIn f a i = some (xs i) ∧ elementIn f b i = some (ys i)) (hd : ratF32 d = some z) :
    windowGives (z :: (List.range n).map fun i => xs i * ys i) (dotFlt f n a b d).1 := by
  refine windowSum_gives (List.Forall₂.cons hd ?_)
  rw [List.map_map, List.map_map, List.forall₂_map_left_iff, List.forall₂_map_right_iff, List.forall₂_same]
  intro i hi
  obtain ⟨hx, hy⟩ := h i (List.mem_range.1 hi)
  exact ratOf_term hx hy

/-- SCACC on finite operands and scales [05 R94]. -/
theorem scacc_gives {a b d : W32} {x z : ℚ} (ha : ratF32 a = some x) (hd : ratF32 d = some z) (h1 : b.toNat % 256 ≠ 255)
    (h2 : b.toNat / 256 % 256 ≠ 255) :
    windowGives [x * 2 ^ ((b.toNat % 256 : ℤ) - 127) * 2 ^ ((b.toNat / 256 % 256 : ℤ) - 127), z] (scacc a b d).1 := by
  obtain ⟨n, m, e, hv, rfl⟩ := ratOf_eq_some ha
  have hs : (scacc a b d).1 = (windowSum [.fin n m (e + (b.toNat % 256 : ℕ) - 127 + (b.toNat / 256 % 256 : ℕ) - 127), f32 d]).1 := by
    simp [scacc, scaledBy, hv, h1, h2]
  rw [hs]
  refine windowSum_gives (List.Forall₂.cons ?_ (List.Forall₂.cons hd List.Forall₂.nil))
  rw [ratOf_fin, show e + ((b.toNat % 256 : ℕ) : ℤ) - 127 + ((b.toNat / 256 % 256 : ℕ) : ℤ) - 127 =
    e + ((b.toNat % 256 : ℤ) - 127) + ((b.toNat / 256 % 256 : ℤ) - 127) by push_cast; ring, zpow_add₀ two_ne_zero, zpow_add₀ two_ne_zero]
  cases n <;> simp [signed] <;> ring

/-- SCACC with a scale that is a NaN [03 R43]. -/
theorem scacc_nan {a b d : W32} (h : b.toNat % 256 = 255 ∨ b.toNat / 256 % 256 = 255) :
    (scacc a b d).1 = 0x7FC00000 ∧ (scacc a b d).2.getLsbD 4 = true := by
  have hs : scacc a b d = (BitVec.ofNat 32 Fmt.f32.qnan,
      flagIf ((([.nan false, f32 d] : List Val).any fun v => v == .inf false) && ([.nan false, f32 d] : List Val).any fun v => v == .inf true) flagNV |||
        flagNV) := by
    simp only [scacc, scaledBy, if_pos h, windowSum, windowSumIn, List.any_cons, isNan_nan, Bool.true_or, if_true, pat32]
    rfl
  rw [hs]
  exact ⟨rfl, by simp [flagNV]⟩

end Rounding
end

section
/-! ### Packing and integer dot products [05 R92, R93] -/

namespace Rounding
open Sys2Proof Sys2Proof.Machine Sys2Proof.Claims

/-! #### PKBF and PKH -/

/-- A half of a packed register: the operand rounded, or a zero with its sign [05 R92]. -/
theorem deliver_half {f : Fmt} (hf : Good f) (hw : f.width = 16) {a : W32} {x : ℚ} (ha : ratF32 a = some x) : (f.deliver .rn (f32 a)).1 < 2 ^ 16 ∧
    (x ≠ 0 → roundedInto f .rn x (f.deliver .rn (f32 a)).1) ∧
    (x = 0 → (f.deliver .rn (f32 a)).1 = if a.getLsbD 31 then 2 ^ 15 else 0) := by
  by_cases hx : x = 0
  · subst hx
    obtain ⟨n, m, e, hv, -⟩ := ratOf_eq_some ha
    obtain ⟨-, -, -, hn, -⟩ := f32_fin hv
    have hs : f.signBit = 2 ^ 15 := by rw [Fmt.signBit]; congr 1; simp only [Fmt.width] at hw; omega
    have hz : (f.deliver .rn (f32 a)).1 = if a.getLsbD 31 then 2 ^ 15 else 0 := by
      rw [deliver_zero ha, hv, Fmt.zero, hs, ← hn]
      rfl
    rw [hz]
    exact ⟨by split_ifs <;> norm_num, fun h => absurd rfl h, fun _ => rfl⟩
  · obtain ⟨h1, h2⟩ := deliver_roundedInto hf (r := .rn) ha hx
    exact ⟨hw ▸ h2, fun _ => h1, fun h => absurd h hx⟩

theorem pack2_spec {f : Fmt} (hf : f = Fmt.bf16 ∨ f = Fmt.f16) {a b : W32} {x y : ℚ} (ha : ratF32 a = some x) (hb : ratF32 b = some y) :
    (x ≠ 0 → roundedInto f .rn x ((pack2 f a b).1.toNat % 2 ^ 16)) ∧ (y ≠ 0 → roundedInto f .rn y ((pack2 f a b).1.toNat / 2 ^ 16)) ∧
    (x = 0 → (pack2 f a b).1.toNat % 2 ^ 15 = 0 ∧ (pack2 f a b).1.getLsbD 15 = a.getLsbD 31) ∧
    (y = 0 → (pack2 f a b).1.toNat / 2 ^ 16 % 2 ^ 15 = 0 ∧ (pack2 f a b).1.getLsbD 31 = b.getLsbD 31) := by
  have hgood : Good f := good_of_mem (by rcases hf with rfl | rfl <;> simp [formats])
  have hw : f.width = 16 := by rcases hf with rfl | rfl <;> rfl
  obtain ⟨hlo, hx, hx0⟩ := deliver_half hgood hw ha
  obtain ⟨hhi, hy, hy0⟩ := deliver_half hgood hw hb
  have hnat : (pack2 f a b).1.toNat = (f.deliver .rn (f32 a)).1 + (f.deliver .rn (f32 b)).1 * 2 ^ 16 := by
    rw [pack2, BitVec.toNat_ofNat, Nat.mod_eq_of_lt (by omega)]
  have hbit : ∀ i, (pack2 f a b).1.getLsbD i = decide ((pack2 f a b).1.toNat / 2 ^ i % 2 = 1) := fun i => by
    rw [BitVec.getLsbD, Nat.testBit_eq_decide_div_mod_eq]
  rw [hbit, hbit, hnat]
  generalize (f.deliver .rn (f32 a)).1 = lo at *
  generalize (f.deliver .rn (f32 b)).1 = hi at *
  have h1 : (lo + hi * 2 ^ 16) % 2 ^ 16 = lo := by omega
  have h2 : (lo + hi * 2 ^ 16) / 2 ^ 16 = hi := by omega
  rw [h1, h2]
  refine ⟨hx, hy, fun h => ?_, fun h => ?_⟩
  · rw [hx0 h]
    cases a.getLsbD 31 <;> simp <;> omega
  · rw [hy0 h]
    cases b.getLsbD 31 <;> simp <;> omega

/-! #### PKINS and UPK -/

/-- An element lies within the register. -/
theorem pkIndex_le (c : W32) : pkWidth c * pkIndex c + pkWidth c ≤ 32 ∧ 4 ≤ pkWidth c := by
  have hw : pkWidth c = 4 ∨ pkWidth c = 8 ∨ pkWidth c = 16 ∨ pkWidth c = 32 := by
    unfold pkWidth
    have : c.toNat % 4 < 4 := Nat.mod_lt _ (by omega)
    interval_cases c.toNat % 4 <;> simp
  unfold pkIndex
  rcases hw with h | h | h | h <;> rw [h] <;> omega

/-- The mask of the low `w` bits. -/
theorem getLsbD_low (w j : ℕ) : (BitVec.ofNat 32 (2 ^ w - 1)).getLsbD j = (decide (j < 32) && decide (j < w)) := by
  rw [BitVec.getLsbD_ofNat, Nat.testBit_two_pow_sub_one]

theorem pkins_bit (d a c : W32) {j : ℕ} (hj : j < 32) : (pkins d a c).getLsbD j =
    if pkWidth c * pkIndex c ≤ j ∧ j < pkWidth c * pkIndex c + pkWidth c then a.getLsbD (j - pkWidth c * pkIndex c) else d.getLsbD j := by
  obtain ⟨hle, -⟩ := pkIndex_le c
  dsimp only [pkins]
  generalize pkWidth c = w at *
  generalize w * pkIndex c = sh at *
  simp only [BitVec.getLsbD_or, BitVec.getLsbD_and, BitVec.getLsbD_not, BitVec.getLsbD_shiftLeft, getLsbD_low, hj, decide_true, Bool.true_and]
  by_cases h1 : sh ≤ j
  · by_cases h2 : j < sh + w
    · simp [h1, h2, show ¬ j < sh by omega, show j - sh < 32 by omega, show j - sh < w by omega]
    · simp [h2, show ¬ j - sh < w by omega]
  · simp [h1, show j < sh by omega]

theorem elem_bit (a : W32) (w i j : ℕ) : (elem a w i).testBit j = (decide (j < w) && a.getLsbD (w * i + j)) := by
  rw [elem, Nat.testBit_mod_two_pow, Nat.testBit_div_two_pow, BitVec.getLsbD, Nat.add_comm]

/-- The top bit of an element is its sign. -/
theorem elem_sign (a : W32) {w : ℕ} (hw : 0 < w) (i : ℕ) : decide (2 ^ (w - 1) ≤ elem a w i) = a.getLsbD (w * i + (w - 1)) := by
  have h := elem_bit a w i (w - 1)
  rw [decide_eq_true (show w - 1 < w by omega), Bool.true_and] at h
  rw [← h, Nat.testBit_eq_decide_div_mod_eq]
  have hlt : elem a w i < 2 ^ (w - 1) * 2 := by
    rw [← pow_succ, Nat.sub_add_cancel hw]
    exact Nat.mod_lt _ (by positivity)
  congr 1
  have hd : elem a w i / 2 ^ (w - 1) < 2 := Nat.div_lt_of_lt_mul hlt
  rw [← Nat.one_le_div_iff (by positivity)]
  generalize elem a w i / 2 ^ (w - 1) = q at hd ⊢
  exact propext ⟨fun h => by omega, fun h => by omega⟩

theorem upk_bit (a c : W32) {j : ℕ} (hj : j < 32) : (upk a c).getLsbD j =
    if j < pkWidth c then a.getLsbD (pkWidth c * pkIndex c + j)
    else c.getLsbD 8 && a.getLsbD (pkWidth c * pkIndex c + pkWidth c - 1) := by
  obtain ⟨hle, hw⟩ := pkIndex_le c
  unfold upk
  simp only [elem_sign a (show 0 < pkWidth c by omega), Nat.add_sub_assoc (show 1 ≤ pkWidth c by omega)]
  have helem : (BitVec.ofNat 32 (elem a (pkWidth c) (pkIndex c))).getLsbD j = (decide (j < pkWidth c) && a.getLsbD (pkWidth c * pkIndex c + j)) := by
    rw [BitVec.getLsbD_ofNat, elem_bit, decide_eq_true hj, Bool.true_and]
  cases (c.getLsbD 8 && a.getLsbD (pkWidth c * pkIndex c + (pkWidth c - 1))) with
  | false => 
    rw [if_neg Bool.false_ne_true, helem]
    by_cases h : j < pkWidth c <;> simp [h]
  | true =>
    rw [if_pos rfl, BitVec.getLsbD_or, helem, BitVec.getLsbD_not, getLsbD_low]
    by_cases h : j < pkWidth c <;> simp [h, hj]

/-! #### The integer dot products -/

theorem elem_eq_extract (a : W32) (w i : ℕ) : elem a w i = (a.extractLsb' (w * i) w).toNat := by
  rw [BitVec.extractLsb'_toNat, Nat.shiftRight_eq_div_pow, elem]

theorem elemInt_signed (a : W32) {w : ℕ} (hw : 0 < w) (i : ℕ) : Machine.elemInt true w a i = (a.extractLsb' (w * i) w).toInt := by
  obtain ⟨v, rfl⟩ : ∃ v, w = v + 1 := ⟨w - 1, by omega⟩
  rw [Machine.elemInt, elem_eq_extract, BitVec.toInt_eq_toNat_cond]
  have : 2 ^ (v + 1) = 2 * 2 ^ v := by rw [pow_succ, mul_comm]
  simp only [Nat.add_sub_cancel, true_and]
  by_cases h : 2 ^ v ≤ (a.extractLsb' ((v + 1) * i) (v + 1)).toNat
  · rw [if_pos h, if_neg (by omega)]
    simp
  · rw [if_neg h, if_pos (by omega)]

theorem elemInt_unsigned (a : W32) (w i : ℕ) : Machine.elemInt false w a i = (a.extractLsb' (w * i) w).toNat := by
  simp only [Machine.elemInt, elem_eq_extract, Bool.false_eq_true, false_and, if_false]

theorem dotInt_signed {w : ℕ} (hw : 0 < w) (n : ℕ) (a b d : W32) : dotInt true w n a b d =
    BitVec.ofInt 32 (((List.range n).map fun i => (a.extractLsb' (w * i) w).toInt * (b.extractLsb' (w * i) w).toInt).sum + d.toInt) := by
  simp only [dotInt, elemInt_signed _ hw]

theorem dotInt_unsigned (w n : ℕ) (a b d : W32) : dotInt false w n a b d =
    BitVec.ofNat 32 (((List.range n).map fun i => (a.extractLsb' (w * i) w).toNat * (b.extractLsb' (w * i) w).toNat).sum + d.toNat) := by
  rw [dotInt, BitVec.ofInt_add, BitVec.ofInt_toInt, BitVec.ofNat_add, BitVec.ofNat_toNat, BitVec.setWidth_eq, ← BitVec.ofInt_natCast]
  congr 2
  rw [Nat.cast_list_sum, List.map_map]
  simp only [elemInt_unsigned]
  rfl

/-! #### The statement -/

theorem packedValues_holds : packedValues := by
  refine ⟨fun f a b x y hf ha hb => pack2_spec hf ha hb, fun d a c w i hw hi => ?_,
    fun a b d => ⟨dotInt_signed (by omega) 4 a b d, dotInt_unsigned 8 4 a b d, dotInt_signed (by omega) 8 a b d⟩,
    fun f n a b d xs ys z _ h hd => dotFlt_gives h hd, fun a b d x z ha hd h1 h2 => scacc_gives ha hd h1 h2, fun a b d h => scacc_nan h⟩
  obtain rfl : w = pkWidth c := hw
  obtain rfl : i = pkIndex c := hi
  exact ⟨fun j hj => pkins_bit d a c hj, fun j hj => upk_bit a c hj⟩

end Rounding
end

section
/-! ### Reciprocals, roots and exact cases [05 R85-R87] -/

namespace Rounding
open Sys2Proof.Machine Sys2Proof.Claims

/-! #### A sticky bit

An exact quotient or root is kept to many bits more than a format has, with one more bit that tells whether anything was
dropped. No number of the format, and no midpoint of two, lies between what was kept and what it stands for. -/

section Sticky
variable {K : Type} [Field K] [LinearOrder K] [IsStrictOrderedRing K]

/-- `X` is `a` units, or lies strictly between `a` and `a + 1` of them. -/
def KeptTo (X u : K) (a : ℕ) (exact : Bool) : Prop := if exact then X = a * u else a * u < X ∧ X < (a + 1) * u

/-- Kept to units of 2^-(b+1), a number and its sticky form compare alike with every half of a natural. -/
theorem KeptTo.compare {v : K} {a b : ℕ} {exact : Bool} (h : KeptTo (v * 2 ^ (b + 1)) 1 a exact) (j : ℕ) :
    ((j : K) ≤ 2 * v ↔ (j : K) ≤ sticky a exact / 2 ^ (b + 1)) ∧ (sticky a exact / 2 ^ (b + 1) ≤ (j : K) → 2 * v ≤ j) ∧
    (j = 2 * v → (j : K) = sticky a exact / 2 ^ (b + 1)) := by
  have hb : (0 : K) < 2 ^ b := by positivity
  have hb' : (0 : K) < 2 ^ (b + 1) := by positivity
  have hv : ∀ x : K, x ≤ 2 * v ↔ x * 2 ^ b ≤ v * 2 ^ (b + 1) := fun x => by
    rw [pow_succ, mul_comm (2 ^ b) 2, ← mul_assoc, mul_comm v, mul_le_mul_iff_left₀ hb]
  have hv' : ∀ x : K, 2 * v ≤ x ↔ v * 2 ^ (b + 1) ≤ x * 2 ^ b := fun x => by
    rw [pow_succ, mul_comm (2 ^ b) 2, ← mul_assoc, mul_comm v, mul_le_mul_iff_left₀ hb]
  have hj : ((j * 2 ^ (b + 1) : ℕ) : K) = j * 2 ^ (b + 1) := by push_cast; rfl
  have hj' : ((j * 2 ^ b : ℕ) : K) = j * 2 ^ b := by push_cast; rfl
  have hpow : j * 2 ^ (b + 1) = 2 * (j * 2 ^ b) := by rw [pow_succ]; ring
  rw [le_antisymm_iff (a := (j : K)), hv, hv', le_div_iff₀ hb', div_le_iff₀ hb', ← hj, ← hj', hpow, le_antisymm_iff, le_div_iff₀ hb',
    div_le_iff₀ hb', ← hj, hpow, Nat.cast_le, Nat.cast_le]
  generalize j * 2 ^ b = n
  unfold KeptTo at h
  cases exact with
  | true =>
    rw [if_pos rfl, mul_one] at h
    rw [h, Nat.cast_le, Nat.cast_le]
    simp only [sticky, if_true, add_zero]
    exact ⟨by omega, by omega, by omega⟩
  | false =>
    rw [if_neg Bool.false_ne_true, mul_one, mul_one] at h
    simp only [sticky, Bool.false_eq_true, if_false]
    have h1 : (n : K) ≤ v * 2 ^ (b + 1) ↔ n ≤ a := by
      constructor
      · intro hn
        have : (n : K) < (a + 1 : ℕ) := by push_cast; exact hn.trans_lt h.2
        exact Nat.lt_succ_iff.1 (by exact_mod_cast this)
      · intro hn
        have : (n : K) ≤ a := by exact_mod_cast hn
        exact this.trans h.1.le
    have h2 : v * 2 ^ (b + 1) ≤ n ↔ a + 1 ≤ n := by
      constructor
      · intro hn
        have : (a : K) < n := h.1.trans_le hn
        exact_mod_cast this
      · intro hn
        have : ((a + 1 : ℕ) : K) ≤ n := by exact_mod_cast hn
        push_cast at this
        exact h.2.le.trans this
    rw [h1, h2]
    exact ⟨by omega, by omega, by omega⟩

/-- The nearest pattern to a sticky form is the nearest to what it stands for. -/
theorem picks_sticky {f : Fmt} (hmb : 1 ≤ f.mbits) {X : K} {a : ℕ} {exact neg : Bool} {e : ℤ} (h : KeptTo X (2 ^ (e + 1)) a exact)
    (ha : 2 ^ (f.mbits + 1) ≤ a) : Picks .rn neg (mag K f) X (patOf f .rn neg (sticky a exact) e) := by
  have hpow : 0 < 2 ^ (f.mbits + 1) := by positivity
  have hs : 2 ^ (f.mbits + 2) ≤ sticky a exact := by unfold sticky; rw [pow_succ]; omega
  have hm : sticky a exact ≠ 0 := by unfold sticky; omega
  have hlog : f.mbits + 2 ≤ Nat.log2 (sticky a exact) := (Nat.le_log2 hm).2 hs
  have hq : e + (Nat.log2 (sticky a exact) : ℤ) - f.mbits ≤ quantum f (sticky a exact) e := le_max_left _ _
  obtain ⟨b, hb⟩ : ∃ b : ℕ, quantum f (sticky a exact) e = e + 1 + (b + 1 : ℕ) := ⟨(quantum f (sticky a exact) e - e - 2).toNat, by omega⟩
  obtain ⟨hd, hv⟩ := quantum_scaled K (f := f) (e := e) hm
  have hp := picks_rn.1 (roundAt_picks K .rn neg (sticky a exact) e (quantum f (sticky a exact) e)).1
  have hscale : (sticky a exact : K) * 2 ^ (e - quantum f (sticky a exact) e) = sticky a exact / 2 ^ (b + 1) / 2 := by
    rw [hb, show e - (e + 1 + ((b + 1 : ℕ) : ℤ)) = -((b + 1 : ℕ) : ℤ) + -1 by ring, zpow_add₀ two_ne_zero, zpow_neg, zpow_natCast, zpow_neg_one,
      ← mul_assoc, div_eq_mul_inv, div_eq_mul_inv]
  -- the number at the quantum that the sticky form is rounded at
  have hX : X = X * 2 ^ (-quantum f (sticky a exact) e) * 2 ^ quantum f (sticky a exact) e := by
    rw [mul_assoc, ← zpow_add₀ two_ne_zero, neg_add_cancel, zpow_zero, mul_one]
  have hunit : X * 2 ^ (-quantum f (sticky a exact) e) * 2 ^ (b + 1) = X * 2 ^ (-(e + 1)) := by
    rw [hb, mul_assoc, ← zpow_natCast, ← zpow_add₀ two_ne_zero]
    congr 2
    ring
  have hkept : KeptTo (X * 2 ^ (-quantum f (sticky a exact) e) * 2 ^ (b + 1)) 1 a exact := by
    have hu : (0 : K) < 2 ^ (-(e + 1)) := by positivity
    have h1 : (2 : K) ^ (e + 1) * 2 ^ (-(e + 1)) = 1 := by rw [← zpow_add₀ two_ne_zero, add_neg_cancel, zpow_zero]
    rw [hunit]
    unfold KeptTo at h ⊢
    split_ifs at h ⊢
    · rw [h, mul_assoc, h1]
    · obtain ⟨h2, h3⟩ := h
      have h2 := mul_lt_mul_of_pos_right h2 hu
      have h3 := mul_lt_mul_of_pos_right h3 hu
      rw [mul_assoc, h1] at h2 h3
      exact ⟨h2, h3⟩
  have hcmp := hkept.compare
  rw [hscale] at hp hd hv
  have htwo : ∀ y : K, 2 * (y / 2) = y := fun y => by ring
  rw [hX]
  refine picks_of_quantum K hmb (picks_rn.2 ⟨fun k hk => ?_, fun k hk => ?_⟩) (hd.imp id fun h => ?_) ?_
  · obtain ⟨h1, h2⟩ := hp.1 k hk
    rw [htwo, ← Nat.cast_add] at h1 h2
    rw [← Nat.cast_add]
    exact ⟨(hcmp _).1.2 h1, fun ht => h2 ((hcmp _).2.2 ht)⟩
  · obtain ⟨h1, h2⟩ := hp.2 k hk
    rw [htwo, ← Nat.cast_add] at h1 h2
    rw [← Nat.cast_add]
    exact ⟨(hcmp _).2.1 h1, fun ht => h2 ((hcmp _).2.2 ht)⟩
  · have := (hcmp (2 * 2 ^ f.mbits)).1.2 (by push_cast at h ⊢; linarith)
    push_cast at this ⊢
    linarith
  · by_contra hc
    have := (hcmp (2 * 2 ^ (f.mbits + 1))).1.1 (by push_cast at hc ⊢; linarith)
    push_cast at this hv
    linarith
end Sticky

end Rounding
end

section
/-! ### Reciprocals and square roots [05 R85, R87] -/

namespace Rounding
open Sys2Proof Sys2Proof.Machine Sys2Proof.Claims

/-! #### Bounds of FP32 numbers -/

/-- A finite FP32 number other than 0 lies between 2^-149 and 2^128. -/
theorem f32_bounds {a : W32} {neg : Bool} {m : ℕ} {e : ℤ} (h : f32 a = .fin neg m e) (hm : m ≠ 0) :
    (2 : ℚ) ^ (-149 : ℤ) ≤ m * 2 ^ e ∧ (m : ℚ) * 2 ^ e < 2 ^ (128 : ℤ) := by
  obtain ⟨p, hp, -, -, -, he, hmag⟩ := f32_fin h
  constructor
  · have h1 : (1 : ℚ) ≤ m := by exact_mod_cast Nat.one_le_iff_ne_zero.2 hm
    calc (2 : ℚ) ^ (-149 : ℤ) ≤ 1 * 2 ^ e := by rw [one_mul]; exact two_zpow_le_iff.2 he
      _ ≤ m * 2 ^ e := mul_le_mul_of_nonneg_right h1 (by positivity)
  · rw [← hmag]
    exact ((mag_strictMono (K := ℚ)).monotone hp).trans_lt (by rw [mag_top32]; norm_num)

/-- The sign and the mantissa of a positive number, and of a negative one. -/
theorem sign_of_pos {neg : Bool} {m : ℕ} {e : ℤ} (h : 0 < signed neg ((m : ℚ) * 2 ^ e)) : neg = false ∧ m ≠ 0 := by
  have hm : m ≠ 0 := by rintro rfl; simp [signed] at h
  have hneg := decide_signed_lt (neg := neg) (show (0 : ℚ) < m * 2 ^ e by positivity)
  exact ⟨hneg.symm.trans (decide_eq_false h.not_gt), hm⟩

theorem sign_of_neg {neg : Bool} {m : ℕ} {e : ℤ} (h : signed neg ((m : ℚ) * 2 ^ e) < 0) : neg = true ∧ m ≠ 0 := by
  have hm : m ≠ 0 := by rintro rfl; simp [signed] at h
  have hneg := decide_signed_lt (neg := neg) (show (0 : ℚ) < m * 2 ^ e by positivity)
  exact ⟨hneg.symm.trans (decide_eq_true h), hm⟩

theorem fin_of_pos {a : W32} {x : ℚ} (hx : ratF32 a = some x) (h : 0 < x) : ∃ m e, f32 a = .fin false m e ∧ m ≠ 0 ∧ x = m * 2 ^ e := by
  obtain ⟨neg, m, e, hv, rfl⟩ := ratOf_eq_some hx
  obtain ⟨rfl, hm⟩ := sign_of_pos h
  exact ⟨m, e, hv, hm, rfl⟩

theorem fin_of_neg {a : W32} {x : ℚ} (hx : ratF32 a = some x) (h : x < 0) : ∃ m e, f32 a = .fin true m e ∧ m ≠ 0 ∧ x = -(m * 2 ^ e) := by
  obtain ⟨neg, m, e, hv, rfl⟩ := ratOf_eq_some hx
  obtain ⟨rfl, hm⟩ := sign_of_neg h
  exact ⟨m, e, hv, hm, rfl⟩

/-- The pattern picked for a number within the range, with its sign, stands for the number at the pick. -/
theorem ratF32_packed {r : Rnd} {neg : Bool} {p : ℕ} (hp : p ≤ Fmt.f32.top) :
    ratF32 (BitVec.ofNat 32 (packed Fmt.f32 r neg p)) = some (signed neg (mag ℚ Fmt.f32 p)) := by
  rw [ratF32, f32, toNat_ofNat_lt (by decide) (packed_lt good32 r neg p), packed_of_le _ _ _ hp, ratOf_val_signOf good32 hp]

/-! #### FRCP -/

theorem sticky_ne_zero {a : ℕ} (ha : a ≠ 0) (exact : Bool) : sticky a exact ≠ 0 := by unfold sticky; omega

/-- The reciprocal of a mantissa, kept to its quotient's bits. -/
theorem keptTo_inv {m k : ℕ} (hm : m ≠ 0) (e : ℤ) : KeptTo (1 / ((m : ℚ) * 2 ^ e)) (2 ^ (-e - k)) (2 ^ k / m) (2 ^ k % m == 0) := by
  have hm0 : (0 : ℚ) < m := by positivity
  have hu : (0 : ℚ) < 2 ^ (-e - (k : ℤ)) := by positivity
  have hdm := Nat.div_add_mod (2 ^ k) m
  have hlt := Nat.mod_lt (2 ^ k) (Nat.pos_of_ne_zero hm)
  have hX : 1 / ((m : ℚ) * 2 ^ e) = (2 ^ k : ℕ) / m * 2 ^ (-e - (k : ℤ)) := by
    rw [sub_eq_add_neg, zpow_add₀ two_ne_zero, zpow_neg, zpow_neg, zpow_natCast]
    push_cast
    field_simp
  have hq : ((2 ^ k : ℕ) : ℚ) / m = (2 ^ k / m : ℕ) + (2 ^ k % m : ℕ) / m := by
    rw [div_eq_iff hm0.ne', add_mul, div_mul_cancel₀ _ hm0.ne', mul_comm]
    exact_mod_cast hdm.symm
  rw [hX, hq]
  unfold KeptTo
  split_ifs with h
  · rw [beq_iff_eq] at h
    rw [h]
    simp
  · rw [beq_iff_eq] at h
    have hr : (0 : ℚ) < (2 ^ k % m : ℕ) := by exact_mod_cast Nat.pos_of_ne_zero h
    have hr0 : (0 : ℚ) < (2 ^ k % m : ℕ) / m := div_pos hr hm0
    have hr1 : ((2 ^ k % m : ℕ) : ℚ) / m < 1 := (div_lt_one hm0).2 (by exact_mod_cast hlt)
    exact ⟨mul_lt_mul_of_pos_right (by linarith) hu, mul_lt_mul_of_pos_right (by linarith) hu⟩

theorem frcp_fin {a : W32} {neg : Bool} {m : ℕ} {e : ℤ} (hv : f32 a = .fin neg m e) (hm : m ≠ 0) {k : ℕ} (hk : k = Nat.log2 m + 60) :
    frcp a = pat32 (Fmt.f32.ofFin .rn neg (sticky (2 ^ k / m) (2 ^ k % m == 0)) (-e - k - 1)) := by
  subst hk
  rw [frcp, hv]
  exact if_neg hm

theorem one_div_signed (neg : Bool) (x : ℚ) : 1 / signed neg x = signed neg (1 / x) := by
  cases neg
  · rfl
  · rw [signed_true, signed_true, one_div, one_div, inv_neg]

/-- FRCP is correctly rounded [05 R85]. -/
theorem frcp_rounded {a : W32} {x : ℚ} (hx : ratF32 a = some x) (h0 : x ≠ 0) : roundedInto Fmt.f32 .rn (1 / x) (frcp a).1.toNat := by
  obtain ⟨neg, m, e, hv, rfl⟩ := ratOf_eq_some hx
  have hm : m ≠ 0 := by rintro rfl; simp [signed_eq_zero] at h0
  obtain ⟨k, hk⟩ : ∃ k, k = Nat.log2 m + 60 := ⟨_, rfl⟩
  have ha : 2 ^ 24 ≤ 2 ^ k / m := by
    rw [Nat.le_div_iff_mul_le (Nat.pos_of_ne_zero hm)]
    calc 2 ^ 24 * m ≤ 2 ^ 24 * 2 ^ (Nat.log2 m + 1) := Nat.mul_le_mul_left _ Nat.lt_log2_self.le
      _ = 2 ^ (Nat.log2 m + 25) := by rw [← pow_add]; congr 1; omega
      _ ≤ 2 ^ k := Nat.pow_le_pow_right two_pos (by omega)
  have hkept := keptTo_inv (k := k) hm e
  rw [frcp_fin hv hm hk]
  generalize 2 ^ k / m = q at *
  generalize (2 ^ k % m == 0) = exact at *
  rw [show -e - (k : ℤ) = -e - k - 1 + 1 by ring] at hkept
  have hp := picks_sticky (f := Fmt.f32) (neg := neg) (by decide) hkept ha
  have hs := sticky_ne_zero (a := q) (by omega) exact
  have hpos : (0 : ℚ) < 1 / (m * 2 ^ e) := by positivity
  rw [pat32, ofFin_eq_round hs, toNat_ofNat_lt (by decide) (round_lt good32 hs _ _ _), round_eq hs, one_div_signed]
  have := roundedInto_packed good32 (r := .rn) (signed_eq_zero.not.2 hpos.ne') (by rw [decide_signed_lt hpos, abs_signed, abs_of_pos hpos]; exact hp)
  rwa [decide_signed_lt hpos] at this

/-! #### FSQRT -/

/-- The bits of a root, from the highest. -/
theorem isqrtFrom_spec (x : ℕ) (n acc : ℕ) (h1 : acc * acc ≤ x) (h2 : x < (acc + 2 ^ n) * (acc + 2 ^ n)) :
    isqrtFrom x n acc * isqrtFrom x n acc ≤ x ∧ x < (isqrtFrom x n acc + 1) * (isqrtFrom x n acc + 1) := by
  induction n generalizing acc with
  | zero => exact ⟨h1, h2⟩
  | succ n ih =>
    unfold isqrtFrom
    dsimp only
    split_ifs with h
    · exact ih _ h (by rwa [add_assoc, ← two_mul, ← pow_succ'])
    · exact ih _ h1 (not_le.1 h)

/-- The integer square root. -/
theorem isqrt_spec (x : ℕ) : isqrt x * isqrt x ≤ x ∧ x < (isqrt x + 1) * (isqrt x + 1) := by
  refine isqrtFrom_spec x _ 0 (Nat.zero_le x) ?_
  rw [zero_add, ← pow_add]
  exact Nat.lt_log2_self.trans_le (Nat.pow_le_pow_right two_pos (by omega))

/-- The square root of a number with an even exponent, kept to the bits of the mantissa's root. -/
theorem keptTo_sqrt (t : ℕ) (h : ℤ) : KeptTo (√((t : ℝ) * 2 ^ (2 * h))) (2 ^ h) (isqrt t) (isqrt t * isqrt t == t) := by
  obtain ⟨h1, h2⟩ := isqrt_spec t
  have hu : (0 : ℝ) < 2 ^ h := by positivity
  have hsq : √((t : ℝ) * 2 ^ (2 * h)) = √(t : ℝ) * 2 ^ h := by
    rw [Real.sqrt_mul (by positivity), two_mul, zpow_add₀ two_ne_zero, Real.sqrt_mul_self hu.le]
  rw [hsq]
  have hle : (isqrt t : ℝ) ≤ √(t : ℝ) := Real.le_sqrt_of_sq_le (by rw [sq]; exact_mod_cast h1)
  have hlt : √(t : ℝ) < isqrt t + 1 := by
    rw [Real.sqrt_lt' (by positivity), sq]
    exact_mod_cast h2
  unfold KeptTo
  split_ifs with he
  · rw [beq_iff_eq] at he
    congr 1
    rw [Real.sqrt_eq_iff_mul_self_eq (by positivity) (by positivity)]
    exact_mod_cast he.symm
  · rw [beq_iff_eq] at he
    refine ⟨mul_lt_mul_of_pos_right (lt_of_le_of_ne hle fun hc => he ?_) hu, mul_lt_mul_of_pos_right hlt hu⟩
    have := Real.mul_self_sqrt (Nat.cast_nonneg (α := ℝ) t)
    rw [← hc] at this
    exact_mod_cast this

/-- A mantissa and an exponent made even. -/
theorem even_exponent (m : ℕ) (e : ℤ) : ∃ m' : ℕ, ∃ h : ℤ, (if e % 2 = 0 then m else 2 * m) = m' ∧ (if e % 2 = 0 then e else e - 1) = 2 * h ∧
    (m : ℚ) * 2 ^ e = m' * 2 ^ (2 * h) := by
  by_cases he : e % 2 = 0
  · refine ⟨m, e / 2, if_pos he, by rw [if_pos he]; omega, by rw [show 2 * (e / 2) = e by omega]⟩
  · refine ⟨2 * m, (e - 1) / 2, if_neg he, by rw [if_neg he]; omega, ?_⟩
    rw [show 2 * ((e - 1) / 2) = e - 1 by omega, zpow_sub_one₀ two_ne_zero]
    push_cast
    ring

theorem fsqrt_fin {a : W32} {m m' : ℕ} {e h : ℤ} (hv : f32 a = .fin false m e) (hm : m ≠ 0) (hm' : (if e % 2 = 0 then m else 2 * m) = m')
    (hh : (if e % 2 = 0 then e else e - 1) = 2 * h) :
    fsqrt a = pat32 (Fmt.f32.ofFin .rn false (sticky (isqrt (m' * 2 ^ 60)) (isqrt (m' * 2 ^ 60) * isqrt (m' * 2 ^ 60) == m' * 2 ^ 60)) (h - 30 - 1)) := by
  subst hm'
  have ht : (if e % 2 = 0 then m * 2 ^ 60 else 2 * m * 2 ^ 60) = (if e % 2 = 0 then m else 2 * m) * 2 ^ 60 := by split_ifs <;> rfl
  rw [fsqrt, hv]
  simp only [if_neg hm, Bool.false_eq_true, if_false, ht, hh, Int.mul_ediv_cancel_left h two_ne_zero]

theorem sq_le_of_le_sqrt {M x : ℚ} (hM : 0 ≤ M) (hx : 0 ≤ x) (h : (M : ℝ) ≤ √(x : ℝ)) : M ^ 2 ≤ x := by
  have := (Real.le_sqrt (by exact_mod_cast hM : (0 : ℝ) ≤ M) (by exact_mod_cast hx)).1 h
  exact_mod_cast this

theorem le_sq_of_sqrt_le {M x : ℚ} (h : √(x : ℝ) ≤ M) : x ≤ M ^ 2 := by
  have := (Real.sqrt_le_iff.1 h).2
  exact_mod_cast this

/-- FSQRT is correctly rounded: no number of FP32 lies nearer to the root [05 R85]. -/
theorem fsqrt_nearest {a : W32} {x : ℚ} (hx : ratF32 a = some x) (h0 : 0 < x) : ∃ y, ratF32 (fsqrt a).1 = some y ∧ 0 < y ∧
    ∀ z, Holds Fmt.f32 z → 0 ≤ z → (z < y → ((y + z) / 2) ^ 2 ≤ x) ∧ (y < z → x ≤ ((y + z) / 2) ^ 2) := by
  obtain ⟨m, e, hv, hm, rfl⟩ := fin_of_pos hx h0
  obtain ⟨m', h, hm', hh, hval⟩ := even_exponent m e
  obtain ⟨hlo, hhi⟩ := f32_bounds hv hm
  have hm0 : m' ≠ 0 := by rintro rfl; simp [hval] at h0
  rw [fsqrt_fin hv hm hm' hh]
  have hroot : ((m' * 2 ^ 60 : ℕ) : ℝ) * 2 ^ (2 * (h - 30)) = ((m' * 2 ^ (2 * h) : ℚ) : ℝ) := by
    rw [show 2 * (h - 30) = 2 * h + -60 by ring, zpow_add₀ two_ne_zero]
    push_cast
    ring
  have hkept := keptTo_sqrt (m' * 2 ^ 60) (h - 30)
  rw [hroot, ← hval, show h - 30 = h - 30 - 1 + 1 by ring] at hkept
  have ha : 2 ^ 24 ≤ isqrt (m' * 2 ^ 60) := by
    by_contra hc
    have h1 := (isqrt_spec (m' * 2 ^ 60)).2
    have h2 := Nat.mul_le_mul (not_le.1 hc) (not_le.1 hc)
    simp only [Nat.succ_eq_add_one] at h2
    omega
  generalize isqrt (m' * 2 ^ 60) = q at *
  generalize (q * q == m' * 2 ^ 60) = exact at *
  have hp := picks_sticky (f := Fmt.f32) (neg := false) (by decide) hkept ha
  have hs := sticky_ne_zero (a := q) (by omega) exact
  rw [pat32, ofFin_eq_round hs, round_eq hs]
  generalize patOf Fmt.f32 .rn false (sticky q exact) (h - 30 - 1) = p at *
  have hcast : ∀ k, mag ℝ Fmt.f32 k = ((mag ℚ Fmt.f32 k : ℚ) : ℝ) := fun k => (mag_cast (Rat.castHom ℝ) Fmt.f32 k).symm
  have hmono := mag_strictMono (K := ℚ) (f := Fmt.f32)
  have hx0 : (0 : ℝ) ≤ ((m * 2 ^ e : ℚ) : ℝ) := by exact_mod_cast h0.le
  have htop : p ≤ Fmt.f32.top := by
    refine hp.index_le mag_strictMono ?_
    rw [hcast, mag_top32, Real.sqrt_le_iff]
    have h1 : (m : ℚ) * 2 ^ e ≤ ((2 ^ 24 - 1) * 2 ^ 104) ^ 2 := hhi.le.trans (by norm_num)
    exact ⟨by norm_num, by exact_mod_cast h1⟩
  have hpos : 0 < p := by
    refine hp.le_index (j := 1) mag_strictMono (Real.le_sqrt_of_sq_le ?_)
    have h1 : mag ℚ Fmt.f32 1 = 2 ^ (-149 : ℤ) := by norm_num [mag, Fmt.f32, qmin]
    have h2 : (mag ℚ Fmt.f32 1) ^ 2 ≤ m * 2 ^ e := by rw [h1]; exact le_trans (by norm_num) hlo
    rw [hcast]
    exact_mod_cast h2
  refine ⟨_, ratF32_packed htop, by rw [signed_false, ← mag_zero (K := ℚ) (f := Fmt.f32)]; exact hmono hpos, fun z hz hz0 => ?_⟩
  obtain ⟨k, -, hk⟩ := (holds_iff good32).1 hz
  rw [abs_of_nonneg hz0] at hk
  subst hk
  obtain ⟨hbelow, habove⟩ := picks_rn.1 hp
  rw [signed_false]
  refine ⟨fun hlt => ?_, fun hlt => ?_⟩
  · have hle := (hbelow k (hmono.lt_iff_lt.1 hlt)).1
    rw [hcast, hcast] at hle
    refine sq_le_of_le_sqrt (by linarith [mag_nonneg (K := ℚ) (f := Fmt.f32) p]) h0.le ?_
    push_cast at hle ⊢
    linarith
  · have hle := (habove k (hmono.lt_iff_lt.1 hlt)).1
    rw [hcast, hcast] at hle
    refine le_sq_of_sqrt_le ?_
    push_cast at hle ⊢
    linarith

end Rounding
end

section
/-! ### Special operands, limits and exact cases [05 R86, R87] -/

namespace Rounding
open Sys2Proof Sys2Proof.Machine Sys2Proof.Claims

/-! #### Zeros, infinities and NaNs -/

theorem specialRows_hold : ∀ row ∈ specialRows, row.1 row.2.1 = row.2.2 := by
  simp only [specialRows, List.cons_append, List.nil_append, List.forall_mem_cons]
  exact ⟨rfl, rfl, rfl, rfl, rfl, rfl, rfl, rfl, rfl, rfl, rfl, rfl,
    rfl, rfl, rfl, rfl, rfl, rfl, rfl, rfl, rfl, rfl, rfl, rfl, rfl, rfl, rfl, rfl, rfl, rfl, rfl, rfl, fun _ h => nomatch h⟩

theorem special_nan {a : W32} {sig : Bool} (h : f32 a = .nan sig) :
    ∀ f ∈ [frcp, frsq, fsqrt, fexp2, flog2, fsin, fcos, ftanh], f a = (0x7FC00000, if sig then 16 else 0) := by
  have hv : (nan32, flagIf sig flagNV) = ((0x7FC00000 : W32), if sig then 16 else 0) := rfl
  rw [← hv]
  simp only [List.forall_mem_cons, List.not_mem_nil, false_implies, implies_true, and_true]
  exact ⟨by rw [frcp, h], by rw [frsq, h], by rw [fsqrt, h], by rw [fexp2, h], by rw [flog2, h], by rw [fsin, h], by rw [fcos, h], by rw [ftanh, h]⟩

/-- The root functions and FLOG2 of a negative number. -/
theorem special_neg {a : W32} {x : ℚ} (hx : ratF32 a = some x) (h : x < 0) : ∀ f ∈ [frsq, fsqrt, flog2], f a = (0x7FC00000, 16) := by
  obtain ⟨m, e, hv, hm, -⟩ := fin_of_neg hx h
  simp only [List.forall_mem_cons, List.not_mem_nil, false_implies, implies_true, and_true, frsq, fsqrt, flog2, hv, if_neg hm, if_true]
  exact ⟨rfl, rfl, rfl⟩

/-! #### Powers of two and integers -/

/-- An integer of at most 24 bits at a spacing of FP32, within the range, is given exactly. -/
theorem ofInt32_exact {n e : ℤ} (hn : n.natAbs ≤ 2 ^ 24) (he : -149 ≤ e) (htop : (n.natAbs : ℚ) * 2 ^ e ≤ 2 ^ 127) :
    ratF32 (ofInt32 n e) = some ((n : ℚ) * 2 ^ e) := by
  by_cases h0 : n = 0
  · subst h0
    rw [Int.cast_zero, zero_mul]
    exact ratOf_zero good32 false
  · have hm : n.natAbs ≠ 0 := Int.natAbs_ne_zero.2 h0
    obtain ⟨k, hk, hmag⟩ := exists_mag32 hn he htop
    rw [ofInt32, Fmt.ofInt, if_neg h0, round_eq hm, patOf_of_mag good32 hm hmag, ratF32_packed hk, hmag, signed_natAbs]

theorem ofInt32_two_zpow {k : ℤ} (h1 : -149 ≤ k) (h2 : k ≤ 127) : ratF32 (ofInt32 1 k) = some (2 ^ k) := by
  rw [ofInt32_exact (by decide) h1 (by simpa using two_zpow_le_iff.2 h2), Int.cast_one, one_mul]

theorem powerOfTwo_of_eq {m : ℕ} {e n : ℤ} (hm : m ≠ 0) (h : (m : ℚ) * 2 ^ e = 2 ^ n) : powerOfTwo m e = some n := by
  obtain ⟨h1, h2⟩ := log2_bounds ℚ hm e
  rw [h, two_zpow_le_iff] at h1
  rw [h, two_zpow_lt_iff] at h2
  have hn : n = e + Nat.log2 m := by omega
  have hpow : m = 2 ^ Nat.log2 m := by
    rw [hn, add_comm, zpow_add₀ two_ne_zero, mul_left_inj' (by positivity)] at h
    exact_mod_cast h
  rw [powerOfTwo, if_pos hpow, hn]

theorem eq_of_powerOfTwo {m : ℕ} {e n : ℤ} (h : powerOfTwo m e = some n) : m = 2 ^ Nat.log2 m ∧ n = e + Nat.log2 m ∧ (m : ℚ) * 2 ^ e = 2 ^ n := by
  unfold powerOfTwo at h
  split_ifs at h with hm
  obtain rfl := Option.some.inj h
  refine ⟨hm, rfl, ?_⟩
  rw [add_comm, zpow_add₀ two_ne_zero, zpow_natCast]
  congr 1
  exact_mod_cast hm

/-- A finite value is taken for an integer exactly when it is one. -/
theorem asInt_eq_some {neg : Bool} {m : ℕ} {e k : ℤ} : asInt neg m e = some k ↔ signed neg ((m : ℚ) * 2 ^ e) = k := by
  obtain ⟨-, hex⟩ := roundInt_spec .rz neg m e
  have hdef : asInt neg m e = if (roundInt .rz neg m e).2 then some (roundInt .rz neg m e).1 else none := rfl
  rw [hdef]
  constructor
  · intro h
    split_ifs at h with he
    rw [← hex.1 he, Option.some.inj h]
  · intro h
    have hp := (roundAt_picks ℚ .rz neg m e 0)
    have hnat : ((k.natAbs : ℕ) : ℚ) = m * 2 ^ (e - 0) := by
      rw [Nat.cast_natAbs, Int.cast_abs, ← h, abs_signed, sub_zero, abs_of_nonneg (by positivity)]
    have hk := hp.1.index_eq strictMono_natCast hnat
    have he : (roundInt .rz neg m e).2 = true := hp.2.2 (by rw [hk, hnat])
    rw [if_pos he]
    congr 1
    have := (hex.1 he).trans h
    exact_mod_cast this

/-- FRSQ of an even power of two is exact [05 R86]. -/
theorem frsq_exact {a : W32} {x : ℚ} (hx : ratF32 a = some x) (n : ℤ) (h : x = 2 ^ (2 * n)) :
    ratF32 (frsq a).1 = some (2 ^ (-n)) ∧ (frsq a).2 = 0 := by
  obtain ⟨m, e, hv, hm, hval⟩ := fin_of_pos hx (by rw [h]; positivity)
  obtain ⟨hlo, hhi⟩ := f32_bounds hv hm
  rw [← hval, h] at hlo hhi
  rw [two_zpow_le_iff] at hlo
  rw [two_zpow_lt_iff] at hhi
  have hr : frsq a = (ofInt32 1 (-n), 0) := by
    rw [frsq, hv]
    simp only [if_neg hm, Bool.false_eq_true, if_false, powerOfTwo_of_eq hm (hval.symm.trans h)]
    rw [if_pos (by omega), show -(2 * n) / 2 = -n by omega]
  rw [hr]
  exact ⟨ofInt32_two_zpow (by omega) (by omega), rfl⟩

/-- FLOG2 of a power of two is exact [05 R86]. -/
theorem flog2_exact {a : W32} {x : ℚ} (hx : ratF32 a = some x) (n : ℤ) (h : x = 2 ^ n) : ratF32 (flog2 a).1 = some (n : ℚ) ∧ (flog2 a).2 = 0 := by
  obtain ⟨m, e, hv, hm, hval⟩ := fin_of_pos hx (by rw [h]; positivity)
  obtain ⟨hlo, hhi⟩ := f32_bounds hv hm
  rw [← hval, h] at hlo hhi
  rw [two_zpow_le_iff] at hlo
  rw [two_zpow_lt_iff] at hhi
  have hr : flog2 a = (ofInt32 n 0, 0) := by
    rw [flog2, hv]
    simp only [if_neg hm, Bool.false_eq_true, if_false, powerOfTwo_of_eq hm (hval.symm.trans h)]
  have hn : n.natAbs ≤ 149 := by omega
  have hn' : (n.natAbs : ℚ) ≤ 149 := by exact_mod_cast hn
  rw [hr, ofInt32_exact (hn.trans (by norm_num)) (by norm_num) (by rw [zpow_zero, mul_one]; exact hn'.trans (by norm_num)), zpow_zero, mul_one]
  exact ⟨rfl, rfl⟩

/-! #### FEXP2 -/

theorem ratOf_128 : ratOf (.fin false 128 0) = some 128 := by rw [ratOf_fin]; simp
theorem ratOf_neg_150 : ratOf (.fin true 150 0) = some (-150) := by rw [ratOf_fin]; simp

/-- FEXP2 within its limits: exact for an integer that FP32 reaches, approximated otherwise [05 R86, R87]. -/
theorem fexp2_of_some {a : W32} {neg : Bool} {m : ℕ} {e k : ℤ} (hv : f32 a = .fin neg m e) (h1 : -150 ≤ signed neg ((m : ℚ) * 2 ^ e))
    (h2 : signed neg ((m : ℚ) * 2 ^ e) < 128) (hk : asInt neg m e = some k) :
    fexp2 a = if k < -149 then Approx.result .exp2 a neg m e else (ofInt32 1 k, 0) := by
  simp only [fexp2, hv, valLt_fin (ratOf_fin neg m e) ratOf_128, valLt_fin (ratOf_fin neg m e) ratOf_neg_150, decide_eq_true h2,
    decide_eq_false h1.not_gt, Bool.not_true, Bool.false_eq_true, if_false, hk]

theorem fexp2_of_none {a : W32} {neg : Bool} {m : ℕ} {e : ℤ} (hv : f32 a = .fin neg m e) (h1 : -150 ≤ signed neg ((m : ℚ) * 2 ^ e))
    (h2 : signed neg ((m : ℚ) * 2 ^ e) < 128) (hk : asInt neg m e = none) : fexp2 a = Approx.result .exp2 a neg m e := by
  simp only [fexp2, hv, valLt_fin (ratOf_fin neg m e) ratOf_128, valLt_fin (ratOf_fin neg m e) ratOf_neg_150, decide_eq_true h2,
    decide_eq_false h1.not_gt, Bool.not_true, Bool.false_eq_true, if_false, hk]

theorem fexp2_exact {a : W32} {x : ℚ} (hx : ratF32 a = some x) (n : ℤ) (h : x = n) (h1 : -149 ≤ n) (h2 : n ≤ 127) :
    ratF32 (fexp2 a).1 = some (2 ^ n) ∧ (fexp2 a).2 = 0 := by
  obtain ⟨neg, m, e, hv, rfl⟩ := ratOf_eq_some hx
  have h1' : (-149 : ℚ) ≤ n := by exact_mod_cast h1
  have h2' : (n : ℚ) ≤ 127 := by exact_mod_cast h2
  rw [fexp2_of_some hv (by rw [h]; linarith) (by rw [h]; linarith) (asInt_eq_some.2 h), if_neg (not_lt.2 h1)]
  exact ⟨ofInt32_two_zpow h1 h2, rfl⟩

theorem fexp2_high {a : W32} {x : ℚ} (hx : ratF32 a = some x) (h : 128 ≤ x) : fexp2 a = (0x7F800000, 5) := by
  obtain ⟨neg, m, e, hv, rfl⟩ := ratOf_eq_some hx
  simp only [fexp2, hv, valLt_fin (ratOf_fin neg m e) ratOf_128, decide_eq_false h.not_gt]
  rfl

theorem fexp2_low {a : W32} {x : ℚ} (hx : ratF32 a = some x) (h : x < -150) : fexp2 a = (0, 3) := by
  obtain ⟨neg, m, e, hv, rfl⟩ := ratOf_eq_some hx
  simp only [fexp2, hv, valLt_fin (ratOf_fin neg m e) ratOf_128, valLt_fin (ratOf_fin neg m e) ratOf_neg_150, decide_eq_true h,
    decide_eq_true (show signed neg ((m : ℚ) * 2 ^ e) < 128 by linarith)]
  rfl

/-! #### FTANH's limits, and the functions that are odd or even -/

theorem ratOf_10 : ratOf (.fin false 10 0) = some 10 := by rw [ratOf_fin]; simp

theorem valLt_10 (m : ℕ) (e : ℤ) : valLt (.fin false m e) (.fin false 10 0) = decide ((m : ℚ) * 2 ^ e < 10) :=
  valLt_fin (ratOf_fin false m e) ratOf_10

theorem ftanh_high {a : W32} {x : ℚ} (hx : ratF32 a = some x) (h : 10 ≤ x) : ftanh a = (0x3F800000, 1) := by
  obtain ⟨m, e, hv, hm, rfl⟩ := fin_of_pos hx (by linarith)
  simp only [ftanh, hv, if_neg hm, valLt_10, decide_eq_false h.not_gt]
  rfl

theorem ftanh_low {a : W32} {x : ℚ} (hx : ratF32 a = some x) (h : x ≤ -10) : ftanh a = (0xBF800000, 1) := by
  obtain ⟨m, e, hv, hm, rfl⟩ := fin_of_neg hx (by linarith)
  simp only [ftanh, hv, if_neg hm, valLt_10, decide_eq_false (show ¬ (m : ℚ) * 2 ^ e < 10 by linarith)]
  rfl

/-- The sign bit inverted inverts a number's sign. -/
theorem f32_flip {a : W32} {neg : Bool} {m : ℕ} {e : ℤ} (h : f32 a = .fin neg m e) : f32 (a ^^^ 0x80000000) = .fin (!neg) m e := by
  have hlow : (a ^^^ 0x80000000).toNat % 2 ^ 31 = a.toNat % 2 ^ 31 := by
    refine Nat.eq_of_testBit_eq fun i => ?_
    have hs : (0x80000000 : W32).toNat = 2 ^ 31 := rfl
    rw [Nat.testBit_mod_two_pow, Nat.testBit_mod_two_pow, BitVec.toNat_xor, hs, Nat.testBit_xor, Nat.testBit_two_pow]
    by_cases hi : i < 31
    · simp [hi, show 31 ≠ i by omega]
    · simp [hi]
  have hsign : (a ^^^ 0x80000000).getLsbD 31 = !a.getLsbD 31 := by
    have hs : (0x80000000 : W32).getLsbD 31 = true := by decide
    rw [BitVec.getLsbD_xor, hs, Bool.xor_true]
  have h1 : (a ^^^ 0x80000000).toNat / 2 ^ 23 % 2 ^ 8 = a.toNat / 2 ^ 23 % 2 ^ 8 := by omega
  have h2 : (a ^^^ 0x80000000).toNat % 2 ^ 23 = a.toNat % 2 ^ 23 := by omega
  rw [f32_eq] at h ⊢
  rw [h1, h2, hsign]
  split_ifs at h ⊢ with he hz <;> cases h <;> rfl

theorem flip_mask (a : W32) : (a ^^^ 0x80000000) &&& 0x7FFFFFFF = a &&& 0x7FFFFFFF := by
  have hs : ∀ i < 32, (0x80000000 : W32).getLsbD i = !(0x7FFFFFFF : W32).getLsbD i := by decide
  refine BitVec.eq_of_getLsbD_eq fun i hi => ?_
  rw [BitVec.getLsbD_and, BitVec.getLsbD_xor, BitVec.getLsbD_and, hs i hi]
  cases (0x7FFFFFFF : W32).getLsbD i <;> simp

theorem flip_flip (a : W32) : a ^^^ 0x80000000 ^^^ 0x80000000 = a := by rw [BitVec.xor_assoc, BitVec.xor_self, BitVec.xor_zero]

/-- An odd function's result with the sign inverted. -/
theorem result_odd (f : Approx) (hf : f = .sin ∨ f = .tanh) (a : W32) (neg : Bool) (m : ℕ) (e : ℤ) :
    (f.result (a ^^^ 0x80000000) (!neg) m e).1 = (f.result a neg m e).1 ^^^ 0x80000000 := by
  rcases hf with rfl | rfl <;> cases neg <;>
    simp only [Approx.result, flip_mask, flip_flip, Bool.not_true, Bool.not_false, Bool.false_eq_true, if_true, if_false]

theorem fsin_odd {a : W32} {neg : Bool} {m : ℕ} {e : ℤ} (hv : f32 a = .fin neg m e) : (fsin (a ^^^ 0x80000000)).1 = (fsin a).1 ^^^ 0x80000000 := by
  rw [fsin, fsin, f32_flip hv, hv]
  dsimp only
  split_ifs
  · rfl
  · exact result_odd .sin (Or.inl rfl) a neg m e

theorem ftanh_odd {a : W32} {neg : Bool} {m : ℕ} {e : ℤ} (hv : f32 a = .fin neg m e) :
    (ftanh (a ^^^ 0x80000000)).1 = (ftanh a).1 ^^^ 0x80000000 := by
  rw [ftanh, ftanh, f32_flip hv, hv]
  dsimp only
  split_ifs
  · rfl
  · cases neg <;> rfl
  · exact result_odd .tanh (Or.inr rfl) a neg m e

theorem fcos_even {a : W32} {neg : Bool} {m : ℕ} {e : ℤ} (hv : f32 a = .fin neg m e) : fcos (a ^^^ 0x80000000) = fcos a := by
  rw [fcos, fcos, f32_flip hv, hv]
  simp only [Approx.result, flip_mask]

/-- An approximated result always sets NX [05 R86]. -/
theorem value_inexact (f : Approx) (a : W32) (neg : Bool) (m : ℕ) (e : ℤ) : (f.value a neg m e).2.getLsbD 0 = true := by
  have h : ∀ c, (flagNX ||| flagIf c flagUF).getLsbD 0 = true := by decide
  exact h _

theorem special_inexact {a : W32} {x : ℚ} (hx : ratF32 a = some x) (h : x ≠ 0) :
    (fsin a).2.getLsbD 0 = true ∧ (fcos a).2.getLsbD 0 = true ∧ (ftanh a).2.getLsbD 0 = true := by
  obtain ⟨neg, m, e, hv, rfl⟩ := ratOf_eq_some hx
  have hm : m ≠ 0 := by rintro rfl; simp [signed_eq_zero] at h
  simp only [fsin, fcos, ftanh, hv, if_neg hm]
  refine ⟨value_inexact .sin _ _ _ _, value_inexact .cos _ _ _ _, ?_⟩
  split_ifs
  · exact (by decide : flagNX.getLsbD 0 = true)
  · exact value_inexact .tanh _ _ _ _

end Rounding
end

section
/-! ### Approximated functions: a result within its bound [05 R85] -/

namespace Rounding
open Sys2Proof Sys2Proof.Machine Sys2Proof.Claims

/-! #### The bound -/

/-- The operand lies in [1/2, 2], and its magnitude is above 2^15: what a bound depends on beside the result [05 R85]. -/
def nearOne (neg : Bool) (m : ℕ) (e : ℤ) : Bool := !valLt (.fin neg m e) (.fin false 1 (-1)) && !valLt (.fin false 1 1) (.fin neg m e)
def isBig (m : ℕ) (e : ℤ) : Bool := valLt (.fin false 1 15) (.fin false m e)

/-- The exponent of the bound on an approximated result's error. -/
def boundOf (f : Approx) (neg : Bool) (m : ℕ) (e : ℤ) : ℤ := f.bound (f.real neg m e).1 (f.real neg m e).2 (nearOne neg m e) (isBig m e)

/-- The spacing of FP32 at a function's value as the model computes it. -/
def ulpOf (f : Approx) (neg : Bool) (m : ℕ) (e : ℤ) : ℤ := quantum Fmt.f32 (f.real neg m e).1.natAbs (f.real neg m e).2

/-- A result is the free one, where that lies within the bound, or the rounded one. -/
theorem value_cases (f : Approx) (a : W32) (neg : Bool) (m : ℕ) (e : ℤ) :
    (∃ w, (f.value a neg m e).1 = w ∧ within (f32 w) (f.real neg m e).1 (f.real neg m e).2 (boundOf f neg m e) = true) ∨
      (f.value a neg m e).1 = ofInt32 (f.real neg m e).1 (f.real neg m e).2 := by
  have h : (f.value a neg m e).1 = if within (f32 (Config.freeSfu f.code a)) (f.real neg m e).1 (f.real neg m e).2 (boundOf f neg m e) &&
      f.keeps m e (Config.freeSfu f.code a) then Config.freeSfu f.code a else ofInt32 (f.real neg m e).1 (f.real neg m e).2 := rfl
  rw [h]
  split_ifs with hc
  · exact Or.inl ⟨_, rfl, (Bool.and_eq_true_iff.1 hc).1⟩
  · exact Or.inr rfl

/-- A value within 2^b of another. -/
theorem near_of_within {v : Val} {s e b : ℤ} (h : within v s e b = true) : ∃ y, ratOf v = some y ∧ |y - s * 2 ^ e| ≤ 2 ^ b := by
  cases v with
  | nan => cases h
  | inf => cases h
  | fin neg m k =>
    refine ⟨_, ratOf_fin neg m k, ?_⟩
    simp only [within, decide_eq_true_iff] at h
    have hk : min (min k e) b ≤ k := (min_le_left _ _).trans (min_le_left _ _)
    have he : min (min k e) b ≤ e := (min_le_left _ _).trans (min_le_right _ _)
    have hb : min (min k e) b ≤ b := min_le_right _ _
    generalize min (min k e) b = base at *
    have hpos : (0 : ℚ) < 2 ^ base := by positivity
    have hpow : ∀ {x : ℤ}, base ≤ x → (2 : ℚ) ^ (x - base).toNat * 2 ^ base = 2 ^ x := fun hx => by
      rw [← zpow_natCast, ← zpow_add₀ two_ne_zero, Int.toNat_of_nonneg (by omega), sub_add_cancel]
    have hd : signed neg (m * 2 ^ k) - s * 2 ^ e = ((scaled neg m k base - s * 2 ^ (e - base).toNat : ℤ) : ℚ) * 2 ^ base := by
      rw [Int.cast_sub, sub_mul, scaled_mul neg m hk, ← hpow he]
      push_cast
      ring
    rw [hd, abs_mul, abs_of_pos hpos, ← hpow hb, ← Int.cast_abs, ← Nat.cast_natAbs]
    refine mul_le_mul_of_nonneg_right ?_ hpos.le
    exact_mod_cast h

theorem abs_mantissa (n e : ℤ) : |(n : ℚ) * 2 ^ e| = (n.natAbs : ℚ) * 2 ^ e := by
  rw [abs_mul, abs_of_pos (show (0 : ℚ) < 2 ^ e by positivity), Nat.cast_natAbs, Int.cast_abs]

/-- An integer mantissa rounded into FP32, within the range, lies within half a spacing. -/
theorem ofInt32_near {n e : ℤ} (htop : |(n : ℚ) * 2 ^ e| ≤ mag ℚ Fmt.f32 Fmt.f32.top) :
    ∃ y, ratF32 (ofInt32 n e) = some y ∧ 2 * |y - n * 2 ^ e| ≤ 2 ^ quantum Fmt.f32 n.natAbs e := by
  by_cases h0 : n = 0
  · subst h0
    refine ⟨0, ratOf_zero good32 false, ?_⟩
    simp only [Int.cast_zero, zero_mul, sub_zero, abs_zero, mul_zero]
    positivity
  · have hm : n.natAbs ≠ 0 := Int.natAbs_ne_zero.2 h0
    have hpos : (0 : ℚ) < 2 ^ quantum Fmt.f32 n.natAbs e := by positivity
    have hx := (abs_mantissa n e).symm
    have hp := patOf_picks ℚ (f := Fmt.f32) (e := e) (by decide) hm .rn (decide (n < 0))
    have htop' := hp.index_le mag_strictMono (hx.trans_le htop)
    refine ⟨signed (decide (n < 0)) (mag ℚ Fmt.f32 (patOf Fmt.f32 .rn (decide (n < 0)) n.natAbs e)), ?_, ?_⟩
    · rw [ofInt32, Fmt.ofInt, if_neg h0, round_eq hm, ratF32_packed htop']
    · have hd : ∀ (b : Bool) (y z : ℚ), |signed b y - signed b z| = |y - z| := fun b y z => by
        cases b
        · rfl
        · rw [signed_true, signed_true, ← abs_neg]
          congr 1
          ring
      have hr := picks_rn.1 (roundAt_picks ℚ .rn (decide (n < 0)) n.natAbs e (quantum Fmt.f32 n.natAbs e)).1
      have hhalf := hr.within_half (by positivity)
      have hv : (n.natAbs : ℚ) * 2 ^ e = n.natAbs * 2 ^ (e - quantum Fmt.f32 n.natAbs e) * 2 ^ quantum Fmt.f32 n.natAbs e := by
        rw [mul_assoc, ← zpow_add₀ two_ne_zero, sub_add_cancel]
      rw [← signed_natAbs n e, hd, mag_patOf ℚ hm, hv, ← sub_mul, abs_mul, abs_of_pos hpos, ← mul_assoc]
      calc _ ≤ 1 * (2 : ℚ) ^ quantum Fmt.f32 n.natAbs e := mul_le_mul_of_nonneg_right hhalf hpos.le
        _ = _ := one_mul _

/-- An approximated result lies within its bound, where that is at least half a spacing [05 R85]. -/
theorem value_near {f : Approx} {neg : Bool} {m : ℕ} {e : ℤ} (a : W32) (htop : |modelValue f neg m e| ≤ mag ℚ Fmt.f32 Fmt.f32.top)
    (hb : ulpOf f neg m e ≤ boundOf f neg m e + 1) :
    ∃ y, ratF32 (f.value a neg m e).1 = some y ∧ |y - modelValue f neg m e| ≤ 2 ^ boundOf f neg m e := by
  rcases value_cases f a neg m e with ⟨w, hw, hin⟩ | hr
  · obtain ⟨y, hy, hle⟩ := near_of_within hin
    exact ⟨y, by rw [hw]; exact hy, hle⟩
  · obtain ⟨y, hy, hle⟩ := ofInt32_near htop
    refine ⟨y, by rw [hr]; exact hy, ?_⟩
    have : (2 : ℚ) ^ quantum Fmt.f32 (f.real neg m e).1.natAbs (f.real neg m e).2 ≤ 2 ^ boundOf f neg m e * 2 := by
      rw [← zpow_add_one₀ two_ne_zero]
      exact two_zpow_le_iff.2 hb
    have := hle.trans this
    unfold modelValue
    linarith

/-- The unit in the last place at a function's value. -/
theorem ulpAt_modelValue {f : Approx} {neg : Bool} {m : ℕ} {e : ℤ} {u : ℚ} (h : ulpAt (modelValue f neg m e) u) : u = 2 ^ ulpOf f neg m e := by
  obtain ⟨j, h1, h2, rfl⟩ := h
  have hs : (f.real neg m e).1 ≠ 0 := fun h0 => by
    rw [modelValue, h0, Int.cast_zero, zero_mul, abs_zero] at h1
    exact absurd h1 (not_le.2 (by positivity))
  have hx : |modelValue f neg m e| = _ := abs_mantissa _ _
  obtain ⟨h3, h4⟩ := log2_bounds ℚ (Int.natAbs_ne_zero.2 hs) (f.real neg m e).2
  rw [hx] at h1 h2
  have h5 := two_zpow_lt_iff.1 (h1.trans_lt h4)
  have h6 := two_zpow_lt_iff.1 (h3.trans_lt h2)
  congr 1
  rw [ulpOf, quantum, qmin32]
  have : (Fmt.f32.mbits : ℤ) = 23 := rfl
  omega

theorem le_top_of_le {x : ℚ} (h : x ≤ 2 ^ 127) : x ≤ mag ℚ Fmt.f32 Fmt.f32.top := h.trans (by rw [mag_top32]; norm_num)

/-! #### FRSQ -/

/-- FRSQ is exact for an even power of two, and approximated otherwise. -/
theorem frsq_cases {a : W32} {m : ℕ} {e : ℤ} (hv : f32 a = .fin false m e) (hm : m ≠ 0) :
    (∃ n : ℤ, (m : ℚ) * 2 ^ e = 2 ^ (2 * n)) ∨ frsq a = Approx.rsq.value a false m e := by
  cases hp : powerOfTwo m e with
  | none =>
    right
    simp only [frsq, hv, if_neg hm, hp, Bool.false_eq_true, if_false]
    rfl
  | some k =>
    by_cases hk : k % 2 = 0
    · left
      exact ⟨k / 2, by rw [(eq_of_powerOfTwo hp).2.2]; congr 1; omega⟩
    · right
      simp only [frsq, hv, if_neg hm, hp, Bool.false_eq_true, if_false, if_neg hk]
      rfl

theorem real_rsq {m m' : ℕ} {e h : ℤ} (hm' : (if e % 2 = 0 then m else 2 * m) = m') (hh : (if e % 2 = 0 then e else e - 1) = 2 * h) (neg : Bool) :
    Approx.rsq.real neg m e = (((isqrt (2 ^ 240 / m') : ℕ) : ℤ), -h - 120) := by
  simp only [Approx.real, hm', hh, Int.mul_ediv_cancel_left h two_ne_zero]

/-- Squares of multiples of the model's unit against a reciprocal, as naturals. -/
theorem sq_mul_le_one_iff (N m' : ℕ) (h : ℤ) : ((N : ℚ) * 2 ^ (-h - 120)) ^ 2 * (m' * 2 ^ (2 * h)) ≤ 1 ↔ N * N * m' ≤ 2 ^ 240 := by
  have hz : ((2 : ℚ) ^ (-h - 120)) ^ 2 * 2 ^ (2 * h) = 1 / 2 ^ 240 := by
    rw [← zpow_natCast, ← zpow_mul, ← zpow_add₀ two_ne_zero, show (-h - 120) * ((2 : ℕ) : ℤ) + 2 * h = -240 by push_cast; ring]
    norm_num
  have hx : ((N : ℚ) * 2 ^ (-h - 120)) ^ 2 * (m' * 2 ^ (2 * h)) = ((N * N * m' : ℕ) : ℚ) / 2 ^ 240 := by
    rw [mul_pow, div_eq_mul_one_div, ← hz]
    push_cast
    ring
  rw [hx, div_le_one (by positivity)]
  exact_mod_cast Iff.rfl

/-- A finite FP32 number of at least 2^(k-1) is a multiple of 2^(k-24). -/
theorem multiple_of_le {w : W32} {y : ℚ} (hy : ratF32 w = some y) {k : ℤ} (h : 2 ^ (k - 1) ≤ y) : ∃ N : ℕ, y = N * 2 ^ (k - 24) := by
  obtain ⟨m, e, hv, -, rfl⟩ := fin_of_pos hy (lt_of_lt_of_le (by positivity) h)
  obtain ⟨-, -, -, -, hm, -, -⟩ := f32_fin hv
  have hlt : (m : ℚ) * 2 ^ e < 2 ^ (24 + e) := by
    rw [zpow_add₀ two_ne_zero]
    exact mul_lt_mul_of_pos_right (by exact_mod_cast hm) (by positivity)
  have he := two_zpow_lt_iff.1 (h.trans_lt hlt)
  refine ⟨m * 2 ^ (e - (k - 24)).toNat, ?_⟩
  push_cast
  rw [mul_assoc, ← zpow_natCast, ← zpow_add₀ two_ne_zero]
  congr 2
  omega

/-- No multiple of a quarter of FP32's spacing lies just below a reciprocal root: one that the model's unit lifts above the root
has reached it. -/
theorem one_le_sq_of_near {N m' : ℕ} {h k : ℤ} (hm' : m' < 2 ^ 25) (hk : -13 ≤ k + h) (hk' : k + h ≤ 0) (hN : N ≤ 2 ^ 26)
    (hnear : 1 < ((N : ℚ) * 2 ^ (k - 24) + 2 ^ (-h - 120)) ^ 2 * (m' * 2 ^ (2 * h))) : 1 ≤ ((N : ℚ) * 2 ^ (k - 24)) ^ 2 * (m' * 2 ^ (2 * h)) := by
  obtain ⟨t, ht⟩ : ∃ t : ℕ, (t : ℤ) = 48 - 2 * (k + h) := ⟨(48 - 2 * (k + h)).toNat, by omega⟩
  have hT : (0 : ℚ) < 2 ^ t := by positivity
  have hunit : (2 : ℚ) ^ (-h - 120) = 2 ^ (-(k + h) - 96) * 2 ^ (k - 24) := by
    rw [← zpow_add₀ two_ne_zero]
    congr 1
    ring
  have hg : ((2 : ℚ) ^ (k - 24)) ^ 2 * 2 ^ (2 * h) = 1 / 2 ^ t := by
    rw [one_div, ← zpow_natCast, ← zpow_natCast, ← zpow_neg, ← zpow_mul, ← zpow_add₀ two_ne_zero]
    congr 1
    push_cast
    omega
  have hscale : ∀ z : ℚ, (z * 2 ^ (k - 24)) ^ 2 * (m' * 2 ^ (2 * h)) = z ^ 2 * m' / 2 ^ t := fun z => by
    rw [div_eq_mul_one_div, ← hg]
    ring
  rw [hunit, ← add_mul, hscale, one_lt_div hT] at hnear
  rw [hscale, one_le_div hT]
  by_contra hc
  have hint : N ^ 2 * m' + 1 ≤ 2 ^ t := by exact_mod_cast not_le.1 hc
  have hint' : (N : ℚ) ^ 2 * m' + 1 ≤ 2 ^ t := by exact_mod_cast hint
  have hδ0 : (0 : ℚ) < 2 ^ (-(k + h) - 96) := by positivity
  have hδ : (2 : ℚ) ^ (-(k + h) - 96) ≤ 2 ^ (-83 : ℤ) := two_zpow_le_iff.2 (by omega)
  generalize (2 : ℚ) ^ (-(k + h) - 96) = δ at *
  have hN' : (N : ℚ) ≤ 2 ^ 26 := by exact_mod_cast hN
  have hm : (m' : ℚ) ≤ 2 ^ 25 := by exact_mod_cast hm'.le
  have hsmall : (2 * N + δ) * (δ * m') ≤ (2 * 2 ^ 26 + 1) * (2 ^ (-83 : ℤ) * 2 ^ 25) := by
    have h1 : δ ≤ 1 := hδ.trans (by norm_num)
    exact mul_le_mul (by linarith) (mul_le_mul hδ hm (Nat.cast_nonneg _) (by positivity)) (by positivity) (by positivity)
  have hlt : ((2 : ℚ) * 2 ^ 26 + 1) * (2 ^ (-83 : ℤ) * 2 ^ 25) < 1 := by norm_num
  have hexp : ((N : ℚ) + δ) ^ 2 * m' = N ^ 2 * m' + (2 * N + δ) * (δ * m') := by ring
  linarith

theorem two_zpow_sq (j : ℤ) : ((2 : ℚ) ^ j) ^ 2 = 2 ^ (2 * j) := by
  rw [← zpow_natCast, ← zpow_mul, mul_comm]
  rfl

theorem two_zpow_add (n : ℕ) (j : ℤ) : (2 : ℚ) ^ (j + n) = 2 ^ n * 2 ^ j := by rw [zpow_add₀ two_ne_zero, zpow_natCast, mul_comm]

theorem sq_mul_mono {y z x : ℚ} (hy : 0 ≤ y) (hyz : y ≤ z) (hx : 0 ≤ x) : y ^ 2 * x ≤ z ^ 2 * x :=
  mul_le_mul_of_nonneg_right (pow_le_pow_left₀ hy hyz 2) hx

/-! The exponents: `x = m' * 2 ^ (2 * h)` has a root whose reciprocal lies in the binade of 2^k. -/

theorem rsq_shift_bounds {m' : ℕ} {h k : ℤ} (hm0 : m' ≠ 0) (hm' : m' < 2 ^ 25) (h1 : (2 : ℚ) ^ (2 * k) * (m' * 2 ^ (2 * h)) ≤ 1)
    (h2 : (1 : ℚ) < 2 ^ (2 * k + 2) * (m' * 2 ^ (2 * h))) : -13 ≤ k + h ∧ k + h ≤ 0 := by
  constructor
  · have hle : (2 : ℚ) ^ (2 * k + 2) * (m' * 2 ^ (2 * h)) ≤ 2 ^ (2 * k + 2) * (2 ^ (25 : ℤ) * 2 ^ (2 * h)) :=
      mul_le_mul_of_nonneg_left (mul_le_mul_of_nonneg_right (by exact_mod_cast hm'.le) (by positivity)) (by positivity)
    have hlt := h2.trans_le hle
    rw [← zpow_add₀ two_ne_zero, ← zpow_add₀ two_ne_zero, ← zpow_zero (2 : ℚ), two_zpow_lt_iff] at hlt
    omega
  · have h1m : (1 : ℚ) ≤ m' := by exact_mod_cast Nat.one_le_iff_ne_zero.2 hm0
    have hle : (2 : ℚ) ^ (2 * k) * (1 * 2 ^ (2 * h)) ≤ 2 ^ (2 * k) * (m' * 2 ^ (2 * h)) :=
      mul_le_mul_of_nonneg_left (mul_le_mul_of_nonneg_right h1m (by positivity)) (by positivity)
    have hle := hle.trans h1
    rw [one_mul, ← zpow_add₀ two_ne_zero, ← zpow_zero (2 : ℚ), two_zpow_le_iff] at hle
    omega

theorem rsq_exponent_bounds {x : ℚ} {k : ℤ} (hlo : 2 ^ (-149 : ℤ) ≤ x) (hhi : x < 2 ^ (128 : ℤ)) (h1 : 2 ^ (2 * k) * x ≤ 1)
    (h2 : 1 < 2 ^ (2 * k + 2) * x) : -65 < k ∧ k ≤ 74 := by
  constructor
  · have hlt := h2.trans (mul_lt_mul_of_pos_left hhi (by positivity))
    rw [← zpow_add₀ two_ne_zero, ← zpow_zero (2 : ℚ), two_zpow_lt_iff] at hlt
    omega
  · have hle := (mul_le_mul_of_nonneg_left hlo (by positivity)).trans h1
    rw [← zpow_add₀ two_ne_zero, ← zpow_zero (2 : ℚ), two_zpow_le_iff] at hle
    omega

/-! The model's value is the reciprocal root truncated to a multiple of 2^(-h-120), in the root's own binade. -/

theorem isqrt_div_spec {m' : ℕ} (hm0 : m' ≠ 0) :
    isqrt (2 ^ 240 / m') * isqrt (2 ^ 240 / m') * m' ≤ 2 ^ 240 ∧
      2 ^ 240 < (isqrt (2 ^ 240 / m') + 1) * (isqrt (2 ^ 240 / m') + 1) * m' := by
  obtain ⟨hs1, hs2⟩ := isqrt_spec (2 ^ 240 / m')
  exact ⟨(Nat.le_div_iff_mul_le (Nat.pos_of_ne_zero hm0)).1 hs1, (Nat.div_lt_iff_lt_mul (Nat.pos_of_ne_zero hm0)).1 hs2⟩

theorem rsq_binade_low {s m' : ℕ} {h k : ℤ} (hs : 2 ^ 240 < (s + 1) * (s + 1) * m') (hkh : -13 ≤ k + h)
    (h1 : (2 : ℚ) ^ (2 * k) * (m' * 2 ^ (2 * h)) ≤ 1) : (2 : ℚ) ^ k ≤ s * 2 ^ (-h - 120) := by
  have hN : ((2 ^ (k + h + 120).toNat : ℕ) : ℚ) * 2 ^ (-h - 120) = 2 ^ k := by
    rw [Nat.cast_pow, Nat.cast_ofNat, ← two_zpow_add]
    congr 1
    omega
  rw [← two_zpow_sq, ← hN] at h1
  have hle := (sq_mul_le_one_iff _ m' h).1 h1
  have hlt := lt_of_mul_lt_mul_right (hle.trans_lt hs) (Nat.zero_le m')
  rw [← hN]
  refine mul_le_mul_of_nonneg_right ?_ (by positivity)
  exact_mod_cast Nat.lt_succ_iff.1 (lt_of_mul_self_lt_mul_self₀ (Nat.zero_le _) hlt)

theorem rsq_binade_high {v x : ℚ} {k : ℤ} (hv : v ^ 2 * x ≤ 1) (h0 : 0 < x) (h2 : 1 < 2 ^ (2 * k + 2) * x) : v < 2 ^ (k + 1) := by
  by_contra hc
  have hsq := sq_mul_mono (by positivity) (not_lt.1 hc) h0.le
  rw [two_zpow_sq, mul_add, mul_one] at hsq
  linarith

theorem quantum_of_binade {s : ℕ} {q k : ℤ} (hk : -65 < k) (hlo : (2 : ℚ) ^ k ≤ s * 2 ^ q) (hhi : (s : ℚ) * 2 ^ q < 2 ^ (k + 1)) :
    quantum Fmt.f32 s q = k - 23 := by
  have hs0 : s ≠ 0 := by
    rintro rfl
    rw [Nat.cast_zero, zero_mul] at hlo
    exact absurd hlo (not_le.2 (by positivity))
  obtain ⟨h3, h4⟩ := log2_bounds ℚ hs0 q
  have h5 := two_zpow_lt_iff.1 (hlo.trans_lt h4)
  have h6 := two_zpow_lt_iff.1 (h3.trans_lt hhi)
  have hbits : (Fmt.f32.mbits : ℤ) = 23 := rfl
  rw [quantum, qmin32]
  omega

/-- FRSQ of an even power of two, whose root is exact. -/
theorem frsq_near_of_pow {a : W32} {x : ℚ} (hx : ratF32 a = some x) (k n : ℤ) (hn : x = 2 ^ (2 * n)) (h1 : 2 ^ (2 * k) * x ≤ 1)
    (h2 : 1 < 2 ^ (2 * k + 2) * x) :
    ∃ y, ratF32 (frsq a).1 = some y ∧ 2 ^ (k - 23) < y ∧ (y - 2 ^ (k - 23)) ^ 2 * x ≤ 1 ∧ 1 ≤ (y + 2 ^ (k - 23)) ^ 2 * x := by
  obtain rfl : k = -n := by
    rw [hn, ← zpow_add₀ two_ne_zero, ← zpow_zero (2 : ℚ)] at h1 h2
    have := two_zpow_le_iff.1 h1
    have := two_zpow_lt_iff.1 h2
    omega
  have h0 : 0 ≤ x := hn ▸ by positivity
  have hone : ((2 : ℚ) ^ (-n)) ^ 2 * x = 1 := by
    rw [hn, two_zpow_sq, ← zpow_add₀ two_ne_zero, show 2 * -n + 2 * n = 0 by ring, zpow_zero]
  have hU : (0 : ℚ) < 2 ^ (-n - 23) := by positivity
  have hU' : (2 : ℚ) ^ (-n) = 2 ^ 23 * 2 ^ (-n - 23) := by rw [← two_zpow_add]; congr 1; push_cast; ring
  exact ⟨_, (frsq_exact hx n hn).1, by linarith, (sq_mul_mono (by linarith) (by linarith) h0).trans_eq hone,
    hone.symm.trans_le (sq_mul_mono (by positivity) (by linarith) h0)⟩

/-- A number of FP32's grid within one unit in the last place of the truncated root lies within one of the root itself. -/
theorem one_le_sq_of_trunc {w : W32} {y v : ℚ} {m' : ℕ} {h k : ℤ} (hy : ratF32 w = some y) (hm' : m' < 2 ^ 25) (hk : -13 ≤ k + h)
    (hk' : k + h ≤ 0) (hlo : 2 ^ k ≤ v) (hhi : v < 2 ^ (k + 1)) (hn1 : v - 2 ^ (k - 23) ≤ y) (hn2 : y ≤ v + 2 ^ (k - 23))
    (hv : 1 < (v + 2 ^ (-h - 120)) ^ 2 * (m' * 2 ^ (2 * h))) : 1 ≤ (y + 2 ^ (k - 23)) ^ 2 * (m' * 2 ^ (2 * h)) := by
  have hg : (0 : ℚ) < 2 ^ (k - 24) := by positivity
  have hU : (2 : ℚ) ^ (k - 23) = 2 ^ 1 * 2 ^ (k - 24) := by rw [← two_zpow_add]; congr 1; push_cast; ring
  have hlow : (2 : ℚ) ^ (k - 1) = 2 ^ 23 * 2 ^ (k - 24) := by rw [← two_zpow_add]; congr 1; push_cast; ring
  have hmid : (2 : ℚ) ^ k = 2 ^ 24 * 2 ^ (k - 24) := by rw [← two_zpow_add]; congr 1; push_cast; ring
  have hhigh : (2 : ℚ) ^ (k + 1) = 2 ^ 25 * 2 ^ (k - 24) := by rw [← two_zpow_add]; congr 1; push_cast; ring
  obtain ⟨N, rfl⟩ := multiple_of_le hy (k := k) (by linarith)
  have hsum : (N : ℚ) * 2 ^ (k - 24) + 2 ^ (k - 23) = ((N + 2 : ℕ) : ℚ) * 2 ^ (k - 24) := by rw [hU]; push_cast; ring
  have hN : ((N + 2 : ℕ) : ℚ) * 2 ^ (k - 24) ≤ (2 ^ 26 : ℕ) * 2 ^ (k - 24) := by rw [← hsum]; push_cast; linarith
  have hv0 : 0 ≤ v + 2 ^ (-h - 120) := by
    have : (0 : ℚ) < 2 ^ k := by positivity
    have : (0 : ℚ) < 2 ^ (-h - 120) := by positivity
    linarith
  rw [hsum]
  refine one_le_sq_of_near hm' hk hk' (by exact_mod_cast le_of_mul_le_mul_right hN hg) (hv.trans_le (sq_mul_mono hv0 ?_ (by positivity)))
  rw [← hsum]
  linarith

/-- FRSQ lies within one unit in the last place of the reciprocal root [05 R85]. -/
theorem frsq_near {a : W32} {x : ℚ} (hx : ratF32 a = some x) (k : ℤ) (h0 : 0 < x) (h1 : 2 ^ (2 * k) * x ≤ 1) (h2 : 1 < 2 ^ (2 * k + 2) * x) :
    ∃ y, ratF32 (frsq a).1 = some y ∧ 2 ^ (k - 23) < y ∧ (y - 2 ^ (k - 23)) ^ 2 * x ≤ 1 ∧ 1 ≤ (y + 2 ^ (k - 23)) ^ 2 * x := by
  obtain ⟨m, e, hv, hm, rfl⟩ := fin_of_pos hx h0
  rcases frsq_cases hv hm with ⟨n, hn⟩ | hr
  · exact frsq_near_of_pow hx k n hn h1 h2
  · obtain ⟨m', h, hm', hh, hval⟩ := even_exponent m e
    obtain ⟨-, -, -, -, hm24, -, -⟩ := f32_fin hv
    obtain ⟨hxlo, hxhi⟩ := f32_bounds hv hm
    have hm25 : m' < 2 ^ 25 := by rw [← hm']; split_ifs <;> omega
    have hm0 : m' ≠ 0 := by rintro rfl; simp [hval] at h0
    obtain ⟨hs1, hs2⟩ := isqrt_div_spec hm0
    have hreal := real_rsq hm' hh false
    rw [hr]
    rw [hval] at h0 h1 h2 hxlo hxhi ⊢
    generalize isqrt (2 ^ 240 / m') = s at *
    have hmv : modelValue .rsq false m e = s * 2 ^ (-h - 120) := by rw [modelValue, hreal]; push_cast; rfl
    obtain ⟨hk1, hk2⟩ := rsq_shift_bounds hm0 hm25 h1 h2
    obtain ⟨hk3, hk4⟩ := rsq_exponent_bounds hxlo hxhi h1 h2
    have hVle := (sq_mul_le_one_iff s m' h).2 hs1
    have hVlt := not_le.1 (mt (sq_mul_le_one_iff (s + 1) m' h).1 (not_le.2 hs2))
    rw [Nat.cast_succ, add_mul, one_mul] at hVlt
    have hlo := rsq_binade_low hs2 hk1 h1
    have hhi := rsq_binade_high hVle h0 h2
    have hulp : ulpOf .rsq false m e = k - 23 := by rw [ulpOf, hreal, Int.natAbs_natCast, quantum_of_binade hk3 hlo hhi]
    have hbound : boundOf .rsq false m e = k - 23 := hulp
    obtain ⟨y, hy, hnear⟩ := value_near (f := .rsq) (neg := false) (m := m) (e := e) a (by
      rw [hmv, abs_of_nonneg (by positivity)]
      exact le_top_of_le (hhi.le.trans (by exact_mod_cast two_zpow_le_iff.2 (show k + 1 ≤ 127 by omega)))) (by omega)
    rw [hmv, hbound, abs_le] at hnear
    obtain ⟨hn1, hn2⟩ := hnear
    have hU : (2 : ℚ) ^ k = 2 ^ 23 * 2 ^ (k - 23) := by rw [← two_zpow_add]; congr 1; push_cast; ring
    have hU0 : (0 : ℚ) < 2 ^ (k - 23) := by positivity
    exact ⟨y, hy, by linarith, (sq_mul_mono (by linarith) (by linarith) h0.le).trans hVle,
      one_le_sq_of_trunc hy hm25 hk1 hk2 hlo hhi (by linarith) (by linarith) hVlt⟩

end Rounding
end

section
/-! ### FEXP2, FLOG2, FTANH, FSIN and FCOS within their bounds [05 R85] -/

namespace Rounding
open Sys2Proof Sys2Proof.Machine Sys2Proof.Claims

/-! #### Fixed-point numbers -/

theorem q100_eq : (q100 : ℤ) = 2 ^ 100 := rfl

/-- A finite value in fixed point is its number floored. -/
theorem toQ_bounds (neg : Bool) (m : ℕ) (e : ℤ) : (toQ neg m e : ℚ) ≤ signed neg (m * 2 ^ e) * 2 ^ 100 ∧
    signed neg ((m : ℚ) * 2 ^ e) * 2 ^ 100 < toQ neg m e + 1 := by
  have hs : (((if neg then -(m : ℤ) else m) : ℤ) : ℚ) * 2 ^ e = signed neg (m * 2 ^ e) := by cases neg <;> simp [signed]
  have hshift : signed neg ((m : ℚ) * 2 ^ e) * 2 ^ 100 = ((if neg then -(m : ℤ) else m : ℤ) : ℚ) * 2 ^ (e + 100) := by
    rw [← hs, zpow_add₀ two_ne_zero, mul_assoc]
    norm_num
  rw [hshift]
  unfold toQ
  dsimp only
  generalize (if neg then -(m : ℤ) else m) = s
  split_ifs with h
  · have hp : (((s * 2 ^ (e + 100).toNat : ℤ)) : ℚ) = s * 2 ^ (e + 100) := by
      push_cast
      rw [← zpow_natCast, Int.toNat_of_nonneg h]
    rw [hp]
    exact ⟨le_rfl, lt_add_one _⟩
  · obtain ⟨d, hd⟩ : ∃ d : ℕ, -(e + 100) = d := ⟨(-(e + 100)).toNat, by omega⟩
    have hfl : s / 2 ^ (-(e + 100)).toNat = ⌊(s : ℚ) * 2 ^ (e + 100)⌋ := by
      rw [show (-(e + 100)).toNat = d by omega, show e + 100 = -(d : ℤ) by omega, zpow_neg, zpow_natCast, ← div_eq_mul_inv]
      have := Rat.floor_intCast_div_natCast s (2 ^ d)
      push_cast at this
      exact this.symm
    rw [hfl]
    exact ⟨Int.floor_le _, Int.lt_floor_add_one _⟩

/-- A fixed-point number of magnitude at most 1. -/
theorem abs_fixed_le {s : ℤ} (h : |s| ≤ 2 ^ 100) : |(s : ℚ) * 2 ^ (-100 : ℤ)| ≤ 1 := by
  have h' : |(s : ℚ)| ≤ 2 ^ 100 := by exact_mod_cast h
  rw [abs_mul, abs_of_pos (show (0 : ℚ) < 2 ^ (-100 : ℤ) by positivity)]
  refine (mul_le_mul_of_nonneg_right h' (by positivity)).trans ?_
  norm_num

theorem mulQ_nonneg {a b : ℤ} (ha : 0 ≤ a) (hb : 0 ≤ b) : 0 ≤ mulQ a b := Int.ediv_nonneg (mul_nonneg ha hb) (by decide)

theorem mulQ_mono {a a' b b' : ℤ} (ha : a ≤ a') (hb : b ≤ b') (hb0 : 0 ≤ b) (ha0 : 0 ≤ a') : mulQ a b ≤ mulQ a' b' :=
  Int.ediv_le_ediv (by decide) (mul_le_mul ha hb hb0 ha0)

/-! #### FEXP2 -/

/-- A step of the exponential's series. -/
def expStep (t : ℤ) (k : ℕ) (acc : ℤ) : ℤ := q100 + mulQ t acc / (k + 1 : ℕ)

theorem expSeries_eq (t : ℤ) : expSeries t = (List.range 40).foldr (expStep t) q100 := rfl

/-- The exponential's series is at least 1 and grows with a non-negative argument. -/
theorem expSeries_mono {t T : ℤ} (h0 : 0 ≤ t) (h : t ≤ T) : (q100 : ℤ) ≤ expSeries t ∧ expSeries t ≤ expSeries T := by
  rw [expSeries_eq, expSeries_eq]
  induction List.range 40 with
  | nil => exact ⟨le_rfl, le_rfl⟩
  | cons k ks ih =>
    have hq : (0 : ℤ) ≤ q100 := by decide
    have hk : (0 : ℤ) ≤ (k + 1 : ℕ) := Int.natCast_nonneg _
    obtain ⟨h1, h2⟩ := ih
    simp only [List.foldr_cons]
    constructor
    · have := Int.ediv_nonneg (mulQ_nonneg h0 (hq.trans h1)) hk
      rw [expStep]
      linarith
    · have := Int.ediv_le_ediv (c := ((k + 1 : ℕ) : ℤ)) (by positivity) (mulQ_mono h h2 (hq.trans h1) (h0.trans h))
      rw [expStep, expStep]
      linarith

/-- The bounds of the model's power of two: at least 1 below its exponent, and at most 3 times it. -/
theorem exp2Q_bounds (x : ℤ) : (exp2Q x).2 = x / 2 ^ 100 ∧ 2 ^ 100 ≤ (exp2Q x).1 ∧ (exp2Q x).1 ≤ 3 * 2 ^ 100 ∧
    (x % 2 ^ 100 ≤ 2 ^ 100 - 2 ^ 83 → (exp2Q x).1 ≤ 2 ^ 101 - 2 ^ 77) := by
  have hdef : exp2Q x = (expSeries (mulQ (x - x / q100 * q100) ln2Q), x / q100) := rfl
  rw [hdef, q100_eq, show x - x / 2 ^ 100 * 2 ^ 100 = x % 2 ^ 100 by omega]
  have hr0 : 0 ≤ x % 2 ^ 100 := Int.emod_nonneg x (by norm_num)
  have hr1 : x % 2 ^ 100 ≤ 2 ^ 100 := (Int.emod_lt_of_pos x (by norm_num)).le
  have hln : (0 : ℤ) ≤ ln2Q := by decide
  have hmono := fun {T : ℤ} (h : x % 2 ^ 100 ≤ T) => expSeries_mono (mulQ_nonneg hr0 hln) (mulQ_mono h le_rfl hln (hr0.trans h))
  have htwo : expSeries (mulQ (2 ^ 100) ln2Q) ≤ 3 * 2 ^ 100 := by norm_num [expSeries, List.range_succ, mulQ, q100, ln2Q]
  have hbelow : expSeries (mulQ (2 ^ 100 - 2 ^ 83) ln2Q) ≤ 2 ^ 101 - 2 ^ 77 := by norm_num [expSeries, List.range_succ, mulQ, q100, ln2Q]
  exact ⟨rfl, (hmono hr1).1, (hmono hr1).2.trans htwo, fun h => (hmono h).2.trans hbelow⟩

/-- The fixed-point operand of FEXP2. -/
def exp2Arg (neg : Bool) (m : ℕ) (e : ℤ) : ℤ := if neg || m = 0 then toQ neg m e else max (2 ^ 40) (toQ neg m e)

theorem modelValue_exp2 (neg : Bool) (m : ℕ) (e : ℤ) :
    modelValue .exp2 neg m e = (exp2Q (exp2Arg neg m e)).1 * 2 ^ ((exp2Q (exp2Arg neg m e)).2 - 100) := rfl

/-- Below 128 the operand is at most the FP32 number before it. -/
theorem le_before_128 {a : W32} {neg : Bool} {m : ℕ} {e : ℤ} (hv : f32 a = .fin neg m e) (h : signed neg ((m : ℚ) * 2 ^ e) < 128) :
    signed neg ((m : ℚ) * 2 ^ e) ≤ 128 - 1 / 2 ^ 17 := by
  cases neg with
  | true =>
    rw [signed_true]
    have : (0 : ℚ) ≤ m * 2 ^ e := by positivity
    have : (1 : ℚ) / 2 ^ 17 ≤ 128 := by norm_num
    linarith
  | false =>
    rw [signed_false] at h ⊢
    obtain ⟨p, -, -, -, -, -, hmag⟩ := f32_fin hv
    have h128 : mag ℚ Fmt.f32 0x43000000 = 128 := by norm_num [mag, Fmt.f32, qmin]
    have hbefore : mag ℚ Fmt.f32 0x42FFFFFF = 128 - 1 / 2 ^ 17 := by norm_num [mag, Fmt.f32, qmin]
    have hmono := mag_strictMono (K := ℚ) (f := Fmt.f32)
    rw [← hmag, ← h128, hmono.lt_iff_lt] at h
    rw [← hmag, ← hbefore]
    exact hmono.monotone (by omega)

/-- The power of two of an operand in range stays within FP32. -/
theorem modelValue_exp2_le {a : W32} {neg : Bool} {m : ℕ} {e : ℤ} (hv : f32 a = .fin neg m e) (h : signed neg ((m : ℚ) * 2 ^ e) < 128) :
    |modelValue .exp2 neg m e| ≤ mag ℚ Fmt.f32 Fmt.f32.top := by
  have hQ : exp2Arg neg m e ≤ 2 ^ 107 - 2 ^ 83 := by
    have hle := le_before_128 hv h
    have h1 := (toQ_bounds neg m e).1
    have h2 : (toQ neg m e : ℚ) ≤ ((2 ^ 107 - 2 ^ 83 : ℤ) : ℚ) := by
      refine h1.trans ((mul_le_mul_of_nonneg_right hle (by positivity)).trans ?_)
      norm_num
    have h3 : toQ neg m e ≤ 2 ^ 107 - 2 ^ 83 := by exact_mod_cast h2
    unfold exp2Arg
    split_ifs
    · exact h3
    · exact max_le (by norm_num) h3
  obtain ⟨hn, hs0, hs1, hs2⟩ := exp2Q_bounds (exp2Arg neg m e)
  rw [modelValue_exp2, abs_of_nonneg (by
    have : (0 : ℚ) ≤ (exp2Q (exp2Arg neg m e)).1 := by exact_mod_cast (by positivity : (0 : ℤ) ≤ 2 ^ 100).trans hs0
    positivity), hn, mag_top32]
  generalize (exp2Q (exp2Arg neg m e)).1 = s at *
  generalize exp2Arg neg m e = Q at *
  have hQ' : Q / 2 ^ 100 ≤ 127 := by omega
  rcases hQ'.lt_or_eq with hlt | heq
  · have h1 : (2 : ℚ) ^ (Q / 2 ^ 100 - 100) ≤ 2 ^ (26 : ℤ) := two_zpow_le_iff.2 (by omega)
    have h2 : (s : ℚ) ≤ 3 * 2 ^ 100 := by exact_mod_cast hs1
    refine (mul_le_mul h2 h1 (by positivity) (by positivity)).trans ?_
    norm_num
  · have h2 : (s : ℚ) ≤ 2 ^ 101 - 2 ^ 77 := by exact_mod_cast hs2 (by omega)
    rw [heq]
    refine (mul_le_mul_of_nonneg_right h2 (by positivity)).trans ?_
    norm_num

/-- The model's power of two of an integer is exact. -/
theorem modelValue_exp2_int {neg : Bool} {m : ℕ} {e n : ℤ} (h : signed neg ((m : ℚ) * 2 ^ e) = n) : modelValue .exp2 neg m e = 2 ^ n := by
  obtain ⟨h1, h2⟩ := toQ_bounds neg m e
  rw [h] at h1 h2
  have hQ : toQ neg m e = n * 2 ^ 100 := by
    have h1' : toQ neg m e ≤ n * 2 ^ 100 := by exact_mod_cast h1
    have h2' : n * 2 ^ 100 < toQ neg m e + 1 := by exact_mod_cast h2
    omega
  have harg : exp2Arg neg m e = n * 2 ^ 100 := by
    unfold exp2Arg
    rw [hQ]
    split_ifs with hc
    · rfl
    · simp only [Bool.or_eq_true, decide_eq_true_iff, not_or, Bool.not_eq_true] at hc
      obtain ⟨rfl, hm⟩ := hc
      have hn : 0 < n := by
        have : (0 : ℚ) < n := by rw [← h, signed_false]; positivity
        exact_mod_cast this
      exact max_eq_right (by omega)
  have hexp : exp2Q (n * 2 ^ 100) = (2 ^ 100, n) := by
    have hdiv : n * 2 ^ 100 / (q100 : ℤ) = n := by rw [q100_eq, Int.mul_ediv_cancel _ (by norm_num)]
    have hzero : expSeries (mulQ 0 ln2Q) = 2 ^ 100 := by norm_num [expSeries, List.range_succ, mulQ, q100]
    have hdef : exp2Q (n * 2 ^ 100) = (expSeries (mulQ (n * 2 ^ 100 - n * 2 ^ 100 / q100 * q100) ln2Q), n * 2 ^ 100 / q100) := rfl
    rw [hdef, hdiv, q100_eq, sub_self, hzero]
  rw [modelValue_exp2, harg, hexp, sub_eq_add_neg, add_comm, zpow_add₀ two_ne_zero, ← mul_assoc]
  norm_num

/-- FEXP2 lies within two units in the last place of the model's value [05 R85]. -/
theorem fexp2_near {a : W32} {neg : Bool} {m : ℕ} {e : ℤ} (hv : f32 a = .fin neg m e) (h1 : -150 ≤ signed neg ((m : ℚ) * 2 ^ e))
    (h2 : signed neg ((m : ℚ) * 2 ^ e) < 128) : ∃ y, ratF32 (fexp2 a).1 = some y ∧
      ∀ u, ulpAt (modelValue .exp2 neg m e) u → |y - modelValue .exp2 neg m e| ≤ 2 * u := by
  have happrox : ∃ y, ratF32 (Approx.result .exp2 a neg m e).1 = some y ∧
      ∀ u, ulpAt (modelValue .exp2 neg m e) u → |y - modelValue .exp2 neg m e| ≤ 2 * u := by
    have hb : boundOf .exp2 neg m e = ulpOf .exp2 neg m e + 1 := rfl
    obtain ⟨y, hy, hle⟩ := value_near (f := .exp2) a (modelValue_exp2_le hv h2) (by omega)
    refine ⟨y, hy, fun u hu => ?_⟩
    rw [ulpAt_modelValue hu, ← zpow_one_add₀ two_ne_zero, add_comm, ← hb]
    exact hle
  cases hk : asInt neg m e with
  | none => rw [fexp2_of_none hv h1 h2 hk]; exact happrox
  | some k =>
    rw [fexp2_of_some hv h1 h2 hk]
    split_ifs with hlow
    · exact happrox
    · have hval := asInt_eq_some.1 hk
      have hk' : k < 128 := by rw [hval] at h2; exact_mod_cast h2
      refine ⟨2 ^ k, ofInt32_two_zpow (by omega) (by omega), fun u hu => ?_⟩
      rw [modelValue_exp2_int hval, sub_self, abs_zero, ulpAt_modelValue hu]
      positivity

/-! #### FLOG2 -/

theorem log2Bits_lt (n y acc : ℕ) : log2Bits n y acc < (acc + 1) * 2 ^ n := by
  induction n generalizing y acc with
  | zero => simp [log2Bits]
  | succ n ih =>
    unfold log2Bits
    dsimp only
    have hpow : (acc + 1) * 2 ^ (n + 1) = (2 * acc + 1 + 1) * 2 ^ n := by ring
    rw [hpow]
    split_ifs
    · exact ih _ _
    · exact (ih _ _).trans_le (Nat.mul_le_mul_right _ (by omega))

/-- The fraction bits of the logarithm of 1. -/
theorem log2Bits_one (n : ℕ) : log2Bits n q100 0 = 0 := by
  induction n with
  | zero => rfl
  | succ n ih =>
    have hpos : 0 < q100 := by decide
    unfold log2Bits
    dsimp only
    rw [Nat.mul_div_cancel _ hpos, if_neg (by omega)]
    exact ih

theorem modelValue_log2 (neg : Bool) (m : ℕ) (e : ℤ) : modelValue .log2 neg m e =
    (((e + Nat.log2 m) * 2 ^ 80 + (log2Bits 80 (m * 2 ^ 100 / 2 ^ Nat.log2 m) 0 : ℕ) : ℤ) : ℚ) * 2 ^ (-80 : ℤ) := rfl

theorem nearOne_iff {m : ℕ} {e : ℤ} : nearOne false m e = true ↔ 1 / 2 ≤ (m : ℚ) * 2 ^ e ∧ (m : ℚ) * 2 ^ e ≤ 2 := by
  have h1 : ratOf (.fin false 1 (-1)) = some (1 / 2) := by rw [ratOf_fin]; norm_num
  have h2 : ratOf (.fin false 1 1) = some 2 := by rw [ratOf_fin]; norm_num
  have h3 : valLt (.fin false m e) (.fin false 1 (-1)) = decide ((m : ℚ) * 2 ^ e < 1 / 2) := valLt_fin (ratOf_fin false m e) h1
  have h4 : valLt (.fin false 1 1) (.fin false m e) = decide (2 < (m : ℚ) * 2 ^ e) := valLt_fin h2 (ratOf_fin false m e)
  rw [nearOne, h3, h4, Bool.and_eq_true, Bool.not_eq_true', Bool.not_eq_true', decide_eq_false_iff_not, decide_eq_false_iff_not, not_lt, not_lt]

/-- FLOG2 lies within two units in the last place of the model's value, or within 2^-22 near 1 [05 R85]. -/
theorem flog2_near {a : W32} {neg : Bool} {m : ℕ} {e : ℤ} (hv : f32 a = .fin neg m e) (h0 : 0 < signed neg ((m : ℚ) * 2 ^ e)) :
    ∃ y, ratF32 (flog2 a).1 = some y ∧ ∀ u, ulpAt (modelValue .log2 neg m e) u → |y - modelValue .log2 neg m e| ≤
      if 1 / 2 ≤ signed neg ((m : ℚ) * 2 ^ e) ∧ signed neg ((m : ℚ) * 2 ^ e) ≤ 2 then max (2 * u) (2 ^ (-22 : ℤ)) else 2 * u := by
  have hx : ratF32 a = some (signed neg (m * 2 ^ e)) := by rw [ratF32, hv, ratOf_fin]
  obtain ⟨rfl, hm⟩ := sign_of_pos h0
  rw [signed_false] at h0 hx ⊢
  cases hp : powerOfTwo m e with
  | some k =>
    obtain ⟨hm2, hk, hval⟩ := eq_of_powerOfTwo hp
    have hmv : modelValue .log2 false m e = k := by
      have hq : m * 2 ^ 100 / 2 ^ Nat.log2 m = q100 := by
        rw [← hm2, Nat.mul_div_cancel_left _ (Nat.pos_of_ne_zero hm)]
        rfl
      rw [modelValue_log2, hq, log2Bits_one, ← hk, Nat.cast_zero, add_zero, Int.cast_mul, mul_assoc]
      norm_num
    refine ⟨k, (flog2_exact hx k hval).1, fun u hu => ?_⟩
    rw [hmv, sub_self, abs_zero, ulpAt_modelValue hu]
    split_ifs <;> positivity
  | none =>
    have hr : flog2 a = Approx.log2.value a false m e := by
      simp only [flog2, hv, if_neg hm, hp, Bool.false_eq_true, if_false]
      rfl
    have htop : |modelValue .log2 false m e| ≤ mag ℚ Fmt.f32 Fmt.f32.top := by
      obtain ⟨h1, h2⟩ := log2_bounds ℚ hm e
      obtain ⟨h3, h4⟩ := f32_bounds hv hm
      have h5 := two_zpow_lt_iff.1 (h1.trans_lt h4)
      have h6 := two_zpow_lt_iff.1 (h3.trans_lt h2)
      have hfrac := log2Bits_lt 80 (m * 2 ^ 100 / 2 ^ Nat.log2 m) 0
      rw [modelValue_log2]
      generalize log2Bits 80 (m * 2 ^ 100 / 2 ^ Nat.log2 m) 0 = frac at *
      have hs : |(e + Nat.log2 m) * 2 ^ 80 + (frac : ℤ)| ≤ 2 ^ 90 := by
        rw [abs_le]
        omega
      have hs' : |(((e + Nat.log2 m) * 2 ^ 80 + (frac : ℤ) : ℤ) : ℚ)| ≤ 2 ^ 90 := by exact_mod_cast hs
      rw [abs_mul, abs_of_pos (show (0 : ℚ) < 2 ^ (-80 : ℤ) by positivity)]
      exact le_top_of_le ((mul_le_mul_of_nonneg_right hs' (by positivity)).trans (by norm_num))
    have hb : boundOf .log2 false m e = if nearOne false m e then max (ulpOf .log2 false m e + 1) (-22) else ulpOf .log2 false m e + 1 := rfl
    obtain ⟨y, hy, hle⟩ := value_near (f := .log2) a htop (by rw [hb]; split_ifs <;> omega)
    refine ⟨y, by rw [hr]; exact hy, fun u hu => ?_⟩
    have hu2 : 2 * u = 2 ^ (ulpOf .log2 false m e + 1) := by rw [ulpAt_modelValue hu, zpow_add_one₀ two_ne_zero, mul_comm]
    rw [hb] at hle
    rw [hu2]
    by_cases hn : nearOne false m e = true
    · rw [if_pos hn] at hle
      rw [if_pos (nearOne_iff.1 hn)]
      rcases le_total (ulpOf .log2 false m e + 1) (-22) with hc | hc
      · rw [max_eq_right hc] at hle
        exact le_max_of_le_right hle
      · rw [max_eq_left hc] at hle
        exact le_max_of_le_left hle
    · rw [if_neg hn] at hle
      rwa [if_neg (mt nearOne_iff.2 hn)]

/-! #### FTANH -/

/-- Clearing the sign bit leaves a number without sign as it is. -/
theorem clear_sign {a : W32} {m : ℕ} {e : ℤ} (hv : f32 a = .fin false m e) : a &&& 0x7FFFFFFF = a := by
  obtain ⟨-, -, -, hn, -⟩ := f32_fin hv
  have hs : ∀ i < 32, (0x7FFFFFFF : W32).getLsbD i = decide (i ≠ 31) := by decide
  refine BitVec.eq_of_getLsbD_eq fun i hi => ?_
  rw [BitVec.getLsbD_and, hs i hi]
  by_cases h : i = 31
  · subst h
    rw [← hn]
    rfl
  · simp [h]

/-- The model's hyperbolic tangent: a polynomial for a small operand, and a quotient otherwise. -/
def tanhPoly (x : ℤ) : ℤ := q100 - (mulQ x x / 3 + 1) + 2 * mulQ (mulQ x x) (mulQ x x) / 15 - 17 * mulQ (mulQ x x) (mulQ (mulQ x x) (mulQ x x)) / 315
def tanhQuot (u : ℤ) : ℤ := (q100 - u) * q100 / (q100 + u)

theorem real_tanh (m : ℕ) (e : ℤ) : Approx.tanh.real false m e =
    if e + (Nat.log2 m : ℤ) < -8 then ((m : ℤ) * tanhPoly (toQ false m e), e - 100)
    else (tanhQuot ((exp2Q (-(2 * toQ false m e * q100 / ln2Q))).1 / 2 ^ (-(exp2Q (-(2 * toQ false m e * q100 / ln2Q))).2).toNat), -100) := by
  rfl

theorem abs_tanhPoly_le {x : ℤ} (h0 : 0 ≤ x) (h : x ≤ 2 ^ 92) : |tanhPoly x| ≤ 2 ^ 101 := by
  have hsq := mulQ_mono h h h0 (by norm_num)
  have hsq0 := mulQ_nonneg h0 h0
  have h1 : mulQ (2 ^ 92) (2 ^ 92) = 2 ^ 84 := by norm_num [mulQ, q100]
  rw [h1] at hsq
  unfold tanhPoly
  generalize mulQ x x = t at *
  have hfour := mulQ_mono hsq hsq hsq0 (by norm_num)
  have hfour0 := mulQ_nonneg hsq0 hsq0
  have h2 : mulQ (2 ^ 84) (2 ^ 84) = 2 ^ 68 := by norm_num [mulQ, q100]
  rw [h2] at hfour
  generalize mulQ t t = f at *
  have hsix := mulQ_mono hsq hfour hfour0 (by norm_num)
  have hsix0 := mulQ_nonneg hsq0 hfour0
  have h3 : mulQ (2 ^ 84) (2 ^ 68) = 2 ^ 52 := by norm_num [mulQ, q100]
  rw [h3] at hsix
  rw [q100_eq, abs_le]
  omega

theorem abs_tanhQuot_le {u : ℤ} (h : 0 ≤ u) : |tanhQuot u| ≤ 2 ^ 100 := by
  unfold tanhQuot
  rw [q100_eq]
  have hpos : (0 : ℤ) < 2 ^ 100 + u := by linarith [show (0 : ℤ) < 2 ^ 100 by norm_num]
  rw [abs_le]
  constructor
  · rw [Int.le_ediv_iff_mul_le hpos]
    nlinarith
  · refine Int.ediv_le_of_le_mul hpos ?_
    nlinarith

theorem modelValue_tanh_le {m : ℕ} {e : ℤ} (hm : m ≠ 0) : |modelValue .tanh false m e| ≤ 2 := by
  unfold modelValue
  rw [real_tanh]
  split_ifs with h
  · obtain ⟨-, hhi⟩ := log2_bounds ℚ hm e
    have hsmall : (m : ℚ) * 2 ^ e ≤ 2 ^ (-8 : ℤ) := hhi.le.trans (two_zpow_le_iff.2 (by omega))
    have hQ := toQ_bounds false m e
    rw [signed_false] at hQ
    have hQ0 : 0 ≤ toQ false m e := by
      have h1 : (0 : ℚ) < toQ false m e + 1 := lt_of_le_of_lt (by positivity) hQ.2
      have h2 : 0 < toQ false m e + 1 := by exact_mod_cast h1
      omega
    have hQ1 : toQ false m e ≤ 2 ^ 92 := by
      have h1 : (toQ false m e : ℚ) ≤ ((2 ^ 92 : ℤ) : ℚ) := hQ.1.trans ((mul_le_mul_of_nonneg_right hsmall (by positivity)).trans (by norm_num))
      exact_mod_cast h1
    have hpoly : |(tanhPoly (toQ false m e) : ℚ)| ≤ 2 ^ 101 := by exact_mod_cast abs_tanhPoly_le hQ0 hQ1
    have hval : ((((m : ℤ) * tanhPoly (toQ false m e) : ℤ) : ℚ)) * 2 ^ (e - 100) = m * 2 ^ e * (tanhPoly (toQ false m e) * 2 ^ (-100 : ℤ)) := by
      rw [sub_eq_add_neg, zpow_add₀ two_ne_zero]
      push_cast
      ring
    rw [hval, abs_mul (_ * _), abs_mul (tanhPoly _ : ℚ), abs_of_nonneg (show (0 : ℚ) ≤ m * 2 ^ e by positivity),
      abs_of_pos (show (0 : ℚ) < 2 ^ (-100 : ℤ) by positivity)]
    refine (mul_le_mul hsmall (mul_le_mul_of_nonneg_right hpoly (by positivity)) (by positivity) (by positivity)).trans ?_
    norm_num
  · obtain ⟨-, hs, -⟩ := exp2Q_bounds (-(2 * toQ false m e * q100 / ln2Q))
    exact (abs_fixed_le (abs_tanhQuot_le (Int.ediv_nonneg ((by norm_num : (0 : ℤ) ≤ 2 ^ 100).trans hs) (by positivity)))).trans one_le_two

/-- FTANH lies within two units in the last place of the model's value [05 R85]. -/
theorem ftanh_near {a : W32} {neg : Bool} {m : ℕ} {e : ℤ} (hv : f32 a = .fin neg m e) (h0 : 0 < signed neg ((m : ℚ) * 2 ^ e))
    (h10 : signed neg ((m : ℚ) * 2 ^ e) < 10) : ∃ y, ratF32 (ftanh a).1 = some y ∧
      ∀ u, ulpAt (modelValue .tanh neg m e) u → |y - modelValue .tanh neg m e| ≤ 2 * u := by
  obtain ⟨rfl, hm⟩ := sign_of_pos h0
  rw [signed_false] at h10
  have hr : ftanh a = Approx.tanh.value a false m e := by
    simp only [ftanh, hv, if_neg hm, valLt_10, decide_eq_true h10, Bool.not_true, Bool.false_eq_true, if_false, Approx.result, clear_sign hv]
  have hb : boundOf .tanh false m e = ulpOf .tanh false m e + 1 := rfl
  obtain ⟨y, hy, hle⟩ := value_near (f := .tanh) (neg := false) (m := m) (e := e) a (le_top_of_le ((modelValue_tanh_le hm).trans (by norm_num))) (by omega)
  refine ⟨y, by rw [hr]; exact hy, fun u hu => ?_⟩
  rw [ulpAt_modelValue hu, ← zpow_one_add₀ two_ne_zero, add_comm, ← hb]
  exact hle

/-! #### FSIN and FCOS -/

/-- A step of the alternating series of the sine and of the cosine. -/
def altStep (c : ℕ → ℕ) (t : ℤ) (k : ℕ) (acc : ℤ) : ℤ := q100 - mulQ t acc / (c k : ℕ)

/-- The alternating series of an argument between 0 and 1 stays there. -/
theorem altSeries_bounds (c : ℕ → ℕ) {t : ℤ} (h0 : 0 ≤ t) (h1 : t ≤ q100) (ks : List ℕ) :
    0 ≤ ks.foldr (altStep c t) q100 ∧ ks.foldr (altStep c t) q100 ≤ q100 := by
  have hq : (0 : ℤ) ≤ q100 := by decide
  induction ks with
  | nil => exact ⟨hq, le_rfl⟩
  | cons k ks ih =>
    obtain ⟨h2, h3⟩ := ih
    have hm0 := mulQ_nonneg h0 h2
    have hm1 : mulQ t (ks.foldr (altStep c t) q100) ≤ q100 := (mulQ_mono h1 h3 h2 hq).trans (by decide)
    have hd0 := Int.ediv_nonneg hm0 (Int.natCast_nonneg (c k))
    have hd1 := Int.ediv_le_self (b := (c k : ℤ)) hm0
    rw [List.foldr_cons, altStep]
    constructor <;> linarith

theorem sinQ_eq (r : ℤ) : sinQ r = mulQ r ((List.range 20).foldr (altStep (fun k => (2 * k + 2) * (2 * k + 3)) (mulQ r r)) q100) := rfl
theorem cosQ_eq (r : ℤ) : cosQ r = (List.range 20).foldr (altStep (fun k => (2 * k + 1) * (2 * k + 2)) (mulQ r r)) q100 := rfl

/-- An angle of magnitude at most 1 has a sine and a cosine of at most 1. -/
theorem trigQ_bounds {r : ℤ} (h : |r| ≤ q100) : |sinQ r| ≤ q100 ∧ |cosQ r| ≤ q100 := by
  have hq : (0 : ℤ) < q100 := by decide
  have hsq0 : 0 ≤ mulQ r r := Int.ediv_nonneg (mul_self_nonneg r) hq.le
  have hsq1 : mulQ r r ≤ q100 := Int.ediv_le_of_le_mul hq (by rw [← abs_mul_abs_self]; exact mul_le_mul h h (abs_nonneg r) hq.le)
  rw [sinQ_eq, cosQ_eq]
  obtain ⟨hs0, hs1⟩ := altSeries_bounds (fun k => (2 * k + 2) * (2 * k + 3)) hsq0 hsq1 (List.range 20)
  obtain ⟨hc0, hc1⟩ := altSeries_bounds (fun k => (2 * k + 1) * (2 * k + 2)) hsq0 hsq1 (List.range 20)
  refine ⟨?_, by rwa [abs_of_nonneg hc0]⟩
  generalize List.foldr _ _ _ = F at hs0 hs1 ⊢
  have hprod : |r * F| ≤ q100 * q100 := by
    rw [abs_mul, abs_of_nonneg hs0]
    exact mul_le_mul h hs1 hs0 hq.le
  obtain ⟨h1, h2⟩ := abs_le.1 hprod
  rw [mulQ, abs_le]
  exact ⟨(Int.le_ediv_iff_mul_le hq).2 (by linarith), Int.ediv_le_of_le_mul hq h2⟩

/-- The quarter turns in an angle, and what is left of it. -/
def quarterTurns (x : ℤ) : ℤ := (2 * x + halfPiQ) / (2 * halfPiQ)
def angleRest (x : ℤ) : ℤ := x - quarterTurns x * halfPiQ

theorem abs_angleRest_le (x : ℤ) : |angleRest x| ≤ q100 := by
  have hpi : (0 : ℤ) < 2 * halfPiQ := by decide
  have hle : halfPiQ ≤ 2 * q100 := by decide
  have h1 := Int.emod_nonneg (2 * x + halfPiQ) hpi.ne'
  have h2 := Int.emod_lt_of_pos (2 * x + halfPiQ) hpi
  have h3 := Int.mul_ediv_add_emod (2 * x + halfPiQ) (2 * halfPiQ)
  unfold angleRest quarterTurns
  generalize (2 * x + halfPiQ) / (2 * halfPiQ) = k at *
  rw [abs_le]
  constructor <;> linarith

/-- The model's sine and cosine of an angle in fixed point. -/
def sinAt (x : ℤ) : ℤ :=
  match (quarterTurns x % 4).toNat with
  | 0 => sinQ (angleRest x)
  | 1 => cosQ (angleRest x)
  | 2 => -sinQ (angleRest x)
  | _ => -cosQ (angleRest x)

def cosAt (x : ℤ) : ℤ :=
  match (quarterTurns x % 4).toNat with
  | 0 => cosQ (angleRest x)
  | 1 => -sinQ (angleRest x)
  | 2 => -cosQ (angleRest x)
  | _ => sinQ (angleRest x)

theorem abs_trigAt_le (x : ℤ) : |sinAt x| ≤ 2 ^ 100 ∧ |cosAt x| ≤ 2 ^ 100 := by
  obtain ⟨hs, hc⟩ := trigQ_bounds (abs_angleRest_le x)
  rw [q100_eq] at hs hc
  unfold sinAt cosAt
  rw [← abs_neg] at hs hc
  constructor
  · split
    exacts [by rwa [← abs_neg], by rwa [← abs_neg], hs, hc]
  · split
    exacts [by rwa [← abs_neg], hs, hc, by rwa [← abs_neg]]

theorem real_sin (m : ℕ) (e : ℤ) : Approx.sin.real false m e =
    if e + (Nat.log2 m : ℤ) < -30 then ((m : ℤ) * 2 ^ 40 - 1, e - 40) else (sinAt (toQ false m e), -100) := by
  split_ifs with h
  · simp only [Approx.real, if_pos h, Bool.false_eq_true, if_false]
  · simp only [Approx.real, if_neg h]
    rfl

theorem real_cos (m : ℕ) (e : ℤ) : Approx.cos.real false m e = (cosAt (toQ false m e), -100) := rfl

theorem modelValue_sin_le {m : ℕ} {e : ℤ} (hm : m ≠ 0) : |modelValue .sin false m e| ≤ 1 ∧ (Approx.sin.real false m e).2 ≤ 0 := by
  unfold modelValue
  rw [real_sin]
  split_ifs with h
  · obtain ⟨-, hhi⟩ := log2_bounds ℚ hm e
    have hsmall : (m : ℚ) * 2 ^ e ≤ 1 := by
      rw [← zpow_zero (2 : ℚ)]
      exact hhi.le.trans (two_zpow_le_iff.2 (by omega))
    have hval : (((m : ℤ) * 2 ^ 40 - 1 : ℤ) : ℚ) * 2 ^ (e - 40) = m * 2 ^ e - 2 ^ (e - 40) := by
      rw [sub_eq_add_neg e, zpow_add₀ two_ne_zero]
      push_cast
      norm_num
      ring
    have h1 : (1 : ℚ) ≤ m := by exact_mod_cast Nat.one_le_iff_ne_zero.2 hm
    have h2 : (2 : ℚ) ^ (e - 40) ≤ 2 ^ e := two_zpow_le_iff.2 (by omega)
    have h3 : (2 : ℚ) ^ e ≤ m * 2 ^ e := le_mul_of_one_le_left (by positivity) h1
    have h4 : (0 : ℚ) < 2 ^ (e - 40) := by positivity
    have h5 : e - 40 ≤ 0 := by omega
    rw [hval, abs_of_nonneg (by linarith)]
    exact ⟨by linarith, h5⟩
  · exact ⟨abs_fixed_le (abs_trigAt_le _).1, by norm_num⟩

theorem modelValue_cos_le (m : ℕ) (e : ℤ) : |modelValue .cos false m e| ≤ 1 ∧ (Approx.cos.real false m e).2 ≤ 0 := by
  unfold modelValue
  rw [real_cos]
  exact ⟨abs_fixed_le (abs_trigAt_le _).2, by norm_num⟩

/-- The spacing of FP32 at a function's value of magnitude at most 1. -/
theorem ulpOf_le {f : Approx} {neg : Bool} {m : ℕ} {e : ℤ} (h : |modelValue f neg m e| ≤ 1) (hk : (f.real neg m e).2 ≤ 0) :
    ulpOf f neg m e ≤ -23 := by
  have hmb : (Fmt.f32.mbits : ℤ) = 23 := rfl
  rw [ulpOf, quantum, qmin32]
  by_cases hs : (f.real neg m e).1.natAbs = 0
  · have hlog : Nat.log2 0 = 0 := by decide
    rw [hs, hlog]
    omega
  · obtain ⟨hlo, -⟩ := log2_bounds ℚ hs (f.real neg m e).2
    have hx : |modelValue f neg m e| = _ := abs_mantissa _ _
    rw [← hx] at hlo
    have := hlo.trans h
    rw [← zpow_zero (2 : ℚ), two_zpow_le_iff] at this
    omega

/-- FSIN and FCOS of an operand up to 2^15 lie within 2^-21 of the model's value [05 R85]. -/
theorem trig_near {a : W32} {neg : Bool} {m : ℕ} {e : ℤ} (hv : f32 a = .fin neg m e) (h0 : 0 < signed neg ((m : ℚ) * 2 ^ e))
    (h15 : signed neg ((m : ℚ) * 2 ^ e) ≤ 2 ^ 15) : ∃ y z, ratF32 (fsin a).1 = some y ∧ |y - modelValue .sin neg m e| ≤ 2 ^ (-21 : ℤ) ∧
      ratF32 (fcos a).1 = some z ∧ |z - modelValue .cos neg m e| ≤ 2 ^ (-21 : ℤ) := by
  obtain ⟨rfl, hm⟩ := sign_of_pos h0
  rw [signed_false] at h15
  have hbig : isBig m e = false := by
    have h1 : ratOf (.fin false 1 15) = some (2 ^ 15) := by rw [ratOf_fin]; norm_num
    have h2 : valLt (.fin false 1 15) (.fin false m e) = decide (2 ^ 15 < (m : ℚ) * 2 ^ e) := valLt_fin h1 (ratOf_fin false m e)
    rw [isBig, h2]
    exact decide_eq_false (not_lt.2 h15)
  have hsin : fsin a = Approx.sin.value a false m e := by simp only [fsin, hv, if_neg hm, Approx.result, clear_sign hv, Bool.false_eq_true, if_false]
  have hcos : fcos a = Approx.cos.value a false m e := by simp only [fcos, hv, if_neg hm, Approx.result, clear_sign hv]
  have hbs : boundOf .sin false m e = if isBig m e then 1 else -21 := rfl
  have hbc : boundOf .cos false m e = if isBig m e then 1 else -21 := rfl
  rw [hbig] at hbs hbc
  obtain ⟨hs1, hs2⟩ := modelValue_sin_le (e := e) hm
  obtain ⟨hc1, hc2⟩ := modelValue_cos_le m e
  have hus := ulpOf_le hs1 hs2
  have huc := ulpOf_le hc1 hc2
  simp only [Bool.false_eq_true, if_false] at hbs hbc
  obtain ⟨y, hy, hys⟩ := value_near (f := .sin) a (le_top_of_le (hs1.trans (by norm_num))) (by omega)
  obtain ⟨z, hz, hzc⟩ := value_near (f := .cos) a (le_top_of_le (hc1.trans (by norm_num))) (by omega)
  rw [hbs] at hys
  rw [hbc] at hzc
  exact ⟨y, z, by rw [hsin]; exact hy, hys, by rw [hcos]; exact hz, hzc⟩

/-! #### The statement -/

theorem specialFunctionValues_holds : specialFunctionValues := by
  refine ⟨specialRows_hold, fun a sig h => special_nan h, fun a x hx => ?_, fun a neg m e x hv hx => ?_⟩
  · obtain ⟨neg, m, e, hv, -⟩ := ratOf_eq_some hx
    exact ⟨frcp_rounded hx, fsqrt_nearest hx, frsq_near hx, special_neg hx, frsq_exact hx, fexp2_exact hx, flog2_exact hx, fexp2_high hx,
      fexp2_low hx, ftanh_high hx, ftanh_low hx, fsin_odd hv, ftanh_odd hv, fcos_even hv, special_inexact hx⟩
  · rw [ratF32, hv, ratOf_fin, Option.some.injEq] at hx
    subst hx
    exact ⟨fexp2_near hv, flog2_near hv, ftanh_near hv, trig_near hv⟩

end Rounding

namespace Sys2Proof.Proofs

/-- Settles O7: every word's result is a rounding of the exact number (`Rounds`, `windowSum_gives`, `picks_sticky`), an approximation
within its bound (`value_near`), or a selection of bits. -/
theorem floatValues : Obligations.FloatValues :=
  ⟨Rounding.floatArithmeticIsNearest_holds, Rounding.specialFunctionValues_holds, Rounding.selectionValues_holds, Rounding.packedValues_holds⟩

end Sys2Proof.Proofs
end

section
/-! SUPPORT. The bits of words: what shifts, bit fields, permutations, reversal and bit counting give [04 R64-R70]. -/

namespace Sys2Proof.Machine
open Sys2Proof.Claims

/-! ### Logic, shifts and rotations [04 R64] -/

theorem getLsbD_andn (a b : W32) {j : Nat} (hj : j < 32) : (a &&& ~~~b).getLsbD j = (a.getLsbD j && !b.getLsbD j) := by
  rw [BitVec.getLsbD_and, BitVec.getLsbD_not, decide_eq_true hj, Bool.true_and]

theorem getLsbD_shl32 (a : W32) (n : Nat) {j : Nat} (hj : j < 32) :
    (shl32 a n).getLsbD j = (decide (n ≤ j) && a.getLsbD (j - n)) := by
  rw [shl32, BitVec.getLsbD_shiftLeft, decide_eq_true hj, Bool.true_and, ← decide_not]
  simp only [not_lt]

theorem getLsbD_shr32 (a : W32) (n j : Nat) : (shr32 a n).getLsbD j = a.getLsbD (j + n) := by
  rw [shr32, BitVec.getLsbD_ushiftRight, Nat.add_comm]

theorem getLsbD_sar32 (a : W32) (n : Nat) {j : Nat} (hj : j < 32) : (sar32 a n).getLsbD j = a.getLsbD (min 31 (j + n)) := by
  rw [sar32, BitVec.getLsbD_sshiftRight, Nat.add_comm n]
  by_cases h : j + n < 32
  · rw [if_pos h, min_eq_right (by omega)]
    simp [hj]
  · rw [if_neg h, min_eq_left (by omega), BitVec.msb_eq_getLsbD_last]
    simp [hj]

theorem getLsbD_rot32 (a : W32) (n : Nat) {j : Nat} (hj : j < 32) : (rot32 a n).getLsbD j = a.getLsbD ((j + n) % 32) := by
  rw [rot32, BitVec.getLsbD_rotateRight, Nat.mod_mod]
  by_cases h : j < 32 - n % 32
  · rw [decide_eq_true h, cond_true, show (j + n) % 32 = n % 32 + j by omega]
  · rw [decide_eq_false h, cond_false, decide_eq_true hj, Bool.true_and, show (j + n) % 32 = j - (32 - n % 32) by omega]

/-! ### The set bits of a word -/

theorem mem_setBits {w : Nat} {v : BitVec w} {i : Nat} : i ∈ setBits v ↔ v.getLsbD i = true := by
  rw [setBits, List.mem_filter, List.mem_range, and_iff_right_iff_imp]
  exact fun h => BitVec.lt_of_getLsbD h

theorem length_setBits_le {w : Nat} (v : BitVec w) : (setBits v).length ≤ w :=
  (List.length_filter_le _ _).trans_eq List.length_range

/-- A sum of falling powers of two has exactly their bits. -/
theorem testBit_sum_two_pow {L : List Nat} (hL : L.SortedGT) (j : Nat) : (L.map fun i => 2 ^ i).sum.testBit j = decide (j ∈ L) := by
  rw [← List.sum_reverse, ← List.map_reverse, Bool.eq_iff_iff, ← Nat.mem_bitIndices, Nat.bitIndices_sum_map_two_pow hL.reverse,
    List.mem_reverse, decide_eq_true_iff]

/-- Reversal mirrors the bits [04 R67]. -/
theorem getLsbD_brev {w : Nat} (v : BitVec w) {j : Nat} (hj : j < w) : (brev v).getLsbD j = v.getLsbD (w - 1 - j) := by
  have hsorted : ((setBits v).map (w - 1 - ·)).SortedGT := by
    refine List.Pairwise.sortedGT (List.pairwise_map.mpr ?_)
    refine (List.pairwise_lt_range.filter _).imp_of_mem fun ha hb hab => ?_
    have := List.mem_range.mp (List.mem_filter.mp hb).1
    omega
  have hmem : j ∈ (setBits v).map (w - 1 - ·) ↔ v.getLsbD (w - 1 - j) = true := by
    rw [List.mem_map]
    constructor
    · rintro ⟨i, hi, rfl⟩
      have := BitVec.lt_of_getLsbD (mem_setBits.mp hi)
      rw [show w - 1 - (w - 1 - i) = i by omega]
      exact mem_setBits.mp hi
    · exact fun h => ⟨w - 1 - j, mem_setBits.mpr h, by omega⟩
  have hsum := testBit_sum_two_pow hsorted j
  rw [List.map_map] at hsum
  rw [brev, BitVec.getLsbD_ofNat, decide_eq_true hj, Bool.true_and]
  exact hsum.trans (by simp only [hmem, Bool.decide_eq_true])

/-! ### Bit fields and byte permutation [04 R68] -/

theorem getLsbD_ones32 (n : Nat) {j : Nat} (hj : j < 32) : (ones32 n).getLsbD j = decide (j < n) := by
  rw [ones32, Rounding.getLsbD_low, decide_eq_true hj, Bool.true_and, decide_eq_decide]
  omega

/-- The low `n` bits of what stands from a position on. -/
theorem getLsbD_field (a : W32) (pos n : Nat) {j : Nat} (hj : j < 32) :
    (a >>> pos &&& ones32 n).getLsbD j = (decide (j < n) && a.getLsbD (j + pos)) := by
  rw [BitVec.getLsbD_and, getLsbD_ones32 _ hj, BitVec.getLsbD_ushiftRight, Bool.and_comm, Nat.add_comm]

theorem getLsbD_bfxZ (a b : W32) {j : Nat} (hj : j < 32) :
    (bfx false a b).getLsbD j = (decide (j < lenOf b) && a.getLsbD (j + posOf b)) := by
  unfold bfx
  dsimp only
  split_ifs with h0 h32 hs
  · simp [h0]
  · simp at hs
  · exact getLsbD_field a _ _ hj
  · rw [BitVec.getLsbD_ushiftRight, decide_eq_true (by omega), Bool.true_and, Nat.add_comm]

theorem getLsbD_bfxS (a b : W32) {j : Nat} (hj : j < 32) :
    (bfx true a b).getLsbD j = (decide (0 < lenOf b) && a.getLsbD (min j (lenOf b - 1) + posOf b)) := by
  unfold bfx
  dsimp only
  split_ifs with h0 h32 hs
  · simp [h0]
  · rw [decide_eq_true (by omega), Bool.true_and]
    rw [Bool.true_and, getLsbD_field _ _ _ (by omega), decide_eq_true (by omega), Bool.true_and] at hs
    rw [BitVec.getLsbD_or, BitVec.getLsbD_not, getLsbD_field _ _ _ hj, getLsbD_ones32 _ hj]
    by_cases h : j < lenOf b
    · simp [h, min_eq_left (show j ≤ lenOf b - 1 by omega)]
    · simp [h, hj, min_eq_right (show lenOf b - 1 ≤ j by omega), hs]
  · rw [decide_eq_true (by omega), Bool.true_and]
    rw [Bool.true_and, getLsbD_field _ _ _ (by omega), decide_eq_true (by omega), Bool.true_and, Bool.not_eq_true] at hs
    rw [getLsbD_field _ _ _ hj]
    by_cases h : j < lenOf b
    · simp [h, min_eq_left (show j ≤ lenOf b - 1 by omega)]
    · simp [h, min_eq_right (show lenOf b - 1 ≤ j by omega), hs]
  · rw [BitVec.getLsbD_ushiftRight, decide_eq_true (by omega), Bool.true_and, min_eq_left (by omega), Nat.add_comm]

theorem getLsbD_bfi (d a b : W32) {j : Nat} (hj : j < 32) : (bfi d a b).getLsbD j =
    if posOf b ≤ j ∧ j < posOf b + lenOf b then a.getLsbD (j - posOf b) else d.getLsbD j := by
  have hmask : (if posOf b < 32 then ones32 (lenOf b) <<< posOf b else 0).getLsbD j = decide (posOf b ≤ j ∧ j < posOf b + lenOf b) := by
    split_ifs with hp
    · rw [BitVec.getLsbD_shiftLeft, getLsbD_ones32 _ (by omega), decide_eq_true hj, Bool.true_and, ← decide_not, ← Bool.decide_and,
        decide_eq_decide]
      omega
    · rw [decide_eq_false (by omega)]
      simp
  unfold bfi
  dsimp only
  rw [BitVec.getLsbD_or, BitVec.getLsbD_and, BitVec.getLsbD_and, BitVec.getLsbD_not, hmask, BitVec.getLsbD_shiftLeft, decide_eq_true hj]
  split_ifs with h
  · simp [h, show ¬ j < posOf b by omega]
  · simp [h]

/-- A selected byte has the bits of its byte of the pool, or copies of that byte's top bit [04 R68]. -/
theorem testBit_prmtByte (pool : W64) (b : W32) (k : Nat) {i : Nat} (hi : i < 8) : (prmtByte pool b k).testBit i =
    pool.getLsbD (8 * (b.toNat / 2 ^ (4 * k) % 16 % 8) + if b.toNat / 2 ^ (4 * k) % 16 < 8 then i else 7) := by
  unfold prmtByte
  dsimp only
  generalize b.toNat / 2 ^ (4 * k) % 16 = nib
  have hbit : ∀ i < 8, (pool.toNat / 2 ^ (8 * (nib % 8)) % 256).testBit i = pool.getLsbD (8 * (nib % 8) + i) := fun i hi => by
    rw [show 256 = 2 ^ 8 by rfl, Nat.testBit_mod_two_pow, Nat.testBit_div_two_pow, decide_eq_true hi, Bool.true_and, Nat.add_comm,
      BitVec.getLsbD]
  split_ifs with hnib hsign
  · exact hbit i hi
  · rw [← hbit 7 (by omega), Nat.testBit_lt_two_pow (i := 7) hsign, Nat.zero_testBit]
  · rw [← hbit 7 (by omega), show 255 = 2 ^ 8 - 1 by rfl, Nat.testBit_two_pow_sub_one, decide_eq_true hi, Nat.testBit_eq_decide_div_mod_eq,
      eq_comm, decide_eq_true_iff]
    omega

theorem prmtByte_lt (pool : W64) (b : W32) (k : Nat) : prmtByte pool b k < 256 := by
  unfold prmtByte
  dsimp only
  split_ifs <;> omega

theorem getLsbD_pair (lo hi : W32) (q : Nat) : (pair lo hi).getLsbD q = if q < 32 then lo.getLsbD q else hi.getLsbD (q - 32) := by
  rw [pair, BitVec.getLsbD_append]

theorem getLsbD_prmt (d a b : W32) {j : Nat} (hj : j < 32) : (prmt d a b).getLsbD j =
    (pair a d).getLsbD (8 * (b.toNat / 2 ^ (4 * (j / 8)) % 16 % 8) + if b.toNat / 2 ^ (4 * (j / 8)) % 16 < 8 then j % 8 else 7) := by
  have hlt := prmtByte_lt (pair a d) b
  have hbyte : (prmtByte (pair a d) b 0 + prmtByte (pair a d) b 1 * 2 ^ 8 + prmtByte (pair a d) b 2 * 2 ^ 16 +
      prmtByte (pair a d) b 3 * 2 ^ 24) / 2 ^ (8 * (j / 8)) % 2 ^ 8 = prmtByte (pair a d) b (j / 8) := by
    have h0 := hlt 0
    have h1 := hlt 1
    have h2 := hlt 2
    have h3 := hlt 3
    have hk : j / 8 < 4 := by omega
    generalize j / 8 = k at hk
    interval_cases k <;> omega
  rw [← testBit_prmtByte _ _ _ (show j % 8 < 8 by omega), ← hbyte, Nat.testBit_mod_two_pow, Nat.testBit_div_two_pow,
    decide_eq_true (show j % 8 < 8 by omega), Bool.true_and, show j % 8 + 8 * (j / 8) = j by omega, prmt, BitVec.getLsbD_ofNat,
    decide_eq_true hj, Bool.true_and]

/-! ### Bit counting [04 R67] -/

theorem toNat_popc {w : Nat} (v : BitVec w) (hw : w < 2 ^ 32) : (popc v).toNat = bitsBelow v w := by
  rw [popc, BitVec.toNat_ofNat, Nat.mod_eq_of_lt ((length_setBits_le v).trans_lt hw)]
  rfl

theorem leadingZeros_clz {w : Nat} (v : BitVec w) (hw : w < 2 ^ 32) : leadingZeros v (clz v).toNat := by
  rw [clz, BitVec.toNat_ofNat, Nat.mod_eq_of_lt (by split_ifs <;> omega)]
  split_ifs with h
  · subst h
    exact ⟨le_rfl, fun j _ => by simp, fun h => absurd h (lt_irrefl _)⟩
  · have h0 : v.toNat ≠ 0 := fun h' => h (BitVec.eq_of_toNat_eq (by simpa using h'))
    have hlog : Nat.log2 v.toNat < w := (Nat.log2_lt h0).mpr v.isLt
    refine ⟨by omega, fun j hj => ?_, fun _ => ?_⟩
    · exact Nat.testBit_lt_two_pow (Nat.lt_log2_self.trans_le (Nat.pow_le_pow_right two_pos (by omega)))
    · rw [show w - 1 - (w - 1 - Nat.log2 v.toNat) = Nat.log2 v.toNat by omega]
      exact Nat.testBit_log2 h0

/-- The set bit at index `n` of the list has `n` set bits below it. -/
theorem bitsBelow_of_getElem? {w : Nat} {v : BitVec w} {n i : Nat} (h : (setBits v)[n]? = some i) : bitsBelow v i = n := by
  have hi : v.getLsbD i = true := mem_setBits.mp (List.mem_of_getElem? h)
  have hw : i < w := BitVec.lt_of_getLsbD hi
  have hat : (setBits v)[bitsBelow v i]? = some i := by
    have hsplit : List.range w = List.range i ++ (List.range (w - i)).map (i + ·) := by
      rw [← List.range_add, Nat.add_sub_cancel' hw.le]
    obtain ⟨m, hm⟩ : ∃ m, w - i = m + 1 := ⟨w - i - 1, by omega⟩
    rw [setBits, hsplit, hm, List.range_succ_eq_map, List.map_cons, List.filter_append, List.filter_cons_of_pos (by simpa using hi), bitsBelow,
      List.getElem?_append_right le_rfl, Nat.sub_self, List.getElem?_cons_zero, Nat.add_zero]
  have hnodup : (setBits v).Nodup := List.nodup_range.filter _
  exact (List.getElem?_inj (List.getElem?_eq_some_iff.mp hat).1 hnodup).mp (hat.trans h.symm)

theorem nthSet_fns {w : Nat} (v : BitVec w) (n : Nat) : nthSet v n (fns v n) := by
  unfold fns
  cases h : (setBits v)[n]? with
  | some i =>
    have hi := mem_setBits.mp (List.mem_of_getElem? h)
    exact Or.inl ⟨i, BitVec.lt_of_getLsbD hi, hi, bitsBelow_of_getElem? h, rfl⟩
  | none => exact Or.inr ⟨List.getElem?_eq_none_iff.mp h, rfl⟩

end Sys2Proof.Machine
end

section
/-! SUPPORT. The numbers that words and pairs stand for: a register is its signed and its unsigned number modulo 2^32, and the
operations of [04 R62, R63, R73] on words are those of the numbers. -/

namespace Sys2Proof.Machine
open Sys2Proof.Claims

/-! ### A word as its numbers -/

theorem ofInt_toNat {w : Nat} (a : BitVec w) : BitVec.ofInt w (a.toNat : Int) = a := by
  rw [BitVec.ofInt_natCast, BitVec.ofNat_toNat, BitVec.setWidth_eq]

theorem ofInt_zN (x : Lane) (r : GReg) : BitVec.ofInt 32 (zN x r) = x.rg r := ofInt_toNat _
theorem ofInt_zPair (x : Lane) (r : GReg) : BitVec.ofInt 64 (zPair x r : Int) = x.rpair r := by
  rw [BitVec.ofInt_natCast, Lane.rpair_eq_asPair, asPair]

theorem zPair_eq (x : Lane) (r : GReg) : zPair x r = (x.rpair r).toNat := (pair_toNat _ _).symm

theorem ofInt_sub (w : Nat) (m n : Int) : BitVec.ofInt w (m - n) = BitVec.ofInt w m - BitVec.ofInt w n := by
  rw [sub_eq_add_neg, BitVec.ofInt_add, BitVec.ofInt_neg, ← BitVec.sub_eq_add_neg]

theorem ofNat_natAbs (w : Nat) (n : Int) : BitVec.ofNat w n.natAbs = BitVec.ofInt w |n| := by
  rw [← Int.natCast_natAbs, BitVec.ofInt_natCast]

/-! ### Minima and maxima [04 R62] -/

theorem toInt_sMin (a b : W32) : (sMin a b).toInt = min a.toInt b.toInt := by
  rw [sMin, min_def, apply_ite BitVec.toInt]

theorem toInt_sMax (a b : W32) : (sMax a b).toInt = max a.toInt b.toInt := by
  rw [sMax, max_def, apply_ite BitVec.toInt]

theorem toNat_zMin (a b : W32) : (zMin a b).toNat = min a.toNat b.toNat := by
  rw [zMin, min_def, apply_ite BitVec.toNat]

theorem toNat_zMax (a b : W32) : (zMax a b).toNat = max a.toNat b.toNat := by
  rw [zMax, max_def, apply_ite BitVec.toNat]

theorem sMin_eq (a b : W32) : sMin a b = BitVec.ofInt 32 (min a.toInt b.toInt) := by rw [← toInt_sMin, BitVec.ofInt_toInt]
theorem sMax_eq (a b : W32) : sMax a b = BitVec.ofInt 32 (max a.toInt b.toInt) := by rw [← toInt_sMax, BitVec.ofInt_toInt]

theorem zMin_eq (a b : W32) : zMin a b = BitVec.ofInt 32 (min (a.toNat : Int) b.toNat) := by
  rw [← Nat.cast_min, ← toNat_zMin, ofInt_toNat]

theorem zMax_eq (a b : W32) : zMax a b = BitVec.ofInt 32 (max (a.toNat : Int) b.toNat) := by
  rw [← Nat.cast_max, ← toNat_zMax, ofInt_toNat]

/-! ### Immediates [02 R32, R34] -/

theorem immS_eq (s : State) (i : BitVec 8) : s.immS i = BitVec.ofInt 32 (signedImm s i) := by
  unfold State.immS State.litVal signedImm
  cases s.iss.lit with
  | none => rfl
  | some v => exact BitVec.ofInt_toInt.symm

theorem immZ_eq (s : State) (i : BitVec 8) : s.immZ i = zeroImm s i := by
  unfold State.immZ State.litVal zeroImm
  cases s.iss.lit with
  | none => rw [Option.map_none, Option.getD_none, BitVec.ofNat_toNat]
  | some v => rfl

theorem immK_eq (s : State) (i : BitVec 12) : s.immK i = uniImm s i := by
  unfold State.immK State.litVal uniImm
  cases s.iss.lit with
  | none => rfl
  | some v => rfl

/-! ### Shifts and scales of 64-bit numbers [04 R63, R73] -/

theorem ofInt_shiftLeft {w : Nat} (z : Int) (n : Nat) : BitVec.ofInt w z <<< n = BitVec.ofInt w (z * 2 ^ n) := by
  have hpow : BitVec.twoPow w n = BitVec.ofInt w ((2 ^ n : Nat) : Int) := by
    rw [BitVec.ofInt_natCast]
    exact BitVec.eq_of_toNat_eq (by rw [BitVec.toNat_twoPow, BitVec.toNat_ofNat])
  rw [BitVec.shiftLeft_eq_mul_twoPow, BitVec.ofInt_mul, hpow, Nat.cast_pow, Nat.cast_ofNat]

/-- A shift by 64 or more gives 0 [04 R63]. -/
theorem Lane.rpair_shiftLeft (x : Lane) (r : GReg) (n : Nat) :
    x.rpair r <<< n = BitVec.ofInt 64 (if 64 ≤ n then 0 else zPair x r * 2 ^ n) := by
  split_ifs with h
  · rw [BitVec.shiftLeft_eq_zero h]
    rfl
  · rw [← ofInt_shiftLeft, ofInt_zPair]

theorem Lane.rpair_ushiftRight (x : Lane) (r : GReg) (n : Nat) :
    x.rpair r >>> n = BitVec.ofInt 64 (if 64 ≤ n then 0 else zPair x r / 2 ^ n) := by
  split_ifs with h
  · rw [BitVec.ushiftRight_eq_zero h]
    rfl
  · rw [← ofInt_toNat (x.rpair r >>> n), BitVec.toNat_ushiftRight, Nat.shiftRight_eq_div_pow, ← zPair_eq,
      Int.natCast_ediv, Nat.cast_pow, Nat.cast_ofNat]

theorem leaScale_eq (n : Fin 4) : leaScale n = 2 ^ leaShift n := by
  revert n
  decide

/-- A reversed word is the sum of the powers of two at its set bits' mirrored positions [04 R67]. -/
theorem brev_eq_ofInt {w : Nat} (v : BitVec w) : brev v =
    BitVec.ofInt w (((List.range w).filter fun i => v.getLsbD i).map fun i => (2 : Int) ^ (w - 1 - i)).sum := by
  rw [brev, ← BitVec.ofInt_natCast, Nat.cast_list_sum, List.map_map]
  congr 2

/-! ### Pairs after a write [01 R8] -/

theorem GReg.plus_one_ne (r : GReg) : r.plus 1 ≠ r := by
  intro h
  have := congrArg Fin.val h
  simp only [GReg.plus, Fin.ofNat] at this
  omega

theorem Lane.rpair_wpair (x : Lane) (r : GReg) (v : W64) : (x.wpair r v).rpair r = v := by
  rw [Lane.rpair, Lane.wpair, Lane.rg_wg, if_neg (GReg.plus_one_ne r), Lane.rg_wg_same, Lane.rg_wg_same, pair_lo_hi]

end Sys2Proof.Machine
end

section
/-! The per-lane integer words [04 R62-R74]: each is a shared per-lane operation whose function gives what the rule's table says. -/

namespace Sys2Proof.Machine
open Sys2Proof.Claims

/-- What every lane's function gives, every executing lane's destination holds. -/
theorem laneG_gives (h : Hdr) (d : GReg) (s : State) {f : Lane → W32} {P : Lane → W32 → Prop} (hP : ∀ x, P x (f x)) :
    ∃ t, laneG h d s f = .next t ∧ (∀ l, s.runsIn h l → P (s.src l) ((t.lane l).rg d)) ∧ writesOnlyG s t h [d] := by
  obtain ⟨t, ht, hval, hrest⟩ := laneG_next h d s f
  exact ⟨t, ht, fun l hl => by rw [hval l hl]; exact hP _, hrest⟩

/-- Logic, shift, bit-field, selection and move words [04 R64-R70, R74]. -/
theorem exec_laneBits {i : Instr} {h : Hdr} {d : GReg} {f : State → Lane → Nat → Bool} (hi : laneBits i = some (h, d, f)) (s : State) :
    ∃ g : Lane → W32, exec i s = laneG h d s g ∧ ∀ x j, j < 32 → (g x).getLsbD j = f s x j := by
  unfold laneBits at hi
  split at hi
  case h_1 h d a b => cases hi; exact ⟨fun x => x.rg a &&& x.rg b, rfl, fun _ _ _ => BitVec.getLsbD_and⟩
  case h_2 h d a b => cases hi; exact ⟨fun x => x.rg a ||| x.rg b, rfl, fun _ _ _ => BitVec.getLsbD_or⟩
  case h_3 h d a b => cases hi; exact ⟨fun x => x.rg a ^^^ x.rg b, rfl, fun _ _ _ => BitVec.getLsbD_xor⟩
  case h_4 h d a b => cases hi; exact ⟨fun x => x.rg a &&& ~~~(x.rg b), rfl, fun _ _ hj => getLsbD_andn _ _ hj⟩
  case h_5 h d a i => cases hi; exact ⟨fun x => x.rg a &&& s.immZ i, rfl, fun _ _ _ => by rw [immZ_eq, BitVec.getLsbD_and]⟩
  case h_6 h d a i => cases hi; exact ⟨fun x => x.rg a ||| s.immZ i, rfl, fun _ _ _ => by rw [immZ_eq, BitVec.getLsbD_or]⟩
  case h_7 h d a i => cases hi; exact ⟨fun x => x.rg a ^^^ s.immZ i, rfl, fun _ _ _ => by rw [immZ_eq, BitVec.getLsbD_xor]⟩
  case h_8 h d a b => cases hi; exact ⟨fun x => shl32 (x.rg a) (x.rg b).toNat, rfl, fun _ _ hj => getLsbD_shl32 _ _ hj⟩
  case h_9 h d a b => cases hi; exact ⟨fun x => shr32 (x.rg a) (x.rg b).toNat, rfl, fun _ j _ => getLsbD_shr32 _ _ j⟩
  case h_10 h d a b => cases hi; exact ⟨fun x => sar32 (x.rg a) (x.rg b).toNat, rfl, fun _ _ hj => getLsbD_sar32 _ _ hj⟩
  case h_11 h d a b => cases hi; exact ⟨fun x => rot32 (x.rg a) (x.rg b).toNat, rfl, fun _ _ hj => getLsbD_rot32 _ _ hj⟩
  case h_12 h d a n => cases hi; exact ⟨fun x => shl32 (x.rg a) n.val, rfl, fun _ _ hj => getLsbD_shl32 _ _ hj⟩
  case h_13 h d a n => cases hi; exact ⟨fun x => shr32 (x.rg a) n.val, rfl, fun _ j _ => getLsbD_shr32 _ _ j⟩
  case h_14 h d a n => cases hi; exact ⟨fun x => sar32 (x.rg a) n.val, rfl, fun _ _ hj => getLsbD_sar32 _ _ hj⟩
  case h_15 h d a n => cases hi; exact ⟨fun x => rot32 (x.rg a) n.val, rfl, fun _ _ hj => getLsbD_rot32 _ _ hj⟩
  case h_16 h d a => cases hi; exact ⟨fun x => brev (x.rg a), rfl, fun _ _ hj => getLsbD_brev _ hj⟩
  case h_17 h d a b => cases hi; exact ⟨fun x => bfx false (x.rg a) (x.rg b), rfl, fun _ _ hj => getLsbD_bfxZ _ _ hj⟩
  case h_18 h d a b => cases hi; exact ⟨fun x => bfx true (x.rg a) (x.rg b), rfl, fun _ _ hj => getLsbD_bfxS _ _ hj⟩
  case h_19 h d a b => cases hi; exact ⟨fun x => bfi (x.rg d) (x.rg a) (x.rg b), rfl, fun _ _ hj => getLsbD_bfi _ _ _ hj⟩
  case h_20 h d a b =>
    cases hi
    exact ⟨fun x => prmt (x.rg d) (x.rg a) (x.rg b), rfl, fun _ _ hj => (getLsbD_prmt _ _ _ hj).trans (getLsbD_pair _ _ _)⟩
  case h_21 h d a b n =>
    cases hi
    exact ⟨fun x => if x.rp ⟨n.val, by omega⟩ then x.rg a else x.rg b, rfl,
      fun _ j _ => apply_ite (fun v : W32 => v.getLsbD j) _ _ _⟩
  case h_22 h d a => cases hi; exact ⟨fun x => x.rg a, rfl, fun _ _ _ => rfl⟩
  case h_23 h d k => cases hi; exact ⟨fun _ => s.old.rk k, rfl, fun _ _ _ => rfl⟩
  case h_24 => cases hi

/-- Per-lane arithmetic [04 R62, R65, R74]. -/
theorem exec_laneSum {i : Instr} {h : Hdr} {d : GReg} {f : State → Lane → Int} (hi : laneSum i = some (h, d, f)) (s : State) :
    ∃ g : Lane → W32, exec i s = laneG h d s g ∧ ∀ x, g x = BitVec.ofInt 32 (f s x) := by
  unfold laneSum at hi
  split at hi
  case h_1 h d a b => cases hi; exact ⟨fun x => x.rg a + x.rg b, rfl, fun _ => by rw [BitVec.ofInt_add, ofInt_zN, ofInt_zN]⟩
  case h_2 h d a b => cases hi; exact ⟨fun x => x.rg a - x.rg b, rfl, fun _ => by rw [ofInt_sub, ofInt_zN, ofInt_zN]⟩
  case h_3 h d a b => cases hi; exact ⟨fun x => sMin (x.rg a) (x.rg b), rfl, fun _ => sMin_eq _ _⟩
  case h_4 h d a b => cases hi; exact ⟨fun x => sMax (x.rg a) (x.rg b), rfl, fun _ => sMax_eq _ _⟩
  case h_5 h d a b => cases hi; exact ⟨fun x => zMin (x.rg a) (x.rg b), rfl, fun _ => zMin_eq _ _⟩
  case h_6 h d a b => cases hi; exact ⟨fun x => zMax (x.rg a) (x.rg b), rfl, fun _ => zMax_eq _ _⟩
  case h_7 h d a b =>
    cases hi
    exact ⟨fun x => BitVec.ofNat 32 ((x.rg a).toInt - (x.rg b).toInt).natAbs, rfl, fun _ => ofNat_natAbs 32 _⟩
  case h_8 h d a => cases hi; exact ⟨fun x => BitVec.ofNat 32 (x.rg a).toInt.natAbs, rfl, fun _ => ofNat_natAbs 32 _⟩
  case h_9 h d a b => cases hi; exact ⟨fun x => x.rg a * x.rg b, rfl, fun _ => by rw [BitVec.ofInt_mul, ofInt_zN, ofInt_zN]⟩
  case h_10 h d a b => cases hi; exact ⟨fun x => BitVec.ofInt 32 ((x.rg a).toInt * (x.rg b).toInt / 2 ^ 32), rfl, fun _ => rfl⟩
  case h_11 h d a b =>
    cases hi
    exact ⟨fun x => BitVec.ofNat 32 ((x.rg a).toNat * (x.rg b).toNat / 2 ^ 32), rfl, fun _ => (BitVec.ofInt_natCast 32 _).symm⟩
  case h_12 h d a b =>
    cases hi
    exact ⟨fun x => x.rg a * x.rg b + x.rg d, rfl,
      fun _ => by rw [BitVec.ofInt_add, BitVec.ofInt_mul, ofInt_zN, ofInt_zN, ofInt_zN]⟩
  case h_13 h d a i => cases hi; exact ⟨fun x => x.rg a + s.immS i, rfl, fun _ => by rw [BitVec.ofInt_add, ofInt_zN, immS_eq]⟩
  case h_14 h d a k =>
    cases hi
    exact ⟨fun x => x.rg a + s.old.rk k, rfl, fun _ => by rw [BitVec.ofInt_add, ofInt_zN, ofInt_toNat]⟩
  case h_15 => cases hi

/-- Bit counting [04 R67]. -/
theorem exec_laneCounted {i : Instr} {h : Hdr} {d : GReg} {f : Lane → W32 → Prop} (hi : laneCounted i = some (h, d, f)) (s : State) :
    ∃ g : Lane → W32, exec i s = laneG h d s g ∧ ∀ x, f x (g x) := by
  unfold laneCounted at hi
  split at hi
  case h_1 h d a => cases hi; exact ⟨fun x => popc (x.rg a), rfl, fun _ => toNat_popc _ (by norm_num)⟩
  case h_2 h d a => cases hi; exact ⟨fun x => clz (x.rg a), rfl, fun _ => leadingZeros_clz _ (by norm_num)⟩
  case h_3 h d a b => cases hi; exact ⟨fun x => fns (x.rg a) (x.rg b).toNat, rfl, fun _ => nthSet_fns _ _⟩
  case h_4 h d a =>
    cases hi
    exact ⟨fun x => popc (x.rpair a), rfl,
      fun x => by simpa only [Lane.rpair_eq_asPair] using toNat_popc (x.rpair a) (by norm_num)⟩
  case h_5 h d a =>
    cases hi
    exact ⟨fun x => clz (x.rpair a), rfl,
      fun x => by simpa only [Lane.rpair_eq_asPair] using leadingZeros_clz (x.rpair a) (by norm_num)⟩
  case h_6 h d a b =>
    cases hi
    exact ⟨fun x => fns (x.rpair a) (x.rg b).toNat, rfl,
      fun x => by simpa only [Lane.rpair_eq_asPair] using nthSet_fns (x.rpair a) _⟩
  case h_7 => cases hi

/-- The words that write a pair [04 R63, R67, R70, R73, R74]. -/
theorem exec_pairSum {i : Instr} {h : Hdr} {d : GReg} {f : State → Lane → Int} (hi : pairSum i = some (h, d, f)) (s : State) :
    ∃ g : Lane → W64, exec i s = lanePair h d s g ∧ ∀ x, g x = BitVec.ofInt 64 (f s x) := by
  unfold pairSum at hi
  split at hi
  case h_1 h d a b =>
    cases hi
    exact ⟨fun x => x.rpair a + x.rpair b, rfl, fun _ => by rw [BitVec.ofInt_add, ofInt_zPair, ofInt_zPair]⟩
  case h_2 h d a b => cases hi; exact ⟨fun x => x.rpair a - x.rpair b, rfl, fun _ => by rw [ofInt_sub, ofInt_zPair, ofInt_zPair]⟩
  case h_3 h d a b => cases hi; exact ⟨fun x => x.rpair a <<< (x.rg b).toNat, rfl, fun x => x.rpair_shiftLeft a _⟩
  case h_4 h d a b => cases hi; exact ⟨fun x => x.rpair a >>> (x.rg b).toNat, rfl, fun x => x.rpair_ushiftRight a _⟩
  case h_5 h d a =>
    cases hi
    exact ⟨fun x => brev (x.rpair a), rfl, fun x => by simpa only [Lane.rpair_eq_asPair] using brev_eq_ofInt (x.rpair a)⟩
  case h_6 h d a => cases hi; exact ⟨fun x => x.rpair a, rfl, fun x => (ofInt_zPair x a).symm⟩
  case h_7 h d a b n =>
    cases hi
    exact ⟨fun x => x.rpair a + ((x.rg b).signExtend 64 <<< leaShift n), rfl,
      fun _ => by rw [BitVec.ofInt_add, ofInt_zPair, leaScale_eq, ← ofInt_shiftLeft]; rfl⟩
  case h_8 h d a k =>
    cases hi
    exact ⟨fun x => s.old.rkpair k + (x.rg a).signExtend 64, rfl,
      fun _ => by rw [BitVec.ofInt_add, ← pair_toNat, ofInt_toNat]; rfl⟩
  case h_9 => cases hi

/-- So of a word that writes a pair. -/
theorem lanePair_gives (h : Hdr) (d : GReg) (s : State) (g : Lane → W64) : ∃ t, lanePair h d s g = .next t ∧
    (∀ l, s.runsIn h l → asPair (t.lane l) d = g (s.src l)) ∧ writesOnlyG s t h [d, d.plus 1] := by
  obtain ⟨t, ht, hval, hrest⟩ := lanePair_next h d s g
  exact ⟨t, ht, fun l hl => by rw [← Lane.rpair_eq_asPair, hval l hl, Lane.rpair_wpair], hrest⟩

/-! ### Compares [04 R71] -/

theorem cmpOperand_eq (t : CmpTy) (x : Lane) (r : GReg) : cmpOperand t x r = compared t x r := by
  cases t with
  | s => rfl
  | z => rfl
  | s64 =>
    have := (x.rpair r).isLt
    simp only [cmpOperand, compared, zPair_eq, BitVec.toInt_eq_toNat_cond]
    split_ifs <;> omega
  | z64 => simp only [cmpOperand, compared, zPair_eq]

theorem cmpImm_eq (t : CmpTy) (i : BitVec 6) : cmpImm t i = comparedImm t i := by
  have : i.toInt = if i.toNat < 32 then (i.toNat : Int) else i.toNat - 64 := by
    rw [BitVec.toInt_eq_toNat_cond]
    split_ifs <;> omega
  cases t <;> simp [cmpImm, comparedImm, this]

theorem Cmp.rel_iff_related (c : Cmp) (x y : Int) : Cmp.rel c x y = true ↔ related c x y := by
  cases c <;> simp [Cmp.rel, related]

/-- Compares and predicate logic [04 R71, R72]. -/
theorem exec_lanePred {i : Instr} {h : Hdr} {pd : PReg} {f : Lane → Prop} (hi : lanePred i = some (h, pd, f)) (s : State) :
    ∃ g : Lane → Bool, exec i s = laneP h pd s g ∧ ∀ x, g x = true ↔ f x := by
  unfold lanePred at hi
  split at hi
  case h_1 h d a b c t =>
    cases hi
    exact ⟨fun x => Cmp.rel c (cmpOperand t x a) (cmpOperand t x b), rfl,
      fun _ => by rw [Cmp.rel_iff_related, cmpOperand_eq, cmpOperand_eq]⟩
  case h_2 h d a i c t =>
    cases hi
    exact ⟨fun x => Cmp.rel c (cmpOperand t x a) (cmpImm t i), rfl,
      fun _ => by rw [Cmp.rel_iff_related, cmpOperand_eq, cmpImm_eq]⟩
  case h_3 h d pa pb => cases hi; exact ⟨fun x => x.rp pa && x.rp pb, rfl, fun _ => Bool.and_eq_true_iff⟩
  case h_4 h d pa pb => cases hi; exact ⟨fun x => x.rp pa || x.rp pb, rfl, fun _ => Bool.or_eq_true_iff⟩
  case h_5 h d pa pb => cases hi; exact ⟨fun x => x.rp pa != x.rp pb, rfl, fun _ => bne_iff_ne⟩
  case h_6 h d pa pb =>
    cases hi
    exact ⟨fun x => x.rp pa && !x.rp pb, rfl, fun _ => by rw [Bool.and_eq_true_iff, Bool.not_eq_true']⟩
  case h_7 => cases hi

end Sys2Proof.Machine

namespace Sys2Proof.Proofs
open Sys2Proof.Machine

/-- Settles O1: each word is `laneG` of a function whose bits are those of the rule's table (`exec_laneBits`). -/
theorem laneBitwise : Obligations.LaneBitwise := by
  intro i s h d f hi
  obtain ⟨g, hexec, hbits⟩ := exec_laneBits hi s
  rw [hexec]
  exact laneG_gives h d s (P := fun x r => ∀ j, j < 32 → r.getLsbD j = f s x j) hbits

/-- Every word of `laneSum` is `laneG` of a function that gives its number (`exec_laneSum`). -/
theorem laneArithmetic_holds : Claims.laneArithmetic := by
  intro i s h d f hi
  obtain ⟨g, hexec, hsum⟩ := exec_laneSum hi s
  rw [hexec]
  exact laneG_gives h d s (P := fun x r => r = BitVec.ofInt 32 (f s x)) hsum

/-- Every word of `laneCounted` is `laneG` of a function of which R67's description holds (`exec_laneCounted`). -/
theorem bitCounts_hold : Claims.bitCounts := by
  intro i s h d f hi
  obtain ⟨g, hexec, hcount⟩ := exec_laneCounted hi s
  rw [hexec]
  exact laneG_gives h d s hcount

/-- Settles O2: each word is `laneG` of a function that gives the table's number, or what R67 says of the count. -/
theorem laneArithmetic : Obligations.LaneArithmetic := ⟨laneArithmetic_holds, bitCounts_hold⟩

/-- Settles O3: each word is `lanePair` of a function that gives the table's number modulo 2^64 (`exec_pairSum`). -/
theorem pairArithmetic : Obligations.PairArithmetic := by
  intro i s h d f hi _
  obtain ⟨g, hexec, hsum⟩ := exec_pairSum hi s
  obtain ⟨t, ht, hval, hrest⟩ := lanePair_gives h d s g
  exact ⟨t, hexec.trans ht, fun l hl => (hval l hl).trans (hsum _), hrest⟩

/-- Settles O4: each word is `laneP` of a test for the table's condition (`exec_lanePred`). -/
theorem lanePredicates : Obligations.LanePredicates := by
  intro i s h pd f hi
  obtain ⟨g, hexec, hholds⟩ := exec_lanePred hi s
  obtain ⟨t, ht, hval, hpt, hrest⟩ := laneP_next h pd s g
  exact ⟨t, hexec.trans ht, fun l hl h7 => by rw [hval l hl h7]; exact hholds _, hpt, hrest⟩

end Sys2Proof.Proofs
end

section
/-! The uniform words [04 R75-R77, R79]: each is one write of a register and of the flags, made once. -/

namespace Sys2Proof.Machine
open Sys2Proof.Claims

/-! ### Flags [04 R76] -/

theorem flagsAfter_keep (r : W32) (f : Flags) : flagsAfter .keep r f f := ⟨rfl, rfl⟩

theorem flagsAfter_nz (r : W32) (f : Flags) : flagsAfter .nz r f (f.nz r) :=
  ⟨rfl, BitVec.msb_eq_getLsbD_last r, beq_iff_eq, rfl, rfl⟩

/-- A number differs from the s32 that has its low bits exactly when it does not fit. -/
theorem ne_toInt_ofInt_iff (n : Int) : n ≠ (BitVec.ofInt 32 n).toInt ↔ ¬ fitsS32 n := by
  rw [not_iff_not, BitVec.toInt_ofInt, fitsS32, eq_comm, Int.bmod_eq_iff (by norm_num)]
  omega

theorem flagsAfter_add (a b : W32) (f : Flags) : flagsAfter (.sum a b) (a + b) f (f.add a b) := by
  have hv := ne_toInt_ofInt_iff (a.toInt + b.toInt)
  rw [BitVec.ofInt_add, BitVec.ofInt_toInt, BitVec.ofInt_toInt] at hv
  exact ⟨rfl, BitVec.msb_eq_getLsbD_last (a + b), beq_iff_eq, decide_eq_true_iff, decide_eq_true_iff.trans hv⟩

theorem sub_eq_ofInt (a b : W32) : a - b = BitVec.ofInt 32 (a.toInt - b.toInt) := by
  rw [ofInt_sub, BitVec.ofInt_toInt, BitVec.ofInt_toInt]

theorem flagsAfter_sub (a b : W32) (f : Flags) : flagsAfter (.diff a b) (a - b) f (f.sub a b) := by
  have hv := ne_toInt_ofInt_iff (a.toInt - b.toInt)
  rw [← sub_eq_ofInt] at hv
  exact ⟨rfl, BitVec.msb_eq_getLsbD_last (a - b), beq_iff_eq, decide_eq_true_iff, decide_eq_true_iff.trans hv⟩

/-! ### One write of the uniform file -/

/-- A uniform register written, where the word has a destination, and the flags changed. -/
def Strand.writeUniform (st : Strand) (d : Option KReg) (r : W32) (fl : Flags → Flags) : Strand :=
  { (match d with
    | none => st
    | some k => st.wk k r) with flags := fl st.flags }

theorem Strand.rk_writeUniform_same (st : Strand) (k : KReg) (r : W32) (fl : Flags → Flags) : (st.writeUniform (some k) r fl).rk k = r :=
  (st.rk_wk k k r).trans (if_pos rfl)

theorem Strand.rk_writeUniform_other (st : Strand) {d : Option KReg} {q : KReg} (hq : q ∉ d.toList) (r : W32) (fl : Flags → Flags) :
    (st.writeUniform d r fl).rk q = st.rk q := by
  cases d with
  | none => rfl
  | some k => exact (st.rk_wk k q r).trans (if_neg fun h => hq (by simp [h]))

theorem State.writesOnlyK_writeUniform (s : State) (d : Option KReg) (r : W32) (fl : Flags → Flags) :
    writesOnlyK s (s.onFocus fun st => st.writeUniform d r fl) d.toList := by
  refine ⟨?_, fun _ => rfl, fun q hq => Strand.rk_writeUniform_other _ hq r fl⟩
  cases d with
  | none => rfl
  | some k => rfl

/-- A uniform word whose flags are N and Z is one such write. -/
theorem uniformNz_gives {o : Out} {h : Hdr} {d : KReg} {s : State} {r : W32} {p : W32 → Prop} (ho : o = uniformNz h d s r) (hr : p r) :
    ∃ (r : W32) (fl : Flags → Flags), o = uniform h s (fun st => st.writeUniform (some d) r fl) ∧ p r ∧ ∀ f, flagsAfter .nz r f (fl f) :=
  ⟨r, fun f => f.nz r, ho, hr, flagsAfter_nz r⟩

/-- Every uniform word is one such write, made once, with the result and the flags of its rule. -/
theorem exec_uniRes {i : Instr} {h : Hdr} {d : Option KReg} {p : State → W32 → Prop} {fr : State → FlagRule}
    (hi : uniRes i = some (h, d, p, fr)) (s : State) : ∃ (r : W32) (fl : Flags → Flags),
      exec i s = uniform h s (fun st => st.writeUniform d r fl) ∧ p s r ∧ ∀ f, flagsAfter (fr s) r f (fl f) := by
  unfold uniRes at hi
  split at hi
  case h_1 h d a => cases hi; exact ⟨s.old.rk a, id, rfl, rfl, flagsAfter_keep _⟩
  case h_2 h d a =>
    cases hi
    exact ⟨s.old.rk d + s.old.rk a, fun f => f.add (s.old.rk d) (s.old.rk a), rfl, BitVec.toNat_add _ _, flagsAfter_add _ _⟩
  case h_3 h d a =>
    cases hi
    exact ⟨s.old.rk d - s.old.rk a, fun f => f.sub (s.old.rk d) (s.old.rk a), rfl, sub_eq_ofInt _ _, flagsAfter_sub _ _⟩
  case h_4 h d a => cases hi; exact uniformNz_gives (r := s.old.rk d * s.old.rk a) rfl (BitVec.toNat_mul _ _)
  case h_5 h d a => cases hi; exact uniformNz_gives (r := s.old.rk d &&& s.old.rk a) rfl (fun _ => BitVec.getLsbD_and)
  case h_6 h d a => cases hi; exact uniformNz_gives (r := s.old.rk d ||| s.old.rk a) rfl (fun _ => BitVec.getLsbD_or)
  case h_7 h d a => cases hi; exact uniformNz_gives (r := s.old.rk d ^^^ s.old.rk a) rfl (fun _ => BitVec.getLsbD_xor)
  case h_8 h d a =>
    cases hi
    exact uniformNz_gives (r := shl32 (s.old.rk d) (s.old.rk a).toNat) rfl (fun _ hj => getLsbD_shl32 _ _ hj)
  case h_9 h d a => cases hi; exact uniformNz_gives (r := shr32 (s.old.rk d) (s.old.rk a).toNat) rfl (getLsbD_shr32 _ _)
  case h_10 h d a =>
    cases hi
    exact uniformNz_gives (r := sar32 (s.old.rk d) (s.old.rk a).toNat) rfl (fun _ hj => getLsbD_sar32 _ _ hj)
  case h_11 h d a => cases hi; exact uniformNz_gives (r := sMin (s.old.rk d) (s.old.rk a)) rfl (toInt_sMin _ _)
  case h_12 h d a => cases hi; exact uniformNz_gives (r := sMax (s.old.rk d) (s.old.rk a)) rfl (toInt_sMax _ _)
  case h_13 h d a =>
    cases hi
    exact ⟨s.old.rk d - s.old.rk a, fun f => f.sub (s.old.rk d) (s.old.rk a), rfl, sub_eq_ofInt _ _, flagsAfter_sub _ _⟩
  case h_14 h d a => cases hi; exact uniformNz_gives (r := popc (s.old.rk a)) rfl (toNat_popc _ (by norm_num))
  case h_15 h d a => cases hi; exact uniformNz_gives (r := clz (s.old.rk a)) rfl (leadingZeros_clz _ (by norm_num))
  case h_16 h d a => cases hi; exact uniformNz_gives (r := fns (s.old.rk a) (s.old.rk d).toNat) rfl (nthSet_fns _ _)
  case h_17 h d i => cases hi; exact ⟨s.immK i, id, rfl, immK_eq s i, flagsAfter_keep _⟩
  case h_18 h d i =>
    cases hi
    exact ⟨s.old.rk d + uniImm s i, fun f => f.add (s.old.rk d) (uniImm s i), by rw [← immK_eq]; rfl, BitVec.toNat_add _ _, flagsAfter_add _ _⟩
  case h_19 h d a l => cases hi; exact ⟨if hasLane s.frag.mask l then (s.old.lane l).rg a else 0, id, rfl, rfl, flagsAfter_keep _⟩
  case h_20 => cases hi

end Sys2Proof.Machine

namespace Sys2Proof.Proofs
open Sys2Proof.Machine

/-- Settles O5: a word that acts is one write of its destination and the flags (`exec_uniRes`), and otherwise nothing happens. -/
theorem uniformOperations : Obligations.UniformOperations := by
  intro i s h d p fr hi
  obtain ⟨r, fl, hexec, hres, hflags⟩ := exec_uniRes hi s
  obtain ⟨hacts, hidle⟩ := uniform_next h s fun st => st.writeUniform d r fl
  cases ha : s.acts h with
  | true =>
    refine ⟨_, r, hexec.trans (hacts ha), fun _ => ⟨hres, ?_, hflags _⟩, nofun, s.writesOnlyK_writeUniform d r fl⟩
    rintro k rfl
    exact Strand.rk_writeUniform_same _ k r fl
  | false => exact ⟨s, r, hexec.trans (hidle ha), nofun, fun _ => rfl, rfl, fun _ => rfl, fun _ _ => rfl⟩

end Sys2Proof.Proofs
end

section
/-! SUPPORT. The translation caches and a word's results that set out: what the accesses of a word leave of the device where no
region counts hotness, and a read of plain memory [13 R213, R216; 01 R16]. -/

namespace Sys2Proof.Machine
open Sys2Proof.Claims

/-! ### What the accesses of a word leave [13 R213, R216] -/

/-- Of a strand at most its lanes' last-page registers differ. -/
def Strand.onlyPages (a b : Strand) : Prop :=
  b = { a with lanes := b.lanes } ∧ ∀ l, b.lane l = { a.lane l with lastPage := (b.lane l).lastPage }

theorem Strand.onlyPages.refl (a : Strand) : a.onlyPages a := ⟨rfl, fun _ => rfl⟩

theorem Strand.onlyPages.trans {a b c : Strand} (h : a.onlyPages b) (k : b.onlyPages c) : a.onlyPages c := by
  refine ⟨by rw [k.1, h.1], fun l => ?_⟩
  have hc := k.2 l
  rw [h.2 l] at hc
  exact hc

theorem Strand.onlyPages_mapLanes (st : Strand) {f : Lane → Lane} (hf : ∀ x, f x = { x with lastPage := (f x).lastPage }) :
    st.onlyPages { st with lanes := mapV st.lanes f } := by
  refine ⟨rfl, fun l => ?_⟩
  have hl : ({ st with lanes := mapV st.lanes f } : Strand).lane l = f (st.lane l) := by
    simp only [Strand.lane, mapV, Fin.getElem_fin, Vector.getElem_ofFn]
  rw [hl]
  exact hf _

theorem Strand.onlyPages_onLane (st : Strand) (i : LaneId) {f : Lane → Lane} (hf : ∀ x, f x = { x with lastPage := (f x).lastPage }) :
    st.onlyPages (st.onLane i f) := by
  refine ⟨rfl, fun l => ?_⟩
  rw [Strand.lane_onLane]
  split_ifs with h
  · subst h
    exact hf _
  · rfl

/-- At most the translation caches, their counts, open choices and errors that were corrected differ: memory and what words see
of their strand stay. -/
def Dev.onlyCaches (d e : Dev) : Prop :=
  e = { d with focus := e.focus, strands := e.strands, cores := e.cores, jobs := e.jobs
               eccOne := e.eccOne, boot := e.boot, fresh := e.fresh } ∧ d.focus.onlyPages e.focus

theorem Dev.onlyCaches.of_eq {d e : Dev}
    (he : e = { d with cores := e.cores, jobs := e.jobs, eccOne := e.eccOne, boot := e.boot, fresh := e.fresh }) : d.onlyCaches e := by
  have hf : e.focus = d.focus := (congrArg Dev.focus he :)
  have hs : e.strands = d.strands := (congrArg Dev.strands he :)
  refine ⟨?_, by rw [hf]; exact .refl _⟩
  rw [hf, hs]
  exact he

theorem Dev.onlyCaches.refl (d : Dev) : d.onlyCaches d := ⟨rfl, .refl _⟩

theorem Dev.onlyCaches.trans {d e f : Dev} (h : d.onlyCaches e) (k : e.onlyCaches f) : d.onlyCaches f :=
  ⟨by rw [k.1, h.1], h.2.trans k.2⟩

theorem Dev.onlyCaches.mem {d e : Dev} (h : d.onlyCaches e) : e.mem = d.mem := (congrArg Dev.mem h.1 :)
theorem Dev.onlyCaches.clasps {d e : Dev} (h : d.onlyCaches e) : e.clasps = d.clasps := (congrArg Dev.clasps h.1 :)
theorem Dev.onlyCaches.regions {d e : Dev} (h : d.onlyCaches e) : e.regions = d.regions := (congrArg Dev.regions h.1 :)
theorem Dev.onlyCaches.k {d e : Dev} (h : d.onlyCaches e) : e.focus.k = d.focus.k := (congrArg Strand.k h.2.1 :)
theorem Dev.onlyCaches.flags {d e : Dev} (h : d.onlyCaches e) : e.focus.flags = d.focus.flags := (congrArg Strand.flags h.2.1 :)
theorem Dev.onlyCaches.flights {d e : Dev} (h : d.onlyCaches e) : e.focus.flights = d.focus.flights := (congrArg Strand.flights h.2.1 :)

/-- No region keeps a hotness shadow table. -/
def Dev.uncounted (d : Dev) : Prop := ∀ r ∈ d.regions, r.hotbase = 0

theorem Dev.onlyCaches.uncounted {d e : Dev} (h : d.onlyCaches e) (hd : d.uncounted) : e.uncounted := by
  rw [Dev.uncounted, h.regions]
  exact hd

/-- Work on the caches done for each entry of a list is work on the caches. -/
theorem Dev.onlyCaches.foldl {α : Type} {f : Dev → α → Dev} (h : ∀ d : Dev, d.uncounted → ∀ x, d.onlyCaches (f d x)) (xs : List α)
    {d : Dev} (hd : d.uncounted) : d.onlyCaches (xs.foldl f d) := by
  induction xs generalizing d with
  | nil => exact .refl d
  | cons x xs ih => exact (h d hd x).trans (ih ((h d hd x).uncounted hd))

theorem Dev.onlyCaches_onCore (d : Dev) (c : Fin 256) (f : Core → Core) : d.onlyCaches (d.onCore c f) := .of_eq rfl
theorem Dev.onlyCaches_onJob (d : Dev) (j : Nat) (f : Job → Job) : d.onlyCaches (d.onJob j f) := .of_eq rfl

theorem Dev.onlyCaches_correct (d : Dev) (acc : Access) (r : Run) : d.onlyCaches (d.correct acc r) := by
  unfold Dev.correct
  split
  · exact .refl d
  · exact .of_eq rfl

theorem Dev.onlyCaches_correctWalk {d : Dev} (hd : d.uncounted) (r : Region) (va : Nat) : d.onlyCaches (d.correctWalk r va) := by
  unfold Dev.correctWalk
  split
  · exact .refl d
  · exact .foldl (fun d _ x => d.onlyCaches_correct _ x) _ hd

theorem Dev.onlyCaches_mapStrands (d : Dev) {f : Strand → Strand} (hf : ∀ st : Strand, st.onlyPages (f st)) :
    d.onlyCaches (d.mapStrands f) := by
  refine ⟨rfl, ?_⟩
  unfold Dev.mapStrands
  dsimp only
  split
  · exact .refl _
  · exact hf _

/-- Without shadow tables a count that a cache gives up is discarded. -/
theorem Dev.addShadow_uncounted {d : Dev} (hd : d.uncounted) (region base count : Nat) : d.addShadow region base count = d := by
  unfold Dev.addShadow
  split
  · rfl
  · rename_i r hr
    have hcounts : r.counts = false := by
      rw [Region.counts, hd r (List.mem_of_find?_eq_some hr)]
      rfl
    rw [hcounts]
    simp only [Bool.not_false, or_true, if_true]

theorem Dev.onlyCaches_dropXlat {d : Dev} (hd : d.uncounted) (c : Fin 256) (e : TlbEntry) : d.onlyCaches (d.dropXlat c e) := by
  unfold Dev.dropXlat
  have hdrop : d.onlyCaches ((d.mapStrands fun st =>
      if st.core = c then
        { st with lanes := mapV st.lanes fun l => if l.lastPage = some e.x then { l with lastPage := none } else l }
      else st).onCore c fun k => { k with tlb := k.tlb.filter fun y => y != e }) := by
    refine (d.onlyCaches_mapStrands fun st => ?_).trans (Dev.onlyCaches_onCore _ _ _)
    split
    · exact st.onlyPages_mapLanes fun x => by split <;> rfl
    · exact .refl st
  dsimp only
  split
  · rw [Dev.addShadow_uncounted (hdrop.uncounted hd)]
    exact hdrop
  · exact hdrop

theorem Dev.onlyCaches_drew (d : Dev) : d.onlyCaches d.drew := .of_eq rfl

theorem Dev.onlyCaches_fillTlb {d : Dev} (hd : d.uncounted) (c : Fin 256) (x : Xlat) (va : Nat) : d.onlyCaches (d.fillTlb c x va) := by
  unfold Dev.fillTlb
  have hstale := Dev.onlyCaches.foldl (fun d hd e => Dev.onlyCaches_dropXlat hd c e)
    ((d.core c).tlb.filter fun e => e.x.holds x.region va && e.x != x) hd
  dsimp only
  generalize List.foldl _ d _ = e at *
  split
  · exact hstale
  · refine hstale.trans (.trans ?_ (Dev.onlyCaches_onCore _ _ _))
    split
    · exact .refl e
    · split
      · exact .refl e
      · exact (Dev.onlyCaches_dropXlat (hstale.uncounted hd) c _).trans (Dev.onlyCaches_drew _)

theorem Dev.onlyCaches_countHit (d : Dev) (c : Fin 256) (x : Xlat) : d.onlyCaches (d.countHit c x) := by
  unfold Dev.countHit
  split
  · exact d.onlyCaches_onCore c _
  · exact .refl d

theorem Dev.onlyCaches_hitPage (d : Dev) (p : Piece) : d.onlyCaches (d.hitPage p) := by
  unfold Dev.hitPage
  split
  · exact d.onlyCaches_countHit _ _
  · exact d.onlyCaches_countHit _ _
  · unfold Dev.countCapture
    split
    · exact d.onlyCaches_onJob _ _
    · exact .refl d
  all_goals exact .refl d

theorem Dev.onlyCaches_fillPage {d : Dev} (hd : d.uncounted) (p : Piece) : d.onlyCaches (d.fillPage p) := by
  unfold Dev.fillPage
  split
  · have hwalk := Dev.onlyCaches_correctWalk hd (d.regionOf d.focus) p.va
    exact (hwalk.trans (Dev.onlyCaches_fillTlb (hwalk.uncounted hd) _ _ _)).trans (Dev.onlyCaches_countHit _ _ _)
  all_goals exact .refl d

theorem Dev.onlyCaches_rememberPage (d : Dev) (l : LaneId) (ps : List Piece) : d.onlyCaches (d.rememberPage l ps) := by
  unfold Dev.rememberPage
  split
  · exact .refl d
  · split
    · exact ⟨rfl, d.focus.onlyPages_onLane l fun _ => rfl⟩
    · exact .refl d

/-- The accesses of a word disturb the translation caches and the errors that they correct, and nothing else. -/
theorem Dev.onlyCaches_touch {d : Dev} (hd : d.uncounted) (as : List (Option LaneId × List Piece)) : d.onlyCaches (d.touch as) := by
  unfold Dev.touch Dev.touchPages
  have hcorrect : d.onlyCaches (as.foldl (fun d a => a.2.foldl (fun d p => d.correct p.acc p.run) d) d) :=
    .foldl (fun d hd a => .foldl (fun d _ p => d.onlyCaches_correct _ _) a.2 hd) as hd
  generalize List.foldl _ d as = d1 at *
  have hhit := Dev.onlyCaches.foldl (fun d _ p => d.onlyCaches_hitPage p) (as.flatMap fun a => pagesOf a.2) (hcorrect.uncounted hd)
  have hfill := Dev.onlyCaches.foldl (fun d hd p => Dev.onlyCaches_fillPage hd p) (as.flatMap fun a => pagesOf a.2)
    (hhit.uncounted (hcorrect.uncounted hd))
  refine ((hcorrect.trans hhit).trans hfill).trans (.foldl (fun d _ a => ?_) as (hfill.uncounted (hhit.uncounted (hcorrect.uncounted hd))))
  split
  · exact .refl d
  · exact d.onlyCaches_rememberPage _ _

/-! ### A read of plain memory sets out [01 R16] -/

/-- No run lies at a peer. -/
def runsHere (rs : List Run) : Prop := ∀ r ∈ rs, peerOf r.key = none

theorem asksOf_runsHere (l : LaneId) {rs : List Run} (h : runsHere rs) (off : Nat) : asksOf l off rs = [] := by
  induction rs generalizing off with
  | nil => rfl
  | cons r rs ih =>
    rw [asksOf, h r List.mem_cons_self, ih fun x hx => h x (List.mem_cons_of_mem r hx)]
    rfl

/-- Memory of this device asks nothing of peers. -/
theorem asksFor_runsHere {oks : List (LaneId × List Run)} (h : ∀ x ∈ oks, runsHere x.2) : asksFor false oks = [] := by
  unfold asksFor
  rw [List.flatMap_eq_nil_iff.mpr fun x hx => by simp [asksOf_runsHere x.1 (h x hx)]]
  rfl

/-- Without clasps every party reads memory as it stands. -/
theorem Dev.readRunsFor_noClasps {d : Dev} (h : d.clasps = []) (party : Nat) (rs : List Run) :
    d.readRunsFor party rs = Mem.readRuns d.mem rs := by
  induction rs with
  | nil => rfl
  | cons r rs ih =>
    rw [Dev.readRunsFor, List.flatMap_cons, ← Dev.readRunsFor, ih, Mem.readRuns, Dev.readFor, h]
    rfl

/-- A read of plain memory for a register is one more result in flight, which holds the bytes that it has read. -/
theorem State.loadAs_plain (s : State) (party : LaneId → Nat) (ex : W32) (fill : Fill) {marks : List Dest} {oks : List (LaneId × List Run)}
    (hclasps : s.now.clasps = []) (hhere : ∀ x ∈ oks, runsHere x.2) (hmarks : marks ≠ []) :
    ∃ f, launches s (s.loadAs party ex fill marks oks) f ∧ (s.loadAs party ex fill marks oks).now.mem = s.now.mem ∧
      f.kind = .memory ∧ f.fill = fill ∧ f.marks = marks ∧ f.lanes = ex ∧ f.waits = 0 ∧
      f.bufs = oks.map fun x => (x.1, Mem.readRuns s.now.mem x.2) := by
  have hempty : marks.isEmpty = false := List.isEmpty_eq_false_iff.mpr hmarks
  unfold State.loadAs
  simp only [asksFor_runsHere hhere, hempty, Bool.false_and, Bool.false_eq_true, if_false]
  refine ⟨_, ⟨rfl, rfl, rfl, fun _ => ⟨rfl, rfl, rfl⟩⟩, rfl, rfl, rfl, rfl, rfl, rfl, ?_⟩
  exact List.map_congr_left fun x _ => by rw [Dev.readRunsFor_noClasps hclasps]

/-! ### A write of plain memory [06 R116] -/

/-- A write of plain memory stores its bytes; of the strands it tells at most their watches [14 R242]. -/
theorem Dev.put_plain {d : Dev} (hclasps : d.clasps = []) (party : Nat) (owner : TxOwner) {k : Nat} (hpeer : peerOf k = none) (bs : List Byte) :
    (d.put party owner k bs).mem = Mem.write d.mem k bs ∧ d.strandsKept (d.put party owner k bs) := by
  have hfree : d.bindsIn { key := k, len := bs.length } = false := by rw [Dev.bindsIn, hclasps]; rfl
  rw [Dev.put, hpeer]
  dsimp only
  rw [Dev.writeFor, hfree]
  exact ⟨Dev.trigger_mem _ _ _, .trans (.of_eq rfl rfl) (Dev.strandsKept_trigger _ _ _)⟩

end Sys2Proof.Machine
end

section
/-! KLD and KST [04 R61, R78]. -/

namespace Sys2Proof.Machine
open Sys2Proof.Claims

/-- A uniform access with no executing lane is not made. -/
theorem State.reachK_idle {s : State} {h : Hdr} (ha : s.acts h = false) (acc : Access) (ea : W64) (k : List Piece → State → Out) :
    s.reachK h acc ea k = .next s := by
  rw [State.reachK, ha]
  rfl

/-- An aligned uniform access that passes its checks goes on with what it reaches; it disturbs only the caches. -/
theorem State.reachK_reaches {s : State} {h : Hdr} {acc : Access} {ea : W64} {ps : List Piece} (ha : s.acts h = true) (hal : ea.toNat % 4 = 0)
    (hok : s.seen.access s.old none acc ea.toNat 4 = .ok ps) (hd : s.now.uncounted) (k : List Piece → State → Out) :
    ∃ t : State, s.reachK h acc ea k = k ps t ∧ s.now.onlyCaches t.now := by
  refine ⟨s.onDev fun d => d.touch [(none, ps)], ?_, Dev.onlyCaches_touch hd _⟩
  rw [State.reachK, ha, hok]
  simp only [hal, Bool.not_true, Bool.false_eq_true, ne_eq, not_true_eq_false, if_false]

/-- What sets out after the caches were disturbed sets out. -/
theorem Dev.onlyCaches.launches {s t u : State} {f : Flight} (h : s.now.onlyCaches t.now) (k : launches t u f) : launches s u f := by
  obtain ⟨hflights, hk, hflags, hlanes⟩ := k
  refine ⟨hflights.trans (by rw [h.flights]), hk.trans h.k, hflags.trans h.flags, fun l => ?_⟩
  obtain ⟨hg, hp, hm⟩ := hlanes l
  have hl : t.lane l = { s.lane l with lastPage := (t.lane l).lastPage } := h.2.2 l
  exact ⟨hg.trans (congrArg Lane.g hl :), hp.trans (congrArg Lane.p hl :), hm.trans (congrArg Lane.m hl :)⟩

theorem exec_kld (h : Hdr) (d a : KReg) (o : Fin 16) (s : State) : exec (.kld h d a o) s =
    s.reachK h .read (s.eaK a o) fun ps t =>
      .next (t.loadAs (fun _ => uniformParty s.old) (s.exec h) (.kld d) [.k d] [(s.low h, runsOf ps)]) := rfl

theorem exec_kst (h : Hdr) (d a : KReg) (o : Fin 16) (s : State) : exec (.kst h d a o) s =
    s.reachK h .write (s.eaK a o) fun ps t =>
      .next (t.onDev fun dev => dev.putRuns (uniformParty s.old) (s.storeOwnerK (s.low h)) (runsOf ps) (toBytes 4 (s.old.rk d).toNat)) := rfl

/-- KLD sets out the word at its address. -/
theorem kld_setsOut {h : Hdr} {d a : KReg} {o : Fin 16} {s : State} {p : Piece} (ha : s.acts h = true) (hal : (s.eaK a o).toNat % 4 = 0)
    (hok : s.seen.access s.old none .read (s.eaK a o).toNat 4 = .ok [p]) (hplain : plainMemory s [(0, keyOf [p])]) :
    ∃ t f l, exec (.kld h d a o) s = .next t ∧ launches s t f ∧ sameMemory s t ∧ f.kind = .memory ∧ f.fill = .kld d ∧
      f.marks = [.k d] ∧ f.bufs = [(l, Mem.read s.now.mem p.run.key p.run.len)] := by
  obtain ⟨hclasps, hpeer, hcounts⟩ := hplain
  rw [exec_kld]
  obtain ⟨t, ht, hcaches⟩ := State.reachK_reaches ha hal hok hcounts _
  have hhere : runsHere (runsOf [p]) := by
    intro r hr
    rw [List.mem_singleton.mp hr]
    exact hpeer _ List.mem_cons_self
  obtain ⟨f, hlaunch, hmem, hkind, hfill, hmarks, -, -, hbufs⟩ := t.loadAs_plain (fun _ => uniformParty s.old) (s.exec h) (.kld d)
    (marks := [.k d]) (oks := [(s.low h, runsOf [p])]) (hcaches.clasps.trans hclasps) (fun x hx => by rw [List.mem_singleton.mp hx]; exact hhere)
    (List.cons_ne_nil _ _)
  refine ⟨_, f, s.low h, ht, hcaches.launches hlaunch, sameMemory_of_eq (hmem.trans hcaches.mem), hkind, hfill, hmarks, ?_⟩
  rw [hbufs, hcaches.mem]
  exact congrArg (fun bs => [(s.low h, bs)]) (List.append_nil _)

/-- KST stores its register's bytes. -/
theorem kst_stores {h : Hdr} {d a : KReg} {o : Fin 16} {s : State} {p : Piece} (ha : s.acts h = true) (hal : (s.eaK a o).toNat % 4 = 0)
    (hok : s.seen.access s.old none .write (s.eaK a o).toNat 4 = .ok [p]) (hplain : plainMemory s [(0, keyOf [p])]) (hlen : p.run.len = 4) :
    ∃ t, exec (.kst h d a o) s = .next t ∧ t.now.mem = Mem.write s.now.mem p.run.key (lowBytes 4 (s.old.rk d).toNat) ∧
      t.now.focus.k = s.now.focus.k ∧ t.now.focus.flags = s.now.focus.flags := by
  obtain ⟨hclasps, hpeer, hcounts⟩ := hplain
  rw [exec_kst]
  obtain ⟨t, ht, hcaches⟩ := State.reachK_reaches ha hal hok hcounts _
  have hbytes : (toBytes 4 (s.old.rk d).toNat).take p.run.len = lowBytes 4 (s.old.rk d).toNat := by
    rw [hlen, lowBytes_eq_toBytes]
    exact List.take_of_length_le (length_toBytes _ _).le
  obtain ⟨hmem, hkept⟩ := Dev.put_plain (hcaches.clasps.trans hclasps) (uniformParty s.old) (s.storeOwnerK (s.low h))
    (hpeer _ List.mem_cons_self) (lowBytes 4 (s.old.rk d).toNat)
  rw [hcaches.mem] at hmem
  rw [← hbytes] at hmem hkept ⊢
  exact ⟨_, ht, hmem, hkept.1.k_eq.trans hcaches.k, hkept.1.flags_eq.trans hcaches.flags⟩

end Sys2Proof.Machine

namespace Sys2Proof.Proofs
open Sys2Proof.Machine

/-- Settles O23: a uniform access that is made disturbs only the caches (`State.reachK_reaches`), then reads or writes plain memory. -/
theorem uniformLoadStore : Obligations.UniformLoadStore := by
  refine fun h d a o s => ⟨fun ha => ⟨?_, ?_⟩, ?_, ?_⟩
  · exact (exec_kld h d a o s).trans (State.reachK_idle ha _ _ _)
  · exact (exec_kst h d a o s).trans (State.reachK_idle ha _ _ _)
  · rintro ps p ha hal hok hplain rfl
    exact kld_setsOut ha hal hok hplain
  · rintro ps p ha hal hok hplain rfl hlen
    exact kst_stores ha hal hok hplain hlen

end Sys2Proof.Proofs
end

section
/-! The F-pipe words that write a g register: what such a word leaves without an enabled flag, and the fault that it takes with
one [05 R80; 03 R53-R55]. -/

namespace Sys2Proof.Machine
open Sys2Proof.Claims

/-! ### Flags that a word raises [03 R53, R54] -/

theorem State.lane_raiseFlags (s : State) (ex : W32) (fl : LaneId → W32) (l : LaneId) :
    (s.raiseFlags ex fl).lane l = if hasLane ex l then { s.lane l with fpstat := (s.lane l).fpstat ||| fl l } else s.lane l := by
  simp only [State.raiseFlags, State.lane, State.writeLanes_now, Dev.onFocus_focus, Strand.lane_onLanes]

theorem State.mem_raiseFlags (s : State) (ex : W32) (fl : LaneId → W32) : (s.raiseFlags ex fl).now.mem = s.now.mem := by
  simp only [State.raiseFlags, State.mem_writeLanes]

theorem State.fflags_raiseFlags (s : State) (ex : W32) (fl : LaneId → W32) (l : LaneId) :
    (s.raiseFlags ex fl).iss.fflags[l] = s.iss.fflags[l] ||| if hasLane ex l then fl l else 0 := by
  simp only [State.raiseFlags, Fin.getElem_fin, Vector.getElem_ofFn, State.writeLanes_iss]

/-- Flags raised after a write in lanes change nothing but lanes and the flags noted for a CSR write. -/
theorem onlyLanes.raiseFlags {s t : State} (h : onlyLanes s t) (ex : W32) (fl : LaneId → W32) : onlyFpLanes s (t.raiseFlags ex fl) := by
  have hw := t.onlyLanes_writeLanes ex fun l x => { x with fpstat := x.fpstat ||| fl l }
  unfold onlyLanes at h hw
  rw [onlyFpLanes, State.raiseFlags, hw, h]

/-- A result written to a g register and the flags raised with it are what the frame of an F-pipe word allows. -/
theorem fpFrame_writeG_raiseFlags (h : Hdr) (d : GReg) (s : State) (f : Lane → W32 × W32) :
    fpFrame s ((s.writeG (s.exec h) d fun l => (f (s.src l)).1).raiseFlags (s.exec h) fun l => (f (s.src l)).2) h d f := by
  refine ⟨(s.onlyLanes_writeLanes _ _).raiseFlags _ _, sameMemory_of_eq ?_, fun l hl => ?_, fun l hl => ?_⟩
  · rw [State.mem_raiseFlags, State.writeG, State.mem_writeLanes]
  · have hex : hasLane (s.exec h) l = true := hl
    rw [State.lane_raiseFlags, State.fflags_raiseFlags, if_pos hex, if_pos hex, State.writeG, State.lane_write_in _ _ _ _ hl]
    exact ⟨Lane.rg_wg_same _ _ _, rfl, rfl, fun r hr => (Lane.rg_wg _ _ _ _).trans (if_neg hr.symm), rfl⟩
  · have hex : ¬ hasLane (s.exec h) l = true := hl
    rw [State.lane_raiseFlags, State.fflags_raiseFlags, if_neg hex, if_neg hex, State.writeG, State.lane_write_out _ _ _ _ hl]
    exact ⟨rfl, BitVec.or_zero⟩

/-! ### The enabled FP exception [03 R55] -/

/-- The trapping lanes are the executing lanes that raise a flag that they enable. -/
theorem State.hasLane_fpTraps (s : State) (h : Hdr) (fl : LaneId → W32) (l : LaneId) :
    hasLane (s.fpTraps (s.exec h) fl) l = true ↔ s.runsIn h l ∧ fl l &&& (s.src l).fpctl &&& 31 ≠ 0 := by
  rw [State.fpTraps, hasLane_maskOf, Bool.and_eq_true, bne_iff_ne]
  rfl

theorem getLsbD_foldl_or (fl : LaneId → W32) (ls : List LaneId) (a : W32) (j : Nat) :
    (ls.foldl (fun a l => a ||| fl l) a).getLsbD j = (a.getLsbD j || ls.any fun l => (fl l).getLsbD j) := by
  induction ls generalizing a with
  | nil => exact (Bool.or_false _).symm
  | cons l ls ih => rw [List.foldl_cons, ih, BitVec.getLsbD_or, List.any_cons, Bool.or_assoc]

/-- A flag is in the OR of the lanes of a mask when one of these lanes raises it. -/
theorem getLsbD_orFlags (lanes : W32) (fl : LaneId → W32) (j : Nat) :
    (orFlags lanes fl).getLsbD j = true ↔ ∃ l, hasLane lanes l = true ∧ (fl l).getLsbD j = true := by
  simp [orFlags, getLsbD_foldl_or, lanesOf]

/-- The five flags of a register as a number. -/
theorem toNat_and_31 (v : W32) : (v &&& 31).toNat = v.toNat % 2 ^ 5 := Nat.and_two_pow_sub_one_eq_mod v.toNat 5

theorem testBit_fpFlags (v : W32) {j : Nat} (hj : j < 5) : (v &&& 31).toNat.testBit j = v.getLsbD j := by
  rw [toNat_and_31, Nat.testBit_mod_two_pow, decide_eq_true hj, Bool.true_and, BitVec.testBit_toNat]

theorem fpFlags_lt (v : W32) : (v &&& 31).toNat < 32 := toNat_and_31 v ▸ Nat.mod_lt _ (by decide)

/-! ### The words [05 R81-R94] -/

/-- Every word of the table is the shared operation `fpG` of the result and flags that the table names. -/
theorem exec_fpRes {i : Instr} {h : Hdr} {d : GReg} {f : State → Lane → W32 × W32} (hi : fpRes i = some (h, d, f)) (s : State) :
    exec i s = fpG h d s (f s) := by
  unfold fpRes at hi
  split at hi
  case h_37 => cases hi
  all_goals cases hi; rfl

/-- Without an enabled flag the word writes its results and raises its flags. -/
theorem fpG_of_noFpTrap {h : Hdr} {d : GReg} {s : State} {f : Lane → W32 × W32} (hn : noFpTrap s h fun x => (f x).2) :
    fpG h d s f = .next ((s.writeG (s.exec h) d fun l => (f (s.src l)).1).raiseFlags (s.exec h) fun l => (f (s.src l)).2) := by
  rcases fpWord_cases h s f fun x v => x.wg d v with ⟨-, he⟩ | ⟨⟨l, hl, hne⟩, -⟩
  · exact he
  · exact absurd (hn l hl) hne

/-- With one it takes fault 0x0A for the trapping lanes. -/
theorem fpG_of_fpTrap {h : Hdr} {d : GReg} {s : State} {f : Lane → W32 × W32} (hn : ¬ noFpTrap s h fun x => (f x).2) :
    fpG h d s f = .next (s.trap (s.fpTrap (s.fpTraps (s.exec h) fun l => (f (s.src l)).2) fun l => (f (s.src l)).2)) := by
  rcases fpWord_cases h s f fun x v => x.wg d v with ⟨hz, -⟩ | ⟨-, he⟩
  · exact absurd hz hn
  · exact he

end Sys2Proof.Machine

namespace Sys2Proof.Proofs
open Sys2Proof.Machine

/-- A word without an enabled flag is one write and one raising of flags, which keeps the frame. -/
theorem floatWordsComplete_holds : Claims.floatWordsComplete := by
  intro i s h d f hi hn
  exact ⟨_, (exec_fpRes hi s).trans (fpG_of_noFpTrap hn), fpFrame_writeG_raiseFlags h d s (f s)⟩

/-- A word with one takes the fault of the lanes of `State.fpTraps`, whose flags are those of `orFlags`. -/
theorem enabledFlagTraps_holds : Claims.enabledFlagTraps := by
  intro i s h d f hi hn
  refine ⟨_, _, (exec_fpRes hi s).trans (fpG_of_fpTrap hn), s.hasLane_fpTraps h _, fun j hj => ?_, fpFlags_lt _⟩
  rw [testBit_fpFlags _ hj]
  exact getLsbD_orFlags _ _ j

/-- Settles O8: each word is `fpG` of its result and flags (`exec_fpRes`), which writes and raises them or takes the fault. -/
theorem floatWordsComplete : Obligations.FloatWordsComplete := ⟨floatWordsComplete_holds, enabledFlagTraps_holds⟩

end Sys2Proof.Proofs
end

section
/-! Rails and the firmware governor [06 R111; 22 R349, R351, R355]. -/

namespace Sys2Proof.Machine
open Sys2Proof.Claims

/-- Only one core differs: it has been changed by a function. -/
def Dev.onlyCore (d e : Dev) (core : Fin 256) (f : Core → Core) : Prop :=
  e.core core = f (d.core core) ∧ (∀ c, c ≠ core → e.core c = d.core c) ∧ ∀ k, Mem.get e.mem k = Mem.get d.mem k

theorem Dev.onlyCore_onCore (d : Dev) (core : Fin 256) (f : Core → Core) : d.onlyCore (d.onCore core f) core f :=
  ⟨(d.core_onCore core core f).trans (if_pos rfl), fun c hc => (d.core_onCore core c f).trans (if_neg hc.symm), fun _ => rfl⟩

/-- Nothing keeps a core low without a deterministic strand on it and a floor of its die. -/
theorem Dev.keptLow_eq_false {d : Dev} {core : Fin 256} (hdet : ∀ st ∈ d.all, st.core = core → st.det = false)
    (hfloor : ∀ i : Fin 4, i.val = core.val / 64 → d.power.floor[i] = false) : d.keptLow core = false := by
  have hdie : core.val / 64 < 4 := by omega
  have hstrands : (d.all.any fun st => st.core == core && st.det) = false := by
    rw [List.any_eq_false]
    intro st hst
    by_cases hc : st.core = core
    · simp [hdet st hst hc]
    · simp [hc]
  have hat : d.power.floor.toList.getD (core.val / 64) false = d.power.floor[(⟨core.val / 64, hdie⟩ : Fin 4)] := by
    simp [List.getD, hdie]
  rw [Dev.keptLow, hstrands, dieOf, hat, hfloor ⟨_, hdie⟩ rfl]
  rfl

/-- A change in flight is ready where it is to the low rail or nothing keeps the core low. -/
theorem Dev.railReady_of_due {d : Dev} {core : Fin 256} {high : Bool} (hdue : (d.core core).railDue = some high)
    (hfree : high = false ∨ d.keptLow core = false) : d.railReady core = true := by
  rw [Dev.railReady, hdue]
  rcases hfree with h | h <;> simp [h]

/-- A ready change puts its core on the requested rail. -/
theorem exec_railChangeCompletion {s : State} {core : Fin 256} (hready : s.now.railReady core = true) :
    exec (.railChangeCompletion core) s =
      .next (s.onDev fun d => d.onCore core fun k => { k with rail := k.railDue.getD k.rail, railDue := none }) := by
  change Host.Outcome.next (s.onDev _) = _
  simp only [State.onDev, hready, if_true]

theorem exec_governorRailWrite (core : Fin 256) (high : Bool) (cap : BitVec 24) (s : State) :
    exec (.governorRailWrite core high cap) s = .next (s.onDev fun d => d.onCore core fun k => { k.setRail high with caratcap := cap }) := rfl

end Sys2Proof.Machine

namespace Sys2Proof.Proofs
open Sys2Proof.Machine

/-- Settles O49: both events change one core (`Dev.onlyCore_onCore`); a change in flight is ready where nothing keeps its core low. -/
theorem powerEvents : Obligations.PowerEvents := by
  refine ⟨fun core high s hdue hfree => ?_, fun core high cap s => ?_⟩
  · have hready := Dev.railReady_of_due hdue (hfree.imp_right fun ⟨hdet, hfloor⟩ => Dev.keptLow_eq_false hdet hfloor)
    obtain ⟨hcore, hothers, hmem⟩ := s.now.onlyCore_onCore core fun k => { k with rail := k.railDue.getD k.rail, railDue := none }
    exact ⟨_, exec_railChangeCompletion hready, by rw [State.onDev, hcore]; simp only [hdue, Option.getD_some], hothers, hmem⟩
  · obtain ⟨hcore, hothers, hmem⟩ := s.now.onlyCore_onCore core fun k => { k.setRail high with caratcap := cap }
    exact ⟨_, exec_governorRailWrite core high cap s, hmem, hcore, hothers⟩

end Sys2Proof.Proofs
end

section
/-! Branches and CALL [06 R95-R97, R99; 02 R22, R23]. -/

namespace Sys2Proof.Machine
open Sys2Proof.Claims

/-! ### Transfers and their targets -/

theorem State.setXfer_eq (s : State) (x : Xfer) : s.setXfer x = withXfer s x := rfl

/-- The target of an offset is the packet that it names [02 R23]. -/
theorem State.target_eq {n : Nat} (s : State) (off : BitVec n) (hn : n ≤ 64) : s.target off = packetAt s off.toInt := by
  have hext : off.signExtend 64 = BitVec.ofInt 64 off.toInt := by
    rw [← BitVec.toInt_signExtend_of_le hn, BitVec.ofInt_toInt]
  rw [State.target, packetAt, hext, BitVec.ofInt_add, BitVec.ofInt_mul, ofInt_toNat]
  rfl

theorem target_ok_of_aligned {m : W32} {f : LaneId → W64} (h : ∀ l, hasLane m l = true → (f l).toNat % 12 = 0) : badTarget m f = none := by
  refine if_pos (mask_eq_zero.mpr fun l => ?_)
  rw [hasLane_maskOf]
  by_cases hl : hasLane m l = true
  · simp [hl, h l hl]
  · simp [hl]

/-- Where every lane of a mask has one bad target, alignment names all of them [02 R22]. -/
theorem badTarget_of_misaligned {m : W32} {pc : W64} (hm : m ≠ 0) (h : pc.toNat % 12 ≠ 0) :
    badTarget m (fun _ => pc) = some (Trap.user 0x05 m pc) := by
  have hmask : maskOf (fun l => hasLane m l && (pc.toNat % 12 != 0)) = m := mask_ext fun l => by simp [h]
  rw [badTarget, hmask]
  exact if_neg hm

/-! ### Branches -/

/-- A condition of BR holds as its rule says [06 R96]. -/
theorem Cond.holds_iff (cc : Cond) (f : Flags) : Cond.holds cc f = true ↔ condHolds f cc := by
  cases cc <;> simp [Cond.holds, condHolds]

theorem mem_takers {s : State} {h : Hdr} {l : LaneId} : l ∈ takers s h ↔ s.runsIn h l := mem_lanesOf

theorem State.someP_iff (s : State) (h : Hdr) (p : PReg) : s.someP h p = true ↔ ∃ l ∈ takers s h, (s.src l).rp p = true :=
  List.any_eq_true

theorem State.everyP_iff (s : State) (h : Hdr) (p : PReg) : s.everyP h p = true ↔ ∀ l ∈ takers s h, (s.src l).rp p = true :=
  List.all_eq_true

/-- Each branch is the shared operation `branch`, taken when its condition holds, to its packet [06 R96, R97]. -/
theorem exec_branchRule {i : Instr} {s : State} {h : Hdr} {c : State → Prop} {tgt : State → W64} (hi : branchRule i = some (h, c, tgt)) :
    ∃ taken, exec i s = branch h s taken (tgt s) ∧ (taken = true ↔ c s) := by
  unfold branchRule at hi
  split at hi
  case h_6 => cases hi
  case h_1 h cc off =>
    cases hi
    exact ⟨_, congrArg (branch h s _) (s.target_eq off (by decide)), Cond.holds_iff cc _⟩
  case h_2 h p off =>
    cases hi
    refine ⟨_, congrArg (branch h s _) (s.target_eq off (by decide)), ?_⟩
    rw [Bool.not_eq_true', ← Bool.not_eq_true, s.someP_iff h p]
    simp
  case h_3 h p off =>
    cases hi
    exact ⟨_, congrArg (branch h s _) (s.target_eq off (by decide)), s.someP_iff h p⟩
  case h_4 h p off =>
    cases hi
    exact ⟨_, congrArg (branch h s _) (s.target_eq off (by decide)), s.everyP_iff h p⟩
  case h_5 h p off =>
    cases hi
    refine ⟨_, congrArg (branch h s _) (s.target_eq off (by decide)), ?_⟩
    rw [Bool.not_eq_true', ← Bool.not_eq_true, s.everyP_iff h p]
    simp

/-- A branch moves its group when it acts and is taken, and does nothing otherwise [06 R95-R97]. -/
theorem branches_hold : Claims.branches := by
  intro i s h c tgt hi
  obtain ⟨taken, hexec, htaken⟩ := exec_branchRule (s := s) hi
  rw [hexec, ← htaken, ← Bool.and_eq_true, branch]
  exact ⟨fun hgo => by rw [if_pos hgo, State.setXfer_eq], fun hstay => by rw [if_neg hstay]⟩

/-! ### CALL -/

theorem exec_call (h : Hdr) (off : BitVec 20) (s : State) : exec (.call h off) s =
    orTrap (badTarget (s.exec h) fun _ => packetAt s off.toInt) s
      (if s.acts h then withXfer (s.writePair (s.exec h) 62 fun _ => s.frag.pc + 12) (.goto (packetAt s off.toInt))
        else s.writePair (s.exec h) 62 fun _ => s.frag.pc + 12) := by
  rw [← s.target_eq off (by decide)]
  rfl

theorem State.acts_eq_false {s : State} {h : Hdr} : s.acts h = false ↔ s.exec h = 0 := bne_eq_false_iff_eq

/-- A write in no lane changes nothing. -/
theorem State.writeLanes_zero (s : State) (f : LaneId → Lane → Lane) : s.writeLanes 0 f = s := by
  have hlanes : s.now.focus.onLanes 0 f = s.now.focus := by
    have hv : (Vector.ofFn fun l => s.now.focus.lanes[l]) = s.now.focus.lanes := Vector.ext fun i hi => by simp
    simp only [Strand.onLanes, hasLane, BitVec.ofNat_eq_ofNat, BitVec.getLsbD_zero, Bool.false_eq_true, if_false, hv]
  rw [State.writeLanes, State.onFocus, State.onDev, Dev.onFocus, hlanes]

/-- CALL links and transfers, or raises alignment [06 R99; 02 R22]. -/
theorem call_links_and_transfers : Claims.callLinksAndTransfers := by
  refine fun h off s => ⟨fun hno => ?_, fun ha hal => ?_, fun ha hal => ?_⟩
  · rw [exec_call, hno, State.acts_eq_false.mp hno, State.writePair, State.writeLanes_zero,
      target_ok_of_aligned fun l hl => by simp [hasLane] at hl]
    rfl
  · obtain ⟨t, ht, hlink, honly⟩ := lanePair_gives h 62 s fun _ => s.frag.pc + 12
    have hwrite : s.writePair (s.exec h) 62 (fun _ => s.frag.pc + 12) = t := by injection ht
    refine ⟨t, ?_, hlink, honly⟩
    rw [exec_call, target_ok_of_aligned fun _ _ => hal, if_pos ha, hwrite]
    rfl
  · refine ⟨s.exec h, fun _ => Iff.rfl, ?_⟩
    rw [exec_call, badTarget_of_misaligned (bne_iff_ne.mp ha) hal]
    rfl

end Sys2Proof.Machine

namespace Sys2Proof.Proofs
open Sys2Proof.Machine

/-- Settles O11: each branch is `branch` with its rule's condition and target (`exec_branchRule`); CALL is one pair write and a
transfer. -/
theorem branches : Obligations.Branches := ⟨branches_hold, call_links_and_transfers⟩

end Sys2Proof.Proofs
end

section
/-! ERET [06 R108; 21 R325, R326]. -/

namespace Sys2Proof.Machine
open Sys2Proof.Claims

/-- The entry lane of a system record as ERET gives it back: g56-g63 and p0-p6 are those of the record [21 R326]. -/
def SysRec.restore (r : SysRec) (x : Lane) : Lane :=
  let x := (List.range 8).foldl (fun x i => x.wg (Fin.ofNat 64 (56 + i)) (r.regs.getD i 0)) x
  { x with p := Vector.ofFn fun i => r.preds.getD i.val false }

/-- The fragment as an ERET without nesting leaves it, with the lanes of its full mask that are live [21 R326]. -/
def Frag.eretBack (f : Frag) (r : SysRec) (live : W32) : Frag :=
  { f with pc := f.syspc, pos := if f.syspc = r.pcIn then r.pos else 0, mask := r.full &&& live, prv := f.pprv, sysrec := none }

/-- A register after the first `n` of the registers from g56 on were written. -/
theorem Lane.rg_foldl_wg (v : Nat → W32) {n : Nat} (hn : n ≤ 8) (x : Lane) (q : GReg) :
    ((List.range n).foldl (fun x i => x.wg (Fin.ofNat 64 (56 + i)) (v i)) x).rg q =
      if 56 ≤ q.val ∧ q.val < 56 + n then v (q.val - 56) else x.rg q := by
  induction n with
  | zero => rw [if_neg (by omega)]; rfl
  | succ n ih =>
    have hreg : (Fin.ofNat 64 (56 + n) : GReg).val = 56 + n := Nat.mod_eq_of_lt (by omega)
    rw [List.range_succ, List.foldl_concat, Lane.rg_wg, ih (by omega)]
    by_cases hq : Fin.ofNat 64 (56 + n) = q
    · subst hq
      rw [if_pos rfl, hreg, if_pos (by omega), Nat.add_sub_cancel_left]
    · have hne : q.val ≠ 56 + n := fun h => hq (Fin.ext (hreg.trans h.symm))
      rw [if_neg hq]
      exact if_congr (by omega) rfl rfl

theorem SysRec.rg_restore (r : SysRec) (x : Lane) (q : GReg) :
    (r.restore x).rg q = if 56 ≤ q.val then r.regs.getD (q.val - 56) 0 else x.rg q := by
  refine (Lane.rg_foldl_wg (fun i => r.regs.getD i 0) le_rfl x q).trans (if_congr ?_ rfl rfl)
  omega

/-- What comes back changes neither whether its lane is present nor whether it has exited. -/
theorem SysRec.restore_live (r : SysRec) (x : Lane) : (r.restore x).present = x.present ∧ (r.restore x).exited = x.exited := by
  have hfold : ∀ (is : List Nat) (x : Lane),
      let y := is.foldl (fun x i => x.wg (Fin.ofNat 64 (56 + i)) (r.regs.getD i 0)) x
      y.present = x.present ∧ y.exited = x.exited := by
    intro is
    induction is with
    | nil => exact fun x => ⟨rfl, rfl⟩
    | cons i is ih => exact fun x => ih _
  exact hfold _ x

theorem Strand.liveLanes_onLane (st : Strand) (i : LaneId) {f : Lane → Lane}
    (hf : ∀ x, (f x).present = x.present ∧ (f x).exited = x.exited) : (st.onLane i f).liveLanes = st.liveLanes := by
  refine mask_ext fun l => ?_
  have hl := st.lane_onLane i l f
  simp only [Strand.lane] at hl
  simp only [Strand.liveLanes, hasLane_maskOf, hl]
  split
  · rename_i h
    subst h
    rw [(hf _).1, (hf _).2]
  · rfl

/-- ERET with a system record: its lane's registers come back, then the fragment goes back. -/
theorem Strand.eret_restores {st : Strand} {slot : Fin 4} {f : Frag} {r : SysRec} (hf : st.frag slot = some f) (hr : f.sysrec = some r)
    (hn : f.nestrec = none) :
    (st.eret slot).frag slot = some (f.eretBack r st.liveLanes) ∧ ∀ l, (st.eret slot).lane l = (st.onLane r.lane r.restore).lane l := by
  have heret : st.eret slot =
      (st.onLane r.lane r.restore).onFrag slot fun f => f.eretBack r (st.onLane r.lane r.restore).liveLanes := by
    simp only [Strand.eret, hf, hr, hn]
    rfl
  rw [heret, Strand.frag_onFrag, if_pos rfl, st.liveLanes_onLane _ r.restore_live]
  refine ⟨?_, fun _ => rfl⟩
  change (st.frag slot).map _ = _
  rw [hf]
  rfl

/-- ERET without a system record only transfers and sets the level. -/
theorem Strand.eret_plain {st : Strand} {slot : Fin 4} {f : Frag} (hf : st.frag slot = some f) (hr : f.sysrec = none) :
    st.eret slot = st.onFrag slot fun f => { f with pc := f.syspc, pos := 0, prv := f.pprv } := by
  simp only [Strand.eret, hf, hr]

end Sys2Proof.Machine

namespace Sys2Proof.Proofs
open Sys2Proof.Machine

/-- Settles O15: with a system record the strand changes by `SysRec.restore` and `Frag.eretBack`, without one by the transfer alone. -/
theorem eretRestores : Obligations.EretRestores := by
  refine fun st slot f hf => ⟨fun hr => ?_, fun r hr hn => ?_⟩
  · rw [Strand.eret_plain hf hr, Strand.frag_onFrag, if_pos rfl, hf]
    exact ⟨rfl, rfl⟩
  · obtain ⟨hfrag, hlanes⟩ := Strand.eret_restores hf hr hn
    have hown : (st.eret slot).lane r.lane = r.restore (st.lane r.lane) := by rw [hlanes, Strand.lane_onLane, if_pos rfl]
    refine ⟨_, hfrag, rfl, rfl, rfl, rfl, rfl, fun i => ?_, fun i => ?_, fun q hq => ?_, fun l hl => ?_⟩
    · have hreg : (Fin.ofNat 64 (56 + i.val) : GReg).val = 56 + i.val := Nat.mod_eq_of_lt (by omega)
      rw [hown, r.rg_restore, hreg, if_pos (by omega), Nat.add_sub_cancel_left]
    · rw [hown]
      simp [SysRec.restore]
    · rw [hown, r.rg_restore, if_neg (by omega)]
    · rw [hlanes, Strand.lane_onLane, if_neg hl.symm]

end Sys2Proof.Proofs
end

section
/-! The accesses of a word's lanes: where they are misaligned, where they fail, and where they are made [06 R115; 13 R208, R212]. -/

namespace Sys2Proof.Machine
open Sys2Proof.Claims

/-- The lanes of a mask whose address is no multiple of `n`. -/
def badLanesOf (ex : W32) (n : Nat) (ea : LaneId → W64) : W32 := maskOf fun l => hasLane ex l && (ea l).toNat % n != 0

theorem hasLane_badLanesOf {ex : W32} {n : Nat} {ea : LaneId → W64} {l : LaneId} :
    hasLane (badLanesOf ex n ea) l = true ↔ hasLane ex l = true ∧ (ea l).toNat % n ≠ 0 := by
  rw [badLanesOf, hasLane_maskOf, Bool.and_eq_true, bne_iff_ne]

/-- A misaligned lane raises alignment for the misaligned lanes [06 R115]. -/
theorem State.misaligned_some (s : State) {ex : W32} {n : Nat} {ea : LaneId → W64} (h : ∃ l, hasLane ex l = true ∧ (ea l).toNat % n ≠ 0) :
    s.misaligned ex n ea = some (Trap.user 0x05 (badLanesOf ex n ea) (ea (lowLane (badLanesOf ex n ea)))) := by
  obtain ⟨l, hl⟩ := h
  refine if_neg fun hz => ?_
  have hbad : hasLane (badLanesOf ex n ea) l = false := mask_eq_zero.mp hz l
  rw [hasLane_badLanesOf.mpr hl] at hbad
  cases hbad

/-- The lanes that fail as the lowest failing lane does [21 R333]. -/
def alikeLanes (fails : List (LaneId × Fail)) (e : Fail) : W32 :=
  maskOf fun l => fails.any fun x => x.1 == l && x.2.code == e.code && x.2.reason == e.reason

theorem hasLane_alikeLanes {fails : List (LaneId × Fail)} {e : Fail} {l : LaneId} :
    hasLane (alikeLanes fails e) l = true ↔ ∃ g, (l, g) ∈ fails ∧ g.code = e.code ∧ g.reason = e.reason := by
  simp only [alikeLanes, hasLane_maskOf, List.any_eq_true, Bool.and_eq_true, beq_iff_eq, and_assoc]
  constructor
  · rintro ⟨⟨_, g⟩, hmem, rfl, hcode, hreason⟩
    exact ⟨g, hmem, hcode, hreason⟩
  · rintro ⟨g, hmem, hcode, hreason⟩
    exact ⟨_, hmem, rfl, hcode, hreason⟩

theorem laneFault_of_head {fails : List (LaneId × Fail)} {l : LaneId} {e : Fail} (acc : Access) (h : fails.head? = some (l, e)) :
    laneFault acc fails = some (e.trap acc (alikeLanes fails e) 0) := by
  obtain ⟨rest, rfl⟩ := List.head?_eq_some_iff.mp h
  rfl

section
variable {s : State} {ex : W32} {acc : Access} {n : Nat} {ea : LaneId → W64} {len : Nat} {k : List (LaneId × List Piece) → State → Out}

/-- A misaligned access raises alignment. -/
theorem State.reach_misaligned (h : ∃ l, hasLane ex l = true ∧ (ea l).toNat % n ≠ 0) :
    s.reach ex acc n ea len k = .next (s.trap (Trap.user 0x05 (badLanesOf ex n ea) (ea (lowLane (badLanesOf ex n ea))))) := by
  rw [State.reach, s.misaligned_some h]

/-- An aligned access that fails raises the fault of the lowest failing lane. -/
theorem State.reach_fails {l : LaneId} {e : Fail} (hal : ∀ l, hasLane ex l = true → (ea l).toNat % n = 0)
    (h : (failsOf (s.accessLanes ex acc ea len)).head? = some (l, e)) :
    s.reach ex acc n ea len k = .next (s.trap (e.trap acc (alikeLanes (failsOf (s.accessLanes ex acc ea len)) e) 0)) := by
  rw [State.reach, (s.misaligned_none ex n ea).mpr hal, laneFault_of_head acc h]

/-- An aligned access of which nothing fails is made. -/
theorem State.reach_made (hal : s.misaligned ex n ea = none) (hok : failsOf (s.accessLanes ex acc ea len) = []) :
    s.reach ex acc n ea len k = k (oksOf (s.accessLanes ex acc ea len)) (s.touchLanes (oksOf (s.accessLanes ex acc ea len))) := by
  rw [State.reach, hal, hok]
  rfl

end

theorem exec_ld (h : Hdr) (d a : GReg) (o : BitVec 5) (sz : AccSz) (s : State) : exec (.ld h d a o sz) s =
    s.reach (s.exec h) .read (szBytes sz) (fun l => s.eaN a o (szBytes sz) (s.src l)) (szBytes sz) fun oks t =>
      .next (t.load (s.exec h) (.ld d sz) (loadMarks (s.exec h) d (szRegs sz)) (oks.map fun x => (x.1, runsOf x.2))) := rfl

theorem exec_st (h : Hdr) (d a : GReg) (o : BitVec 5) (sz : AccSz) (s : State) : exec (.st h d a o sz) s =
    s.reach (s.exec h) .write (szBytes sz) (fun l => s.eaN a o (szBytes sz) (s.src l)) (szBytes sz) fun oks t =>
      .next (t.storeLanes oks fun l => storeBytes (s.src l) d (szBytes sz)) := rfl

/-- LD, ST, MONITOR and AWT make the accesses of the table before all else [06 R114; 14 R242, R247]. -/
theorem exec_laneAccess {i : Instr} {h : Hdr} {acc : Access} {n len : Nat} {ea : State → LaneId → W64}
    (hi : laneAccess i = some (h, acc, n, ea, len)) (s : State) : ∃ k, exec i s = s.reach (s.exec h) acc n (ea s) len k := by
  unfold laneAccess at hi
  split at hi
  case h_5 => cases hi
  case h_1 h d a o sz => cases hi; exact ⟨_, exec_ld h d a o sz s⟩
  case h_2 h d a o sz => cases hi; exact ⟨_, exec_st h d a o sz s⟩
  case h_3 h a =>
    cases hi
    simp only [← Lane.rpair_eq_asPair]
    rw [show exec (.monitor h a) s = execMonitor h a s from rfl, execMonitor]
    exact ⟨_, rfl⟩
  case h_4 h a b scope =>
    cases hi
    simp only [← Lane.rpair_eq_asPair]
    rw [show exec (.awt h a b scope) s = execAwt h a b scope s from rfl, execAwt]
    exact ⟨_, rfl⟩

end Sys2Proof.Machine

namespace Sys2Proof.Proofs
open Sys2Proof.Machine

/-- Settles O22: each word makes its lanes' accesses first (`exec_laneAccess`), which raise alignment (`State.reach_misaligned`) or the
lowest failing lane's fault (`State.reach_fails`). -/
theorem accessFaults : Obligations.AccessFaults := by
  refine ⟨fun i s h acc n ea len hi hbad => ?_, fun i s h acc n ea len l e hi hal hfail => ?_⟩
  · obtain ⟨k, hk⟩ := exec_laneAccess hi s
    exact ⟨_, fun l => hasLane_badLanesOf, hk.trans (State.reach_misaligned hbad)⟩
  · obtain ⟨k, hk⟩ := exec_laneAccess hi s
    exact ⟨_, hk.trans (State.reach_fails hal hfail), fun l => hasLane_alikeLanes⟩

end Sys2Proof.Proofs
end

section
/-! LD and ST of plain memory [06 R114, R116, R117; 01 R16]. -/

namespace Sys2Proof.Machine
open Sys2Proof.Claims

/-! ### Accesses that are made -/

/-- Where no access fails, every lane's access is among those that are made. -/
theorem mem_oksOf_of_failsOf_nil {α : Type} {rs : List (LaneId × Except Fail α)} (h : failsOf rs = []) {l : LaneId} {e : Except Fail α}
    (hx : (l, e) ∈ rs) : ∃ a, (l, a) ∈ oksOf rs := by
  cases e with
  | error x =>
    have hmem : (l, x) ∈ failsOf rs := List.mem_filterMap.mpr ⟨_, hx, rfl⟩
    rw [h] at hmem
    cases hmem
  | ok a => exact ⟨a, List.mem_filterMap.mpr ⟨_, hx, rfl⟩⟩

theorem reachable_iff {s : State} {h : Hdr} {acc : Access} {align len : Nat} {ea : LaneId → W64} :
    reachable s h acc align ea len = true ↔
      s.misaligned (s.exec h) align ea = none ∧ failsOf (s.accessLanes (s.exec h) acc ea len) = [] := by
  rw [reachable, Bool.and_eq_true, Option.isNone_iff_eq_none, List.isEmpty_iff]

/-- Every executing lane of a reachable access reaches its runs. -/
theorem reachedRuns_of_runsIn {s : State} {h : Hdr} {acc : Access} {align len : Nat} {ea : LaneId → W64}
    (hr : reachable s h acc align ea len = true) {l : LaneId} (hl : s.runsIn h l) : ∃ rs, (l, rs) ∈ reachedRuns s h acc ea len := by
  obtain ⟨-, hok⟩ := reachable_iff.mp hr
  obtain ⟨ps, hps⟩ := mem_oksOf_of_failsOf_nil hok (List.mem_map.mpr ⟨l, mem_lanesOf.mpr hl, rfl⟩)
  exact ⟨_, List.mem_map.mpr ⟨_, hps, rfl⟩⟩

/-- In plain memory every lane's runs lie on this device. -/
theorem runsHere_of_plain {s : State} {rs : List (LaneId × List Run)} (h : plainMemory s (runKeys rs)) : ∀ x ∈ rs, runsHere x.2 :=
  fun x hx r hr => h.2.1 (x.1, r.key) (List.mem_flatMap.mpr ⟨x, hx, List.mem_map.mpr ⟨r, hr, rfl⟩⟩)

/-- The accesses of the lanes disturb only the caches. -/
theorem State.onlyCaches_touchLanes {s : State} (hd : s.now.uncounted) (oks : List (LaneId × List Piece)) :
    s.now.onlyCaches (s.touchLanes oks).now := Dev.onlyCaches_touch hd _

/-- A strand's files after its caches were disturbed. -/
theorem Dev.onlyCaches.files {d e : Dev} (h : d.onlyCaches e) (l : LaneId) :
    (e.focus.lane l).g = (d.focus.lane l).g ∧ (e.focus.lane l).p = (d.focus.lane l).p ∧ (e.focus.lane l).m = (d.focus.lane l).m := by
  have hl := h.2.2 l
  exact ⟨(congrArg Lane.g hl :), (congrArg Lane.p hl :), (congrArg Lane.m hl :)⟩

theorem Strand.onlyWatches.files {a b : Strand} (h : a.onlyWatches b) (l : LaneId) :
    (b.lane l).g = (a.lane l).g ∧ (b.lane l).p = (a.lane l).p ∧ (b.lane l).m = (a.lane l).m := by
  have hl := h.2 l
  exact ⟨(congrArg Lane.g hl :), (congrArg Lane.p hl :), (congrArg Lane.m hl :)⟩

/-! ### LD [06 R114] -/

theorem mem_loadMarks {ex : W32} {d : GReg} {n : Nat} {l : LaneId} (hl : hasLane ex l = true) {i : Nat} (hi : i < n) :
    Dest.g l (d.plus i) ∈ loadMarks ex d n :=
  List.mem_flatMap.mpr ⟨l, mem_lanesOf.mpr hl, List.mem_map.mpr ⟨i, List.mem_range.mpr hi, rfl⟩⟩

theorem szRegs_pos (sz : AccSz) : 0 < szRegs sz := by cases sz <;> decide

/-- LD sends out the bytes that its lanes reach. -/
theorem ld_setsOut {h : Hdr} {d a : GReg} {o : BitVec 5} {sz : AccSz} {s : State} {rs : List (LaneId × List Run)} (ha : s.acts h = true)
    (hr : reachable s h .read (szBytes sz) (fun l => s.eaN a o (szBytes sz) (s.src l)) (szBytes sz) = true)
    (hrs : reachedRuns s h .read (fun l => s.eaN a o (szBytes sz) (s.src l)) (szBytes sz) = rs) (hplain : plainMemory s (runKeys rs)) :
    ∃ t f, exec (.ld h d a o sz) s = .next t ∧ launches s t f ∧ sameMemory s t ∧ f.kind = .memory ∧ f.fill = .ld d sz ∧
      f.lanes = s.exec h ∧ f.waits = 0 ∧ f.marks = loadMarks (s.exec h) d (szRegs sz) ∧
      f.bufs = rs.map fun x => (x.1, Mem.readRuns s.now.mem x.2) := by
  obtain ⟨hal, hok⟩ := reachable_iff.mp hr
  have hcaches := State.onlyCaches_touchLanes hplain.2.2
    (oksOf (s.accessLanes (s.exec h) .read (fun l => s.eaN a o (szBytes sz) (s.src l)) (szBytes sz)))
  have hmarks : loadMarks (s.exec h) d (szRegs sz) ≠ [] :=
    List.ne_nil_of_mem (mem_loadMarks (State.runsIn_low ha) (szRegs_pos sz))
  subst hrs
  obtain ⟨f, hlaunch, hmem, hkind, hfill, hfmarks, hlanes, hwaits, hbufs⟩ :=
    State.loadAs_plain _ (partyOf s.old) (s.exec h) (.ld d sz) (hcaches.clasps.trans hplain.1) (runsHere_of_plain hplain) hmarks
  refine ⟨_, f, (exec_ld h d a o sz s).trans (State.reach_made hal hok), hcaches.launches hlaunch,
    sameMemory_of_eq (hmem.trans hcaches.mem), hkind, hfill, hlanes, hwaits, hfmarks, ?_⟩
  rw [hbufs, hcaches.mem]

/-! ### ST [06 R114, R116, R117] -/

/-- Of a device without clasps only memory changes: it becomes `m`, and of the strands at most watches are told. -/
def Dev.stores (d e : Dev) (m : List Host.Cell) : Prop := e.mem = m ∧ e.clasps = [] ∧ d.strandsKept e

theorem Dev.trigger_clasps (d : Dev) (k n : Nat) : (d.trigger k n).clasps = d.clasps := by
  unfold Dev.trigger Dev.noteTail
  dsimp only
  split <;> split <;> rfl

theorem Dev.stores_writeFor {d : Dev} (hc : d.clasps = []) (party k : Nat) (bs : List Byte) :
    d.stores (d.writeFor party k bs) (Mem.write d.mem k bs) := by
  have hfree : d.bindsIn { key := k, len := bs.length } = false := by rw [Dev.bindsIn, hc]; rfl
  rw [Dev.writeFor, hfree]
  exact ⟨Dev.trigger_mem _ _ _, (Dev.trigger_clasps _ _ _).trans hc, .trans (.of_eq rfl rfl) (Dev.strandsKept_trigger _ _ _)⟩

theorem Dev.stores_put {d : Dev} (hc : d.clasps = []) (party : Nat) (owner : TxOwner) {k : Nat} (hpeer : peerOf k = none)
    (bs : List Byte) : d.stores (d.put party owner k bs) (Mem.write d.mem k bs) := by
  rw [Dev.put, hpeer]
  exact Dev.stores_writeFor hc party k bs

theorem Dev.stores_putRuns {rs : List Run} (hrs : runsHere rs) {d : Dev} (hc : d.clasps = []) (party : Nat) (owner : TxOwner)
    (bs : List Byte) : d.stores (d.putRuns party owner rs bs) (Mem.writeRuns d.mem rs bs) := by
  induction rs generalizing d bs with
  | nil => exact ⟨rfl, hc, .refl d⟩
  | cons r rs ih =>
    obtain ⟨hmem, hclasps, hkept⟩ := Dev.stores_put hc party owner (hrs r List.mem_cons_self) (bs.take r.len)
    obtain ⟨hmem', hclasps', hkept'⟩ := ih (fun x hx => hrs x (List.mem_cons_of_mem r hx)) hclasps (bs.drop r.len)
    exact ⟨hmem'.trans (by rw [hmem]; rfl), hclasps', hkept.trans hkept'⟩

theorem Dev.stores_writeRunsFor (rs : List Run) {d : Dev} (hc : d.clasps = []) (party : Nat) (bs : List Byte) :
    d.stores (d.writeRunsFor party rs bs) (Mem.writeRuns d.mem rs bs) := by
  induction rs generalizing d bs with
  | nil => exact ⟨rfl, hc, .refl d⟩
  | cons r rs ih =>
    obtain ⟨hmem, hclasps, hkept⟩ := Dev.stores_writeFor hc party r.key (bs.take r.len)
    obtain ⟨hmem', hclasps', hkept'⟩ := ih hclasps (bs.drop r.len)
    exact ⟨hmem'.trans (by rw [hmem]; rfl), hclasps', hkept.trans hkept'⟩

theorem peerParts_runsHere {rs : List Run} (h : runsHere rs) (bs : List Byte) : peerParts rs bs = [] := by
  induction rs generalizing bs with
  | nil => rfl
  | cons r rs ih =>
    rw [peerParts, h r List.mem_cons_self, ih fun x hx => h x (List.mem_cons_of_mem r hx)]
    rfl

/-- A lane's store writes its runs, whether or not SCP makes it one access. -/
theorem Dev.stores_putLane {rs : List Run} (hrs : runsHere rs) {d : Dev} (hc : d.clasps = []) (scp : Bool) (party : Nat) (owner : TxOwner)
    (bs : List Byte) : d.stores (d.putLane scp party owner rs bs) (Mem.writeRuns d.mem rs bs) := by
  rw [Dev.putLane]
  split
  · rw [Dev.putAtOnce, peerParts_runsHere hrs]
    exact Dev.stores_writeRunsFor rs hc party bs
  · exact Dev.stores_putRuns hrs hc party owner bs

/-- The lanes' stores, one after another. -/
theorem Dev.stores_lanes {α : Type} {runs : α → List Run} {bytes : α → List Byte} (scp : Bool) (party : α → Nat) (owner : α → TxOwner)
    {xs : List α} (hxs : ∀ x ∈ xs, runsHere (runs x)) {d : Dev} (hc : d.clasps = []) :
    d.stores (xs.foldl (fun d x => d.putLane scp (party x) (owner x) (runs x) (bytes x)) d)
      (xs.foldl (fun m x => Mem.writeRuns m (runs x) (bytes x)) d.mem) := by
  induction xs generalizing d with
  | nil => exact ⟨rfl, hc, .refl d⟩
  | cons x xs ih =>
    obtain ⟨hmem, hclasps, hkept⟩ := Dev.stores_putLane (hxs x List.mem_cons_self) hc scp (party x) (owner x) (bytes x)
    obtain ⟨hmem', hclasps', hkept'⟩ := ih (fun y hy => hxs y (List.mem_cons_of_mem x hy)) hclasps
    exact ⟨hmem'.trans (by rw [hmem]; rfl), hclasps', hkept.trans hkept'⟩

/-- A byte outside the runs that were written reads as before. -/
theorem Mem.get_writeRuns_other {rs : List Run} {k : Nat} (hk : ∀ r ∈ rs, ¬ (r.key ≤ k ∧ k < r.key + r.len)) {m : List Host.Cell}
    (hm : Mem.wf m = true) (bs : List Byte) : Mem.get (Mem.writeRuns m rs bs) k = Mem.get m k := by
  induction rs generalizing m bs with
  | nil => rfl
  | cons r rs ih =>
    have hlen : (bs.take r.len).length ≤ r.len := List.length_take_le _ _
    have hr := hk r List.mem_cons_self
    rw [Mem.writeRuns, ih (fun x hx => hk x (List.mem_cons_of_mem r hx)) (Mem.wf_write _ _ hm), Mem.get_write_other _ _ _ hm (by omega)]

/-- So of a byte outside the runs of every lane. -/
theorem Mem.get_foldl_writeRuns_other {α : Type} {runs : α → List Run} {bytes : α → List Byte} {xs : List α} {k : Nat}
    (hk : ∀ x ∈ xs, ∀ r ∈ runs x, ¬ (r.key ≤ k ∧ k < r.key + r.len)) {m : List Host.Cell} (hm : Mem.wf m = true) :
    Mem.get (xs.foldl (fun m x => Mem.writeRuns m (runs x) (bytes x)) m) k = Mem.get m k := by
  induction xs generalizing m with
  | nil => rfl
  | cons x xs ih =>
    rw [List.foldl_cons, ih (fun y hy => hk y (List.mem_cons_of_mem x hy)) (Mem.wf_writeRuns _ _ hm),
      Mem.get_writeRuns_other (hk x List.mem_cons_self) hm]

/-- A quad is its two pairs, the low one first [01 R9]. -/
theorem Lane.rquad_toNat (x : Lane) (r : GReg) : (x.rquad r).toNat = zQuad x r := by
  rw [Lane.rquad, BitVec.toNat_append, Nat.shiftLeft_eq, Nat.mul_comm, ← Nat.two_pow_add_eq_or_of_lt (x.rpair r).isLt, Nat.add_comm,
    ← zPair_eq, ← zPair_eq, zQuad]

/-- The bytes of a store are the low bytes of its registers [06 R114]. -/
theorem storeBytes_eq (x : Lane) (d : GReg) (n : Nat) : storeBytes x d n = lowBytes n (zQuad x d) := by
  rw [storeBytes, lowBytes_eq_toBytes, Lane.rquad_toNat]

/-- ST writes the lanes' bytes where they reach. -/
theorem st_stores {h : Hdr} {d a : GReg} {o : BitVec 5} {sz : AccSz} {s : State} {rs : List (LaneId × List Run)}
    (hr : reachable s h .write (szBytes sz) (fun l => s.eaN a o (szBytes sz) (s.src l)) (szBytes sz) = true)
    (hrs : reachedRuns s h .write (fun l => s.eaN a o (szBytes sz) (s.src l)) (szBytes sz) = rs) (hplain : plainMemory s (runKeys rs)) :
    ∃ (t : State) (e : Dev), exec (.st h d a o sz) s = .next t ∧ s.now.onlyCaches e ∧ e.stores t.now
      (rs.foldl (fun m x => Mem.writeRuns m x.2 (lowBytes (szBytes sz) (zQuad (s.src x.1) d))) s.now.mem) := by
  obtain ⟨hal, hok⟩ := reachable_iff.mp hr
  subst hrs
  have hhere := runsHere_of_plain hplain
  rw [reachedRuns] at hhere ⊢
  generalize hoks : oksOf (s.accessLanes (s.exec h) .write (fun l => s.eaN a o (szBytes sz) (s.src l)) (szBytes sz)) = oks at hhere ⊢
  have hcaches := State.onlyCaches_touchLanes hplain.2.2 oks
  refine ⟨_, (s.touchLanes oks).now, (exec_st h d a o sz s).trans ((State.reach_made hal hok).trans (by rw [hoks])), hcaches, ?_⟩
  have hstores := Dev.stores_lanes (runs := fun x => runsOf x.2) (bytes := fun x => storeBytes (s.src x.1) d (szBytes sz)) s.iss.scp.isSome
    (fun x => partyOf s.old x.1) (fun x => s.old.storeOwner s.frag.pc x.1 x.1.val 0) (xs := oks)
    (fun x hx => hhere _ (List.mem_map.mpr ⟨x, hx, rfl⟩)) (hcaches.clasps.trans hplain.1)
  rw [List.foldl_map, ← hcaches.mem]
  simp only [← storeBytes_eq]
  exact hstores

end Sys2Proof.Machine

namespace Sys2Proof.Proofs
open Sys2Proof.Machine

/-- Settles O18: the lanes' accesses disturb only the caches, and a read of plain memory sets out (`ld_setsOut`). -/
theorem loadSetsOut : Obligations.LoadSetsOut := by
  intro h d a o sz s ha hr hplain
  obtain ⟨t, f, hexec, hlaunch, hmem, hkind, hfill, hlanes, hwaits, hmarks, hbufs⟩ := ld_setsOut (d := d) ha hr rfl hplain
  refine ⟨t, f, hexec, hlaunch, hmem, hkind, hfill, hlanes, hwaits, fun l hl => ?_, fun l hl => ?_⟩
  · obtain ⟨rs, hrs⟩ := reachedRuns_of_runsIn hr hl
    exact ⟨rs, hrs, by rw [hbufs]; exact List.mem_map.mpr ⟨_, hrs, rfl⟩⟩
  · have hmark {i : Nat} (hi : i < szRegs sz) : Dest.g l (d.plus i) ∈ f.marks := hmarks ▸ mem_loadMarks hl hi
    refine ⟨GReg.plus_zero d ▸ hmark (szRegs_pos sz), ?_, ?_⟩
    · rintro (rfl | rfl)
      · exact hmark (by decide)
      · exact hmark (by decide)
    · rintro rfl
      exact ⟨hmark (by decide), hmark (by decide)⟩

/-- Settles O20: after the caches were disturbed, the lanes' stores change memory alone (`st_stores`); a byte outside their runs reads as
before (`Mem.get_foldl_writeRuns_other`). -/
theorem storeWritesItsBytes : Obligations.StoreWritesItsBytes := by
  intro h d a o sz s hwf hr hplain
  obtain ⟨t, e, hexec, hcaches, hmem, -, hkept⟩ := st_stores (d := d) hr rfl hplain
  refine ⟨t, hexec, hmem, fun k hk => ?_, hkept.1.k_eq.trans hcaches.k, hkept.1.flags_eq.trans hcaches.flags,
    hkept.1.flights_eq.trans hcaches.flights, fun l => ?_⟩
  · rw [hmem]
    exact Mem.get_foldl_writeRuns_other (runs := Prod.snd) hk hwf.1
  · obtain ⟨hg, hp, hm⟩ := hkept.1.files l
    obtain ⟨hg', hp', hm'⟩ := hcaches.files l
    exact ⟨hg.trans hg', hp.trans hp', hm.trans hm'⟩

end Sys2Proof.Proofs
end

section
/-! The CSR words: what a lane reads of a CSR, and what a write leaves in it [01 R12, R13; 06 R112, R113]. -/

namespace Sys2Proof.Machine
open Sys2Proof.Claims

/-! ### Reading a CSR -/

theorem State.csrCheck_allowed {s : State} {d : GReg} {c : Csr} {write : Bool} (k : Out) (h : csrAllowed s d c)
    (hw : write = true → c.writable = true) : s.csrCheck d c write k = k := by
  obtain ⟨heven, hsys⟩ := h
  have hform : ((write && !c.writable) || (c.wide && d.val % 2 != 0)) = false := by
    rw [Bool.or_eq_false_iff]
    constructor
    · cases write
      · rfl
      · simp [hw rfl]
    · cases hc : c.wide
      · rfl
      · simp [heven hc]
  rw [State.csrCheck, hform, if_neg Bool.false_ne_true]
  split
  · next hc => exact s.needSystem_system k (hsys hc)
  · rfl

theorem toNat_low64 (v : W32) : (low64 v).toNat = v.toNat := by
  rw [low64, BitVec.toNat_setWidth]
  omega

theorem Frag.toNat_status (f : Frag) :
    f.status.toNat = (if f.prv then 1 else 0) + (if f.pprv then 2 else 0) + (if f.nest then 4 else 0) := by
  rw [Frag.status, BitVec.toNat_ofNat]
  cases f.prv <;> cases f.pprv <;> cases f.nest <;> rfl

/-- A lane reads the value of the table. -/
theorem State.toNat_csr (s : State) (l : LaneId) (c : Csr) : (s.start.csr s.old s.frag l c).toNat = csrTable s l c := by
  cases c
  case tagrdy => exact apply_ite BitVec.toNat _ _ _
  case clock =>
    refine (apply_ite BitVec.toNat _ _ _).trans ?_
    rw [BitVec.toNat_ofNat, BitVec.toNat_ofNat]
    exact (apply_ite (· % 2 ^ 64) _ _ _).symm
  case laneid | coreid | quadid => exact (BitVec.toNat_ofNat _ _).trans (Nat.mod_eq_of_lt (by omega))
  case regionid => exact (BitVec.toNat_ofNat _ _).trans (Nat.mod_eq_of_lt (by omega))
  case blocksfree => exact BitVec.toNat_ofNat _ _
  case detmode | railsel => exact apply_ite BitVec.toNat _ _ _
  case status => exact (toNat_low64 _).trans (Frag.toNat_status _)
  case caratcap => exact (BitVec.toNat_setWidth _ _).trans (Nat.mod_eq_of_lt (by omega))
  case mcstat => exact (BitVec.toNat_ofNat _ _).trans (Nat.mod_eq_of_lt (by omega))
  case devid => rfl
  case trappc | trapinfo | ptbase | rcbbase | syspc | sysinfo | leasebase | hotbase => rfl
  case fpctl | fpstat | mxstat | traytimer | userscratch | strandid | taskidx | fragmask | batchn | traplanes | trapcause | syscause =>
    exact toNat_low64 _

/-- CSRR's result fills the pair of a 64-bit CSR, or the register. -/
theorem csrRead_holds : Sys2Proof.Claims.csrRead := by
  intro h d c s hok
  have hexec : exec (.csrr h d c) s = .next (if c.wide then s.writePair (s.exec h) d fun l => s.start.csr s.old s.frag l c
      else s.writeG (s.exec h) d fun l => lo32 (s.start.csr s.old s.frag l c)) := by
    change execCsrr h d c s = _
    exact State.csrCheck_allowed _ hok (fun hw => absurd hw Bool.false_ne_true)
  refine ⟨_, hexec, ?_⟩
  cases c.wide with
  | true =>
    refine ⟨fun l hl => ?_, s.onlyLanes_writeLanes _ _, sameMemory_of_eq (s.mem_writeLanes _ _), fun l => ⟨fun hl => ?_, fun hl => ?_⟩⟩
    · rw [if_pos rfl, if_pos rfl, State.writePair, State.lane_write_in _ _ _ _ hl, zPair_eq, Lane.rpair_wpair, s.toNat_csr]
    · rw [if_pos rfl, if_pos rfl, State.writePair, State.lane_write_in _ _ _ _ hl]
      exact Lane.onlyG_wpair _ _ _
    · rw [if_pos rfl, State.writePair, State.lane_write_out _ _ _ _ hl]
  | false =>
    simp only [Bool.false_eq_true, if_false]
    refine ⟨fun l hl => ?_, s.onlyLanes_writeLanes _ _, sameMemory_of_eq (s.mem_writeLanes _ _), fun l => ⟨fun hl => ?_, fun hl => ?_⟩⟩
    · rw [State.writeG, State.lane_write_in _ _ _ _ hl, Lane.rg_wg_same, ← s.toNat_csr]
      exact BitVec.extractLsb'_toNat ..
    · rw [State.writeG, State.lane_write_in _ _ _ _ hl]
      exact Lane.onlyG_wg _ _ _
    · rw [State.writeG, State.lane_write_out _ _ _ _ hl]

/-! ### The value that a write starts from -/

theorem State.toNat_csrOld (s : State) (l : LaneId) (c : Csr) : (s.csrOld l c).toNat = csrLive s l c := by
  rw [State.csrOld, csrLive]
  split
  · rfl
  · exact s.toNat_csr l c

theorem toNat_csrOperand (x : Lane) (d : GReg) (c : Csr) : (csrOperand x d c).toNat = csrOperandOf x d c := by
  rw [csrOperand, csrOperandOf]
  split
  · exact (zPair_eq x d).symm
  · exact toNat_low64 _

theorem toNat_and_not (o v : W64) : (o &&& ~~~v).toNat = o.toNat &&& (2 ^ 64 - 1 - v.toNat) := by
  rw [BitVec.toNat_and, BitVec.toNat_not]

/-- The three writes combine the old value and the operand as the rule says. -/
theorem exec_csrRule_value {i : Instr} {h : Hdr} {d : GReg} {c : Csr} {f : Nat → Nat → Nat} (hi : csrRule i = some (h, d, c, f))
    (s : State) : ∃ g : W64 → W64 → W64, exec i s = csrWrite h d c s g ∧ ∀ o v, (g o v).toNat = f o.toNat v.toNat := by
  unfold csrRule at hi
  split at hi
  case h_1 => cases hi; exact ⟨_, exec_csrw _ _ _ s, fun _ _ => rfl⟩
  case h_2 => cases hi; exact ⟨_, exec_csrs _ _ _ s, fun _ _ => BitVec.toNat_or _ _⟩
  case h_3 => cases hi; exact ⟨_, exec_csrc _ _ _ s, toNat_and_not⟩
  case h_4 => cases hi

/-! ### A CSR of a thread -/

/-- The CSR that a thread holds, as a number. -/
def Lane.ownCsr (x : Lane) : Csr → Nat
  | .fpctl => x.fpctl.toNat
  | .fpstat => x.fpstat.toNat
  | .mxstat => x.mxstat.toNat
  | .userscratch => x.userscratch.toNat
  | _ => 0

theorem ofThread_cases {c : Csr} (h : ofThread c = true) : c = .fpctl ∨ c = .fpstat ∨ c = .mxstat ∨ c = .userscratch := by
  simpa [ofThread, or_assoc] using h

theorem csrLive_ofThread {c : Csr} (h : ofThread c = true) (s : State) (l : LaneId) : csrLive s l c = (s.src l).ownCsr c := by
  rcases ofThread_cases h with rfl | rfl | rfl | rfl <;> rfl

theorem Lane.ownCsr_setCsr_same {c : Csr} (h : ofThread c = true) (s : State) (x : Lane) (l : LaneId) (v : W64) :
    (x.setCsr c (lo32 v) s.iss.fflags[l]).ownCsr c = csrKeeps s l c v.toNat := by
  have hlow : (lo32 v).toNat = v.toNat % 2 ^ 32 := BitVec.extractLsb'_toNat ..
  have hbits (k : Nat) (hk : k ≤ 32) : (lo32 v).toNat &&& (2 ^ k - 1) = v.toNat % 2 ^ k := by
    rw [Nat.and_two_pow_sub_one_eq_mod, hlow, Nat.mod_mod_of_dvd _ (Nat.pow_dvd_pow 2 hk)]
  rcases ofThread_cases h with rfl | rfl | rfl | rfl
  · exact (BitVec.toNat_and _ _).trans (hbits 6 (by omega))
  · exact (BitVec.toNat_or _ _).trans (congrArg (· ||| _) ((BitVec.toNat_and _ _).trans (hbits 5 (by omega))))
  · exact (BitVec.toNat_and _ _).trans (hbits 2 (by omega))
  · exact hlow

theorem Lane.ownCsr_setCsr_of_ne {c e : Csr} (h : e ≠ c) (x : Lane) (v fl : W32) : (x.setCsr c v fl).ownCsr e = x.ownCsr e := by
  cases c
  case fpctl => cases e with | fpctl => exact absurd rfl h | _ => rfl
  case fpstat => cases e with | fpstat => exact absurd rfl h | _ => rfl
  case mxstat => cases e with | mxstat => exact absurd rfl h | _ => rfl
  case userscratch => cases e with | userscratch => exact absurd rfl h | _ => rfl
  all_goals rfl

theorem Lane.setCsr_registers (x : Lane) (c : Csr) (v fl : W32) :
    (x.setCsr c v fl).g = x.g ∧ (x.setCsr c v fl).p = x.p ∧ (x.setCsr c v fl).m = x.m := by
  unfold Lane.setCsr
  split <;> exact ⟨rfl, rfl, rfl⟩

/-! ### The other CSRs: the parts of the device that hold them -/

/-- What the CSRs of a fragment are read from. -/
structure CsrParts where
  strand : Strand
  frag   : Frag
  core   : Core
  region : Region
  cycle  : Nat

/-- The parts of a device for its strand in focus and a slot. -/
def Dev.csrParts (d : Dev) (slot : Fin 4) : CsrParts where
  strand := d.focus
  frag   := (d.focus.frag slot).getD (Frag.start 0 0)
  core   := d.core d.focus.core
  region := d.regionOf d.focus
  cycle  := d.cycle

/-- A CSR as a write starts from it, read from the parts. -/
def CsrParts.live (p : CsrParts) (l : LaneId) : Csr → Nat
  | .fpctl => (p.strand.lane l).fpctl.toNat
  | .fpstat => (p.strand.lane l).fpstat.toNat
  | .mxstat => (p.strand.lane l).mxstat.toNat
  | .tagrdy => p.strand.tagrdy.toNat
  | .traytimer => p.strand.traytimer.toNat
  | .userscratch => (p.strand.lane l).userscratch.toNat
  | .laneid => l.val
  | .strandid => p.strand.strandid.toNat
  | .taskidx => p.strand.taskidx.toNat
  | .regionid => p.strand.region / 256 % 2 ^ 32
  | .coreid => p.strand.core.val
  | .quadid => p.strand.quad.val
  | .fragmask => p.frag.mask.toNat
  | .clock => (if p.strand.det then p.strand.groups else p.cycle) % 2 ^ 64
  | .devid => Config.devid.toNat
  | .batchn => p.strand.batchn.toNat
  | .blocksfree => (p.core.quads[p.strand.quad]).free % 2 ^ 64
  | .traplanes => p.frag.traplanes.toNat
  | .trapcause => p.frag.trapcause.toNat
  | .trappc => p.frag.trappc.toNat
  | .trapinfo => p.frag.trapinfo.toNat
  | .detmode => if p.strand.det then 1 else 0
  | .status => (if p.frag.prv then 1 else 0) + (if p.frag.pprv then 2 else 0) + (if p.frag.nest then 4 else 0)
  | .ptbase => p.region.ptbase.toNat
  | .rcbbase => p.strand.rcbbase.toNat
  | .syscause => p.frag.syscause.toNat
  | .syspc => p.frag.syspc.toNat
  | .sysinfo => p.frag.sysinfo.toNat
  | .railsel => if p.core.railsel then 1 else 0
  | .caratcap => p.core.caratcap.toNat
  | .leasebase => p.strand.leasebase.toNat
  | .hotbase => p.region.hotbase.toNat
  | .mcstat => p.core.mchk.toNat * 2 ^ 16 + p.core.rerun.toNat

/-- The parts with the fragment changed, and with it its slot of the strand. -/
def CsrParts.onFrag (p : CsrParts) (slot : Fin 4) (g : Frag → Frag) : CsrParts :=
  { p with strand := p.strand.onFrag slot g, frag := g p.frag }

/-- The parts after a write of a CSR that no thread holds. -/
def CsrParts.set (p : CsrParts) (slot : Fin 4) (c : Csr) (v : W64) : CsrParts :=
  match c with
  | .tagrdy => { p with strand := p.strand.setTagrdy v }
  | .traytimer => { p with strand := { p.strand with traytimer := lo32 v } }
  | .status => p.onFrag slot fun f => { f with pprv := v.getLsbD 1 }
  | .ptbase => { p with region := { p.region with ptbase := v } }
  | .rcbbase => { p with strand := { p.strand with rcbbase := v } }
  | .syscause => p.onFrag slot fun f => { f with syscause := lo32 v }
  | .syspc => p.onFrag slot fun f => { f with syspc := v }
  | .sysinfo => p.onFrag slot fun f => { f with sysinfo := v }
  | .railsel => { p with core := p.core.setRail (v.getLsbD 0) }
  | .caratcap => { p with core := { p.core with caratcap := v.truncate 24 } }
  | .leasebase => { p with strand := { p.strand with leasebase := v } }
  | .hotbase => { p with region := { p.region with hotbase := v } }
  | .mcstat => { p with core := { p.core with mchk := v.extractLsb' 16 16, rerun := v.extractLsb' 0 16 } }
  | _ => p

theorem csrLive_nextGroup (s : State) (l : LaneId) (c : Csr) : csrLive (nextGroup s) l c = (s.now.csrParts s.iss.slot).live l c := by
  cases c <;> rfl

/-- A CSR that no thread holds is not read from the lanes. -/
theorem CsrParts.live_lanes {c : Csr} (h : ofThread c = false) (p : CsrParts) (lanes : Vector Lane 32) (l : LaneId) :
    { p with strand := { p.strand with lanes := lanes } : CsrParts }.live l c = p.live l c := by
  cases c
  case fpctl | fpstat | mxstat | userscratch => cases h
  all_goals rfl

theorem csrLive_writeLanes {c : Csr} (h : ofThread c = false) (s : State) (m : W32) (f : LaneId → Lane → Lane) (l : LaneId) :
    csrLive (nextGroup (s.writeLanes m f)) l c = csrLive (nextGroup s) l c := by
  have hlanes := s.onlyLanes_writeLanes m f
  unfold onlyLanes at hlanes
  generalize (s.writeLanes m f).now.focus.lanes = lanes at hlanes
  rw [csrLive_nextGroup, csrLive_nextGroup, hlanes]
  exact CsrParts.live_lanes h (s.now.csrParts s.iss.slot) lanes l

/-- A write changes no other CSR. -/
theorem CsrParts.live_set_of_ne {c e : Csr} (h : e ≠ c) (p : CsrParts) (slot : Fin 4) (v : W64) (l : LaneId) :
    (p.set slot c v).live l e = p.live l e := by
  cases c
  case tagrdy => cases e with | tagrdy => exact absurd rfl h | _ => rfl
  case traytimer => cases e with | traytimer => exact absurd rfl h | _ => rfl
  case status => cases e with | status => exact absurd rfl h | _ => rfl
  case ptbase => cases e with | ptbase => exact absurd rfl h | _ => rfl
  case rcbbase => cases e with | rcbbase => exact absurd rfl h | _ => rfl
  case syscause => cases e with | syscause => exact absurd rfl h | _ => rfl
  case syspc => cases e with | syspc => exact absurd rfl h | _ => rfl
  case sysinfo => cases e with | sysinfo => exact absurd rfl h | _ => rfl
  case railsel => cases e with | railsel => exact absurd rfl h | _ => rfl
  case caratcap => cases e with | caratcap => exact absurd rfl h | _ => rfl
  case leasebase => cases e with | leasebase => exact absurd rfl h | _ => rfl
  case hotbase => cases e with | hotbase => exact absurd rfl h | _ => rfl
  case mcstat => cases e with | mcstat => exact absurd rfl h | _ => rfl
  all_goals rfl

/-- The status that a write leaves: PPRV from the value, the other bits as they were [01 R13]. -/
theorem status_bits (prv pprv nest : Bool) (v : W64) :
    (if prv then 1 else 0) + (if v.getLsbD 1 then 2 else 0) + (if nest then 4 else 0) =
      ((if prv then 1 else 0) + (if pprv then 2 else 0) + (if nest then 4 else 0) &&& 5) ||| (v.toNat &&& 2) := by
  have hv : v.toNat &&& 2 = if v.getLsbD 1 then 2 else 0 := by
    rw [BitVec.getLsbD, show (2 : Nat) = 2 ^ 1 from rfl, Nat.and_two_pow]
    cases v.toNat.testBit 1 <;> rfl
  rw [hv]
  cases prv <;> cases pprv <;> cases nest <;> cases v.getLsbD 1 <;> rfl

theorem toNat_mcstat (v : W64) : (v.extractLsb' 16 16).toNat * 2 ^ 16 + (v.extractLsb' 0 16).toNat = v.toNat % 2 ^ 32 := by
  rw [BitVec.extractLsb'_toNat, BitVec.extractLsb'_toNat, Nat.shiftRight_eq_div_pow, Nat.shiftRight_eq_div_pow]
  omega

theorem toNat_railsel (v : W64) : (if v.getLsbD 0 then 1 else 0) = v.toNat % 2 := by
  rw [BitVec.getLsbD, Nat.testBit_zero]
  obtain h | h := Nat.mod_two_eq_zero_or_one v.toNat <;> rw [h] <;> rfl

theorem toNat_setTagrdy (st : Strand) (v : W64) : (st.setTagrdy v).tagrdy.toNat =
    (st.tagrdy.toNat &&& st.tagout.toNat) ||| (v.toNat % 2 ^ 64 &&& (2 ^ 64 - 1 - st.tagout.toNat)) := by
  rw [Nat.mod_eq_of_lt v.isLt]
  exact (BitVec.toNat_or _ _).trans (congrArg₂ (· ||| ·) (BitVec.toNat_and _ _) (toNat_and_not _ _))

/-- A write leaves the bits of the value that the field map lets it write. -/
theorem CsrParts.live_set_same {c : Csr} (hw : c.writable = true) (ht : ofThread c = false) (s : State) (v : W64) (l : LaneId) :
    ((s.now.csrParts s.iss.slot).set s.iss.slot c v).live l c = csrKeeps s l c v.toNat := by
  have hlow : (lo32 v).toNat = v.toNat % 2 ^ 32 := BitVec.extractLsb'_toNat ..
  have hfull : v.toNat = v.toNat % 2 ^ 64 := (Nat.mod_eq_of_lt v.isLt).symm
  cases c
  case fpctl | fpstat | mxstat | userscratch => cases ht
  case tagrdy => exact toNat_setTagrdy s.now.focus v
  case status => exact status_bits _ _ _ v
  case railsel => exact toNat_railsel v
  case caratcap => exact BitVec.toNat_setWidth _ _
  case mcstat => exact toNat_mcstat v
  case traytimer | syscause => exact hlow
  case ptbase | rcbbase | syspc | sysinfo | leasebase | hotbase => exact hfull
  all_goals cases hw

/-! ### The write of such a CSR -/

section
variable (d : Dev) (slot : Fin 4)

theorem Dev.csrParts_onFrag (g : Frag → Frag) (h : (d.focus.frag slot).isSome = true) :
    (d.onFocus fun st => st.onFrag slot g).csrParts slot = (d.csrParts slot).onFrag slot g := by
  obtain ⟨f, hf⟩ := Option.isSome_iff_exists.mp h
  have hnew : ((d.focus.onFrag slot g).frag slot).getD (Frag.start 0 0) = g ((d.focus.frag slot).getD (Frag.start 0 0)) := by
    rw [Strand.frag_onFrag, if_pos rfl, hf]
    rfl
  simp only [Dev.csrParts, CsrParts.onFrag, Dev.onFocus_focus, hnew]
  rfl

theorem Dev.csrParts_onCore (g : Core → Core) :
    (d.onCore d.focus.core g).csrParts slot = { d.csrParts slot with core := g (d.csrParts slot).core } := by
  have hnew : (d.onCore d.focus.core g).core d.focus.core = g (d.core d.focus.core) := by rw [Dev.core_onCore, if_pos rfl]
  simp only [Dev.csrParts, Dev.onCore_focus, hnew]
  rfl

theorem Dev.csrParts_onRegion {g : Region → Region} (hid : ∀ r, (g r).id = r.id) (h : (d.region? d.focus.region).isSome = true) :
    (d.onRegion d.focus.region g).csrParts slot = { d.csrParts slot with region := g (d.csrParts slot).region } := by
  obtain ⟨r, hr⟩ := Option.isSome_iff_exists.mp h
  have hrid : (r.id == d.focus.region) = true := List.find?_some (p := fun x : Region => x.id == d.focus.region) hr
  have hnew : (d.onRegion d.focus.region g).regionOf d.focus = g (d.regionOf d.focus) := by
    rw [Dev.regionOf, Dev.regionOf, Dev.region?_onRegion _ _ hid, hr]
    simp only [Option.map_some, hrid, if_true, Option.getD_some]
  simp only [Dev.csrParts, Dev.onRegion_focus, hnew]
  rfl

/-- A write of a CSR changes its part as `CsrParts.set` says. -/
theorem Dev.csrParts_setCsr (c : Csr) (v : W64) (hf : (d.focus.frag slot).isSome = true) (hr : (d.region? d.focus.region).isSome = true) :
    (d.setCsr slot c v).csrParts slot = (d.csrParts slot).set slot c v := by
  cases c
  case status | syscause | syspc | sysinfo => exact d.csrParts_onFrag slot _ hf
  case railsel | caratcap | mcstat => exact d.csrParts_onCore slot _
  case ptbase | hotbase => exact d.csrParts_onRegion slot (fun _ => rfl) hr
  all_goals rfl

/-- A write of a CSR leaves the registers, the flags and memory as they were. -/
theorem Dev.setCsr_registers (c : Csr) (v : W64) : (d.setCsr slot c v).mem = d.mem ∧ (d.setCsr slot c v).focus.k = d.focus.k ∧
    (d.setCsr slot c v).focus.flags = d.focus.flags ∧ (d.setCsr slot c v).focus.lanes = d.focus.lanes := by
  cases c <;> exact ⟨rfl, rfl, rfl, rfl⟩

end

/-! ### The lowest executing lane -/

theorem sorted_lanesOf (m : W32) : (lanesOf m).Pairwise (· < ·) :=
  (List.pairwise_lt_finRange 32).filter _

theorem lowLane_le {m : W32} {k : LaneId} (hk : hasLane m k = true) : lowLane m ≤ k := by
  have hmem := mem_lanesOf.mpr hk
  have hsorted := sorted_lanesOf m
  rw [lowLane]
  cases hl : lanesOf m with
  | nil => rw [hl] at hmem; cases hmem
  | cons x xs =>
    rw [hl] at hmem hsorted
    rcases List.mem_cons.mp hmem with rfl | hin
    · exact le_refl _
    · exact le_of_lt (List.rel_of_pairwise_cons hsorted hin)

/-! ### The two kinds of write -/

section
variable {s : State} {h : Hdr} {d : GReg} {c : Csr} {g : W64 → W64 → W64}

/-- The value that a lane's write starts with. -/
def State.csrValue (s : State) (d : GReg) (c : Csr) (g : W64 → W64 → W64) (l : LaneId) : W64 :=
  g (s.csrOld l c) (csrOperand (s.old.lane l) d c)

theorem State.toNat_csrValue {f : Nat → Nat → Nat} (hg : ∀ o v, (g o v).toNat = f o.toNat v.toNat) (l : LaneId) :
    (s.csrValue d c g l).toNat = f (csrLive s l c) (csrOperandOf (s.src l) d c) := by
  rw [State.csrValue, hg, s.toNat_csrOld, toNat_csrOperand]
  rfl

theorem csrWrite_ofThread (hok : csrAllowed s d c) (hw : c.writable = true) (ht : ofThread c = true) :
    csrWrite h d c s g = .next (s.writeLanes (s.exec h) fun l x => x.setCsr c (lo32 (s.csrValue d c g l)) s.iss.fflags[l]) := by
  rw [csrWrite, State.csrCheck_allowed _ hok fun _ => hw, ht]
  rfl

theorem csrWrite_once (hok : csrAllowed s d c) (hw : c.writable = true) (ht : ofThread c = false) (ha : s.acts h = true) :
    csrWrite h d c s g = .next (s.onDev fun x => x.setCsr s.iss.slot c (s.csrValue d c g (s.low h))) := by
  rw [csrWrite, State.csrCheck_allowed _ hok fun _ => hw, ht, ha]
  rfl

end

/-- The three writes leave what the field map lets them write, in each lane or once from the lowest. -/
theorem csrWrite_holds : Sys2Proof.Claims.csrWrite := by
  intro i s h d c f hi hok hw hfrag hreg ha
  obtain ⟨g, hexec, hg⟩ := exec_csrRule_value hi s
  cases ht : ofThread c with
  | true =>
    refine ⟨_, hexec.trans (csrWrite_ofThread hok hw ht), ⟨sameMemory_of_eq (s.mem_writeLanes _ _),
      by rw [s.onlyLanes_writeLanes], by rw [s.onlyLanes_writeLanes], fun l => ?_⟩,
      fun l e he => ?_, fun _ l => ⟨fun hl => ?_, fun hl => ?_⟩, fun hf => (nomatch hf)⟩
    · rw [State.lane_writeLanes]
      split
      · exact Lane.setCsr_registers ..
      · exact ⟨rfl, rfl, rfl⟩
    · cases hte : ofThread e with
      | false => exact csrLive_writeLanes hte ..
      | true =>
        rw [csrLive_ofThread hte, csrLive_ofThread hte]
        change ((s.writeLanes _ _).lane l).ownCsr e = (s.lane l).ownCsr e
        rw [State.lane_writeLanes]
        split
        · exact Lane.ownCsr_setCsr_of_ne he ..
        · rfl
    · rw [csrLive_ofThread ht]
      change ((s.writeLanes _ _).lane l).ownCsr c = _
      rw [State.lane_write_in _ _ _ _ hl, Lane.ownCsr_setCsr_same ht, State.toNat_csrValue hg]
    · rw [csrLive_ofThread ht, csrLive_ofThread ht]
      change ((s.writeLanes _ _).lane l).ownCsr c = (s.lane l).ownCsr c
      rw [State.lane_write_out _ _ _ _ hl]
  | false =>
    obtain ⟨hmem, hk, hflags, hlanes⟩ := s.now.setCsr_registers s.iss.slot c (s.csrValue d c g (s.low h))
    have hparts := s.now.csrParts_setCsr s.iss.slot c (s.csrValue d c g (s.low h)) hfrag hreg
    refine ⟨_, hexec.trans (csrWrite_once hok hw ht ha), ⟨sameMemory_of_eq hmem, hk, hflags, fun l => ?_⟩,
      fun l e he => ?_, fun hf => (nomatch hf), fun _ => ⟨s.low h, State.runsIn_low ha, fun k hk => lowLane_le hk, fun l => ?_⟩⟩
    · rw [show (s.onDev fun x => x.setCsr s.iss.slot c (s.csrValue d c g (s.low h))).lane l = s.lane l from congrArg (·[l]) hlanes]
      exact ⟨rfl, rfl, rfl⟩
    · rw [csrLive_nextGroup, csrLive_nextGroup]
      exact (congrArg (CsrParts.live · l e) hparts).trans (CsrParts.live_set_of_ne he ..)
    · rw [csrLive_nextGroup, ← State.toNat_csrValue hg, ← CsrParts.live_set_same hw ht]
      exact congrArg (CsrParts.live · l c) hparts

end Sys2Proof.Machine

namespace Sys2Proof.Proofs
open Sys2Proof.Machine

/-- Settles O14: a lane reads the table's value (`State.toNat_csr`); a write changes one of the parts that hold the CSRs
(`CsrParts.set`), in the bits of the field map. -/
theorem csrWords : Obligations.CsrWords := ⟨csrRead_holds, csrWrite_holds⟩

end Sys2Proof.Proofs
end

section
/-! The words that move whole fragments: EXIT, JOIN, YIELD, TRET and the trap words [06 R95, R103-R107; 09 R170-R174]. -/

namespace Sys2Proof.Machine
open Sys2Proof.Claims

/-! ### The words -/

theorem control_cases (h : Hdr) (s : State) (x : Xfer) :
    (s.acts h = true → control h s x = .next (withXfer s x)) ∧ (s.acts h = false → control h s x = .next s) := by
  constructor <;> intro ha <;> rw [control, ha] <;> rfl

/-- EXIT, JOIN and YIELD set their transfer when they act. -/
theorem wholeFragmentTransfers_holds : Sys2Proof.Claims.wholeFragmentTransfers := by
  intro i s h x hi
  unfold plainTransfer at hi
  split at hi
  case h_1 => cases hi; exact control_cases _ s _
  case h_2 => cases hi; exact control_cases _ s _
  case h_3 => cases hi; exact control_cases _ s _
  case h_4 => cases hi

/-- The fault of a TRET: outside a user handler, in one that a system handler has interrupted, or to an unaligned resume point. -/
def State.tretFault (s : State) : Option Trap :=
  match s.frag.handler with
  | none => some (wordFault s 0x01)
  | some r => if s.frag.sysrec.isSome then some (wordFault s 0x01) else if r.pc.toNat % 12 ≠ 0 then some (Trap.user 0x05 0 r.pc) else none

theorem exec_tret {h : Hdr} {s : State} (ha : s.acts h = true) : exec (.tret h) s = orTrap s.tretFault s (s.setXfer .tret) := by
  refine (if_pos ha).trans ?_
  unfold State.tretFault
  cases s.frag.handler <;> rfl

/-- TRET returns from a user handler and is illegal outside one. -/
theorem handlerReturn_holds : Sys2Proof.Claims.handlerReturn := by
  refine fun h s => ⟨fun ha => ?_, fun r ha hr hsys hpc => ?_, fun ha hr => ?_⟩
  · change execTret h s = _
    rw [execTret, ha]
    rfl
  · have hok : s.tretFault = none := by
      simp only [State.tretFault, hr, hsys, Option.isSome_none, Bool.false_eq_true, if_false, hpc, ne_eq, not_true_eq_false]
    rw [exec_tret ha, hok]
    rfl
  · have hbad : s.tretFault = some (wordFault s 0x01) := by simp only [State.tretFault, hr]
    rw [exec_tret ha, hbad, orTrap_some]

theorem trapWord_acts {h : Hdr} {s : State} (cause : Nat) (code : BitVec 16) (ha : s.acts h = true) :
    ∃ t, trapWord h s cause code = .next (s.trap t) ∧ t.code = cause ∧ t.lanes = s.exec h ∧ t.info.toNat = code.toNat ∧ t.next = true :=
  ⟨_, if_pos ha, rfl, rfl, (BitVec.toNat_setWidth _ _).trans (Nat.mod_eq_of_lt (by omega)), rfl⟩

/-- TRAP and BKPT raise their fault with their code and go on at the next packet. -/
theorem trapWords_holds : Sys2Proof.Claims.trapWords := by
  refine fun h code s => ⟨fun ha => ⟨trapWord_acts 0x0B code ha, trapWord_acts 0x0C code ha⟩, fun ha => ⟨?_, ?_⟩⟩
  · exact if_neg (by rw [ha]; exact Bool.false_ne_true)
  · exact if_neg (by rw [ha]; exact Bool.false_ne_true)

/-! ### Lanes leave [06 R103] -/

/-- A lane that has left the strand. -/
def Lane.leave (x : Lane) : Lane :=
  { x with exited := true, m := Vector.replicate 16 none, stow := [], watch := none, monDrop := false, held := [] }

theorem Strand.lanes_exitLanes (st : Strand) (lanes : W32) :
    (st.exitLanes lanes).lanes = (st.onLanes lanes fun _ => Lane.leave).lanes := by
  simp only [Strand.exitLanes, Strand.mapFrags]
  rfl

theorem Strand.lane_exitLanes (st : Strand) (lanes : W32) (l : LaneId) :
    (st.exitLanes lanes).lane l = if hasLane lanes l then (st.lane l).leave else st.lane l := by
  rw [← st.lane_onLanes lanes fun _ => Lane.leave, Strand.lane, Strand.lane, st.lanes_exitLanes]

/-- The live lanes after an exit are those that stayed. -/
theorem Strand.liveLanes_exitLanes (st : Strand) (lanes : W32) : (st.exitLanes lanes).liveLanes = st.liveLanes &&& ~~~lanes := by
  refine mask_ext fun l => ?_
  have hl := st.lane_exitLanes lanes l
  simp only [Strand.lane] at hl
  have hnot : hasLane (st.liveLanes &&& ~~~lanes) l = (hasLane st.liveLanes l && !hasLane lanes l) := by
    simp [hasLane]
  rw [hnot]
  simp only [Strand.liveLanes, hasLane_maskOf, hl]
  cases hasLane lanes l <;> simp [Lane.leave]

/-- The lanes of an EXIT leave; the others stay as they are. -/
theorem exitingLanesLeave_holds : Sys2Proof.Claims.exitingLanesLeave := by
  refine fun st lanes => ⟨fun l hl => ?_, fun l hl => ?_, fun f hf x hx => ?_, st.liveLanes_exitLanes lanes⟩
  · rw [st.lane_exitLanes, if_pos hl]
    exact ⟨rfl, fun n => by simp only [Lane.leave, Lane.rm, Fin.getElem_fin, Vector.getElem_replicate], rfl⟩
  · rw [st.lane_exitLanes, hl]
    rfl
  · obtain ⟨g, -, rfl⟩ := List.mem_map.mp hf
    simpa using (List.mem_filter.mp hx).2

/-! ### Deferred entries and slots [09 R170] -/

theorem Strand.freeSlot_none {st : Strand} {i : Fin 4} (h : st.freeSlot = some i) : st.frag i = none := by
  have hnone := List.find?_some (p := fun i : Fin 4 => st.frags[i].isNone) h
  exact Option.isNone_iff_eq_none.mp hnone

theorem Strand.refill_nil {st : Strand} (h : st.deferred = []) : st.refill = st := by
  rw [Strand.refill, h, Strand.refillFrom, ← h]

/-- Deferred entries resume in free slots only. -/
theorem Strand.frag_refillFrom {i : Fin 4} {g : Frag} (es : List Deferred) {st : Strand} (h : st.frag i = some g) :
    (st.refillFrom es).frag i = some g := by
  induction es generalizing st with
  | nil => exact h
  | cons e es ih =>
    rw [Strand.refillFrom]
    split
    · exact h
    · next j hj =>
      have hne : j ≠ i := fun hji => by rw [← hji, Strand.freeSlot_none hj] at h; cases h
      exact ih (by rw [Strand.frag_setFrag, if_neg hne, h])

theorem Strand.frag_refill {i : Fin 4} {g : Frag} {st : Strand} (h : st.frag i = some g) : st.refill.frag i = some g :=
  Strand.frag_refillFrom _ h

/-! ### Join points [09 R171, R172] -/

/-- A fragment waits at its join point and holds every lane of a strand with no deferred entry. -/
def Strand.joinDone (st : Strand) (f : Frag) : Bool := f.joinWaits && f.mask == st.liveLanes && st.deferred.isEmpty

theorem Strand.frag_releaseJoins_of_done {st : Strand} {i : Fin 4} {f : Frag} (hf : st.frag i = some f) (hd : st.joinDone f = true) :
    st.releaseJoins.frag i = some f.joinGo := by
  have hany : (st.live.any fun x => st.joinDone x.2) = true := List.any_eq_true.mpr ⟨(i, f), Strand.mem_live.mpr hf, hd⟩
  have hmap : st.releaseJoins = st.mapFrags fun f => if st.joinDone f then f.joinGo else f := if_pos hany
  rw [hmap, Strand.frag_mapFrags, hf]
  exact congrArg some (if_pos hd)

/-- What a release leaves of a fragment: it waits as before or goes on. -/
theorem Strand.frag_releaseJoins (st : Strand) (i : Fin 4) :
    st.releaseJoins.frag i = st.frag i ∨ st.releaseJoins.frag i = (st.frag i).map Frag.joinGo := by
  unfold Strand.releaseJoins
  simp only
  split
  · rw [Strand.frag_mapFrags]
    cases st.frag i with
    | none => exact Or.inl rfl
    | some f =>
      simp only [Option.map_some]
      split
      · exact Or.inr rfl
      · exact Or.inl rfl
  · split
    · split
      · exact Or.inl rfl
      · rw [Strand.frag_onFrag]
        split
        · next h => exact Or.inr (by rw [h])
        · exact Or.inl rfl
    · exact Or.inl rfl

/-- A fragment that does not hold every lane waits while another fragment is at no join point. -/
theorem Strand.frag_releaseJoins_of_waits {st : Strand} {i k : Fin 4} {f z : Frag} (hf : st.frag i = some f) (hd : st.joinDone f = false)
    (hz : st.frag k = some z) (hw : z.joinWaits = false) : st.releaseJoins.frag i = some f := by
  have hall : (st.live.all fun x => x.2.joinWaits) = false := List.all_eq_false.mpr ⟨(k, z), Strand.mem_live.mpr hz, by simp [hw]⟩
  unfold Strand.releaseJoins
  simp only [hall, Bool.and_false, Bool.false_eq_true, if_false]
  split
  · rw [Strand.frag_mapFrags, hf]
    exact congrArg some (if_neg (Bool.eq_false_iff.mp hd))
  · exact hf

/-- No fragment of another slot waits at a packet. -/
def Strand.noneWaits (st : Strand) (slot : Fin 4) (pc : W64) : Prop :=
  ∀ i z, i ≠ slot → st.frag i = some z → ¬ (z.joinWaits = true ∧ z.pc = pc)

/-- The fragment of another slot that a JOIN finds waiting at its packet. -/
theorem Strand.findJoin_none {st : Strand} {slot : Fin 4} {pc : W64} (h : st.noneWaits slot pc) :
    (st.live.find? fun x => x.1 != slot && x.2.joinWaits && x.2.pc == pc) = none := by
  refine List.find?_eq_none.mpr fun x hx hp => ?_
  simp only [Bool.and_eq_true, bne_iff_ne, beq_iff_eq, and_assoc] at hp
  exact h x.1 x.2 hp.1 (Strand.mem_live.mp hx) hp.2

theorem Strand.findJoin_some {st : Strand} {slot j : Fin 4} {y : Frag} (hj : j ≠ slot) (hy : st.frag j = some y) (hw : y.joinWaits = true)
    (honly : ∀ i z, i ≠ slot → i ≠ j → st.frag i = some z → ¬ (z.joinWaits = true ∧ z.pc = y.pc)) :
    (st.live.find? fun x => x.1 != slot && x.2.joinWaits && x.2.pc == y.pc) = some (j, y) := by
  cases hfind : st.live.find? fun x => x.1 != slot && x.2.joinWaits && x.2.pc == y.pc with
  | none =>
    have := List.find?_eq_none.mp hfind (j, y) (Strand.mem_live.mpr hy)
    simp [hj, hw] at this
  | some x =>
    have hp := List.find?_some hfind
    have hx := Strand.mem_live.mp (List.mem_of_find?_eq_some hfind)
    simp only [Bool.and_eq_true, bne_iff_ne, beq_iff_eq, and_assoc] at hp
    have hxj : x.1 = j := Decidable.byContradiction fun hne => honly x.1 x.2 hp.1 hne hx hp.2
    rw [hxj, hy, Option.some.injEq] at hx
    rw [← hxj, hx]

theorem Strand.join_waits {st : Strand} {slot : Fin 4} {f : Frag} (now : Nat) (h : st.noneWaits slot f.pc) :
    st.join slot f now = (st.onFrag slot fun f => { f with st := .parked .join now }).releaseJoins := by
  rw [Strand.join, Strand.findJoin_none h]

/-- A fragment outside a handler goes over to the one that waits at its packet. -/
theorem Strand.join_merges {st : Strand} {slot j : Fin 4} {f y : Frag} (now : Nat) (hd : st.deferred = []) (hj : j ≠ slot)
    (hy : st.frag j = some y) (hw : y.joinWaits = true) (hpc : y.pc = f.pc) (hh : f.handler = none) (hs : f.sysrec = none)
    (honly : ∀ i z, i ≠ slot → i ≠ j → st.frag i = some z → ¬ (z.joinWaits = true ∧ z.pc = f.pc)) :
    st.join slot f now = ((st.setFrag slot none).onFrag j fun y => y.takeIn f.mask none).releaseJoins := by
  rw [← hpc] at honly
  rw [Strand.join, ← hpc, Strand.findJoin_some hj hy hw honly, Frag.heldBySystem, hh, hs]
  exact congrArg Strand.releaseJoins (Strand.refill_nil hd)

/-- JOIN's lanes merge with a fragment that waits at the packet, or wait there, or go on when they are all of the strand's. -/
theorem joinMergesOrWaits_holds : Sys2Proof.Claims.joinMergesOrWaits := by
  refine fun st slot f now hf hd => ⟨fun j y hj hy hw hpc hh hs honly => ?_,
    fun hnone => ⟨fun hm ⟨k, z, hk, hz, hzw⟩ => ?_, fun hm => ?_⟩⟩
  · rw [Strand.join_merges now hd hj hy hw hpc hh hs honly]
    generalize hu : (st.setFrag slot none).onFrag j (fun y => y.takeIn f.mask none) = u
    have hslot : u.frag slot = none := by rw [← hu, Strand.frag_onFrag, if_neg hj, Strand.frag_setFrag, if_pos rfl]
    have hfrag : u.frag j = some (y.takeIn f.mask none) := by
      rw [← hu, Strand.frag_onFrag, if_pos rfl, Strand.frag_setFrag, if_neg hj.symm, hy]
      rfl
    have hgone : u.releaseJoins.frag slot = none := by
      have h := u.frag_releaseJoins slot
      rwa [hslot, Option.map_none, or_self] at h
    refine ⟨hgone, ?_⟩
    by_cases hall : y.mask ||| f.mask = st.liveLanes
    · have hdone : u.joinDone (y.takeIn f.mask none) = true := by
        rw [← hu]
        exact Bool.and_eq_true_iff.mpr ⟨Bool.and_eq_true_iff.mpr ⟨hw, beq_iff_eq.mpr hall⟩, List.isEmpty_iff.mpr hd⟩
      refine ⟨_, Strand.frag_releaseJoins_of_done hfrag hdone, rfl, fun _ => ⟨rfl, ?_, rfl⟩⟩
      rw [← hpc]
      rfl
    · rcases u.frag_releaseJoins j with h | h <;> rw [h, hfrag]
      · exact ⟨_, rfl, rfl, fun hg => absurd hg hall⟩
      · exact ⟨_, rfl, rfl, fun hg => absurd hg hall⟩
  · rw [Strand.join_waits now hnone]
    refine Strand.frag_releaseJoins_of_waits (k := k) (z := z) ?_ ?_ ?_ hzw
    · rw [Strand.frag_onFrag, if_pos rfl, hf]
      rfl
    · exact Bool.and_eq_false_imp.mpr fun h => absurd (beq_iff_eq.mp (Bool.and_eq_true_iff.mp h).2) hm
    · rw [Strand.frag_onFrag, if_neg hk.symm, hz]
  · rw [Strand.join_waits now hnone]
    refine (Strand.frag_releaseJoins_of_done (f := { f with st := .parked .join now }) ?_ ?_).trans rfl
    · rw [Strand.frag_onFrag, if_pos rfl, hf]
      rfl
    · exact Bool.and_eq_true_iff.mpr ⟨beq_iff_eq.mpr hm, List.isEmpty_iff.mpr hd⟩

/-! ### YIELD [06 R105, 09 R177, R178] -/

/-- YIELD's fragment goes on at the next packet as the youngest and skips a cycle. -/
theorem yieldMakesYoungest_holds : Sys2Proof.Claims.yieldMakesYoungest := by
  refine ⟨fun d slot f hf ha => ?_, fun d st f ws hskip hne => ?_, fun d a b hya hyb ha hb hprio => ?_⟩
  · have htr : d.transfer slot .yield = d.onFocus fun st => st.onFrag slot fun f =>
        { f with pc := f.pc + 12, pos := 0, yield := true, skip := d.cycle + 1 } := by
      rw [Dev.transfer, hf]
      simp only [ha, Option.isSome_none, Bool.false_eq_true, if_false]
    rw [htr]
    refine ⟨?_, fun i hi => ?_, rfl, rfl⟩
    · rw [Dev.onFocus_focus, Strand.frag_onFrag, if_pos rfl, hf]
      rfl
    · rw [Dev.onFocus_focus, Strand.frag_onFrag, if_neg hi.symm]
  · have hs : (f.skip == 0 || f.skip != d.cycle) = false := by
      rw [Bool.or_eq_false_iff, beq_eq_false_iff_ne, bne_eq_false_iff_eq]
      exact ⟨hne, hskip⟩
    simp only [Dev.ready, hs, Bool.and_false, Bool.false_and]
  · have hna : ¬ 64 ≤ a.frag.passed := Nat.not_le.mpr ha
    have hnb : ¬ 64 ≤ b.frag.passed := Nat.not_le.mpr hb
    constructor <;> simp [Dev.before, hna, hnb, hprio, hya, hyb]

/-! ### TRET [06 R107, 09 R174] -/

/-- The record of an entry with lanes that have acted on TRET. -/
def HandlerRec.noted (h : HandlerRec) (lanes : W32) : HandlerRec := { h with acted := h.acted ||| lanes }

/-- The strand where a fragment's lanes are noted and it waits for the rest of its entry. -/
def Strand.tretNoted (st : Strand) (slot : Fin 4) (h : HandlerRec) (lanes : W32) (now : Nat) : Strand :=
  (st.noteTret h.entry lanes).onFrag slot fun f => { f with st := .parked .tretRest now }

theorem Strand.tret_eq {st : Strand} {slot : Fin 4} {f : Frag} {h : HandlerRec} (now : Nat) (hf : st.frag slot = some f)
    (hh : f.handler = some h) : st.tret slot now = (st.tretNoted slot h f.mask now).tryResume h.entry := by
  rw [Strand.tret, hf]
  simp only [hh]
  rfl

/-- The fragment as it waits for the rest of its entry. -/
def Frag.tretWaits (f : Frag) (h : HandlerRec) (now : Nat) : Frag :=
  { f with st := .parked .tretRest now, handler := some (h.noted f.mask) }

theorem Strand.frag_tretNoted {st : Strand} {slot : Fin 4} {f : Frag} {h : HandlerRec} (now : Nat) (hf : st.frag slot = some f)
    (hh : f.handler = some h) : (st.tretNoted slot h f.mask now).frag slot = some (f.tretWaits h now) := by
  rw [Strand.tretNoted, Strand.frag_onFrag, if_pos rfl]
  change (((st.mapFrags _).frag slot).map _) = _
  rw [Strand.frag_mapFrags, hf]
  simp only [Option.map_some, hh, if_true]
  rfl

/-- The lanes of a strand whose fragments are of no other slot of an entry: the entry is that one fragment. -/
theorem Strand.ofEntry_tretNoted {st : Strand} {slot : Fin 4} {f : Frag} {h : HandlerRec} (now : Nat) (hf : st.frag slot = some f)
    (hh : f.handler = some h) (honly : ∀ i z r, i ≠ slot → st.frag i = some z → z.handler = some r → r.entry ≠ h.entry) :
    ∃ xs, (st.tretNoted slot h f.mask now).ofEntry h.entry = (slot, f.tretWaits h now) :: xs := by
  have hslot := Strand.frag_tretNoted now hf hh
  have hmem : (slot, f.tretWaits h now) ∈ (st.tretNoted slot h f.mask now).ofEntry h.entry :=
    List.mem_filter.mpr ⟨Strand.mem_live.mpr hslot, beq_self_eq_true _⟩
  have hall : ∀ x ∈ (st.tretNoted slot h f.mask now).ofEntry h.entry, x = (slot, f.tretWaits h now) := by
    intro x hx
    obtain ⟨hlive, hentry⟩ := List.mem_filter.mp hx
    have hfrag := Strand.mem_live.mp hlive
    by_cases hi : x.1 = slot
    · rw [hi, hslot, Option.some.injEq] at hfrag
      rw [← hi, hfrag]
    · rw [Strand.tretNoted, Strand.frag_onFrag, if_neg (Ne.symm hi)] at hfrag
      change ((st.mapFrags _).frag x.1) = _ at hfrag
      rw [Strand.frag_mapFrags, Option.map_eq_some_iff] at hfrag
      obtain ⟨z, hz, hzx⟩ := hfrag
      rw [← hzx] at hentry
      cases hr : z.handler with
      | none => simp [hr] at hentry
      | some r =>
        have hne := honly x.1 z r hi hz hr
        simp [hr, hne] at hentry
  cases hl : (st.tretNoted slot h f.mask now).ofEntry h.entry with
  | nil => rw [hl] at hmem; cases hmem
  | cons x xs => exact ⟨xs, by rw [hall x (by rw [hl]; exact List.mem_cons_self)]⟩

/-- The device resumes the lanes of an entry in its slot, at the resume point, at user level. -/
theorem Strand.frag_resumeAt (st : Strand) (slot : Fin 4) (f : Frag) (h : HandlerRec) (hm : (h.full &&& st.liveLanes) ≠ 0) :
    (st.resumeAt slot f h).frag slot = some { f with
      mask := h.full &&& st.liveLanes, pc := h.pc, pos := h.pos, st := .ready, handler := none, prv := false, sysrec := none } := by
  rw [Strand.resumeAt]
  refine Strand.frag_refill ?_
  rw [Strand.frag_setFrag, if_pos rfl, if_neg hm]

/-- TRET's fragment resumes with the lanes of its entry, or waits for the others. -/
theorem tretResumesLanes_holds : Sys2Proof.Claims.tretResumesLanes := by
  intro st slot f h now hf hh honly
  obtain ⟨xs, hentry⟩ := Strand.ofEntry_tretNoted now hf hh honly
  have htret : st.tret slot now = if (h.mask &&& st.liveLanes &&& ~~~(h.acted ||| f.mask)) = 0
      then (st.tretNoted slot h f.mask now).resumeAt slot (f.tretWaits h now) (h.noted f.mask) else st.tretNoted slot h f.mask now := by
    rw [Strand.tret_eq now hf hh, Strand.tryResume, hentry]
    rfl
  rw [htret]
  refine ⟨fun hz hm => ?_, fun hz => ?_⟩
  · rw [if_pos hz]
    exact ⟨_, Strand.frag_resumeAt _ slot _ _ hm, rfl, rfl, rfl, rfl, rfl, rfl⟩
  · rw [if_neg hz]
    exact ⟨_, Strand.frag_tretNoted now hf hh, rfl, rfl⟩

end Sys2Proof.Machine

namespace Sys2Proof.Proofs
open Sys2Proof.Machine

/-- Settles O13: the words set their transfers (`control_cases`, `exec_tret`); JOIN's by the fragment that it finds waiting
(`Strand.findJoin_some`) and by what a release leaves (`Strand.frag_releaseJoins`), TRET's by the one fragment of its entry
(`Strand.ofEntry_tretNoted`). -/
theorem fragmentTransfers : Obligations.FragmentTransfers :=
  ⟨wholeFragmentTransfers_holds, joinMergesOrWaits_holds, yieldMakesYoungest_holds, handlerReturn_holds, tretResumesLanes_holds,
    exitingLanesLeave_holds, trapWords_holds⟩

end Sys2Proof.Proofs
end

section
/-! What it takes that a parked fragment goes on [09 R176]: it is found, made ready, and its group's transfer is made. -/

namespace Sys2Proof.Machine
open Sys2Proof.Claims

/-! ### Strands that are found -/

theorem Dev.strand?_of_eq {d e : Dev} (hf : e.focus = d.focus) (hs : e.strands = d.strands) (sid : Nat) : e.strand? sid = d.strand? sid := by
  rw [Dev.strand?, Dev.all, hf, hs]
  rfl

theorem Strand.find?_map_id {f : Strand → Strand} (hf : ∀ st, (f st).id = st.id) (sid : Nat) (xs : List Strand) :
    ((xs.map f).filter fun st => st.id != 0).find? (fun st => st.id == sid) =
      ((xs.filter fun st => st.id != 0).find? fun st => st.id == sid).map f := by
  have hfilter : ((fun st : Strand => st.id != 0) ∘ f) = fun st => st.id != 0 := by funext st; simp only [Function.comp, hf]
  have hfind : ((fun st : Strand => st.id == sid) ∘ f) = fun st => st.id == sid := by funext st; simp only [Function.comp, hf]
  rw [List.filter_map, List.find?_map, hfilter, hfind]

/-- A change of every strand that keeps their numbers. -/
theorem Dev.strand?_mapStrands (d : Dev) {f : Strand → Strand} (hf : ∀ st, (f st).id = st.id) (sid : Nat) :
    (d.mapStrands f).strand? sid = (d.strand? sid).map f := by
  have hall : (d.mapStrands f).all = ((d.focus :: d.strands).map f).filter fun st => st.id != 0 := by
    rw [Dev.all, Dev.mapStrands]
    by_cases h0 : d.focus.id = 0 <;> simp [h0, hf]
  rw [Dev.strand?, hall, Strand.find?_map_id hf]
  rfl

/-! ### The files of a strand -/

/-- A strand has the registers, the flags and the results in flight of another. -/
def Strand.sameFiles (a b : Strand) : Prop :=
  b.k = a.k ∧ b.flags = a.flags ∧ b.flights = a.flights ∧
    ∀ l, (b.lane l).g = (a.lane l).g ∧ (b.lane l).p = (a.lane l).p ∧ (b.lane l).m = (a.lane l).m

theorem Strand.sameFiles.refl (a : Strand) : a.sameFiles a := ⟨rfl, rfl, rfl, fun _ => ⟨rfl, rfl, rfl⟩⟩

theorem Strand.sameFiles.trans {a b c : Strand} (h : a.sameFiles b) (k : b.sameFiles c) : a.sameFiles c := by
  obtain ⟨hk, hflags, hflights, hlanes⟩ := h
  obtain ⟨kk, kflags, kflights, klanes⟩ := k
  refine ⟨kk.trans hk, kflags.trans hflags, kflights.trans hflights, fun l => ?_⟩
  obtain ⟨hg, hp, hm⟩ := hlanes l
  obtain ⟨kg, kp, km⟩ := klanes l
  exact ⟨kg.trans hg, kp.trans hp, km.trans hm⟩

theorem Strand.onlyPages.sameFiles {a b : Strand} (h : a.onlyPages b) : a.sameFiles b := by
  refine ⟨(congrArg Strand.k h.1 :), (congrArg Strand.flags h.1 :), (congrArg Strand.flights h.1 :), fun l => ?_⟩
  have hl := h.2 l
  exact ⟨(congrArg Lane.g hl :), (congrArg Lane.p hl :), (congrArg Lane.m hl :)⟩

theorem Strand.onlyWatches.sameFiles {a b : Strand} (h : a.onlyWatches b) : a.sameFiles b :=
  ⟨h.k_eq, (congrArg Strand.flags h.1 :), (congrArg Strand.flights h.1 :), fun l => h.files l⟩

theorem Strand.sameFiles_onFrag (st : Strand) (slot : Fin 4) (g : Frag → Frag) : st.sameFiles (st.onFrag slot g) :=
  ⟨rfl, rfl, rfl, fun _ => ⟨rfl, rfl, rfl⟩⟩

/-! ### The fragment is woken -/

/-- A fragment of the strand in focus is ready, its transfer not yet made. -/
def Frag.ended (f : Frag) : Frag := { f with st := .ready, pend := none }

/-- The device with a strand in focus and a fragment of it ready. -/
def Dev.woken (d : Dev) (sid : Nat) (slot : Fin 4) : Dev := (d.bring sid).onFocus fun st => st.onFrag slot Frag.ended

/-- The transfer that a woken fragment's group made takes effect. -/
def Dev.goOn (d : Dev) (slot : Fin 4) : Option Xfer → Dev
  | none => d
  | some x => d.transfer slot x

theorem Dev.bring_rest (d : Dev) (sid : Nat) : d.bring sid = { d with focus := (d.bring sid).focus, strands := (d.bring sid).strands } := by
  unfold Dev.bring
  split
  · rfl
  · split <;> rfl

/-- Waking changes strands only. -/
theorem Dev.woken_rest (d : Dev) (sid : Nat) (slot : Fin 4) :
    d.woken sid slot = { d with focus := (d.woken sid slot).focus, strands := (d.woken sid slot).strands } := by
  rw [Dev.woken, d.bring_rest sid]
  rfl

theorem Dev.woken_mem (d : Dev) (sid : Nat) (slot : Fin 4) : (d.woken sid slot).mem = d.mem := (congrArg Dev.mem (d.woken_rest sid slot) :)
theorem Dev.woken_clasps (d : Dev) (sid : Nat) (slot : Fin 4) : (d.woken sid slot).clasps = d.clasps :=
  (congrArg Dev.clasps (d.woken_rest sid slot) :)
theorem Dev.woken_cores (d : Dev) (sid : Nat) (slot : Fin 4) : (d.woken sid slot).cores = d.cores :=
  (congrArg Dev.cores (d.woken_rest sid slot) :)
theorem Dev.woken_core (d : Dev) (sid : Nat) (slot : Fin 4) (c : Fin 256) : (d.woken sid slot).core c = d.core c := by
  rw [Dev.core, d.woken_cores]
  rfl
theorem Dev.woken_clasp? (d : Dev) (sid : Nat) (slot : Fin 4) (key : Nat) : (d.woken sid slot).clasp? key = d.clasp? key := by
  rw [Dev.clasp?, d.woken_clasps]
  rfl

section
variable {d : Dev} {sid : Nat} {slot : Fin 4} {u : Strand} {f : Frag}

theorem Dev.woken_focus (hu : d.strand? sid = some u) : (d.woken sid slot).focus = u.onFrag slot Frag.ended := by
  rw [Dev.woken, Dev.onFocus_focus, Dev.focus_bring hu]

theorem Dev.wakeFrag_eq (hu : d.strand? sid = some u) (hf : u.frag slot = some f) :
    d.wakeFrag sid slot = (d.woken sid slot).goOn slot f.pend := by
  rw [Dev.wakeFrag, Dev.focus_bring hu, hf]
  cases hpend : f.pend <;> simp only [hpend] <;> rfl

/-- A woken fragment goes on. -/
theorem goesOn_wakeFrag {t : State} {p : Dev → Prop} (hu : d.strand? sid = some u) (hf : u.frag slot = some f)
    (ht : t.now = d.wakeFrag sid slot) (hp : p (d.woken sid slot)) : goesOn t sid slot f p := by
  have hfocus := Dev.woken_focus (slot := slot) hu
  refine ⟨d.woken sid slot, hp, ?_, ?_, (ht.trans (Dev.wakeFrag_eq hu hf)).trans ?_⟩
  · rw [hfocus]
    exact (Dev.strand?_id hu : u.id = sid)
  · rw [hfocus, Strand.frag_onFrag, if_pos rfl, hf]
    rfl
  · cases f.pend <;> rfl

theorem filesOf_woken {st : Strand} (hu : d.strand? sid = some u) (h : st.sameFiles u) : filesOf (d.woken sid slot) st := by
  rw [filesOf, Dev.woken_focus hu]
  exact h.trans (u.sameFiles_onFrag slot _)

end

/-! ### What an event finds -/

section
variable {s : State} {sid : Nat} {slot : Fin 4} {st : Strand} {f : Frag} {w : Wait}

theorem waitOf_parked (h : parkedOn s sid slot st f w) : s.now.waitOf sid slot = some w := by
  obtain ⟨hs, hf, since, hst⟩ := h
  simp only [Dev.waitOf, hs, hf, hst]

theorem strand?_parked (h : parkedOn s sid slot st f w) : s.now.strand? sid = some st := h.1

/-- The completion of a wait lets the fragment go on with its strand's files and memory kept, and does what its word then does. -/
def waitEnds (i : Instr) (s : State) (sid : Nat) (slot : Fin 4) (st : Strand) (f : Frag) (w : Wait) : Prop :=
  ∃ t, exec i s = .next t ∧
    goesOn t sid slot f fun e => filesOf e st ∧ (∀ k, Mem.get e.mem k = Mem.get s.now.mem k) ∧ waitDoes w st s e

/-- An event that wakes the fragment, on a device that has kept its strand's fragments and files and memory, ends its wait. -/
theorem waitEnds_of_wake {i : Instr} {F : Dev → Dev} {d : Dev} {u : Strand} (hp : parkedOn s sid slot st f w) (hexec : exec i s = s.event F)
    (hF : F s.now = d.wakeFrag sid slot) (hu : d.strand? sid = some u) (hfrags : u.frags = st.frags) (hfiles : st.sameFiles u)
    (hmem : d.mem = s.now.mem) (hdoes : waitDoes w st s (d.woken sid slot)) : waitEnds i s sid slot st f w := by
  obtain ⟨-, hf, -⟩ := hp
  have huf : u.frag slot = some f := by rw [Strand.frag, hfrags]; exact hf
  exact ⟨_, hexec, goesOn_wakeFrag hu huf hF ⟨filesOf_woken hu hfiles, fun k => by rw [d.woken_mem, hmem], hdoes⟩⟩

/-- An event that only wakes the fragment. -/
theorem waitEnds_of_wakeOnly {i : Instr} {F : Dev → Dev} (hp : parkedOn s sid slot st f w) (hexec : exec i s = s.event F)
    (hF : F s.now = s.now.wakeFrag sid slot) (hdoes : waitDoes w st s (s.now.woken sid slot)) : waitEnds i s sid slot st f w :=
  waitEnds_of_wake hp hexec hF (strand?_parked hp) rfl (.refl st) rfl hdoes

end

end Sys2Proof.Machine
end

section
/-! The waits that end without writing a register: AWT, clasps, TLBI, fences, tags, timelines
[06 R110; 14 R230, R238, R239, R247; 16 R257, R264]. -/

namespace Sys2Proof.Machine
open Sys2Proof.Claims

/-! ### Folds -/

/-- What a step establishes for its entry, and every step keeps, holds of all entries after a fold. -/
theorem foldl_establishes {α β : Type} {f : β → α → β} {P : α → β → Prop} (hkeep : ∀ d x y, P x d → P x (f d y))
    (hself : ∀ d x, P x (f d x)) (ys : List α) (d : β) : ∀ x ∈ ys, P x (ys.foldl f d) := by
  have hfold (x : α) (zs : List α) : ∀ d, P x d → P x (zs.foldl f d) := by
    induction zs with
    | nil => exact fun _ h => h
    | cons z zs ih => exact fun d h => ih _ (hkeep d x z h)
  induction ys generalizing d with
  | nil => exact fun x hx => nomatch hx
  | cons y ys ih =>
    intro x hx
    rcases List.mem_cons.mp hx with rfl | hx
    · exact hfold x ys _ (hself d x)
    · exact ih _ x hx

/-! ### AWT and fences [14 R230, R247] -/

theorem Mem.read_eq_map (m : List Host.Cell) (k n : Nat) : Mem.read m k n = (List.range n).map fun i => Mem.get m (k + i) := by
  induction n generalizing k with
  | zero => rfl
  | succ n ih =>
    rw [Mem.read, ih, List.range_succ_eq_map, List.map_cons, List.map_map]
    refine congrArg (_ :: ·) (List.map_congr_left fun i _ => ?_)
    simp only [Function.comp, Nat.succ_eq_add_one, Nat.add_assoc, Nat.add_comm 1 i]

/-- Where no bound write waits to be seen, a party reads memory as it stands. -/
theorem Dev.readFor_noLogs {d : Dev} (h : ∀ c ∈ d.clasps, c.log = []) (party k n : Nat) : d.readFor party k n = Mem.read d.mem k n := by
  have hbyte (j : Nat) : d.byteFor party j = Mem.get d.mem j := by
    rw [Dev.byteFor]
    split
    · rfl
    · next c hc =>
      rw [Clasp.byteFor, Clasp.written, h c (List.mem_of_find?_eq_some hc)]
      rfl
  rw [Dev.readFor, Mem.read_eq_map]
  simp only [hbyte, ite_self]

theorem counterMet_noLogs {d : Dev} (h : ∀ c ∈ d.clasps, c.log = []) (party : Nat) {x : Nat × Nat} (hp : peerOf x.1 = none)
    (hx : x.2 ≤ Mem.num d.mem x.1 8) : d.counterMet party x = true := by
  rw [Dev.counterMet, hp]
  simp only [Dev.readFor_noLogs h]
  exact decide_eq_true hx

section
variable {s : State} {sid : Nat} {slot : Fin 4} {st : Strand} {f : Frag}

theorem awtCompletion_ends {lanes : W32} {ts : List (LaneId × Nat × Nat)} (hp : parkedOn s sid slot st f (.awt lanes ts))
    (hmet : ∀ x ∈ ts, peerOf x.2.1 = none ∧ x.2.2 ≤ Mem.num s.now.mem x.2.1 8) (hlogs : ∀ c ∈ s.now.clasps, c.log = []) :
    waitEnds (.awtCompletion sid slot) s sid slot st f (.awt lanes ts) := by
  have hdone : s.now.countersMet st ts = true := List.all_eq_true.mpr fun x hx => counterMet_noLogs hlogs _ (hmet x hx).1 (hmet x hx).2
  refine waitEnds_of_wakeOnly hp rfl ?_ (s.now.woken_clasps sid slot)
  simp only [waitOf_parked hp, strand?_parked hp, hdone, if_true]

theorem fenceCompletion_ends {ops : List Nat} (hp : parkedOn s sid slot st f (.fence ops))
    (hdone : ∀ n ∈ ops, (∀ o ∈ s.now.ops, o.id ≠ n) ∧ ∀ q ∈ s.now.sigs, q.id ≠ n) :
    waitEnds (.fenceEngineCompletion sid slot) s sid slot st f (.fence ops) := by
  have hfence : s.now.fenceDone ops = true := by
    refine List.all_eq_true.mpr fun n hn => ?_
    obtain ⟨hops, hsigs⟩ := hdone n hn
    simpa using ⟨hops, hsigs⟩
  refine waitEnds_of_wakeOnly hp rfl ?_ (s.now.woken_clasps sid slot)
  simp only [waitOf_parked hp, hfence, if_true]

end

end Sys2Proof.Machine
end

section
/-! CLASP.ACQ and CLASP.UNBIND come to their end [14 R238-R240]. -/

namespace Sys2Proof.Machine
open Sys2Proof.Claims

/-! ### At most the clasps differ -/

/-- At most the clasps differ. -/
def Dev.onlyClasps (d e : Dev) : Prop := e = { d with clasps := e.clasps }

theorem Dev.onlyClasps.trans {d e f : Dev} (h : d.onlyClasps e) (k : e.onlyClasps f) : d.onlyClasps f := by
  unfold Dev.onlyClasps at *
  rw [k, h]

theorem Dev.onlyClasps.foldl {α : Type} {f : Dev → α → Dev} (h : ∀ (d : Dev) x, d.onlyClasps (f d x)) (xs : List α) (d : Dev) :
    d.onlyClasps (xs.foldl f d) := by
  induction xs generalizing d with
  | nil => rfl
  | cons x xs ih => exact (h d x).trans (ih _)

theorem Dev.onlyClasps.strand? {d e : Dev} (h : d.onlyClasps e) (sid : Nat) : e.strand? sid = d.strand? sid :=
  Dev.strand?_of_eq (congrArg Dev.focus h :) (congrArg Dev.strands h :) sid

theorem Dev.onlyClasps.mem {d e : Dev} (h : d.onlyClasps e) : e.mem = d.mem := (congrArg Dev.mem h :)

theorem Dev.onlyClasps_acquireLanes (d : Dev) (st : Strand) (keys : List (LaneId × Nat)) : d.onlyClasps (d.acquireLanes st keys) :=
  Dev.onlyClasps.foldl (f := fun (d : Dev) (x : LaneId × Nat) => d.onClasp (.soft x.2) fun c => c.acquire (partyOf st x.1)) (fun _ _ => rfl) keys d

/-! ### Clasps that are found -/

theorem Dev.clasp?_onClasp (d : Dev) (key : Nat) (name : ClaspName) {f : Clasp → Clasp} (hf : ∀ c, (f c).name = c.name) :
    (d.onClasp name f).clasp? key = (d.clasp? key).map fun c => if c.name == name then f c else c := by
  rw [Dev.clasp?, Dev.onClasp, Dev.clasp?, updWhere, List.find?_map]
  congr 2
  funext c
  simp only [Function.comp]
  split
  · rw [hf]
  · rfl

theorem Dev.clasp?_acquire (d : Dev) (key : Nat) (name : ClaspName) (party : Nat) : (d.onClasp name fun c => c.acquire party).clasp? key =
    (d.clasp? key).map fun c => if c.name == name then c.acquire party else c :=
  d.clasp?_onClasp key name fun _ => rfl

theorem Dev.clasp?_name {d : Dev} {key : Nat} {c : Clasp} (h : d.clasp? key = some c) : c.name = .soft key := by
  simpa using List.find?_some h

/-- No release of the keys' clasps is in progress. -/
theorem releasing_false {d : Dev} {keys : List (LaneId × Nat)} (h : ∀ x ∈ keys, ∀ c, d.clasp? x.2 = some c → c.rels = []) :
    d.releasing keys = false := by
  refine List.any_eq_false.mpr fun x hx => ?_
  cases hc : d.clasp? x.2 with
  | none => simp
  | some c => simp [h x hx c hc]

/-! ### The parties of a strand's lanes -/

theorem partyOf_div (st : Strand) (l : LaneId) : partyOf st l / 256 = st.id * 2 ^ 32 + l.val := by
  rw [partyOf]
  omega

/-- The lanes of a strand are different parties. -/
theorem sameParty_partyOf (st : Strand) (l k : LaneId) : sameParty (partyOf st l) (partyOf st k) = true ↔ l = k := by
  have huniform (l : LaneId) : partyUniform (partyOf st l) = false := by
    rw [partyUniform, partyOf_div, beq_eq_false_iff_ne]
    omega
  rw [sameParty, huniform, huniform, Bool.or_false, Bool.and_false, Bool.or_false, partyOf_div, partyOf_div, beq_iff_eq, Fin.ext_iff]
  omega

/-! ### What an acquire leaves [14 R240] -/

/-- A party has acquired all that a clasp has published. -/
def Clasp.upToDate (c : Clasp) (party : Nat) : Prop :=
  (party, c.order) ∈ c.views ∧ ∀ v ∈ c.views, sameParty v.1 party = true → v.2 = c.order

theorem foldl_max_const {n : Nat} {xs : List Nat} (h : ∀ x ∈ xs, x = n) : xs.foldl max n = n := by
  induction xs with
  | nil => rfl
  | cons x xs ih =>
    rw [List.foldl_cons, h x List.mem_cons_self, max_self]
    exact ih fun y hy => h y (List.mem_cons_of_mem x hy)

theorem Clasp.upToDate.view {c : Clasp} {party : Nat} (hself : sameParty party party = true) (h : c.upToDate party) :
    c.view party = c.order := by
  obtain ⟨hmem, hall⟩ := h
  have hin : c.order ∈ (c.views.filter fun v => sameParty v.1 party).map Prod.snd :=
    List.mem_map.mpr ⟨_, List.mem_filter.mpr ⟨hmem, hself⟩, rfl⟩
  have hconst : ∀ x ∈ (c.views.filter fun v => sameParty v.1 party).map Prod.snd, x = c.order := by
    intro x hx
    obtain ⟨v, hv, rfl⟩ := List.mem_map.mp hx
    obtain ⟨hv, hp⟩ := List.mem_filter.mp hv
    exact hall v hv hp
  rw [Clasp.view]
  cases hl : (c.views.filter fun v => sameParty v.1 party).map Prod.snd with
  | nil => rw [hl] at hin; cases hin
  | cons x xs =>
    rw [hl] at hconst
    rw [List.foldl_cons, hconst x List.mem_cons_self, Nat.zero_max]
    exact foldl_max_const fun y hy => hconst y (List.mem_cons_of_mem x hy)

theorem Clasp.upToDate_acquire (c : Clasp) (party : Nat) : (c.acquire party).upToDate party := by
  refine ⟨List.mem_cons_self, fun v hv hp => ?_⟩
  rcases List.mem_cons.mp hv with rfl | hv
  · rfl
  · have := (List.mem_filter.mp hv).2
    rw [hp] at this
    cases this

/-- An acquire by another lane of the strand leaves a lane up to date. -/
theorem Clasp.upToDate.acquire {c : Clasp} {st : Strand} {l : LaneId} (h : c.upToDate (partyOf st l)) (k : LaneId) :
    (c.acquire (partyOf st k)).upToDate (partyOf st l) := by
  by_cases hkl : k = l
  · rw [hkl]
    exact c.upToDate_acquire _
  · obtain ⟨hmem, hall⟩ := h
    refine ⟨List.mem_cons_of_mem _ (List.mem_filter.mpr ⟨hmem, ?_⟩), fun v hv hp => ?_⟩
    · simp only [Bool.not_eq_true', ← Bool.not_eq_true, sameParty_partyOf]
      exact fun h => hkl h.symm
    · rcases List.mem_cons.mp hv with rfl | hv
      · rfl
      · exact hall v (List.mem_filter.mp hv).1 hp

/-- A lane is up to date with the clasp of its key, where there is one. -/
def Dev.acquired (st : Strand) (x : LaneId × Nat) (d : Dev) : Prop := ∀ c, d.clasp? x.2 = some c → c.upToDate (partyOf st x.1)

theorem acquired_acquireLanes (d : Dev) (st : Strand) (keys : List (LaneId × Nat)) : ∀ x ∈ keys, Dev.acquired st x (d.acquireLanes st keys) := by
  refine foldl_establishes (fun d x y h c hc => ?_) (fun d x c hc => ?_) keys d
  · rw [Dev.clasp?_acquire, Option.map_eq_some_iff] at hc
    obtain ⟨c', hc', rfl⟩ := hc
    split
    · exact (h c' hc').acquire y.1
    · exact h c' hc'
  · rw [Dev.clasp?_acquire, Option.map_eq_some_iff] at hc
    obtain ⟨c', hc', rfl⟩ := hc
    rw [if_pos (beq_iff_eq.mpr (Dev.clasp?_name hc'))]
    exact c'.upToDate_acquire _

/-! ### A binding is removed [14 R238] -/

/-- Where nothing waits to be published, an unbind removes the clasp and does nothing else. -/
theorem Dev.unbind_noLogs {d : Dev} (h : ∀ c ∈ d.clasps, c.log = []) (owner : TxOwner) (name : ClaspName) :
    d.unbind owner name = { d with clasps := d.clasps.filter fun c => c.name != name } := by
  rw [Dev.unbind]
  split
  · next hnone =>
    have hall : d.clasps.filter (fun c => c.name != name) = d.clasps :=
      List.filter_eq_self.mpr fun c hc => by simpa using List.find?_eq_none.mp hnone c hc
    rw [hall]
  · next c hc =>
    rw [h c (List.mem_of_find?_eq_some hc)]
    rfl

/-- The clasps of keys are removed, and nothing else happens. -/
theorem unbindLanes_noLogs (owner : LaneId × Nat → TxOwner) (keys : List (LaneId × Nat)) {d : Dev} (h : ∀ c ∈ d.clasps, c.log = []) :
    keys.foldl (fun d x => d.unbind (owner x) (.soft x.2)) d =
      { d with clasps := d.clasps.filter fun c => keys.all fun x => c.name != .soft x.2 } := by
  induction keys generalizing d with
  | nil => simp
  | cons x xs ih =>
    rw [List.foldl_cons, Dev.unbind_noLogs h, ih fun c hc => h c (List.mem_filter.mp hc).1]
    simp only [List.filter_filter, List.all_cons, Bool.and_comm]

section
variable {s : State} {sid : Nat} {slot : Fin 4} {st : Strand} {f : Frag}

theorem claspAcqCompletion_ends {lanes : W32} {keys : List (LaneId × Nat)} (hp : parkedOn s sid slot st f (.claspAcq lanes keys))
    (hrels : ∀ x ∈ keys, ∀ c, s.now.clasp? x.2 = some c → c.rels = []) :
    waitEnds (.claspAcqCompletion sid slot) s sid slot st f (.claspAcq lanes keys) := by
  have honly := s.now.onlyClasps_acquireLanes st keys
  refine waitEnds_of_wake (d := s.now.acquireLanes st keys) hp rfl ?_ ((honly.strand? sid).trans (strand?_parked hp)) rfl (.refl st)
    honly.mem fun x hx c hc => ?_
  · simp only [waitOf_parked hp, strand?_parked hp, releasing_false hrels, Bool.false_eq_true, if_false]
  · rw [Dev.woken_clasp?] at hc
    exact (acquired_acquireLanes s.now st keys x hx c hc).view ((sameParty_partyOf st x.1 x.1).mpr rfl)

theorem claspUnbindCompletion_ends {keys : List (LaneId × Nat)} (hp : parkedOn s sid slot st f (.unbind keys))
    (hrels : ∀ x ∈ keys, ∀ c, s.now.clasp? x.2 = some c → c.rels = []) (hlogs : ∀ c ∈ s.now.clasps, c.log = []) :
    waitEnds (.claspUnbindCompletion sid slot) s sid slot st f (.unbind keys) := by
  refine waitEnds_of_wake (d := { s.now with clasps := s.now.clasps.filter fun c => keys.all fun x => c.name != .soft x.2 })
    hp rfl ?_ (strand?_parked hp) rfl (.refl st) rfl fun x hx => ?_
  · simp only [waitOf_parked hp, strand?_parked hp, releasing_false hrels, Bool.false_eq_true, if_false]
    rw [unbindLanes_noLogs _ keys hlogs]
  · rw [Dev.woken_clasp?]
    refine List.find?_eq_none.mpr fun c hc hname => ?_
    have hne := List.all_eq_true.mp (List.mem_filter.mp hc).2 x hx
    simp only [bne_iff_ne, ne_eq] at hne
    exact hne (beq_iff_eq.mp hname)

end

end Sys2Proof.Machine
end

section
/-! The waits on tags and timelines come to their end [16 R257-R259, R264]. -/

namespace Sys2Proof.Machine
open Sys2Proof.Claims

section
variable {s : State} {sid : Nat} {slot : Fin 4} {st : Strand} {f : Frag} {w : Wait}

/-- A change of the strand that keeps its fragments and files, before the fragment is woken. -/
theorem waitEnds_of_onStrand {i : Instr} {F : Dev → Dev} {g : Strand → Strand} (hp : parkedOn s sid slot st f w) (hexec : exec i s = s.event F)
    (hF : F s.now = (s.now.onStrand sid g).wakeFrag sid slot) (hid : ∀ x, (g x).id = x.id) (hfrags : (g st).frags = st.frags)
    (hfiles : st.sameFiles (g st)) (hdoes : waitDoes w st s ((s.now.onStrand sid g).woken sid slot)) : waitEnds i s sid slot st f w :=
  waitEnds_of_wake hp hexec hF (Dev.strand?_onStrand (strand?_parked hp) g hid) hfrags hfiles rfl hdoes

theorem Strand.sameFiles_observe (st : Strand) (m seen : W64) : st.sameFiles (st.observe m seen) :=
  ⟨rfl, rfl, rfl, fun _ => ⟨rfl, rfl, rfl⟩⟩

/-- A tag wait that has what it waits for observes its tags. -/
theorem tagWaitCompletion_ends {all : Bool} {m : W64} (hp : parkedOn s sid slot st f w) (htags : w.tags = some (all, m))
    (hmet : st.tagsMet all m = true)
    (hdoes : ∀ e : Dev, (∀ i, e.focus.observed.getLsbD i = (st.observed.getLsbD i || m.getLsbD i && st.tagrdy.getLsbD i)) → waitDoes w st s e) :
    waitEnds (.tagWaitCompletion sid slot) s sid slot st f w := by
  have hu := Dev.strand?_onStrand (strand?_parked hp) (fun st => st.observe m st.tagrdy) fun _ => rfl
  refine waitEnds_of_onStrand (g := fun st => st.observe m st.tagrdy) hp rfl ?_ (fun _ => rfl) rfl (st.sameFiles_observe _ _) (hdoes _ fun i => ?_)
  · simp only [Dev.tagWaitDone, waitOf_parked hp, strand?_parked hp, Option.bind_some, htags, hmet, if_true]
  · rw [Dev.woken_focus hu]
    exact (BitVec.getLsbD_or).trans (congrArg _ BitVec.getLsbD_and)

theorem tagsMet_all {m : W64} (h : ∀ i, m.getLsbD i = true → st.tagrdy.getLsbD i = true) : st.tagsMet true m = true := by
  have hz : m &&& ~~~st.tagrdy = 0 := by
    refine BitVec.eq_of_getLsbD_eq fun i hi => ?_
    rw [BitVec.getLsbD_and, BitVec.getLsbD_not]
    cases hm : m.getLsbD i with
    | false => simp
    | true => simp [h i hm]
  exact beq_iff_eq.mpr hz

theorem tagsMet_any {m : W64} {i : Nat} (hm : m.getLsbD i = true) (ht : st.tagrdy.getLsbD i = true) : st.tagsMet false m = true := by
  refine bne_iff_ne.mpr fun hz => ?_
  have := congrArg (·.getLsbD i) hz
  simp [hm, ht] at this

/-! ### TLWAIT -/

theorem Dev.onlyClasps_acquireSwaps (d : Dev) (st : Strand) (n : Nat) : d.onlyClasps (d.acquireSwaps st n) := by
  unfold Dev.acquireSwaps
  split <;> rfl

/-- The strand after a TLWAIT of it has returned. -/
def Strand.tlNoted (c : EngCtx) (n : W64) (st : Strand) : Strand :=
  { st with tlret := updV st.tlret (ctxIdx c) fun t => if t.toNat < n.toNat then n else t }

theorem Strand.tlNoted_reaches (c : EngCtx) (n : W64) (st : Strand) : n.toNat ≤ ((st.tlNoted c n).tlret[ctxIdx c]).toNat := by
  have h : (st.tlNoted c n).tlret[ctxIdx c] = if st.tlret[ctxIdx c].toNat < n.toNat then n else st.tlret[ctxIdx c] := by
    rw [Strand.tlNoted, getElem_updV, if_pos rfl]
  rw [h]
  split
  · exact le_refl _
  · next hlt => exact Nat.not_lt.mp hlt

theorem Dev.onlyClasps_tlReturn (d : Dev) (st : Strand) (c : EngCtx) (n : W64) :
    (d.onStrand st.id (Strand.tlNoted c n)).onlyClasps (d.tlReturn st c n) := by
  unfold Dev.tlReturn
  dsimp only
  split
  · exact Dev.onlyClasps_acquireSwaps _ st n.toNat
  · rfl

theorem tlwaitCompletion_ends {c : EngCtx} {n : W64} {r : Region} (hp : parkedOn s sid slot st f (.tlwait c n))
    (hr : s.now.region? st.region = some r) (hn : n.toNat ≤ (r.tl c).done) :
    waitEnds (.tlwaitCompletion sid slot) s sid slot st f (.tlwait c n) := by
  have hst := strand?_parked hp
  have hid := Dev.strand?_id hst
  have hdone : s.now.tlwaitDone sid slot = true := by
    simp only [Dev.tlwaitDone, waitOf_parked hp, hst, Dev.completed, hr, Option.map_some, Option.getD_some]
    exact decide_eq_true hn
  have honly := s.now.onlyClasps_tlReturn st c n
  have hu : (s.now.tlReturn st c n).strand? sid = some (st.tlNoted c n) := by
    rw [honly.strand?, hid]
    exact Dev.strand?_onStrand hst _ fun _ => rfl
  refine waitEnds_of_wake (d := s.now.tlReturn st c n) hp rfl ?_ hu rfl ⟨rfl, rfl, rfl, fun _ => ⟨rfl, rfl, rfl⟩⟩ honly.mem ?_
  · simp only [waitOf_parked hp, hst, hdone, if_true]
  · change n.toNat ≤ (((s.now.tlReturn st c n).woken sid slot).focus.tlret[ctxIdx c]).toNat
    rw [Dev.woken_focus hu]
    exact st.tlNoted_reaches c n

end

end Sys2Proof.Machine
end

section
/-! TLBI's sweep [06 R110; 13 R213]. -/

namespace Sys2Proof.Machine
open Sys2Proof.Claims

/-! ### What a sweep keeps of a strand -/

/-- A strand is found with at most its last pages changed, and memory, clasps and regions are as before. -/
structure Dev.sweptFor (d : Dev) (st : Strand) (sid : Nat) (e : Dev) : Prop where
  strand : ∃ u, e.strand? sid = some u ∧ st.onlyPages u
  regions : e.regions = d.regions
  mem : e.mem = d.mem
  clasps : e.clasps = d.clasps

section
variable {d e : Dev} {st : Strand} {sid : Nat}

/-- A change of last pages keeps the strand. -/
theorem Dev.sweptFor.mapStrands (h : d.sweptFor st sid e) {f : Strand → Strand} (hf : ∀ x : Strand, x.onlyPages (f x)) :
    d.sweptFor st sid (e.mapStrands f) := by
  obtain ⟨⟨u, hu, hpages⟩, hregions, hmem, hclasps⟩ := h
  refine ⟨⟨f u, ?_, hpages.trans (hf u)⟩, hregions, hmem, hclasps⟩
  rw [e.strand?_mapStrands (fun x => (congrArg Strand.id (hf x).1 :)), hu]
  rfl

theorem Dev.sweptFor.onCore (h : d.sweptFor st sid e) (c : Fin 256) (f : Core → Core) : d.sweptFor st sid (e.onCore c f) :=
  ⟨h.strand, h.regions, h.mem, h.clasps⟩

theorem Dev.sweptFor.uncounted (h : d.sweptFor st sid e) (hd : d.uncounted) : e.uncounted := by
  rw [Dev.uncounted, h.regions]
  exact hd

/-- The last pages of a core's strands that a dropped translation leaves. -/
def Strand.dropPage (c : Fin 256) (e : TlbEntry) (st : Strand) : Strand :=
  if st.core = c then { st with lanes := mapV st.lanes fun l => if l.lastPage = some e.x then { l with lastPage := none } else l } else st

theorem Strand.onlyPages_dropPage (c : Fin 256) (e : TlbEntry) (st : Strand) : st.onlyPages (st.dropPage c e) := by
  unfold Strand.dropPage
  split
  · exact st.onlyPages_mapLanes fun x => by split <;> rfl
  · exact .refl st

/-- A translation leaves its core's buffer and the last pages that hold it. -/
def Dev.xlatDropped (d : Dev) (c : Fin 256) (x : TlbEntry) : Dev :=
  (d.mapStrands (Strand.dropPage c x)).onCore c fun k => { k with tlb := k.tlb.filter fun y => y != x }

/-- Without shadow tables nothing else changes. -/
theorem Dev.dropXlat_uncounted (hd : d.uncounted) (c : Fin 256) (x : TlbEntry) :
    d.dropXlat c x = d.xlatDropped c x := by
  have hdrop : (d.xlatDropped c x).uncounted := hd
  have heq : d.dropXlat c x = if pteHot x.x.leaf then (d.xlatDropped c x).addShadow x.x.region x.x.base x.count else d.xlatDropped c x := rfl
  rw [heq, Dev.addShadow_uncounted hdrop, ite_self]

theorem Dev.sweptFor.dropXlat (h : d.sweptFor st sid e) (hd : d.uncounted) (c : Fin 256) (x : TlbEntry) : d.sweptFor st sid (e.dropXlat c x) := by
  rw [Dev.dropXlat_uncounted (h.uncounted hd)]
  exact (h.mapStrands (Strand.onlyPages_dropPage c x)).onCore c _

/-- The last pages that a sweep of a core leaves. -/
def Strand.sweepPages (c : Fin 256) (hit : Xlat → Bool) (st : Strand) : Strand :=
  if st.core = c then { st with lanes := mapV st.lanes fun l => { l with lastPage := l.lastPage.filter fun x => !hit x } } else st

theorem Strand.onlyPages_sweepPages (c : Fin 256) (hit : Xlat → Bool) (st : Strand) : st.onlyPages (st.sweepPages c hit) := by
  unfold Strand.sweepPages
  split
  · exact st.onlyPages_mapLanes fun x => rfl
  · exact .refl st

theorem Dev.sweep_eq (d : Dev) (c : Fin 256) (hit : Xlat → Bool) :
    d.sweep c hit = ((d.core c).tlb.filter fun e => hit e.x).foldl (fun d e => d.dropXlat c e) (d.mapStrands (Strand.sweepPages c hit)) := rfl

theorem Dev.sweptFor.foldl {α : Type} {f : Dev → α → Dev} (hf : ∀ (e : Dev) x, d.sweptFor st sid e → d.sweptFor st sid (f e x))
    (xs : List α) (h : d.sweptFor st sid e) : d.sweptFor st sid (xs.foldl f e) := by
  induction xs generalizing e with
  | nil => exact h
  | cons x xs ih => exact ih (hf e x h)

theorem Dev.sweptFor.sweep (h : d.sweptFor st sid e) (hd : d.uncounted) (c : Fin 256) (hit : Xlat → Bool) : d.sweptFor st sid (e.sweep c hit) := by
  rw [Dev.sweep_eq]
  exact Dev.sweptFor.foldl (fun _ x h => h.dropXlat hd c x) _ (h.mapStrands (Strand.onlyPages_sweepPages c hit))

end

/-! ### What a sweep leaves in the buffers -/

/-- The translations that a core's buffer loses. -/
theorem Dev.tlb_dropXlat {d : Dev} (hd : d.uncounted) (c k : Fin 256) (x y : TlbEntry) :
    y ∈ ((d.dropXlat c x).core k).tlb ↔ y ∈ (d.core k).tlb ∧ (c = k → y ≠ x) := by
  rw [Dev.dropXlat_uncounted hd, Dev.xlatDropped, Dev.core_onCore]
  have hcore (c : Fin 256) : (d.mapStrands (Strand.dropPage c x)).core = d.core := rfl
  rw [hcore]
  split
  · next h =>
    subst h
    rw [List.mem_filter, bne_iff_ne]
    simp
  · next h => simp [h]

theorem Dev.uncounted_dropXlat {d : Dev} (hd : d.uncounted) (c : Fin 256) (x : TlbEntry) : (d.dropXlat c x).uncounted := by
  rw [Dev.dropXlat_uncounted hd]
  exact hd

/-- The translations that a list of drops leaves. -/
theorem Dev.tlb_dropXlats (c k : Fin 256) (y : TlbEntry) (xs : List TlbEntry) {d : Dev} (hd : d.uncounted) :
    y ∈ ((xs.foldl (fun d e => d.dropXlat c e) d).core k).tlb ↔ y ∈ (d.core k).tlb ∧ (c = k → y ∉ xs) := by
  induction xs generalizing d with
  | nil => simp
  | cons x xs ih =>
    rw [List.foldl_cons, ih (Dev.uncounted_dropXlat hd c x), Dev.tlb_dropXlat hd, and_assoc]
    refine and_congr_right fun _ => ?_
    rw [List.mem_cons, not_or, imp_and]

theorem Dev.tlb_sweep {d : Dev} (hd : d.uncounted) (c k : Fin 256) (hit : Xlat → Bool) (y : TlbEntry) :
    y ∈ ((d.sweep c hit).core k).tlb ↔ y ∈ (d.core k).tlb ∧ (c = k → hit y.x = false) := by
  have hmapped : (d.mapStrands (Strand.sweepPages c hit)).uncounted := hd
  rw [Dev.sweep_eq, Dev.tlb_dropXlats _ _ _ _ hmapped]
  have hcore : (d.mapStrands (Strand.sweepPages c hit)).core = d.core := rfl
  rw [hcore]
  refine and_congr_right fun hy => ⟨fun h hk => ?_, fun h hk hin => ?_⟩
  · subst hk
    by_contra hhit
    exact h rfl (List.mem_filter.mpr ⟨hy, by simpa using hhit⟩)
  · have := (List.mem_filter.mp hin).2
    simp [h hk] at this

/-- The device after a sweep of several cores. -/
def Dev.sweepCores (d : Dev) (cs : List (Fin 256)) (hit : Xlat → Bool) : Dev := cs.foldl (fun d c => d.sweep c hit) d

theorem Dev.uncounted_sweep {d : Dev} (hd : d.uncounted) (c : Fin 256) (hit : Xlat → Bool) : (d.sweep c hit).uncounted := by
  rw [Dev.sweep_eq]
  have hfold (xs : List TlbEntry) : ∀ d : Dev, d.uncounted → (xs.foldl (fun d e => d.dropXlat c e) d).uncounted := by
    induction xs with
    | nil => exact fun _ h => h
    | cons x xs ih => exact fun d h => ih _ (Dev.uncounted_dropXlat h c x)
  exact hfold _ _ hd

/-- A sweep of everything leaves no translation in the cores that it covers. -/
theorem Dev.tlb_sweepCores (cs : List (Fin 256)) {d : Dev} (hd : d.uncounted) {k : Fin 256} (hk : k ∈ cs) :
    ((d.sweepCores cs fun _ => true).core k).tlb = [] := by
  have hmem : ∀ (cs : List (Fin 256)) (d : Dev), d.uncounted → ∀ y, y ∈ ((d.sweepCores cs fun _ => true).core k).tlb →
      y ∈ (d.core k).tlb ∧ k ∉ cs := by
    intro cs
    induction cs with
    | nil => exact fun d _ y hy => ⟨hy, List.not_mem_nil⟩
    | cons c cs ih =>
      intro d hd y hy
      obtain ⟨hin, hnot⟩ := ih _ (Dev.uncounted_sweep hd c _) y hy
      rw [Dev.tlb_sweep hd] at hin
      obtain ⟨hin, hck⟩ := hin
      refine ⟨hin, fun hmem => ?_⟩
      rcases List.mem_cons.mp hmem with rfl | hmem
      · exact Bool.noConfusion (hck rfl)
      · exact hnot hmem
  exact List.eq_nil_iff_forall_not_mem.mpr fun y hy => (hmem cs d hd y hy).2 hk

/-! ### The completion -/

/-- The caches of TLBI's scope are swept, and its fragment goes on. -/
theorem tlbiCompletion_ends {s : State} {sid : Nat} {slot : Fin 4} {st : Strand} {f : Frag} {kind : TlbiKind} {scope : Scope} {va root : W64}
    (hp : parkedOn s sid slot st f (.tlbi kind scope va root)) (hd : s.now.uncounted) :
    waitEnds (.tlbiSweepCompletion sid slot) s sid slot st f (.tlbi kind scope va root) := by
  have hstart : s.now.sweptFor st sid s.now := ⟨⟨st, strand?_parked hp, .refl st⟩, rfl, rfl, rfl⟩
  have hswept : s.now.sweptFor st sid (s.now.sweepCores (scopeCores scope st.core) (tlbiHits kind st.region va root)) :=
    Dev.sweptFor.foldl (fun _ c h => h.sweep hd c _) _ hstart
  obtain ⟨u, hu, hpages⟩ := hswept.strand
  refine waitEnds_of_wake hp rfl ?_ hu (congrArg Strand.frags hpages.1 :) hpages.sameFiles hswept.mem ?_
  · simp only [waitOf_parked hp, strand?_parked hp]
    rfl
  · unfold waitDoes
    split
    case h_3 heq =>
      cases heq
      exact fun c => (congrArg Core.tlb (Dev.woken_core ..)).trans (Dev.tlb_sweepCores _ hd (List.mem_finRange c))
    case h_4 heq =>
      cases heq
      exact (congrArg Core.tlb (Dev.woken_core ..)).trans (Dev.tlb_sweepCores _ hd List.mem_cons_self)
    case h_8 => exact (Dev.woken_clasps ..).trans hswept.clasps
    all_goals next heq => cases heq

end Sys2Proof.Machine
end

section
/-! The waits of `waitRule` end. -/

namespace Sys2Proof.Machine
open Sys2Proof.Claims

/-- A parked fragment whose wait is over goes on, and its completion does what its word then does. -/
theorem waitsEnd_holds : Sys2Proof.Claims.waitsEnd := by
  intro i s sid slot c st f w hi hp hc hlogs hhot
  unfold waitRule at hi
  split at hi
  case h_1 => cases hi; obtain ⟨lanes, ts, rfl, hmet⟩ := hc; exact awtCompletion_ends hp hmet hlogs
  case h_2 => cases hi; obtain ⟨lanes, keys, rfl, hrels⟩ := hc; exact claspAcqCompletion_ends hp hrels
  case h_3 => cases hi; obtain ⟨keys, rfl, hrels⟩ := hc; exact claspUnbindCompletion_ends hp hrels hlogs
  case h_4 => cases hi; obtain ⟨kind, scope, va, root, rfl⟩ := hc; exact tlbiCompletion_ends hp hhot
  case h_5 => cases hi; obtain ⟨ops, rfl, hdone⟩ := hc; exact fenceCompletion_ends hp hdone
  case h_6 =>
    cases hi
    obtain ⟨m, ⟨rfl, hall⟩ | ⟨rfl, i, hm, ht⟩⟩ := hc
    · exact tagWaitCompletion_ends hp rfl (tagsMet_all hall) fun _ h => h
    · exact tagWaitCompletion_ends hp rfl (tagsMet_any hm ht) fun _ h => h
  case h_7 => cases hi; obtain ⟨c, n, r, rfl, hr, hn⟩ := hc; exact tlwaitCompletion_ends hp hr hn
  case h_8 => cases hi

end Sys2Proof.Machine
end

section
/-! The waits that end with a resource: watches, banks, layers [13 R218; 14 R243; 19 R317]. -/

namespace Sys2Proof.Machine
open Sys2Proof.Claims

theorem Strand.onlyWatches.frags {a b : Strand} (h : a.onlyWatches b) : b.frags = a.frags := (congrArg Strand.frags h.1 :)

theorem Strand.onlyWatches.frag {a b : Strand} (h : a.onlyWatches b) (i : Fin 4) : b.frag i = a.frag i := by
  rw [Strand.frag, h.frags]
  rfl

/-! ### MWAIT [14 R243, R244] -/

theorem Lane.reports_iff (x : Lane) (det : Bool) : x.reports det = true ↔ reportsWatch x det := by
  rw [Lane.reports, reportsWatch]
  cases x.watch with
  | none => simp
  | some w => simp

/-- A pre-emption dropped the watch of a lane of a mask, and no lane of it holds one. -/
theorem maskDropped_iff (st : Strand) (lanes : W32) :
    (((lanesOf lanes).any fun l => (st.lane l).monDrop) && (lanesOf lanes).all fun l => (st.lane l).watch.isNone) = true ↔
      maskDropped st lanes := by
  simp only [maskDropped, Bool.and_eq_true, List.any_eq_true, List.all_eq_true, mem_lanesOf, Option.isNone_iff_eq_none]

/-- The predicate of each lane tells what the MWAIT reports. -/
theorem Strand.rp_mwaitReturn (st : Strand) {lanes : W32} {pd : PReg} (hpd : pd ≠ 7) {l : LaneId} (hl : hasLane lanes l = true) :
    ((st.mwaitReturn lanes pd).lane l).rp pd = true ↔ maskDropped st lanes ∨ reportsWatch (st.lane l) st.det := by
  rw [← maskDropped_iff, ← Lane.reports_iff, ← Bool.or_eq_true, Strand.mwaitReturn, Strand.lane_onLanes, if_pos hl]
  exact iff_of_eq (congrArg (· = true) ((Lane.rp_wp _ pd pd _).trans (if_pos ⟨rfl, hpd⟩)))

theorem Strand.lane_onFrag (st : Strand) (slot : Fin 4) (g : Frag → Frag) (l : LaneId) : (st.onFrag slot g).lane l = st.lane l := rfl

theorem Strand.mwaitReturn_frags (st : Strand) (lanes : W32) (pd : PReg) : (st.mwaitReturn lanes pd).frags = st.frags := by
  simp only [Strand.mwaitReturn, Strand.onLanes]

section
variable {s : State} {sid : Nat} {slot : Fin 4} {st : Strand} {f : Frag} {lanes : W32} {pd : PReg} {n : Nat}

/-- An event that ends a parked MWAIT. -/
theorem goesOn_mwaitEnd {F : Dev → Dev} (hp : parkedOn s sid slot st f (.mwait lanes pd n)) (hpd : pd ≠ 7)
    (hF : F s.now = s.now.mwaitEnd sid slot lanes pd) : ∃ t, s.event F = .next t ∧ goesOn t sid slot f (reportsTo st lanes pd) := by
  have hu := Dev.strand?_onStrand (strand?_parked hp) (fun st => st.mwaitReturn lanes pd) fun _ => by
    simp only [Strand.mwaitReturn, Strand.onLanes_id]
  have hfrag : (st.mwaitReturn lanes pd).frag slot = some f := by
    rw [Strand.frag, st.mwaitReturn_frags, ← Strand.frag, hp.2.1]
  refine ⟨_, rfl, goesOn_wakeFrag hu hfrag hF fun l hl => ?_⟩
  rw [Dev.woken_focus hu, Strand.lane_onFrag]
  exact st.rp_mwaitReturn hpd hl

theorem mwaitWake_ends (hp : parkedOn s sid slot st f (.mwait lanes pd n)) (hpd : pd ≠ 7)
    (hover : (∃ l w, hasLane lanes l = true ∧ (st.lane l).watch = some w ∧ w.hit = true) ∨
      ∀ l, hasLane lanes l = true → (st.lane l).watch = none) :
    ∃ t, exec (.mwaitWake sid slot) s = .next t ∧ goesOn t sid slot f (reportsTo st lanes pd) := by
  have hnow : s.now.mwaitNow st lanes = true := by
    rw [Dev.mwaitNow, Bool.or_eq_true, Bool.or_eq_true, List.all_eq_true, List.any_eq_true]
    rcases hover with ⟨l, w, hl, hw, hhit⟩ | hnone
    · exact Or.inl (Or.inr ⟨l, mem_lanesOf.mpr hl, (Lane.reports_iff _ _).mpr ⟨w, hw, Or.inl hhit⟩⟩)
    · exact Or.inl (Or.inl fun l hl => by rw [hnone l (mem_lanesOf.mp hl)]; rfl)
  refine goesOn_mwaitEnd hp hpd (F := _) ?_
  simp only [waitOf_parked hp, strand?_parked hp, hnow, if_true]

theorem mwaitTimeout_ends (hp : parkedOn s sid slot st f (.mwait lanes pd n)) (hpd : pd ≠ 7)
    (hlate : n ≤ if st.det then st.others else s.now.cycle) :
    ∃ t, exec (.mwaitTimeout sid slot) s = .next t ∧ goesOn t sid slot f (reportsTo st lanes pd) := by
  have hdone : s.now.mwaitLate st n = true := decide_eq_true hlate
  refine goesOn_mwaitEnd hp hpd (F := _) ?_
  simp only [waitOf_parked hp, strand?_parked hp, hdone, if_true]

end

/-! ### CFREE and CALLOC [13 R218] -/

section
variable {s : State} {sid : Nat} {slot : Fin 4} {st : Strand} {f : Frag}

theorem cfreeCompletion_ends {first fid : Nat} {run : BankRun} (hp : parkedOn s sid slot st f (.cfree first fid))
    (hrun : (s.now.core st.core).banks.find? (fun r => r.first == first) = some run) (hbusy : s.now.banksBusy st.core run = false) :
    ∃ t, exec (.cfreeCompletion sid slot) s = .next t ∧ goesOn t sid slot f fun e => ∀ r ∈ (e.core st.core).banks, r.first ≠ first := by
  obtain ⟨u, hu, hkept⟩ := (s.now.strandsKept_dropBanks st.core st.region first).strand? (strand?_parked hp)
  generalize hd : s.now.dropBanks st.core st.region first = d at hu
  have hquad : (d.onQuad st.core st.quad fun q => { q with accessN := q.accessN - 1 }).strand? sid = some u := hu
  have hu' := Dev.strand?_onStrand hquad (fun st => { st with flights := st.flights.filter fun f => f.id != fid }) fun _ => rfl
  have hfrag : u.frag slot = some f := (hkept.frag slot).trans hp.2.1
  refine ⟨_, rfl, goesOn_wakeFrag hu' hfrag ?_ fun r hr => ?_⟩
  · simp only [State.onDev, waitOf_parked hp, strand?_parked hp, hrun, hbusy, Bool.false_eq_true, if_false, hd]
  · rw [Dev.woken_core] at hr
    have hbanks : ((d.onQuad st.core st.quad fun q => { q with accessN := q.accessN - 1 }).core st.core).banks = (d.core st.core).banks := by
      rw [Dev.onQuad, Dev.core_onCore, if_pos rfl]
    have hr' : r ∈ (d.core st.core).banks := hbanks ▸ hr
    rw [← hd, Dev.banks_dropBanks, if_pos rfl] at hr'
    simpa using (List.mem_filter.mp hr').2

theorem Dev.strandsKept_takeBanks (d : Dev) (c : Fin 256) (region task first n : Nat) : d.strandsKept (d.takeBanks c region task first n) := by
  have hcore : d.strandsKept (d.onCore c fun k => { k with banks := k.banks ++ [{ first := first, n := n, task := task, closing := false }] }) :=
    .of_eq rfl rfl
  exact (hcore.trans (Dev.strandsKept_updChain _ region fun r => { r with useBanks := r.useBanks + n })).trans (.of_eq rfl rfl)

/-- The banks that a task takes are open to it. -/
theorem Dev.bankOf_takeBanks (d : Dev) (c : Fin 256) (region task first : Nat) {n : Nat} (hn : 1 ≤ n) :
    bankOf ((d.takeBanks c region task first n).core c) task first := by
  have hcores : (d.takeBanks c region task first n).core c =
      (d.onCore c fun k => { k with banks := k.banks ++ [{ first := first, n := n, task := task, closing := false }] }).core c := by
    have h := (Dev.onlyBooks_updChain (d.onCore c fun k =>
      { k with banks := k.banks ++ [{ first := first, n := n, task := task, closing := false }] }) region
        fun r => { r with useBanks := r.useBanks + n }).cores
    exact congrArg (·[c]) h
  rw [hcores, Dev.core_onCore, if_pos rfl]
  exact ⟨_, List.mem_append_right _ List.mem_cons_self, rfl, rfl, le_refl _, Nat.lt_add_of_pos_right hn⟩

theorem callocGrant_grants {n : Nat} {l : LaneId} {first : Nat} (hp : parkedOn s sid slot st f (.calloc n l)) (hn : 1 ≤ n)
    (hfree : (s.now.core st.core).findBanks n = some first) (hbudget : n ≤ s.now.bankBudget st.region) :
    ∃ t, exec (.callocGrant sid slot) s = .next t ∧
      goesOn t sid slot { f with bank := [first] } fun e => bankOf (e.core st.core) (st.laneTask l) first := by
  obtain ⟨u, hu, hkept⟩ := (s.now.strandsKept_takeBanks st.core st.region (st.laneTask l) first n).strand? (strand?_parked hp)
  have hu' := Dev.strand?_onStrand hu (fun st => st.onFrag slot fun f => { f with bank := [first] }) fun _ => rfl
  have hfrag : (u.onFrag slot fun f => { f with bank := [first] }).frag slot = some { f with bank := [first] } := by
    rw [Strand.frag_onFrag, if_pos rfl, hkept.frag, hp.2.1]
    rfl
  refine ⟨_, rfl, goesOn_wakeFrag hu' hfrag ?_ ?_⟩
  · simp only [State.onDev, waitOf_parked hp, strand?_parked hp, hfree, if_neg (Nat.not_lt.mpr hbudget)]
  · rw [Dev.woken_core]
    exact s.now.bankOf_takeBanks st.core st.region (st.laneTask l) first hn

theorem callocGrant_fails {n : Nat} {l : LaneId} (hp : parkedOn s sid slot st f (.calloc n l)) (hbudget : s.now.bankBudget st.region < n) :
    ∃ t, exec (.callocGrant sid slot) s = .next t ∧ goesOn t sid slot f fun e => filesOf e st ∧ e.mem = s.now.mem := by
  refine ⟨_, rfl, goesOn_wakeFrag (strand?_parked hp) hp.2.1 ?_ ⟨filesOf_woken (strand?_parked hp) (.refl st), s.now.woken_mem sid slot⟩⟩
  simp only [State.onDev, waitOf_parked hp, strand?_parked hp, if_pos hbudget]

/-! ### LYWAIT [19 R317] -/

theorem Dev.strandsKept_writeFor (d : Dev) (party k : Nat) (bs : List Byte) : d.strandsKept (d.writeFor party k bs) := by
  have hfree : d.strandsKept (d.storeFree k bs) :=
    .foldl (fun d x => .trans (.of_eq (Dev.store_focus _ _ _) (Dev.store_strands _ _ _)) (Dev.strandsKept_trigger _ _ _)) _ _
  unfold Dev.writeFor
  split
  · exact hfree.trans (.of_eq rfl rfl)
  · exact .trans (.of_eq (Dev.store_focus _ _ _) (Dev.store_strands _ _ _)) (Dev.strandsKept_trigger _ _ _)

theorem Dev.strandsKept_layerPut (d : Dev) (r : Region) (layer off n v : Nat) : d.strandsKept (d.layerPut r layer off n v) := by
  unfold Dev.layerPut
  cases h : d.schedWrite r.space (r.parure + 64 + 64 * layer + off) (toBytes n v) with
  | none => exact .refl d
  | some e =>
    obtain ⟨ks, -, rfl⟩ := Option.map_eq_some_iff.mp h
    exact .foldl (fun d x => d.strandsKept_writeFor _ _ _) _ _

theorem Dev.strandsKept_takeLayers (d : Dev) (st : Strand) (ls : List (LaneId × Nat × Nat)) : d.strandsKept (d.takeLayers st ls) := by
  refine .foldl (fun d x => ?_) ls d
  split
  · exact .refl d
  · exact .trans (.of_eq rfl rfl) (Dev.strandsKept_layerPut _ _ _ _ _ _)

theorem lywaitCompletion_ends {ls : List (LaneId × Nat × Nat)} (hp : parkedOn s sid slot st f (.lywait ls))
    (hres : ∀ x ∈ ls, ∃ r, s.now.region? x.2.1 = some r ∧ s.now.layerState r x.2.2 = 2) :
    ∃ t lanes, exec (.lywaitCompletion sid slot) s = .next t ∧ (∀ l, hasLane lanes l = true ↔ ∃ x ∈ ls, x.1 = l) ∧
      goesOn t sid slot { f with layers := f.layers ++ [(f.pc, f.pos, lanes)] } fun e => filesOf e st := by
  have hall : s.now.allResident ls = true := List.all_eq_true.mpr fun x hx => by
    obtain ⟨r, hr, hstate⟩ := hres x hx
    simp only [hr, hstate, beq_self_eq_true]
  obtain ⟨u, hu, hkept⟩ := (s.now.strandsKept_takeLayers st ls).strand? (strand?_parked hp)
  generalize hlanes : (maskOf fun l => ls.any fun x => x.1 == l) = lanes
  have hu' := Dev.strand?_onStrand hu (fun st => st.onFrag slot fun f => { f with layers := f.layers ++ [(f.pc, f.pos, lanes)] }) fun _ => rfl
  have hfrag : (u.onFrag slot fun f => { f with layers := f.layers ++ [(f.pc, f.pos, lanes)] }).frag slot =
      some { f with layers := f.layers ++ [(f.pc, f.pos, lanes)] } := by
    rw [Strand.frag_onFrag, if_pos rfl, hkept.frag, hp.2.1]
    rfl
  refine ⟨_, lanes, rfl, fun l => ?_, goesOn_wakeFrag hu' hfrag ?_ (filesOf_woken hu' (hkept.sameFiles.trans (u.sameFiles_onFrag slot _)))⟩
  · rw [← hlanes, hasLane_maskOf]
    simp
  · simp only [State.onDev, waitOf_parked hp, strand?_parked hp, hall, if_true, hlanes]

end

end Sys2Proof.Machine
end

section
/-! A barrier completes [14 R246]. -/

namespace Sys2Proof.Machine
open Sys2Proof.Claims

/-! ### The other strands while one is woken -/

section
variable {d : Dev} {sid : Nat} {st : Strand}

/-- A strand of a device whose strands have different numbers is found by its number. -/
theorem Dev.strand?_of_mem (hnodup : (d.all.map Strand.id).Nodup) (hst : st ∈ d.all) : d.strand? st.id = some st := by
  cases hfind : d.strand? st.id with
  | none => exact absurd (beq_self_eq_true st.id) (List.find?_eq_none.mp hfind st hst)
  | some u =>
    rw [List.inj_on_of_nodup_map hnodup (List.mem_of_find?_eq_some hfind) hst (Dev.strand?_id hfind)]

theorem Dev.strand?_zero (d : Dev) : d.strand? 0 = none := by
  cases h : d.strand? 0 with
  | none => rfl
  | some st => exact absurd rfl (Dev.strand?_ne_zero h)

/-- Only a strand without a number is passed over. -/
theorem Dev.strand?_eq_find {k : Nat} (hk : k ≠ 0) (d : Dev) : d.strand? k = (d.focus :: d.strands).find? fun x => x.id == k := by
  rw [Dev.strand?, Dev.all, List.find?_filter]
  congr 1
  funext x
  by_cases hx : x.id = k <;> simp [hx, hk]

/-- Bringing a strand into focus loses no strand. -/
theorem Dev.strand?_bring (h : d.strand? sid = some st) (k : Nat) : (d.bring sid).strand? k = d.strand? k := by
  have h0 := Dev.strand?_ne_zero h
  have hid := Dev.strand?_id h
  by_cases hzero : k = 0
  · rw [hzero, Dev.strand?_zero, Dev.strand?_zero]
  by_cases hk : k = sid
  · rw [hk, h, Dev.strand?_focus (by rw [Dev.focus_bring h, hid]) h0, Dev.focus_bring h]
  by_cases hf : d.focus.id = sid
  · rw [Dev.bring, if_pos hf]
  have hfocus := Dev.focus_bring h
  rw [Dev.strand?_eq_find h0, List.find?_cons_of_neg (by simp [hf])] at h
  have hstrands : (d.bring sid).strands = (if d.focus.id = 0 then [] else [d.focus]) ++ d.strands.filter fun x => x.id != sid := by
    rw [Dev.bring, if_neg hf, h]
  have hst : ¬ (st.id == k) = true := by simp [hid, Ne.symm hk]
  have hrest : (d.strands.filter fun x => x.id != sid).find? (fun x => x.id == k) = d.strands.find? fun x => x.id == k := by
    rw [List.find?_filter]
    congr 1
    funext x
    by_cases hx : x.id = k <;> simp [hx, hk]
  rw [Dev.strand?_eq_find hzero, Dev.strand?_eq_find hzero, hfocus, hstrands,
    List.find?_cons_of_neg (p := fun x : Strand => x.id == k) hst]
  by_cases hz : d.focus.id = 0
  · rw [if_pos hz, List.nil_append, hrest, List.find?_cons_of_neg (by simp [hz, Ne.symm hzero])]
  · rw [if_neg hz, List.singleton_append, List.find?_cons, List.find?_cons, hrest]

/-- A change of the strand in focus that keeps its number. -/
theorem Dev.strand?_onFocus {g : Strand → Strand} (hg : ∀ x, (g x).id = x.id) (h0 : d.focus.id ≠ 0) (k : Nat) :
    (d.onFocus g).strand? k = if k = d.focus.id then some (g d.focus) else d.strand? k := by
  by_cases hzero : k = 0
  · rw [hzero, Dev.strand?_zero, Dev.strand?_zero, if_neg h0.symm]
  rw [Dev.strand?_eq_find hzero, Dev.strand?_eq_find hzero]
  split
  · next hk => exact List.find?_cons_of_pos (by simp [hg, hk])
  · next hk =>
    rw [Dev.onFocus_focus, Dev.onFocus_strands, List.find?_cons_of_neg (by simp [hg, Ne.symm hk]),
      List.find?_cons_of_neg (by simp [Ne.symm hk])]

end

/-- Two changes of one fragment are one. -/
theorem Strand.onFrag_onFrag (st : Strand) (slot : Fin 4) (f g : Frag → Frag) :
    (st.onFrag slot f).onFrag slot g = st.onFrag slot fun x => g (f x) := by
  have hfrags : updV (updV st.frags slot (Option.map f)) slot (Option.map g) = updV st.frags slot (Option.map fun x => g (f x)) := by
    refine Vector.ext fun i hi => ?_
    have h1 := getElem_updV (updV st.frags slot (Option.map f)) slot ⟨i, hi⟩ (Option.map g)
    have h2 := getElem_updV st.frags slot ⟨i, hi⟩ (Option.map fun x => g (f x))
    have h3 := fun j => getElem_updV st.frags slot j (Option.map f)
    simp only [h3, if_true, Option.map_map] at h1
    refine h1.trans (Eq.trans ?_ h2.symm)
    split <;> rfl
  exact congrArg (fun fs => { st with frags := fs }) hfrags

theorem Dev.onFocus_onFrag_twice (d : Dev) (slot : Fin 4) (f g : Frag → Frag) :
    ((d.onFocus fun st => st.onFrag slot f).onFocus fun st => st.onFrag slot g) = d.onFocus fun st => st.onFrag slot fun x => g (f x) :=
  congrArg (fun u => { d with focus := u }) (d.focus.onFrag_onFrag slot f g)

/-! ### A fragment that falls through its wait word -/

/-- The fragment goes on at a place. -/
def Frag.fallen (pc : W64) (pos : Fin 3) (f : Frag) : Frag := { f with st := .ready, pend := none, pc := pc, pos := pos }

section
variable {d : Dev} {sid : Nat} {slot : Fin 4} {u : Strand} {f : Frag} {pc : W64} {pos : Fin 3}

/-- A woken fragment whose group fell through is at its place, and no other strand has changed. -/
theorem Dev.strand?_wakeFall (hu : d.strand? sid = some u) (hf : u.frag slot = some f) (ha : f.aside = none)
    (hpend : f.pend = some (.fall pc pos)) (k : Nat) :
    (d.wakeFrag sid slot).strand? k = if k = sid then some (u.onFrag slot (Frag.fallen pc pos)) else d.strand? k := by
  have hid := Dev.strand?_id hu
  have h0 := Dev.strand?_ne_zero hu
  have hslot : (u.onFrag slot Frag.ended).frag slot = some f.ended := by rw [Strand.frag_onFrag, if_pos rfl, hf]; rfl
  have hwake : d.wakeFrag sid slot = (d.bring sid).onFocus fun st => st.onFrag slot (Frag.fallen pc pos) := by
    rw [Dev.wakeFrag_eq hu hf, hpend, Dev.goOn, Dev.transfer, Dev.woken_focus hu, hslot]
    simp only [Frag.ended, ha, Option.isSome_none, Bool.false_eq_true, if_false]
    exact Dev.onFocus_onFrag_twice (d.bring sid) slot Frag.ended _
  have hfocus : (d.bring sid).focus.id = sid := by rw [Dev.focus_bring hu, hid]
  rw [hwake, Dev.strand?_onFocus (g := fun st => st.onFrag slot (Frag.fallen pc pos)) (fun _ => rfl) (hfocus.symm ▸ h0 : (d.bring sid).focus.id ≠ 0), hfocus,
    Dev.focus_bring hu, Dev.strand?_bring hu]

end

/-! ### All fragments of a strand, and all strands of a task -/

/-- The fragments of a strand have different slots. -/
theorem Strand.pairwise_live (st : Strand) : st.live.Pairwise fun x y => x.1 ≠ y.1 := by
  refine List.Pairwise.filterMap _ (fun i j hij x hx y hy => ?_) (List.nodup_finRange 4)
  obtain ⟨f, -, rfl⟩ := Option.map_eq_some_iff.mp hx
  obtain ⟨g, -, rfl⟩ := Option.map_eq_some_iff.mp hy
  exact hij

/-- A fragment that its strand's barrier lets go on falls through its BAR. -/
def Frag.fallsThrough (f : Frag) : Prop := f.aside = none ∧ ∃ pc pos, f.pend = some (.fall pc pos)

/-- A strand's fragment has fallen through where its BAR's group went. -/
def Frag.hasFallen (f : Frag) (g : Option Frag) : Prop := ∀ pc pos, f.pend = some (.fall pc pos) → g = some (f.fallen pc pos)

theorem Frag.hasFallen_fallen {f : Frag} {pc : W64} {pos : Fin 3} (hpend : f.pend = some (.fall pc pos)) :
    f.hasFallen (some (f.fallen pc pos)) := by
  intro pc' pos' h
  rw [hpend, Option.some.injEq, Xfer.fall.injEq] at h
  rw [h.1, h.2]

/-- Waking fragments of a strand lets each of them fall through; its other fragments and the other strands stay. -/
theorem Dev.wakeFrags_fall (sid : Nat) (xs : List (Fin 4 × Frag)) (hxs : xs.Pairwise fun x y => x.1 ≠ y.1) {d : Dev} {u : Strand}
    (hu : d.strand? sid = some u) (hfrag : ∀ x ∈ xs, u.frag x.1 = some x.2 ∧ x.2.fallsThrough) :
    (∀ k, k ≠ sid → (xs.foldl (fun d x => d.wakeFrag sid x.1) d).strand? k = d.strand? k) ∧
    ∃ v, (xs.foldl (fun d x => d.wakeFrag sid x.1) d).strand? sid = some v ∧ (∀ x ∈ xs, x.2.hasFallen (v.frag x.1)) ∧
      ∀ i, (∀ x ∈ xs, x.1 ≠ i) → v.frag i = u.frag i := by
  induction xs generalizing d u with
  | nil => exact ⟨fun _ _ => rfl, u, hu, fun x hx => (nomatch hx), fun _ _ => rfl⟩
  | cons x xs ih =>
    obtain ⟨hne, hxs⟩ := List.pairwise_cons.mp hxs
    obtain ⟨hf, ha, pc, pos, hpend⟩ := hfrag x List.mem_cons_self
    have hstep := Dev.strand?_wakeFall hu hf ha hpend
    have hu' : (d.wakeFrag sid x.1).strand? sid = some (u.onFrag x.1 (Frag.fallen pc pos)) := by rw [hstep, if_pos rfl]
    have hother (i : Fin 4) (hi : x.1 ≠ i) : (u.onFrag x.1 (Frag.fallen pc pos)).frag i = u.frag i := by
      rw [Strand.frag_onFrag, if_neg hi]
    obtain ⟨hrest, v, hv, hfallen, hkept⟩ := ih hxs hu' fun y hy => by
      rw [hother y.1 (hne y hy)]
      exact hfrag y (List.mem_cons_of_mem x hy)
    refine ⟨fun k hk => (hrest k hk).trans ((hstep k).trans (if_neg hk)), v, hv, fun y hy => ?_, fun i hi => ?_⟩
    · rcases List.mem_cons.mp hy with rfl | hy
      · rw [hkept y.1 fun z hz h => hne z hz h.symm, Strand.frag_onFrag, if_pos rfl, hf]
        exact Frag.hasFallen_fallen hpend
      · exact hfallen y hy
    · rw [hkept i fun y hy => hi y (List.mem_cons_of_mem x hy), hother i (hi x List.mem_cons_self)]

/-- A device with every fragment of a strand woken. -/
def Dev.wakeLive (d : Dev) (st : Strand) : Dev := st.live.foldl (fun d x => d.wakeFrag st.id x.1) d

/-- Every fragment of each strand of a group falls through; the other strands stay. -/
theorem Dev.wakeGroup_fall (g : List Strand) (hg : g.Pairwise fun a b => a.id ≠ b.id) {d : Dev}
    (hfound : ∀ st ∈ g, d.strand? st.id = some st) (hfrags : ∀ st ∈ g, ∀ x ∈ st.live, x.2.fallsThrough) :
    (∀ k, (∀ st ∈ g, st.id ≠ k) → (g.foldl Dev.wakeLive d).strand? k = d.strand? k) ∧
    ∀ st ∈ g, ∃ v, (g.foldl Dev.wakeLive d).strand? st.id = some v ∧ ∀ x ∈ st.live, x.2.hasFallen (v.frag x.1) := by
  induction g generalizing d with
  | nil => exact ⟨fun _ _ => rfl, fun st hst => (nomatch hst)⟩
  | cons st g ih =>
    obtain ⟨hne, hg⟩ := List.pairwise_cons.mp hg
    obtain ⟨hothers, v, hv, hfallen, -⟩ := Dev.wakeFrags_fall st.id st.live st.pairwise_live (hfound st List.mem_cons_self)
      fun x hx => ⟨Strand.mem_live.mp hx, hfrags st List.mem_cons_self x hx⟩
    obtain ⟨hrest, hgroup⟩ := ih (d := d.wakeLive st) hg
      (fun u hu => (hothers u.id (hne u hu).symm).trans (hfound u (List.mem_cons_of_mem st hu)))
      fun u hu => hfrags u (List.mem_cons_of_mem st hu)
    refine ⟨fun k hk => ?_, fun u hu => ?_⟩
    · exact (hrest k fun u hu => hk u (List.mem_cons_of_mem st hu)).trans (hothers k (hk st List.mem_cons_self).symm)
    · rcases List.mem_cons.mp hu with rfl | hu
      · exact ⟨v, (hrest u.id fun w hw => (hne w hw).symm).trans hv, hfallen⟩
      · exact hgroup u hu

/-- Every fragment of a task that waits at its barrier goes on. -/
theorem barrierCompletion_ends {tid : Nat} {s : State} (ht : tid ≠ 0) (hnodup : (s.now.all.map Strand.id).Nodup)
    (hsome : ∃ st ∈ s.now.all, st.task = tid)
    (hall : ∀ st ∈ s.now.all, st.task = tid → st.casketBusy = false ∧ st.live ≠ [] ∧ ∀ x ∈ st.live, x.2.atBar = true ∧ x.2.fallsThrough) :
    ∃ t, exec (.barrierCompletion tid) s = .next t ∧ ∀ st ∈ s.now.all, st.task = tid →
      ∃ u, t.now.strand? st.id = some u ∧ ∀ x ∈ st.live, x.2.hasFallen (u.frag x.1) := by
  have hmem {st : Strand} : st ∈ s.now.barGroup tid ↔ st ∈ s.now.all ∧ st.task = tid := by
    rw [Dev.barGroup, if_neg ht, List.mem_filter, beq_iff_eq]
  have hdone : barDone (s.now.barGroup tid) = true := by
    refine Bool.and_eq_true_iff.mpr ⟨?_, List.all_eq_true.mpr fun st hst => ?_⟩
    · obtain ⟨st, hst⟩ := hsome
      simpa using List.ne_nil_of_mem (hmem.mpr hst)
    · obtain ⟨hin, htask⟩ := hmem.mp hst
      obtain ⟨hbusy, hlive, hfrags⟩ := hall st hin htask
      have hbar : st.atBar = true :=
        Bool.and_eq_true_iff.mpr ⟨by simpa using hlive, List.all_eq_true.mpr fun x hx => (hfrags x hx).1⟩
      rw [hbar, hbusy]
      rfl
  have hpairs : (s.now.barGroup tid).Pairwise fun a b => a.id ≠ b.id := by
    rw [Dev.barGroup, if_neg ht]
    exact (List.pairwise_map.mp hnodup).filter _
  obtain ⟨-, hgroup⟩ := Dev.wakeGroup_fall (s.now.barGroup tid) hpairs (fun st hst => Dev.strand?_of_mem hnodup (hmem.mp hst).1)
    fun st hst x hx => ((hall st (hmem.mp hst).1 (hmem.mp hst).2).2.2 x hx).2
  have hexec : exec (.barrierCompletion tid) s = .next (s.onDev fun d => (s.now.barGroup tid).foldl Dev.wakeLive d) := by
    change execBarrierCompletion tid s = _
    simp only [execBarrierCompletion, State.event, State.onDev, if_neg ht, hdone, if_true]
    rfl
  exact ⟨_, hexec, fun st hst htask => hgroup st (hmem.mpr ⟨hst, htask⟩)⟩

end Sys2Proof.Machine
end

section
/-! The parked MACQs of a quadrant [07 R126; 09 R179, R180]. -/

namespace Sys2Proof.Machine
open Sys2Proof.Claims

/-! ### The parked requests -/

theorem insertReq_perm (x : Strand × Fin 4 × Frag) (ys : List (Strand × Fin 4 × Frag)) : (insertReq x ys).Perm (x :: ys) := by
  induction ys with
  | nil => exact .refl _
  | cons y ys ih =>
    rw [insertReq]
    split
    · exact .refl _
    · exact (ih.cons y).trans (.swap x y ys)

theorem sortReqs_perm (xs : List (Strand × Fin 4 × Frag)) : (xs.foldr insertReq []).Perm xs := by
  induction xs with
  | nil => exact .refl _
  | cons x xs ih => exact (insertReq_perm x _).trans (ih.cons x)

/-- The fragments of a quadrant that wait for blocks, with their strands and slots. -/
def Dev.macqWaiters (d : Dev) (core : Fin 256) (quad : Fin 4) : List (Strand × Fin 4 × Frag) :=
  (d.all.filter fun st => st.core == core && st.quad == quad).flatMap fun st =>
    (st.live.filter fun x => x.2.macqWait.isSome).map fun x => (st, x.1, x.2)

/-- What a waiting fragment asks for. -/
def reqOf (x : Strand × Fin 4 × Frag) : MacqReq := (x.1, x.2.1, (x.2.2.macqWait).getD 0)

theorem Dev.macqParked_eq (d : Dev) (core : Fin 256) (quad : Fin 4) :
    d.macqParked core quad = ((d.macqWaiters core quad).foldr insertReq []).map reqOf := rfl

/-- A parked request is of a strand of the quadrant. -/
theorem Dev.mem_macqParked {d : Dev} {core : Fin 256} {quad : Fin 4} {x : MacqReq} (h : x ∈ d.macqParked core quad) :
    x.1 ∈ d.all ∧ x.1.core = core ∧ x.1.quad = quad := by
  rw [Dev.macqParked_eq] at h
  obtain ⟨y, hy, rfl⟩ := List.mem_map.mp h
  obtain ⟨st, hst, hin⟩ := List.mem_flatMap.mp ((sortReqs_perm _).mem_iff.mp hy)
  obtain ⟨z, -, rfl⟩ := List.mem_map.mp hin
  obtain ⟨hall, hplace⟩ := List.mem_filter.mp hst
  rw [Bool.and_eq_true, beq_iff_eq, beq_iff_eq] at hplace
  exact ⟨hall, hplace⟩

/-- Two requests are of different fragments. -/
def MacqReq.apart (x y : MacqReq) : Prop := ¬ (x.1.id = y.1.id ∧ x.2.1 = y.2.1)

/-- No fragment has two parked requests. -/
theorem Dev.pairwise_macqParked {d : Dev} (hnodup : (d.all.map Strand.id).Nodup) (core : Fin 256) (quad : Fin 4) :
    (d.macqParked core quad).Pairwise MacqReq.apart := by
  have hwaiters : (d.macqWaiters core quad).Pairwise fun x y => MacqReq.apart (reqOf x) (reqOf y) := by
    refine List.pairwise_flatMap.mpr ⟨fun st _ => ?_, ?_⟩
    · exact List.pairwise_map.mpr ((st.pairwise_live.filter _).imp fun hne h => hne h.2)
    · refine ((List.pairwise_map.mp hnodup).filter _).imp fun hne x hx y hy h => hne ?_
      obtain ⟨_, -, rfl⟩ := List.mem_map.mp hx
      obtain ⟨_, -, rfl⟩ := List.mem_map.mp hy
      exact h.1
  rw [Dev.macqParked_eq, List.pairwise_map]
  refine ((sortReqs_perm _).pairwise_iff fun {x y} h => ?_).mpr hwaiters
  exact fun hsame => h ⟨hsame.1.symm, hsame.2.symm⟩

/-! ### Grants -/

theorem Dev.strandsKept_countBlocks (d : Dev) (region n : Nat) : d.strandsKept (d.countBlocks region n) := Dev.strandsKept_updChain _ _ _

/-- Blocks that are taken disturb no strand, and take no time. -/
theorem Dev.takeBlocks_keeps {d e : Dev} {st : Strand} {n : Nat} (h : d.takeBlocks st n = some e) : d.strandsKept e ∧ e.cycle = d.cycle := by
  unfold Dev.takeBlocks at h
  dsimp only at h
  split at h
  · cases h
    exact ⟨.trans (.of_eq rfl rfl) (Dev.strandsKept_countBlocks _ _ _), (Dev.onlyBooks_updChain _ _ _).upkeep.cycle⟩
  · split at h
    · cases h
      exact ⟨.trans (.of_eq rfl rfl) (Dev.strandsKept_countBlocks _ _ _), (Dev.onlyBooks_updChain _ _ _).upkeep.cycle⟩
    · cases h

/-- Blocks within the pool and the budgets are available. -/
theorem Dev.takeBlocks_available {d : Dev} {st : Strand} {n : Nat} (hfree : n ≤ (d.quad st.core st.quad).free)
    (hbudget : n ≤ d.blockBudget st.region) : ∃ e, d.takeBlocks st n = some e :=
  ⟨_, if_pos (le_min hfree hbudget)⟩

/-- The fragment with its grant. -/
def Frag.granting (n at_ : Nat) (f : Frag) : Frag := { f.wake with grant := n + 1, grantAt := at_ }

/-- One request is granted if its blocks are available. -/
def Dev.grantOne (d : Dev) (x : MacqReq) : Dev :=
  match d.takeBlocks ((d.strand? x.1.id).getD x.1) x.2.2 with
  | none => d
  | some e => e.onStrand x.1.id fun st => st.onFrag x.2.1 (Frag.granting x.2.2 e.cycle)

theorem Dev.grantParked_cons (d : Dev) (x : MacqReq) (xs : List MacqReq) : d.grantParked (x :: xs) = (d.grantOne x).grantParked xs := by
  obtain ⟨st, slot, n⟩ := x
  rw [Dev.grantParked, Dev.grantOne]
  cases d.takeBlocks ((d.strand? st.id).getD st) n <;> rfl

section
variable {d : Dev} {sid : Nat} {slot : Fin 4} {u : Strand}

/-- A strand after the strands of a number were changed. -/
theorem Dev.strand?_onStrand_of (hu : d.strand? sid = some u) {k : Nat} (hk : k ≠ 0) {g : Strand → Strand} (hg : ∀ x, (g x).id = x.id) :
    (d.onStrand k g).strand? sid = some (if u.id == k then g u else u) := by
  have hid (x : Strand) : (if (x.id == k) = true then g x else x).id = x.id := by split <;> simp only [hg]
  rw [Dev.strand?, Dev.all, d.strands_onStrand hk g, Strand.find?_map_id hid]
  exact congrArg (Option.map _) hu

/-- A grant to another fragment leaves a fragment as it is. -/
theorem Dev.frag_grantOne (hu : d.strand? sid = some u) {x : MacqReq} (hx : x.1.id ≠ 0) (hother : ¬ (x.1.id = sid ∧ x.2.1 = slot)) :
    ∃ v, (d.grantOne x).strand? sid = some v ∧ v.frag slot = u.frag slot := by
  rw [Dev.grantOne]
  cases he : d.takeBlocks ((d.strand? x.1.id).getD x.1) x.2.2 with
  | none => exact ⟨u, hu, rfl⟩
  | some e =>
    obtain ⟨w, hw, hkept⟩ := (Dev.takeBlocks_keeps he).1.strand? hu
    have hwid := Dev.strand?_id hw
    refine ⟨_, Dev.strand?_onStrand_of hw hx fun _ => rfl, ?_⟩
    split
    · next hsame =>
      have hslot : x.2.1 ≠ slot := fun h => hother ⟨(beq_iff_eq.mp hsame).symm.trans hwid, h⟩
      rw [Strand.frag_onFrag, if_neg hslot, hkept.frag]
    · exact hkept.frag slot

theorem Dev.frag_grantParked (xs : List MacqReq) (hxs : ∀ x ∈ xs, x.1.id ≠ 0 ∧ ¬ (x.1.id = sid ∧ x.2.1 = slot))
    (hu : d.strand? sid = some u) :
    ∃ v, (d.grantParked xs).strand? sid = some v ∧ v.frag slot = u.frag slot := by
  induction xs generalizing d u with
  | nil => exact ⟨u, hu, rfl⟩
  | cons x xs ih =>
    obtain ⟨hx, hother⟩ := hxs x List.mem_cons_self
    obtain ⟨w, hw, hwfrag⟩ := Dev.frag_grantOne hu hx hother
    obtain ⟨v, hv, hvfrag⟩ := ih (fun y hy => hxs y (List.mem_cons_of_mem x hy)) hw
    exact ⟨v, by rw [Dev.grantParked_cons, hv], hvfrag.trans hwfrag⟩

end

/-- The first parked request of a quadrant is granted when its blocks are available. -/
theorem macqParkedGrant_grants {core : Fin 256} {quad : Fin 4} {s : State} {st : Strand} {slot : Fin 4} {f : Frag} {n : Nat} {rest : List MacqReq}
    (hnodup : (s.now.all.map Strand.id).Nodup) (hparked : s.now.macqParked core quad = (st, slot, n) :: rest) (hf : st.frag slot = some f)
    (hfree : n ≤ (s.now.quad core quad).free) (hbudget : n ≤ s.now.blockBudget st.region) :
    ∃ t u, exec (.macqParkedGrant core quad) s = .next t ∧ t.now.strand? st.id = some u ∧
      u.frag slot = some { f with st := .ready, grant := n + 1, grantAt := s.now.cycle } := by
  have hmem (x : MacqReq) (hx : x ∈ (st, slot, n) :: rest) := Dev.mem_macqParked (hparked.symm ▸ hx : x ∈ s.now.macqParked core quad)
  obtain ⟨hst, hcore, hquad⟩ := hmem _ List.mem_cons_self
  have hfound := Dev.strand?_of_mem hnodup hst
  rw [← hcore, ← hquad] at hfree
  obtain ⟨e, he⟩ := Dev.takeBlocks_available hfree hbudget
  obtain ⟨hstrands, hcycle⟩ := Dev.takeBlocks_keeps he
  obtain ⟨w, hw, hkept⟩ := hstrands.strand? hfound
  have hgrant : s.now.grantOne (st, slot, n) = e.onStrand st.id fun x => x.onFrag slot (Frag.granting n s.now.cycle) := by
    simp only [Dev.grantOne, hfound, Option.getD_some, he, hcycle]
  have hfirst : (s.now.grantOne (st, slot, n)).strand? st.id = some (w.onFrag slot (Frag.granting n s.now.cycle)) := by
    rw [hgrant]
    exact Dev.strand?_onStrand hw _ fun _ => rfl
  have hapart := (List.pairwise_cons.mp (hparked ▸ Dev.pairwise_macqParked hnodup core quad)).1
  obtain ⟨v, hv, hvfrag⟩ := Dev.frag_grantParked (slot := slot) rest (fun x hx =>
    ⟨by simpa using (List.mem_filter.mp (hmem x (List.mem_cons_of_mem _ hx)).1).2, fun h => hapart x hx ⟨h.1.symm, h.2.symm⟩⟩) hfirst
  have hexec : exec (.macqParkedGrant core quad) s = .next (s.onDev fun d => d.grantParked (d.macqParked core quad)) := rfl
  refine ⟨_, v, hexec, ?_, ?_⟩
  · simp only [State.onDev, hparked, Dev.grantParked_cons, hv]
  · rw [hvfrag, Strand.frag_onFrag, if_pos rfl, hkept.frag, hf]
    rfl

/-- The waits for a resource end when it is there. -/
theorem resourceWaitsEnd_holds : Sys2Proof.Claims.resourceWaitsEnd := by
  refine ⟨fun sid slot s st f lanes pd n hp hpd => ⟨mwaitWake_ends hp hpd, mwaitTimeout_ends hp hpd⟩,
    fun sid slot s st f first fid run hp hrun hbusy => cfreeCompletion_ends hp hrun hbusy,
    fun sid slot s st f n l hp hn => ⟨fun first hfree hbudget => callocGrant_grants hp hn hfree hbudget, callocGrant_fails hp⟩,
    fun sid slot s st f ls hp hres => lywaitCompletion_ends hp hres,
    fun tid s ht hnodup hsome hall => ?_,
    fun core quad s st slot f n rest hnodup hparked hf hfree hbudget => macqParkedGrant_grants hnodup hparked hf hfree hbudget⟩
  obtain ⟨t, hexec, hgroup⟩ := barrierCompletion_ends ht hnodup hsome hall
  refine ⟨t, hexec, fun st hst htask x hx pc pos hpend => ?_⟩
  obtain ⟨u, hu, hfallen⟩ := hgroup st hst htask
  exact ⟨u, hu, hfallen x hx pc pos hpend⟩

end Sys2Proof.Machine

namespace Sys2Proof.Proofs
open Sys2Proof.Machine

/-- Settles O39: an event that finds its wait over wakes the fragment (`goesOn_wakeFrag`); each completion is one lemma about what it
does to its device before. -/
theorem waitsEnd : Obligations.WaitsEnd := ⟨waitsEnd_holds, resourceWaitsEnd_holds⟩

end Sys2Proof.Proofs
end
